-- ==== Sys2Proof/Word.lean ====
section
/-! DEFINITION. The word types and their plainest arithmetic: what every layer above uses and no rule of the spec changes. -/

namespace Sys2Proof

/-- A 32-bit register word (00_scope Table DOC.1). -/
abbrev Word := BitVec 32
/-- One byte. -/
abbrev Byte := BitVec 8

/-- A sparse store: pairs of a key and a value, keys strictly rising, no pair equal to the default the store reads. -/
abbrev Cells (α : Type) := List (Nat × α)

end Sys2Proof
end

