-- ==== Sys2Proof/Config.lean ====
section
/-! DEFINITION. What an implementation fixes and the spec does not: free values. Each is a constant without a body, so a
claim about the model holds whatever it is. -/

namespace Sys2Proof.Config

/-- A free value drawn fresh: applied to the counter `State.freeCtr`, which the drawing step advances (log 2). -/
opaque freeValue : Nat → BitVec 64

/-- Bytes of the external flash as the board ships it, by flash address (log 10; R337 gives a layout, no contents). -/
opaque flashInit : Nat → Byte

/-- SHA-256 of the default update key held in the boot ROM (13_fuse R266: a ROM constant the spec does not give). -/
opaque defaultKeyHash : BitVec 256

/-- Boot ROM version, SYS_ID bits 7:0 (14_start Table SYS.9 gives the field, no value). -/
opaque romVersion : Byte

/-- Number of the channel between two islands in CHAN_DROP's data (14_start Table SYS.8; no numbering is given): applied to
the sender's place in Table SHF.1. -/
opaque chanNumber : Nat → BitVec 32

/-- Site, row, rack and shelf as configured, bits 31:12 of the entity path (00_scope R7; log 12). -/
opaque place : BitVec 20

/-- What a quotient reads whose divisor is 0, applied to the dividend (04_gain R71 gives rdiv no such result; log 82). -/
opaque divByZero : Int → Int

/-- The eight check bits of a store word (15_parameter_store R298: the code is named, its matrix is not). -/
opaque checkBits : BitVec 64 → BitVec 8

/-- The syndrome of a store word whose cells read back in error (15_parameter_store Table NVP.7). -/
opaque syndrome : BitVec 72 → BitVec 8

/-- Where within its stated error a thermistor temperature lies: the value at code x, pull-up, R25 and beta departs from
the formula by this, limited to 1/16 °C either way (08_battery R153). -/
opaque ntcError : Nat → Nat → Nat → Nat → Int

/-- The data bytes with which a slot module answers a read request, by the free-value counter (09_slot R196: the slot's own). -/
opaque slotData : Nat → List Byte

/-- Where the tables region of a bank holds a word of the coefficient bank, the curve window, the impedance template or the OCV
table (17_field_update Table UPD.1 gives the region, no layout within it; log 14): applied to the word's BAR0 offset. -/
opaque tablePlace : Nat → Nat

/-- Where within its region the result of an overlay or of a slot image stands, by part kind and param (log 14). -/
opaque partPlace : Nat → Nat → Nat

end Sys2Proof.Config
end

