-- ==== Sys2Proof/Machine/Operands.lean ====
section
/-! DEFINITION. Operand forms: the rounding, saturation and fixed-point conversions that the chapters name (rne and satN of
02_sense R36, rdiv of 04_gain R71), signed reading of register fields, bytes, and the sparse stores. -/

namespace Sys2Proof

/-- rdiv(n, d): n / d to the nearest integer, halves to even (04_gain R71). With a zero divisor, to which the spec gives no
result, a free value (log 82). -/
def rdiv (n d : Int) : Int :=
  if d = 0 then Config.divByZero n else
    let n' := if d < 0 then -n else n
    let d' := if d < 0 then -d else d
    let q := n' / d'
    let r := n' - q * d'
    if 2 * r < d' then q else if 2 * r > d' then q + 1 else if q % 2 = 0 then q else q + 1

/-- rne(v, s): v / 2^s, halves to even (02_sense R36). -/
def rne (v : Int) (s : Nat) : Int := rdiv v (2 ^ s)

/-- satN(v): v limited to the signed N-bit range (02_sense R36). -/
def satN (n : Nat) (v : Int) : Int := max (-(2 ^ (n - 1) : Int)) (min ((2 ^ (n - 1) : Int) - 1) v)

/-- v limited to [lo, hi]. -/
def clampI (lo hi v : Int) : Int := max lo (min hi v)

/-- The signed value of the low w bits of n. -/
def sgn (w n : Nat) : Int :=
  let m := n % 2 ^ w
  if m < 2 ^ (w - 1) then (m : Int) else (m : Int) - 2 ^ w

/-- The low w bits of an integer, as a natural number. -/
def toBits (w : Nat) (v : Int) : Nat := (v % (2 ^ w : Int)).toNat

/-- The low 32 bits of an integer, as a word. -/
def word32 (v : Int) : Word := BitVec.ofInt 32 v

/-- Bits hi:lo of n. -/
def bits (n hi lo : Nat) : Nat := (n >>> lo) % 2 ^ (hi - lo + 1)

/-- Bit k of n. -/
def bitAt (n k : Nat) : Bool := Nat.testBit n k

/-- A Bool as 0 or 1. -/
def b2n (b : Bool) : Nat := if b then 1 else 0

/-- The entry of a vector replaced by its image. -/
def modAt {α : Type} {n : Nat} (v : Vector α n) (i : Fin n) (f : α → α) : Vector α n := v.set i.1 (f v[i]) i.2

/-- Every entry of a vector replaced by its image, the index given. -/
def mapFin {α β : Type} {n : Nat} (v : Vector α n) (f : Fin n → α → β) : Vector β n := Vector.ofFn (fun i => f i v[i])

/-! ### Sparse stores -/

/-- The cell listed for a key. -/
def cellGet? {α : Type} : Cells α → Nat → Option α
  | [], _ => none
  | (a, v) :: m, k => if k = a then some v else if k < a then none else cellGet? m k

/-- What a store reads at a key: the listed cell, or d. -/
def cellGet {α : Type} (d : α) (m : Cells α) (k : Nat) : α := (cellGet? m k).getD d

/-- A store without the cell of a key. -/
def cellDel {α : Type} : Cells α → Nat → Cells α
  | [], _ => []
  | (a, v) :: m, k => if k = a then m else if k < a then (a, v) :: m else (a, v) :: cellDel m k

/-- A store with a cell listed. -/
def cellIns {α : Type} : Cells α → Nat → α → Cells α
  | [], k, x => [(k, x)]
  | (a, v) :: m, k, x => if k = a then (k, x) :: m else if k < a then (k, x) :: (a, v) :: m else (a, v) :: cellIns m k x

/-- A write: the value an unlisted key reads removes the cell. -/
def cellPut {α : Type} [DecidableEq α] (d : α) (m : Cells α) (k : Nat) (x : α) : Cells α :=
  if x = d then cellDel m k else cellIns m k x

/-- The canonical form of a store whose unlisted keys read d: keys strictly rising, no cell equal to d. -/
def cellsWf {α : Type} [DecidableEq α] (d : α) : Cells α → Bool
  | [] => true
  | [(_, v)] => decide (v ≠ d)
  | (a, v) :: (b, w) :: m => decide (v ≠ d) && decide (a < b) && cellsWf d ((b, w) :: m)

/-! ### Bytes -/

/-- n bytes of a number, byte 0 (the lowest) first. -/
def leBytes : Nat → Nat → List Byte
  | 0, _ => []
  | n + 1, v => BitVec.ofNat 8 v :: leBytes n (v / 256)

/-- The number whose bytes, lowest first, are given. -/
def leNat : List Byte → Nat
  | [] => 0
  | b :: bs => b.toNat + 256 * leNat bs

/-- The number whose bytes, highest first, are given. -/
def beNat (bs : List Byte) : Nat := leNat bs.reverse

/-- n bytes of a number, the highest first. -/
def beBytes (n v : Nat) : List Byte := (leBytes n v).reverse

/-- Bytes o to o+n-1 of a list; bytes beyond its end are 0. -/
def byteSlice (bs : List Byte) (o n : Nat) : List Byte :=
  let t := (bs.drop o).take n
  t ++ List.replicate (n - t.length) 0

/-- The little-endian number in bytes o to o+n-1 of a list. -/
def leAt (bs : List Byte) (o n : Nat) : Nat := leNat (byteSlice bs o n)

/-- Largest of a list of integers, or d. -/
def maxI (d : Int) (l : List Int) : Int := l.foldl max d

/-- Sum of a list of integers. -/
def sumI (l : List Int) : Int := l.foldl (· + ·) 0

/-- The indices below n at which p holds, ascending. -/
def finsWhere (n : Nat) (p : Fin n → Bool) : List (Fin n) := (List.finRange n).filter p

/-- Sum of f over the indices below n. -/
def sumFin (n : Nat) (f : Fin n → Int) : Int := sumI ((List.finRange n).map f)

/-- Does p hold at every index below n? -/
def allFin (n : Nat) (p : Fin n → Bool) : Bool := (List.finRange n).all p

/-- Does p hold at some index below n? -/
def anyFin (n : Nat) (p : Fin n → Bool) : Bool := (List.finRange n).any p

/-- A state threaded through the indices below n, ascending. -/
def foldFin {σ : Type} (n : Nat) (s : σ) (f : σ → Fin n → σ) : σ := (List.finRange n).foldl f s

end Sys2Proof
end

