-- ==== Sys2Proof/Machine/Crc.lean ====
section
/-! DEFINITION. The cyclic checks: CRC-16 of slot frames (09_slot R178), CRC-4 of CLM words (10_redundancy R206), CRC-32 of
IEEE 802.3 and CRC-8 of two-wire messages. -/

namespace Sys2Proof

/-- One bit into a non-reflected CRC register of w bits with polynomial p. -/
def crcBit (w p c : Nat) (b : Bool) : Nat :=
  let fb := bitAt c (w - 1) != b
  let c' := c * 2 % 2 ^ w
  if fb then c' ^^^ p else c'

/-- The bits of a byte, highest first. -/
def msbBits (b : Byte) : List Bool := (List.range 8).map (fun i => b.toNat.testBit (7 - i))

/-- CRC-16: polynomial 0x1021, initial value 0xFFFF (09_slot R178). -/
def crc16 (bs : List Byte) : Nat := (bs.flatMap msbBits).foldl (crcBit 16 0x1021) 0xFFFF

/-- CRC-4: polynomial x^4 + x + 1, initial value 0xF (10_redundancy R206). -/
def crc4 (b : Byte) : Nat := (msbBits b).foldl (crcBit 4 0x3) 0xF

/-- CRC-8: polynomial x^8 + x^2 + x + 1, initial value 0 (19_two_wire, SMBus PEC). -/
def crc8 (bs : List Byte) : Nat := (bs.flatMap msbBits).foldl (crcBit 8 0x07) 0

/-- One byte into the reflected CRC-32 register. -/
def crc32Byte (c : Nat) (b : Byte) : Nat :=
  (List.range 8).foldl (fun c _ => if c % 2 = 1 then (c / 2) ^^^ 0xEDB88320 else c / 2) (c ^^^ b.toNat)

/-- CRC-32 of IEEE 802.3. -/
def crc32 (bs : List Byte) : Nat := (bs.foldl crc32Byte 0xFFFFFFFF) ^^^ 0xFFFFFFFF

end Sys2Proof
end

