-- ==== Sys2Proof/Syntax.lean ====
section
/-! DEFINITION. The commands: one constructor of `Instr` per row of the spec's table of operations and events, with the
operands that come from outside the block (a converter code, a frame, a packet, a pin level, a register write). -/

namespace Sys2Proof

/-- A core supply whose power-good the AON monitors watch (R278, R280). -/
inductive Supply where
  | vcore | vpll | vana | vio18 | vio33
deriving DecidableEq, Repr

/-- The ten islands of Table SHF.1 (R10), in the order of that table. -/
inductive Island where
  | aon | ctl | dsp | lnk | bat | sup | recI | mgt | hst | per
deriving DecidableEq, Repr

/-- The levels of the strap balls SOLO and UNIT_SEL (14_start_up R280). -/
structure StrapBalls where
  solo : Bool
  unitSel : Bool
deriving DecidableEq, Repr

/-- One of the three islands that raise a tick strobe to AON (R213). -/
inductive StrobeIsland where
  | ctl | dsp | lnk
deriving DecidableEq, Repr

/-- What the boot ROM finds when it checks one image in the external flash (R282): whether the signature verifies, the
SHA-256 of the public key it verifies under, whether that key is the ROM default key or the ROM recovery key, and the
image's rollback index. -/
structure ImageCheck where
  sigOk : Bool
  keyHash : BitVec 256
  defaultKey : Bool
  recoveryKey : Bool
  rbi : Nat
deriving DecidableEq, Repr

/-- The register pairs of Table REG.3 (R410). -/
inductive LatchPair where
  | snsTime
  | snsVal (ch : Fin 130)
  | nvpEnergy (k : Fin 4)
  | bbxNext
  | updEpoch
deriving DecidableEq, Repr

/-- A block (with its instance) whose cnt_clr field clears its counters (R399). -/
inductive CntBlock where
  | law (e : Fin 20) | sch (e : Fin 20) | pwm | rail (n : Fin 8) | hbx | dkl | vat | bat (i : Fin 8) | slt (s : Fin 32)
  | red | seq | thm | nvp | bbx | upd | hst | twp (p : Fin 4)
deriving DecidableEq, Repr

/-- One of the two ports of a slot module or a power stage. -/
abbrev Port := Fin 2

/-- A slot-link frame as its receiver sees it (R178, R179): was the sync pair the one of its direction, were all 40
symbols free of code and disparity violations, the 36 payload bytes and the CRC as received. -/
structure Frame where
  syncOk : Bool
  codeOk : Bool
  payload : Vector Byte 36
  crc : BitVec 16
deriving DecidableEq, Repr

/-- A CLM word as a stage receives it (R208): sync field and Manchester cells as they should be, the claim and the CRC. -/
structure ClmWord where
  syncOk : Bool
  cellsOk : Bool
  claim : Byte
  crc : BitVec 4
deriving DecidableEq, Repr

/-- One section's states as a snapshot carries them (Table RED.10). -/
structure SecSt where
  x1 : Int
  x2 : Int
  y1 : Int
  y2 : Int
  r : Int
deriving DecidableEq, Repr

/-- A crossfade in progress: old and new region, samples done, length (R70). -/
structure Xfade where
  old : Fin 8
  new : Fin 8
  k : Nat
  len : Nat
deriving DecidableEq, Repr

/-- The engine block of a snapshot (Table RED.10). -/
structure SnapEngine where
  run : Nat
  cur : Fin 8
  vf : Int
  xf : Option Xfade
  out : Int
  stamp : Option Nat
  st : Vector SecSt 8
  stNew : Vector SecSt 8
deriving DecidableEq, Repr

/-- The rail block of a snapshot (Table RED.10). -/
structure SnapRail where
  state : Nat
  h : Nat
  r : Int
  ifl : Int
  sync : Nat
  phases : List (Nat × Nat × Int × Nat)
deriving DecidableEq, Repr

/-- A state snapshot (R224, Table RED.10). `crcOk` says whether its CRC-32 passes at the receiver. -/
structure Snapshot where
  seq : BitVec 32
  epoch : BitVec 5
  claim : Byte
  tick : Nat
  time : Nat
  eng : Vector Int 34
  engStamp : Vector (Option Nat) 34
  strings : Vector (Int × Int) 8
  scan : Vector (BitVec 12) 64
  engines : List (Fin 20 × SnapEngine)
  rails : List (Fin 8 × SnapRail)
  alloc : Vector Int 40
  caps : Vector (Option Int) 32
  held : Vector Bool 32
  settle : Vector Nat 9
  hu : Bool
  walk : Bool
  gwalk : Int
  pf : Int
  engMask : BitVec 20
  railMask : BitVec 8
  len : Nat
  crc : BitVec 32
deriving DecidableEq, Repr

/-- The payload of record 0x0001 (Table UPD.5). -/
structure Rec1 where
  bank : Bool
  state : Nat
  step : Nat
  epoch : BitVec 64
  prev : BitVec 64
  rbi0 : Nat
  rbi1 : Nat
  digest : BitVec 256
deriving DecidableEq, Repr

/-- What a step of an update asks of the peer (17_field_update R340): the operations, the steps of Table UPD.6, what ends it. -/
inductive PeerStep where
  | begin_
  | chunk (off : Nat) (bytes : List Byte)
  | finish
  | commit
  | activate
  | step (n : Nat)
  | confirm
  | abort (reason idx : Nat)
  | rollback (reason : Nat)
deriving DecidableEq, Repr

/-- How an update stands in a unit, as its peer sees it (17_field_update R340, R344, R345): phase, last result, reason and entry; how
many steps it has taken; whether a management restart of it is due or runs. -/
structure PeerUpd where
  phase : Nat
  result : Nat
  reason : Nat
  entry : Nat
  taken : Nat
  restarting : Bool
deriving DecidableEq, Repr

/-- What a Chezon packet says of its sender besides its claim (R222, R248, R288): the sequencer's state and its nodes'
states with their enables, and the facts of Step 8. -/
structure PeerStatus where
  strapPair : Bool
  unit : Bool
  pairId : BitVec 16
  noPeer : Bool
  canAct : Bool
  ready : Bool
  digest : BitVec 256
  seqState : Nat
  nodes : Vector (Nat × Bool) 72
  record : Rec1
  upd : PeerUpd
  drill : Bool
  seqCause : Nat
deriving DecidableEq, Repr

/-- A Chezon packet as received (R222): CRC, the claim, the status where it carries one, and a step of an update with its number. -/
structure ChezonPacket where
  crcOk : Bool
  claim : Byte
  status : Option PeerStatus
  step : Option (Nat × PeerStep)
deriving DecidableEq, Repr

/-- A remote diode's conversion (R251, Table THM.1). -/
inductive Diode where
  | reading (t : Int) (code : Nat)
  | openPair
  | shortPair
deriving DecidableEq, Repr

/-- The resets of the HST island (R357). -/
inductive HstReset where
  | perst | hotReset | flr | d3hotExit
deriving DecidableEq, Repr

/-- The DMA errors of Table HST.10. -/
inductive DmaError where
  | cplTimeout | ur | poison
deriving DecidableEq, Repr

/-- How a two-wire controller transaction ends on the wire (R380–R382, R385): the bytes read, the address or a data
byte NACKed, an arbitration lost while framing, a PEC that does not match. -/
inductive TwpOutcome where
  | ok (bytes : List Byte)
  | nackAddr
  | nackData
  | arbFrame
  | pecErr (bytes : List Byte)
deriving DecidableEq, Repr

/-- The commands. -/
inductive Instr where
  | aonPowerGood (solo unitSel : Bool)
  | otpG5Check
  | rstNAssert
  | rstNRelease
  | sysRstCold (key : BitVec 16)
  | sysRstWarm (key : BitVec 16)
  | supplyPgLost (which : Supply)
  | supplyPgReturn
  | refLost
  | refReturn
  | coreRelease (pwrgd : Bool) (balls : StrapBalls)
  | pllLock
  | bootImageVerified (bank0 bank1 recov : ImageCheck)
  | configLoad
  | selfTestComplete (fail : BitVec 8)
  | roleDecision
  | bootStep9
  | watchdogExpiry
  | wdtKick
  | configLock
  | modeRequest (code : BitVec 4)
  | overlaySwap
  | holdupOverlayRequest
  | serviceOverlayRequest
  | transportOverlayApply
  | transportGate
  | transportWake
  | regWrite (off : BitVec 20) (val : Word)
  | shadowWriteApply
  | gatedAccess (off : BitVec 20) (isWrite : Bool)
  | latchedPairRead (p : LatchPair)
  | counterClear (b : CntBlock)
  | shelfTick
  | dspSnapshot
  | huExit
  | hbxResultsRelease
  | resultsDelivery
  | payloadFreeze
  | hbxPeriodChange
  | phaseSampleAperture (j : Fin 24)
  | idleSample (j : Fin 24)
  | railVoltageConversion (n : Fin 8)
  | busConversion
  | scanSample (code : BitVec 12)
  | ntcIdSample (ntc ident : Vector (BitVec 12) 8)
  | snsConversionComplete (ch : Fin 34) (code : BitVec 16)
  | cbcCrossing (j : Fin 24) (positive : Bool)
  | lawTrigger (e : Fin 20)
  | lawOutputWrite (e : Fin 20)
  | lawSnapRequest (e : Fin 20)
  | coeffShadowWrite (off : BitVec 20) (val : Word)
  | lawCommitRequest (e : Fin 20)
  | lawBankSwap (e : Fin 20)
  | lawShadowCopyDone (e : Fin 20)
  | pwmPeriodStart (j : Fin 24)
  | phaseShed (n : Fin 8)
  | phaseAdd (n : Fin 8)
  | phaseOpenDetect (j : Fin 24)
  | phaseSenseStuck (j : Fin 24)
  | sumCheckFail (n : Fin 8)
  | phaseAssignmentApply (j : Fin 24)
  | syncInEdge
  | syncLost
  | rampUpdate
  | startShort (n : Fin 8)
  | hiccupEnd (n : Fin 8)
  | trackEdge (high period : Nat)
  | trackStatic (level : Bool)
  | railEnableChange (n : Fin 8)
  | railPauseChange (n : Fin 8)
  | hbxCommitRequest
  | hbxCommitSwap
  | hbxStagedCopyDone
  | costCurveWrite (off : BitVec 20) (val : Word)
  | derateClear
  | shedClear
  | stringStrobe (v i : Vector (BitVec 18) 8)
  | zdMeasurement (i : Fin 8)
  | presenceChange (i : Fin 8)
  | batBlock
  | eodDeclare (i : Fin 8)
  | eocDeclare (i : Fin 8)
  | batSecond
  | batHour
  | batAgeTick
  | batEnable (i : Fin 8)
  | batDisable (i : Fin 8)
  | batForget (i : Fin 8)
  | batTransportPrep
  | batTransportRelease
  | uplinkFrameReceived (s : Fin 32) (f : Frame)
  | linkLost (s : Fin 32)
  | linkRetrain (s : Fin 32)
  | mbResend (s : Fin 32)
  | mbRequestTimeout (s : Fin 32) (tag : Fin 4)
  | slotFrameApply (s : Fin 32)
  | slotClaimExpiry (s : Fin 32) (p : Port)
  | slotHoldExpiry (s : Fin 32)
  | clmWordStart
  | stageClmWordReceived (j : Fin 24) (p : Port) (w : ClmWord)
  | stageClaimExpiry (j : Fin 24) (p : Port)
  | demoteNAccept
  | demoteNRelease
  | takeNAccept
  | heartbeatFormChange
  | tickStrobeTimeout (i : StrobeIsland)
  | fwLivenessTimeout
  | fwLivenessWrite
  | vhbEdge (x : Fin 2)
  | hbDeadTimeout (x : Fin 2)
  | takeDeferredEval
  | takePulseEnd
  | demoteHoldEnd (x : Fin 2)
  | chezonPacketReceived (p : ChezonPacket)
  | chezonTrained (lane0 lane1 : Bool)
  | chezonOneLane (lane : Fin 2)
  | chezonLinkDown
  | chezonPacketSend
  | timeTransfer (offset : Int) (peerTick : Nat) (aligned : Bool)
  | snapshotCapture
  | snapshotReceived (snap : Snapshot) (crcOk : Bool)
  | standbyKeepExpiry
  | lonePeerHigherTimeout
  | drillNow
  | drillSchedule
  | drillComplete
  | seqStep
  | nodeOnDelayEnd (k : Fin 72)
  | nodeSettleEnd (k : Fin 72)
  | riseTimeout (k : Fin 72)
  | nodeOffDelayEnd (k : Fin 72)
  | fallTimeout (k : Fin 72)
  | pgChange (k : Fin 72)
  | seqGo
  | seqStop
  | seqRetry
  | seqTrip
  | seqTripClr
  | restartDelayEnd
  | thmStep (counts : Vector Nat 32)
  | sensorRestored (k : Fin 48)
  | diodeConversion (q : Fin 16) (d : Diode)
  | thmSecond
  | aonThermalGate (counts : Vector Nat 32)
  | thermalShutdown
  | thermalResetHold
  | thermalRestartRelease
  | otpArm
  | otpProg
  | otpLock (grp : BitVec 3)
  | otpReadN
  | otpReadM
  | otpCommandComplete (verifiedA verifiedB : Word) (pulses : Nat)
  | otpReread
  | nvpCommitRequest
  | nvpCommitDone (us : Nat)
  | nvpRawRead (addr : Word)
  | powerFailAssert (words : Nat)
  | pfRide
  | hourlySave
  | nvpSaveRequest
  | saveComplete (us : Nat)
  | nvpRestore
  | shadowImageRestore
  | nvpScrub
  | nvpScrubRequest
  | bbxEventEnqueue
  | bbxRecordWrite
  | tokenRefill
  | traceRow
  | traceFreeze
  | watermarkDone (r : Fin 4)
  | bbxSealNow
  | reamPointerRead (r : Fin 4) (off : BitVec 20)
  | bbxNonceRequest (entropy : BitVec 128)
  | nonceExpiry
  | bbxClear
  | bbxRelease
  | bbxOpComplete
  | lockoutEnd
  | updBegin
  | updChunk
  | updEnd
  | prepareComplete
  | updCommit
  | commitWritesDone (peerOk : Bool)
  | updActivate
  | activationStep
  | updAbort
  | mgmtRestart (image : ImageCheck)
  | mgmtRestartComplete
  | trialEnd
  | updRollback
  | slotActivateTimeout (s : Fin 32)
  | hstReset (k : HstReset)
  | pcieLinkChange (up d3hot : Bool) (gen width : BitVec 4) (ltssm : BitVec 6)
  | ringEnable (r : Fin 8) (en : Bool)
  | commandDoorbell (r : Fin 4) (val : Word)
  | consumerDoorbell (r : Fin 4) (val : Word)
  | commandFetch (r : Fin 4) (desc : Vector Byte 32)
  | nop (r : Fin 4)
  | nvpRead (r : Fin 4)
  | nvpWrite (r : Fin 4) (payload : List Byte)
  | nvpSave (r : Fin 4)
  | mbReq (r : Fin 4) (payload : List Byte)
  | updOp (r : Fin 4) (payload : List Byte)
  | modeReq (r : Fin 4)
  | bbxCopy (r : Fin 4)
  | commandComplete (r : Fin 4)
  | hostDmaError (r : Fin 8) (onBuffer : Bool) (k : DmaError)
  | telemetryCapture
  | msixModerationEnd (v : Fin 64)
  | evtSumClear
  | evtTripClear
  | twpGo (p : Fin 4) (val : Word)
  | twpArbRetry (p : Fin 4) (extra : Fin 8)
  | twpTransactionDone (p : Fin 4) (o : TwpOutcome)
  | twpTargetWrite (p : Fin 4) (bytes : List Byte) (pec : Byte)
  | twpTargetRead (p : Fin 4) (n : Nat)
  | twpAttnRequest (p : Fin 4) (extra : Fin 8) (won : Option Nat)
  | twpAttention (p : Fin 4) (addr : BitVec 7) (bytes : List Byte)
  | twpTimeout (p : Fin 4)
  | twpBusRecovery (p : Fin 4) (pulses : Nat) (sdaHigh : Bool)
  | twpRecoveryRetry (p : Fin 4) (sdaHigh : Bool)
  | beaconRead
  | beaconDemote (word : BitVec 16)
  | beaconDemoteEnd
  | beaconSafeShutdown (word : BitVec 16)
  | beaconShutdownTimeout
  | beaconSave (word : BitVec 16)
  | beaconClearAttn (word : BitVec 16)
  | beaconBadWord (word : BitVec 16)
  | vaonLost
  | pwmEdge (j : Fin 24)
  | slotDownlinkReceived (s : Fin 32) (p : Port) (f : Frame)
  | slotHoldBegin (s : Fin 32)
  | chezonTrainingFailed
  | ringSlotComplete
deriving DecidableEq, Repr

end Sys2Proof
end

