-- ==== Sys2Proof/Machine/State.lean ====
section
/-! DEFINITION. The state of the controller, of the slot modules and power stages whose behaviour the spec states, and of
the queue of waiting commands: plain data, one structure per block of Table SHF.6. Every register that software writes
(RW, RWL, RWS, W1C) has its home in `Regs`; what hardware shows or keeps is a field of its block. Each field's
comment gives, between bars, what it is, its width, the rule that names it and its value at reset. -/

namespace Sys2Proof.Machine

/-- A counter of the common layout: count and sat flag (R398). -/
structure Ctr where
  count : Nat
  sat : Bool
deriving DecidableEq, Repr

/-- The cleared counter. -/
def Ctr.zero : Ctr := ⟨0, false⟩

/-- An event on its way to REC (R320): source, data, the action class it passes (R318), the sat flag of its record
(R399), the instant it was fired. -/
structure Ev where
  src : Nat
  data : BitVec 64
  cls : Option Nat
  sat : Bool
  at_ : Nat
deriving DecidableEq, Repr

/-- The roles a unit can take (RED_STAT.role, Table RED.15). -/
inductive Role where
  | undecided | active | standby | arbiter | solo
deriving DecidableEq, Repr

/-- A configuration being staged (R21): the mode it belongs to, the words that the swap writes, which of them the new overlay
patches, whether the host asked for it, whether it is a reload by a management restart, the instant it was staged. -/
structure Stage where
  mode : Nat
  words : List (Nat × Word)
  patched : List Nat
  host : Bool
  reload : Bool
  at_ : Nat
deriving DecidableEq, Repr

/-- A host write that has not taken effect yet (R23): BAR0 offset, value, the bits that it may change, its instant. -/
structure HostWrite where
  off : Nat
  val : Word
  mask : Word
  at_ : Nat
deriving DecidableEq, Repr

/-- Registers as software sees them. -/
structure Regs where
  /-- | values in force of RW, RWL and RWS fields, by BAR0 offset | 32 bits each | 00_scope R4, 21_register_map R403 | each register's reset value (unlisted) | -/
  act : Cells Word
  /-- | host writes to shadowed registers waiting for the tick boundary, oldest first | list | 01_shelf R23 | empty | -/
  shadowQ : List HostWrite
  /-- | host writes held while an overlay is staged, oldest first | list | 01_shelf R23 | empty | -/
  held : List HostWrite
  /-- | W1C bits, by BAR0 offset | 32 bits each | 00_scope R4, R5 | 0 | -/
  sticky : Cells Word
  /-- | staged copy of the staged HBX fields, by BAR0 offset | 32 bits each | 06_headbox R112 | each register's reset value (unlisted) | -/
  staged : Cells Word
  /-- | base configuration as loaded at step 6, by BAR0 offset | 32 bits each | 14_start R284, R295 | empty | -/
  base : Cells Word
  /-- | words patched by the overlay in force | offsets | 14_start R295 | empty | -/
  patched : List Nat
  /-- | overlay being staged | option | 01_shelf R21 | none | -/
  stage : Option Stage
  /-- | islands whose GATED_ACCESS event fired in this gating interval | list | 01_shelf R15 | empty | -/
  gatedSeen : List Island
  /-- | user words of the sense channels that changed, newest first: SNS_TIME of the change, BAR0 offset, word before | list | 02_sense R38 | empty | -/
  calHist : List (Nat × Nat × Word)
  /-- | SNS_TIME_HI as last latched | 32 | 02_sense R28 | 0 | -/
  timeHi : Word
  /-- | NVP_E_HI as last latched | 4 x 32 | 15_parameter_store Table NVP.7 | 0 | -/
  nvpHi : Vector Word 4
  /-- | BBX_NEXT_HI as last latched | 8 | 16_black_box Table BBX.9 | 0 | -/
  bbxHi : Word
  /-- | UPD_EPOCH_HI as last latched | 32 | 17_field_update Table UPD.10 | 0 | -/
  updHi : Word
  /-- | W1C bits that hardware set at freshAt, by BAR0 offset | 32 bits each | 00_scope R5 | empty | -/
  fresh : Cells Word
  /-- | instant of the last such set | model time | 00_scope R5 | 0 | -/
  freshAt : Nat
  /-- | registers whose fields a host write replaced at wroteAt, by BAR0 offset | list | 21_register_map R409 | empty | -/
  wrote : List Nat
  /-- | instant of those writes | model time | 21_register_map R409 | 0 | -/
  wroteAt : Nat
deriving DecidableEq, Repr

/-- What the always-on island keeps. -/
structure Aon where
  /-- | VAON good | 1 | 22_balls R418 | DESIGN CHOICE true (log 3) | -/
  vaon : Bool
  /-- | VCORE, VPLL, VANA, VIO18, VIO33 good | 5 x 1 | 14_start R278, R280 | DESIGN CHOICE true (log 3) | -/
  good : Vector Bool 5
  /-- | RST_N released | 1 | 14_start R278 | DESIGN CHOICE true (log 3) | -/
  rstN : Bool
  /-- | 25 MHz reference present | 1 | 14_start R278 | DESIGN CHOICE true (log 3) | -/
  refOk : Bool
  /-- | SOLO ball as sampled at AON power-good | 1 | 19_two_wire R387, 10_redundancy R212 | DESIGN CHOICE 0 (log 3) | -/
  soloBall : Bool
  /-- | UNIT_SEL ball as sampled at AON power-good | 1 | 19_two_wire R387 | DESIGN CHOICE 0 (log 3) | -/
  unitBall : Bool
  /-- | power-fail asserted, NVP_STAT.pf | 1 | 15_parameter_store R306 | 0 | -/
  pf : Bool
  /-- | TRANSPORT recorded | 1 | 14_start R293 | 0 | -/
  transport : Bool
  /-- | operating time at optFrom, 1/1024 s | 48 | 15_parameter_store R309, R311 | 0 (R311: no valid slot) | -/
  optBase : Nat
  /-- | instant from which AON counts operating time | model time | 15_parameter_store R311 | 0 | -/
  optFrom : Nat
  /-- | VAON has stayed good since the last restore | 1 | 15_parameter_store R311 | 0 | -/
  optKept : Bool
  /-- | power-cycle count, NVP_PCYC | 24 + sat | 15_parameter_store R311 | 0 | -/
  pcyc : Ctr
  /-- | claim epoch | 5 | 10_redundancy R202 | 0 | -/
  epoch : BitVec 5
  /-- | epoch of the peer's last claim of role active or standby | option 5 | 10_redundancy R202 | none | -/
  peerEpoch : Option (BitVec 5)
  /-- | derived shutdown count of each on-die sensor | 32 counts | 12_thermal R257, 13_fuse R269 | 92979 (failure values until derived) | -/
  nSd : Vector Int 32
  /-- | derived restart count of each on-die sensor | 32 counts | 12_thermal R257, 13_fuse R269 | 95027 (failure values until derived) | -/
  nRs : Vector Int 32
  /-- | AON count of the last gate per sensor | 32 counts | 12_thermal R257 | 0 | -/
  gate : Vector Nat 32
  /-- | identical AON counts in a row per sensor | 32 x Nat | 12_thermal R257, Table THM.1 | 0 | -/
  gateSame : Vector Nat 32
  /-- | gates in a row at or above T_SD per sensor | 32 x Nat | 12_thermal R258 | 0 | -/
  gateHot : Vector Nat 32
  /-- | hardware shutdown in force | 1 | 12_thermal R258 | 0 | -/
  sd : Bool
  /-- | instant the shutdown began | model time | 12_thermal R258 | 0 | -/
  sdAt : Nat
  /-- | start of the run of gates below T_RESTART | option model time | 12_thermal R260 | none | -/
  coolSince : Option Nat
  /-- | THM_SD_LOG.count | 18 | 12_thermal Table THM.5 | 0 | -/
  sdCount : Nat
  /-- | THM_SD_LOG.sensor | 6 | 12_thermal Table THM.5 | 0 | -/
  sdSensor : Nat
  /-- | THM_SDCNT | 24 + sat | 12_thermal Table THM.5 | 0 | -/
  sdCnt : Ctr
  /-- | shutdown whose events 0xA4 and 0xA5 are still to fire at the restart | 1 | 12_thermal R260 | 0 | -/
  sdReport : Bool
  /-- | TRIP outputs held by R258 | 8 | 18_host_rings R375, 12_thermal R258 | 0 | -/
  tripSd : BitVec 8
  /-- | TRIP outputs held by R246 | 8 | 11_sequencing R246 | 0 | -/
  tripSeq : BitVec 8
  /-- | TRIP outputs held by R375 | 8 | 18_host_rings R375 | 0 | -/
  tripEvt : BitVec 8
  /-- | DEMOTE_N accepted low, RED_STAT.demoted | 1 | 10_redundancy R214 | 0 | -/
  demoted : Bool
  /-- | a beacon DEMOTE holds DEMOTE_N low | 1 | 19_two_wire R390 | 0 | -/
  bcnLow : Bool
  /-- | start of the beacon's low interval | model time | 19_two_wire R390 | 0 | -/
  bcnLowAt : Nat
  /-- | the DEMOTE_N pin itself is accepted low | 1 | 10_redundancy R214 | 0 | -/
  pinLow : Bool
  /-- | beacon fault, the highest severity held | 4 | 19_two_wire R389 | 0 | -/
  bcnFault : Nat
  /-- | beacon attn | 1 | 19_two_wire R389 | 0 | -/
  bcnAttn : Bool
  /-- | TWP_BCN bits 31:16, last command word | 16 | 19_two_wire Table TWP.7 | 0 | -/
  bcnCmd : BitVec 16
  /-- | TWP_BCN_STAT result | 4 | 19_two_wire Table TWP.7 | 0 | -/
  bcnStat : Nat
  /-- | beacon word as last latched at an address ACK | 16 | 19_two_wire R388 | 0 | -/
  bcnWord : BitVec 16
  /-- | beacon events waiting for MGT | list of (cause, word) | 19_two_wire R390, R391 | empty | -/
  bcnEv : List (Nat × BitVec 16)
  /-- | a beacon SAFE_SHUTDOWN being watched: its instant, whether SHUTDOWN was seen | option | 19_two_wire R390 | none | -/
  bcnSafe : Option (Nat × Bool)
  /-- | last firmware liveness write | model time | 10_redundancy R213 | 0 | -/
  liveAt : Nat
  /-- | firmware liveness timed out | 1 | 10_redundancy R213 | 0 | -/
  fwDead : Bool
  /-- | a DEMOTE action of Table SCH.2 not yet served | 1 | 10_redundancy R213 | 0 | -/
  demoteReq : Bool
  /-- | last tick strobe of CTL, DSP, LNK | 3 x model time | 10_redundancy R213 | 0 | -/
  strobe : Vector Nat 3
  /-- | strobe missing for 12 us, per island | 3 x 1 | 10_redundancy R213 | 0 | -/
  strobeLost : Vector Bool 3
  /-- | heartbeat form sent, RED_STAT.hb (0 static, 1 healthy, 2 degraded) | 2 | 10_redundancy R213 | 0 | -/
  hb : Nat
  /-- | instant of the last change of form | model time | 10_redundancy R213 | 0 | -/
  hbAt : Nat
  /-- | SNS_TIME held at entry to a warm reset | 64 | 02_sense R26 | 0 | -/
  heldTime : Nat
  /-- | instant of that entry | option model time | 02_sense R26 | none | -/
  heldAt : Option Nat
  /-- | RED_TAKECNT | 24 + sat | 10_redundancy Table RED.13 | 0 | -/
  takeCnt : Ctr
  /-- | RED_DEMCNT | 24 + sat | 10_redundancy Table RED.13 | 0 | -/
  demCnt : Ctr
  /-- | level of VHB_OUT after the edge at hbAt, at which the form began | 1 | 10_redundancy R213 | 0 static low | -/
  hbLvl : Bool
  /-- | every supply has remained good since the power-fail assertion | 1 | 15_parameter_store R308 | 0 | -/
  pfGood : Bool
  /-- | instant of the latest assertion by R375, and the outputs asserted at it | model time, 8 | 18_host_rings R376 | 0 | -/
  tripNow : Nat × BitVec 8
deriving DecidableEq, Repr

/-- Boot, role and mode (14_start_up_roles_and_modes). -/
structure Sys where
  /-- | SYS_STAT.step (0 before step 1, 1-9, 10 running, 15 no image) | 4 | 14_start Table SYS.10 | 0 | -/
  step : Nat
  /-- | every island except AON held in reset | 1 | 14_start R278 | DESIGN CHOICE true (log 3) | -/
  inReset : Bool
  /-- | the reset in progress is cold | 1 | 14_start R278 | true | -/
  cold : Bool
  /-- | SYS_STAT.rst_cause | 4 | 14_start Table SYS.10 | 1 | -/
  rstCause : Nat
  /-- | SYS_STAT.lone | 1 | 14_start R288 | 0 | -/
  lone : Bool
  /-- | SYS_STAT.restricted | 1 | 14_start R285 | 0 | -/
  restricted : Bool
  /-- | SYS_STAT.cfg_fail | 1 | 14_start R284 | 0 | -/
  cfgFail : Bool
  /-- | SYS_STAT.recovery | 1 | 14_start R282 | 0 | -/
  recovery : Bool
  /-- | SYS_STAT.bank | 1 | 14_start R282 | 0 | -/
  bank : Bool
  /-- | SYS_STAT.st_fail | 8 | 14_start R285 | 0 | -/
  stFail : BitVec 8
  /-- | role, RED_STAT.role | 3 | 14_start R288, 10_redundancy Table RED.15 | 0 undecided | -/
  role : Role
  /-- | SOLO strap sampled at core release, SYS_STRAP | 1 | 14_start R280 | 0 | -/
  strapSolo : Bool
  /-- | UNIT_SEL strap sampled at core release, SYS_STRAP | 1 | 14_start R280 | 0 | -/
  strapUnit : Bool
  /-- | SYS_LOCK.cfg | 1 | 00_scope R6 | 0 | -/
  lock : Bool
  /-- | SYS_MODE.cur | 4 | 14_start R290 | 0 START | -/
  mode : Nat
  /-- | SYS_MODE.prev | 4 | 14_start R292 | 0 | -/
  prev : Nat
  /-- | SYS_MODE.pend | option 4 | 14_start R291 | none (0xF) | -/
  pend : Option Nat
  /-- | the pending request came from the host | 1 | 14_start R291 | 0 | -/
  pendHost : Bool
  /-- | HOLDUP entry (true) or exit (false) still to be requested | option 1 | 07_hold_up R136 | none | -/
  huReq : Option Bool
  /-- | SERVICE overlay still to be requested | 1 | 11_sequencing R242 | 0 | -/
  svcReq : Bool
  /-- | step of a TRANSPORT entry (0 none, 1 shutdown, 2 overlay applied, 3 BAT waiting, 4 contactors released) | 3 | 14_start R293 | 0 | -/
  transportStep : Nat
  /-- | instant of core release | model time | 14_start R280 | 0 | -/
  releaseAt : Nat
  /-- | SYS_BOOT_US | 32 | 14_start Table SYS.9 | 0 | -/
  bootUs : Nat
  /-- | SYS_WARMCNT | 24 + sat | 14_start Table SYS.9 | 0 | -/
  warmCnt : Ctr
  /-- | watchdog armed | 1 | 14_start R286 | 0 | -/
  wdtArmed : Bool
  /-- | last watchdog kick | model time | 14_start R286 | 0 | -/
  wdtAt : Nat
  /-- | consecutive warm resets by watchdog without a completed step 9 | Nat | 14_start R286 | 0 | -/
  wdtRun : Nat
  /-- | end of step 7 | model time | 14_start R288 | 0 | -/
  peerFrom : Nat
  /-- | a peer was rejected in this start (PEER_REJECTED fired) | 1 | 14_start R288 | 0 | -/
  peerRej : Bool
  /-- | a management restart is running | 1 | 17_field_update R346 | 0 | -/
  mgmtRestart : Bool
  /-- | the configured site, row, rack and shelf have been delivered | 1 | 21_register_map R406 | 0 | -/
  placed : Bool
  /-- | a SYS block event of a lone active peer_hi: instant of the first higher peer claim | option model time | 14_start R289 | none | -/
  peerHiSince : Option Nat
  /-- | accepted host request that waits until another overlay in hand is swapped | option 4 | 14_start R291 | none | -/
  waitReq : Option Nat
deriving DecidableEq, Repr

/-- A conversion started and not yet complete: its stamp, and for a phase whether it is idle or near an edge. -/
structure Conv where
  stamp : Nat
  idle : Bool
  edgeNear : Bool
  due : Nat
deriving DecidableEq, Repr

/-- One converter channel (Table SNS.1). -/
structure Chan where
  /-- | SNS_CH_RAW, value a | signed 32 | 02_sense R36 | 0 | -/
  raw : Int
  /-- | Q1.15 sample eng | signed 16 | 02_sense R36 | 0 | -/
  eng : Int
  /-- | SNS_CH_VAL | signed 32 | 02_sense R36 | 0 | -/
  val : Int
  /-- | stamp of the latest sample (none: no sample since reset) | option 64 | 02_sense R27, 03_law R44 | none | -/
  stamp : Option Nat
  /-- | the latest sample set ovr | 1 | 02_sense R37 | 0 | -/
  ovr : Bool
  /-- | SNS_CH_TS as last latched | 32 | 02_sense R28 | 0 | -/
  ts : Word
  /-- | conversion in progress | option | 02_sense R29, R32 | none | -/
  conv : Option Conv
  /-- | stamps and eng samples of the last 25 us, newest first (channels 0-33) | list | 10_redundancy R226 | empty | -/
  hist : List (Nat × Int)
deriving DecidableEq, Repr

/-- Sense front end (02_sense_front_end). -/
structure Sns where
  /-- | the channels 0-129 | 130 | 02_sense R25 | each at its reset | -/
  ch : Vector Chan 130
  /-- | SNS_PH_SMP.idle per phase | 24 x 1 | 02_sense R31, Table SNS.4 | 0 | -/
  idle : Vector Bool 24
  /-- | SNS_PH_SMP.edge_near per phase | 24 x 1 | 02_sense R30, Table SNS.4 | 0 | -/
  edgeNear : Vector Bool 24
  /-- | SNS_TIME runs | 1 | 02_sense R26 | 0 | -/
  running : Bool
  /-- | SNS_TIME at timeFrom, ns | 64 | 02_sense R26 | 0 | -/
  timeBase : Nat
  /-- | instant at which SNS_TIME started or resumed | model time | 02_sense R26 | 0 | -/
  timeFrom : Nat
  /-- | SNS_STATUS.resumed | 1 | 02_sense R26 | 0 | -/
  resumed : Bool
  /-- | next scan input | 6 | 02_sense R33 | 0 | -/
  scanNext : Fin 64
  /-- | complete scans since reset | Nat | 02_sense R33, 10_redundancy R226 | 0 | -/
  scans : Nat
  /-- | NTC and ID codes held, each with the strobe that delivers it, newest first | Nat, 8 x 2 x 12, two deep | 02_sense R34 | empty | -/
  ntcId : List (Nat × Vector (BitVec 12) 8 × Vector (BitVec 12) 8)
  /-- | next conversion of each rail-voltage converter | 8 x model time | 02_sense R32 | DESIGN CHOICE 0 (log 70) | -/
  railNext : Vector Nat 8
  /-- | next conversion of the bus converters | model time | 02_sense R32 | DESIGN CHOICE 0 (log 70) | -/
  busNext : Nat
  /-- | start of the next scan slot | model time | 02_sense R33 | DESIGN CHOICE 0 (log 70) | -/
  scanAt : Nat
  /-- | string strobes since reset | Nat | 02_sense R34 | 0 | -/
  strobes : Nat
  /-- | instant of the last string strobe | option model time | 02_sense R34 | none | -/
  strobeAt : Option Nat
  /-- | saturation of SNS_TIME reported | 1 | 02_sense R26, 20_guarantees R398 | 0 | -/
  timeSat : Bool
deriving DecidableEq, Repr

/-- A law engine's run state (R56). -/
inductive Run where
  | off | run | hold | track
deriving DecidableEq, Repr

/-- A sample in progress (R48–R54): everything its end writes. -/
structure Job where
  run : Run
  eIn : Int
  out : Int
  st : Vector SecSt 8
  stNew : Vector SecSt 8
  cur : Fin 8
  xf : Option Xfade
  shown : Fin 8
  xShown : Bool
  limHi : Bool
  limLo : Bool
  stamp : Option Nat
  snap : Bool
  started : Nat
  dest : Nat
  destIdx : Nat
deriving DecidableEq, Repr

/-- One law engine with its schedule and following-error supervisor (03, 04). -/
structure Engine where
  /-- | LAW_STAT.state | 2 | 03_law R56 | OFF | -/
  run : Run
  /-- | region in use cur | 3 | 04_gain R68 | 0 | -/
  cur : Fin 8
  /-- | section states of the region in use (of the old region in a crossfade) | 8 x 5 x 16 | 03_law R49 | 0 | -/
  st : Vector SecSt 8
  /-- | section states of the new region in a crossfade | 8 x 5 x 16 | 04_gain R70 | 0 | -/
  stNew : Vector SecSt 8
  /-- | crossfade in progress | option | 04_gain R70 | none | -/
  xf : Option Xfade
  /-- | the next sample is the first after OFF | 1 | 03_law R57 | 0 | -/
  first : Bool
  /-- | LAW_OUT last output | signed 16 | 03_law Table LAW.5 | 0 | -/
  out : Int
  /-- | LAW_OUT last e_in | signed 16 | 03_law Table LAW.5 | 0 | -/
  eIn : Int
  /-- | an output was delivered since reset | 1 | 03_law R44 | 0 | -/
  seen : Bool
  /-- | stamp carried by the last output | option 64 | 03_law R55 | none | -/
  outStamp : Option Nat
  /-- | LAW_STAT.lim_hi | 1 | 03_law R51 | 0 | -/
  limHi : Bool
  /-- | LAW_STAT.lim_lo | 1 | 03_law R51 | 0 | -/
  limLo : Bool
  /-- | LAW_STAT.fb_none | 1 | 03_law R45 | 0 | -/
  fbNone : Bool
  /-- | LAW_STAT.region | 3 | 04_gain R71 | 0 | -/
  region : Fin 8
  /-- | LAW_STAT.xfade | 1 | 04_gain R71 | 0 | -/
  xfade : Bool
  /-- | sample in progress | option | 03_law R48 | none | -/
  job : Option Job
  /-- | instant of the last accepted trigger | option model time | 03_law R48 | none | -/
  lastTrig : Option Nat
  /-- | completions counted toward div | 4 | 03_law R47 | 0 | -/
  divCnt : Nat
  /-- | LAW_SKIP | 24 + sat | 03_law R48 | 0 | -/
  skip : Ctr
  /-- | LAW_TRK.mis and whether its saturation event fired | 16 + flag | 03_law R60 | 0 | -/
  mis : Ctr
  /-- | LAW_DLY.last_ns | 16 | 03_law R55 | 0 | -/
  dlyLast : Nat
  /-- | LAW_DLY.worst_ns | 16 | 03_law R55 | 0 | -/
  dlyWorst : Nat
  /-- | LAW_STATE as last loaded | 8 x 5 x 16 | 03_law Table LAW.5 | 0 | -/
  shownSt : Vector SecSt 8
  /-- | snap requested | 1 | 03_law Table LAW.6 | 0 | -/
  snapReq : Bool
  /-- | accepted snapshot waiting for the next sample | option | 03_law R59 | none | -/
  snapIn : Option SnapEngine
  /-- | coefficient commit: 0 none, 1 requested (pend), 2 copying (pend) | 2 | 03_law R63 | 0 | -/
  commit : Nat
  /-- | SCH_VAL.v | signed 16 | 04_gain R65 | 0 | -/
  v : Int
  /-- | SCH_VAL.vf | signed 16 | 04_gain R66 | 0 | -/
  vf : Int
  /-- | SCH_STAT.tgt | 3 | 04_gain R68 | 0 | -/
  tgt : Fin 8
  /-- | SCH_STAT.from | 3 | 04_gain R71 | 0 | -/
  xfFrom : Fin 8
  /-- | SCH_STAT.deferred | 1 | 04_gain R70 | 0 | -/
  deferred : Bool
  /-- | SCH_STAT.len | 7 | 04_gain Table SCH.7 | 0 | -/
  xfLen : Nat
  /-- | SCH_FE_STAT.cnt | 16 | 04_gain R76 | 0 | -/
  feCnt : Nat
  /-- | samples still blanked | 8 | 04_gain R76 | 0 | -/
  blank : Nat
  /-- | SCH_FE_FIRES | 24 + sat | 04_gain R77 | 0 | -/
  fires : Ctr
  /-- | SCH_CNT crossfades started | 24 + sat | 04_gain Table SCH.4 | 0 | -/
  xcnt : Ctr
  /-- | instant of the LAW_COMMIT request that pends | model time | 03_law R63 | 0 | -/
  commitAt : Nat
  /-- | instant of a LAW_COMMIT request that met a commit still pending | option model time | 00_scope R5 | none | -/
  recommit : Option Nat
  /-- | a completion of the trigger source waits to be counted | 1 | 03_law R47 | 0 | -/
  fresh : Bool
  /-- | next trigger of trig = 0b01 or 0b10 | option model time | 03_law R47 | none | -/
  next : Option Nat
  /-- | block of the last completed sample, kept while a sample runs | option | 10_redundancy R224 | none | -/
  pre : Option SnapEngine
deriving DecidableEq, Repr

/-- The law engines and their coefficient memory. -/
structure Law where
  /-- | engines 0-19 | 20 | 03_law R43 | each at its reset | -/
  eng : Vector Engine 20
  /-- | coefficient shadow bank, by offset in the bank | 32-bit words | 03_law R62 | 0 (R284: read 0 until step 6) | -/
  shadow : Cells Word
  /-- | coefficient active bank, by offset in the bank | 32-bit words | 03_law R62 | 0 | -/
  active : Cells Word
deriving DecidableEq, Repr

/-- An interval of a PWM output: start and end instants. -/
structure Ival where
  a : Nat
  b : Nat
deriving DecidableEq, Repr

/-- One phase port (05_phases_and_rails). -/
structure Phase where
  /-- | assignment in force: assigned | 1 | 05_phases R79 | 0 | -/
  asg : Bool
  /-- | assignment in force: rail | 3 | 05_phases R79 | 0 | -/
  rail : Fin 8
  /-- | assignment written and held | option | 05_phases R79 | none | -/
  heldAsg : Option (Bool × Fin 8)
  /-- | PWM_PH_STAT.pstate (0 OFF, 1 ACTIVE, 2 SHED, 3 OPEN, 4 SENSE_SHED, 5 MATCH) | 3 | 05_phases Table PWM.4 | 0 | -/
  pstate : Nat
  /-- | PWM_PH_TRIM | signed 16 | 05_phases R91 | 0 | -/
  trim : Int
  /-- | PWM_PH_OFS | 21 | 05_phases R89 | 0 | -/
  ofs : Nat
  /-- | start of the current period (none: not switching) | option model time | 05_phases R83 | none | -/
  t0 : Option Nat
  /-- | length Tj of the current period, 1/64 ns | 21 | 05_phases R83 | 0 | -/
  tj : Nat
  /-- | D latched for the current period, 1/64 ns | 21 | 05_phases R83 | 0 | -/
  d : Nat
  /-- | PWMH intervals scheduled for this period | list | 05_phases R84 | empty | -/
  hIv : List Ival
  /-- | PWML intervals scheduled for this period | list | 05_phases R84 | empty | -/
  lIv : List Ival
  /-- | PWMH high | 1 | 05_phases R84 | 0 | -/
  h : Bool
  /-- | PWML high | 1 | 05_phases R84 | 0 | -/
  l : Bool
  /-- | instant of the last PWMH edge | model time | 02_sense R40 | 0 | -/
  hEdge : Nat
  /-- | becomes both-off at the end of its period | 1 | 05_phases R81 | 0 | -/
  endOff : Bool
  /-- | PWM_PH_CBC | 24 + sat | 05_phases R88 | 0 | -/
  cbc : Ctr
  /-- | a cycle-by-cycle action happened in this period | 1 | 05_phases R103 | 0 | -/
  cbcNow : Bool
  /-- | the limiter of engine 2n acted in this period | 1 | 05_phases R103 | 0 | -/
  limNow : Bool
  /-- | start of the run of periods meeting R103 | option model time | 05_phases R103 | none | -/
  openSince : Option Nat
  /-- | raw code of the last non-idle sample | option signed | 05_phases R104 | none | -/
  lastRaw : Option Int
  /-- | identical raw codes in a row | Nat | 05_phases R104 | 0 | -/
  sameRun : Nat
  /-- | ovr samples in a row | Nat | 05_phases R104 | 0 | -/
  ovrRun : Nat
  /-- | sum of val and number of samples in each of the last three 250 us windows, newest first | list of (signed, Nat) | 05_phases R104 | empty | -/
  win : List (Int × Nat)
  /-- | apertures chosen and not yet reached, each with its edge_near | list | 02_sense R29, R30 | empty | -/
  aps : List (Nat × Bool)
  /-- | next idle sample | model time | 02_sense R31 | DESIGN CHOICE 0 (log 70) | -/
  idleNext : Nat
deriving DecidableEq, Repr

/-- One direct rail. -/
structure Rail where
  /-- | RAIL_STAT.state (0 OFF .. 6 LATCHED) | 3 | 05_phases Table RAIL.6 | 0 | -/
  state : Nat
  /-- | the state a pause was entered from | 3 | 05_phases R101 | 0 | -/
  pausedFrom : Nat
  /-- | RAIL_IR.r, ramp reference | signed 16 | 05_phases R98 | 0 | -/
  r : Int
  /-- | start value p of the ramp in progress | signed 16 | 05_phases R98 | 0 | -/
  p : Int
  /-- | time t counted in the ramp, us | Nat | 05_phases R98 | 0 | -/
  rampUs : Nat
  /-- | target the ramp runs to | signed 16 | 05_phases R98 | 0 | -/
  rampTo : Int
  /-- | Ir of the last rank-0 period start or snapshot | signed 32 | 05_phases R92 | 0 | -/
  ir : Int
  /-- | If, filtered sum current | signed 32 | 05_phases R92 | 0 | -/
  ifl : Int
  /-- | RAIL_STAT.derated | 1 | 05_phases R106 | 0 | -/
  derated : Bool
  /-- | RAIL_STAT.cap_req | 1 | 05_phases R106 | 0 | -/
  capReq : Bool
  /-- | RAIL_STAT.cause | 8 | 05_phases Table RAIL.12 | 0 | -/
  cause : Nat
  /-- | RAIL_HIC.h | 3 | 05_phases R102 | 0 | -/
  h : Nat
  /-- | RAIL_HIC.shorts | 24 + sat | 05_phases R102 | 0 | -/
  shorts : Ctr
  /-- | consecutive start-short checks that held | 16 | 05_phases R102 | 0 | -/
  feRun : Nat
  /-- | end of the hiccup off time | model time | 05_phases R102 | 0 | -/
  hicEnd : Nat
  /-- | start of the run in which the shed condition held | option model time | 05_phases R93 | none | -/
  shedSince : Option Nat
  /-- | start of the run in which the add condition held | option model time | 05_phases R93 | none | -/
  addSince : Option Nat
  /-- | last shed or add | option model time | 05_phases R93 | none | -/
  lastShed : Option Nat
  /-- | duty command in force and its instant | signed 16 | 05_phases R83 | 0 | -/
  cmd : Int
  /-- | instant of the latest duty command | model time | 05_phases R83 | 0 | -/
  cmdAt : Nat
  /-- | duty command before the latest | signed 16 | 05_phases R83 | 0 | -/
  cmdOld : Int
  /-- | RAIL_STAT.sync (0 FREE, 1 ACQUIRE, 2 LOCKED, 3 HOLDOVER) | 2 | 05_phases R95 | 0 | -/
  sync : Nat
  /-- | period in force, 1/64 ns | 21 | 05_phases R96 | 0 until the rail starts | -/
  per : Nat
  /-- | instant of the last frequency change | model time | 05_phases R96 | 0 | -/
  slewAt : Nat
  /-- | strobes in a row at which the sum check differed | 4 | 05_phases R104 | 0 | -/
  sumRun : Nat
  /-- | the last completed sum window differed | 1 | 05_phases R105 | 0 | -/
  sumBad : Bool
  /-- | latest rail reference delivered by the headbox, mA | option signed 32 | 06_headbox R123 | none | -/
  refMa : Option Int
  /-- | accepted snapshot block waiting for the rank-0 period start | option | 10_redundancy R225 | none | -/
  snapIn : Option SnapRail
  /-- | latest evaluation of Table RAIL.3 without a change made at it | option model time | 05_phases R93 | none | -/
  evalAt : Option Nat
  /-- | latest period start of rank 0 and its length | option (model time, 21) | 05_phases R97 | none | -/
  syncT0 : Option (Nat × Nat)
deriving DecidableEq, Repr

/-- SYNC_IN, TRACK and SYNC_OUT. -/
structure PwmGlobal where
  /-- | last SYNC_IN edge | option model time | 05_phases R94 | none | -/
  syncEdge : Option Nat
  /-- | PWM_SYNC_PER, last valid period, 1/64 ns | 21 | 05_phases R94 | 0 | -/
  syncPer : Nat
  /-- | PWM_SYNC_STAT.valid | 1 | 05_phases R94 | 0 | -/
  syncValid : Bool
  /-- | consecutive valid periods | 5 | 05_phases R94 | 0 | -/
  syncRun : Nat
  /-- | PWM_TRACK.L | 16 | 05_phases R100 | 0 | -/
  trackL : Nat
  /-- | PWM_TRACK.static | 1 | 05_phases R100 | 0 | -/
  trackStatic : Bool
  /-- | PWM_TRACK TRACK level | 1 | 05_phases Table PWM.1 | 0 | -/
  trackLevel : Bool
  /-- | last TRACK edge | model time | 05_phases R100 | 0 | -/
  trackAt : Nat
deriving DecidableEq, Repr

/-- CTL's PWM and rails. -/
structure Pwm where
  /-- | phases 0-23 | 24 | 05_phases R79 | each at its reset | -/
  ph : Vector Phase 24
  /-- | rails 0-7 | 8 | 05_phases R101 | each at its reset | -/
  rail : Vector Rail 8
  /-- | SYNC_IN, SYNC_OUT, TRACK | - | 05_phases R94-R100 | at reset | -/
  g : PwmGlobal
deriving DecidableEq, Repr

/-- One headbox source (06_headbox_dispatch). -/
structure Src where
  /-- | HBX_SRC_ALLOC | signed 32 mA | 06_headbox R123 | 0 | -/
  x : Int
  /-- | HBX_SRC_LO | signed 32 mA | 06_headbox R117 | 0 | -/
  lo : Int
  /-- | HBX_SRC_HI | signed 32 mA | 06_headbox R117 | 0 | -/
  hi : Int
  /-- | HBX_SRC_MEAS | signed 32 mA | 06_headbox Table HBX.1 | 0 | -/
  meas : Int
  /-- | HBX_SRC_STAT.seeded | 1 | 06_headbox R118 | 0 | -/
  seeded : Bool
  /-- | HBX_SRC_STAT.lost | 1 | 06_headbox Table HBX.12 | 0 | -/
  lost : Bool
  /-- | HBX_SRC_STAT.down | 1 | 06_headbox Table HBX.12 | 0 | -/
  down : Bool
  /-- | HBX_SRC_STAT.tie | 1 | 06_headbox Table HBX.12 | 0 | -/
  tie : Bool
  /-- | HBX_SRC_STAT.ramp | 1 | 06_headbox Table HBX.12 | 0 | -/
  ramp : Bool
  /-- | prev, the allocation delivered in the previous period | signed 32 mA | 06_headbox R118 | 0 | -/
  prev : Int
  /-- | prev is taken from the measured current at the next snapshot | 1 | 06_headbox R118 | 1 | -/
  seed : Bool
  /-- | HBX_SRC_STAT.at_lo | 1 | 06_headbox Table HBX.12 | 0 | -/
  atLo : Bool
  /-- | HBX_SRC_STAT.at_hi | 1 | 06_headbox Table HBX.12 | 0 | -/
  atHi : Bool
  /-- | HBX_SRC_CFG.en as at the last dispatch | 1 | 06_headbox R118 | 0 | -/
  enSeen : Bool
deriving DecidableEq, Repr

/-- The headbox. -/
structure Hbx where
  /-- | sources 0-39 | 40 | 06_headbox R108 | each at its reset | -/
  src : Vector Src 40
  /-- | cost-curve shadow bank, by offset in the window | 32-bit words | 06_headbox R111, R112 | 0 | -/
  shadow : Cells Word
  /-- | cost-curve active bank, by offset in the window | 32-bit words | 06_headbox R111 | 0 | -/
  active : Cells Word
  /-- | commit: 0 none, 1 requested (pend), 2 copying (pend) | 2 | 06_headbox R114 | 0 | -/
  commit : Nat
  /-- | instant from which the copy runs | model time | 06_headbox R114 | 0 | -/
  commitAt : Nat
  /-- | HBX_DEMAND | signed 32 mA | 06_headbox R115 | 0 | -/
  demand : Int
  /-- | HBX_GCAP (none: no cap) | option signed 32 mA | 06_headbox R116 | none | -/
  gcap : Option Int
  /-- | HBX_GRID | signed 32 mA | 06_headbox Table HBX.8 | 0 | -/
  grid : Int
  /-- | HBX_DEFICIT | 32 mA | 06_headbox R122 | 0 | -/
  deficit : Int
  /-- | HBX_SURPLUS | 32 mA | 06_headbox R122 | 0 | -/
  surplus : Int
  /-- | HBX_LAMBDA, HBX_LAMBDA_G, HBX_LAMBDA_N | 3 x 20 | 06_headbox R119 | 0 | -/
  lam : Vector Nat 3
  /-- | HBX_STAT.path (0 UNCONSTRAINED, 1 CAP, 2 CAP_MIN, 3 repeated) | 2 | 06_headbox R121 | 0 | -/
  path : Nat
  /-- | HBX_TIME.last_ns | 16 | 06_headbox R124 | 0 | -/
  timeLast : Nat
  /-- | HBX_TIME.worst_ns | 16 | 06_headbox R124 | 0 | -/
  timeWorst : Nat
  /-- | HBX_CAPCNT | 24 + sat | 06_headbox Table HBX.8 | 0 | -/
  capCnt : Ctr
  /-- | HBX_DEFCNT | 24 + sat | 06_headbox Table HBX.8 | 0 | -/
  defCnt : Ctr
  /-- | HBX_LATECNT | 24 + sat | 06_headbox R124 | 0 | -/
  lateCnt : Ctr
  /-- | HBX_STAT.drt16 | 1 | 06_headbox R125 | 0 | -/
  drt16 : Bool
  /-- | HBX_STAT.drt17 | 1 | 06_headbox R125 | 0 | -/
  drt17 : Bool
  /-- | the previous period was a deficit period | 1 | 06_headbox R122 | 0 | -/
  inDef : Bool
  /-- | the previous period was a surplus period | 1 | 06_headbox R122 | 0 | -/
  inSur : Bool
  /-- | allocation period in force, ticks | 4 | 01_shelf R17, 06_headbox R126 | 1 | -/
  period : Nat
  /-- | start of the allocation period in progress (tick counter) | Nat | 01_shelf R17 | 0 | -/
  periodTick : Nat
  /-- | stage of the period: 0 before the snapshot, 1 snapshot taken, 2 released to the deckle, 3 delivered | 2 | 01_shelf Table SHF.4 | 0 | -/
  phase : Nat
  /-- | the dispatch ran at this period's snapshot | 1 | 06_headbox R127 | 0 | -/
  done : Bool
  /-- | the payload of the next downlink frame is frozen | 1 | 01_shelf R19 | 0 | -/
  frozen : Bool
  /-- | engine 17's feedback and whether a snapshot formed it | option signed 16 | 07_hold_up R146, R147 | none | -/
  fbPower : Option Int
  /-- | SNS_TIME of the last snapshot | 64 | 03_law R55 | 0 | -/
  snapAt : Nat
  /-- | headroom sums of R142 for feed 0 of this period | signed 64 mA | 07_hold_up R142 | 0 | -/
  headroom : Int
  /-- | instant of an HBX_COMMIT request that met one still pending | option model time | 00_scope R5 | none | -/
  recommit : Option Nat
  /-- | LATE was reported in this period | 1 | 01_shelf R19, R20 | 0 | -/
  lateNow : Bool
deriving DecidableEq, Repr

/-- One load of the deckle (07_hold_up_and_capping). -/
structure Load where
  /-- | cap state c_s (none: uncapped), DKL_LD_CAP | option signed 64 mA | 07_hold_up R141 | none (0x7FFF_FFFF) | -/
  c : Option Int
  /-- | DKL_LD_CFG.held | 1 | 07_hold_up R144 | 0 | -/
  held : Bool
  /-- | DKL_LD_CODE, cap code released | 16 | 07_hold_up R143 | 0 (R406) | -/
  code : Nat
  /-- | DKL_LD_MEAS, L_s | signed 32 mA | 07_hold_up R141 | 0 | -/
  meas : Int
deriving DecidableEq, Repr

/-- One feed of the deckle. -/
structure Feed where
  /-- | DKL_EXCESS | signed 32 mA | 07_hold_up R140 | 0 | -/
  excess : Int
  /-- | DKL_RESID | 32 mA | 07_hold_up R142 | 0 | -/
  resid : Int
  /-- | settle | 8 ticks | 07_hold_up R141 | 0 | -/
  settle : Nat
  /-- | inside a run of cut periods | 1 | 07_hold_up R142 | 0 | -/
  cutRun : Bool
  /-- | RESIDUAL fired in this run | 1 | 07_hold_up R142 | 0 | -/
  residFired : Bool
  /-- | |If| of its rail at the snapshot, feed 1 + n | signed 64 mA | 01_shelf R18, 07_hold_up R140 | 0 | -/
  iMa : Int
  /-- | RAIL_CAP of its rail at the snapshot | signed 32 mA | 01_shelf R18, 07_hold_up R140, R142 | 0 | -/
  capMa : Int
  /-- | RAIL_STAT.cap_req of its rail at the snapshot | 1 | 01_shelf R18, 07_hold_up R140 | 0 | -/
  req : Bool
  /-- | a shed of the feed was in force at the snapshot | 1 | 01_shelf R18, 07_hold_up R144 | 0 | -/
  shed : Bool
deriving DecidableEq, Repr

/-- The deckle. -/
structure Dkl where
  /-- | loads 0-31 | 32 | 07_hold_up R139 | each at its reset | -/
  ld : Vector Load 32
  /-- | feeds 0-8 | 9 | 07_hold_up R140 | each at its reset | -/
  fd : Vector Feed 9
  /-- | DKL_STAT.cut | 1 | 07_hold_up Table DKL.1 | 0 | -/
  cut : Bool
  /-- | DKL_STAT.shed0 | 1 | 07_hold_up R144 | 0 | -/
  shed0 : Bool
  /-- | DKL_STAT.shedr | 8 x 1 | 07_hold_up R144 | 0 | -/
  shedr : Vector Bool 8
  /-- | DKL_CUTCNT | 24 + sat | 07_hold_up R142 | 0 | -/
  cutCnt : Ctr
  /-- | DKL_PG, pin | signed 32 mW | 07_hold_up R146 | 0 | -/
  pg : Int
  /-- | cap codes delivered to LNK | 32 x 16 | 07_hold_up R143, R145 | 0x7FFF (uncapped) | -/
  deliv : Vector Nat 32
deriving DecidableEq, Repr

/-- The vat and the hold-up logic. -/
structure Vat where
  /-- | VAT_V | signed 32 mV | 07_hold_up R130 | 0 | -/
  v : Int
  /-- | e_mj (VAT_ENERGY is e_mj / 1000) | 64 mJ | 07_hold_up R130 | 0 | -/
  eMj : Int
  /-- | VAT_FILL phi | 16 | 07_hold_up R130 | 0 | -/
  phi : Nat
  /-- | VAT_ADDER a | signed 32 | 07_hold_up R131 | 0 | -/
  a : Int
  /-- | VAT_LIM_HI | signed 32 mA | 07_hold_up R132 | 0 | -/
  limHi : Int
  /-- | VAT_LIM_LO | signed 32 mA | 07_hold_up R132 | 0 | -/
  limLo : Int
  /-- | pf (none: first snapshot still to come), VAT_PF | option signed 32 mW | 07_hold_up R137 | none (reads 0) | -/
  pf : Option Int
  /-- | VAT_TBR | 32 ms | 07_hold_up R137 | 0 | -/
  tb : Nat
  /-- | VAT_TVAT | 32 ms | 07_hold_up R137 | 0 | -/
  tv : Nat
  /-- | VAT_STAT.hu | 1 | 07_hold_up R134 | 0 | -/
  hu : Bool
  /-- | start of the run of snapshots at or above exit_pct | option model time | 07_hold_up R134 | none | -/
  exitSince : Option Nat
  /-- | VAT_HUCNT | 24 + sat | 07_hold_up R134 | 0 | -/
  huCnt : Ctr
  /-- | VAT_STAT.walk | 1 | 07_hold_up R148 | 0 | -/
  walk : Bool
  /-- | the walk-in of this return has been decided | 1 | 07_hold_up R148 | 0 | -/
  walkDone : Bool
  /-- | Gwalk | signed 32 mA | 07_hold_up R148 | 0 | -/
  gwalk : Int
  /-- | VAT_STAT.full | 1 | 07_hold_up R133 | 0 | -/
  full : Bool
  /-- | VAT_STAT.empty | 1 | 07_hold_up R133 | 0 | -/
  empty : Bool
  /-- | V above Vmax + T at the last snapshot | 1 | 07_hold_up R133 | 0 | -/
  overV : Bool
  /-- | TWARN may fire again | 1 | 07_hold_up R138 | 1 | -/
  twArmed : Bool
  /-- | G of the last snapshot | signed 32 mA | 07_hold_up R134 | 0 | -/
  g : Int
  /-- | remaining energy of the strings as last delivered by BAT | 8 x 32 J | 07_hold_up R137, 08_battery R172 | 0 | -/
  erem : Vector Nat 8
  /-- | string limits as last delivered by BAT: discharge, charge | 8 x 2 x 32 mA | 08_battery R151 | 0 | -/
  strLim : Vector (Int × Int) 8
  /-- | tb was below VAT_TWARN at the last snapshot | 1 | 07_hold_up R138 | 0 | -/
  twBelow : Bool
deriving DecidableEq, Repr

/-- An impedance entry (Table BAT.4): its age is `age` plus the age ticks since tick `tick`, at most 255. -/
structure Zent where
  zs : Nat
  zd : Nat
  age : Nat
  tick : Nat
deriving DecidableEq, Repr

/-- An identity record (Table BAT.5), as working copy. -/
structure IdRec where
  /-- | state.valid | 1 | 08_battery Table BAT.5 | 0 | -/
  valid : Bool
  /-- | state.eoc | 1 | 08_battery Table BAT.5 | 0 | -/
  eoc : Bool
  /-- | state.eod | 1 | 08_battery Table BAT.5 | 0 | -/
  eod : Bool
  /-- | state.pos, last string position | 3 | 08_battery Table BAT.5 | 0 | -/
  pos : Nat
  /-- | state.code | 4 | 08_battery Table BAT.5 | 0 | -/
  code : Nat
  /-- | unanch_h | 16 | 08_battery Table BAT.5 | 0 | -/
  unanchH : Nat
  /-- | fcc | 32 mAh | 08_battery Table BAT.5 | 0 | -/
  fcc : Nat
  /-- | cyc | 24 + sat | 08_battery Table BAT.5 | 0 | -/
  cyc : Ctr
  /-- | p | 32 | 08_battery Table BAT.5 | 0 | -/
  p : Nat
  /-- | qr | signed 64 | 08_battery Table BAT.5 | 0 | -/
  qr : Int
  /-- | deficit | 32 mAh | 08_battery Table BAT.5 | 0 | -/
  deficit : Nat
  /-- | cyc_acc | 64 | 08_battery Table BAT.5 | 0 | -/
  cycAcc : Nat
  /-- | t_save | 48 | 08_battery Table BAT.5 | 0 | -/
  tSave : Nat
deriving DecidableEq, Repr

/-- The identity record of nothing: all bytes 0. -/
def IdRec.zero : IdRec := ⟨false, false, false, 0, 0, 0, 0, Ctr.zero, 0, 0, 0, 0, 0⟩

/-- A step of R164 whose 1 s measurement is still running: the strobe number k, ΔI, V_post, I_post, T_b and s at k, and
the V samples of strobes k+3996 to k+4003. -/
structure ZdWait where
  k : Nat
  dI : Int
  vPost : Int
  iPost : Int
  tAt : Int
  sAt : Int
  vs : List Int
deriving DecidableEq, Repr

/-- A strobe's V and I with the T_b and s in force at it (R164, R165). -/
structure BatSmp where
  v : Int
  i : Int
  t : Int
  s : Int
deriving DecidableEq, Repr

/-- One string (08_battery_strings). -/
structure Str where
  /-- | BAT_STAT.present | 1 | 08_battery R155 | 0 | -/
  present : Bool
  /-- | BAT_STAT.code | 4 | 08_battery R154 | 0 | -/
  code : Nat
  /-- | identity code last read | option 4 | 08_battery R154 | none | -/
  lastCode : Option Nat
  /-- | new reading (none: absent; else the code) and strobes in a row of it | option 4, 4 | 08_battery R155 | none, 0 | -/
  newKey : Option Nat
  newRun : Nat
  /-- | a presence or code change is due (PRESENCE_CHANGE) | 1 | 08_battery R155 | 0 | -/
  changeDue : Bool
  /-- | BAT_STAT.guest | 1 | 08_battery R157 | 0 | -/
  guest : Bool
  /-- | impedance table of a guest (of an owner: the working copy of its identity) | 336 entries | 08_battery R158 | empty | -/
  gtable : List Zent
  /-- | record fields in use (of an owner: its identity's working copy) | Table BAT.5 | 08_battery R158, R160 | 0 | -/
  rec_ : IdRec
  /-- | BAT_STAT.valid | 1 | 08_battery R160 | 0 | -/
  valid : Bool
  /-- | qr is to be set at the end of the first complete block | 1 | 08_battery R160 | 0 | -/
  qrFromV : Bool
  /-- | the identity mismatch test is still to be made | 1 | 08_battery R168 | 0 | -/
  mismDue : Bool
  /-- | BAT_STAT.unanch | 1 | 08_battery R168 | 0 | -/
  unanch : Bool
  /-- | UNANCHORED fired in this run | 1 | 08_battery R168 | 0 | -/
  unanchFired : Bool
  /-- | BAT_UNANCH.sat's saturation was reported | 1 | 08_battery R168, 20_guarantees R398 | 0 | -/
  unanchSat : Bool
  /-- | BAT_STAT.ntcf | 1 | 08_battery R155 | 0 | -/
  ntcf : Bool
  /-- | BAT_STAT.tlim: discharge window, charge window | 2 x 1 | 08_battery R169 | 0 | -/
  tlDis : Bool
  tlChg : Bool
  /-- | contactor output driven high, BAT_STAT.closed | 1 | 08_battery R173 | 0 | -/
  closed : Bool
  /-- | last valid T_b since present | option signed 16 | 08_battery R155 | none | -/
  tLast : Option Int
  /-- | BAT_UD u_d | signed 32 mV | 08_battery R166 | 0 | -/
  ud : Int
  /-- | BAT_V V_b | signed 32 mV | 08_battery R166 | 0 | -/
  vb : Int
  /-- | BAT_I I_b | signed 32 mA | 08_battery R166 | 0 | -/
  ib : Int
  /-- | BAT_T T_b | signed 16 | 08_battery R153 | 0 | -/
  tb : Int
  /-- | BAT_VCOMP | signed 32 mV | 08_battery R166 | 0 | -/
  vcomp : Int
  /-- | BAT_Z: Zs, Zd of the last lookup | 2 x 16 | 08_battery Table BAT.8 | 0 | -/
  z : Nat × Nat
  /-- | BAT_EREM | 32 J | 08_battery R172 | 0 | -/
  erem : Nat
  /-- | BAT_LIMDIS | 32 mA | 08_battery R169 | 0 | -/
  limDis : Int
  /-- | BAT_LIMCHG | 32 mA | 08_battery R169 | 0 | -/
  limChg : Int
  /-- | BAT_RS | 32 | 08_battery R167 | 0 | -/
  rs : Int
  /-- | consecutive blocks at or below E, at or above C | 2 x Nat | 08_battery R170 | 0 | -/
  eodRun : Nat
  eocRun : Nat
  /-- | a declaration is due (EOD_DECLARE, EOC_DECLARE) | 2 x 1 | 08_battery R170 | 0 | -/
  eodDue : Bool
  eocDue : Bool
  /-- | end of discharge or charge declared in the last block | 1 | 08_battery R167 | 0 | -/
  declared : Bool
  /-- | sums of the block: strobes, V, I, T and the number of valid T | Nat, 3 x signed 64, Nat | 08_battery R152 | 0 | -/
  nS : Nat
  sV : Int
  sI : Int
  sT : Int
  nT : Nat
  /-- | sums of the second: strobes, V, I, valid T, their number, and di | Nat, 3 x signed 64, Nat, signed 32 | 08_battery R167 | 0 | -/
  n2 : Nat
  s2V : Int
  s2I : Int
  s2T : Int
  n2T : Nat
  di : Int
  /-- | I_b of the block before | option signed 32 | 08_battery R167 | none | -/
  ibPrev : Option Int
  /-- | the second holds an ovr sample, an NTC fault, or its last block a declaration | 1 | 08_battery R167 | 0 | -/
  skipSec : Bool
  /-- | last samples V and I with T_b and s, newest first | list, up to 16 | 08_battery R164, R165 | empty | -/
  hist : List BatSmp
  /-- | strobes since present | Nat | 08_battery R164 | 0 | -/
  age : Nat
  /-- | detected step waiting for its Zd | option | 08_battery R164 | none | -/
  zd : Option ZdWait
  /-- | BAT_LRNCNT | 24 + sat | 08_battery R165 | 0 | -/
  lrn : Ctr
  /-- | BAT_LRNREJ | 24 + sat | 08_battery R165 | 0 | -/
  rej : Ctr
  /-- | limits are held at 0 by a TRANSPORT entry | 1 | 08_battery R174 | 0 | -/
  txport : Bool
deriving DecidableEq, Repr

/-- The BAT island. -/
structure Bat where
  /-- | strings 0-7 | 8 | 08_battery R150 | each at its reset | -/
  str : Vector Str 8
  /-- | identity working copies 0-15 | 16 x 256 B | 08_battery R158 | 0 (R284: until step 6) | -/
  ids : Vector IdRec 16
  /-- | impedance working copies, by 336 * id + 21 * tb + sb | entries | 08_battery R158 | 0 (unlisted) | -/
  ztab : Cells Zent
  /-- | impedance template, by 21 * tb + sb | 336 entries | 08_battery R158 | 0 (unlisted) | -/
  tmpl : Cells Word
  /-- | OCV table | 21 x signed 32 mV | 08_battery R158 | 0 | -/
  ocv : Vector Int 21
  /-- | identity records that existed and failed their checks at the load | 16 x 1 | 08_battery R160 | 0 | -/
  recBad : Vector Bool 16
  /-- | age ticks since reset | Nat | 08_battery R165 | 0 | -/
  ageTicks : Nat
  /-- | strobes since the first one | Nat | 08_battery R152 | 0 | -/
  strobes : Nat
  /-- | tick counter value of the last strobe | option Nat | 02_sense R34 | none | -/
  strobeTick : Option Nat
  /-- | blocks completed and not yet worked (BAT_BLOCK due), seconds (BAT_SECOND due) | 2 x 1 | 08_battery R152 | 0 | -/
  blockDue : Bool
  secDue : Bool
  /-- | blocks since the last second | 6 | 08_battery R152 | 0 | -/
  blocks : Nat
  /-- | operating time of the last hour and of the last age tick | 2 x 48 | 08_battery R152 | 0 | -/
  hourAt : Nat
  ageAt : Nat
  /-- | start of the wait of R174's second step (none: not in a TRANSPORT entry) | option model time | 08_battery R174 | none | -/
  txAt : Option Nat
  /-- | BAT_CTL.en as it was: a falling or rising edge is still to be served | 8 x 1 | 08_battery R150, R161 | 0 | -/
  enSeen : Vector Bool 8
deriving DecidableEq, Repr

/-- One mailbox chunk (R193): four data bytes, som, eom, and the number of valid bytes. -/
structure Chunk where
  data : Vector Byte 4
  som : Bool
  eom : Bool
  n : Nat
deriving DecidableEq, Repr

/-- One end of a mailbox channel (R194). -/
structure Mbx where
  /-- | chunks cut and never sent yet | list | 09_slot R194 | empty | -/
  txq : List Chunk
  /-- | chunks sent and unacknowledged, oldest first, with their mb_seq | list, at most 8 | 09_slot R194 | empty | -/
  unack : List (BitVec 8 × Chunk)
  /-- | how many of the unacknowledged chunks are to be sent again | 4 | 09_slot R194 | 0 | -/
  again : Nat
  /-- | mb_seq of the next new chunk | 8 | 09_slot R194 | 0 | -/
  seq : BitVec 8
  /-- | frames since the oldest unacknowledged chunk was sent without an advance | Nat | 09_slot R194 | 0 | -/
  frames : Nat
  /-- | next mb_seq expected | 8 | 09_slot R194 | 0 | -/
  expect : BitVec 8
  /-- | a chunk has been accepted (ackv) | 1 | 09_slot R194 | 0 | -/
  ackv : Bool
  /-- | bytes of the message being received | list, at most 256 | 09_slot R195 | empty | -/
  part : List Byte
  /-- | inside a message | 1 | 09_slot R195 | 0 | -/
  inMsg : Bool
  /-- | the rest of a bad message is being discarded | 1 | 09_slot R195 | 0 | -/
  bad : Bool
deriving DecidableEq, Repr

/-- The mailbox after link up: sequences at 0, nothing held. -/
def Mbx.zero : Mbx := ⟨[], [], 0, 0, 0, 0, false, [], false, false⟩

/-- A mailbox request in flight (R196): its tag, the host ring and command that asked for it (none: Field Update), the
instant it was issued. -/
structure MbReq where
  tag : Fin 4
  host : Option (Fin 4 × BitVec 16)
  at_ : Nat
deriving DecidableEq, Repr

/-- The relay of a slot image (17_field_update R351): its manifest entry, the number of the message (0 begin, then the
FW_BLOCKs, then verify), whether that message has been sent. -/
structure FwRelay where
  entry : Nat
  pos : Nat
  sent : Bool
deriving DecidableEq, Repr

/-- One symbol of a downlink frame (R178, R180): a control code group or a data byte. -/
inductive Sym where
  | k285 | k282 | k307
  | d (b : Byte)
deriving DecidableEq, Repr

/-- The controller's side of one slot link (09_slot_links). -/
structure Slt where
  /-- | SLT_STAT.lstate (0 DISABLED, 1 TRAIN, 2 UP, 3 DECL_ERR) | 3 | 09_slot R187 | 0 | -/
  lstate : Nat
  /-- | consecutive valid uplinks of the run toward UP | 5 | 09_slot R187 | 0 | -/
  run : Nat
  /-- | declaration of the last valid uplink: class, fs, ver | option 8 + 32 + 8 | 09_slot R186, R187 | none | -/
  decl : Option (Byte × Nat × Byte)
  /-- | SLT_DECL class, SLT_FS, SLT_DECL ver, as held in UP | 8 + 32 + 8 | 09_slot R187 | 0 | -/
  held : Byte × Nat × Byte
  /-- | end of the last valid uplink | option model time | 09_slot R187 | none | -/
  last : Option Nat
  /-- | fcnt of the last valid uplink | option 8 | 09_slot R192 | none | -/
  fcnt : Option (BitVec 8)
  /-- | SLT_US.status | 16 | 09_slot Table SLT.9 | 0 | -/
  status : BitVec 16
  /-- | SLT_US.follow | 8 | 09_slot Table SLT.9 | 0 | -/
  follow : Byte
  /-- | SLT_I | signed 32 mA | 09_slot Table SLT.9 | 0 | -/
  i : BitVec 32
  /-- | SLT_V | signed 32 mV | 09_slot Table SLT.9 | 0 | -/
  v : BitVec 32
  /-- | SLT_T | signed 16 | 09_slot Table SLT.9 | 0 | -/
  t : BitVec 16
  /-- | SLT_SP.applied | 16 | 09_slot Table SLT.9 | 0 | -/
  applied : BitVec 16
  /-- | SLT_STAT.na | 1 | 09_slot R188 | 0 | -/
  na : Bool
  /-- | SLT_RXTS | 32 | 09_slot Table SLT.9 | 0 | -/
  rxts : Word
  /-- | SLT_RTT.last_ns | 16 | 09_slot R192 | 0 | -/
  rttLast : Nat
  /-- | SLT_RTT.worst_ns | 16 | 09_slot R192 | 0 | -/
  rttWorst : Nat
  /-- | SLT_CRCERR | 24 + sat | 09_slot Table SLT.9 | 0 | -/
  crcErr : Ctr
  /-- | SLT_CVERR | 24 + sat | 09_slot Table SLT.9 | 0 | -/
  cvErr : Ctr
  /-- | SLT_LOSSCNT | 24 + sat | 09_slot Table SLT.9 | 0 | -/
  lossCnt : Ctr
  /-- | SLT_GAPCNT | 24 + sat | 09_slot R192 | 0 | -/
  gapCnt : Ctr
  /-- | SLT_MBRTX | 24 + sat | 09_slot R194 | 0 | -/
  mbrtx : Ctr
  /-- | CRC event still to fire at the next invalid frame | 1 | 09_slot R198 | 1 | -/
  crcArm : Bool
  /-- | the uplink frame of this snapshot: current, voltage, input lost (none: link not up) | option | 01_shelf R18 | none | -/
  snap : Option (Int × Int × Bool)
  /-- | mailbox of the port | Table SLT.4 | 09_slot R194 | empty | -/
  mbx : Mbx
  /-- | requests in flight | list, at most 4 | 09_slot R196 | empty | -/
  req : List MbReq
  /-- | payload frozen for the next frame: claim, setpoint, cap, ctl, hold | 8 + 16 + 16 + 8 + 8 | 09_slot R182, 10_redundancy R215 | claim 0, setpoint 0, cap 0x7FFF, ctl 0, hold 4 | -/
  froz : Byte × BitVec 16 × BitVec 16 × Byte × Byte
  /-- | downlink frame being sent: its 40 symbols (none: driver high-impedance) | option 40 symbols | 09_slot R178, R180, R181 | none | -/
  tx : Option (Vector Sym 40)
  /-- | the frame being sent was cut by a claim drop (K30.7) | 1 | 09_slot R180 | 0 | -/
  cut : Bool
  /-- | starts of the last frames, with their fcnt, newest first | list of (8, model time) | 09_slot R192 | empty | -/
  starts : List (BitVec 8 × Nat)
  /-- | SLT_CFG and the role fields checked against the declaration at DECL_ERR (a change returns it to TRAIN) | list of words | 09_slot R187 | empty | -/
  errCfg : List Word
  /-- | relay of a slot image in progress: entry, message, whether its FW_STATUS is awaited | option | 17_field_update R351 | none | -/
  fw : Option FwRelay
  /-- | current and input-lost status of the latest uplink with a good CRC, at the snapshot | signed 32 mA, 1 | 01_shelf R18, 06_headbox Table HBX.1 | 0 | -/
  meas : Int × Bool
  /-- | the board inverts the uplink lane: rx_inv must read so | 1 | 09_slot R177 | DESIGN CHOICE 0 (log 73) | -/
  rxSwap : Bool
deriving DecidableEq, Repr

/-- One port of a slot module (R189, R194). -/
structure SlotPort where
  /-- | claim of the last valid frame of the port, 0x00 once expired | 8 | 09_slot R189 | 0x00 | -/
  claim : Byte
  /-- | end of the last valid frame | option model time | 09_slot R189 | none | -/
  last : Option Nat
  /-- | fcnt of the last valid downlink frame, sent back as echo | 8 | 09_slot Table SLT.2 | 0 | -/
  echo : BitVec 8
  /-- | mailbox of the port | Table SLT.4 | 09_slot R194 | empty | -/
  mbx : Mbx
deriving DecidableEq, Repr

/-- A command frame on its way to take effect in a slot (R190): setpoint, cap, ctl, hold, the latest instant. -/
structure SlotCmd where
  sp : BitVec 16
  cap : BitVec 16
  ctl : Byte
  hold : Nat
  due : Nat
deriving DecidableEq, Repr

/-- How a slot module regulates (R191). -/
inductive SlotRun where
  | normal | hold | local_
deriving DecidableEq, Repr

/-- One slot module, as far as the spec states it. -/
structure SlotMod where
  /-- | ports 0 and 1 | 2 | 09_slot R189 | each at its reset | -/
  port : Vector SlotPort 2
  /-- | port followed (none: neither) | option 1 | 09_slot R189 | none | -/
  follows : Option Port
  /-- | command waiting to take effect | option | 09_slot R190 | none | -/
  pend : Option SlotCmd
  /-- | setpoint, cap, ctl and hold last applied | option | 09_slot R190 | none | -/
  sp : BitVec 16
  cap : BitVec 16
  ctl : Byte
  /-- | hold of the last applied frame | 4 | 09_slot R191 | 4 | -/
  hold : Nat
  /-- | normal, holding or local default | 2 | 09_slot R191 | local default | -/
  run : SlotRun
  /-- | arrival of the last frame applied | option model time | 09_slot R191 | none | -/
  last : Option Nat
deriving DecidableEq, Repr

/-- One power stage (R208–R211). -/
structure StageMod where
  /-- | claim per port, 0x00 once expired | 2 x 8 | 10_redundancy R209 | 0x00 | -/
  claim : Vector Byte 2
  /-- | end of the last valid word per port | 2 x option model time | 10_redundancy R209 | none | -/
  last : Vector (Option Nat) 2
  /-- | port followed (none: neither) | option 1 | 10_redundancy R210 | none | -/
  follows : Option Port
  /-- | forwards the followed port's PWM | 1 | 10_redundancy R210 | 0 (both off) | -/
  driving : Bool
deriving DecidableEq, Repr

/-- The Chezon link's state (RED_STAT.link). -/
inductive Link where
  | down | train | oneLane | up
deriving DecidableEq, Repr

/-- A couch drill (R230): 1 the unit is ACTIVE and sends the degraded heartbeat; 2 it was demoted and holds its engines
in TRACK for fb_ms. -/
structure Drill where
  step : Nat
  from_ : Nat
deriving DecidableEq, Repr

/-- Redundancy: what PER keeps, with the claim AON keeps of the unit. -/
structure Red where
  /-- | claim latch feeding the CLM serialisers, RED_CLAIM.own | 8 | 10_redundancy R199, R207 | 0x00 | -/
  claim : Byte
  /-- | CLM word being sent: claim, CRC, start (none: lines low) | option | 10_redundancy R205, R207 | none | -/
  word : Option (Byte × BitVec 4 × Nat)
  /-- | pad override holds CLM, PWMH and PWML low | 1 | 10_redundancy R207 | 1 | -/
  padLow : Bool
  /-- | peer claim last received, RED_CLAIM.peer | 8 | 10_redundancy Table RED.13 | 0 | -/
  peer : Byte
  /-- | peer claim received since PER's start | 1 | 10_redundancy R202 | 0 | -/
  peerSeen : Bool
  /-- | status last received | option | 11_sequencing R248, 14_start R288 | none | -/
  peerSt : Option PeerStatus
  /-- | RED_STAT.link | 2 | 10_redundancy R222 | 0 DOWN | -/
  link : Link
  /-- | instant of the last valid packet | model time | 10_redundancy R222 | 0 | -/
  pktAt : Nat
  /-- | lane that failed | 1 | 10_redundancy R222 | 0 | -/
  lane : Fin 2
  /-- | instant of the last packet sent | model time | 10_redundancy R222 | 0 | -/
  sentAt : Nat
  /-- | packet last sent | option | 10_redundancy R222 | none | -/
  sent : Option ChezonPacket
  /-- | the link went DOWN at | option model time | 10_redundancy R227 | none | -/
  downAt : Option Nat
  /-- | RED_STAT.ready | 1 | 10_redundancy R227 | 0 | -/
  ready : Bool
  /-- | ticks aligned | 1 | 10_redundancy R223 | 0 | -/
  aligned : Bool
  /-- | the tick counter was taken from the peer | 1 | 10_redundancy R223 | 0 | -/
  tickTaken : Bool
  /-- | RED_TOFS | signed 32 ns | 10_redundancy R223 | 0 | -/
  tofs : Int
  /-- | CFG_DIGEST fired for the present difference | 1 | 10_redundancy R227 | 0 | -/
  digFired : Bool
  /-- | sequence number of the snapshots sent | 32 | 10_redundancy R224, R401 | 0 | -/
  outSeq : BitVec 32
  /-- | snapshot last captured | option | 10_redundancy R224 | none | -/
  out : Option Snapshot
  /-- | sequence number last received | option 32 | 10_redundancy R225 | none | -/
  inSeq : Option (BitVec 32)
  /-- | consecutive accepted snapshots | Nat | 10_redundancy R227 | 0 | -/
  accRun : Nat
  /-- | the last accepted snapshot raised a mismatch | 1 | 10_redundancy R227 | 0 | -/
  lastMis : Bool
  /-- | dispatch block of the last accepted snapshot, waiting for the next allocation period | option | 10_redundancy R225 | none | -/
  disp : Option Snapshot
  /-- | consecutive comparisons that differed, per item: channels 0-33, strings, scan, sources | 83 counts | 10_redundancy R226 | 0 | -/
  mis : Vector Nat 83
  /-- | own blocks, scans and allocation period already compared | 3 x Nat | 10_redundancy R226 | 0 | -/
  seenBlk : Nat
  seenScan : Nat
  seenPer : Nat
  /-- | RED_SNAPCNT | 24 + sat | 10_redundancy Table RED.13 | 0 | -/
  snapCnt : Ctr
  /-- | RED_SNAPERR | 24 + sat | 10_redundancy R225 | 0 | -/
  snapErr : Ctr
  /-- | RED_XMIS | 24 + sat | 10_redundancy R226 | 0 | -/
  xmis : Ctr
  /-- | couch drill, RED_STAT.drill | option | 10_redundancy R230 | none | -/
  drill : Option Drill
  /-- | operating time of the last completed drill | 48 | 10_redundancy R229 | 0 | -/
  drillOpt : Nat
  /-- | a scheduled drill was requested and has not run; operating time of its last request | option 48 | 10_redundancy R229 | none | -/
  drillReq : Option Nat
  /-- | snapshot last accepted | option | 10_redundancy R226 | none | -/
  prevIn : Option Snapshot
  /-- | levels of the 32 chips of the CLM word being sent, in order of transmission (all low: lines low) | 32 chips of 25 ns | 10_redundancy R205, Table RED.3, R207 | low | -/
  chips : Vector Bool 32
  /-- | next word start of the CLM grid | model time | 10_redundancy R205 | 0 | -/
  wordNext : Nat
  /-- | own delivered allocations of the last two allocation periods, newest first, each with the tick of its delivery | list of 40 x 32 | 10_redundancy R226 | empty | -/
  ownAlloc : List (Nat × Vector Int 40)
  /-- | own block means V_b, I_b of the strings of the last two blocks, newest first, each with the tick of its completion | list of 8 x 2 x 32 | 10_redundancy R226 | empty | -/
  ownMeans : List (Nat × Vector (Int × Int) 8)
deriving DecidableEq, Repr

/-- A heartbeat class (RED_ARB_STAT, Table RED.7). -/
inductive HbClass where
  | unknown | healthy | degraded | dead
deriving DecidableEq, Repr

/-- The arbiter's view of one unit. -/
structure ArbUnit where
  /-- | RED_ARB_STAT.class | 2 | 10_redundancy R217 | 0 UNKNOWN | -/
  cls : HbClass
  /-- | last edge, or the role decision | model time | 10_redundancy R217 | 0 | -/
  edge : Nat
  /-- | an edge was seen since the decision | 1 | 10_redundancy R217 | 0 | -/
  seen : Bool
  /-- | consecutive healthy, degraded, other intervals | 3 x Nat | 10_redundancy R217 | 0 | -/
  nH : Nat
  nD : Nat
  nX : Nat
  /-- | DEMOTE_X_N driven low since | option model time | 10_redundancy R219 | none | -/
  demote : Option Nat
  /-- | HEALTHY without a break since | option model time | 10_redundancy R219 | none | -/
  healthySince : Option Nat
  /-- | TAKE_X_N pulse in progress | 1 | 10_redundancy R219 | 0 | -/
  take : Bool
  /-- | start of the last TAKE_X_N pulse | option model time | 10_redundancy R219 | none | -/
  takeAt : Option Nat
deriving DecidableEq, Repr

/-- The arbiter. -/
structure Arb where
  /-- | units A and B | 2 | 10_redundancy R217 | each at its reset | -/
  u : Vector ArbUnit 2
  /-- | deferred TAKE: the unit, the instant of its evaluation | option | 10_redundancy R219 | none | -/
  deferred : Option (Fin 2 × Nat)
  /-- | RED_VERDCNT | 24 + sat | 10_redundancy R219 | 0 | -/
  verdCnt : Ctr
deriving DecidableEq, Repr

/-- The sequencer's node states (Table SEQ.1). -/
inductive NState where
  | off | wait | rising | settle | up | falling | failed | blocked
deriving DecidableEq, Repr

/-- One sequencer node. -/
structure Node where
  /-- | SEQ_N_STAT.state | 3 | 11_sequencing R236 | 0 OFF | -/
  st : NState
  /-- | SEQ_N_STAT.pg | 1 | 11_sequencing R235 | 0 | -/
  pg : Bool
  /-- | SEQ_N_STAT.off | 1 | 11_sequencing R235 | 0 | -/
  off : Bool
  /-- | consecutive evaluations toward a change of pg, of off | 2 x 4 | 11_sequencing R235 | 0 | -/
  pgRun : Nat
  offRun : Nat
  /-- | a change of pg is due (PG_CHANGE) | 1 | 11_sequencing R235 | 0 | -/
  due : Bool
  /-- | SEQ_N_STAT.en_out | 1 | 11_sequencing R236 | 0 | -/
  en : Bool
  /-- | SEQ_N_STAT.cause | 8 | 11_sequencing Table SEQ.9 | 0 | -/
  cause : Nat
  /-- | SEQ_N_STAT.chat | 4 | 11_sequencing R239 | 0 | -/
  chat : Nat
  /-- | start of on_dly or off_dly | option model time | 11_sequencing R238, R244 | none | -/
  dly : Option Nat
  /-- | instant the enable was asserted: rise timer | model time | 11_sequencing R238 | 0 | -/
  rise : Nat
  /-- | entry to SETTLE | model time | 11_sequencing R238 | 0 | -/
  settle : Nat
  /-- | entry to FALLING: fall timer | model time | 11_sequencing R244 | 0 | -/
  fall : Nat
  /-- | FALL_TIMEOUT events of this shutdown | Nat | 11_sequencing R244 | 0 | -/
  fallCnt : Nat
  /-- | member of a dependants shutdown, for this failed node | option 7 | 11_sequencing R241 | none | -/
  dset : Option Nat
  /-- | taken as UP at a takeover: evaluations of its pg since | option 4 | 11_sequencing R248 | none | -/
  taken : Option Nat
deriving DecidableEq, Repr

/-- The sequencer (11_sequencing_and_supervision). -/
structure Seq where
  /-- | SEQ_STAT.state (0 IDLE .. 6 TRIPPED) | 3 | 11_sequencing Table SEQ.6 | 0 | -/
  st : Nat
  /-- | SEQ_STAT.cause | 4 | 11_sequencing Table SEQ.6 | 0 | -/
  cause : Nat
  /-- | SEQ_STAT.go_pend | 1 | 11_sequencing R237 | 0 | -/
  goPend : Bool
  /-- | retry held pending through TRIPPED | 1 | 11_sequencing R242 | 0 | -/
  retryPend : Bool
  /-- | SEQ_STAT.graph_err | 1 | 11_sequencing R233 | 0 | -/
  graphErr : Bool
  /-- | last all-off | option model time | 11_sequencing R245 | none | -/
  allOffAt : Option Nat
  /-- | last trip | option model time | 11_sequencing R246 | none | -/
  tripAt : Option Nat
  /-- | start of the power-up or shutdown in progress | model time | 11_sequencing Table SEQ.3 | 0 | -/
  from_ : Nat
  /-- | SEQ_FAILCNT | 24 + sat | 11_sequencing Table SEQ.6 | 0 | -/
  failCnt : Ctr
  /-- | SEQ_RSCNT | 24 + sat | 11_sequencing Table SEQ.6 | 0 | -/
  rsCnt : Ctr
  /-- | nodes 0-71 | 72 | 11_sequencing R233 | each at its reset | -/
  n : Vector Node 72
  /-- | the HOLDUP_STOP condition held at the last completed allocation period | 1 | 11_sequencing R243 | 0 | -/
  huLow : Bool
  /-- | the HOLDUP_STOP condition came up in RESTART_WAIT: the start waits for hu = 0 | 1 | 11_sequencing R247 Table SEQ.2 | 0 | -/
  huWait : Bool
deriving DecidableEq, Repr

/-- One thermal sensor (12_thermal_watch). -/
structure Sensor where
  /-- | THM_S_T.t | signed 16 | 12_thermal R250 | 0 | -/
  t : Int
  /-- | THM_S_T.tu | signed 16 | 12_thermal R253 | 0 | -/
  tu : Int
  /-- | THM_S_STAT.broken | 1 | 12_thermal R252 | 0 | -/
  broken : Bool
  /-- | THM_S_STAT.bcause | 4 | 12_thermal Table THM.7 | 0 | -/
  bcause : Nat
  /-- | steps in a row in which no broken condition held | 5 | 12_thermal R252 | 0 | -/
  clean : Nat
  /-- | sensor restored is due (SENSOR_RESTORED) | 1 | 12_thermal R252 | 0 | -/
  restDue : Bool
  /-- | THM_S_STAT.subst | 1 | 12_thermal R253 | 0 | -/
  subst : Bool
  /-- | THM_S_STAT.trip | 1 | 12_thermal R254 | 0 | -/
  trip : Bool
  /-- | THM_S_STAT.warn | 1 | 12_thermal R254 | 0 | -/
  warn : Bool
  /-- | THM_S_RAW | 32 | 12_thermal Table THM.5 | 0 | -/
  raw : Nat
  /-- | identical raw counts in a row | Nat | 12_thermal Table THM.1 | 0 | -/
  same : Nat
  /-- | diode conversion last completed (none: none yet) | option | 12_thermal R251 | none | -/
  dio : Option Diode
  /-- | sum and number of Tu in this second | signed, Nat | 12_thermal R256 | 0 | -/
  sum : Int
  num : Nat
  /-- | means of the last seconds, newest first | list, at most 61 | 12_thermal R256 | empty | -/
  means : List Int
  /-- | THM_S_RISE | signed 16 | 12_thermal R256 | 0 | -/
  rise : Int
  /-- | the rise exceeded its limit in the last second | 1 | 12_thermal R256 | 0 | -/
  rocHi : Bool
deriving DecidableEq, Repr

/-- The thermal watch. -/
structure Thm where
  /-- | sensors 0-47 | 48 | 12_thermal R250 | each at its reset | -/
  s : Vector Sensor 48
deriving DecidableEq, Repr

/-- The live fuse values (Table OTP.2) as they travel on their wires. -/
structure Live where
  /-- | OTP_CEIL.pos | 10 | 13_fuse Table OTP.2 | 63 (R269: failure value until driven) | -/
  ceilPos : Nat
  /-- | OTP_CEIL.neg | 10 | 13_fuse Table OTP.2 | 63 (failure value until driven) | -/
  ceilNeg : Nat
  /-- | T_SD, THM_SD.t_sd | signed 16 | 13_fuse Table OTP.2 | 90 C (G0 and G1 failure values until driven) | -/
  tSd : Int
  /-- | T_RESTART, THM_SD.t_restart | signed 16 | 13_fuse Table OTP.2 | 65 C (failure value until driven) | -/
  tRs : Int
  /-- | thm_hot | 1 | 13_fuse Table OTP.2 | 1 (failure value until driven) | -/
  thmHot : Bool
  /-- | dt_floor, ns (OTP_DTF is 64 times it) | 6 | 13_fuse Table OTP.2 | 63 (failure value until driven) | -/
  dtFloor : Nat
  /-- | deny_active, deny_solo, deny_arbiter | 3 x 1 | 13_fuse Table OTP.2 | 1 (failure value until driven) | -/
  denyActive : Bool
  denySolo : Bool
  denyArb : Bool
  /-- | unit_fix | 2 | 13_fuse Table OTP.2 | 0b11 (failure value until driven) | -/
  unitFix : Nat
  /-- | pair_id | 16 | 13_fuse Table OTP.2 | 0 | -/
  pairId : BitVec 16
  /-- | no peer accepted | 1 | 13_fuse Table OTP.2 | 1 (failure value until driven) | -/
  noPeer : Bool
  /-- | OTP_SEC.key (0 default, 1 programmed, 2 unusable) | 2 | 13_fuse Table OTP.6 | 2 (failure value until driven) | -/
  key : Nat
  /-- | key_hash | 256 | 13_fuse Table OTP.2 | 0 | -/
  keyHash : BitVec 256
  /-- | OTP_SEC.auth_key (0 absent, 1 usable, 2 unusable) | 2 | 13_fuse Table OTP.6 | 2 (failure value until driven) | -/
  auth : Nat
  /-- | auth_key | 256 | 13_fuse Table OTP.2 | 0 | -/
  authKey : BitVec 256
  /-- | dbg_lock | 1 | 13_fuse Table OTP.2 | 1 (failure value until driven) | -/
  dbgLock : Bool
  /-- | v of thermo0 and thermo1 | 2 x 8 | 13_fuse R267 | 0 | -/
  v0 : Nat
  v1 : Nat
  /-- | die_id | 128 | 13_fuse Table OTP.2 | 0 | -/
  dieId : BitVec 128
  /-- | ch_trim words, 0x10-0x50 (0 where G0 failed) | 65 x 32 | 13_fuse Table OTP.2 | 0 | -/
  chTrim : Vector Word 65
  /-- | ts_trim: n25, d of each on-die sensor | 32 x (17, 15) | 13_fuse Table OTP.2 | 98304, 8192 (failure values) | -/
  tsTrim : Vector (Nat × Nat) 32
  /-- | the sensor takes the ts_trim failure values | 32 x 1 | 13_fuse Table OTP.2 | 1 | -/
  tsFail : Vector Bool 32
  /-- | ana_trim words 0x04-0x0F in use by the trimmed hardware (none: the centre code of each trim) | option 12 x 32 | 13_fuse Table OTP.2 | none (failure value until driven) | -/
  anaTrim : Option (Vector Word 12)
deriving DecidableEq, Repr

/-- A fuse command in progress (R274, R275). -/
structure OtpCmd where
  op : Nat
  word : Nat
  bits : Word
  grp : Nat
deriving DecidableEq, Repr

/-- The fuse array (13_fuse_array). -/
structure Otp where
  /-- | copy a, bits that read 1 at normal read, by word | 256 x 32 | 13_fuse R263, R269 | DESIGN CHOICE factory part with nominal trims (log 8) | -/
  aN : Cells Word
  /-- | copy a, bits that read 1 at margin read | 256 x 32 | 13_fuse R269 | as aN | -/
  aM : Cells Word
  /-- | copy b, normal read | 256 x 32 | 13_fuse R263 | as aN | -/
  bN : Cells Word
  /-- | copy b, margin read | 256 x 32 | 13_fuse R269 | as aN | -/
  bM : Cells Word
  /-- | OTP_STAT.latched | 1 | 13_fuse R269 | 0 | -/
  latched : Bool
  /-- | live values | Table OTP.2 | 13_fuse R269 | failure values | -/
  live : Live
  /-- | OTP_STAT.raw_off | 1 | 13_fuse Table OTP.7 | 0 until latched (R406) | -/
  rawOff : Bool
  /-- | OTP_STAT.lock_inc | 1 | 13_fuse R272 | 0 | -/
  lockInc : Bool
  /-- | OTP_STAT.lock | 6 | 13_fuse Table OTP.7 | 0 until latched | -/
  lock : BitVec 6
  /-- | OTP_STAT.fail | 6 | 13_fuse Table OTP.7 | 0 until latched | -/
  fail : BitVec 6
  /-- | OTP_STAT.blank | 6 | 13_fuse Table OTP.7 | 0 until latched | -/
  blank : BitVec 6
  /-- | OTP_CTL.arm | 1 | 13_fuse R274 | 0 | -/
  arm : Bool
  /-- | command running, OTP_STAT.busy | option | 13_fuse R274 | none | -/
  cmd : Option OtpCmd
  /-- | OTP_CMD.result | 4 | 13_fuse Table OTP.9 | 0 | -/
  result : Nat
  /-- | OTP_CMD.why | 4 | 13_fuse Table OTP.9 | 0 | -/
  why : Nat
  /-- | OTP_RDATA | 32 | 13_fuse R274 | 0 | -/
  rdata : Word
  /-- | OTP_MASK | 32 | 13_fuse R275 | 0 | -/
  mask : Word
  /-- | OTP_MARG_ADDR | 8 | 13_fuse R271 | 0 | -/
  margAddr : Nat
  /-- | OTP_MARG_BITS | 32 | 13_fuse R271 | 0 | -/
  margBits : Word
  /-- | OTP_PULSES | 24 + sat | 13_fuse Table OTP.6 | 0 | -/
  pulses : Ctr
  /-- | G5 was read and checked since the last latch | 1 | 13_fuse R269 | 0 | -/
  g5Done : Bool
  /-- | operating time of the last re-read | 48 | 13_fuse R273 | 0 | -/
  rereadAt : Nat
  /-- | a re-read fell due while a command ran | 1 | 13_fuse R273 | 0 | -/
  rereadDue : Bool
  /-- | instant of the last set of OTP_CTL.arm | option model time | 00_scope R5 | none | -/
  armAt : Option Nat
deriving DecidableEq, Repr

/-- A stored word: its data, and which of its 72 cells read back in error. -/
structure NWord where
  data : BitVec 64
  err : BitVec 72
deriving DecidableEq, Repr

/-- A record write waiting for the commit buffer: its id, format and payload. -/
structure NvpWrite where
  id : Nat
  fmt : Nat
  payload : List Byte
deriving DecidableEq, Repr

/-- A record of the black box: 32 bytes, byte 0 lowest. -/
abbrev Rec := BitVec 256

/-- One ream (R325, R326). -/
structure Ream where
  /-- | BBX_REAM.state (0 FREE, 1 SEALING, 2 SEALED, 3 READ) | 2 | 16_black_box Table BBX.9 | 0 | -/
  st : Nat
  /-- | ring slots of its records, ascending seq | list, at most 512 | 16_black_box R325 | empty | -/
  slots : List Nat
  /-- | seal_seq | 40 | 16_black_box Table BBX.4 | 0 | -/
  sealSeq : BitVec 40
  /-- | flags: trace held, zkey, power-fail seal | 3 x 1 | 16_black_box Table BBX.4 | 0 | -/
  trace : Bool
  zkey : Bool
  pf : Bool
  /-- | t0 | 64 | 16_black_box Table BBX.4 | 0 | -/
  t0 : Nat
  /-- | map, BBX_TRC_SEL in force at the freeze | 128 | 16_black_box Table BBX.4 | 0 | -/
  map : BitVec 128
  /-- | row0 | 12 | 16_black_box Table BBX.4 | 0 | -/
  row0 : Nat
  /-- | later | 8 | 16_black_box Table BBX.4 | 0 | -/
  later : Nat
  /-- | watermark | 128 | 16_black_box R326 | 0 | -/
  wm : BitVec 128
  /-- | watermark complete | 1 | 16_black_box R326 | 0 | -/
  wmDone : Bool
  /-- | BBX_REAM_PTR | 16 | 16_black_box R332 | 0 | -/
  ptr : Nat
deriving DecidableEq, Repr

/-- A free ream. -/
def Ream.free : Ream := ⟨0, [], 0, false, false, false, 0, 0, 0, 0, 0, false, 0⟩

/-- The event store: the ring by slot, the trace circle by index, the reams. -/
structure EvStore where
  ring : Cells Rec
  rows : Cells (Vector (BitVec 16) 16)
  reams : Vector Ream 4
deriving DecidableEq, Repr

/-- The image in the shadow array (R313): the header's seq and operating time, and the store. -/
structure Image where
  seq : Nat
  opt : Nat
  store : EvStore
  crc : Nat
deriving DecidableEq, Repr

/-- A save in progress (R310, R313): its cause and start, whether it saves the image, whether it passes over the slot of an
hourly save that a power failure stopped, the slot's payload, whether the slot is written, and the event store as frozen 2 µs
after the start. -/
structure Save where
  why : Nat
  from_ : Nat
  image : Bool
  after : Option Nat
  opt : Nat
  lost : Bool
  payload : List Byte
  slotDone : Bool
  frozen : Option EvStore
deriving DecidableEq, Repr

/-- The parameter store (15_parameter_store). -/
structure Nvp where
  /-- | store words, by word address (store address / 8) | 32768 x 72 | 15_parameter_store R298 | 0 (unlisted) | -/
  store : Cells NWord
  /-- | shadow array image (none: header cleared or invalid) | option 640 KiB | 15_parameter_store R313 | none | -/
  image : Option Image
  /-- | cells of the shadow array that read back in error, by word address | 72 | 15_parameter_store R299, R313 | 0 (unlisted) | -/
  shErr : Cells (BitVec 72)
  /-- | commit buffer, by word address | at most 512 x 64 | 15_parameter_store R304 | empty | -/
  buf : Cells (BitVec 64)
  /-- | record writes waiting for the buffer | list | 15_parameter_store R304, R305 | empty | -/
  queue : List NvpWrite
  /-- | words waiting for room in the buffer: scrub writes, and the rest of a record larger than it | list | 15_parameter_store R299, R304 | empty | -/
  rest : List (Nat × BitVec 64)
  /-- | commit running, NVP_STAT.busy: its start | option model time | 15_parameter_store R304 | none | -/
  commit : Option Nat
  /-- | the running commit was stopped by a power failure | 1 | 15_parameter_store R307 | 0 | -/
  stopped : Bool
  /-- | save running, NVP_STAT.saving | option | 15_parameter_store R313 | none | -/
  save : Option Save
  /-- | full read running, NVP_STAT.patrol | 1 | 15_parameter_store R315 | 0 | -/
  patrol : Bool
  /-- | NVP_STAT.why | 4 | 15_parameter_store Table NVP.9 | 0 | -/
  why : Nat
  /-- | NVP_STAT.slot | 4 | 15_parameter_store Table NVP.9 | 0 | -/
  slot : Nat
  /-- | NVP_STAT.shadow_ok | 1 | 15_parameter_store Table NVP.9 | 0 | -/
  shadowOk : Bool
  /-- | NVP_STAT.restored | 1 | 15_parameter_store Table NVP.9 | 0 | -/
  restored : Bool
  /-- | NVP_CTIME last_us and worst_us | 2 x 16 | 15_parameter_store R305 | 0 | -/
  cLast : Nat
  cWorst : Nat
  /-- | NVP_STIME ring_us and shadow_us | 2 x 16 | 15_parameter_store Table NVP.7 | 0 | -/
  sRing : Nat
  sShadow : Nat
  /-- | NVP_CECNT, NVP_UECNT, NVP_TWINCNT, NVP_SAVECNT | 4 x (24 + sat) | 15_parameter_store Table NVP.7 | 0 | -/
  ce : Ctr
  ue : Ctr
  twin : Ctr
  saveCnt : Ctr
  /-- | NVP_ERRADDR | 1 + 20 | 15_parameter_store R299 | 0 | -/
  errAddr : Word
  /-- | NVP_RD_LO, NVP_RD_HI | 64 | 15_parameter_store Table NVP.7 | 0 | -/
  rd : BitVec 64
  /-- | NVP_RD_SYN | 16 | 15_parameter_store Table NVP.7 | 0 | -/
  rdSyn : BitVec 16
  /-- | energy counters: J and remainder in nJ | 4 x (64, 30) | 15_parameter_store R312 | 0 | -/
  e : Vector (Nat × Nat) 4
  /-- | records whose SEQ_SAT has fired | list | 15_parameter_store R302 | empty | -/
  seqSat : List Nat
  /-- | operating time of the last hourly save, of the last full read | 2 x 48 | 15_parameter_store R310, R315 | 0 | -/
  hourAt : Nat
  scrubAt : Nat
  /-- | a restore is due in this cold start: slot, image | 2 x 1 | 15_parameter_store R311, R313 | 1 | -/
  restoreDue : Bool
  imageDue : Bool
  /-- | payload of the slot restored at this cold start | option 584 bytes | 15_parameter_store R311, 08_battery R159 | none | -/
  slotBytes : Option (List Byte)
  /-- | bbseq of the restored slot | 40 | 15_parameter_store R311 | 0 | -/
  bbseq : BitVec 40
  /-- | a reset waits for the end of the save that runs before REC enters it: whether it is cold | option 1 | 12_thermal R261, 15_parameter_store R306, R314 | none | -/
  recDue : Option Bool
  /-- | words of the shadow array held in the commit buffer as scrub writes | word addresses | 15_parameter_store R299, R315 | empty | -/
  shScrub : List Nat
  /-- | record copy larger than the buffer that is being written in several commits: its word address and size in words | option | 15_parameter_store R304 | none | -/
  big : Option (Nat × Nat)
deriving DecidableEq, Repr

/-- The black box (16_black_box). -/
structure Bbx where
  /-- | event store: ring of 16,384 slots, 4,000 trace rows, four reams | 640 KiB | 16_black_box R320, R324, R326 | empty (0) | -/
  st : EvStore
  /-- | input queue | list, at most 64 | 16_black_box R320 | empty | -/
  queue : List Ev
  /-- | next seq, BBX_NEXT | 40 | 16_black_box R322 | 0 | -/
  seq : BitVec 40
  /-- | next write slot | 14 | 16_black_box R320 | 0 | -/
  slot : Nat
  /-- | slots returned by RELEASE, which count as the oldest | list | 16_black_box R333 | empty | -/
  oldest : List Nat
  /-- | tokens | -512..512 | 16_black_box R321 | 512 | -/
  tokens : Int
  /-- | instant of the last refill | model time | 16_black_box R321 | 0 | -/
  refillAt : Nat
  /-- | length of the run of suppressions in progress | 32 | 16_black_box R321 | 0 | -/
  supRun : Nat
  /-- | BBX_STAT.armed | 1 | 16_black_box R325 | 1 | -/
  armed : Bool
  /-- | trace row to be written next | 12 | 16_black_box R324 | 0 | -/
  pos : Nat
  /-- | SNS_TIME of the latest row | 64 | 16_black_box R324 | 0 | -/
  rowTime : Nat
  /-- | ream for which the post-trigger trace runs, and the instant of its freeze | option | 16_black_box R325 | none | -/
  post : Option (Fin 4 × Nat)
  /-- | ream that holds the trace, BBX_STAT.holder | option 2 | 16_black_box R325 | none | -/
  holder : Option (Fin 4)
  /-- | inside a run of missed seals | 1 | 16_black_box R327 | 0 | -/
  missRun : Bool
  /-- | BBX_SUPCNT, BBX_SEALMISS, BBX_AUTHFAIL, BBX_CLRCNT | 4 x (24 + sat) | 16_black_box Table BBX.9 | 0 | -/
  sup : Ctr
  sealMiss : Ctr
  authFail : Ctr
  clr : Ctr
  /-- | BBX_NONCE | 128 | 16_black_box R334 | 0 | -/
  nonce : BitVec 128
  /-- | BBX_AUTH.nvalid | 1 | 16_black_box R334 | 0 | -/
  nvalid : Bool
  /-- | instant the nonce was loaded | model time | 16_black_box R334 | 0 | -/
  nonceAt : Nat
  /-- | BBX_TOKEN | 128 | 16_black_box R334 | 0 | -/
  token : BitVec 128
  /-- | BBX_AUTH.fails | 2 | 16_black_box R335 | 0 | -/
  fails : Nat
  /-- | operating time of the start of the lockout | option 48 | 16_black_box R335 | none | -/
  lock : Option Nat
  /-- | BBX_AUTH.result | 4 | 16_black_box Table BBX.9 | 0 | -/
  result : Nat
  /-- | operation running, BBX_STAT.busy: op, ream | option | 16_black_box R333 | none | -/
  op : Option (Nat × Fin 4)
  /-- | a save after an operation was refused and is requested again | 1 | 16_black_box R333 | 0 | -/
  saveAgain : Bool
  /-- | slots of released reams that were rewritten as the oldest before the pointer reached them | list | 16_black_box R320, R333 | empty | -/
  ahead : List Nat
  /-- | writes of 1 to BBX_CTL.seal_now that wait for the running operation | Nat | 16_black_box R325, R333 | 0 | -/
  sealWait : Nat
  /-- | microsecond of SNS_TIME of the latest row formed | option | 16_black_box R324 | none | -/
  rowUs : Option Nat
deriving DecidableEq, Repr

/-- A manifest entry (Table UPD.3). -/
structure Entry where
  kind : Nat
  target : Nat
  param : Nat
  enc : Nat
  ver : Nat
  rbi : Nat
  rlen : Nat
  poff : Nat
  plen : Nat
  rhash : BitVec 256
  base : Nat
deriving DecidableEq, Repr

/-- A manifest's header and entries (Tables UPD.2, UPD.3). -/
structure Manifest where
  n : Nat
  epoch : BitVec 64
  plen : Nat
  pubkey : BitVec 512
  digest : BitVec 256
  entries : List Entry
deriving DecidableEq, Repr

/-- Field update (17_field_update). -/
structure Upd where
  /-- | UPD_STAT.phase (0 IDLE .. 6 ROLLBACK) | 4 | 17_field_update Table UPD.12 | 0 | -/
  phase : Nat
  /-- | UPD_STAT.result | 4 | 17_field_update Table UPD.12 | 0 | -/
  result : Nat
  /-- | UPD_STAT.reason | 8 | 17_field_update Table UPD.12 | 0 | -/
  reason : Nat
  /-- | UPD_STAT.step | 8 | 17_field_update Table UPD.12 | 0 | -/
  step : Nat
  /-- | record 0x0001 as read, UPD_EPOCH, UPD_STAT.trial, UPD_STAT.bank | Table UPD.5 | 17_field_update R345 | 0 | -/
  rec1 : Rec1
  /-- | digest of the bank being replaced | 256 | 17_field_update R349 | 0 | -/
  prevDigest : BitVec 256
  /-- | package bytes accepted | list | 17_field_update R341 | empty | -/
  pkg : List Byte
  /-- | offset of the last accepted chunk | option 32 | 17_field_update R341 | none | -/
  lastOff : Option Nat
  /-- | manifest accepted in this prepare | option | 17_field_update R338 | none | -/
  man : Option Manifest
  /-- | parts decoded so far | 6 | 17_field_update R344 | 0 | -/
  decoded : Nat
  /-- | UPD_PART: failing entry, entries verified | 8 + 6 | 17_field_update R344 | 0 | -/
  failing : Nat
  verified : Nat
  /-- | UPD_SLOTS | 32 | 17_field_update R351 | 0 | -/
  slots : BitVec 32
  /-- | END was accepted and the relay to the slots runs | 1 | 17_field_update R344, R351 | 0 | -/
  ending : Bool
  /-- | flash bytes written, by flash address, over the shipped contents | 64 Mbit | 17_field_update R337 | empty | -/
  flash : Cells Byte
  /-- | slots being activated: slot, instant, left UP | list | 17_field_update R351 | empty | -/
  act : List (Fin 32 × Nat × Bool)
  /-- | slots still to be activated | list | 17_field_update R351 | empty | -/
  todo : List (Fin 32)
  /-- | trial time elapsed before trialFrom, and the instant from which it runs (none: paused) | model time | 17_field_update R348, R354 | 0, none | -/
  trialUsed : Nat
  trialFrom : Option Nat
  /-- | the first refusal of the couch handover of step 3 was reported | 1 | 17_field_update R347, 10_redundancy R229 | 0 | -/
  drillAsked : Bool
  /-- | commit records are being written: peer first | 1 | 17_field_update R345 | 0 | -/
  committing : Bool
  /-- | a management restart is to be performed by the rollback | 1 | 17_field_update R348 | 0 | -/
  restartDue : Bool
  /-- | UPD_DONECNT, UPD_RBCNT | 2 x (24 + sat) | 17_field_update Table UPD.10 | 0 | -/
  doneCnt : Ctr
  rbCnt : Ctr
  /-- | steps of an update that the peer has not yet taken | list | 17_field_update R340 | empty | -/
  carry : List PeerStep
  /-- | number of steps that the peer has taken, by its status | Nat | 17_field_update R340 | 0 | -/
  carried : Nat
  /-- | number of steps taken from the peer | Nat | 17_field_update R340 | 0 | -/
  taken : Nat
  /-- | own write of record 0x0001 by COMMIT has begun | 1 | 17_field_update R345 | 0 | -/
  ownWrite : Bool
  /-- | this unit has started the drill of step 3 | 1 | 17_field_update R347, R348 | 0 | -/
  drillMine : Bool
  /-- | records of two epochs were rewritten since the last reset | 1 | 17_field_update R345 | 0 | -/
  recon : Bool
  /-- | the link was lost in steps 3 to 7: the peer's record is adopted at resynchronisation | 1 | 17_field_update R354 | 0 | -/
  stale : Bool
deriving DecidableEq, Repr

/-- A command descriptor as fetched (Table HST.3). -/
structure Desc where
  opcode : Nat
  flags : Nat
  tag : BitVec 32
  buf : Nat
  blen : Nat
  opnd : List Byte
  resOk : Bool
deriving DecidableEq, Repr

/-- What a command ended with: status, bytes for the buffer, result, result2, reason. -/
structure CmdRes where
  status : Nat
  data : List Byte
  result : BitVec 32
  result2 : BitVec 32
  reason : Nat
deriving DecidableEq, Repr

/-- A command in progress on a command ring: its descriptor, ring index, fetch order, started, its result. -/
structure Cmd where
  d : Desc
  index : Nat
  order : Nat
  started : Bool
  res : Option CmdRes
  mute : Bool
deriving DecidableEq, Repr

/-- One ring (R359, R360). -/
structure HRing where
  /-- | head, HST_RING_IDX | 16 | 18_host_rings R360 | 0 | -/
  head : Nat
  /-- | tail, HST_RING_IDX | 16 | 18_host_rings R360 | 0 | -/
  tail : Nat
  /-- | HST_RING_STAT.err | 1 | 18_host_rings R362 | 0 | -/
  err : Bool
  /-- | HST_RING_STAT cause | 8 | 18_host_rings Table HST.12 | 0 | -/
  cause : Nat
  /-- | BAR2 doorbell, last accepted value | 16 | 18_host_rings Table HST.5 | 0 | -/
  bell : Nat
  /-- | run of losses in progress | 32 | 18_host_rings R370 | 0 | -/
  lost : Nat
deriving DecidableEq, Repr

/-- A posted write of the controller toward the host, in order of issue (R371). -/
inductive Posted where
  | mem (addr : Nat) (bytes : List Byte)
  | msix (v : Fin 64)
deriving DecidableEq, Repr

/-- The host interface (18_host_rings). -/
structure Hst where
  /-- | rings 0-7 | 8 | 18_host_rings R359 | each at its reset | -/
  ring : Vector HRing 8
  /-- | commands in progress on rings 0-3, HST_RING_STAT.busy | 4 x option | 18_host_rings R364 | none | -/
  cmd : Vector (Option Cmd) 4
  /-- | completion-ring entries reserved | Nat | 18_host_rings R364 | 0 | -/
  reserved : Nat
  /-- | commands fetched | Nat | 18_host_rings R364 | 0 | -/
  fetched : Nat
  /-- | posted writes issued, newest first | list | 18_host_rings R371 | empty | -/
  posted : List Posted
  /-- | HST_LINK: up, D3hot, speed, width, LTSSM | 1 + 1 + 4 + 4 + 6 | 18_host_rings Table HST.12 | 0 | -/
  up : Bool
  d3hot : Bool
  gen : BitVec 4
  width : BitVec 4
  ltssm : BitVec 6
  /-- | HST_EVDROP, HST_TELDROP, HST_TRCDROP, HST_CPLDROP, HST_CMDCNT | 5 x (24 + sat) | 18_host_rings Table HST.12 | 0 | -/
  evDrop : Ctr
  telDrop : Ctr
  trcDrop : Ctr
  cplDrop : Ctr
  cmdCnt : Ctr
  /-- | a telemetry sample was dropped since the last one written | 1 | 18_host_rings R368 | 0 | -/
  telLost : Bool
  /-- | tick of the last telemetry sample captured | option Nat | 18_host_rings R368 | none | -/
  telTick : Option Nat
deriving DecidableEq, Repr

/-- Event routing (18_host_rings, EVT). -/
structure Evt where
  /-- | EVT_SUM.sev | 4 | 18_host_rings R374 | 0 | -/
  sev : Nat
  /-- | EVT_SUM.src | 8 | 18_host_rings R374 | 0 | -/
  src : Nat
  /-- | EVT_SUM.cnt | 16 + sat | 18_host_rings R374 | 0 | -/
  cnt : Ctr
  /-- | EVT_VEC.cnt | 64 x (16 + sat) | 18_host_rings R373 | 0 | -/
  vcnt : Vector Ctr 64
  /-- | last MSI-X message of each vector | 64 x option model time | 18_host_rings R373 | none | -/
  vlast : Vector (Option Nat) 64
  /-- | raised while moderated | 64 x 1 | 18_host_rings R373 | 0 | -/
  vheld : Vector Bool 64
  /-- | MSI-X pending bit array | 64 | 18_host_rings R358, R373 | 0 | -/
  pba : BitVec 64
  /-- | MSI-X table words, by word index | 256 x 32 | 18_host_rings R358 | PRESUMED 0, vector control mask 1 (PCIe; log 9) | -/
  msix : Vector Word 256
  /-- | instant, severity and source of the summary's update at that instant | model time, 4, 8 | 18_host_rings R376 | 0 | -/
  sumNow : Nat × Nat × Nat
deriving DecidableEq, Repr

/-- One two-wire port (19_two_wire_ports). -/
structure TwPort where
  /-- | transaction in progress, TWP_STAT.busy: address, bytes to write, bytes to read | option | 19_two_wire R380 | none | -/
  xfer : Option (BitVec 7 × List Byte × Nat)
  /-- | random wait drawn before the next attempt | 3 | 20_guarantees R395 | 0 | -/
  wait_ : Nat
  /-- | retries of the transaction made | 2 | 19_two_wire R382 | 0 | -/
  tries : Nat
  /-- | TWP_STAT.stuck | 1 | 19_two_wire R386 | 0 | -/
  stuck : Bool
  /-- | TWP_STAT.retries | 4 | 19_two_wire R386 | 0 | -/
  retries : Nat
  /-- | disabled until en is written 0 and then 1 | 1 | 19_two_wire R386 | 0 | -/
  dead : Bool
  /-- | SDA is to be checked before any transaction | 1 | 19_two_wire R386 | 0 | -/
  check : Bool
  /-- | instant of the last recovery attempt | model time | 19_two_wire R386 | 0 | -/
  recAt : Nat
  /-- | TWP_STAT.result | 4 | 19_two_wire Table TWP.10 | 0 | -/
  result : Nat
  /-- | TWP_ARBCNT | 24 + sat | 19_two_wire R382 | 0 | -/
  arb : Ctr
  /-- | TWP_ATTA | 7 | 19_two_wire R384 | 0 | -/
  atta : BitVec 7
  /-- | TWP_ATT bytes | 32 x 8 | 19_two_wire R384 | 0 | -/
  att : Vector Byte 32
  /-- | receive half; bytes 32-63 have no register (log 11) | 64 x 8 | 19_two_wire R383 | 0 | -/
  trx : Vector Byte 64
  /-- | pointer of the target buffer | 6 | 19_two_wire R383 | 0 | -/
  ptr : BitVec 6
  /-- | TWP_CFG.en as last seen | 1 | 19_two_wire R386 | 0 | -/
  enSeen : Bool
  /-- | bytes that the port as a target sent last, its PEC after them | list | 19_two_wire R383, R384 | empty | -/
  sent : List Byte
deriving DecidableEq, Repr

/-- The counters of R13 and the counter events still to fire. -/
structure Chans where
  /-- | events fired, on their way to REC | list | 01_shelf R12, 16_black_box R320 | empty | -/
  flight : List Ev
  /-- | drop counter of the event channel from each island to REC | 10 x 32 | 01_shelf R13 | 0 | -/
  drop : Vector Nat 10
  /-- | register offsets of the counters incremented at countsAt | list | 20_guarantees R400 | empty | -/
  counts : List Nat
  /-- | instant of those increments | model time | 20_guarantees R400 | 0 | -/
  countsAt : Nat
deriving DecidableEq, Repr

/-- The whole machine. -/
structure State where
  /-- | the model's clock, 1/64 ns (the model's own field, log 1) | Nat | model | DESIGN CHOICE 0 | -/
  time : Nat
  /-- | commands waiting, first in first out (the model's own field) | list | model | empty | -/
  pending : List Instr
  /-- | number of free values drawn (the model's own field, log 2) | Nat | model | DESIGN CHOICE 0 | -/
  freeCtr : Nat
  /-- | shelf tick counter | Nat, low 32 bits sent | 01_shelf R17 | 0 | -/
  tick : Nat
  /-- | instant of the last tick boundary (none: the counter has not started) | option model time | 01_shelf R17 | none | -/
  tickAt : Option Nat
  regs : Regs
  chans : Chans
  aon : Aon
  sys : Sys
  sns : Sns
  law : Law
  pwm : Pwm
  hbx : Hbx
  dkl : Dkl
  vat : Vat
  bat : Bat
  /-- | controller sides of the slot links | 32 | 09_slot R187 | each at its reset | -/
  slt : Vector Slt 32
  /-- | slot modules | 32 | 09_slot R189 | each at its reset | -/
  slot : Vector SlotMod 32
  /-- | power stages | 24 | 10_redundancy R209 | each at its reset | -/
  stage : Vector StageMod 24
  red : Red
  arb : Arb
  seq : Seq
  thm : Thm
  otp : Otp
  nvp : Nvp
  bbx : Bbx
  upd : Upd
  hst : Hst
  evt : Evt
  /-- | two-wire ports 0-3 | 4 | 19_two_wire R378 | each at its reset | -/
  twp : Vector TwPort 4
deriving DecidableEq, Repr

/-- What stops a command with the machine's state lost. No command of this part does: the type is empty. -/
inductive Fault where
deriving DecidableEq, Repr

/-- What this model declines to do. -/
inductive Refusal where
  /-- A command whose meaning is not written; raised by `exec` alone. Safe: the run stops. -/
  | notModelled (mnemonic : String)
deriving DecidableEq, Repr

/-! ### The parts at reset -/

def Chan.reset : Chan := ⟨0, 0, 0, none, false, 0, none, []⟩
def SecSt.zero : SecSt := ⟨0, 0, 0, 0, 0⟩
def Sns.reset : Sns :=
  { ch := Vector.replicate 130 Chan.reset, idle := Vector.replicate 24 false, edgeNear := Vector.replicate 24 false,
    running := false, timeBase := 0, timeFrom := 0, resumed := false, scanNext := 0, scans := 0, ntcId := [],
    railNext := Vector.replicate 8 0, busNext := 0, scanAt := 0, strobes := 0, strobeAt := none, timeSat := false }
def Engine.reset : Engine :=
  { run := .off, cur := 0, st := Vector.replicate 8 SecSt.zero, stNew := Vector.replicate 8 SecSt.zero, xf := none,
    first := false, out := 0, eIn := 0, seen := false, outStamp := none, limHi := false, limLo := false, fbNone := false,
    region := 0, xfade := false, job := none, lastTrig := none, divCnt := 0, skip := .zero, mis := .zero, dlyLast := 0,
    dlyWorst := 0, shownSt := Vector.replicate 8 SecSt.zero, snapReq := false, snapIn := none, commit := 0, v := 0, vf := 0,
    tgt := 0, xfFrom := 0, deferred := false, xfLen := 0, feCnt := 0, blank := 0, fires := .zero, xcnt := .zero,
    commitAt := 0, recommit := none, fresh := false, next := none, pre := none }
def Law.reset : Law := ⟨Vector.replicate 20 Engine.reset, [], []⟩
def Phase.reset : Phase :=
  { asg := false, rail := 0, heldAsg := none, pstate := 0, trim := 0, ofs := 0, t0 := none, tj := 0, d := 0, hIv := [],
    lIv := [], h := false, l := false, hEdge := 0, endOff := false, cbc := .zero, cbcNow := false, limNow := false, openSince := none,
    lastRaw := none, sameRun := 0, ovrRun := 0, win := [], aps := [], idleNext := 0 }
def Rail.reset : Rail :=
  { state := 0, pausedFrom := 0, r := 0, p := 0, rampUs := 0, rampTo := 0, ir := 0, ifl := 0,
    derated := false, capReq := false, cause := 0, h := 0, shorts := .zero, feRun := 0, hicEnd := 0, shedSince := none,
    addSince := none, lastShed := none, cmd := 0, cmdAt := 0, cmdOld := 0, sync := 0, per := 0, slewAt := 0, sumRun := 0,
    sumBad := false, refMa := none, snapIn := none, evalAt := none, syncT0 := none }
def PwmGlobal.reset : PwmGlobal := ⟨none, 0, false, 0, 0, false, false, 0⟩
def Pwm.reset : Pwm := ⟨Vector.replicate 24 Phase.reset, Vector.replicate 8 Rail.reset, PwmGlobal.reset⟩
def Src.reset : Src := ⟨0, 0, 0, 0, false, false, false, false, false, 0, true, false, false, false⟩
def Hbx.reset : Hbx :=
  { src := Vector.replicate 40 Src.reset, shadow := [], active := [], commit := 0, commitAt := 0, demand := 0, gcap := none,
    grid := 0, deficit := 0, surplus := 0, lam := Vector.replicate 3 0, path := 0, timeLast := 0, timeWorst := 0,
    capCnt := .zero, defCnt := .zero, lateCnt := .zero, drt16 := false, drt17 := false, inDef := false, inSur := false,
    period := 1, periodTick := 0, phase := 0, done := false, frozen := false,
    fbPower := none, snapAt := 0, headroom := 0, recommit := none, lateNow := false }
def Load.reset : Load := ⟨none, false, 0, 0⟩
def Feed.reset : Feed := ⟨0, 0, 0, false, false, 0, 0, false, false⟩
def Dkl.reset : Dkl :=
  ⟨Vector.replicate 32 Load.reset, Vector.replicate 9 Feed.reset, false, false, Vector.replicate 8 false, .zero, 0,
    Vector.replicate 32 0x7FFF⟩
def Vat.reset : Vat :=
  { v := 0, eMj := 0, phi := 0, a := 0, limHi := 0, limLo := 0, pf := none, tb := 0, tv := 0, hu := false, exitSince := none,
    huCnt := .zero, walk := false, walkDone := false, gwalk := 0, full := false, empty := false, overV := false, twArmed := true, g := 0,
    erem := Vector.replicate 8 0, strLim := Vector.replicate 8 (0, 0), twBelow := false }
def Str.reset : Str :=
  { present := false, code := 0, lastCode := none, newKey := none, newRun := 0, changeDue := false, guest := false, gtable := [],
    rec_ := .zero, valid := false, qrFromV := false, mismDue := false, unanch := false, unanchFired := false,
    unanchSat := false, ntcf := false, tlDis := false, tlChg := false, closed := false, tLast := none, ud := 0, vb := 0,
    ib := 0, tb := 0, vcomp := 0, z := (0, 0), erem := 0, limDis := 0, limChg := 0, rs := 0, eodRun := 0, eocRun := 0,
    eodDue := false, eocDue := false, declared := false, nS := 0, sV := 0, sI := 0, sT := 0, nT := 0, n2 := 0, s2V := 0, s2I := 0, s2T := 0,
    n2T := 0, di := 0, ibPrev := none, skipSec := false, hist := [], age := 0, zd := none, lrn := .zero, rej := .zero,
    txport := false }
def Bat.reset : Bat :=
  { str := Vector.replicate 8 Str.reset, ids := Vector.replicate 16 IdRec.zero, ztab := [], tmpl := [],
    ocv := Vector.replicate 21 0, recBad := Vector.replicate 16 false, ageTicks := 0, strobes := 0, strobeTick := none, blockDue := false, secDue := false, blocks := 0, hourAt := 0, ageAt := 0,
    txAt := none, enSeen := Vector.replicate 8 false }
def Slt.reset : Slt :=
  { lstate := 0, run := 0, decl := none, held := (0, 0, 0), last := none, fcnt := none, status := 0, follow := 0, i := 0,
    v := 0, t := 0, applied := 0, na := false, rxts := 0, rttLast := 0, rttWorst := 0, crcErr := .zero, cvErr := .zero,
    lossCnt := .zero, gapCnt := .zero, mbrtx := .zero, crcArm := true, snap := none, mbx := .zero, req := [],
    froz := (0, 0, 0x7FFF, 0, 4), tx := none, cut := false, starts := [], errCfg := [], fw := none, meas := (0, false), rxSwap := false }
def SlotPort.reset : SlotPort := ⟨0, none, 0, .zero⟩
def SlotMod.reset : SlotMod := ⟨Vector.replicate 2 SlotPort.reset, none, none, 0, 0, 0, 4, .local_, none⟩
def StageMod.reset : StageMod := ⟨Vector.replicate 2 0, Vector.replicate 2 none, none, false⟩
def Red.reset : Red :=
  { claim := 0, word := none, padLow := true, peer := 0, peerSeen := false, peerSt := none, link := .down, pktAt := 0,
    lane := 0, sentAt := 0, sent := none, downAt := none, ready := false, aligned := false, tickTaken := false, tofs := 0,
    digFired := false, outSeq := 0, out := none, inSeq := none, accRun := 0, lastMis := false, disp := none,
    mis := Vector.replicate 83 0, seenBlk := 0, seenScan := 0, seenPer := 0, snapCnt := .zero, snapErr := .zero, xmis := .zero, drill := none, drillOpt := 0,
    drillReq := none, prevIn := none,
    chips := Vector.replicate 32 false, wordNext := 0, ownAlloc := [], ownMeans := [] }
def ArbUnit.reset : ArbUnit := ⟨.unknown, 0, false, 0, 0, 0, none, none, false, none⟩
def Arb.reset : Arb := ⟨Vector.replicate 2 ArbUnit.reset, none, .zero⟩
def Node.reset : Node := ⟨.off, false, false, 0, 0, false, false, 0, 0, none, 0, 0, 0, 0, none, none⟩
def Seq.reset : Seq :=
  ⟨0, 0, false, false, false, none, none, 0, .zero, .zero, Vector.replicate 72 Node.reset, false, false⟩
def Sensor.reset : Sensor := ⟨0, 0, false, 0, 0, false, false, false, false, 0, 0, none, 0, 0, [], 0, false⟩
def Thm.reset : Thm := ⟨Vector.replicate 48 Sensor.reset⟩

/-- The failure values, which hold until the W fields are driven (R269, Table OTP.2). -/
def Live.failure : Live :=
  { ceilPos := 63, ceilNeg := 63, tSd := 1440, tRs := 1040, thmHot := true, dtFloor := 63, denyActive := true,
    denySolo := true, denyArb := true, unitFix := 3, pairId := 0, noPeer := true, key := 2, keyHash := 0, auth := 2,
    authKey := 0, dbgLock := true, v0 := 0, v1 := 0, dieId := 0, chTrim := Vector.replicate 65 0,
    tsTrim := Vector.replicate 32 (98304, 8192), tsFail := Vector.replicate 32 true, anaTrim := none }

/-- The ts_trim word of a nominal sensor: n25 = 98,304 in bits 31:15 and d = 8,192 in bits 14:0. -/
def Otp.nominalTrim : Word := 0xC0002000

/-- DESIGN CHOICE (log 8): a part as shipped (R265) whose G0 holds die_id 0, every ana_trim and ch_trim 0, and nominal
ts_trims, closed by its CRC word; G6 holds the lock bit of G0 and bit 31. -/
def Otp.factory : Cells Word :=
  (List.range 32).map (fun k => (0x51 + k, Otp.nominalTrim)) ++ [(0x71, 0xAFD85027), (0xD8, 0x80000001)]

def Otp.reset : Otp :=
  { aN := Otp.factory, aM := Otp.factory, bN := Otp.factory, bM := Otp.factory, latched := false, live := Live.failure,
    rawOff := false, lockInc := false, lock := 0, fail := 0, blank := 0, arm := false, cmd := none, result := 0, why := 0,
    rdata := 0, mask := 0, margAddr := 0, margBits := 0, pulses := .zero, g5Done := false, rereadAt := 0,
    rereadDue := false, armAt := none }
def EvStore.empty : EvStore := ⟨[], [], Vector.replicate 4 Ream.free⟩
def Nvp.reset : Nvp :=
  { store := [], image := none, shErr := [], buf := [], queue := [], rest := [], commit := none, stopped := false, save := none,
    patrol := false, why := 0, slot := 0, shadowOk := false, restored := false, cLast := 0, cWorst := 0,
    sRing := 0, sShadow := 0, ce := .zero, ue := .zero, twin := .zero, saveCnt := .zero,
    errAddr := 0, rd := 0, rdSyn := 0, e := Vector.replicate 4 (0, 0), seqSat := [], hourAt := 0, scrubAt := 0,
    restoreDue := true, imageDue := true, slotBytes := none, bbseq := 0 ,
    recDue := none, shScrub := [], big := none }
def Bbx.reset : Bbx :=
  { st := EvStore.empty, queue := [], seq := 0, slot := 0, oldest := [], ahead := [], sealWait := 0, rowUs := none, tokens := 512, refillAt := 0, supRun := 0,
    armed := true, pos := 0, rowTime := 0, post := none, holder := none, missRun := false, sup := .zero,
    sealMiss := .zero, authFail := .zero, clr := .zero, nonce := 0, nvalid := false, nonceAt := 0, token := 0, fails := 0,
    lock := none, result := 0, op := none, saveAgain := false }
def Rec1.zero : Rec1 := ⟨false, 0, 0, 0, 0, 0, 0, 0⟩
def Upd.reset : Upd :=
  { phase := 0, result := 0, reason := 0, step := 0, rec1 := Rec1.zero, prevDigest := 0, pkg := [], lastOff := none,
    man := none, decoded := 0, failing := 0, verified := 0, slots := 0, ending := false, flash := [], act := [], todo := [],
    trialUsed := 0, trialFrom := none, drillAsked := false, committing := false, restartDue := false, doneCnt := .zero,
    rbCnt := .zero, carry := [], carried := 0, taken := 0,
    ownWrite := false, drillMine := false, recon := false, stale := false }
def HRing.reset : HRing := ⟨0, 0, false, 0, 0, 0⟩
def Hst.reset : Hst :=
  { ring := Vector.replicate 8 HRing.reset, cmd := Vector.replicate 4 none, reserved := 0, fetched := 0,
    posted := [], up := false, d3hot := false, gen := 0, width := 0, ltssm := 0, evDrop := .zero, telDrop := .zero,
    trcDrop := .zero, cplDrop := .zero, cmdCnt := .zero, telLost := false, telTick := none }
def Evt.reset : Evt :=
  { sev := 0, src := 0, cnt := .zero, sumNow := (0, 0, 0), vcnt := Vector.replicate 64 .zero, vlast := Vector.replicate 64 none,
    vheld := Vector.replicate 64 false, pba := 0, msix := Vector.ofFn (fun i => if i.val % 4 = 3 then 1 else 0) }
def TwPort.reset : TwPort :=
  { xfer := none, wait_ := 0, tries := 0, stuck := false, retries := 0, dead := false,
    check := false, recAt := 0, result := 0, arb := .zero, atta := 0, att := Vector.replicate 32 0,
    trx := Vector.replicate 64 0, ptr := 0, enSeen := false, sent := [] }
def Regs.reset : Regs :=
  { act := [], shadowQ := [], held := [], sticky := [], staged := [], base := [], patched := [], stage := none,
    gatedSeen := [], calHist := [], timeHi := 0, nvpHi := Vector.replicate 4 0, bbxHi := 0, updHi := 0, fresh := [], freshAt := 0, wrote := [], wroteAt := 0 }
def Chans.reset : Chans := ⟨[], Vector.replicate 10 0, [], 0⟩
def Aon.reset : Aon :=
  { vaon := true, good := Vector.replicate 5 true, rstN := true, refOk := true, soloBall := false, unitBall := false,
    pf := false, transport := false, optBase := 0, optFrom := 0, optKept := false, pcyc := .zero, epoch := 0,
    peerEpoch := none, nSd := Vector.replicate 32 92979, nRs := Vector.replicate 32 95027, gate := Vector.replicate 32 0,
    gateSame := Vector.replicate 32 0, gateHot := Vector.replicate 32 0, sd := false, sdAt := 0, coolSince := none,
    sdCount := 0, sdSensor := 0, sdCnt := .zero, sdReport := false, tripSd := 0, tripSeq := 0, tripEvt := 0, tripNow := (0, 0),
    demoted := false, bcnLow := false, bcnLowAt := 0, pinLow := false, bcnFault := 0, bcnAttn := false, bcnCmd := 0,
    bcnStat := 0, bcnWord := 0, bcnEv := [], bcnSafe := none, liveAt := 0, fwDead := false, demoteReq := false,
    strobe := Vector.replicate 3 0, strobeLost := Vector.replicate 3 false, hb := 0, hbAt := 0, heldTime := 0,
    heldAt := none, takeCnt := .zero, demCnt := .zero, hbLvl := false, pfGood := false }
def Sys.reset : Sys :=
  { step := 0, inReset := true, cold := true, rstCause := 1, lone := false, restricted := false, cfgFail := false,
    recovery := false, bank := false, stFail := 0, role := .undecided, strapSolo := false, strapUnit := false, lock := false,
    mode := 0, prev := 0, pend := none, pendHost := false, huReq := none, svcReq := false, transportStep := 0,
    releaseAt := 0, bootUs := 0, warmCnt := .zero, wdtArmed := false, wdtAt := 0, wdtRun := 0, peerFrom := 0,
    peerRej := false, mgmtRestart := false, placed := false, peerHiSince := none, waitReq := none }

/-- The machine right after reset: every register at the value the spec gives, every other field as `INVENTORY.md` lists. -/
def State.reset : State :=
  { time := 0, pending := [], freeCtr := 0, tick := 0, tickAt := none, regs := Regs.reset, chans := Chans.reset,
    aon := Aon.reset, sys := Sys.reset, sns := Sns.reset, law := Law.reset, pwm := Pwm.reset, hbx := Hbx.reset,
    dkl := Dkl.reset, vat := Vat.reset, bat := Bat.reset, slt := Vector.replicate 32 Slt.reset,
    slot := Vector.replicate 32 SlotMod.reset, stage := Vector.replicate 24 StageMod.reset, red := Red.reset,
    arb := Arb.reset, seq := Seq.reset, thm := Thm.reset, otp := Otp.reset, nvp := Nvp.reset, bbx := Bbx.reset,
    upd := Upd.reset, hst := Hst.reset, evt := Evt.reset, twp := Vector.replicate 4 TwPort.reset }

end Sys2Proof.Machine
end

