-- ==== Sys2Proof/Machine/RegMap.lean ====
section
/-! DEFINITION. The register map (21_register_map R403, with the index and field tables of every chapter): one `RegId` per
register, its place in BAR0, its masks by access code (00_scope R4) and its reset word; and one name per RW, RWL, RWS and
W1C field. -/

namespace Sys2Proof.Machine

/-- The registers of BAR0. -/
inductive RegId where
  | SYS_ID | SYS_LOCK | SYS_STAT | SYS_MODE | SYS_RST | SYS_BOOT | SYS_WDT | SYS_WDT_KICK | SYS_STRAP
  | SYS_BOOT_US | SYS_WARMCNT | EVT_CTL | EVT_SUM | EVT_TRIPST | EVT_VEC | EVT_ROUTE | OTP_STAT | OTP_FLAG
  | OTP_CTL | OTP_CMD | OTP_ADDR | OTP_DATA | OTP_RDATA | OTP_MASK | OTP_CEIL | OTP_DTF | OTP_ROLE | OTP_SEC
  | OTP_THERMO | OTP_MARG_ADDR | OTP_MARG_BITS | OTP_PULSES | NVP_CTL | NVP_STAT | NVP_FLAG | NVP_CTIME
  | NVP_STIME | NVP_CECNT | NVP_UECNT | NVP_TWINCNT | NVP_SAVECNT | NVP_ERRADDR | NVP_RD_ADDR | NVP_RD_LO
  | NVP_RD_HI | NVP_RD_SYN | NVP_PCYC | NVP_E_LO | NVP_E_HI | SNS_STATUS | SNS_TIME_LO | SNS_TIME_HI | SNS_OVR
  | SNS_PH_SMP | SNS_PH_CMP | SNS_CH_GAIN | SNS_CH_TRIMOFF | SNS_CH_USEROFF | SNS_CH_FS | SNS_CH_VAL | SNS_CH_TS
  | SNS_CH_RAW | LAW_CTL | LAW_CFG | LAW_SRC | LAW_DST | LAW_LIM | LAW_REF | LAW_OUT | LAW_DLY | LAW_STAT
  | LAW_SKIP | LAW_TRK | LAW_STATE | LAW_COMMIT | SCH_CTL | SCH_VAR | SCH_XF | SCH_FE_CFG | SCH_FE_TIM | SCH_STAT
  | SCH_VAL | SCH_FE_STAT | SCH_FE_FIRES | SCH_CNT | SCH_BND0 | SCH_BND1 | SCH_BND2 | SCH_BND3 | SCH_BND4
  | SCH_BND5 | SCH_BND6 | PWM_PH_CFG | PWM_PH_DT | PWM_PH_STAT | PWM_PH_CBC | PWM_PH_OFS | PWM_PH_TRIM
  | PWM_SYNC_CFG | PWM_SYNC_NOM | PWM_SYNC_STAT | PWM_SYNC_PER | PWM_TRACK | PWM_CTL | RAIL_CTL | RAIL_CFG
  | RAIL_PER | RAIL_SYNC | RAIL_VREF | RAIL_SS | RAIL_SSFE | RAIL_TRK | RAIL_TRKMV | RAIL_SHED | RAIL_DWELL
  | RAIL_ILIM | RAIL_PHF | RAIL_SNSF | RAIL_SUMTOL | RAIL_BAL | RAIL_STAT | RAIL_CAP | RAIL_IR | RAIL_HIC
  | HBX_CTL | HBX_STAT | HBX_COMMIT | HBX_PERIOD | HBX_RANGE | HBX_DFS | HBX_DERATE | HBX_FCAP | HBX_VNOM
  | HBX_FCFS | HBX_GBASE | HBX_DEMAND | HBX_GCAP | HBX_GRID | HBX_DEFICIT | HBX_SURPLUS | HBX_LAMBDA
  | HBX_LAMBDA_G | HBX_LAMBDA_N | HBX_TIME | HBX_CAPCNT | HBX_DEFCNT | HBX_LATECNT | HBX_SRC_CFG | HBX_SRC_MIN
  | HBX_SRC_MAX | HBX_SRC_X0 | HBX_SRC_RAMP | HBX_SRC_ALLOC | HBX_SRC_LO | HBX_SRC_HI | HBX_SRC_MEAS
  | HBX_SRC_STAT | DKL_CTL | DKL_STAT | DKL_MARGIN | DKL_SETTLE | DKL_REL | DKL_SHED | DKL_FPFS | DKL_FEFF
  | DKL_EXCESS | DKL_RESID | DKL_CUTCNT | DKL_PG | DKL_LD_CFG | DKL_LD_FLOOR | DKL_LD_CAP | DKL_LD_CODE
  | DKL_LD_MEAS | VAT_CFG | VAT_C | VAT_VMIN | VAT_VMAX | VAT_TAPER | VAT_IDIS | VAT_ICHG | VAT_ADD | VAT_EFF
  | VAT_PFLOOR | VAT_TWARN | VAT_HU | VAT_WALK | VAT_V | VAT_ENERGY | VAT_FILL | VAT_ADDER | VAT_LIM_HI
  | VAT_LIM_LO | VAT_PF | VAT_TBR | VAT_TVAT | VAT_STAT | VAT_HUCNT | VAT_GWALK | VAT_CTL | BAT_CTL | BAT_CFG
  | BAT_CAPNOM | BAT_NTC_R25 | BAT_NTC | BAT_VEOD | BAT_VEOC | BAT_VBAND | BAT_IDIS | BAT_ICHG | BAT_IFLOAT
  | BAT_TLIM | BAT_EFF | BAT_QP | BAT_PINIT | BAT_RV | BAT_ANC | BAT_LRN | BAT_IDCHK | BAT_CAPLIM | BAT_STAT
  | BAT_SOC | BAT_P | BAT_V | BAT_I | BAT_T | BAT_VCOMP | BAT_UD | BAT_Z | BAT_FCC | BAT_CYC | BAT_EREM
  | BAT_LIMDIS | BAT_LIMCHG | BAT_DEF | BAT_UNANCH | BAT_LRNCNT | BAT_LRNREJ | BAT_RS | SLT_CTL | SLT_CFG
  | SLT_STAT | SLT_DECL | SLT_FS | SLT_US | SLT_I | SLT_V | SLT_T | SLT_SP | SLT_TX | SLT_CAPC | SLT_RXTS
  | SLT_RTT | SLT_CRCERR | SLT_CVERR | SLT_LOSSCNT | SLT_GAPCNT | SLT_MBRTX | RED_CTL | RED_STAT | RED_CLAIM
  | RED_HB | RED_HB_LIVE | RED_SBY | RED_XCHK | RED_ATOL | RED_DRILL | RED_TOFS | RED_SNAPCNT | RED_SNAPERR
  | RED_XMIS | RED_TAKECNT | RED_DEMCNT | RED_XMASK0 | RED_XMASK1 | RED_ARB | RED_ARB_STAT | RED_VERDCNT | SEQ_CTL
  | SEQ_CFG | SEQ_STAT | SEQ_RSDLY | SEQ_HUSTOP | SEQ_TRIPMAP | SEQ_OFFT | SEQ_FAILCNT | SEQ_RSCNT | SEQ_UPMASK
  | SEQ_FAILMASK | SEQ_N_CFG | SEQ_N_UP | SEQ_N_DN | SEQ_N_OFF | SEQ_N_TIM | SEQ_N_DLY | SEQ_N_FALL | SEQ_N_STAT
  | SEQ_N_DEP0 | SEQ_N_DEP1 | SEQ_N_DEP2 | THM_CTL | THM_STAT | THM_SD | THM_SD_LOG | THM_SDMAP | THM_SDCNT
  | THM_MAX | THM_S_CFG | THM_S_LVL | THM_S_ROC | THM_S_T | THM_S_STAT | THM_S_RAW | THM_S_RISE | THM_S_DIO
  | BBX_CTL | BBX_CFG | BBX_STAT | BBX_PAGE | BBX_NEXT_LO | BBX_NEXT_HI | BBX_LIVE | BBX_OP | BBX_AUTH | BBX_NONCE
  | BBX_TOKEN | BBX_REAM | BBX_REAM_SEQ | BBX_REAM_PTR | BBX_TRC_SEL | BBX_SUPCNT | BBX_SEALMISS | BBX_AUTHFAIL
  | BBX_CLRCNT | BBX_SEVMAP | UPD_CTL | UPD_STAT | UPD_CMD | UPD_FLOOR | UPD_TRIAL | UPD_CHUNK | UPD_EPOCH_LO
  | UPD_EPOCH_HI | UPD_PART | UPD_SLOTS | UPD_DONECNT | UPD_RBCNT | UPD_BUF | HST_LINK | HST_CTL | HST_WB_LO
  | HST_WB_HI | HST_TEL | HST_TRC | HST_TEL_SEL | HST_RING_BLO | HST_RING_BHI | HST_RING_CFG | HST_RING_IDX
  | HST_RING_STAT | HST_EVDROP | HST_TELDROP | HST_TRCDROP | HST_CPLDROP | HST_CMDCNT | TWP_CFG | TWP_CTL
  | TWP_TIM | TWP_XFER | TWP_STAT | TWP_ARBCNT | TWP_ATTA | TWP_DATA | TWP_ATT | TWP_TTX | TWP_TRX | TWP_BCN
  | TWP_BCN_STAT
deriving DecidableEq, Repr

/-- When a host write to a register's RWL (and RW) fields takes effect: at the tick boundary (R23), only the RWL fields
there, at a headbox commit (R112), or at the write. -/
inductive Shadow where
  | all | rwl | staged | none
deriving DecidableEq, Repr

/-- One register: its offset in BAR0, instances and stride (R403), words per instance, the masks of its RW, RWL, RWS, W1C
and action (WO, W1S) bits, its reset word, how it is shadowed, the island that serves it (Table SHF.6, R441). -/
structure RegDesc where
  id : RegId
  base : Nat
  stride : Nat
  count : Nat
  sub : Nat
  rw : Nat
  rwl : Nat
  rws : Nat
  w1c : Nat
  act : Nat
  rst : Nat
  shadow : Shadow
  island : Island
deriving DecidableEq, Repr

/-- A field: the BAR0 offset of its word, its lowest bit, its width, the reset word of the register. -/
structure Fld where
  off : Nat
  lo : Nat
  width : Nat
  rst : Nat
deriving DecidableEq, Repr

/-- Reset of LAW_SRC: the wiring of 03_law R46 (engines 2n and 2n+1 of rail n, 16 bus voltage, 17 feeder power). -/
def lawSrcRst (e : Nat) : Nat := 
  if e < 16 then
    if e % 2 = 0 then 0x40000000 + (e + 1) * 0x1000000 + 0x100 + e / 2 else 24 + e / 2
  else if e = 16 then 32 else if e = 17 then 0x200 else 0

/-- Reset of LAW_DST (03_law R46). -/
def lawDstRst (e : Nat) : Nat := 
  if e < 16 then if e % 2 = 0 then 0x10 + e / 2 else 0
  else if e = 16 then 0x20 else if e = 17 then 0x30 else 0

/-- Registers of SYS (Table SYS.9). -/
def mapSys : List RegDesc :=
  [ ⟨.SYS_ID, 0x0, 0x0, 1, 1, 0x0, 0x0, 0x0, 0x0, 0x0, 0x0, .none, .mgt⟩,
    ⟨.SYS_LOCK, 0x4, 0x0, 1, 1, 0x0, 0x0, 0x0, 0x0, 0x1, 0x0, .none, .mgt⟩,
    ⟨.SYS_STAT, 0x8, 0x0, 1, 1, 0x0, 0x0, 0x0, 0x0, 0x0, 0x0, .none, .mgt⟩,
    ⟨.SYS_MODE, 0xC, 0x0, 1, 1, 0x0, 0x0, 0x0, 0x0, 0xF, 0x0, .none, .mgt⟩,
    ⟨.SYS_RST, 0x10, 0x0, 1, 1, 0x0, 0x0, 0x0, 0x0, 0xFFFF0003, 0x0, .none, .mgt⟩,
    ⟨.SYS_BOOT, 0x14, 0x0, 1, 1, 0x0, 0xFFFF, 0x0, 0x0, 0x0, 0x28, .none, .mgt⟩,
    ⟨.SYS_WDT, 0x18, 0x0, 1, 1, 0x0, 0xFFFF, 0x0, 0x0, 0x0, 0x3E8, .none, .mgt⟩,
    ⟨.SYS_WDT_KICK, 0x1C, 0x0, 1, 1, 0x0, 0x0, 0x0, 0x0, 0xFFFFFFFF, 0x0, .none, .mgt⟩,
    ⟨.SYS_STRAP, 0x20, 0x0, 1, 1, 0x0, 0x0, 0x0, 0x0, 0x0, 0x0, .none, .mgt⟩,
    ⟨.SYS_BOOT_US, 0x24, 0x0, 1, 1, 0x0, 0x0, 0x0, 0x0, 0x0, 0x0, .none, .mgt⟩,
    ⟨.SYS_WARMCNT, 0x28, 0x0, 1, 1, 0x0, 0x0, 0x0, 0x0, 0x0, 0x0, .none, .mgt⟩ ]

/-- Registers of EVT (Table EVT.1). -/
def mapEvt : List RegDesc :=
  [ ⟨.EVT_CTL, 0x1000, 0x0, 1, 1, 0x0, 0x0, 0x0, 0x0, 0x3, 0x0, .none, .mgt⟩,
    ⟨.EVT_SUM, 0x1004, 0x0, 1, 1, 0x0, 0x0, 0x0, 0x0, 0x0, 0x0, .none, .mgt⟩,
    ⟨.EVT_TRIPST, 0x1008, 0x0, 1, 1, 0x0, 0x0, 0x0, 0x0, 0x0, 0x0, .none, .mgt⟩,
    ⟨.EVT_VEC, 0x1100, 0x4, 64, 1, 0x0, 0xFFFF, 0x0, 0x0, 0x0, 0x0, .rwl, .mgt⟩,
    ⟨.EVT_ROUTE, 0x1400, 0x4, 256, 1, 0x0, 0xE0FF003F, 0x0, 0x0, 0x0, 0xA0000000, .rwl, .mgt⟩ ]

/-- Registers of OTP (Table OTP.6). -/
def mapOtp : List RegDesc :=
  [ ⟨.OTP_STAT, 0x2000, 0x0, 1, 1, 0x0, 0x0, 0x0, 0x0, 0x0, 0x0, .none, .aon⟩,
    ⟨.OTP_FLAG, 0x2004, 0x0, 1, 1, 0x0, 0x0, 0x0, 0x7F, 0x0, 0x0, .none, .aon⟩,
    ⟨.OTP_CTL, 0x2008, 0x0, 1, 1, 0x0, 0x0, 0x0, 0x0, 0x1, 0x0, .none, .aon⟩,
    ⟨.OTP_CMD, 0x200C, 0x0, 1, 1, 0x70, 0x0, 0x0, 0x0, 0x7, 0x0, .none, .aon⟩,
    ⟨.OTP_ADDR, 0x2010, 0x0, 1, 1, 0xFF, 0x0, 0x0, 0x0, 0x0, 0x0, .none, .aon⟩,
    ⟨.OTP_DATA, 0x2014, 0x0, 1, 1, 0xFFFFFFFF, 0x0, 0x0, 0x0, 0x0, 0x0, .none, .aon⟩,
    ⟨.OTP_RDATA, 0x2018, 0x0, 1, 1, 0x0, 0x0, 0x0, 0x0, 0x0, 0x0, .none, .aon⟩,
    ⟨.OTP_MASK, 0x201C, 0x0, 1, 1, 0x0, 0x0, 0x0, 0x0, 0x0, 0x0, .none, .aon⟩,
    ⟨.OTP_CEIL, 0x2020, 0x0, 1, 1, 0x0, 0x0, 0x0, 0x0, 0x0, 0x0, .none, .aon⟩,
    ⟨.OTP_DTF, 0x2024, 0x0, 1, 1, 0x0, 0x0, 0x0, 0x0, 0x0, 0x0, .none, .aon⟩,
    ⟨.OTP_ROLE, 0x2028, 0x0, 1, 1, 0x0, 0x0, 0x0, 0x0, 0x0, 0x0, .none, .aon⟩,
    ⟨.OTP_SEC, 0x202C, 0x0, 1, 1, 0x0, 0x0, 0x0, 0x0, 0x0, 0x0, .none, .aon⟩,
    ⟨.OTP_THERMO, 0x2030, 0x0, 1, 1, 0x0, 0x0, 0x0, 0x0, 0x0, 0x0, .none, .aon⟩,
    ⟨.OTP_MARG_ADDR, 0x2034, 0x0, 1, 1, 0x0, 0x0, 0x0, 0x0, 0x0, 0x0, .none, .aon⟩,
    ⟨.OTP_MARG_BITS, 0x2038, 0x0, 1, 1, 0x0, 0x0, 0x0, 0x0, 0x0, 0x0, .none, .aon⟩,
    ⟨.OTP_PULSES, 0x203C, 0x0, 1, 1, 0x0, 0x0, 0x0, 0x0, 0x0, 0x0, .none, .aon⟩ ]

/-- Registers of NVP (Table NVP.7). -/
def mapNvp : List RegDesc :=
  [ ⟨.NVP_CTL, 0x3000, 0x0, 1, 1, 0x0, 0x0, 0x0, 0x0, 0xE, 0x0, .none, .recI⟩,
    ⟨.NVP_STAT, 0x3004, 0x0, 1, 1, 0x0, 0x0, 0x0, 0x0, 0x0, 0x0, .none, .recI⟩,
    ⟨.NVP_FLAG, 0x3008, 0x0, 1, 1, 0x0, 0x0, 0x0, 0xFF, 0x0, 0x0, .none, .recI⟩,
    ⟨.NVP_CTIME, 0x300C, 0x0, 1, 1, 0x0, 0x0, 0x0, 0x0, 0x0, 0x0, .none, .recI⟩,
    ⟨.NVP_STIME, 0x3010, 0x0, 1, 1, 0x0, 0x0, 0x0, 0x0, 0x0, 0x0, .none, .recI⟩,
    ⟨.NVP_CECNT, 0x3014, 0x0, 1, 1, 0x0, 0x0, 0x0, 0x0, 0x0, 0x0, .none, .recI⟩,
    ⟨.NVP_UECNT, 0x3018, 0x0, 1, 1, 0x0, 0x0, 0x0, 0x0, 0x0, 0x0, .none, .recI⟩,
    ⟨.NVP_TWINCNT, 0x301C, 0x0, 1, 1, 0x0, 0x0, 0x0, 0x0, 0x0, 0x0, .none, .recI⟩,
    ⟨.NVP_SAVECNT, 0x3020, 0x0, 1, 1, 0x0, 0x0, 0x0, 0x0, 0x0, 0x0, .none, .recI⟩,
    ⟨.NVP_ERRADDR, 0x3024, 0x0, 1, 1, 0x0, 0x0, 0x0, 0x0, 0x0, 0x0, .none, .recI⟩,
    ⟨.NVP_RD_ADDR, 0x3028, 0x0, 1, 1, 0x800FFFF8, 0x0, 0x0, 0x0, 0x0, 0x0, .none, .recI⟩,
    ⟨.NVP_RD_LO, 0x302C, 0x0, 1, 1, 0x0, 0x0, 0x0, 0x0, 0x0, 0x0, .none, .recI⟩,
    ⟨.NVP_RD_HI, 0x3030, 0x0, 1, 1, 0x0, 0x0, 0x0, 0x0, 0x0, 0x0, .none, .recI⟩,
    ⟨.NVP_RD_SYN, 0x3034, 0x0, 1, 1, 0x0, 0x0, 0x0, 0x0, 0x0, 0x0, .none, .recI⟩,
    ⟨.NVP_PCYC, 0x3040, 0x0, 1, 1, 0x0, 0x0, 0x0, 0x0, 0x0, 0x0, .none, .recI⟩,
    ⟨.NVP_E_LO, 0x3060, 0x8, 4, 1, 0x0, 0x0, 0x0, 0x0, 0x0, 0x0, .none, .recI⟩,
    ⟨.NVP_E_HI, 0x3064, 0x8, 4, 1, 0x0, 0x0, 0x0, 0x0, 0x0, 0x0, .none, .recI⟩ ]

/-- Registers of SNS (Table SNS.3). Every channel's registers are served by CTL, those of the scan and string channels too, whose
converters are of SUP and BAT (01_shelf Table SHF.6; DESIGN CHOICE, log 70). -/
def mapSns : List RegDesc :=
  [ ⟨.SNS_STATUS, 0x4004, 0x0, 1, 1, 0x0, 0x0, 0x0, 0x0, 0x0, 0x0, .none, .ctl⟩,
    ⟨.SNS_TIME_LO, 0x4008, 0x0, 1, 1, 0x0, 0x0, 0x0, 0x0, 0x0, 0x0, .none, .ctl⟩,
    ⟨.SNS_TIME_HI, 0x400C, 0x0, 1, 1, 0x0, 0x0, 0x0, 0x0, 0x0, 0x0, .none, .ctl⟩,
    ⟨.SNS_OVR, 0x4010, 0x4, 5, 1, 0x0, 0x0, 0x0, 0xFFFFFFFF, 0x0, 0x0, .none, .ctl⟩,
    ⟨.SNS_PH_SMP, 0x4400, 0x10, 24, 1, 0x0, 0xFF03, 0x0, 0x0, 0x0, 0x1E00, .rwl, .ctl⟩,
    ⟨.SNS_PH_CMP, 0x4404, 0x10, 24, 1, 0x0, 0xFFFF03FF, 0x0, 0x0, 0x0, 0x23FF03FF, .rwl, .ctl⟩,
    ⟨.SNS_CH_GAIN, 0x5000, 0x20, 130, 1, 0x0, 0xFFFF, 0x0, 0x0, 0x0, 0x4000, .rwl, .ctl⟩,
    ⟨.SNS_CH_TRIMOFF, 0x5004, 0x20, 130, 1, 0x0, 0x0, 0x0, 0x0, 0x0, 0x0, .none, .ctl⟩,
    ⟨.SNS_CH_USEROFF, 0x5008, 0x20, 130, 1, 0x0, 0x80FFFFFF, 0x0, 0x0, 0x0, 0x0, .rwl, .ctl⟩,
    ⟨.SNS_CH_FS, 0x500C, 0x20, 130, 1, 0x0, 0xFFFFFFFF, 0x0, 0x0, 0x0, 0x0, .rwl, .ctl⟩,
    ⟨.SNS_CH_VAL, 0x5010, 0x20, 130, 1, 0x0, 0x0, 0x0, 0x0, 0x0, 0x0, .none, .ctl⟩,
    ⟨.SNS_CH_TS, 0x5014, 0x20, 130, 1, 0x0, 0x0, 0x0, 0x0, 0x0, 0x0, .none, .ctl⟩,
    ⟨.SNS_CH_RAW, 0x5018, 0x20, 130, 1, 0x0, 0x0, 0x0, 0x0, 0x0, 0x0, .none, .ctl⟩ ]

/-- Registers of LAW (Table LAW.5). -/
def mapLaw : List RegDesc :=
  [ ⟨.LAW_CTL, 0x8000, 0x200, 20, 1, 0x0, 0x1, 0x0, 0x0, 0xC0, 0x0, .rwl, .ctl⟩,
    ⟨.LAW_CFG, 0x8004, 0x200, 20, 1, 0x0, 0xFC07FFFF, 0x0, 0x0, 0x0, 0x103E8, .rwl, .ctl⟩,
    ⟨.LAW_SRC, 0x8008, 0x200, 20, 1, 0x0, 0xDF0003FF, 0x0, 0x0, 0x0, 0x0, .rwl, .ctl⟩,
    ⟨.LAW_DST, 0x800C, 0x200, 20, 1, 0x0, 0x37, 0x0, 0x0, 0x0, 0x0, .rwl, .ctl⟩,
    ⟨.LAW_LIM, 0x8010, 0x200, 20, 1, 0x0, 0xFFFFFFFF, 0x0, 0x0, 0x0, 0x7FFF8000, .rwl, .ctl⟩,
    ⟨.LAW_REF, 0x8014, 0x200, 20, 1, 0xFFFF, 0x0, 0x0, 0x0, 0x0, 0x0, .all, .ctl⟩,
    ⟨.LAW_OUT, 0x8020, 0x200, 20, 1, 0x0, 0x0, 0x0, 0x0, 0x0, 0x0, .none, .ctl⟩,
    ⟨.LAW_DLY, 0x8024, 0x200, 20, 1, 0x0, 0x0, 0x0, 0x0, 0x0, 0x0, .none, .ctl⟩,
    ⟨.LAW_STAT, 0x8028, 0x200, 20, 1, 0x0, 0x0, 0x0, 0x1FC, 0x0, 0x0, .none, .ctl⟩,
    ⟨.LAW_SKIP, 0x802C, 0x200, 20, 1, 0x0, 0x0, 0x0, 0x0, 0x0, 0x0, .none, .ctl⟩,
    ⟨.LAW_TRK, 0x8030, 0x200, 20, 1, 0x0, 0xFFFF, 0x0, 0x0, 0x0, 0x100, .rwl, .ctl⟩,
    ⟨.LAW_STATE, 0x8040, 0x200, 20, 32, 0x0, 0x0, 0x0, 0x0, 0x0, 0x0, .none, .ctl⟩,
    ⟨.LAW_COMMIT, 0xA800, 0x0, 1, 1, 0x0, 0x0, 0x0, 0xC0000000, 0xFFFFF, 0x0, .none, .ctl⟩ ]

/-- Registers of SCH (Table SCH.4). -/
def mapSch : List RegDesc :=
  [ ⟨.SCH_CTL, 0xC000, 0x80, 20, 1, 0x0, 0xFF1, 0x0, 0x0, 0x1000, 0x0, .rwl, .ctl⟩,
    ⟨.SCH_VAR, 0xC004, 0x80, 20, 1, 0x0, 0x73F07, 0x0, 0x0, 0x0, 0x0, .rwl, .ctl⟩,
    ⟨.SCH_XF, 0xC008, 0x80, 20, 1, 0x0, 0x3F, 0x0, 0x0, 0x0, 0x7, .rwl, .ctl⟩,
    ⟨.SCH_FE_CFG, 0xC00C, 0x80, 20, 1, 0x0, 0x7FFFF, 0x0, 0x0, 0x0, 0x17FFF, .rwl, .ctl⟩,
    ⟨.SCH_FE_TIM, 0xC010, 0x80, 20, 1, 0x0, 0xFFFFFF, 0x0, 0x0, 0x0, 0x100000, .rwl, .ctl⟩,
    ⟨.SCH_STAT, 0xC014, 0x80, 20, 1, 0x0, 0x0, 0x0, 0x0, 0x0, 0x0, .none, .ctl⟩,
    ⟨.SCH_VAL, 0xC018, 0x80, 20, 1, 0x0, 0x0, 0x0, 0x0, 0x0, 0x0, .none, .ctl⟩,
    ⟨.SCH_FE_STAT, 0xC01C, 0x80, 20, 1, 0x0, 0x0, 0x0, 0x80000000, 0x0, 0x0, .none, .ctl⟩,
    ⟨.SCH_FE_FIRES, 0xC020, 0x80, 20, 1, 0x0, 0x0, 0x0, 0x0, 0x0, 0x0, .none, .ctl⟩,
    ⟨.SCH_CNT, 0xC024, 0x80, 20, 1, 0x0, 0x0, 0x0, 0x0, 0x0, 0x0, .none, .ctl⟩,
    ⟨.SCH_BND0, 0xC040, 0x80, 20, 1, 0x0, 0xFFFFFFFF, 0x0, 0x0, 0x0, 0x0, .rwl, .ctl⟩,
    ⟨.SCH_BND1, 0xC044, 0x80, 20, 1, 0x0, 0xFFFFFFFF, 0x0, 0x0, 0x0, 0x0, .rwl, .ctl⟩,
    ⟨.SCH_BND2, 0xC048, 0x80, 20, 1, 0x0, 0xFFFFFFFF, 0x0, 0x0, 0x0, 0x0, .rwl, .ctl⟩,
    ⟨.SCH_BND3, 0xC04C, 0x80, 20, 1, 0x0, 0xFFFFFFFF, 0x0, 0x0, 0x0, 0x0, .rwl, .ctl⟩,
    ⟨.SCH_BND4, 0xC050, 0x80, 20, 1, 0x0, 0xFFFFFFFF, 0x0, 0x0, 0x0, 0x0, .rwl, .ctl⟩,
    ⟨.SCH_BND5, 0xC054, 0x80, 20, 1, 0x0, 0xFFFFFFFF, 0x0, 0x0, 0x0, 0x0, .rwl, .ctl⟩,
    ⟨.SCH_BND6, 0xC058, 0x80, 20, 1, 0x0, 0xFFFFFFFF, 0x0, 0x0, 0x0, 0x0, .rwl, .ctl⟩ ]

/-- Registers of PWM (Table PWM.1). -/
def mapPwm : List RegDesc :=
  [ ⟨.PWM_PH_CFG, 0x10000, 0x100, 24, 1, 0x0, 0x80000007, 0x0, 0x0, 0x0, 0x0, .rwl, .ctl⟩,
    ⟨.PWM_PH_DT, 0x10004, 0x100, 24, 1, 0x0, 0xFFF0FFF, 0x0, 0x0, 0x0, 0x1400140, .rwl, .ctl⟩,
    ⟨.PWM_PH_STAT, 0x10008, 0x100, 24, 1, 0x0, 0x0, 0x0, 0xF, 0x0, 0x0, .none, .ctl⟩,
    ⟨.PWM_PH_CBC, 0x1000C, 0x100, 24, 1, 0x0, 0x0, 0x0, 0x0, 0x0, 0x0, .none, .ctl⟩,
    ⟨.PWM_PH_OFS, 0x10010, 0x100, 24, 1, 0x0, 0x0, 0x0, 0x0, 0x0, 0x0, .none, .ctl⟩,
    ⟨.PWM_PH_TRIM, 0x10014, 0x100, 24, 1, 0x0, 0x0, 0x0, 0x0, 0x0, 0x0, .none, .ctl⟩,
    ⟨.PWM_SYNC_CFG, 0x11800, 0x0, 1, 1, 0x0, 0xF8001F3F, 0x0, 0x0, 0x0, 0x50A, .rwl, .ctl⟩,
    ⟨.PWM_SYNC_NOM, 0x11804, 0x0, 1, 1, 0x0, 0x1FFFFF, 0x0, 0x0, 0x0, 0x1F400, .rwl, .ctl⟩,
    ⟨.PWM_SYNC_STAT, 0x11808, 0x0, 1, 1, 0x0, 0x0, 0x0, 0x3, 0x0, 0x0, .none, .ctl⟩,
    ⟨.PWM_SYNC_PER, 0x1180C, 0x0, 1, 1, 0x0, 0x0, 0x0, 0x0, 0x0, 0x0, .none, .ctl⟩,
    ⟨.PWM_TRACK, 0x11810, 0x0, 1, 1, 0x0, 0x0, 0x0, 0x0, 0x0, 0x0, .none, .ctl⟩,
    ⟨.PWM_CTL, 0x11814, 0x0, 1, 1, 0x0, 0x0, 0x0, 0x0, 0x1, 0x0, .none, .ctl⟩ ]

/-- Registers of RAIL (Table RAIL.9). -/
def mapRail : List RegDesc :=
  [ ⟨.RAIL_CTL, 0x12000, 0x200, 8, 1, 0x3, 0x0, 0x0, 0x0, 0x4, 0x1, .none, .ctl⟩,
    ⟨.RAIL_CFG, 0x12004, 0x200, 8, 1, 0x0, 0xFFFF0000, 0x0, 0x0, 0x0, 0x10A0000, .rwl, .ctl⟩,
    ⟨.RAIL_PER, 0x12008, 0x200, 8, 1, 0x0, 0x1FFFFF, 0x0, 0x0, 0x0, 0x1F400, .rwl, .ctl⟩,
    ⟨.RAIL_SYNC, 0x1200C, 0x200, 8, 1, 0x0, 0x8F0FFFFF, 0x0, 0x0, 0x0, 0x0, .rwl, .ctl⟩,
    ⟨.RAIL_VREF, 0x12010, 0x200, 8, 1, 0xFFFF, 0x0, 0x0, 0x0, 0x0, 0x0, .all, .ctl⟩,
    ⟨.RAIL_SS, 0x12014, 0x200, 8, 1, 0x0, 0x700FFFFF, 0x0, 0x0, 0x0, 0x400003E8, .rwl, .ctl⟩,
    ⟨.RAIL_SSFE, 0x12018, 0x200, 8, 1, 0x0, 0xFFFFFFFF, 0x0, 0x0, 0x0, 0xC80400, .rwl, .ctl⟩,
    ⟨.RAIL_TRK, 0x1201C, 0x200, 8, 1, 0x0, 0xE700FFFF, 0x0, 0x0, 0x0, 0x4000, .rwl, .ctl⟩,
    ⟨.RAIL_TRKMV, 0x12020, 0x200, 8, 1, 0x0, 0xFFFFFFFF, 0x0, 0x0, 0x0, 0x0, .rwl, .ctl⟩,
    ⟨.RAIL_SHED, 0x12024, 0x200, 8, 1, 0x0, 0xFFFFFFFF, 0x0, 0x0, 0x0, 0x7FFF0000, .rwl, .ctl⟩,
    ⟨.RAIL_DWELL, 0x12028, 0x200, 8, 1, 0x0, 0xFFFFFFFF, 0x0, 0x0, 0x0, 0x3E80144, .rwl, .ctl⟩,
    ⟨.RAIL_ILIM, 0x1202C, 0x200, 8, 1, 0x0, 0xFFFFFFFF, 0x0, 0x0, 0x0, 0x40007FFF, .rwl, .ctl⟩,
    ⟨.RAIL_PHF, 0x12030, 0x200, 8, 1, 0x0, 0xFFFFFFFF, 0x0, 0x0, 0x0, 0x647FFF, .rwl, .ctl⟩,
    ⟨.RAIL_SNSF, 0x12034, 0x200, 8, 1, 0x0, 0xFFFFF000, 0x0, 0x0, 0x0, 0x40004000, .rwl, .ctl⟩,
    ⟨.RAIL_SUMTOL, 0x12038, 0x200, 8, 1, 0x0, 0xFFFFFFFF, 0x0, 0x0, 0x0, 0x7D0, .rwl, .ctl⟩,
    ⟨.RAIL_BAL, 0x1203C, 0x200, 8, 1, 0x0, 0x8F00FFFF, 0x0, 0x0, 0x0, 0x6000400, .rwl, .ctl⟩,
    ⟨.RAIL_STAT, 0x12040, 0x200, 8, 1, 0x0, 0x0, 0x0, 0x7, 0x0, 0x0, .none, .ctl⟩,
    ⟨.RAIL_CAP, 0x12044, 0x200, 8, 1, 0x0, 0x0, 0x0, 0x0, 0x0, 0x0, .none, .ctl⟩,
    ⟨.RAIL_IR, 0x12048, 0x200, 8, 1, 0x0, 0x0, 0x0, 0x0, 0x0, 0x0, .none, .ctl⟩,
    ⟨.RAIL_HIC, 0x1204C, 0x200, 8, 1, 0x0, 0x0, 0x0, 0x0, 0x0, 0x0, .none, .ctl⟩ ]

/-- Registers of HBX (Table HBX.8). -/
def mapHbx : List RegDesc :=
  [ ⟨.HBX_CTL, 0x14000, 0x0, 1, 1, 0x20, 0x11, 0x0, 0x0, 0xC0, 0x0, .rwl, .dsp⟩,
    ⟨.HBX_STAT, 0x14004, 0x0, 1, 1, 0x0, 0x0, 0x0, 0x1F, 0x0, 0x0, .none, .dsp⟩,
    ⟨.HBX_COMMIT, 0x14008, 0x0, 1, 1, 0x0, 0x0, 0x0, 0xC0000000, 0x1, 0x0, .none, .dsp⟩,
    ⟨.HBX_PERIOD, 0x14010, 0x0, 1, 1, 0x0, 0xF, 0x0, 0x0, 0x0, 0x1, .rwl, .dsp⟩,
    ⟨.HBX_RANGE, 0x14014, 0x0, 1, 1, 0x0, 0xF, 0x0, 0x0, 0x0, 0x0, .staged, .dsp⟩,
    ⟨.HBX_DFS, 0x14018, 0x0, 1, 1, 0x0, 0xFFFFFFFF, 0x0, 0x0, 0x0, 0x0, .rwl, .dsp⟩,
    ⟨.HBX_DERATE, 0x1401C, 0x0, 1, 1, 0x0, 0xFFFF, 0x0, 0x0, 0x0, 0x6000, .rwl, .dsp⟩,
    ⟨.HBX_FCAP, 0x14020, 0x0, 1, 1, 0x0, 0xFFFFFFFF, 0x0, 0x0, 0x0, 0x0, .rwl, .dsp⟩,
    ⟨.HBX_VNOM, 0x14024, 0x0, 1, 1, 0x0, 0xFFFFFFFF, 0x0, 0x0, 0x0, 0x0, .rwl, .dsp⟩,
    ⟨.HBX_FCFS, 0x14028, 0x0, 1, 1, 0x0, 0xFFFFFFFF, 0x0, 0x0, 0x0, 0x0, .rwl, .dsp⟩,
    ⟨.HBX_GBASE, 0x1402C, 0x0, 1, 1, 0x0, 0x0, 0x0, 0x0, 0x0, 0x0, .none, .dsp⟩,
    ⟨.HBX_DEMAND, 0x14040, 0x0, 1, 1, 0x0, 0x0, 0x0, 0x0, 0x0, 0x0, .none, .dsp⟩,
    ⟨.HBX_GCAP, 0x14044, 0x0, 1, 1, 0x0, 0x0, 0x0, 0x0, 0x0, 0x0, .none, .dsp⟩,
    ⟨.HBX_GRID, 0x14048, 0x0, 1, 1, 0x0, 0x0, 0x0, 0x0, 0x0, 0x0, .none, .dsp⟩,
    ⟨.HBX_DEFICIT, 0x1404C, 0x0, 1, 1, 0x0, 0x0, 0x0, 0x0, 0x0, 0x0, .none, .dsp⟩,
    ⟨.HBX_SURPLUS, 0x14050, 0x0, 1, 1, 0x0, 0x0, 0x0, 0x0, 0x0, 0x0, .none, .dsp⟩,
    ⟨.HBX_LAMBDA, 0x14058, 0x0, 1, 1, 0x0, 0x0, 0x0, 0x0, 0x0, 0x0, .none, .dsp⟩,
    ⟨.HBX_LAMBDA_G, 0x1405C, 0x0, 1, 1, 0x0, 0x0, 0x0, 0x0, 0x0, 0x0, .none, .dsp⟩,
    ⟨.HBX_LAMBDA_N, 0x14060, 0x0, 1, 1, 0x0, 0x0, 0x0, 0x0, 0x0, 0x0, .none, .dsp⟩,
    ⟨.HBX_TIME, 0x14070, 0x0, 1, 1, 0x0, 0x0, 0x0, 0x0, 0x0, 0x0, .none, .dsp⟩,
    ⟨.HBX_CAPCNT, 0x14074, 0x0, 1, 1, 0x0, 0x0, 0x0, 0x0, 0x0, 0x0, .none, .dsp⟩,
    ⟨.HBX_DEFCNT, 0x14078, 0x0, 1, 1, 0x0, 0x0, 0x0, 0x0, 0x0, 0x0, .none, .dsp⟩,
    ⟨.HBX_LATECNT, 0x1407C, 0x0, 1, 1, 0x0, 0x0, 0x0, 0x0, 0x0, 0x0, .none, .dsp⟩,
    ⟨.HBX_SRC_CFG, 0x14400, 0x40, 40, 1, 0x0, 0x83070000, 0x0, 0x0, 0x0, 0x0, .staged, .dsp⟩,
    ⟨.HBX_SRC_MIN, 0x14404, 0x40, 40, 1, 0x0, 0xFFFFFFFF, 0x0, 0x0, 0x0, 0x0, .staged, .dsp⟩,
    ⟨.HBX_SRC_MAX, 0x14408, 0x40, 40, 1, 0x0, 0xFFFFFFFF, 0x0, 0x0, 0x0, 0x0, .staged, .dsp⟩,
    ⟨.HBX_SRC_X0, 0x1440C, 0x40, 40, 1, 0x0, 0xFFFFFFFF, 0x0, 0x0, 0x0, 0x0, .staged, .dsp⟩,
    ⟨.HBX_SRC_RAMP, 0x14410, 0x40, 40, 1, 0x0, 0xFFFFFF, 0x0, 0x0, 0x0, 0xFFFFFF, .rwl, .dsp⟩,
    ⟨.HBX_SRC_ALLOC, 0x14414, 0x40, 40, 1, 0x0, 0x0, 0x0, 0x0, 0x0, 0x0, .none, .dsp⟩,
    ⟨.HBX_SRC_LO, 0x14418, 0x40, 40, 1, 0x0, 0x0, 0x0, 0x0, 0x0, 0x0, .none, .dsp⟩,
    ⟨.HBX_SRC_HI, 0x1441C, 0x40, 40, 1, 0x0, 0x0, 0x0, 0x0, 0x0, 0x0, .none, .dsp⟩,
    ⟨.HBX_SRC_MEAS, 0x14420, 0x40, 40, 1, 0x0, 0x0, 0x0, 0x0, 0x0, 0x0, .none, .dsp⟩,
    ⟨.HBX_SRC_STAT, 0x14424, 0x40, 40, 1, 0x0, 0x0, 0x0, 0x0, 0x0, 0x0, .none, .dsp⟩ ]

/-- Registers of DKL (Table DKL.1). -/
def mapDkl : List RegDesc :=
  [ ⟨.DKL_CTL, 0x15000, 0x0, 1, 1, 0x0, 0x1, 0x0, 0x0, 0x6, 0x0, .rwl, .dsp⟩,
    ⟨.DKL_STAT, 0x15004, 0x0, 1, 1, 0x0, 0x0, 0x0, 0x0, 0x0, 0x0, .none, .dsp⟩,
    ⟨.DKL_MARGIN, 0x15008, 0x0, 1, 1, 0x0, 0xFFFFFFFF, 0x0, 0x0, 0x0, 0x3E8, .rwl, .dsp⟩,
    ⟨.DKL_SETTLE, 0x1500C, 0x0, 1, 1, 0x0, 0xFF, 0x0, 0x0, 0x0, 0x4, .rwl, .dsp⟩,
    ⟨.DKL_REL, 0x15010, 0x0, 1, 1, 0x0, 0xFFFFFF, 0x0, 0x0, 0x0, 0x64, .rwl, .dsp⟩,
    ⟨.DKL_SHED, 0x15014, 0x0, 1, 1, 0x0, 0x7FFFF, 0x0, 0x0, 0x0, 0x2000, .rwl, .dsp⟩,
    ⟨.DKL_FPFS, 0x15018, 0x0, 1, 1, 0x0, 0xFFFFFFFF, 0x0, 0x0, 0x0, 0x0, .rwl, .dsp⟩,
    ⟨.DKL_FEFF, 0x1501C, 0x0, 1, 1, 0x0, 0xFFFF, 0x0, 0x0, 0x0, 0x7AE1, .rwl, .dsp⟩,
    ⟨.DKL_EXCESS, 0x15040, 0x4, 9, 1, 0x0, 0x0, 0x0, 0x0, 0x0, 0x0, .none, .dsp⟩,
    ⟨.DKL_RESID, 0x15080, 0x4, 9, 1, 0x0, 0x0, 0x0, 0x0, 0x0, 0x0, .none, .dsp⟩,
    ⟨.DKL_CUTCNT, 0x150C0, 0x0, 1, 1, 0x0, 0x0, 0x0, 0x0, 0x0, 0x0, .none, .dsp⟩,
    ⟨.DKL_PG, 0x150C4, 0x0, 1, 1, 0x0, 0x0, 0x0, 0x0, 0x0, 0x0, .none, .dsp⟩,
    ⟨.DKL_LD_CFG, 0x15400, 0x20, 32, 1, 0x0, 0x800F0007, 0x0, 0x0, 0x0, 0x0, .rwl, .dsp⟩,
    ⟨.DKL_LD_FLOOR, 0x15404, 0x20, 32, 1, 0x0, 0xFFFFFFFF, 0x0, 0x0, 0x0, 0x0, .rwl, .dsp⟩,
    ⟨.DKL_LD_CAP, 0x15408, 0x20, 32, 1, 0x0, 0x0, 0x0, 0x0, 0x0, 0x0, .none, .dsp⟩,
    ⟨.DKL_LD_CODE, 0x1540C, 0x20, 32, 1, 0x0, 0x0, 0x0, 0x0, 0x0, 0x0, .none, .dsp⟩,
    ⟨.DKL_LD_MEAS, 0x15410, 0x20, 32, 1, 0x0, 0x0, 0x0, 0x0, 0x0, 0x0, .none, .dsp⟩ ]

/-- Registers of VAT (Table VAT.3). -/
def mapVat : List RegDesc :=
  [ ⟨.VAT_CFG, 0x16000, 0x0, 1, 1, 0x0, 0x80000F07, 0x0, 0x0, 0x0, 0x604, .rwl, .dsp⟩,
    ⟨.VAT_C, 0x16004, 0x0, 1, 1, 0x0, 0xFFFFFFFF, 0x0, 0x0, 0x0, 0x0, .rwl, .dsp⟩,
    ⟨.VAT_VMIN, 0x16008, 0x0, 1, 1, 0x0, 0xFFFFFFFF, 0x0, 0x0, 0x0, 0x0, .rwl, .dsp⟩,
    ⟨.VAT_VMAX, 0x1600C, 0x0, 1, 1, 0x0, 0xFFFFFFFF, 0x0, 0x0, 0x0, 0x0, .rwl, .dsp⟩,
    ⟨.VAT_TAPER, 0x16010, 0x0, 1, 1, 0x0, 0xFFFFFFFF, 0x0, 0x0, 0x0, 0x7D0, .rwl, .dsp⟩,
    ⟨.VAT_IDIS, 0x16014, 0x0, 1, 1, 0x0, 0xFFFFFFFF, 0x0, 0x0, 0x0, 0x0, .rwl, .dsp⟩,
    ⟨.VAT_ICHG, 0x16018, 0x0, 1, 1, 0x0, 0xFFFFFFFF, 0x0, 0x0, 0x0, 0x0, .rwl, .dsp⟩,
    ⟨.VAT_ADD, 0x16020, 0x4, 5, 1, 0x0, 0xFFFFFFFF, 0x0, 0x0, 0x0, 0x0, .rwl, .dsp⟩,
    ⟨.VAT_EFF, 0x16034, 0x0, 1, 1, 0x0, 0xFFFF, 0x0, 0x0, 0x0, 0x799A, .rwl, .dsp⟩,
    ⟨.VAT_PFLOOR, 0x16038, 0x0, 1, 1, 0x0, 0xFFFFFFFF, 0x0, 0x0, 0x0, 0xF4240, .rwl, .dsp⟩,
    ⟨.VAT_TWARN, 0x1603C, 0x0, 1, 1, 0x0, 0xFFFFFFFF, 0x0, 0x0, 0x0, 0x927C0, .rwl, .dsp⟩,
    ⟨.VAT_HU, 0x16040, 0x0, 1, 1, 0x0, 0xFFFFFFFF, 0x0, 0x0, 0x0, 0x5A3203E8, .rwl, .dsp⟩,
    ⟨.VAT_WALK, 0x16044, 0x0, 1, 1, 0x0, 0xFFFFFF, 0x0, 0x0, 0x0, 0xFFFFFF, .rwl, .dsp⟩,
    ⟨.VAT_V, 0x16080, 0x0, 1, 1, 0x0, 0x0, 0x0, 0x0, 0x0, 0x0, .none, .dsp⟩,
    ⟨.VAT_ENERGY, 0x16084, 0x0, 1, 1, 0x0, 0x0, 0x0, 0x0, 0x0, 0x0, .none, .dsp⟩,
    ⟨.VAT_FILL, 0x16088, 0x0, 1, 1, 0x0, 0x0, 0x0, 0x0, 0x0, 0x0, .none, .dsp⟩,
    ⟨.VAT_ADDER, 0x1608C, 0x0, 1, 1, 0x0, 0x0, 0x0, 0x0, 0x0, 0x0, .none, .dsp⟩,
    ⟨.VAT_LIM_HI, 0x16090, 0x0, 1, 1, 0x0, 0x0, 0x0, 0x0, 0x0, 0x0, .none, .dsp⟩,
    ⟨.VAT_LIM_LO, 0x16094, 0x0, 1, 1, 0x0, 0x0, 0x0, 0x0, 0x0, 0x0, .none, .dsp⟩,
    ⟨.VAT_PF, 0x16098, 0x0, 1, 1, 0x0, 0x0, 0x0, 0x0, 0x0, 0x0, .none, .dsp⟩,
    ⟨.VAT_TBR, 0x1609C, 0x0, 1, 1, 0x0, 0x0, 0x0, 0x0, 0x0, 0x0, .none, .dsp⟩,
    ⟨.VAT_TVAT, 0x160A0, 0x0, 1, 1, 0x0, 0x0, 0x0, 0x0, 0x0, 0x0, .none, .dsp⟩,
    ⟨.VAT_STAT, 0x160A4, 0x0, 1, 1, 0x0, 0x0, 0x0, 0xF, 0x0, 0x0, .none, .dsp⟩,
    ⟨.VAT_HUCNT, 0x160A8, 0x0, 1, 1, 0x0, 0x0, 0x0, 0x0, 0x0, 0x0, .none, .dsp⟩,
    ⟨.VAT_GWALK, 0x160AC, 0x0, 1, 1, 0x0, 0x0, 0x0, 0x0, 0x0, 0x0, .none, .dsp⟩,
    ⟨.VAT_CTL, 0x160B0, 0x0, 1, 1, 0x0, 0x0, 0x0, 0x0, 0x1, 0x0, .none, .dsp⟩ ]

/-- Registers of BAT (Table BAT.8). -/
def mapBat : List RegDesc :=
  [ ⟨.BAT_CTL, 0x17000, 0x200, 8, 1, 0x2, 0x1, 0x0, 0x0, 0xC, 0x0, .rwl, .bat⟩,
    ⟨.BAT_CFG, 0x17004, 0x200, 8, 1, 0x0, 0x8F000F03, 0x0, 0x0, 0x0, 0x2, .rwl, .bat⟩,
    ⟨.BAT_CAPNOM, 0x17008, 0x200, 8, 1, 0x0, 0xFFFFFFFF, 0x0, 0x0, 0x0, 0x0, .rwl, .bat⟩,
    ⟨.BAT_NTC_R25, 0x1700C, 0x200, 8, 1, 0x0, 0xFFFFFFFF, 0x0, 0x0, 0x0, 0x2710, .rwl, .bat⟩,
    ⟨.BAT_NTC, 0x17010, 0x200, 8, 1, 0x0, 0xFFFFFFFF, 0x0, 0x0, 0x0, 0xD6B03E8, .rwl, .bat⟩,
    ⟨.BAT_VEOD, 0x17014, 0x200, 8, 1, 0x0, 0xFFFFFFFF, 0x0, 0x0, 0x0, 0x0, .rwl, .bat⟩,
    ⟨.BAT_VEOC, 0x17018, 0x200, 8, 1, 0x0, 0xFFFFFFFF, 0x0, 0x0, 0x0, 0x0, .rwl, .bat⟩,
    ⟨.BAT_VBAND, 0x1701C, 0x200, 8, 1, 0x0, 0xFFFFFFFF, 0x0, 0x0, 0x0, 0x7D003E8, .rwl, .bat⟩,
    ⟨.BAT_IDIS, 0x17020, 0x200, 8, 1, 0x0, 0xFFFFFFFF, 0x0, 0x0, 0x0, 0x0, .rwl, .bat⟩,
    ⟨.BAT_ICHG, 0x17024, 0x200, 8, 1, 0x0, 0xFFFFFFFF, 0x0, 0x0, 0x0, 0x0, .rwl, .bat⟩,
    ⟨.BAT_IFLOAT, 0x17028, 0x200, 8, 1, 0x0, 0xFFFFFFFF, 0x0, 0x0, 0x0, 0x0, .rwl, .bat⟩,
    ⟨.BAT_TLIM, 0x1702C, 0x200, 8, 1, 0x0, 0xFFFFFFFF, 0x0, 0x0, 0x0, 0x3CEC2D00, .rwl, .bat⟩,
    ⟨.BAT_EFF, 0x17030, 0x200, 8, 1, 0x0, 0xFFFF, 0x0, 0x0, 0x0, 0x7D71, .rwl, .bat⟩,
    ⟨.BAT_QP, 0x17034, 0x200, 8, 1, 0x0, 0xFFFFFFFF, 0x0, 0x0, 0x0, 0x64, .rwl, .bat⟩,
    ⟨.BAT_PINIT, 0x17038, 0x200, 8, 1, 0x0, 0xFFFFFFFF, 0x0, 0x0, 0x0, 0x17D7840, .rwl, .bat⟩,
    ⟨.BAT_RV, 0x1703C, 0x200, 8, 1, 0x0, 0xFFFFFFFF, 0x0, 0x0, 0x0, 0x190020A, .rwl, .bat⟩,
    ⟨.BAT_ANC, 0x17040, 0x200, 8, 1, 0x0, 0xFFFFFFFF, 0x0, 0x0, 0x0, 0x271002D0, .rwl, .bat⟩,
    ⟨.BAT_LRN, 0x17044, 0x200, 8, 1, 0x0, 0xFFFF070F, 0x0, 0x0, 0x0, 0x13880304, .rwl, .bat⟩,
    ⟨.BAT_IDCHK, 0x17048, 0x200, 8, 1, 0x0, 0xFFFFFFFF, 0x0, 0x0, 0x0, 0x7D007D0, .rwl, .bat⟩,
    ⟨.BAT_CAPLIM, 0x1704C, 0x200, 8, 1, 0x0, 0xFFFFFF00, 0x0, 0x0, 0x0, 0x5327800, .rwl, .bat⟩,
    ⟨.BAT_STAT, 0x17080, 0x200, 8, 1, 0x0, 0x0, 0x0, 0xFF, 0x0, 0x0, .none, .bat⟩,
    ⟨.BAT_SOC, 0x17084, 0x200, 8, 1, 0x0, 0x0, 0x0, 0x0, 0x0, 0x0, .none, .bat⟩,
    ⟨.BAT_P, 0x17088, 0x200, 8, 1, 0x0, 0x0, 0x0, 0x0, 0x0, 0x0, .none, .bat⟩,
    ⟨.BAT_V, 0x1708C, 0x200, 8, 1, 0x0, 0x0, 0x0, 0x0, 0x0, 0x0, .none, .bat⟩,
    ⟨.BAT_I, 0x17090, 0x200, 8, 1, 0x0, 0x0, 0x0, 0x0, 0x0, 0x0, .none, .bat⟩,
    ⟨.BAT_T, 0x17094, 0x200, 8, 1, 0x0, 0x0, 0x0, 0x0, 0x0, 0x0, .none, .bat⟩,
    ⟨.BAT_VCOMP, 0x17098, 0x200, 8, 1, 0x0, 0x0, 0x0, 0x0, 0x0, 0x0, .none, .bat⟩,
    ⟨.BAT_UD, 0x1709C, 0x200, 8, 1, 0x0, 0x0, 0x0, 0x0, 0x0, 0x0, .none, .bat⟩,
    ⟨.BAT_Z, 0x170A0, 0x200, 8, 1, 0x0, 0x0, 0x0, 0x0, 0x0, 0x0, .none, .bat⟩,
    ⟨.BAT_FCC, 0x170A4, 0x200, 8, 1, 0x0, 0x0, 0x0, 0x0, 0x0, 0x0, .none, .bat⟩,
    ⟨.BAT_CYC, 0x170A8, 0x200, 8, 1, 0x0, 0x0, 0x0, 0x0, 0x0, 0x0, .none, .bat⟩,
    ⟨.BAT_EREM, 0x170AC, 0x200, 8, 1, 0x0, 0x0, 0x0, 0x0, 0x0, 0x0, .none, .bat⟩,
    ⟨.BAT_LIMDIS, 0x170B0, 0x200, 8, 1, 0x0, 0x0, 0x0, 0x0, 0x0, 0x0, .none, .bat⟩,
    ⟨.BAT_LIMCHG, 0x170B4, 0x200, 8, 1, 0x0, 0x0, 0x0, 0x0, 0x0, 0x0, .none, .bat⟩,
    ⟨.BAT_DEF, 0x170B8, 0x200, 8, 1, 0x0, 0x0, 0x0, 0x0, 0x0, 0x0, .none, .bat⟩,
    ⟨.BAT_UNANCH, 0x170BC, 0x200, 8, 1, 0x0, 0x0, 0x0, 0x0, 0x0, 0x0, .none, .bat⟩,
    ⟨.BAT_LRNCNT, 0x170C0, 0x200, 8, 1, 0x0, 0x0, 0x0, 0x0, 0x0, 0x0, .none, .bat⟩,
    ⟨.BAT_LRNREJ, 0x170C4, 0x200, 8, 1, 0x0, 0x0, 0x0, 0x0, 0x0, 0x0, .none, .bat⟩,
    ⟨.BAT_RS, 0x170C8, 0x200, 8, 1, 0x0, 0x0, 0x0, 0x0, 0x0, 0x0, .none, .bat⟩ ]

/-- Registers of SLT (Table SLT.9). -/
def mapSlt : List RegDesc :=
  [ ⟨.SLT_CTL, 0x18000, 0x100, 32, 1, 0x5, 0xA, 0x0, 0x0, 0x300, 0x0, .rwl, .lnk⟩,
    ⟨.SLT_CFG, 0x18004, 0x100, 32, 1, 0x0, 0xE00FFF0F, 0x0, 0x0, 0x0, 0xA04, .rwl, .lnk⟩,
    ⟨.SLT_STAT, 0x18008, 0x100, 32, 1, 0x0, 0x0, 0x0, 0xFE, 0x0, 0x0, .none, .lnk⟩,
    ⟨.SLT_DECL, 0x1800C, 0x100, 32, 1, 0x0, 0x0, 0x0, 0x0, 0x0, 0x0, .none, .lnk⟩,
    ⟨.SLT_FS, 0x18010, 0x100, 32, 1, 0x0, 0x0, 0x0, 0x0, 0x0, 0x0, .none, .lnk⟩,
    ⟨.SLT_US, 0x18014, 0x100, 32, 1, 0x0, 0x0, 0x0, 0x0, 0x0, 0x0, .none, .lnk⟩,
    ⟨.SLT_I, 0x18018, 0x100, 32, 1, 0x0, 0x0, 0x0, 0x0, 0x0, 0x0, .none, .lnk⟩,
    ⟨.SLT_V, 0x1801C, 0x100, 32, 1, 0x0, 0x0, 0x0, 0x0, 0x0, 0x0, .none, .lnk⟩,
    ⟨.SLT_T, 0x18020, 0x100, 32, 1, 0x0, 0x0, 0x0, 0x0, 0x0, 0x0, .none, .lnk⟩,
    ⟨.SLT_SP, 0x18024, 0x100, 32, 1, 0x0, 0x0, 0x0, 0x0, 0x0, 0x0, .none, .lnk⟩,
    ⟨.SLT_TX, 0x18028, 0x100, 32, 1, 0x0, 0x0, 0x0, 0x0, 0x0, 0x0, .none, .lnk⟩,
    ⟨.SLT_CAPC, 0x1802C, 0x100, 32, 1, 0x0, 0x0, 0x0, 0x0, 0x0, 0x0, .none, .lnk⟩,
    ⟨.SLT_RXTS, 0x18030, 0x100, 32, 1, 0x0, 0x0, 0x0, 0x0, 0x0, 0x0, .none, .lnk⟩,
    ⟨.SLT_RTT, 0x18034, 0x100, 32, 1, 0x0, 0x0, 0x0, 0x0, 0x0, 0x0, .none, .lnk⟩,
    ⟨.SLT_CRCERR, 0x18038, 0x100, 32, 1, 0x0, 0x0, 0x0, 0x0, 0x0, 0x0, .none, .lnk⟩,
    ⟨.SLT_CVERR, 0x1803C, 0x100, 32, 1, 0x0, 0x0, 0x0, 0x0, 0x0, 0x0, .none, .lnk⟩,
    ⟨.SLT_LOSSCNT, 0x18040, 0x100, 32, 1, 0x0, 0x0, 0x0, 0x0, 0x0, 0x0, .none, .lnk⟩,
    ⟨.SLT_GAPCNT, 0x18044, 0x100, 32, 1, 0x0, 0x0, 0x0, 0x0, 0x0, 0x0, .none, .lnk⟩,
    ⟨.SLT_MBRTX, 0x18048, 0x100, 32, 1, 0x0, 0x0, 0x0, 0x0, 0x0, 0x0, .none, .lnk⟩ ]

/-- Registers of RED (Table RED.13). -/
def mapRed : List RegDesc :=
  [ ⟨.RED_CTL, 0x1A000, 0x0, 1, 1, 0x1, 0x0, 0x0, 0x0, 0xC0, 0x0, .none, .aon⟩,
    ⟨.RED_STAT, 0x1A004, 0x0, 1, 1, 0x0, 0x0, 0x0, 0xFF, 0x0, 0x0, .none, .aon⟩,
    ⟨.RED_CLAIM, 0x1A008, 0x0, 1, 1, 0x0, 0x0, 0x0, 0x0, 0x0, 0x0, .none, .aon⟩,
    ⟨.RED_HB, 0x1A00C, 0x0, 1, 1, 0x0, 0xFFFF, 0x0, 0x0, 0x0, 0xA, .rwl, .aon⟩,
    ⟨.RED_HB_LIVE, 0x1A010, 0x0, 1, 1, 0x0, 0x0, 0x0, 0x0, 0xFFFFFFFF, 0x0, .none, .aon⟩,
    ⟨.RED_SBY, 0x1A014, 0x0, 1, 1, 0x0, 0xFFFFFF, 0x0, 0x0, 0x0, 0x10064, .rwl, .per⟩,
    ⟨.RED_XCHK, 0x1A018, 0x0, 1, 1, 0x0, 0xFFFFFF00, 0x0, 0x0, 0x0, 0x2000800, .rwl, .per⟩,
    ⟨.RED_ATOL, 0x1A01C, 0x0, 1, 1, 0x0, 0xFFFFFFFF, 0x0, 0x0, 0x0, 0x1388, .rwl, .per⟩,
    ⟨.RED_DRILL, 0x1A020, 0x0, 1, 1, 0x0, 0xFFFFFFFF, 0x0, 0x0, 0x0, 0x3E8, .rwl, .per⟩,
    ⟨.RED_TOFS, 0x1A024, 0x0, 1, 1, 0x0, 0x0, 0x0, 0x0, 0x0, 0x0, .none, .per⟩,
    ⟨.RED_SNAPCNT, 0x1A028, 0x0, 1, 1, 0x0, 0x0, 0x0, 0x0, 0x0, 0x0, .none, .per⟩,
    ⟨.RED_SNAPERR, 0x1A02C, 0x0, 1, 1, 0x0, 0x0, 0x0, 0x0, 0x0, 0x0, .none, .per⟩,
    ⟨.RED_XMIS, 0x1A030, 0x0, 1, 1, 0x0, 0x0, 0x0, 0x0, 0x0, 0x0, .none, .per⟩,
    ⟨.RED_TAKECNT, 0x1A034, 0x0, 1, 1, 0x0, 0x0, 0x0, 0x0, 0x0, 0x0, .none, .aon⟩,
    ⟨.RED_DEMCNT, 0x1A038, 0x0, 1, 1, 0x0, 0x0, 0x0, 0x0, 0x0, 0x0, .none, .aon⟩,
    ⟨.RED_XMASK0, 0x1A040, 0x0, 1, 1, 0x0, 0x0, 0x0, 0xFFFFFFFF, 0x0, 0x0, .none, .per⟩,
    ⟨.RED_XMASK1, 0x1A044, 0x0, 1, 1, 0x0, 0x0, 0x0, 0xFFF, 0x0, 0x0, .none, .per⟩,
    ⟨.RED_ARB, 0x1A080, 0x0, 1, 1, 0x0, 0x8000FFFF, 0x0, 0x0, 0x0, 0x80000064, .rwl, .aon⟩,
    ⟨.RED_ARB_STAT, 0x1A084, 0x0, 1, 1, 0x0, 0x0, 0x0, 0x0, 0x0, 0x0, .none, .aon⟩,
    ⟨.RED_VERDCNT, 0x1A088, 0x0, 1, 1, 0x0, 0x0, 0x0, 0x0, 0x0, 0x0, .none, .aon⟩ ]

/-- Registers of SEQ (Table SEQ.6). -/
def mapSeq : List RegDesc :=
  [ ⟨.SEQ_CTL, 0x1B000, 0x0, 1, 1, 0x0, 0x0, 0x0, 0x0, 0x3F, 0x0, .none, .sup⟩,
    ⟨.SEQ_CFG, 0x1B004, 0x0, 1, 1, 0x0, 0xC000000F, 0x0, 0x0, 0x0, 0xC0000004, .rwl, .sup⟩,
    ⟨.SEQ_STAT, 0x1B008, 0x0, 1, 1, 0x0, 0x0, 0x0, 0x0, 0x0, 0x0, .none, .sup⟩,
    ⟨.SEQ_RSDLY, 0x1B00C, 0x0, 1, 1, 0x0, 0xFFFF, 0x0, 0x0, 0x0, 0x7D0, .rwl, .sup⟩,
    ⟨.SEQ_HUSTOP, 0x1B010, 0x0, 1, 1, 0x0, 0xFFFFFFFF, 0x0, 0x0, 0x0, 0x0, .rwl, .sup⟩,
    ⟨.SEQ_TRIPMAP, 0x1B014, 0x0, 1, 1, 0x0, 0xFF, 0x0, 0x0, 0x0, 0x0, .rwl, .sup⟩,
    ⟨.SEQ_OFFT, 0x1B018, 0x0, 1, 1, 0x0, 0x0, 0x0, 0x0, 0x0, 0x0, .none, .sup⟩,
    ⟨.SEQ_FAILCNT, 0x1B020, 0x0, 1, 1, 0x0, 0x0, 0x0, 0x0, 0x0, 0x0, .none, .sup⟩,
    ⟨.SEQ_RSCNT, 0x1B024, 0x0, 1, 1, 0x0, 0x0, 0x0, 0x0, 0x0, 0x0, .none, .sup⟩,
    ⟨.SEQ_UPMASK, 0x1B040, 0x4, 3, 1, 0x0, 0x0, 0x0, 0x0, 0x0, 0x0, .none, .sup⟩,
    ⟨.SEQ_FAILMASK, 0x1B050, 0x4, 3, 1, 0x0, 0x0, 0x0, 0x0, 0x0, 0x0, .none, .sup⟩,
    ⟨.SEQ_N_CFG, 0x1B200, 0x30, 72, 1, 0x0, 0x83301F0F, 0x0, 0x0, 0x0, 0x2, .rwl, .sup⟩,
    ⟨.SEQ_N_UP, 0x1B204, 0x30, 72, 1, 0x0, 0xFFFFFFFF, 0x0, 0x0, 0x0, 0x0, .rwl, .sup⟩,
    ⟨.SEQ_N_DN, 0x1B208, 0x30, 72, 1, 0x0, 0xFFFFFFFF, 0x0, 0x0, 0x0, 0x0, .rwl, .sup⟩,
    ⟨.SEQ_N_OFF, 0x1B20C, 0x30, 72, 1, 0x0, 0xFFFFFFFF, 0x0, 0x0, 0x0, 0x0, .rwl, .sup⟩,
    ⟨.SEQ_N_TIM, 0x1B210, 0x30, 72, 1, 0x0, 0xFFFFFFFF, 0x0, 0x0, 0x0, 0x6403E8, .rwl, .sup⟩,
    ⟨.SEQ_N_DLY, 0x1B214, 0x30, 72, 1, 0x0, 0xFFFFFFFF, 0x0, 0x0, 0x0, 0x0, .rwl, .sup⟩,
    ⟨.SEQ_N_FALL, 0x1B218, 0x30, 72, 1, 0x0, 0x8000FFFF, 0x0, 0x0, 0x0, 0x3E8, .rwl, .sup⟩,
    ⟨.SEQ_N_STAT, 0x1B21C, 0x30, 72, 1, 0x0, 0x0, 0x0, 0x3, 0x0, 0x0, .none, .sup⟩,
    ⟨.SEQ_N_DEP0, 0x1B220, 0x30, 72, 1, 0x0, 0xFFFFFFFF, 0x0, 0x0, 0x0, 0x0, .rwl, .sup⟩,
    ⟨.SEQ_N_DEP1, 0x1B224, 0x30, 72, 1, 0x0, 0xFFFFFFFF, 0x0, 0x0, 0x0, 0x0, .rwl, .sup⟩,
    ⟨.SEQ_N_DEP2, 0x1B228, 0x30, 72, 1, 0x0, 0xFF, 0x0, 0x0, 0x0, 0x0, .rwl, .sup⟩ ]

/-- Registers of THM (Table THM.5). -/
def mapThm : List RegDesc :=
  [ ⟨.THM_CTL, 0x1C000, 0x0, 1, 1, 0x0, 0x1, 0x0, 0x0, 0x2, 0x1, .rwl, .sup⟩,
    ⟨.THM_STAT, 0x1C004, 0x0, 1, 1, 0x0, 0x0, 0x0, 0x8, 0x0, 0x0, .none, .sup⟩,
    ⟨.THM_SD, 0x1C008, 0x0, 1, 1, 0x0, 0x0, 0x0, 0x0, 0x0, 0x0, .none, .sup⟩,
    ⟨.THM_SD_LOG, 0x1C00C, 0x0, 1, 1, 0x0, 0x0, 0x0, 0x0, 0x0, 0x0, .none, .sup⟩,
    ⟨.THM_SDMAP, 0x1C010, 0x0, 1, 1, 0x0, 0x0, 0xFF, 0x0, 0x0, 0x0, .none, .sup⟩,
    ⟨.THM_SDCNT, 0x1C014, 0x0, 1, 1, 0x0, 0x0, 0x0, 0x0, 0x0, 0x0, .none, .sup⟩,
    ⟨.THM_MAX, 0x1C018, 0x0, 1, 1, 0x0, 0x0, 0x0, 0x0, 0x0, 0x0, .none, .sup⟩,
    ⟨.THM_S_CFG, 0x1C100, 0x20, 48, 1, 0x0, 0xFFFFE0FF, 0x0, 0x0, 0x0, 0x12020, .rwl, .sup⟩,
    ⟨.THM_S_LVL, 0x1C104, 0x20, 48, 1, 0x0, 0xFFFFFFFF, 0x0, 0x0, 0x0, 0x7D006E0, .rwl, .sup⟩,
    ⟨.THM_S_ROC, 0x1C108, 0x20, 48, 1, 0x0, 0xFFFF003F, 0x0, 0x0, 0x0, 0xA, .rwl, .sup⟩,
    ⟨.THM_S_T, 0x1C10C, 0x20, 48, 1, 0x0, 0x0, 0x0, 0x0, 0x0, 0x0, .none, .sup⟩,
    ⟨.THM_S_STAT, 0x1C110, 0x20, 48, 1, 0x0, 0x0, 0x0, 0xF, 0x0, 0x0, .none, .sup⟩,
    ⟨.THM_S_RAW, 0x1C114, 0x20, 48, 1, 0x0, 0x0, 0x0, 0x0, 0x0, 0x0, .none, .sup⟩,
    ⟨.THM_S_RISE, 0x1C118, 0x20, 48, 1, 0x0, 0x0, 0x0, 0x0, 0x0, 0x0, .none, .sup⟩,
    ⟨.THM_S_DIO, 0x1C11C, 0x20, 48, 1, 0x0, 0xFF, 0x0, 0x0, 0x0, 0x60, .rwl, .sup⟩ ]

/-- Registers of BBX (Table BBX.9). -/
def mapBbx : List RegDesc :=
  [ ⟨.BBX_CTL, 0x1D000, 0x0, 1, 1, 0x0, 0x0, 0x0, 0x0, 0x1E, 0x0, .none, .recI⟩,
    ⟨.BBX_CFG, 0x1D004, 0x0, 1, 1, 0x0, 0xCFFF000F, 0x0, 0x0, 0x0, 0x83E80006, .rwl, .recI⟩,
    ⟨.BBX_STAT, 0x1D008, 0x0, 1, 1, 0x0, 0x0, 0x0, 0xFE, 0x0, 0x0, .none, .recI⟩,
    ⟨.BBX_PAGE, 0x1D00C, 0x0, 1, 1, 0x1F, 0x0, 0x0, 0x0, 0x0, 0x0, .none, .recI⟩,
    ⟨.BBX_NEXT_LO, 0x1D010, 0x0, 1, 1, 0x0, 0x0, 0x0, 0x0, 0x0, 0x0, .none, .recI⟩,
    ⟨.BBX_NEXT_HI, 0x1D014, 0x0, 1, 1, 0x0, 0x0, 0x0, 0x0, 0x0, 0x0, .none, .recI⟩,
    ⟨.BBX_LIVE, 0x1D018, 0x0, 1, 1, 0x0, 0x0, 0x0, 0x0, 0x0, 0x0, .none, .recI⟩,
    ⟨.BBX_OP, 0x1D01C, 0x0, 1, 1, 0x307, 0x0, 0x0, 0x0, 0x0, 0x0, .none, .recI⟩,
    ⟨.BBX_AUTH, 0x1D020, 0x0, 1, 1, 0x0, 0x0, 0x0, 0x0, 0x0, 0x0, .none, .recI⟩,
    ⟨.BBX_NONCE, 0x1D030, 0x4, 4, 1, 0x0, 0x0, 0x0, 0x0, 0x0, 0x0, .none, .recI⟩,
    ⟨.BBX_TOKEN, 0x1D040, 0x4, 4, 1, 0x0, 0x0, 0x0, 0x0, 0xFFFFFFFF, 0x0, .none, .recI⟩,
    ⟨.BBX_REAM, 0x1D080, 0x10, 4, 1, 0x0, 0x0, 0x0, 0x0, 0x0, 0x0, .none, .recI⟩,
    ⟨.BBX_REAM_SEQ, 0x1D084, 0x10, 4, 1, 0x0, 0x0, 0x0, 0x0, 0x0, 0x0, .none, .recI⟩,
    ⟨.BBX_REAM_PTR, 0x1D088, 0x10, 4, 1, 0x0, 0x0, 0x0, 0x0, 0x0, 0x0, .none, .recI⟩,
    ⟨.BBX_TRC_SEL, 0x1D0C0, 0x4, 4, 1, 0x0, 0xFFFFFFFF, 0x0, 0x0, 0x0, 0xFFFFFFFF, .rwl, .recI⟩,
    ⟨.BBX_SUPCNT, 0x1D100, 0x0, 1, 1, 0x0, 0x0, 0x0, 0x0, 0x0, 0x0, .none, .recI⟩,
    ⟨.BBX_SEALMISS, 0x1D104, 0x0, 1, 1, 0x0, 0x0, 0x0, 0x0, 0x0, 0x0, .none, .recI⟩,
    ⟨.BBX_AUTHFAIL, 0x1D108, 0x0, 1, 1, 0x0, 0x0, 0x0, 0x0, 0x0, 0x0, .none, .recI⟩,
    ⟨.BBX_CLRCNT, 0x1D10C, 0x0, 1, 1, 0x0, 0x0, 0x0, 0x0, 0x0, 0x0, .none, .recI⟩,
    ⟨.BBX_SEVMAP, 0x1D200, 0x4, 32, 1, 0x0, 0xFFFFFFFF, 0x0, 0x0, 0x0, 0x22222222, .rwl, .recI⟩ ]

/-- Registers of UPD (Table UPD.10). -/
def mapUpd : List RegDesc :=
  [ ⟨.UPD_CTL, 0x1E000, 0x0, 1, 1, 0x0, 0x80000700, 0x0, 0x0, 0x1, 0x100, .rwl, .mgt⟩,
    ⟨.UPD_STAT, 0x1E004, 0x0, 1, 1, 0x0, 0x0, 0x0, 0x0, 0x0, 0x0, .none, .mgt⟩,
    ⟨.UPD_CMD, 0x1E008, 0x0, 1, 1, 0x0, 0x0, 0x0, 0x0, 0x7, 0x0, .none, .mgt⟩,
    ⟨.UPD_FLOOR, 0x1E00C, 0x0, 1, 1, 0x0, 0xFFFF, 0x0, 0x0, 0x0, 0x1770, .rwl, .mgt⟩,
    ⟨.UPD_TRIAL, 0x1E010, 0x0, 1, 1, 0x0, 0xFFFFFFFF, 0x0, 0x0, 0x0, 0xEA60, .rwl, .mgt⟩,
    ⟨.UPD_CHUNK, 0x1E014, 0x0, 1, 1, 0xFFFFFFFF, 0x0, 0x0, 0x0, 0x0, 0x0, .none, .mgt⟩,
    ⟨.UPD_EPOCH_LO, 0x1E018, 0x0, 1, 1, 0x0, 0x0, 0x0, 0x0, 0x0, 0x0, .none, .mgt⟩,
    ⟨.UPD_EPOCH_HI, 0x1E01C, 0x0, 1, 1, 0x0, 0x0, 0x0, 0x0, 0x0, 0x0, .none, .mgt⟩,
    ⟨.UPD_PART, 0x1E020, 0x0, 1, 1, 0x0, 0x0, 0x0, 0x0, 0x0, 0x0, .none, .mgt⟩,
    ⟨.UPD_SLOTS, 0x1E024, 0x0, 1, 1, 0x0, 0x0, 0x0, 0x0, 0x0, 0x0, .none, .mgt⟩,
    ⟨.UPD_DONECNT, 0x1E028, 0x0, 1, 1, 0x0, 0x0, 0x0, 0x0, 0x0, 0x0, .none, .mgt⟩,
    ⟨.UPD_RBCNT, 0x1E02C, 0x0, 1, 1, 0x0, 0x0, 0x0, 0x0, 0x0, 0x0, .none, .mgt⟩,
    ⟨.UPD_BUF, 0x1E800, 0x4, 512, 1, 0xFFFFFFFF, 0x0, 0x0, 0x0, 0x0, 0x0, .none, .mgt⟩ ]

/-- Registers of HST (Table HST.12). -/
def mapHst : List RegDesc :=
  [ ⟨.HST_LINK, 0x1F000, 0x0, 1, 1, 0x0, 0x0, 0x0, 0x0, 0x0, 0x0, .none, .hst⟩,
    ⟨.HST_CTL, 0x1F004, 0x0, 1, 1, 0x0, 0x0, 0x0, 0x0, 0x1, 0x0, .none, .hst⟩,
    ⟨.HST_WB_LO, 0x1F010, 0x0, 1, 1, 0xFFFFFFC1, 0x0, 0x0, 0x0, 0x0, 0x0, .none, .hst⟩,
    ⟨.HST_WB_HI, 0x1F014, 0x0, 1, 1, 0xFFFFFFFF, 0x0, 0x0, 0x0, 0x0, 0x0, .none, .hst⟩,
    ⟨.HST_TEL, 0x1F020, 0x0, 1, 1, 0x8000FFFF, 0x0, 0x0, 0x0, 0x0, 0xC8, .none, .hst⟩,
    ⟨.HST_TRC, 0x1F024, 0x0, 1, 1, 0x800003FF, 0x0, 0x0, 0x0, 0x0, 0x1, .none, .hst⟩,
    ⟨.HST_TEL_SEL, 0x1F040, 0x4, 24, 1, 0x800FFFFC, 0x0, 0x0, 0x0, 0x0, 0x0, .none, .hst⟩,
    ⟨.HST_RING_BLO, 0x1F100, 0x20, 8, 1, 0xFFFFFFC0, 0x0, 0x0, 0x0, 0x0, 0x0, .none, .hst⟩,
    ⟨.HST_RING_BHI, 0x1F104, 0x20, 8, 1, 0xFFFFFFFF, 0x0, 0x0, 0x0, 0x0, 0x0, .none, .hst⟩,
    ⟨.HST_RING_CFG, 0x1F108, 0x20, 8, 1, 0xC0003F1F, 0x0, 0x0, 0x0, 0x0, 0x4, .none, .hst⟩,
    ⟨.HST_RING_IDX, 0x1F10C, 0x20, 8, 1, 0x0, 0x0, 0x0, 0x0, 0x0, 0x0, .none, .hst⟩,
    ⟨.HST_RING_STAT, 0x1F110, 0x20, 8, 1, 0x0, 0x0, 0x0, 0x0, 0x0, 0x0, .none, .hst⟩,
    ⟨.HST_EVDROP, 0x1F200, 0x0, 1, 1, 0x0, 0x0, 0x0, 0x0, 0x0, 0x0, .none, .hst⟩,
    ⟨.HST_TELDROP, 0x1F204, 0x0, 1, 1, 0x0, 0x0, 0x0, 0x0, 0x0, 0x0, .none, .hst⟩,
    ⟨.HST_TRCDROP, 0x1F208, 0x0, 1, 1, 0x0, 0x0, 0x0, 0x0, 0x0, 0x0, .none, .hst⟩,
    ⟨.HST_CPLDROP, 0x1F20C, 0x0, 1, 1, 0x0, 0x0, 0x0, 0x0, 0x0, 0x0, .none, .hst⟩,
    ⟨.HST_CMDCNT, 0x1F210, 0x0, 1, 1, 0x0, 0x0, 0x0, 0x0, 0x0, 0x0, .none, .hst⟩ ]

/-- Registers of TWP (Table TWP.7). -/
def mapTwp : List RegDesc :=
  [ ⟨.TWP_CFG, 0x20000, 0x100, 4, 1, 0x0, 0xFC003F7F, 0x0, 0x0, 0x0, 0x250, .rwl, .mgt⟩,
    ⟨.TWP_CTL, 0x20004, 0x100, 4, 1, 0x1, 0x0, 0x0, 0x0, 0x2, 0x0, .none, .mgt⟩,
    ⟨.TWP_TIM, 0x20008, 0x100, 4, 1, 0x0, 0x3FF003F, 0x0, 0x0, 0x0, 0x320019, .rwl, .mgt⟩,
    ⟨.TWP_XFER, 0x2000C, 0x100, 4, 1, 0x7F3F3F, 0x0, 0x0, 0x0, 0x80000000, 0x0, .none, .mgt⟩,
    ⟨.TWP_STAT, 0x20010, 0x100, 4, 1, 0x0, 0x0, 0x0, 0x7, 0x0, 0x0, .none, .mgt⟩,
    ⟨.TWP_ARBCNT, 0x20014, 0x100, 4, 1, 0x0, 0x0, 0x0, 0x0, 0x0, 0x0, .none, .mgt⟩,
    ⟨.TWP_ATTA, 0x20018, 0x100, 4, 1, 0x0, 0x0, 0x0, 0x0, 0x0, 0x0, .none, .mgt⟩,
    ⟨.TWP_DATA, 0x20020, 0x100, 4, 8, 0xFFFFFFFF, 0x0, 0x0, 0x0, 0x0, 0x0, .none, .mgt⟩,
    ⟨.TWP_ATT, 0x20040, 0x100, 4, 8, 0x0, 0x0, 0x0, 0x0, 0x0, 0x0, .none, .mgt⟩,
    ⟨.TWP_TTX, 0x20080, 0x100, 4, 8, 0xFFFFFFFF, 0x0, 0x0, 0x0, 0x0, 0x0, .none, .mgt⟩,
    ⟨.TWP_TRX, 0x200A0, 0x100, 4, 8, 0x0, 0x0, 0x0, 0x0, 0x0, 0x0, .none, .mgt⟩,
    ⟨.TWP_BCN, 0x20800, 0x0, 1, 1, 0x0, 0x0, 0x0, 0x0, 0x0, 0x0, .none, .mgt⟩,
    ⟨.TWP_BCN_STAT, 0x20804, 0x0, 1, 1, 0x0, 0x0, 0x0, 0x0, 0x0, 0x0, .none, .mgt⟩ ]

/-- Every register, block by block (R403). -/
def regMap : List RegDesc :=
  mapSys ++ mapEvt ++ mapOtp ++ mapNvp ++ mapSns ++ mapLaw ++ mapSch ++ mapPwm ++ mapRail ++ mapHbx ++ mapDkl ++ mapVat ++ mapBat ++ mapSlt ++ mapRed ++ mapSeq ++ mapThm ++ mapBbx ++ mapUpd ++ mapHst ++ mapTwp

/-- The reset word of instance `e` of a register. -/
def RegDesc.rstAt (r : RegDesc) (e : Nat) : Nat :=
  match r.id with
  | .LAW_SRC => lawSrcRst e
  | .LAW_DST => lawDstRst e
  | .SEQ_N_CFG => if 64 ≤ e then 0x300002 else 0x2
  | .THM_S_CFG => if e < 32 then 0x80012020 else 0x12020
  | _ => r.rst

/-! ### Fields -/

namespace F

def SYS_BOOT.peer_ms : Fld := ⟨0x14, 0, 16, 0x28⟩
def SYS_WDT.ms : Fld := ⟨0x18, 0, 16, 0x3E8⟩
def EVT_VEC.mod_us (e : Nat) : Fld := ⟨0x1100 + 0x4 * e, 0, 16, 0x0⟩
def EVT_ROUTE.ring (e : Nat) : Fld := ⟨0x1400 + 0x4 * e, 31, 1, 0xA0000000⟩
def EVT_ROUTE.vec_en (e : Nat) : Fld := ⟨0x1400 + 0x4 * e, 30, 1, 0xA0000000⟩
def EVT_ROUTE.bcn (e : Nat) : Fld := ⟨0x1400 + 0x4 * e, 29, 1, 0xA0000000⟩
def EVT_ROUTE.trip (e : Nat) : Fld := ⟨0x1400 + 0x4 * e, 16, 8, 0xA0000000⟩
def EVT_ROUTE.vec (e : Nat) : Fld := ⟨0x1400 + 0x4 * e, 0, 6, 0xA0000000⟩
def OTP_FLAG.prog_err : Fld := ⟨0x2004, 6, 1, 0⟩
def OTP_FLAG.refused : Fld := ⟨0x2004, 5, 1, 0⟩
def OTP_FLAG.reread : Fld := ⟨0x2004, 4, 1, 0⟩
def OTP_FLAG.hole : Fld := ⟨0x2004, 3, 1, 0⟩
def OTP_FLAG.marg : Fld := ⟨0x2004, 2, 1, 0⟩
def OTP_FLAG.crc : Fld := ⟨0x2004, 1, 1, 0⟩
def OTP_FLAG.done : Fld := ⟨0x2004, 0, 1, 0⟩
def OTP_CMD.grp : Fld := ⟨0x200C, 4, 3, 0x0⟩
def OTP_ADDR.word : Fld := ⟨0x2010, 0, 8, 0x0⟩
def OTP_DATA.data : Fld := ⟨0x2014, 0, 32, 0x0⟩
def NVP_FLAG.ride : Fld := ⟨0x3008, 7, 1, 0⟩
def NVP_FLAG.save_done : Fld := ⟨0x3008, 6, 1, 0⟩
def NVP_FLAG.save_ref : Fld := ⟨0x3008, 5, 1, 0⟩
def NVP_FLAG.seq_sat : Fld := ⟨0x3008, 4, 1, 0⟩
def NVP_FLAG.both_bad : Fld := ⟨0x3008, 3, 1, 0⟩
def NVP_FLAG.twin : Fld := ⟨0x3008, 2, 1, 0⟩
def NVP_FLAG.ue : Fld := ⟨0x3008, 1, 1, 0⟩
def NVP_FLAG.ce : Fld := ⟨0x3008, 0, 1, 0⟩
def NVP_RD_ADDR.array : Fld := ⟨0x3028, 31, 1, 0x0⟩
def NVP_RD_ADDR.word : Fld := ⟨0x3028, 3, 17, 0x0⟩
def SNS_OVR.ovr (e : Nat) : Fld := ⟨0x4010 + 0x4 * e, 0, 32, 0⟩
def SNS_PH_SMP.blank_ns (e : Nat) : Fld := ⟨0x4400 + 0x10 * e, 8, 8, 0x1E00⟩
def SNS_PH_SMP.point (e : Nat) : Fld := ⟨0x4400 + 0x10 * e, 0, 2, 0x1E00⟩
def SNS_PH_CMP.cblank (e : Nat) : Fld := ⟨0x4404 + 0x10 * e, 26, 6, 0x23FF03FF⟩
def SNS_PH_CMP.thr_neg (e : Nat) : Fld := ⟨0x4404 + 0x10 * e, 16, 10, 0x23FF03FF⟩
def SNS_PH_CMP.thr_pos (e : Nat) : Fld := ⟨0x4404 + 0x10 * e, 0, 10, 0x23FF03FF⟩
def SNS_CH_GAIN.user_gain (e : Nat) : Fld := ⟨0x5000 + 0x20 * e, 0, 16, 0x4000⟩
def SNS_CH_USEROFF.inv (e : Nat) : Fld := ⟨0x5008 + 0x20 * e, 31, 1, 0x0⟩
def SNS_CH_USEROFF.user_off (e : Nat) : Fld := ⟨0x5008 + 0x20 * e, 0, 24, 0x0⟩
def SNS_CH_FS.fs (e : Nat) : Fld := ⟨0x500C + 0x20 * e, 0, 32, 0x0⟩
def LAW_CTL.en (e : Nat) : Fld := ⟨0x8000 + 0x200 * e, 0, 1, 0x0⟩
def LAW_CFG.div_m1 (e : Nat) : Fld := ⟨0x8004 + 0x200 * e, 28, 4, 0x103E8⟩
def LAW_CFG.trig (e : Nat) : Fld := ⟨0x8004 + 0x200 * e, 26, 2, 0x103E8⟩
def LAW_CFG.nsec_m1 (e : Nat) : Fld := ⟨0x8004 + 0x200 * e, 16, 3, 0x103E8⟩
def LAW_CFG.period_ns (e : Nat) : Fld := ⟨0x8004 + 0x200 * e, 0, 16, 0x103E8⟩
def LAW_SRC.ref_sel (e : Nat) : Fld := ⟨0x8008 + 0x200 * e, 30, 2, lawSrcRst e⟩
def LAW_SRC.ref_idx (e : Nat) : Fld := ⟨0x8008 + 0x200 * e, 24, 5, lawSrcRst e⟩
def LAW_SRC.fb_sel (e : Nat) : Fld := ⟨0x8008 + 0x200 * e, 8, 2, lawSrcRst e⟩
def LAW_SRC.fb_idx (e : Nat) : Fld := ⟨0x8008 + 0x200 * e, 0, 8, lawSrcRst e⟩
def LAW_DST.dest_sel (e : Nat) : Fld := ⟨0x800C + 0x200 * e, 4, 2, lawDstRst e⟩
def LAW_DST.dest_idx (e : Nat) : Fld := ⟨0x800C + 0x200 * e, 0, 3, lawDstRst e⟩
def LAW_LIM.out_hi (e : Nat) : Fld := ⟨0x8010 + 0x200 * e, 16, 16, 0x7FFF8000⟩
def LAW_LIM.out_lo (e : Nat) : Fld := ⟨0x8010 + 0x200 * e, 0, 16, 0x7FFF8000⟩
def LAW_REF.ref (e : Nat) : Fld := ⟨0x8014 + 0x200 * e, 0, 16, 0x0⟩
def LAW_STAT.dly_sat (e : Nat) : Fld := ⟨0x8028 + 0x200 * e, 8, 1, 0⟩
def LAW_STAT.snap_done (e : Nat) : Fld := ⟨0x8028 + 0x200 * e, 7, 1, 0⟩
def LAW_STAT.trk_mis (e : Nat) : Fld := ⟨0x8028 + 0x200 * e, 6, 1, 0⟩
def LAW_STAT.skip (e : Nat) : Fld := ⟨0x8028 + 0x200 * e, 5, 1, 0⟩
def LAW_STAT.sec_sat (e : Nat) : Fld := ⟨0x8028 + 0x200 * e, 4, 1, 0⟩
def LAW_STAT.fb_ovr (e : Nat) : Fld := ⟨0x8028 + 0x200 * e, 3, 1, 0⟩
def LAW_STAT.preset (e : Nat) : Fld := ⟨0x8028 + 0x200 * e, 2, 1, 0⟩
def LAW_TRK.trk_tol (e : Nat) : Fld := ⟨0x8030 + 0x200 * e, 0, 16, 0x100⟩
def LAW_COMMIT.err : Fld := ⟨0xA800, 31, 1, 0⟩
def LAW_COMMIT.wdrop : Fld := ⟨0xA800, 30, 1, 0⟩
def SCH_CTL.lim_hold (e : Nat) : Fld := ⟨0xC000 + 0x80 * e, 11, 1, 0x0⟩
def SCH_CTL.force_region (e : Nat) : Fld := ⟨0xC000 + 0x80 * e, 8, 3, 0x0⟩
def SCH_CTL.force_en (e : Nat) : Fld := ⟨0xC000 + 0x80 * e, 7, 1, 0x0⟩
def SCH_CTL.nreg_m1 (e : Nat) : Fld := ⟨0xC000 + 0x80 * e, 4, 3, 0x0⟩
def SCH_CTL.en (e : Nat) : Fld := ⟨0xC000 + 0x80 * e, 0, 1, 0x0⟩
def SCH_VAR.var_sel (e : Nat) : Fld := ⟨0xC004 + 0x80 * e, 16, 3, 0x0⟩
def SCH_VAR.var_idx (e : Nat) : Fld := ⟨0xC004 + 0x80 * e, 8, 6, 0x0⟩
def SCH_VAR.fshift (e : Nat) : Fld := ⟨0xC004 + 0x80 * e, 0, 3, 0x0⟩
def SCH_XF.len_m1 (e : Nat) : Fld := ⟨0xC008 + 0x80 * e, 0, 6, 0x7⟩
def SCH_FE_CFG.fe_act (e : Nat) : Fld := ⟨0xC00C + 0x80 * e, 16, 3, 0x17FFF⟩
def SCH_FE_CFG.fe_lim (e : Nat) : Fld := ⟨0xC00C + 0x80 * e, 0, 16, 0x17FFF⟩
def SCH_FE_TIM.fe_blank (e : Nat) : Fld := ⟨0xC010 + 0x80 * e, 16, 8, 0x100000⟩
def SCH_FE_TIM.fe_cnt (e : Nat) : Fld := ⟨0xC010 + 0x80 * e, 0, 16, 0x100000⟩
def SCH_FE_STAT.fe (e : Nat) : Fld := ⟨0xC01C + 0x80 * e, 31, 1, 0⟩
def SCH_BND0.up (e : Nat) : Fld := ⟨0xC040 + 0x80 * e, 16, 16, 0x0⟩
def SCH_BND0.dn (e : Nat) : Fld := ⟨0xC040 + 0x80 * e, 0, 16, 0x0⟩
def SCH_BND1.up (e : Nat) : Fld := ⟨0xC044 + 0x80 * e, 16, 16, 0x0⟩
def SCH_BND1.dn (e : Nat) : Fld := ⟨0xC044 + 0x80 * e, 0, 16, 0x0⟩
def SCH_BND2.up (e : Nat) : Fld := ⟨0xC048 + 0x80 * e, 16, 16, 0x0⟩
def SCH_BND2.dn (e : Nat) : Fld := ⟨0xC048 + 0x80 * e, 0, 16, 0x0⟩
def SCH_BND3.up (e : Nat) : Fld := ⟨0xC04C + 0x80 * e, 16, 16, 0x0⟩
def SCH_BND3.dn (e : Nat) : Fld := ⟨0xC04C + 0x80 * e, 0, 16, 0x0⟩
def SCH_BND4.up (e : Nat) : Fld := ⟨0xC050 + 0x80 * e, 16, 16, 0x0⟩
def SCH_BND4.dn (e : Nat) : Fld := ⟨0xC050 + 0x80 * e, 0, 16, 0x0⟩
def SCH_BND5.up (e : Nat) : Fld := ⟨0xC054 + 0x80 * e, 16, 16, 0x0⟩
def SCH_BND5.dn (e : Nat) : Fld := ⟨0xC054 + 0x80 * e, 0, 16, 0x0⟩
def SCH_BND6.up (e : Nat) : Fld := ⟨0xC058 + 0x80 * e, 16, 16, 0x0⟩
def SCH_BND6.dn (e : Nat) : Fld := ⟨0xC058 + 0x80 * e, 0, 16, 0x0⟩
def PWM_PH_CFG.asg (e : Nat) : Fld := ⟨0x10000 + 0x100 * e, 31, 1, 0x0⟩
def PWM_PH_CFG.rail (e : Nat) : Fld := ⟨0x10000 + 0x100 * e, 0, 3, 0x0⟩
def PWM_PH_DT.dtf (e : Nat) : Fld := ⟨0x10004 + 0x100 * e, 16, 12, 0x1400140⟩
def PWM_PH_DT.dtr (e : Nat) : Fld := ⟨0x10004 + 0x100 * e, 0, 12, 0x1400140⟩
def PWM_PH_STAT.drop (e : Nat) : Fld := ⟨0x10008 + 0x100 * e, 3, 1, 0⟩
def PWM_PH_STAT.cbc (e : Nat) : Fld := ⟨0x10008 + 0x100 * e, 2, 1, 0⟩
def PWM_PH_STAT.open (e : Nat) : Fld := ⟨0x10008 + 0x100 * e, 1, 1, 0⟩
def PWM_PH_STAT.sense (e : Nat) : Fld := ⟨0x10008 + 0x100 * e, 0, 1, 0⟩
def PWM_SYNC_CFG.in_en : Fld := ⟨0x11800, 31, 1, 0x50A⟩
def PWM_SYNC_CFG.out_en : Fld := ⟨0x11800, 30, 1, 0x50A⟩
def PWM_SYNC_CFG.out_rail : Fld := ⟨0x11800, 27, 3, 0x50A⟩
def PWM_SYNC_CFG.win : Fld := ⟨0x11800, 8, 5, 0x50A⟩
def PWM_SYNC_CFG.slew : Fld := ⟨0x11800, 0, 6, 0x50A⟩
def PWM_SYNC_NOM.nom : Fld := ⟨0x11804, 0, 21, 0x1F400⟩
def PWM_SYNC_STAT.acq : Fld := ⟨0x11808, 1, 1, 0⟩
def PWM_SYNC_STAT.lost : Fld := ⟨0x11808, 0, 1, 0⟩
def RAIL_CTL.pause (e : Nat) : Fld := ⟨0x12000 + 0x200 * e, 1, 1, 0x1⟩
def RAIL_CTL.en (e : Nat) : Fld := ⟨0x12000 + 0x200 * e, 0, 1, 0x1⟩
def RAIL_CFG.mode (e : Nat) : Fld := ⟨0x12004 + 0x200 * e, 30, 2, 0x10A0000⟩
def RAIL_CFG.type (e : Nat) : Fld := ⟨0x12004 + 0x200 * e, 29, 1, 0x10A0000⟩
def RAIL_CFG.soft_stop (e : Nat) : Fld := ⟨0x12004 + 0x200 * e, 28, 1, 0x10A0000⟩
def RAIL_CFG.shed_en (e : Nat) : Fld := ⟨0x12004 + 0x200 * e, 27, 1, 0x10A0000⟩
def RAIL_CFG.min_ph (e : Nat) : Fld := ⟨0x12004 + 0x200 * e, 24, 3, 0x10A0000⟩
def RAIL_CFG.min_pulse (e : Nat) : Fld := ⟨0x12004 + 0x200 * e, 16, 8, 0x10A0000⟩
def RAIL_PER.per (e : Nat) : Fld := ⟨0x12008 + 0x200 * e, 0, 21, 0x1F400⟩
def RAIL_SYNC.sync_en (e : Nat) : Fld := ⟨0x1200C + 0x200 * e, 31, 1, 0x0⟩
def RAIL_SYNC.num_m1 (e : Nat) : Fld := ⟨0x1200C + 0x200 * e, 24, 4, 0x0⟩
def RAIL_SYNC.den_m1 (e : Nat) : Fld := ⟨0x1200C + 0x200 * e, 16, 4, 0x0⟩
def RAIL_SYNC.sync_ph (e : Nat) : Fld := ⟨0x1200C + 0x200 * e, 0, 16, 0x0⟩
def RAIL_VREF.target (e : Nat) : Fld := ⟨0x12010 + 0x200 * e, 0, 16, 0x0⟩
def RAIL_SS.retries (e : Nat) : Fld := ⟨0x12014 + 0x200 * e, 28, 3, 0x400003E8⟩
def RAIL_SS.ss_us (e : Nat) : Fld := ⟨0x12014 + 0x200 * e, 0, 20, 0x400003E8⟩
def RAIL_SSFE.fe_time (e : Nat) : Fld := ⟨0x12018 + 0x200 * e, 16, 16, 0xC80400⟩
def RAIL_SSFE.fe (e : Nat) : Fld := ⟨0x12018 + 0x200 * e, 0, 16, 0xC80400⟩
def RAIL_TRK.mode (e : Nat) : Fld := ⟨0x1201C + 0x200 * e, 30, 2, 0x4000⟩
def RAIL_TRK.src (e : Nat) : Fld := ⟨0x1201C + 0x200 * e, 29, 1, 0x4000⟩
def RAIL_TRK.leader (e : Nat) : Fld := ⟨0x1201C + 0x200 * e, 24, 3, 0x4000⟩
def RAIL_TRK.k (e : Nat) : Fld := ⟨0x1201C + 0x200 * e, 0, 16, 0x4000⟩
def RAIL_TRKMV.mv (e : Nat) : Fld := ⟨0x12020 + 0x200 * e, 0, 32, 0x0⟩
def RAIL_SHED.add_lvl (e : Nat) : Fld := ⟨0x12024 + 0x200 * e, 16, 16, 0x7FFF0000⟩
def RAIL_SHED.shed_lvl (e : Nat) : Fld := ⟨0x12024 + 0x200 * e, 0, 16, 0x7FFF0000⟩
def RAIL_DWELL.shed_dwell (e : Nat) : Fld := ⟨0x12028 + 0x200 * e, 16, 16, 0x3E80144⟩
def RAIL_DWELL.add_dwell (e : Nat) : Fld := ⟨0x12028 + 0x200 * e, 4, 12, 0x3E80144⟩
def RAIL_DWELL.ishift (e : Nat) : Fld := ⟨0x12028 + 0x200 * e, 0, 4, 0x3E80144⟩
def RAIL_ILIM.derate (e : Nat) : Fld := ⟨0x1202C + 0x200 * e, 16, 16, 0x40007FFF⟩
def RAIL_ILIM.ph_max (e : Nat) : Fld := ⟨0x1202C + 0x200 * e, 0, 16, 0x40007FFF⟩
def RAIL_PHF.ph_time (e : Nat) : Fld := ⟨0x12030 + 0x200 * e, 16, 16, 0x647FFF⟩
def RAIL_PHF.ph_dev (e : Nat) : Fld := ⟨0x12030 + 0x200 * e, 0, 16, 0x647FFF⟩
def RAIL_SNSF.stuck_cnt (e : Nat) : Fld := ⟨0x12034 + 0x200 * e, 24, 8, 0x40004000⟩
def RAIL_SNSF.sum_mask (e : Nat) : Fld := ⟨0x12034 + 0x200 * e, 16, 8, 0x40004000⟩
def RAIL_SNSF.sum_n (e : Nat) : Fld := ⟨0x12034 + 0x200 * e, 12, 4, 0x40004000⟩
def RAIL_SUMTOL.tol (e : Nat) : Fld := ⟨0x12038 + 0x200 * e, 0, 32, 0x7D0⟩
def RAIL_BAL.bal_en (e : Nat) : Fld := ⟨0x1203C + 0x200 * e, 31, 1, 0x6000400⟩
def RAIL_BAL.shift (e : Nat) : Fld := ⟨0x1203C + 0x200 * e, 24, 4, 0x6000400⟩
def RAIL_BAL.trim_max (e : Nat) : Fld := ⟨0x1203C + 0x200 * e, 0, 16, 0x6000400⟩
def RAIL_STAT.short (e : Nat) : Fld := ⟨0x12040 + 0x200 * e, 2, 1, 0⟩
def RAIL_STAT.phfault (e : Nat) : Fld := ⟨0x12040 + 0x200 * e, 1, 1, 0⟩
def RAIL_STAT.capseen (e : Nat) : Fld := ⟨0x12040 + 0x200 * e, 0, 1, 0⟩
def HBX_CTL.view : Fld := ⟨0x14000, 5, 1, 0x0⟩
def HBX_CTL.cap_en : Fld := ⟨0x14000, 4, 1, 0x0⟩
def HBX_CTL.en : Fld := ⟨0x14000, 0, 1, 0x0⟩
def HBX_STAT.late : Fld := ⟨0x14004, 4, 1, 0⟩
def HBX_STAT.deficit : Fld := ⟨0x14004, 3, 1, 0⟩
def HBX_STAT.surplus : Fld := ⟨0x14004, 2, 1, 0⟩
def HBX_STAT.capmin : Fld := ⟨0x14004, 1, 1, 0⟩
def HBX_STAT.derate : Fld := ⟨0x14004, 0, 1, 0⟩
def HBX_COMMIT.err : Fld := ⟨0x14008, 31, 1, 0⟩
def HBX_COMMIT.wdrop : Fld := ⟨0x14008, 30, 1, 0⟩
def HBX_PERIOD.ticks : Fld := ⟨0x14010, 0, 4, 0x1⟩
def HBX_RANGE.exp : Fld := ⟨0x14014, 0, 4, 0x0⟩
def HBX_DFS.dfs : Fld := ⟨0x14018, 0, 32, 0x0⟩
def HBX_DERATE.k : Fld := ⟨0x1401C, 0, 16, 0x6000⟩
def HBX_FCAP.fcap : Fld := ⟨0x14020, 0, 32, 0x0⟩
def HBX_VNOM.vnom : Fld := ⟨0x14024, 0, 32, 0x0⟩
def HBX_FCFS.fcfs : Fld := ⟨0x14028, 0, 32, 0x0⟩
def HBX_SRC_CFG.en (e : Nat) : Fld := ⟨0x14400 + 0x40 * e, 31, 1, 0x0⟩
def HBX_SRC_CFG.grp (e : Nat) : Fld := ⟨0x14400 + 0x40 * e, 24, 2, 0x0⟩
def HBX_SRC_CFG.nseg_m1 (e : Nat) : Fld := ⟨0x14400 + 0x40 * e, 16, 3, 0x0⟩
def HBX_SRC_MIN.min (e : Nat) : Fld := ⟨0x14404 + 0x40 * e, 0, 32, 0x0⟩
def HBX_SRC_MAX.max (e : Nat) : Fld := ⟨0x14408 + 0x40 * e, 0, 32, 0x0⟩
def HBX_SRC_X0.x0 (e : Nat) : Fld := ⟨0x1440C + 0x40 * e, 0, 32, 0x0⟩
def HBX_SRC_RAMP.ramp (e : Nat) : Fld := ⟨0x14410 + 0x40 * e, 0, 24, 0xFFFFFF⟩
def DKL_CTL.en : Fld := ⟨0x15000, 0, 1, 0x0⟩
def DKL_MARGIN.margin : Fld := ⟨0x15008, 0, 32, 0x3E8⟩
def DKL_SETTLE.ticks : Fld := ⟨0x1500C, 0, 8, 0x4⟩
def DKL_REL.rate : Fld := ⟨0x15010, 0, 24, 0x64⟩
def DKL_SHED.cls : Fld := ⟨0x15014, 16, 3, 0x2000⟩
def DKL_SHED.k : Fld := ⟨0x15014, 0, 16, 0x2000⟩
def DKL_FPFS.fpfs : Fld := ⟨0x15018, 0, 32, 0x0⟩
def DKL_FEFF.feff : Fld := ⟨0x1501C, 0, 16, 0x7AE1⟩
def DKL_LD_CFG.en (e : Nat) : Fld := ⟨0x15400 + 0x20 * e, 31, 1, 0x0⟩
def DKL_LD_CFG.feed (e : Nat) : Fld := ⟨0x15400 + 0x20 * e, 16, 4, 0x0⟩
def DKL_LD_CFG.cls (e : Nat) : Fld := ⟨0x15400 + 0x20 * e, 0, 3, 0x0⟩
def DKL_LD_FLOOR.floor (e : Nat) : Fld := ⟨0x15404 + 0x20 * e, 0, 32, 0x0⟩
def VAT_CFG.en : Fld := ⟨0x16000, 31, 1, 0x604⟩
def VAT_CFG.pshift : Fld := ⟨0x16000, 8, 4, 0x604⟩
def VAT_CFG.vrail : Fld := ⟨0x16000, 0, 3, 0x604⟩
def VAT_C.c : Fld := ⟨0x16004, 0, 32, 0x0⟩
def VAT_VMIN.vmin : Fld := ⟨0x16008, 0, 32, 0x0⟩
def VAT_VMAX.vmax : Fld := ⟨0x1600C, 0, 32, 0x0⟩
def VAT_TAPER.taper : Fld := ⟨0x16010, 0, 32, 0x7D0⟩
def VAT_IDIS.idis : Fld := ⟨0x16014, 0, 32, 0x0⟩
def VAT_ICHG.ichg : Fld := ⟨0x16018, 0, 32, 0x0⟩
def VAT_ADD.add (e : Nat) : Fld := ⟨0x16020 + 0x4 * e, 0, 32, 0x0⟩
def VAT_EFF.eff : Fld := ⟨0x16034, 0, 16, 0x799A⟩
def VAT_PFLOOR.pfloor : Fld := ⟨0x16038, 0, 32, 0xF4240⟩
def VAT_TWARN.twarn : Fld := ⟨0x1603C, 0, 32, 0x927C0⟩
def VAT_HU.exit_pct : Fld := ⟨0x16040, 24, 8, 0x5A3203E8⟩
def VAT_HU.enter_pct : Fld := ⟨0x16040, 16, 8, 0x5A3203E8⟩
def VAT_HU.exit_ms : Fld := ⟨0x16040, 0, 16, 0x5A3203E8⟩
def VAT_WALK.rate : Fld := ⟨0x16044, 0, 24, 0xFFFFFF⟩
def VAT_STAT.twarn : Fld := ⟨0x160A4, 3, 1, 0⟩
def VAT_STAT.over : Fld := ⟨0x160A4, 2, 1, 0⟩
def VAT_STAT.hu_out : Fld := ⟨0x160A4, 1, 1, 0⟩
def VAT_STAT.hu_in : Fld := ⟨0x160A4, 0, 1, 0⟩
def BAT_CTL.close (e : Nat) : Fld := ⟨0x17000 + 0x200 * e, 1, 1, 0x0⟩
def BAT_CTL.en (e : Nat) : Fld := ⟨0x17000 + 0x200 * e, 0, 1, 0x0⟩
def BAT_CFG.cgpio_en (e : Nat) : Fld := ⟨0x17004 + 0x200 * e, 31, 1, 0x2⟩
def BAT_CFG.cgpio (e : Nat) : Fld := ⟨0x17004 + 0x200 * e, 24, 4, 0x2⟩
def BAT_CFG.rail_en (e : Nat) : Fld := ⟨0x17004 + 0x200 * e, 11, 1, 0x2⟩
def BAT_CFG.rail (e : Nat) : Fld := ⟨0x17004 + 0x200 * e, 8, 3, 0x2⟩
def BAT_CFG.pres_src (e : Nat) : Fld := ⟨0x17004 + 0x200 * e, 0, 2, 0x2⟩
def BAT_CAPNOM.mah (e : Nat) : Fld := ⟨0x17008 + 0x200 * e, 0, 32, 0x0⟩
def BAT_NTC_R25.r25 (e : Nat) : Fld := ⟨0x1700C + 0x200 * e, 0, 32, 0x2710⟩
def BAT_NTC.beta (e : Nat) : Fld := ⟨0x17010 + 0x200 * e, 16, 16, 0xD6B03E8⟩
def BAT_NTC.rpu (e : Nat) : Fld := ⟨0x17010 + 0x200 * e, 0, 16, 0xD6B03E8⟩
def BAT_VEOD.mv (e : Nat) : Fld := ⟨0x17014 + 0x200 * e, 0, 32, 0x0⟩
def BAT_VEOC.mv (e : Nat) : Fld := ⟨0x17018 + 0x200 * e, 0, 32, 0x0⟩
def BAT_VBAND.taper (e : Nat) : Fld := ⟨0x1701C + 0x200 * e, 16, 16, 0x7D003E8⟩
def BAT_VBAND.hys (e : Nat) : Fld := ⟨0x1701C + 0x200 * e, 0, 16, 0x7D003E8⟩
def BAT_IDIS.ma (e : Nat) : Fld := ⟨0x17020 + 0x200 * e, 0, 32, 0x0⟩
def BAT_ICHG.ma (e : Nat) : Fld := ⟨0x17024 + 0x200 * e, 0, 32, 0x0⟩
def BAT_IFLOAT.ma (e : Nat) : Fld := ⟨0x17028 + 0x200 * e, 0, 32, 0x0⟩
def BAT_TLIM.dis_hi (e : Nat) : Fld := ⟨0x1702C + 0x200 * e, 24, 8, 0x3CEC2D00⟩
def BAT_TLIM.dis_lo (e : Nat) : Fld := ⟨0x1702C + 0x200 * e, 16, 8, 0x3CEC2D00⟩
def BAT_TLIM.chg_hi (e : Nat) : Fld := ⟨0x1702C + 0x200 * e, 8, 8, 0x3CEC2D00⟩
def BAT_TLIM.chg_lo (e : Nat) : Fld := ⟨0x1702C + 0x200 * e, 0, 8, 0x3CEC2D00⟩
def BAT_EFF.eff (e : Nat) : Fld := ⟨0x17030 + 0x200 * e, 0, 16, 0x7D71⟩
def BAT_QP.qp (e : Nat) : Fld := ⟨0x17034 + 0x200 * e, 0, 32, 0x64⟩
def BAT_PINIT.pinit (e : Nat) : Fld := ⟨0x17038 + 0x200 * e, 0, 32, 0x17D7840⟩
def BAT_RV.r0 (e : Nat) : Fld := ⟨0x1703C + 0x200 * e, 16, 16, 0x190020A⟩
def BAT_RV.kd (e : Nat) : Fld := ⟨0x1703C + 0x200 * e, 8, 8, 0x190020A⟩
def BAT_RV.ka (e : Nat) : Fld := ⟨0x1703C + 0x200 * e, 0, 8, 0x190020A⟩
def BAT_ANC.rmax (e : Nat) : Fld := ⟨0x17040 + 0x200 * e, 16, 16, 0x271002D0⟩
def BAT_ANC.unanch_max (e : Nat) : Fld := ⟨0x17040 + 0x200 * e, 0, 16, 0x271002D0⟩
def BAT_LRN.step_min (e : Nat) : Fld := ⟨0x17044 + 0x200 * e, 16, 16, 0x13880304⟩
def BAT_LRN.lshift (e : Nat) : Fld := ⟨0x17044 + 0x200 * e, 8, 3, 0x13880304⟩
def BAT_LRN.plaus (e : Nat) : Fld := ⟨0x17044 + 0x200 * e, 0, 4, 0x13880304⟩
def BAT_IDCHK.irest (e : Nat) : Fld := ⟨0x17048 + 0x200 * e, 16, 16, 0x7D007D0⟩
def BAT_IDCHK.mism (e : Nat) : Fld := ⟨0x17048 + 0x200 * e, 0, 16, 0x7D007D0⟩
def BAT_CAPLIM.step (e : Nat) : Fld := ⟨0x1704C + 0x200 * e, 24, 8, 0x5327800⟩
def BAT_CAPLIM.min (e : Nat) : Fld := ⟨0x1704C + 0x200 * e, 16, 8, 0x5327800⟩
def BAT_CAPLIM.max (e : Nat) : Fld := ⟨0x1704C + 0x200 * e, 8, 8, 0x5327800⟩
def BAT_STAT.capupd (e : Nat) : Fld := ⟨0x17080 + 0x200 * e, 7, 1, 0⟩
def BAT_STAT.mism (e : Nat) : Fld := ⟨0x17080 + 0x200 * e, 6, 1, 0⟩
def BAT_STAT.conflict (e : Nat) : Fld := ⟨0x17080 + 0x200 * e, 5, 1, 0⟩
def BAT_STAT.guard (e : Nat) : Fld := ⟨0x17080 + 0x200 * e, 4, 1, 0⟩
def BAT_STAT.swap (e : Nat) : Fld := ⟨0x17080 + 0x200 * e, 3, 1, 0⟩
def BAT_STAT.removed (e : Nat) : Fld := ⟨0x17080 + 0x200 * e, 2, 1, 0⟩
def BAT_STAT.inserted (e : Nat) : Fld := ⟨0x17080 + 0x200 * e, 1, 1, 0⟩
def BAT_STAT.anchor (e : Nat) : Fld := ⟨0x17080 + 0x200 * e, 0, 1, 0⟩
def SLT_CTL.seq_en (e : Nat) : Fld := ⟨0x18000 + 0x100 * e, 3, 1, 0x0⟩
def SLT_CTL.ident (e : Nat) : Fld := ⟨0x18000 + 0x100 * e, 2, 1, 0x0⟩
def SLT_CTL.soft (e : Nat) : Fld := ⟨0x18000 + 0x100 * e, 1, 1, 0x0⟩
def SLT_CTL.on (e : Nat) : Fld := ⟨0x18000 + 0x100 * e, 0, 1, 0x0⟩
def SLT_CFG.en (e : Nat) : Fld := ⟨0x18004 + 0x100 * e, 31, 1, 0xA04⟩
def SLT_CFG.tx_inv (e : Nat) : Fld := ⟨0x18004 + 0x100 * e, 30, 1, 0xA04⟩
def SLT_CFG.rx_inv (e : Nat) : Fld := ⟨0x18004 + 0x100 * e, 29, 1, 0xA04⟩
def SLT_CFG.exp_kind (e : Nat) : Fld := ⟨0x18004 + 0x100 * e, 16, 4, 0xA04⟩
def SLT_CFG.mb_to (e : Nat) : Fld := ⟨0x18004 + 0x100 * e, 8, 8, 0xA04⟩
def SLT_CFG.hold (e : Nat) : Fld := ⟨0x18004 + 0x100 * e, 0, 4, 0xA04⟩
def SLT_STAT.alert (e : Nat) : Fld := ⟨0x18008 + 0x100 * e, 7, 1, 0⟩
def SLT_STAT.mberr (e : Nat) : Fld := ⟨0x18008 + 0x100 * e, 6, 1, 0⟩
def SLT_STAT.late (e : Nat) : Fld := ⟨0x18008 + 0x100 * e, 5, 1, 0⟩
def SLT_STAT.crc (e : Nat) : Fld := ⟨0x18008 + 0x100 * e, 4, 1, 0⟩
def SLT_STAT.decl (e : Nat) : Fld := ⟨0x18008 + 0x100 * e, 3, 1, 0⟩
def SLT_STAT.lost (e : Nat) : Fld := ⟨0x18008 + 0x100 * e, 2, 1, 0⟩
def SLT_STAT.up (e : Nat) : Fld := ⟨0x18008 + 0x100 * e, 1, 1, 0⟩
def RED_CTL.degrade : Fld := ⟨0x1A000, 0, 1, 0x0⟩
def RED_STAT.peer_hi : Fld := ⟨0x1A004, 7, 1, 0⟩
def RED_STAT.take_ign : Fld := ⟨0x1A004, 6, 1, 0⟩
def RED_STAT.conflict : Fld := ⟨0x1A004, 5, 1, 0⟩
def RED_STAT.xmis : Fld := ⟨0x1A004, 4, 1, 0⟩
def RED_STAT.snaperr : Fld := ⟨0x1A004, 3, 1, 0⟩
def RED_STAT.resync : Fld := ⟨0x1A004, 2, 1, 0⟩
def RED_STAT.took : Fld := ⟨0x1A004, 1, 1, 0⟩
def RED_STAT.demote : Fld := ⟨0x1A004, 0, 1, 0⟩
def RED_HB.fw_ms : Fld := ⟨0x1A00C, 0, 16, 0xA⟩
def RED_SBY.keep_ms : Fld := ⟨0x1A014, 16, 8, 0x10064⟩
def RED_SBY.ready_n : Fld := ⟨0x1A014, 0, 16, 0x10064⟩
def RED_XCHK.stol : Fld := ⟨0x1A018, 16, 16, 0x2000800⟩
def RED_XCHK.n : Fld := ⟨0x1A018, 8, 8, 0x2000800⟩
def RED_ATOL.atol : Fld := ⟨0x1A01C, 0, 32, 0x1388⟩
def RED_DRILL.days : Fld := ⟨0x1A020, 16, 16, 0x3E8⟩
def RED_DRILL.fb_ms : Fld := ⟨0x1A020, 0, 16, 0x3E8⟩
def RED_XMASK0.mask : Fld := ⟨0x1A040, 0, 32, 0⟩
def RED_XMASK1.mask : Fld := ⟨0x1A044, 0, 12, 0⟩
def RED_ARB.deg_take : Fld := ⟨0x1A080, 31, 1, 0x80000064⟩
def RED_ARB.hold_us : Fld := ⟨0x1A080, 0, 16, 0x80000064⟩
def SEQ_CFG.auto_go : Fld := ⟨0x1B004, 31, 1, 0xC0000004⟩
def SEQ_CFG.auto_rs : Fld := ⟨0x1B004, 30, 1, 0xC0000004⟩
def SEQ_CFG.chatter_max : Fld := ⟨0x1B004, 0, 4, 0xC0000004⟩
def SEQ_RSDLY.ms : Fld := ⟨0x1B00C, 0, 16, 0x7D0⟩
def SEQ_HUSTOP.ms : Fld := ⟨0x1B010, 0, 32, 0x0⟩
def SEQ_TRIPMAP.map : Fld := ⟨0x1B014, 0, 8, 0x0⟩
def SEQ_N_CFG.en (e : Nat) : Fld := ⟨0x1B200 + 0x30 * e, 31, 1, (if 64 ≤ e then 0x300002 else 0x2)⟩
def SEQ_N_CFG.fail_act (e : Nat) : Fld := ⟨0x1B200 + 0x30 * e, 24, 2, (if 64 ≤ e then 0x300002 else 0x2)⟩
def SEQ_N_CFG.kind (e : Nat) : Fld := ⟨0x1B200 + 0x30 * e, 20, 2, (if 64 ≤ e then 0x300002 else 0x2)⟩
def SEQ_N_CFG.en_idx (e : Nat) : Fld := ⟨0x1B200 + 0x30 * e, 8, 5, (if 64 ≤ e then 0x300002 else 0x2)⟩
def SEQ_N_CFG.dbc (e : Nat) : Fld := ⟨0x1B200 + 0x30 * e, 0, 4, (if 64 ≤ e then 0x300002 else 0x2)⟩
def SEQ_N_UP.mv (e : Nat) : Fld := ⟨0x1B204 + 0x30 * e, 0, 32, 0x0⟩
def SEQ_N_DN.mv (e : Nat) : Fld := ⟨0x1B208 + 0x30 * e, 0, 32, 0x0⟩
def SEQ_N_OFF.mv (e : Nat) : Fld := ⟨0x1B20C + 0x30 * e, 0, 32, 0x0⟩
def SEQ_N_TIM.rise_to (e : Nat) : Fld := ⟨0x1B210 + 0x30 * e, 16, 16, 0x6403E8⟩
def SEQ_N_TIM.settle_us (e : Nat) : Fld := ⟨0x1B210 + 0x30 * e, 0, 16, 0x6403E8⟩
def SEQ_N_DLY.on_dly (e : Nat) : Fld := ⟨0x1B214 + 0x30 * e, 16, 16, 0x0⟩
def SEQ_N_DLY.off_dly (e : Nat) : Fld := ⟨0x1B214 + 0x30 * e, 0, 16, 0x0⟩
def SEQ_N_FALL.fall_hold (e : Nat) : Fld := ⟨0x1B218 + 0x30 * e, 31, 1, 0x3E8⟩
def SEQ_N_FALL.fall_to (e : Nat) : Fld := ⟨0x1B218 + 0x30 * e, 0, 16, 0x3E8⟩
def SEQ_N_STAT.stuck (e : Nat) : Fld := ⟨0x1B21C + 0x30 * e, 1, 1, 0⟩
def SEQ_N_STAT.fail (e : Nat) : Fld := ⟨0x1B21C + 0x30 * e, 0, 1, 0⟩
def SEQ_N_DEP0.dep (e : Nat) : Fld := ⟨0x1B220 + 0x30 * e, 0, 32, 0x0⟩
def SEQ_N_DEP1.dep (e : Nat) : Fld := ⟨0x1B224 + 0x30 * e, 0, 32, 0x0⟩
def SEQ_N_DEP2.dep (e : Nat) : Fld := ⟨0x1B228 + 0x30 * e, 0, 8, 0x0⟩
def THM_CTL.en : Fld := ⟨0x1C000, 0, 1, 0x1⟩
def THM_STAT.sd_seen : Fld := ⟨0x1C004, 3, 1, 0⟩
def THM_SDMAP.map : Fld := ⟨0x1C010, 0, 8, 0x0⟩
def THM_S_CFG.en (e : Nat) : Fld := ⟨0x1C100 + 0x20 * e, 31, 1, (if e < 32 then 0x80012020 else 0x12020)⟩
def THM_S_CFG.hot (e : Nat) : Fld := ⟨0x1C100 + 0x20 * e, 30, 1, (if e < 32 then 0x80012020 else 0x12020)⟩
def THM_S_CFG.src (e : Nat) : Fld := ⟨0x1C100 + 0x20 * e, 28, 2, (if e < 32 then 0x80012020 else 0x12020)⟩
def THM_S_CFG.slot (e : Nat) : Fld := ⟨0x1C100 + 0x20 * e, 23, 5, (if e < 32 then 0x80012020 else 0x12020)⟩
def THM_S_CFG.rail_en (e : Nat) : Fld := ⟨0x1C100 + 0x20 * e, 22, 1, (if e < 32 then 0x80012020 else 0x12020)⟩
def THM_S_CFG.rail (e : Nat) : Fld := ⟨0x1C100 + 0x20 * e, 19, 3, (if e < 32 then 0x80012020 else 0x12020)⟩
def THM_S_CFG.trip_act (e : Nat) : Fld := ⟨0x1C100 + 0x20 * e, 16, 3, (if e < 32 then 0x80012020 else 0x12020)⟩
def THM_S_CFG.roc_act (e : Nat) : Fld := ⟨0x1C100 + 0x20 * e, 13, 3, (if e < 32 then 0x80012020 else 0x12020)⟩
def THM_S_CFG.hys (e : Nat) : Fld := ⟨0x1C100 + 0x20 * e, 0, 8, (if e < 32 then 0x80012020 else 0x12020)⟩
def THM_S_LVL.trip (e : Nat) : Fld := ⟨0x1C104 + 0x20 * e, 16, 16, 0x7D006E0⟩
def THM_S_LVL.warn (e : Nat) : Fld := ⟨0x1C104 + 0x20 * e, 0, 16, 0x7D006E0⟩
def THM_S_ROC.roc_lim (e : Nat) : Fld := ⟨0x1C108 + 0x20 * e, 16, 16, 0xA⟩
def THM_S_ROC.win (e : Nat) : Fld := ⟨0x1C108 + 0x20 * e, 0, 6, 0xA⟩
def THM_S_STAT.roc_seen (e : Nat) : Fld := ⟨0x1C110 + 0x20 * e, 3, 1, 0⟩
def THM_S_STAT.brk_seen (e : Nat) : Fld := ⟨0x1C110 + 0x20 * e, 2, 1, 0⟩
def THM_S_STAT.trip_seen (e : Nat) : Fld := ⟨0x1C110 + 0x20 * e, 1, 1, 0⟩
def THM_S_STAT.warn_seen (e : Nat) : Fld := ⟨0x1C110 + 0x20 * e, 0, 1, 0⟩
def THM_S_DIO.nf (e : Nat) : Fld := ⟨0x1C11C + 0x20 * e, 0, 8, 0x60⟩
def BBX_CFG.trc_en : Fld := ⟨0x1D004, 31, 1, 0x83E80006⟩
def BBX_CFG.pf_seal : Fld := ⟨0x1D004, 30, 1, 0x83E80006⟩
def BBX_CFG.post_us : Fld := ⟨0x1D004, 16, 12, 0x83E80006⟩
def BBX_CFG.seal_sev : Fld := ⟨0x1D004, 0, 4, 0x83E80006⟩
def BBX_STAT.sealed : Fld := ⟨0x1D008, 7, 1, 0⟩
def BBX_STAT.seal_miss : Fld := ⟨0x1D008, 6, 1, 0⟩
def BBX_STAT.cleared : Fld := ⟨0x1D008, 5, 1, 0⟩
def BBX_STAT.released : Fld := ⟨0x1D008, 4, 1, 0⟩
def BBX_STAT.auth_fail : Fld := ⟨0x1D008, 3, 1, 0⟩
def BBX_STAT.suppressed : Fld := ⟨0x1D008, 2, 1, 0⟩
def BBX_STAT.restored : Fld := ⟨0x1D008, 1, 1, 0⟩
def BBX_PAGE.sel : Fld := ⟨0x1D00C, 0, 5, 0x0⟩
def BBX_OP.ream : Fld := ⟨0x1D01C, 8, 2, 0x0⟩
def BBX_OP.op : Fld := ⟨0x1D01C, 0, 3, 0x0⟩
def BBX_TRC_SEL.sel (e : Nat) : Fld := ⟨0x1D0C0 + 0x4 * e, 0, 32, 0xFFFFFFFF⟩
def BBX_SEVMAP.map (e : Nat) : Fld := ⟨0x1D200 + 0x4 * e, 0, 32, 0x22222222⟩
def UPD_CTL.owner_lock : Fld := ⟨0x1E000, 31, 1, 0x100⟩
def UPD_CTL.slot_par : Fld := ⟨0x1E000, 8, 3, 0x100⟩
def UPD_FLOOR.floor : Fld := ⟨0x1E00C, 0, 16, 0x1770⟩
def UPD_TRIAL.ms : Fld := ⟨0x1E010, 0, 32, 0xEA60⟩
def UPD_CHUNK.off : Fld := ⟨0x1E014, 0, 32, 0x0⟩
def UPD_BUF.buf (e : Nat) : Fld := ⟨0x1E800 + 0x4 * e, 0, 32, 0x0⟩
def HST_WB_LO.addr : Fld := ⟨0x1F010, 6, 26, 0x0⟩
def HST_WB_LO.en : Fld := ⟨0x1F010, 0, 1, 0x0⟩
def HST_WB_HI.addr : Fld := ⟨0x1F014, 0, 32, 0x0⟩
def HST_TEL.en : Fld := ⟨0x1F020, 31, 1, 0xC8⟩
def HST_TEL.period : Fld := ⟨0x1F020, 0, 16, 0xC8⟩
def HST_TRC.en : Fld := ⟨0x1F024, 31, 1, 0x1⟩
def HST_TRC.dec : Fld := ⟨0x1F024, 0, 10, 0x1⟩
def HST_TEL_SEL.valid (e : Nat) : Fld := ⟨0x1F040 + 0x4 * e, 31, 1, 0x0⟩
def HST_TEL_SEL.off (e : Nat) : Fld := ⟨0x1F040 + 0x4 * e, 2, 18, 0x0⟩
def HST_RING_BLO.addr (e : Nat) : Fld := ⟨0x1F100 + 0x20 * e, 6, 26, 0x0⟩
def HST_RING_BHI.addr (e : Nat) : Fld := ⟨0x1F104 + 0x20 * e, 0, 32, 0x0⟩
def HST_RING_CFG.en (e : Nat) : Fld := ⟨0x1F108 + 0x20 * e, 31, 1, 0x4⟩
def HST_RING_CFG.vec_en (e : Nat) : Fld := ⟨0x1F108 + 0x20 * e, 30, 1, 0x4⟩
def HST_RING_CFG.vec (e : Nat) : Fld := ⟨0x1F108 + 0x20 * e, 8, 6, 0x4⟩
def HST_RING_CFG.lsize (e : Nat) : Fld := ⟨0x1F108 + 0x20 * e, 0, 5, 0x4⟩
def TWP_CFG.en (e : Nat) : Fld := ⟨0x20000 + 0x100 * e, 31, 1, 0x250⟩
def TWP_CFG.role (e : Nat) : Fld := ⟨0x20000 + 0x100 * e, 30, 1, 0x250⟩
def TWP_CFG.speed (e : Nat) : Fld := ⟨0x20000 + 0x100 * e, 28, 2, 0x250⟩
def TWP_CFG.pec (e : Nat) : Fld := ⟨0x20000 + 0x100 * e, 27, 1, 0x250⟩
def TWP_CFG.att_en (e : Nat) : Fld := ⟨0x20000 + 0x100 * e, 26, 1, 0x250⟩
def TWP_CFG.att_len (e : Nat) : Fld := ⟨0x20000 + 0x100 * e, 8, 6, 0x250⟩
def TWP_CFG.taddr (e : Nat) : Fld := ⟨0x20000 + 0x100 * e, 0, 7, 0x250⟩
def TWP_CTL.attn (e : Nat) : Fld := ⟨0x20004 + 0x100 * e, 0, 1, 0x0⟩
def TWP_TIM.att_us (e : Nat) : Fld := ⟨0x20008 + 0x100 * e, 16, 10, 0x320019⟩
def TWP_TIM.to_ms (e : Nat) : Fld := ⟨0x20008 + 0x100 * e, 0, 6, 0x320019⟩
def TWP_XFER.addr (e : Nat) : Fld := ⟨0x2000C + 0x100 * e, 16, 7, 0x0⟩
def TWP_XFER.rlen (e : Nat) : Fld := ⟨0x2000C + 0x100 * e, 8, 6, 0x0⟩
def TWP_XFER.wlen (e : Nat) : Fld := ⟨0x2000C + 0x100 * e, 0, 6, 0x0⟩
def TWP_STAT.rx (e : Nat) : Fld := ⟨0x20010 + 0x100 * e, 2, 1, 0⟩
def TWP_STAT.att (e : Nat) : Fld := ⟨0x20010 + 0x100 * e, 1, 1, 0⟩
def TWP_STAT.done (e : Nat) : Fld := ⟨0x20010 + 0x100 * e, 0, 1, 0⟩
def TWP_DATA.data (e : Nat) (k : Nat) : Fld := ⟨0x20020 + 0x100 * e + 4 * k, 0, 32, 0x0⟩
def TWP_TTX.ttx (e : Nat) (k : Nat) : Fld := ⟨0x20080 + 0x100 * e + 4 * k, 0, 32, 0x0⟩

end F

end Sys2Proof.Machine
end

