-- ==== Sys2Proof/Machine/Flags.lean ====
section
/-! DEFINITION. Flags and counters: register fields as the blocks read and write them, W1C bits (00_scope R4), saturating
counters with their sat flags (20_guarantees R398–R400), and the events they raise (20_guarantees R399, 16_black_box R320). -/

namespace Sys2Proof.Machine

/-! ### Fields in force -/

/-- The word of RW, RWL and RWS fields in force at a BAR0 offset: as last written, else the register's reset word. -/
def State.word (s : State) (off rst : Nat) : Word := (cellGet? s.regs.act off).getD (BitVec.ofNat 32 rst)

/-- The value of a field in force. -/
def State.fld (s : State) (f : Fld) : Nat := ((s.word f.off f.rst).toNat >>> f.lo) % 2 ^ f.width

/-- A one-bit field in force. -/
def State.bit (s : State) (f : Fld) : Bool := s.fld f != 0

/-- The signed value of a field in force. -/
def State.sfld (s : State) (f : Fld) : Int := sgn f.width (s.fld f)

/-- A word with the field of f replaced. -/
def Fld.insert (f : Fld) (w : Word) (v : Nat) : Word :=
  let m := (2 ^ f.width - 1) <<< f.lo
  BitVec.ofNat 32 ((w.toNat &&& (0xFFFFFFFF ^^^ m)) ||| ((v % 2 ^ f.width) <<< f.lo))

/-- A field in force replaced. -/
def State.setFld (s : State) (f : Fld) (v : Nat) : State :=
  { s with regs := { s.regs with
      act := cellPut (BitVec.ofNat 32 f.rst) s.regs.act f.off (f.insert (s.word f.off f.rst) v) } }

/-- Hardware changes a field in force (for example RED_CTL.degrade at DEMOTE_N, TWP_DATA of a read): the value of a host write in the same
clock stands (21_register_map R409). -/
def State.hwFld (s : State) (f : Fld) (v : Nat) : State :=
  if s.regs.wroteAt = s.time ∧ f.off ∈ s.regs.wrote then s else s.setFld f v

/-! ### W1C bits -/

/-- A W1C bit as it reads. -/
def State.flag (s : State) (f : Fld) : Bool := ((cellGet (0 : Word) s.regs.sticky f.off).toNat >>> f.lo) % 2 == 1

/-- The W1C bits that hardware has set at the present instant. -/
def State.freshNow (s : State) : Cells Word := if s.regs.freshAt = s.time then s.regs.fresh else []

/-- Hardware sets W1C bits of a register, which a clear of the same instant then leaves set (00_scope R5). -/
def State.stickWord (s : State) (off : Nat) (w : Word) : State :=
  { s with regs := { s.regs with
      sticky := cellPut 0 s.regs.sticky off (cellGet 0 s.regs.sticky off ||| w)
      fresh := cellPut 0 s.freshNow off (cellGet 0 s.freshNow off ||| w)
      freshAt := s.time } }

/-- Hardware sets a W1C bit. -/
def State.stick (s : State) (f : Fld) : State := s.stickWord f.off (f.insert 0 1)

/-- Hardware sets a W1C bit when a condition holds. -/
def State.stickIf (s : State) (c : Bool) (f : Fld) : State := if c then s.stick f else s

/-- Bit k of a 32-bit W1C field set. -/
def State.stickBit (s : State) (f : Fld) (k : Nat) : State := s.stickWord f.off (BitVec.ofNat 32 (2 ^ (f.lo + k)))

/-- Hardware clears a W1C bit. -/
def State.unstick (s : State) (f : Fld) : State :=
  { s with regs := { s.regs with
      sticky := cellPut 0 s.regs.sticky f.off (f.insert (cellGet 0 s.regs.sticky f.off) 0) } }

/-- Is bit k of a 32-bit W1C field set? -/
def State.flagBit (s : State) (f : Fld) (k : Nat) : Bool := (cellGet (0 : Word) s.regs.sticky f.off).toNat.testBit (f.lo + k)

/-! ### Events -/

/-- Event data: the cause in bits 7:0, bits 31:8 and bits 63:32. -/
def evData (cause mid : Nat) (hi : Int) : BitVec 64 :=
  BitVec.ofNat 64 (cause % 256 + (mid % 2 ^ 24) * 256 + toBits 32 hi * 2 ^ 32)

/-- An event is fired: it sets out for REC (16_black_box R320). -/
def State.fireRaw (s : State) (src : Nat) (data : BitVec 64) (cls : Option Nat) (sat : Bool) : State :=
  { s with chans := { s.chans with flight := s.chans.flight ++ [⟨src, data, cls, sat, s.time⟩] } }

/-- An event with a cause, its middle data bits (15:8 and up) and bits 63:32. -/
def State.fire (s : State) (src cause : Nat) (mid : Nat := 0) (hi : Int := 0) : State :=
  s.fireRaw src (evData cause mid hi) none false

/-- An event that passes an action class (16_black_box R318). -/
def State.fireCls (s : State) (src cause mid : Nat) (hi : Int) (cls : Nat) : State :=
  s.fireRaw src (evData cause mid hi) (some cls) false

/-! ### Counters -/

/-- One more, up to a largest value, where the sat flag sets (R398). -/
def Ctr.incTo (mx : Nat) (c : Ctr) : Ctr :=
  if c.sat then c else if c.count + 1 ≥ mx then ⟨mx, true⟩ else ⟨c.count + 1, false⟩

/-- One more on a counter of the common layout (R398: largest value 0xFF_FFFF). -/
def Ctr.inc (c : Ctr) : Ctr := c.incTo 0xFFFFFF

/-- The register word of a counter of the common layout: bit 31 sat, bits 23:0 count. -/
def Ctr.word (c : Ctr) : Word := BitVec.ofNat 32 (b2n c.sat * 2 ^ 31 + c.count % 2 ^ 24)

/-- The saturation event (R399): cause 0xFF, the BAR0 offset in bits 63:32, the record's sat bit. -/
def State.fireSat (s : State) (src off : Nat) : State := s.fireRaw src (evData 0xFF 0 off) none true

/-- The counters incremented at this instant, by register offset, one entry for each increment. -/
def State.countsNow (s : State) : List Nat := if s.chans.countsAt = s.time then s.chans.counts else []

/-- Increments of a counter at this instant are kept: a clear in the same clock acts before them (R400). -/
def State.counted (s : State) (n off : Nat) : State :=
  { s with chans := { s.chans with counts := List.replicate n off ++ s.countsNow, countsAt := s.time } }

/-- A counter after its clear (R399, R400): what was counted in the same clock stands. -/
def State.cleared (s : State) (off : Nat) : Ctr := ⟨s.countsNow.count off, false⟩

/-- A counter was incremented: the saturation event when it has just saturated (R398: once per saturation). -/
def State.satEv (s : State) (old new : Ctr) (src off : Nat) : State :=
  let s1 := s.counted 1 off
  if new.sat && !old.sat then s1.fireSat src off else s1

/-- The same where the increment depends on a condition. -/
def State.satIf (s : State) (b : Bool) (old new : Ctr) (src off : Nat) : State := if b then s.satEv old new src off else s

/-- Number of 1 bits of a word. -/
def ones (w : Word) : Nat := (List.range 32).countP (fun k => w.getLsbD k)

/-- The bits of a list of Bools, the first lowest. -/
def bitsOf : List Bool → Nat
  | [] => 0
  | b :: bs => b2n b + 2 * bitsOf bs

end Sys2Proof.Machine
end

