-- ==== Sys2Proof/Machine/Ops.lean ====
section
/-! DEFINITION. Operations that many commands share: time, roles and islands, the claim and its drop, the entity path, mode
questions, free values. -/

namespace Sys2Proof.Machine

/-! ### Time: one unit is 1/64 ns (05_phases, the PWM grid) -/

/-- One nanosecond. -/
def ns1 : Nat := 64
/-- One microsecond. -/
def us1 : Nat := 64000
/-- One millisecond. -/
def ms1 : Nat := 64000000
/-- One second. -/
def sec1 : Nat := 64000000000
/-- The shelf tick, 5 µs (R17). -/
def tickLen : Nat := 320000
/-- Largest 32-bit value. -/
def max32 : Nat := 0xFFFFFFFF

/-- A timer of d units that started at t has run out. -/
def State.elapsed (s : State) (t d : Nat) : Bool := decide (t + d ≤ s.time)

/-- A timer started at an optional instant has run out. -/
def State.ranOut (s : State) (t : Option Nat) (d : Nat) : Bool :=
  match t with
  | some a => decide (a + d ≤ s.time)
  | none => false

/-- SNS_TIME in ns (02_sense R26): while it runs, the value it started from plus the time since; else the value held. -/
def State.sns64 (s : State) : Nat :=
  if s.sns.running then min 0xFFFFFFFFFFFFFFFF (s.sns.timeBase + (s.time - s.sns.timeFrom) / ns1) else s.sns.timeBase

/-- SNS_TIME at an instant that is not later than now. -/
def State.snsAt (s : State) (t : Nat) : Nat := ({ s with time := t }).sns64

/-- Operating time in 1/1024 s, saturating (15_parameter_store R309, 16_black_box R322). -/
def State.opTime (s : State) : Nat :=
  min 0xFFFFFFFFFFFF (s.aon.optBase + (s.time - s.aon.optFrom) / 62500000)

/-- One hour of operating time. -/
def opHour : Nat := 3600 * 1024

/-! ### Free values -/

/-- The next free value (log 2). -/
def State.free (s : State) : BitVec 64 := Config.freeValue s.freeCtr

/-- The state in which that value has been drawn. -/
def State.drawn (s : State) : State := { s with freeCtr := s.freeCtr + 1 }

/-! ### Straps, unit, roles -/

/-- The strap roles of Table SYS.5 (R287). -/
inductive Strap where
  | pair | solo | arbiter
deriving DecidableEq, Repr

/-- The strap role sampled at core release (R287). -/
def State.strap (s : State) : Strap :=
  if !s.sys.strapSolo then .pair else if s.sys.strapUnit then .arbiter else .solo

/-- The unit bit (Table SYS.5; unit_fix replaces it for PAIR, R287). -/
def State.unitBit (s : State) : Bool :=
  match s.strap with
  | .pair => if s.otp.live.unitFix = 1 then false else if s.otp.live.unitFix = 2 then true else s.sys.strapUnit
  | _ => false

/-- The port of a slot or a stage at which this unit stands: its unit bit (10_redundancy R208: port 0 for unit A). -/
def State.ownPort (s : State) : Port := if s.unitBit then 1 else 0

/-- RED_STAT.role (Table RED.15). -/
def Role.code : Role → Nat
  | .undecided => 0 | .active => 1 | .standby => 2 | .arbiter => 3 | .solo => 4

/-- Does the unit drive the shelf: ACTIVE or SOLO (Table SHF.3). -/
def State.drives (s : State) : Bool := s.sys.role = .active || s.sys.role = .solo

/-- Is an island power-gated by the role (Table SHF.3) or by TRANSPORT (R293)? -/
def State.gated (s : State) (i : Island) : Bool :=
  match i with
  | .aon => false
  | .ctl | .dsp | .lnk | .bat => s.sys.role = .arbiter || s.aon.transport
  | .per => s.sys.role = .arbiter || s.sys.role = .solo || s.aon.transport
  | _ => s.aon.transport

/-- Does an island run: out of reset (R278), not gated, and past the steps that release it? REC runs until a save has ended before it
enters reset (12_thermal R261, 15_parameter_store R306, R314). -/
def State.runs (s : State) (i : Island) : Bool :=
  match i with
  | .aon => s.aon.vaon
  | .mgt => s.aon.vaon && !s.sys.inReset && !s.gated .mgt && !s.sys.mgmtRestart
  | .recI => s.aon.vaon && (!s.sys.inReset || s.nvp.recDue.isSome) && !s.gated .recI
  | _ => s.aon.vaon && !s.sys.inReset && !s.gated i

/-- The role has been decided and the unit is out of reset. -/
def State.decided (s : State) : Bool := s.runs .recI && !s.sys.inReset && s.sys.role != .undecided

/-- Do the law engines, rails, headbox and links work: role decided and not ARBITER (Table SHF.3). -/
def State.works (s : State) : Bool := s.decided && s.sys.role != .arbiter

/-! ### The claim -/

/-- The claim of the unit's role and state (Table RED.2, R203); none from a thermal shutdown on (R207). -/
def State.ownClaim (s : State) : Byte :=
  let tail := s.aon.epoch.toNat * 2 + b2n s.unitBit
  if s.aon.demoted || s.aon.sd then 0
  else match s.sys.role with
    | .active | .solo => BitVec.ofNat 8 (0xC0 + tail)
    | .standby => if s.red.ready then BitVec.ofNat 8 (0x40 + tail) else 0
    | _ => 0

/-- The claim latch takes the claim of the role (R199, R207). -/
def State.latchClaim (s : State) : State := { s with red := { s.red with claim := s.ownClaim } }

/-- Role field of a claim byte. -/
def claimRole (c : Byte) : Nat := c.toNat / 64
/-- Epoch field of a claim byte. -/
def claimEpoch (c : Byte) : BitVec 5 := BitVec.ofNat 5 (c.toNat / 2)
/-- Unit bit of a claim byte. -/
def claimUnit (c : Byte) : Bool := c.toNat % 2 = 1

/-- rank of R201: 2 active, 1 standby, 0 none. -/
def claimRank (c : Byte) : Nat := if claimRole c = 3 then 2 else if claimRole c = 1 then 1 else 0

/-- R201: is c1 the higher claim? -/
def claimHigher (c1 c2 : Byte) : Bool :=
  if claimRank c1 ≠ claimRank c2 then decide (claimRank c1 > claimRank c2)
  else if claimRank c1 = 0 then false
  else
    let d := (claimEpoch c1 - claimEpoch c2).toNat
    if 1 ≤ d ∧ d ≤ 15 then true else if 17 ≤ d then false else claimUnit c1 && !claimUnit c2

/-- A claim as a receiver takes it: role 0b00 and 0b10 are 0x00 (R200). -/
def claimTaken (c : Byte) : Byte := if claimRank c = 0 then 0 else c

/-- The later of the own epoch a and the peer's b under R201; at a distance of 16 the unit bit decides: unit A takes B's (R202). -/
def laterEpoch (unit : Bool) (a b : BitVec 5) : BitVec 5 :=
  let d := (b - a).toNat
  if 1 ≤ d ∧ d ≤ 15 then b else if d = 16 ∧ !unit then b else a

/-- A downlink frame cut a time after its start: the symbol in progress and those before it have gone, K30.7 fills the rest (09_slot
R180; a symbol lasts 125 ns, R178). -/
def cutFrame (v : Vector Sym 40) (after : Nat) : Vector Sym 40 := mapFin v (fun i x => if i.val ≤ after / 8000 then x else .k307)

/-- A CLM word cut a time after its start: the lines are low for the rest of it (R207; a chip lasts 25 ns, R205). -/
def cutWord (v : Vector Bool 32) (after : Nat) : Vector Bool 32 := mapFin v (fun i x => x && decide (i.val < after / 1600))

/-- Claim drop (R207): the claim latch clears, the CLM word in progress is cut (the next one starts at its place on the grid), the
PWM pads are forced low, the downlink frame in progress is cut and the next one carries the new claim (R180). -/
def State.claimDrop (s : State) : State :=
  { s with
    red := { s.red with
      claim := 0, padLow := true
      chips := match s.red.word with
        | some w => cutWord s.red.chips (s.time - w.2.2)
        | none => s.red.chips }
    slt := s.slt.map (fun l =>
      { l with cut := l.tx.isSome, froz := (0, l.froz.2)
               tx := if l.cut then l.tx else l.tx.map (fun v => cutFrame v (s.time - s.tickAt.getD s.time)) }) }

/-- PWMH pad of a phase: the generator's level, unless the override or the role holds it low (R207, Table RAIL.1). -/
def State.padH (s : State) (j : Fin 24) : Bool := s.pwm.ph[j].h && s.drives && !s.red.padLow
/-- PWML pad of a phase. -/
def State.padL (s : State) (j : Fin 24) : Bool := s.pwm.ph[j].l && s.drives && !s.red.padLow

/-! ### Modes (Table SYS.11) -/

def modeStart : Nat := 0
def modeService : Nat := 1
def modeHoldup : Nat := 2
def modeMaint : Nat := 3
def modeTransport : Nat := 4
def modeTest : Nat := 5
def modeRecovery : Nat := 6
def modeCustom : Nat := 7

/-! ### Entity path -/

/-- The configured site, row, rack and shelf as bits 31:12 of a path (R7): 0 until the configuration load has delivered
them (21_register_map R406). The spec names no register and no record format for them (log 12). -/
def State.place (s : State) : Nat := if s.sys.placed then Config.place.toNat * 4096 else 0

/-- The entity path with its slot, sel and phase fields (R7). -/
def State.path (s : State) (slot sel phase : Nat) : Word :=
  BitVec.ofNat 32 (s.place + slot % 32 * 128 + sel % 16 * 8 + phase % 8)

/-- The assigned phases of a rail, ascending (R79). -/
def State.railPhases (s : State) (n : Fin 8) : List (Fin 24) :=
  finsWhere 24 (fun j => s.pwm.ph[j].asg && s.pwm.ph[j].rail = n)

/-- The island a source's events come from (Table REG.4, Table SHF.6). -/
def srcIsland (src : Nat) : Island :=
  if src = 0x03 ∨ src = 0x04 ∨ src = 0x10 ∨ src = 0xA4 ∨ src = 0xA5 ∨ src = 0xB0 ∨ src = 0xB1 ∨ src = 0xB8 then .aon
  else if src < 0x10 then .mgt
  else if src < 0x20 then .recI
  else if src < 0x58 then .ctl
  else if src < 0x60 then .dsp
  else if src < 0x80 then .lnk
  else if src < 0x90 then .bat
  else if src < 0xB0 then .sup
  else if src < 0xC0 then .per
  else if src < 0xD0 then .hst
  else if src < 0xD5 then .mgt
  else if src < 0xE0 then .recI
  else .mgt

/-- An island's place in Table SHF.1. -/
def islandIndex : Island → Fin 10
  | .aon => 0 | .ctl => 1 | .dsp => 2 | .lnk => 3 | .bat => 4 | .sup => 5 | .recI => 6 | .mgt => 7 | .hst => 8 | .per => 9

/-- An island's priority class (Table SHF.1). -/
def islandCls : Island → Nat
  | .aon => 0 | .ctl | .dsp | .lnk => 1 | .bat | .sup => 2 | .recI => 3 | .mgt | .hst | .per => 4

/-- The kinds of channel (Table SHF.2). -/
inductive ChanKind where
  | rateMatched | nonBlocking | credit
deriving DecidableEq, Repr

/-- The kind of the channel from one island to another (R12). -/
def chanKind (a b : Island) : ChanKind :=
  if islandCls a ≤ 1 ∧ islandCls b ≤ 1 then .rateMatched
  else if islandCls a < islandCls b ∨ (islandCls a = islandCls b ∧ (islandIndex a).val < (islandIndex b).val) then .nonBlocking
  else .credit

/-! ### Lists of RW registers the hardware owns jointly with the host -/

/-- The latest eng sample of a channel. -/
def State.eng (s : State) (ch : Fin 130) : Int := s.sns.ch[ch].eng
/-- The latest engineering value of a channel. -/
def State.val (s : State) (ch : Fin 130) : Int := s.sns.ch[ch].val

/-- SNS channel 24 + n of rail n. -/
def railCh (n : Fin 8) : Fin 130 := ⟨24 + n.val, by omega⟩
/-- SNS channel of phase j. -/
def phCh (j : Fin 24) : Fin 130 := ⟨j.val, by omega⟩
/-- SNS channel 32, the bus voltage. -/
def busV : Fin 130 := 32

/-- A register field's rail number. -/
def rail8 (n : Nat) : Fin 8 := ⟨n % 8, by omega⟩

/-- The next point of a grid of step d that is aligned so that one lies at instant t (02_sense R32, 10_redundancy R205): t, or where
that of t has been used, the next after it. -/
def realign (next t d : Nat) : Nat := if next = t + d then next else t

/-- The next instant of a grid of step d, whose next point is next, that is still to come (02_sense R31–R33, 10_redundancy R205). -/
def gridDue (next d now : Nat) : Nat := if now ≤ next ∨ d = 0 then max next now else next + (now - next + d - 1) / d * d

/-- SNS_TIME has come to its largest value: one event (02_sense R26, 20_guarantees R398, R399). The spec names no source for the
SNS block; the model takes the system source 0x00 (DESIGN CHOICE, log 70). -/
def State.snsSat (s : State) : State :=
  if s.sns.running && decide (s.sns64 = 0xFFFFFFFFFFFFFFFF) && !s.sns.timeSat then
    { s with sns := { s.sns with timeSat := true } }.fireSat 0x00 0x4000
  else s

/-- Is the link of slot s UP (R187)? -/
def State.linkUp (s : State) (k : Fin 32) : Bool := s.slt[k].lstate = 2

/-- A rail in a state whose phases switch: SOFTSTART, RUN or STOPPING (Table RAIL.6). -/
def railSwitches (st : Nat) : Bool := st = 1 || st = 2 || st = 4

/-- Does the endpoint expose blocks other than SYS and UPD: not while the boot ROM waits for an image (14_start R283). -/
def State.exposed (s : State) : Bool := s.sys.step != 15

/-- Is the operation of the shelf past boot step 9 (SYS_STAT.step = 10)? -/
def State.running (s : State) : Bool := s.sys.step = 10

/-- Accept s' where a happening's conditions hold; else it does not come about (log 4). -/
def State.when (s : State) (c : Bool) (s' : State) : State := if c then s' else s

/-- The clock moves on to an instant, where that is still to come. -/
def State.await (s : State) (t : Nat) : State := { s with time := max s.time t }

/-- A happening that its rule sets at an instant or later: where its conditions hold, the clock moves on to that instant and f
comes about; else it does not come about (log 4). -/
def State.whenAt (s : State) (c : Bool) (t : Nat) (f : State → State) : State := if c then f (s.await t) else s

/-- The same for a timer of d units, started at an optional instant. -/
def State.whenDue (s : State) (c : Bool) (a : Option Nat) (d : Nat) (f : State → State) : State :=
  match a with
  | some t => s.whenAt c (t + d) f
  | none => s

/-- The instant at which the operating time reads n (15_parameter_store R309); now, where it does already. -/
def State.opAt (s : State) (n : Nat) : Nat :=
  if n ≤ s.opTime then s.time else s.aon.optFrom + (n - s.aon.optBase) * 62500000

/-- A happening that its rule sets at a reading of the operating time. -/
def State.whenOp (s : State) (c : Bool) (n : Nat) (f : State → State) : State :=
  s.whenAt (c && decide (n ≤ 0xFFFFFFFFFFFF)) (s.opAt n) f

/-- The answer of a command that always completes. -/
def ok (s : State) : Host.Outcome State Fault Refusal := .next s

end Sys2Proof.Machine
end

