-- ==== Sys2Proof/Machine/LawState.lean ====
section
/-! DEFINITION. Run states of the law engines (03_law_engines R56–R58, R61; 04_gain R76): which state an engine is to take, and
the change at a sample boundary. -/

namespace Sys2Proof.Machine

/-- The states of an engine as a snapshot carries them (10_redundancy Table RED.10). -/
def Engine.states (g : Engine) : SnapEngine :=
  { run := match g.run with | .off => 0 | .run => 1 | .hold => 2 | .track => 3
    cur := g.cur, vf := g.vf, xf := g.xf, out := g.out, stamp := g.outStamp, st := g.st, stNew := g.stNew }


/-- An engine replaced by its image. -/
def State.modEng (s : State) (e : Fin 20) (f : Engine → Engine) : State := { s with law := { s.law with eng := modAt s.law.eng e f } }

/-- The rail of an engine 0–15 (R43, Table DOC.5). -/
def engRail (e : Fin 20) : Option (Fin 8) := if h : e.val < 16 then some ⟨e.val / 2, by omega⟩ else none

/-- The state that the conditions of R56 give an engine: OFF before HOLD, HOLD before RUN and TRACK. -/
def State.lawWanted (s : State) (e : Fin 20) : Run :=
  if !(s.works && s.runs .ctl && s.bit (F.LAW_CTL.en e)) then .off
  else
    let go := if s.drives then Run.run else Run.track
    match engRail e with
    | none => go
    | some n =>
      let st := s.pwm.rail[n].state
      if st = 0 ∨ st = 5 ∨ st = 6 then .off else if st = 3 then .hold else go

/-- An engine takes a run state (R56–R58, R76): OFF reads its states 0; the first sample after OFF is marked; fe_blank is loaded
on entry to RUN from OFF or TRACK and to TRACK from OFF. A completion of the time before RUN or TRACK is not counted (R47). A
snapshot not yet applied goes unused once the engine leaves TRACK for RUN (R59). LAW_STATE keeps its last snap, a count cnt its
value, through OFF; entered from OFF by way of HOLD, RUN loads no fe_blank (DESIGN CHOICE, log 71). -/
def Engine.enter (g : Engine) (r : Run) (blank : Nat) : Engine :=
  if r = g.run then g
  else
    match r with
    | .off =>
      { g with run := .off, st := Vector.replicate 8 SecSt.zero, stNew := Vector.replicate 8 SecSt.zero, xf := none, xfade := false
               first := false, divCnt := 0, snapIn := none, fresh := false, next := none }
    | .hold => { g with run := .hold, first := g.first || g.run = .off, fresh := false, next := none }
    | .run => { g with run := .run, first := g.first || g.run = .off, blank := if g.run = .hold then g.blank else blank, snapIn := none }
    | .track => { g with run := .track, first := g.first || g.run = .off, blank := if g.run = .off then blank else g.blank }

/-- LAW_STATE_CHANGE of one engine at a sample boundary: nothing while a sample runs (R56). -/
def State.lawSync (s : State) (e : Fin 20) : State :=
  if s.law.eng[e].job.isSome then s
  else s.modEng e (fun g => g.enter (s.lawWanted e) (s.fld (F.SCH_FE_TIM.fe_blank e)))

/-- Does an engine sample: in RUN or TRACK? -/
def Engine.samples (g : Engine) : Bool := g.run = .run || g.run = .track

/-- A completion that some engines with trig = 0b00 count (R47). -/
def State.lawFresh (s : State) (p : Fin 20 → Bool) : State :=
  { s with law := { s.law with eng := mapFin s.law.eng (fun e g =>
      if g.samples && s.fld (F.LAW_CFG.trig e) = 0 && p e then { g with fresh := true } else g) } }

/-- The trigger instants that a tick boundary sets (R47). trig = 0b01: one at every boundary whose counter value is a multiple of
the period's tick count, and one every period_ns from the boundary on; a period that is neither a multiple nor a divisor of the
tick's 5,000 ns starts at the first boundary. trig = 0b10: 0.6 µs after the start of an allocation period. -/
def State.lawNext (s : State) (start : Bool) : State :=
  { s with law := { s.law with eng := mapFin s.law.eng (fun e g =>
      let p := s.fld (F.LAW_CFG.period_ns e)
      match s.fld (F.LAW_CFG.trig e) with
      | 1 =>
        if g.samples && (5000 % p = 0 || (p % 5000 = 0 && s.tick % (p / 5000) = 0) || (p % 5000 != 0 && g.next.isNone)) then
          { g with next := some s.time }
        else g
      | 2 => if g.samples && start then { g with next := some (s.time + 600 * ns1) } else g
      | _ => g) } }

/-- LAW_STATE_CHANGE of every engine. -/
def State.lawSyncAll (s : State) : State := foldFin 20 s State.lawSync

end Sys2Proof.Machine
end

