-- ==== Sys2Proof/Machine/Sequencer.lean ====
section
/-! DEFINITION. The sequencer (11_sequencing_and_supervision): node graph, power-good, power-up, failures, shutdown, trip, and
the mirroring of a standby. -/

namespace Sys2Proof.Machine

/-! ### The graph (R233, R234) -/

/-- Does a node take part? -/
def State.nodeEn (s : State) (k : Fin 72) : Bool := s.bit (F.SEQ_N_CFG.en k)

/-- Parents of a node, as a mask of 72 bits (SEQ_N_DEP0–2). -/
def State.parents (s : State) (k : Fin 72) : Nat :=
  s.fld (F.SEQ_N_DEP0.dep k) + 2 ^ 32 * s.fld (F.SEQ_N_DEP1.dep k) + 2 ^ 64 * s.fld (F.SEQ_N_DEP2.dep k)

/-- The nodes of a mask and their children. -/
def State.withChildren (s : State) (m : Nat) : Nat :=
  foldFin 72 m (fun m d => if s.nodeEn d && s.parents d &&& m != 0 then m ||| 2 ^ d.val else m)

/-- A function applied n times. -/
def iter {α : Type} (f : α → α) : Nat → α → α
  | 0, x => x
  | n + 1, x => iter f n (f x)

/-- Transitive dependants of a node (R233), as a mask without the node itself. -/
def State.depMask (s : State) (k : Fin 72) : Nat :=
  let m := iter s.withChildren 72 (2 ^ k.val)
  m - 2 ^ k.val

/-- Is the sequencer at work: SUP runs, the role is decided and not ARBITER (R248). -/
def State.seqRuns (s : State) : Bool := s.works && s.runs .sup

/-- A node replaced by its image. -/
def State.modNode (s : State) (k : Fin 72) (f : Node → Node) : State := { s with seq := { s.seq with n := modAt s.seq.n k f } }

/-- The sense channel of a node: 34 + k for a scanned one, 24 + n for rail n = k − 64 (R235). -/
def nodeCh (k : Fin 72) : Fin 130 := if h : k.val < 64 then ⟨34 + k.val, by omega⟩ else ⟨24 + (k.val - 64), by omega⟩

/-- val of a node, in mV. -/
def State.nodeVal (s : State) (k : Fin 72) : Int := s.val (nodeCh k)

/-- A node's enable as the sequencer gives it: part of the graph and asserted (R234, R248). -/
def State.nodeOn (s : State) (k : Fin 72) : Bool := s.nodeEn k && s.seq.n[k].en

/-- The sequencer's part of rail n's enable: node 64 + n (R101, R234). -/
def State.railNode (s : State) (n : Fin 8) : Bool := s.nodeOn ⟨64 + n.val, by omega⟩

/-- The sequencer's enable of a slot (R182, R234). -/
def State.slotNode (s : State) (k : Fin 32) : Bool :=
  anyFin 72 (fun i => s.nodeOn i && s.fld (F.SEQ_N_CFG.kind i) == 2 && s.fld (F.SEQ_N_CFG.en_idx i) == k.val)

/-- Does the configuration name a GPIO as a node's enable (R234)? -/
def State.gpioNamed (s : State) (g : Fin 16) : Bool :=
  anyFin 72 (fun i => s.nodeEn i && s.fld (F.SEQ_N_CFG.kind i) == 1 && s.fld (F.SEQ_N_CFG.en_idx i) == g.val)

/-- The level that a GPIO enable is driven to: in ACTIVE and SOLO that of its node's enable; none while it is not driven, or is no
node's enable (R234). -/
def State.gpioPad (s : State) (g : Fin 16) : Option Bool :=
  if s.drives && s.runs .sup && s.gpioNamed g then
    some (anyFin 72 (fun i => s.nodeOn i && s.fld (F.SEQ_N_CFG.kind i) == 1 && s.fld (F.SEQ_N_CFG.en_idx i) == g.val))
  else none

/-! ### Power-good (R235) -/

/-- One evaluation of a node's power-good and off state, which may make a change due. -/
def State.evalNode (s : State) (k : Fin 72) : State :=
  let v := s.nodeVal k
  let dbc := s.fld (F.SEQ_N_CFG.dbc k)
  s.modNode k (fun n =>
    let hit := if n.pg then decide (v < s.sfld (F.SEQ_N_DN.mv k)) else decide (s.sfld (F.SEQ_N_UP.mv k) ≤ v)
    let low := decide (v < s.sfld (F.SEQ_N_OFF.mv k))
    let r := if hit then n.pgRun + 1 else 0
    let o := if low != n.off then n.offRun + 1 else 0
    let t := n.taken.map (· + 1)
    { n with
      pgRun := r, offRun := o, taken := t
      due := decide (dbc ≤ r) || decide ((if n.off then 1 else dbc) ≤ o) || (t.any (fun c => decide (dbc ≤ c)) && !n.pg) })

/-! ### Failures (R240, R241) -/

/-- A failure recorded: cause, fail, SEQ_FAILCNT, event 0x91. -/
def State.nodeFailed (s : State) (k : Fin 72) (cause : Nat) : State :=
  let c := s.seq.failCnt.inc
  let s1 := (s.modNode k (fun n => { n with cause := cause })).stick (F.SEQ_N_STAT.fail k)
  let s2 := { s1 with seq := { s1.seq with failCnt := c } }
  (s2.fire 0x91 cause k (s.nodeVal k)).satEv s.seq.failCnt c 0x90 0x1B020

/-- Every transitive dependant that is in OFF or WAIT becomes BLOCKED, with event 0x91 BLOCKED where there is one (R240). -/
def State.blockDeps (s : State) (k : Fin 72) : State :=
  let m := s.depMask k
  let hit := fun (d : Fin 72) => bitAt m d && (s.seq.n[d].st = .off || s.seq.n[d].st = .wait)
  let cnt := (finsWhere 72 hit).length
  let s1 := { s with seq := { s.seq with n := mapFin s.seq.n (fun d n => if hit d then { n with st := .blocked, dly := none } else n) } }
  if cnt = 0 then s1 else s1.fire 0x91 0x05 k cnt

/-- NODE_FAIL: a failure in RISING or SETTLE (R240). -/
def State.nodeFail (s : State) (k : Fin 72) (cause : Nat) : State :=
  ((s.modNode k (fun n => { n with en := false, st := .failed, dly := none })).nodeFailed k cause).blockDeps k

/-- SHELF_SHUTDOWN_START (R243): from any state but SHUTDOWN and TRIPPED. It replaces a dependants shutdown (Table SEQ.2). -/
def State.shelfShutdown (s : State) (cause : Nat) : State :=
  if s.seq.st = 4 ∨ s.seq.st = 6 then s
  else
    let q := { s.seq with st := 4, cause := cause, from_ := s.time,
                          n := s.seq.n.map (fun n => { n with dset := none, fallCnt := if n.st = .falling then n.fallCnt else 0 }) }
    ({ s with seq := q }).fire 0x90 0x03 cause 0

/-- SHELF_TRIP (R246): its source is 1 for an action class, 2 for a node, 3 for the host. -/
def State.shelfTrip (s : State) (source number : Nat) : State :=
  let s1 := foldFin 72 s (fun s k =>
    let n := s.seq.n[k]
    s.stickIf (s.nodeEn k && (n.en || n.st != .off) && !n.off) (F.SEQ_N_STAT.stuck k))
  let q := { s1.seq with
    n := s1.seq.n.map (fun n => { n with en := false, st := .off, dly := none, dset := none, taken := none })
    st := 6, cause := 5, tripAt := some s.time }
  let a := { s1.aon with tripSeq := s1.aon.tripSeq ||| BitVec.ofNat 8 (s.fld F.SEQ_TRIPMAP.map) }
  ({ s1 with seq := q, aon := a }).fire 0x90 0x05 source number

/-- The transitive dependants of a failed node become its shutdown set (R241); a node already in one stays in it. -/
def State.dependants (s : State) (k : Fin 72) : State :=
  let m := s.depMask k
  { s with seq := { s.seq with
      n := mapFin s.seq.n (fun d n => if bitAt m d && n.dset.isNone then { n with dset := some k.val, fallCnt := 0 } else n) } }

/-- NODE_FELL: a node in UP fails with FELL or LATCHED and acts by fail_act (R241). Its enable stays asserted. -/
def State.nodeFell (s : State) (k : Fin 72) (cause : Nat) : State :=
  if s.seq.st = 4 then
    (s.modNode k (fun n => { n with cause := cause, taken := none })).fire 0x91 cause k (s.nodeVal k)
  else
    let s1 := (s.modNode k (fun n => { n with st := .failed, dly := none, taken := none })).nodeFailed k cause
    match s.fld (F.SEQ_N_CFG.fail_act k) with
    | 1 => s1.shelfShutdown 2
    | 2 => s1.shelfTrip 2 k
    | _ => s1.dependants k

/-- A rail entered LATCHED: its node fails at once with cause LATCHED (R240, R241). -/
def State.nodeLatched (s : State) (n : Fin 8) : State :=
  let k : Fin 72 := ⟨64 + n.val, by omega⟩
  if s.seqRuns && s.drives && s.nodeEn k then
    match s.seq.n[k].st with
    | .rising | .settle => s.nodeFail k 4
    | .up => s.nodeFell k 4
    | _ => s
  else s

/-! ### Power-up (R237) -/

/-- The start of a power-up: every enabled node waits, every chatter count is 0. -/
def State.powerUp (s : State) : State :=
  { s with seq := { s.seq with
      st := 1, goPend := false, from_ := s.time, huWait := false
      n := mapFin s.seq.n (fun k n =>
        if s.nodeEn k then
          { n with st := .wait, en := false, chat := 0, dset := none, taken := none
                   dly := if s.parents k = 0 then some s.time else none }
        else { n with chat := 0 }) } }

/-- SEQ_RSDLY ms have passed since the last all-off and the last trip (R237, R245, R246). -/
def State.restartOk (s : State) : Bool :=
  let d := s.fld F.SEQ_RSDLY.ms * ms1
  (s.seq.allOffAt.isNone || s.ranOut s.seq.allOffAt d) && (s.seq.tripAt.isNone || s.ranOut s.seq.tripAt d)

/-- Does a node count as off (R244)? -/
def NState.isOff : NState → Bool
  | .off | .failed | .blocked => true
  | _ => false

/-- The shutdown set a node belongs to is being shut down: the shelf's, or a dependants set (R241, R243). -/
def State.shutting (s : State) (k : Fin 72) : Bool :=
  s.nodeEn k && (s.seq.st = 4 || s.seq.n[k].dset.isSome)

/-- Every dependant of a node in its shutdown set counts as off. -/
def State.depsOff (s : State) (k : Fin 72) : Bool :=
  let m := s.depMask k
  allFin 72 (fun d => !bitAt m d || !s.shutting d || s.seq.n[d].st.isOff)

/-- What a 1 µs step does first in a shutdown set (R244): nodes that were never enabled are off, and falling nodes below their off
threshold. -/
def State.stepOff (s : State) (k : Fin 72) : State :=
  if !s.nodeEn k then s
  else match s.seq.n[k].st with
  | .wait => if s.shutting k then s.modNode k (fun n => { n with st := .off, dly := none }) else s
  | .falling => if s.seq.n[k].off then s.modNode k (fun n => { n with st := .off }) else s
  | _ => s

/-- What a 1 µs step then does with one node, by the nodes that are off at this step (R238, R241, R244): nodes whose dependants are
off at the same step start their delays together. -/
def State.stepNode (s : State) (k : Fin 72) : State :=
  let n := s.seq.n[k]
  if !s.nodeEn k then s
  else match n.st with
  | .wait =>
    if n.dly.isNone && (s.seq.st = 1 || s.seq.st = 2 || s.seq.st = 3) &&
        allFin 72 (fun p => !bitAt (s.parents k) p || s.seq.n[p].st = .up) then
      s.modNode k (fun n => { n with dly := some s.time })
    else s
  | .rising | .settle | .up =>
    if s.shutting k then
      if n.dly.isNone && s.depsOff k then s.modNode k (fun n => { n with dly := some s.time }) else s
    else if n.st = .rising && n.pg then s.modNode k (fun n => { n with st := .settle, settle := s.time })
    else s
  | .failed =>
    if n.en && s.depsOff k then
      let s1 := s.modNode k (fun n => { n with en := false })
      { s1 with seq := { s1.seq with
          n := s1.seq.n.map (fun d =>
            if d.dset = some k.val then { d with dset := none, st := if d.st = .off then .blocked else d.st } else d) } }
    else s
  | _ => s

/-- POWER_UP_COMPLETE (R242; R292 for a mode that returns to SERVICE). -/
def State.seqComplete (s : State) : State :=
  let en := finsWhere 72 s.nodeEn
  if s.seq.st = 1 && en.all (fun k => s.seq.n[k].st = .up || s.seq.n[k].st = .failed || s.seq.n[k].st = .blocked) then
    let bad := (en.filter (fun k => s.seq.n[k].st != .up)).length
    let s1 := { s with
      seq := { s.seq with st := if bad = 0 then 2 else 3 }
      sys := { s.sys with svcReq := s.sys.svcReq || s.sys.mode = modeStart
                          prev := if s.sys.mode = modeHoldup ∧ s.sys.prev = modeStart then modeService else s.sys.prev } }
    s1.fire 0x90 (if bad = 0 then 0x01 else 0x02) 0 bad
  else s

/-- ALL_OFF (R245). -/
def State.seqAllOff (s : State) : State :=
  if s.seq.st = 4 && allFin 72 (fun k => !s.nodeEn k || s.seq.n[k].st.isOff) then
    let again := (s.seq.cause = 3 && s.bit F.SEQ_CFG.auto_rs) || s.seq.goPend
    let s1 := { s with seq := { s.seq with st := if again then 5 else 0, allOffAt := some s.time } }
    s1.fire 0x90 0x04 s.seq.cause ((s.time - s.seq.from_) / ms1)
  else s

/-- A state taken from the peer's status (R248): the sequencer's state and each enabled node's, its internal enable following. -/
def nodeTaken (code : Nat) : NState :=
  match code with
  | 0 => .off | 1 => .wait | 2 => .rising | 3 => .settle | 4 => .up | 5 => .falling | 6 => .failed | _ => .blocked

/-- A standby follows the peer's sequencer (R248). -/
def State.seqMirror (s : State) (p : PeerStatus) : State :=
  if s.sys.role = .standby then
    { s with seq := { s.seq with
        st := p.seqState, cause := p.seqCause
        n := mapFin s.seq.n (fun k n =>
          if s.nodeEn k then
            let st := nodeTaken (p.nodes[k]).1
            { n with st := st, en := st = .rising || st = .settle || st = .up || (st = .failed && (p.nodes[k]).2) }
          else n) } }
  else s

/-- The unit becomes ACTIVE (R248): states are kept, timers restart from their full values, the delay of R245 or R246 too; a node taken as UP whose pg is 0
is watched for dbc evaluations. A node taken as FAILED with its enable asserted has its dependants shut down (R241). -/
def State.seqTakeover (s : State) : State :=
  let s1 := { s with seq := { s.seq with
      from_ := s.time
      allOffAt := if s.seq.st = 5 then some s.time else s.seq.allOffAt
      tripAt := if s.seq.st = 6 then some s.time else s.seq.tripAt
      n := s.seq.n.map (fun n =>
        { n with dly := none, rise := s.time, settle := s.time, fall := s.time, fallCnt := 0
                 dset := none, taken := if n.st = .up && !n.pg then some 0 else none }) } }
  if s.seq.st = 4 then s1
  else foldFin 72 s1 (fun s k => if s.nodeEn k && s.seq.n[k].st = .failed && s.seq.n[k].en then s.dependants k else s)

/-- The unit leaves ACTIVE or SOLO: its nodes' enables follow the peer from now on (R248). -/
def State.seqDemoted (s : State) : State :=
  { s with seq := { s.seq with goPend := false, retryPend := false, n := s.seq.n.map (fun n => { n with dset := none, taken := none }) } }

/-! ### The commands -/

/-- SEQ_STEP (R235, R238, R242, R244, R245). -/
def execSeqStep (s : State) : Host.Outcome State Fault Refusal :=
  if !(s.works && s.runs .sup) then ok s
  else
    let s1 := foldFin 8 s (fun s n => s.evalNode ⟨64 + n.val, by omega⟩)
    if s.drives then ok (foldFin 72 (foldFin 72 s1 State.stepOff) State.stepNode).seqComplete.seqAllOff else ok s1

/-- NODE_ON_DELAY_END (R238): the enable is asserted and the rise timer starts. -/
def execNodeOnDelayEnd (k : Fin 72) (s : State) : Host.Outcome State Fault Refusal :=
  let n := s.seq.n[k]
  ok (s.whenDue (s.seqRuns && s.drives && s.nodeEn k && n.st = .wait && !s.shutting k) n.dly (s.fld (F.SEQ_N_DLY.on_dly k) * us1) (fun s =>
    s.modNode k (fun n => { n with en := true, st := .rising, dly := none, rise := s.time })))

/-- NODE_SETTLE_END (R238). -/
def execNodeSettleEnd (k : Fin 72) (s : State) : Host.Outcome State Fault Refusal :=
  let n := s.seq.n[k]
  ok (s.whenAt (s.seqRuns && s.drives && s.nodeEn k && n.st = .settle && n.pg && !s.shutting k)
    (n.settle + s.fld (F.SEQ_N_TIM.settle_us k) * us1) (fun s => s.modNode k (fun n => { n with st := .up })))

/-- RISE_TIMEOUT (R238): expired before UP, and settle does not end at this step. -/
def execRiseTimeout (k : Fin 72) (s : State) : Host.Outcome State Fault Refusal :=
  let n := s.seq.n[k]
  let due := n.rise + s.fld (F.SEQ_N_TIM.rise_to k) * 100 * us1
  let settled := n.st = .settle && (s.await due).elapsed n.settle (s.fld (F.SEQ_N_TIM.settle_us k) * us1)
  ok (s.whenAt (s.seqRuns && s.drives && s.nodeEn k && (n.st = .rising || n.st = .settle) && !settled && !s.shutting k) due
    (fun s => s.nodeFail k 1))

/-- NODE_OFF_DELAY_END (R244): the enable is deasserted and the fall timer starts. -/
def execNodeOffDelayEnd (k : Fin 72) (s : State) : Host.Outcome State Fault Refusal :=
  let n := s.seq.n[k]
  ok (s.whenDue (s.seqRuns && s.drives && s.shutting k && (n.st = .rising || n.st = .settle || n.st = .up) && s.depsOff k) n.dly
    (s.fld (F.SEQ_N_DLY.off_dly k) * us1) (fun s => s.modNode k (fun n => { n with en := false, st := .falling, dly := none, fall := s.time, fallCnt := 0 })))

/-- FALL_TIMEOUT (R244): once per node and shutdown; with fall_hold again at every further interval. -/
def execFallTimeout (k : Fin 72) (s : State) : Host.Outcome State Fault Refusal :=
  let n := s.seq.n[k]
  let hold := s.bit (F.SEQ_N_FALL.fall_hold k)
  ok (s.whenAt (s.seqRuns && s.drives && s.nodeEn k && n.st = .falling && !n.off)
      (n.fall + (n.fallCnt + 1) * s.fld (F.SEQ_N_FALL.fall_to k) * 100 * us1) (fun s =>
    let s1 := s.modNode k (fun n =>
      { n with cause := 1, fallCnt := n.fallCnt + 1, st := if hold then .falling else .off })
    (s1.stickIf (!hold) (F.SEQ_N_STAT.stuck k)).fire 0x92 0x01 k (s.nodeVal k)))

/-- The debounced values after the evaluations that made a change due (R235). -/
def State.pgTake (s : State) (k : Fin 72) : State :=
  let dbc := s.fld (F.SEQ_N_CFG.dbc k)
  s.modNode k (fun n =>
    let cp := decide (dbc ≤ n.pgRun)
    let co := decide ((if n.off then 1 else dbc) ≤ n.offRun)
    { n with due := false, pg := n.pg != cp, pgRun := if cp then 0 else n.pgRun, off := n.off != co
             offRun := if co then 0 else n.offRun })

/-- PG_CHANGE (R235, R238, R239, R241, R248). -/
def execPgChange (k : Fin 72) (s : State) : Host.Outcome State Fault Refusal :=
  let n := s.seq.n[k]
  if !(s.works && s.runs .sup && n.due) then ok s
  else
    let s1 := s.pgTake k
    let m := s1.seq.n[k]
    let changed := m.pg != n.pg
    if !s.drives || !s.nodeEn k then ok s1
    else match n.st with
    | .rising | .settle =>
      if !changed then ok s1
      else
        let s2 := s1.modNode k (fun n => { n with chat := min 15 (n.chat + 1) })
        if !s.shutting k && decide (n.chat + 1 > s.fld F.SEQ_CFG.chatter_max) then ok (s2.nodeFail k 2)
        else if m.pg then ok (s2.modNode k (fun n => { n with st := .settle, settle := s.time }))
        else ok (s2.modNode k (fun n => { n with st := .rising }))
    | .up =>
      if m.pg then ok (s1.modNode k (fun n => { n with taken := none }))
      else if changed || m.taken.any (fun c => decide (s.fld (F.SEQ_N_CFG.dbc k) ≤ c)) then ok (s1.nodeFell k 3)
      else ok s1
    | _ => ok s1

/-- SEQ_GO (R237): a power-up starts, also while one runs or the nodes are UP (log 76); in SHUTDOWN, RESTART_WAIT and TRIPPED, and
before SEQ_RSDLY has passed, the go is held pending. -/
def execSeqGo (s : State) : Host.Outcome State Fault Refusal :=
  if !(s.seqRuns && s.drives) then ok s
  else if s.seq.st ≤ 3 ∧ s.restartOk then ok s.powerUp
  else ok { s with seq := { s.seq with goPend := true } }

/-- SEQ_STOP (R243): cause HOST_STOP. -/
def execSeqStop (s : State) : Host.Outcome State Fault Refusal :=
  ok (s.when (s.seqRuns && s.drives) (s.shelfShutdown 1))

/-- SEQ_RETRY (R242). A fallen node whose dependants are still being shut down has not entered FAILED yet (R241) and stays. -/
def execSeqRetry (s : State) : Host.Outcome State Fault Refusal :=
  if !(s.seqRuns && s.drives) then ok s
  else if s.seq.st = 2 ∨ s.seq.st = 3 then
    ok { s with seq := { s.seq with
        st := 1, from_ := s.time
        n := mapFin s.seq.n (fun k n =>
          if s.nodeEn k && (n.st = .failed || n.st = .blocked) && !n.en then
            { n with st := .wait, chat := 0, dly := none, dset := none }
          else n) } }
  else if s.seq.st = 6 then ok { s with seq := { s.seq with retryPend := true } }
  else ok s

/-- SEQ_TRIP (R246). -/
def execSeqTrip (s : State) : Host.Outcome State Fault Refusal :=
  ok (s.when (s.seqRuns && s.drives) (s.shelfTrip 3 0))

/-- SEQ_TRIP_CLR (R246, R242): TRIPPED ends and a pending retry acts as a pending go; the outputs return, also those still
held after a reset (22_balls R422). -/
def execSeqTripClr (s : State) : Host.Outcome State Fault Refusal :=
  if !(s.works && s.runs .sup) then ok s
  else
    let s1 := { s with aon := { s.aon with tripSeq := 0 } }
    if s.seq.st = 6 ∧ s.drives then
      ok { s1 with seq := { s1.seq with st := 0, goPend := s.seq.goPend || s.seq.retryPend, retryPend := false } }
    else ok s1

/-- The instant from which a restart or a pending go may act (R237, R245, R246). -/
def State.restartAt (s : State) : Nat :=
  let after (o : Option Nat) : Nat := (o.map (fun t => t + s.fld F.SEQ_RSDLY.ms * ms1)).getD 0
  max (after s.seq.allOffAt) (after s.seq.tripAt)

/-- RESTART_DELAY_END (R237, R245, R246, R247). -/
def execRestartDelayEnd (s : State) : Host.Outcome State Fault Refusal :=
  let again := s.seq.st = 5 && !((s.seq.cause = 3 || s.seq.huWait) && s.vat.hu)
  ok (s.whenAt (s.seqRuns && s.drives && (again || (decide (s.seq.st ≤ 3) && s.seq.goPend))) s.restartAt (fun s =>
    if again then
      let c := s.seq.rsCnt.inc
      let s1 := s.powerUp
      let s2 := { s1 with seq := { s1.seq with rsCnt := c } }
      (s2.fire 0x90 0x06 s.seq.cause 0).satEv s.seq.rsCnt c 0x90 0x1B024
    else s.powerUp))

end Sys2Proof.Machine
end

