-- ==== Sys2Proof/Machine/Rails.lean ====
section
/-! DEFINITION. Direct rails (05_phases_and_rails R79, R92–R107): phase sets, currents and capacity, the rail's states, ramp,
start short, tracking, phase faults and synchronisation. -/

namespace Sys2Proof.Machine

/-- A phase replaced by its image. -/
def State.modPhase (s : State) (j : Fin 24) (f : Phase → Phase) : State := { s with pwm := { s.pwm with ph := modAt s.pwm.ph j f } }

/-- A rail replaced by its image. -/
def State.modRail (s : State) (n : Fin 8) (f : Rail → Rail) : State := { s with pwm := { s.pwm with rail := modAt s.pwm.rail n f } }

/-- CTL's rail logic works: CTL runs, the role is decided and not ARBITER (Table SHF.3). -/
def State.ctlWorks (s : State) : Bool := s.works && s.runs .ctl

/-- The driven phases of a rail, ascending: ACTIVE or MATCH while the rail switches (R89, R92). -/
def State.driven (s : State) (n : Fin 8) : List (Fin 24) :=
  if railSwitches s.pwm.rail[n].state then (s.railPhases n).filter (fun j => s.pwm.ph[j].pstate = 1 || s.pwm.ph[j].pstate = 5) else []

/-- The ACTIVE phases of a rail. -/
def State.actives (s : State) (n : Fin 8) : List (Fin 24) := (s.railPhases n).filter (fun j => s.pwm.ph[j].pstate = 1)

/-- The phases that contribute to the mean of R45: ACTIVE, latest sample present and not idle. -/
def State.contributors (s : State) (n : Fin 8) : List (Fin 24) :=
  (s.actives n).filter (fun j => s.sns.ch[phCh j].stamp.isSome && !s.sns.idle[j])

/-- M[c] of R45. -/
def meanM (c : Nat) : Int :=
  match c with
  | 1 => 65536 | 2 => 32768 | 3 => 21845 | 4 => 16384 | 5 => 13107 | 6 => 10923 | 7 => 9362 | _ => 0

/-- Mean of the samples of some phases as R45 forms it; 0 for none. -/
def State.meanOf (s : State) (l : List (Fin 24)) : Int :=
  satN 16 (rne (sumI (l.map (fun j => s.eng (phCh j))) * meanM l.length) 16)

/-- The active mean m of a rail (R45). -/
def State.railMean (s : State) (n : Fin 8) : Int := s.meanOf (s.contributors n)

/-- Ir (R92): ACTIVE phases' latest samples, m for each MATCH phase; with no driven phase, the ACTIVE phases' latest samples. -/
def State.railIr (s : State) (n : Fin 8) : Int :=
  let l := s.railPhases n
  let act := sumI ((l.filter (fun j => s.pwm.ph[j].pstate = 1)).map (fun j => s.eng (phCh j)))
  if s.driven n = [] then act
  else act + s.railMean n * (l.filter (fun j => s.pwm.ph[j].pstate = 5)).length

/-- gc of R106. -/
def State.railG (s : State) (n : Fin 8) : Int := if s.pwm.rail[n].derated then s.sfld (F.RAIL_ILIM.derate n) else 32768

/-- cap of R106, in sample units of one phase. -/
def State.railCapU (s : State) (n : Fin 8) : Int :=
  let l := s.railPhases n
  let a := (l.filter (fun j => s.pwm.ph[j].pstate = 1)).length
  let m := (l.filter (fun j => s.pwm.ph[j].pstate = 5)).length
  rdiv (s.fld (F.RAIL_ILIM.ph_max n) * (10 * a + 7 * m) * s.railG n) 327680

/-- A current in sample units of one phase, in mA: scaled by the full scale of the rail's lowest assigned phase (R106, Table
HBX.1). -/
def State.railMa (s : State) (n : Fin 8) (u : Int) : Int :=
  match s.railPhases n with
  | [] => 0
  | j :: _ => rne (u * s.sfld (F.SNS_CH_FS.fs j)) 15

/-- RAIL_CAP, in mA. -/
def State.railCap (s : State) (n : Fin 8) : Int := s.railMa n (s.railCapU n)

/-- The rail's enable: sequencer node 64 + n and RAIL_CTL.en (R101). -/
def State.railOn (s : State) (n : Fin 8) : Bool := s.railNode n && s.bit (F.RAIL_CTL.en n)

/-- PWM_PH_STAT as it reads (Table PWM.4). -/
def State.phStat (s : State) (j : Fin 24) : Nat :=
  s.pwm.ph[j].pstate * 2 ^ 29 + b2n (s.flag (F.PWM_PH_STAT.drop j)) * 8 + b2n (s.flag (F.PWM_PH_STAT.cbc j)) * 4 +
    b2n (s.flag (F.PWM_PH_STAT.open j)) * 2 + b2n (s.flag (F.PWM_PH_STAT.sense j))

/-- A rail event with its cause (R107). -/
def State.railEvent (s : State) (n : Fin 8) (cause mid : Nat) : State :=
  (s.modRail n (fun r => { r with cause := cause })).fire (0x34 + n.val) cause mid 0

/-- CAP_REQUEST (R106): cap_req follows |If| > cap; each rise sets capseen and fires. -/
def State.capEval (s : State) (n : Fin 8) : State :=
  let r := s.pwm.rail[n]
  let req := decide (r.ifl.natAbs > s.railCapU n)
  let s1 := s.modRail n (fun r => { r with capReq := req })
  if req && !r.capReq then (s1.stick (F.RAIL_STAT.capseen n)).railEvent n 5 0 else s1

/-! ### Rail states (R101, Table RAIL.6) -/

/-- Both switches of a phase off at once: the pulse in progress is cut (Table RAIL.1). Its idle samples go on where its next
period would have started (02_sense R31). -/
def Phase.cut (t : Nat) (p : Phase) : Phase :=
  { p with idleNext := p.t0.elim p.idleNext (fun a => a + p.tj), t0 := none, hIv := [], lIv := [], h := false, l := false, aps := [], endOff := false, openSince := none, hEdge := if p.h then t else p.hEdge }

/-- Every phase of a rail cut. -/
def State.railCut (s : State) (n : Fin 8) : State :=
  (s.railPhases n).foldl (fun s j => s.modPhase j (Phase.cut s.time)) s

/-- Entry to OFF: every assigned phase returns to ACTIVE, the derate clears (R107), h returns to 0 (R102). -/
def State.railOff (s : State) (n : Fin 8) : State :=
  let s1 := s.railCut n
  let s2 := (s.railPhases n).foldl (fun s j => s.modPhase j (fun p => { p with pstate := 1 })) s1
  (s2.modRail n (fun r =>
    { r with
      state := 0, h := 0, derated := false, shedSince := none, addSince := none, sync := 0, evalAt := none, syncT0 := none })).capEval n

/-- Entry to SOFTSTART: a new start value, every trim 0 (R91, R98). -/
def State.railStart (s : State) (n : Fin 8) : State :=
  let p := max 0 (s.eng (railCh n))
  let s1 := (s.railPhases n).foldl (fun s j => s.modPhase j (fun x => { x with trim := 0 })) s
  s1.modRail n (fun r =>
    { r with state := 1, p := p, r := p, rampUs := 0, feRun := 0, rampTo := s.sfld (F.RAIL_VREF.target n), lastShed := none
             per := s.fld (F.RAIL_PER.per n), slewAt := s.time, sync := 0 })

/-- Entry to RUN from SOFTSTART: If is set to Ir (R92). -/
def State.railRun (s : State) (n : Fin 8) : State :=
  (s.modRail n (fun r =>
    { r with state := 2, ifl := s.railIr n, ir := s.railIr n, rampTo := s.sfld (F.RAIL_VREF.target n), shedSince := none
             addSince := none })).capEval n

/-- Entry to PAUSE: each phase completes its period (Table RAIL.1). -/
def State.railPause (s : State) (n : Fin 8) : State :=
  let s1 := (s.railPhases n).foldl (fun s j => s.modPhase j (fun p => { p with endOff := p.t0.isSome })) s
  s1.modRail n (fun r => { r with state := 3, pausedFrom := r.state, shedSince := none, addSince := none })

/-- PAUSE clears: back to the state it was entered from; an entry to RUN sets If to Ir (R92, Table RAIL.6). -/
def State.railResume (s : State) (n : Fin 8) : State :=
  let s1 := (s.railPhases n).foldl (fun s j => s.modPhase j (fun p => { p with endOff := false })) s
  let s2 := s1.modRail n (fun r => { r with state := r.pausedFrom })
  if s2.pwm.rail[n].state = 2 then (s2.modRail n (fun r => { r with ifl := s2.railIr n, ir := s2.railIr n })).capEval n else s2

/-- Entry to STOPPING (R98). -/
def State.railStop (s : State) (n : Fin 8) : State :=
  let s1 := (s.railPhases n).foldl (fun s j => s.modPhase j (fun p => { p with endOff := false })) s
  s1.modRail n (fun r => { r with state := 4, p := r.r, rampUs := 0 })

/-- RAIL_LATCH: entry to LATCHED with its cause, and the rail's node fails (R102, R240). -/
def State.railLatch (s : State) (n : Fin 8) (cause : Nat) : State :=
  (((s.railCut n).modRail n (fun r => { r with state := 6 })).railEvent n cause 0).nodeLatched n

/-- RAIL_TRIP (Table SCH.2): LATCHED, which fires TRIP alone. -/
def State.railTrip (s : State) (n : Fin 8) : State := if s.pwm.rail[n].state = 6 then s else s.railLatch n 7

/-- RAIL_DERATE (R106, R107). -/
def State.railDerate (s : State) (n : Fin 8) : State :=
  ((s.modRail n (fun r => { r with derated := true })).railEvent n 6 0).capEval n

/-- The rail follows its enable (R101): enable 0 before pause; OFF with enable 1 starts. -/
def State.railFollow (s : State) (n : Fin 8) : State :=
  let st := s.pwm.rail[n].state
  if s.railOn n then (if st = 0 then s.railStart n else s)
  else if st = 1 ∨ st = 2 ∨ st = 3 then (if s.bit (F.RAIL_CFG.soft_stop n) then s.railStop n else s.railOff n)
  else if st = 5 ∨ st = 6 then s.railOff n
  else s

/-! ### Ramp and tracking (R98–R100) -/

/-- The leader value L of R99. -/
def State.leader (s : State) (n : Fin 8) : Int :=
  if s.bit (F.RAIL_TRK.src n) then s.pwm.g.trackL
  else s.eng ⟨24 + s.fld (F.RAIL_TRK.leader n) % 8, by omega⟩

/-- The effective gain k of R99, signed Q2.14 by the notation of 00_scope (log 61). -/
def State.trackK (s : State) (n : Fin 8) : Int :=
  if s.fld (F.RAIL_TRK.mode n) = 2 then s.sfld (F.RAIL_TRK.k n)
  else
    let num := if s.bit (F.RAIL_TRK.src n) then s.sfld (F.RAIL_TRKMV.mv n)
      else s.sfld (F.SNS_CH_FS.fs (24 + s.fld (F.RAIL_TRK.leader n)))
    satN 16 (rdiv (num * 16384) (s.sfld (F.SNS_CH_FS.fs (24 + n.val))))

/-- One update of a rail's ramp reference, with the start-short check and the transitions it ends in (R98, R102). -/
def State.rampStep (s : State) (n : Fin 8) : State :=
  let r := s.pwm.rail[n]
  let tgt := s.sfld (F.RAIL_VREF.target n)
  let ss : Int := s.fld (F.RAIL_SS.ss_us n)
  let trk := s.fld (F.RAIL_TRK.mode n) = 1 ∨ s.fld (F.RAIL_TRK.mode n) = 2
  let trkR := min tgt (max 0 (rne (s.leader n * s.trackK n) 14))
  let t : Int := min (r.rampUs + 1) ss
  if r.state = 1 then
    let r' := if trk then trkR else r.p + rdiv ((tgt - r.p) * t) ss
    let bad := decide (s.eng (railCh n) < r' - s.fld (F.RAIL_SSFE.fe n))
    let fe := s.fld (F.RAIL_SSFE.fe_time n)
    let run := if bad then r.feRun + 1 else 0
    let s1 := s.modRail n (fun x => { x with r := r', rampUs := r.rampUs + 1, feRun := run })
    if r' = tgt ∧ !(fe ≠ 0 && decide (fe ≤ run)) then s1.railRun n else s1
  else if r.state = 2 then
    if trk then s.modRail n (fun x => { x with r := trkR, rampTo := tgt })
    else if tgt ≠ r.rampTo then s.modRail n (fun x => { x with p := r.r, rampUs := 0, rampTo := tgt })
    else if r.r ≠ tgt then s.modRail n (fun x => { x with r := r.p + rdiv ((tgt - r.p) * t) ss, rampUs := r.rampUs + 1 })
    else s
  else if r.state = 4 then
    let r' := r.p - rdiv (r.p * t) ss
    let s1 := s.modRail n (fun x => { x with r := r', rampUs := r.rampUs + 1 })
    if r' = 0 then (s1.railOff n).railFollow n else s1
  else s

/-! ### Phase faults (R103–R107) -/

/-- A phase is classified as having a failed sense (R105). -/
def State.senseFail (s : State) (j : Fin 24) : State :=
  let n := s.pwm.ph[j].rail
  let c : Int := (s.driven n).length
  let st := if s.pwm.rail[n].ifl.natAbs > s.fld (F.RAIL_SHED.add_lvl n) * (c - 1) then 5 else 4
  let s1 := s.modPhase j (fun p => { (if st = 4 then p.cut s.time else p) with pstate := st, openSince := none, sameRun := 0, ovrRun := 0 })
  let s2 := (s1.stick (F.PWM_PH_STAT.sense j)).stick (F.RAIL_STAT.phfault n)
  let s3 := s2.fire (0x40 + j.val) 0x04 (j.val + st * 256) (s2.phStat j)
  (s3.railEvent n 4 (j.val + st * 256)).capEval n

/-- A phase is classified as failed open (R105). -/
def State.openFail (s : State) (j : Fin 24) : State :=
  let n := s.pwm.ph[j].rail
  let s1 := s.modPhase j (fun p => { p.cut s.time with pstate := 3 })
  let s2 := (s1.stick (F.PWM_PH_STAT.open j)).stick (F.RAIL_STAT.phfault n)
  let s3 := s2.fire (0x40 + j.val) 0x03 j.val (s2.phStat j)
  (s3.railEvent n 3 j.val).capEval n

/-- Average of a phase's val over the last three windows (R104). -/
def Phase.avg (p : Phase) : Int :=
  let w := p.win.take 3
  rdiv (sumI (w.map (·.1))) (w.foldl (fun a x => a + x.2) 0 : Nat)

/-- Mean of the averages of some phases. -/
def State.avgOf (s : State) (l : List (Fin 24)) : Int := rdiv (sumI (l.map (fun j => s.pwm.ph[j].avg))) l.length

/-- The sum of R104: driven phases' averages, a MATCH phase counted as the mean of its siblings. -/
def State.phaseSum (s : State) (n : Fin 8) : Int :=
  let act := (s.driven n).filter (fun j => s.pwm.ph[j].pstate = 1)
  let m := ((s.driven n).filter (fun j => s.pwm.ph[j].pstate = 5)).length
  sumI (act.map (fun j => s.pwm.ph[j].avg)) + m * s.avgOf act

/-- The sum check of a rail at a string strobe, whose string I values are given (R104). With no driven phase the run ends (DESIGN
CHOICE, log 72). -/
def State.sumCheck (s : State) (n : Fin 8) (cur : Fin 8 → Int) : State :=
  let mask := s.fld (F.RAIL_SNSF.sum_mask n)
  if mask = 0 ∨ s.driven n = [] then s.modRail n (fun r => { r with sumRun := 0, sumBad := false })
  else
    let ref := sumFin 8 (fun i => if bitAt mask i then cur i else 0)
    let bad := decide ((s.phaseSum n - ref).natAbs > s.fld (F.RAIL_SUMTOL.tol n))
    s.modRail n (fun r => { r with sumRun := if bad then r.sumRun + 1 else 0, sumBad := bad })

/-- A string strobe closes a phase window (R104). -/
def Phase.newWindow (p : Phase) : Phase := { p with win := (0, 0) :: p.win.take 2 }

/-- What a string strobe does in CTL (R104): the sum check of every rail over the windows that end now, then new windows. -/
def State.sumStrobe (s : State) : State :=
  if s.ctlWorks then
    let cur : Fin 8 → Int := fun i => s.val ⟨106 + i.val, by omega⟩
    let s1 := foldFin 8 s (fun s n => s.sumCheck n cur)
    { s1 with pwm := { s1.pwm with ph := s1.pwm.ph.map Phase.newWindow } }
  else s

/-- The ACTIVE phase whose average lies farthest from its siblings' mean; the lowest-numbered of equals (R104). -/
def State.farthest (s : State) (n : Fin 8) : Option (Fin 24) :=
  let act := (s.driven n).filter (fun j => s.pwm.ph[j].pstate = 1)
  let d := fun (j : Fin 24) => (s.pwm.ph[j].avg - s.avgOf (act.filter (· ≠ j))).natAbs
  act.foldl (fun b j => match b with
    | none => some j
    | some i => if d i < d j then some j else some i) none

/-! ### Shedding (R93) -/

/-- The shed condition of Table RAIL.3. -/
def State.shedCond (s : State) (n : Fin 8) : Bool :=
  let c : Int := (s.driven n).length
  s.bit (F.RAIL_CFG.shed_en n) && s.pwm.rail[n].state = 2 && decide (c > s.fld (F.RAIL_CFG.min_ph n)) &&
    decide ((s.pwm.rail[n].ifl.natAbs : Int) < s.fld (F.RAIL_SHED.shed_lvl n) * (c - 1))

/-- The add condition of Table RAIL.3. -/
def State.addCond (s : State) (n : Fin 8) : Bool :=
  let c : Int := (s.driven n).length
  s.bit (F.RAIL_CFG.shed_en n) && s.pwm.rail[n].state = 2 &&
    decide ((s.pwm.rail[n].ifl.natAbs : Int) > s.fld (F.RAIL_SHED.add_lvl n) * c)

/-- The evaluation of Table RAIL.3 at a rank-0 period start: since when each condition holds. One change may be made at it. -/
def State.shedEval (s : State) (n : Fin 8) : State :=
  let keep := fun (c : Bool) (o : Option Nat) => if c then some (o.getD s.time) else none
  s.modRail n (fun r =>
    { r with
      shedSince := keep (s.shedCond n) r.shedSince, addSince := keep (s.addCond n) r.addSince, evalAt := some s.time })

/-- After a shed or add the conditions are judged anew with the new c; a condition that still holds keeps its start. -/
def State.shedDone (s : State) (n : Fin 8) : State :=
  ((s.modRail n (fun r => { r with
      lastShed := some s.time, evalAt := none
      shedSince := if s.shedCond n then r.shedSince else none
      addSince := if s.addCond n then r.addSince else none })).capEval n)

/-! ### Assignment (R79) -/

/-- A tick boundary is now. -/
def State.atTick (s : State) : Bool := s.tickAt == some s.time

/-- The rail of an assignment, if any, is OFF. -/
def State.asgOff (s : State) (a : Bool × Fin 8) : Bool := !a.1 || s.pwm.rail[a.2].state = 0

/-- An assignment takes effect. -/
def State.assign (s : State) (j : Fin 24) (a : Bool × Fin 8) : State :=
  s.modPhase j (fun p => { p with asg := a.1, rail := a.2, heldAsg := none, pstate := if a.1 then 1 else 0 })

/-- The assignment that PWM_PH_CFG[j] reads. -/
def State.asgWritten (s : State) (j : Fin 24) : Bool × Fin 8 :=
  (s.bit (F.PWM_PH_CFG.asg j), ⟨s.fld (F.PWM_PH_CFG.rail j) % 8, by omega⟩)

/-- Is a held assignment free to take effect: at a tick boundary, or before the tick runs (R79, 01_shelf R23)? -/
def State.asgTime (s : State) : Bool := s.tickAt.isNone || s.atTick

/-- Written assignments take effect at a tick boundary where both rails are OFF and are held otherwise (R79). -/
def State.assignAll (s : State) : State :=
  foldFin 24 s (fun s j =>
    let new := s.asgWritten j
    let old := (s.pwm.ph[j].asg, s.pwm.ph[j].rail)
    if new = old then s.modPhase j (fun p => { p with heldAsg := none })
    else if s.asgTime && s.asgOff new && s.asgOff old then s.assign j new
    else s.modPhase j (fun p => { p with heldAsg := some new }))

/-! ### Synchronisation (R94–R96) -/

/-- Ts of R95. -/
def State.syncTs (s : State) (n : Fin 8) : Nat :=
  (rdiv (s.pwm.g.syncPer * (s.fld (F.RAIL_SYNC.den_m1 n) + 1)) (s.fld (F.RAIL_SYNC.num_m1 n) + 1)).toNat

/-- A period moved toward another at no more than slew · 0.1 % of 1/T per ms since the last change (R96). -/
def slewTo (slew t dt per goal : Nat) : Nat :=
  let k := 1000 * ms1 * t
  let d := slew * dt * per
  if per > goal then max goal ((per * k + (k + d) - 1) / (k + d))
  else if per < goal then (if k > d then min goal (per * k / (k - d)) else goal)
  else per

/-- The rail's frequency moves toward a period (R96). -/
def State.slewRail (s : State) (n : Fin 8) (goal : Nat) : State :=
  let r := s.pwm.rail[n]
  let p := slewTo (s.fld F.PWM_SYNC_CFG.slew) (s.fld (F.RAIL_PER.per n)) (s.time - r.slewAt) r.per goal
  s.modRail n (fun r => { r with per := p, slewAt := if p ≠ r.per ∨ p = goal then s.time else r.slewAt })

/-- The distance of a rank-0 period start from its target instant, modulo Ts, in (−Ts/2, Ts/2] (R95). -/
def State.syncErr (s : State) (n : Fin 8) (t0 : Nat) : Int :=
  let ts := s.syncTs n
  match s.pwm.g.syncEdge with
  | some e =>
    if ts = 0 then 0
    else
      let d : Int := ((t0 : Int) - e - s.fld (F.RAIL_SYNC.sync_ph n) * ts / 65536) % ts
      if 2 * d > ts then d - ts else d
  | none => 0

/-- SYNC_LOCK at a rank-0 period start (R95): the rail's state and period, and the correction of this period's length. The
frequency slews in every state (R96); HOLDOVER ends in FREE, on arrival at 1/T. -/
def State.syncStep (s : State) (n : Fin 8) (t0 : Nat) : State × Int :=
  let r := s.pwm.rail[n]
  let tn := s.fld (F.RAIL_PER.per n)
  let on := s.bit (F.RAIL_SYNC.sync_en n) && s.pwm.g.syncValid
  let ts := s.syncTs n
  let e := s.syncErr n t0
  let c := clampI (-(tn / 256 : Nat)) (tn / 256 : Nat) (-e)
  let set := fun (s : State) (v : Nat) => s.modRail n (fun r => { r with sync := v })
  match r.sync with
  | 0 => if on then ((set s 1).slewRail n ts, 0) else (s.slewRail n tn, 0)
  | 1 =>
    if !on then ((set s 3).slewRail n tn, 0)
    else
      let s1 := s.slewRail n ts
      let p := s1.pwm.rail[n].per
      if ((p : Int) - ts).natAbs * 10000 ≤ ts then (set s1 (if e.natAbs ≤ 64 then 2 else 1), c) else (s1, 0)
  | 2 => if !on then ((set s 3).slewRail n tn, 0) else (s.slewRail n ts, c)
  | _ =>
    let s1 := s.slewRail n tn
    (if s1.pwm.rail[n].per = tn then set s1 0 else s1, 0)

/-- SYNC_IN is lost (R94): flag, event 0x3C, and every rail in ACQUIRE or LOCKED enters HOLDOVER (R95). -/
def State.syncLoss (s : State) : State :=
  let g := { s.pwm.g with syncValid := false, syncRun := 0 }
  let rails := s.pwm.rail.map (fun r => if r.sync = 1 ∨ r.sync = 2 then { r with sync := 3 } else r)
  (({ s with pwm := { s.pwm with g := g, rail := rails } }).stick F.PWM_SYNC_STAT.lost).fire 0x3C 0x01 0 s.pwm.g.syncPer

/-! ### Snapshot of a rail (R225) -/

/-- RAIL_SNAPSHOT_ADOPT: the block replaces the rail's state, and its phases' state, trim and offset. -/
def State.railAdopt (s : State) (n : Fin 8) : State :=
  match s.pwm.rail[n].snapIn with
  | none => s
  | some b =>
    let r := s.pwm.rail[n]
    let s0 := if railSwitches r.state && !railSwitches b.state then s.railCut n else s
    let s1 := b.phases.foldl (fun s x =>
      if h : x.1 < 24 then
        s.modPhase ⟨x.1, h⟩ (fun p => { p with pstate := x.2.1, trim := x.2.2.1, ofs := x.2.2.2 })
      else s) s0
    (s1.modRail n (fun r =>
      { r with
        state := b.state, h := b.h, r := b.r, ifl := b.ifl, sync := b.sync, snapIn := none
        per := if r.per = 0 then s.fld (F.RAIL_PER.per n) else r.per
        hicEnd := if b.state = 5 ∧ r.state ≠ 5 then s.time + 50 * ms1 * 2 ^ (b.h - 1) else r.hicEnd
        p := if b.state ≠ r.state then b.r else r.p
        rampUs := if b.state ≠ r.state then 0 else r.rampUs })).capEval n

/-! ### The commands -/

/-- A change of Table RAIL.3 is due: an evaluation is now at which none has been made, and its condition has held for d (R93). -/
def State.shedDue (s : State) (n : Fin 8) (since : Option Nat) (d : Nat) : Bool := s.pwm.rail[n].evalAt == some s.time && s.ranOut since d

/-- PHASE_SHED (R93). A MATCH phase, too, completes its period (DESIGN CHOICE, log 72). -/
def execPhaseShed (n : Fin 8) (s : State) : Host.Outcome State Fault Refusal :=
  let r := s.pwm.rail[n]
  let d := s.fld (F.RAIL_DWELL.shed_dwell n) * us1
  let matched := (s.driven n).filter (fun j => s.pwm.ph[j].pstate = 5)
  let active := (s.driven n).filter (fun j => s.pwm.ph[j].pstate = 1)
  ok (s.when (s.ctlWorks && s.shedCond n && s.shedDue n (r.shedSince.map (fun t => max t (r.lastShed.getD t))) d)
    (match matched.getLast?, active.getLast? with
    | some j, _ => (s.modPhase j (fun p => { p with pstate := 4, endOff := p.t0.isSome })).shedDone n
    | none, some j => (s.modPhase j (fun p => { p with pstate := 2, endOff := p.t0.isSome })).shedDone n
    | none, none => s))

/-- PHASE_ADD (R93). -/
def execPhaseAdd (n : Fin 8) (s : State) : Host.Outcome State Fault Refusal :=
  let d := s.fld (F.RAIL_DWELL.add_dwell n) * us1
  let shed := (s.railPhases n).filter (fun j => s.pwm.ph[j].pstate = 2)
  let sense := (s.railPhases n).filter (fun j => s.pwm.ph[j].pstate = 4)
  ok (s.when (s.ctlWorks && s.addCond n && s.shedDue n s.pwm.rail[n].addSince d)
    (match shed, sense with
    | j :: _, _ => (s.modPhase j (fun p => { p with pstate := 1, endOff := false })).shedDone n
    | [], j :: _ => (s.modPhase j (fun p => { p with pstate := 5, endOff := false })).shedDone n
    | [], [] => s))

/-- PHASE_OPEN_DETECT (R103, R105): the periods since the first one that met the conditions last ph_time µs. -/
def execPhaseOpenDetect (j : Fin 24) (s : State) : Host.Outcome State Fault Refusal :=
  let p := s.pwm.ph[j]
  let due := match p.openSince, p.t0 with
    | some a, some t => decide (a + s.fld (F.RAIL_PHF.ph_time p.rail) * us1 ≤ t)
    | _, _ => false
  if s.ctlWorks && p.asg && p.pstate = 1 && due then
    (if s.pwm.rail[p.rail].sumBad then ok (s.senseFail j) else ok (s.openFail j))
  else ok s

/-- PHASE_SENSE_STUCK (R104, R105). -/
def execPhaseSenseStuck (j : Fin 24) (s : State) : Host.Outcome State Fault Refusal :=
  let p := s.pwm.ph[j]
  let n := s.fld (F.RAIL_SNSF.stuck_cnt p.rail)
  ok (s.when (s.ctlWorks && p.asg && p.pstate = 1 && n ≠ 0 && (decide (n ≤ p.sameRun) || decide (n ≤ p.ovrRun))) (s.senseFail j))

/-- SUM_CHECK_FAIL (R104, R105). A further failure takes sum_n further strobes (DESIGN CHOICE, log 72). -/
def execSumCheckFail (n : Fin 8) (s : State) : Host.Outcome State Fault Refusal :=
  let m := s.fld (F.RAIL_SNSF.sum_n n)
  if s.ctlWorks && decide (m ≤ s.pwm.rail[n].sumRun) && s.pwm.rail[n].sumRun ≠ 0 then
    match s.farthest n with
    | some j => ok ((s.senseFail j).modRail n (fun r => { r with sumRun := 0 }))
    | none => ok s
  else ok s

/-- PHASE_ASSIGNMENT_APPLY (R79). -/
def execPhaseAssignmentApply (j : Fin 24) (s : State) : Host.Outcome State Fault Refusal :=
  let p := s.pwm.ph[j]
  match p.heldAsg with
  | some a => ok (s.when (s.runs .ctl && s.asgTime && s.asgOff a && s.asgOff (p.asg, p.rail)) ((s.assign j a).capEval a.2))
  | none => ok s

/-- SYNC_IN_EDGE (R94, R95). The first validity, too, takes 16 valid periods (DESIGN CHOICE, log 72). -/
def execSyncInEdge (s : State) : Host.Outcome State Fault Refusal :=
  if !(s.ctlWorks && s.bit F.PWM_SYNC_CFG.in_en) then ok s
  else
    let g := s.pwm.g
    let edge := { s with pwm := { s.pwm with g := { g with syncEdge := some s.time } } }
    match g.syncEdge with
    | none => ok edge
    | some a =>
      let per := s.time - a
      let nom := s.fld F.PWM_SYNC_NOM.nom
      if ((per : Int) - nom).natAbs * 100 ≤ s.fld F.PWM_SYNC_CFG.win * nom then
        let run := min 16 (g.syncRun + 1)
        let acq := !g.syncValid && run = 16
        let g1 := { edge.pwm.g with syncPer := min 0x1FFFFF per, syncRun := run, syncValid := g.syncValid || acq }
        let rails := edge.pwm.rail.mapIdx (fun i r =>
          if acq && r.sync = 0 && railSwitches r.state && s.bit (F.RAIL_SYNC.sync_en i) then { r with sync := 1 } else r)
        let s1 := { edge with pwm := { edge.pwm with g := g1, rail := rails } }
        if acq then ok ((s1.stick F.PWM_SYNC_STAT.acq).fire 0x3D 0x01 0 (min 0x1FFFFF per)) else ok s1
      else if g.syncValid then ok edge.syncLoss
      else ok { edge with pwm := { edge.pwm with g := { edge.pwm.g with syncRun := 0 } } }

/-- SYNC_LOST (R94): no edge within 1.5 times the last valid period. -/
def execSyncLost (s : State) : Host.Outcome State Fault Refusal :=
  let g := s.pwm.g
  ok (s.whenDue (s.ctlWorks && g.syncValid) g.syncEdge (3 * g.syncPer / 2) State.syncLoss)

/-- RAMP_UPDATE (R98, R102): every rail. -/
def execRampUpdate (s : State) : Host.Outcome State Fault Refusal :=
  ok (s.when s.ctlWorks (foldFin 8 s State.rampStep).lawSyncAll)

/-- START_SHORT (R102). -/
def execStartShort (n : Fin 8) (s : State) : Host.Outcome State Fault Refusal :=
  let r := s.pwm.rail[n]
  let fe := s.fld (F.RAIL_SSFE.fe_time n)
  if s.ctlWorks && r.state = 1 && fe ≠ 0 && decide (fe ≤ r.feRun) then
    let c := r.shorts.inc
    let s1 := ((s.modRail n (fun r => { r with shorts := c, feRun := 0 })).stick (F.RAIL_STAT.short n)).railEvent n 1 0
    let s2 := s1.satEv r.shorts c (0x34 + n.val) (0x1204C + 0x200 * n.val)
    if r.h < s.fld (F.RAIL_SS.retries n) then
      ok ((s2.railCut n).modRail n (fun x => { x with state := 5, h := r.h + 1, hicEnd := s.time + 50 * ms1 * 2 ^ r.h })).lawSyncAll
    else ok (s2.railLatch n 2).lawSyncAll
  else ok s

/-- HICCUP_END (R102): the rail restarts from a new p. -/
def execHiccupEnd (n : Fin 8) (s : State) : Host.Outcome State Fault Refusal :=
  let r := s.pwm.rail[n]
  ok (s.whenAt (s.ctlWorks && r.state = 5 && s.railOn n) r.hicEnd (fun s => (s.railStart n).lawSyncAll))

/-- PWM_TRACK as it reads (Table PWM.1). -/
def State.trackWord (s : State) : Nat :=
  b2n s.pwm.g.trackStatic * 2 ^ 31 + b2n s.pwm.g.trackLevel * 2 ^ 30 + s.pwm.g.trackL

/-- TRACK_EDGE (R100): a falling edge that ends a pulse of high ns in a period of period ns. -/
def execTrackEdge (high period : Nat) (s : State) : Host.Outcome State Fault Refusal :=
  if !s.runs .ctl ∨ period = 0 then ok s
  else
    let l := (clampI 0 32767 (rdiv (high * 32768) period)).toNat
    let g := { s.pwm.g with trackL := l, trackStatic := false, trackLevel := false, trackAt := s.time }
    let s1 := { s with pwm := { s.pwm with g := g } }
    if s.pwm.g.trackStatic then ok (s1.fire 0x3E 0x02 0 s1.trackWord) else ok s1

/-- TRACK_STATIC (R100): no edge for 100 µs. -/
def execTrackStatic (level : Bool) (s : State) : Host.Outcome State Fault Refusal :=
  ok (s.whenAt (s.runs .ctl) (s.pwm.g.trackAt + 100 * us1) (fun s =>
    let g := { s.pwm.g with trackL := if level then 32767 else 0, trackStatic := true, trackLevel := level }
    let s1 := { s with pwm := { s.pwm with g := g } }
    if s.pwm.g.trackStatic then s1 else s1.fire 0x3E 0x01 0 s1.trackWord))

/-- RAIL_ENABLE_CHANGE (R101). -/
def execRailEnableChange (n : Fin 8) (s : State) : Host.Outcome State Fault Refusal :=
  ok (s.when s.ctlWorks (s.railFollow n).lawSyncAll)

/-- RAIL_PAUSE_CHANGE (R101); enable 0 takes precedence. -/
def execRailPauseChange (n : Fin 8) (s : State) : Host.Outcome State Fault Refusal :=
  let st := s.pwm.rail[n].state
  if !(s.ctlWorks && s.railOn n) then ok s
  else if s.bit (F.RAIL_CTL.pause n) then (if st = 1 ∨ st = 2 then ok (s.railPause n).lawSyncAll else ok s)
  else if st = 3 then ok (s.railResume n).lawSyncAll
  else ok s

end Sys2Proof.Machine
end

