-- ==== Sys2Proof/Machine/Headbox.lean ====
section
/-! DEFINITION. The headbox (06_headbox_dispatch): staged fields and cost curves with their commit, bounds, the exact solve, the
cap path, deficit and surplus. -/

namespace Sys2Proof.Machine

/-- A source replaced by its image. -/
def State.modSrc (s : State) (k : Fin 40) (f : Src → Src) : State := { s with hbx := { s.hbx with src := modAt s.hbx.src k f } }

/-! ### Staged fields and curves (R111–R114) -/

/-- A field of a staged register as staged (R112). -/
def State.stagedFld (s : State) (f : Fld) : Nat :=
  (((cellGet? s.regs.staged f.off).getD (BitVec.ofNat 32 f.rst)).toNat >>> f.lo) % 2 ^ f.width

/-- Is an offset one of the staged registers: HBX_RANGE, HBX_SRC_CFG, MIN, MAX, X0 (R112)? -/
def isStaged (off : Nat) : Bool :=
  off = 0x14014 || (decide (0x14400 ≤ off ∧ off < 0x14E00) && decide ((off - 0x14400) % 0x40 ∈ [0x0, 0x4, 0x8, 0xC]))

/-- Width and price of segment k of source i in a bank, with the reserved bits (Table HBX.3). -/
def curveSeg (bank : Cells Word) (i k : Nat) : Nat × Nat × Nat :=
  let w := (cellGet 0 bank (0x40 * i + 8 * k)).toNat
  let p := (cellGet 0 bank (0x40 * i + 8 * k + 4)).toNat
  (w, p % 2 ^ 20, p / 2 ^ 20)

/-- R113 for one enabled source, over a reading of the fields and a bank. -/
def curveOk (rd : Fld → Nat) (bank : Cells Word) (i : Nat) : Bool :=
  let mn := sgn 32 (rd (F.HBX_SRC_MIN.min i))
  let mx := sgn 32 (rd (F.HBX_SRC_MAX.max i))
  let x0 := sgn 32 (rd (F.HBX_SRC_X0.x0 i))
  let e := rd F.HBX_RANGE.exp
  let seg := (List.range (rd (F.HBX_SRC_CFG.nseg_m1 i) + 1)).map (curveSeg bank i)
  let top := x0 + sumI (seg.map (fun g => (g.1 : Int)))
  let prices := seg.map (fun g => g.2.1)
  decide (mn ≤ mx) && seg.all (fun g => g.1 ≠ 0) && (prices.zip (prices.drop 1)).all (fun p => decide (p.1 ≤ p.2)) &&
    decide (x0 ≤ mn) && decide (mx ≤ top) && [x0, mn, mx, top].all (fun v => decide (v.natAbs ≤ 2 ^ (20 + e))) &&
    seg.all (fun g => g.2.2 = 0) && rd (F.HBX_SRC_CFG.grp i) ≠ 3 && decide (e ≤ 8)

/-- The lowest enabled source that fails R113. -/
def curveFail (rd : Fld → Nat) (bank : Cells Word) : Option Nat :=
  ((List.range 40).filter (fun i => rd (F.HBX_SRC_CFG.en i) = 1)).find? (fun i => !curveOk rd bank i)

/-- The staged words of a store. -/
def stagedOnly (m : Cells Word) : Cells Word := m.filter (fun x => isStaged x.1)

/-- A store with its staged words replaced by others. -/
def withStaged (m st : Cells Word) : Cells Word :=
  (stagedOnly st).foldl (fun m x => cellIns m x.1 x.2) (m.filter (fun x => !isStaged x.1))

/-- A host write to a staged field or to the window reaches the staged copy, unless a commit is pending (R112, R114). -/
def State.stagedWrite (s : State) (off : Nat) (val : Word) : State :=
  if s.hbx.commit ≠ 0 then s.stick F.HBX_COMMIT.wdrop
  else { s with regs := { s.regs with staged := cellPut 0 s.regs.staged off val } }

/-! ### Inputs of a period (R115–R118) -/

/-- Does a source take part? -/
def State.srcEn (s : State) (k : Fin 40) : Bool := s.bit (F.HBX_SRC_CFG.en k)

/-- Group of a source: 0 grid-side, 1 storage, 2 vat (Table HBX.2). -/
def State.srcGrp (s : State) (k : Fin 40) : Nat := s.fld (F.HBX_SRC_CFG.grp k)

/-- The rail of a direct-rail source. -/
def srcRail (k : Fin 40) : Option (Fin 8) := if h : 32 ≤ k.val then some ⟨k.val - 32, by omega⟩ else none

/-- The slot of a slot source. -/
def srcSlot (k : Fin 40) : Option (Fin 32) := if h : k.val < 32 then some ⟨k.val, h⟩ else none

/-- A reported value with 0x8000_0000 taken as 0 (09_slot R188). -/
def reported (v : BitVec 32) : Int := if v = 0x80000000 then 0 else v.toInt

/-- What the snapshot holds of a slot that counts as up: the frame last received (01_shelf R18, 09_slot R188). -/
def State.slotSnap (s : State) (k : Fin 32) : Option (Int × Int × Bool) :=
  if s.linkUp k then
    let l := s.slt[k]
    some (reported l.i, reported l.v, bitAt l.status.toNat 15)
  else none

/-- Current and input-lost status of a slot's latest uplink that passed its CRC, whatever the link's state (Table HBX.1). -/
def State.slotMeas (s : State) (k : Fin 32) : Int × Bool := (reported s.slt[k].i, bitAt s.slt[k].status.toNat 15)

/-- Measured current of a source at the snapshot (Table HBX.1). -/
def State.srcMeas (s : State) (k : Fin 40) : Int :=
  match srcRail k with
  | some n => s.railMa n s.pwm.rail[n].ir
  | none => match srcSlot k with
    | some j => s.slt[j].meas.1
    | none => 0

/-- String limits of rail n: sums over its present, enabled strings as last delivered (08_battery R151). -/
def State.storageLim (s : State) (n : Fin 8) : Int × Int :=
  let on := fun (i : Fin 8) => s.bit (F.BAT_CFG.rail_en i) && s.fld (F.BAT_CFG.rail i) == n.val && s.bit (F.BAT_CTL.en i)
  (-(sumFin 8 (fun i => if on i then s.vat.strLim[i].2 else 0)), sumFin 8 (fun i => if on i then s.vat.strLim[i].1 else 0))

/-- mn and mx of R117. -/
def State.srcRange (s : State) (k : Fin 40) : Int × Int :=
  let mn := s.sfld (F.HBX_SRC_MIN.min k)
  let mx := s.sfld (F.HBX_SRC_MAX.max k)
  let r := match srcRail k with
    | some n =>
      if s.pwm.rail[n].state ≠ 2 then (0, 0)
      else
        let cap := s.railCap n
        let mx1 := min mx cap
        let mn1 := max mn (-cap)
        let mx2 := if s.fld (F.RAIL_CFG.type n) = 1 then min mx1 0 else mx1
        match s.srcGrp k with
        | 1 => (max mn1 (s.storageLim n).1, min mx2 (s.storageLim n).2)
        | 2 => (max mn1 s.vat.limLo, min mx2 s.vat.limHi)
        | _ => (mn1, mx2)
    | none => match (srcSlot k).bind (fun j => s.slt[j].snap) with
      | none => (0, 0)
      | some f => if f.2.2 then (mn, min mx 0) else (mn, mx)
  (min r.1 r.2, r.2)

/-- The latest output of engine 16 or 17 as the snapshot reads it, whatever the role (01_shelf R18, R127): 0 where LAW_DST sends it
elsewhere (03_law Table LAW.2) or none has been delivered. -/
def State.snapOut (s : State) (e : Fin 20) (dest : Nat) : Int :=
  if s.law.eng[e].seen && s.fld (F.LAW_DST.dest_sel e) = dest then s.law.eng[e].out else 0

/-- D of R115, in mA. -/
def State.hbxDemand (s : State) : Int :=
  let dfs := s.sfld F.HBX_DFS.dfs
  let d := rne (s.snapOut 16 2 * dfs) 15
  if s.hbx.drt16 then
    let m := rne (dfs.natAbs * s.sfld F.HBX_DERATE.k) 15
    clampI (-m) m d
  else d

/-- Gbase of R116. -/
def State.gbase (s : State) : Int := rdiv (s.sfld F.HBX_FCAP.fcap * 1000) (s.sfld F.HBX_VNOM.vnom)

/-- Gcap of R116; none with cap_en = 0. -/
def State.gridCap (s : State) : Option Int :=
  if s.bit F.HBX_CTL.cap_en then
    let d := rne (s.snapOut 17 3 * s.sfld F.HBX_FCFS.fcfs) 15
    some (max 0 (s.gbase + if s.hbx.drt17 then min d 0 else d))
  else none

/-- The cap in force under R148. -/
def State.capInForce (s : State) : Option Int :=
  if s.vat.walk then
    match s.gridCap with
    | some g => some (min g s.vat.gwalk)
    | none => some s.vat.gwalk
  else s.gridCap

/-! ### The solve (R119, R120) -/

/-- A source as the solve sees it, in quanta (R110). -/
structure Item where
  k : Fin 40
  grid : Bool
  x0 : Int
  seg : List (Int × Nat)
  lo : Int
  hi : Int
  mn : Int
deriving DecidableEq, Repr

/-- pos of R119. -/
def Item.pos (i : Item) (lam : Nat) (strict : Bool) : Int :=
  let x := sumI ((i.seg.filter (fun g => decide (g.2 < lam) || (!strict && g.2 == lam))).map (·.1))
  min (max (i.x0 + x) i.lo) i.hi

/-- Sum of the positions. -/
def posSum (l : List Item) (lam : Nat) (strict : Bool) : Int := sumI (l.map (fun i => i.pos lam strict))

/-- The bisection: n halvings of [a, b]. -/
def bisect (l : List Item) (dem : Int) : Nat → Nat → Nat → Nat
  | 0, a, _ => a
  | n + 1, a, b =>
    let m := (a + b) / 2
    if dem ≤ posSum l m false then bisect l dem n a m else bisect l dem n (m + 1) b

/-- One round of R120: one quantum each in ascending source number while any is left and the tie width is open. -/
def shareRound : List (Int × Int) → Int → List (Int × Int) × Int
  | [], left => ([], left)
  | (x, top) :: t, left =>
    let g : Int := if 0 < left ∧ x < top then 1 else 0
    let r := shareRound t (left - g)
    ((x + g, top) :: r.1, r.2)

/-- The rounds that place the quanta left over. -/
def shareRounds : Nat → List (Int × Int) → Int → List (Int × Int)
  | 0, l, _ => l
  | n + 1, l, left => if left ≤ 0 then l else let r := shareRound l left; shareRounds n r.1 r.2

/-- What a solve returns: x and "non-zero tie width" of each source in the set's order, the price, the gap. -/
structure Sol where
  x : List (Int × Bool)
  lam : Nat
  gap : Int
deriving DecidableEq, Repr

/-- solve of R119, the quanta left over divided as R120 and the worked example state (log 31): a share beyond the position at the
price goes back to it, then what is left goes one by one. -/
def solve (l : List Item) (dem : Int) : Sol :=
  let slo := sumI (l.map (·.lo))
  let shi := sumI (l.map (·.hi))
  if dem < slo then ⟨l.map (fun i => (i.lo, false)), 0, dem - slo⟩
  else if shi < dem then ⟨l.map (fun i => (i.hi, false)), 0xFFFFF, dem - shi⟩
  else
    let lam := bisect l dem 20 0 0xFFFFF
    let rem := dem - posSum l lam true
    let tt := posSum l lam false - posSum l lam true
    let f := if tt = 0 then 0 else rem * 2 ^ 20 / tt
    let fl := l.map (fun i =>
      let a := i.pos lam true
      let b := i.pos lam false
      (min (a + (b - a) * f / 2 ^ 20) b, b))
    let left := dem - sumI (fl.map (·.1))
    let r := shareRounds left.toNat fl left
    ⟨(r.zip l).map (fun p => (p.1.1, p.2.pos lam false != p.2.pos lam true)), lam, 0⟩

/-! ### One period (R117–R122) -/

/-- The curve of a source in quanta, with the vat adder (R110, R117). -/
def State.itemSegs (s : State) (k : Fin 40) : List (Int × Nat) :=
  let e := s.fld F.HBX_RANGE.exp
  let a : Int := if s.srcGrp k = 2 then s.vat.a else 0
  (List.range (s.fld (F.HBX_SRC_CFG.nseg_m1 k) + 1)).map (fun i =>
    let g := curveSeg s.hbx.active k i
    (rne g.1 e, (clampI 0 0xFFFFF (g.2.1 + a)).toNat))

/-- Bounds of one source (R117), with its status. -/
def State.srcBounds (s : State) (k : Fin 40) : State :=
  let r := s.srcRange k
  let meas := s.srcMeas k
  let ramp := s.fld (F.HBX_SRC_RAMP.ramp k)
  let d : Int := if ramp = 0xFFFFFF then 2 ^ 40 else ramp * s.hbx.period
  let lost := (srcSlot k).any (fun j => s.slt[j].meas.2)
  let down := match srcRail k with
    | some n => s.pwm.rail[n].state != 2
    | none => ((srcSlot k).bind (fun j => s.slt[j].snap)).isNone
  let byRamp := fun (v : Int) => decide (r.1 < v ∧ v < r.2)
  s.modSrc k (fun x =>
    let prev := if x.seed then meas else x.prev
    { x with
      meas := meas, seeded := x.seed, seed := false, lost := lost, down := down
      lo := min (max (prev - d) r.1) r.2, hi := min (max (prev + d) r.1) r.2
      ramp := byRamp (prev - d) || byRamp (prev + d), tie := false, atLo := false, atHi := false })

/-- A source's item from its bounds. -/
def State.item (s : State) (k : Fin 40) : Item :=
  let e := s.fld F.HBX_RANGE.exp
  { k := k, grid := s.srcGrp k == 0, x0 := rne (s.sfld (F.HBX_SRC_X0.x0 k)) e, seg := s.itemSegs k
    lo := rne s.hbx.src[k].lo e, hi := rne s.hbx.src[k].hi e, mn := rne (s.srcRange k).1 e }

/-- The result of R121. -/
structure Result where
  x : List (Item × Int × Bool)
  lam : Nat × Nat × Nat
  path : Nat
  gap : Int
  excess : Int
  relaxed : Bool
deriving DecidableEq, Repr

/-- The steps of R121, in quanta. -/
def dispatch (l : List Item) (d : Int) (cap : Option Int) : Result :=
  let a := solve l d
  let xa := l.zip a.x
  let plain : Result := ⟨xa, (a.lam, 0, 0), 0, a.gap, 0, false⟩
  match cap with
  | none => plain
  | some g =>
    if sumI ((xa.filter (fun p => p.1.grid)).map (fun p => p.2.1)) ≤ g then plain
    else
      let grid0 := l.filter (·.grid)
      let beyond := fun (t : List Item) => decide (g < sumI (t.map (·.lo)))
      let grid := if beyond grid0 then grid0.map (fun i => { i with lo := i.mn }) else grid0
      let rest := l.filter (fun i => !i.grid)
      let gs : Sol := if beyond grid then ⟨grid.map (fun i => (i.lo, false)), 0, 0⟩ else solve grid g
      let sum := sumI (gs.x.map (·.1))
      let rs := solve rest (d - sum)
      ⟨grid.zip gs.x ++ rest.zip rs.x, (a.lam, gs.lam, rs.lam), if beyond grid then 2 else 1, rs.gap,
        if beyond grid then sum - g else 0, beyond grid0⟩

/-- Saturated to 24 bits (R128). -/
def sat24 (v : Int) : Nat := (clampI 0 0xFFFFFF v).toNat

/-- HBX_DEFICIT_SURPLUS (R122): flag and event in the first period of a run. -/
def State.hbxRun (s : State) (now before : Bool) (f : Fld) (cause : Nat) (v : Int) : State :=
  if now && !before then (s.stick f).fire 0x58 cause (sat24 v) 0 else s

/-- A source whose en has changed to 1 since the last dispatch takes prev from its measured current (R118). -/
def State.seedNew (s : State) : State :=
  { s with hbx := { s.hbx with src := mapFin s.hbx.src (fun k x => { x with seed := x.seed || (s.srcEn k && !x.enSeen), enSeen := s.srcEn k }) } }

/-- The compute time that HBX_TIME records, in ns (R124): the compute ends at 1.2 µs, 0.7 µs after the snapshot, where the cap does
not bind; else a free value up to the 1.2 µs of the whole dispatch. -/
def State.hbxTime (s : State) (path : Nat) : Nat := if path = 0 then 700 else s.free.toNat % 1201

/-- The allocation of a dispatch, put into the sources (R119–R121). -/
def State.hbxAlloc (s : State) (r : Result) (q : Int) : State :=
  r.x.foldl (fun (s : State) p =>
    s.modSrc p.1.k (fun x =>
      { x with
        x := p.2.1 * q, tie := p.2.2, atLo := p.2.1 == p.1.lo, atHi := p.2.1 == p.1.hi
        lo := if r.relaxed && p.1.grid then (s.srcRange p.1.k).1 else x.lo })) s

/-- What a dispatch reports (R122, R124): the grid's share, headroom, deficit and surplus, prices, path, time and counters. -/
def Hbx.report (h : Hbx) (r : Result) (q : Int) (cap : Option Int) (ns : Nat) : Hbx :=
  let grid := sumI ((r.x.filter (fun p => p.1.grid)).map (fun p => p.2.1)) * q
  let head := sumI ((r.x.filter (fun p => !p.1.grid)).map (fun p => h.src[p.1.k].hi - p.2.1 * q))
  let ghi := sumI ((r.x.filter (fun p => p.1.grid)).map (fun p => h.src[p.1.k].hi))
  let lim := match cap with
    | some g => min ghi g
    | none => ghi
  let gap := r.gap * q
  { h with
    deficit := max gap 0, surplus := max (-gap) 0, grid := grid, headroom := head + max 0 (lim - grid)
    lam := #v[r.lam.1, r.lam.2.1, r.lam.2.2], path := r.path, timeLast := ns, timeWorst := max ns h.timeWorst
    capCnt := if r.path ≠ 0 then h.capCnt.inc else h.capCnt
    defCnt := if gap > 0 then h.defCnt.inc else h.defCnt
    inDef := decide (gap > 0), inSur := decide (gap < 0) }

/-- The dispatch of one period (R117–R122), after the snapshot's inputs have been formed. -/
def State.hbxDispatch (s : State) (d : Int) (cap : Option Int) : State :=
  let e := s.fld F.HBX_RANGE.exp
  let q : Int := 2 ^ e
  let en := finsWhere 40 s.srcEn
  let s1 := en.foldl State.srcBounds s.seedNew
  let r := dispatch (en.map s1.item) (rne d e) (cap.map (fun g => rne g e))
  let s2 := s1.hbxAlloc r q
  let h := s2.hbx
  let h' := h.report r q cap (s.hbxTime r.path)
  let s3 := { s2.drawn with hbx := h' }
  let s4 := (s3.satIf (decide (r.path ≠ 0)) h.capCnt h'.capCnt 0x58 0x14074).satIf h'.inDef h.defCnt h'.defCnt 0x58 0x14078
  let s5 := if r.path = 2 then (s4.stick F.HBX_STAT.capmin).fire 0x58 0x04 (sat24 (r.excess * q)) 0 else s4
  (s5.hbxRun h'.inDef h.inDef F.HBX_STAT.deficit 0x02 h'.deficit).hbxRun h'.inSur h.inSur F.HBX_STAT.surplus 0x03 h'.surplus

/-- Every source's prev is taken from the measured current at the next snapshot (R118). -/
def State.seedAll (s : State) : State := { s with hbx := { s.hbx with src := s.hbx.src.map (fun x => { x with seed := true }) } }

/-! ### The commands -/

/-- HBX_COMMIT_REQUEST (R114): pend sets; discarded under the lock (21_register_map R408). One that meets a pend still set is
remembered: a clear of pend at that instant leaves it set (00_scope R5). -/
def execHbxCommitRequest (s : State) : Host.Outcome State Fault Refusal :=
  ok (s.when (s.runs .dsp && !s.sys.lock)
    { s with hbx := if s.hbx.commit = 0 then { s.hbx with commit := 1, commitAt := s.time } else { s.hbx with recommit := some s.time } })

/-- pend clears, unless a request came at this instant (00_scope R5). -/
def Hbx.commitEnd (h : Hbx) (now : Nat) : Hbx :=
  if h.recommit = some now then { h with commit := 1, commitAt := now, recommit := none } else { h with commit := 0, recommit := none }

/-- HBX_STAGED_COPY_DONE (R114): the new active copy is in the staged copy and pend clears. -/
def execHbxStagedCopyDone (s : State) : Host.Outcome State Fault Refusal :=
  ok (s.when (s.runs .dsp && s.hbx.commit = 2)
    { s with regs := { s.regs with staged := stagedOnly s.regs.act }, hbx := { s.hbx with shadow := s.hbx.active }.commitEnd s.time })

/-- COST_CURVE_WRITE (R111, R112, R114, 21_register_map R408): to a staged field, or to the window; discarded under the lock,
while the window shows the active bank, and with wdrop while a commit is pending. -/
def execCostCurveWrite (off : BitVec 20) (val : Word) (s : State) : Host.Outcome State Fault Refusal :=
  let o := off.toNat
  if !(s.runs .dsp && !s.sys.lock && o % 4 = 0) then ok s
  else if isStaged o then
    ok (s.stagedWrite o (val &&& (if o = 0x14014 then 0xF else if (o - 0x14400) % 0x40 = 0 then 0x83070000 else 0xFFFFFFFF)))
  else if 0x50000 ≤ o ∧ o < 0x50A00 ∧ !s.bit F.HBX_CTL.view then
    if s.hbx.commit ≠ 0 then ok (s.stick F.HBX_COMMIT.wdrop)
    else ok { s with hbx := { s.hbx with shadow := cellPut 0 s.hbx.shadow (o - 0x50000) val } }
  else ok s

/-- DERATE_CLEAR (R125). -/
def execDerateClear (s : State) : Host.Outcome State Fault Refusal :=
  ok (s.when (s.runs .dsp) { s with hbx := { s.hbx with drt16 := false, drt17 := false } })

end Sys2Proof.Machine
end

