-- ==== Sys2Proof/Machine/Holdup.lean ====
section
/-! DEFINITION. Hold-up, vat and deckle (07_hold_up_and_capping), and the DSP snapshot that runs them with the headbox
(01_shelf R18, Table SHF.4). -/

namespace Sys2Proof.Machine

/-! ### The vat (R129–R133) -/

/-- The channel of the vat's voltage: 24 + VAT_CFG.vrail. -/
def State.vatCh (s : State) : Fin 130 := railCh ⟨s.fld F.VAT_CFG.vrail % 8, by omega⟩

/-- e_mj of R130. -/
def vatEnergy (c v vmin : Int) : Int := max 0 (c * (v * v - vmin * vmin) / 2000000)

/-- phi of R130; with emax 0, a free value of its range (log 82). -/
def vatFill (c e vmin vmax : Int) : Nat :=
  let emax := c * (vmax * vmax - vmin * vmin) / 2000000
  if emax ≤ 0 then (clampI 0 65535 (Config.divByZero (e * 65536))).toNat else (min 65535 (e * 65536 / emax)).toNat

/-- The adder of R131. -/
def State.vatAdder (s : State) (phi : Nat) : Int :=
  let j := phi / 16384
  let k := fun (i : Nat) => s.sfld (F.VAT_ADD.add i)
  k j + rdiv ((k (j + 1) - k j) * (phi - 16384 * j : Nat)) 16384

/-- Limits of R132: lim_lo and lim_hi. -/
def State.vatLims (s : State) (v : Int) : Int × Int :=
  let vmin := s.sfld F.VAT_VMIN.vmin
  let vmax := s.sfld F.VAT_VMAX.vmax
  let t : Int := s.fld F.VAT_TAPER.taper
  let d : Int := s.fld F.VAT_IDIS.idis
  let c : Int := s.fld F.VAT_ICHG.ichg
  (if v ≥ vmax then 0 else if v > vmax - t then -(rdiv (c * (vmax - v)) t) else -c,
   if v ≤ vmin then 0 else if v < vmin + t then rdiv (d * (v - vmin)) t else d)

/-- VAT_ENERGY_ACCOUNT (R129–R133). -/
def State.vatStep (s : State) : State :=
  let v := s.val s.vatCh
  if s.bit F.VAT_CFG.en then
    let c : Int := s.fld F.VAT_C.c
    let vmin := s.sfld F.VAT_VMIN.vmin
    let vmax := s.sfld F.VAT_VMAX.vmax
    let e := vatEnergy c v vmin
    let phi := vatFill c e vmin vmax
    let lim := s.vatLims v
    let empty := decide (v ≤ vmin)
    let overV := decide (v > vmax + s.fld F.VAT_TAPER.taper)
    let s1 := { s with vat := { s.vat with
      v := v, eMj := e, phi := phi, a := s.vatAdder phi, limLo := lim.1, limHi := lim.2, empty := empty
      full := decide (v ≥ vmax), overV := overV } }
    let s2 := if empty && !s.vat.empty then s1.fire 0x5B 0x01 0 v else s1
    if overV && !s.vat.overV then (s2.stick F.VAT_STAT.over).fire 0x5B 0x02 0 v else s2
  else
    { s with vat := { s.vat with
      v := v, eMj := 0, phi := 0, a := 0, limLo := -0x7FFFFFFF, limHi := 0x7FFFFFFF, empty := false, full := false, overV := false } }

/-! ### Hold-up and walk-in (R134, R136, R148) -/

/-- A TRANSPORT entry is past its first step (14_start R293). -/
def State.transportOn (s : State) : Bool := decide (2 ≤ s.sys.transportStep) || (s.sys.transportStep = 1 && s.seq.st = 0)

/-- The overlay request that a change of hu asks of the management cores (R136, Table SYS.6). -/
def State.huRequest (s : State) (enter : Bool) : State :=
  let m := s.sys.mode
  if s.transportOn then s
  else if enter then
    (if m = modeStart ∨ m = modeService ∨ m = modeMaint ∨ m = modeCustom then { s with sys := { s.sys with huReq := some true } } else s)
  else if m = modeHoldup ∨ s.sys.huReq = some true ∨ s.sys.pend = some modeHoldup then
    { s with sys := { s.sys with huReq := some false } }
  else s

/-- The trial timer of an update pauses with HU_ENTER and goes on at HU_EXIT (17_field_update R354). -/
def State.trialPause (s : State) (enter : Bool) : State :=
  let u := s.upd
  match u.trialFrom with
  | some t => if enter then { s with upd := { u with trialUsed := u.trialUsed + (s.time - t), trialFrom := none } } else s
  | none => if !enter && u.phase = 5 then { s with upd := { u with trialFrom := some s.time } } else s

/-- HU_ENTER (R134). -/
def State.huEnter (s : State) (g : Int) : State :=
  let c := s.vat.huCnt.inc
  let s1 := { s with vat := { s.vat with hu := true, huCnt := c, exitSince := none, walkDone := false } }
  ((((s1.stick F.VAT_STAT.hu_in).fire 0x5C 0x01 0 g).satEv s.vat.huCnt c 0x5B 0x160A8).trialPause true).huRequest true

/-- HU_EXIT (R134). -/
def State.huLeave (s : State) (g : Int) : State :=
  let s1 := { s with vat := { s.vat with hu := false, exitSince := none, walkDone := false } }
  (((s1.stick F.VAT_STAT.hu_out).fire 0x5C 0x02 0 g).trialPause false).huRequest false

/-- WALK_START (R148). -/
def State.walkStart (s : State) (gw : Int) : State :=
  ({ s with vat := { s.vat with walk := true, gwalk := gw } }).fire 0x5C 0x03 0 gw

/-- WALK_END (R148). -/
def State.walkEnd (s : State) : State :=
  ({ s with vat := { s.vat with walk := false } }).fire 0x5C 0x04 0 s.vat.gwalk

/-- Enabled grid-side sources. -/
def State.gridSrc (s : State) : List (Fin 40) := finsWhere 40 (fun k => s.srcEn k && s.srcGrp k == 0)

/-- The walk-in rate of no walk-in (R148). -/
def State.walkFree (s : State) : Bool := s.fld F.VAT_WALK.rate == 0xFFFFFF

/-- The hold-up logic at a snapshot (R134, R148). -/
def State.holdupStep (s : State) (p : Nat) : State :=
  let g := sumI (s.gridSrc.map (fun k => (s.srcRange k).2))
  let cfg := sumI (s.gridSrc.map (fun (k : Fin 40) => s.sfld (F.HBX_SRC_MAX.max k)))
  let low := decide (100 * g < s.fld F.VAT_HU.enter_pct * cfg)
  let high := decide (100 * g ≥ s.fld F.VAT_HU.exit_pct * cfg)
  let s0 := { s with vat := { s.vat with g := g } }
  let s1 := if !s0.vat.hu && low then s0.huEnter g else s0
  let s2 := { s1 with vat := { s1.vat with exitSince := if s1.vat.hu && high then some (s1.vat.exitSince.getD s.time) else none } }
  let s3 :=
    if s2.vat.walk then
      (if low then s2.walkEnd
       else { s2 with vat := { s2.vat with gwalk := s2.vat.gwalk + s.fld F.VAT_WALK.rate * p } })
    else if s2.vat.hu && high && !s2.vat.walkDone then
      let s' := { s2 with vat := { s2.vat with walkDone := true } }
      if s.walkFree then s'
      else s'.walkStart (sumI (s.gridSrc.map (fun k => s.hbx.src[k].prev)))
    else s2
  let s4 := if low then { s3 with vat := { s3.vat with walkDone := false } } else s3
  if s4.vat.walk && decide (((s4.gridCap.getD cfg) : Int) ≤ s4.vat.gwalk) then s4.walkEnd else s4

/-- The dispatch block of an accepted snapshot replaces the deckle's and the VAT block's state (10_redundancy R225). -/
def State.dispAdopt (s : State) : State :=
  match s.red.disp with
  | none => s
  | some b =>
    let d := { s.dkl with
      ld := mapFin s.dkl.ld (fun k l => { l with c := b.caps[k], held := b.held[k] })
      fd := mapFin s.dkl.fd (fun k f => { f with settle := b.settle[k] }) }
    let s0 := { s with dkl := d, red := { s.red with disp := none }, vat := { s.vat with pf := some b.pf } }
    let s1 := if b.hu && !s0.vat.hu then s0.huEnter s0.vat.g else if !b.hu && s0.vat.hu then s0.huLeave s0.vat.g else s0
    if b.walk && !s1.vat.walk then ({ s1 with vat := { s1.vat with walkDone := true } }).walkStart b.gwalk
    else
      let s2 := { s1 with vat := { s1.vat with gwalk := b.gwalk } }
      if !b.walk && s2.vat.walk then s2.walkEnd else s2

/-! ### Feeder power, bridge time, energy (R137, R138, R146, 15_parameter_store R312) -/

/-- pout of R146. -/
def State.gridPower (s : State) : Int :=
  sumI (s.gridSrc.map (fun k =>
    match srcRail k with
    | some n => if s.pwm.rail[n].state = 2 then rdiv (s.srcMeas k * s.val busV) 1000 else 0
    | none => match (srcSlot k).bind (fun j => s.slt[j].snap) with
      | some f => rdiv (f.1 * f.2.1) 1000
      | none => 0))

/-- FEEDER_POWER_ESTIMATE (R146); with DKL_FEFF or DKL_FPFS 0, a free value (log 82). -/
def State.feederStep (s : State) : State :=
  let feff := s.sfld F.DKL_FEFF.feff
  let fpfs := s.sfld F.DKL_FPFS.fpfs
  let pin := rdiv (s.gridPower * 32768) feff
  let fb := satN 16 (rdiv (pin * 32768) fpfs)
  { s with dkl := { s.dkl with pg := pin }, hbx := { s.hbx with fbPower := some fb, snapAt := s.sns64 } }

/-- BRIDGE_TIME and TWARN (R137, R138): the flag sets at each fall, the event fires again only after a rise beyond an eighth. -/
def State.bridgeStep (s : State) (d : Int) : State :=
  let p := max (s.sfld F.VAT_PFLOOR.pfloor) (rdiv (d * s.val busV) 1000)
  let pf := match s.vat.pf with
    | some x => x + rne (p - x) (s.fld F.VAT_CFG.pshift)
    | none => p
  let ev := s.vat.eMj * s.sfld F.VAT_EFF.eff / 32768
  let es : Int := 1000 * (s.vat.erem.toList.foldl (· + ·) 0 : Nat)
  let ms := fun (x : Int) => if pf ≤ 0 then max32 else (clampI 0 max32 (x * 1000 / pf)).toNat
  let tb := ms (ev + es)
  let w := s.fld F.VAT_TWARN.twarn
  let below := decide (w ≠ 0 ∧ tb < w)
  let s1 := ({ s with vat := { s.vat with pf := some pf, tb := tb, tv := ms ev, twBelow := below } }).stickIf (below && !s.vat.twBelow)
    F.VAT_STAT.twarn
  if below && !s.vat.twBelow && s.vat.twArmed then
    ({ s1 with vat := { s1.vat with twArmed := false } }).fire 0x5B 0x03 0 tb
  else if w + w / 8 < tb then { s1 with vat := { s1.vat with twArmed := true } }
  else s1

/-- A power of p mW over 5·P µs enters energy counter k (15_parameter_store R312). -/
def State.energyAdd (s : State) (k : Fin 4) (p : Int) (per : Nat) : State :=
  let o := s.nvp.e[k]
  let r := o.2 + p.toNat * 5 * per
  let j := min 0xFFFFFFFFFFFFFFFF (o.1 + r / 1000000000)
  let s1 := { s with nvp := { s.nvp with e := modAt s.nvp.e k (fun _ => (j, r % 1000000000)) } }
  if j = 0xFFFFFFFFFFFFFFFF ∧ o.1 < j then s1.fireSat 0x12 (0x3060 + 8 * k.val) else s1

/-- Is a slot a load (R139)? -/
def State.isLoad (s : State) (k : Fin 32) : Bool := s.bit (F.DKL_LD_CFG.en k)

/-- ENERGY_COUNTER_UPDATE (15_parameter_store R312). -/
def State.energyStep (s : State) (p : Nat) : State :=
  let v := s.val busV
  let st := (finsWhere 40 (fun k => s.srcEn k && s.srcGrp k != 0)).map (fun k => rdiv (s.srcMeas k * v) 1000)
  let ld := sumFin 32 (fun k => if s.isLoad k then rdiv (s.dkl.ld[k].meas * v) 1000 else 0)
  (((s.energyAdd 0 (max 0 s.gridPower) p).energyAdd 1 (sumI (st.map (max 0))) p).energyAdd 2 (sumI (st.map (fun x => max 0 (-x)))) p).energyAdd
    3 ld p

/-! ### The deckle (R139–R145) -/

/-- A feed's inputs at the snapshot (01_shelf R18): its rail's current, capacity and cap request, and whether a shed acts on it. -/
def State.feedTake (s : State) (f : Fin 9) (d : Feed) : Feed :=
  if h : f.val = 0 then { d with shed := s.dkl.shed0 }
  else
    let n : Fin 8 := ⟨f.val - 1, by omega⟩
    { d with iMa := s.railMa n s.pwm.rail[n].ifl.natAbs, capMa := s.railCap n, req := s.pwm.rail[n].capReq, shed := s.dkl.shedr[n] }

/-- Excess of a feed (R140, R144): with DKL_CTL.en = 0 a shed does not raise it (R145). -/
def State.feedExcess (s : State) (f : Fin 9) : Int :=
  if f.val = 0 then s.hbx.deficit
  else
    let d := s.dkl.fd[f]
    let x := if d.req then d.iMa - d.capMa else 0
    if d.shed && s.bit F.DKL_CTL.en then max x (rne (d.iMa.natAbs * s.sfld F.DKL_SHED.k) 15) else x

/-- Headroom of a feed (R142). -/
def State.feedHead (s : State) (f : Fin 9) : Int := if f.val = 0 then s.hbx.headroom else s.dkl.fd[f].capMa - s.dkl.fd[f].iMa

/-- Declared full-scale current of a slot, as held in UP. -/
def State.slotFs (s : State) (k : Fin 32) : Int := s.slt[k].held.2.1

/-- The loads of a feed that take part: link UP at the snapshot (R139). -/
def State.feedLoads (s : State) (f : Fin 9) : List (Fin 32) :=
  finsWhere 32 (fun k => s.isLoad k && s.fld (F.DKL_LD_CFG.feed k) == f.val && s.slt[k].snap.isSome)

/-- A load's cap state set: uncapped from its full-scale current up (R141). -/
def State.setCap (s : State) (k : Fin 32) (c : Int) : State :=
  { s with dkl := { s.dkl with ld := modAt s.dkl.ld k (fun l => { l with c := if c ≥ s.slotFs k then none else some c }) } }

/-- b_s and r_s of R141. -/
def State.reducible (s : State) (k : Fin 32) : Int × Int :=
  let b := min (s.dkl.ld[k].c.getD (s.slotFs k)) s.dkl.ld[k].meas
  (b, max 0 (b - s.fld (F.DKL_LD_FLOOR.floor k)))

/-- The remainder of a floor division handed out, lowest number first, each up to its room: (share, room) pairs. -/
def fillUp : List (Int × Int) → Int → List Int
  | [], _ => []
  | (c, room) :: t, left => let g := min left (room - c); (c + g) :: fillUp t (left - g)

/-- The cut of one class (R141): the state and what is left of X. -/
def State.cutClass (s : State) (l : List (Fin 32)) (x : Int) : State × Int :=
  let rs := l.map (fun k => (k, s.reducible k))
  let r := sumI (rs.map (fun p => p.2.2))
  if !(decide (0 < r) && decide (0 < x)) then (s, x)
  else if r ≤ x then
    (rs.foldl (fun s p => if p.2.2 > 0 then s.setCap p.1 (p.2.1 - p.2.2) else s) s, x - r)
  else
    let fl := rs.map (fun p => (p.2.2 * x / r, p.2.2))
    let cut := fillUp fl (x - sumI (fl.map (·.1)))
    ((rs.zip cut).foldl (fun s p => if p.1.2.2 > 0 then s.setCap p.1.1 (p.1.2.1 - p.2) else s) s, 0)

/-- The cut branch of R141 over the classes from 0 to 7. -/
def State.cutFeed (s : State) (l : List (Fin 32)) (x : Int) : State × Int :=
  (List.range 8).foldl (fun p c => p.1.cutClass (l.filter (fun k => s.fld (F.DKL_LD_CFG.cls k) == c)) p.2) (s, x)

/-- A feed replaced by its image. -/
def State.modFeed (s : State) (f : Fin 9) (g : Feed → Feed) : State := { s with dkl := { s.dkl with fd := modAt s.dkl.fd f g } }

/-- The release branch of R141. -/
def State.releaseFeed (s : State) (l : List (Fin 32)) (a : Int) : State :=
  let capped := l.filter (fun k => s.dkl.ld[k].c.isSome && !s.dkl.ld[k].held)
  let cls := capped.foldl (fun m (k : Fin 32) => max m (s.fld (F.DKL_LD_CFG.cls k))) 0
  let grp := capped.filter (fun (k : Fin 32) => s.fld (F.DKL_LD_CFG.cls k) == cls)
  let fs := sumI (grp.map s.slotFs)
  if a ≤ 0 then s
  else grp.foldl (fun s k =>
    s.setCap k (s.dkl.ld[k].c.getD 0 + a * s.slotFs k / fs)) s

/-- Some load of a feed is capped. -/
def State.feedCapped (s : State) (f : Fin 9) : Bool :=
  anyFin 32 (fun k => s.isLoad k && s.fld (F.DKL_LD_CFG.feed k) == f.val && s.dkl.ld[k].c.isSome)

/-- One feed of the deckle at a period (R141, R142). -/
def State.feedStep (s : State) (was : Fin 9 → Bool) (f : Fin 9) : State :=
  let x := s.feedExcess f
  let l := s.feedLoads f
  let fd := s.dkl.fd[f]
  let p := s.hbx.period
  let s1 :=
    if fd.settle > 0 then s.modFeed f (fun d => { d with settle := d.settle - p })
    else if x > 0 then
      let x' := x + s.fld F.DKL_MARGIN.margin
      let r := s.cutFeed l x'
      let s2 := r.1.modFeed f (fun d =>
        { d with resid := r.2, settle := s.fld F.DKL_SETTLE.ticks, cutRun := true, residFired := (d.cutRun && d.residFired) || decide (r.2 > 0) })
      let s3 := { s2 with dkl := { s2.dkl with cut := true } }
      let s4 := if fd.cutRun then s3 else s3.fire 0x5A 0x01 f.val x'
      if r.2 > 0 && !(fd.cutRun && fd.residFired) then s4.fire 0x5A 0x02 f.val r.2 else s4
    else
      (s.releaseFeed l (min (s.feedHead f - s.fld F.DKL_MARGIN.margin) (s.fld F.DKL_REL.rate * p))).modFeed f (fun d =>
        { d with cutRun := false, residFired := false })
  if was f && !s1.feedCapped f then s1.fire 0x5A 0x03 f.val 0 else s1

/-- The sheds of R144 on feed 0, and the reset of loads whose link is not up (R139). -/
def State.loadStep (s : State) (k : Fin 32) : State :=
  let up := s.slt[k].snap.isSome
  let shed := s.dkl.fd[(0 : Fin 9)].shed && s.isLoad k && up && s.fld (F.DKL_LD_CFG.feed k) == 0 && decide (s.fld (F.DKL_LD_CFG.cls k) ≤ s.fld F.DKL_SHED.cls)
  { s with dkl := { s.dkl with ld := modAt s.dkl.ld k (fun l =>
      if !up || !s.isLoad k then { l with c := none, held := false }
      else if shed then { l with c := some (s.fld (F.DKL_LD_FLOOR.floor k)), held := true }
      else l) } }

/-- DECKLE_RUN (R140–R145). -/
def State.deckleRun (s : State) : State :=
  let was := s.feedCapped
  let s0 := { s with dkl := { s.dkl with fd := mapFin s.dkl.fd (fun f d => { d with excess := s.feedExcess f }), cut := false } }
  if s.bit F.DKL_CTL.en then
    let s1 := foldFin 32 s0 State.loadStep
    let s2 := foldFin 9 s1 (fun s f => s.feedStep was f)
    if s2.dkl.cut then
      let c := s.dkl.cutCnt.inc
      ({ s2 with dkl := { s2.dkl with cutCnt := c } }).satEv s.dkl.cutCnt c 0x5A 0x150C0
    else s2
  else
    { s0 with dkl := { s0.dkl with
      ld := s0.dkl.ld.map (fun l => { l with c := none, held := false })
      fd := s0.dkl.fd.map (fun d => { d with resid := 0, cutRun := false, residFired := false }) } }

/-- The cap code of a load (R143). -/
def State.capCode (s : State) (k : Fin 32) : Nat :=
  match s.dkl.ld[k].c with
  | none => 0x7FFF
  | some c => if c ≥ s.slotFs k then 0x7FFF else (c * 32768 / s.slotFs k).toNat

/-! ### The snapshot -/

/-- The current allocation period's snapshot, release or delivery comes next: in its first tick, at an offset from the boundary; a
late release or delivery in a later tick of the period (01_shelf R20). -/
def State.periodAt (s : State) (stage off : Nat) (f : State → State) : State :=
  let first := s.tick == s.hbx.periodTick
  s.whenDue (s.works && s.runs .dsp && s.hbx.phase == stage && (first || (stage != 0 && decide (s.tick < s.hbx.periodTick + s.hbx.period))))
    s.tickAt (if first then off else 0) f

/-- The inputs are taken (01_shelf R18): each slot's frame, each undriven rail's current (05_phases R92), each load's current, each
feed's. -/
def State.takeInputs (s : State) : State :=
  let s1 := { s with slt := mapFin s.slt (fun k l => { l with snap := s.slotSnap k, meas := s.slotMeas k }) }
  let s2 := foldFin 8 s1 (fun s n => if s.driven n = [] then s.modRail n (fun r => { r with ir := s.railIr n }) else s)
  { s2 with dkl := { s2.dkl with
      fd := mapFin s2.dkl.fd s2.feedTake
      ld := mapFin s2.dkl.ld (fun k l =>
        { l with meas := if s2.isLoad k then max 0 (-((s2.slt[k].snap.map (fun f => f.1)).getD 0)) else 0 }) } }

/-- HOLDUP_STOP (11_sequencing R243, R247): a shutdown of the shelf that is up or coming up, and from IDLE at the first period at
which the condition holds; in RESTART_WAIT it defers the start (log 47). -/
def State.holdupStop (s : State) : State :=
  if s.seqRuns && s.drives then
    let low := s.vat.hu && decide (s.vat.tb < s.fld F.SEQ_HUSTOP.ms)
    let first := low && !s.seq.huLow
    let s1 := { s with seq := { s.seq with huLow := low, huWait := s.vat.hu && (s.seq.huWait || (low && s.seq.st = 5)) } }
    if low && (s.seq.st = 1 || s.seq.st = 2 || s.seq.st = 3 || (first && s.seq.st = 0)) then s1.shelfShutdown 3 else s1
  else s

/-- The snapshot of an allocation period, which counts as a completion for the engines with fb_sel = 0b10 (03_law R47), and what is
computed from it (01_shelf R18; R115–R122, R129–R138, R146–R148,
15_parameter_store R312, 11_sequencing R243). -/
def State.snapStep (s : State) : State :=
  let p := s.hbx.period
  let s1 := s.dispAdopt.takeInputs.vatStep
  let s2 := (s1.holdupStep p).feederStep.energyStep p
  let d := s2.hbxDemand
  let cap := s2.capInForce
  let en := s2.bit F.HBX_CTL.en
  let s3 := { s2 with hbx := { s2.hbx with phase := 1, demand := d, gcap := cap, done := en } }
  let s4 := if en then s3.hbxDispatch d cap
    else { s3 with hbx := { s3.hbx with
      deficit := 0, surplus := 0, grid := 0, headroom := 0, lam := Vector.replicate 3 0, path := 0, inDef := false, inSur := false } }
  ((s4.bridgeStep d).holdupStop).lawFresh (fun e => s.fld (F.LAW_SRC.fb_sel e) = 2)

/-- DSP_SNAPSHOT (01_shelf R18): 0.5 µs after the boundary. -/
def execDspSnapshot (s : State) : Host.Outcome State Fault Refusal := ok (s.periodAt 0 (500 * ns1) State.snapStep)

/-- HU_EXIT (R134): exit_ms have passed with the grid at or above exit_pct. -/
def execHuExit (s : State) : Host.Outcome State Fault Refusal :=
  ok (s.whenDue (s.works && s.runs .dsp && s.vat.hu) s.vat.exitSince (s.fld F.VAT_HU.exit_ms * ms1) (fun s => s.huLeave s.vat.g))

/-- HBX_RESULTS_RELEASE (06_headbox R124): at 1.7 µs the deckle runs. -/
def execHbxResultsRelease (s : State) : Host.Outcome State Fault Refusal :=
  ok (s.periodAt 1 (1700 * ns1) (fun s =>
    let s1 := s.deckleRun
    { s1 with hbx := { s1.hbx with phase := 2 } }))

/-- RESULTS_DELIVERY (R143, 06_headbox R123, R124): at 2.0 µs the results and caps go to CTL and LNK. -/
def execResultsDelivery (s : State) : Host.Outcome State Fault Refusal :=
  ok (s.periodAt 2 (2000 * ns1) (fun s =>
    let go := s.hbx.done && s.bit F.HBX_CTL.en
    let code := Vector.ofFn (fun k => if s.isLoad k && s.bit F.DKL_CTL.en then s.capCode k else 0x7FFF)
    let src := mapFin s.hbx.src (fun k x => if go && s.srcEn k then { x with prev := x.x } else x)
    let rails := mapFin s.pwm.rail (fun n r =>
      let k : Fin 40 := ⟨32 + n.val, by omega⟩
      { r with refMa := if go && s.srcEn k then some s.hbx.src[k].x else none })
    { s with
      hbx := { s.hbx with phase := 3, src := src }
      red := { s.red with ownAlloc := ((s.tick, src.map (·.prev)) :: s.red.ownAlloc).take 2 }
      pwm := { s.pwm with rail := rails }
      dkl := { s.dkl with deliv := code, ld := mapFin s.dkl.ld (fun k l => { l with code := code[k] }) } }))

/-- SHED_CLEAR (R144). -/
def execShedClear (s : State) : Host.Outcome State Fault Refusal :=
  ok (s.when (s.runs .dsp) { s with dkl := { s.dkl with
    shed0 := false, shedr := Vector.replicate 8 false, fd := s.dkl.fd.map (fun d => { d with shed := false }), ld := s.dkl.ld.map (fun l => { l with held := false }) } })

end Sys2Proof.Machine
end

