-- ==== Sys2Proof/Machine/Crypto.lean ====
section
/-! DEFINITION. The standard algorithms that the spec names: SHA-256 and HMAC-SHA-256 (16_black_box R326, R334;
17_field_update R338), AES-128-CMAC of NIST SP 800-38B (16_black_box R326), ECDSA P-256 over SHA-256 (17_field_update R338).
The spec gives their names; their steps are those of the published standards (log 20). -/

namespace Sys2Proof

/-! ### SHA-256 (FIPS 180-4) -/

/-- The greatest number below 2^n whose k-th power is at most m, found bit by bit from the highest. -/
def rootBits (k m : Nat) : Nat → Nat → Nat
  | 0, r => r
  | n + 1, r => rootBits k m n (if (r + 2 ^ n) ^ k ≤ m then r + 2 ^ n else r)

/-- The first 32 fraction bits of the k-th root of a number below 2^16. -/
def rootFraction (k p : Nat) : Word := BitVec.ofNat 32 (rootBits k (p * 2 ^ (32 * k)) 48 0)

/-- The first 64 primes: those up to 311. -/
def shaPrimes : List Nat := (List.range 312).filter (fun p => decide (2 ≤ p) && (List.range p).all (fun d => decide (d < 2) || p % d != 0))

/-- The additive constants of the 64 rounds: the fractions of cube roots. -/
def shaKs : List Word := shaPrimes.map (rootFraction 3)

/-- The chaining value before the first block: the fractions of square roots. -/
def shaStart : List Word := (shaPrimes.take 8).map (rootFraction 2)

/-- A word rotated right by each of some amounts, added without carry. -/
def rotSum (l : List Nat) (x : Word) : Word := l.foldl (fun y n => y ^^^ x.rotateRight n) 0

/-- The compression in progress: the eight working words, a first, and the sixteen message words that come next. -/
structure ShaState where
  work : List Word
  next : List Word
deriving DecidableEq, Repr

/-- A round with its additive constant: the first message word is used up, and the one sixteen places on joins the end. -/
def shaStep (st : ShaState) (k : Word) : ShaState :=
  let r (i : Nat) : Word := st.work.getD i 0
  let m (i : Nat) : Word := st.next.getD i 0
  let choice := r 6 ^^^ (r 4 &&& (r 5 ^^^ r 6))
  let most := (r 0 &&& (r 1 ||| r 2)) ||| (r 1 &&& r 2)
  let p := k + m 0 + r 7 + choice + rotSum [6, 11, 25] (r 4)
  let join := m 0 + m 9 + (rotSum [7, 18] (m 1) ^^^ m 1 >>> 3) + (rotSum [17, 19] (m 14) ^^^ m 14 >>> 10)
  { work := [p + most + rotSum [2, 13, 22] (r 0), r 0, r 1, r 2, r 3 + p, r 4, r 5, r 6], next := st.next.drop 1 ++ [join] }

/-- The chaining value after one more block of 64 bytes. -/
def shaBlock (h : List Word) (blk : List Byte) : List Word :=
  let ws := (List.range 16).map (fun i => BitVec.ofNat 32 (beNat (byteSlice blk (4 * i) 4)))
  List.zipWith (· + ·) h (shaKs.foldl shaStep ⟨h, ws⟩).work

/-- The padded message. -/
def shaPad (m : List Byte) : List Byte :=
  m ++ [0x80] ++ List.replicate ((119 - m.length % 64) % 64) 0 ++ beBytes 8 (8 * m.length)

/-- SHA-256. -/
def sha256 (m : List Byte) : List Byte :=
  let p := shaPad m
  let h := (List.range (p.length / 64)).foldl (fun h i => shaBlock h (byteSlice p (64 * i) 64)) shaStart
  h.flatMap (fun w => beBytes 4 w.toNat)

/-- A digest as a 256-bit value, its first byte lowest, as a fuse field and a record hold it. -/
def digest256 (m : List Byte) : BitVec 256 := BitVec.ofNat 256 (leNat (sha256 m))

/-- HMAC-SHA-256 with a key of at most 64 bytes (FIPS 198-1). -/
def hmac256 (key m : List Byte) : List Byte :=
  let k := byteSlice key 0 64
  sha256 (k.map (· ^^^ 0x5C) ++ sha256 (k.map (· ^^^ 0x36) ++ m))

/-! ### AES-128 (FIPS 197) and CMAC (SP 800-38B) -/

/-- Multiplication by x in the field of AES. -/
def aesX (a : Byte) : Byte := (a <<< 1) ^^^ (if a.getLsbD 7 then 0x1B else 0)

/-- Multiplication in the field of AES. -/
def aesMul (a b : Byte) : Byte :=
  ((List.range 8).foldl (fun (p : Byte × Byte) i => (if b.getLsbD i then p.1 ^^^ p.2 else p.1, aesX p.2)) (0, a)).1

/-- The inverse in the field of AES (0 for 0): the 254th power. -/
def aesInv (a : Byte) : Byte :=
  let a2 := aesMul a a
  let a3 := aesMul a2 a
  let a6 := aesMul a3 a3
  let a12 := aesMul a6 a6
  let a15 := aesMul a12 a3
  let a30 := aesMul a15 a15
  let a60 := aesMul a30 a30
  let a120 := aesMul a60 a60
  let a126 := aesMul a120 a6
  let a127 := aesMul a126 a
  aesMul a127 a127

/-- The substitution of a byte. -/
def aesSub (a : Byte) : Byte :=
  let i := aesInv a
  i ^^^ i.rotateLeft 1 ^^^ i.rotateLeft 2 ^^^ i.rotateLeft 3 ^^^ i.rotateLeft 4 ^^^ 0x63

/-- The next round key: of a key's sixteen bytes and its round constant. -/
def aesNextKey (k : List Byte) (rc : Byte) : List Byte :=
  let g (i : Nat) := k.getD i 0
  let t := [aesSub (g 13) ^^^ rc, aesSub (g 14), aesSub (g 15), aesSub (g 12)]
  let x (a b : List Byte) := List.zipWith (· ^^^ ·) a b
  let w0 := x (byteSlice k 0 4) t
  let w1 := x (byteSlice k 4 4) w0
  let w2 := x (byteSlice k 8 4) w1
  w0 ++ w1 ++ w2 ++ x (byteSlice k 12 4) w2

/-- The ten round keys that follow the cipher key. -/
def aesKeys (k : List Byte) : List (List Byte) :=
  (([1, 2, 4, 8, 0x10, 0x20, 0x40, 0x80, 0x1B, 0x36] : List Byte).foldl
    (fun (p : List (List Byte) × List Byte) rc => let n := aesNextKey p.2 rc; (p.1 ++ [n], n)) ([], k)).1

/-- Substitution and row shift of a state of sixteen bytes, column by column. -/
def aesSubShift (b : List Byte) : List Byte :=
  (List.range 16).map (fun i => aesSub (b.getD ((i + 4 * (i % 4)) % 16) 0))

/-- Column mixing. -/
def aesMix (b : List Byte) : List Byte :=
  (List.range 16).map (fun i =>
    let c := i / 4 * 4
    let g (j : Nat) := b.getD (c + (i + j) % 4) 0
    aesX (g 0) ^^^ (aesX (g 1) ^^^ g 1) ^^^ g 2 ^^^ g 3)

/-- Exclusive or of two byte lists. -/
def xorBytes (a b : List Byte) : List Byte := List.zipWith (· ^^^ ·) a b

/-- One block of AES-128, given the cipher key and its ten round keys. -/
def aesBlock (k : List Byte) (rks : List (List Byte)) (b : List Byte) : List Byte :=
  let s := (rks.take 9).foldl (fun s rk => xorBytes (aesMix (aesSubShift s)) rk) (xorBytes b k)
  xorBytes (aesSubShift s) (rks.getD 9 [])

/-- A CMAC subkey from a block: the doubled block. -/
def cmacDouble (b : List Byte) : List Byte :=
  let n := beNat b
  beBytes 16 (2 * n % 2 ^ 128 ^^^ (if n < 2 ^ 127 then 0 else 0x87))

/-- AES-128-CMAC of a message. -/
def cmac (key m : List Byte) : List Byte :=
  let rks := aesKeys key
  let k1 := cmacDouble (aesBlock key rks (List.replicate 16 0))
  let n := max 1 ((m.length + 15) / 16)
  let x := (List.range (n - 1)).foldl (fun x i => aesBlock key rks (xorBytes x (byteSlice m (16 * i) 16))) (List.replicate 16 0)
  let last := m.drop (16 * (n - 1))
  let l := if last.length = 16 then xorBytes last k1
    else xorBytes (byteSlice (last ++ [0x80]) 0 16) (cmacDouble k1)
  aesBlock key rks (xorBytes x l)

/-! ### ECDSA P-256 (FIPS 186-5) -/

/-- The field prime. -/
def p256P : Nat := 0xFFFFFFFF00000001000000000000000000000000FFFFFFFFFFFFFFFFFFFFFFFF
/-- The group order. -/
def p256N : Nat := 0xFFFFFFFF00000000FFFFFFFFFFFFFFFFBCE6FAADA7179E84F3B9CAC2FC632551
/-- The curve's coefficient b. -/
def p256B : Nat := 0x5AC635D8AA3A93E7B3EBBD55769886BC651D06B0CC53B0F63BCE3C3E27D2604B
/-- The base point. -/
def p256G : Nat × Nat :=
  (0x6B17D1F2E12C4247F8BCE6E563A440F277037D812DEB33A0F4A13945D898C296,
   0x4FE342E2FE1A7F9B8EE7EB4A7C0F9E162BCE33576B315ECECBB6406837BF51F5)

/-- b^e mod m by squaring, e below 2^256. -/
def powMod (b e m : Nat) : Nat :=
  ((List.range 256).foldl (fun (p : Nat × Nat) i => (if e.testBit i then p.1 * p.2 % m else p.1, p.2 * p.2 % m)) (1 % m, b % m)).1

/-- The inverse modulo a prime. -/
def invMod (a m : Nat) : Nat := powMod a (m - 2) m

/-- a - b modulo m. -/
def subMod (a b m : Nat) : Nat := (a + (m - b % m)) % m

/-- The sum of two points of the curve (none: the point at infinity). -/
def p256Add (a b : Option (Nat × Nat)) : Option (Nat × Nat) :=
  match a, b with
  | none, b => b
  | a, none => a
  | some (x1, y1), some (x2, y2) =>
    let m := p256P
    let go (l : Nat) : Option (Nat × Nat) :=
      let x3 := subMod (subMod (l * l) x1 m) x2 m
      some (x3, subMod (l * subMod x1 x3 m) y1 m)
    if x1 = x2 then
      if (y1 + y2) % m = 0 then none
      else go ((3 * x1 * x1 + (m - 3)) * invMod (2 * y1) m % m)
    else go (subMod y2 y1 m * invMod (subMod x2 x1 m) m % m)

/-- A multiple of a point, the factor below 2^256. -/
def p256Mul (k : Nat) (a : Nat × Nat) : Option (Nat × Nat) :=
  ((List.range 256).foldl (fun (p : Option (Nat × Nat) × Option (Nat × Nat)) i =>
    (if k.testBit i then p256Add p.1 p.2 else p.1, p256Add p.2 p.2)) (none, some a)).1

/-- Does a signature r, s verify over a message under the key x, y? -/
def ecdsaOk (m : List Byte) (x y r s : Nat) : Bool :=
  let e := beNat (sha256 m)
  let onCurve := x < p256P && y < p256P && y * y % p256P == (x * x * x + (p256P - 3) * x + p256B) % p256P
  let w := invMod s p256N
  let q := p256Add (p256Mul (e * w % p256N) p256G) (p256Mul (r * w % p256N) (x, y))
  onCurve && decide (0 < r) && decide (r < p256N) && decide (0 < s) && decide (s < p256N) &&
    (match q with
     | some (qx, _) => qx % p256N == r
     | none => false)

end Sys2Proof
end

