-- ==== Sys2Proof/Machine/Package.lean ====
section
/-! DEFINITION. Flash banks, packages and parts (17_field_update R337–R339): the layout of a bank, the manifest and its
entries, delta payloads. -/

namespace Sys2Proof.Machine

/-! ### Flash banks (R337) -/

/-- First flash address of a bank. -/
def bankBase (bank : Bool) : Nat := if bank then 0x400000 else 0

/-- A flash byte: as written since the board was shipped, else as shipped. -/
def State.flashByte (s : State) (a : Nat) : Byte := (cellGet? s.upd.flash a).getD (Config.flashInit a)

/-- Bytes of the flash. -/
def State.flashBytes (s : State) (a n : Nat) : List Byte := (List.range n).map (fun k => s.flashByte (a + k))

/-- Flash bytes written, in ascending order. -/
def State.flashWrite (s : State) (a : Nat) (bs : List Byte) : State :=
  let put := (bs.zip (List.range bs.length)).foldl (fun (m : Cells Byte) (p : Byte × Nat) => cellIns m (a + p.2) p.1) s.upd.flash
  { s with upd := { s.upd with flash := put } }

/-- Offset in a bank and size of the region of a part kind (Table UPD.1). -/
def regionOf (kind : Nat) : Nat × Nat :=
  match kind with
  | 1 => (0x010000, 0x40000)
  | 2 | 8 => (0x050000, 0x1C0000)
  | 3 => (0x210000, 0x80000)
  | 4 => (0x290000, 0x40000)
  | 5 | 6 => (0x2D0000, 0x20000)
  | 7 => (0x2F0000, 0x100000)
  | _ => (0, 0)

/-- Offset in a bank at which the result of a part stands: the start of its region, but for overlays and slot images, of which a
region holds several (no layout is given; log 14). -/
def partPlace (kind param rlen : Nat) : Nat :=
  let r := regionOf kind
  r.1 + (if kind = 6 ∨ kind = 7 then Config.partPlace kind param % (r.2 + 1 - rlen) else 0)

/-- Privileged parts: boot stage and recovery image (R338). -/
def privileged (kind : Nat) : Bool := kind = 1 || kind = 3

/-! ### Manifest (R338, Tables UPD.2 and UPD.3) -/

/-- A manifest entry from its 64 bytes. -/
def entryOf (b : List Byte) : Entry :=
  { kind := leAt b 0 1, target := leAt b 1 1, param := leAt b 2 1, enc := leAt b 3 1, ver := leAt b 4 4, rbi := leAt b 8 4
    rlen := leAt b 12 4, poff := leAt b 16 4, plen := leAt b 20 4, rhash := BitVec.ofNat 256 (leAt b 24 32), base := leAt b 56 4 }

/-- Is an entry well-formed by itself, in a package of a length? The slot kinds are those of 09_slot Table SLT.2. -/
def entryOk (len : Nat) (b : List Byte) : Bool :=
  let e := entryOf b
  decide (1 ≤ e.kind ∧ e.kind ≤ 8) && decide (e.target < 8) && decide (e.enc ≤ 1) && decide (e.rlen ≤ (regionOf e.kind).2) &&
    (if privileged e.kind then decide (e.rbi ≤ 128) else e.rbi = 0) &&
    (if e.kind = 6 then decide (e.param ≤ 7) else if e.kind = 7 then decide (1 ≤ e.param ∧ e.param ≤ 5) else e.param = 0) && decide (e.poff + e.plen ≤ len) && leAt b 60 4 = 0

/-- Do the payloads of a list of entries stand in ascending order without overlap? -/
def payloadsOk : List Entry → Bool
  | [] => true
  | [_] => true
  | a :: b :: l => decide (a.poff < b.poff) && decide (a.poff + a.plen ≤ b.poff) && payloadsOk (b :: l)

/-- Length of the manifest that a header begins: header, entries, signature. -/
def manifestLen (b : List Byte) : Nat := 128 + 64 * leAt b 6 2 + 64

/-- Is a header well-formed? -/
def headerOk (b : List Byte) : Bool :=
  leAt b 0 4 = 0x464D5154 && leAt b 4 2 = 1 && decide (1 ≤ leAt b 6 2 ∧ leAt b 6 2 ≤ 32) && leAt b 20 4 = 0 && leAt b 120 8 = 0

/-- The bytes of entry i. -/
def entryBytes (b : List Byte) (i : Nat) : List Byte := byteSlice b (128 + 64 * i) 64

/-- The manifest that bytes spell. -/
def manifestOf (b : List Byte) : Manifest :=
  let n := leAt b 6 2
  { n := n, epoch := BitVec.ofNat 64 (leAt b 8 8), plen := leAt b 16 4, pubkey := BitVec.ofNat 512 (leAt b 24 64)
    digest := BitVec.ofNat 256 (leAt b 88 32), entries := (List.range n).map (fun i => entryOf (entryBytes b i)) }

/-- Is every entry well-formed (R338)? -/
def entriesOk (b : List Byte) : Bool :=
  let m := manifestOf b
  (List.range m.n).all (fun i => entryOk m.plen (entryBytes b i)) && payloadsOk m.entries

/-- Does the signature of a manifest verify under its public key (R338)? x, y, r and s are multi-byte fields, little-endian. -/
def signatureOk (b : List Byte) : Bool :=
  let n := 128 + 64 * leAt b 6 2
  ecdsaOk (b.take n) (leAt b 24 32) (leAt b 56 32) (leAt b n 32) (leAt b (n + 32) 32)

/-- Is the public key of a manifest the one the fuses ask for (R338, 13_fuse R266)? -/
def State.keyOk (s : State) (b : List Byte) : Bool :=
  let h := digest256 (byteSlice b 24 64)
  if s.otp.live.key = 0 then h = Config.defaultKeyHash else s.otp.live.key = 1 && h = s.otp.live.keyHash

/-! ### Parts (R339) -/

/-- Manifest bytes that a bank holds at its start. -/
def State.bankManifest (s : State) (bank : Bool) : List Byte :=
  let h := s.flashBytes (bankBase bank) 128
  if headerOk h then s.flashBytes (bankBase bank) (manifestLen h) else []

/-- Does an entry name this unit (Table UPD.3, R352)? -/
def State.targeted (s : State) (e : Entry) : Bool :=
  if s.sys.role = .arbiter then bitAt e.target 2 else bitAt e.target (b2n s.unitBit)

/-- Is a part this unit's to decode and verify: the entry names it (R344), or the boot ROM is at work (R353)? -/
def State.partMine (s : State) (e : Entry) : Bool := s.sys.step = 15 || s.targeted e

/-- The version of this unit's part in a bank; none where its manifest does not name the part. -/
def State.partVer (s : State) (bank : Bool) (e : Entry) : Option Nat :=
  match s.bankManifest bank with
  | [] => none
  | b => ((manifestOf b).entries.find? (fun x => x.kind = e.kind && x.param = e.param && s.targeted x)).map Entry.ver

/-- A delta payload applied to a region of the active bank: the result, or none where an operation is not well-formed, reads
beyond the region, or writes beyond rlen (Table UPD.4). -/
def deltaRun (old : Nat → Byte) (size rlen : Nat) : Nat → List Byte → List Byte → Option (List Byte)
  | 0, _, _ => none
  | fuel + 1, b, out =>
    let emit (bs rest : List Byte) : Option (List Byte) :=
      if out.length + bs.length ≤ rlen then deltaRun old size rlen fuel rest (out ++ bs) else none
    match (b.headD 0xFF).toNat with
    | 0 => if out.length = rlen then some out else none
    | 1 =>
      let src := leAt b 1 4
      let n := leAt b 5 3
      if b.length < 8 ∨ size < src + n then none else emit ((List.range n).map (fun i => old (src + i))) (b.drop 8)
    | 2 =>
      let src := leAt b 1 4
      let n := leAt b 5 3
      if b.length < 8 + n ∨ size < src + n then none
      else emit ((List.range n).map (fun i => old (src + i) + b.getD (8 + i) 0)) (b.drop (8 + n))
    | 3 =>
      let n := leAt b 1 3
      if b.length < 4 + n then none else emit ((b.drop 4).take n) (b.drop (4 + n))
    | _ => none

/-- The result of a part of a package, or the reason it fails (R339, R344; R355 for the codes): FORMAT 0x0B, BASE 0x0D. -/
def State.partResult (s : State) (pkg : List Byte) (e : Entry) : List Byte ⊕ Nat :=
  let p := byteSlice pkg e.poff e.plen
  if e.enc = 0 then (if e.plen = e.rlen then .inl p else .inr 0x0B)
  else if s.partVer s.upd.rec1.bank e ≠ some e.base then .inr 0x0D
  else
    let r := regionOf e.kind
    match deltaRun (fun i => s.flashByte (bankBase s.upd.rec1.bank + r.1 + i)) r.2 e.rlen (p.length + 1) p [] with
    | some out => .inl out
    | none => .inr 0x0B

/-- The slot image that an entry of the manifest in hand holds. -/
def State.slotImage (s : State) (i : Nat) : List Byte :=
  match s.upd.man.bind (fun m => m.entries[i]?) with
  | some e => match s.partResult s.upd.pkg e with
    | .inl b => b
    | .inr _ => []
  | none => []

end Sys2Proof.Machine
end

