-- ==== Sys2Proof/Machine/Slots.lean ====
section
/-! DEFINITION. Slot links (09_slot_links): frames, declaration and link state, the mailbox of both ends, and the slot module as
far as the spec states it. -/

namespace Sys2Proof.Machine

/-! ### The mailbox (R193–R196) -/

/-- A message cut into chunks of four bytes. -/
def chunksOf : Nat → List Byte → Bool → List Chunk
  | 0, _, _ => []
  | f + 1, m, som =>
    let d := byteSlice m 0 4
    let v : Vector Byte 4 := Vector.ofFn (fun i => d.getD i.val 0)
    if m.length ≤ 4 then [⟨v, som, true, m.length⟩] else ⟨v, som, false, 4⟩ :: chunksOf f (m.drop 4) false

/-- A message enters a sender's queue. -/
def Mbx.put (m : Mbx) (msg : List Byte) : Mbx := { m with txq := m.txq ++ chunksOf 64 msg true }

/-- mb_ack arrives: every chunk up to it is acknowledged. -/
def Mbx.ack (m : Mbx) (ackv : Bool) (a : BitVec 8) : Mbx :=
  if ackv && m.unack.any (fun c => c.1 == a) then
    let rest := (m.unack.dropWhile (fun c => c.1 != a)).drop 1
    { m with unack := rest, frames := 0, again := min m.again rest.length }
  else m

/-- What a frame carries: a chunk sent again, else a new one while fewer than 8 are unacknowledged, else none (R194). -/
def Mbx.send (m : Mbx) : Mbx × Option (BitVec 8 × Chunk) :=
  let m1 := { m with frames := if m.unack.isEmpty then 0 else m.frames + 1 }
  match m.unack[m.unack.length - m.again]?, m.txq with
  | some c, _ => ({ m1 with again := m.again - 1 }, some c)
  | none, c :: q =>
    if m.unack.length < 8 then ({ m1 with txq := q, unack := m.unack ++ [(m.seq, c)], seq := m.seq + 1 }, some (m.seq, c))
    else (m1, none)
  | none, [] => (m1, none)

/-- Six frames without an advance: the chunks from the oldest on are to be sent again (R194). -/
def Mbx.stalled (m : Mbx) : Bool := !m.unack.isEmpty && decide (6 ≤ m.frames)

/-- The resend begins. -/
def Mbx.resend (m : Mbx) : Mbx := { m with again := m.unack.length, frames := 0 }

/-- mb_ctl, mb_seq, mb_ack and mb_data of a frame (Table SLT.4). -/
def Mbx.fields (m : Mbx) (c : Option (BitVec 8 × Chunk)) : Byte × Byte × Byte × List Byte :=
  let ack := b2n m.ackv * 16
  let a : Byte := if m.ackv then m.expect - 1 else 0
  match c with
  | some (q, ch) => (BitVec.ofNat 8 (128 + b2n ch.som * 64 + b2n ch.eom * 32 + ack + ch.n), q, a, ch.data.toList)
  | none => (BitVec.ofNat 8 ack, 0, a, [0, 0, 0, 0])

/-- What a received chunk does: the mailbox, a complete message, a message discarded with its type (R194, R195; log 41). -/
def Mbx.take (m : Mbx) (ctl seq : Byte) (data : List Byte) : Mbx × Option (List Byte) × Option Nat :=
  if !(bitAt ctl.toNat 7 && seq == m.expect) then (m, none, none)
  else
    let som := bitAt ctl.toNat 6
    let eom := bitAt ctl.toNat 5
    let n := if eom then ctl.toNat % 8 else 4
    let m1 := { m with expect := m.expect + 1, ackv := true }
    let type := fun (l : List Byte) => (l.headD 0).toNat
    if !som && m.bad then ({ m1 with bad := !eom }, none, none)
    else if !som && !m.inMsg then ({ m1 with bad := !eom }, none, some (type data))
    else
      let msg := (if som then [] else m.part) ++ data.take n
      if n = 0 ∨ 4 < n ∨ 256 < msg.length then ({ m1 with part := [], inMsg := false, bad := !eom }, none, some (type msg))
      else if eom then ({ m1 with part := [], inMsg := false, bad := false }, some msg, none)
      else ({ m1 with part := msg, inMsg := true, bad := false }, none, none)

/-! ### The controller's side -/

/-- A slot link replaced by its image. -/
def State.modSlt (s : State) (k : Fin 32) (f : Slt → Slt) : State := { s with slt := modAt s.slt k f }

/-- A slot event (Table SLT.6). -/
def State.slotEvent (s : State) (k : Fin 32) (cause mid : Nat) (hi : Int) : State := s.fire (0x60 + k.val) cause mid hi

/-- A frame is valid (R179). -/
def frameValid (f : Frame) : Bool := f.syncOk && f.codeOk && crc16 f.payload.toList == f.crc.toNat

/-- An uplink as the controller decodes it: with rx_inv not as the lane needs it, every frame shows code and disparity violations
(R177). -/
def State.uplinkSeen (s : State) (k : Fin 32) (f : Frame) : Frame :=
  { f with codeOk := f.codeOk && (s.bit (F.SLT_CFG.rx_inv k) == s.slt[k].rxSwap) }

/-- The declaration a frame carries: class, fs, ver (Table SLT.2). -/
def frameDecl (f : Frame) : Byte × Nat × Byte := (f.payload[19], leAt f.payload.toList 24 4, f.payload[29])

/-- Is a declaration compatible (R186)? -/
def State.declOk (s : State) (k : Fin 32) (d : Byte × Nat × Byte) : Bool :=
  let kind := d.1.toNat / 16
  let exp := s.fld (F.SLT_CFG.exp_kind k)
  d.2.2 = 1 && decide (1 ≤ kind ∧ kind ≤ 5) && decide (1 ≤ d.2.1 ∧ d.2.1 ≤ 0x7FFFFFFF) && (exp = 0 || kind = exp) &&
    (!s.bit (F.HBX_SRC_CFG.en k) || bitAt d.1.toNat 0) && (!s.isLoad k || (bitAt d.1.toNat 1 && bitAt d.1.toNat 2))

/-- The configuration that a declaration is checked against. -/
def State.declCfg (s : State) (k : Fin 32) : List Word :=
  [s.word (0x18004 + 0x100 * k.val) 0xA04, s.word (0x14400 + 0x40 * k.val) 0, s.word (0x15400 + 0x20 * k.val) 0]

/-- A command waiting for a mailbox answer of slot k gets its result (18_host_rings Table HST.7). -/
def State.mbResult (s : State) (q : MbReq) (r : CmdRes) : State :=
  match q.host with
  | some (ring, idx) => { s with hst := { s.hst with
      cmd := modAt s.hst.cmd ring (fun c => c.map (fun c => if c.started && BitVec.ofNat 16 c.index == idx && c.res.isNone then { c with res := some r } else c)) } }
  | none => s

/-- A result without data. -/
def CmdRes.of (status : Nat) : CmdRes := ⟨status, [], 0, 0, 0⟩

/-! ### Relay of slot images (17_field_update R351) -/

/-- The relay to a slot ends without a verified image. -/
def State.fwEnd (s : State) (k : Fin 32) : State :=
  match s.slt[k].fw with
  | some _ =>
    { s.modSlt k (fun l => { l with fw := none }) with
      upd := { s.upd with slots := s.upd.slots &&& ~~~BitVec.ofNat 32 (2 ^ k.val) } }
  | none => s

/-- A request of a slot's mailbox under the lowest free tag: the message after its tag; none while four are outstanding (R196). -/
def State.mbSend (s : State) (k : Fin 32) (host : Option (Fin 4 × BitVec 16)) (type : Byte) (rest : List Byte) : Option State :=
  ((List.finRange 4).find? (fun t => !s.slt[k].req.any (fun q => q.tag = t))).map (fun t =>
    s.modSlt k (fun l => { l with mbx := l.mbx.put ([type, BitVec.ofNat 8 t.val] ++ rest), req := l.req ++ [⟨t, host, s.time⟩] }))

/-- Message number pos of the relay of an image: FW_CTL begin, FW_BLOCKs of 240 bytes, FW_CTL verify (Table SLT.5). The 32-bit
argument of begin and verify is not stated: a free value. -/
def fwMessage (image : List Byte) (pos v : Nat) : Byte × List Byte :=
  let n := (image.length + 239) / 240
  if pos = 0 then (4, 0x01 :: leBytes 4 v)
  else if pos ≤ n then
    let o := 240 * (pos - 1)
    let d := (image.drop o).take 240
    (3, leBytes 4 o ++ leBytes 2 d.length ++ d)
  else (4, 0x02 :: leBytes 4 v)

/-- The next message of a slot's relay is sent where none is on its way and a tag is free. -/
def State.fwPump (s : State) (k : Fin 32) : State :=
  match s.slt[k].fw with
  | some f =>
    if f.sent then s
    else
      let m := fwMessage (s.slotImage f.entry) f.pos (s.free.toNat % 2 ^ 32)
      match s.mbSend k none m.1 m.2 with
      | some s1 => (if m.1 = 4 then s1.drawn else s1).modSlt k (fun l => { l with fw := some { f with sent := true } })
      | none => s
  | none => s

/-- FW_STATUS to the relay: OK goes on, and ends it after verify with the slot's bit set; any other status leaves the slot
out. -/
def State.fwStep (s : State) (k : Fin 32) (status : Nat) : State :=
  match s.slt[k].fw with
  | some f =>
    if status ≠ 0 then s.fwEnd k
    else if f.pos ≤ ((s.slotImage f.entry).length + 239) / 240 then
      s.modSlt k (fun l => { l with fw := some ⟨f.entry, f.pos + 1, false⟩ })
    else
      { s.modSlt k (fun l => { l with fw := none }) with upd := { s.upd with slots := s.upd.slots ||| BitVec.ofNat 32 (2 ^ k.val) } }
  | none => s

/-- The mailbox of this unit's port restarts at both ends: partial messages and unacknowledged chunks are discarded, requests in
flight complete with LINK_DOWN (R195). -/
def State.mbxReset (s : State) (k : Fin 32) : State :=
  let s1 := s.slt[k].req.foldl (fun s q => s.mbResult q (CmdRes.of 6)) s
  let s2 := (s1.fwEnd k).modSlt k (fun l => { l with mbx := .zero, req := [] })
  { s2 with slot := modAt s2.slot k (fun m => { m with port := modAt m.port s.ownPort (fun q => { q with mbx := .zero }) }) }

/-- The link leaves UP or DECL_ERR for TRAIN (R187, Table SLT.9). -/
def State.toTrain (s : State) (k : Fin 32) : State :=
  let l := s.slt[k]
  let c := l.lossCnt.inc
  let s0 := { s with upd := { s.upd with act := s.upd.act.map (fun (a : Fin 32 × Nat × Bool) => if a.1 = k then (a.1, a.2.1, true) else a) } }
  let s1 := (s0.modSlt k (fun l => { l with lstate := 1, run := 0, lossCnt := c })).satEv l.lossCnt c (0x60 + k.val) (0x18040 + 0x100 * k.val)
  if l.lstate = 2 then s1.mbxReset k else s1

/-- The link follows SLT_CFG.en, and DECL_ERR a change of the configuration (R187). -/
def State.linkSync (s : State) (k : Fin 32) : State :=
  let l := s.slt[k]
  if !s.bit (F.SLT_CFG.en k) then
    (if l.lstate = 0 then s else (if l.lstate = 2 then s.mbxReset k else s).modSlt k (fun l => { l with lstate := 0, run := 0, decl := none, last := none }))
  else if l.lstate = 0 then s.modSlt k (fun l => { l with lstate := 1, run := 0 })
  else if l.lstate = 3 ∧ s.declCfg k ≠ l.errCfg then s.toTrain k
  else s

/-- The link comes UP: held declaration, fresh mailbox, the source seeded (06_headbox R118), the load uncapped (07_hold_up
R141). -/
def State.linkUpNow (s : State) (k : Fin 32) (d : Byte × Nat × Byte) : State :=
  let s1 := s.modSlt k (fun l => { l with lstate := 2, held := d, mbx := .zero, req := [] })
  let s2 := s1.modSrc ⟨k.val, by omega⟩ (fun x => { x with seed := true })
  let s3 := { s2 with dkl := { s2.dkl with ld := modAt s2.dkl.ld k (fun l => { l with c := none, held := false }) } }
  (s3.stick (F.SLT_STAT.up k)).slotEvent k 0x01 d.1.toNat d.2.1

/-- The declaration of a valid uplink acts on the link state (R187). -/
def State.declStep (s : State) (k : Fin 32) (d : Byte × Nat × Byte) : State :=
  let l := s.slt[k]
  let near := match l.last with
    | some t => decide (s.time ≤ t + 5500 * ns1)
    | none => false
  if l.lstate = 2 ∨ l.lstate = 3 then
    let old := if l.lstate = 2 then some l.held else l.decl
    if old = some d then s
    else
      let s1 := (s.toTrain k).modSlt k (fun l => { l with run := 1, decl := some d })
      (s1.stick (F.SLT_STAT.decl k)).slotEvent k 0x04 d.1.toNat d.2.1
  else if l.lstate = 1 then
    let run := if 0 < l.run ∧ l.decl = some d ∧ near = true then l.run + 1 else 1
    let s1 := s.modSlt k (fun l => { l with run := run, decl := some d })
    if run < 16 then s1
    else if s.declOk k d then s1.linkUpNow k d
    else
      let s2 := s1.modSlt k (fun l => { l with lstate := 3, errCfg := s.declCfg k })
      (s2.stick (F.SLT_STAT.decl k)).slotEvent k 0x03 d.1.toNat d.2.1
  else s

/-- SLOT_STATUS_EVENT (R198): rises of fault, input_lost and local in UP. -/
def State.statusEvents (s : State) (k : Fin 32) (old new : Nat) (i : Int) : State :=
  let rise := fun (b : Nat) => bitAt new b && !bitAt old b
  let s1 := if rise 14 then s.slotEvent k 0x05 0 new else s
  let s2 := if rise 15 then s1.slotEvent k 0x06 0 i else s1
  if rise 12 then s2.slotEvent k 0x07 0 new else s2

/-- MB_MESSAGE_RECEIVED (R196): a RESPONSE or FW_STATUS answers its request; an ALERT is reported. -/
def State.mbMessage (s : State) (k : Fin 32) (m : List Byte) : State :=
  let b := fun (i : Nat) => (m.getD i 0).toNat
  let mine := s.slt[k].req.filter (fun q => q.tag.val = b 1)
  let drop := fun (s : State) => s.modSlt k (fun l => { l with req := l.req.filter (fun q => q.tag.val ≠ b 1) })
  match b 0 with
  | 2 => mine.foldl (fun s q =>
      if q.host.isSome then s.mbResult q ⟨0, m, BitVec.ofNat 32 (b 2), BitVec.ofNat 32 (b 3), 0⟩ else s) (drop s)
  | 5 => if mine.any (fun q => q.host.isNone) then (drop s).fwStep k (b 2) else s
  | 6 => (s.stick (F.SLT_STAT.alert k)).slotEvent k 0x0A (b 1) (leAt m 2 4)
  | _ => s

/-- The mailbox bytes of a valid uplink (R194–R196), while the link is UP. -/
def State.mbReceive (s : State) (k : Fin 32) (p : List Byte) : State :=
  if s.slt[k].lstate ≠ 2 then s
  else
    let ctl := p.getD 16 0
    let m1 := s.slt[k].mbx.ack (bitAt ctl.toNat 4) (p.getD 18 0)
    let r := m1.take ctl (p.getD 17 0) (byteSlice p 20 4)
    let s1 := s.modSlt k (fun l => { l with mbx := r.1 })
    let s2 := match r.2.1 with
      | some m => (s1.mbMessage k m).fwPump k
      | none => s1
    match r.2.2 with
    | some t => (s2.stick (F.SLT_STAT.mberr k)).slotEvent k 0x08 t 0
    | none => s2

/-- An uplink that is not valid (R179, Table SLT.9, R198). -/
def State.badUplink (s : State) (k : Fin 32) (f : Frame) : State :=
  let l := s.slt[k]
  let cv := if f.codeOk then l.cvErr else l.cvErr.inc
  let cr := if f.codeOk && crc16 f.payload.toList != f.crc.toNat then l.crcErr.inc else l.crcErr
  let s1 := (s.modSlt k (fun l => { l with cvErr := cv, crcErr := cr, run := 0, crcArm := false })).stick (F.SLT_STAT.crc k)
  let s2 := (s1.satIf (f.codeOk && crc16 f.payload.toList != f.crc.toNat) l.crcErr cr (0x60 + k.val) (0x18038 + 0x100 * k.val)).satIf
    (!f.codeOk) l.cvErr cv (0x60 + k.val) (0x1803C + 0x100 * k.val)
  if l.crcArm then s2.slotEvent k 0x09 0 cr.word.toNat else s2

/-- UPLINK_FRAME_RECEIVED (R177, R179, R187, R188, R192, R194, R198). -/
def execUplinkFrameReceived (k : Fin 32) (f0 : Frame) (s0 : State) : Host.Outcome State Fault Refusal :=
  let f := s0.uplinkSeen k f0
  if !(s0.works && s0.runs .lnk && s0.bit (F.SLT_CFG.en k)) then ok s0
  else if !frameValid f then ok (s0.badUplink k f)
  else
    let s := s0.linkSync k
    let l := s.slt[k]
    let p := f.payload.toList
    let gap := l.fcnt.any (fun c => c + 1 != f.payload[2])
    let gc := if gap then l.gapCnt.inc else l.gapCnt
    let i : BitVec 32 := BitVec.ofNat 32 (leAt p 4 4)
    let v : BitVec 32 := BitVec.ofNat 32 (leAt p 8 4)
    let rtt := (l.starts.find? (fun x => x.1 == f.payload[28])).map (fun x => (s.time - x.2) / ns1)
    let s1 := s.modSlt k (fun l =>
      { l with
        status := BitVec.ofNat 16 (leAt p 0 2), follow := f.payload[3], i := i, v := v, t := BitVec.ofNat 16 (leAt p 12 2)
        applied := BitVec.ofNat 16 (leAt p 14 2), na := i == 0x80000000 || v == 0x80000000, fcnt := some f.payload[2]
        rxts := BitVec.ofNat 32 s.sns64, gapCnt := gc
        rttLast := (rtt.map (min 65535)).getD l.rttLast
        rttWorst := max l.rttWorst ((rtt.map (min 65535)).getD 0) })
    let s2 := (s1.satIf gap l.gapCnt gc (0x60 + k.val) (0x18044 + 0x100 * k.val)).stickIf (rtt.any (fun r => decide (5500 < r))) (F.SLT_STAT.late k)
    let s3 := if l.lstate = 2 then s2.statusEvents k l.status.toNat (leAt p 0 2) i.toInt else s2
    let s4 := (s3.declStep k (frameDecl f)).mbReceive k p
    ok (s4.modSlt k (fun l => { l with last := some s.time }))

/-- LINK_LOST (R187): no valid uplink has ended for 15.5 µs. -/
def execLinkLost (k : Fin 32) (s : State) : Host.Outcome State Fault Refusal :=
  let l := s.slt[k]
  ok (s.whenDue (s.works && s.runs .lnk && (l.lstate = 2 || l.lstate = 3)) l.last (15500 * ns1) (fun s =>
    let s1 := (s.toTrain k).stick (F.SLT_STAT.lost k)
    s1.slotEvent k 0x02 l.lstate s1.slt[k].lossCnt.word.toNat))

/-- LINK_RETRAIN (R187). -/
def execLinkRetrain (k : Fin 32) (s : State) : Host.Outcome State Fault Refusal :=
  let st := s.slt[k].lstate
  if !(s.runs .lnk && st ≠ 0) then ok s
  else if st = 2 ∨ st = 3 then ok (s.toTrain k)
  else ok (s.modSlt k (fun l => { l with run := 0 }))

/-- MB_RESEND (R194). -/
def execMbResend (k : Fin 32) (s : State) : Host.Outcome State Fault Refusal :=
  let l := s.slt[k]
  let c := l.mbrtx.inc
  ok (s.when (s.runs .lnk && l.lstate = 2 && l.mbx.stalled)
    ((s.modSlt k (fun l => { l with mbx := l.mbx.resend, mbrtx := c })).satEv l.mbrtx c (0x60 + k.val) (0x18048 + 0x100 * k.val)))

/-- MB_REQUEST_TIMEOUT (R196): the request completes with TIMEOUT. -/
def execMbRequestTimeout (k : Fin 32) (tag : Fin 4) (s : State) : Host.Outcome State Fault Refusal :=
  match s.slt[k].req.find? (fun (q : MbReq) => q.tag = tag) with
  | none => ok s
  | some q0 =>
    ok (s.whenAt (s.runs .lnk) (q0.at_ + s.fld (F.SLT_CFG.mb_to k) * ms1) (fun s =>
      let due := fun (q : MbReq) => q.tag = tag && decide (q.at_ + s.fld (F.SLT_CFG.mb_to k) * ms1 ≤ s.time)
      let hit := s.slt[k].req.filter due
      let s1 := hit.foldl (fun s q => s.mbResult q (CmdRes.of 5)) s
      let s2 := if hit.any (fun q => q.host.isNone) then s1.fwEnd k else s1
      (s2.modSlt k (fun l => { l with req := l.req.filter (fun q => !due q) })).fwPump k))

/-! ### Downlink (R180–R182) -/

/-- ctl of R182: on, soft, ident, spv. -/
def State.slotCtl (s : State) (k : Fin 32) (spv : Bool) : Nat :=
  let on := s.drives && s.bit (F.SLT_CTL.on k) && (!s.bit (F.SLT_CTL.seq_en k) || s.slotNode k)
  b2n on + 2 * b2n (s.bit (F.SLT_CTL.soft k)) + 4 * b2n (s.bit (F.SLT_CTL.ident k)) + 8 * b2n spv

/-- The payload fields of one slot as frozen now (R182, 06_headbox R123, 07_hold_up R143, 10_redundancy R215). -/
def State.freezeSlot (s : State) (k : Fin 32) (l : Slt) : Slt :=
  let src : Fin 40 := ⟨k.val, by omega⟩
  let spv := s.drives && s.linkUp k && s.bit F.HBX_CTL.en && s.srcEn src
  let sp := if spv then satN 16 (rdiv (s.hbx.src[src].prev * 32768) (s.slotFs k)) else 0
  let cap := if s.drives && s.isLoad k && s.bit F.DKL_CTL.en then s.dkl.deliv[k] else 0x7FFF
  { l with froz := (s.red.claim, BitVec.ofInt 16 sp, BitVec.ofNat 16 cap, BitVec.ofNat 8 (s.slotCtl k spv), BitVec.ofNat 8 (s.fld (F.SLT_CFG.hold k))) }

/-- The downlink payload of a frame that starts now, with the mailbox after it (Table SLT.1). -/
def State.downlink (s : State) (k : Fin 32) : Vector Byte 36 × Mbx :=
  let z := s.slt[k].froz
  let snd := if s.slt[k].lstate = 2 then s.slt[k].mbx.send else (s.slt[k].mbx, none)
  let m := s.slt[k].mbx.fields snd.2
  let bs := [z.1, BitVec.ofNat 8 s.tick] ++ leBytes 2 z.2.1.toNat ++ leBytes 2 z.2.2.1.toNat ++ [z.2.2.2.1, z.2.2.2.2] ++ leBytes 4 s.tick ++
    [m.1, m.2.1, m.2.2.1, 0] ++ m.2.2.2 ++ leBytes 4 (toBits 32 (s.val busV)) ++ leBytes 4 (s.path k 8 7).toNat ++ List.replicate 8 0
  (Vector.ofFn (fun i => bs.getD i.val 0), snd.1)

/-- The symbols of a downlink frame (R178): sync pair, payload, CRC bits 15:8 first. -/
def downlinkSyms (p : Vector Byte 36) : Vector Sym 40 :=
  let c := crc16 p.toList
  Vector.ofFn (fun i => if i.val = 0 then .k285 else if i.val = 1 then .k282
    else if h : i.val - 2 < 36 then .d p[i.val - 2] else if i.val = 38 then .d (BitVec.ofNat 8 (c / 256)) else .d (BitVec.ofNat 8 c))

/-- The downlink lane of a slot as driven (R177, R180): the polarity SLT_CFG.tx_inv and the frame's symbols; none while the driver
is high-impedance. -/
def State.downLane (s : State) (k : Fin 32) : Option (Bool × Vector Sym 40) := s.slt[k].tx.map (fun v => (s.bit (F.SLT_CFG.tx_inv k), v))

/-- DOWNLINK_FRAME_START (R180): on every enabled link; elsewhere the driver is high-impedance. -/
def State.frameStart (s : State) (k : Fin 32) : State :=
  if s.works && s.runs .lnk && !s.aon.sd && s.bit (F.SLT_CFG.en k) then
    let d := s.downlink k
    s.modSlt k (fun l => { l with tx := some (downlinkSyms d.1), cut := false, mbx := d.2, starts := ((BitVec.ofNat 8 s.tick, s.time) :: l.starts).take 256 })
  else s.modSlt k (fun l => { l with tx := none, cut := false })

/-! ### The slot module (R189–R191, R194, R197) -/

/-- A slot module replaced by its image. -/
def State.modSlot (s : State) (k : Fin 32) (f : SlotMod → SlotMod) : State := { s with slot := modAt s.slot k f }

/-- The port with the higher claim; port 0 when both are equal, none when both are 0x00 (R189, 10_redundancy R210). -/
def followed (c : Port → Byte) : Option Port :=
  if claimRank (c 0) = 0 ∧ claimRank (c 1) = 0 then none else if claimHigher (c 1) (c 0) then some 1 else some 0

/-- The port a module follows now. -/
def SlotMod.refollow (m : SlotMod) : SlotMod := { m with follows := followed (fun p => m.port[p].claim) }

/-- The answer of a slot to a firmware message that it does not accept (R197): FW_STATUS with status 0x04. Its offset or result
is not stated: a free value. -/
def fwRefusal (tag : Byte) (v : Nat) : List Byte := [0x05, tag, 0x04] ++ leBytes 4 v

/-- What a slot answers to a message (R196, R197): to a REQUEST a RESPONSE under its tag, to an accepted FW_BLOCK or FW_CTL an
FW_STATUS, to one not accepted its refusal. The status (0x00 to 0x04; 0x01 for a code unknown to the slot) and the data are the
slot's own: free values. Answers carry no data unless the status is OK. -/
def slotAnswer (allowed : Bool) (msg : List Byte) (v : BitVec 64) (d : List Byte) : Option (List Byte) :=
  let tag := msg.getD 1 0
  let st := v.toNat % 5
  match (msg.headD 0).toNat with
  | 1 =>
    let data := if st = 0 ∧ 4 ≤ (msg.getD 2 0).toNat then d.take 240 else []
    some ([0x02, tag, BitVec.ofNat 8 st, BitVec.ofNat 8 data.length] ++ data)
  | 3 | 4 => some (if allowed then [0x05, tag, BitVec.ofNat 8 st] ++ leBytes 4 (v.toNat / 256) else fwRefusal tag v.toNat)
  | _ => none

/-- The mailbox of a port at a valid downlink frame (R194, R196, R197): acknowledgement, chunk, and the next chunk of its own. -/
def State.slotMailbox (s : State) (k : Fin 32) (p : Port) (pl : List Byte) : State :=
  let m := s.slot[k]
  let ctl := pl.getD 12 0
  let b0 := m.port[p].mbx.ack (bitAt ctl.toNat 4) (pl.getD 14 0)
  let r := b0.take ctl (pl.getD 13 0) (byteSlice pl 16 4)
  let allowed := m.follows = some p && claimRole m.port[p].claim = 3
  let ans := r.2.1.bind (fun msg => slotAnswer allowed msg s.free (Config.slotData s.freeCtr))
  let b1 := match ans with
    | some a => r.1.put a
    | none => r.1
  let b2 := (if b1.stalled then b1.resend else b1).send.1
  (if ans.isSome then s.drawn else s).modSlot k (fun m => { m with port := modAt m.port p (fun q => { q with mbx := b2 }) })

/-- SLOT_DOWNLINK_RECEIVED (R179, R189, R190): the claim, the followed port, a command of role 11, the mailbox. -/
def execSlotDownlinkReceived (k : Fin 32) (p : Port) (f : Frame) (s : State) : Host.Outcome State Fault Refusal :=
  if !frameValid f then ok s
  else
    let pl := f.payload.toList
    let s1 := s.modSlot k (fun m =>
      ({ m with port := modAt m.port p (fun q => { q with claim := claimTaken f.payload[0], last := some s.time, echo := f.payload[1] }) }).refollow)
    let c : SlotCmd := ⟨BitVec.ofNat 16 (leAt pl 2 2), BitVec.ofNat 16 (leAt pl 4 2), f.payload[6], f.payload[7].toNat % 16, s.time + us1⟩
    let s2 := s1.modSlot k (fun m => if m.follows = some p ∧ claimRole m.port[p].claim = 3 then { m with pend := some c } else m)
    ok (s2.slotMailbox k p pl)

/-- SLOT_FRAME_APPLY (R190, R191): within 1 µs of the frame; hold or local default ends. -/
def execSlotFrameApply (k : Fin 32) (s : State) : Host.Outcome State Fault Refusal :=
  match s.slot[k].pend with
  | some c => ok (s.modSlot k (fun m =>
      { m with sp := c.sp, cap := c.cap, ctl := c.ctl, hold := c.hold, run := .normal, last := some (c.due - us1), pend := none }))
  | none => ok s

/-- SLOT_CLAIM_EXPIRY (R189, R195): no valid frame has ended on the port for 15.5 µs; the mailbox restarts at both ends. -/
def execSlotClaimExpiry (k : Fin 32) (p : Port) (s : State) : Host.Outcome State Fault Refusal :=
  let q := s.slot[k].port[p]
  ok (s.whenDue true q.last (15500 * ns1) (fun s =>
    (if p = s.ownPort then s.mbxReset k else s).modSlot k (fun m =>
      ({ m with port := modAt m.port p (fun q => { q with claim := 0, last := none, mbx := .zero }) }).refollow)))

/-- SLOT_HOLD_BEGIN (R191). -/
def execSlotHoldBegin (k : Fin 32) (s : State) : Host.Outcome State Fault Refusal :=
  let m := s.slot[k]
  ok (s.whenDue (m.run = .normal) m.last (15500 * ns1 + 1) (fun s => s.modSlot k (fun m => { m with run := .hold })))

/-- SLOT_HOLD_EXPIRY (R191): the local default runs. -/
def execSlotHoldExpiry (k : Fin 32) (s : State) : Host.Outcome State Fault Refusal :=
  let m := s.slot[k]
  ok (s.whenDue (m.run = .hold) m.last ((15500 + 5000 * m.hold) * ns1 + 1) (fun s =>
    s.modSlot k (fun m => { m with run := .local_ })))

end Sys2Proof.Machine
end

