-- ==== Sys2Proof/Machine/Redundancy.lean ====
section
/-! DEFINITION. Claims and roles (10_redundancy R199–R216): the CLM line, power stages, the verdict port and the heartbeat. -/

namespace Sys2Proof.Machine

/-- The two straps that AON sampled at its power-good select ARBITER (R212). -/
def State.ballArbiter (s : State) : Bool := s.aon.soloBall && s.aon.unitBall

/-- Redundancy register fields replaced. -/
def State.modRed (s : State) (f : Red → Red) : State := { s with red := f s.red }

/-! ### The CLM line (R205–R207) -/

/-- The sync field of a CLM word, in chips (Table RED.3). -/
def clmSync : Vector Bool 8 := #v[true, true, true, false, false, false, true, false]

/-- The 32 chips of a CLM word (R205, Table RED.3): sync, claim bits 7 to 0, CRC bits 3 to 0; a data 1 is low then high. -/
def clmChips (c : Byte) (crc : BitVec 4) : Vector Bool 32 :=
  Vector.ofFn (fun i =>
    if h : i.val < 8 then clmSync[i.val]
    else
      let k := (i.val - 8) / 2
      let b := if k < 8 then c.getLsbD (7 - k) else crc.getLsbD (11 - k)
      if i.val % 2 = 0 then !b else b)

/-- CLM_WORD_START (R205–R207): at the next word start of the grid, the claim of the latch is taken into a word; before the tick
counter runs and in ARBITER the lines stay low. -/
def execClmWordStart (s : State) : Host.Outcome State Fault Refusal :=
  ok (s.whenAt (s.runs .ctl && s.tickAt.isSome) (gridDue s.red.wordNext (800 * ns1) s.time) (fun s =>
    s.modRed (fun r =>
      let crc := BitVec.ofNat 4 (crc4 r.claim)
      { r with word := some (r.claim, crc, s.time), chips := clmChips r.claim crc, wordNext := s.time + 800 * ns1 })))

/-! ### Power stages (R208–R211) -/

/-- A stage replaced by its image. -/
def State.modStage (s : State) (j : Fin 24) (f : StageMod → StageMod) : State := { s with stage := modAt s.stage j f }

/-- The stage follows the higher claim; a change of port, or a followed claim without role 0b11, starts both-off (R210). -/
def StageMod.refollow (m : StageMod) : StageMod :=
  let f := followed (fun p => m.claim[p])
  { m with follows := f, driving := m.driving && f == m.follows && f.any (fun p => claimRole m.claim[p] = 3) }

/-- STAGE_CLM_WORD_RECEIVED (R208–R210): a word that is not valid is discarded whole. -/
def execStageClmWordReceived (j : Fin 24) (p : Port) (w : ClmWord) (s : State) : Host.Outcome State Fault Refusal :=
  ok (s.when (w.syncOk && w.cellsOk && crc4 w.claim == w.crc.toNat)
    (s.modStage j (fun m =>
      ({ m with claim := modAt m.claim p (fun _ => claimTaken w.claim), last := modAt m.last p (fun _ => some s.time) }).refollow)))

/-- STAGE_CLAIM_EXPIRY (R209, R210): no valid word has ended on the port for 3,200 ns. -/
def execStageClaimExpiry (j : Fin 24) (p : Port) (s : State) : Host.Outcome State Fault Refusal :=
  ok (s.whenDue true s.stage[j].last[p] (3200 * ns1) (fun s =>
    s.modStage j (fun m => ({ m with claim := modAt m.claim p (fun _ => 0), last := modAt m.last p (fun _ => none) }).refollow)))

/-! ### Roles (R202, R214–R216) -/

/-- A restricted unit never becomes ready (14_start R285). The digest condition of R227: the digest of the peer equals the
unit's own, or the previous one while an update permits it (17_field_update R349). -/
def State.digestOk (s : State) : Bool :=
  match s.red.peerSt with
  | some p =>
    p.digest == s.upd.rec1.digest ||
      (decide (3 ≤ s.upd.phase ∧ s.upd.phase ≤ 6) && (p.digest == s.upd.prevDigest))
  | none => false

/-- The conditions under which a standby becomes ready (R227). -/
def State.readyOk (s : State) : Bool :=
  s.sys.role = .standby && !s.sys.restricted && !s.aon.demoted && s.runs .per && (s.red.link = .up || s.red.link = .oneLane) &&
    s.red.aligned && s.digestOk && decide (s.fld F.RED_SBY.ready_n ≤ s.red.accRun) && !s.red.lastMis

/-- STANDBY_READY (R227). -/
def State.readyUp (s : State) : State :=
  if !s.red.ready && s.readyOk then
    (((s.modRed (fun r => { r with ready := true })).stick F.RED_STAT.resync).fire 0xB3 0x03 0 0).latchClaim
  else s

/-- The standby is not ready any more (R227). -/
def State.readyDown (s : State) : State :=
  let s1 := s.modRed (fun r => { r with ready := false, accRun := 0 })
  (if s.red.ready then s1.fire 0xB3 0x04 0 0 else s1).latchClaim

/-- The RED fields that PER holds at their reset state; those that AON and the CLM serialisers hold stay (R441, 01_shelf R16). -/
def Red.perOff (r : Red) : Red :=
  { Red.reset with claim := r.claim, word := r.word, chips := r.chips, wordNext := r.wordNext, padLow := r.padLow }

/-- RED registers that PER serves and software writes (R441). -/
def perWords : List Nat := [F.RED_SBY.ready_n.off, F.RED_XCHK.n.off, F.RED_ATOL.atol.off, F.RED_DRILL.days.off]

/-- PER is power-gated: it keeps no state (01_shelf R16), its registers and its W1C bits of RED_STAT included (R441). -/
def State.perGated (s : State) : State :=
  let r := { s.regs with
    act := s.regs.act.filter (fun p => !perWords.contains p.1)
    sticky := s.regs.sticky.filter (fun p => p.1 != F.RED_XMASK0.mask.off && p.1 != F.RED_XMASK1.mask.off) }
  let s1 := { s with red := s.red.perOff, regs := r }
  ((s1.unstick F.RED_STAT.xmis).unstick F.RED_STAT.snaperr).unstick F.RED_STAT.resync

/-- DEMOTE_N accepted low (R207, R214, R216, R230): the claim drops, the unit is a STANDBY that is not ready.
PER of a SOLO unit comes up from its reset state (01_shelf R16). -/
def State.demoteNow (s : State) : State :=
  let c := s.aon.demCnt.inc
  let was := s.sys.role
  let a := { s.aon with demoted := true, demoteReq := false, demCnt := c }
  let drill := match s.red.drill with
    | some d => if d.step = 1 then some ⟨2, s.time⟩ else some d
    | none => none
  let role := if was = .undecided then was else Role.standby
  let s1 := { s with aon := a, sys := { s.sys with role := role }, red := { s.red with ready := false, accRun := 0, drill := drill } }
  let s2 := ((if was = .solo then s1.perGated else s1).hwFld F.RED_CTL.degrade 0).claimDrop
  let s3 := if was = .active ∨ was = .solo then s2.seqDemoted else s2
  let s4 := (s3.stick F.RED_STAT.demote).fire 0xB0 0x02 0 s3.red.claim.toNat
  let s5 := if s.red.ready then s4.fire 0xB3 0x04 0 0 else s4
  (s5.satEv s.aon.demCnt c 0xB0 0x1A038).lawSyncAll

/-- DEMOTE_N is high again (R214, R216, R230): resynchronisation begins; within a drill the former active unit counts as ready. -/
def State.demoteOff (s : State) : State :=
  let s1 := { s with aon := { s.aon with demoted := false } }
  match s.red.drill with
  | some d =>
    if d.step = 2 then ((s1.modRed (fun r => { r with ready := true })).fire 0xB3 0x03 0 0).latchClaim else s1.latchClaim
  | none => s1.latchClaim

/-- What every unit does that becomes ACTIVE or SOLO (R202, R207, 06_headbox R118, 03_law R61). -/
def State.takeDrive (s : State) (role : Role) (epoch : BitVec 5) : State :=
  let s1 := { s with aon := { s.aon with epoch := epoch }, sys := { s.sys with role := role }, red := { s.red with padLow := s.aon.sd, ready := false } }
  s1.seedAll.latchClaim.lawSyncAll

/-- DEMOTE_N_ACCEPT (R214): the ball has been low for 100 ns. -/
def execDemoteNAccept (s : State) : Host.Outcome State Fault Refusal :=
  if !s.aon.vaon ∨ s.ballArbiter ∨ s.aon.pinLow then ok s
  else
    let s1 := { s with aon := { s.aon with pinLow := true } }
    if s.aon.demoted then ok s1 else ok s1.demoteNow

/-- DEMOTE_N_RELEASE (R214): the ball is high again; a beacon demotion may still hold the level low (19_two_wire R390). -/
def execDemoteNRelease (s : State) : Host.Outcome State Fault Refusal :=
  if !s.aon.vaon ∨ s.ballArbiter ∨ !s.aon.pinLow then ok s
  else
    let s1 := { s with aon := { s.aon with pinLow := false } }
    if s.aon.bcnLow then ok s1 else ok s1.demoteOff

/-- TAKE_N_ACCEPT (R215, R216, R296, R230). A unit that the fuses keep from becoming ACTIVE ignores it (13_fuse Table OTP.2). -/
def execTakeNAccept (s : State) : Host.Outcome State Fault Refusal :=
  if !s.aon.vaon ∨ s.ballArbiter ∨ s.sys.role = .undecided ∨ s.strap ≠ .pair then ok s
  else if s.aon.demoted then ok ((s.stick F.RED_STAT.conflict).fire 0xB0 0x04 0 s.red.claim.toNat)
  else if s.sys.role ≠ .standby ∨ !s.red.ready ∨ s.otp.live.denyActive ∨ s.otp.live.unitFix = 3 then ok ((s.stick F.RED_STAT.take_ign).fire 0xB0 0x03 0 s.red.claim.toNat)
  else
    let c := s.aon.takeCnt.inc
    let e := match s.aon.peerEpoch with
      | some p => laterEpoch s.unitBit s.aon.epoch p
      | none => s.aon.epoch
    let s1 := ({ s with aon := { s.aon with takeCnt := c } }).seqTakeover.takeDrive .active (e + 1)
    let s2 := (s1.stick F.RED_STAT.took).fire 0xB0 0x01 0 s1.ownClaim.toNat
    let s3 := s2.satEv s.aon.takeCnt c 0xB0 0x1A034
    match s.red.drill with
    | some _ => ok ((s3.modRed (fun r => { r with drill := none })).fire 0xB5 0x04 0 0)
    | none => ok s3

/-! ### Heartbeat (R213, Table RED.6) -/

/-- The lowest-numbered condition of Table RED.6 that holds; 0 for none. -/
def State.hbCond (s : State) : Nat :=
  let strobes := s.sys.role ≠ .arbiter ∧ s.aon.strobeLost.toList.any id
  if !s.aon.good[0] then 1
  else if s.sys.inReset ∧ s.sys.rstCause = 8 then 2
  else if s.aon.sd then 3
  else if s.aon.transport then 4
  else if s.sys.role = .undecided then 5
  else if strobes then 6
  else if s.bit F.RED_CTL.degrade then 7
  else if s.aon.demoteReq then 8
  else if s.aon.fwDead && !s.sys.mgmtRestart then 9
  else if s.red.drill.any (fun d => d.step = 1) then 10
  else 0

/-- The form that Table RED.6 asks for: 0 static, 1 healthy, 2 degraded. -/
def State.hbWanted (s : State) : Nat := let c := s.hbCond; if c = 0 then 1 else if c ≤ 6 then 0 else 2

/-- The edge interval of a form (Table RED.6); 0 for the static one. -/
def hbStep (form : Nat) : Nat := if form = 1 then us1 else if form = 2 then 4 * us1 else 0

/-- Edges of VHB_OUT from the start of the form until now. -/
def State.hbEdges (s : State) : Nat := let d := hbStep s.aon.hb; if d = 0 then 0 else (s.time - s.aon.hbAt) / d

/-- Level of VHB_OUT (R212, R213): it starts at hbLvl and toggles at each edge of the form. -/
def State.vhbOut (s : State) : Bool := s.aon.hbLvl ^^ decide (s.hbEdges % 2 = 1)

/-- The first instant, not before t, at which the form being sent may change to another that has edges: an edge of it (R213). -/
def State.hbEdgeFrom (s : State) (t : Nat) : Nat :=
  let d := hbStep s.aon.hb
  if d = 0 then t else s.aon.hbAt + (t - s.aon.hbAt + d - 1) / d * d

/-- HEARTBEAT_FORM_CHANGE (R213): to a form with edges at an edge of the present one, from static with a rising edge; the degraded
form is held for 16 µs before the healthy one. Static low begins at once (within 1 µs of its cause; log 74). -/
def execHeartbeatFormChange (s : State) : Host.Outcome State Fault Refusal :=
  let w := s.hbWanted
  let from_ := if s.aon.hb = 2 ∧ w = 1 then max s.time (s.aon.hbAt + 16 * us1) else s.time
  let due := if w = 0 then s.time else s.hbEdgeFrom from_
  ok (s.whenAt (s.aon.vaon && !s.ballArbiter && w != s.aon.hb) due (fun s =>
    let lvl := if w = 0 then false else if s.aon.hb = 0 then true else s.vhbOut
    let s1 := { s with aon := { s.aon with hb := w, hbAt := s.time, hbLvl := lvl } }
    match w with
    | 0 => s1
    | 1 => s1.fire 0xB1 0x02 0 0
    | _ => s1.fire 0xB1 0x01 0 s.hbCond))

/-- The place of an island in the strobe record. -/
def strobeIdx : StrobeIsland → Fin 3
  | .ctl => 0 | .dsp => 1 | .lnk => 2

/-- An island raises its tick strobe. -/
def State.strobe (s : State) (i : StrobeIsland) : State :=
  { s with aon := { s.aon with strobe := modAt s.aon.strobe (strobeIdx i) (fun _ => s.time)
                               strobeLost := modAt s.aon.strobeLost (strobeIdx i) (fun _ => false) } }

/-- TICK_STROBE_TIMEOUT (R213): no strobe for 12 µs, in the roles in which the islands run. -/
def execTickStrobeTimeout (i : StrobeIsland) (s : State) : Host.Outcome State Fault Refusal :=
  ok (s.whenAt (s.aon.vaon && s.works) (s.aon.strobe[strobeIdx i] + 12 * us1) (fun s =>
    { s with aon := { s.aon with strobeLost := modAt s.aon.strobeLost (strobeIdx i) (fun _ => true) } }))

/-- FW_LIVENESS_TIMEOUT (R213). -/
def execFwLivenessTimeout (s : State) : Host.Outcome State Fault Refusal :=
  ok (s.whenAt (s.aon.vaon && !s.sys.mgmtRestart) (s.aon.liveAt + s.fld F.RED_HB.fw_ms * ms1)
    (fun s => { s with aon := { s.aon with fwDead := true } }))

/-- FW_LIVENESS_WRITE (R213): any write to RED_HB_LIVE. -/
def execFwLivenessWrite (s : State) : Host.Outcome State Fault Refusal :=
  ok (s.when (s.aon.vaon && s.exposed) { s with aon := { s.aon with liveAt := s.time, fwDead := false } })

end Sys2Proof.Machine
end

