-- ==== Sys2Proof/Machine/Arbiter.lean ====
section
/-! DEFINITION. The arbiter (10_redundancy R217–R219): heartbeat classes and verdicts. -/

namespace Sys2Proof.Machine

/-- The unit is an arbiter with its verdict balls in use (R212, R285). -/
def State.arbitrates (s : State) : Bool := s.aon.vaon && s.sys.role = .arbiter

/-- The arbiter's view of one unit replaced by its image. -/
def State.modArb (s : State) (x : Fin 2) (f : ArbUnit → ArbUnit) : State := { s with arb := { s.arb with u := modAt s.arb.u x f } }

/-- The other unit. -/
def otherUnit (x : Fin 2) : Fin 2 := if x = 0 then 1 else 0

/-- Class code of RED_ARB_STAT. -/
def HbClass.code : HbClass → Nat
  | .unknown => 0 | .healthy => 1 | .degraded => 2 | .dead => 3

/-- RED_ARB_STAT bits 3:0: levels of TAKE_B_N, DEMOTE_B_N, TAKE_A_N, DEMOTE_A_N; 0 while the unit is no arbiter, whose balls are
inputs (R212, R441). -/
def State.arbOut (s : State) : Nat :=
  let u := s.arb.u
  if s.sys.role ≠ .arbiter then 0 else
  b2n (!u[(1 : Fin 2)].take) * 8 + b2n u[(1 : Fin 2)].demote.isNone * 4 + b2n (!u[(0 : Fin 2)].take) * 2 + b2n u[(0 : Fin 2)].demote.isNone

/-- Table RED.8 calls for DEMOTE X. -/
def State.callDemote (s : State) (x : Fin 2) : Bool :=
  let a := s.arb.u[x].cls
  let b := s.arb.u[otherUnit x].cls
  ((a = .dead || a = .degraded) && b = .healthy) || (a = .dead && b = .degraded)

/-- Table RED.8 calls for TAKE Y, y being the other unit of x. -/
def State.callTake (s : State) (x : Fin 2) : Bool :=
  s.callDemote x && (s.arb.u[otherUnit x].cls = .healthy || s.bit F.RED_ARB.deg_take)

/-- The TAKE pulse of a unit begins (R219). -/
def State.takePulse (s : State) (y : Fin 2) : State := s.modArb y (fun u => { u with take := true, takeAt := some s.time })

/-- TAKE Y of a verdict: deferred within 100 µs of the last pulse to the other unit (R219). -/
def State.takeOrDefer (s : State) (y : Fin 2) : State :=
  match s.arb.u[otherUnit y].takeAt with
  | some t => if s.time < t + 100 * us1 then { s with arb := { s.arb with deferred := some (y, t + 100 * us1) } } else s.takePulse y
  | none => s.takePulse y

/-- VERDICT for X and Y (R218, R219). -/
def State.verdict (s : State) (x : Fin 2) : State :=
  if s.callDemote x then
    let c := s.arb.verdCnt.inc
    let s1 := s.modArb x (fun u => { u with demote := some s.time })
    let s2 := if s.callTake x then s1.takeOrDefer (otherUnit x) else s1
    let s3 := { s2 with arb := { s2.arb with verdCnt := c } }
    (s3.fire 0xB8 0x02 0 s3.arbOut).satEv s.arb.verdCnt c 0xB0 0x1A088
  else s

/-- HB_CLASS_CHANGE (R217–R219). -/
def State.classChange (s : State) (x : Fin 2) (c : HbClass) : State :=
  if s.arb.u[x].cls = c then s
  else
    let s1 := s.modArb x (fun u => { u with cls := c, healthySince := if c = .healthy then some s.time else none })
    (((s1.fire 0xB8 0x01 0 (x.val + c.code * 256)).verdict 0).verdict 1)

/-- VHB_EDGE (R217, Table RED.7): the interval in units of 50 ns, halves up. -/
def execVhbEdge (x : Fin 2) (s : State) : Host.Outcome State Fault Refusal :=
  if !s.arbitrates then ok s
  else
    let u := s.arb.u[x]
    let n := (s.time - u.edge + 1600) / 3200
    let h := decide (16 ≤ n ∧ n ≤ 24)
    let d := decide (64 ≤ n ∧ n ≤ 85)
    let nH := if h then u.nH + 1 else 0
    let nD := if d then u.nD + 1 else 0
    let nX := if h || d then 0 else u.nX + 1
    if !u.seen then ok (s.modArb x (fun u => { u with edge := s.time, seen := true }))
    else
      let s1 := s.modArb x (fun u => { u with edge := s.time, nH := nH, nD := nD, nX := nX })
      if 8 ≤ nH then ok (s1.classChange x .healthy)
      else if 2 ≤ nD then ok (s1.classChange x .degraded)
      else if 8 ≤ nX then ok (s1.classChange x .dead)
      else ok s1

/-- HB_DEAD_TIMEOUT (R217): no edge for 4.25 µs since the last one or the decision. -/
def execHbDeadTimeout (x : Fin 2) (s : State) : Host.Outcome State Fault Refusal :=
  ok (s.whenAt s.arbitrates (s.arb.u[x].edge + 4250 * ns1) (fun s =>
    (s.modArb x (fun u => { u with nH := 0, nD := 0, nX := 0 })).classChange x .dead))

/-- TAKE_DEFERRED_EVAL (R219). -/
def execTakeDeferredEval (s : State) : Host.Outcome State Fault Refusal :=
  match s.arb.deferred with
  | some (y, t) =>
    ok (s.whenAt s.arbitrates t (fun s =>
      let s1 := { s with arb := { s.arb with deferred := none } }
      if s.callTake (otherUnit y) then s1.takePulse y else s1))
  | none => ok s

/-- The earliest end of a TAKE pulse. -/
def State.pulseEnd (s : State) : Option Nat :=
  ((s.arb.u.toList.filter (fun u => u.take)).filterMap (fun u => u.takeAt.map (fun t => t + 2 * us1))).min?

/-- TAKE_PULSE_END (R219): pulses that have lasted 2 µs end. -/
def execTakePulseEnd (s : State) : Host.Outcome State Fault Refusal :=
  ok (s.whenDue s.arbitrates s.pulseEnd 0 (fun s => foldFin 2 s (fun s x =>
    s.modArb x (fun u => { u with take := u.take && !s.ranOut u.takeAt (2 * us1) }))))

/-- DEMOTE_HOLD_END (R219): at least 100 µs since the verdict, and HEALTHY without a break for hold_us. -/
def execDemoteHoldEnd (x : Fin 2) (s : State) : Host.Outcome State Fault Refusal :=
  match s.arb.u[x].demote, s.arb.u[x].healthySince with
  | some a, some b =>
    ok (s.whenAt s.arbitrates (max (a + 100 * us1) (b + s.fld F.RED_ARB.hold_us * us1))
      (fun s => s.modArb x (fun u => { u with demote := none })))
  | _, _ => ok s

end Sys2Proof.Machine
end

