-- ==== Sys2Proof/Machine/Actions.lean ====
section
/-! DEFINITION. The action classes of 04_gain Table SCH.2, which following error (R77) and the thermal watch (12_thermal R254)
pass to the rails, the headbox, the deckle, the sequencer and AON. -/

namespace Sys2Proof.Machine

/-- HBX_DERATE (06_headbox R125): engine 16 or 17. -/
def State.hbxDerate (s : State) (e : Nat) : State :=
  if e = 16 ∨ e = 17 then
    let h := if e = 16 then { s.hbx with drt16 := true } else { s.hbx with drt17 := true }
    (({ s with hbx := h }).stick F.HBX_STAT.derate).fire 0x58 0x05 e 0
  else s

/-- DECKLE_SHED (07_hold_up R144, R145): feed 0 or rail n, with the number of the engine. -/
def State.dklShed (s : State) (rail : Option (Fin 8)) (num : Nat) : State :=
  if !s.bit F.DKL_CTL.en then s
  else match rail with
    | none => ({ s with dkl := { s.dkl with shed0 := true } }).fire 0x5A 0x04 0 num
    | some n => ({ s with dkl := { s.dkl with shedr := modAt s.dkl.shedr n (fun _ => true) } }).fire 0x5A 0x04 (1 + n.val) num

/-- DEMOTION_REQUEST (04_gain Table SCH.2): in SOLO, NOTIFY only. -/
def State.demoteAction (s : State) : State :=
  if s.sys.role = .solo then s else { s with aon := { s.aon with demoteReq := true } }

/-- An action class passed on, for a rail or for the shelf; num is the engine or sensor number it reports. A standby's sequencer follows
its peer's and trips nothing (11_sequencing R248). -/
def State.action (s : State) (act : Nat) (rail : Option (Fin 8)) (e num : Nat) : State :=
  match act, rail with
  | 2, some n => s.railDerate n
  | 2, none => s.hbxDerate e
  | 3, r => s.dklShed r num
  | 4, some n => s.railTrip n
  | 5, _ => if s.drives then s.shelfTrip 1 num else s
  | 6, _ => s.demoteAction
  | _, _ => s

end Sys2Proof.Machine
end

