-- ==== Sys2Proof/Machine/Law.lean ====
section
/-! DEFINITION. Law engines (03_law_engines) with gain schedule and following error (04_gain_schedule_and_following_error):
one sample, its trigger and its output, and the coefficient banks. -/

namespace Sys2Proof.Machine

/-! ### Coefficients (R62) -/

/-- A section's coefficients (Table LAW.4). -/
structure Sec where
  b0 : Int
  b1 : Int
  b2 : Int
  a1 : Int
  a2 : Int
  yPre : Int
  aw : Bool
  ef : Bool
  shift : Nat
deriving DecidableEq, Repr

/-- The section record at offset o of a bank. -/
def secAt (m : Cells Word) (o : Nat) : Sec :=
  let w := fun k => (cellGet 0 m (o + 4 * k)).toNat
  let c := w 3 % 65536
  { b0 := sgn 16 (w 0), b1 := sgn 16 (w 0 / 65536), b2 := sgn 16 (w 1), a1 := sgn 16 (w 1 / 65536), a2 := sgn 16 (w 2)
    yPre := sgn 16 (w 2 / 65536), aw := bitAt c 4, ef := bitAt c 3, shift := c % 8 }

/-- Section n of region g of an engine in the active bank. -/
def State.coef (s : State) (e : Fin 20) (g : Fin 8) (n : Fin 8) : Sec := secAt s.law.active (0x400 * e + 0x80 * g + 0x10 * n)

/-- Number of sections of an engine. -/
def State.nsec (s : State) (e : Fin 20) : Nat := s.fld (F.LAW_CFG.nsec_m1 e) + 1

/-! ### One sample (R49) -/

/-- What one section computes: its new states, its unclamped output, the limited output where it is the last, and whether its
output saturated. -/
def secStep (k : Sec) (last : Bool) (lo hi u : Int) (st : SecSt) : SecSt × Int × Int × Bool :=
  let acc0 := k.b0 * u + k.b1 * st.x1 + k.b2 * st.x2 - k.a1 * st.y1 - k.a2 * st.y2
  let acc := if k.ef then acc0 + st.r else acc0
  let q := rne acc (15 - k.shift)
  let y := satN 16 q
  let r := if k.ef then (if q ≠ y then 0 else acc - q * 2 ^ (15 - k.shift)) else st.r
  let out := min (max y lo) hi
  let ys := if last then out else if k.aw then out else y
  (⟨u, st.x1, ys, st.y1, r⟩, y, out, decide (q ≠ y))

/-- What a cascade yields: states, output, section saturation, limiter at out_hi and at out_lo. -/
structure Casc where
  st : Vector SecSt 8
  out : Int
  sat : Bool
  hi : Bool
  lo : Bool

/-- The cascade of R49 over the sections below nsec. -/
def cascade (c : Fin 8 → Sec) (nsec : Nat) (lo hi e : Int) (st : Vector SecSt 8) : Casc :=
  ((List.finRange 8).foldl (fun (a : Casc × Int) i =>
    if i.val < nsec then
      let last := i.val + 1 = nsec
      let x := secStep (c i) last lo hi a.2 a.1.st[i]
      ({ st := a.1.st.set i.1 x.1 i.2, out := if last then x.2.2.1 else a.1.out, sat := a.1.sat || x.2.2.2
         hi := a.1.hi || (last && decide (hi < x.2.1)), lo := a.1.lo || (last && decide (x.2.1 < lo)) }, x.2.1)
    else a) (⟨st, 0, false, false, false⟩, e)).1

/-- The preset states of R57 for a region's sections and the e_in of the sample. -/
def presets (c : Fin 8 → Sec) (e : Int) : Vector SecSt 8 :=
  Vector.ofFn (fun i =>
    let x := if h : 0 < i.val then (c ⟨i.val - 1, by omega⟩).yPre else e
    ⟨x, x, (c i).yPre, (c i).yPre, 0⟩)

/-! ### Operands (R44, R45) -/

/-- The headbox reference of a rail in engine units (06_headbox R123, R127): 0 with the headbox off, before any delivery, or
with no driven phase whose latest sample is not idle. -/
def State.hbxRef (s : State) (n : Fin 8) : Int :=
  let l := (s.driven n).filter (fun j => s.sns.ch[phCh j].stamp.isSome && !s.sns.idle[j])
  match s.bit F.HBX_CTL.en, s.pwm.rail[n].refMa, s.railPhases n with
  | true, some x, j :: _ =>
    if l.isEmpty then 0 else satN 16 (rdiv (x * 32768) (s.sfld (F.SNS_CH_FS.fs j) * l.length))
  | _, _, _ => 0

/-- The latest output of an engine: 0 until it has delivered one (R44). -/
def State.engOut (s : State) (e : Nat) : Int :=
  if h : e < 20 then (if s.law.eng[e].seen then s.law.eng[e].out else 0) else 0

/-- The latest sample of a channel: 0 until it has delivered one. -/
def State.chEng (s : State) (c : Nat) : Int :=
  if h : c < 130 then (if s.sns.ch[c].stamp.isSome then s.sns.ch[c].eng else 0) else 0

/-- The reference operand (Table LAW.1), limited for engine 2n to ±rne(ph_max · gc, 15) (05_phases R106). -/
def State.lawRef (s : State) (e : Fin 20) : Int :=
  let i := s.fld (F.LAW_SRC.ref_idx e)
  let r := match s.fld (F.LAW_SRC.ref_sel e) with
    | 0 => s.sfld (F.LAW_REF.ref e)
    | 1 => s.engOut i
    | 2 => s.hbxRef (rail8 i)
    | _ => s.pwm.rail[rail8 i].r
  match engRail e with
  | some n => if e.val % 2 = 0 then let m := rne (s.fld (F.RAIL_ILIM.ph_max n) * s.railG n) 15; clampI (-m) m r else r
  | none => r

/-- The feedback operand (Table LAW.1): value, stamp of the oldest sample used, whether a sample used was saturated (R52),
whether there was none to average (R45). -/
structure Fb where
  v : Int
  stamp : Option Nat
  ovr : Bool
  none_ : Bool
deriving DecidableEq, Repr

/-- The feedback of an engine as its source gives it (Table LAW.1). -/
def State.lawSrcFb (s : State) (e : Fin 20) : Fb :=
  let i := s.fld (F.LAW_SRC.fb_idx e)
  match s.fld (F.LAW_SRC.fb_sel e) with
  | 0 => if h : i < 130 then ⟨s.chEng i, s.sns.ch[i].stamp, s.sns.ch[i].ovr && s.sns.ch[i].stamp.isSome, false⟩ else ⟨0, none, false, false⟩
  | 1 =>
    let l := s.contributors (rail8 i)
    let old := l.foldl (fun (b : Option Nat) j => match b, s.sns.ch[phCh j].stamp with
      | none, x => x
      | some a, some x => some (min a x)
      | some a, none => some a) none
    ⟨s.railMean (rail8 i), old, l.any (fun j => s.sns.ch[phCh j].ovr), l.isEmpty⟩
  | 2 => match s.hbx.fbPower with
    | some v => ⟨v, some s.hbx.snapAt, false, false⟩
    | none => ⟨0, none, false, false⟩
  | _ => if h : i < 20 then ⟨s.engOut i, if s.law.eng[i].seen then s.law.eng[i].outStamp else none, false, false⟩ else ⟨0, none, false, false⟩

/-- The feedback of an engine; in hold-up engine 17's is its own reference (07_hold_up R147). -/
def State.lawFb (s : State) (e : Fin 20) : Fb :=
  let f := s.lawSrcFb e
  if e = 17 && s.vat.hu then { f with v := s.lawRef e } else f

/-- The schedule variable (04_gain Table SCH.1). -/
def State.schVar (s : State) (e : Fin 20) : Int :=
  let i := s.fld (F.SCH_VAR.var_idx e)
  match s.fld (F.SCH_VAR.var_sel e) with
  | 0 => s.chEng i
  | 1 => s.railMean (rail8 i)
  | 2 => (s.contributors (rail8 i)).length
  | 3 => if h : i < 48 then s.thm.s[i].tu else 0
  | 4 => s.engOut i
  | _ => 0

/-! ### Status and its events (R53) -/

/-- Run state code (R56). -/
def Run.code : Run → Nat
  | .off => 0 | .run => 1 | .hold => 2 | .track => 3

/-- LAW_STAT as it reads (Table LAW.9). -/
def State.lawStat (s : State) (e : Fin 20) : Nat :=
  let g := s.law.eng[e]
  let w := (cellGet (0 : Word) s.regs.sticky (0x8028 + 0x200 * e.val)).toNat
  g.run.code * 2 ^ 30 + g.region.val * 2 ^ 27 + b2n g.xfade * 2 ^ 26 + b2n g.fbNone * 512 + w + b2n g.limLo * 2 + b2n g.limHi

/-- The engine's event with LAW_STAT as its data. -/
def State.lawEvent (s : State) (e : Fin 20) : State := s.fireRaw (0x20 + e.val) (BitVec.ofNat 64 (s.lawStat e)) none false

/-- A W1C bit of R53 set: its 0→1 transition fires the engine's event. -/
def State.lawFlag (s : State) (e : Fin 20) (c : Bool) (f : Fld) : State :=
  if c then (if s.flag f then s else (s.stick f).lawEvent e) else s

/-! ### Following error (04_gain R76–R78) -/

/-- The rail whose duty an engine drives, or to which it belongs (Table SCH.2): 0–15 their rail, 18 and 19 the rail they drive. -/
def State.engDuty (s : State) (e : Fin 20) : Option (Fin 8) :=
  match engRail e with
  | some n => some n
  | none => if 18 ≤ e.val ∧ s.fld (F.LAW_DST.dest_sel e) = 1 then some (rail8 (s.fld (F.LAW_DST.dest_idx e))) else none

/-- FOLLOWING_ERROR_FIRE (R77). In TRACK the event is of class LOG and no action is passed. -/
def State.feFire (s : State) (e : Fin 20) : State :=
  let g := s.law.eng[e]
  let act := if g.run = .track then 0 else s.fld (F.SCH_FE_CFG.fe_act e)
  let c := g.fires.inc
  let s1 := (s.stick (F.SCH_FE_STAT.fe e)).modEng e (fun g => { g with fires := c })
  let d := BitVec.ofNat 64 (s1.lawStat e + (2 ^ 31 + g.feCnt) * 2 ^ 32)
  let s2 := (s1.fireRaw (0x20 + e.val) d (some act) false).satEv g.fires c (0x20 + e.val) (0xC020 + 0x80 * e.val)
  (s2.action act (s.engDuty e) e.val e.val).lawSyncAll

/-- The supervisor of one sample (R76). -/
def State.feStep (s : State) (e : Fin 20) (eIn : Int) : State :=
  let g := s.law.eng[e]
  let n := s.fld (F.SCH_FE_TIM.fe_cnt e)
  if g.blank > 0 then s.modEng e (fun g => { g with blank := g.blank - 1, feCnt := 0 })
  else if eIn.natAbs > s.fld (F.SCH_FE_CFG.fe_lim e) then
    let c := min (g.feCnt + 1) 65535
    let s1 := s.modEng e (fun g => { g with feCnt := c })
    if n ≠ 0 ∧ c = n ∧ c ≠ g.feCnt then s1.feFire e else s1
  else s.modEng e (fun g => { g with feCnt := 0 })

/-! ### Schedule (04_gain R66–R70) -/

/-- SCH_BND[i]: up and dn. -/
def State.bound (s : State) (e : Fin 20) (i : Nat) : Int × Int :=
  let w := (s.word (0xC040 + 0x80 * e.val + 4 * i) 0).toNat
  (sgn 16 (w / 65536), sgn 16 w)

/-- The walks of R68, from a region. -/
def walkUp (b : Nat → Int × Int) (nreg : Nat) (vf : Int) : Nat → Nat → Nat
  | 0, t => t
  | k + 1, t => if t + 1 < nreg ∧ vf ≥ (b t).1 then walkUp b nreg vf k (t + 1) else t

/-- The downward walk of R68. -/
def walkDown (b : Nat → Int × Int) (vf : Int) : Nat → Nat
  | 0 => 0
  | t + 1 => if vf < (b t).2 then walkDown b vf t else t + 1

/-- SCHEDULE_TARGET (R68). -/
def State.schTarget (s : State) (e : Fin 20) (vf : Int) : Fin 8 :=
  let g := s.law.eng[e]
  let nreg := s.fld (F.SCH_CTL.nreg_m1 e) + 1
  let t :=
    if s.bit (F.SCH_CTL.force_en e) then s.fld (F.SCH_CTL.force_region e)
    else if !s.bit (F.SCH_CTL.en e) then 0
    else walkDown (s.bound e) vf (walkUp (s.bound e) nreg vf 8 (if g.first then 0 else min g.cur.val (nreg - 1)))
  ⟨t % 8, by omega⟩

/-! ### Snapshot of a tracking engine (R59, R60; 04_gain R74) -/

/-- TRACK_MISMATCH (R60): the outputs compared, where the feedback stamps, both in the unit's own SNS_TIME (10_redundancy R223),
differ by at most 1 µs. -/
def State.trackCheck (s : State) (e : Fin 20) (b : SnapEngine) : State :=
  let g := s.law.eng[e]
  let near := match g.outStamp, b.stamp with
    | some x, some y => decide (((x : Int) - y).natAbs ≤ 1000)
    | _, _ => false
  if near && decide ((g.out - b.out).natAbs > s.fld (F.LAW_TRK.trk_tol e)) then
    let c := g.mis.incTo 65535
    let s1 := (s.modEng e (fun g => { g with mis := c })).satEv g.mis c (0x20 + e.val) (0x8030 + 0x200 * e.val)
    s1.lawFlag e true (F.LAW_STAT.trk_mis e)
  else s

/-- LAW_SNAPSHOT_APPLY: states, region, filter and crossfade replaced; the first sample then runs from them. -/
def State.snapApply (s : State) (e : Fin 20) : State :=
  match s.law.eng[e].run, s.law.eng[e].snapIn with
  | .track, some b =>
    (s.trackCheck e b).modEng e (fun g =>
      { g with st := b.st, stNew := b.stNew, cur := b.cur, vf := b.vf, xf := b.xf, first := false, snapIn := none
               xfFrom := b.xf.elim g.xfFrom (fun x => x.old), xfLen := b.xf.elim g.xfLen (fun x => x.len) })
  | _, _ => s

/-! ### A sample -/

/-- The sample of an accepted trigger (R49, R57, R59, R65–R71, R76), its end left to the output write. With SCH_CTL.en 0 the filter's v
and vf stay as they are (DESIGN CHOICE, log 71). -/
def State.lawSample (s0 : State) (e : Fin 20) : State :=
  let s := s0.snapApply e
  let fb := s.lawFb e
  let eIn := satN 16 (s.lawRef e - fb.v)
  let g := s.law.eng[e]
  let en := s.bit (F.SCH_CTL.en e)
  let v := if en then s.schVar e else g.v
  let vf := if !en then g.vf else if g.first then v else satN 16 (g.vf + rne (v - g.vf) (s.fld (F.SCH_VAR.fshift e)))
  let tgt := s.schTarget e vf
  let cur := if g.first then tgt else g.cur
  let want := !g.first && g.xf.isNone && tgt != cur
  let defer := want && s.bit (F.SCH_CTL.lim_hold e) && (g.limHi || g.limLo)
  let start := want && !defer
  let len := s.fld (F.SCH_XF.len_m1 e) + 1
  let xf := if start then some ⟨cur, tgt, 0, len⟩ else g.xf
  let st := if g.first then presets (s.coef e cur) eIn else g.st
  let stN := if start then g.st else g.stNew
  let lo := s.sfld (F.LAW_LIM.out_lo e)
  let hi := s.sfld (F.LAW_LIM.out_hi e)
  let n := s.nsec e
  let ds := s.fld (F.LAW_DST.dest_sel e)
  let di := s.fld (F.LAW_DST.dest_idx e)
  let job : Job × Bool := match xf with
    | some x =>
      let k := x.k + 1
      let o := cascade (s.coef e x.old) n lo hi eIn st
      let w := cascade (s.coef e x.new) n lo hi eIn stN
      let done := k ≥ x.len
      ({ run := g.run, eIn := eIn, out := rdiv ((x.len - k : Nat) * o.out + (k : Int) * w.out) x.len
         st := if done then w.st else o.st, stNew := w.st, cur := if done then x.new else cur
         xf := if done then none else some { x with k := k }, shown := x.new, xShown := true
         limHi := o.hi || w.hi, limLo := o.lo || w.lo, stamp := fb.stamp, snap := g.snapReq, started := s.time, dest := ds, destIdx := di }, o.sat || w.sat)
    | none =>
      let o := cascade (s.coef e cur) n lo hi eIn st
      ({ run := g.run, eIn := eIn, out := o.out, st := o.st, stNew := g.stNew, cur := cur, xf := none, shown := cur, xShown := false
         limHi := o.hi, limLo := o.lo, stamp := fb.stamp, snap := g.snapReq, started := s.time, dest := ds, destIdx := di }, o.sat)
  let xc := if start then g.xcnt.inc else g.xcnt
  let s1 := s.modEng e (fun g =>
    { g with
      job := some job.1, pre := some s0.law.eng[e].states, v := v, vf := vf, tgt := tgt, deferred := defer, xcnt := xc, fbNone := fb.none_, snapReq := false
      cur := cur, st := st, stNew := stN, xf := xf, first := false, region := job.1.shown, xfade := job.1.xShown
      xfFrom := if start then cur else g.xfFrom, xfLen := if start then len else g.xfLen, lastTrig := some s.time })
  let s2 := s1.satIf start g.xcnt xc (0x20 + e.val) (0xC024 + 0x80 * e.val)
  let s3 := s2.stickIf g.first (F.LAW_STAT.preset e)
  let s4 := (s3.lawFlag e fb.ovr (F.LAW_STAT.fb_ovr e)).lawFlag e job.2 (F.LAW_STAT.sec_sat e)
  s4.feStep e eIn

/-- LAW_TRIGGER_SKIP (R48). -/
def State.lawSkip (s : State) (e : Fin 20) : State :=
  let o := s.law.eng[e].skip
  let c := o.inc
  let s1 := (s.modEng e (fun g => { g with skip := c })).satEv o c (0x20 + e.val) (0x802C + 0x200 * e.val)
  s1.lawFlag e (o.count = 0) (F.LAW_STAT.skip e)

/-- A trigger: accepted, or dropped while a sample runs or within 500 ns of the last accepted one (R48). -/
def State.lawTrigger (s : State) (e : Fin 20) : State :=
  let g := s.law.eng[e]
  if g.job.isNone && (g.lastTrig.isNone || s.ranOut g.lastTrig (500 * ns1)) then s.lawSample e else s.lawSkip e

/-- A counted completion of an engine with trig = 0b00: every div-th one triggers (R47). -/
def State.lawCount (s : State) (e : Fin 20) : State :=
  if s.law.eng[e].divCnt < s.fld (F.LAW_CFG.div_m1 e) then
    s.modEng e (fun g => { g with divCnt := g.divCnt + 1, fresh := false })
  else (s.modEng e (fun g => { g with divCnt := 0, fresh := false })).lawTrigger e

/-- The trigger after the one that comes about now: the next on the grid of period_ns that is still to come, or none within the
allocation period (R47). -/
def State.lawAfter (s : State) (e : Fin 20) (t : Nat) : Option Nat :=
  if s.fld (F.LAW_CFG.trig e) = 1 then
    let p := s.fld (F.LAW_CFG.period_ns e) * ns1
    some (t + p * ((s.time - t) / p + 1))
  else none

/-- LAW_TRIGGER (R47, R48): the trigger source of LAW_CFG.trig occurs: a completion that is not counted yet, or the instant set. -/
def execLawTrigger (e : Fin 20) (s0 : State) : Host.Outcome State Fault Refusal :=
  if !s0.runs .ctl then ok s0
  else
    let s := s0.lawSync e
    let g := s.law.eng[e]
    if !g.samples then ok s
    else if s.fld (F.LAW_CFG.trig e) = 0 then ok (s.when g.fresh (s.lawCount e))
    else
      ok (match g.next with
        | some t => s.whenAt true t (fun s => (s.modEng e (fun g => { g with next := s.lawAfter e t })).lawTrigger e)
        | none => s)

/-- The delay recorded at an output write (R55). -/
def State.lawDelay (s : State) (e : Fin 20) (stamp : Option Nat) : State :=
  match stamp with
  | none => s
  | some t =>
    let d := s.sns64 - t
    let m := min d 65535
    let s1 := s.modEng e (fun g => { g with dlyLast := m, dlyWorst := max g.dlyWorst m })
    s1.lawFlag e (d > 65535) (F.LAW_STAT.dly_sat e)

/-- LAW_OUTPUT_WRITE (R54, R55, R71): the sample's end; in RUN the output goes to its destination. -/
def execLawOutputWrite (e : Fin 20) (s : State) : Host.Outcome State Fault Refusal :=
  match s.law.eng[e].job with
  | none => ok s
  | some j =>
    if !s.runs .ctl then ok s
    else
      let s1 := s.modEng e (fun g =>
        { g with
          job := none, st := j.st, stNew := j.stNew, cur := j.cur, xf := j.xf, out := j.out, eIn := j.eIn, seen := true
          outStamp := j.stamp, limHi := j.limHi, limLo := j.limLo, region := j.shown, xfade := j.xShown
          shownSt := if j.snap then (if j.xShown then j.stNew else j.st) else g.shownSt })
      let s2 := s1.stickIf j.snap (F.LAW_STAT.snap_done e)
      let s3 := s2.lawDelay e j.stamp
      let s4 := match engRail e with
        | some n =>
          if e.val % 2 = 0 && (j.limHi || j.limLo) then
            (s3.railPhases n).foldl (fun (s : State) i => s.modPhase i (fun p => { p with limNow := true })) s3
          else s3
        | none => s3
      let s5 :=
        if j.run = .run ∧ j.dest = 1 then
          s4.modRail (rail8 j.destIdx) (fun r => { r with cmdOld := r.cmd, cmd := j.out, cmdAt := s.time })
        else s4
      ok ((s5.lawFresh (fun i => s.fld (F.LAW_SRC.fb_sel i) = 3 && s.fld (F.LAW_SRC.fb_idx i) = e.val)).lawSync e)

/-- LAW_SNAP_REQUEST (Table LAW.6). -/
def execLawSnapRequest (e : Fin 20) (s : State) : Host.Outcome State Fault Refusal :=
  ok (s.when (s.runs .ctl && s.exposed) (s.modEng e (fun g => { g with snapReq := true })))

/-! ### Coefficient banks (R62–R64) -/

/-- Key range [lo, hi) of a store replaced by the cells of another. -/
def cellsSplice {α : Type} (m p : Cells α) (lo hi : Nat) : Cells α :=
  m.filter (fun x => decide (x.1 < lo)) ++ p.filter (fun x => decide (lo ≤ x.1 ∧ x.1 < hi)) ++ m.filter (fun x => decide (hi ≤ x.1))

/-- Every reserved bit of an engine's shadow regions is 0 (Table LAW.4). -/
def State.shadowClean (s : State) (e : Fin 20) : Bool :=
  (s.law.shadow.filter (fun x => decide (0x400 * e.val ≤ x.1 ∧ x.1 < 0x400 * e.val + 0x400) && x.1 % 16 == 12)).all
    (fun x => x.2.toNat / 32 == 0)

/-- COEFF_SHADOW_WRITE (R62, R64, 21_register_map R408): stored, or discarded: in the rest of the window, with wdrop while the
engine's pend is 1, or under the lock. -/
def execCoeffShadowWrite (off : BitVec 20) (val : Word) (s : State) : Host.Outcome State Fault Refusal :=
  let o := off.toNat - 0x40000
  if !(s.runs .ctl && s.exposed && decide (0x40000 ≤ off.toNat ∧ o < 0x5000 ∧ o % 4 = 0)) then ok s
  else if h : o / 0x400 < 20 then
    if s.law.eng[o / 0x400].commit ≠ 0 then ok (s.stick F.LAW_COMMIT.wdrop)
    else if s.sys.lock then ok s
    else ok { s with law := { s.law with shadow := cellPut 0 s.law.shadow o val } }
  else ok s

/-- LAW_COMMIT_REQUEST (R63): pend[e] sets; discarded under the lock (21_register_map R408). One that meets a pend still set is
remembered: a clear of pend at that instant leaves it set (00_scope R5). -/
def execLawCommitRequest (e : Fin 20) (s : State) : Host.Outcome State Fault Refusal :=
  ok (s.when (s.runs .ctl && s.exposed && !s.sys.lock) (s.modEng e (fun g =>
    if g.commit = 0 then { g with commit := 1, commitAt := s.time } else { g with recommit := some s.time })))

/-- pend[e] clears, unless a request came at this instant (00_scope R5). -/
def Engine.commitEnd (g : Engine) (now : Nat) : Engine :=
  if g.recommit = some now then { g with commit := 1, commitAt := now, recommit := none } else { g with commit := 0, recommit := none }

/-- LAW_BANK_SWAP (R63, R64): at a tick boundary after the request, outside a crossfade. -/
def execLawBankSwap (e : Fin 20) (s : State) : Host.Outcome State Fault Refusal :=
  let g := s.law.eng[e]
  let lo := 0x400 * e.val
  let xf := g.xf.isSome || g.job.any (fun j => j.xf.isSome)
  if !(s.runs .ctl && s.atTick && g.commit = 1 && decide (g.commitAt < s.time) && !xf) then ok s
  else if s.shadowClean e then
    ok (({ s with law := { s.law with
        active := cellsSplice s.law.active s.law.shadow lo (lo + 0x400)
        shadow := cellsSplice s.law.shadow s.law.active lo (lo + 0x400) } }).modEng e (fun g => { g with commit := 2 }))
  else ok (((s.modEng e (fun g => g.commitEnd s.time)).stick F.LAW_COMMIT.err).lawEvent e)

/-- LAW_SHADOW_COPY_DONE (R63). -/
def execLawShadowCopyDone (e : Fin 20) (s : State) : Host.Outcome State Fault Refusal :=
  let lo := 0x400 * e.val
  ok (s.when (s.runs .ctl && s.law.eng[e].commit = 2)
    (({ s with law := { s.law with shadow := cellsSplice s.law.shadow s.law.active lo (lo + 0x400) } }).modEng e
      (fun g => g.commitEnd s.time)))

end Sys2Proof.Machine
end

