-- ==== Sys2Proof/Machine/Ntc.lean ====
section
/-! DEFINITION. The thermistor temperature (08_battery R153), in exact fixed-point arithmetic. -/

namespace Sys2Proof

/-- Fixed-point one of the logarithm: 2^64. -/
def lnOne : Int := 2 ^ 64

/-- ln 2 in that scale. -/
def ln2 : Int := 12786308645202655660

/-- The terms z^(2j+1) / (2j+1) of the series of artanh, from power p = z^(2j+1) on. -/
def artanhSum (z2 : Int) : Nat → Nat → Int → Int
  | 0, _, _ => 0
  | fuel + 1, k, p => p / k + artanhSum z2 fuel (k + 2) (p * z2 / lnOne)

/-- ln(n / d) in units of 2^-64, n and d positive: 2^k · m with m in [1, 2), and ln m = 2 artanh((m − 1) / (m + 1)). -/
def lnRatio (n d : Nat) : Int :=
  let k : Int := (Nat.log2 n : Int) - Nat.log2 d
  let n' : Int := if k < 0 then (n : Int) * 2 ^ k.natAbs else n
  let d' : Int := if 0 < k then (d : Int) * 2 ^ k.natAbs else d
  let z := (n' - d') * lnOne / (n' + d')
  k * ln2 + 2 * artanhSum (z * z / lnOne) 24 1 z

/-- The temperature of an NTC code in 1/16 °C (R153): the formula's value lies between two neighbouring sixteenths, and which
of the two is delivered is not stated: a free value. Where the formula has no value (r25, rpu or beta 0, or no finite
temperature) the result is free as a whole. -/
def ntcTemp (x rpu r25 beta : Nat) : Int :=
  let e := Config.ntcError x rpu r25 beta
  if rpu = 0 ∨ r25 = 0 ∨ beta = 0 then satN 16 e
  else
    let q := lnOne * 20 / 5963 + lnRatio (10 * rpu * x) ((4096 - x) * r25) / beta
    if q ≤ 0 then satN 16 e else satN 16 ((160 * lnOne - 43704 * q) / (10 * q) + e % 2)

end Sys2Proof
end

