-- ==== Sys2Proof/Machine/Sense.lean ====
section
/-! DEFINITION. The sense front end (02_sense_front_end): calibration, and the conversions of every converter. -/

namespace Sys2Proof.Machine

/-! ### Calibration (R36–R39) -/

/-- Resolution of a channel in bits (Table SNS.1). -/
def chBits (ch : Nat) : Nat :=
  if ch < 24 then 12 else if ch < 32 then 14 else if ch < 34 then 16 else if ch < 98 then 12 else if ch < 114 then 18 else 12

/-- Is a channel bipolar (Table SNS.1)? -/
def chBipolar (ch : Nat) : Bool := ch < 24 || ch = 33 || (106 ≤ ch && ch < 114)

/-- The code of a channel as a number: two's complement where it is bipolar. -/
def chCode (ch code : Nat) : Int :=
  if chBipolar ch then sgn (chBits ch) code else ((code % 2 ^ chBits ch : Nat) : Int)

/-- Value a of R36. -/
def chA (ch code : Nat) : Int :=
  if chBipolar ch then chCode ch code * 2 ^ (24 - chBits ch) else chCode ch code * 2 ^ (23 - chBits ch)

/-- Is a code at an end of its range (R37)? -/
def chEnd (ch code : Nat) : Bool :=
  let n := chBits ch
  let c := code % 2 ^ n
  if chBipolar ch then c == 2 ^ (n - 1) || c == 2 ^ (n - 1) - 1 else c == 2 ^ n - 1

/-- A user word of a channel as it applies to an aperture at a stamp: the word before the first change after it, else the one
in force (R38). -/
def State.userWord (s : State) (off rst stamp : Nat) : Nat :=
  let later := s.regs.calHist.filter (fun x => x.2.1 == off && decide (stamp < x.1))
  match later.getLast? with
  | some x => x.2.2.toNat
  | none => (s.word off rst).toNat

/-- trim_gain and trim_off of a channel (13_fuse Table OTP.2, R39). -/
def State.trim (s : State) (ch : Fin 130) : Int × Int :=
  let w := (s.otp.live.chTrim[ch.val / 2]'(by omega)).toNat
  let h := if ch.val % 2 = 0 then w % 65536 else w / 65536
  (0x4000 + sgn 8 (h / 256), 64 * sgn 8 h)

/-- What a conversion's calibration yields. -/
structure Cal where
  raw : Int
  eng : Int
  val : Int
  ovr : Bool
deriving DecidableEq, Repr

/-- R36 on a code, with its trims and user fields. -/
def calibrate (ch code : Nat) (trim : Int × Int) (gain off fs : Int) (inv : Bool) : Cal :=
  let a := chA ch code
  let b0 := rne ((a - trim.2) * trim.1) 14
  let b := satN 24 b0
  let x0 := rne ((b - off) * gain) 14
  let x1 := satN 24 x0
  let x := if inv then satN 24 (-x1) else x1
  let e0 := rne x 8
  let e := satN 16 e0
  { raw := a, eng := e, val := rne (x * fs) 23,
    ovr := chEnd ch code || b != b0 || x1 != x0 || (inv && x != -x1) || e != e0 }

/-- Calibration of a code converted on a channel at a stamp. -/
def State.calAt (s : State) (ch : Fin 130) (code stamp : Nat) : Cal :=
  let g := F.SNS_CH_GAIN.user_gain ch
  let o := F.SNS_CH_USEROFF.user_off ch
  let f := F.SNS_CH_FS.fs ch
  let ow := s.userWord o.off o.rst stamp
  calibrate ch code (s.trim ch) ((s.userWord g.off g.rst stamp % 65536 : Nat) : Int) (sgn 24 ow)
    (sgn 32 (s.userWord f.off f.rst stamp)) (bitAt ow 31)

/-- A calibrated sample is delivered on its channel; SNS_OVERRANGE sets its bit (R36, R37). -/
def State.deliver (s : State) (ch : Fin 130) (c : Cal) (stamp : Nat) : State :=
  let s1 := { s with sns := { s.sns with
    ch := modAt s.sns.ch ch (fun x =>
      { x with
        raw := c.raw, eng := c.eng, val := c.val, stamp := some stamp, ovr := c.ovr, conv := none,
        hist := if ch.val < 34 then (stamp, c.eng) :: x.hist.takeWhile (fun h => decide (stamp < h.1 + 25000)) else [] }) } }
  if c.ovr then s1.stickBit (F.SNS_OVR.ovr (ch.val / 32)) (ch.val % 32) else s1

/-- A conversion starts. -/
def State.convert (s : State) (ch : Fin 130) (c : Conv) : State :=
  { s with sns := { s.sns with ch := modAt s.sns.ch ch (fun x => { x with conv := some c }) } }

/-! ### The commands -/

/-- PHASE_SAMPLE_APERTURE (R29, R30): the aperture chosen at the period's start is reached; the conversion takes 62.5 ns. -/
def execPhaseSampleAperture (j : Fin 24) (s : State) : Host.Outcome State Fault Refusal :=
  match s.pwm.ph[j].aps with
  | (a, near) :: rest =>
    ok (s.whenAt s.ctlWorks a (fun s =>
      (s.modPhase j (fun p => { p with aps := rest })).convert (phCh j) ⟨s.snsAt a, false, near, a + 4000⟩))
  | [] => ok s

/-- The period at which an idle phase samples: its rail's (R31). -/
def State.idlePer (s : State) (n : Fin 8) : Nat := if s.pwm.rail[n].per = 0 then s.fld (F.RAIL_PER.per n) else s.pwm.rail[n].per

/-- IDLE_SAMPLE (R31): a phase that is not driven by its own or its rail's state, once per period of its rail's switching
frequency, at the period start. The periods go on from its last switched one. A phase assigned to no rail takes no sample (DESIGN
CHOICE, log 70). -/
def execIdleSample (j : Fin 24) (s : State) : Host.Outcome State Fault Refusal :=
  let p := s.pwm.ph[j]
  let d := s.idlePer p.rail
  ok (s.whenAt (s.runs .ctl && s.sns.running && p.asg && !(s.driven p.rail).contains j) (gridDue p.idleNext d s.time) (fun s =>
    (s.modPhase j (fun p => { p with idleNext := s.time + d })).convert (phCh j) ⟨s.sns64, true, false, s.time + 4000⟩))

/-- RAIL_VOLTAGE_CONVERSION (R32): every 250 ns; the stamp is the start instant. -/
def execRailVoltageConversion (n : Fin 8) (s : State) : Host.Outcome State Fault Refusal :=
  ok (s.whenAt (s.runs .ctl && s.sns.running) (gridDue s.sns.railNext[n] (250 * ns1) s.time) (fun s =>
    { s with sns := { s.sns with railNext := modAt s.sns.railNext n (fun _ => s.time + 250 * ns1) } }.convert (railCh n)
      ⟨s.sns64, false, false, s.time⟩))

/-- BUS_CONVERSION (R32): channels 32 and 33, every 250 ns. -/
def execBusConversion (s : State) : Host.Outcome State Fault Refusal :=
  ok (s.whenAt (s.runs .ctl && s.sns.running) (gridDue s.sns.busNext (250 * ns1) s.time) (fun s =>
    let c : Conv := ⟨s.sns64, false, false, s.time⟩
    ({ s with sns := { s.sns with busNext := s.time + 250 * ns1 } }.convert 32 c).convert 33 c))

/-- SCAN_SAMPLE (R33, R235): the sample of the next input at the start of its 1 µs slot, and one evaluation of its node's
power-good. -/
def execScanSample (code : BitVec 12) (s : State) : Host.Outcome State Fault Refusal :=
  ok (s.whenAt (s.runs .sup && s.sns.running && s.sys.role != .arbiter) (gridDue s.sns.scanAt us1 s.time) (fun s =>
    let k := s.sns.scanNext
    let ch : Fin 130 := ⟨34 + k.val, by omega⟩
    let s1 := s.deliver ch (s.calAt ch code.toNat s.sns64) s.sns64
    let s2 := s1.evalNode ⟨k.val, by omega⟩
    { s2 with sns := { s2.sns with scanNext := k + 1, scanAt := s.time + us1, scans := s2.sns.scans + (if k.val = 63 then 1 else 0) } }))

/-- NTC_ID_SAMPLE (R34): 125 µs after a strobe, once; the codes are held for the strobe after the next. -/
def execNtcIdSample (ntc ident : Vector (BitVec 12) 8) (s : State) : Host.Outcome State Fault Refusal :=
  let k := s.sns.strobes + 2
  ok (s.whenDue (s.runs .bat && s.sns.running && !s.sns.ntcId.any (fun x => x.1 == k)) s.sns.strobeAt (125 * us1) (fun s =>
    { s with sns := { s.sns with ntcId := (k, ntc, ident) :: s.sns.ntcId.take 1 } }))

/-- A completed phase sample enters the phase's runs and windows (R104). -/
def Phase.sampled (p : Phase) (c : Cal) (idle : Bool) : Phase :=
  if idle then p
  else
    { p with
      lastRaw := some c.raw
      sameRun := if p.lastRaw = some c.raw then p.sameRun + 1 else 1
      ovrRun := if c.ovr then p.ovrRun + 1 else 0
      win := match p.win with
        | (a, n) :: w => (a + c.val, n + 1) :: w
        | [] => [(c.val, 1)] }

/-- Does an engine's feedback name a channel (03_law Table LAW.1)? -/
def State.countsCh (s : State) (e : Fin 20) (ch : Nat) : Bool := s.fld (F.LAW_SRC.fb_sel e) = 0 && s.fld (F.LAW_SRC.fb_idx e) = ch

/-- SNS_CONVERSION_COMPLETE (R36): channels 0–33. The completion counts toward the triggers of the engines whose feedback it is:
of a rail's mean, the lowest-numbered ACTIVE phase's (03_law R47). -/
def execSnsConversionComplete (ch : Fin 34) (code : BitVec 16) (s : State) : Host.Outcome State Fault Refusal :=
  let c130 : Fin 130 := ⟨ch.val, by omega⟩
  match s.sns.ch[c130].conv with
  | none => ok s
  | some cv =>
    ok (s.whenAt (s.runs .ctl) cv.due (fun s =>
      let c := s.calAt c130 code.toNat cv.stamp
      let s1 := s.deliver c130 c cv.stamp
      if h : ch.val < 24 then
        let j : Fin 24 := ⟨ch.val, h⟩
        let s2 := s1.modPhase j (fun p => p.sampled c cv.idle)
        let s3 := { s2 with sns := { s2.sns with idle := modAt s2.sns.idle j (fun _ => cv.idle)
                                                 edgeNear := modAt s2.sns.edgeNear j (fun _ => cv.edgeNear) } }
        s3.lawFresh (fun e => s3.countsCh e ch.val || (s3.fld (F.LAW_SRC.fb_sel e) = 1 &&
          (s3.actives (rail8 (s3.fld (F.LAW_SRC.fb_idx e)))).head? = some j))
      else s1.lawFresh (fun e => s1.countsCh e ch.val)))

end Sys2Proof.Machine
end

