-- ==== Sys2Proof/Machine/Chezon.lean ====
section
/-! DEFINITION. The Chezon link (10_redundancy R222–R227): packets, training, time transfer, snapshots and the standby's
readiness; and the couch drill (R229, R230). -/

namespace Sys2Proof.Machine

/-- The link carries packets: UP or ONE_LANE (R222; TRAIN counts as DOWN, R227). -/
def State.linkOn (s : State) : Bool := s.red.link = .up || s.red.link = .oneLane

/-- Could the unit become ACTIVE (14_start R288)? -/
def State.canAct (s : State) : Bool :=
  !s.sys.restricted && !s.otp.live.denyActive && s.otp.live.unitFix != 3 && !s.aon.demoted

/-- Code of a node state (Table SEQ.1). -/
def NState.code : NState → Nat
  | .off => 0 | .wait => 1 | .rising => 2 | .settle => 3 | .up => 4 | .falling => 5 | .failed => 6 | .blocked => 7

/-- What the unit says of itself in a packet (R222, R248, R288). -/
def State.ownStatus (s : State) : PeerStatus :=
  { strapPair := s.strap = .pair, unit := s.unitBit, pairId := s.otp.live.pairId, noPeer := s.otp.live.noPeer,
    canAct := s.canAct, ready := s.red.ready, digest := s.upd.rec1.digest, seqState := s.seq.st,
    nodes := s.seq.n.map (fun n => (n.st.code, n.en)), record := s.upd.rec1, drill := s.red.drill.isSome,
    seqCause := s.seq.cause
    upd := { phase := s.upd.phase, result := s.upd.result, reason := s.upd.reason, entry := s.upd.failing, taken := s.upd.taken,
             restarting := s.upd.restartDue || s.sys.mgmtRestart } }

/-! ### Packets and link state -/

/-- PEER_HIGHER (R204): each such claim sets peer_hi; the event is fired at the first of a run (log 44); R289 counts from there. -/
def State.peerHigher (s : State) (c : Byte) : State :=
  if s.drives && claimHigher c s.red.claim then
    let s1 := s.stick F.RED_STAT.peer_hi
    match s.sys.peerHiSince with
    | some _ => s1
    | none => { s1 with sys := { s1.sys with peerHiSince := some s.time } }.fire 0xB0 0x05 0 c.toNat
  else { s with sys := { s.sys with peerHiSince := none } }

/-- CFG_DIGEST (R227): once for each difference. -/
def State.digestEval (s : State) : State :=
  if s.sys.role ≠ .standby ∨ s.red.peerSt.isNone then s
  else if s.digestOk then s.modRed (fun r => { r with digFired := false })
  else if s.red.digFired then s
  else (s.modRed (fun r => { r with digFired := true })).fire 0xB3 0x05 0 0

/-- A standby takes the sequencer of the peer; its completed power-up ends the standby's START (R248, Table SYS.11). A unit that a
drill has made ACTIVE counts the days of R229 from its completion, which the peer's status shows (log 74). -/
def State.statusTaken (s : State) (p : PeerStatus) : State :=
  let ended := s.sys.role = .active && s.red.peerSt.any (·.drill) && !p.drill
  let s1 := (s.modRed (fun r => { r with
    peerSt := some p, drillOpt := if ended then s.opTime else r.drillOpt, drillReq := if ended then none else r.drillReq })).seqMirror p
  let up := s1.sys.role = .standby && s1.sys.mode = modeStart && (p.seqState = 2 || p.seqState = 3)
  let s2 := { s1 with sys := { s1.sys with svcReq := s1.sys.svcReq || up } }
  s2.digestEval

/-- CHEZON_TRAINED (R222): both lanes pass, or one passes and the other fails. -/
def execChezonTrained (lane0 lane1 : Bool) (s : State) : Host.Outcome State Fault Refusal :=
  if !(s.runs .per && s.red.link = .train) then ok s
  else if lane0 && lane1 then
    ok ((s.modRed (fun r => { r with link := .up, pktAt := s.time, downAt := none })).fire 0xB2 0x01 0 0)
  else if lane0 || lane1 then
    let l : Fin 2 := if lane0 then 1 else 0
    ok ((s.modRed (fun r => { r with link := .oneLane, lane := l, pktAt := s.time, downAt := none })).fire 0xB2 0x03 0 l.val)
  else ok s

/-- CHEZON_TRAINING_FAILED (R222): no peer answers; no event of its own. -/
def execChezonTrainingFailed (s : State) : Host.Outcome State Fault Refusal :=
  ok (s.when (s.runs .per && s.red.link = .train) (s.modRed (fun r => { r with link := .down })))

/-- CHEZON_ONE_LANE (R222): a lane has failed 16 consecutive packets. -/
def execChezonOneLane (lane : Fin 2) (s : State) : Host.Outcome State Fault Refusal :=
  ok (s.when (s.runs .per && s.red.link = .up)
    ((s.modRed (fun r => { r with link := .oneLane, lane := lane })).fire 0xB2 0x03 0 lane.val))

/-- CHEZON_LINK_DOWN (R222): no valid packet for 20 µs. -/
def execChezonLinkDown (s : State) : Host.Outcome State Fault Refusal :=
  ok (s.whenAt (s.runs .per && s.linkOn) (s.red.pktAt + 20 * us1) (fun s =>
    { s.modRed (fun r => { r with link := .down, downAt := some s.time, aligned := false }) with
      sys := { s.sys with peerHiSince := none }, upd := { s.upd with stale := s.upd.stale || s.upd.phase = 4 || s.upd.phase = 5 } }.fire
        0xB2 0x02 0 0))

/-- CHEZON_PACKET_SEND (R222): the claim of the latch and the unit's status; a link that is down begins to train,
from boot step 7 on, of a PAIR unit (14_start R288). -/
def execChezonPacketSend (s : State) : Host.Outcome State Fault Refusal :=
  if !s.runs .per then ok s
  else if s.red.link = .down then
    ok (s.when (s.strap = .pair && decide (7 ≤ s.sys.step ∧ s.sys.step ≤ 10)) (s.modRed (fun r => { r with link := .train })))
  else if s.linkOn then
    ok (s.modRed (fun r => { r with sentAt := s.time, sent := some ⟨true, r.claim, some s.ownStatus, s.upd.carry.head?.map (fun p => (s.upd.carried + 1, p))⟩ }))
  else ok s

/-- TIME_TRANSFER (R223): the offset is own time minus the peer's; the counter value is taken once. -/
def execTimeTransfer (offset : Int) (peerTick : Nat) (aligned : Bool) (s : State) : Host.Outcome State Fault Refusal :=
  if !(s.runs .per && s.linkOn && s.sys.role = .standby) then ok s
  else
    let take := aligned && !s.red.tickTaken
    let s1 := s.modRed (fun r => { r with tofs := satN 32 offset, aligned := aligned, tickTaken := r.tickTaken || take })
    ok (if take then { s1 with tick := peerTick } else s1).readyUp

/-! ### Snapshots -/

/-- The engine block (Table RED.10): the states after the last completed sample, kept aside while a sample runs (R224). -/
def Engine.block (g : Engine) : SnapEngine := if g.job.isSome then g.pre.getD g.states else g.states

/-- The rail block (Table RED.10). -/
def State.railBlock (s : State) (n : Fin 8) : SnapRail :=
  let r := s.pwm.rail[n]
  { state := r.state, h := r.h, r := r.r, ifl := r.ifl, sync := r.sync,
    phases := (s.railPhases n).map (fun j => let p := s.pwm.ph[j]; (j.val, p.pstate, p.trim, p.ofs)) }

/-- The length of a snapshot in bytes (Table RED.10): header, sense, engines, rails, dispatch and trailer. -/
def State.snapLen (s : State) : Nat :=
  let engs := (finsWhere 20 (fun (e : Fin 20) => s.bit (F.LAW_CTL.en e))).map (fun (e : Fin 20) =>
    16 + 10 * (s.fld (F.LAW_CFG.nsec_m1 e) + 1) * (if (s.law.eng[e].block).xf.isSome then 2 else 1))
  let rails := finsWhere 8 (fun n => !(s.railPhases n).isEmpty)
  32 + 328 + engs.sum + 48 * rails.length + 304 + 4

/-- The snapshot of this instant (R224, Table RED.10). The value of its CRC-32 is a free one: the table gives the blocks' sizes and
contents and not the place of each field in them (log 74). -/
def State.snapshot (s : State) : Snapshot :=
  let ch (k : Fin 34) : Chan := s.sns.ch[(⟨k.val, by omega⟩ : Fin 130)]
  { seq := s.red.outSeq, epoch := s.aon.epoch, claim := s.red.claim, tick := s.tick % 2 ^ 32, time := s.sns64,
    eng := Vector.ofFn (fun k => (ch k).eng),
    engStamp := Vector.ofFn (fun k => (ch k).stamp.map (· % 65536)),
    strings := s.bat.str.map (fun b => (b.vb, b.ib)),
    scan := Vector.ofFn (fun (k : Fin 64) => BitVec.ofInt 12 (s.sns.ch[(⟨34 + k.val, by omega⟩ : Fin 130)].raw / 2048)),
    engines := (finsWhere 20 (fun e => s.bit (F.LAW_CTL.en e))).map (fun e => (e, s.law.eng[e].block)),
    rails := (finsWhere 8 (fun n => !(s.railPhases n).isEmpty)).map (fun n => (n, s.railBlock n)),
    alloc := s.hbx.src.map (·.prev),
    caps := s.dkl.ld.map (·.c), held := s.dkl.ld.map (·.held), settle := s.dkl.fd.map (·.settle),
    hu := s.vat.hu, walk := s.vat.walk, gwalk := s.vat.gwalk, pf := s.vat.pf.getD 0
    engMask := BitVec.ofNat 20 (((finsWhere 20 (fun e => s.bit (F.LAW_CTL.en e))).map (fun e => 2 ^ e.val)).sum)
    railMask := BitVec.ofNat 8 (((finsWhere 8 (fun n => !(s.railPhases n).isEmpty)).map (fun n => 2 ^ n.val)).sum)
    len := s.snapLen, crc := s.free.setWidth 32 }

/-- Ticks between two snapshots (R222, R224). -/
def State.snapTicks (s : State) : Nat := if s.red.link = .oneLane then 4 else 2

/-- SNAPSHOT_CAPTURE (R224): once at each tick boundary with an even counter value. -/
def execSnapshotCapture (s : State) : Host.Outcome State Fault Refusal :=
  let due := s.runs .per && s.sys.role = .active && s.atTick && s.tick % s.snapTicks = 0 &&
    s.red.out.all (fun o => o.tick != s.tick % 2 ^ 32)
  ok (s.when due (s.drawn.modRed (fun r => { r with out := some s.snapshot, outSeq := r.outSeq + 1 })))

/-- One comparison of an item (R226): a run of n differences is a mismatch, reported once until the item's bit is cleared. -/
def State.compare (s : State) (item : Fin 83) (differs : Bool) (mask : Fld) (bit cause arg : Nat) : State :=
  if !differs then s.modRed (fun r => { r with mis := modAt r.mis item (fun _ => 0) })
  else
    let n := min 255 (s.red.mis[item] + 1)
    let s1 := s.modRed (fun r => { r with mis := modAt r.mis item (fun _ => n) })
    if n < s.fld F.RED_XCHK.n then s1
    else
      let s2 := s1.modRed (fun r => { r with lastMis := true })
      if s2.flagBit mask bit then s2
      else
        let c := s2.red.xmis.inc
        (((s2.modRed (fun r => { r with xmis := c })).stickBit mask bit).stick F.RED_STAT.xmis |>.fire 0xB4 cause 0 arg).satEv
          s2.red.xmis c 0xB0 0x1A030

/-- The own sample of a channel whose stamp is nearest to a stamp whose low 16 bits are known, and the distance (R226). -/
def nearest (h : List (Nat × Int)) (t : Nat) : Option (Nat × Int) :=
  h.foldl (fun b x =>
    let d := (sgn 16 (x.1 + 65536 - t % 65536)).natAbs
    match b with
    | some (d0, _) => if d < d0 then some (d, x.2) else b
    | none => some (d, x.2)) none

/-- A difference in engineering units, in Q1.15 units of the channel's full scale; equal values do not differ whatever that is. -/
def State.q15 (s : State) (ch : Fin 130) (d : Int) : Int := if d = 0 then 0 else rdiv (d * 32768) (sgn 32 (s.fld (F.SNS_CH_FS.fs ch)))

/-- A difference above RED_XCHK.stol (R226). -/
def State.senseDiffers (s : State) (d : Int) : Bool := decide (d.natAbs > s.fld F.RED_XCHK.stol)

/-- Channels 0–33 of an accepted snapshot against the own samples (R226). -/
def State.xcheckChannels (s : State) (b : Snapshot) : State :=
  foldFin 34 s (fun s k =>
    match b.engStamp[k] with
    | none => s
    | some t =>
      match nearest s.sns.ch[(⟨k.val, by omega⟩ : Fin 130)].hist (toBits 16 (t + s.red.tofs)) with
      | none => s
      | some (d, v) =>
        if d > 1000 then s
        else if h : k.val < 32 then
          s.compare ⟨k.val, by omega⟩ (s.senseDiffers (v - b.eng[k])) F.RED_XMASK0.mask k.val 0x01 k.val
        else s.compare ⟨k.val, by omega⟩ (s.senseDiffers (v - b.eng[k])) F.RED_XMASK1.mask (k.val - 32) 0x01 k.val)

/-- Of the unit's own results, those that stood at the capture of a snapshot: the newest from a tick before it, by the aligned
counter (R223, R226). -/
def ownAtTick {α : Type} (l : List (Nat × α)) (tick : Nat) : Option (Nat × α) :=
  l.find? (fun p => decide (0 < sgn 32 (tick + 2 ^ 32 - p.1 % 2 ^ 32)))

/-- Block means of the strings, at each new block (R226). -/
def State.xcheckStrings (s : State) (b : Snapshot) : State :=
  match ownAtTick s.red.ownMeans b.tick with
  | none => s
  | some (k, own) =>
    if !s.red.tickTaken ∨ k + 1 = s.red.seenBlk then s
    else
      foldFin 8 (s.modRed (fun r => { r with seenBlk := k + 1 })) (fun s i =>
        let dv := s.q15 ⟨98 + i.val, by omega⟩ (own[i].1 - b.strings[i].1)
        let di := s.q15 ⟨106 + i.val, by omega⟩ (own[i].2 - b.strings[i].2)
        s.compare ⟨34 + i.val, by omega⟩ (s.senseDiffers dv || s.senseDiffers di) F.RED_XMASK1.mask (2 + i.val) 0x01 (98 + i.val))

/-- Scan codes, at each new scan (R226); a 12-bit code step is 8 units of Q1.15. -/
def State.xcheckScan (s : State) (b : Snapshot) : State :=
  if s.sns.scans = s.red.seenScan then s
  else
    let bad := finsWhere 64 (fun k =>
      s.senseDiffers ((s.sns.ch[(⟨34 + k.val, by omega⟩ : Fin 130)].raw / 2048 - (b.scan[k].toNat : Int)) * 8))
    (s.modRed (fun r => { r with seenScan := s.sns.scans })).compare 42 (!bad.isEmpty) F.RED_XMASK1.mask 10 0x01
      (34 + (bad.head?.map Fin.val).getD 0)

/-- Delivered allocations, once per allocation period, against the own allocation of the same period; suspended while an update is
in force (R226, 17_field_update R349). -/
def State.xcheckDispatch (s : State) (b : Snapshot) : State :=
  match ownAtTick s.red.ownAlloc b.tick with
  | none => s
  | some (k, own) =>
    if !s.red.tickTaken ∨ k + 1 = s.red.seenPer ∨ (3 ≤ s.upd.phase ∧ s.upd.phase ≤ 6) then s
    else
      foldFin 40 (s.modRed (fun r => { r with seenPer := k + 1 })) (fun s i =>
        s.compare ⟨43 + i.val, by omega⟩ (decide ((own[i] - b.alloc[i]).natAbs > s.fld F.RED_ATOL.atol))
          F.RED_XMASK1.mask 11 0x02 i.val)

/-- SENSE_CROSS_CHECK (R226). -/
def State.crossCheck (s : State) (b : Snapshot) : State :=
  let s1 := s.modRed (fun r => { r with lastMis := false })
  (((s1.xcheckChannels b).xcheckStrings b).xcheckScan b).xcheckDispatch b

/-- SNAPSHOT_STATE_ADOPT (R225): the epoch at once; engines, rails, deckle and vat block at their next boundaries. Stamps of
the peer are converted by the offset (R223). -/
def State.snapAdopt (s : State) (b : Snapshot) : State :=
  let conv (t : Nat) : Nat := (t + s.red.tofs).toNat
  let s1 := b.engines.foldl (fun s p =>
    s.modEng p.1 (fun g => if g.run = .track then { g with snapIn := some { p.2 with stamp := p.2.stamp.map conv } } else g)) s
  let s2 := b.rails.foldl (fun s p => s.modRail p.1 (fun r => { r with snapIn := some p.2 })) s1
  ({ s2.modRed (fun r => { r with disp := some b, prevIn := some b }) with aon := { s2.aon with epoch := b.epoch } }).latchClaim

/-- Is a snapshot accepted (R225)? It must arrive before the next capture instant, judged by the aligned tick. -/
def State.snapOk (s : State) (b : Snapshot) (crcOk : Bool) : Bool :=
  let late := s.red.tickTaken && decide ((s.snapTicks : Int) ≤ sgn 32 (s.tick + 2 ^ 32 - b.tick % 2 ^ 32))
  crcOk && claimRole b.claim = 3 && !late

/-- SNAPSHOT_RECEIVED (R225–R227). -/
def execSnapshotReceived (snap : Snapshot) (crcOk : Bool) (s : State) : Host.Outcome State Fault Refusal :=
  if !(s.runs .per && s.linkOn && s.sys.role = .standby) then ok s
  else
    let s0 := s.modRed (fun r => { r with inSeq := some snap.seq })
    if !s.snapOk snap crcOk then
      let c := s.red.snapErr.inc
      ok (((s0.modRed (fun r => { r with snapErr := c, accRun := 0 })).stick F.RED_STAT.snaperr).fire 0xB3 0x01 0 snap.seq.toNat
        |>.satEv s.red.snapErr c 0xB0 0x1A02C)
    else
      let gap := s.red.inSeq.any (fun q => q + 1 != snap.seq)
      let s1 := if gap then s0.fire 0xB3 0x02 0 snap.seq.toNat else s0
      let c := s.red.snapCnt.inc
      let s2 := (s1.modRed (fun r => { r with snapCnt := c, accRun := r.accRun + 1 })).satEv s.red.snapCnt c 0xB0 0x1A028
      ok ((s2.snapAdopt snap).crossCheck snap).readyUp

/-- STANDBY_KEEP_EXPIRY (R227): the link has been down for longer than keep_ms. -/
def execStandbyKeepExpiry (s : State) : Host.Outcome State Fault Refusal :=
  ok (s.whenDue (s.runs .per && s.sys.role = .standby && !s.linkOn) s.red.downAt (s.fld F.RED_SBY.keep_ms * ms1 + 1)
    State.readyDown)

/-- LONE_PEER_HIGHER_TIMEOUT (14_start R289): 1 ms of a higher peer claim. -/
def execLonePeerHigherTimeout (s : State) : Host.Outcome State Fault Refusal :=
  ok (s.whenDue (s.runs .mgt && s.sys.lone && s.sys.role = .active) s.sys.peerHiSince ms1
    (fun s => s.hwFld F.RED_CTL.degrade 1))

/-! ### Couch drill (R229, R230) -/

/-- A thermal warning is active (12_thermal R255). -/
def State.thmWarn (s : State) : Bool :=
  anyFin 48 (fun k => s.bit (F.THM_S_CFG.en k) && (s.thm.s[k].warn || s.thm.s[k].trip))

/-- The first condition of R229 that refuses a drill; 0 for none. -/
def State.drillRefusal (s : State) : Nat :=
  if s.sys.role ≠ .active then 1
  else if !s.red.peerSt.any (·.ready) ∨ !s.linkOn then 2
  else if s.sys.mode = modeHoldup then 3
  else if s.thmWarn then 4
  else if s.red.drill.isSome then 5
  else 0

/-- DRILL_START (R230). -/
def State.drillStart (s : State) : State :=
  (s.modRed (fun r => { r with drill := some ⟨1, s.time⟩, drillReq := none })).fire 0xB5 0x01 0 0

/-- A drill is asked for: it starts, or its refusal is reported (R229). -/
def State.drillAsk (s : State) : State := if s.drillRefusal = 0 then s.drillStart else s.fire 0xB5 0x03 0 s.drillRefusal

/-- DRILL_NOW (R229): a write of 1 to drill_now, a register of AON (R441); while PER is gated the unit is not ACTIVE. Step 15 takes
no write (14_start R283). -/
def execDrillNow (s : State) : Host.Outcome State Fault Refusal :=
  ok (s.when (s.runs .hst && s.exposed) s.drillAsk)

/-- DRILL_SCHEDULE (R229): days of operating time since the last completed drill; requested again every hour until it runs;
only its first refusal is reported. -/
def execDrillSchedule (s : State) : Host.Outcome State Fault Refusal :=
  let days := s.fld F.RED_DRILL.days
  let again := match s.red.drillReq with
    | some t => t + opHour
    | none => 0
  ok (s.whenOp (s.runs .per && s.decided && days ≠ 0) (max (s.red.drillOpt + days * 24 * opHour) again) (fun s =>
    if s.drillRefusal = 0 then s.drillStart
    else
      let s1 := s.modRed (fun r => { r with drillReq := some s.opTime })
      if s.red.drillReq.isSome then s1 else s1.fire 0xB5 0x03 0 s.drillRefusal))

/-- The drill is over for the former active unit: an ordinary standby, ready only if it has resynchronised (R227, R230). -/
def State.drillDone (s : State) : State :=
  let s1 := (s.modRed (fun r => { r with drill := none, drillOpt := s.opTime })).fire 0xB5 0x02 0 0
  if s1.readyOk then s1 else s1.readyDown

/-- DRILL_COMPLETE (R230): fb_ms from the demotion have passed without authority coming back. -/
def execDrillComplete (s : State) : Host.Outcome State Fault Refusal :=
  match s.red.drill with
  | some d =>
    ok (s.whenAt (s.runs .per && d.step = 2) (d.from_ + s.fld F.RED_DRILL.fb_ms * ms1) State.drillDone)
  | none => ok s

end Sys2Proof.Machine
end

