-- ==== Sys2Proof/Machine/Shelf.lean ====
section
/-! DEFINITION. The shelf tick (01_shelf R17–R20): tick boundaries, the freeze of the downlink payload, and the change of the
allocation period (06_headbox R126). -/

namespace Sys2Proof.Machine

/-- The tick strobes of the tick that has ended and of the one that starts (10_redundancy R213): CTL and LNK at each boundary,
DSP when its step of the allocation schedule was done or none was due. -/
def State.tickStrobes (s : State) : State :=
  let dsp := s.hbx.phase = 3 || s.tick != s.hbx.periodTick
  let s1 := if s.runs .ctl then s.strobe .ctl else s
  let s2 := if s.runs .dsp && dsp then s1.strobe .dsp else s1
  if s.runs .lnk then s2.strobe .lnk else s2

/-- Shortest length of a tick: a standby that aligns shortens each by at most 2.5 ns (10_redundancy R223). -/
def State.tickMin (s : State) : Nat := if s.sys.role = .standby then tickLen - 160 else tickLen

/-- What a tick boundary brings with it: the start of an allocation period, the alignment of the bus converters (02_sense R32),
the anchor of the CLM word grid (10_redundancy R205), the downlink frames, the trigger instants of law engines (03_law R47), and the rail blocks of an accepted snapshot on rails
without a driven phase (R17, R180, R225). -/
def State.boundary (s : State) : State :=
  let start := s.tick % s.hbx.period = 0
  let s1 := { s with
    tickAt := some s.time
    hbx := { s.hbx with frozen := false, phase := if start then 0 else s.hbx.phase, periodTick := if start then s.tick else s.hbx.periodTick,
                        done := s.hbx.done && !start, lateNow := s.hbx.lateNow && !start }
    sns := { s.sns with busNext := realign s.sns.busNext s.time (250 * ns1) }
    red := { s.red with wordNext := if s.tick % 4 = 0 then realign s.red.wordNext s.time (800 * ns1) else s.red.wordNext } }
  let s2 := (foldFin 32 s1.snsSat State.frameStart).lawNext start
  if s2.ctlWorks then foldFin 8 s2 (fun s n => if s.driven n = [] then s.railAdopt n else s) else s2

/-- SHELF_TICK (R17). The counter starts at 0 with the first boundary. -/
def execShelfTick (s : State) : Host.Outcome State Fault Refusal :=
  if !(s.runs .lnk && s.sns.running) then ok s
  else match s.tickAt with
    | none => ok s.boundary
    | some t =>
      ok (s.whenAt true (if t + s.tickMin ≤ s.time then s.time else t + tickLen)
        (fun s => { s.tickStrobes with tick := s.tick + 1 }.boundary))

/-- HBX_LATE (R19, 06_headbox R124): the results of this period are late, reported once. They are given up at the last freeze of
the period; with a period of several ticks they may still complete before it (R20). -/
def State.hbxLate (s : State) : State :=
  let due := decide (s.hbx.phase < 3) && (s.bit F.HBX_CTL.en || s.bit F.DKL_CTL.en)
  if due then
    let lastFreeze := s.hbx.phase = 0 || decide (s.hbx.periodTick + s.hbx.period ≤ s.tick + 1)
    let c := s.hbx.lateCnt.inc
    let s1 := if s.hbx.lateNow then s
      else ((({ s with hbx := { s.hbx with path := 3, lateCnt := c, lateNow := true } }.stick F.HBX_STAT.late).fire 0x58 0x01 0 0)).satEv
        s.hbx.lateCnt c 0x58 0x1407C
    if lastFreeze then { s1 with hbx := { s1.hbx with phase := 3 } } else s1
  else s

/-- PAYLOAD_FREEZE (R19): at 4.5 µs the payload of the next downlink frame is frozen. -/
def execPayloadFreeze (s : State) : Host.Outcome State Fault Refusal :=
  ok (s.whenDue (s.works && s.runs .lnk && !s.hbx.frozen) s.tickAt (4500 * ns1) (fun s =>
    let s1 := s.hbxLate
    { s1 with hbx := { s1.hbx with frozen := true }, slt := mapFin s1.slt (fun k l => s1.freezeSlot k l) }))

/-- HBX_PERIOD_CHANGE (06_headbox R126): at the first boundary whose counter value is a multiple of both lengths. -/
def execHbxPeriodChange (s : State) : Host.Outcome State Fault Refusal :=
  let new := s.fld F.HBX_PERIOD.ticks
  ok (s.when (s.runs .dsp && s.atTick && new ≠ s.hbx.period && s.tick % s.hbx.period = 0 && s.tick % new = 0)
    { s with hbx := { s.hbx with period := new } })

end Sys2Proof.Machine
end

