-- ==== Sys2Proof/Machine/Store.lean ====
section
/-! DEFINITION. The parameter store's arrays: words and their correction (15_parameter_store R298, R299), record copies
(R300–R303), the commit buffer (R304), the wear ring and the start of a save (R309, R310, R313). -/

namespace Sys2Proof.Machine

/-- Parameter-store fields replaced. -/
def State.modNvp (s : State) (f : Nvp → Nvp) : State := { s with nvp := f s.nvp }

/-! ### Words -/

/-- How many of a word's cells read back in error. -/
def errCount (e : BitVec 72) : Nat := (List.range 72).countP (fun k => e.getLsbD k)

/-- The data bits of a pattern of cells in error. -/
def errData (e : BitVec 72) : BitVec 64 := e.setWidth 64

/-- A store word as the commit buffer and the array hold it (R305). -/
def State.nvpCell (s : State) (a : Nat) : NWord :=
  match cellGet? s.nvp.buf a with
  | some d => ⟨d, 0⟩
  | none => cellGet ⟨0, 0⟩ s.nvp.store a

/-- Is a word uncorrectable (R299)? -/
def NWord.bad (w : NWord) : Bool := decide (2 ≤ errCount w.err)

/-- A word as a read returns it (R299). -/
def NWord.read (w : NWord) : BitVec 64 := if w.bad then w.data ^^^ errData w.err else w.data

/-- A read of a word in error is counted, recorded and reported at the first after a clear (R299); `shadow` tells the array. -/
def State.eccCount (s : State) (shadow : Bool) (a n : Nat) : State :=
  if n = 0 then s
  else
    let adr : Word := BitVec.ofNat 32 (b2n shadow * 2 ^ 31 + a * 8)
    let s1 := s.modNvp (fun v => { v with errAddr := adr })
    if n = 1 then
      let c := s.nvp.ce.inc
      let s2 := (s1.modNvp (fun v => { v with ce := c })).satEv s.nvp.ce c 0x12 0x3014
      if s.flag F.NVP_FLAG.ce then s2 else (s2.stick F.NVP_FLAG.ce).fire 0x12 0x01 0 adr.toNat
    else
      let c := s.nvp.ue.inc
      let s2 := (s1.modNvp (fun v => { v with ue := c })).satEv s.nvp.ue c 0x12 0x3018
      if s.flag F.NVP_FLAG.ue then s2 else (s2.stick F.NVP_FLAG.ue).fire 0x12 0x02 0 adr.toNat

/-- Words a 4 KiB commit buffer holds. -/
def bufMax : Nat := 512

/-- Words held in the commit buffer, scrub writes of the shadow array included. -/
def Nvp.held (v : Nvp) : Nat := v.buf.length + v.shScrub.length

/-- Can the commit buffer take a word now: no commit runs and it has room (R304, R305)? -/
def State.bufFree (s : State) : Bool := s.nvp.commit.isNone && !s.aon.pf && decide (s.nvp.held < bufMax)

/-- NVP_ECC_ERROR (R299): the effects of reading a store word; a corrected word becomes a scrub write in the commit buffer, or waits
for it while a commit runs. -/
def State.eccTouch (s : State) (a : Nat) : State :=
  let w := s.nvpCell a
  let n := errCount w.err
  let s1 := s.eccCount false a n
  if n ≠ 1 then s1
  else if s.bufFree then s1.modNvp (fun v => { v with buf := cellIns v.buf a w.data })
  else if s.nvp.rest.any (fun p => p.1 = a) then s1
  else s1.modNvp (fun v => { v with rest := v.rest ++ [(a, w.data)] })

/-- The same for a word of the shadow array (R299, R315). -/
def State.eccShadow (s : State) (a : Nat) (e : BitVec 72) : State :=
  let n := errCount e
  let s1 := s.eccCount true a n
  if n = 1 ∧ !s.nvp.shScrub.contains a then s1.modNvp (fun v => { v with shScrub := v.shScrub ++ [a] }) else s1

/-- The effects of reading n words from word address a on. -/
def State.eccRange (s : State) (a n : Nat) : State := (List.range n).foldl (fun s k => s.eccTouch (a + k)) s

/-- The bytes of n words from word address a on. -/
def State.nvpBytes (s : State) (a n : Nat) : List Byte :=
  (List.range n).flatMap (fun k => leBytes 8 ((s.nvpCell (a + k)).read).toNat)

/-! ### Records -/

/-- Place of a record id: store address of copy A, distance to copy B, copy size (Table NVP.1). -/
def recPlace (id : Nat) : Option (Nat × Nat × Nat) :=
  if 1 ≤ id ∧ id ≤ 8 then some (0x200 * (id - 1), 0x100, 0x100)
  else if id = 0x10 then some (0x1000, 0xA000, 0xA000)
  else if 0x20 ≤ id ∧ id ≤ 0x27 then some (0x15000 + 0x1200 * (id - 0x20), 0x900, 0x900)
  else if 0x40 ≤ id ∧ id ≤ 0x4F then some (0x1E000 + 0x400 * (id - 0x40), 0x200, 0x200)
  else if 0x8000 ≤ id ∧ id ≤ 0x807F then some (0x30000 + 0x200 * (id - 0x8000), 0x100, 0x100)
  else none

/-- A record copy as read: validity (R301), blankness, header fields, payload, all its words' bytes, how many words were read. -/
structure Copy where
  valid : Bool
  blank : Bool
  seq : Nat
  fmt : Nat
  payload : List Byte
  all : List Byte
  words : Nat
deriving DecidableEq, Repr

/-- The copy of a record id at a store address (R301); one that is being written in several commits is not valid (R304). -/
def State.copyAt (s : State) (id adr size : Nat) : Copy :=
  let a := adr / 8
  let h := s.nvpBytes a 2
  let len := leAt h 2 2
  let seq := leAt h 4 6
  let fmt := leAt h 10 2
  let blank := h.all (fun b => b = 0)
  let hBad := (s.nvpCell a).bad || (s.nvpCell (a + 1)).bad
  if leAt h 0 2 ≠ id ∨ 16 + len > size ∨ seq = 0 ∨ hBad ∨ s.nvp.big.any (fun b => b.1 = a) then ⟨false, blank, seq, fmt, [], h, 2⟩
  else
    let n := (16 + len + 7) / 8
    let bs := s.nvpBytes a n
    let pl := byteSlice bs 16 len
    let ok := crc32 (bs.take 12 ++ pl) = leAt h 12 4 && (List.range n).all (fun k => !(s.nvpCell (a + k)).bad)
    ⟨ok, blank, seq, fmt, pl, bs, n⟩

/-- A selection of copies: the copy in use (true: B), whether the copies are twins, whether both are bad (R303). -/
structure Sel where
  use : Option (Bool × Copy)
  twin : Bool
  bothBad : Bool
deriving DecidableEq, Repr

/-- R303. -/
def selectCopy (a b : Copy) : Sel :=
  if a.valid ∧ b.valid then
    if a.seq > b.seq then ⟨some (false, a), false, false⟩
    else if b.seq > a.seq then ⟨some (true, b), false, false⟩
    else if a.all = b.all then ⟨some (false, a), false, false⟩
    else if a.seq % 2 = 0 then ⟨some (false, a), true, false⟩
    else ⟨some (true, b), true, false⟩
  else if a.valid then ⟨some (false, a), false, false⟩
  else if b.valid then ⟨some (true, b), false, false⟩
  else ⟨none, false, !(a.blank && b.blank)⟩

/-- The selection for a record id. -/
def State.recSel (s : State) (id : Nat) : Sel :=
  match recPlace id with
  | some (a, d, z) => selectCopy (s.copyAt id a z) (s.copyAt id (a + d) z)
  | none => ⟨none, false, false⟩

/-- A record is read: the effects of reading its copies (R299) and of the selection (R303). -/
def State.recRead (s : State) (id : Nat) : State × Option (Bool × Copy) :=
  match recPlace id with
  | none => (s, none)
  | some (a, d, z) =>
    let ca := s.copyAt id a z
    let cb := s.copyAt id (a + d) z
    let r := selectCopy ca cb
    let s1 := (s.eccRange (a / 8) ca.words).eccRange ((a + d) / 8) cb.words
    let s2 :=
      if r.twin then
        let c := s1.nvp.twin.inc
        (((s1.modNvp (fun v => { v with twin := c })).stick F.NVP_FLAG.twin).fire 0x13 0x01 0 id).satEv s1.nvp.twin c 0x12 0x301C
      else s1
    (if r.bothBad then (s2.stick F.NVP_FLAG.both_bad).fire 0x13 0x02 0 id else s2, r.use)

/-- The sequence number that a write of a record takes (R302). -/
def State.recNextSeq (s : State) (id : Nat) : Nat := ((s.recSel id).use.map (fun u => u.2.seq)).getD 0 + 1

/-- A record copy: header (Table NVP.2), payload, padding to a whole word. -/
def recBytes (id fmt seq : Nat) (pl : List Byte) : List Byte :=
  let h := leBytes 2 id ++ leBytes 2 pl.length ++ leBytes 6 seq ++ leBytes 2 fmt
  let bs := h ++ leBytes 4 (crc32 (h ++ pl)) ++ pl
  bs ++ List.replicate ((8 - bs.length % 8) % 8) 0

/-- The words of a byte list placed at a store address. -/
def bytesWords (adr : Nat) (bs : List Byte) : List (Nat × BitVec 64) :=
  (List.range ((bs.length + 7) / 8)).map (fun k => (adr / 8 + k, BitVec.ofNat 64 (leAt bs (8 * k) 8)))

/-- The words that a record write puts into the buffer (R302). -/
def State.recWords (s : State) (w : NvpWrite) : List (Nat × BitVec 64) :=
  match recPlace w.id with
  | some (a, d, _) =>
    let q := s.recNextSeq w.id
    bytesWords (if q % 2 = 0 then a else a + d) (recBytes w.id w.fmt q w.payload)
  | none => []

/-- Words into the commit buffer: a word written twice holds the later value (R304). -/
def bufPut (b : Cells (BitVec 64)) (ws : List (Nat × BitVec 64)) : Cells (BitVec 64) := ws.foldl (fun m p => cellIns m p.1 p.2) b

/-- A commit starts (R304). -/
def State.commitStart (s : State) : State := s.modNvp (fun v => { v with commit := some s.time, stopped := false })

/-- Waiting words and records move into the buffer while no commit runs; one that does not fit starts a commit (R304). A
saturated record is refused (R302). Records wait through a management restart (17_field_update R346); nothing moves while
power-fail stands (R307). -/
def State.nvpPump : Nat → State → State
  | 0, s => s
  | fuel + 1, s =>
    if s.nvp.commit.isSome || s.aon.pf then s
    else match s.nvp.rest with
      | _ :: _ =>
        let room := bufMax - s.nvp.held
        let s1 := s.modNvp (fun v => { v with buf := bufPut v.buf (v.rest.take room), rest := v.rest.drop room })
        if s1.nvp.rest.isEmpty then State.nvpPump fuel s1 else s1.commitStart
      | [] =>
        match s.nvp.queue with
        | [] => s
        | w :: q =>
          if s.sys.mgmtRestart then s
          else if s.recNextSeq w.id > 0xFFFFFFFFFFFF then
            let s1 := (s.modNvp (fun v => { v with queue := q })).stick F.NVP_FLAG.seq_sat
            let s2 := if w.id ∈ s.nvp.seqSat then s1
              else (s1.modNvp (fun v => { v with seqSat := w.id :: v.seqSat })).fire 0x13 0x03 0 w.id
            State.nvpPump fuel s2
          else
            let ws := s.recWords w
            if s.nvp.held + ws.length ≤ bufMax then
              State.nvpPump fuel (s.modNvp (fun v => { v with queue := q, buf := bufPut v.buf ws }))
            else if s.nvp.held = 0 then
              State.nvpPump fuel (s.modNvp (fun v => { v with queue := q, rest := ws, big := ws.head?.map (fun p => (p.1, ws.length)) }))
            else s.commitStart

/-- The pump with fuel for all that waits. -/
def State.nvpFlow (s : State) : State := State.nvpPump (2 * s.nvp.queue.length + 3) s

/-- A record write by its owner (R302, R304). -/
def State.recWrite (s : State) (id fmt : Nat) (pl : List Byte) : State :=
  (s.modNvp (fun v => { v with queue := v.queue ++ [⟨id, fmt, pl⟩] })).nvpFlow

/-! ### The wear ring (R309, R310) -/

/-- Store address of ring slot j. -/
def slotAdr (j : Nat) : Nat := 0x22000 + 0x400 * (j % 16)

/-- Ring slot j as a copy. -/
def State.slotCopy (s : State) (j : Nat) : Copy := s.copyAt 0xF0 (slotAdr j) 0x400

/-- The valid slot of the highest seq, below a bound (0: no bound). -/
def State.slotBest (s : State) : Option (Nat × Copy) :=
  (List.range 16).foldl (fun b j =>
    let c := s.slotCopy j
    if !c.valid then b
    else match b with
      | some (_, c0) => if c.seq > c0.seq then some (j, c) else b
      | none => some (j, c)) none

/-- The words of a counter as a record holds it: bit 31 sat, bits 23:0 count. -/
def Ctr.le (c : Ctr) : List Byte := leBytes 4 c.word.toNat

/-- The idv entry of an identity (Table NVP.3). -/
def idvBytes (r : IdRec) : List Byte :=
  leBytes 8 (toBits 64 r.qr) ++ leBytes 8 r.cycAcc ++ leBytes 4 r.p ++ leBytes 4 r.deficit ++ leBytes 2 r.unanchH ++
    [BitVec.ofNat 8 (b2n r.valid), 0, 0, 0, 0, 0]

/-- The payload of a ring slot (Table NVP.3). -/
def State.slotPayload (s : State) (why : Nat) : List Byte :=
  leBytes 6 s.opTime ++ [0, 0] ++ s.aon.pcyc.le ++ leBytes 5 s.bbx.seq.toNat ++ [BitVec.ofNat 8 why, 0, 0] ++
    s.nvp.e.toList.flatMap (fun e => leBytes 8 e.1 ++ leBytes 4 e.2) ++ [0, 0, 0, 0] ++ s.bat.ids.toList.flatMap idvBytes

/-- A save starts: with an image the shadow header is cleared (R313); `after` is the ring slot it takes where that is not the one after
the last valid one (R314). -/
def State.saveStart (s : State) (why : Nat) (image : Bool) (after : Option Nat) : State :=
  s.modNvp (fun v => { v with
    save := some { why := why, from_ := s.time, image := image, after := after, opt := s.opTime, lost := false
                   payload := s.slotPayload why, slotDone := false, frozen := none }
    image := if image then none else v.image })

/-- A save is requested: refused while any save runs (R314). -/
def State.saveRequest (s : State) (why : Nat) : State :=
  if s.nvp.save.isSome then s.stick F.NVP_FLAG.save_ref else s.saveStart why true none

/-- The event store is frozen for the image as it stands 2 µs after the save starts (R313): done before the first change of
the store after that instant. -/
def State.freezeImage (s : State) : State :=
  match s.nvp.save with
  | some v => if v.image && v.frozen.isNone && s.elapsed v.from_ (2 * us1)
      then s.modNvp (fun n => { n with save := some { v with frozen := some s.bbx.st } }) else s
  | none => s

end Sys2Proof.Machine
end

