-- ==== Sys2Proof/Machine/Battery.lean ====
section
/-! DEFINITION. Battery strings (08_battery_strings): identity and presence, charge count, impedance, the voltage filter,
limits, contactors, and the estimator's cadence. -/

namespace Sys2Proof.Machine

/-- A string replaced by its image. -/
def State.modStr (s : State) (i : Fin 8) (f : Str → Str) : State := { s with bat := { s.bat with str := modAt s.bat.str i f } }

/-- State cause of a string (R176). -/
def State.batEvent (s : State) (i : Fin 8) (cause mid : Nat) (hi : Int) : State := s.fire (0x80 + 2 * i) cause mid hi
/-- Fault cause of a string (R176). -/
def State.batFault (s : State) (i : Fin 8) (cause mid : Nat) (hi : Int) : State := s.fire (0x81 + 2 * i) cause mid hi

/-- The BAT island works on its strings (R175). -/
def State.batWorks (s : State) : Bool := s.works && s.runs .bat

/-- An identity index. -/
def idx16 (c : Nat) : Fin 16 := ⟨c % 16, by omega⟩

/-- The record fields a string uses: its identity's working copy, or a guest's own (R157, R158). -/
def State.bRec (s : State) (i : Fin 8) : IdRec :=
  if s.bat.str[i].guest then s.bat.str[i].rec_ else s.bat.ids[idx16 s.bat.str[i].code]

/-- Those fields replaced. -/
def State.modBRec (s : State) (i : Fin 8) (f : IdRec → IdRec) : State :=
  if s.bat.str[i].guest then s.modStr i (fun x => { x with rec_ := f x.rec_ })
  else { s with bat := { s.bat with ids := modAt s.bat.ids (idx16 s.bat.str[i].code) f } }

/-! ### Impedance (R163–R165) -/

/-- A template word as an entry (Table BAT.4). -/
def wordZent (w : Word) (tick : Nat) : Zent := ⟨bits w.toNat 31 20, bits w.toNat 19 8, bits w.toNat 7 0, tick⟩

/-- An entry that nothing has filled: all 0. -/
def Zent.zero : Zent := ⟨0, 0, 0, 0⟩

/-- The age of an entry after a number of age ticks (R165). -/
def Zent.ageAt (z : Zent) (ticks : Nat) : Nat := min 255 (z.age + (ticks - z.tick))

/-- Entry k = 21·tb + sb of an identity's table: the template's since reset where nothing has replaced it (Table BAT.4). -/
def State.idZent (s : State) (c k : Nat) : Zent :=
  (cellGet? s.bat.ztab (336 * c + k)).getD (wordZent (cellGet 0 s.bat.tmpl k) 0)

/-- Entry k = 21·tb + sb of a string's table. -/
def State.zent (s : State) (i : Fin 8) (k : Nat) : Zent :=
  let x := s.bat.str[i]
  if x.guest then x.gtable.getD k Zent.zero else s.idZent x.code k

/-- An entry of a string's table written. -/
def State.putZent (s : State) (i : Fin 8) (k : Nat) (z : Zent) : State :=
  let x := s.bat.str[i]
  if x.guest then s.modStr i (fun x => { x with gtable := x.gtable.set k z })
  else { s with bat := { s.bat with ztab := cellPut Zent.zero s.bat.ztab (336 * x.code + k) z } }

/-- The template's entries as a table begun now. -/
def State.template (s : State) : List Zent := (List.range 336).map (fun k => wordZent (cellGet 0 s.bat.tmpl k) s.bat.ageTicks)

/-- The entries of an identity replaced by the template's (R160). -/
def State.tableOfTemplate (s : State) (c : Nat) : State :=
  { s with bat := { s.bat with
      ztab := (List.range 336).foldl (fun m k =>
        cellPut Zent.zero m (336 * c + k) (wordZent (cellGet 0 s.bat.tmpl k) s.bat.ageTicks)) s.bat.ztab } }

/-- A lookup of Zs, Zd and age at temperature t and SoC soc (R163). -/
def State.zLookup (s : State) (i : Fin 8) (t soc : Int) : Nat × Nat × Nat :=
  let t' := (clampI (-240) 960 t + 240).toNat
  let c' := (clampI 0 10000 soc).toNat
  let tb := min 14 (t' / 80)
  let sb := min 19 (c' / 500)
  let wt := t' - 80 * tb
  let ws := c' - 500 * sb
  let z (a b : Nat) : Zent := s.zent i (21 * (tb + a) + sb + b)
  let w (a b : Nat) : Nat := (if a = 0 then 80 - wt else wt) * (if b = 0 then 500 - ws else ws)
  let mix (f : Zent → Nat) : Nat := (rdiv (((f (z 0 0) * w 0 0 + f (z 0 1) * w 0 1 + f (z 1 0) * w 1 0 + f (z 1 1) * w 1 1 : Nat) : Int)) 40000).toNat
  let age (a b : Nat) : Nat := if w a b = 0 then 0 else (z a b).ageAt s.bat.ageTicks
  (mix (·.zs), mix (·.zd), max (max (age 0 0) (age 0 1)) (max (age 1 0) (age 1 1)))

/-- The nearest multiple of d among 0 to n, ties to the lower (R165). -/
def nearestBin (v : Int) (d n : Nat) : Nat :=
  let x := (max 0 v).toNat
  min n (if 2 * (x % d) > d then x / d + 1 else x / d)

/-- A measurement of Zs (dynamic: of Zd) updates the nearest entry, or is rejected (R165). -/
def State.learn (s : State) (i : Fin 8) (dynamic : Bool) (t soc zm : Int) : State :=
  let k := 21 * nearestBin (t + 240) 80 15 + nearestBin soc 500 20
  let e := s.zent i k
  let z : Int := if dynamic then e.zd else e.zs
  let pl : Int := s.fld (F.BAT_LRN.plaus i)
  let age := e.ageAt s.bat.ageTicks
  if zm ≤ 0 ∨ (age ≠ 255 ∧ (zm * pl < z ∨ z * pl < zm)) then
    let c := s.bat.str[i].rej.inc
    (s.modStr i (fun x => { x with rej := c })).satEv s.bat.str[i].rej c (0x80 + 2 * i) (0x170C4 + 0x200 * i)
  else
    let z' := (min 4095 (max (if dynamic then 0 else 1) (z + rne (zm - z) (s.fld (F.BAT_LRN.lshift i))))).toNat
    let e' : Zent := if dynamic then ⟨e.zs, z', 0, s.bat.ageTicks⟩ else ⟨z', e.zd, 0, s.bat.ageTicks⟩
    let c := s.bat.str[i].lrn.inc
    ((s.putZent i k e').modStr i (fun x => { x with lrn := c })).satEv s.bat.str[i].lrn c (0x80 + 2 * i) (0x170C0 + 0x200 * i)

/-- T_b as a lookup takes it: the last valid one, or 25 °C (R155). -/
def State.batT (s : State) (i : Fin 8) : Int := s.bat.str[i].tLast.getD 400

/-- s_c, the counted SoC in 0.01 % (R167). -/
def IdRec.sc (r : IdRec) : Int := rdiv r.qr (r.fcc * 1440)

/-- The segment j of the OCV table in which a voltage lies (R166). -/
def ocvSeg (o : Vector Int 21) (v : Int) : Nat := min 19 ((List.range 19).countP (fun j => decide (o.getD (j + 1) 0 ≤ v)))

/-- The voltage inverse s_v and ΔOCV (R166). -/
def sOfV (o : Vector Int 21) (v : Int) : Int × Int :=
  let j := ocvSeg o v
  let d := o.getD (j + 1) 0 - o.getD j 0
  if v < o[0] then (0, o[1] - o[0]) else if o[20] ≤ v then (10000, o[20] - o[19]) else (500 * j + rdiv ((v - o.getD j 0) * 500) d, d)

/-! ### Identity records (R158–R161) -/

/-- The bytes of an identity record (Table BAT.5). -/
def IdRec.bytes (r : IdRec) : List Byte :=
  leBytes 2 (b2n r.valid * 2 ^ 15 + b2n r.eoc * 2 ^ 14 + b2n r.eod * 2 ^ 13 + r.pos % 8 * 256 + r.code % 16) ++ leBytes 2 r.unanchH ++
    leBytes 4 r.fcc ++ r.cyc.le ++ leBytes 4 r.p ++ leBytes 8 (toBits 64 r.qr) ++ leBytes 4 r.deficit ++ leBytes 8 r.cycAcc ++
    leBytes 6 r.tSave ++ List.replicate 214 0

/-- An identity record from its bytes (Table BAT.5). -/
def IdRec.ofBytes (b : List Byte) : IdRec :=
  let st := leAt b 0 2
  { valid := bitAt st 15, eoc := bitAt st 14, eod := bitAt st 13, pos := bits st 10 8, code := bits st 3 0, unanchH := leAt b 2 2,
    fcc := leAt b 4 4, cyc := ⟨leAt b 8 4 % 2 ^ 24, bitAt (leAt b 8 4) 31⟩, p := leAt b 12 4, qr := sgn 64 (leAt b 16 8),
    deficit := leAt b 24 4, cycAcc := leAt b 28 8, tSave := leAt b 36 6 }

/-- IDENTITY_RECORD_WRITE (R159): the working copy is stamped and written; a guest's never is (R157). -/
def State.idWrite (s : State) (i : Fin 8) : State :=
  let x := s.bat.str[i]
  if x.guest then s
  else
    let s1 := s.modBRec i (fun r => { r with valid := r.valid || x.valid, pos := i, code := x.code, tSave := s.opTime })
    let s2 := { s1 with bat := { s1.bat with recBad := modAt s1.bat.recBad (idx16 x.code) (fun _ => false) } }
    s2.recWrite (0x40 + x.code) 0 (s2.bRec i).bytes

/-- The state of a string that takes the template (R160). -/
def State.takeTemplate (s : State) (i : Fin 8) : State :=
  let x := s.bat.str[i]
  let r : IdRec := { IdRec.zero with pos := i, code := x.code, fcc := s.fld (F.BAT_CAPNOM.mah i), p := s.fld (F.BAT_PINIT.pinit i) }
  let s1 := s.modBRec i (fun _ => r)
  let s2 := if x.guest then s1.modStr i (fun x => { x with gtable := s.template }) else s1.tableOfTemplate x.code
  s2.modStr i (fun x => { x with ud := 0, unanch := true, unanchFired := false, qrFromV := true, mismDue := false })

/-- The starting state of a string that has become present with its code (R160, R168). -/
def State.takeRecord (s : State) (i : Fin 8) : State :=
  let x := s.bat.str[i]
  let r := s.bRec i
  if x.guest ∨ !r.valid then
    let s1 := if !x.guest ∧ s.bat.recBad[idx16 x.code] then s.batFault i 0x06 x.code 0 else s
    s1.takeTemplate i
  else
    let sec := (s.opTime - r.tSave) / 1024
    let s1 := s.modBRec i (fun r => { r with p := min (r.p + s.fld (F.BAT_QP.qp i) * sec) 100000000 })
    s1.modStr i (fun x => { x with
      ud := 0, unanch := decide (s.fld (F.BAT_ANC.unanch_max i) ≤ r.unanchH), unanchFired := decide (s.fld (F.BAT_ANC.unanch_max i) ≤ r.unanchH),
      qrFromV := false, mismDue := true })

/-- The results of a string as delivered to DSP (R151, R172). -/
def State.batDeliver (s : State) (i : Fin 8) : State :=
  let x := s.bat.str[i]
  { s with vat := { s.vat with
      strLim := modAt s.vat.strLim i (fun _ => (x.limDis, x.limChg)), erem := modAt s.vat.erem i (fun _ => x.erem) } }

/-- The contactor output wanted (R173). During a TRANSPORT entry it is released by the third step of R174. -/
def State.contactorWanted (s : State) (i : Fin 8) : Bool :=
  let x := s.bat.str[i]
  s.bit (F.BAT_CFG.cgpio_en i) && s.bit (F.BAT_CTL.en i) && s.bit (F.BAT_CTL.close i) && x.present && !x.ntcf && s.drives &&
    (s.sys.mode != modeTransport || s.sys.transportStep = 2 || s.sys.transportStep = 3) && s.sys.transportStep != 4

/-- CONTACTOR_UPDATE (R173). -/
def State.contactorUpdate (s : State) (i : Fin 8) : State :=
  let c := s.contactorWanted i
  s.modStr i (fun x => { x with closed := c })

/-- The working state of a string that has been absent: nothing is kept but its counters, its identity readings and faults. -/
def Str.away (x : Str) : Str :=
  { Str.reset with code := x.code, lastCode := x.lastCode, newKey := x.newKey, newRun := x.newRun, lrn := x.lrn, rej := x.rej,
                   txport := x.txport, ntcf := x.ntcf }

/-- Removal (R156): limits 0, contactor released, record written, measurements discarded. -/
def State.remove (s : State) (i : Fin 8) : State :=
  let s1 := s.idWrite i
  ((s1.modStr i Str.away).contactorUpdate i).batDeliver i

/-- The string that holds an identity code as its owner, other than i. -/
def State.holderOf (s : State) (i : Fin 8) (c : Nat) : Option (Fin 8) :=
  (List.finRange 8).find? (fun k => k ≠ i && s.bat.str[k].present && !s.bat.str[k].guest && s.bat.str[k].code = c)

/-- Presence with a code (R156, R157, R160). -/
def State.arrive (s : State) (i : Fin 8) (c : Nat) : State :=
  match s.holderOf i c with
  | none => (s.modStr i (fun x => { x.away with present := true, code := c, guest := false })).takeRecord i
  | some k =>
    ((((s.modStr i (fun x => { x.away with present := true, code := c, guest := true })).takeRecord i).stick (F.BAT_STAT.conflict i)).batFault i
      0x04 c k.val)

/-- Remaining charge in mAh as events carry it. -/
def IdRec.mAh (r : IdRec) : Int := r.qr / 14400000

/-- PRESENCE_CHANGE (R155–R157): eight strobes of the new reading. Of strings that take one code together the lowest goes
first (R157). -/
def execPresenceChange (i : Fin 8) (s : State) : Host.Outcome State Fault Refusal :=
  let x := s.bat.str[i]
  let first := !anyFin 8 (fun k => decide (k < i) && s.bat.str[k].changeDue && s.bat.str[k].newKey.isSome && s.bat.str[k].newKey == x.newKey)
  if !(s.batWorks && s.bat.enSeen[i] && x.changeDue && first) then ok s
  else
    let s0 := s.modStr i (fun x => { x with changeDue := false, newRun := 0 })
    if x.present then
      match x.newKey with
      | none => ok (((s0.batEvent i 0x02 x.code (s.bRec i).mAh).remove i).stick (F.BAT_STAT.removed i))
      | some c => ok ((((s0.remove i).arrive i c).batEvent i 0x03 (c + x.code * 256) 0).stick (F.BAT_STAT.swap i))
    else
      match x.newKey with
      | none => ok s0
      | some c =>
        let s1 := s0.arrive i c
        ok ((s1.batEvent i 0x01 c (s1.bRec i).fcc).stick (F.BAT_STAT.inserted i))

/-! ### The strobe (R152–R156, R162, R164, R171) -/

/-- What an identity code says (Table BAT.2): absent band, guard range, code. -/
inductive IdRead where
  | absent | guard | code (c : Nat)
deriving DecidableEq, Repr

/-- Table BAT.2. -/
def idRead (y : Nat) : IdRead :=
  if 3840 ≤ y then .absent else if 30 ≤ y % 240 ∧ y % 240 ≤ 209 then .code (y / 240) else .guard

/-- Presence and identity readings of one strobe (R154, R155). -/
def State.idStrobe (s : State) (i : Fin 8) (x y : Nat) : State :=
  let str := s.bat.str[i]
  let src := s.fld (F.BAT_CFG.pres_src i)
  let isOpen := decide (4064 ≤ x)
  let rd := idRead y
  let absent := if src = 0 then isOpen else if src = 1 then rd = .absent else isOpen || rd = .absent
  let last := match rd with
    | .code c => some c
    | _ => str.lastCode
  let code := if rd = .absent then some i.val else last
  let s1 := if rd = .guard ∧ !s.flag (F.BAT_STAT.guard i) then
      (s.stick (F.BAT_STAT.guard i)).batFault i 0x03 (last.getD 0) y else s
  let cur := if str.present then some str.code else none
  let key := if absent then none else code
  if !absent ∧ code.isNone then s1.modStr i (fun x => { x with newRun := 0, changeDue := false })
  else if key = cur then s1.modStr i (fun x => { x with lastCode := last, newRun := 0, changeDue := false })
  else
    let n := if key = str.newKey then str.newRun + 1 else 1
    s1.modStr i (fun x => { x with lastCode := last, newKey := key, newRun := n, changeDue := x.changeDue && key == str.newKey || decide (8 ≤ n) })

/-- The temperature of a strobe (R153); none for a short or an open. -/
def State.ntcStrobe (s : State) (i : Fin 8) (x : Nat) : Option Int :=
  if x ≤ 32 ∨ 4064 ≤ x then none
  else some (ntcTemp x (s.fld (F.BAT_NTC.rpu i)) (s.fld (F.BAT_NTC_R25.r25 i)) (s.fld (F.BAT_NTC.beta i)))

/-- NTC fault (R155): a short, whether or not the string is present, or an open while it is present by its ID. -/
def State.ntcFault (s : State) (i : Fin 8) (x : Nat) : State :=
  let short := decide (x ≤ 32)
  let fault := short || (decide (4064 ≤ x) && s.fld (F.BAT_CFG.pres_src i) = 1 && s.bat.str[i].present)
  let s1 := if fault ∧ !s.bat.str[i].ntcf then s.batFault i 0x01 (if short then 0 else 1) x else s
  let s2 := s1.modStr i (fun v => if fault then { v with ntcf := true, limDis := 0, limChg := 0, zd := none, skipSec := true } else { v with ntcf := false })
  if fault then s2.batDeliver i else s2

/-- BAT_CHARGE_COUNT (R162, R171). -/
def State.chargeCount (s : State) (i : Fin 8) (cur : Int) : State :=
  let nom := s.fld (F.BAT_CAPNOM.mah i) * 144000
  let r := s.bRec i
  let q0 := if 0 ≤ cur then r.qr - cur else r.qr - rne (cur * s.sfld (F.BAT_EFF.eff i)) 15
  let q := min q0 (r.fcc * 14400000)
  let acc := if 0 < cur then r.cycAcc + cur.toNat else r.cycAcc
  let n := if nom = 0 then 0 else acc / nom
  let c := r.cyc.count + n
  let cyc : Ctr := if r.cyc.sat then r.cyc else if 0xFFFFFF ≤ c then ⟨0xFFFFFF, true⟩ else ⟨c, false⟩
  let d := if !s.bat.str[i].qrFromV && decide (q < 0) && !r.eod then max r.deficit ((-q + 14399999) / 14400000).toNat else r.deficit
  let s1 := (s.counted n (0x170A8 + 0x200 * i.val)).modBRec i (fun r => { r with qr := q, cycAcc := if nom = 0 then acc else acc % nom, cyc := cyc, deficit := d })
  if cyc.sat && !r.cyc.sat then s1.fireRaw (0x80 + 2 * i) (evData 0x0A s.bat.str[i].code 0) none true else s1

/-- Largest minus smallest of a list. -/
def spanI : List Int → Int
  | [] => 0
  | a :: l => l.foldl max a - l.foldl min a

/-- BAT_STEP_DETECT (R164): the newest sample is that of strobe k+7. -/
def State.stepDetect (s : State) (i : Fin 8) : State :=
  let x := s.bat.str[i]
  let post := x.hist.take 4
  let pre := x.hist.drop 8
  let sm : Int := s.fld (F.BAT_LRN.step_min i)
  let iPost := rdiv (sumI (post.map (·.i))) 4
  let iPre := rdiv (sumI (pre.map (·.i))) 8
  let dI := iPost - iPre
  if x.hist.length < 16 ∨ x.ntcf ∨ spanI (pre.map (·.i)) * 4 > sm ∨ spanI (post.map (·.i)) * 4 > sm ∨ (dI.natAbs : Int) < sm then s
  else
    let vPost := rdiv (sumI (post.map (·.v))) 4
    let vPre := rdiv (sumI (pre.map (·.v))) 8
    let at_ := x.hist.getD 7 ⟨0, 0, 0, 0⟩
    let s1 := s.learn i false at_.t at_.s (rdiv (-(vPost - vPre) * 10000) dI)
    s1.modStr i (fun x => { x with zd := some ⟨s.bat.strobes - 7, dI, vPost, iPost, at_.t, at_.s, []⟩ })

/-- The wait for Zd goes on, or is abandoned (R164). -/
def State.zdWait (s : State) (i : Fin 8) (v cur : Int) (ovr : Bool) : State :=
  s.modStr i (fun x =>
    { x with zd := x.zd.bind (fun z =>
        if ovr || decide (((cur - z.iPost).natAbs : Int) * 4 > s.fld (F.BAT_LRN.step_min i)) then (if z.vs.length = 8 then some z else none)
        else if z.k + 3996 ≤ s.bat.strobes ∧ s.bat.strobes ≤ z.k + 4003 then some { z with vs := v :: z.vs }
        else some z) })

/-- The work of one strobe on one present string. -/
def State.strStrobe (s : State) (i : Fin 8) (v cur : Int) (ovr : Bool) (x : Nat) : State :=
  let s1 := s.chargeCount i cur
  let t := s.ntcStrobe i x
  let smp : BatSmp := ⟨v, cur, s1.batT i, (s1.bRec i).sc⟩
  let s2 := s1.modStr i (fun b =>
    { b with
      nS := b.nS + 1, sV := b.sV + v, sI := b.sI + cur, n2 := b.n2 + 1, s2V := b.s2V + v, s2I := b.s2I + cur
      sT := b.sT + t.getD 0, nT := b.nT + b2n t.isSome, s2T := b.s2T + t.getD 0, n2T := b.n2T + b2n t.isSome
      skipSec := b.skipSec || ovr, age := b.age + 1, hist := smp :: b.hist.take 15 })
  (s2.zdWait i v cur ovr).stepDetect i

/-- One string at a strobe: readings, then, where it is present, its count and step detection; its contactor follows. -/
def State.oneString (s : State) (i : Fin 8) (v cur : Int) (ovr : Bool) (nt : Option (BitVec 12 × BitVec 12)) : State :=
  if !s.bat.enSeen[i] then s.contactorUpdate i
  else
    match nt with
    | none => s.contactorUpdate i
    | some (x, y) =>
      let s1 := (s.idStrobe i x.toNat y.toNat).ntcFault i x.toNat
      (if s1.bat.str[i].present then s1.strStrobe i v cur ovr x.toNat else s1).contactorUpdate i

/-- The NTC and ID codes that the present strobe delivers (02_sense R34): none at the first strobes. -/
def State.stringNtc (s : State) : Option (Vector (BitVec 12) 8 × Vector (BitVec 12) 8) :=
  (s.sns.ntcId.find? (fun x => x.1 == s.sns.strobes)).map (fun x => x.2)

/-- One string's readings of a strobe (R152, 02_sense R34): its voltage and its current, and with
every second strobe its two temperature readings, each through its channel's calibration; then the string's own steps. -/
def State.strobeOne (v i : Vector (BitVec 18) 8) (s : State) (k : Fin 8) : State :=
  let stamp := s.sns64 - 375000
  let nt := s.stringNtc
  let chV : Fin 130 := ⟨98 + k.val, by omega⟩
  let chI : Fin 130 := ⟨106 + k.val, by omega⟩
  let cv := s.calAt chV (v[k]).toNat stamp
  let ci := s.calAt chI (i[k]).toNat stamp
  let s1 := (s.deliver chV cv stamp).deliver chI ci stamp
  let s2 := match nt with
    | some p =>
      let chN : Fin 130 := ⟨114 + k.val, by omega⟩
      let chD : Fin 130 := ⟨122 + k.val, by omega⟩
      (s1.deliver chN (s1.calAt chN (p.1[k]).toNat stamp) stamp).deliver chD (s1.calAt chD (p.2[k]).toNat stamp) stamp
    | none => s1
  s2.oneString k cv.val ci.val (cv.ovr || ci.ovr) (nt.map (fun p => (p.1[k], p.2[k])))

/-- STRING_STROBE (R152, 02_sense R34): at every tick boundary whose counter value is a multiple of 50; the rails' sum checks take
its currents (05_phases R104). -/
def execStringStrobe (v i : Vector (BitVec 18) 8) (s : State) : Host.Outcome State Fault Refusal :=
  if !(s.batWorks && s.sns.running && s.atTick && s.tick % 50 = 0 && s.bat.strobeTick != some s.tick) then ok s
  else
    let n := s.bat.strobes + 1
    let s1 := { s with
      bat := { s.bat with strobes := n, strobeTick := some s.tick, blockDue := s.bat.blockDue || n % 80 = 0 }
      sns := { s.sns with strobes := s.sns.strobes + 1, strobeAt := some s.time } }
    ok (foldFin 8 s1 (State.strobeOne v i)).sumStrobe

/-- ZD_MEASUREMENT (R164, R165): strobe k + 4,003 has come. -/
def execZdMeasurement (i : Fin 8) (s : State) : Host.Outcome State Fault Refusal :=
  match s.bat.str[i].zd with
  | some z =>
    if !(s.batWorks && z.vs.length = 8) then ok s
    else ok ((s.learn i true z.tAt z.sAt (rdiv (-(rdiv (sumI z.vs) 8 - z.vPost) * 10000) z.dI)).modStr i (fun x => { x with zd := none }))
  | none => ok s

/-! ### The block (R166, R169–R172) -/

/-- A limit that falls linearly from full to low over the taper (R169); d is the distance into it. -/
def taper (full low d tp : Int) : Int := if d ≤ 0 then low else if tp ≤ d then full else low + rdiv ((full - low) * d) tp

/-- Is T_b outside a window of BAT_TLIM (R169)? -/
def State.outside (s : State) (i : Fin 8) (hi lo : Fld) : Bool :=
  decide (s.batT i < 16 * s.sfld lo) || decide (16 * s.sfld hi < s.batT i)

/-- BAT_LIMITS (R169) and the remaining energy (R172), delivered to DSP. -/
def State.batLimits (s : State) (i : Fin 8) : State :=
  let x := s.bat.str[i]
  let r := s.bRec i
  let vc := x.vcomp
  let tp : Int := s.fld (F.BAT_VBAND.taper i)
  let idis : Int := s.fld (F.BAT_IDIS.ma i)
  let ichg : Int := s.fld (F.BAT_ICHG.ma i)
  let ifl : Int := s.fld (F.BAT_IFLOAT.ma i)
  let dOut := s.outside i (F.BAT_TLIM.dis_hi i) (F.BAT_TLIM.dis_lo i)
  let cOut := s.outside i (F.BAT_TLIM.chg_hi i) (F.BAT_TLIM.chg_lo i)
  let dis := if r.eod then 0 else taper idis (idis / 8) (vc - s.sfld (F.BAT_VEOD.mv i)) tp
  let chg := if r.eoc then ifl else taper ichg ifl (s.sfld (F.BAT_VEOC.mv i) - vc) tp
  let off := x.ntcf || x.txport || !x.valid
  let s1 := if dOut && !x.tlDis then s.batFault i 0x02 0 (s.batT i) else s
  let s2 := if cOut && !x.tlChg then s1.batFault i 0x02 1 (s.batT i) else s1
  (s2.modStr i (fun x =>
    { x with
      tlDis := dOut, tlChg := cOut, limDis := if off || dOut then 0 else dis, limChg := if off || cOut then 0 else chg
      erem := (max 0 r.qr * vc / 4000000000).toNat })).batDeliver i

/-- Clears of the latches, and the runs toward a declaration (R170). -/
def State.batLatches (s : State) (i : Fin 8) : State :=
  let x := s.bat.str[i]
  let r := s.bRec i
  let vc := x.vcomp
  let e := s.sfld (F.BAT_VEOD.mv i)
  let c := s.sfld (F.BAT_VEOC.mv i)
  let h : Int := s.fld (F.BAT_VBAND.hys i)
  let nd := if vc ≤ e then x.eodRun + 1 else 0
  let nc := if c ≤ vc then x.eocRun + 1 else 0
  let s1 := s.modStr i (fun x => { x with eodRun := nd, eocRun := nc, eodDue := !r.eod && decide (3 ≤ nd), eocDue := !r.eoc && decide (3 ≤ nc), declared := false })
  let s2 := if r.eod ∧ e + h ≤ vc then (s1.modBRec i (fun r => { r with eod := false })).batEvent i 0x05 x.code vc else s1
  if r.eoc ∧ vc ≤ c - h then (s2.modBRec i (fun r => { r with eoc := false })).batEvent i 0x07 x.code vc else s2

/-- The block of one string: a complete one forms its means (R152, R153, R160, R166). -/
def State.strBlock (s : State) (i : Fin 8) : State :=
  let x := s.bat.str[i]
  let s0 := s.modStr i (fun x => { x with nS := 0, sV := 0, sI := 0, sT := 0, nT := 0 })
  if !(s.bat.enSeen[i] && x.present) || x.nS ≠ 80 then s0
  else
    let v := rdiv x.sV 80
    let cur := rdiv x.sI 80
    let t := if x.nT = 0 then x.tLast else some (rdiv x.sT x.nT)
    let s1 := s0.modStr i (fun x => { x with tLast := t, tb := t.getD x.tb })
    let sc := if x.qrFromV then (sOfV s.bat.ocv v).1 else (s.bRec i).sc
    let z := s1.zLookup i (s1.batT i) sc
    let vc := v + rdiv (cur * z.1) 10000
    let s2 := if x.qrFromV then s1.modBRec i (fun r => { r with qr := (sOfV s.bat.ocv vc).1 * r.fcc * 1440 }) else s1
    let s3 := s2.modStr i (fun x =>
      { x with
        vb := v, ib := cur, vcomp := vc, z := (z.1, z.2.1), valid := true, qrFromV := false
        ud := x.ud + rdiv (rdiv (cur * z.2.1) 10000 - x.ud) 50
        di := match x.ibPrev with | some p => max x.di (((cur - p).natAbs : Nat) : Int) | none => x.di
        ibPrev := some cur })
    (s3.batLatches i).batLimits i

/-- BAT_BLOCK (R152, R166): every 80 strobes; the block means stay at hand for the standby's cross-check (10_redundancy R226). -/
def execBatBlock (s : State) : Host.Outcome State Fault Refusal :=
  if !(s.batWorks && s.bat.blockDue) then ok s
  else
    let n := s.bat.blocks + 1
    let s0 := { s with bat := { s.bat with blockDue := false, blocks := n % 50, secDue := s.bat.secDue || n = 50 } }
    let s1 := foldFin 8 s0 State.strBlock
    ok { s1 with red := { s1.red with ownMeans := ((s.tick, s1.bat.str.map (fun x => (x.vb, x.ib))) :: s.red.ownMeans).take 2 } }

/-- An anchor (R168). -/
def State.batAnchor (s : State) (i : Fin 8) : State :=
  ((s.modBRec i (fun r => { r with unanchH := 0 })).modStr i (fun x => { x with unanch := false, unanchFired := false, unanchSat := false })).stick
    (F.BAT_STAT.anchor i)

/-- fcc limited to BAT_CAPLIM; a change is reported (R170). -/
def State.fccLimit (s : State) (i : Fin 8) (old : Nat) : State :=
  let nom := s.fld (F.BAT_CAPNOM.mah i)
  let lo := nom * s.fld (F.BAT_CAPLIM.min i) / 100
  let hi := nom * s.fld (F.BAT_CAPLIM.max i) / 100
  let f := max lo (min hi (s.bRec i).fcc)
  let s1 := s.modBRec i (fun r => { r with fcc := f })
  if f = old then s1 else (s1.stick (F.BAT_STAT.capupd i)).batEvent i 0x09 s.bat.str[i].code f

/-- The capacity step st (R170). -/
def State.capStep (s : State) (i : Fin 8) : Nat := s.fld (F.BAT_CAPLIM.step i) * s.fld (F.BAT_CAPNOM.mah i) / 100

/-- EOD_DECLARE (R170). -/
def execEodDeclare (i : Fin 8) (s : State) : Host.Outcome State Fault Refusal :=
  let x := s.bat.str[i]
  let r := s.bRec i
  if !(s.batWorks && x.eodDue) then ok s
  else
    let f := if 0 < r.qr then r.fcc - min (r.qr / 14400000).toNat (s.capStep i) else r.fcc
    let s1 := (s.modBRec i (fun r => { r with eod := true, fcc := f, qr := 0, p := s.fld (F.BAT_QP.qp i) })).batEvent i 0x04 x.code x.vcomp
    let s2 := ((s1.modStr i (fun x => { x with eodDue := false, declared := true })).fccLimit i r.fcc).batAnchor i
    ok ((s2.batLimits i).idWrite i)

/-- EOC_DECLARE (R170). -/
def execEocDeclare (i : Fin 8) (s : State) : Host.Outcome State Fault Refusal :=
  let x := s.bat.str[i]
  let r := s.bRec i
  if !(s.batWorks && x.eocDue) then ok s
  else
    let f := r.fcc + min r.deficit (s.capStep i)
    let s1 := (s.modBRec i (fun r => { r with eoc := true, fcc := f, deficit := 0, qr := f * 14400000, p := s.fld (F.BAT_QP.qp i) })).batEvent i
      0x06 x.code x.vcomp
    let s2 := ((s1.modStr i (fun x => { x with eocDue := false, declared := true })).fccLimit i r.fcc).batAnchor i
    ok ((s2.batLimits i).idWrite i)

/-! ### The second, the hour, the age tick (R167, R168, R165) -/

/-- The correction of one string, its anchor and the identity mismatch test (R167, R168). -/
def State.correct (s : State) (i : Fin 8) : State :=
  let x := s.bat.str[i]
  let r := s.bRec i
  let v := rdiv x.s2V 4000
  let cur := rdiv x.s2I 4000
  let t := if x.n2T = 0 then s.batT i else rdiv x.s2T x.n2T
  let sc := r.sc
  let z := s.zLookup i t sc
  let vocv := v + rdiv (cur * z.1) 10000 + x.ud
  let sv := sOfV s.bat.ocv vocv
  let rv : Int := s.fld (F.BAT_RV.r0 i) + rdiv (s.fld (F.BAT_RV.kd i) * x.di) 1000 + s.fld (F.BAT_RV.ka i) * z.2.2
  let rs := rdiv (rv * 250000) (sv.2 * sv.2)
  let p : Int := min (r.p + s.fld (F.BAT_QP.qp i)) 100000000
  let ds := rdiv (p * (sv.1 - sc)) (p + rs)
  let s1 := (s.modBRec i (fun r => { r with qr := min (r.qr + ds * r.fcc * 1440) (r.fcc * 14400000), p := (rdiv (p * rs) (p + rs)).toNat })).modStr i
    (fun x => { x with rs := rs })
  let quiet := decide (rs ≤ s.fld (F.BAT_ANC.rmax i))
  let s2 := if quiet then s1.batAnchor i else s1
  if x.mismDue && quiet && decide (cur.natAbs ≤ s.fld (F.BAT_IDCHK.irest i)) then
    if (sv.1 - sc).natAbs > s.fld (F.BAT_IDCHK.mism i) then
      let s3 := (s2.takeTemplate i).modBRec i (fun r => { r with qr := sv.1 * r.fcc * 1440 })
      ((s3.modStr i (fun x => { x with qrFromV := false })).stick (F.BAT_STAT.mism i)).batFault i 0x05 x.code (sv.1 - sc)
    else s2.modStr i (fun x => { x with mismDue := false })
  else s2

/-- BAT_SECOND (R167): every 50 blocks. Seconds that R167 excludes, and incomplete ones, are passed over. -/
def execBatSecond (s : State) : Host.Outcome State Fault Refusal :=
  if !(s.batWorks && s.bat.secDue) then ok s
  else
    ok (foldFin 8 { s with bat := { s.bat with secDue := false } } (fun s i =>
      let x := s.bat.str[i]
      let go := s.bat.enSeen[i] && x.present && x.valid && x.n2 = 4000 && !x.skipSec && !x.ntcf && !x.declared && !x.eodDue && !x.eocDue
      let s1 := if go then s.correct i else s
      s1.modStr i (fun x => { x with n2 := 0, s2V := 0, s2I := 0, s2T := 0, n2T := 0, di := 0, ibPrev := none, skipSec := x.ntcf })))

/-- The first multiple of d after n. -/
def nextMul (n d : Nat) : Nat := (n / d + 1) * d

/-- BAT_HOUR (R168): an hour of the AON counter's operating time has passed while the estimator worked (R152). -/
def execBatHour (s : State) : Host.Outcome State Fault Refusal :=
  let due := nextMul s.bat.hourAt opHour
  ok (s.whenOp s.batWorks due (fun s =>
    foldFin 8 { s with bat := { s.bat with hourAt := due } } (fun s i =>
      let x := s.bat.str[i]
      if !(s.bat.enSeen[i] && x.present) then s
      else
        let n := min 65535 ((s.bRec i).unanchH + 1)
        let s1 := s.modBRec i (fun r => { r with unanchH := n })
        let s2 := if s.fld (F.BAT_ANC.unanch_max i) ≤ n ∧ !x.unanchFired then
            (s1.modStr i (fun x => { x with unanch := true, unanchFired := true })).batEvent i 0x08 x.code n else s1
        if n = 65535 ∧ !x.unanchSat then (s2.modStr i (fun x => { x with unanchSat := true })).fireSat (0x80 + 2 * i) (0x170BC + 0x200 * i) else s2)))

/-- BAT_AGE_TICK (R165, R159): 4 h of operating time. -/
def execBatAgeTick (s : State) : Host.Outcome State Fault Refusal :=
  let due := nextMul s.bat.ageAt (4 * opHour)
  ok (s.whenOp s.batWorks due (fun s =>
    foldFin 8 { s with bat := { s.bat with ageAt := due, ageTicks := s.bat.ageTicks + 1 } } (fun s i =>
      if s.bat.enSeen[i] && s.bat.str[i].present then s.idWrite i else s)))

/-! ### Enable, disable, forget, transport (R150, R161, R174) -/

/-- The lowest failing entry of the template and the OCV table (R161). -/
def State.tableBad (s : State) : Option Nat :=
  match (List.range 336).find? (fun k => bits (cellGet (0 : Word) s.bat.tmpl k).toNat 31 20 = 0) with
  | some k => some k
  | none => (List.range 20).find? (fun j => !decide (s.bat.ocv.getD j 0 < s.bat.ocv.getD (j + 1) 0)) |>.map (336 + ·)

/-- BAT_ENABLE (R150, R161): en has gone from 0 to 1. -/
def execBatEnable (i : Fin 8) (s : State) : Host.Outcome State Fault Refusal :=
  if !(s.runs .bat && s.bit (F.BAT_CTL.en i) && !s.bat.enSeen[i]) then ok s
  else
    match s.tableBad with
    | some k => ok ((s.hwFld (F.BAT_CTL.en i) 0).batFault i 0x07 0 k)
    | none =>
      let s1 := s.modStr i (fun x => { Str.reset with lrn := x.lrn, rej := x.rej })
      ok { s1 with bat := { s1.bat with enSeen := modAt s1.bat.enSeen i (fun _ => true) } }

/-- BAT_DISABLE (R150): en has gone to 0; a present string's record is written. -/
def execBatDisable (i : Fin 8) (s : State) : Host.Outcome State Fault Refusal :=
  if !(s.runs .bat && !s.bit (F.BAT_CTL.en i) && s.bat.enSeen[i]) then ok s
  else
    let s1 := if s.bat.str[i].present then s.remove i else s
    let s2 := (s1.modStr i (fun x => { Str.reset with lrn := x.lrn, rej := x.rej })).batDeliver i
    ok { s2 with bat := { s2.bat with enSeen := modAt s2.bat.enSeen i (fun _ => false) } }

/-- BAT_FORGET (R161): the template replaces the record of the present code, and is written. -/
def execBatForget (i : Fin 8) (s : State) : Host.Outcome State Fault Refusal :=
  let x := s.bat.str[i]
  if !(s.batWorks && s.bat.enSeen[i] && x.present) then ok s
  else
    let s1 := (s.takeTemplate i).modStr i (fun x => { x with valid := false, limDis := 0, limChg := 0, nS := 0, sV := 0, sI := 0, sT := 0, nT := 0 })
    ok ((s1.batDeliver i).idWrite i)

/-- BAT_TRANSPORT_PREP (R174): every limit is 0; the wait begins. -/
def execBatTransportPrep (s : State) : Host.Outcome State Fault Refusal :=
  if !(s.runs .bat && s.sys.transportStep = 2) then ok s
  else
    let s1 := { s with bat := { s.bat with txAt := some s.time }, sys := { s.sys with transportStep := 3 } }
    ok (foldFin 8 s1 (fun s i => (s.modStr i (fun x => { x with txport := true, limDis := 0, limChg := 0 })).batDeliver i))

/-- BAT_TRANSPORT_RELEASE (R174, R159, 14_start R293): currents at rest or 100 ms gone: contactors are released, records and
the fast-changing values saved. -/
def execBatTransportRelease (s : State) : Host.Outcome State Fault Refusal :=
  let quiet := allFin 8 (fun i => !s.bat.str[i].present || decide (s.bat.str[i].ib.natAbs ≤ s.fld (F.BAT_IDCHK.irest i)))
  ok (s.whenDue (s.runs .bat && s.sys.transportStep = 3) (if quiet then some s.time else s.bat.txAt.map (fun t => t + 100 * ms1)) 0 (fun s =>
    let s1 := { s with sys := { s.sys with transportStep := 4 }, bat := { s.bat with txAt := none } }
    let s2 := foldFin 8 s1 (fun s i => (if s.bat.str[i].present then s.idWrite i else s).contactorUpdate i)
    s2.saveRequest 4))

end Sys2Proof.Machine
end

