-- ==== Sys2Proof/Machine/Reset.lean ====
section
/-! DEFINITION. The two kinds of reset (14_start R278, Table SYS.1, Table SYS.2): what each keeps, and the happenings that a
reset brings about in other blocks (17_field_update R354, 16_black_box R323, 15_parameter_store R314). -/

namespace Sys2Proof.Machine

/-- SNS_TIME held at the entry to a warm reset, where it runs (02_sense R26). -/
def State.holdTime (s : State) : State :=
  if s.sns.running then { s with aon := { s.aon with heldTime := s.sns64, heldAt := some s.time } } else s

/-- Words of the running commit already in the store when a reset stops it: how many is not stated, a free number of the
first ones (log 5). -/
def State.commitCut (s : State) : State :=
  match s.nvp.commit with
  | none => s
  | some _ =>
    if s.nvp.stopped then s
    else
      let n := s.free.toNat % (s.nvp.buf.length + 1)
      let st := (s.nvp.buf.take n).foldl (fun m p => cellPut ⟨0, 0⟩ m p.1 ⟨p.2, 0⟩) s.nvp.store
      { s.drawn with nvp := { s.nvp with store := st } }

/-- The drop counters after events on their way to REC are lost (R323, R13): one for each. -/
def State.dropLost (s : State) (lost : List Ev) : Vector Nat 10 :=
  lost.foldl (fun v e => modAt v (islandIndex (srcIsland e.src)) (fun n => min max32 (n + 1))) s.chans.drop

/-- Events in flight that a warm reset loses: those of every island but AON. -/
def State.flightLost (s : State) : List Ev := s.chans.flight.filter (fun e => srcIsland e.src != Island.aon)

/-- CHAN_DROP of the channels whose drop counter has left 0 since d (R13). -/
def State.dropEvents (s : State) (d : Vector Nat 10) : State :=
  (List.finRange 10).foldl (fun s k =>
    if d[k] = 0 ∧ s.chans.drop[k] ≠ 0 then s.fire 0x05 0x01 0 (Config.chanNumber k.val).toNat else s) s

/-- What AON holds after a warm reset (Table SYS.2, R258, R389): the fuse-free rest of its logic starts anew. A DEMOTE_N that is
still low is accepted anew (10_redundancy R214). -/
def Aon.warm (a : Aon) : Aon :=
  { a with demoted := false, pinLow := false, bcnLow := false, liveAt := 0, fwDead := false, demoteReq := false, strobe := Vector.replicate 3 0,
           strobeLost := Vector.replicate 3 false, hb := 0, hbLvl := false, bcnSafe := none, takeCnt := .zero, demCnt := .zero,
           bcnCmd := 0, bcnStat := 0 }

/-- What AON holds after a cold reset with VAON good (Table SYS.2). Until the latch, the comparison uses the thresholds of the failure
values (13_fuse R269: 90 °C and 65 °C under the failure trims). -/
def Aon.coldReset (a : Aon) : Aon :=
  { a.warm with epoch := 0, peerEpoch := none, heldAt := none, heldTime := 0, sdCount := 0, sdSensor := 0, sdCnt := .zero,
                sd := false, coolSince := none, sdReport := false, tripSd := 0, tripSeq := 0, tripEvt := 0, tripNow := (0, 0), bcnFault := 0,
                bcnAttn := false, bcnEv := [], transport := false, gateHot := Vector.replicate 32 0,
                gateSame := Vector.replicate 32 0, nSd := Vector.replicate 32 92979, nRs := Vector.replicate 32 95027 }

/-- An address of the registers that REC serves: NVP and BBX (01_shelf Table SHF.6). -/
def recOff (off : Nat) : Bool := (decide (0x3000 ≤ off) && decide (off < 0x4000)) || (decide (0x1D000 ≤ off) && decide (off < 0x1E000))

/-- The registers after a warm reset: the RWS word THM_SDMAP alone is kept (Table SYS.2), and those of REC while it still runs. -/
def Regs.warm (r : Regs) (recRuns : Bool) : Regs :=
  { Regs.reset with
    act := r.act.filter (fun p => p.1 == F.THM_SDMAP.map.off || (recRuns && recOff p.1))
    sticky := r.sticky.filter (fun p => recRuns && recOff p.1) }

/-- The fuse array through a warm reset: array and live values are kept (R279), a running command is cut (R276). -/
def Otp.warm (o : Otp) (cut : Bool) : Otp :=
  { o with cmd := none, arm := false, rereadDue := false, result := if cut then 5 else 0, why := if cut then 6 else 0, rdata := 0,
           mask := 0, pulses := .zero, margAddr := 0, margBits := 0 }

/-- Pulses counted in OTP_PULSES (13_fuse Table OTP.6). -/
def State.countPulses (s : State) (n : Nat) : State :=
  let c := s.otp.pulses
  let c' : Ctr := if c.sat ∨ 0xFFFFFF ≤ c.count + n then ⟨0xFFFFFF, true⟩ else ⟨c.count + n, false⟩
  { s with otp := { s.otp with pulses := c' } }.satEv c c' 0x11 0x203C

/-- The most pulses that programming bits of a word takes: 8 for each that does not yet verify in both copies (13_fuse R275; log 78). -/
def Otp.mostPulses (o : Otp) (w : Nat) (req : Word) : Nat := 8 * ones (req &&& ~~~(cellGet 0 o.aM w &&& cellGet 0 o.bM w))

/-- A fuse command is cut (R276): each bit it was programming reads 0 or 1, possibly marginal: free values, as is the number of
pulses given so far. -/
def State.otpCut (s0 : State) : State :=
  match s0.otp.cmd with
  | none => s0
  | some c =>
    let s := s0.drawn.countPulses (s0.free.toNat % (s0.otp.mostPulses c.word c.bits + 1))
    let a := s.free.setWidth 32 &&& c.bits
    let b := (s.free >>> 32).setWidth 32 &&& c.bits
    let am := s.drawn.free.setWidth 32 &&& a
    let bm := (s.drawn.free >>> 32).setWidth 32 &&& b
    let put (m : Cells Word) (x : Word) : Cells Word := cellPut 0 m c.word (cellGet 0 m c.word ||| x)
    { s.drawn.drawn with otp := { s.otp with
        aN := put s.otp.aN a, aM := put s.otp.aM am, bN := put s.otp.bN b, bM := put s.otp.bM bm, cmd := none, arm := false,
        result := 5, why := 6 } }

/-- The parameter store through a warm reset: the arrays are kept, the rest returns to reset. -/
def Nvp.warm (n : Nvp) : Nvp :=
  { Nvp.reset with store := n.store, image := n.image, shErr := n.shErr, save := n.save,
                   restoreDue := false, imageDue := false, bbseq := n.bbseq, seqSat := n.seqSat, hourAt := n.hourAt, scrubAt := n.scrubAt }

/-- A ream whose watermark was being computed restarts (Table BBX.6). -/
def Ream.again (m : Ream) : Ream := if m.st = 1 then { m with wmDone := false } else m

/-- The black box through a warm reset (R323): store, pointers, bucket fill. -/
def Bbx.warm (b : Bbx) : Bbx :=
  { Bbx.reset with st := { b.st with reams := b.st.reams.map Ream.again }, seq := b.seq, slot := b.slot, oldest := b.oldest, ahead := b.ahead, rowUs := b.rowUs,
                   tokens := b.tokens, pos := b.pos, rowTime := b.rowTime, holder := b.holder,
                   post := b.post, armed := b.armed, supRun := b.supRun }

/-- Field update at a reset (Table UPD.7): a prepare aborts with reason RESET; a commit or trial is left to the boot ROM. -/
def Upd.afterReset (u : Upd) : Upd :=
  if u.phase = 1 ∨ u.phase = 2 then { Upd.reset with flash := u.flash, result := 3, reason := 0x12, rec1 := u.rec1 }
  else { Upd.reset with flash := u.flash, rec1 := u.rec1 }

/-- Every island but AON back at reset; AON, the arrays and what Table SYS.2 keeps are handed in. -/
def State.islandsReset (s : State) : State :=
  { s with
    tick := 0, tickAt := none, sns := Sns.reset, law := Law.reset, pwm := Pwm.reset, hbx := Hbx.reset, dkl := Dkl.reset,
    vat := Vat.reset, bat := Bat.reset, slt := Vector.replicate 32 Slt.reset, red := Red.reset, arb := Arb.reset,
    seq := Seq.reset, thm := Thm.reset, evt := { Evt.reset with }, twp := Vector.replicate 4 TwPort.reset,
    hst := { Hst.reset with posted := s.hst.posted }, upd := s.upd.afterReset }

/-- The system block after a reset: cause, kind; the watchdog run and SYS_WARMCNT; SYS_LOCK on a warm reset (R6); the sampled straps
hold until the next core release (R280). -/
def Sys.afterReset (y : Sys) (cold : Bool) (cause : Nat) : Sys :=
  { Sys.reset with
    inReset := true, cold := cold, rstCause := cause, lock := if cold then false else y.lock,
    strapSolo := y.strapSolo, strapUnit := y.strapUnit,
    wdtRun := if cold then 0 else if cause = 8 then y.wdtRun + 1 else 0,
    warmCnt := if cold then .zero else y.warmCnt.inc }

/-- The update block reports a prepare that the reset aborted (Table UPD.7). -/
def State.reportAbort (s : State) (u : Upd) : State :=
  if u.phase = 1 ∨ u.phase = 2 then s.fire 0xE1 0x02 0x12 u.failing else s

/-- REC is busy with a save, which completes before REC enters reset (12_thermal R261, 15_parameter_store R306, R314). -/
def State.recBusy (s : State) : Bool := s.nvp.save.isSome

/-- REC enters reset, warm or cold (Table SYS.2, 16_black_box R323, 15_parameter_store R311, R313). -/
def State.recReset (s0 : State) (cold : Bool) : State :=
  let s := s0.commitCut
  let drop := s.dropLost s.bbx.queue
  let warm := s.nvp.warm
  { s with
    chans := if cold then s.chans else { s.chans with drop := drop }
    nvp := if cold then
        { warm with restoreDue := true, imageDue := true, hourAt := 0, scrubAt := 0, bbseq := 0 }
      else warm
    bbx := if cold then { Bbx.reset with refillAt := s.time } else { s.bbx.warm with refillAt := s.time }
    regs := { s.regs with
      act := s.regs.act.filter (fun p => !recOff p.1), sticky := s.regs.sticky.filter (fun p => !recOff p.1) } }

/-- REC enters reset at once, or once the save that runs has ended. -/
def State.recResetOrWait (s : State) (cold : Bool) : State :=
  if s.recBusy then { s with nvp := { s.nvp with recDue := some (cold || s.nvp.recDue == some true) } } else s.recReset cold

/-- A warm reset with its cause (Table SYS.1, Table SYS.2). -/
def State.warmReset (s : State) (cause : Nat) : State :=
  let s0 := s.holdTime.otpCut.claimDrop
  let s1 := { s0.islandsReset with
      chans := { s0.chans with flight := s0.chans.flight.filter (fun e => srcIsland e.src == Island.aon), drop := s0.dropLost s0.flightLost }
      regs := s0.regs.warm s0.recBusy, aon := s0.aon.warm, otp := s0.otp.warm s.otp.cmd.isSome
      sys := s0.sys.afterReset false cause }
  let s2 := ((s1.recResetOrWait false).dropEvents s0.chans.drop).satEv s0.sys.warmCnt s1.sys.warmCnt 0x00 0x028
  s2.reportAbort s0.upd

/-- A cold reset with its cause while VAON stays good (Table SYS.1, Table SYS.2). -/
def State.coldReset (s : State) (cause : Nat) : State :=
  let s0 := s.otpCut.claimDrop
  let s1 := { s0.islandsReset with
      chans := { s0.chans with flight := [], drop := Vector.replicate 10 0 }
      regs := { Regs.reset with
        act := s0.regs.act.filter (fun p => s0.recBusy && recOff p.1), sticky := s0.regs.sticky.filter (fun p => s0.recBusy && recOff p.1) }
      aon := s0.aon.coldReset, otp := { s0.otp.warm false with latched := false, g5Done := false, live := Live.failure }
      sys := s0.sys.afterReset true cause }
  (s1.recResetOrWait true).reportAbort s0.upd

end Sys2Proof.Machine
end

