-- ==== Sys2Proof/Machine/Thermal.lean ====
section
/-! DEFINITION. The thermal watch (12_thermal R250–R256) and the hardware shutdown (R257–R261). -/

namespace Sys2Proof.Machine

/-- A sensor replaced by its image. -/
def State.modSensor (s : State) (k : Fin 48) (f : Sensor → Sensor) : State := { s with thm := { s.thm with s := modAt s.thm.s k f } }

/-- AON fields replaced. -/
def State.modAon (s : State) (f : Aon → Aon) : State := { s with aon := f s.aon }

/-- The watch works: SUP runs and THM_CTL.en is set. -/
def State.watches (s : State) : Bool := s.runs .sup && s.bit F.THM_CTL.en

/-- Temperature of a count under trims n25 and d = n25 − n125 (R250). -/
def dieTemp (n25 d n : Nat) : Int := 400 + rdiv (1600 * ((n : Int) - n25)) (-(d : Int))

/-- The range condition of Table THM.1. -/
def outOfRange (t : Int) : Bool := decide (t < -960) || decide (2800 < t)

/-! ### The 1 ms step -/

/-- The reading of an on-die sensor: temperature, raw count, its repetitions, and the broken condition that holds (R250,
Table THM.1). -/
def State.dieRead (s : State) (k : Fin 32) (n : Nat) : Sensor → Sensor × Nat := fun x =>
  let tr := s.otp.live.tsTrim[k]
  let t := dieTemp tr.1 tr.2 n
  let same := if x.same ≠ 0 ∧ x.raw = n then x.same + 1 else 1
  ({ x with t := satN 16 t, raw := n, same := same }, if 64 ≤ same then 1 else if outOfRange t then 2 else 0)

/-- The reading of a remote input (R251, Table THM.1). -/
def State.remoteRead (s : State) (k : Fin 48) : Sensor → Sensor × Nat := fun x =>
  if s.fld (F.THM_S_CFG.src k) = 0 then
    match x.dio with
    | none => (x, 0)
    | some .openPair => (x, 3)
    | some .shortPair => (x, 4)
    | some (.reading t code) => ({ x with t := satN 16 t, raw := code }, if outOfRange t then 2 else 0)
  else
    let l := s.slt[(⟨s.fld (F.THM_S_CFG.slot k) % 32, by omega⟩ : Fin 32)]
    let t := sgn 16 l.t.toNat
    if l.lstate ≠ 2 ∨ l.t = 0x8000 then (x, 5) else ({ x with t := t }, if outOfRange t then 2 else 0)

/-- The Tu of a sensor that has changed between measured and substituted: its means start anew (R256). -/
def Sensor.fresh (x : Sensor) : Sensor := { x with sum := 0, num := 0, means := [] }

/-- SENSOR_BROKEN (R252): a condition begins or ends. -/
def State.sensorState (s : State) (k : Fin 48) (code : Nat) : State :=
  let x := s.thm.s[k]
  if code ≠ 0 then
    let s1 := s.modSensor k (fun x => { (if x.broken then x else x.fresh) with broken := true, bcause := code, clean := 0, restDue := false })
    if x.broken ∨ !s.bit (F.THM_S_CFG.en k) then s1 else (s1.stick (F.THM_S_STAT.brk_seen k)).fire 0xA3 0x01 k.val code
  else if x.broken then s.modSensor k (fun x => { x with clean := min 16 (x.clean + 1), restDue := decide (16 ≤ x.clean + 1) })
  else s

/-- The neighbours of an on-die sensor (R253). -/
def neighbours (k : Nat) : List Nat :=
  let r := k / 8
  let c := k % 8
  [8 * r + (if c = 0 then 2 else c - 1), 8 * r + (if c = 7 then 5 else c + 1), 8 * (if r % 2 = 0 then r + 1 else r - 1) + c]

/-- The median of the valid neighbours, the higher of two, the one; none where there is none (R253). -/
def crossTu : List Int → Option Int
  | [a, b, c] => some (max (min a b) (min (max a b) c))
  | [a, b] => some (max a b)
  | [a] => some a
  | _ => none

/-- Is a sensor treated as hot while it is broken (R253)? -/
def State.hotMode (s : State) (k : Fin 48) : Bool := decide (32 ≤ k.val) || s.otp.live.thmHot || s.bit (F.THM_S_CFG.hot k)

/-- Tu of a sensor (R253). -/
def State.tuOf (s : State) (k : Fin 48) : Int :=
  let x := s.thm.s[k]
  let trip := s.sfld (F.THM_S_LVL.trip k)
  if !x.broken then x.t
  else if s.hotMode k then trip
  else
    let near := (neighbours k.val).filterMap (fun n =>
      if h : n < 48 then (let y := s.thm.s[(⟨n, h⟩ : Fin 48)]; if y.broken then none else some y.t) else none)
    (crossTu near).getD trip

/-- The rail of a sensor's actions (R254). -/
def State.thmRail (s : State) (k : Fin 48) : Option (Fin 8) :=
  if s.bit (F.THM_S_CFG.rail_en k) then some ⟨s.fld (F.THM_S_CFG.rail k) % 8, by omega⟩ else none

/-- An action class of a sensor is passed on; off a rail it acts as engine 16's (R254, log 60). -/
def State.thmAct (s : State) (k : Fin 48) (act : Nat) : State := if s.works then s.action act (s.thmRail k) 16 k.val else s

/-- THM_WARN and THM_TRIP (R254). -/
def State.levels (s : State) (k : Fin 48) : State :=
  let x := s.thm.s[k]
  let warn := s.sfld (F.THM_S_LVL.warn k)
  let trip := s.sfld (F.THM_S_LVL.trip k)
  let h : Int := s.fld (F.THM_S_CFG.hys k)
  let w := if x.warn then decide (warn - h ≤ x.tu) else decide (warn ≤ x.tu)
  let p := if x.trip then decide (trip - h ≤ x.tu) else decide (trip ≤ x.tu)
  let s1 := s.modSensor k (fun x => { x with warn := w, trip := p })
  let s2 := if w && !x.warn then (s1.stick (F.THM_S_STAT.warn_seen k)).fire 0xA0 0x01 k.val x.tu
    else if !w && x.warn then s1.fire 0xA0 0x02 k.val x.tu else s1
  if p && !x.trip then
    let act := s.fld (F.THM_S_CFG.trip_act k)
    ((s2.stick (F.THM_S_STAT.trip_seen k)).fireCls 0xA1 0x01 k.val x.tu act).thmAct k act
  else s2

/-- One sensor's reading taken: an on-die sensor's count, a remote input's latest value. -/
def State.readSensor (counts : Vector Nat 32) (s : State) (k : Fin 48) : State :=
  let r := if h : k.val < 32 then s.dieRead ⟨k.val, h⟩ counts[k.val] s.thm.s[k] else s.remoteRead k s.thm.s[k]
  (s.modSensor k (fun _ => r.1)).sensorState k r.2

/-- One sensor after all readings: its Tu, and its levels where it is watched. -/
def State.evalSensor (s : State) (k : Fin 48) : State :=
  let tu := s.tuOf k
  let s1 := s.modSensor k (fun x => { x with tu := tu, subst := x.broken, sum := x.sum + tu, num := x.num + 1 })
  if s.bit (F.THM_S_CFG.en k) then s1.levels k else s1

/-- THM_STEP (R250–R254): every 1 ms; in ARBITER on-die sensors only (01_shelf Table SHF.3). -/
def execThmStep (counts : Vector Nat 32) (s : State) : Host.Outcome State Fault Refusal :=
  let ks := finsWhere 48 (fun k => decide (k.val < 32) || s.sys.role != .arbiter)
  ok (s.when s.watches (ks.foldl State.evalSensor (ks.foldl (State.readSensor counts) s)))

/-- SENSOR_RESTORED (R252): 16 steps without a condition. -/
def execSensorRestored (k : Fin 48) (s : State) : Host.Outcome State Fault Refusal :=
  let x := s.thm.s[k]
  let s1 := s.modSensor k (fun x => { x.fresh with broken := false, clean := 0, restDue := false, subst := false, tu := x.t })
  ok (s.when (s.watches && x.broken && x.restDue) (if s.bit (F.THM_S_CFG.en k) then s1.fire 0xA3 0x02 k.val x.bcause else s1))

/-- A diode's temperature, in 1/16 °C, under the ideality setting nf: the ΔVbe of a conversion, given as the temperature of a diode of
ideality 1, is proportional to the absolute temperature times 0.96 + 0.0005 · nf (R251; log 77). 0 °C is 273.15 K. -/
def idealityT (t : Int) (nf : Nat) : Int :=
  rdiv ((10 * t + 43704) * 2000 - 43704 * (1920 + nf : Nat)) (10 * (1920 + nf : Nat))

/-- A diode's conversion under its ideality setting. -/
def diodeTaken (d : Diode) (nf : Nat) : Diode :=
  match d with
  | .reading t code => .reading (idealityT t nf) code
  | _ => d

/-- DIODE_CONVERSION (R251): a conversion of remote input q completes. -/
def execDiodeConversion (q : Fin 16) (d : Diode) (s : State) : Host.Outcome State Fault Refusal :=
  let k : Fin 48 := ⟨32 + q.val, by omega⟩
  ok (s.when (s.watches && s.sys.role != .arbiter && s.fld (F.THM_S_CFG.src k) = 0) (s.modSensor k (fun x => { x with dio := some (diodeTaken d (s.fld (F.THM_S_DIO.nf k))) })))

/-- The rate-of-rise test of one sensor at a whole second (R256). -/
def State.rocStep (s : State) (k : Fin 48) : State :=
  let x := s.thm.s[k]
  if x.num = 0 then s
  else
    let m := rdiv x.sum x.num
    let ms := m :: x.means.take 60
    let w := s.fld (F.THM_S_ROC.win k)
    let lim := s.fld (F.THM_S_ROC.roc_lim k)
    let s1 := s.modSensor k (fun x => { x with sum := 0, num := 0, means := ms })
    match ms[w]? with
    | none => s1.modSensor k (fun x => { x with rocHi := false })
    | some old =>
      let rise := m - old
      let hi := lim ≠ 0 && decide ((lim * w : Int) < rise)
      let s2 := s1.modSensor k (fun x => { x with rise := satN 16 rise, rocHi := hi })
      if hi && !x.rocHi && s.bit (F.THM_S_CFG.en k) then
        let act := s.fld (F.THM_S_CFG.roc_act k)
        ((s2.stick (F.THM_S_STAT.roc_seen k)).fireCls 0xA2 0x01 k.val rise act).thmAct k act
      else s2

/-- THM_SECOND (R256). -/
def execThmSecond (s : State) : Host.Outcome State Fault Refusal := ok (s.when s.watches (foldFin 48 s State.rocStep))

/-! ### The hardware shutdown (R257–R261) -/

/-- A count threshold n_x (R257). -/
def nThreshold (n25 d : Nat) (t : Int) : Int := n25 + rdiv ((t - 400) * (-(d : Int))) 1600

/-- Is a sensor excluded from the comparison: range or stuck condition of its AON count (R257)? -/
def State.gateExcluded (s : State) (k : Fin 32) (n : Nat) : Bool :=
  let tr := s.otp.live.tsTrim[k]
  outOfRange (dieTemp tr.1 tr.2 n) || decide (64 ≤ s.aon.gateSame[k])

/-- AON_THERMAL_GATE (R257, R258, R260): one gate of every sensor; it does not run while only AON is powered (R261). -/
def execAonThermalGate (counts : Vector Nat 32) (s : State) : Host.Outcome State Fault Refusal :=
  if !(s.aon.vaon && !s.aon.transport) then ok s
  else
    let s0 := s.modAon (fun a => { a with
      gate := counts
      gateSame := Vector.ofFn (fun k => if a.gateSame[k] ≠ 0 ∧ a.gate[k] = counts[k] then a.gateSame[k] + 1 else 1) })
    let inc (k : Fin 32) : Bool := !s0.gateExcluded k counts[k]
    let few := (finsWhere 32 inc).length < 16
    let hot (k : Fin 32) : Bool := few || (if inc k then decide ((counts[k] : Int) ≤ s.aon.nSd[k]) else s.otp.live.thmHot)
    let cool (k : Fin 32) : Bool := !few && (if inc k then decide (s.aon.nRs[k] < (counts[k] : Int)) else !s.otp.live.thmHot)
    let allCool := allFin 32 cool
    ok (s0.modAon (fun a => { a with
      gateHot := Vector.ofFn (fun k => if hot k then a.gateHot[k] + 1 else 0)
      coolSince := if a.sd && allCool then (match a.coolSince with | some t => some t | none => some s.time) else none }))

/-- THERMAL_SHUTDOWN (R258, R259): two consecutive gates at or above T_SD; a fuse command is cut (13_fuse R276), a
TRANSPORT entry ends (14_start R293). -/
def execThermalShutdown (s : State) : Host.Outcome State Fault Refusal :=
  match finsWhere 32 (fun k => decide (2 ≤ s.aon.gateHot[k])) with
  | [] => ok s
  | k :: _ =>
    if !(s.aon.vaon && !s.aon.transport && !s.aon.sd) then ok s
    else
      let c := s.aon.sdCnt.inc
      let s1 := s.modAon (fun a => { a with
        sd := true, sdAt := s.time, coolSince := none, sdCount := a.gate[k] % 2 ^ 18, sdSensor := k.val, sdCnt := c, hb := 0, hbAt := s.time, hbLvl := false,
        tripSd := BitVec.ofNat 8 (s.fld F.THM_SDMAP.map), sdReport := true })
      let s2 := { s1 with
        sys := { s1.sys with
          role := if s.drives then .standby else s.sys.role
          transportStep := 0, pend := if s.sys.transportStep = 0 then s.sys.pend else none }
        red := { s1.red with ready := false } }
      ok (s2.claimDrop.otpCut.satEv s.aon.sdCnt c 0xA4 0x1C014)

/-- THERMAL_RESET_HOLD (R258): 1 µs after the shutdown every island but AON is held in warm reset. -/
def execThermalResetHold (s : State) : Host.Outcome State Fault Refusal :=
  ok (s.whenAt (s.aon.vaon && s.aon.sd && !s.sys.inReset) (s.aon.sdAt + us1) (fun s => s.warmReset 12))

/-- THERMAL_RESTART_RELEASE (R260): 5 s of gates below T_RESTART; start-up goes on from core release. -/
def execThermalRestartRelease (s : State) : Host.Outcome State Fault Refusal :=
  ok (s.whenDue (s.aon.vaon && s.aon.sd && s.sys.inReset) s.aon.coolSince (5 * sec1) (fun s =>
    s.modAon (fun a => { a with sd := false, coolSince := none, gateHot := Vector.replicate 32 0 })))

end Sys2Proof.Machine
end

