-- ==== Sys2Proof/Machine/Fuse.lean ====
section
/-! DEFINITION. The fuse array (13_fuse_array): reading and checking of groups, the start-up latch, programming, the daily
re-read, and the advance of an anti-rollback thermometer. -/

namespace Sys2Proof.Machine

/-- Fuse fields replaced. -/
def State.modOtp (s : State) (f : Otp → Otp) : State := { s with otp := f s.otp }

/-! ### Reading (R263–R265) -/

/-- A word at normal read: the OR of the two copies (R263). -/
def Otp.rdN (o : Otp) (w : Nat) : Word := cellGet 0 o.aN w ||| cellGet 0 o.bN w
/-- A word at margin read (R269). -/
def Otp.rdM (o : Otp) (w : Nat) : Word := cellGet 0 o.aM w ||| cellGet 0 o.bM w

/-- First and last word of a group (Table OTP.1). -/
def grpRange (g : Nat) : Nat × Nat :=
  match g with
  | 0 => (0x00, 0x71) | 1 => (0x72, 0x79) | 2 => (0x7A, 0x7D) | 3 => (0x7E, 0x8F) | 4 => (0x90, 0x97) | 5 => (0x98, 0xD7)
  | _ => (0xD8, 0xD8)

/-- The group of a word; none for a reserved one (Table OTP.1). -/
def grpOf (w : Nat) : Option Nat :=
  if w ≤ 0x71 then some 0 else if w ≤ 0x79 then some 1 else if w ≤ 0x7D then some 2 else if w ≤ 0x8F then some 3
  else if w ≤ 0x97 then some 4 else if w ≤ 0xD7 then some 5 else if w = 0xD8 then some 6 else none

/-- The words of a group but its last. -/
def grpBody (g : Nat) : List Nat := let r := grpRange g; (List.range (r.2 - r.1)).map (r.1 + ·)

/-- The CRC word that a group's words call for (R265). -/
def crcWord (rd : Nat → Word) (g : Nat) : Word :=
  let c := crc16 ((grpBody g).flatMap (fun w => beBytes 4 (rd w).toNat))
  BitVec.ofNat 32 ((0xFFFF ^^^ c) * 65536 + c)

/-- Does a group's CRC word equal it? -/
def crcPass (rd : Nat → Word) (g : Nat) : Bool := rd (grpRange g).2 = crcWord rd g

/-- Lock bit of a group: normal or margin read, the more restrictive (R271). -/
def Otp.lockBit (o : Otp) (g : Nat) : Bool := (o.rdN 0xD8 ||| o.rdM 0xD8).getLsbD g

/-- Is a group blank (R265)? -/
def Otp.blankGrp (o : Otp) (g : Nat) : Bool :=
  let r := grpRange g
  (grpBody g).all (fun w => o.rdN w = 0) && o.rdN r.2 = 0 && !o.lockBit g

/-- Does a group pass (R265)? A blank G0 fails. -/
def Otp.pass (o : Otp) (g : Nat) : Bool := (g ≠ 0 && o.blankGrp g) || crcPass o.rdN g

/-- Value v of a thermometer from its four words (R267). -/
def thermoV (ws : List Word) : Nat :=
  (List.range 128).foldl (fun v k => if (ws.getD (k / 32) 0).getLsbD (k % 32) then k + 1 else v) 0

/-- The words of thermometer t. -/
def thermoWords (rd : Nat → Word) (t : Nat) : List Word := (List.range 4).map (fun k => rd (0x90 + 4 * t + k))

/-- Does a thermometer have a hole (R267)? -/
def thermoHole (ws : List Word) : Bool :=
  (List.range (thermoV ws)).any (fun k => !(ws.getD (k / 32) 0).getLsbD (k % 32))

/-- The words that hold critical fields, in the order the latch reads them, with the fields' bits (R269, R271). -/
def criticalWords : List (Nat × Nat) :=
  [(0xD8, 0x8000002F), (0x72, 0xFF), (0x73, 0x13F3F), (0x74, 0x3F), (0x7A, 0x37), (0x7B, 0xFFFF), (0x86, 1)] ++
    (List.range 8).map (fun k => (0x90 + k, 0xFFFFFFFF))

/-- The bits in which a critical word's fields differ between the two reads, in a group that passed (R271). -/
def Otp.marginal (o : Otp) (w m : Nat) : Word :=
  let g := (grpOf w).getD 0
  if g ≤ 3 ∧ !o.pass g then 0 else (o.rdN w ^^^ o.rdM w) &&& BitVec.ofNat 32 m

/-! ### Live values (R266, R269–R272, Table OTP.2) -/

/-- A field of a word at both reads. -/
def Otp.both (o : Otp) (w hi lo : Nat) : Nat × Nat := (bits (o.rdN w).toNat hi lo, bits (o.rdM w).toNat hi lo)

/-- The higher of the two readings of a field, or its failure value. -/
def Otp.worst (o : Otp) (g w hi lo fail : Nat) : Nat := if o.pass g then max (o.both w hi lo).1 (o.both w hi lo).2 else fail

/-- The eight words of a 256-bit field, the lowest word lowest. -/
def words256 (rd : Nat → Word) (w : Nat) : BitVec 256 :=
  BitVec.ofNat 256 ((List.range 8).foldl (fun v k => v + (rd (w + k)).toNat * 2 ^ (32 * k)) 0)

/-- Usability of the update key: 0 default, 1 programmed, 2 unusable (R266, R271). -/
def Otp.keyState (o : Otp) (failed : Bool) : Nat :=
  if failed ∨ words256 o.rdN 0x7E ≠ words256 o.rdM 0x7E then 2 else if words256 o.rdN 0x7E = 0 then 0 else 1

/-- The live values that a latch of this array drives (Table OTP.2). -/
def Otp.latchLive (o : Otp) : Live :=
  let g0 := o.pass 0
  let low : Int := if g0 then 0 else 240
  let tSd : Int := 16 * (140 - min (o.worst 1 0x73 5 0 35) 35)
  let tRs : Int := min (16 * (115 - min (o.worst 1 0x73 13 8 35) 35)) (tSd - 160)
  let uf := o.both 0x7A 5 4
  let pid := o.both 0x7B 15 0
  let ts (k : Nat) : Nat × Nat := (bits (o.rdN (0x51 + k)).toNat 31 15, bits (o.rdN (0x51 + k)).toNat 14 0)
  let bad (k : Nat) : Bool := !g0 || (ts k).2 = 0
  let th (t : Nat) : Nat := max (thermoV (thermoWords o.rdN t)) (thermoV (thermoWords o.rdM t))
  { ceilPos := 1023 - 64 * o.worst 1 0x72 3 0 15, ceilNeg := 1023 - 64 * o.worst 1 0x72 7 4 15
    tSd := tSd - low, tRs := tRs - low, thmHot := o.worst 1 0x73 16 16 1 = 1, dtFloor := o.worst 1 0x74 5 0 63
    denyActive := o.worst 2 0x7A 0 0 1 = 1, denySolo := o.worst 2 0x7A 1 1 1 = 1, denyArb := o.worst 2 0x7A 2 2 1 = 1
    unitFix := if o.pass 2 ∧ uf.1 = uf.2 then uf.1 else 3
    pairId := BitVec.ofNat 16 pid.1, noPeer := !o.pass 2 || pid.1 ≠ pid.2
    key := o.keyState (!o.pass 3), keyHash := words256 o.rdN 0x7E
    auth := if !o.pass 3 then 2 else if words256 o.rdN 0x87 = 0 then 0 else 1, authKey := words256 o.rdN 0x87
    dbgLock := o.worst 3 0x86 0 0 1 = 1
    v0 := th 0, v1 := th 1
    dieId := BitVec.ofNat 128 ((List.range 4).foldl (fun v k => v + (o.rdN k).toNat * 2 ^ (32 * k)) 0)
    chTrim := Vector.ofFn (fun (k : Fin 65) => if g0 then o.rdN (0x10 + k.val) else 0)
    tsTrim := Vector.ofFn (fun (k : Fin 32) => if bad k.val then (98304, 8192) else ts k.val)
    tsFail := Vector.ofFn (fun (k : Fin 32) => bad k.val)
    anaTrim := if g0 then some (Vector.ofFn (fun (k : Fin 12) => o.rdN (0x04 + k.val))) else none }

/-- OTP_CRC_FAIL and OTP_LOCK_INCOMPLETE of a group (R270, R272). -/
def State.grpCheck (s : State) (g : Nat) : State :=
  if s.otp.pass g then s
  else
    let w := (s.otp.rdN (grpRange g).2).toNat
    let s1 := (s.stick F.OTP_FLAG.crc).fire 0x10 0x01 g w
    if s.otp.lockBit g then (s1.modOtp (fun o => { o with lockInc := true })).fire 0x10 0x03 g w else s1

/-- OTP_MARGINAL of a critical word (R271): the first is recorded. -/
def State.margCheck (s : State) (w m : Nat) : State :=
  let b := s.otp.marginal w m
  if b = 0 then s
  else
    let s1 := if s.otp.margBits = 0 then s.modOtp (fun o => { o with margAddr := w, margBits := b }) else s
    (s1.stick F.OTP_FLAG.marg).fire 0x10 0x02 w b.toNat

/-- THERMO_HOLE (R267). -/
def State.holeCheck (s : State) (t : Nat) : State :=
  let ws := thermoWords s.otp.rdN t
  if thermoHole ws then (s.stick F.OTP_FLAG.hole).fire 0x10 0x04 t (thermoV ws) else s

/-- AON derives the two thresholds of each sensor; a sensor without usable trims of its own takes 15 °C less (R257, R266). -/
def State.thresholds (s : State) : State :=
  let l := s.otp.live
  let low (k : Fin 32) : Int := if l.tsFail[k] && s.otp.pass 0 then 240 else 0
  s.modAon (fun a => { a with
    nSd := Vector.ofFn (fun k => nThreshold l.tsTrim[k].1 l.tsTrim[k].2 (l.tSd - low k))
    nRs := Vector.ofFn (fun k => nThreshold l.tsTrim[k].1 l.tsTrim[k].2 (l.tRs - low k)) })

/-- FUSE_LATCH (R269): W fields driven, OTP_STAT set, thresholds derived. -/
def State.fuseLatch (s : State) : State :=
  let o := s.otp
  let hole := thermoHole (thermoWords o.rdN 0) || thermoHole (thermoWords o.rdN 1)
  let set4 (f : Nat → Bool) (b4 : Bool) : BitVec 6 := BitVec.ofNat 6 (bitsOf [f 0, f 1, f 2, f 3, b4, false])
  let live := o.latchLive
  let s1 := s.modOtp (fun o => { o with
    latched := true, g5Done := false, live := live, rawOff := (o.rdN 0xD8 ||| o.rdM 0xD8).getLsbD 31, lockInc := false
    lock := set4 o.lockBit false, fail := set4 (fun g => !o.pass g) hole, blank := set4 o.blankGrp (live.v0 = 0 && live.v1 = 0)
    margAddr := 0, margBits := 0 })
  let s2 := criticalWords.foldl (fun s p => s.margCheck p.1 p.2) s1
  ((([0, 1, 2, 3].foldl State.grpCheck s2).holeCheck 0).holeCheck 1).thresholds

/-- OTP_G5_CHECK (R269, R270, R272): after the W fields are driven. -/
def execOtpG5Check (s : State) : Host.Outcome State Fault Refusal :=
  if !(s.aon.vaon && s.otp.latched && !s.otp.g5Done) then ok s
  else
    let set (b : BitVec 6) (v : Bool) : BitVec 6 := if v then b ||| 0x20#6 else b &&& 0x1F#6
    let s1 := s.modOtp (fun o => { o with
      g5Done := true, lock := set o.lock (o.lockBit 5), fail := set o.fail (!o.pass 5), blank := set o.blank (o.blankGrp 5) })
    ok (s1.grpCheck 5)

/-! ### Programming (R274–R276) -/

/-- OTP_ARM (R274): set only in TEST and MAINTENANCE. -/
def execOtpArm (s : State) : Host.Outcome State Fault Refusal :=
  ok (s.when (s.runs .recI && s.exposed && (s.sys.mode = modeTest || s.sys.mode = modeMaint)) (s.modOtp (fun o => { o with arm := true, armAt := some s.time })))

/-- arm clears, unless it was set at this instant (R274, 00_scope R5). -/
def Otp.disarm (o : Otp) (now : Nat) : Otp := { o with arm := o.arm && o.armAt == some now }

/-- A refusal (R274). -/
def State.otpRefuse (s : State) (why arg : Nat) : State :=
  ((s.modOtp (fun o => { o with result := 4, why := why })).stick F.OTP_FLAG.refused).fire 0x11 0x03 arg why

/-- Temperature or supply outside what programming needs (R274). -/
def State.otpConditions (s : State) : Bool :=
  allFin 32 (fun k => let t := s.thm.s[(⟨k.val, by omega⟩ : Fin 48)].tu; decide (0 ≤ t) && decide (t ≤ 1360)) && !s.aon.pf &&
    s.aon.good[(0 : Fin 5)] && s.aon.good[(2 : Fin 5)]

/-- The reason for which PROG of a word is refused; 0 for none (R274, Table OTP.9). -/
def State.progRefusal (s : State) (w : Nat) : Nat :=
  let target := match grpOf w with
    | some g => (g = 1 || g = 2 || g = 3 || g = 5) && !s.otp.lockBit g
    | none => false
  if s.otp.cmd.isSome then 2 else if !s.otp.arm then 1 else if !target then 3 else if !s.otpConditions then 4 else 0

/-- The reason for which LOCK of a group is refused; 0 for none (R274). -/
def State.lockRefusal (s : State) (g : Nat) : Nat :=
  let o := s.otp
  let target := (g = 1 || g = 2 || g = 3 || g = 5) && !o.lockBit g
  let crc := o.rdN (grpRange g).2 ≠ 0 && crcPass o.rdN g && crcPass o.rdM g
  if o.cmd.isSome then 2 else if !o.arm then 1 else if !target then 3 else if !crc then 5 else if !s.otpConditions then 4 else 0

/-- OTP_PROG (R274, R275): the command starts, or is refused. -/
def execOtpProg (s : State) : Host.Outcome State Fault Refusal :=
  let w := s.fld F.OTP_ADDR.word
  if !(s.runs .recI && s.exposed) then ok s
  else if s.progRefusal w ≠ 0 then ok (s.otpRefuse (s.progRefusal w) w)
  else ok (s.modOtp (fun o => { o with cmd := some ⟨1, w, BitVec.ofNat 32 (s.fld F.OTP_DATA.data), 0⟩, result := 0, why := 0 }))

/-- A write of OTP_CMD whose op is none of the four commands: refused with reason 3, or BUSY (R274, Table OTP.4, Table OTP.9). -/
def State.otpOther (s : State) : State := s.otpRefuse (if s.otp.cmd.isSome then 2 else 3) (s.fld F.OTP_ADDR.word)

/-- OTP_LOCK (R274): the lock bit of the group that the write gives OTP_CMD.grp is to be programmed as PROG does. A write while a
command runs is refused whole. -/
def execOtpLock (grp : BitVec 3) (s : State) : Host.Outcome State Fault Refusal :=
  let g := grp.toNat
  if !(s.runs .recI && s.exposed) then ok s
  else if s.otp.cmd.isSome then ok (s.otpRefuse 2 g)
  else if s.lockRefusal g ≠ 0 then ok ((s.setFld F.OTP_CMD.grp g).otpRefuse (s.lockRefusal g) g)
  else ok ((s.setFld F.OTP_CMD.grp g).modOtp (fun o => { o with cmd := some ⟨2, 0xD8, BitVec.ofNat 32 (2 ^ g), g⟩, result := 0, why := 0 }))

/-- A word as the read commands return it: auth_key and the G3 CRC word read 0 (R274). -/
def readable (w : Nat) (v : Word) : Word := if 0x87 ≤ w ∧ w ≤ 0x8F then 0 else v

/-- OTP_READ_N (R274). -/
def execOtpReadN (s : State) : Host.Outcome State Fault Refusal :=
  let w := s.fld F.OTP_ADDR.word
  ok (s.when (s.runs .recI && s.exposed) ((s.modOtp (fun o => ({ o with rdata := readable w (o.rdN w) }).disarm s.time)).stick F.OTP_FLAG.done))

/-- OTP_READ_M (R274). -/
def execOtpReadM (s : State) : Host.Outcome State Fault Refusal :=
  let w := s.fld F.OTP_ADDR.word
  ok (s.when (s.runs .recI && s.exposed) ((s.modOtp (fun o => ({ o with rdata := readable w (o.rdM w) }).disarm s.time)).stick F.OTP_FLAG.done))

/-- Bits of a word programmed: those verified in a copy read 1 at both reads there; of the others what normal read finds is not
stated: a free value (R275). -/
def State.progBits (s : State) (w : Nat) (req va vb : Word) : State :=
  let put (m : Cells Word) (x : Word) : Cells Word := cellPut 0 m w (cellGet 0 m w ||| x)
  let fa := s.free.setWidth 32 &&& req
  let fb := (s.free >>> 32).setWidth 32 &&& req
  s.drawn.modOtp (fun o => { o with
    aN := put o.aN (va ||| fa), aM := put o.aM va, bN := put o.bN (vb ||| fb), bM := put o.bM vb })

/-- Does a re-read find a group failing, marginal, or different from the live values (R273)? -/
def State.rereadFinds (s : State) (g : Nat) : Bool :=
  let o := s.otp
  let r := grpRange g
  let n := o.latchLive
  let l := o.live
  let differs := match g with
    | 0 => n.dieId != l.dieId || n.anaTrim != l.anaTrim || n.chTrim != l.chTrim || n.tsTrim != l.tsTrim
    | 1 => n.ceilPos != l.ceilPos || n.ceilNeg != l.ceilNeg || n.tSd != l.tSd || n.tRs != l.tRs || n.thmHot != l.thmHot || n.dtFloor != l.dtFloor
    | 2 => n.denyActive != l.denyActive || n.denySolo != l.denySolo || n.denyArb != l.denyArb || n.unitFix != l.unitFix ||
        n.pairId != l.pairId || n.noPeer != l.noPeer
    | 3 => n.keyHash != l.keyHash || n.auth != l.auth || n.authKey != l.authKey || n.dbgLock != l.dbgLock
    | 4 => n.v0 != l.v0 || n.v1 != l.v1
    | 5 => false
    | _ => (List.range 6).any (fun k => k ≠ 4 && o.lockBit k != o.lock.getLsbD k) || (o.rdN 0xD8 ||| o.rdM 0xD8).getLsbD 31 != o.rawOff
  let two := (List.range (r.2 + 1 - r.1)).any (fun k => o.rdN (r.1 + k) != o.rdM (r.1 + k))
  differs || two || (g ≠ 4 && g ≤ 5 && !o.pass g)

/-- The re-read of every group (R273). -/
def State.reread (s : State) : State :=
  (List.range 7).foldl (fun s g => if s.rereadFinds g then (s.stick F.OTP_FLAG.reread).fire 0x10 0x05 g 0 else s)
    (s.modOtp (fun o => { o with rereadAt := s.opTime, rereadDue := false }))

/-- OTP_REREAD (R273): every 24 h of operating time; one that falls due while a command runs waits for its end. -/
def execOtpReread (s : State) : Host.Outcome State Fault Refusal :=
  ok (s.whenOp (s.runs .recI && !s.otp.rereadDue) (s.otp.rereadAt + 24 * opHour) (fun s =>
    if s.otp.cmd.isSome then s.modOtp (fun o => { o with rereadDue := true }) else s.reread))

/-- The result of a command (R275): its bits that verified in each copy. -/
def State.otpResult (s : State) (arg : Nat) (req va vb : Word) : State :=
  if va &&& vb = req then s.modOtp (fun o => { o with result := 1, mask := 0 })
  else if va ||| vb = req then
    let m := req &&& ~~~(va &&& vb)
    ((s.modOtp (fun o => { o with result := 2, mask := m })).stick F.OTP_FLAG.prog_err).fire 0x11 0x02 arg m.toNat
  else
    let m := req &&& ~~~(va ||| vb)
    ((s.modOtp (fun o => { o with result := 3, mask := m })).stick F.OTP_FLAG.prog_err).fire 0x11 0x01 arg m.toNat

/-- OTP_COMMAND_COMPLETE (R275): which bits verify in each copy comes from the array; at most 8 pulses to each bit that needs them;
a re-read that waited starts (R273). -/
def execOtpCommandComplete (verifiedA verifiedB : Word) (pulses : Nat) (s : State) : Host.Outcome State Fault Refusal :=
  match s.otp.cmd with
  | none => ok s
  | some c =>
    if !s.runs .recI then ok s
    else
      let req := c.bits
      let va := (verifiedA ||| cellGet 0 s.otp.aM c.word) &&& req
      let vb := (verifiedB ||| cellGet 0 s.otp.bM c.word) &&& req
      let arg := if c.op = 2 then 0xD8 else c.word
      let n := min pulses (s.otp.mostPulses c.word req)
      let s1 := ((s.progBits c.word req va vb).countPulses n).modOtp (fun o => ({ o with cmd := none, why := 0 }).disarm s.time)
      let s2 := (s1.stick F.OTP_FLAG.done).otpResult arg req va vb
      ok (if s.otp.rereadDue then s2.reread else s2)

/-! ### ADVANCE (R268) -/

/-- v of a thermometer as stored. -/
def State.thermoNow (s : State) (t : Nat) : Nat := thermoV (thermoWords s.otp.rdN t)

/-- The bits v to n − 1 of word k of a thermometer (R268). -/
def advanceReq (v n k : Nat) : Word :=
  BitVec.ofNat 32 (bitsOf ((List.range 32).map (fun b => decide (v ≤ 32 * k + b) && decide (32 * k + b < n))))

/-- One word of an ADVANCE under the pulse rule (R268, R275): which bits verify in which copy, and the pulses they take, are not
stated: free values. The answer says whether every bit verified in at least one copy. -/
def State.advanceWord (s : State) (w : Nat) (req : Word) : State × Bool :=
  if req = 0 then (s, true)
  else
    let va := (s.free.setWidth 32 ||| cellGet 0 s.otp.aM w) &&& req
    let vb := ((s.free >>> 32).setWidth 32 ||| cellGet 0 s.otp.bM w) &&& req
    let s1 := s.drawn
    ((s1.drawn.countPulses (s1.free.toNat % (s.otp.mostPulses w req + 1))).progBits w req va vb, va ||| vb = req)

/-- ADVANCE of thermometer t to n (R268). The answer says whether it succeeded. -/
def State.advance (s : State) (t n : Nat) : State × Bool :=
  let v := s.thermoNow t
  if n = v then (s, true)
  else if n < v ∨ 128 < n then (s, false)
  else
    (List.range 4).foldl (fun p k =>
      let q := p.1.advanceWord (0x90 + 4 * t + k) (advanceReq v n k)
      (q.1, p.2 && q.2)) (s, true)

end Sys2Proof.Machine
end

