-- ==== Sys2Proof/Machine/Rings.lean ====
section
/-! DEFINITION. The controller's writes toward the host (18_host_rings R359–R361, R367, R370, R371), MSI-X (R373), and the
routing of events beyond the black box (R372–R375). -/

namespace Sys2Proof.Machine

/-- Host-interface fields replaced. -/
def State.modHst (s : State) (f : Hst → Hst) : State := { s with hst := f s.hst }
/-- Event-routing fields replaced. -/
def State.modEvt (s : State) (f : Evt → Evt) : State := { s with evt := f s.evt }
/-- One ring replaced. -/
def State.modRing (s : State) (r : Fin 8) (f : HRing → HRing) : State := s.modHst (fun h => { h with ring := modAt h.ring r f })

/-- A posted write is issued (R371). -/
def State.post (s : State) (p : Posted) : State := s.modHst (fun h => { h with posted := p :: h.posted })

/-- May the controller write to the host: HST out of reset, link up, not in D3hot (R357)? -/
def State.hostUp (s : State) : Bool := s.runs .hst && s.hst.up && !s.hst.d3hot

/-! ### MSI-X -/

/-- The event of R399 for a counter of the event routing: source 0x00. -/
def evtSatSrc : Nat := 0x00

/-- Is a vector masked in the MSI-X table (R373)? -/
def State.vecMasked (s : State) (v : Fin 64) : Bool := (s.evt.msix[4 * v.val + 3]'(by omega)).getLsbD 0

/-- Is a vector held back by its moderation interval (R373)? -/
def State.vecModerated (s : State) (v : Fin 64) : Bool :=
  match s.evt.vlast[v] with
  | some t => decide (s.time < t + s.fld (F.EVT_VEC.mod_us v) * us1)
  | none => false

/-- A vector sends its message, or waits: its pending bit sets while it is masked or no write can be issued (log 21); an
interval that has not run out holds it back (R373). -/
def State.vecSend (s : State) (v : Fin 64) : State :=
  if s.vecMasked v || !s.hostUp then s.modEvt (fun e => { e with pba := e.pba ||| (1 <<< v.val) })
  else if s.vecModerated v then s.modEvt (fun e => { e with vheld := modAt e.vheld v (fun _ => true) })
  else (s.post (.msix v)).modEvt (fun e => { e with vlast := modAt e.vlast v (fun _ => some s.time) })

/-- MSIX_RAISE (R373): a raised vector is counted and sends its message unless held back. -/
def State.vecRaise (s : State) (v : Fin 64) : State :=
  let c := s.evt.vcnt[v].incTo 0xFFFF
  let s1 := s.modEvt (fun e => { e with vcnt := modAt e.vcnt v (fun _ => c) })
  (s1.satEv s.evt.vcnt[v] c evtSatSrc (0x1100 + 4 * v.val)).vecSend v

/-- Pending vectors that can send do so: at an unmask and when the link returns. -/
def State.vecRelease (s : State) : State :=
  foldFin 64 s (fun s v =>
    if s.evt.pba.getLsbD v.val && !s.vecMasked v && s.hostUp
    then (s.modEvt (fun e => { e with pba := e.pba &&& ~~~((1 : BitVec 64) <<< v.val) })).vecSend v else s)

/-- MSIX_MODERATION_END (R373): a held raise is sent when the interval ends. -/
def execMsixModerationEnd (v : Fin 64) (s : State) : Host.Outcome State Fault Refusal :=
  let due := (s.evt.vlast[v].map (fun t => t + s.fld (F.EVT_VEC.mod_us v) * us1)).getD s.time
  ok (s.whenAt (s.runs .hst && s.evt.vheld[v]) due (fun s =>
    (s.modEvt (fun e => { e with vheld := modAt e.vheld v (fun _ => false) })).vecSend v))

/-! ### Rings -/

/-- Entries of a ring (R359, Table HST.13). -/
def State.ringSize (s : State) (r : Fin 8) : Nat :=
  let k := s.fld (F.HST_RING_CFG.lsize r)
  2 ^ (if 4 ≤ k ∧ k ≤ 16 then k else 4)

/-- Base address of a ring (R359). -/
def State.ringBase (s : State) (r : Fin 8) : Nat :=
  s.fld (F.HST_RING_BHI.addr r) * 2 ^ 32 + s.fld (F.HST_RING_BLO.addr r) * 64

/-- Does a ring run: enabled and not in ERROR (R360, R362)? -/
def State.ringOn (s : State) (r : Fin 8) : Bool := s.bit (F.HST_RING_CFG.en r) && !s.hst.ring[r].err

/-- Entries held (R360). -/
def State.ringUsed (s : State) (r : Fin 8) : Nat :=
  (s.hst.ring[r].tail + s.ringSize r - s.hst.ring[r].head % s.ringSize r) % s.ringSize r

/-- Entries that still fit (R360). -/
def State.ringRoom (s : State) (r : Fin 8) : Nat := s.ringSize r - 1 - s.ringUsed r

/-- Can the controller place n entries on a ring (R357, R370)? -/
def State.ringTakes (s : State) (r : Fin 8) (n : Nat) : Bool := s.ringOn r && s.hostUp && decide (n ≤ s.ringRoom r)

/-- WRITE_BACK_UPDATE (R361, Table HST.6). -/
def State.writeBack (s : State) : State :=
  if s.bit F.HST_WB_LO.en && s.hostUp then
    let ix (f : HRing → Nat) (l : List (Fin 8)) := l.flatMap (fun r => leBytes 4 (f s.hst.ring[r]))
    let bs := ix HRing.head [0, 1, 2, 3] ++ ix HRing.tail [4, 5, 6, 7] ++ leBytes 4 s.hst.evDrop.word.toNat ++ leBytes 4 0 ++
      leBytes 8 s.sns64 ++ List.replicate 16 0
    s.post (.mem (s.fld F.HST_WB_HI.addr * 2 ^ 32 + s.fld F.HST_WB_LO.addr * 64) bs)
  else s

/-- A ring raises its vector (R373). -/
def State.ringVec (s : State) (r : Fin 8) : State :=
  if s.bit (F.HST_RING_CFG.vec_en r) then s.vecRaise ⟨s.fld (F.HST_RING_CFG.vec r) % 64, Nat.mod_lt _ (by decide)⟩ else s

/-- An event of source 0xC1 or 0xC2 of a ring, whose cause HST_RING_STAT shows (Table HST.10, Table HST.12). -/
def State.ringEvent (s : State) (r : Fin 8) (src cause : Nat) (hi : Int) : State :=
  (s.modRing r (fun g => { g with cause := cause })).fire src cause 0 hi

/-- The cause of a run of losses on a ring (Table HST.10). -/
def lossCause (r : Fin 8) : Nat := if r = 5 then 3 else if r = 6 then 4 else if r = 7 then 5 else 6

/-- A batch of entries onto a ring that takes it: the entries in index order, the write-back block, the vector; the run of
losses before it is reported (R360, R361, R370, R371). -/
def State.ringPush (s : State) (r : Fin 8) (es : List (List Byte)) : State :=
  let s1 := es.foldl (fun s e =>
    let g := s.hst.ring[r]
    (s.post (.mem (s.ringBase r + 32 * g.tail) e)).modRing r (fun g => { g with tail := (g.tail + 1) % s.ringSize r })) s
  let s2 := s1.writeBack.ringVec r
  if s.hst.ring[r].lost = 0 then s2
  else (s2.modRing r (fun g => { g with lost := 0 })).ringEvent r 0xC2 (lossCause r) s.hst.ring[r].lost

/-- One more in the run of losses of a ring. -/
def State.ringLose (s : State) (r : Fin 8) : State := s.modRing r (fun g => { g with lost := min max32 (g.lost + 1) })

/-- Host counters (HST's saturation event: source 0xC0, R399). -/
def State.hstSat (s : State) (old new : Ctr) (off : Nat) : State := s.satEv old new 0xC0 off

/-! ### Routing of events -/

/-- The entry of BBX_SEVMAP for a source (16_black_box Table BBX.9). -/
def State.sevMap (s : State) (src : Nat) : Nat := s.fld (F.BBX_SEVMAP.map (src / 8)) / 2 ^ (4 * (src % 8)) % 16

/-- Severity of an event (16_black_box R318): the larger of the map's entry and the rank of its action class. -/
def State.evSev (s : State) (e : Ev) : Nat :=
  match e.cls with
  | some c => max (s.sevMap e.src) (c + 1)
  | none => s.sevMap e.src

/-- EVENT_QUALIFY (R372). -/
def State.evQual (s : State) (e : Ev) : Bool :=
  match e.cls with
  | some c => decide (1 ≤ c)
  | none => decide (2 ≤ s.evSev e)

/-- EVT_SUM_UPDATE (R374), with what AON keeps of it for the beacon (19_two_wire R389). -/
def State.sumUpdate (s : State) (src sev : Nat) : State :=
  let c := s.evt.cnt.incTo 0xFFFF
  let s1 := s.modEvt (fun e => { e with
    sev := max e.sev sev, src := if sev > e.sev then src else e.src, cnt := c
    sumNow := if e.sumNow.1 = s.time ∧ sev ≤ e.sumNow.2.1 then e.sumNow else (s.time, sev, src) })
  ({ s1 with aon := { s1.aon with bcnFault := max s1.aon.bcnFault s1.evt.sev, bcnAttn := true } }).satEv s.evt.cnt c evtSatSrc 0x1004

/-- The TRIP outputs that a qualifying event asserts (R375). -/
def State.tripMap (s : State) (src sev : Nat) : BitVec 8 :=
  if 5 ≤ sev then BitVec.ofNat 8 (s.fld (F.EVT_ROUTE.trip src)) else 0

/-- A qualifying event of a source and severity is routed (R373–R375). -/
def State.route (s : State) (src sev : Nat) : State :=
  let bcn := s.bit (F.EVT_ROUTE.bcn src)
  let trip := s.tripMap src sev
  let s1 := if s.bit (F.EVT_ROUTE.vec_en src) then
      s.vecRaise ⟨s.fld (F.EVT_ROUTE.vec src) % 64, Nat.mod_lt _ (by decide)⟩ else s
  let s2 := if bcn then s1.sumUpdate src sev else s1
  if trip = 0 then s2
  else { s2 with aon := { s2.aon with
      tripEvt := s2.aon.tripEvt ||| trip, tripNow := (s.time, (if s2.aon.tripNow.1 = s.time then s2.aon.tripNow.2 else 0) ||| trip) } }

/-- The place in the list of the next event to enter REC: of the earliest, the one of the lowest source, in the order fired
(16_black_box R320). -/
def nextEvent (l : List Ev) : Option (Nat × Ev) :=
  l.zipIdx.foldl (fun b p =>
    match b with
    | none => some (p.2, p.1)
    | some (_, e) => if p.1.at_ < e.at_ ∨ (p.1.at_ = e.at_ ∧ p.1.src < e.src) then some (p.2, p.1) else b) none

/-- CHAN_DROP (01_shelf R13): an item is discarded and counted; the first after a clear raises the event. -/
def State.chanDrop (s : State) (i : Island) : State :=
  let k := islandIndex i
  let n := s.chans.drop[k]
  let s1 := { s with chans := { s.chans with drop := modAt s.chans.drop k (fun n => min max32 (n + 1)) } }
  if n = 0 then s1.fire 0x05 0x01 0 (Config.chanNumber k.val).toNat
  else if n + 1 = max32 then s1.drawn.fireRaw 0x00 (evData 0xFF 0 s1.free.toNat) none true
  else s1

/-- Does an event's sender discard it when REC's queue is full (01_shelf R12, Table SHF.2)? An event of a Credit channel, and one
of REC itself, waits. -/
def Ev.drops (e : Ev) : Bool := srcIsland e.src != .recI && decide (chanKind (srcIsland e.src) .recI = .nonBlocking)

/-- The first event that arrives at REC's full queue on a channel whose sender never waits. -/
def nextDrop (l : List Ev) : Option (Nat × Ev) :=
  l.zipIdx.foldl (fun b p =>
    if !p.1.drops then b
    else match b with
      | none => some (p.2, p.1)
      | some (_, e) => if p.1.at_ < e.at_ ∨ (p.1.at_ = e.at_ ∧ p.1.src < e.src) then some (p.2, p.1) else b) none

/-- The k-th event on the channels to REC leaves them (01_shelf R12). -/
def State.landed (s : State) (k : Nat) : State := { s with chans := { s.chans with flight := s.chans.flight.eraseIdx k } }

/-- BBX_EVENT_ENQUEUE (16_black_box R320): the next event enters REC's input queue, of 64 entries, and is routed. When the queue
is full, the next one of a channel that is not Credit is discarded and counted; those of Credit channels wait (01_shelf R12). -/
def execBbxEventEnqueue (s : State) : Host.Outcome State Fault Refusal :=
  if !s.runs .recI then ok s
  else if 64 ≤ s.bbx.queue.length then
    match nextDrop s.chans.flight with
    | none => ok s
    | some (k, e) => ok ((s.landed k).chanDrop (srcIsland e.src))
  else match nextEvent s.chans.flight with
    | none => ok s
    | some (k, e) =>
        let s1 := s.landed k
        let s2 := { s1 with bbx := { s1.bbx with queue := s1.bbx.queue ++ [e] } }
        ok (if s2.evQual e then s2.route e.src (s2.evSev e) else s2)

/-- The summary clears, and with it the beacon's fault and attn (R374, 19_two_wire R389). An event of the same clock stands alone
(Table HST.9, Table TWP.5). -/
def State.sumClear (s : State) : State :=
  let c := s.cleared 0x1004
  let (sev, src) := if c.count = 0 then (0, 0) else s.evt.sumNow.2
  { s.modEvt (fun e => { e with sev := sev, src := src, cnt := c }) with aon := { s.aon with bcnFault := sev, bcnAttn := c.count != 0 } }

/-- The assertions of R375 are released; one of the same clock stands (Table HST.9). -/
def State.tripClear (s : State) : State :=
  { s with aon := { s.aon with tripEvt := if s.aon.tripNow.1 = s.time then s.aon.tripNow.2 else 0 } }

/-- EVT_SUM_CLEAR (R374). -/
def execEvtSumClear (s : State) : Host.Outcome State Fault Refusal := ok (s.when (s.runs .mgt && s.exposed) s.sumClear)

/-- EVT_TRIP_CLEAR (R375): the assertions of R246 and R258 stand. -/
def execEvtTripClear (s : State) : Host.Outcome State Fault Refusal := ok (s.when (s.runs .mgt && s.exposed) s.tripClear)

end Sys2Proof.Machine
end

