-- ==== Sys2Proof/Machine/BlackBox.lean ====
section
/-! DEFINITION. The black box (16_black_box): records and the ring (R317–R323), the trace window (R324), sealed reams and
their watermarks (R325–R327), reading (R331, R332), clearing and release (R333–R335). -/

namespace Sys2Proof.Machine

/-- Black-box fields replaced. -/
def State.modBbx (s : State) (f : Bbx → Bbx) : State := { s with bbx := f s.bbx }
/-- The event store replaced, once the image in progress holds it as it stood (15_parameter_store R313). -/
def State.modStore (s : State) (f : EvStore → EvStore) : State := s.freezeImage.modBbx (fun b => { b with st := f b.st })
/-- One ream replaced. -/
def State.modReam (s : State) (r : Fin 4) (f : Ream → Ream) : State := s.modStore (fun e => { e with reams := modAt e.reams r f })

/-! ### Records -/

/-- The number of the 32 bytes of a record. -/
def recOf (bs : List Byte) : Rec := BitVec.ofNat 256 (leNat bs)
/-- The bytes of a record. -/
def recBytes32 (r : Rec) : List Byte := leBytes 32 r.toNat
/-- seq of a record. -/
def recSeq (r : Rec) : Nat := r.toNat % 2 ^ 40

/-- Entity path of a source (R319, Table BBX.3). -/
def State.srcPath (s : State) (src : Nat) : Word :=
  if 0x20 ≤ src ∧ src ≤ 0x2F then s.path 0 ((src - 0x20) / 2) 7
  else if 0x34 ≤ src ∧ src ≤ 0x3B then s.path 0 (src - 0x34) 7
  else if h : 0x40 ≤ src ∧ src ≤ 0x57 then
    let j : Fin 24 := ⟨src - 0x40, by omega⟩
    let p := s.pwm.ph[j]
    if p.asg then s.path 0 p.rail.val ((s.railPhases p.rail).idxOf j) else s.path 0 0xF 7
  else if 0x60 ≤ src ∧ src ≤ 0x7F then s.path (src - 0x60) 8 7
  else if 0x80 ≤ src ∧ src ≤ 0x8F then
    let i := (src - 0x80) / 2
    if s.bit (F.BAT_CFG.rail_en i) then s.path 0 (s.fld (F.BAT_CFG.rail i)) 7 else s.path 0 0xF 7
  else s.path 0 0xF 7

/-- A record (R317, Table BBX.1). -/
def State.recordOf (s : State) (src cause : Nat) (data : BitVec 64) (sev : Nat) (sat drop : Bool) : Rec :=
  let op := s.opTime
  let pc := s.aon.pcyc
  let w := sev % 16 * 2 ^ 12 + s.sys.role.code * 2 ^ 9 + s.sys.mode % 16 * 2 ^ 5 + b2n sat * 16 +
    b2n (decide (op = 0xFFFFFFFFFFFF)) * 8 + b2n pc.sat * 4 + b2n drop * 2 + b2n s.aon.pf
  let bs := leBytes 5 s.bbx.seq.toNat ++ leBytes 6 op ++ leBytes 3 pc.count ++ leBytes 4 (s.srcPath src).toNat ++
    leBytes 2 (src % 256 * 256 + cause % 256) ++ leBytes 2 w ++ leBytes 8 data.toNat
  recOf (bs ++ leBytes 2 (crc16 bs))

/-- The cause byte of an event's record (Table BBX.1). -/
def evCause (src : Nat) (data : BitVec 64) : Nat := if 0x20 ≤ src ∧ src ≤ 0x33 then 0 else data.toNat % 256

/-! ### The ring -/

/-- Does a slot belong to a ream? -/
def EvStore.sealed (e : EvStore) (k : Nat) : Bool := e.reams.any (fun m => m.slots.contains k)

/-- The next slot in ascending order that belongs to no ream and is not one of a list, among the fuel slots from k on. -/
def EvStore.nextSlot (e : EvStore) (skip : List Nat) : Nat → Nat → Nat
  | 0, k => k % 16384
  | n + 1, k => if e.sealed (k % 16384) || skip.contains (k % 16384) then e.nextSlot skip n (k + 1) else k % 16384

/-- The slot that the next record takes, and whether it is taken before its turn: the next in ascending order from the pointer
(R320), which passes over slots rewritten before their turn; where that one holds a record, the oldest, which is of a released
ream while there is one (R333). -/
def State.slotFor (s : State) : Nat × Bool :=
  let k := s.bbx.st.nextSlot s.bbx.ahead 16384 s.bbx.slot
  match s.bbx.oldest with
  | o :: _ => if (cellGet? s.bbx.st.ring k).isSome ∧ !s.bbx.oldest.contains k then (o, true) else (k, false)
  | [] => (k, false)

/-- The writer's pointers after a write to slot k, early or in its turn (R320). -/
def Bbx.wrote (b : Bbx) (k : Nat) (early : Bool) : Bbx :=
  { b with seq := b.seq + 1, slot := if early then b.slot else (k + 1) % 16384, oldest := b.oldest.filter (fun o => o != k),
           ahead := if early then k :: b.ahead else
             b.ahead.filter (fun o => (k + 16384 - b.slot) % 16384 < (o + 16384 - b.slot) % 16384) }

/-- Slots outside reams that hold a record (BBX_LIVE). -/
def EvStore.live (e : EvStore) : List (Nat × Rec) := e.ring.filter (fun p => !e.sealed p.1)

/-- A record is written to the ring and to the host event ring, and takes the next seq (R320, R367, R370); its slot is the
answer. -/
def State.putRecord (s : State) (src cause : Nat) (data : BitVec 64) (sev : Nat) (sat : Bool) : Nat × State :=
  let toRing := s.bit (F.EVT_ROUTE.ring src) && s.bit (F.HST_RING_CFG.en 5)
  let takes := s.ringTakes 5 1
  let rec_ := s.recordOf src cause data sev sat (toRing && !takes)
  let (k, early) := s.slotFor
  let s1 := (s.modStore (fun e => { e with ring := cellPut 0 e.ring k rec_ })).modBbx (fun b => b.wrote k early)
  let s2 :=
    if !toRing then s1
    else if takes then s1.ringPush 5 [recBytes32 rec_]
    else
      let c := s1.hst.evDrop.inc
      ((s1.modHst (fun h => { h with evDrop := c })).ringLose 5).hstSat s1.hst.evDrop c 0x1F200
  (k, s2)

/-! ### Seals -/

/-- The slots that a seal takes: the sealing record's and those of up to 511 records before it in seq that belong to no other
ream, ascending (R325, R322). -/
def State.sealSlots (s : State) (slot : Nat) (sealSeq : Nat) : List Nat :=
  let before := s.bbx.st.live.foldl (fun (m : Cells Nat) p =>
    let d := (sealSeq + 2 ^ 40 - recSeq p.2) % 2 ^ 40
    if p.1 ≠ slot ∧ 1 ≤ d ∧ d < 2 ^ 39 then cellIns m d p.1 else m) []
  ((before.take 511).map Prod.snd).reverse ++ [slot]

/-- Is the trace recording (R324)? -/
def State.trcRun (s : State) : Bool := s.bit F.BBX_CFG.trc_en && s.bbx.holder.isNone

/-- The 16 codes of BBX_TRC_SEL, the first lowest. -/
def State.trcMap (s : State) : BitVec 128 :=
  BitVec.ofNat 128 ((List.range 4).foldl (fun v q => v + s.fld (F.BBX_TRC_SEL.sel q) * 2 ^ (32 * q)) 0)

/-- No usable authorisation key (R326, OTP_SEC). -/
def State.zkey (s : State) : Bool := s.otp.live.auth != 1

/-- The trace freezes and a ream holds it; sealing is armed again (R325). The oldest row is the one that would be written
next, 3,999 µs before the newest. -/
def State.freeze (s : State) (r : Fin 4) : State :=
  let t0 := (BitVec.ofNat 64 s.bbx.rowTime - 3999000).toNat
  (s.modReam r (fun m => { m with trace := true, t0 := t0, map := s.trcMap, row0 := s.bbx.pos, zkey := s.zkey })).modBbx
    (fun b => { b with holder := some r, armed := true, post := none })

/-- BBX_SEAL (R325) and SEAL_MISSED (R327): a ream around the record of a slot. -/
def State.sealStart (s : State) (slot : Nat) (sealSeq : BitVec 40) (pf : Bool) : State :=
  match (finsWhere 4 (fun r => s.bbx.st.reams[r].st = 0)).head? with
  | none =>
    let c := s.bbx.sealMiss.inc
    let s1 := ((s.modBbx (fun b => { b with sealMiss := c, missRun := true })).stick F.BBX_STAT.seal_miss).satEv
      s.bbx.sealMiss c 0xD5 0x1D104
    if s.bbx.missRun then s1 else s1.fire 0xD5 0x02
  | some r =>
    let slots := s.sealSlots slot sealSeq.toNat
    let s1 := s.modReam r (fun _ => { Ream.free with st := 1, slots := slots, sealSeq := sealSeq, zkey := s.zkey, pf := pf })
    let s2 := ((s1.modBbx (fun b => { b with missRun := false, oldest := b.oldest.filter (fun o => !slots.contains o), ahead := b.ahead.filter (fun o => !slots.contains o) })).stick
      F.BBX_STAT.sealed).fire 0xD5 0x01 0 (sealSeq.toNat % 2 ^ 32 : Nat)
    if !s.trcRun then s2
    else if pf then s2.freeze r
    else s2.modBbx (fun b => { b with armed := false, post := some (r, s.time + s.fld F.BBX_CFG.post_us * us1) })

/-- A severe record written while sealing is disarmed (R325). -/
def State.laterCount (s : State) : State :=
  match s.bbx.post with
  | some (r, _) => s.modReam r (fun m => { m with later := min 255 (m.later + 1) })
  | none => s

/-- A record with what its severity brings: a seal where sealing is armed (R325). The marker of a CLEAR or RELEASE makes none: a
severe record that waited for the operation seals at its own write, after the marker (Table BBX.6; log 80). -/
def State.writeRec (s : State) (src cause : Nat) (data : BitVec 64) (sev : Nat) (sat pf : Bool) : State :=
  let seq := s.bbx.seq
  let (k, s1) := s.putRecord src cause data sev sat
  if sev < s.fld F.BBX_CFG.seal_sev ∧ !pf then s1
  else if s1.bbx.armed then (if src = 0xD6 ∧ sev = 15 then s1 else s1.sealStart k seq pf)
  else
    let s2 := s1.laterCount
    match s2.bbx.post, pf with
    | some (r, _), true => s2.freeze r
    | _, _ => s2

/-! ### Tokens -/

/-- The SUPPRESSED record that precedes the record ending a run of suppressions (R321). -/
def State.endRun (s : State) : State :=
  if s.bbx.supRun = 0 then s
  else
    let sev := s.sevMap 0xD7
    let s1 := s.modBbx (fun b => { b with supRun := 0 })
    let s2 := if 2 ≤ sev then s1.route 0xD7 sev else s1
    s2.writeRec 0xD7 0x01 (evData 0x01 0 s.bbx.supRun) sev false false

/-- A record takes its token; one that is never suppressed takes the bucket as far as -512 (R321). -/
def State.takeToken (s : State) : State := s.modBbx (fun b => { b with tokens := max (-512) (b.tokens - 1) })

/-- BBX_SUPPRESS (R321): a record without a token is not written. -/
def State.suppress (s : State) : State :=
  let c := s.bbx.sup.inc
  ((s.modBbx (fun b => { b with supRun := min max32 (b.supRun + 1), sup := c })).stick F.BBX_STAT.suppressed).satEv s.bbx.sup c 0xD5 0x1D100

/-- A record that the black box writes for itself: a marker, POWER_FAIL or RESTORED, never suppressed, routed as any event
(R321, R328, R330, R333, R372). Its cause stands in the record's cause byte and its data as its rule gives them (log 22). -/
def State.ownRecord (s : State) (src cause : Nat) (data : BitVec 64) (sev : Nat) (pf : Bool) : State :=
  ((s.route src sev).endRun.takeToken).writeRec src cause data sev false pf

/-- BBX_RECORD_WRITE (R320, R321): the front of the queue is written, or suppressed; no record is written while a CLEAR or
RELEASE runs (R333). -/
def execBbxRecordWrite (s : State) : Host.Outcome State Fault Refusal :=
  match s.bbx.queue with
  | [] => ok s
  | e :: q =>
    if !s.runs .recI || s.bbx.op.isSome then ok s
    else
      let s1 := s.modBbx (fun b => { b with queue := q })
      let sev := s.evSev e
      if s.bbx.tokens ≤ 0 ∧ sev < s.fld F.BBX_CFG.seal_sev then ok s1.suppress
      else ok (s1.endRun.takeToken.writeRec e.src (evCause e.src e.data) e.data sev e.sat false)

/-- TOKEN_REFILL (R321). -/
def execTokenRefill (s : State) : Host.Outcome State Fault Refusal :=
  ok (s.whenAt (s.runs .recI) (s.bbx.refillAt + 1250 * us1) (fun s =>
    s.modBbx (fun b => { b with tokens := min 512 (b.tokens + 1), refillAt := b.refillAt + 1250 * us1 })))

/-! ### The trace window -/

/-- The value that a code of BBX_TRC_SEL names (R324). -/
def State.trcValue (s : State) (code : Nat) : BitVec 16 :=
  if h : code ≤ 0x21 then BitVec.ofInt 16 s.sns.ch[(⟨code, by omega⟩ : Fin 130)].eng
  else if h : 0x40 ≤ code ∧ code ≤ 0x53 then BitVec.ofInt 16 s.law.eng[(⟨code - 0x40, by omega⟩ : Fin 20)].out
  else 0

/-- A row as it is formed now (R324). -/
def State.trcRow (s : State) : Vector (BitVec 16) 16 :=
  Vector.ofFn (fun (q : Fin 16) => s.trcValue ((s.trcMap.toNat / 2 ^ (8 * q.val)) % 256))

/-- The bytes of a row, in byte order. -/
def rowBytes (v : Vector (BitVec 16) 16) : List Byte := v.toList.flatMap (fun x => leBytes 2 x.toNat)

/-- The row at an index of the circle. -/
def EvStore.row (e : EvStore) (k : Nat) : Vector (BitVec 16) 16 := cellGet (Vector.replicate 16 0) e.rows k

/-- TRACE_RING_WRITE (R369, R370). -/
def State.trcStream (s : State) (n : Nat) (row : Vector (BitVec 16) 16) : State :=
  let dec := max 1 (min 1000 (s.fld F.HST_TRC.dec))
  if !(s.bit F.HST_TRC.en && s.bit (F.HST_RING_CFG.en 7) && n % dec = 0) then s
  else if s.ringTakes 7 1 then s.ringPush 7 [leBytes 4 n ++ (rowBytes row).take 28]
  else
    let c := s.hst.trcDrop.inc
    ((s.modHst (fun h => { h with trcDrop := c })).ringLose 7).hstSat s.hst.trcDrop c 0x1F208

/-- TRACE_ROW (R324, R369): the row of the present microsecond of SNS_TIME. -/
def execTraceRow (s : State) : Host.Outcome State Fault Refusal :=
  let n := s.sns64 / 1000
  if !(s.runs .recI && s.sns.running) || s.bbx.rowUs = some n then ok s
  else
    let row := s.trcRow
    let s0 := s.modBbx (fun b => { b with rowUs := some n })
    let s1 :=
      if s.trcRun then
        (s0.modStore (fun e => { e with rows := cellPut (Vector.replicate 16 0) e.rows s.bbx.pos row })).modBbx
          (fun b => { b with pos := (b.pos + 1) % 4000, rowTime := n * 1000 })
      else s0
    ok (s1.trcStream n row)

/-- TRACE_FREEZE (R325): post_us after a seal. -/
def execTraceFreeze (s : State) : Host.Outcome State Fault Refusal :=
  match s.bbx.post with
  | some (r, t) => ok (s.whenAt (s.runs .recI) t (fun s => s.freeze r))
  | none => ok s

/-! ### Watermarks -/

/-- Bytes 0–47 of a ream's header (Table BBX.4). -/
def Ream.head48 (m : Ream) (r : Fin 4) : List Byte :=
  leBytes 5 m.sealSeq.toNat ++ leBytes 2 m.slots.length ++
    [BitVec.ofNat 8 (b2n m.trace + 2 * b2n m.zkey + 4 * b2n m.pf + 8 * r.val)] ++ leBytes 8 m.t0 ++ leBytes 16 m.map.toNat ++
    leBytes 2 m.row0 ++ [BitVec.ofNat 8 m.later] ++ List.replicate 13 0

/-- The header of a ream: zeros while it is free. -/
def Ream.header (m : Ream) (r : Fin 4) : List Byte :=
  if m.st = 0 then List.replicate 64 0 else m.head48 r ++ leBytes 16 m.wm.toNat

/-- The records of a ream, ascending. -/
def EvStore.reamRecords (e : EvStore) (m : Ream) : List Byte := m.slots.flatMap (fun k => recBytes32 (cellGet 0 e.ring k))

/-- The ASCII bytes "TQ4880-WM". -/
def wmLabel : List Byte := [0x54, 0x51, 0x34, 0x38, 0x38, 0x30, 0x2D, 0x57, 0x4D]

/-- The watermark of a ream (R326). -/
def State.watermark (s : State) (r : Fin 4) : BitVec 128 :=
  let e := s.bbx.st
  let m := e.reams[r]
  let key := if m.zkey then List.replicate 16 0 else (hmac256 (leBytes 32 s.otp.live.authKey.toNat) wmLabel).take 16
  let rows := if m.trace then (List.range 4000).flatMap (fun j => rowBytes (e.row ((m.row0 + j) % 4000))) else []
  BitVec.ofNat 128 (leNat (cmac key (leBytes 16 s.otp.live.dieId.toNat ++ m.head48 r ++ e.reamRecords m ++ rows)))

/-- Words that a ream's read pointer runs through (R332). -/
def Ream.total (m : Ream) : Nat := if m.trace then 4112 + 32000 else 4112

/-- WATERMARK_DONE (R326): at the freeze, or at the seal for a ream without trace. -/
def execWatermarkDone (r : Fin 4) (s : State) : Host.Outcome State Fault Refusal :=
  let m := s.bbx.st.reams[r]
  let waits := (s.bbx.post.map (fun p => p.1 == r)).getD false
  ok (s.when (s.runs .recI && m.st = 1 && !waits)
    (s.modReam r (fun m => { m with wm := s.watermark r, wmDone := true, st := if m.ptr = m.total then 3 else 2 })))

/-- BBX_SEAL_NOW (R325): a marker, and a seal where sealing is armed. Its data names the ream sealed or running. -/
def State.sealNow (s : State) : State :=
  let r := match s.bbx.post with
    | some (r, _) => r.val
    | none => ((finsWhere 4 (fun r => s.bbx.st.reams[r].st = 0)).head?.map Fin.val).getD 0
  s.ownRecord 0xD5 0x03 (evData 0x03 0 r) 15 false

/-- BBX_SEAL_NOW (R325); no record is written while a CLEAR or RELEASE runs: the marker and the seal follow the operation's own
marker (R333). -/
def execBbxSealNow (s : State) : Host.Outcome State Fault Refusal :=
  ok (s.when (s.runs .recI && s.exposed)
    (if s.bbx.op.isSome then s.modBbx (fun b => { b with sealWait := b.sealWait + 1 }) else s.sealNow))

/-! ### Reading -/

/-- A byte of a trace offset (R324): the circle, then the ream headers, then zeros. -/
def EvStore.traceByte (e : EvStore) (o : Nat) : Byte :=
  if o < 0x1F400 then (rowBytes (e.row (o / 32))).getD (o % 32) 0
  else if h : o < 0x1F500 then
    let r : Fin 4 := ⟨(o - 0x1F400) / 64, by omega⟩
    (e.reams[r].header r).getD (o % 64) 0
  else 0

/-- A word of the page window (R331, Table BBX.5): page sel, offset o. -/
def EvStore.pageWord (e : EvStore) (sel o : Nat) : Word :=
  if sel ≤ 7 then BitVec.ofNat 32 (leAt (recBytes32 (cellGet 0 e.ring (2048 * sel + o / 32))) (o % 32) 4)
  else if sel ≤ 9 then
    BitVec.ofNat 32 (leNat ((List.range 4).map (fun i => e.traceByte (0x10000 * (sel - 8) + o + i))))
  else if h : 16 ≤ sel ∧ sel ≤ 19 then
    let r : Fin 4 := ⟨sel - 16, by omega⟩
    let m := e.reams[r]
    if o < 0x40 then BitVec.ofNat 32 (leAt (m.header r) o 4)
    else match m.slots[(o - 0x40) / 32]? with
      | some k => BitVec.ofNat 32 (leAt (recBytes32 (cellGet 0 e.ring k)) (o % 32) 4)
      | none => 0
  else 0

/-- Page and offset of the word at a read pointer (R332). -/
def ptrPlace (r : Fin 4) (p : Nat) : Nat × Nat :=
  if p < 4112 then (16 + r.val, 4 * p)
  else if 4 * (p - 4112) < 0x10000 then (8, 4 * (p - 4112))
  else (9, 4 * (p - 4112) - 0x10000)

/-- A read of a word of the window moves the pointer of a ream that stands at it (R332). -/
def State.ptrRead (s : State) (r : Fin 4) (sel o : Nat) : State :=
  let m := s.bbx.st.reams[r]
  let waits := (s.bbx.post.map (fun p => p.1 == r)).getD false
  if m.st = 0 || m.st = 3 || decide (m.total ≤ m.ptr) || ptrPlace r m.ptr != (sel, o / 4 * 4) then s
  else s.modBbx (fun b => { b with st := { b.st with reams := modAt b.st.reams r (fun m =>
    { m with ptr := m.ptr + 1, st := if m.ptr + 1 = m.total ∧ m.wmDone ∧ !waits then 3 else m.st }) } })

/-- REAM_POINTER_READ (R332): a read of the window at a BAR0 offset, seen by one ream. -/
def execReamPointerRead (r : Fin 4) (off : BitVec 20) (s : State) : Host.Outcome State Fault Refusal :=
  ok (s.when (s.runs .recI && decide (0x80000 ≤ off.toNat) && decide (off.toNat < 0x90000))
    (s.ptrRead r (s.fld F.BBX_PAGE.sel) (off.toNat - 0x80000)))

/-! ### Clearing and release -/

/-- Modes in which exec runs alone (R334). -/
def State.openMode (s : State) : Bool := s.sys.mode = modeStart || s.sys.mode = modeTest || s.sys.mode = modeRecovery

/-- Does the mode permit JTAG debug instructions (14_start Table SYS.6)? With dbg_lock set they are refused (13_fuse Table OTP.2). -/
def State.jtagDebug (s : State) : Bool := (s.sys.mode = modeTest || s.sys.mode = modeRecovery) && !s.otp.live.dbgLock

/-- The token that the controller computes (R334). -/
def State.ownToken (s : State) : BitVec 128 :=
  let m := leBytes 16 s.bbx.nonce.toNat ++ leBytes 16 s.otp.live.dieId.toNat ++
    [BitVec.ofNat 8 (s.fld F.BBX_OP.op), BitVec.ofNat 8 (s.fld F.BBX_OP.ream)]
  BitVec.ofNat 128 (leNat ((hmac256 (leBytes 32 s.otp.live.authKey.toNat) m).take 16))

/-- AUTH_FAIL and the lockout (R335). -/
def State.authFail (s : State) : State :=
  let n := s.bbx.fails + 1
  let c := s.bbx.authFail.inc
  let s1 := (((s.modBbx (fun b => { b with authFail := c, fails := n })).stick F.BBX_STAT.auth_fail).satEv s.bbx.authFail c 0xD5 0x1D108).fire
    0xD6 0x03 0 n
  if n < 3 then s1 else (s1.modBbx (fun b => { b with lock := some s.opTime })).fire 0xD6 0x04 0 n

/-- exec (R333–R335): the operation of BBX_OP starts, or BBX_AUTH.result gives the reason. Any exec spends the nonce. -/
def State.bbxExec (s : State) : State :=
  let op := s.fld F.BBX_OP.op
  let ream : Fin 4 := ⟨s.fld F.BBX_OP.ream % 4, Nat.mod_lt _ (by decide)⟩
  let out (s : State) (n : Nat) : State := s.modBbx (fun b => { b with result := n, nvalid := false })
  let run (s : State) : State := s.modBbx (fun b => { b with op := some (op, ream), nvalid := false })
  if s.bbx.op.isSome then s.modBbx (fun b => { b with nvalid := false })
  else if s.bbx.lock.isSome then out s 5
  else if op ≠ 1 ∧ op ≠ 2 then out s 7
  else if op = 2 ∧ s.bbx.st.reams[ream].st ≠ 3 then out s 6
  else if s.openMode then run s
  else if s.zkey then out s 2
  else if !s.bbx.nvalid then out s 4
  else if s.bbx.token = s.ownToken then run (s.modBbx (fun b => { b with fails := 0 }))
  else out s.authFail 3

/-- BBX_NONCE_REQUEST (R334, R335). -/
def execBbxNonceRequest (entropy : BitVec 128) (s : State) : Host.Outcome State Fault Refusal :=
  ok (s.when (s.runs .recI && s.exposed && s.bbx.lock.isNone)
    (s.modBbx (fun b => { b with nonce := entropy, nvalid := true, nonceAt := s.time })))

/-- NONCE_EXPIRY (R334): 60 s after it was loaded. -/
def execNonceExpiry (s : State) : Host.Outcome State Fault Refusal :=
  ok (s.whenAt s.bbx.nvalid (s.bbx.nonceAt + 60 * sec1) (fun s => s.modBbx (fun b => { b with nvalid := false })))

/-- BBX_CLEAR (R333): exec with op CLEAR, or with an op value that R333 refuses: it has no row of its own (log 42). -/
def execBbxClear (s : State) : Host.Outcome State Fault Refusal := ok (s.when (s.runs .recI && s.exposed && s.fld F.BBX_OP.op != 2) s.bbxExec)

/-- BBX_RELEASE (R333): exec with op RELEASE. -/
def execBbxRelease (s : State) : Host.Outcome State Fault Refusal := ok (s.when (s.runs .recI && s.exposed && s.fld F.BBX_OP.op = 2) s.bbxExec)

/-- A save after an operation, requested again later where a running save refuses it (R333, R314). -/
def State.opSave (s : State) : State :=
  if s.nvp.save.isSome then (s.stick F.NVP_FLAG.save_ref).modBbx (fun b => { b with saveAgain := true }) else s.saveRequest 3

/-- The markers and seals of the seal_now writes that waited for an operation (R325, R333). -/
def State.sealWaiting (s : State) : State :=
  (List.range s.bbx.sealWait).foldl (fun s _ => s.sealNow) (s.modBbx (fun b => { b with sealWait := 0 }))

/-- The running operation completes (R333): the ring is cleared or the ream returned, the marker is written, the seals that
waited are made, a save is requested. -/
def State.opFinish (s : State) : State :=
  match s.bbx.op with
  | none => s
  | some (op, r) =>
    let data (n : Nat) : BitVec 64 := BitVec.ofNat 64 (n + op * 2 ^ 32 + r.val * 2 ^ 36)
    let s0 := s.modBbx (fun b => { b with op := none, result := 1 })
    if op = 1 then
      let n := s.bbx.st.live.length
      let c := s.bbx.clr.inc
      let s1 := (s0.modStore (fun e => { e with ring := e.ring.filter (fun p => e.sealed p.1) })).modBbx (fun b => { b with clr := c, oldest := [], ahead := [] })
      (((s1.stick F.BBX_STAT.cleared).satEv s.bbx.clr c 0xD5 0x1D10C).ownRecord 0xD6 0x01 (data n) 15 false).sealWaiting.opSave
    else
      let m := s.bbx.st.reams[r]
      let s1 := (s0.modReam r (fun _ => Ream.free)).modBbx (fun b =>
        { b with oldest := b.oldest ++ m.slots, holder := if b.holder = some r then none else b.holder })
      ((s1.stick F.BBX_STAT.released).ownRecord 0xD6 0x02 (data m.slots.length) 15 false).sealWaiting.opSave

/-- BBX_OP_COMPLETE (R333). -/
def execBbxOpComplete (s : State) : Host.Outcome State Fault Refusal := ok (s.when (s.runs .recI) s.opFinish)

/-- LOCKOUT_END (R335): after 600 s of operating time; the run of mismatches starts anew. -/
def execLockoutEnd (s : State) : Host.Outcome State Fault Refusal :=
  match s.bbx.lock with
  | some t => ok (s.whenOp true (t + 600 * 1024) (fun s => s.modBbx (fun b => { b with lock := none, fails := 0 })))
  | none => ok s

end Sys2Proof.Machine
end

