-- ==== Sys2Proof/Machine/ParamStore.lean ====
section
/-! DEFINITION. The parameter store's commands (15_parameter_store): commits (R304, R305), the uncorrected read (R299), saves
(R309, R310, R313, R314), the restore at a cold start (R311, R313, 16_black_box R330) and the full read (R315). -/

namespace Sys2Proof.Machine

/-! ### Commits -/

/-- NVP_COMMIT_REQUEST (R304). -/
def execNvpCommitRequest (s : State) : Host.Outcome State Fault Refusal :=
  ok (s.when (s.runs .mgt && s.nvp.commit.isNone && s.nvp.held != 0 && !s.aon.pf) s.commitStart)

/-- A record copy written in several commits still has words waiting (R304). -/
def Nvp.bigLeft (v : Nvp) : Bool :=
  v.big.any (fun b => v.rest.any (fun p => decide (b.1 ≤ p.1) && decide (p.1 < b.1 + b.2)))

/-- The parameter store after a commit: every word of the buffer is in its array (R304, R305). -/
def Nvp.committed (v : Nvp) (t : Nat) : Nvp :=
  { v with
    store := v.buf.foldl (fun m p => cellPut ⟨0, 0⟩ m p.1 ⟨p.2, 0⟩) v.store, buf := [], commit := none, cLast := t
    cWorst := max v.cWorst t, shErr := v.shErr.filter (fun p => !v.shScrub.contains p.1), shScrub := []
    big := if v.bigLeft then v.big else none }

/-- NVP_COMMIT_DONE (R305): every word of the buffer is in the store; what waited moves into the buffer. -/
def execNvpCommitDone (us : Nat) (s : State) : Host.Outcome State Fault Refusal :=
  if s.nvp.commit.isNone || s.nvp.stopped || !s.runs .recI then ok s
  else ok (s.modNvp (fun v => v.committed (min 0xFFFF us))).nvpFlow

/-! ### The uncorrected read -/

/-- The check bits of a word: 0 for a word of zeros (R298). -/
def checkOf (d : BitVec 64) : BitVec 8 := if d = 0 then 0 else Config.checkBits d

/-- The word of the shadow array at a word address: the image's store, ring first, the trace offsets from byte 0x8_0000; none
where the spec gives no contents (the header's layout, an array without an image, an address beyond it). -/
def Image.word (m : Image) (a : Nat) : Option (BitVec 64) :=
  if a < 0x10000 then some (BitVec.ofNat 64 (leAt (recBytes32 (cellGet 0 m.store.ring (a / 4))) (a % 4 * 8) 8))
  else if a < 0x14000 then some (BitVec.ofNat 64 (leNat ((List.range 8).map (fun i => m.store.traceByte ((a - 0x10000) * 8 + i)))))
  else none

/-- NVP_RAW_READ (R299, Table NVP.7): a write to NVP_RD_ADDR reads the word uncorrected; contents that the spec does not give
are a free value. -/
def State.rawRead (s : State) (addr : Word) : State :=
  let shadow := addr.getLsbD 31
  let a := bits addr.toNat 19 3
  let s0 := (s.setFld F.NVP_RD_ADDR.array (b2n shadow)).setFld F.NVP_RD_ADDR.word a
  let e : BitVec 72 := if shadow then cellGet 0 s.nvp.shErr a else if a < 32768 then (s.nvpCell a).err else 0
  let known := if shadow then s.nvp.image.bind (fun m => m.word a) else if a < 32768 then some (s.nvpCell a).data else none
  let d := known.getD s0.free
  let s1 := if known.isSome then s0 else s0.drawn
  let chk := checkOf d ^^^ (e >>> 64).setWidth 8
  let syn : BitVec 8 := if e = 0 then 0 else Config.syndrome e
  let s2 := s1.modNvp (fun v => { v with rd := d ^^^ errData e, rdSyn := BitVec.ofNat 16 (syn.toNat * 256 + chk.toNat) })
  if shadow then s2.eccShadow a e else if a < 32768 then s2.eccTouch a else s2

/-- NVP_RAW_READ. -/
def execNvpRawRead (addr : Word) (s : State) : Host.Outcome State Fault Refusal := ok (s.when (s.runs .mgt && s.exposed) (s.rawRead addr))

/-! ### Saves -/

/-- A save ends (R314, R316): SAVE_DONE where the unit has power; then REC enters the reset that waited for it, or a save that the
black box still waits for starts. -/
def State.saveEnd (s : State) (why : Nat) : State :=
  let lost := s.nvp.save.any (·.lost)
  let c := s.nvp.saveCnt.inc
  let s1 := (s.modNvp (fun v => { v with save := none, saveCnt := c })).satEv s.nvp.saveCnt c 0x12 0x3020
  let s2 := if s.aon.pf || lost then s1 else (s1.stick F.NVP_FLAG.save_done).fire 0x14 0x01 0 why
  match s2.nvp.recDue with
  | some cold => s2.recReset cold
  | none => if s2.bbx.saveAgain then (s2.modBbx (fun b => { b with saveAgain := false })).saveRequest 3 else s2

/-- Ring slot and sequence number of the next save (R310, R302); `after` names the slot where an hourly one was stopped before it
(R314). -/
def State.nextSlot (s : State) (after : Option Nat) : Nat × Nat :=
  match s.slotBest with
  | some (j, c) => (after.getD ((j + 1) % 16), c.seq + 1)
  | none => (after.getD 0, 1)

/-- Words put straight into the store array; a scrub write of the same word that waits is void. -/
def State.storeWords (s : State) (ws : List (Nat × BitVec 64)) : State :=
  let old (a : Nat) : Bool := ws.any (fun p => p.1 = a)
  s.modNvp (fun v => { v with
    store := ws.foldl (fun m p => cellPut ⟨0, 0⟩ m p.1 ⟨p.2, 0⟩) v.store
    buf := v.buf.filter (fun p => !old p.1), rest := v.rest.filter (fun p => !old p.1) })

/-- The words of a ring slot (R309). -/
def slotWords (j seq : Nat) (pl : List Byte) : List (Nat × BitVec 64) := bytesWords (slotAdr j) (recBytes 0xF0 0 seq pl)

/-- RING_SLOT_COMPLETE (R309, R310): the slot is written, after an ordinary commit that runs (R314); a save without an image
ends. A sequence number that has no successor is refused as in R302. -/
def execRingSlotComplete (s : State) : Host.Outcome State Fault Refusal :=
  match s.nvp.save with
  | none => ok s
  | some v =>
    if v.slotDone || (s.nvp.commit.isSome && !s.nvp.stopped) then ok s
    else
      let (j, q) := s.nextSlot v.after
      let us := min 0xFFFF ((s.time - v.from_) / us1)
      let s1 := if q > 0xFFFFFFFFFFFF then
          let t := s.stick F.NVP_FLAG.seq_sat
          if 0xF0 ∈ s.nvp.seqSat then t else (t.modNvp (fun n => { n with seqSat := 0xF0 :: n.seqSat })).fire 0x13 0x03 0 0xF0
        else (s.storeWords (slotWords j q v.payload)).modNvp (fun n => { n with slot := j, why := v.why })
      let s2 := s1.modNvp (fun n => { n with sRing := us, save := n.save.map (fun x => { x with slotDone := true }) })
      ok (if v.image then s2 else s2.saveEnd v.why)

/-- The bytes of an image of the event store, in word order (R313). -/
def EvStore.bytes (e : EvStore) : List Byte :=
  (List.range 0x14000).flatMap (fun a => leBytes 8 (((Image.word ⟨0, 0, e, 0⟩ a).getD 0).toNat))

/-- The CRC-32 that an image's header holds (R313). -/
def EvStore.crc (e : EvStore) : Nat := crc32 e.bytes

/-- SAVE_COMPLETE (R313): the header is written and the save ends: the saving operating time, the CRC-32 and a seq for which the spec
gives no rule: a free value. -/
def execSaveComplete (us : Nat) (s : State) : Host.Outcome State Fault Refusal :=
  match s.nvp.save with
  | none => ok s
  | some v =>
    if !(v.image && v.slotDone) then ok s
    else
      let st := v.frozen.getD s.bbx.st
      ok ((s.drawn.modNvp (fun n => { n with
        image := some ⟨s.free.toNat % 2 ^ 48, v.opt, st, st.crc⟩, shErr := [], shScrub := [], sShadow := min 0xFFFF us })).saveEnd v.why)

/-- HOURLY_SAVE (R310): a ring slot without an image; refused while any save runs (R314). -/
def execHourlySave (s : State) : Host.Outcome State Fault Refusal :=
  ok (s.whenOp (s.runs .recI && !s.nvp.restoreDue) (s.nvp.hourAt + opHour) (fun s =>
    let s1 := s.modNvp (fun v => { v with hourAt := v.hourAt + opHour })
    if s.nvp.save.isSome then s1.stick F.NVP_FLAG.save_ref else s1.saveStart 1 false none))

/-- NVP_SAVE_REQUEST (R310): NVP_CTL.save. -/
def execNvpSaveRequest (s : State) : Host.Outcome State Fault Refusal := ok (s.when (s.runs .recI && s.exposed) (s.saveRequest 3))

/-! ### Power failure ridden through -/

/-- PF_RIDE (R308): PF_DET returns low and every supply has remained good; the commit resumes at the next unwritten word. -/
def execPfRide (s : State) : Host.Outcome State Fault Refusal :=
  let why := (s.nvp.save.map Save.why).getD s.nvp.why
  ok (s.when (s.aon.pf && s.aon.vaon && s.aon.pfGood)
    ((({ s with aon := { s.aon with pf := false } }.modNvp (fun v => { v with stopped := false })).stick F.NVP_FLAG.ride).fire
      0x14 0x02 0 why).nvpFlow)

/-! ### Restore at a cold start -/

/-- The value of a counter word: bit 31 sat, bits 23:0 count. -/
def ctrOfWord (n : Nat) : Ctr := ⟨n % 2 ^ 24, n / 2 ^ 31 % 2 = 1⟩

/-- The power-cycle count after a restore (R311). -/
def pcycNext (c : Ctr) : Ctr := c.inc

/-- NVP_RESTORE (R311): from the valid slot of the highest seq, or from 0 where none is valid. -/
def State.nvpRestore (s : State) : State :=
  let best := s.slotBest
  let s0 := (List.range 16).foldl (fun t j => t.eccRange (slotAdr j / 8) (s.slotCopy j).words) s
  match best with
  | some (j, c) =>
    let p := c.payload
    let why := leAt p 17 1
    let kept := s.aon.optKept
    let pc := pcycNext (if kept then s.aon.pcyc else ctrOfWord (leAt p 8 4))
    let s1 := { s0 with
      aon := { s0.aon with optBase := if kept then s0.aon.optBase else s0.aon.optBase + leAt p 0 6, optKept := true, pcyc := pc }
      bbx := { s0.bbx with seq := BitVec.ofNat 40 (leAt p 12 5) } }
    let s2 := s1.modNvp (fun v => { v with
      restoreDue := false, restored := true, slot := j, bbseq := BitVec.ofNat 40 (leAt p 12 5), slotBytes := some p,
      e := Vector.ofFn (fun (k : Fin 4) => (leAt p (20 + 12 * k.val) 8, leAt p (28 + 12 * k.val) 4)),
      hourAt := s1.opTime, scrubAt := s1.opTime })
    s2.fire 0x15 0x01 0 (j + 16 * why)
  | none =>
    let kept := s.aon.optKept
    let s1 := { s0 with aon := { s0.aon with optKept := true, pcyc := if kept then pcycNext s0.aon.pcyc else .zero } }
    (s1.modNvp (fun v => { v with restoreDue := false, restored := false, slotBytes := none, bbseq := 0, hourAt := s1.opTime,
                                  scrubAt := s1.opTime })).fire 0x15 0x02

/-- NVP_RESTORE (R311): during boot step 4 of a cold start. -/
def execNvpRestore (s : State) : Host.Outcome State Fault Refusal :=
  ok (s.when (!s.sys.inReset && s.nvp.restoreDue && decide (4 ≤ s.sys.step)) s.nvpRestore)

/-- The later of two black-box sequence numbers (16_black_box R322). -/
def laterSeq (a b : BitVec 40) : BitVec 40 :=
  let d := (b - a).toNat
  if 1 ≤ d ∧ d < 2 ^ 39 then b else a

/-- The record of the highest seq in a store under the serial arithmetic of R322: slot and seq. -/
def EvStore.latest (e : EvStore) : Option (Nat × BitVec 40) :=
  e.ring.foldl (fun b p =>
    let q := BitVec.ofNat 40 (recSeq p.2)
    match b with
    | none => some (p.1, q)
    | some (_, q0) => if laterSeq q0 q = q ∧ q ≠ q0 then some (p.1, q) else b) none

/-- A ream as a restored image returns it: sealed, with its watermark (16_black_box R330). -/
def Ream.restored (m : Ream) : Ream := if m.st = 0 then m else { m with st := 2, wmDone := true, ptr := 0 }

/-- SHADOW_IMAGE_RESTORE (R313): a valid image returns to the event store and the writer continues behind it
(16_black_box R330). -/
def State.imageRestore (s : State) : State :=
  let s0 := s.nvp.shErr.foldl (fun t p => t.eccShadow p.1 p.2) s
  let bad := s.nvp.shErr.any (fun p => decide (2 ≤ errCount p.2)) || s.nvp.image.any (fun m => m.crc != m.store.crc)
  let from_ := (s.nvp.slotBytes.map (fun p => s.nvp.slot + 16 * leAt p 17 1)).getD 0
  match s.nvp.image, bad with
  | some m, false =>
    let st := { m.store with reams := m.store.reams.map Ream.restored }
    let holder := (finsWhere 4 (fun r => st.reams[r].st ≠ 0 && st.reams[r].trace)).head?
    let (slot, seq) := match st.latest with
      | some (k, q) => ((k + 1) % 16384, laterSeq s.bbx.seq (q + 1))
      | none => (0, s.bbx.seq)
    let s1 := (s0.modNvp (fun v => { v with imageDue := false, shadowOk := true })).modBbx (fun b =>
      { b with st := st, slot := slot, seq := seq, oldest := [], holder := holder, post := none, armed := true })
    (s1.stick F.BBX_STAT.restored).ownRecord 0xD8 0x01 (BitVec.ofNat 64 m.seq) 8 false
  | _, _ => (s0.modNvp (fun v => { v with imageDue := false, shadowOk := false })).fire 0x15 0x03 0 from_

/-- SHADOW_IMAGE_RESTORE (R313): during boot step 4 of a cold start, after the ring slot. -/
def execShadowImageRestore (s : State) : Host.Outcome State Fault Refusal :=
  ok (s.when (!s.sys.inReset && s.nvp.imageDue && !s.nvp.restoreDue && decide (4 ≤ s.sys.step)) s.imageRestore)

/-! ### The full read -/

/-- Every word of both arrays is read: those in error have their effects (R315, R299). -/
def State.fullRead (s : State) : State :=
  let s1 := s.nvp.store.foldl (fun t p => t.eccTouch p.1) s
  let s2 := s.nvp.shErr.foldl (fun t p => t.eccShadow p.1 p.2) s1
  (s2.modNvp (fun v => { v with patrol := false, scrubAt := s.opTime })).nvpFlow

/-- May the full read go on: it pauses during commits and saves (R315). -/
def State.readFree (s : State) : Bool := s.nvp.commit.isNone && s.nvp.save.isNone

/-- NVP_SCRUB (R315): every 24 h of operating time, or one that was asked for and had to pause. -/
def execNvpScrub (s : State) : Host.Outcome State Fault Refusal :=
  let due := if s.nvp.patrol then 0 else s.nvp.scrubAt + 24 * opHour
  ok (s.whenOp (s.runs .recI) due (fun s => if s.readFree then s.fullRead else s.modNvp (fun v => { v with patrol := true })))

/-- NVP_SCRUB_REQUEST (R315): NVP_CTL.scrub. -/
def execNvpScrubRequest (s : State) : Host.Outcome State Fault Refusal :=
  ok (s.when (s.runs .recI && s.exposed) (if s.readFree then s.fullRead else s.modNvp (fun v => { v with patrol := true })))

end Sys2Proof.Machine
end

