-- ==== Sys2Proof/Machine/LoadCheck.lean ====
section
/-! DEFINITION. The load-time checks (21_register_map R407): the ranges that the field tables give, and the rules across fields
that the chapters state (01_shelf R21, R22). A check reads the fields in force of a candidate state. A stated range is a
load-time rule whether or not its table adds "refused at load" (R407 takes SYS_WDT.ms so; log 23). -/

namespace Sys2Proof.Machine

/-- A range of a field: the register, its lowest bit and width, the least and the largest value accepted. -/
structure FldRange where
  reg : RegId
  lo : Nat
  width : Nat
  min : Nat
  max : Nat
deriving DecidableEq, Repr

/-- The ranges of the field tables. -/
def ranges : List FldRange :=
  [⟨.SYS_BOOT, 0, 16, 10, 100⟩, ⟨.SYS_WDT, 0, 16, 10, 10000⟩, ⟨.SNS_PH_SMP, 0, 2, 0, 1⟩, ⟨.LAW_CFG, 26, 2, 0, 2⟩,
   ⟨.LAW_CFG, 0, 16, 500, 65535⟩, ⟨.SCH_VAR, 16, 3, 0, 4⟩, ⟨.SCH_FE_CFG, 16, 3, 0, 6⟩, ⟨.SCH_FE_CFG, 0, 16, 0, 0x7FFF⟩,
   ⟨.PWM_SYNC_CFG, 8, 5, 1, 20⟩, ⟨.PWM_SYNC_CFG, 0, 6, 1, 50⟩, ⟨.RAIL_PER, 0, 21, 21334, 1280000⟩, ⟨.RAIL_CFG, 30, 2, 0, 2⟩,
   ⟨.RAIL_SS, 0, 20, 1, 1048575⟩, ⟨.RAIL_SSFE, 0, 16, 0, 0x7FFF⟩, ⟨.RAIL_TRK, 30, 2, 0, 2⟩, ⟨.RAIL_SNSF, 12, 4, 1, 15⟩,
   ⟨.HBX_RANGE, 0, 4, 0, 8⟩, ⟨.HBX_SRC_CFG, 24, 2, 0, 2⟩, ⟨.DKL_SETTLE, 0, 8, 1, 255⟩, ⟨.DKL_LD_CFG, 16, 4, 0, 8⟩] ++
  [⟨.BAT_CFG, 0, 2, 0, 2⟩, ⟨.BAT_VBAND, 16, 16, 1, 65535⟩, ⟨.BAT_LRN, 16, 16, 1, 65535⟩, ⟨.BAT_LRN, 0, 4, 2, 8⟩,
   ⟨.SLT_CFG, 8, 8, 1, 255⟩, ⟨.SLT_CFG, 0, 4, 1, 15⟩, ⟨.RED_HB, 0, 16, 1, 1000⟩, ⟨.RED_SBY, 16, 8, 1, 100⟩,
   ⟨.RED_SBY, 0, 16, 1, 65535⟩, ⟨.RED_XCHK, 8, 8, 1, 255⟩, ⟨.RED_DRILL, 0, 16, 10, 65535⟩, ⟨.RED_ARB, 0, 16, 100, 65535⟩,
   ⟨.SEQ_CFG, 0, 4, 1, 15⟩, ⟨.SEQ_RSDLY, 0, 16, 1000, 65535⟩, ⟨.SEQ_N_CFG, 24, 2, 0, 2⟩, ⟨.SEQ_N_CFG, 0, 4, 1, 15⟩,
   ⟨.SEQ_N_TIM, 16, 16, 1, 65535⟩, ⟨.SEQ_N_FALL, 0, 16, 1, 65535⟩, ⟨.THM_S_ROC, 0, 6, 1, 60⟩, ⟨.BBX_CFG, 16, 12, 0, 3999⟩,
   ⟨.BBX_CFG, 0, 4, 1, 8⟩, ⟨.UPD_CTL, 8, 3, 1, 7⟩, ⟨.UPD_TRIAL, 0, 32, 1000, 3600000⟩, ⟨.TWP_CFG, 28, 2, 0, 2⟩,
   ⟨.TWP_CFG, 8, 6, 1, 32⟩, ⟨.TWP_TIM, 16, 10, 20, 1000⟩, ⟨.TWP_TIM, 0, 6, 25, 35⟩]

/-- Does a word of a register keep the register's ranges? -/
def inRanges (r : RegId) (w : Word) : Bool :=
  ranges.all (fun g => g.reg != r || (let v := (w.toNat >>> g.lo) % 2 ^ g.width; decide (g.min ≤ v) && decide (v ≤ g.max)))

/-- A rule across fields: the registers it reads, and the condition. -/
structure LoadRule where
  regs : List RegId
  ok : State → Bool

/-- Phases assigned to a rail by PWM_PH_CFG as written. -/
def State.cfgPhases (s : State) (n : Nat) : List Nat :=
  (List.range 24).filter (fun j => s.bit (F.PWM_PH_CFG.asg j) && s.fld (F.PWM_PH_CFG.rail j) = n)

/-- Are the values of a list all equal? -/
def allEq {α : Type} [DecidableEq α] : List α → Bool
  | [] => true
  | a :: l => l.all (fun b => b = a)

/-- Is no value listed twice? -/
def noDup (l : List Nat) : Bool := decide l.Nodup

/-- R8, R79: at most seven phases, alike in full scale and inversion. -/
def okPhases (s : State) : Bool :=
  (List.range 8).all (fun n =>
    let ph := s.cfgPhases n
    decide (ph.length ≤ 7) && allEq (ph.map (fun j => (s.fld (F.SNS_CH_FS.fs j), s.fld (F.SNS_CH_USEROFF.inv j)))))

/-- R82, R84: dead times of a rail's phases against half its period; the fuse floor counts (13_fuse Table OTP.2). -/
def okDeadTimes (s : State) : Bool :=
  (List.range 8).all (fun n => (s.cfgPhases n).all (fun j =>
    let floor := 64 * s.otp.live.dtFloor
    decide (2 * (max (s.fld (F.PWM_PH_DT.dtr j)) floor + max (s.fld (F.PWM_PH_DT.dtf j)) floor) < s.fld (F.RAIL_PER.per n))))

/-- R93, for the rails that shed. -/
def okShed (s : State) : Bool :=
  (List.range 8).all (fun n =>
    !s.bit (F.RAIL_CFG.shed_en n) ||
      (decide (s.fld (F.RAIL_SHED.shed_lvl n) < s.fld (F.RAIL_SHED.add_lvl n)) && decide (1 ≤ s.fld (F.RAIL_CFG.min_ph n)) &&
        decide (s.fld (F.RAIL_CFG.min_ph n) ≤ (s.cfgPhases n).length)))

/-- R95: Ts at both limits of the SYNC_IN window lies in the range of R82. -/
def okSync (s : State) : Bool :=
  (List.range 8).all (fun n =>
    let ts (pct : Nat) : Int := rdiv ((s.fld F.PWM_SYNC_NOM.nom * pct * (s.fld (F.RAIL_SYNC.den_m1 n) + 1) : Nat))
      ((100 * (s.fld (F.RAIL_SYNC.num_m1 n) + 1) : Nat))
    let inR (t : Int) : Bool := decide (21334 ≤ t) && decide (t ≤ 1280000)
    let w := s.fld F.PWM_SYNC_CFG.win
    !s.bit (F.RAIL_SYNC.sync_en n) || (inR (ts (100 - w)) && inR (ts (100 + w))))

/-- The rail that a tracking rail follows. -/
def State.leadOf (s : State) (n : Nat) : Option Nat :=
  if s.fld (F.RAIL_TRK.mode n) ≠ 0 ∧ !s.bit (F.RAIL_TRK.src n) then some (s.fld (F.RAIL_TRK.leader n)) else none

/-- R99: following leaders from a rail ends within eight steps. -/
def State.leadEnds (s : State) : Nat → Nat → Bool
  | 0, _ => false
  | k + 1, n => match s.leadOf n with
    | none => true
    | some m => s.leadEnds k m

/-- R99: leaders form no cycle. -/
def okLeaders (s : State) : Bool := (List.range 8).all (fun n => s.leadEnds 9 n)

/-- The duty that an engine names. -/
def State.dutyOf (s : State) (e : Nat) : Option Nat :=
  if s.fld (F.LAW_DST.dest_sel e) = 1 then some (s.fld (F.LAW_DST.dest_idx e)) else none

/-- R46, destinations. -/
def okDest (s : State) : Bool :=
  noDup ((List.range 20).filterMap s.dutyOf) &&
  (List.range 20).all (fun e =>
    (match s.dutyOf e with
      | some n => e ≥ 16 || n = e / 2
      | none => true) &&
    (s.fld (F.LAW_DST.dest_sel e) ≠ 2 || e = 16) && (s.fld (F.LAW_DST.dest_sel e) ≠ 3 || e = 17))

/-- R46, sources (Table LAW.1). -/
def okSources (s : State) : Bool :=
  (List.range 20).all (fun e =>
    let ri := s.fld (F.LAW_SRC.ref_idx e)
    let fi := s.fld (F.LAW_SRC.fb_idx e)
    (match s.fld (F.LAW_SRC.ref_sel e) with
      | 1 => decide (ri < 20) && ri != e
      | 2 | 3 => decide (ri < 8)
      | _ => true) &&
    (match s.fld (F.LAW_SRC.fb_sel e) with
      | 0 => decide (fi < 34)
      | 1 => decide (fi < 8)
      | 3 => decide (fi < 20) && fi != e
      | _ => true))

/-- Limits of LAW_LIM in order. -/
def okLimits (s : State) : Bool := (List.range 20).all (fun e => decide (s.sfld (F.LAW_LIM.out_lo e) ≤ s.sfld (F.LAW_LIM.out_hi e)))

/-- 04_gain Table SCH.1: the index of the schedule variable. -/
def okVar (s : State) : Bool :=
  (List.range 20).all (fun e =>
    let i := s.fld (F.SCH_VAR.var_idx e)
    match s.fld (F.SCH_VAR.var_sel e) with
    | 0 => decide (i < 34)
    | 1 | 2 => decide (i < 8)
    | 3 => decide (i < 48)
    | 4 => decide (i < 20) && i != e
    | _ => false)

/-- The pair of boundary i of an engine. -/
def State.bnd (s : State) (e i : Nat) : Int × Int :=
  let w := (s.word (0xC040 + 0x80 * e + 4 * i) 0).toNat
  (sgn 16 (w / 65536), sgn 16 w)

/-- R67. -/
def okBounds (s : State) : Bool :=
  (List.range 20).all (fun e =>
    let m := s.fld (F.SCH_CTL.nreg_m1 e)
    decide (s.fld (F.SCH_CTL.force_region e) ≤ m) &&
    (List.range m).all (fun i =>
      let (up, dn) := s.bnd e i
      let (up', dn') := s.bnd e (i + 1)
      decide (dn < up) && (decide (m ≤ i + 1) || (decide (up < up') && decide (dn < dn')))))

/-- R78: TRIP_RAIL only for an engine that drives a rail duty. -/
def okFeAct (s : State) : Bool :=
  (List.range 20).all (fun e => s.fld (F.SCH_FE_CFG.fe_act e) ≠ 4 || (s.fld (F.LAW_DST.dest_sel e) = 1 && e ≠ 16 && e ≠ 17))

/-- R108. -/
def okSrcs (s : State) : Bool :=
  allFin 40 (fun k =>
    let en := s.bit (F.HBX_SRC_CFG.en k)
    if h : k.val < 32 then
      let l := s.slt[k.val]
      !en || l.lstate != 2 || l.held.1.getLsbD 0
    else
      let n := k.val - 32
      let refs := (List.range 20).filter (fun e => s.fld (F.LAW_SRC.ref_sel e) = 2 && s.fld (F.LAW_SRC.ref_idx e) = n)
      if en then !(s.cfgPhases n).isEmpty && refs.any (fun e => e = 2 * n || e = 2 * n + 1) else refs.isEmpty)

/-- R116. -/
def okCap (s : State) : Bool :=
  !s.bit F.HBX_CTL.cap_en || (decide (0 < s.sfld F.HBX_VNOM.vnom) && decide (0 ≤ s.sfld F.HBX_FCAP.fcap))

/-- R126. -/
def okPeriod (s : State) : Bool := s.fld F.HBX_PERIOD.ticks ∈ [1, 2, 4, 10]

/-- R113, over the curves and fields in force. -/
def okCurves (s : State) : Bool := (curveFail s.fld s.hbx.active).isNone

/-- The enabled sources of a group. -/
def State.grpSrcs (s : State) (g : Nat) : List Nat :=
  (List.range 40).filter (fun k => s.bit (F.HBX_SRC_CFG.en k) && s.fld (F.HBX_SRC_CFG.grp k) = g)

/-- R129. -/
def okVat (s : State) : Bool :=
  let vmin := s.sfld F.VAT_VMIN.vmin
  let vmax := s.sfld F.VAT_VMAX.vmax
  let t : Int := s.fld F.VAT_TAPER.taper
  let src := s.grpSrcs 2
  !s.bit F.VAT_CFG.en ||
    (!src.isEmpty && src.all (fun k => decide (k < 32) || !s.bit (F.RAIL_CFG.type (k - 32))) && s.fld F.VAT_C.c != 0 &&
      decide (0 < vmin) && decide (vmin < vmax) && decide (0 < t) && decide (2 * t ≤ vmax - vmin))

/-- R131. -/
def okAdder (s : State) : Bool :=
  (List.range 4).all (fun j => decide (s.sfld (F.VAT_ADD.add (j + 1)) ≤ s.sfld (F.VAT_ADD.add j))) &&
    (List.range 5).all (fun j => decide (-0xFFFFF ≤ s.sfld (F.VAT_ADD.add j)) && decide (s.sfld (F.VAT_ADD.add j) ≤ 0xFFFFF))

/-- R134. -/
def okHu (s : State) : Bool :=
  decide (s.fld F.VAT_HU.enter_pct ≤ s.fld F.VAT_HU.exit_pct) && decide (s.fld F.VAT_HU.exit_pct ≤ 100)

/-- R137. -/
def okPfloor (s : State) : Bool := decide (0 < s.sfld F.VAT_PFLOOR.pfloor)

/-- R139. -/
def okLoads (s : State) : Bool :=
  (List.range 32).all (fun k =>
    let f := s.fld (F.DKL_LD_CFG.feed k)
    !s.bit (F.DKL_LD_CFG.en k) || (!s.bit (F.HBX_SRC_CFG.en k) && (f = 0 || !(s.cfgPhases (f - 1)).isEmpty)))

/-- R146. -/
def okFeeder (s : State) : Bool :=
  !(s.bit (F.LAW_CTL.en 17) && s.fld (F.LAW_SRC.fb_sel 17) = 2) || (decide (0 < s.sfld F.DKL_FPFS.fpfs) && s.fld F.DKL_FEFF.feff != 0)

/-- R150, and the limits of Table BAT.8 that compare two fields, for enabled strings. -/
def okStrings (s : State) : Bool :=
  let en := (List.range 8).filter (fun i => s.bit (F.BAT_CTL.en i))
  let storage := s.grpSrcs 1
  storage.all (fun k => decide (k < 32) || en.any (fun i => s.bit (F.BAT_CFG.rail_en i) && s.fld (F.BAT_CFG.rail i) = k - 32)) &&
  en.all (fun i =>
    (!s.bit (F.BAT_CFG.rail_en i) || storage.contains (32 + s.fld (F.BAT_CFG.rail i))) && s.fld (F.BAT_CAPNOM.mah i) != 0 &&
    decide (s.sfld (F.BAT_VEOD.mv i) < s.sfld (F.BAT_VEOC.mv i) - 2 * s.fld (F.BAT_VBAND.taper i)) &&
    decide (s.fld (F.BAT_CAPLIM.min i) ≤ 100) && decide (100 ≤ s.fld (F.BAT_CAPLIM.max i)) &&
    decide (s.fld (F.BAT_IFLOAT.ma i) ≤ s.fld (F.BAT_ICHG.ma i)) &&
    decide (s.sfld (F.BAT_TLIM.dis_lo i) < s.sfld (F.BAT_TLIM.dis_hi i)) &&
    decide (s.sfld (F.BAT_TLIM.chg_lo i) < s.sfld (F.BAT_TLIM.chg_hi i)))

/-- The contactor outputs (R173). -/
def State.contactors (s : State) : List Nat :=
  ((List.range 8).filter (fun i => s.bit (F.BAT_CFG.cgpio_en i))).map (fun i => s.fld (F.BAT_CFG.cgpio i))

/-- R173. -/
def okContactors (s : State) : Bool := noDup s.contactors

/-- The enabled nodes (R233). -/
def State.seqOn (s : State) : List Nat := (List.range 72).filter (fun k => s.bit (F.SEQ_N_CFG.en k))

/-- The parents of a node (R233). -/
def State.depsOf (s : State) (k : Nat) : List Nat :=
  (List.range 72).filter (fun p =>
    if p < 32 then bitAt (s.fld (F.SEQ_N_DEP0.dep k)) p
    else if p < 64 then bitAt (s.fld (F.SEQ_N_DEP1.dep k)) (p - 32)
    else bitAt (s.fld (F.SEQ_N_DEP2.dep k)) (p - 64))

/-- The nodes that remain when nodes whose parents have all been removed are removed again and again (R233). -/
def orderLeft (deps : Nat → List Nat) : Nat → List Nat → List Nat
  | 0, l => l
  | n + 1, l => orderLeft deps n (l.filter (fun k => (deps k).any (fun p => l.contains p)))

/-- The lowest-numbered node in a cycle of the enabled nodes (R233). -/
def State.cycleNode (s : State) : Option Nat := (orderLeft s.depsOf 72 s.seqOn).head?

/-- R233, but for the enable kinds. -/
def okGraph (s : State) : Bool :=
  s.cycleNode.isNone &&
  s.seqOn.all (fun k =>
    (s.depsOf k).all (fun p => s.bit (F.SEQ_N_CFG.en p)) && s.fld (F.SNS_CH_FS.fs (if k < 64 then 34 + k else 24 + (k - 64))) != 0 &&
    decide (s.sfld (F.SEQ_N_DN.mv k) < s.sfld (F.SEQ_N_UP.mv k)) && decide (s.sfld (F.SEQ_N_OFF.mv k) < s.sfld (F.SEQ_N_DN.mv k)))

/-- R234. -/
def okKinds (s : State) : Bool :=
  let named (kind : Nat) := (s.seqOn.filter (fun k => s.fld (F.SEQ_N_CFG.kind k) = kind)).map (fun k => s.fld (F.SEQ_N_CFG.en_idx k))
  let gpio := named 1
  noDup gpio && gpio.all (fun g => decide (g < 16) && !s.contactors.contains g) && noDup (named 2) &&
  (List.range 32).all (fun k => !s.bit (F.SLT_CTL.seq_en k) || (named 2).contains k) &&
  s.seqOn.all (fun k => (s.fld (F.SEQ_N_CFG.kind k) = 3) == decide (64 ≤ k))

/-- 12_thermal R251, R254. -/
def okThm (s : State) : Bool :=
  (List.range 48).all (fun k =>
    (decide (k < 32) || decide (s.fld (F.THM_S_CFG.src k) ≤ 1)) && decide (s.sfld (F.THM_S_LVL.warn k) < s.sfld (F.THM_S_LVL.trip k)) &&
    (s.bit (F.THM_S_CFG.rail_en k) || (s.fld (F.THM_S_CFG.trip_act k) != 4 && s.fld (F.THM_S_CFG.roc_act k) != 4)))

/-- 16_black_box R324: the codes of BBX_TRC_SEL. -/
def okTrace (s : State) : Bool :=
  (List.range 16).all (fun q =>
    let c := s.trcMap.toNat / 2 ^ (8 * q) % 256
    decide (c ≤ 0x21) || (decide (0x40 ≤ c) && decide (c ≤ 0x53)) || c == 0xFF)

/-- 19_two_wire R378: the address of a target port. -/
def okTaddr (s : State) : Bool :=
  (List.range 4).all (fun p =>
    let a := s.fld (F.TWP_CFG.taddr p)
    !s.bit (F.TWP_CFG.role p) || (decide (8 ≤ a) && decide (a < 0x78)))

/-- The rules across fields. -/
def loadRules : List LoadRule :=
  [⟨[.PWM_PH_CFG, .SNS_CH_FS, .SNS_CH_USEROFF], okPhases⟩, ⟨[.PWM_PH_CFG, .PWM_PH_DT, .RAIL_PER], okDeadTimes⟩,
   ⟨[.PWM_PH_CFG, .RAIL_CFG, .RAIL_SHED], okShed⟩, ⟨[.RAIL_SYNC, .PWM_SYNC_CFG, .PWM_SYNC_NOM], okSync⟩,
   ⟨[.RAIL_TRK], okLeaders⟩, ⟨[.LAW_DST], okDest⟩, ⟨[.LAW_SRC], okSources⟩, ⟨[.LAW_LIM], okLimits⟩, ⟨[.SCH_VAR], okVar⟩,
   ⟨[.SCH_CTL, .SCH_BND0, .SCH_BND1, .SCH_BND2, .SCH_BND3, .SCH_BND4, .SCH_BND5, .SCH_BND6], okBounds⟩,
   ⟨[.SCH_FE_CFG, .LAW_DST], okFeAct⟩, ⟨[.LAW_SRC, .PWM_PH_CFG, .HBX_SRC_CFG], okSrcs⟩,
   ⟨[.HBX_CTL, .HBX_VNOM, .HBX_FCAP], okCap⟩, ⟨[.HBX_PERIOD], okPeriod⟩,
   ⟨[.HBX_SRC_CFG, .HBX_SRC_MIN, .HBX_SRC_MAX, .HBX_SRC_X0, .HBX_RANGE], okCurves⟩] ++
  [⟨[.VAT_CFG, .VAT_C, .VAT_VMIN, .VAT_VMAX, .VAT_TAPER, .RAIL_CFG, .HBX_SRC_CFG], okVat⟩, ⟨[.VAT_ADD], okAdder⟩, ⟨[.VAT_HU], okHu⟩,
   ⟨[.VAT_PFLOOR], okPfloor⟩, ⟨[.DKL_LD_CFG, .PWM_PH_CFG, .HBX_SRC_CFG], okLoads⟩,
   ⟨[.DKL_FPFS, .DKL_FEFF, .LAW_CTL, .LAW_SRC], okFeeder⟩,
   ⟨[.BAT_CTL, .BAT_CFG, .BAT_CAPNOM, .BAT_VEOD, .BAT_VEOC, .BAT_VBAND, .BAT_CAPLIM, .BAT_IFLOAT, .BAT_ICHG, .BAT_TLIM, .HBX_SRC_CFG], okStrings⟩,
   ⟨[.BAT_CFG], okContactors⟩,
   ⟨[.SEQ_N_CFG, .SEQ_N_DEP0, .SEQ_N_DEP1, .SEQ_N_DEP2, .SEQ_N_UP, .SEQ_N_DN, .SEQ_N_OFF, .SNS_CH_FS], okGraph⟩,
   ⟨[.SEQ_N_CFG, .SLT_CTL, .BAT_CFG], okKinds⟩, ⟨[.THM_S_CFG, .THM_S_LVL], okThm⟩, ⟨[.BBX_TRC_SEL], okTrace⟩, ⟨[.TWP_CFG], okTaddr⟩]

/-- Where a register stands: the instance and the word within it that an offset names (R403). -/
def RegDesc.place (r : RegDesc) (off : Nat) : Option (Nat × Nat) :=
  if off < r.base ∨ off % 4 ≠ 0 then none
  else
    let d := off - r.base
    let e := if r.stride = 0 then 0 else d / r.stride
    let w := (d - e * r.stride) / 4
    if e < r.count ∧ w < r.sub then some (e, w) else none

/-- The register at an offset: its description, instance and word; none for reserved space (R404). -/
def regAt (off : Nat) : Option (RegDesc × Nat × Nat) := regMap.findSome? (fun r => (r.place off).map (fun p => (r, p.1, p.2)))

/-- Does one register of a candidate pass its own rules (R407)? -/
def State.checkReg (s : State) (r : RegId) (w : Word) : Bool := inRanges r w && loadRules.all (fun g => !g.regs.contains r || g.ok s)

/-- Does the whole configuration of a candidate pass every rule (R22)? Its listed words keep their ranges; a word not listed
holds its reset value, which does. -/
def State.checkAll (s : State) : Bool :=
  loadRules.all (fun g => g.ok s) &&
  s.regs.act.all (fun p => match regAt p.1 with
    | some (r, _, _) => inRanges r.id p.2
    | none => true)

end Sys2Proof.Machine
end

