-- ==== Sys2Proof/Machine/TwoWire.lean ====
section
/-! DEFINITION. The two-wire ports (19_two_wire_ports): controller and target operation (R378–R384), timeouts and recovery
(R385, R386), and the beacon (R387–R391). -/

namespace Sys2Proof.Machine

/-- One port replaced by its image. -/
def State.modTwp (s : State) (p : Fin 4) (f : TwPort → TwPort) : State := { s with twp := modAt s.twp p f }

/-- An event of port p with the address concerned (R392). -/
def State.twpEvent (s : State) (p : Fin 4) (cause addr : Nat) (hi : Int) : State := s.fire (0xD0 + p.val) cause addr hi

/-- Does a port take part: MGT runs, the port is enabled and no recovery has disabled it (R386)? -/
def State.twpOn (s : State) (p : Fin 4) : Bool := s.runs .mgt && s.bit (F.TWP_CFG.en p) && !s.twp[p].stuck && !s.twp[p].dead

/-- Is a port a controller (R380)? -/
def State.twpCtrl (s : State) (p : Fin 4) : Bool := !s.bit (F.TWP_CFG.role p)

/-- A port follows TWP_CFG.en: at a rise SDA is to be checked and a disabled port starts anew (R386). -/
def State.twpSync (s : State) (p : Fin 4) : State :=
  let en := s.bit (F.TWP_CFG.en p)
  if en = s.twp[p].enSeen then s
  else if en then s.modTwp p (fun t => { t with enSeen := true, check := true, dead := false, stuck := false, retries := 0 })
  else s.modTwp p (fun t => { t with enSeen := false })

/-- Byte k of a register array of 32-bit words. -/
def State.fldByte (s : State) (f : Nat → Fld) (k : Nat) : Byte := BitVec.ofNat 8 (s.fld (f (k / 4)) / 2 ^ (8 * (k % 4)))

/-- Bytes into TWP_DATA, from byte 0 on. -/
def State.putData (s : State) (p : Fin 4) (bs : List Byte) : State :=
  (bs.take 32).zipIdx.foldl (fun s b =>
    let f := F.TWP_DATA.data p (b.2 / 4)
    s.hwFld { f with lo := 8 * (b.2 % 4), width := 8 } b.1.toNat) s

/-- Result codes of TWP_STAT (Table TWP.10). -/
def twpCode : TwpOutcome → Nat
  | .ok _ => 1 | .nackAddr => 2 | .nackData => 3 | .arbFrame => 5 | .pecErr _ => 7

/-- A transaction completes with a result: done sets, and XFER_ERR fires unless the result is OK; an ARB_FRAME has a cause of
its own (R380, R382). -/
def State.twpDone (s : State) (p : Fin 4) (result addr : Nat) : State :=
  let s1 := (s.modTwp p (fun t => { t with xfer := none, result := result })).stick (F.TWP_STAT.done p)
  if result = 1 then s1
  else if result = 5 then s1.twpEvent p 0x02 addr s1.twp[p].arb.word.toNat
  else s1.twpEvent p 0x01 addr result

/-- An arbitration loss is counted (R382). -/
def State.arbLoss (s : State) (p : Fin 4) : State :=
  let c := s.twp[p].arb.inc
  (s.modTwp p (fun t => { t with arb := c })).satEv s.twp[p].arb c (0xD0 + p.val) (0x20014 + 0x100 * p.val)

/-- TWP_GO (R380, R386): a write to TWP_XFER; its go starts a transaction, is ignored while busy, and completes with STUCK
on a disabled port. -/
def execTwpGo (p : Fin 4) (val : Word) (s : State) : Host.Outcome State Fault Refusal :=
  if !(s.runs .mgt && s.exposed) then ok s
  else
    let v := val.toNat
    let s1 := ((s.setFld (F.TWP_XFER.addr p) (bits v 22 16)).setFld (F.TWP_XFER.rlen p) (bits v 13 8)).setFld (F.TWP_XFER.wlen p) (bits v 5 0)
    let t := s.twp[p]
    if !val.getLsbD 31 || t.xfer.isSome || !s.twpCtrl p then ok s1
    else if t.stuck || t.dead || !s.bit (F.TWP_CFG.en p) then ok (s1.twpDone p 8 (bits v 22 16))
    else
      let w := (List.range (min 32 (bits v 5 0))).map (s.fldByte (F.TWP_DATA.data p))
      ok (s1.modTwp p (fun t => { t with xfer := some (BitVec.ofNat 7 (bits v 22 16), w, min 32 (bits v 13 8)), tries := 0, wait_ := 0 }))

/-- TWP_ARB_RETRY (R381, R382, 20_guarantees R395): a loss; up to three retries, each after a random wait. -/
def execTwpArbRetry (p : Fin 4) (extra : Fin 8) (s : State) : Host.Outcome State Fault Refusal :=
  match s.twp[p].xfer with
  | none => ok s
  | some (a, _, _) =>
    if !(s.twpOn p && s.twpCtrl p && !s.twp[p].check) then ok s
    else
      let s1 := s.arbLoss p
      if 3 ≤ s.twp[p].tries then ok (s1.twpDone p 4 a.toNat)
      else ok (s1.modTwp p (fun t => { t with tries := t.tries + 1, wait_ := extra.val }))

/-- TWP_TRANSACTION_DONE (R380, R382). No transaction runs before SDA has been checked (R386); without PEC none fails. -/
def execTwpTransactionDone (p : Fin 4) (o : TwpOutcome) (s : State) : Host.Outcome State Fault Refusal :=
  match s.twp[p].xfer with
  | none => ok s
  | some (a, _, n) =>
    if !(s.twpOn p && s.twpCtrl p && !s.twp[p].check) then ok s
    else match o with
      | .ok bs => ok ((s.putData p (bs.take n)).twpDone p 1 a.toNat)
      | .pecErr bs => ok ((s.putData p (bs.take n)).twpDone p (if s.bit (F.TWP_CFG.pec p) then 7 else 1) a.toNat)
      | .arbFrame => ok ((s.arbLoss p).twpDone p 5 a.toNat)
      | o => ok (s.twpDone p (twpCode o) a.toNat)

/-- Bytes stored at the pointer of a target buffer, which moves on (R383). -/
def TwPort.store (t : TwPort) (bs : List Byte) : TwPort :=
  bs.foldl (fun t b => { t with trx := t.trx.set t.ptr.toNat b t.ptr.isLt, ptr := t.ptr + 1 }) t

/-- A completed write at a target: the pointer byte, then data (R383). -/
def TwPort.write (t : TwPort) : List Byte → TwPort
  | [] => t
  | b :: bs => { t with ptr := b.setWidth 6 }.store bs

/-- TWP_TARGET_WRITE (R383): stored unless its PEC fails. -/
def execTwpTargetWrite (p : Fin 4) (bytes : List Byte) (pec : Byte) (s : State) : Host.Outcome State Fault Refusal :=
  let a := s.fld (F.TWP_CFG.taddr p)
  let good := !s.bit (F.TWP_CFG.pec p) || crc8 (BitVec.ofNat 8 (2 * a) :: bytes) = pec.toNat
  if !(s.twpOn p && !s.twpCtrl p && good) then ok s
  else
    let s1 := (s.modTwp p (fun t => t.write bytes)).stick (F.TWP_STAT.rx p)
    ok (s1.twpEvent p 0x06 a s1.twp[p].ptr.toNat)

/-- n bytes of the transmit half from a place on, modulo 64, and with pec = 1 the PEC of a target's address byte and those bytes (R383).
TWP_TTX is its bytes 0 to 31; the others have no register and are 0 (log 11). -/
def State.twpSends (s : State) (p : Fin 4) (a from_ n : Nat) : List Byte :=
  let bs := (List.range n).map (fun k =>
    if (from_ + k) % 64 < 32 then s.fldByte (F.TWP_TTX.ttx p) ((from_ + k) % 64) else 0)
  bs ++ (if s.bit (F.TWP_CFG.pec p) then [BitVec.ofNat 8 (crc8 (BitVec.ofNat 8 (2 * a + 1) :: bs))] else [])

/-- A target has sent n bytes from a place on: the pointer stands after them. -/
def State.twpSent (s : State) (p : Fin 4) (from_ n : Nat) : State :=
  s.modTwp p (fun t => { t with ptr := BitVec.ofNat 6 (from_ + n), sent := s.twpSends p (s.fld (F.TWP_CFG.taddr p)) from_ n })

/-- TWP_TARGET_READ (R383): n bytes of the transmit half are sent from the pointer on. -/
def execTwpTargetRead (p : Fin 4) (n : Nat) (s : State) : Host.Outcome State Fault Refusal :=
  ok (s.when (s.twpOn p && !s.twpCtrl p) (s.twpSent p s.twp[p].ptr.toNat n))

/-- TWP_ATTN_REQUEST (R384, 20_guarantees R395): a target asks for attention. The winner sends from TWP_TTX at offset 0 as in
a read and its attn clears at the STOP; a loser asks again after a random wait. -/
def execTwpAttnRequest (p : Fin 4) (extra : Fin 8) (won : Option Nat) (s : State) : Host.Outcome State Fault Refusal :=
  if !(s.twpOn p && !s.twpCtrl p && s.bit (F.TWP_CTL.attn p)) then ok s
  else match won with
    | some n => ok (((s.twpSent p 0 n).modTwp p (fun t => { t with wait_ := 0 })).hwFld (F.TWP_CTL.attn p) 0)
    | none => ok (s.modTwp p (fun t => { t with wait_ := extra.val }))

/-- TWP_ATTENTION (R384): att_len bytes of the winner. -/
def execTwpAttention (p : Fin 4) (addr : BitVec 7) (bytes : List Byte) (s : State) : Host.Outcome State Fault Refusal :=
  let bs := bytes.take (s.fld (F.TWP_CFG.att_len p))
  let s1 := (s.modTwp p (fun t => { t with atta := addr, att := Vector.ofFn (fun (k : Fin 32) => bs.getD k.val 0) })).stick (F.TWP_STAT.att p)
  ok (s.when (s.twpOn p && s.twpCtrl p && s.bit (F.TWP_CFG.att_en p)) (s1.twpEvent p 0x05 addr.toNat (leAt bs 0 4)))

/-- TWP_TIMEOUT (R385): a controller completes with TIMEOUT and then checks SDA; a target discards a partial write. -/
def execTwpTimeout (p : Fin 4) (s : State) : Host.Outcome State Fault Refusal :=
  let a := (s.twp[p].xfer.map (fun x => x.1.toNat)).getD 0
  ok (s.when (s.twpOn p && s.twpCtrl p) ((s.twpDone p 6 a).modTwp p (fun t => { t with check := true })))

/-- A recovery attempt succeeds (R386). -/
def State.twpRecovered (s : State) (p : Fin 4) : State :=
  (s.modTwp p (fun t => { t with stuck := false, check := false })).twpEvent p 0x04 0 s.twp[p].retries

/-- A recovery attempt fails (R386): the port disables itself. -/
def State.twpStuck (s : State) (p : Fin 4) : State :=
  (s.modTwp p (fun t => { t with stuck := true, check := false, recAt := s.time, dead := decide (8 ≤ t.retries) })).twpEvent p 0x03 0 s.twp[p].retries

/-- TWP_BUS_RECOVERY (R386): SDA is checked before any transaction, with up to nine pulses where it is low. -/
def execTwpBusRecovery (p : Fin 4) (pulses : Nat) (sdaHigh : Bool) (s : State) : Host.Outcome State Fault Refusal :=
  if !(s.twpOn p && s.twpCtrl p && s.twp[p].check) then ok s
  else if !sdaHigh then ok ((s.modTwp p (fun t => { t with retries := 0 })).twpStuck p)
  else if pulses = 0 then ok (s.modTwp p (fun t => { t with check := false }))
  else ok (s.twpRecovered p)

/-- TWP_RECOVERY_RETRY (R386): every 100 ms, up to eight times. -/
def execTwpRecoveryRetry (p : Fin 4) (sdaHigh : Bool) (s : State) : Host.Outcome State Fault Refusal :=
  let t := s.twp[p]
  ok (s.whenAt (s.runs .mgt && s.bit (F.TWP_CFG.en p) && s.twpCtrl p && t.stuck && !t.dead) (t.recAt + 100 * ms1) (fun s =>
    let s1 := s.modTwp p (fun t => { t with retries := t.retries + 1 })
    if sdaHigh then s1.twpRecovered p else s1.twpStuck p))

/-! ### The beacon -/

/-- An enabled sensor is in trip. -/
def State.thmTrip (s : State) : Bool := anyFin 48 (fun k => s.bit (F.THM_S_CFG.en k) && s.thm.s[k].trip)

/-- The seq field of the beacon word (Table TWP.3). -/
def State.bcnSeq (s : State) : Nat :=
  if s.aon.transport then 9
  else if s.sys.step = 15 then 8
  else if s.sys.inReset || s.sys.step != 10 || s.sys.role = .arbiter then 7
  else s.seq.st

/-- The beacon word now (Table TWP.3). -/
def State.beaconWord (s : State) : BitVec 16 :=
  let role := if s.sys.inReset || s.aon.transport then 0 else s.sys.role.code
  let thermal := if s.aon.sd then 3 else if s.thmTrip then 2 else if s.thmWarn then 1 else 0
  BitVec.ofNat 16 (role * 2 ^ 13 + s.aon.hb % 4 * 2 ^ 11 + s.aon.bcnFault % 16 * 2 ^ 7 + thermal * 2 ^ 5 + s.bcnSeq * 2 + b2n s.aon.bcnAttn)

/-- TWB's address (R387). -/
def State.beaconAddr (s : State) : Nat := 0x5C + 2 * b2n s.aon.soloBall + b2n s.aon.unitBall

/-- BEACON_READ (R388): the word is latched at the ACK of the address. -/
def execBeaconRead (s : State) : Host.Outcome State Fault Refusal :=
  ok (s.when s.aon.vaon (s.modAon (fun a => { a with bcnWord := s.beaconWord })))

/-- The CRC-4 of a command word, over bits 15:4, the highest first (R390). -/
def bcnCrc (w : BitVec 16) : Nat := ((List.range 12).map (fun i => w.getLsbD (15 - i))).foldl (crcBit 4 0x3) 0xF

/-- The code of a well-formed command word of Table TWP.4; 0 for any other word. -/
def bcnCode (w : BitVec 16) : Nat :=
  let c := bits w.toNat 15 12
  if bits w.toNat 11 8 = 15 - c ∧ bits w.toNat 7 4 = 0 ∧ bits w.toNat 3 0 = bcnCrc w ∧ 1 ≤ c ∧ c ≤ 4 then c else 0

/-- Does MGT run its program, so that beacon events fire (R390, Table TWP.5)? -/
def State.mgtUp (s : State) : Bool := s.runs .mgt && decide (6 < s.sys.step) && s.sys.step != 15

/-- An event of TWB fires, or waits until MGT runs (R390). -/
def State.bcnEvent (s : State) (cause : Nat) (w : BitVec 16) : State :=
  if s.mgtUp then s.fire 0xD4 cause s.beaconAddr w.toNat else s.modAon (fun a => { a with bcnEv := a.bcnEv ++ [(cause, w)] })

/-- Beacon events that waited fire (R390). -/
def State.bcnFlush (s : State) : State :=
  s.aon.bcnEv.foldl (fun t e => t.fire 0xD4 e.1 s.beaconAddr e.2.toNat) (s.modAon (fun a => { a with bcnEv := [] }))

/-- A command word was taken, with its result (R390, Table TWP.7). -/
def State.bcnTaken (s : State) (w : BitVec 16) (result cause : Nat) : State :=
  (s.modAon (fun a => { a with bcnCmd := w, bcnStat := result })).bcnEvent cause w

/-- AON acts as DEMOTE (R390): as DEMOTE_N low for 100 µs; no effect in ARBITER or where DEMOTE_N is low. -/
def State.bcnDemote (s : State) : State :=
  if s.ballArbiter || s.aon.demoted then s else { s with aon := { s.aon with bcnLow := true, bcnLowAt := s.time } }.demoteNow

/-- BEACON_DEMOTE (R390, R391). -/
def execBeaconDemote (word : BitVec 16) (s : State) : Host.Outcome State Fault Refusal :=
  let nop := s.ballArbiter || s.aon.demoted
  ok (s.when (s.aon.vaon && bcnCode word = 1) (s.bcnDemote.bcnTaken word (if nop then 2 else 1) 0x07))

/-- BEACON_DEMOTE_END (R390): return follows DEMOTE_N where that is low (R391). -/
def execBeaconDemoteEnd (s : State) : Host.Outcome State Fault Refusal :=
  ok (s.whenAt s.aon.bcnLow (s.aon.bcnLowAt + 100 * us1) (fun s =>
    let s1 := s.modAon (fun a => { a with bcnLow := false })
    if s.aon.pinLow || !s.aon.demoted then s1 else s1.demoteOff))

/-- BEACON_SAFE_SHUTDOWN (R390, R391): as SEQ_CTL.stop, and watched. -/
def execBeaconSafeShutdown (word : BitVec 16) (s : State) : Host.Outcome State Fault Refusal :=
  if !(s.aon.vaon && bcnCode word = 2) then ok s
  else if s.aon.sd || s.aon.transport || s.seq.st = 4 || s.seq.st = 6 then ok (s.bcnTaken word 2 0x07)
  else
    let s1 := if s.seqRuns && s.drives then s.shelfShutdown 1 else s
    ok ((s1.modAon (fun a => { a with bcnSafe := some (s.time, s1.seq.st = 4) })).bcnTaken word 1 0x07)

/-- BEACON_SHUTDOWN_TIMEOUT (R390): SHUTDOWN is not read within 1 ms, or neither IDLE nor RESTART_WAIT within 10 s. -/
def execBeaconShutdownTimeout (s : State) : Host.Outcome State Fault Refusal :=
  match s.aon.bcnSafe with
  | none => ok s
  | some (t, seen) =>
    let off (s : State) : State := s.modAon (fun a => { a with bcnSafe := none })
    let q := s.bcnSeq
    if !seen then
      ok (s.whenAt true (t + ms1) (fun s =>
        if q = 4 then s.modAon (fun a => { a with bcnSafe := some (t, true) }) else (off s).bcnDemote))
    else if q = 0 ∨ q = 5 then ok (off s)
    else ok (s.whenAt true (t + 10 * sec1) (fun s => (off s).bcnDemote))

/-- BEACON_SAVE (R390, R391): a save with cause 5. -/
def execBeaconSave (word : BitVec 16) (s : State) : Host.Outcome State Fault Refusal :=
  if !(s.aon.vaon && bcnCode word = 3) then ok s
  else if !s.runs .recI then ok (s.bcnTaken word 3 0x07)
  else ok ((s.saveRequest 5).bcnTaken word (if s.nvp.save.isSome then 3 else 1) 0x07)

/-- BEACON_CLEAR_ATTN (R390). -/
def execBeaconClearAttn (word : BitVec 16) (s : State) : Host.Outcome State Fault Refusal :=
  ok (s.when (s.aon.vaon && bcnCode word = 4) (s.sumClear.bcnTaken word 1 0x07))

/-- BEACON_BAD_WORD (R390). -/
def execBeaconBadWord (word : BitVec 16) (s : State) : Host.Outcome State Fault Refusal :=
  ok (s.when (s.aon.vaon && bcnCode word = 0) (s.bcnTaken word 4 0x08))

end Sys2Proof.Machine
end

