-- ==== Sys2Proof/Machine/RegRead.lean ====
section
/-! DEFINITION. Registers as a read returns them (21_register_map R404, R406, with the field tables of every chapter): the
fields that hardware shows, beside those that software writes. Reads happen within commands: telemetry (18_host_rings R368) and
the latched pairs (R410). -/

namespace Sys2Proof.Machine

/-- The entry of a vector at a number, shown by f; 0 beyond its end. -/
def showAt {α : Type} {n : Nat} (v : Vector α n) (i : Nat) (f : α → Nat) : Nat := if h : i < n then f v[i] else 0

/-- A signed value in 32 bits. -/
def i32 (v : Int) : Nat := toBits 32 v
/-- A signed value in 16 bits. -/
def i16 (v : Int) : Nat := toBits 16 v
/-- A value in 32 bits, or the word for "none". -/
def optI32 (o : Option Int) : Nat := match o with
  | some v => i32 v
  | none => 0x7FFFFFFF
/-- The bits of a predicate over 32 numbers from a first one on. -/
def maskFrom (first : Nat) (p : Nat → Bool) : Nat := bitsOf ((List.range 32).map (fun k => p (first + k)))

/-- Hardware fields of SYS and EVT (Table SYS.9–SYS.11, Table EVT.1). -/
def State.showSys (s : State) (r : RegId) (e : Nat) : Nat :=
  let y := s.sys
  match r with
  | .SYS_ID => 0x48802000 + Config.romVersion.toNat
  | .SYS_LOCK => b2n y.lock
  | .SYS_STAT => y.step * 2 ^ 28 + y.rstCause * 2 ^ 24 + b2n y.lone * 2 ^ 20 + b2n y.restricted * 2 ^ 19 + b2n y.cfgFail * 2 ^ 18 +
      b2n y.recovery * 2 ^ 17 + b2n y.bank * 2 ^ 16 + y.stFail.toNat * 2 ^ 8
  | .SYS_MODE => y.mode * 2 ^ 28 + y.prev * 2 ^ 24 + (y.pend.getD 15) * 2 ^ 20 + b2n s.regs.stage.isSome * 2 ^ 19
  | .SYS_STRAP => b2n y.strapSolo * 2 + b2n y.strapUnit
  | .SYS_BOOT_US => y.bootUs
  | .SYS_WARMCNT => y.warmCnt.word.toNat
  | .EVT_SUM => s.evt.sev * 2 ^ 28 + s.evt.src * 2 ^ 16 + s.evt.cnt.count
  | .EVT_TRIPST => s.aon.tripEvt.toNat * 2 ^ 16 + s.aon.tripSd.toNat * 2 ^ 8 + s.aon.tripSeq.toNat
  | .EVT_VEC => showAt s.evt.vcnt e (fun c => c.count * 2 ^ 16)
  | _ => 0

/-- Hardware fields of OTP (Table OTP.6–OTP.9); the latched ones read 0 until the fuse latch (R406). -/
def State.showOtp (s : State) (r : RegId) : Nat :=
  let o := s.otp
  let v := o.live
  let lat (n : Nat) := if o.latched then n else 0
  match r with
  | .OTP_STAT => b2n o.cmd.isSome * 2 ^ 31 + b2n o.arm * 2 ^ 30 + b2n o.rawOff * 2 ^ 29 + b2n o.latched * 2 ^ 28 +
      b2n o.lockInc * 2 ^ 27 + o.lock.toNat * 2 ^ 16 + o.fail.toNat * 2 ^ 8 + o.blank.toNat
  | .OTP_CTL => b2n o.arm
  | .OTP_CMD => o.result * 2 ^ 28 + o.why * 2 ^ 24
  | .OTP_RDATA => o.rdata.toNat
  | .OTP_MASK => o.mask.toNat
  | .OTP_CEIL => lat (v.ceilNeg * 2 ^ 16 + v.ceilPos)
  | .OTP_DTF => lat (64 * v.dtFloor)
  | .OTP_ROLE => lat (v.pairId.toNat * 2 ^ 16 + v.unitFix * 16 + b2n v.noPeer * 8 + b2n v.denyArb * 4 + b2n v.denySolo * 2 + b2n v.denyActive)
  | .OTP_SEC => lat (v.auth * 2 ^ 8 + v.key * 16 + b2n v.dbgLock)
  | .OTP_THERMO => lat (v.v1 * 2 ^ 16 + v.v0)
  | .OTP_MARG_ADDR => o.margAddr
  | .OTP_MARG_BITS => o.margBits.toNat
  | .OTP_PULSES => o.pulses.word.toNat
  | _ => 0

/-- Hardware fields of NVP (Table NVP.7, Table NVP.9). -/
def State.showNvp (s : State) (r : RegId) (e : Nat) : Nat :=
  let n := s.nvp
  match r with
  | .NVP_STAT => b2n n.commit.isSome * 2 ^ 31 + b2n n.save.isSome * 2 ^ 30 + b2n s.aon.pf * 2 ^ 29 + b2n n.patrol * 2 ^ 28 +
      n.why * 2 ^ 24 + n.slot * 2 ^ 20 + b2n n.shadowOk * 2 ^ 19 + b2n n.restored * 2 ^ 18 + 8 * n.held
  | .NVP_CTIME => n.cWorst * 2 ^ 16 + n.cLast
  | .NVP_STIME => n.sRing * 2 ^ 16 + n.sShadow
  | .NVP_CECNT => n.ce.word.toNat
  | .NVP_UECNT => n.ue.word.toNat
  | .NVP_TWINCNT => n.twin.word.toNat
  | .NVP_SAVECNT => n.saveCnt.word.toNat
  | .NVP_ERRADDR => n.errAddr.toNat
  | .NVP_RD_LO => n.rd.toNat % 2 ^ 32
  | .NVP_RD_HI => n.rd.toNat / 2 ^ 32
  | .NVP_RD_SYN => n.rdSyn.toNat
  | .NVP_PCYC => s.aon.pcyc.word.toNat
  | .NVP_E_LO => showAt n.e e (fun x => x.1 % 2 ^ 32)
  | .NVP_E_HI => showAt s.regs.nvpHi e BitVec.toNat
  | _ => 0

/-- Hardware fields of SNS (Table SNS.3, Table SNS.4). -/
def State.showSns (s : State) (r : RegId) (e : Nat) : Nat :=
  let ch (f : Fin 130 → Nat) : Nat := if h : e < 130 then f ⟨e, h⟩ else 0
  match r with
  | .SNS_STATUS => b2n s.sns.resumed * 4 + b2n (decide (s.sns64 = 0xFFFFFFFFFFFFFFFF)) * 2 + b2n (s.otp.latched && s.otp.fail.getLsbD 0)
  | .SNS_TIME_LO => s.sns64 % 2 ^ 32
  | .SNS_TIME_HI => s.regs.timeHi.toNat
  | .SNS_PH_SMP => showAt s.sns.idle e (fun b => b2n b * 2 ^ 31) + showAt s.sns.edgeNear e (fun b => b2n b * 2 ^ 30)
  | .SNS_CH_GAIN => ch (fun c => if s.otp.latched then i16 (s.trim c).1 * 2 ^ 16 else 0)
  | .SNS_CH_TRIMOFF => ch (fun c => if s.otp.latched then toBits 24 (s.trim c).2 else 0)
  | .SNS_CH_VAL => ch (fun c => i32 s.sns.ch[c].val)
  | .SNS_CH_TS => ch (fun c => s.sns.ch[c].ts.toNat)
  | .SNS_CH_RAW => ch (fun c => i32 s.sns.ch[c].raw)
  | _ => 0

/-- Word w of LAW_STATE (Table LAW.5). -/
def stateWord (v : Vector SecSt 8) (w : Nat) : Nat :=
  showAt v (w / 4) (fun x => match w % 4 with
    | 0 => i16 x.x1 * 2 ^ 16 + i16 x.x2
    | 1 => i16 x.y1 * 2 ^ 16 + i16 x.y2
    | 2 => i16 x.r
    | _ => 0)

/-- Hardware fields of LAW and SCH (Table LAW.5, Table LAW.9, Table SCH.4, Table SCH.7). SCH_STAT.len keeps the last L when no
crossfade is in progress (DESIGN CHOICE, log 71). -/
def State.showLaw (s : State) (r : RegId) (e w : Nat) : Nat :=
  if h : e < 20 then
    let g := s.law.eng[e]
    match r with
    | .LAW_OUT => i16 g.out * 2 ^ 16 + i16 g.eIn
    | .LAW_DLY => g.dlyWorst * 2 ^ 16 + g.dlyLast
    | .LAW_STAT => s.lawStat ⟨e, h⟩
    | .LAW_SKIP => g.skip.word.toNat
    | .LAW_TRK => g.mis.count * 2 ^ 16
    | .LAW_STATE => stateWord g.shownSt w
    | .LAW_COMMIT => bitsOf (s.law.eng.toList.map (fun g => g.commit != 0))
    | .SCH_STAT => g.tgt.val * 2 ^ 29 + g.xfFrom.val * 2 ^ 26 + b2n g.deferred * 2 ^ 25 + ((g.xf.map Xfade.k).getD 0) * 2 ^ 16 + g.xfLen
    | .SCH_VAL => i16 g.v * 2 ^ 16 + i16 g.vf
    | .SCH_FE_STAT => g.feCnt
    | .SCH_FE_FIRES => g.fires.word.toNat
    | .SCH_CNT => g.xcnt.word.toNat
    | _ => 0
  else 0

/-- Hardware fields of PWM and RAIL (Table PWM.1, Table RAIL.9, Table RAIL.12). -/
def State.showPwm (s : State) (r : RegId) (e : Nat) : Nat :=
  let ph (f : Fin 24 → Nat) : Nat := if h : e < 24 then f ⟨e, h⟩ else 0
  let rl (f : Fin 8 → Nat) : Nat := if h : e < 8 then f ⟨e, h⟩ else 0
  match r with
  | .PWM_PH_STAT => ph (fun j => s.pwm.ph[j].pstate * 2 ^ 29)
  | .PWM_PH_CBC => ph (fun j => s.pwm.ph[j].cbc.word.toNat)
  | .PWM_PH_OFS => ph (fun j => s.pwm.ph[j].ofs)
  | .PWM_PH_TRIM => ph (fun j => i16 s.pwm.ph[j].trim)
  | .PWM_SYNC_STAT => b2n s.pwm.g.syncValid * 2 ^ 31
  | .PWM_SYNC_PER => s.pwm.g.syncPer
  | .PWM_TRACK => s.trackWord
  | .RAIL_STAT => rl (fun n =>
      let q := s.pwm.rail[n]
      q.state * 2 ^ 29 + (s.driven n).length * 2 ^ 26 + q.sync * 2 ^ 24 + b2n q.derated * 2 ^ 23 + b2n q.capReq * 2 ^ 22 + q.cause * 2 ^ 8)
  | .RAIL_CAP => rl (fun n => i32 (s.railCap n))
  | .RAIL_IR => rl (fun n => i16 s.pwm.rail[n].r * 2 ^ 16 + i16 (satN 16 s.pwm.rail[n].ifl))
  | .RAIL_HIC => rl (fun n => s.pwm.rail[n].shorts.word.toNat + s.pwm.rail[n].h * 2 ^ 28)
  | _ => 0

/-- Hardware fields of HBX (Table HBX.8, Table HBX.12). -/
def State.showHbx (s : State) (r : RegId) (e : Nat) : Nat :=
  let h := s.hbx
  match r with
  | .HBX_STAT => h.path * 2 ^ 30 + b2n h.drt16 * 2 ^ 29 + b2n h.drt17 * 2 ^ 28
  | .HBX_COMMIT => b2n (h.commit != 0)
  | .HBX_GBASE => i32 s.gbase
  | .HBX_DEMAND => i32 h.demand
  | .HBX_GCAP => optI32 h.gcap
  | .HBX_GRID => i32 h.grid
  | .HBX_DEFICIT => i32 h.deficit
  | .HBX_SURPLUS => i32 h.surplus
  | .HBX_LAMBDA => h.lam[0]
  | .HBX_LAMBDA_G => h.lam[1]
  | .HBX_LAMBDA_N => h.lam[2]
  | .HBX_TIME => h.timeWorst * 2 ^ 16 + h.timeLast
  | .HBX_CAPCNT => h.capCnt.word.toNat
  | .HBX_DEFCNT => h.defCnt.word.toNat
  | .HBX_LATECNT => h.lateCnt.word.toNat
  | .HBX_SRC_ALLOC => showAt h.src e (fun x => i32 x.x)
  | .HBX_SRC_LO => showAt h.src e (fun x => i32 x.lo)
  | .HBX_SRC_HI => showAt h.src e (fun x => i32 x.hi)
  | .HBX_SRC_MEAS => showAt h.src e (fun x => i32 x.meas)
  | .HBX_SRC_STAT => showAt h.src e (fun x => bitsOf [x.atHi, x.atLo, x.ramp, x.tie, x.down, x.lost, x.seeded])
  | _ => 0

/-- Hardware fields of DKL and VAT (Table DKL.1, Table DKL.2, Table VAT.3). -/
def State.showDkl (s : State) (r : RegId) (e : Nat) : Nat :=
  let d := s.dkl
  let v := s.vat
  match r with
  | .DKL_STAT => bitsOf d.shedr.toList * 2 ^ 8 + b2n d.shed0 * 2 + b2n d.cut
  | .DKL_EXCESS => showAt d.fd e (fun f => i32 f.excess)
  | .DKL_RESID => showAt d.fd e (fun f => i32 f.resid)
  | .DKL_CUTCNT => d.cutCnt.word.toNat
  | .DKL_PG => i32 d.pg
  | .DKL_LD_CFG => showAt d.ld e (fun l => b2n l.held * 2 ^ 30)
  | .DKL_LD_CAP => showAt d.ld e (fun l => optI32 (l.c.map (satN 32)))
  | .DKL_LD_CODE => showAt d.ld e Load.code
  | .DKL_LD_MEAS => showAt d.ld e (fun l => i32 l.meas)
  | .VAT_V => i32 v.v
  | .VAT_ENERGY => i32 (v.eMj / 1000)
  | .VAT_FILL => v.phi
  | .VAT_ADDER => i32 v.a
  | .VAT_LIM_HI => i32 v.limHi
  | .VAT_LIM_LO => i32 v.limLo
  | .VAT_PF => i32 (v.pf.getD 0)
  | .VAT_TBR => v.tb
  | .VAT_TVAT => v.tv
  | .VAT_STAT => b2n v.hu * 2 ^ 31 + b2n v.walk * 2 ^ 30 + b2n v.full * 2 ^ 29 + b2n v.empty * 2 ^ 28
  | .VAT_HUCNT => v.huCnt.word.toNat
  | .VAT_GWALK => optI32 (if v.walk then some v.gwalk else none)
  | _ => 0

/-- The state of charge that BAT_SOC reports (08_battery R171), in 0.01 %. -/
def State.socShown (s : State) (i : Fin 8) : Nat :=
  let r := s.bRec i
  let q := if r.fcc = 0 then 0 else (clampI 0 10000 (r.qr / (r.fcc * 1440))).toNat
  if r.eod then q else max 100 q

/-- Hardware fields of BAT (Table BAT.8, Table BAT.10). -/
def State.showBat (s : State) (r : RegId) (e : Nat) : Nat :=
  if h : e < 8 then
    let i : Fin 8 := ⟨e, h⟩
    let x := s.bat.str[i]
    let c := s.bRec i
    let on (n : Nat) : Nat := if x.present then n else 0
    match r with
    | .BAT_STAT => x.code * 2 ^ 28 + b2n x.present * 2 ^ 27 + b2n x.valid * 2 ^ 26 + b2n (x.present && c.eod) * 2 ^ 25 +
        b2n (x.present && c.eoc) * 2 ^ 24 + b2n x.unanch * 2 ^ 23 + b2n x.guest * 2 ^ 22 + b2n x.ntcf * 2 ^ 21 +
        b2n (x.tlDis || x.tlChg) * 2 ^ 20 + b2n x.closed * 2 ^ 19
    | .BAT_SOC => if x.valid then on (s.socShown i) else 0
    | .BAT_P => on c.p
    | .BAT_V => i32 x.vb
    | .BAT_I => i32 x.ib
    | .BAT_T => i16 x.tb
    | .BAT_VCOMP => i32 x.vcomp
    | .BAT_UD => i32 x.ud
    | .BAT_Z => x.z.1 * 2 ^ 16 + x.z.2
    | .BAT_FCC => on c.fcc
    | .BAT_CYC => on c.cyc.word.toNat
    | .BAT_EREM => x.erem
    | .BAT_LIMDIS => i32 x.limDis
    | .BAT_LIMCHG => i32 x.limChg
    | .BAT_DEF => on c.deficit
    | .BAT_UNANCH => on (b2n (decide (0xFFFF ≤ c.unanchH)) * 2 ^ 31 + c.unanchH)
    | .BAT_LRNCNT => x.lrn.word.toNat
    | .BAT_LRNREJ => x.rej.word.toNat
    | .BAT_RS => i32 x.rs
    | _ => 0
  else 0

/-- Hardware fields of SLT (Table SLT.9, Table SLT.12). -/
def State.showSlt (s : State) (r : RegId) (e : Nat) : Nat :=
  showAt s.slt e (fun l =>
    let st (k : Nat) : Nat := b2n (l.status.getLsbD k)
    match r with
    | .SLT_STAT => l.lstate * 2 ^ 29 + st 0 * 2 ^ 28 + st 12 * 2 ^ 27 + st 15 * 2 ^ 26 + st 14 * 2 ^ 25 + b2n l.na * 2 ^ 24
    | .SLT_DECL => l.held.2.2.toNat * 2 ^ 8 + l.held.1.toNat
    | .SLT_FS => l.held.2.1
    | .SLT_US => l.follow.toNat * 2 ^ 16 + l.status.toNat
    | .SLT_I => l.i.toNat
    | .SLT_V => l.v.toNat
    | .SLT_T => l.t.toNat
    | .SLT_SP => l.froz.2.1.toNat * 2 ^ 16 + l.applied.toNat
    | .SLT_TX => l.froz.1.toNat * 2 ^ 16 + l.froz.2.2.2.1.toNat * 2 ^ 8
    | .SLT_CAPC => l.froz.2.2.1.toNat
    | .SLT_RXTS => l.rxts.toNat
    | .SLT_RTT => l.rttWorst * 2 ^ 16 + l.rttLast
    | .SLT_CRCERR => l.crcErr.word.toNat
    | .SLT_CVERR => l.cvErr.word.toNat
    | .SLT_LOSSCNT => l.lossCnt.word.toNat
    | .SLT_GAPCNT => l.gapCnt.word.toNat
    | .SLT_MBRTX => l.mbrtx.word.toNat
    | _ => 0)

/-- RED_STAT.link (Table RED.15). -/
def Link.code : Link → Nat
  | .down => 0 | .train => 1 | .oneLane => 2 | .up => 3

/-- Hardware fields of RED (Table RED.13, Table RED.15); what PER supplies reads 0 while PER is gated (R441). -/
def State.showRed (s : State) (r : RegId) : Nat :=
  let a := s.aon
  let d := s.red
  let per := s.runs .per
  match r with
  | .RED_STAT => s.sys.role.code * 2 ^ 29 + a.hb * 2 ^ 27 + b2n (per && d.ready) * 2 ^ 26 + b2n a.demoted * 2 ^ 25 +
      b2n (per && d.drill.isSome) * 2 ^ 24 + (if per then d.link.code else 0) * 2 ^ 22
  | .RED_CLAIM => (if per then d.peer.toNat else 0) * 2 ^ 24 + d.claim.toNat * 2 ^ 16 + a.epoch.toNat
  | .RED_TOFS => i32 d.tofs
  | .RED_SNAPCNT => d.snapCnt.word.toNat
  | .RED_SNAPERR => d.snapErr.word.toNat
  | .RED_XMIS => d.xmis.word.toNat
  | .RED_TAKECNT => a.takeCnt.word.toNat
  | .RED_DEMCNT => a.demCnt.word.toNat
  | .RED_ARB_STAT => s.arb.u[0].cls.code * 2 ^ 30 + s.arb.u[1].cls.code * 2 ^ 28 + s.arbOut
  | .RED_VERDCNT => s.arb.verdCnt.word.toNat
  | _ => 0

/-- Hardware fields of SEQ (Table SEQ.6, Table SEQ.9). -/
def State.showSeq (s : State) (r : RegId) (e : Nat) : Nat :=
  let q := s.seq
  match r with
  | .SEQ_STAT => q.st * 2 ^ 29 + q.cause * 2 ^ 24 + b2n q.goPend * 2 + b2n q.graphErr
  | .SEQ_OFFT => (q.allOffAt.map (fun t => min max32 ((s.time - t) / ms1))).getD 0
  | .SEQ_FAILCNT => q.failCnt.word.toNat
  | .SEQ_RSCNT => q.rsCnt.word.toNat
  | .SEQ_UPMASK => maskFrom (32 * e) (fun k => showAt q.n k (fun n => b2n (n.st = .up)) = 1)
  | .SEQ_FAILMASK => maskFrom (32 * e) (fun k => showAt q.n k (fun n => b2n (n.st = .failed || n.st = .blocked)) = 1)
  | .SEQ_N_STAT => showAt q.n e (fun n => n.st.code * 2 ^ 29 + b2n n.pg * 2 ^ 28 + b2n n.off * 2 ^ 27 + b2n n.en * 2 ^ 26 +
      n.cause * 2 ^ 16 + n.chat * 2 ^ 12)
  | _ => 0

/-- The hottest Tu of the on-die sensors, with the lowest sensor that shows it (THM_MAX). -/
def State.thmMax (s : State) : Int × Nat :=
  (List.finRange 32).foldl (fun b k =>
    let t := s.thm.s[(⟨k.val, by omega⟩ : Fin 48)].tu
    if b.1 < t then (t, k.val) else b) (s.thm.s[(0 : Fin 48)].tu, 0)

/-- Hardware fields of THM (Table THM.5, Table THM.7). -/
def State.showThm (s : State) (r : RegId) (e : Nat) : Nat :=
  let en (k : Fin 48) := s.bit (F.THM_S_CFG.en k)
  match r with
  | .THM_STAT => b2n (anyFin 48 (fun k => en k && s.thm.s[k].broken)) * 4 + b2n s.thmTrip * 2 + b2n s.thmWarn
  | .THM_SD => if s.otp.latched then i16 s.otp.live.tSd * 2 ^ 16 + i16 s.otp.live.tRs else 0
  | .THM_SD_LOG => s.aon.sdCount * 2 ^ 14 + s.aon.sdSensor * 2 ^ 8
  | .THM_SDCNT => s.aon.sdCnt.word.toNat
  | .THM_MAX => s.thmMax.2 * 2 ^ 16 + i16 s.thmMax.1
  | .THM_S_T => showAt s.thm.s e (fun x => i16 x.t * 2 ^ 16 + i16 x.tu)
  | .THM_S_STAT => showAt s.thm.s e (fun x => x.bcause * 2 ^ 28 + b2n x.broken * 2 ^ 27 + b2n x.subst * 2 ^ 26 + b2n x.trip * 2 ^ 25 +
      b2n x.warn * 2 ^ 24)
  | .THM_S_RAW => showAt s.thm.s e Sensor.raw
  | .THM_S_RISE => showAt s.thm.s e (fun x => i16 x.rise)
  | _ => 0

/-- Seconds of the lockout that are left, a part of one counted (BBX_AUTH). -/
def State.lockLeft (s : State) : Nat :=
  match s.bbx.lock with
  | some t => (t + 600 * 1024 - s.opTime + 1023) / 1024
  | none => 0

/-- Hardware fields of BBX (Table BBX.9, Table BBX.12). -/
def State.showBbx (s : State) (r : RegId) (e : Nat) : Nat :=
  let b := s.bbx
  match r with
  | .BBX_STAT => b2n b.op.isSome * 2 ^ 31 + b2n s.trcRun * 2 ^ 30 + (finsWhere 4 (fun k => b.st.reams[k].st != 0)).length * 2 ^ 27 +
      ((b.holder.map Fin.val).getD 0) * 2 ^ 25 + b2n b.holder.isSome * 2 ^ 24 + b2n b.armed * 2 ^ 23 +
      b2n (decide (s.opTime = 0xFFFFFFFFFFFF)) * 2 ^ 22 + b2n s.aon.pcyc.sat * 2 ^ 21
  | .BBX_NEXT_LO => b.seq.toNat % 2 ^ 32
  | .BBX_NEXT_HI => s.regs.bbxHi.toNat
  | .BBX_LIVE => b.st.live.length
  | .BBX_AUTH => b.result * 2 ^ 28 + b.fails % 4 * 2 ^ 26 + b2n b.nvalid * 2 ^ 25 + s.lockLeft
  | .BBX_NONCE => b.nonce.toNat / 2 ^ (32 * e) % 2 ^ 32
  | .BBX_REAM => showAt b.st.reams e (fun m => m.st * 2 ^ 30 + b2n m.trace * 2 ^ 29 + m.later * 2 ^ 16 + m.slots.length)
  | .BBX_REAM_SEQ => showAt b.st.reams e (fun m => m.sealSeq.toNat % 2 ^ 32)
  | .BBX_REAM_PTR => showAt b.st.reams e Ream.ptr
  | .BBX_SUPCNT => b.sup.word.toNat
  | .BBX_SEALMISS => b.sealMiss.word.toNat
  | .BBX_AUTHFAIL => b.authFail.word.toNat
  | .BBX_CLRCNT => b.clr.word.toNat
  | _ => 0

/-- UPD_STAT (Table UPD.12). -/
def State.updStat (s : State) : Nat :=
  let u := s.upd
  u.phase * 2 ^ 28 + u.result * 2 ^ 24 + u.reason * 2 ^ 16 + u.step % 256 * 2 ^ 8 + b2n (u.rec1.state = 2) * 2 + b2n u.rec1.bank

/-- HST_LINK (Table HST.12). -/
def State.linkWord (s : State) : Nat :=
  s.hst.gen.toNat * 2 ^ 28 + s.hst.width.toNat * 2 ^ 24 + b2n s.hst.up * 2 ^ 23 + b2n s.hst.d3hot * 2 ^ 22 + s.hst.ltssm.toNat

/-- Hardware fields of UPD, HST and TWP (Table UPD.10, Table HST.12, Table TWP.7, Table TWP.10). -/
def State.showHost (s : State) (r : RegId) (e w : Nat) : Nat :=
  let u := s.upd
  let h := s.hst
  match r with
  | .UPD_STAT => s.updStat
  | .UPD_EPOCH_LO => u.rec1.epoch.toNat % 2 ^ 32
  | .UPD_EPOCH_HI => s.regs.updHi.toNat
  | .UPD_PART => u.failing * 2 ^ 8 + u.verified
  | .UPD_SLOTS => u.slots.toNat
  | .UPD_DONECNT => u.doneCnt.word.toNat
  | .UPD_RBCNT => u.rbCnt.word.toNat
  | .HST_LINK => s.linkWord
  | .HST_RING_IDX => showAt h.ring e (fun g => g.tail * 2 ^ 16 + g.head)
  | .HST_RING_STAT => showAt h.ring e (fun g => b2n g.err * 2 ^ 31 + g.cause) + showAt h.cmd e (fun c => b2n c.isSome * 2 ^ 30)
  | .HST_EVDROP => h.evDrop.word.toNat
  | .HST_TELDROP => h.telDrop.word.toNat
  | .HST_TRCDROP => h.trcDrop.word.toNat
  | .HST_CPLDROP => h.cplDrop.word.toNat
  | .HST_CMDCNT => h.cmdCnt.word.toNat
  | .TWP_STAT => showAt s.twp e (fun t => b2n t.xfer.isSome * 2 ^ 31 + b2n (t.stuck || t.dead) * 2 ^ 30 + t.retries * 2 ^ 26 + t.result * 2 ^ 8)
  | .TWP_ARBCNT => showAt s.twp e (fun t => t.arb.word.toNat)
  | .TWP_ATTA => showAt s.twp e (fun t => t.atta.toNat)
  | .TWP_ATT => showAt s.twp e (fun t => leAt t.att.toList (4 * w) 4)
  | .TWP_TRX => showAt s.twp e (fun t => leAt t.trx.toList (4 * w) 4)
  | .TWP_BCN => s.aon.bcnCmd.toNat * 2 ^ 16 + s.beaconWord.toNat
  | .TWP_BCN_STAT => s.aon.bcnStat
  | _ => 0

/-- The fields that hardware shows in a register. -/
def State.shown (s : State) (r : RegId) (e w : Nat) : Nat :=
  s.showSys r e ||| s.showOtp r ||| s.showNvp r e ||| s.showSns r e ||| s.showLaw r e w ||| s.showPwm r e ||| s.showHbx r e |||
    s.showDkl r e ||| s.showBat r e ||| s.showSlt r e ||| s.showRed r ||| s.showSeq r e ||| s.showThm r e ||| s.showBbx r e |||
    s.showHost r e w

/-- A register's word: the fields that software wrote (the staged copy where HBX_CTL.view is 0, 06_headbox R112), W1C bits,
and what hardware shows. -/
def State.regWord (s : State) (d : RegDesc) (e w off : Nat) : Word :=
  let st := if d.shadow = .staged ∧ !s.bit F.HBX_CTL.view then (cellGet? s.regs.staged off).getD (BitVec.ofNat 32 d.rst)
            else s.word off (d.rstAt e)
  (st &&& BitVec.ofNat 32 (d.rw ||| d.rwl ||| d.rws)) ||| (cellGet 0 s.regs.sticky off &&& BitVec.ofNat 32 d.w1c) |||
    BitVec.ofNat 32 (s.shown d.id e w)

/-- The island that serves an address of BAR0; none for reserved space (R403, R404, Table SHF.6). -/
def islandAt (off : Nat) : Option Island :=
  if 0x40000 ≤ off ∧ off < 0x50000 then some .ctl
  else if 0x50000 ≤ off ∧ off < 0x51000 then some .dsp
  else if 0x58000 ≤ off ∧ off < 0x60000 then some .bat
  else if 0x80000 ≤ off ∧ off < 0x90000 then some .recI
  else if 0xF0000 ≤ off ∧ off < 0xF0808 then some .hst
  else (regAt off).map (fun p => p.1.island)

/-- A word of the impedance-table window (08_battery R158, Table BAT.3). -/
def State.batWindow (s : State) (o : Nat) : Word :=
  let z (x : Zent) : Word := BitVec.ofNat 32 (x.zs % 2 ^ 12 * 2 ^ 20 + x.zd % 2 ^ 12 * 2 ^ 8 + x.ageAt s.bat.ageTicks)
  if o < 0x5400 then z (s.idZent (o / 0x540) (o % 0x540 / 4))
  else if o < 0x5940 then cellGet 0 s.bat.tmpl ((o - 0x5400) / 4)
  else if o < 0x5994 then BitVec.ofNat 32 (showAt s.bat.ocv ((o - 0x5940) / 4) i32)
  else if 0x6000 ≤ o ∧ o < 0x7000 then BitVec.ofNat 32 (showAt s.bat.ids ((o - 0x6000) / 0x100) (fun r => leAt r.bytes (o % 0x100) 4))
  else 0

/-- A word of a window (R403). -/
def State.windowWord (s : State) (off : Nat) : Word :=
  if off < 0x45000 then cellGet 0 s.law.shadow (off - 0x40000)
  else if off < 0x48000 then 0
  else if off < 0x4D000 then cellGet 0 s.law.active (off - 0x48000)
  else if off < 0x50000 then 0
  else if off < 0x50A00 then cellGet 0 (if s.bit F.HBX_CTL.view then s.hbx.active else s.hbx.shadow) (off - 0x50000)
  else if off < 0x58000 then 0
  else if off < 0x60000 then s.batWindow (off - 0x58000)
  else if 0x80000 ≤ off ∧ off < 0x90000 then s.bbx.st.pageWord (s.fld F.BBX_PAGE.sel) (off - 0x80000)
  else if 0xF0000 ≤ off ∧ off < 0xF0400 then BitVec.ofNat 32 (showAt s.evt.msix ((off - 0xF0000) / 4) BitVec.toNat)
  else if off = 0xF0800 ∨ off = 0xF0804 then (s.evt.pba >>> (8 * (off - 0xF0800))).setWidth 32
  else 0

/-- The blocks that answer while the boot ROM waits for an image (R411): SYS, UPD. -/
def inBootBlock (off : Nat) : Bool := decide (off < 0x1000) || (decide (0x1E000 ≤ off) && decide (off < 0x1F000))

/-- What a read of BAR0 returns (R404, R411, 01_shelf R15); SYS_ID, SYS_STAT, SYS_MODE and UPD_STAT read their live values
through a management restart. -/
def State.regRead (s : State) (off : Nat) : Word :=
  let live := s.sys.mgmtRestart && (off = 0x000 || off = 0x008 || off = 0x00C || off = 0x1E004)
  if off % 4 ≠ 0 ∨ (s.sys.step = 15 ∧ !inBootBlock off) then 0
  else match islandAt off with
    | none => 0
    | some i =>
      if !(s.runs i || live) then 0
      else match regAt off with
        | some (d, e, w) => s.regWord d e w off
        | none => s.windowWord off

end Sys2Proof.Machine
end

