-- ==== Sys2Proof/Machine/Registers.lean ====
section
/-! DEFINITION. Host accesses to BAR0: writes by access code (00_scope R4–R6), shadowed fields (01_shelf R23), load-time checks
of single writes (21_register_map R407), the lock (R408), gated islands (01_shelf R15), latched pairs (R410) and the clearing of
counters (20_guarantees R399). -/

namespace Sys2Proof.Machine

/-! ### Words in force -/

/-- A register whose change is remembered for conversions already under way (02_sense R38). -/
def isUserCal (r : RegId) : Bool := r = .SNS_CH_GAIN || r = .SNS_CH_USEROFF || r = .SNS_CH_FS

/-- A word of software's fields takes effect. -/
def State.setWord (s : State) (d : RegDesc) (e off : Nat) (w : Word) : State :=
  let rst := BitVec.ofNat 32 (d.rstAt e)
  let old := s.word off (d.rstAt e)
  let hist := if isUserCal d.id ∧ old ≠ w then
      (s.sns64, off, old) :: s.regs.calHist.filter (fun x => decide (s.sns64 ≤ x.1 + 1000000)) else s.regs.calHist
  { s with regs := { s.regs with act := cellPut rst s.regs.act off w, calHist := hist } }

/-- Bits of a word replaced under a mask. -/
def maskIn (old new mask : Word) : Word := (old &&& ~~~mask) ||| (new &&& mask)

/-- What follows a change of fields at once: assignments (05_phases R79), run states (03_law R56), slot links (09_slot R187),
the headbox's seed at a rise of its enable (06_headbox R118), the means of a watch that starts again (12_thermal R256), two-wire ports
(19_two_wire R386). Assignments do not wait for the role. -/
def State.follow (s0 s : State) : State :=
  let sa := if s.runs .ctl then s.assignAll else s
  let s1 := if s.ctlWorks then sa.lawSyncAll else sa
  let s2 := if s.works && s.runs .lnk then foldFin 32 s1 State.linkSync else s1
  let s3 := if !s0.bit F.HBX_CTL.en && s2.bit F.HBX_CTL.en then s2.seedAll else s2
  let s4 := if !s0.bit F.THM_CTL.en && s3.bit F.THM_CTL.en then { s3 with thm := ⟨s3.thm.s.map Sensor.fresh⟩ } else s3
  if s.runs .mgt then foldFin 4 s4 State.twpSync else s4

/-! ### Checks -/

/-- R233 as a rule of the load-time check: SEQ_STAT.graph_err shows whether it failed; a cycle fires GRAPH_ERR with the lowest
node left (11_sequencing Table SEQ.3). -/
def State.graphChecked (s cand : State) : State :=
  let bad := !okGraph cand
  let s1 := { s with seq := { s.seq with graphErr := bad } }
  match cand.cycleNode with
  | some k => if bad then s1.fire 0x90 0x07 k 0 else s1
  | none => s1

/-- Is a register read by the rule of R233? -/
def isGraph (r : RegId) : Bool :=
  [RegId.SEQ_N_CFG, .SEQ_N_DEP0, .SEQ_N_DEP1, .SEQ_N_DEP2, .SEQ_N_UP, .SEQ_N_DN, .SEQ_N_OFF].contains r

/-- A write under a mask takes effect if it passes its rules, and is discarded whole with WRITE_REFUSED if not (R407). -/
def State.checkedWrite (s : State) (d : RegDesc) (e : Nat) (h : HostWrite) : State :=
  let w := maskIn (s.word h.off (d.rstAt e)) h.val h.mask
  let cand := s.setWord d e h.off w
  let good := cand.checkReg d.id w
  let put := { cand with regs := { cand.regs with
    wrote := h.off :: (if s.regs.wroteAt = s.time then s.regs.wrote else []), wroteAt := s.time } }
  let s1 := if isGraph d.id then (if good then put else s).graphChecked cand else if good then put else s
  if good then s1 else s1.fire 0x01 0x04 0 h.off

/-! ### Rings (18_host_rings R360, R362) -/

/-- A write to HST_RING_CFG.en: a rise sets head = tail = 0 and ends ERROR; a fall stops the ring, and its commands in
progress complete (Table HST.9). -/
def State.ringSetEn (s : State) (r : Fin 8) (en : Bool) : State :=
  let was := s.bit (F.HST_RING_CFG.en r)
  let s1 := s.setFld (F.HST_RING_CFG.en r) (b2n en)
  if en && !was then s1.modRing r (fun g => { g with head := 0, tail := 0, err := false }) else s1

/-- RING_ENABLE (R360). -/
def execRingEnable (r : Fin 8) (en : Bool) (s : State) : Host.Outcome State Fault Refusal := ok (s.when (s.runs .hst && s.exposed) (s.ringSetEn r en))

/-! ### Host writes -/

/-- GATED_ACCESS (01_shelf R15): the event of the first access in a gating interval. -/
def State.gatedEvent (s : State) (i : Island) (off : Nat) : State :=
  if s.regs.gatedSeen.contains i then s
  else { s with regs := { s.regs with gatedSeen := i :: s.regs.gatedSeen } }.fire 0x06 0x01 0 off

/-- Registers whose writes by the host are discarded while their ring is enabled (18_host_rings R360), with the bits meant. -/
def State.ringLocked (s : State) (d : RegDesc) (e : Nat) : Nat :=
  if !s.bit (F.HST_RING_CFG.en e) then 0
  else match d.id with
    | .HST_RING_BLO | .HST_RING_BHI => 0xFFFFFFFF
    | .HST_RING_CFG => 0x1F
    | _ => 0

/-- The fields of a register that a host write reaches: RW and RWS, and RWL while the configuration is not locked (R6, R408). -/
def State.writable (s : State) (d : RegDesc) (e : Nat) : Word :=
  BitVec.ofNat 32 (d.rw ||| d.rws ||| (if s.sys.lock then 0 else d.rwl)) &&& ~~~BitVec.ofNat 32 (s.ringLocked d e)

/-- The part of those fields that is shadowed (R23). -/
def RegDesc.shadowMask (d : RegDesc) : Word :=
  match d.shadow with
  | .all => 0xFFFFFFFF
  | .rwl => BitVec.ofNat 32 d.rwl
  | .staged | .none => 0

/-- A host write waits for the tick boundary, or is held while an overlay is staged (R23). -/
def State.queueWrite (s : State) (h : HostWrite) : State :=
  if h.mask = 0 then s
  else if s.regs.stage.isSome then { s with regs := { s.regs with held := s.regs.held ++ [h] } }
  else { s with regs := { s.regs with shadowQ := s.regs.shadowQ ++ [h] } }

/-- W1C bits written with 1 clear (R4); one that hardware sets at the same instant reads 1 (R5). -/
def State.clearSticky (s : State) (d : RegDesc) (off : Nat) (val : Word) : State :=
  if d.w1c = 0 then s
  else { s with regs := { s.regs with
      sticky := cellPut 0 s.regs.sticky off
        (cellGet 0 s.regs.sticky off &&& (~~~(val &&& BitVec.ofNat 32 d.w1c) ||| cellGet 0 s.freshNow off)) } }

/-- The fields that a host write changes at this instant: none of OTP_CMD while a command runs (13_fuse R274). -/
def State.writeMask (s : State) (d : RegDesc) (e : Nat) : Word := if d.id = .OTP_CMD ∧ s.otp.cmd.isSome then 0 else s.writable d e

/-- A host write to a register that its island serves. -/
def State.writeReg (s : State) (d : RegDesc) (e off : Nat) (val : Word) : State :=
  let m := s.writeMask d e
  let s1 := s.clearSticky d off val
  if d.shadow = .staged then (if s.sys.lock then s1 else s1.stagedWrite off (val &&& BitVec.ofNat 32 d.rwl))
  else
    let now := m &&& ~~~d.shadowMask
    let s2 := if now = 0 then s1 else s1.checkedWrite d e ⟨off, val, now, s.time⟩
    let s3 := s2.queueWrite ⟨off, val, m &&& d.shadowMask, s.time⟩
    let s4 := match d.id with
      | .OTP_CMD => if [1, 2, 3, 4].contains (val.toNat % 8) then s3 else s3.otpOther
      | .BBX_TOKEN => s3.modBbx (fun b => { b with token := maskIn32 b.token e val })
      | .HST_RING_CFG => if h : e < 8 then
          (let r : Fin 8 := ⟨e, h⟩
           let was := s.bit (F.HST_RING_CFG.en e)
           if !was && val.getLsbD 31 then s3.modRing r (fun g => { g with head := 0, tail := 0, err := false }) else s3) else s3
      | _ => s3
    s.follow s4
where
  /-- Word k of a 128-bit value replaced. -/
  maskIn32 (t : BitVec 128) (k : Nat) (v : Word) : BitVec 128 :=
    (t &&& ~~~((0xFFFFFFFF : BitVec 128) <<< (32 * k))) ||| (v.setWidth 128 <<< (32 * k))

/-- A write to the impedance template or the OCV table: while no string is enabled and the configuration is not locked
(08_battery Table BAT.3, 21_register_map R408). -/
def State.batWindowWrite (s : State) (o : Nat) (val : Word) : State :=
  if s.sys.lock || (List.range 8).any (fun i => s.bit (F.BAT_CTL.en i)) then s
  else if 0x5400 ≤ o ∧ o < 0x5940 then { s with bat := { s.bat with tmpl := cellPut 0 s.bat.tmpl ((o - 0x5400) / 4) val } }
  else if h : 0x5940 ≤ o ∧ o < 0x5994 then { s with bat := { s.bat with ocv := s.bat.ocv.set ((o - 0x5940) / 4) val.toInt (by omega) } }
  else s

/-- A write to the MSI-X table (18_host_rings R358); an unmasked vector sends what is pending (R373). -/
def State.msixWrite (s : State) (k : Nat) (val : Word) : State :=
  if h : k < 256 then
    let v : Word := if k % 4 = 3 then val &&& 1 else if k % 4 = 0 then val &&& 0xFFFFFFFC else val
    (s.modEvt (fun e => { e with msix := e.msix.set k v })).vecRelease
  else s

/-- A host write to BAR0 (R403, R404, R411): reserved space, the window of a command of its own, and an island that does not
answer discard it. -/
def State.hostWrite (s : State) (off : Nat) (val : Word) : State :=
  if !s.runs .hst || off % 4 ≠ 0 || (s.sys.step = 15 && !inBootBlock off) then s
  else match islandAt off with
    | none => s
    | some i =>
      if s.gated i then s.gatedEvent i off
      else if !s.runs i then s
      else match regAt off with
        | some (d, e, _) => s.writeReg d e off val
        | none =>
          if 0x58000 ≤ off ∧ off < 0x60000 then s.batWindowWrite (off - 0x58000) val
          else if 0xF0000 ≤ off ∧ off < 0xF0400 then s.msixWrite ((off - 0xF0000) / 4) val
          else s

/-- REG_WRITE (R4). -/
def execRegWrite (off : BitVec 20) (val : Word) (s : State) : Host.Outcome State Fault Refusal := ok (s.hostWrite off.toNat val)

/-- Waiting host writes that reach a boundary take effect in order (R23, R407). -/
def State.applyQueue (s : State) (l : List HostWrite) : State :=
  l.foldl (fun s h => match regAt h.off with
    | some (d, e, _) => s.checkedWrite d e h
    | none => s) s

/-- SHADOW_WRITE_APPLY (R23): at a tick boundary, for the writes made before it; before the tick counter runs, at any time. -/
def execShadowWriteApply (s : State) : Host.Outcome State Fault Refusal :=
  let free := s.tickAt.isNone
  if !(s.runs .hst && (free || s.atTick)) then ok s
  else
    let due (h : HostWrite) : Bool := free || decide (h.at_ < s.time)
    let l := s.regs.shadowQ.filter due
    let s1 := { s with regs := { s.regs with shadowQ := s.regs.shadowQ.filter (fun h => !due h) } }
    ok (if l.isEmpty then s1 else s.follow (s1.applyQueue l))

/-- HBX_COMMIT_SWAP (06_headbox R113, R114): at the first tick boundary after the request; slot links follow a change of
HBX_SRC_CFG (09_slot R186, R187). -/
def execHbxCommitSwap (s : State) : Host.Outcome State Fault Refusal :=
  if !(s.runs .dsp && s.atTick && s.hbx.commit = 1 && decide (s.hbx.commitAt < s.time)) then ok s
  else match curveFail s.stagedFld s.hbx.shadow with
  | some i =>
    let s1 := { s with hbx := s.hbx.commitEnd s.time }
    ok ((s1.stick F.HBX_COMMIT.err).fire 0x59 0x01 i 0)
  | none =>
    let src := mapFin s.hbx.src (fun k x =>
      { x with seed := x.seed || (s.stagedFld (F.HBX_SRC_CFG.en k) = 1 && !s.srcEn k) })
    ok (s.follow { s with
      regs := { s.regs with act := withStaged s.regs.act s.regs.staged, staged := stagedOnly s.regs.act }
      hbx := { s.hbx with commit := 2, commitAt := s.time, active := s.hbx.shadow, shadow := s.hbx.active, src := src } })

/-- GATED_ACCESS (01_shelf R15). -/
def execGatedAccess (off : BitVec 20) (_isWrite : Bool) (s : State) : Host.Outcome State Fault Refusal :=
  match islandAt off.toNat with
  | some i => ok (s.when (s.runs .hst && s.exposed && s.gated i) (s.gatedEvent i off.toNat))
  | none => ok s

/-- The high word of a 64-bit quantity. -/
def hiWord (n : Nat) : Word := BitVec.ofNat 32 (n / 2 ^ 32)

/-- LATCHED_PAIR_READ (R410, 02_sense R28). -/
def execLatchedPairRead (p : LatchPair) (s : State) : Host.Outcome State Fault Refusal :=
  let put (f : Regs → Regs) : State := { s with regs := f s.regs }
  match p with
  | .snsTime => ok (s.when (s.runs .hst && s.runs .ctl) (put (fun r => { r with timeHi := hiWord s.sns64 })))
  | .snsVal ch =>
    ok (s.when (s.runs .hst && s.runs .ctl)
      { s with sns := { s.sns with ch := modAt s.sns.ch ch (fun c => { c with ts := BitVec.ofNat 32 (c.stamp.getD 0) }) } })
  | .nvpEnergy k => ok (s.when (s.runs .hst && s.runs .recI) (put (fun r => { r with nvpHi := modAt r.nvpHi k (fun _ => hiWord s.nvp.e[k].1) })))
  | .bbxNext => ok (s.when (s.runs .hst && s.runs .recI) (put (fun r => { r with bbxHi := hiWord s.bbx.seq.toNat })))
  | .updEpoch => ok (s.when (s.runs .hst && s.runs .mgt) (put (fun r => { r with updHi := hiWord s.upd.rec1.epoch.toNat })))

/-! ### Clearing counters -/

/-- The counters of a block at 0 with their sat flags, which re-arms their events (R399), and the worst values that the
block's cnt_clr names. -/
def State.clearCounters (s : State) (b : CntBlock) : State :=
  match b with
  | .law e => (s.modEng e (fun g => { g with
      skip := s.cleared (0x802C + 0x200 * e.val), mis := s.cleared (0x8030 + 0x200 * e.val), dlyWorst := 0 })).unstick (F.LAW_STAT.dly_sat e)
  | .sch e => s.modEng e (fun g => { g with fires := s.cleared (0xC020 + 0x80 * e.val), xcnt := s.cleared (0xC024 + 0x80 * e.val) })
  | .pwm => { s with pwm := { s.pwm with ph := mapFin s.pwm.ph (fun j p => { p with cbc := s.cleared (0x1000C + 0x100 * j.val) }) } }
  | .rail n => s.modRail n (fun r => { r with shorts := s.cleared (0x1204C + 0x200 * n.val) })
  | .hbx => { s with hbx := { s.hbx with capCnt := s.cleared 0x14074, defCnt := s.cleared 0x14078, lateCnt := s.cleared 0x1407C, timeWorst := 0 } }
  | .dkl => { s with dkl := { s.dkl with cutCnt := s.cleared 0x150C0 } }
  | .vat => { s with vat := { s.vat with huCnt := s.cleared 0x160A8 } }
  | .bat i =>
    let s1 := s.modStr i (fun x => { x with lrn := s.cleared (0x170C0 + 0x200 * i.val), rej := s.cleared (0x170C4 + 0x200 * i.val) })
    if s.bat.str[i].present then s1.modBRec i (fun r => { r with cyc := s.cleared (0x170A8 + 0x200 * i.val) }) else s1
  | .slt k => s.modSlt k (fun l => { l with
      crcErr := s.cleared (0x18038 + 0x100 * k.val), cvErr := s.cleared (0x1803C + 0x100 * k.val)
      lossCnt := s.cleared (0x18040 + 0x100 * k.val), gapCnt := s.cleared (0x18044 + 0x100 * k.val)
      mbrtx := s.cleared (0x18048 + 0x100 * k.val), rttWorst := 0, crcArm := true })
  | .red =>
    let s1 := s.modRed (fun r => { r with snapCnt := s.cleared 0x1A028, snapErr := s.cleared 0x1A02C, xmis := s.cleared 0x1A030 })
    { s1 with aon := { s1.aon with takeCnt := s.cleared 0x1A034, demCnt := s.cleared 0x1A038 }
              arb := { s1.arb with verdCnt := s.cleared 0x1A088 } }
  | .seq => { s with seq := { s.seq with failCnt := s.cleared 0x1B020, rsCnt := s.cleared 0x1B024 } }
  | .thm => s.modAon (fun a => { a with sdCnt := s.cleared 0x1C014 })
  | .nvp => s.modNvp (fun n => { n with ce := s.cleared 0x3014, ue := s.cleared 0x3018, twin := s.cleared 0x301C, saveCnt := s.cleared 0x3020 })
  | .bbx => s.modBbx (fun b => { b with 
      sup := s.cleared 0x1D100, sealMiss := s.cleared 0x1D104, authFail := s.cleared 0x1D108, clr := s.cleared 0x1D10C })
  | .upd => { s with upd := { s.upd with doneCnt := s.cleared 0x1E028, rbCnt := s.cleared 0x1E02C } }
  | .hst => s.modHst (fun h => { h with 
      evDrop := s.cleared 0x1F200, telDrop := s.cleared 0x1F204, trcDrop := s.cleared 0x1F208, cplDrop := s.cleared 0x1F20C
      cmdCnt := s.cleared 0x1F210 })
  | .twp p => s.modTwp p (fun t => { t with arb := s.cleared (0x20014 + 0x100 * p.val) })

/-- The island that serves a block's cnt_clr (Table SHF.6). -/
def cntIsland : CntBlock → Island
  | .law _ | .sch _ | .pwm | .rail _ => .ctl
  | .hbx | .dkl | .vat => .dsp
  | .slt _ => .lnk
  | .bat _ => .bat
  | .red => .aon
  | .seq | .thm => .sup
  | .nvp | .bbx => .recI
  | .upd | .twp _ => .mgt
  | .hst => .hst

/-- COUNTER_CLEAR (20_guarantees R399). -/
def execCounterClear (b : CntBlock) (s : State) : Host.Outcome State Fault Refusal :=
  ok (s.when (s.runs .hst && s.runs (cntIsland b) && (s.exposed || b = .upd)) (s.clearCounters b))

end Sys2Proof.Machine
end

