-- ==== Sys2Proof/Machine/Modes.lean ====
section
/-! DEFINITION. Configuration and modes (14_start_up R284, R290–R295; 01_shelf R21–R23; 06_headbox R112, R114): patches and their
check, staging and the swap at a tick boundary, mode requests of the host and of the management cores, TRANSPORT, and the
configuration load of boot step 6. -/

namespace Sys2Proof.Machine

/-! ### Patches (R294) -/

/-- A BAR0 offset in the cost-curve window, by its place in the bank (06_headbox R111). -/
def curvePlace (off : Nat) : Option Nat := if 0x50000 ≤ off ∧ off < 0x50A00 then some (off - 0x50000) else none

/-- The patches that a payload of 8-byte entries spells; none where its length or word 0 of an entry does not fit (R294). -/
def patchesOf (bs : List Byte) : Option (List (Nat × Word)) :=
  let n := bs.length / 8
  let l := (List.range n).map (fun k => (leAt bs (8 * k) 4, BitVec.ofNat 32 (leAt bs (8 * k + 4) 4)))
  if bs.length % 8 = 0 ∧ l.all (fun p => p.1 % 4 = 0 && decide (p.1 < 2 ^ 20)) then some l else none

/-- Does a patch name a word with RW or RWL fields in a register block, or a word of the cost-curve window, and are its 1 bits
all in writable fields (R294)? Of a curve's price word bits 31:20 are reserved (06_headbox Table HBX.3). -/
def patchOk (p : Nat × Word) : Bool :=
  (match curvePlace p.1 with
    | some k => k % 8 = 0 || decide (p.2.toNat < 2 ^ 20)
    | none => false) ||
    (match regAt p.1 with
      | some (d, _, _) => d.rw ||| d.rwl != 0 && p.2 &&& ~~~BitVec.ofNat 32 (d.rw ||| d.rwl ||| d.rws) == 0
      | none => false)

/-- Does an overlay keep the rules of R294 that concern its patches alone? -/
def overlayOk (l : List (Nat × Word)) : Bool := decide (l.length ≤ 256) && l.all patchOk && noDup (l.map (·.1))

/-- A full-word write of the configuration takes effect: a field staged with the curves, and a curve word, are written into the
active copy and into the staged one (06_headbox R114). -/
def State.putConfig (s : State) (p : Nat × Word) : State :=
  match curvePlace p.1 with
  | some k => { s with hbx := { s.hbx with active := cellPut 0 s.hbx.active k p.2, shadow := cellPut 0 s.hbx.shadow k p.2 } }
  | none => match regAt p.1 with
    | some (d, e, _) =>
      let s1 := s.setWord d e p.1 p.2
      match d.shadow with
      | .staged => { s1 with regs := { s1.regs with staged := cellPut 0 s1.regs.staged p.1 p.2 } }
      | _ => match d.id with
        | .BBX_TOKEN => s1.modBbx (fun b => { b with token := State.writeReg.maskIn32 b.token e p.2 })
        | .HST_RING_CFG => if h : e < 8 then
            (if p.2.getLsbD 31 && !s.bit (F.HST_RING_CFG.en e) then
              s1.modRing ⟨e, h⟩ (fun g => { g with head := 0, tail := 0, err := false }) else s1) else s1
        | _ => s1
    | none => s

/-- The words of a list written in order. -/
def State.putWords (s : State) (l : List (Nat × Word)) : State := l.foldl State.putConfig s

/-! ### Tables in the flash (17_field_update Table UPD.1) -/

/-- A table word of the booted bank, by the BAR0 offset of the word in its window (log 14). -/
def State.tableWord (s : State) (off : Nat) : Word :=
  BitVec.ofNat 32 (leNat (s.flashBytes (bankBase s.sys.bank + 0x290000 + Config.tablePlace off % 0x3FFFD) 4))

/-- The words of a window that are not 0, read from the tables region: n words from a BAR0 offset on, by a place for each. -/
def State.tableCells (s : State) (off n step : Nat) : Cells Word :=
  (List.range n).filterMap (fun k => let w := s.tableWord (off + 4 * k); if w = 0 then none else some (step * k, w))

/-! ### Checks and staging (R21, R22) -/

/-- What a word returns to without a patch: its base-configuration value (R295), else the word of the tables for a curve, else
the register's reset value. -/
def State.baseWord (s : State) (off : Nat) : Word :=
  match cellGet? s.regs.base off with
  | some w => w
  | none => match curvePlace off with
    | some _ => s.tableWord off
    | none => match regAt off with
      | some (d, e, _) => BitVec.ofNat 32 (d.rstAt e)
      | none => 0

/-- The words that a change to an overlay writes (R295): those of the old overlay that the new one leaves return to base. -/
def State.overlayWords (s : State) (l : List (Nat × Word)) : List (Nat × Word) :=
  (s.regs.patched.filter (fun o => !(l.map (·.1)).contains o)).map (fun o => (o, s.baseWord o)) ++ l

/-- The overlay of a mode is read from the parameter store; an absent one is empty (R294). -/
def State.overlayRead (s : State) (m : Nat) : State × Option (List (Nat × Word)) :=
  let (s1, r) := s.recRead (0x20 + m)
  (s1, match r with
    | some (_, c) => patchesOf c.payload
    | none => some [])

/-- OVERLAY_FAIL (R22). -/
def State.overlayFail (s : State) (m : Nat) : State := s.fire 0x01 0x03 0 (s.sys.mode + 16 * m)

/-- OVERLAY_CHECK (R22, R294): the overlay of a mode is checked as it would stand after the swap; the words to be written, where
it passes. -/
def State.overlayCheck (s : State) (m : Nat) : State × Option (List (Nat × Word) × List Nat) :=
  let (s1, r) := s.overlayRead m
  match r with
  | none => (s1, none)
  | some l =>
    if !overlayOk l then (s1, none)
    else
      let ws := s1.overlayWords l
      let cand := s1.putWords ws
      (s1.graphChecked cand, if cand.checkAll then some (ws, l.map (·.1)) else none)

/-- The answer to a MODE_REQ command that waits for its change of mode (18_host_rings Table HST.7). -/
def State.modeReqEnd (s : State) (status new old : Nat) : State :=
  let r : CmdRes := ⟨status, [], BitVec.ofNat 32 new, BitVec.ofNat 32 old, 0⟩
  s.modHst (fun h => { h with cmd := h.cmd.map (fun c => match c with
    | some x => if x.started && x.res.isNone && x.d.opcode = 0x40 then some { x with res := some r } else some x
    | none => none) })

/-- MODE_REFUSED (R291) of a request for mode m. -/
def State.modeRefused (s : State) (m : Nat) : State := s.fire 0x01 0x02 0 (s.sys.mode + 16 * m)

/-- An overlay in hand that a host request does not replace: a reload, and a HOLDUP entry or exit (R291). -/
def State.stageStays (s : State) (g : Stage) : Bool := g.reload || (!g.host && (g.mode = modeHoldup || s.sys.mode = modeHoldup))

/-- The pending host request, if there is one, is replaced: it is refused (R291). It is staged, waits for another overlay, or is a
TRANSPORT entry in its first step. -/
def State.dropPending (s : State) : State :=
  let s1 := match s.sys.waitReq with
    | some m => ({ s with sys := { s.sys with waitReq := none, pend := none } }.modeRefused m).modeReqEnd 3 0 0
    | none => s
  let s2 := if s.sys.transportStep = 1 then
      ({ s1 with sys := { s1.sys with transportStep := 0, pend := none } }.modeRefused modeTransport).modeReqEnd 3 0 0
    else s1
  match s.regs.stage with
  | some g =>
    if s.stageStays g then s2
    else
      let s3 := { s2 with regs := { s2.regs with stage := none }, sys := { s2.sys with pend := none } }
      if g.host then (s3.modeRefused g.mode).modeReqEnd 3 0 0 else s3
  | none => s2

/-- Host writes held during a staging are applied at the first boundary after it (R23). -/
def State.releaseHeld (s : State) : State :=
  { s with regs := { s.regs with
      shadowQ := s.regs.shadowQ ++ s.regs.held.map (fun h => { h with at_ := s.time }), held := [] } }

/-- The same where a request has left no overlay in hand: a staging that was dropped holds no writes (R23). -/
def State.heldOn (s : State) : State := if s.regs.stage.isSome then s else s.releaseHeld

/-- A mode is requested: its overlay is checked and staged (R21, R22); the answer says whether it was. -/
def State.stageMode (s : State) (m : Nat) (host : Bool) : State × Bool :=
  let (s1, r) := s.overlayCheck m
  match r with
  | some (ws, ps) =>
    ({ s1 with regs := { s1.regs with stage := some ⟨m, ws, ps, host, false, s.time⟩ }, sys := { s1.sys with pend := some m, pendHost := host } },
      true)
  | none => (s1.overlayFail m, false)

/-- The moves that the host may request (Table SYS.6). -/
def modeMove (cur m : Nat) : Bool :=
  (m = modeService && (cur = modeMaint || cur = modeCustom || cur = modeTest)) ||
  (m = modeMaint && (cur = modeService || cur = modeCustom)) ||
  (m = modeTransport && (cur = modeService || cur = modeMaint || cur = modeTest)) ||
  (m = modeTest && (cur = modeStart || cur = modeMaint)) ||
  (m = modeCustom && (cur = modeService || cur = modeMaint))

/-- Is a host request for a mode refused (R291)? -/
def State.askRefused (s : State) (m : Nat) : Bool := !modeMove s.sys.mode m || s.sys.mode = modeHoldup || s.sys.transportStep ≠ 0

/-- An accepted host request comes to its turn (R291, R293). A TRANSPORT entry begins with the shelf shutdown. -/
def State.askTurn (s : State) (m : Nat) : State × Bool :=
  if m = modeTransport then
    let s2 := { s with sys := { s.sys with transportStep := 1, pend := some m, pendHost := true } }
    (if s2.seqRuns && s2.drives then s2.shelfShutdown 4 else s2, true)
  else s.stageMode m true

/-- A host request for a mode, and whether it is accepted (R291, R293); it waits while an overlay that it does not replace is in
hand. -/
def State.modeAsk (s : State) (m : Nat) : State × Bool :=
  if s.askRefused m then (s.modeRefused m, false)
  else
    let s1 := s.dropPending
    if s1.regs.stage.isSome then
      ({ s1 with sys := { s1.sys with waitReq := some m, pend := some m, pendHost := true } }, true)
    else
      let r := s1.askTurn m
      (r.1.heldOn, r.2)

/-- A host request that waited for another overlay: after a change to HOLDUP it is refused, else it comes to its turn (R291). -/
def State.waitTurn (s : State) : State :=
  match s.sys.waitReq with
  | none => s
  | some m =>
    let s1 := { s with sys := { s.sys with waitReq := none } }
    if s1.askRefused m then ({ s1 with sys := { s1.sys with pend := none } }.modeRefused m).modeReqEnd 3 0 0
    else
      let r := s1.askTurn m
      if r.2 then r.1 else r.1.modeReqEnd 3 0 0

/-- MODE_REQUEST (R291): a write of a mode code to SYS_MODE.req. -/
def execModeRequest (code : BitVec 4) (s : State) : Host.Outcome State Fault Refusal :=
  ok (s.when (s.runs .hst && s.mgtUp) (s.modeAsk code.toNat).1)

/-- A change of mode completes (R291, R292): MODE_CHANGE fires; a fuse arm and a black-box nonce end with it (13_fuse R274,
16_black_box R334). -/
def State.modeChange (s : State) (m : Nat) : State :=
  let s1 := { s with
    sys := { s.sys with mode := m, pend := none, prev := if m = modeHoldup then s.sys.mode else s.sys.prev }
    otp := if s.otp.cmd.isSome then s.otp else s.otp.disarm s.time, bbx := { s.bbx with nvalid := false } }
  s1.fire 0x01 0x01 0 (s.sys.mode + 16 * m)

/-- OVERLAY_SWAP (R21): at the first tick boundary after the staging; before the tick counter runs, at any time. -/
def execOverlaySwap (s : State) : Host.Outcome State Fault Refusal :=
  match s.regs.stage with
  | none => ok s
  | some g =>
    if !(s.runs .mgt && (s.tickAt.isNone || (s.atTick && decide (g.at_ < s.time)))) then ok s
    else
      let s1 := s.putWords g.words
      let s2 := { s1 with regs := { s1.regs with stage := none, patched := g.patched } }
      let s3 := if g.reload then s2 else s2.modeChange g.mode
      let s4 := if g.host then s3.modeReqEnd 0 g.mode s.sys.mode else s3
      ok ((s.follow s4.releaseHeld).waitTurn)

/-! ### Requests of the management cores -/

/-- HOLDUP_OVERLAY_REQUEST (07_hold_up R136, R291, R292). It waits while an overlay of the cores themselves is staged. -/
def execHoldupOverlayRequest (s : State) : Host.Outcome State Fault Refusal :=
  match s.sys.huReq with
  | none => ok s
  | some enter =>
    let mine := match s.regs.stage with
      | some g => !g.host
      | none => false
    if !s.mgtUp || mine then ok s
    else
      let m := s.sys.mode
      let s1 := { s with sys := { s.sys with huReq := none } }
      if s.transportOn then ok s1
      else if enter then
        (if m = modeStart ∨ m = modeService ∨ m = modeMaint ∨ m = modeCustom then ok (s1.dropPending.stageMode modeHoldup false).1.heldOn else ok s1)
      else if m = modeHoldup then ok (s1.dropPending.stageMode s.sys.prev false).1.heldOn
      else ok s1

/-- SERVICE_OVERLAY_REQUEST (11_sequencing R242): made in START; a change to HOLDUP or a request in hand is waited for, any other
mode ends it (Table SYS.6). -/
def execServiceOverlayRequest (s : State) : Host.Outcome State Fault Refusal :=
  if !(s.mgtUp && s.sys.svcReq && s.regs.stage.isNone && s.sys.huReq.isNone && s.sys.mode != modeHoldup) then ok s
  else
    let s1 := { s with sys := { s.sys with svcReq := false } }
    if s.sys.mode = modeStart then ok (s1.stageMode modeService false).1 else ok s1

/-! ### TRANSPORT (R293) -/

/-- TRANSPORT_OVERLAY_APPLY (R293, step 2): at a tick boundary, once every node is off. A failed check ends the entry. -/
def execTransportOverlayApply (s : State) : Host.Outcome State Fault Refusal :=
  let off := s.seq.st ≠ 4 && allFin 72 (fun k => !s.nodeEn k || s.seq.n[k].st.isOff)
  if !(s.mgtUp && s.sys.transportStep = 1 && off && (s.tickAt.isNone || s.atTick)) then ok s
  else
    let (s1, r) := s.overlayCheck modeTransport
    match r with
    | some (ws, ps) =>
      let s2 := s1.putWords ws
      let s3 := { s2 with regs := { s2.regs with patched := ps }, sys := { s2.sys with transportStep := 2 } }
      ok (s.follow ((s3.modeChange modeTransport).modeReqEnd 0 modeTransport s.sys.mode))
    | none =>
      let s2 := { s1 with sys := { s1.sys with transportStep := 0, pend := none } }
      ok ((s2.overlayFail modeTransport).modeReqEnd 3 0 0)

/-- Everything that BAT wrote at its preparation is in the store (08_battery R174, R159). -/
def State.recordsDone (s : State) : Bool := s.nvp.commit.isNone && s.nvp.held = 0 && s.nvp.queue.isEmpty && s.nvp.rest.isEmpty

/-- TRANSPORT_GATE (R293, step 5): after the preparation of BAT, its record writes and the save, AON records TRANSPORT and gates every
other island; a thermal shutdown has ended the entry. -/
def execTransportGate (s : State) : Host.Outcome State Fault Refusal :=
  if !(s.runs .bat && s.sys.transportStep = 4 && s.nvp.save.isNone && s.recordsDone && !s.aon.sd) then ok s
  else
    let s1 := s.otpCut.claimDrop
    ok { s1.islandsReset with
      chans := { s1.chans with flight := s1.chans.flight.filter (fun e => srcIsland e.src == Island.aon), drop := s1.dropLost (s1.bbx.queue ++ s1.flightLost) }
      regs := s1.regs.warm false, aon := { s1.aon.warm with transport := true }, otp := s1.otp.warm false, nvp := s1.nvp.warm
      bbx := { s1.bbx.warm with refillAt := s.time }
      sys := { Sys.reset with cold := s1.sys.cold, rstCause := s1.sys.rstCause, lock := s1.sys.lock, warmCnt := s1.sys.warmCnt
                              strapSolo := s1.sys.strapSolo, strapUnit := s1.sys.strapUnit
                              mode := modeTransport } }

/-! ### Watchdog kick, lock -/

/-- WDT_KICK (R286): a write to SYS_WDT_KICK restarts the watchdog. -/
def execWdtKick (s : State) : Host.Outcome State Fault Refusal :=
  ok (s.when (s.runs .hst && s.runs .mgt) { s with sys := { s.sys with wdtAt := s.time } })

/-- CONFIG_LOCK (00_scope R6): a write of 1 to SYS_LOCK.cfg. -/
def execConfigLock (s : State) : Host.Outcome State Fault Refusal :=
  ok (s.when (s.runs .hst && s.runs .mgt) { s with sys := { s.sys with lock := true } })

/-! ### The configuration load (R284) -/

/-- The patches of a base-configuration copy, where each keeps the rules of R294 but for their number (log 13). -/
def basePatches (c : Copy) : Option (List (Nat × Word)) :=
  match patchesOf c.payload with
  | some l => if l.all patchOk && noDup (l.map (·.1)) then some l else none
  | none => none

/-- The base-configuration copy that R303 selects and the one it does not, where valid (17_field_update R350). -/
def State.baseCopies (s : State) : State × Option Copy × Option Copy :=
  let (s1, r) := s.recRead 0x10
  match r, recPlace 0x10 with
  | some (b, c), some (a, d, z) =>
    let other := s.copyAt 0x10 (if b then a else a + d) z
    (s1, some c, if other.valid then some other else none)
  | _, _ => (s1, none, none)

/-- The words that base patches and an overlay write together, the overlay last; with the store of the base. -/
structure ConfigSet where
  base : List (Nat × Word)
  overlay : List (Nat × Word)
deriving DecidableEq, Repr

/-- The check of a configuration of a base copy and an overlay (R284, R22), over a state whose fields stand at reset: the
configuration, where it is accepted; the check of its graph reports (11_sequencing R233). -/
def State.configTry (s : State) (c : Option Copy) (l : Option (List (Nat × Word))) : State × Option ConfigSet :=
  match c.bind basePatches, l with
  | some b, some o =>
    if overlayOk o then
      let cand := (s.putWords b).putWords o
      (s.graphChecked cand, if cand.checkAll then some ⟨b, o⟩ else none)
    else (s, none)
  | _, _ => (s, none)

/-- The configuration that a load takes, and whether the first choice failed (R284): the selected base, else the
last-known-good, each with the overlay of a mode; else none. -/
def State.configChoose (s : State) (m : Nat) : State × Option ConfigSet × Bool :=
  let (s1, a, b) := s.baseCopies
  let (s2, l) := s1.overlayRead m
  match s2.configTry a l with
  | (s3, some g) => (s3, some g, false)
  | (s3, none) =>
    let (s4, g) := s3.configTry b l
    (s4, g, true)

/-- The tables of the booted bank in their shadow copies and BAT's (R284, Table SYS.2). -/
def State.tablesLoad (s : State) : State :=
  { s with
    law := { s.law with shadow := s.tableCells 0x40000 0x1400 4 }
    hbx := { s.hbx with shadow := s.tableCells 0x50000 0x280 4 } }

/-- The impedance template, the OCV table and every identity's impedance table from the tables region (R284, 08_battery R158). -/
def State.batTables (s : State) : State :=
  let s1 := { s with bat := { s.bat with
    tmpl := s.tableCells 0x5D400 336 1, ocv := Vector.ofFn (fun (k : Fin 21) => (s.tableWord (0x5D940 + 4 * k.val)).toInt) } }
  (List.range 16).foldl State.tableOfTemplate s1

/-- The coefficient commit of every engine and the curve commit are requested (R284: at the first tick boundary, R63, R114). -/
def State.commitTables (s : State) : State :=
  { s with
    law := { s.law with eng := s.law.eng.map (fun g => { g with commit := 1 }) }
    hbx := { s.hbx with commit := 1, commitAt := s.time } }

/-- The working copy of one identity: its record, and the values of the restored ring slot where they are later (08_battery
R159). -/
def State.idLoad (s : State) (k : Fin 16) : State :=
  let bad := (s.recSel (0x40 + k.val)).bothBad
  let (s1, r) := s.recRead (0x40 + k.val)
  let rec0 := match r with
    | some (_, c) => IdRec.ofBytes (byteSlice c.payload 0 256)
    | none => IdRec.zero
  let rec1 := match s1.nvp.slotBytes with
    | some b =>
      let o := 72 + 32 * k.val
      if leAt b 0 6 > rec0.tSave ∧ bitAt (leAt b (o + 26) 1) 0 then
        { rec0 with qr := sgn 64 (leAt b o 8), cycAcc := leAt b (o + 8) 8, p := leAt b (o + 16) 4, deficit := leAt b (o + 20) 4
                    unanchH := leAt b (o + 24) 2 }
      else rec0
    | none => rec0
  { s1 with bat := { s1.bat with ids := s1.bat.ids.set k rec1, recBad := s1.bat.recBad.set k bad } }

/-- CFG_FAIL (R284). -/
def State.cfgFailEvent (s : State) : State := s.fire 0x00 0x04 0 s.sys.stFail.toNat

/-- CONFIG_LOAD (R284): boot step 6, after the restores of the parameter store. -/
def execConfigLoad (s : State) : Host.Outcome State Fault Refusal :=
  if !(s.runs .mgt && (s.sys.step = 5 || s.sys.step = 6) && !s.nvp.restoreDue && !s.nvp.imageDue) then ok s
  else
    let s1 := s.tablesLoad
    let ts := { s1 with hbx := { s1.hbx with active := s1.hbx.shadow } }
    let (s2, g, failed) := ts.configChoose modeStart
    let s3 := { s2 with hbx := { s2.hbx with active := [] } }
    let s4 := match g with
      | some c =>
        let x := (s3.putWords c.base).putWords c.overlay
        { x with regs := { x.regs with base := c.base.foldl (fun (m : Cells Word) (p : Nat × Word) => cellIns m p.1 p.2) [], patched := c.overlay.map Prod.fst } }
      | none => { s3 with sys := { s3.sys with cfgFail := true } }
    let s6 := if failed then s4.cfgFailEvent else s4
    let s7 := foldFin 16 s6.batTables.commitTables State.idLoad
    let s8 := { s7 with sys := { s7.sys with step := 7, placed := true } }
    ok (s.follow s8.bcnFlush)

end Sys2Proof.Machine
end

