-- ==== Sys2Proof/Machine/Update.lean ====
section
/-! DEFINITION. Field update (17_field_update): the operations of UPD_CMD, prepare, commit, the activation steps, rollback and
confirmation, and the management restart. The ACTIVE unit carries each step to the peer (R340); PeerUpdate.lean says what a standby
does with it. -/

namespace Sys2Proof.Machine

/-- Field-update fields replaced. -/
def State.modUpd (s : State) (f : Upd → Upd) : State := { s with upd := f s.upd }

/-! ### Record 0x0001 (Table UPD.5) -/

/-- The payload of record 0x0001. -/
def rec1Bytes (r : Rec1) : List Byte :=
  [BitVec.ofNat 8 (b2n r.bank), BitVec.ofNat 8 r.state] ++ leBytes 2 r.step ++ leBytes 8 r.epoch.toNat ++ leBytes 8 r.prev.toNat ++
    [BitVec.ofNat 8 r.rbi0, BitVec.ofNat 8 r.rbi1] ++ leBytes 32 r.digest.toNat

/-- Record 0x0001 from its payload. -/
def Rec1.ofBytes (b : List Byte) : Rec1 :=
  { bank := bitAt (leAt b 0 1) 0, state := leAt b 1 1, step := leAt b 2 2, epoch := BitVec.ofNat 64 (leAt b 4 8)
    prev := BitVec.ofNat 64 (leAt b 12 8), rbi0 := leAt b 20 1, rbi1 := leAt b 21 1, digest := BitVec.ofNat 256 (leAt b 22 32) }

/-- The record is read; an absent one reads as zeros. -/
def State.readRec1 (s : State) : State :=
  let (s1, r) := s.recRead 1
  s1.modUpd (fun u => { u with rec1 := match r with
    | some (_, c) => Rec1.ofBytes c.payload
    | none => Rec1.zero })

/-- The record is written, and its commit requested (R345, 15_parameter_store R304). -/
def State.writeRec1 (s : State) (r : Rec1) : State :=
  let s1 := (s.modUpd (fun u => { u with rec1 := r })).recWrite 1 0 (rec1Bytes r)
  if s1.nvp.commit.isNone && s1.nvp.held != 0 && !s1.aon.pf then s1.commitStart else s1

/-- Does record 0x0001 still wait for its place in the store (R345, 15_parameter_store R302)? Its copies are words 0 to 63. -/
def State.rec1Waits (s : State) : Bool :=
  s.nvp.queue.any (fun w => w.id = 1) || s.nvp.buf.any (fun p => decide (p.1 < 64)) || s.nvp.rest.any (fun p => decide (p.1 < 64))

/-- A step is carried to the peer: by the ACTIVE unit of a pair (R340). -/
def State.carryStep (s : State) (p : PeerStep) : State :=
  if s.strap = .pair && s.sys.role = .active then s.modUpd (fun u => { u with carry := u.carry ++ [p] }) else s

/-- The peer has taken every step and no management restart of it is due or runs (R347, R348). -/
def State.peerIdle (s : State) : Bool := s.upd.carry.isEmpty && s.red.peerSt.any (fun p => !p.upd.restarting)

/-! ### Refusals -/

/-- An operation is refused (R355). -/
def State.updRefuse (s : State) (reason idx : Nat) : State :=
  (s.modUpd (fun u => { u with result := 2, reason := reason })).fire 0xE1 0x01 reason idx

/-- A prepare is aborted (R344, R355): what it held is given up, relays to slots end. -/
def State.updAbort (s : State) (reason idx : Nat) : State :=
  let s1 := (foldFin 32 s State.fwEnd).modUpd (fun u => { u with
    phase := 0, result := 3, reason := reason, failing := idx, man := none, pkg := [], lastOff := none, decoded := 0, ending := false
    committing := false, ownWrite := false })
  (s1.fire 0xE1 0x02 reason idx).carryStep (.abort reason idx)

/-- Does this unit accept the operations: ACTIVE or SOLO, an arbiter for itself (R340, R352), or in the boot ROM (R353)? -/
def State.updMine (s : State) : Bool :=
  s.sys.step = 15 || (s.mgtUp && (s.drives || s.sys.role = .arbiter))

/-- An arbiter's update is refused while a couch drill runs (R352). -/
def State.arbDrill (s : State) : Bool := s.sys.role = .arbiter && s.red.drill.isSome

/-- A peer is accepted (14_start_up R288). -/
def State.peerAccepted (s : State) : Bool :=
  s.linkOn && (match s.red.peerSt with
    | some p => p.pairId = s.otp.live.pairId && !p.noPeer && !s.otp.live.noPeer && p.strapPair && p.unit != s.unitBit
    | none => false)

/-- The first condition of R342 that holds, as its reason; 0 for none. -/
def State.ordinaryRefusal (s : State) : Nat :=
  if s.sys.mode = modeHoldup then 0x01
  else if anyFin 8 (fun i => s.bat.str[i].present && s.bit (F.BAT_CTL.en i) && decide (s.socShown i < s.fld F.UPD_FLOOR.floor)) then 0x02
  else if s.bit F.UPD_CTL.owner_lock then 0x03
  else if s.strap = .pair && !s.peerAccepted then 0x04
  else if s.thmWarn then 0x05
  else 0

/-- Does a manifest hold an ordinary part (R338)? -/
def Manifest.ordinary (m : Manifest) : Bool := m.entries.any (fun e => !privileged e.kind)

/-- The refusal of R342 for the manifest in hand. -/
def State.manRefusal (s : State) : Nat :=
  match s.upd.man with
  | some m => if m.ordinary then s.ordinaryRefusal else 0
  | none => 0

/-- The refusal of R343 for one entry. -/
def State.rbiRefusal (s : State) (e : Entry) : Nat :=
  if !privileged e.kind then 0
  else
    let v := s.thermoNow (if e.kind = 1 then 0 else 1)
    if v = 128 then 0x09 else if s.partMine e && decide (e.rbi < v) then 0x08 else 0

/-- The first entry that R343 refuses, with its reason. -/
def State.rbiRefused (s : State) (m : Manifest) : Option (Nat × Nat) :=
  ((List.range m.entries.length).filterMap (fun i => (m.entries[i]?).bind (fun e =>
    let r := s.rbiRefusal e
    if r = 0 then none else some (i, r)))).head?

/-- Why a manifest is not accepted (R338); 0 where it is. -/
def State.manifestFault (s : State) (b : List Byte) : Nat :=
  if !headerOk b then 0x0B
  else if !s.keyOk b then 0x07
  else if !signatureOk b then 0x06
  else if leAt b 8 8 ≤ s.upd.rec1.epoch.toNat then 0x0A
  else if !entriesOk b then 0x0B
  else 0

/-! ### Prepare (R341, R344) -/

/-- The result of a part is written into its region of the inactive bank (R344); in the boot ROM into that of both banks
(R353). -/
def State.partWrite (s : State) (e : Entry) (out : List Byte) : State :=
  let o := partPlace e.kind e.param e.rlen
  if s.sys.step = 15 then (s.flashWrite o out).flashWrite (0x400000 + o) out
  else s.flashWrite (bankBase (!s.upd.rec1.bank) + o) out

/-- What the flash holds after a write of a result: what it was given, or other bytes where the device fails; which is not stated, so
the pattern of bits that fail is a free value (log 10). -/
def State.flashTakes (s : State) (out : List Byte) : List Byte := out.map (fun b => b ^^^ s.free.setWidth 8)

/-- One entry decoded and staged, and the reason of its failure (0: none): an entry of another unit's is passed over (R344). -/
def State.partOne (s : State) (e : Entry) : State × Nat :=
  if !s.partMine e then (s.modUpd (fun u => { u with decoded := u.decoded + 1 }), 0)
  else match s.partResult s.upd.pkg e with
    | .inr r => (s.updAbort r s.upd.decoded, r)
    | .inl out =>
      let took := s.flashTakes out
      let s1 := s.drawn.partWrite e took
      if took = out then (s1.modUpd (fun u => { u with decoded := u.decoded + 1 }), 0) else (s1.updAbort 0x0E s.upd.decoded, 0x0E)

/-- Parts whose payload has arrived are decoded in order, each written and read back (R344); a part of another unit is that unit's to
decode. The answer is the reason of a failure, 0 for none: FLASH 0x0E where the region does not read back as written. -/
def State.partsDecode : Nat → State → State × Nat
  | 0, s => (s, 0)
  | fuel + 1, s =>
    match s.upd.man.bind (fun m => m.entries[s.upd.decoded]?) with
    | none => (s, 0)
    | some e =>
      if s.upd.pkg.length < e.poff + e.plen then (s, 0)
      else
        let r := s.partOne e
        if r.2 = 0 then State.partsDecode fuel r.1 else r

/-- A refusal of the whole update once its manifest is known (R342, R343): it ends. -/
def State.updStop (s : State) (reason idx : Nat) : State :=
  ((s.modUpd (fun u => { u with phase := 0, man := none, pkg := [], lastOff := none, decoded := 0 })).updRefuse reason idx).carryStep
    (.abort reason idx)

/-- The manifest is checked as soon as its last byte has arrived (R344), then the parts. The conditions of R342 are those of the unit
that accepts the operations. -/
def State.updProgress (s : State) : State × Nat :=
  let b := s.upd.pkg
  match s.upd.man with
  | some _ => State.partsDecode 33 s
  | none =>
    if b.length < 128 then (s, 0)
    else if !headerOk b then (s.updAbort 0x0B 0, 0x0B)
    else if b.length < manifestLen b then (s, 0)
    else
      let f := s.manifestFault b
      if f ≠ 0 then (s.updAbort f 0, f)
      else
        let m := manifestOf b
        let s1 := s.modUpd (fun u => { u with man := some m })
        if s.sys.step = 15 && m.entries.any (fun e => e.kind != 3) then (s1.updStop 0x10 0, 0x10)
        else if s.updMine && m.ordinary && s.ordinaryRefusal ≠ 0 then (s1.updStop s.ordinaryRefusal 0, s.ordinaryRefusal)
        else match s.rbiRefused m with
          | some (i, r) =>
            let s2 := s1.updStop r i
            let t := match m.entries[i]? with
              | some e => if e.kind = 1 then 0 else 1
              | none => 0
            (if r = 0x09 then s2.fire 0xE2 0x01 r t else s2, r)
          | none => State.partsDecode 33 s1

/-- A prepare starts. -/
def State.updStart (s : State) : State :=
  s.modUpd (fun u => { u with
    phase := 1, result := 0, reason := 0, step := 0, pkg := [], lastOff := none, man := none, decoded := 0, failing := 0, verified := 0
    slots := 0, ending := false, committing := false, ownWrite := false, drillMine := false, stale := false })

/-- BEGIN (R344, R340): the answer of each operation is 0, or the reason of its refusal. -/
def State.updBegin (s : State) : State × Nat :=
  if !(s.updMine && s.upd.phase = 0) || s.arbDrill then (s.updRefuse 0x10 0, 0x10)
  else (s.updStart.carryStep .begin_, 0)

/-- A chunk's bytes join the package (R341). -/
def State.updTake (s : State) (off : Nat) (bytes : List Byte) : State × Nat :=
  (s.modUpd (fun u => { u with pkg := u.pkg ++ bytes, lastOff := some off })).updProgress

/-- CHUNK (R341) of an offset and the buffer's bytes. -/
def State.updChunk (s : State) (off : Nat) (buf : List Byte) : State × Nat :=
  if !(s.updMine && s.upd.phase = 1 && !s.upd.ending) then (s.updRefuse 0x10 0, 0x10)
  else if s.upd.lastOff = some off then (s, 0)
  else
    let next := match s.upd.lastOff with
      | some o => o + 2048
      | none => 0
    let len := leAt (if s.upd.lastOff.isSome then s.upd.pkg else buf) 16 4
    if off ≠ next ∨ len ≤ off then (s.updRefuse 0x0B 0, 0x0B)
    else
      let bytes := byteSlice buf 0 (min 2048 (len - off))
      (s.carryStep (.chunk off bytes)).updTake off bytes

/-- The first entry of this unit whose result does not have its hash (R344); the result is as it read back. -/
def State.hashFails (s : State) (m : Manifest) : Option Nat :=
  (List.range m.entries.length).find? (fun i => match m.entries[i]? with
    | some e => s.partMine e && (match s.partResult s.upd.pkg e with
      | .inl out => digest256 out != e.rhash
      | .inr _ => true)
    | none => false)

/-- The relay of the slot images begins (R351): to every slot whose link is UP and whose kind an entry names. -/
def State.relayStart (s : State) (m : Manifest) : State :=
  if !s.drives then s
  else foldFin 32 s (fun s k =>
    let kind := s.slt[k].held.1.toNat / 16
    match (List.range m.entries.length).find? (fun i => m.entries[i]?.any (fun e => e.kind = 7 && e.param = kind)) with
    | some i => if s.linkUp k then (s.modSlt k (fun l => { l with fw := some ⟨i, 0, false⟩ })).fwPump k else s
    | none => s)

/-- The package has ended: hashes, the manifest, the relay to the slots. -/
def State.updFinish (s : State) : State × Nat :=
  match s.upd.man with
    | none => (s.updAbort 0x0B 0, 0x0B)
    | some m =>
      if s.upd.pkg.length < m.plen then (s.updAbort 0x0B 0, 0x0B)
      else match s.hashFails m with
        | some i => ((s.modUpd (fun u => { u with verified := i })).updAbort 0x0C i, 0x0C)
        | none =>
          let s1 := if s.sys.step = 15 then s else s.flashWrite (bankBase (!s.upd.rec1.bank)) (s.upd.pkg.take (manifestLen s.upd.pkg))
          ((s1.modUpd (fun u => { u with verified := m.n, ending := true })).relayStart m, 0)

/-- END (R341, R344). -/
def State.updEnd (s : State) : State × Nat :=
  if !(s.updMine && s.upd.phase = 1 && !s.upd.ending) then (s.updRefuse 0x10 0, 0x10)
  else (s.carryStep .finish).updFinish

/-- An update event carries the manifest epoch (Table UPD.8). -/
def State.updEvent (s : State) (cause : Nat) (epoch : BitVec 64) : State := s.fire 0xE0 cause 0 (epoch.toNat % 2 ^ 32)

/-! ### Commit (R345) -/

/-- COMMIT (R342, R345): the peer's record is written first. -/
def State.updCommit (s : State) : State × Nat :=
  if !(s.updMine && s.sys.step != 15 && s.upd.phase = 2 && !s.upd.committing) || s.arbDrill then (s.updRefuse 0x10 0, 0x10)
  else if s.manRefusal ≠ 0 then (s.updRefuse s.manRefusal 0, s.manRefusal)
  else ((s.modUpd (fun u => { u with committing := true, ownWrite := false })).carryStep .commit, 0)

/-- The rollback index that a manifest asks for in a thermometer of this unit; the present v where it holds no such part. -/
def State.rbiOf (s : State) (m : Manifest) (kind t : Nat) : Nat :=
  match m.entries.find? (fun e => e.kind = kind && s.partMine e) with
  | some e => e.rbi
  | none => s.thermoNow t

/-- The record that COMMIT writes: the active bank as it is, state 1. -/
def State.commitRec (s : State) (m : Manifest) : Rec1 :=
  { bank := s.upd.rec1.bank, state := 1, step := 0, epoch := m.epoch, prev := s.upd.rec1.epoch, rbi0 := s.rbiOf m 1 0
    rbi1 := s.rbiOf m 3 1, digest := m.digest }

/-! ### Rollback and confirmation (R348) -/

/-- The record that a rollback writes: the old bank, state 0. While the state is trial the record names the new bank. -/
def State.oldRec (s : State) : Rec1 :=
  let r := s.upd.rec1
  let bank := if r.state = 2 then !r.bank else r.bank
  let dig := if 3 ≤ s.upd.phase then s.upd.prevDigest else (match s.bankManifest bank with
    | [] => r.digest
    | b => (manifestOf b).digest)
  { bank := bank, state := 0, step := 0, epoch := r.prev, prev := r.prev, rbi0 := 0, rbi1 := 0, digest := dig }

/-- The update is rolled back to a record (R345, R348): the record, ROLLED_BACK, and where asked a management restart. -/
def State.rollTo (s : State) (r : Rec1) (reason : Nat) (restart : Bool) : State :=
  let c := s.upd.rbCnt.inc
  let s1 := s.modUpd (fun u => { u with
    phase := if restart then 6 else 0, result := 4, reason := reason, step := 0, act := [], todo := [], trialFrom := none, trialUsed := 0
    restartDue := restart, man := none, pkg := [], lastOff := none, committing := false, ownWrite := false, drillMine := false, stale := false
    rbCnt := c })
  ((s1.writeRec1 r).fire 0xE1 0x03 reason 0).satEv s.upd.rbCnt c 0xE0 0x1E02C

/-- The update rolls back in each unit (R348): the old bank and state 0; a management restart follows unless the boot ROM is at
work. -/
def State.rollBack (s : State) (reason : Nat) (restart : Bool) : State :=
  (s.carryStep (.rollback reason)).rollTo s.oldRec reason restart

/-- ADVANCE of one thermometer to the index that the record holds, where it is not reached (R348, 13_fuse R268). -/
def State.advanceOne (s : State) (t : Nat) : State :=
  let n := if t = 0 then s.upd.rec1.rbi0 else s.upd.rec1.rbi1
  if s.upd.rec1.state ≠ 0 ∨ n ≤ s.thermoNow t then s
  else
    let (s1, good) := s.advance t n
    if !good then s1.fire 0xE2 0x02 0 t
    else if s1.thermoNow t = 128 then s1.fire 0xE2 0x01 0 t
    else s1

/-- Both thermometers. -/
def State.advanceBoth (s : State) : State := (s.advanceOne 0).advanceOne 1

/-- The update is confirmed (R348). -/
def State.confirm (s : State) : State :=
  let c := s.upd.doneCnt.inc
  let s1 := (s.carryStep .confirm).modUpd (fun u => { u with
    phase := 0, result := 1, reason := 0, step := 0, trialFrom := none, trialUsed := 0, man := none, pkg := [], lastOff := none, doneCnt := c })
  let s2 := (s1.writeRec1 { s.upd.rec1 with state := 0 }).advanceBoth
  (s2.updEvent 0x04 s.upd.rec1.epoch).satEv s.upd.doneCnt c 0xE0 0x1E028

/-! ### Activation (R347) -/

/-- ACTIVATE (R342, R347, R352). -/
def State.updActivate (s : State) : State × Nat :=
  if !(s.updMine && s.sys.step != 15 && s.upd.phase = 3) || s.arbDrill then (s.updRefuse 0x10 0, 0x10)
  else if s.manRefusal ≠ 0 then (s.updRefuse s.manRefusal 0, s.manRefusal)
  else ((s.modUpd (fun u => { u with phase := 4, step := 0, drillAsked := false, drillMine := false })).carryStep .activate, 0)

/-- ABORT (R354): before COMMITTED the prepare ends; after it the update rolls back. -/
def State.updAbortOp (s : State) : State × Nat :=
  let p := s.upd.phase
  if !s.updMine || p = 0 || p = 6 then (s.updRefuse 0x10 0, 0x10)
  else if p = 1 ∨ p = 2 then (s.updAbort 0x13 0, 0)
  else (s.rollBack 0x13 true, 0)

/-- The steps of Table UPD.6 that a unit's strap role takes (R347, R352). -/
def actSteps (r : Strap) : List Nat :=
  match r with
  | .pair => [1, 2, 3, 4, 6, 7]
  | _ => [1, 5, 6, 7]

/-- Is a step complete, as the unit that is ACTIVE now sees it? The handover of step 3 ends with the peer's drill, in the unit that
has taken authority. -/
def State.actDone (s : State) (k : Nat) : Bool :=
  match k with
  | 2 => s.linkOn && s.peerIdle && s.red.peerSt.any (·.ready)
  | 3 => s.red.drill.isNone && !s.upd.drillMine && s.red.peerSt.any (fun p => !p.drill)
  | 4 => s.peerIdle || !s.linkOn
  | 5 => !s.upd.restartDue && !s.sys.mgmtRestart
  | 6 => s.upd.act.isEmpty && s.upd.todo.isEmpty
  | _ => true

/-- A base configuration and overlays of the manifest go into their records before the unit restarts (R350). -/
def State.configRecords (s : State) : State :=
  match s.upd.man with
  | none => s
  | some m =>
    m.entries.foldl (fun s e =>
      let id := if e.kind = 5 then 0x10 else 0x20 + e.param
      let fits := match recPlace id with
        | some (_, _, z) => decide (16 + e.rlen ≤ z)
        | none => false
      if (e.kind = 5 || e.kind = 6) && s.targeted e && fits then
        s.recWrite id 0 (s.flashBytes (bankBase (!s.upd.rec1.bank) + partPlace e.kind e.param e.rlen) e.rlen)
      else s) s

/-- The record of a unit that restarts: state 2, the new bank, the step (Table UPD.6, step 1). -/
def State.trialRec (s : State) (step : Nat) : Rec1 :=
  let r := s.upd.rec1
  if r.state = 2 then { r with step := step } else { r with state := 2, bank := !r.bank, step := step }

/-- FW_CTL activate to slots, up to slot_par at a time (R351). The argument of activate is not stated: a free value. -/
def State.serveSlots : Nat → State → State
  | 0, s => s
  | fuel + 1, s =>
    match s.upd.todo with
    | [] => s
    | k :: q =>
      if s.fld F.UPD_CTL.slot_par ≤ s.upd.act.length then s
      else
        let s1 := s.modUpd (fun u => { u with todo := q, act := u.act ++ [(k, s.time, !s.linkUp k)] })
        let s2 := (s1.mbSend k none 4 (0x03 :: leBytes 4 (s.free.toNat % 2 ^ 32))).getD s1
        State.serveSlots fuel s2.drawn

/-- Slots that are UP again leave the list, and the next are served (R351). -/
def State.slotsServed (s : State) : State :=
  let s1 := s.modUpd (fun u => { u with act := u.act.filter (fun (a : Fin 32 × Nat × Bool) => !(a.2.2 && s.linkUp a.1)) })
  State.serveSlots 32 s1

/-- A step of Table UPD.6 is reached in a unit: UPD_STAT.step and its record. -/
def State.stepAt (s : State) (n : Nat) (r : Rec1) : State := (s.writeRec1 r).modUpd (fun u => { u with step := n })

/-- The trial begins (Table UPD.6, step 7). -/
def State.trialStart (s : State) : State :=
  ((s.modUpd (fun u => { u with phase := 5, trialUsed := 0, trialFrom := if s.vat.hu then none else some s.time })).stepAt 7
    { s.upd.rec1 with step := 7 }).updEvent 0x03 s.upd.rec1.epoch

/-- A unit's record under step 1 of Table UPD.6, with a base configuration and overlays that the manifest holds (R350). -/
def State.trialBegin (s : State) (n : Nat) : State := let s1 := s.configRecords; s1.stepAt n (s1.trialRec n)

/-- A step of Table UPD.6 begins in the unit that is ACTIVE, SOLO or an arbiter; the peer's part of it is carried. -/
def State.actRun (s : State) (n : Nat) : State :=
  match n with
  | 1 => (if s.strap = .pair then s.stepAt 1 { s.upd.rec1 with step := 1 } else s.trialBegin 1).carryStep (.step 1)
  | 3 =>
    let r := s.drillRefusal
    if r = 0 then
      (((s.stepAt 3 { s.upd.rec1 with step := 3 }).modUpd (fun u => { u with drillMine := true })).carryStep (.step 3)).drillStart
    else if s.upd.drillAsked then s
    else (s.modUpd (fun u => { u with drillAsked := true })).fire 0xB5 0x03 0 r
  | 5 => (s.stepAt 5 { s.upd.rec1 with step := 5 }).modUpd (fun u => { u with restartDue := true })
  | 6 =>
    let l := if s.drives then finsWhere 32 (fun k => s.upd.slots.getLsbD k.val) else []
    (((s.modUpd (fun u => { u with step := 6 })).carryStep (.step 6)).modUpd (fun u => { u with todo := l })).slotsServed
  | 7 => s.trialStart.carryStep (.step 7)
  | n => (s.stepAt n { s.upd.rec1 with step := n }).carryStep (.step n)

/-- The unit at which the steps of Table UPD.6 run: the one that is ACTIVE, SOLO or an arbiter for itself (R347, R352). -/
def State.actMine (s : State) : Bool := s.drives || s.sys.role = .arbiter

/-- ACTIVATION_STEP (R347, R354): the step in hand goes on, and when it is complete the next one begins; it waits for HU_EXIT. -/
def execActivationStep (s : State) : Host.Outcome State Fault Refusal :=
  if !(s.mgtUp && s.upd.phase = 4 && !s.vat.hu && s.actMine) then ok s
  else
    let s1 := if s.upd.step = 6 then s.slotsServed else s
    if !s1.actDone s.upd.step then ok s1
    else match (actSteps s.strap).find? (fun n => decide (s.upd.step < n)) with
      | some n => ok (s1.actRun n)
      | none => ok s1

/-- SLOT_ACTIVATE_TIMEOUT (R351): 30 s without a return. -/
def execSlotActivateTimeout (k : Fin 32) (s : State) : Host.Outcome State Fault Refusal :=
  match s.upd.act.find? (fun (a : Fin 32 × Nat × Bool) => a.1 = k) with
  | none => ok s
  | some a =>
    ok (s.whenAt (s.runs .mgt && s.upd.phase = 4) (a.2.1 + 30 * sec1) (fun s =>
      let s1 := s.modUpd (fun u => { u with act := u.act.filter (fun (a : Fin 32 × Nat × Bool) => a.1 != k) })
      State.serveSlots 32 (s1.fire 0xE1 0x04 0 k.val)))

/-! ### The operations as commands -/

/-- An operation of UPD_CMD reaches the block (R340): through a register write of the host. -/
def State.updHost (s : State) (r : State × Nat) : State := s.when (s.runs .hst && s.runs .mgt) r.1

/-- UPD_BEGIN (R344). -/
def execUpdBegin (s : State) : Host.Outcome State Fault Refusal := ok (s.updHost s.updBegin)

/-- The bytes of UPD_BUF. -/
def State.updBuf (s : State) : List Byte := (List.range 512).flatMap (fun k => leBytes 4 (s.fld (F.UPD_BUF.buf k)))

/-- UPD_CHUNK (R341), of the offset in UPD_CHUNK. -/
def execUpdChunk (s : State) : Host.Outcome State Fault Refusal := ok (s.updHost (s.updChunk (s.fld F.UPD_CHUNK.off) s.updBuf))

/-- UPD_END (R344). -/
def execUpdEnd (s : State) : Host.Outcome State Fault Refusal := ok (s.updHost s.updEnd)

/-- UPD_COMMIT (R345). -/
def execUpdCommit (s : State) : Host.Outcome State Fault Refusal := ok (s.updHost s.updCommit)

/-- UPD_ACTIVATE (R347). -/
def execUpdActivate (s : State) : Host.Outcome State Fault Refusal := ok (s.updHost s.updActivate)

/-- UPD_ABORT (R354). -/
def execUpdAbort (s : State) : Host.Outcome State Fault Refusal := ok (s.updHost s.updAbortOp)

/-- Has the peer verified every part that names it (R344)? -/
def State.peerPrepared (s : State) : Bool :=
  s.strap != .pair || s.sys.role != .active ||
    (s.upd.man.map (fun m => m.entries.all (fun e => !bitAt e.target (1 - b2n s.unitBit)))).getD true ||
    (s.linkOn && s.upd.carry.isEmpty && s.red.peerSt.any (fun p => p.upd.phase = 2))

/-- PREPARE_COMPLETE (R344, R351): END was accepted, no relay runs any more, and every part has verified. -/
def execPrepareComplete (s : State) : Host.Outcome State Fault Refusal :=
  let e := (s.upd.man.map Manifest.epoch).getD 0
  ok (s.when (s.runs .mgt && s.upd.phase = 1 && s.upd.ending && allFin 32 (fun k => s.slt[k].fw.isNone) && s.peerPrepared)
    ((s.modUpd (fun u => { u with phase := 2, ending := false })).updEvent 0x01 e))

/-- The unit's own write of record 0x0001 by COMMIT begins (R345). -/
def State.commitOwn (s : State) (m : Manifest) : State :=
  (s.modUpd (fun u => { u with ownWrite := true, prevDigest := u.rec1.digest })).writeRec1 (s.commitRec m)

/-- A commit of the parameter store for a record that waits for one (R345). -/
def State.rec1Flush (s : State) : State :=
  if s.nvp.commit.isNone && s.nvp.held != 0 && !s.aon.pf then s.commitStart else s

/-- COMMIT_WRITES_DONE (R345): the peer's write is done or failed. This unit's own follows it, and the update is COMMITTED when that has
completed too. Without a peer its own stands alone. -/
def execCommitWritesDone (peerOk : Bool) (s : State) : Host.Outcome State Fault Refusal :=
  match s.upd.man with
  | none => ok s
  | some m =>
    if !(s.runs .mgt && s.upd.phase = 2 && s.upd.committing) then ok s
    else if !s.upd.ownWrite && s.strap = .pair && s.sys.role = .active && !peerOk then ok (s.updAbort 0x0F 0)
    else
      let s1 := if s.upd.ownWrite then s else s.commitOwn m
      if s1.rec1Waits then ok s1.rec1Flush
      else ok ((s1.modUpd (fun u => { u with phase := 3, committing := false, ownWrite := false })).updEvent 0x02 m.epoch)

/-- TRIAL_END (R348): the trial has run for UPD_TRIAL.ms without a rollback. -/
def execTrialEnd (s : State) : Host.Outcome State Fault Refusal :=
  match s.upd.trialFrom with
  | none => ok s
  | some t =>
    ok (s.whenAt (s.runs .mgt && s.upd.phase = 5 && s.actMine) (t + (s.fld F.UPD_TRIAL.ms * ms1 - s.upd.trialUsed)) State.confirm)

/-- The peer's record names another epoch than this unit's (R345). -/
def State.epochsDiffer (s : State) : Bool := s.peerAccepted && s.red.peerSt.any (fun q => q.record.epoch != s.upd.rec1.epoch)

/-- Why an update is to be rolled back now (R348, R345, R354); 0 for no reason: DRILL_FALLBACK at step 3, the peer lost before
step 2, records that name different epochs after a reset. -/
def State.rollbackCause (s : State) : Nat :=
  let p := s.upd.phase
  if p = 4 ∧ s.upd.step = 3 ∧ s.upd.drillMine ∧ s.red.drill.isNone ∧ s.sys.role = .active then 0x11
  else if (p = 3 ∨ (p = 4 ∧ s.upd.step < 2)) ∧ s.strap = .pair ∧ s.sys.role = .active ∧ !s.linkOn then 0x0F
  else if (p = 4 ∨ p = 5 ∨ (p = 3 ∧ s.sys.role = .active)) ∧ s.epochsDiffer then (if s.upd.rec1.state = 2 then 0x11 else 0x12)
  else if p = 0 ∧ !s.upd.recon ∧ s.epochsDiffer then 0x0F
  else 0

/-- Two units at rest whose records name different epochs after a reset both take the lower epoch's bank and rewrite their records with it
(R345); a unit that runs another bank restarts onto it. -/
def State.reconcile (s : State) (reason : Nat) : State :=
  match s.red.peerSt with
  | none => s
  | some q =>
    let low := if q.record.epoch < s.upd.rec1.epoch then q.record else s.upd.rec1
    (s.modUpd (fun u => { u with recon := true })).rollTo { low with state := 0, step := 0 } reason (decide (low.bank ≠ s.sys.bank))

/-- UPD_ROLLBACK (R348, R345). -/
def execUpdRollback (s : State) : Host.Outcome State Fault Refusal :=
  let r := s.rollbackCause
  ok (s.when (s.mgtUp && r ≠ 0) (if s.upd.phase = 0 then s.reconcile r else s.rollBack r true))

/-! ### Management restart (R346) -/

/-- Is an image of a bank accepted (14_start_up R282): signature, key, rollback index? -/
def State.imageOk (s : State) (i : ImageCheck) : Bool :=
  i.sigOk && decide (s.thermoNow 0 ≤ i.rbi) &&
    (if s.otp.live.key = 0 then i.defaultKey else s.otp.live.key = 1 && i.keyHash = s.otp.live.keyHash)

/-- A two-wire port after a reset of its own side (19_two_wire R386). -/
def State.portReset (s : State) (p : Fin 4) : State :=
  s.modTwp p (fun _ => { TwPort.reset with check := true, enSeen := s.bit (F.TWP_CFG.en p) })

/-- MGMT_RESTART (R346, R348): the MGT island alone is reset and starts the bank that record 0x0001 names; a failure at step 4
rolls the update back. In a rollback the standby restarts first (R348). -/
def execMgmtRestart (image : ImageCheck) (s : State) : Host.Outcome State Fault Refusal :=
  let waits := s.upd.phase = 6 && s.strap = .pair && s.sys.role = .active && s.linkOn && !s.peerIdle
  if !(s.aon.vaon && !s.sys.inReset && !s.gated .mgt && decide (6 < s.sys.step) && s.sys.step != 15 && s.upd.restartDue && !waits) then ok s
  else
    let s1 := s.readRec1
    let s2 := { s1 with sys := { s1.sys with mgmtRestart := true, bank := s1.upd.rec1.bank, wdtArmed := false }
                        upd := { s1.upd with restartDue := false } }
    let s3 := foldFin 4 s2 State.portReset
    if s.imageOk image then ok s3
    else if s.upd.phase = 6 then ok (s3.modUpd (fun u => { u with restartDue := true }))
    else ok (s3.rollBack 0x11 true)

/-- Words that a reload writes: base and overlay; what the old ones named, and the registers of MGT, return to base (R346). -/
def State.reloadWords (s : State) (c : ConfigSet) : List (Nat × Word) :=
  let new := c.base.filter (fun p => !(c.overlay.map Prod.fst).contains p.1) ++ c.overlay
  let old := (s.regs.base.map Prod.fst ++ s.regs.patched ++
    (s.regs.act.map Prod.fst).filter (fun o => islandAt o == some .mgt)).filter (fun o => !(new.map Prod.fst).contains o)
  let after := { s with regs := { s.regs with base := c.base.foldl (fun (m : Cells Word) (p : Nat × Word) => cellIns m p.1 p.2) [] } }
  (old.map (fun o => (o, after.baseWord o))) ++ new

/-- The tables and the configuration of a management restart (R346): tables for a commit, base and overlay staged for one swap;
with no configuration that passes, what is in force stays (20_guarantees Table GAR.1). -/
def State.reload (s : State) : State :=
  let m := match s.regs.stage with
    | some g => g.mode
    | none => s.sys.mode
  let s1 := s.tablesLoad
  let ts := { s1 with regs := { s1.regs with act := [], staged := [] }, hbx := { s1.hbx with active := s1.hbx.shadow } }
  let (r, g, failed) := ts.configChoose m
  let back := { r with
    regs := { s1.regs with sticky := r.regs.sticky, fresh := r.regs.fresh, freshAt := r.regs.freshAt }, hbx := s1.hbx }
  let s2 := if failed then back.cfgFailEvent else back
  let s3 := { s2 with bat := { s2.bat with
    tmpl := s2.tableCells 0x5D400 336 1, ocv := Vector.ofFn (fun (k : Fin 21) => (s2.tableWord (0x5D940 + 4 * k.val)).toInt) } }
  match g with
  | none => { s3 with sys := { s3.sys with cfgFail := true } }.commitTables
  | some c =>
    let ws := s3.reloadWords c
    let curves := ws.filter (fun p => (curvePlace p.1).isSome)
    let shadow := curves.foldl (fun (m : Cells Word) (p : Nat × Word) => cellPut 0 m (p.1 - 0x50000) p.2) s3.hbx.shadow
    let g' : Stage := match s3.regs.stage with
      | some x => { x with words := ws, patched := c.overlay.map Prod.fst, at_ := s3.time }
      | none => ⟨s3.sys.mode, ws, c.overlay.map Prod.fst, false, true, s3.time⟩
    let s4 := { s3 with
      regs := { s3.regs with base := c.base.foldl (fun (m : Cells Word) (p : Nat × Word) => cellIns m p.1 p.2) [], stage := some g' }
      hbx := { s3.hbx with shadow := shadow } }
    s4.commitTables

/-- MGMT_RESTART_COMPLETE (R346): step 6 ends and what paused goes on; the watchdog is armed again (14_start_up R286). -/
def execMgmtRestartComplete (s : State) : Host.Outcome State Fault Refusal :=
  if !(s.aon.vaon && s.sys.mgmtRestart && !s.upd.restartDue) then ok s
  else
    let s1 := { s with
      sys := { s.sys with mgmtRestart := false, wdtArmed := true, wdtAt := s.time }, aon := { s.aon with liveAt := s.time }
      upd := { s.upd with phase := if s.upd.phase = 6 then 0 else s.upd.phase } }
    ok s1.reload.nvpFlow.bcnFlush

end Sys2Proof.Machine
end

