-- ==== Sys2Proof/Machine/Boot.lean ====
section
/-! DEFINITION. Resets and boot (14_start_up R278–R289): causes of reset, core release, the nine boot steps, the role decision,
the watchdog, and the loss of VAON (22_balls R418). -/

namespace Sys2Proof.Machine

/-! ### Causes of reset (R278, Table SYS.1) -/

/-- Boot steps 1 and 2: the fuse latch (13_fuse R269); core release is awaited. -/
def State.coldSteps (s : State) : State :=
  let s1 := s.fuseLatch
  { s1 with sys := { s1.sys with step := 2 } }

/-- AON_POWER_GOOD (R278, 19_two_wire R387, 15_parameter_store R311): the straps are sampled for the beacon address. -/
def execAonPowerGood (solo unitSel : Bool) (s : State) : Host.Outcome State Fault Refusal :=
  if s.aon.vaon && s.sys.step ≠ 0 then ok s
  else
    ok { s with
      aon := { s.aon with vaon := true, soloBall := solo, unitBall := unitSel, optBase := 0, optFrom := s.time, optKept := false }
      sys := { s.sys with rstCause := 1, cold := true, inReset := true, step := 1 } }.coldSteps

/-- RST_N_ASSERT (R278): the ball has been low for 1 µs. -/
def execRstNAssert (s : State) : Host.Outcome State Fault Refusal :=
  if !(s.aon.vaon && s.aon.rstN) then ok s
  else
    let s1 := s.coldReset 2
    ok { s1 with aon := { s1.aon with rstN := false } }

/-- RST_N_RELEASE (R278): boot goes on at step 1. -/
def execRstNRelease (s : State) : Host.Outcome State Fault Refusal :=
  ok (s.when (s.aon.vaon && !s.aon.rstN) { s with aon := { s.aon with rstN := true } }.coldSteps)

/-- The key of SYS_RST (Table SYS.9). -/
def rstKey : BitVec 16 := 0xA55A

/-- SYS_RST_COLD (R278). -/
def execSysRstCold (key : BitVec 16) (s : State) : Host.Outcome State Fault Refusal :=
  ok (s.when (s.runs .hst && s.runs .mgt && key = rstKey) (s.coldReset 3).coldSteps)

/-- SYS_RST_WARM (R278, R283): while no image is accepted it repeats step 4. -/
def execSysRstWarm (key : BitVec 16) (s : State) : Host.Outcome State Fault Refusal :=
  if !(s.runs .hst && s.runs .mgt && key = rstKey) then ok s
  else if s.sys.step = 15 then ok { s with sys := { s.sys with step := 4 } }
  else ok (s.warmReset 9)

/-- A supply's place among the monitors. -/
def supplyIdx : Supply → Fin 5
  | .vcore => 0 | .vpll => 1 | .vana => 2 | .vio18 => 3 | .vio33 => 4

/-- SUPPLY_PG_RETURN (R278). -/
def execSupplyPgReturn (s : State) : Host.Outcome State Fault Refusal :=
  ok (s.when s.aon.vaon { s with aon := { s.aon with good := Vector.replicate 5 true } })

/-- REF_LOST (R278): the reference has been absent for 1 µs. -/
def execRefLost (s : State) : Host.Outcome State Fault Refusal :=
  if !(s.aon.vaon && s.aon.refOk) then ok s
  else
    let s1 := { s with aon := { s.aon with refOk := false } }.fire 0x03 0x01 0 0
    ok (if s.sys.inReset then s1 else s1.warmReset 11)

/-- REF_RETURN (R278): the reference has been present for 1 ms. -/
def execRefReturn (s : State) : Host.Outcome State Fault Refusal :=
  ok (s.when s.aon.vaon { s with aon := { s.aon with refOk := true } })

/-- TRANSPORT_WAKE (08_battery R174): a cold start. -/
def execTransportWake (s : State) : Host.Outcome State Fault Refusal :=
  ok (s.when (s.aon.vaon && s.aon.transport) (s.coldReset 4).coldSteps)

/-- VAON_LOST (22_balls R418): AON's state is lost. A save after a power failure runs on from VSTORE; without one there is none. -/
def execVaonLost (s : State) : Host.Outcome State Fault Refusal :=
  if !s.aon.vaon then ok s
  else
    let save := if s.aon.pf then s.nvp.save.map (fun v => { v with lost := true }) else none
    let s1 := { s with nvp := { s.nvp with save := save } }.coldReset 1
    ok { s1 with
      chans := Chans.reset
      aon := { Aon.reset with vaon := false, good := s.aon.good, rstN := s.aon.rstN, refOk := s.aon.refOk }
      sys := Sys.reset }

/-! ### Core release and the PLLs (R280, R281) -/

/-- The conditions of core release that AON sees in its own state (R280, Table SYS.1, 12_thermal R260); REC has entered reset. -/
def State.releaseOk (s : State) : Bool :=
  s.aon.vaon && s.sys.inReset && s.otp.latched && s.aon.good.toList.all id && s.aon.rstN && s.aon.refOk && !s.aon.sd && !s.aon.transport &&
    s.nvp.recDue.isNone

/-- CORE_RELEASE (R280): with the PWRGD input high, step 3 begins and the straps are sampled; power-fail is over (15_parameter_store
R306). -/
def execCoreRelease (pwrgd : Bool) (balls : StrapBalls) (s : State) : Host.Outcome State Fault Refusal :=
  ok (s.when (pwrgd && s.releaseOk) { s with
    sys := { s.sys with inReset := false, step := 3, strapSolo := balls.solo, strapUnit := balls.unitSel, releaseAt := s.time }
    aon := { s.aon with pf := false, pfGood := false, liveAt := s.time, fwDead := false } })

/-- AON's count of the reset interval (02_sense R26): within 2 % of it, a value the spec leaves open, rounded up to 50 ns. -/
def countedInterval (ns free : Nat) : Nat := (ns * (980000 + free % 40001) / 1000000 + 49) / 50 * 50

/-- PLL_LOCK (R281, 02_sense R26): SNS_TIME starts at 0, or resumes from the held value plus the counted interval. -/
def execPllLock (s : State) : Host.Outcome State Fault Refusal :=
  if !(s.runs .mgt && s.sys.step = 3) then ok s
  else
    let s1 := { s with sys := { s.sys with step := 4 } }
    match s.aon.heldAt with
    | some t =>
      let base := min 0xFFFFFFFFFFFFFFFF (s.aon.heldTime + countedInterval ((s.time - t) / ns1) s.free.toNat)
      ok { s1.drawn with
        sns := { s1.sns with running := true, timeBase := base, timeFrom := s.time, resumed := true }, aon := { s1.aon with heldAt := none } }
    | none => ok { s1 with sns := { s1.sns with running := true, timeBase := 0, timeFrom := s.time } }

/-! ### Step 4 (R282, R283) -/

/-- Is a recovery image accepted (R282)? -/
def State.recoveryOk (s : State) (i : ImageCheck) : Bool :=
  i.sigOk && decide (s.thermoNow 1 ≤ i.rbi) &&
    (if s.otp.live.key = 0 then i.defaultKey else if s.otp.live.key = 1 then i.keyHash = s.otp.live.keyHash else i.recoveryKey)

/-- BOOT_BANK_SELECT (R282): an interrupted trial goes back to the old bank; a committed update that a reset met rolls back
(17_field_update R354). -/
def State.bankSelect (s : State) : State :=
  let s1 := s.readRec1
  if s1.upd.rec1.state = 2 then s1.rollBack 0x11 false
  else if s1.upd.rec1.state = 1 then s1.rollBack 0x12 false
  else s1

/-- The step-4 image starts: step 5 begins and the watchdog is armed (R286). -/
def State.imageStarts (s : State) (bank : Bool) : State :=
  { s with sys := { s.sys with step := 5, bank := bank, wdtArmed := true, wdtAt := s.time } }

/-- The recovery image starts, or no image is accepted (R282, R283, R290). -/
def State.recoveryStarts (s : State) (i : ImageCheck) : State :=
  if s.recoveryOk i then
    let s1 := (s.imageStarts s.upd.rec1.bank).fire 0x00 0x03 0 s.sys.stFail.toNat
    { s1 with sys := { s1.sys with recovery := true } }.modeChange modeRecovery
  else { s with sys := { s.sys with step := 15 } }

/-- What the boot ROM does before it verifies an image (R282, R355): record 0x0001 selects the bank, and the key is read from the fuses
anew. -/
def State.bootChecks (s : State) : State :=
  let s1 := s.bankSelect
  let lv := s1.otp.latchLive
  s1.modOtp (fun o => { o with live := { o.live with key := lv.key, keyHash := lv.keyHash } })

/-- BOOT_IMAGE_VERIFIED (R282, R283, R286): the key is read anew (13_fuse R266). -/
def execBootImageVerified (bank0 bank1 recov : ImageCheck) (s : State) : Host.Outcome State Fault Refusal :=
  if !(s.runs .mgt && s.sys.step = 4) then ok s
  else
    let s2 := s.bootChecks
    let b := s2.upd.rec1.bank
    let img (b : Bool) : ImageCheck := if b then bank1 else bank0
    if decide (3 ≤ s.sys.wdtRun) || s2.otp.live.key = 2 then ok (s2.recoveryStarts recov)
    else if s2.imageOk (img b) then ok (s2.imageStarts b)
    else if s2.imageOk (img (!b)) then ok ((s2.imageStarts (!b)).fire 0x00 0x02 0 (b2n (!b)))
    else ok (s2.recoveryStarts recov)

/-- What the passing of time brings about without a command: one unit of the clock, and the end of boot step 5 once the management
cores run, with which step 6 begins (R281, Table SYS.3; log 1, log 79). -/
def State.idle (s : State) : State :=
  { s with time := s.time + 1, sys := if s.sys.step = 5 && s.runs .mgt then { s.sys with step := 6 } else s.sys }

/-! ### Self-tests, role (R285–R288) -/

/-- PEER_REJECTED (R288): once in a start. -/
def State.peerReject (s : State) : State :=
  match s.red.peerSt with
  | some p =>
    if s.strap = .pair && s.linkOn && !s.peerAccepted && !s.sys.peerRej then
      { s with sys := { s.sys with peerRej := true } }.fire 0x07 0x03 0 p.pairId.toNat
    else s
  | none => s

/-- The self-tests whose failure restricts the unit (Table SYS.4). -/
def restricting (f : BitVec 8) : Bool := f &&& 0x7D != 0

/-- SELF_TEST_COMPLETE (R285): one bit of `fail` per test of Table SYS.4. -/
def execSelfTestComplete (fail : BitVec 8) (s : State) : Host.Outcome State Fault Refusal :=
  if !(s.runs .mgt && s.sys.step = 7) then ok s
  else
    let r := restricting fail
    let s1 := { s with sys := { s.sys with step := 8, stFail := fail, restricted := r, peerFrom := s.time } }
    let s2 := (List.range 8).foldl (fun s k => if fail.getLsbD k then s.fire 0x00 0x05 k fail.toNat else s) s1
    let s3 := if r && s2.upd.rec1.state ≠ 0 then s2.rollBack 0x11 true else s2
    ok s3.peerReject

/-- The decision of R288: the role, whether the start is lone, whether a fuse denied the strap's role. A SOLO unit is a STANDBY
while DEMOTE_N is accepted low (10_redundancy R214, R216; log 62). -/
def State.decide288 (s : State) : Role × Bool × Bool :=
  if s.sys.restricted then (.standby, false, false)
  else match s.strap with
    | .solo => if s.otp.live.denySolo then (.standby, false, true) else (if s.aon.demoted then .standby else .solo, false, false)
    | .arbiter => if s.otp.live.denyArb then (.standby, false, true) else (.arbiter, false, false)
    | .pair =>
      if !s.canAct then (.standby, false, false)
      else if s.peerAccepted then
        if claimRole s.red.peer = 3 then (.standby, false, false)
        else if !s.unitBit || !(s.red.peerSt.any (·.canAct)) then (.active, false, false)
        else (.standby, false, false)
      else (.active, true, false)

/-- The epoch of a unit that becomes ACTIVE or SOLO at its role decision (10_redundancy R202). -/
def State.startEpoch (s : State) : BitVec 5 :=
  match s.aon.peerEpoch with
  | some e => e + 1
  | none => 0

/-- An island served at an address of BAR0 is among those given. -/
def servedBy (l : List Island) (off : Nat) : Bool := (islandAt off).any (fun i => l.contains i)

/-- The islands that an arbiter gates keep no state (01_shelf R16, Table SHF.3): CTL, DSP, LNK, BAT and PER at their reset states,
their registers included. SNS_TIME, by which every island stamps, counts on (log 75). -/
def State.arbiterGated (s : State) : State :=
  let l : List Island := [.ctl, .dsp, .lnk, .bat, .per]
  let n := s.sns
  let s1 := s.perGated
  { s1 with
    tick := 0, tickAt := none, law := Law.reset, pwm := Pwm.reset, hbx := Hbx.reset, dkl := Dkl.reset, vat := Vat.reset,
    bat := Bat.reset, slt := Vector.replicate 32 Slt.reset
    sns := { Sns.reset with running := n.running, timeBase := n.timeBase, timeFrom := n.timeFrom, resumed := n.resumed, timeSat := n.timeSat }
    red := { Red.reset with claim := s.red.claim, padLow := s.red.padLow }
    regs := { s1.regs with
      act := s1.regs.act.filter (fun p => !servedBy l p.1)
      staged := []
      shadowQ := s1.regs.shadowQ.filter (fun h => !servedBy l h.off)
      sticky := s1.regs.sticky.filter (fun p => !servedBy l p.1)
      fresh := s1.regs.fresh.filter (fun p => !servedBy l p.1)
      calHist := [] } }

/-- The islands that a role gates keep no state (01_shelf R16, Table SHF.3). -/
def State.gateFor (s : State) (role : Role) : State :=
  match role with
  | .arbiter => s.arbiterGated
  | .solo => s.perGated
  | _ => s

/-- The role is decided (R288, R202, Table SYS.8). -/
def State.roleDecide (s : State) : State :=
  let s0 := s.peerReject
  let (role, lone, denied) := s0.decide288
  let s00 := s0.gateFor role
  let s1 := { s00 with
    sys := { s00.sys with step := 9, role := role, lone := lone, svcReq := s00.sys.svcReq || role = Role.arbiter }
    aon := { s00.aon with strobe := Vector.replicate 3 s.time, strobeLost := Vector.replicate 3 false }
    arb := { s00.arb with u := s00.arb.u.map (fun (u : ArbUnit) => { u with edge := s.time, seen := false }) } }
  let s2 := if role = .active ∨ role = .solo then s1.takeDrive role s0.startEpoch else s1.latchClaim.lawSyncAll
  let s3 := if denied then s2.fire 0x07 0x02 0 role.code else s2
  s.follow (s3.fire 0x07 0x01 0 role.code)

/-- ROLE_DECISION (R288): once a peer is accepted, or peer_ms after step 7. -/
def execRoleDecision (s : State) : Host.Outcome State Fault Refusal :=
  let acc := s.strap = .pair && s.peerAccepted
  ok (s.whenAt (s.runs .mgt && s.sys.step = 8) (if acc then s.time else s.sys.peerFrom + s.fld F.SYS_BOOT.peer_ms * ms1)
    State.roleDecide)

/-! ### Step 9 (11_sequencing R237, Table SYS.8) -/

/-- What a thermal restart reports when the sequencer starts (12_thermal R260, R262); the TRIP outputs stay asserted where no
configuration lets it start (R284). -/
def State.restartReport (s : State) : State :=
  if s.aon.sdReport then
    let s1 := { s with aon := { s.aon with
      sdReport := false, tripSd := if s.sys.cfgFail then s.aon.tripSd else 0 } }.stick F.THM_STAT.sd_seen
    (s1.fire 0xA4 0x01 s.aon.sdSensor (s.shown .THM_SD_LOG 0 0)).fire 0xA5 0x01 0 s.aon.sdCnt.word.toNat
  else s

/-- BOOT_STEP9 (R281, R237, Table SYS.8, 17_field_update R348). -/
def execBootStep9 (s : State) : Host.Outcome State Fault Refusal :=
  if !(s.runs .mgt && s.sys.step = 9) then ok s
  else
    let us := min max32 ((s.time - s.sys.releaseAt) / us1)
    let s1 := { s with sys := { s.sys with step := 10, bootUs := us, wdtRun := 0 } }
    let s2 := (s1.fire 0x00 0x01 0 us).fire 0x02 (if s.sys.cold then 1 else 2) 0 s.sys.rstCause
    let s3 := if s2.seqRuns && s2.drives && s2.bit F.SEQ_CFG.auto_go && !s2.sys.cfgFail && s2.seq.st = 0 then s2.powerUp else s2
    ok s3.restartReport.advanceBoth

/-! ### Watchdog (R286) -/

/-- WATCHDOG_EXPIRY (R286, 10_redundancy R207). -/
def execWatchdogExpiry (s : State) : Host.Outcome State Fault Refusal :=
  ok (s.whenAt (s.runs .mgt && s.sys.wdtArmed) (s.sys.wdtAt + s.fld F.SYS_WDT.ms * ms1)
    (fun s => (s.fire 0x04 0x01 0 (s.sys.wdtRun + 1)).warmReset 8))

end Sys2Proof.Machine
end

