-- ==== Sys2Proof/Machine/Power.lean ====
section
/-! DEFINITION. Power failure (15_parameter_store R306, R307, R310, R313, R314; 16_black_box R328; 13_fuse R276;
17_field_update R354). -/

namespace Sys2Proof.Machine

/-- The commit engine completes the word in flight and stops: the first `words` words of the buffer are in the store (R307). -/
def State.commitStop (s : State) (words : Nat) : State :=
  match s.nvp.commit with
  | none => s
  | some _ =>
    if s.nvp.stopped then s
    else (s.storeWords (s.nvp.buf.take words)).modNvp (fun v => { v with stopped := true })

/-- The save of R310 and R313 starts: an hourly slot in the making stops after a number of its words that the spec leaves open,
and the power-fail slot goes to the one after it; another save that runs goes on (R314). -/
def State.pfSave (s : State) : State :=
  match s.nvp.save with
  | none => s.saveStart 2 true none
  | some v =>
    if v.image then s
    else if v.slotDone then s.saveStart 2 true none
    else
      let (j, q) := s.nextSlot v.after
      ((s.drawn).storeWords ((slotWords j q v.payload).take (s.free.toNat % 75))).saveStart 2 true (some ((j + 1) % 16))

/-- The record POWER_FAIL (16_black_box R328), after a running CLEAR or RELEASE has completed. -/
def State.pfRecord (s : State) : State :=
  s.opFinish.ownRecord 0xD7 0x02 (BitVec.ofNat 64 (8 * s.nvp.held)) 8 (s.bit F.BBX_CFG.pf_seal)

/-- Field update at a power failure (17_field_update Table UPD.7). -/
def State.pfUpdate (s : State) : State :=
  let p := s.upd.phase
  if p = 1 ∨ p = 2 then s.updAbort 0x12 s.upd.failing
  else if p = 3 ∨ p = 4 ∨ p = 5 then s.rollBack (if s.upd.rec1.state = 2 then 0x11 else 0x12) true
  else s

/-- Power-fail is asserted (R306, R307): a fuse command is cut, the commit stops after `words` words, the record and the save follow.
While REC is held in reset only the flag sets. -/
def State.powerFail (s : State) (words : Nat) : State :=
  if s.aon.pf then s
  else
    let s1 := { s with aon := { s.aon with pf := true, pfGood := s.aon.good.toList.all id } }.otpCut.commitStop words
    if s.runs .recI then s1.pfRecord.pfSave.pfUpdate else s1

/-- POWER_FAIL_ASSERT (R306): PF_DET has been high for 1 µs. -/
def execPowerFailAssert (words : Nat) (s : State) : Host.Outcome State Fault Refusal :=
  if !s.aon.vaon then ok s else ok (s.powerFail words)

/-- SUPPLY_PG_LOST (14_start R278, 10_redundancy R207): a warm reset. The loss of VCORE asserts power-fail first, at a word of a running
commit that is not stated: a free value; REC runs until the save ends (R306). -/
def execSupplyPgLost (which : Supply) (s : State) : Host.Outcome State Fault Refusal :=
  if !s.aon.vaon then ok s
  else
    let s1 := { s with aon := { s.aon with good := s.aon.good.set (supplyIdx which) false, pfGood := false } }
    let s2 := if which = .vcore then s1.drawn.powerFail (s1.free.toNat % (s1.nvp.buf.length + 1)) else s1
    ok (if s.sys.inReset then s2 else s2.warmReset 10)

end Sys2Proof.Machine
end

