-- ==== Sys2Proof/Machine/HostCmd.lean ====
section
/-! DEFINITION. The host's side of the rings (18_host_rings R356–R366, R368, R371, R377): resets and link of the endpoint,
doorbells, commands from their fetch to their completion, DMA errors, telemetry. -/

namespace Sys2Proof.Machine

/-- A command or stream ring by its number among all eight. -/
def ring8 (r : Fin 4) : Fin 8 := ⟨r.val, by omega⟩
/-- Ring 4 + r: completion, event, telemetry, trace. -/
def upRing (r : Fin 4) : Fin 8 := ⟨4 + r.val, by omega⟩

/-! ### Endpoint (R357, R377) -/

/-- HST_RESET (R357): the HST island, the rings and the doorbells; commands in progress run to their end unseen. -/
def execHstReset (k : HstReset) (s : State) : Host.Outcome State Fault Refusal :=
  if !s.runs .hst || (k = .d3hotExit && !s.hst.d3hot) then ok s
  else
    let keep (p : Nat × Word) : Bool := decide (p.1 < 0x1F000 ∨ 0x20000 ≤ p.1)
    let h := s.hst
    ok { s with
      regs := { s.regs with act := s.regs.act.filter keep, sticky := s.regs.sticky.filter keep }
      hst := { Hst.reset with cmd := h.cmd.map (fun c => c.map (fun c => { c with mute := true })), fetched := h.fetched, posted := h.posted
                              up := h.up, gen := h.gen, width := h.width, ltssm := h.ltssm, d3hot := h.d3hot && k != .d3hotExit }
      evt := { s.evt with msix := Evt.reset.msix, pba := 0, vheld := Evt.reset.vheld, vlast := Evt.reset.vlast } }

/-- PCIE_LINK_CHANGE (R377, Table HST.10, R357): the link's state as HST_LINK shows it; a link that comes up sends what is
pending. The endpoint is ready for training 20 ms after PLL lock, with which SNS_TIME runs. -/
def execPcieLinkChange (up d3hot : Bool) (gen width : BitVec 4) (ltssm : BitVec 6) (s : State) : Host.Outcome State Fault Refusal :=
  if !s.runs .hst || (up && !(s.sns.running && s.elapsed s.sns.timeFrom (20 * ms1))) then ok s
  else
    let s1 := s.modHst (fun h => { h with up := up, d3hot := d3hot, gen := gen, width := width, ltssm := ltssm })
    let w := s1.linkWord
    let s2 := if up && !s.hst.up then s1.fire 0xC0 0x01 0 w else if !up && s.hst.up then s1.fire 0xC0 0x02 0 w else s1
    let low := up && (decide (gen.toNat < 3) || decide (width.toNat < 2))
    let was := s.hst.up && (decide (s.hst.gen.toNat < 3) || decide (s.hst.width.toNat < 2))
    let s3 := if low && !was then s2.fire 0xC0 0x03 0 w else s2
    ok s3.vecRelease

/-! ### Doorbells (R360, R362) -/

/-- A ring enters ERROR with its event (R362, R377). -/
def State.ringError (s : State) (r : Fin 8) (src cause : Nat) : State := (s.modRing r (fun g => { g with err := true })).ringEvent r src cause r.val

/-- COMMAND_DOORBELL (R362): a new tail; a value of 2^lsize or more, or one that overfills the ring, is an error. -/
def execCommandDoorbell (r : Fin 4) (val : Word) (s : State) : Host.Outcome State Fault Refusal :=
  let q := ring8 r
  if !(s.runs .hst && s.ringOn q) then ok s
  else
    let v := val.toNat % 65536
    let n := s.ringSize q
    let adv := (v + n - s.hst.ring[q].tail % n) % n
    if n ≤ v ∨ n ≤ s.ringUsed q + adv then ok (s.ringError q 0xC2 0x01)
    else ok (s.modRing q (fun g => { g with tail := v, bell := v }))

/-- Entries of the completion ring that no command has reserved (R364). -/
def State.cplFree (s : State) : Nat := s.ringRoom 4 - s.hst.reserved

/-- CONSUMER_DOORBELL (R360, R362, R373): a new head of ring 4 + r; where it frees completion space that command rings lacked, the
completion ring raises its vector. -/
def execConsumerDoorbell (r : Fin 4) (val : Word) (s : State) : Host.Outcome State Fault Refusal :=
  let q := upRing r
  if !(s.runs .hst && s.ringOn q) then ok s
  else
    let v := val.toNat % 65536
    if s.ringSize q ≤ v then ok (s.ringError q 0xC2 0x01)
    else
      let s1 := s.modRing q (fun g => { g with head := v, bell := v })
      ok (if r = 0 && s.cplFree = 0 && s1.cplFree ≠ 0 then s1.ringVec q else s1)

/-! ### Fetch (R363, R364) -/

/-- Operand bytes that an opcode uses; none for an unknown opcode (Table HST.7). -/
def opndUsed (op : Nat) : Option (List Nat) :=
  match op with
  | 0x01 | 0x12 => some []
  | 0x10 => some [0, 1]
  | 0x11 => some [0, 1, 2, 3]
  | 0x20 => some [0, 1, 2, 3, 4]
  | 0x30 => some [0, 4, 5, 6, 7]
  | 0x40 => some [0]
  | 0x50 => some [0, 4, 5, 6, 7]
  | _ => none

/-- A descriptor from its 32 bytes (Table HST.3); resOk: reserved bits and unused operand bytes are 0, the buffer is aligned and its
length in range. -/
def descOf (b : List Byte) : Desc :=
  let op := leAt b 0 2
  let used := (opndUsed op).getD []
  { opcode := op, flags := leAt b 2 1, tag := BitVec.ofNat 32 (leAt b 4 4), buf := leAt b 8 8, blen := leAt b 16 4, opnd := byteSlice b 20 12
    resOk := leAt b 3 1 = 0 && leAt b 2 1 < 2 && leAt b 8 8 % 4 = 0 && decide (leAt b 16 4 ≤ 65536) &&
      (List.range 12).all (fun i => used.contains i || leAt b (20 + i) 1 = 0) }

/-- The fence flag of a command. -/
def Cmd.fence (c : Cmd) : Bool := bitAt c.d.flags 0

/-- Commands in progress. -/
def State.cmds (s : State) : List Cmd := s.hst.cmd.toList.filterMap id

/-- COMMAND_FETCH (R364, R365): with a completion entry reserved; an unknown opcode or a non-zero reserved byte gets its status at
once. -/
def execCommandFetch (r : Fin 4) (desc : Vector Byte 32) (s : State) : Host.Outcome State Fault Refusal :=
  let q := ring8 r
  let g := s.hst.ring[q]
  if !(s.mgtUp && s.hostUp && s.ringOn q && g.head != g.tail && s.hst.cmd[r].isNone && s.ringOn 4 && s.cplFree != 0 &&
      !s.cmds.any Cmd.fence) then ok s
  else
    let d := descOf desc.toList
    let res := if (opndUsed d.opcode).isNone then some (CmdRes.of 1) else if !d.resOk then some (CmdRes.of 2) else none
    let c : Cmd := ⟨d, g.head, s.hst.fetched, res.isSome, res, false⟩
    let s1 := s.modHst (fun h => { h with cmd := h.cmd.set r (some c), reserved := h.reserved + 1, fetched := h.fetched + 1 })
    ok (s1.modRing q (fun g => { g with head := (g.head + 1) % s.ringSize q })).writeBack

/-! ### Opcodes (R366, Table HST.7) -/

/-- The command that ring r may start now with an opcode: fetched, not started, its fence met (R364). -/
def State.startable (s : State) (r : Fin 4) (op : Nat) : Option Cmd :=
  match s.hst.cmd[r] with
  | some c =>
    if s.mgtUp && !c.started && c.d.opcode = op && (!c.fence || s.cmds.all (fun x => decide (c.order ≤ x.order))) then some c else none
  | none => none

/-- A command has started, with its result if it has one already. -/
def State.begun (s : State) (r : Fin 4) (res : Option CmdRes) : State :=
  s.modHst (fun h => { h with cmd := modAt h.cmd r (fun c => c.map (fun c => { c with started := true, res := res })) })

/-- A command runs on ring r: what it does to the state and its result. -/
def State.runCmd (s : State) (r : Fin 4) (op : Nat) (f : Cmd → State × Option CmdRes) : State :=
  match s.startable r op with
  | some c => let x := f c; x.1.begun r x.2
  | none => s

/-- NOP. -/
def execNop (r : Fin 4) (s : State) : Host.Outcome State Fault Refusal := ok (s.runCmd r 0x01 (fun _ => (s, some (CmdRes.of 0))))

/-- NVP_READ (15_parameter_store R303): the selected copy of a record. -/
def execNvpRead (r : Fin 4) (s : State) : Host.Outcome State Fault Refusal :=
  ok (s.runCmd r 0x10 (fun c =>
    let (s1, x) := s.recRead (leAt c.d.opnd 0 2)
    match x with
    | some (b, y) => (s1, some ⟨0, y.payload, BitVec.ofNat 32 (y.fmt + b2n b * 65536), BitVec.ofNat 32 y.seq, 0⟩)
    | none => (s1, some (CmdRes.of 8))))

/-- The records that NVP_WRITE may write in a mode (Table HST.7). -/
def State.nvpWritable (s : State) (id : Nat) : Bool :=
  decide (0x8000 ≤ id ∧ id ≤ 0x807F) ||
    ((id = 0x10 || decide (0x20 ≤ id ∧ id ≤ 0x27)) && (s.sys.mode = modeMaint || s.sys.mode = modeTest))

/-- NVP_WRITE (15_parameter_store R302): a payload of blen bytes; one that does not fit a copy is refused, as is a saturated
record. -/
def execNvpWrite (r : Fin 4) (payload : List Byte) (s : State) : Host.Outcome State Fault Refusal :=
  ok (s.runCmd r 0x11 (fun c =>
    let id := leAt c.d.opnd 0 2
    let seq := s.recNextSeq id + (s.nvp.queue.filter (fun w => w.id = id)).length
    let fits := match recPlace id with
      | some (_, _, z) => decide (16 + c.d.blen ≤ z)
      | none => false
    if !(s.nvpWritable id && fits) then (s, some (CmdRes.of 3))
    else
      let s1 := s.recWrite id (leAt c.d.opnd 2 2) (byteSlice payload 0 c.d.blen)
      (s1, some (if seq > 0xFFFFFFFFFFFF then CmdRes.of 3 else ⟨0, [], BitVec.ofNat 32 seq, 0, 0⟩))))

/-- NVP_SAVE (15_parameter_store R310, R314). -/
def execNvpSave (r : Fin 4) (s : State) : Host.Outcome State Fault Refusal :=
  ok (s.runCmd r 0x12 (fun _ => (s.saveRequest 3, some (if s.nvp.save.isSome then CmdRes.of 4 else ⟨0, [], 3, 0, 0⟩))))

/-- MB_REQ (09_slot R196): the request goes to the slot under its tag; its response completes the command. A tag in flight is
BUSY. -/
def execMbReq (r : Fin 4) (payload : List Byte) (s : State) : Host.Outcome State Fault Refusal :=
  ok (s.runCmd r 0x20 (fun c =>
    let o (i : Nat) : Nat := leAt c.d.opnd i 1
    if h : o 0 < 32 ∧ o 1 < 4 then
      let k : Fin 32 := ⟨o 0, h.1⟩
      let tag : Fin 4 := ⟨o 1, h.2⟩
      let n := o 4
      if 6 < o 2 ∨ 240 < n then (s, some (CmdRes.of 2))
      else if c.d.blen < n then (s, some (CmdRes.of 9))
      else if !(s.works && s.runs .lnk && s.linkUp k) then (s, some (CmdRes.of 6))
      else if s.slt[k].req.any (fun q => q.tag = tag) then (s, some (CmdRes.of 4))
      else
        let msg : List Byte := 1 :: byteSlice c.d.opnd 1 4 ++ byteSlice payload 0 n
        (s.modSlt k (fun l => { l with
          mbx := l.mbx.put msg, req := l.req ++ [⟨tag, some (r, BitVec.ofNat 16 c.index), s.time⟩] }), none)
    else (s, some (CmdRes.of 2))))

/-- The answer of an operation of field update as a command's result: UPD_STAT, or REFUSED with its reason. -/
def updRes (x : State × Nat) : State × Option CmdRes :=
  (x.1, some (if x.2 = 0 then ⟨0, [], BitVec.ofNat 32 x.1.updStat, 0, 0⟩ else ⟨3, [], BitVec.ofNat 32 x.1.updStat, 0, x.2⟩))

/-- The operation of UPD_CMD that a number names (17_field_update Table UPD.10). -/
def State.updOpRun (s : State) (op off : Nat) (payload : List Byte) : State × Nat :=
  match op with
  | 1 => s.updBegin
  | 2 => s.updChunk off payload
  | 3 => s.updEnd
  | 4 => s.updCommit
  | 5 => s.updActivate
  | 6 => s.updAbortOp
  | _ => (s.updRefuse 0x10 0, 0x10)

/-- UPD_OP (17_field_update R340). -/
def execUpdOp (r : Fin 4) (payload : List Byte) (s : State) : Host.Outcome State Fault Refusal :=
  ok (s.runCmd r 0x30 (fun c =>
    if 2048 < c.d.blen then (s, some (CmdRes.of 2))
    else updRes (s.updOpRun (leAt c.d.opnd 0 1) (leAt c.d.opnd 4 4) (byteSlice payload 0 c.d.blen))))

/-- MODE_REQ (14_start_up R291): it completes at the change or the refusal. -/
def execModeReq (r : Fin 4) (s : State) : Host.Outcome State Fault Refusal :=
  ok (s.runCmd r 0x40 (fun c =>
    let x := s.modeAsk (leAt c.d.opnd 0 1)
    (x.1, if x.2 then none else some (CmdRes.of 3))))

/-- Words of black-box pages are read in ascending order, each under R332. -/
def State.pageRead (s : State) (sel off n : Nat) : State :=
  (List.range n).foldl (fun s k => foldFin 4 s (fun s r => s.ptrRead r sel (off + 4 * k))) s

/-- BBX_COPY (16_black_box R331, R332): a length or offset that is not a multiple of 4, or that leaves the 64 KiB page, is
BAD_OPERAND. -/
def execBbxCopy (r : Fin 4) (s : State) : Host.Outcome State Fault Refusal :=
  ok (s.runCmd r 0x50 (fun c =>
    let sel := leAt c.d.opnd 0 1
    let off := leAt c.d.opnd 4 4
    let n := c.d.blen
    if n % 4 ≠ 0 ∨ off % 4 ≠ 0 ∨ 0x10000 < off + n then (s, some (CmdRes.of 2))
    else
      let bs := (List.range (n / 4)).flatMap (fun k => leBytes 4 (s.bbx.st.pageWord sel (off + 4 * k)).toNat)
      (s.pageRead sel off (n / 4), some ⟨0, bs, 0, 0, 0⟩)))

/-! ### Completion (R365, R371, Table HST.4) -/

/-- A completion entry. -/
def State.cplEntry (s : State) (r : Fin 4) (c : Cmd) (x : CmdRes) : List Byte :=
  leBytes 2 c.d.opcode ++ [BitVec.ofNat 8 r.val, BitVec.ofNat 8 x.status] ++ leBytes 4 c.d.tag.toNat ++ leBytes 4 x.data.length ++
    leBytes 4 x.result.toNat ++ leBytes 8 s.sns64 ++ leBytes 2 c.index ++ [BitVec.ofNat 8 x.reason, 0] ++ leBytes 4 x.result2.toNat

/-- A result that does not fit the buffer becomes SHORT_BUFFER (R365). -/
def Cmd.fitted (c : Cmd) (x : CmdRes) : CmdRes := if c.d.blen < x.data.length then CmdRes.of 9 else x

/-- A completion is written, after its data; one that finds the completion ring disabled is discarded and counted (Table HST.8).
HST_CMDCNT counts completions (log 16). -/
def State.complete (s : State) (r : Fin 4) (c : Cmd) (x : CmdRes) : State :=
  let n := s.hst.cmdCnt.inc
  let s0 := (s.modHst (fun h => { h with cmd := h.cmd.set r none, cmdCnt := n })).hstSat s.hst.cmdCnt n 0x1F210
  if c.mute then s0
  else
    let s1 := s0.modHst (fun h => { h with reserved := h.reserved - 1 })
    let s2 := if s.hostUp && !x.data.isEmpty then s1.post (.mem c.d.buf x.data) else s1
    if s2.ringTakes 4 1 then s2.ringPush 4 [s.cplEntry r c x]
    else
      let k := s2.hst.cplDrop.inc
      ((s2.modHst (fun h => { h with cplDrop := k })).ringLose 4).hstSat s2.hst.cplDrop k 0x1F20C

/-- COMMAND_COMPLETE (R365): once the command has a result; an enabled completion ring waits for the link. -/
def execCommandComplete (r : Fin 4) (s : State) : Host.Outcome State Fault Refusal :=
  match s.hst.cmd[r] with
  | some c => (match c.res with
    | some x => ok (s.when (s.runs .hst && s.runs .mgt && (c.mute || s.hostUp || !s.ringOn 4)) (s.complete r c (c.fitted x)))
    | none => ok s)
  | none => ok s

/-! ### DMA errors (R377) -/

/-- Cause of a DMA error (Table HST.10). -/
def DmaError.code : DmaError → Nat
  | .cplTimeout => 1 | .ur => 2 | .poison => 3

/-- HOST_DMA_ERROR (R362, R377): on a ring's own memory the ring stops; on a command's buffer the command ends with
DMA_ERROR. -/
def execHostDmaError (r : Fin 8) (onBuffer : Bool) (k : DmaError) (s : State) : Host.Outcome State Fault Refusal :=
  if !(s.hostUp && s.ringOn r) then ok s
  else if onBuffer then
    (if h : r.val < 4 then
      (let q : Fin 4 := ⟨r.val, h⟩
       if s.hst.cmd[q].isSome then
         ok ((s.ringEvent r 0xC1 (DmaError.code k) r.val).modHst (fun t =>
           { t with cmd := modAt t.cmd q (fun c => c.map (fun c => { c with started := true, res := some (CmdRes.of 7) })) }))
       else ok s)
    else ok s)
  else ok (((s.ringEvent r 0xC1 (DmaError.code k) r.val)).ringError r 0xC2 0x02)

/-! ### Telemetry (R368) -/

/-- The period of telemetry in ticks (Table HST.12). -/
def State.telPeriod (s : State) : Nat := max 10 (s.fld F.HST_TEL.period)

/-- The registers that telemetry names, as read now. -/
def State.telValues (s : State) : List Word :=
  (List.range 24).filterMap (fun i =>
    if s.bit (F.HST_TEL_SEL.valid i) then some (s.regRead (4 * s.fld (F.HST_TEL_SEL.off i))) else none)

/-- The entries of a sample. -/
def State.telEntries (s : State) (vs : List Word) : List (List Byte) :=
  let n := (vs.length + 5) / 6
  (List.range n).map (fun k =>
    leBytes 4 s.tick ++ [BitVec.ofNat 8 k, BitVec.ofNat 8 n] ++ leBytes 2 (b2n s.hst.telLost) ++
      (List.range 6).flatMap (fun i => leBytes 4 (vs.getD (6 * k + i) 0).toNat))

/-- TELEMETRY_CAPTURE (R368, R370): 3.0 µs after a boundary whose tick is a multiple of the period; a sample that does not fit is
dropped whole. -/
def execTelemetryCapture (s : State) : Host.Outcome State Fault Refusal :=
  ok (s.whenDue (s.runs .hst && s.bit F.HST_TEL.en && s.tick % 2 ^ 32 % s.telPeriod = 0 && s.hst.telTick != some s.tick && s.ringOn 6 &&
      !s.telValues.isEmpty) s.tickAt (3 * us1) (fun s =>
    let es := s.telEntries s.telValues
    let s1 := s.modHst (fun h => { h with telTick := some s.tick })
    if s1.ringTakes 6 es.length then (s1.modHst (fun h => { h with telLost := false })).ringPush 6 es
    else
      let k := s.hst.telDrop.inc
      ((s1.modHst (fun h => { h with telDrop := k, telLost := true })).ringLose 6).hstSat s.hst.telDrop k 0x1F204))

end Sys2Proof.Machine
end

