-- ==== Sys2Proof/Machine/PeerUpdate.lean ====
section
/-! DEFINITION. An update in the peer (17_field_update R340, R344, R345, R347, R354): the steps that the ACTIVE unit carries over the
Chezon link, what a standby does with each, and the receipt of a packet (10_redundancy R222). -/

namespace Sys2Proof.Machine

/-- A standby's part of a step of Table UPD.6 (R347): the unit that restarts first, and the new STANDBY of step 4, set their records
under step 1; a restart follows at steps 2 and 4. -/
def State.peerActRun (s : State) (n : Nat) : State :=
  match n with
  | 1 => s.trialBegin 1
  | 2 => (s.stepAt 2 { s.upd.rec1 with step := 2 }).modUpd (fun u => { u with restartDue := true })
  | 4 => (s.trialBegin 4).modUpd (fun u => { u with restartDue := true })
  | 6 => s.modUpd (fun u => { u with step := 6 })
  | 7 => s.trialStart
  | n => s.stepAt n { s.upd.rec1 with step := n }

/-- A step of an update in a standby (R340). What does not fit its phase is without effect. -/
def State.peerStep (s : State) (p : PeerStep) : State :=
  let u := s.upd
  match p with
  | .begin_ => if u.phase = 0 then s.updStart else s
  | .chunk off bytes => if u.phase = 1 && !u.ending && u.lastOff != some off then (s.updTake off bytes).1 else s
  | .finish => if u.phase = 1 && !u.ending then s.updFinish.1 else s
  | .commit =>
    match u.man with
    | some m => if u.phase = 2 && !u.committing then (s.modUpd (fun u => { u with committing := true })).commitOwn m else s
    | none => s
  | .activate => if u.phase = 3 then s.modUpd (fun u => { u with phase := 4, step := 0, drillAsked := false, drillMine := false }) else s
  | .step n => if u.phase = 4 then s.peerActRun n else s
  | .confirm => if u.phase = 5 then s.confirm else s
  | .abort reason idx => if u.phase = 1 || u.phase = 2 then s.updAbort reason idx else s
  | .rollback reason => if u.phase = 3 || u.phase = 4 || u.phase = 5 then s.rollBack reason true else s

/-- A standby takes the next step that its peer carries, while its management cores run. -/
def State.stepTaken (s : State) (p : Option (Nat × PeerStep)) : State :=
  match p with
  | none => s
  | some (k, st) =>
    if s.sys.role = .standby && s.runs .mgt && k = s.upd.taken + 1 then
      (s.peerStep st).modUpd (fun u => { u with taken := k })
    else s

/-- The peer's status says how many steps it has taken; one that counts fewer than before was reset, and its steps are void. -/
def State.stepsAcked (s : State) (p : PeerStatus) : State :=
  let k := p.upd.taken
  let c := s.upd.carried
  s.modUpd (fun u => { u with
    carried := k, carry := if k < c then [] else if k - c ≤ u.carry.length then u.carry.drop (k - c) else u.carry
    recon := u.recon && p.record.epoch != u.rec1.epoch })

/-- A part that fails in the peer aborts the prepare with that part's reason, and its entry is shown (R344). -/
def State.peerFailed (s : State) (p : PeerStatus) : State :=
  if s.strap = .pair && s.sys.role = .active && (s.upd.phase = 1 || s.upd.phase = 2) && s.upd.carry.isEmpty && p.upd.phase = 0 &&
      (p.upd.result = 2 || p.upd.result = 3) then s.updAbort p.upd.reason p.upd.entry
  else s

/-- A standby that lost the link in steps 3 to 7 adopts the peer's record at its resynchronisation (Table UPD.7). -/
def State.recAdopt (s : State) (p : PeerStatus) : State :=
  if s.sys.role = .standby && s.red.ready && s.upd.stale && s.runs .mgt then
    if p.record.epoch != s.upd.rec1.epoch then s
    else
      let s1 := s.modUpd (fun u => { u with
        stale := false, phase := p.upd.phase, step := p.record.step, restartDue := decide (p.record.bank ≠ s.sys.bank) })
      if p.record = s.upd.rec1 then s1 else s1.writeRec1 p.record
  else s

/-- CHEZON_PACKET_RECEIVED (10_redundancy R222, R204, R202; 17_field_update R340). -/
def execChezonPacketReceived (p : ChezonPacket) (s : State) : Host.Outcome State Fault Refusal :=
  if !(s.runs .per && s.linkOn && p.crcOk) then ok s
  else
    let c := claimTaken p.claim
    let s1 := s.modRed (fun r => { r with pktAt := s.time, peer := c, peerSeen := true })
    let s2 := if c = 0 then s1 else { s1 with aon := { s1.aon with peerEpoch := some (claimEpoch c) } }
    let s3 := s2.peerHigher c
    let s4 := match p.status with
      | some st => ((((s3.statusTaken st).readyUp).stepsAcked st).peerFailed st).recAdopt st
      | none => s3.readyUp
    ok (s4.stepTaken p.step)

end Sys2Proof.Machine
end

