-- ==== Sys2Proof/Machine/Pwm.lean ====
section
/-! DEFINITION. PWM periods and edges (05_phases_and_rails R79–R91): the schedule of a period, its edges with min_pulse, the
cycle-by-cycle comparator, the sample aperture, interleave and balance. Instants are in 1/64 ns. -/

namespace Sys2Proof.Machine

/-- Effective dead times dtr and dtf: the register's or the fuses' floor, the larger (13_fuse Table OTP.2). -/
def State.deadR (s : State) (j : Fin 24) : Nat := max (s.fld (F.PWM_PH_DT.dtr j)) (64 * s.otp.live.dtFloor)
/-- The effective dtf. -/
def State.deadF (s : State) (j : Fin 24) : Nat := max (s.fld (F.PWM_PH_DT.dtf j)) (64 * s.otp.live.dtFloor)

/-- s_r and s_f of Table RAIL.2. -/
def switchAt (mode t0 tj d : Nat) : Nat × Nat :=
  match mode with
  | 1 => (t0 + tj - d, t0 + tj)
  | 2 => let r := t0 + (rne ((tj : Int) - d) 1).toNat; (r, r + d)
  | _ => (t0, t0 + d)

/-! ### Edges -/

/-- An output's intervals worked up to instant t: its level, the intervals left, the instant of its last edge (if any), how
many intervals were dropped (R85): short ones at their start, an empty one once its end has come. -/
def runIvals (t minp : Nat) : List Ival → Bool → Option Nat → Nat → Bool × List Ival × Option Nat × Nat
  | [], _, e, k => (false, [], e, k)
  | i :: rest, on, e, k =>
    if on || decide (i.a ≤ t ∨ (i.b ≤ i.a ∧ i.b ≤ t)) then
      if !on && decide (i.b < i.a + minp ∨ i.b ≤ i.a) then runIvals t minp rest false e (k + 1)
      else if i.b ≤ t then runIvals t minp rest false (some i.b) k
      else (true, i :: rest, (if on then e else some i.a), k)
    else (false, i :: rest, e, k)

/-- MIN_PULSE_DROP (R85, R442): the flag of the phase, and the event where it was clear. -/
def State.pulseDrop (s : State) (j : Fin 24) : State :=
  let f := F.PWM_PH_STAT.drop j
  if s.flag f then s else let s1 := s.stick f; s1.fire 0x3F 0x01 j.val (s1.phStat j)

/-- A stage begins to forward the followed port at the first rising edge (10_redundancy R210). -/
def State.stageRise (s : State) (j : Fin 24) : State :=
  let st := s.stage[j]
  let port := s.ownPort
  if st.follows = some port ∧ claimRank st.claim[port] = 2 ∧ !st.driving then
    { s with stage := modAt s.stage j (fun x => { x with driving := true }) }
  else s

/-- The scheduled edges of a phase up to instant t. -/
def State.edgesTo (s : State) (j : Fin 24) (t : Nat) : State :=
  let p := s.pwm.ph[j]
  let minp := s.fld (F.RAIL_CFG.min_pulse p.rail) * 64
  let h := runIvals t minp p.hIv p.h none 0
  let l := runIvals t minp p.lIv p.l none 0
  let s1 := s.modPhase j (fun p => { p with h := h.1, hIv := h.2.1, hEdge := h.2.2.1.getD p.hEdge, l := l.1, lIv := l.2.1 })
  let s2 := if h.2.2.2 + l.2.2.2 = 0 then s1 else s1.pulseDrop j
  if (!s.padH j && s2.padH j) || (!s.padL j && s2.padL j) then s2.stageRise j else s2

/-- A phase whose last period is over becomes both-off (Table RAIL.1). -/
def State.endPeriod (s : State) (j : Fin 24) : State :=
  let p := s.pwm.ph[j]
  match p.t0 with
  | some a => if p.endOff && decide (a + p.tj ≤ s.time) then s.modPhase j (Phase.cut (a + p.tj)) else s
  | none => s

/-! ### Schedule of a period -/

/-- The base schedule of a rail: the latest period start of rank 0, or where rank 0 has none that of the first driven phase
that has, less its offset (R89, R90). -/
def State.railBase (s : State) (n : Fin 8) : Option Nat :=
  (s.driven n).foldl (fun b j => match b with
    | some x => some x
    | none => match s.pwm.ph[j].t0 with
      | some t => some (if (s.driven n).head? = some j then t else t - s.pwm.ph[j].ofs)
      | none => none) none

/-- Target offset of a phase (R89). -/
def State.targetOfs (s : State) (n : Fin 8) (j : Fin 24) : Nat :=
  let l := s.driven n
  (rdiv (l.idxOf j * s.pwm.rail[n].per) l.length).toNat

/-- The share trim used by a phase: its own, or for a MATCH phase the mean of its rail's ACTIVE phases' (R91). -/
def State.trimOf (s : State) (n : Fin 8) (j : Fin 24) : Int :=
  if s.pwm.ph[j].pstate = 5 then
    let l := s.actives n
    rdiv (sumI (l.map (fun i => s.pwm.ph[i].trim))) l.length
  else s.pwm.ph[j].trim

/-- PHASE_BALANCE (R91): the trims of the ACTIVE phases, and of the MATCH phases after them. -/
def State.balance (s : State) (n : Fin 8) : State :=
  if s.bit (F.RAIL_BAL.bal_en n) then
    let m := s.railMean n
    let tm : Int := s.fld (F.RAIL_BAL.trim_max n)
    let s1 := (s.actives n).foldl (fun x j => x.modPhase j (fun p =>
      { p with trim := clampI (-tm) tm (p.trim + rne (s.eng (phCh j) - m) (s.fld (F.RAIL_BAL.shift n))) })) s
    ((s.railPhases n).filter (fun j => s.pwm.ph[j].pstate = 5)).foldl
      (fun x j => x.modPhase j (fun p => { p with trim := s1.trimOf n j })) s1
  else s

/-- RAIL_CURRENT_FILTER (R92). -/
def State.railFilter (s : State) (n : Fin 8) : State :=
  let ir := s.railIr n
  s.modRail n (fun r => { r with ir := ir, ifl := r.ifl + rne (ir - r.ifl) (s.fld (F.RAIL_DWELL.ishift n)) })

/-- The conditions of R103 for the period that ends now. -/
def State.openCond (s : State) (j : Fin 24) : Bool :=
  let p := s.pwm.ph[j]
  let n := p.rail
  let others := (s.actives n).filter (· ≠ j)
  p.pstate = 1 && decide (2 ≤ (s.driven n).length) && s.pwm.rail[n].state = 2 && !p.limNow && !p.cbcNow &&
    decide (((s.eng (phCh j)).natAbs : Int) < (s.meanOf others).natAbs - s.fld (F.RAIL_PHF.ph_dev n))

/-- The aperture of a period and its edge_near (R29, R30). An empty interval has no midpoint and fails the test (DESIGN CHOICE,
log 70). -/
def aperture (point blank sr sf dtr dtf tj : Nat) : Nat × Bool :=
  let on := (sr + dtr, sf)
  let off := (sf, sr + tj + dtr)
  let mid := fun (iv : Nat × Nat) => (iv.1 + iv.2) / 2
  let edges := [sr, sr + dtr, sf, sf + dtf, sr + tj, sr + tj + dtr]
  let good := fun (iv : Nat × Nat) => decide (iv.1 < iv.2) && edges.all (fun e => decide (blank ≤ ((mid iv : Int) - e).natAbs))
  let first := if point = 0 then on else off
  let other := if point = 0 then off else on
  if good first then (mid first, false)
  else if good other then (mid other, false)
  else
    let lon := on.2 - on.1
    let loff := off.2 - off.1
    (mid (if lon = loff then first else if lon > loff then on else off), true)

/-- The intervals of a period that starts at t0, with what an earlier period left (R84–R86): a PWML interval that runs is not
ended less than min_pulse after its start; a PWMH interval that the comparator began runs to this s_f. A held-back s_r does not
move s_f in dual-edge mode (DESIGN CHOICE, log 72). The PWML interval that this period begins ends, as far as can be told now, at
the s_r of the period repeated. -/
def Phase.schedule (p : Phase) (mode t0 tj d dtr dtf minp : Nat) : Phase :=
  let sw := switchAt mode t0 tj d
  let sr := match p.l, p.lIv with
    | true, i :: _ => max sw.1 (i.a + minp)
    | _, _ => sw.1
  let sf := max sw.2 sr
  let oldL := p.lIv.map (fun i => { i with b := sr })
  let oldH := match p.h, p.hIv with
    | true, i :: rest => { i with b := max sf (i.a + minp) } :: rest.map (fun i => { i with b := sf })
    | _, l => l.map (fun i => { i with b := sf })
  { p with
    t0 := some t0, tj := tj, d := d
    hIv := if oldH.isEmpty then [⟨sr + dtr, sf⟩] else oldH
    lIv := oldL ++ [⟨sf + dtf, sw.1 + tj⟩] }

/-- The instant at which a phase's next period starts: the end of the period that runs; for rank 0 of a rail without a base
now; else the next one that is its offset after the base. -/
def State.periodDue (s : State) (n : Fin 8) (j : Fin 24) : Option Nat :=
  let p := s.pwm.ph[j]
  match p.t0 with
  | some a => some (a + p.tj)
  | none =>
    match s.railBase n with
    | none => if (s.driven n).head? = some j then some s.time else none
    | some b =>
      let per := s.pwm.rail[n].per
      if per = 0 then none else some (s.time + (((b : Int) + s.targetOfs n j - s.time) % per).toNat)

/-- A period of a phase starts at t0 (R83, R84, R89, R90). corr lengthens or shortens a rank-0 period (R95). -/
def State.periodStart (s : State) (n : Fin 8) (j : Fin 24) (t0 : Nat) (corr : Int) : State :=
  let per := s.pwm.rail[n].per
  let base := (s.railBase n).getD t0
  let lead := (s.driven n).head? = some j
  let a : Int := if per = 0 then 0 else ((t0 : Int) - base) % per
  let diff : Int := if per = 0 then 0 else ((s.targetOfs n j : Int) - a) % per
  let short := if 2 * diff > per then diff - per else diff
  let step := clampI (-(per / 8 : Nat)) (per / 8 : Nat) short
  let tj := if lead then ((per : Int) + corr).toNat else ((per : Int) + step).toNat
  let r := s.pwm.rail[n]
  let cmd := if r.cmdAt + 256 ≤ t0 then r.cmd else r.cmdOld
  let duty := clampI 0 32767 (cmd + s.trimOf n j)
  let d := (rne (duty * tj) 15).toNat
  let mode := s.fld (F.RAIL_CFG.mode n)
  let dtr := s.deadR j
  let dtf := s.deadF j
  let minp := s.fld (F.RAIL_CFG.min_pulse n) * 64
  let open1 := if s.openCond j then some (s.pwm.ph[j].openSince.getD (s.pwm.ph[j].t0.getD t0)) else none
  let hadPeriod := s.pwm.ph[j].t0.isSome
  let s1 := s.modPhase j (fun p =>
    let q := p.schedule mode t0 tj d dtr dtf minp
    let sw := switchAt mode t0 tj d
    let ap := aperture (s.fld (F.SNS_PH_SMP.point j)) (s.fld (F.SNS_PH_SMP.blank_ns j) * 64) sw.1 sw.2 dtr dtf tj
    { q with ofs := if lead then 0 else a.toNat, aps := p.aps ++ [ap], openSince := if hadPeriod then open1 else none
             cbcNow := false, limNow := false })
  let s2 := if lead then s1.modRail n (fun r => { r with syncT0 := some (t0, tj) }) else s1
  s2.edgesTo j s.time

/-- A period start of a rail's lowest-numbered ACTIVE phase aligns the rail-voltage converter (02_sense R32). -/
def State.railConvAlign (s : State) (n : Fin 8) (j : Fin 24) (t0 : Nat) : State :=
  if (s.actives n).head? = some j then
    { s with sns := { s.sns with railNext := modAt s.sns.railNext n (fun x => realign x ((t0 + ns1 - 1) / ns1 * ns1) (250 * ns1)) } }
  else s

/-- PWM_PERIOD_START (R83): rank 0 does the rail's housekeeping first (R91, R92, R93, R95, R106, R225); that of the
lowest-numbered ACTIVE phase aligns the rail-voltage converter (02_sense R32). -/
def execPwmPeriodStart (j : Fin 24) (s : State) : Host.Outcome State Fault Refusal :=
  let n := s.pwm.ph[j].rail
  let t0 := (s.periodDue n j).getD 0
  ok (s.whenAt (s.ctlWorks && (s.driven n).contains j && (s.periodDue n j).isSome) t0 (fun s =>
    let s0 := s.edgesTo j t0
    if (s.driven n).head? = some j then
      let s1 := s0.railAdopt n
      if !(s1.driven n).contains j then s1
      else
        let s2 := (((s1.balance n).railFilter n).shedEval n).capEval n
        let s3 := s2.syncStep n t0
        (s3.1.periodStart n j t0 s3.2).railConvAlign n j t0
    else (s0.periodStart n j t0 0).railConvAlign n j t0))

/-- The next edge of an output. -/
def nextIval : Bool → List Ival → List Nat
  | true, i :: _ => [i.b]
  | false, i :: _ => [min i.a i.b]
  | _, [] => []

/-- The next scheduled edge of a phase, or the end of its last period. -/
def Phase.nextEdge (p : Phase) : Option Nat :=
  (nextIval p.h p.hIv ++ nextIval p.l p.lIv ++ (if p.endOff then (p.t0.map (fun a => a + p.tj)).toList else [])).min?

/-- PWM_EDGE (R84, R85): the next edge, with every other one that is due. -/
def execPwmEdge (j : Fin 24) (s : State) : Host.Outcome State Fault Refusal :=
  ok (s.whenDue (s.ctlWorks && s.pwm.ph[j].asg) s.pwm.ph[j].nextEdge 0 (fun s => (s.edgesTo j s.time).endPeriod j))

/-- SYNC_OUT (R97): high over the first half of the period of rank 0 of out_rail; low while that rail is OFF. -/
def State.syncOut (s : State) : Bool :=
  let r := s.pwm.rail[rail8 (s.fld F.PWM_SYNC_CFG.out_rail)]
  s.bit F.PWM_SYNC_CFG.out_en && r.state != 0 && r.syncT0.any (fun p => decide (p.1 ≤ s.time ∧ 2 * (s.time - p.1) < p.2))

/-- The next scheduled s_r of a phase: the end of the PWML interval that waits, else this period's or the next's (R86). -/
def Phase.nextSr (p : Phase) (mode t : Nat) : Nat :=
  match p.l, p.lIv with
  | false, i :: _ => i.b
  | _, _ => let r := (switchAt mode (p.t0.getD t) p.tj p.d).1; if t < r then r else r + p.tj

/-- The next scheduled s_f of a phase (R86). -/
def Phase.nextSf (p : Phase) (mode t : Nat) : Nat :=
  match p.hIv with
  | i :: _ => i.b
  | [] => let f := (switchAt mode (p.t0.getD t) p.tj p.d).2; if t < f then f else f + p.tj

/-- CBC_ACTION counted (R88): PWM_PH_CBC, the cbc flag, and the event where the flag was clear. -/
def State.cbcCount (s : State) (j : Fin 24) : State :=
  let c := s.pwm.ph[j].cbc.inc
  let f := F.PWM_PH_STAT.cbc j
  let s1 := ((s.modPhase j (fun p => { p with cbc := c, cbcNow := true })).counted 1 (0x1000C + 0x100 * j.val)).stick f
  let s2 := if s.flag f then s1 else s1.fire (0x40 + j.val) 0x08 j.val (s1.phStat j)
  if c.sat && !s.pwm.ph[j].cbc.sat then
    s2.fireRaw (0x40 + j.val) (evData 0xFF j.val (0x1000C + 0x100 * j.val)) none true
  else s2

/-- CBC_CROSSING (R40, R86, R87): a crossing outside the blanking acts on the interval in progress. -/
def execCbcCrossing (j : Fin 24) (positive : Bool) (s0 : State) : Host.Outcome State Fault Refusal :=
  if !(s0.ctlWorks && s0.pwm.ph[j].asg) then ok s0
  else
    let s := s0.edgesTo j s0.time
    let p := s.pwm.ph[j]
    let n := p.rail
    let mode := s.fld (F.RAIL_CFG.mode n)
    if s.time < p.hEdge + s.fld (F.SNS_PH_CMP.cblank j) * 256 then ok s
    else if !positive && p.h then
      let l : Ival := ⟨s.time + s.deadF j, p.nextSr mode s.time⟩
      ok ((s.modPhase j (fun p => { p with h := false, hIv := p.hIv.tail, hEdge := s.time, lIv := [l] })).cbcCount j)
    else if positive && p.l then
      let h : Ival := ⟨s.time + s.deadR j, p.nextSf mode s.time⟩
      let buck := s.bit (F.RAIL_CFG.type n)
      ok ((s.modPhase j (fun p =>
        { p with l := false, lIv := p.lIv.tail, hIv := if buck then p.hIv else [h] })).cbcCount j)
    else ok s

/-- The effective comparator code: the programmed one or the fuses' ceiling, the smaller (R40). -/
def State.cmpCode (s : State) (j : Fin 24) (positive : Bool) : Nat :=
  if positive then min (s.fld (F.SNS_PH_CMP.thr_pos j)) s.otp.live.ceilPos
  else min (s.fld (F.SNS_PH_CMP.thr_neg j)) s.otp.live.ceilNeg

end Sys2Proof.Machine
end

