-- ==== Sys2Proof/Machine/Dispatch.lean ====
section
/-! DEFINITION. One arm per command, each a direct call of its meaning. -/

namespace Sys2Proof.Machine

/-- The effect of a command. -/
def exec (i : Instr) (s : State) : Host.Outcome State Fault Refusal :=
  match i with
  | .aonPowerGood solo unitSel => Sys2Proof.Machine.execAonPowerGood solo unitSel s
  | .otpG5Check => Sys2Proof.Machine.execOtpG5Check s
  | .rstNAssert => Sys2Proof.Machine.execRstNAssert s
  | .rstNRelease => Sys2Proof.Machine.execRstNRelease s
  | .sysRstCold key => Sys2Proof.Machine.execSysRstCold key s
  | .sysRstWarm key => Sys2Proof.Machine.execSysRstWarm key s
  | .supplyPgLost which => Sys2Proof.Machine.execSupplyPgLost which s
  | .supplyPgReturn => Sys2Proof.Machine.execSupplyPgReturn s
  | .refLost => Sys2Proof.Machine.execRefLost s
  | .refReturn => Sys2Proof.Machine.execRefReturn s
  | .coreRelease pwrgd balls => Sys2Proof.Machine.execCoreRelease pwrgd balls s
  | .pllLock => Sys2Proof.Machine.execPllLock s
  | .bootImageVerified bank0 bank1 recov => Sys2Proof.Machine.execBootImageVerified bank0 bank1 recov s
  | .configLoad => Sys2Proof.Machine.execConfigLoad s
  | .selfTestComplete fail => Sys2Proof.Machine.execSelfTestComplete fail s
  | .roleDecision => Sys2Proof.Machine.execRoleDecision s
  | .bootStep9 => Sys2Proof.Machine.execBootStep9 s
  | .watchdogExpiry => Sys2Proof.Machine.execWatchdogExpiry s
  | .wdtKick => Sys2Proof.Machine.execWdtKick s
  | .configLock => Sys2Proof.Machine.execConfigLock s
  | .modeRequest code => Sys2Proof.Machine.execModeRequest code s
  | .overlaySwap => Sys2Proof.Machine.execOverlaySwap s
  | .holdupOverlayRequest => Sys2Proof.Machine.execHoldupOverlayRequest s
  | .serviceOverlayRequest => Sys2Proof.Machine.execServiceOverlayRequest s
  | .transportOverlayApply => Sys2Proof.Machine.execTransportOverlayApply s
  | .transportGate => Sys2Proof.Machine.execTransportGate s
  | .transportWake => Sys2Proof.Machine.execTransportWake s
  | .regWrite off val => Sys2Proof.Machine.execRegWrite off val s
  | .shadowWriteApply => Sys2Proof.Machine.execShadowWriteApply s
  | .gatedAccess off isWrite => Sys2Proof.Machine.execGatedAccess off isWrite s
  | .latchedPairRead p => Sys2Proof.Machine.execLatchedPairRead p s
  | .counterClear b => Sys2Proof.Machine.execCounterClear b s
  | .shelfTick => Sys2Proof.Machine.execShelfTick s
  | .dspSnapshot => Sys2Proof.Machine.execDspSnapshot s
  | .huExit => Sys2Proof.Machine.execHuExit s
  | .hbxResultsRelease => Sys2Proof.Machine.execHbxResultsRelease s
  | .resultsDelivery => Sys2Proof.Machine.execResultsDelivery s
  | .payloadFreeze => Sys2Proof.Machine.execPayloadFreeze s
  | .hbxPeriodChange => Sys2Proof.Machine.execHbxPeriodChange s
  | .phaseSampleAperture j => Sys2Proof.Machine.execPhaseSampleAperture j s
  | .idleSample j => Sys2Proof.Machine.execIdleSample j s
  | .railVoltageConversion n => Sys2Proof.Machine.execRailVoltageConversion n s
  | .busConversion => Sys2Proof.Machine.execBusConversion s
  | .scanSample code => Sys2Proof.Machine.execScanSample code s
  | .ntcIdSample ntc ident => Sys2Proof.Machine.execNtcIdSample ntc ident s
  | .snsConversionComplete ch code => Sys2Proof.Machine.execSnsConversionComplete ch code s
  | .cbcCrossing j positive => Sys2Proof.Machine.execCbcCrossing j positive s
  | .lawTrigger e => Sys2Proof.Machine.execLawTrigger e s
  | .lawOutputWrite e => Sys2Proof.Machine.execLawOutputWrite e s
  | .lawSnapRequest e => Sys2Proof.Machine.execLawSnapRequest e s
  | .coeffShadowWrite off val => Sys2Proof.Machine.execCoeffShadowWrite off val s
  | .lawCommitRequest e => Sys2Proof.Machine.execLawCommitRequest e s
  | .lawBankSwap e => Sys2Proof.Machine.execLawBankSwap e s
  | .lawShadowCopyDone e => Sys2Proof.Machine.execLawShadowCopyDone e s
  | .pwmPeriodStart j => Sys2Proof.Machine.execPwmPeriodStart j s
  | .phaseShed n => Sys2Proof.Machine.execPhaseShed n s
  | .phaseAdd n => Sys2Proof.Machine.execPhaseAdd n s
  | .phaseOpenDetect j => Sys2Proof.Machine.execPhaseOpenDetect j s
  | .phaseSenseStuck j => Sys2Proof.Machine.execPhaseSenseStuck j s
  | .sumCheckFail n => Sys2Proof.Machine.execSumCheckFail n s
  | .phaseAssignmentApply j => Sys2Proof.Machine.execPhaseAssignmentApply j s
  | .syncInEdge => Sys2Proof.Machine.execSyncInEdge s
  | .syncLost => Sys2Proof.Machine.execSyncLost s
  | .rampUpdate => Sys2Proof.Machine.execRampUpdate s
  | .startShort n => Sys2Proof.Machine.execStartShort n s
  | .hiccupEnd n => Sys2Proof.Machine.execHiccupEnd n s
  | .trackEdge high period => Sys2Proof.Machine.execTrackEdge high period s
  | .trackStatic level => Sys2Proof.Machine.execTrackStatic level s
  | .railEnableChange n => Sys2Proof.Machine.execRailEnableChange n s
  | .railPauseChange n => Sys2Proof.Machine.execRailPauseChange n s
  | .hbxCommitRequest => Sys2Proof.Machine.execHbxCommitRequest s
  | .hbxCommitSwap => Sys2Proof.Machine.execHbxCommitSwap s
  | .hbxStagedCopyDone => Sys2Proof.Machine.execHbxStagedCopyDone s
  | .costCurveWrite off val => Sys2Proof.Machine.execCostCurveWrite off val s
  | .derateClear => Sys2Proof.Machine.execDerateClear s
  | .shedClear => Sys2Proof.Machine.execShedClear s
  | .stringStrobe v cur => Sys2Proof.Machine.execStringStrobe v cur s
  | .zdMeasurement str => Sys2Proof.Machine.execZdMeasurement str s
  | .presenceChange str => Sys2Proof.Machine.execPresenceChange str s
  | .batBlock => Sys2Proof.Machine.execBatBlock s
  | .eodDeclare str => Sys2Proof.Machine.execEodDeclare str s
  | .eocDeclare str => Sys2Proof.Machine.execEocDeclare str s
  | .batSecond => Sys2Proof.Machine.execBatSecond s
  | .batHour => Sys2Proof.Machine.execBatHour s
  | .batAgeTick => Sys2Proof.Machine.execBatAgeTick s
  | .batEnable str => Sys2Proof.Machine.execBatEnable str s
  | .batDisable str => Sys2Proof.Machine.execBatDisable str s
  | .batForget str => Sys2Proof.Machine.execBatForget str s
  | .batTransportPrep => Sys2Proof.Machine.execBatTransportPrep s
  | .batTransportRelease => Sys2Proof.Machine.execBatTransportRelease s
  | .uplinkFrameReceived sl f => Sys2Proof.Machine.execUplinkFrameReceived sl f s
  | .linkLost sl => Sys2Proof.Machine.execLinkLost sl s
  | .linkRetrain sl => Sys2Proof.Machine.execLinkRetrain sl s
  | .mbResend sl => Sys2Proof.Machine.execMbResend sl s
  | .mbRequestTimeout sl tag => Sys2Proof.Machine.execMbRequestTimeout sl tag s
  | .slotFrameApply sl => Sys2Proof.Machine.execSlotFrameApply sl s
  | .slotClaimExpiry sl p => Sys2Proof.Machine.execSlotClaimExpiry sl p s
  | .slotHoldExpiry sl => Sys2Proof.Machine.execSlotHoldExpiry sl s
  | .clmWordStart => Sys2Proof.Machine.execClmWordStart s
  | .stageClmWordReceived j p w => Sys2Proof.Machine.execStageClmWordReceived j p w s
  | .stageClaimExpiry j p => Sys2Proof.Machine.execStageClaimExpiry j p s
  | .demoteNAccept => Sys2Proof.Machine.execDemoteNAccept s
  | .demoteNRelease => Sys2Proof.Machine.execDemoteNRelease s
  | .takeNAccept => Sys2Proof.Machine.execTakeNAccept s
  | .heartbeatFormChange => Sys2Proof.Machine.execHeartbeatFormChange s
  | .tickStrobeTimeout str => Sys2Proof.Machine.execTickStrobeTimeout str s
  | .fwLivenessTimeout => Sys2Proof.Machine.execFwLivenessTimeout s
  | .fwLivenessWrite => Sys2Proof.Machine.execFwLivenessWrite s
  | .vhbEdge x => Sys2Proof.Machine.execVhbEdge x s
  | .hbDeadTimeout x => Sys2Proof.Machine.execHbDeadTimeout x s
  | .takeDeferredEval => Sys2Proof.Machine.execTakeDeferredEval s
  | .takePulseEnd => Sys2Proof.Machine.execTakePulseEnd s
  | .demoteHoldEnd x => Sys2Proof.Machine.execDemoteHoldEnd x s
  | .chezonPacketReceived p => Sys2Proof.Machine.execChezonPacketReceived p s
  | .chezonTrained lane0 lane1 => Sys2Proof.Machine.execChezonTrained lane0 lane1 s
  | .chezonOneLane lane => Sys2Proof.Machine.execChezonOneLane lane s
  | .chezonLinkDown => Sys2Proof.Machine.execChezonLinkDown s
  | .chezonPacketSend => Sys2Proof.Machine.execChezonPacketSend s
  | .timeTransfer offset peerTick aligned => Sys2Proof.Machine.execTimeTransfer offset peerTick aligned s
  | .snapshotCapture => Sys2Proof.Machine.execSnapshotCapture s
  | .snapshotReceived snap crcOk => Sys2Proof.Machine.execSnapshotReceived snap crcOk s
  | .standbyKeepExpiry => Sys2Proof.Machine.execStandbyKeepExpiry s
  | .lonePeerHigherTimeout => Sys2Proof.Machine.execLonePeerHigherTimeout s
  | .drillNow => Sys2Proof.Machine.execDrillNow s
  | .drillSchedule => Sys2Proof.Machine.execDrillSchedule s
  | .drillComplete => Sys2Proof.Machine.execDrillComplete s
  | .seqStep => Sys2Proof.Machine.execSeqStep s
  | .nodeOnDelayEnd k => Sys2Proof.Machine.execNodeOnDelayEnd k s
  | .nodeSettleEnd k => Sys2Proof.Machine.execNodeSettleEnd k s
  | .riseTimeout k => Sys2Proof.Machine.execRiseTimeout k s
  | .nodeOffDelayEnd k => Sys2Proof.Machine.execNodeOffDelayEnd k s
  | .fallTimeout k => Sys2Proof.Machine.execFallTimeout k s
  | .pgChange k => Sys2Proof.Machine.execPgChange k s
  | .seqGo => Sys2Proof.Machine.execSeqGo s
  | .seqStop => Sys2Proof.Machine.execSeqStop s
  | .seqRetry => Sys2Proof.Machine.execSeqRetry s
  | .seqTrip => Sys2Proof.Machine.execSeqTrip s
  | .seqTripClr => Sys2Proof.Machine.execSeqTripClr s
  | .restartDelayEnd => Sys2Proof.Machine.execRestartDelayEnd s
  | .thmStep counts => Sys2Proof.Machine.execThmStep counts s
  | .sensorRestored k => Sys2Proof.Machine.execSensorRestored k s
  | .diodeConversion q d => Sys2Proof.Machine.execDiodeConversion q d s
  | .thmSecond => Sys2Proof.Machine.execThmSecond s
  | .aonThermalGate counts => Sys2Proof.Machine.execAonThermalGate counts s
  | .thermalShutdown => Sys2Proof.Machine.execThermalShutdown s
  | .thermalResetHold => Sys2Proof.Machine.execThermalResetHold s
  | .thermalRestartRelease => Sys2Proof.Machine.execThermalRestartRelease s
  | .otpArm => Sys2Proof.Machine.execOtpArm s
  | .otpProg => Sys2Proof.Machine.execOtpProg s
  | .otpLock grp => Sys2Proof.Machine.execOtpLock grp s
  | .otpReadN => Sys2Proof.Machine.execOtpReadN s
  | .otpReadM => Sys2Proof.Machine.execOtpReadM s
  | .otpCommandComplete verifiedA verifiedB pulses => Sys2Proof.Machine.execOtpCommandComplete verifiedA verifiedB pulses s
  | .otpReread => Sys2Proof.Machine.execOtpReread s
  | .nvpCommitRequest => Sys2Proof.Machine.execNvpCommitRequest s
  | .nvpCommitDone us => Sys2Proof.Machine.execNvpCommitDone us s
  | .nvpRawRead addr => Sys2Proof.Machine.execNvpRawRead addr s
  | .powerFailAssert words => Sys2Proof.Machine.execPowerFailAssert words s
  | .pfRide => Sys2Proof.Machine.execPfRide s
  | .hourlySave => Sys2Proof.Machine.execHourlySave s
  | .nvpSaveRequest => Sys2Proof.Machine.execNvpSaveRequest s
  | .saveComplete us => Sys2Proof.Machine.execSaveComplete us s
  | .nvpRestore => Sys2Proof.Machine.execNvpRestore s
  | .shadowImageRestore => Sys2Proof.Machine.execShadowImageRestore s
  | .nvpScrub => Sys2Proof.Machine.execNvpScrub s
  | .nvpScrubRequest => Sys2Proof.Machine.execNvpScrubRequest s
  | .bbxEventEnqueue => Sys2Proof.Machine.execBbxEventEnqueue s
  | .bbxRecordWrite => Sys2Proof.Machine.execBbxRecordWrite s
  | .tokenRefill => Sys2Proof.Machine.execTokenRefill s
  | .traceRow => Sys2Proof.Machine.execTraceRow s
  | .traceFreeze => Sys2Proof.Machine.execTraceFreeze s
  | .watermarkDone r => Sys2Proof.Machine.execWatermarkDone r s
  | .bbxSealNow => Sys2Proof.Machine.execBbxSealNow s
  | .reamPointerRead r off => Sys2Proof.Machine.execReamPointerRead r off s
  | .bbxNonceRequest entropy => Sys2Proof.Machine.execBbxNonceRequest entropy s
  | .nonceExpiry => Sys2Proof.Machine.execNonceExpiry s
  | .bbxClear => Sys2Proof.Machine.execBbxClear s
  | .bbxRelease => Sys2Proof.Machine.execBbxRelease s
  | .bbxOpComplete => Sys2Proof.Machine.execBbxOpComplete s
  | .lockoutEnd => Sys2Proof.Machine.execLockoutEnd s
  | .updBegin => Sys2Proof.Machine.execUpdBegin s
  | .updChunk => Sys2Proof.Machine.execUpdChunk s
  | .updEnd => Sys2Proof.Machine.execUpdEnd s
  | .prepareComplete => Sys2Proof.Machine.execPrepareComplete s
  | .updCommit => Sys2Proof.Machine.execUpdCommit s
  | .commitWritesDone peerOk => Sys2Proof.Machine.execCommitWritesDone peerOk s
  | .updActivate => Sys2Proof.Machine.execUpdActivate s
  | .activationStep => Sys2Proof.Machine.execActivationStep s
  | .updAbort => Sys2Proof.Machine.execUpdAbort s
  | .mgmtRestart image => Sys2Proof.Machine.execMgmtRestart image s
  | .mgmtRestartComplete => Sys2Proof.Machine.execMgmtRestartComplete s
  | .trialEnd => Sys2Proof.Machine.execTrialEnd s
  | .updRollback => Sys2Proof.Machine.execUpdRollback s
  | .slotActivateTimeout sl => Sys2Proof.Machine.execSlotActivateTimeout sl s
  | .hstReset k => Sys2Proof.Machine.execHstReset k s
  | .pcieLinkChange up d3hot gen width ltssm => Sys2Proof.Machine.execPcieLinkChange up d3hot gen width ltssm s
  | .ringEnable r en => Sys2Proof.Machine.execRingEnable r en s
  | .commandDoorbell r val => Sys2Proof.Machine.execCommandDoorbell r val s
  | .consumerDoorbell r val => Sys2Proof.Machine.execConsumerDoorbell r val s
  | .commandFetch r desc => Sys2Proof.Machine.execCommandFetch r desc s
  | .nop r => Sys2Proof.Machine.execNop r s
  | .nvpRead r => Sys2Proof.Machine.execNvpRead r s
  | .nvpWrite r payload => Sys2Proof.Machine.execNvpWrite r payload s
  | .nvpSave r => Sys2Proof.Machine.execNvpSave r s
  | .mbReq r payload => Sys2Proof.Machine.execMbReq r payload s
  | .updOp r payload => Sys2Proof.Machine.execUpdOp r payload s
  | .modeReq r => Sys2Proof.Machine.execModeReq r s
  | .bbxCopy r => Sys2Proof.Machine.execBbxCopy r s
  | .commandComplete r => Sys2Proof.Machine.execCommandComplete r s
  | .hostDmaError r onBuffer k => Sys2Proof.Machine.execHostDmaError r onBuffer k s
  | .telemetryCapture => Sys2Proof.Machine.execTelemetryCapture s
  | .msixModerationEnd v => Sys2Proof.Machine.execMsixModerationEnd v s
  | .evtSumClear => Sys2Proof.Machine.execEvtSumClear s
  | .evtTripClear => Sys2Proof.Machine.execEvtTripClear s
  | .twpGo p val => Sys2Proof.Machine.execTwpGo p val s
  | .twpArbRetry p extra => Sys2Proof.Machine.execTwpArbRetry p extra s
  | .twpTransactionDone p o => Sys2Proof.Machine.execTwpTransactionDone p o s
  | .twpTargetWrite p bytes pec => Sys2Proof.Machine.execTwpTargetWrite p bytes pec s
  | .twpTargetRead p n => Sys2Proof.Machine.execTwpTargetRead p n s
  | .twpAttnRequest p extra won => Sys2Proof.Machine.execTwpAttnRequest p extra won s
  | .twpAttention p addr bytes => Sys2Proof.Machine.execTwpAttention p addr bytes s
  | .twpTimeout p => Sys2Proof.Machine.execTwpTimeout p s
  | .twpBusRecovery p pulses sdaHigh => Sys2Proof.Machine.execTwpBusRecovery p pulses sdaHigh s
  | .twpRecoveryRetry p sdaHigh => Sys2Proof.Machine.execTwpRecoveryRetry p sdaHigh s
  | .beaconRead => Sys2Proof.Machine.execBeaconRead s
  | .beaconDemote word => Sys2Proof.Machine.execBeaconDemote word s
  | .beaconDemoteEnd => Sys2Proof.Machine.execBeaconDemoteEnd s
  | .beaconSafeShutdown word => Sys2Proof.Machine.execBeaconSafeShutdown word s
  | .beaconShutdownTimeout => Sys2Proof.Machine.execBeaconShutdownTimeout s
  | .beaconSave word => Sys2Proof.Machine.execBeaconSave word s
  | .beaconClearAttn word => Sys2Proof.Machine.execBeaconClearAttn word s
  | .beaconBadWord word => Sys2Proof.Machine.execBeaconBadWord word s
  | .vaonLost => Sys2Proof.Machine.execVaonLost s
  | .pwmEdge j => Sys2Proof.Machine.execPwmEdge j s
  | .slotDownlinkReceived sl p f => Sys2Proof.Machine.execSlotDownlinkReceived sl p f s
  | .slotHoldBegin sl => Sys2Proof.Machine.execSlotHoldBegin sl s
  | .chezonTrainingFailed => Sys2Proof.Machine.execChezonTrainingFailed s
  | .ringSlotComplete => Sys2Proof.Machine.execRingSlotComplete s

end Sys2Proof.Machine
end

