-- ==== Sys2Proof/Machine/Step.lean ====
section
/-! DEFINITION. The step: the command at the front of the queue, or the passing of time. -/

namespace Sys2Proof.Machine

/-- One step. The front command runs on the state whose queue is the rest; an empty queue lets time pass (log 1). -/
def step (s : State) : Host.Outcome State Fault Refusal :=
  match s.pending with
  | [] => .next s.idle
  | i :: rest => exec i { s with pending := rest }

/-- The table gives its rows no bits, so no word spells a command and the queue stands as it is. -/
def State.withFetchWord (s : State) (_nbits _w : Nat) : State := s

end Sys2Proof.Machine
end

