-- ==== Sys2Proof/Safety.lean ====
section
/-! DEFINITION. The terms in which claims about the machine are stated: its parts, what it means that a command leaves a part
alone, and the canonical form of its addressed stores. -/

namespace Sys2Proof.Machine

/-! ### Parts and frames -/

/-- The parts of the machine: the clock and the queue of the model, what each block of the spec holds, and of some blocks a
part of their own: the configuration lock (00_scope R6), the mode (14_start_up R290), the role (R288), the epoch (10_redundancy
R202), the fuse arrays (13_fuse R263), the parameter store's words (15_parameter_store R297), the flash (17_field_update R337),
the configuration in force: the register fields that software writes (21_register_map R403). -/
inductive Part where
  | time | pending | freeCtr | tick | regs | chans | aon | sys | sns | law | pwm | hbx | dkl | vat | bat | slt | slot | stage
  | red | arb | seq | thm | otp | nvp | bbx | upd | hst | evt | twp
  | lock | mode | role | epoch | fuse | store | flash | config
deriving DecidableEq, Repr

/-- The fuse arrays: both copies at normal and at margin read (13_fuse R263). -/
def Otp.array (o : Otp) : Cells Word × Cells Word × Cells Word × Cells Word := (o.aN, o.aM, o.bN, o.bM)

/-- Do two states agree on a part? -/
def Part.same (s t : State) : Part → Prop
  | .time => t.time = s.time
  | .pending => t.pending = s.pending
  | .freeCtr => t.freeCtr = s.freeCtr
  | .tick => t.tick = s.tick ∧ t.tickAt = s.tickAt
  | .regs => t.regs = s.regs
  | .chans => t.chans = s.chans
  | .aon => t.aon = s.aon
  | .sys => t.sys = s.sys
  | .sns => t.sns = s.sns
  | .law => t.law = s.law
  | .pwm => t.pwm = s.pwm
  | .hbx => t.hbx = s.hbx
  | .dkl => t.dkl = s.dkl
  | .vat => t.vat = s.vat
  | .bat => t.bat = s.bat
  | .slt => t.slt = s.slt
  | .slot => t.slot = s.slot
  | .stage => t.stage = s.stage
  | .red => t.red = s.red
  | .arb => t.arb = s.arb
  | .seq => t.seq = s.seq
  | .thm => t.thm = s.thm
  | .otp => t.otp = s.otp
  | .nvp => t.nvp = s.nvp
  | .bbx => t.bbx = s.bbx
  | .upd => t.upd = s.upd
  | .hst => t.hst = s.hst
  | .evt => t.evt = s.evt
  | .twp => t.twp = s.twp
  | .lock => t.sys.lock = s.sys.lock
  | .mode => t.sys.mode = s.sys.mode
  | .role => t.sys.role = s.sys.role
  | .epoch => t.aon.epoch = s.aon.epoch
  | .fuse => t.otp.array = s.otp.array
  | .store => t.nvp.store = s.nvp.store
  | .flash => t.upd.flash = s.upd.flash
  | .config => t.regs.act = s.regs.act

/-- Every part but those listed is as it was. -/
def SameBut (ps : List Part) (s t : State) : Prop := ∀ p, p ∉ ps → p.same s t

/-! ### The addressed stores -/

/-- Keys strictly rising. -/
def keysRise {α : Type} : Cells α → Bool
  | [] => true
  | [_] => true
  | (a, _) :: (b, w) :: m => decide (a < b) && keysRise ((b, w) :: m)

/-- The event store's record memory and trace rows keep their form (16_black_box R322, R325). -/
def EvStore.wf (e : EvStore) : Bool := cellsWf 0 e.ring && cellsWf (Vector.replicate 16 0) e.rows

/-- The parameter store keeps its form, with the event stores it has saved or is saving (15_parameter_store R297, R313). -/
def Nvp.wf (n : Nvp) : Bool :=
  cellsWf ⟨0, 0⟩ n.store && n.image.all (fun i => i.store.wf) && n.save.all (fun v => v.frozen.all EvStore.wf)

/-- The fuse array keeps its form (13_fuse R263). -/
def Otp.wf (o : Otp) : Bool := cellsWf 0 o.aN && cellsWf 0 o.aM && cellsWf 0 o.bN && cellsWf 0 o.bM

/-- The coefficient banks keep their form (03_law R61). -/
def Law.wf (l : Law) : Bool := cellsWf 0 l.shadow && cellsWf 0 l.active

/-- The curve banks keep their form (06_headbox R111). -/
def Hbx.wf (h : Hbx) : Bool := cellsWf 0 h.shadow && cellsWf 0 h.active

/-- The impedance template and tables keep their form (08_battery R158). -/
def Bat.wf (b : Bat) : Bool := cellsWf 0 b.tmpl && cellsWf Zent.zero b.ztab

/-- The external flash keeps its form: keys strictly rising (17_field_update R337). -/
def Upd.wf (u : Upd) : Bool := keysRise u.flash

/-- The register store keeps its form (21_register_map R403): offsets strictly rising in every copy, and no W1C word listed
that reads 0. -/
def Regs.wf (r : Regs) : Bool := keysRise r.act && cellsWf 0 r.sticky && keysRise r.staged && keysRise r.base

/-- Every addressed store of the machine keeps its canonical form. -/
def State.StoresWf (s : State) : Prop :=
  s.nvp.wf = true ∧ s.otp.wf = true ∧ s.law.wf = true ∧ s.hbx.wf = true ∧ s.bat.wf = true ∧ s.bbx.st.wf = true ∧
    s.upd.wf = true ∧ s.regs.wf = true

/-- What a command may do to a state: it leaves every part alone but those listed, the addressed stores keep their form, and the
clock does not run back. -/
structure Step (ps : List Part) (s t : State) : Prop where
  frame : SameBut ps s t
  keeps : s.StoresWf → t.StoresWf
  later : s.time ≤ t.time

/-- A command answers a next state, to which it leads by such a step. -/
def Answers (ps : List Part) (s : State) (o : Host.Outcome State Fault Refusal) : Prop := ∃ t, o = .next t ∧ Step ps s t

/-! ### Completion, events, counters -/

/-- A command completes: it answers a next state, of which P holds. -/
def Completes (c : Instr) (s : State) (P : State → Prop) : Prop := ∃ t, exec c s = .next t ∧ P t

/-- A command that its rule sets at an instant answers, whenever it is given, what it answers at that instant or later. -/
def Waits (c : Instr) (s : State) (n : Nat) : Prop := exec c s = exec c (s.await n)

/-- On the way from s to t an event sets out for REC, with its source, its cause, its middle bits and its bits 63:32
(18_host_endpoint Table EVT.1). -/
def Raises (s t : State) (src cause mid : Nat) (hi : Int) : Prop :=
  ∃ l, t.chans.flight = s.chans.flight ++ l ∧ ⟨src, evData cause mid hi, none, false, s.time⟩ ∈ l

/-- A trigger of an engine is due (03_law R47): a counted completion that is the div-th, or the instant set has come. -/
def State.lawDue (s : State) (e : Fin 20) : Prop :=
  (s.fld (F.LAW_CFG.trig e) = 0 ∧ s.law.eng[e].fresh = true ∧ s.fld (F.LAW_CFG.div_m1 e) ≤ s.law.eng[e].divCnt) ∨
    (s.fld (F.LAW_CFG.trig e) ≠ 0 ∧ ∃ n, s.law.eng[e].next = some n ∧ n ≤ s.time)

/-- The state of a phase whose sense has failed (05_phases R105): MATCH where its rail needs it, else SENSE_SHED. -/
def State.sensePstate (s : State) (j : Fin 24) : Nat :=
  let n := s.pwm.ph[j].rail
  if (s.pwm.rail[n].ifl.natAbs : Int) > s.fld (F.RAIL_SHED.add_lvl n) * (((s.driven n).length : Int) - 1) then 5 else 4

/-- A measurement zm of an impedance of string i is rejected (08_battery R165): not positive, or implausible beside an entry that has
been learned. -/
def State.zRejects (s : State) (i : Fin 8) (dynamic : Bool) (t soc zm : Int) : Prop :=
  let e := s.zent i (21 * nearestBin (t + 240) 80 15 + nearestBin soc 500 20)
  let z : Int := if dynamic then e.zd else e.zs
  let pl : Int := s.fld (F.BAT_LRN.plaus i)
  zm ≤ 0 ∨ (e.ageAt s.bat.ageTicks ≠ 255 ∧ (zm * pl < z ∨ z * pl < zm))

/-- The counters that the cnt_clr of a block clears (20_guarantees R399). -/
def CntBlock.counters (s : State) : CntBlock → List Ctr
  | .law e => [s.law.eng[e].skip, s.law.eng[e].mis]
  | .sch e => [s.law.eng[e].fires, s.law.eng[e].xcnt]
  | .pwm => s.pwm.ph.toList.map (·.cbc)
  | .rail n => [s.pwm.rail[n].shorts]
  | .hbx => [s.hbx.capCnt, s.hbx.defCnt, s.hbx.lateCnt]
  | .dkl => [s.dkl.cutCnt]
  | .vat => [s.vat.huCnt]
  | .bat i => [s.bat.str[i].lrn, s.bat.str[i].rej] ++ (if s.bat.str[i].present then [(s.bRec i).cyc] else [])
  | .slt k => [s.slt[k].crcErr, s.slt[k].cvErr, s.slt[k].lossCnt, s.slt[k].gapCnt, s.slt[k].mbrtx]
  | .red => [s.red.snapCnt, s.red.snapErr, s.red.xmis, s.aon.takeCnt, s.aon.demCnt, s.arb.verdCnt]
  | .seq => [s.seq.failCnt, s.seq.rsCnt]
  | .thm => [s.aon.sdCnt]
  | .nvp => [s.nvp.ce, s.nvp.ue, s.nvp.twin, s.nvp.saveCnt]
  | .bbx => [s.bbx.sup, s.bbx.sealMiss, s.bbx.authFail, s.bbx.clr]
  | .upd => [s.upd.doneCnt, s.upd.rbCnt]
  | .hst => [s.hst.evDrop, s.hst.telDrop, s.hst.trcDrop, s.hst.cplDrop, s.hst.cmdCnt]
  | .twp p => [s.twp[p].arb]

end Sys2Proof.Machine
end

