-- ==== Sys2Proof/WellFormed.lean ====
section
/-! DEFINITION. Which commands are well formed: the conditions on the operands that hold of every command that can come from
outside, whatever state the block is in. A meaning answers on an ill-formed command too; the claims do not need it. -/

namespace Sys2Proof

/-- An image verifies under one key: not under the ROM default key and the ROM recovery key at once (14_start_up R282). -/
def ImageCheck.wf (i : ImageCheck) : Bool := !(i.defaultKey && i.recoveryKey)

/-- A snapshot names each engine and each rail at most once (10_redundancy Table RED.10). -/
def Snapshot.wf (s : Snapshot) : Bool := decide ((s.engines.map Prod.fst).Nodup) && decide ((s.rails.map Prod.fst).Nodup)

/-- The operands of a command are ones that can occur: register offsets are those of words (21_register_map R403, Table REG.1), window
offsets lie in their window, a pulse is no longer than its period, a beacon command is its word of Table TWP.4 (19_two_wire_ports
R390), a recovery has at most nine pulses (R386), at most 8 pulses per bit and copy program fuses (13_fuse_array R275), a DMA
buffer has at most 65536 bytes (18_host_rings Table HST.3), a link that trains has a lane. -/
def Instr.wf : Instr → Bool
  | .aonPowerGood _ _ => true
  | .otpG5Check => true
  | .rstNAssert => true
  | .rstNRelease => true
  | .sysRstCold _ => true
  | .sysRstWarm _ => true
  | .supplyPgLost _ => true
  | .supplyPgReturn => true
  | .refLost => true
  | .refReturn => true
  | .coreRelease _ _ => true
  | .pllLock => true
  | .bootImageVerified bank0 bank1 recov => bank0.wf && bank1.wf && recov.wf
  | .configLoad => true
  | .selfTestComplete _ => true
  | .roleDecision => true
  | .bootStep9 => true
  | .watchdogExpiry => true
  | .wdtKick => true
  | .configLock => true
  | .modeRequest _ => true
  | .overlaySwap => true
  | .holdupOverlayRequest => true
  | .serviceOverlayRequest => true
  | .transportOverlayApply => true
  | .transportGate => true
  | .transportWake => true
  | .regWrite off _ => decide (off.toNat % 4 = 0)
  | .shadowWriteApply => true
  | .gatedAccess off _ => decide (off.toNat % 4 = 0)
  | .latchedPairRead _ => true
  | .counterClear _ => true
  | .shelfTick => true
  | .dspSnapshot => true
  | .huExit => true
  | .hbxResultsRelease => true
  | .resultsDelivery => true
  | .payloadFreeze => true
  | .hbxPeriodChange => true
  | .phaseSampleAperture _ => true
  | .idleSample _ => true
  | .railVoltageConversion _ => true
  | .busConversion => true
  | .scanSample _ => true
  | .ntcIdSample _ _ => true
  | .snsConversionComplete _ _ => true
  | .cbcCrossing _ _ => true
  | .lawTrigger _ => true
  | .lawOutputWrite _ => true
  | .lawSnapRequest _ => true
  | .coeffShadowWrite off _ => decide (0x40000 ≤ off.toNat) && decide (off.toNat < 0x46000) && decide (off.toNat % 4 = 0)
  | .lawCommitRequest _ => true
  | .lawBankSwap _ => true
  | .lawShadowCopyDone _ => true
  | .pwmPeriodStart _ => true
  | .phaseShed _ => true
  | .phaseAdd _ => true
  | .phaseOpenDetect _ => true
  | .phaseSenseStuck _ => true
  | .sumCheckFail _ => true
  | .phaseAssignmentApply _ => true
  | .syncInEdge => true
  | .syncLost => true
  | .rampUpdate => true
  | .startShort _ => true
  | .hiccupEnd _ => true
  | .trackEdge high period => decide (0 < period) && decide (high ≤ period)
  | .trackStatic _ => true
  | .railEnableChange _ => true
  | .railPauseChange _ => true
  | .hbxCommitRequest => true
  | .hbxCommitSwap => true
  | .hbxStagedCopyDone => true
  | .costCurveWrite off _ => decide (off.toNat % 4 = 0)
  | .derateClear => true
  | .shedClear => true
  | .stringStrobe _ _ => true
  | .zdMeasurement _ => true
  | .presenceChange _ => true
  | .batBlock => true
  | .eodDeclare _ => true
  | .eocDeclare _ => true
  | .batSecond => true
  | .batHour => true
  | .batAgeTick => true
  | .batEnable _ => true
  | .batDisable _ => true
  | .batForget _ => true
  | .batTransportPrep => true
  | .batTransportRelease => true
  | .uplinkFrameReceived _ _ => true
  | .linkLost _ => true
  | .linkRetrain _ => true
  | .mbResend _ => true
  | .mbRequestTimeout _ _ => true
  | .slotFrameApply _ => true
  | .slotClaimExpiry _ _ => true
  | .slotHoldExpiry _ => true
  | .clmWordStart => true
  | .stageClmWordReceived _ _ _ => true
  | .stageClaimExpiry _ _ => true
  | .demoteNAccept => true
  | .demoteNRelease => true
  | .takeNAccept => true
  | .heartbeatFormChange => true
  | .tickStrobeTimeout _ => true
  | .fwLivenessTimeout => true
  | .fwLivenessWrite => true
  | .vhbEdge _ => true
  | .hbDeadTimeout _ => true
  | .takeDeferredEval => true
  | .takePulseEnd => true
  | .demoteHoldEnd _ => true
  | .chezonPacketReceived _ => true
  | .chezonTrained lane0 lane1 => lane0 || lane1
  | .chezonOneLane _ => true
  | .chezonLinkDown => true
  | .chezonPacketSend => true
  | .timeTransfer _ _ _ => true
  | .snapshotCapture => true
  | .snapshotReceived snap _ => snap.wf
  | .standbyKeepExpiry => true
  | .lonePeerHigherTimeout => true
  | .drillNow => true
  | .drillSchedule => true
  | .drillComplete => true
  | .seqStep => true
  | .nodeOnDelayEnd _ => true
  | .nodeSettleEnd _ => true
  | .riseTimeout _ => true
  | .nodeOffDelayEnd _ => true
  | .fallTimeout _ => true
  | .pgChange _ => true
  | .seqGo => true
  | .seqStop => true
  | .seqRetry => true
  | .seqTrip => true
  | .seqTripClr => true
  | .restartDelayEnd => true
  | .thmStep _ => true
  | .sensorRestored _ => true
  | .diodeConversion _ _ => true
  | .thmSecond => true
  | .aonThermalGate _ => true
  | .thermalShutdown => true
  | .thermalResetHold => true
  | .thermalRestartRelease => true
  | .otpArm => true
  | .otpProg => true
  | .otpLock _ => true
  | .otpReadN => true
  | .otpReadM => true
  | .otpCommandComplete _ _ pulses => decide (pulses ≤ 512)
  | .otpReread => true
  | .nvpCommitRequest => true
  | .nvpCommitDone _ => true
  | .nvpRawRead _ => true
  | .powerFailAssert _ => true
  | .pfRide => true
  | .hourlySave => true
  | .nvpSaveRequest => true
  | .saveComplete _ => true
  | .nvpRestore => true
  | .shadowImageRestore => true
  | .nvpScrub => true
  | .nvpScrubRequest => true
  | .bbxEventEnqueue => true
  | .bbxRecordWrite => true
  | .tokenRefill => true
  | .traceRow => true
  | .traceFreeze => true
  | .watermarkDone _ => true
  | .bbxSealNow => true
  | .reamPointerRead _ off => decide (0x80000 ≤ off.toNat) && decide (off.toNat < 0x90000) && decide (off.toNat % 4 = 0)
  | .bbxNonceRequest _ => true
  | .nonceExpiry => true
  | .bbxClear => true
  | .bbxRelease => true
  | .bbxOpComplete => true
  | .lockoutEnd => true
  | .updBegin => true
  | .updChunk => true
  | .updEnd => true
  | .prepareComplete => true
  | .updCommit => true
  | .commitWritesDone _ => true
  | .updActivate => true
  | .activationStep => true
  | .updAbort => true
  | .mgmtRestart image => image.wf
  | .mgmtRestartComplete => true
  | .trialEnd => true
  | .updRollback => true
  | .slotActivateTimeout _ => true
  | .hstReset _ => true
  | .pcieLinkChange _ _ _ _ _ => true
  | .ringEnable _ _ => true
  | .commandDoorbell _ _ => true
  | .consumerDoorbell _ _ => true
  | .commandFetch _ _ => true
  | .nop _ => true
  | .nvpRead _ => true
  | .nvpWrite _ payload => decide (payload.length ≤ 65536)
  | .nvpSave _ => true
  | .mbReq _ payload => decide (payload.length ≤ 65536)
  | .updOp _ payload => decide (payload.length ≤ 65536)
  | .modeReq _ => true
  | .bbxCopy _ => true
  | .commandComplete _ => true
  | .hostDmaError _ _ _ => true
  | .telemetryCapture => true
  | .msixModerationEnd _ => true
  | .evtSumClear => true
  | .evtTripClear => true
  | .twpGo _ _ => true
  | .twpArbRetry _ _ => true
  | .twpTransactionDone _ _ => true
  | .twpTargetWrite _ _ _ => true
  | .twpTargetRead _ _ => true
  | .twpAttnRequest _ _ _ => true
  | .twpAttention _ _ bytes => decide (bytes.length ≤ 32)
  | .twpTimeout _ => true
  | .twpBusRecovery _ pulses _ => decide (pulses ≤ 9)
  | .twpRecoveryRetry _ _ => true
  | .beaconRead => true
  | .beaconDemote word => decide (word = 0x1E06)
  | .beaconDemoteEnd => true
  | .beaconSafeShutdown word => decide (word = 0x2D0B)
  | .beaconShutdownTimeout => true
  | .beaconSave word => decide (word = 0x3C01)
  | .beaconClearAttn word => decide (word = 0x4B02)
  | .beaconBadWord word => decide (word ∉ [0x1E06, 0x2D0B, 0x3C01, 0x4B02])
  | .vaonLost => true
  | .pwmEdge _ => true
  | .slotDownlinkReceived _ _ _ => true
  | .slotHoldBegin _ => true
  | .chezonTrainingFailed => true
  | .ringSlotComplete => true

/-- A command is well formed. -/
abbrev Instr.WellFormed (i : Instr) : Prop := i.wf = true

end Sys2Proof
end

