-- ==== Sys2Proof/Certificates/Slice0/Obligations.lean ====
section
/-! DEFINITION. What is claimed of the machine. -/

open Sys2Proof Sys2Proof.Machine

/-- What the pins and the two keys of a reset do. AON_POWER_GOOD, RST_N_ASSERT, RST_N_RELEASE, SYS_RST_COLD,
TRANSPORT_WAKE and VAON_LOST complete as resets of kind cold with their cause and boot step; SYS_RST_WARM, with an
image running, is a warm reset that keeps the lock, the epoch and the live fuse values, and in BOOT_FAIL resumes step
4. (R278, 14_start_up Table SYS.1, Table SYS.2, R418, R174) The supplies, balls and reference at State.reset are the
model's choice (log 3); no clause here needs them. -/
def Obligations.ResetPinsComplete : Prop :=
  (∀ solo unitSel s, s.aon.vaon = false ∨ s.sys.step = 0 →
    Completes (.aonPowerGood solo unitSel) s (fun t => t.aon.vaon = true ∧ t.aon.soloBall = solo ∧ t.aon.unitBall = unitSel ∧
      t.aon.optFrom = s.time ∧ t.sys.inReset = true ∧ t.sys.cold = true ∧ t.sys.rstCause = 1 ∧ t.sys.step = 2)) ∧
  (∀ s, s.aon.vaon = true → s.aon.rstN = true →
    Completes .rstNAssert s (fun t => t.aon.rstN = false ∧ t.sys.inReset = true ∧ t.sys.cold = true ∧ t.sys.rstCause = 2 ∧
      t.sys.lock = false ∧ t.sys.role = .undecided ∧ t.sys.mode = modeStart ∧ t.tick = 0 ∧ (s.recBusy = false → t.regs = Regs.reset) ∧ t.law = Law.reset)) ∧
  (∀ s, s.aon.vaon = true → s.aon.rstN = false → Completes .rstNRelease s (fun t => t.aon.rstN = true ∧ t.sys.step = 2)) ∧
  (∀ s, s.runs .hst = true → s.runs .mgt = true →
    Completes (.sysRstCold rstKey) s (fun t => t.sys.inReset = true ∧ t.sys.cold = true ∧ t.sys.rstCause = 3 ∧ t.sys.step = 2 ∧
      t.sys.lock = false ∧ t.sys.role = .undecided ∧ t.sys.mode = modeStart ∧ t.tick = 0 ∧ t.law = Law.reset)) ∧
  (∀ s, s.runs .hst = true → s.runs .mgt = true → s.sys.step ≠ 15 →
    Completes (.sysRstWarm rstKey) s (fun t => t.sys.inReset = true ∧ t.sys.cold = false ∧ t.sys.rstCause = 9 ∧
      t.sys.lock = s.sys.lock ∧ t.aon.epoch = s.aon.epoch ∧ t.otp.live = s.otp.live ∧ t.sys.role = .undecided ∧
      t.sys.mode = modeStart ∧ t.tick = 0 ∧ t.law = Law.reset)) ∧
  (∀ s, s.runs .hst = true → s.runs .mgt = true → s.sys.step = 15 → Completes (.sysRstWarm rstKey) s (fun t => t.sys.step = 4)) ∧
  (∀ s, s.aon.vaon = true → s.aon.transport = true →
    Completes .transportWake s (fun t => t.sys.inReset = true ∧ t.sys.cold = true ∧ t.sys.rstCause = 4 ∧ t.sys.step = 2 ∧ t.tick = 0)) ∧
  (∀ s, s.aon.vaon = true → Completes .vaonLost s (fun t => t.aon.vaon = false ∧ t.aon.epoch = 0 ∧ t.chans.flight = [] ∧ t.tick = 0))

/-- What the core supplies, the reference, core release and the PLLs do. A lost core supply (VCORE also asserts
power-fail) or reference is recorded and, outside a reset, is a warm reset with cause 10 or 11; their return is
recorded. CORE_RELEASE under its conditions begins step 3 and samples the straps. PLL_LOCK ends step 3; SNS_TIME
starts at 0 unless a value is held. (R278, R280, R281, R26, 14_start_up Table SYS.1) A commit cut by the reset leaves
a free number of its words (log 5); the interval by which SNS_TIME continues is free within AON's bound (log 19). -/
def Obligations.CoreSuppliesComplete : Prop :=
  (∀ which s, s.aon.vaon = true → s.sys.inReset = true → which ≠ .vcore ∨ s.nvp.recDue = none →
    Completes (.supplyPgLost which) s (fun t => t.aon.good[supplyIdx which] = false ∧ t.sys = s.sys)) ∧
  (∀ which s, s.aon.vaon = true → s.sys.inReset = false →
    Completes (.supplyPgLost which) s (fun t => t.sys.inReset = true ∧ t.sys.cold = false ∧ t.sys.rstCause = 10 ∧
      t.sys.lock = s.sys.lock ∧ t.aon.epoch = s.aon.epoch ∧ t.tick = 0)) ∧
  (∀ s, s.aon.vaon = true → Completes .supplyPgReturn s (fun t => t.aon.good = Vector.replicate 5 true ∧ t.sys = s.sys)) ∧
  (∀ s, s.aon.vaon = true → s.aon.refOk = true → s.sys.inReset = true →
    Completes .refLost s (fun t => t.aon.refOk = false ∧ t.sys = s.sys ∧ Raises s t 0x03 0x01 0 0)) ∧
  (∀ s, s.aon.vaon = true → s.aon.refOk = true → s.sys.inReset = false →
    Completes .refLost s (fun t => t.sys.inReset = true ∧ t.sys.cold = false ∧ t.sys.rstCause = 11 ∧ t.sys.lock = s.sys.lock ∧
      t.aon.epoch = s.aon.epoch ∧ t.tick = 0)) ∧
  (∀ s, s.aon.vaon = true → Completes .refReturn s (fun t => t.aon.refOk = true ∧ t.sys = s.sys)) ∧
  (∀ solo unitSel s, s.aon.vaon = true → s.sys.inReset = true → s.otp.latched = true → s.aon.good = Vector.replicate 5 true →
    s.aon.rstN = true → s.aon.refOk = true → s.aon.sd = false → s.aon.transport = false → s.nvp.recDue = none →
    Completes (.coreRelease true ⟨solo, unitSel⟩) s (fun t => t.sys.inReset = false ∧ t.sys.step = 3 ∧ t.sys.strapSolo = solo ∧
      t.sys.strapUnit = unitSel ∧ t.sys.releaseAt = s.time ∧ t.aon.pf = false)) ∧
  (∀ s, s.runs .mgt = true → s.sys.step = 3 → s.aon.heldAt = none →
    Completes .pllLock s (fun t => t.sys.step = 4 ∧ t.sns.running = true ∧ t.sns64 = 0)) ∧
  (∀ s at_, s.runs .mgt = true → s.sys.step = 3 → s.aon.heldAt = some at_ →
    Completes .pllLock s (fun t => t.sys.step = 4 ∧ t.sns.running = true ∧ t.sns.resumed = true ∧ t.aon.heldAt = none ∧
      min 0xFFFFFFFFFFFFFFFF s.aon.heldTime ≤ t.sns64))

/-- What the boot steps 4 to 9 and the watchdog do. From step 4 an image starts at step 5 with the watchdog armed, or none
is accepted and the unit stays at BOOT_FAIL; the configuration load ends step 6, the self-tests step 7 with their
failures, the role decision step 8 with the role it decides, and step 9 brings the unit to step 10. An expired
watchdog is a warm reset with cause 8. (R281, R282, R283, R284, R285, R286, R288) What a failing load counts as is the
model's reading (log 25); the layout of the base configuration record is its choice (log 13); the role of a demoted
SOLO unit is its reading (log 62). -/
def Obligations.BootStepsComplete : Prop :=
  (∀ bank0 bank1 recov s, s.runs .mgt = true → s.sys.step = 4 → s.sys.wdtRun < 3 → s.bootChecks.otp.live.key ≠ 2 →
    s.bootChecks.imageOk (if s.bootChecks.upd.rec1.bank then bank1 else bank0) = true →
    Completes (.bootImageVerified bank0 bank1 recov) s (fun t => t.sys.step = 5 ∧ t.sys.bank = s.bootChecks.upd.rec1.bank ∧
      t.sys.wdtArmed = true ∧ t.sys.wdtAt = s.time ∧ t.sys.recovery = s.sys.recovery)) ∧
  (∀ bank0 bank1 recov s, s.runs .mgt = true → s.sys.step = 4 → s.sys.wdtRun < 3 → s.bootChecks.otp.live.key ≠ 2 →
    s.bootChecks.imageOk (if s.bootChecks.upd.rec1.bank then bank1 else bank0) = false →
    s.bootChecks.imageOk (if s.bootChecks.upd.rec1.bank then bank0 else bank1) = true →
    Completes (.bootImageVerified bank0 bank1 recov) s (fun t => t.sys.step = 5 ∧ t.sys.bank = !s.bootChecks.upd.rec1.bank ∧
      t.sys.wdtArmed = true ∧ t.sys.wdtAt = s.time ∧ Raises s.bootChecks t 0x00 0x02 0 (b2n (!s.bootChecks.upd.rec1.bank)))) ∧
  (∀ bank0 bank1 recov s, s.runs .mgt = true → s.sys.step = 4 → 3 ≤ s.sys.wdtRun → s.bootChecks.recoveryOk recov = true →
    Completes (.bootImageVerified bank0 bank1 recov) s (fun t => t.sys.step = 5 ∧ t.sys.recovery = true ∧ t.sys.mode = modeRecovery ∧
      t.sys.wdtArmed = true ∧ t.sys.wdtAt = s.time)) ∧
  (∀ bank0 bank1 recov s, s.runs .mgt = true → s.sys.step = 4 → 3 ≤ s.sys.wdtRun → s.bootChecks.recoveryOk recov = false →
    Completes (.bootImageVerified bank0 bank1 recov) s (fun t => t.sys.step = 15)) ∧
  (∀ s, s.runs .mgt = true → s.sys.step = 6 → s.nvp.restoreDue = false → s.nvp.imageDue = false →
    Completes .configLoad s (fun t => t.sys.step = 7 ∧ t.sys.placed = true)) ∧
  (∀ fail s, s.runs .mgt = true → s.sys.step = 7 →
    Completes (.selfTestComplete fail) s (fun t => t.sys.step = 8 ∧ t.sys.stFail = fail ∧ t.sys.restricted = (fail &&& 0x7D != 0) ∧
      t.sys.peerFrom = s.time)) ∧
  (∀ s, s.runs .mgt = true → s.sys.step = 8 → s.elapsed s.sys.peerFrom (s.fld F.SYS_BOOT.peer_ms * ms1) = true →
    Completes .roleDecision s (fun t => t.sys.step = 9 ∧ t.sys.role = s.decide288.1 ∧ t.sys.lone = s.decide288.2.1)) ∧
  (∀ s, s.runs .mgt = true → s.sys.step = 9 →
    Completes .bootStep9 s (fun t => t.sys.step = 10 ∧ t.sys.wdtRun = 0 ∧
      t.sys.bootUs = min max32 ((s.time - s.sys.releaseAt) / us1))) ∧
  (∀ s, s.runs .mgt = true → s.sys.wdtArmed = true → s.elapsed s.sys.wdtAt (s.fld F.SYS_WDT.ms * ms1) = true →
    Completes .watchdogExpiry s (fun t => t.sys.inReset = true ∧ t.sys.cold = false ∧ t.sys.rstCause = 8 ∧
      t.sys.wdtRun = s.sys.wdtRun + 1 ∧ t.sys.lock = s.sys.lock))

/-- Mode requests, the lock and the watchdog kick complete. An accepted host request for another mode than TRANSPORT is
staged with its overlay's words if the overlay passes its check; one for TRANSPORT begins the entry; a HOLDUP entry or
exit and the SERVICE request stage theirs. CONFIG_LOCK sets the lock and changes nothing else; WDT_KICK restarts the
watchdog. (R6, R21, R22, R286, R291, 14_start_up Table SYS.6) Which request wins over a standing one and when the swap
comes are the model's reading (log 24). -/
def Obligations.ModeRequestsComplete : Prop :=
  (∀ s, s.runs .hst = true → s.runs .mgt = true →
    exec .configLock s = .next { s with sys := { s.sys with lock := true } }) ∧
  (∀ s, s.runs .hst = true → s.runs .mgt = true → exec .wdtKick s = .next { s with sys := { s.sys with wdtAt := s.time } }) ∧
  (∀ code s ws ps, s.runs .hst = true → s.mgtUp = true → modeMove s.sys.mode code.toNat = true → s.sys.mode ≠ modeHoldup →
    s.sys.transportStep = 0 → s.sys.waitReq = none → s.regs.stage = none → code.toNat ≠ modeTransport →
    (s.overlayCheck code.toNat).2 = some (ws, ps) →
    Completes (.modeRequest code) s (fun t => t.regs.stage = some ⟨code.toNat, ws, ps, true, false, s.time⟩ ∧
      t.sys.pend = some code.toNat ∧ t.sys.pendHost = true ∧ t.sys.mode = s.sys.mode)) ∧
  (∀ s, s.runs .hst = true → s.mgtUp = true → modeMove s.sys.mode modeTransport = true → s.sys.mode ≠ modeHoldup →
    s.sys.transportStep = 0 → s.sys.waitReq = none → s.regs.stage = none →
    Completes (.modeRequest 4) s (fun t => t.sys.transportStep = 1 ∧ t.sys.pend = some modeTransport ∧ t.sys.pendHost = true ∧
      t.sys.mode = s.sys.mode)) ∧
  (∀ s ws ps, s.mgtUp = true → s.sys.huReq = some true → s.regs.stage = none → s.transportOn = false → s.sys.waitReq = none →
    s.sys.transportStep ≠ 1 →
    s.sys.mode = modeStart ∨ s.sys.mode = modeService ∨ s.sys.mode = modeMaint ∨ s.sys.mode = modeCustom →
    (State.overlayCheck { s with sys := { s.sys with huReq := none } } modeHoldup).2 = some (ws, ps) →
    Completes .holdupOverlayRequest s (fun t => t.regs.stage = some ⟨modeHoldup, ws, ps, false, false, s.time⟩ ∧
      t.sys.huReq = none ∧ t.sys.pend = some modeHoldup ∧ t.sys.pendHost = false)) ∧
  (∀ s ws ps, s.mgtUp = true → s.sys.huReq = some false → s.regs.stage = none → s.transportOn = false → s.sys.waitReq = none →
    s.sys.transportStep ≠ 1 →
    s.sys.mode = modeHoldup →
    (State.overlayCheck { s with sys := { s.sys with huReq := none } } s.sys.prev).2 = some (ws, ps) →
    Completes .holdupOverlayRequest s (fun t => t.regs.stage = some ⟨s.sys.prev, ws, ps, false, false, s.time⟩ ∧
      t.sys.huReq = none ∧ t.sys.pend = some s.sys.prev ∧ t.sys.pendHost = false)) ∧
  (∀ s ws ps, s.mgtUp = true → s.sys.svcReq = true → s.regs.stage = none → s.sys.huReq = none → s.sys.mode = modeStart →
    (State.overlayCheck { s with sys := { s.sys with svcReq := false } } modeService).2 = some (ws, ps) →
    Completes .serviceOverlayRequest s (fun t => t.regs.stage = some ⟨modeService, ws, ps, false, false, s.time⟩ ∧
      t.sys.svcReq = false ∧ t.sys.pend = some modeService))

/-- Overlays take effect, and TRANSPORT is entered step by step. OVERLAY_SWAP at its boundary puts every staged word in
force, takes the staged mode and leaves nothing staged, and a host request that waited comes to its turn; the
TRANSPORT overlay's words come into force and the mode is TRANSPORT; BAT prepares with every limit at 0 and releases
the contactors once currents rest; the gate then leaves every island but AON gated, in TRANSPORT, with the lock kept.
(R21, R174, R290, R291, R292, R293, R295) The instant of the swap relative to the staging is the model's reading (log
24); the copy regions of the flash are its choice (log 14). -/
def Obligations.OverlaysApplyComplete : Prop :=
  (∀ s g, s.runs .mgt = true → s.regs.stage = some g → g.reload = false →
    s.tickAt = none ∨ (s.atTick = true ∧ g.at_ < s.time) →
    Completes .overlaySwap s (fun t => t.regs.act = (s.putWords g.words).regs.act ∧ t.sys.mode = g.mode ∧
      t.bbx.nvalid = false ∧ (s.otp.cmd = none → t.otp = s.otp.disarm s.time) ∧
      (s.sys.waitReq = none → t.regs.stage = none ∧ t.regs.patched = g.patched ∧ t.regs.held = [] ∧ t.sys.pend = none))) ∧
  (∀ s g, s.runs .mgt = true → s.regs.stage = some g → g.reload = true →
    s.tickAt = none ∨ (s.atTick = true ∧ g.at_ < s.time) →
    Completes .overlaySwap s (fun t => t.regs.act = (s.putWords g.words).regs.act ∧ t.sys.mode = s.sys.mode ∧
      (s.sys.waitReq = none → t.regs.stage = none ∧ t.regs.patched = g.patched ∧ t.regs.held = []))) ∧
  (∀ s ws ps, s.mgtUp = true → s.sys.transportStep = 1 → s.seq.st ≠ 4 →
    allFin 72 (fun k => !s.nodeEn k || s.seq.n[k].st.isOff) = true → s.tickAt = none ∨ s.atTick = true →
    (s.overlayCheck modeTransport).2 = some (ws, ps) →
    Completes .transportOverlayApply s (fun t => t.sys.mode = modeTransport ∧ t.sys.transportStep = 2 ∧ t.regs.patched = ps ∧
      t.regs.act = ((s.overlayCheck modeTransport).1.putWords ws).regs.act)) ∧
  (∀ s, s.runs .bat = true → s.sys.transportStep = 2 →
    Completes .batTransportPrep s (fun t => t.sys.transportStep = 3 ∧ t.bat.txAt = some s.time)) ∧
  (∀ s, s.runs .bat = true → s.sys.transportStep = 3 → s.ranOut s.bat.txAt (100 * ms1) = true →
    Completes .batTransportRelease s (fun t => t.sys.transportStep = 4 ∧ t.bat.txAt = none)) ∧
  (∀ s, s.runs .bat = true → s.sys.transportStep = 4 → s.nvp.save = none → s.recordsDone = true → s.aon.sd = false →
    Completes .transportGate s (fun t => t.aon.transport = true ∧ t.sys.mode = modeTransport ∧ t.sys.lock = s.sys.lock ∧
      t.sys.role = .undecided ∧ t.tick = 0 ∧ ∀ i, i ≠ Island.aon → t.gated i = true ∧ t.runs i = false))

/-- A host write reaches exactly the fields its access codes give it. A host write whose value passes the load-time rules
replaces the RW and RWS fields of its register, and the RWL fields while the configuration is not locked, at once
where they are not shadowed and as a write that waits for the tick boundary (held while an overlay is staged) where
they are, and clears the W1C bits written with 1 that hardware does not set at that instant; a staged field's write
reaches the staged copy, the battery template and the MSI-X table take their word, a gated island's write is discarded
with one event per gating interval, and a write to reserved space changes nothing. (R4, R6, R15, R23, R112, R404,
R407, R408) How a write made at a boundary's own instant waits, and that the link need not be up, are the model's
reading (log 17). -/
def Obligations.RegisterWritesComplete : Prop :=
  (∀ (off : BitVec 20) val s d e w i, s.StoresWf → s.runs .hst = true → off.toNat % 4 = 0 →
    s.sys.step ≠ 15 ∨ inBootBlock off.toNat = true → islandAt off.toNat = some i → s.gated i = false → s.runs i = true →
    regAt off.toNat = some (d, e, w) → d.shadow ≠ .staged →
    s.writeMask d e &&& ~~~d.shadowMask = 0 ∨
      ((s.clearSticky d off.toNat val).setWord d e off.toNat
        (maskIn (s.word off.toNat (d.rstAt e)) val (s.writeMask d e &&& ~~~d.shadowMask))).checkReg d.id
        (maskIn (s.word off.toNat (d.rstAt e)) val (s.writeMask d e &&& ~~~d.shadowMask)) = true →
    Completes (.regWrite off val) s (fun t =>
      t.word off.toNat (d.rstAt e) = maskIn (s.word off.toNat (d.rstAt e)) val (s.writeMask d e &&& ~~~d.shadowMask) ∧
      (d.id ≠ .OTP_CMD → cellGet 0 t.regs.sticky off.toNat =
        cellGet 0 s.regs.sticky off.toNat &&& (~~~(val &&& BitVec.ofNat 32 d.w1c) ||| cellGet 0 s.freshNow off.toNat)) ∧
      (s.writeMask d e &&& d.shadowMask = 0 → t.regs.shadowQ = s.regs.shadowQ ∧ t.regs.held = s.regs.held) ∧
      (s.writeMask d e &&& d.shadowMask ≠ 0 → s.regs.stage = none →
        t.regs.shadowQ = s.regs.shadowQ ++ [⟨off.toNat, val, s.writeMask d e &&& d.shadowMask, s.time⟩]) ∧
      (s.writeMask d e &&& d.shadowMask ≠ 0 → s.regs.stage ≠ none →
        t.regs.held = s.regs.held ++ [⟨off.toNat, val, s.writeMask d e &&& d.shadowMask, s.time⟩]))) ∧
  (∀ (off : BitVec 20) val s d e w i, s.StoresWf → s.runs .hst = true → off.toNat % 4 = 0 → s.sys.step ≠ 15 →
    islandAt off.toNat = some i → s.gated i = false → s.runs i = true → regAt off.toNat = some (d, e, w) → d.shadow = .staged →
    s.sys.lock = false → s.hbx.commit = 0 →
    Completes (.regWrite off val) s (fun t => cellGet 0 t.regs.staged off.toNat = val &&& BitVec.ofNat 32 d.rwl)) ∧
  (∀ (off : BitVec 20) val s, s.StoresWf → s.runs .hst = true → off.toNat % 4 = 0 → s.sys.step ≠ 15 → 0x5D400 ≤ off.toNat →
    off.toNat < 0x5D940 → regAt off.toNat = none → s.gated .bat = false → s.runs .bat = true → s.sys.lock = false →
    (∀ i < 8, s.bit (F.BAT_CTL.en i) = false) →
    Completes (.regWrite off val) s (fun t => cellGet 0 t.bat.tmpl ((off.toNat - 0x5D400) / 4) = val)) ∧
  (∀ (off : BitVec 20) val s, s.StoresWf → s.runs .hst = true → off.toNat % 4 = 0 → s.sys.step ≠ 15 → 0xF0000 ≤ off.toNat →
    off.toNat < 0xF0400 → regAt off.toNat = none → s.gated .hst = false →
    Completes (.regWrite off val) s (fun t => t.hst = (s.msixWrite ((off.toNat - 0xF0000) / 4) val).hst)) ∧
  (∀ (off : BitVec 20) val s i, s.runs .hst = true → off.toNat % 4 = 0 → s.sys.step ≠ 15 → islandAt off.toNat = some i →
    s.gated i = true → s.regs.gatedSeen.contains i = false →
    Completes (.regWrite off val) s (fun t => t.regs.gatedSeen = i :: s.regs.gatedSeen ∧ Raises s t 0x06 0x01 0 off.toNat)) ∧
  (∀ (off : BitVec 20) val s, islandAt off.toNat = none → exec (.regWrite off val) s = .next s)

/-- Waiting writes, gated accesses, latched pairs, counter clears and the ring enable. A waiting host write takes effect
at the tick boundary if it passes its rules; a read of the first of a register pair latches the second; a counter
clear leaves every counter of its block without its sat flag, at 0 but for what is counted at that instant; a rise of
a ring's enable starts it at head = tail = 0. (R15, R23, R28, R360, R399, R407, R410) A gated access is one event per
gating interval and island by the model's reading (log 17); saturation events without a source are its choice (log 7). -/
def Obligations.RegisterEventsComplete : Prop :=
  (∀ s h d e w, s.StoresWf → s.runs .hst = true → s.tickAt = none → s.regs.shadowQ = [h] → regAt h.off = some (d, e, w) →
    (State.setWord { s with regs := { s.regs with shadowQ := [] } } d e h.off
      (maskIn (s.word h.off (d.rstAt e)) h.val h.mask)).checkReg d.id (maskIn (s.word h.off (d.rstAt e)) h.val h.mask) = true →
    Completes .shadowWriteApply s (fun t => t.regs.shadowQ = [] ∧
      t.word h.off (d.rstAt e) = maskIn (s.word h.off (d.rstAt e)) h.val h.mask)) ∧
  (∀ (off : BitVec 20) wr s i, islandAt off.toNat = some i → s.runs .hst = true → s.sys.step ≠ 15 → s.gated i = true →
    s.regs.gatedSeen.contains i = false →
    Completes (.gatedAccess off wr) s (fun t => t.regs.gatedSeen = i :: s.regs.gatedSeen ∧ Raises s t 0x06 0x01 0 off.toNat)) ∧
  (∀ s, s.runs .hst = true → s.runs .ctl = true →
    exec (.latchedPairRead .snsTime) s = .next { s with regs := { s.regs with timeHi := hiWord s.sns64 } }) ∧
  (∀ ch s, s.runs .hst = true → s.runs .ctl = true →
    Completes (.latchedPairRead (.snsVal ch)) s (fun t => t.sns.ch[ch].ts = BitVec.ofNat 32 (s.sns.ch[ch].stamp.getD 0))) ∧
  (∀ k s, s.runs .hst = true → s.runs .recI = true →
    Completes (.latchedPairRead (.nvpEnergy k)) s (fun t => t.regs.nvpHi[k] = hiWord s.nvp.e[k].1)) ∧
  (∀ s, s.runs .hst = true → s.runs .recI = true →
    exec (.latchedPairRead .bbxNext) s = .next { s with regs := { s.regs with bbxHi := hiWord s.bbx.seq.toNat } }) ∧
  (∀ s, s.runs .hst = true → s.runs .mgt = true →
    exec (.latchedPairRead .updEpoch) s = .next { s with regs := { s.regs with updHi := hiWord s.upd.rec1.epoch.toNat } }) ∧
  (∀ b s, s.runs .hst = true → s.runs (cntIsland b) = true → s.sys.step ≠ 15 ∨ b = .upd →
    Completes (.counterClear b) s (fun t => ∀ c ∈ CntBlock.counters t b, c.sat = false ∧ (s.countsNow = [] → c.count = 0))) ∧
  (∀ r s, s.runs .hst = true → s.sys.step ≠ 15 → s.bit (F.HST_RING_CFG.en r) = false →
    Completes (.ringEnable r true) s (fun t => t.hst.ring[r].head = 0 ∧ t.hst.ring[r].tail = 0 ∧ t.hst.ring[r].err = false)) ∧
  (∀ r s, s.StoresWf → s.runs .hst = true → s.sys.step ≠ 15 → Completes (.ringEnable r false) s (fun t => t.hst = s.hst ∧
    t.bit (F.HST_RING_CFG.en r) = false))

/-- A locked field stands, and only a cold reset opens the lock. While SYS_LOCK.cfg is 1 a host write completes and leaves
every RWL field of its register unchanged, in force and among the writes that wait; and no command returns
SYS_LOCK.cfg to 0 but those that begin a cold reset or lose VAON. (R6; as stated: "A write to an RWL field while
SYS_LOCK.cfg is 1 completes on the bus without error and leaves the field unchanged.") -/
def Obligations.LockedFieldsStand : Prop :=
  (∀ (off : BitVec 20) val s d e w, s.StoresWf → s.sys.lock = true → regAt off.toNat = some (d, e, w) →
    Completes (.regWrite off val) s (fun t =>
      t.word off.toNat (d.rstAt e) &&& BitVec.ofNat 32 d.rwl = s.word off.toNat (d.rstAt e) &&& BitVec.ofNat 32 d.rwl ∧
      ∀ h ∈ t.regs.shadowQ ++ t.regs.held, h ∈ s.regs.shadowQ ++ s.regs.held ∨ h.mask &&& BitVec.ofNat 32 d.rwl = 0)) ∧
  (∀ c s t, s.sys.lock = true → exec c s = .next t → t.sys.lock = true ∨ c = .rstNAssert ∨ c = .transportWake ∨ c = .vaonLost ∨
    ∃ key, c = .sysRstCold key)

/-- The samples and conversions of every converter complete. A reached aperture, an idle sample, a rail or bus conversion
each leave a conversion in progress with its stamp; a completed conversion of channels 0 to 33 delivers the calibrated
raw, engineering and user values with that stamp; a scan sample delivers its channel and moves to the next input; the
NTC and identification codes are held. (R29, R30, R31, R32, R33, R34, R36, R38, R104) -/
def Obligations.SamplesComplete : Prop :=
  (∀ j s a near rest, s.ctlWorks = true → s.pwm.ph[j].aps = (a, near) :: rest → a ≤ s.time →
    Completes (.phaseSampleAperture j) s (fun t => t.sns.ch[phCh j].conv = some ⟨s.snsAt a, false, near, a + 4000⟩ ∧
      t.pwm.ph[j].aps = rest)) ∧
  (∀ j s, s.runs .ctl = true → s.sns.running = true → s.pwm.ph[j].asg = true → (s.driven s.pwm.ph[j].rail).contains j = false →
    gridDue s.pwm.ph[j].idleNext (s.idlePer s.pwm.ph[j].rail) s.time = s.time →
    Completes (.idleSample j) s (fun t => t.sns.ch[phCh j].conv = some ⟨s.sns64, true, false, s.time + 4000⟩ ∧
      t.pwm.ph[j].idleNext = s.time + s.idlePer s.pwm.ph[j].rail)) ∧
  (∀ n s, s.runs .ctl = true → s.sns.running = true → gridDue s.sns.railNext[n] (250 * ns1) s.time = s.time →
    Completes (.railVoltageConversion n) s (fun t => t.sns.ch[railCh n].conv = some ⟨s.sns64, false, false, s.time⟩ ∧
      t.sns.railNext[n] = s.time + 250 * ns1)) ∧
  (∀ s, s.runs .ctl = true → s.sns.running = true → gridDue s.sns.busNext (250 * ns1) s.time = s.time →
    Completes .busConversion s (fun t => t.sns.ch[(32 : Fin 130)].conv = some ⟨s.sns64, false, false, s.time⟩ ∧
      t.sns.ch[(33 : Fin 130)].conv = some ⟨s.sns64, false, false, s.time⟩ ∧ t.sns.busNext = s.time + 250 * ns1)) ∧
  (∀ code s (ch : Fin 130), s.runs .sup = true → s.sns.running = true → s.sys.role ≠ .arbiter → ch.val = 34 + s.sns.scanNext.val →
    gridDue s.sns.scanAt us1 s.time = s.time →
    Completes (.scanSample code) s (fun t => t.sns.scanNext = s.sns.scanNext + 1 ∧ t.sns.scanAt = s.time + us1 ∧ t.sns.ch[ch].stamp = some s.sns64 ∧
      t.sns.ch[ch].val = (s.calAt ch code.toNat s.sns64).val)) ∧
  (∀ ntc ident s, s.runs .bat = true → s.sns.running = true → (∀ x ∈ s.sns.ntcId, x.1 ≠ s.sns.strobes + 2) →
    s.ranOut s.sns.strobeAt (125 * us1) = true →
    Completes (.ntcIdSample ntc ident) s (fun t => t.sns.ntcId = (s.sns.strobes + 2, ntc, ident) :: s.sns.ntcId.take 1)) ∧
  (∀ (ch : Fin 34) (code : BitVec 16) s (c : Fin 130) cv, c.val = ch.val → s.runs .ctl = true → s.sns.ch[c].conv = some cv → cv.due ≤ s.time →
    Completes (.snsConversionComplete ch code) s (fun t => t.sns.ch[c].conv = none ∧ t.sns.ch[c].stamp = some cv.stamp ∧
      t.sns.ch[c].raw = (s.calAt c code.toNat cv.stamp).raw ∧ t.sns.ch[c].eng = (s.calAt c code.toNat cv.stamp).eng ∧
      t.sns.ch[c].val = (s.calAt c code.toNat cv.stamp).val))

/-- The shelf tick and the allocation period's events complete. The first tick boundary starts the tick time and a later
one adds one to the counter; the payload freeze, the snapshot, the release and the delivery each come in turn, the
delivery giving the rails their references and the loads their cap codes; the period length changes at a common
multiple; hold-up ends at HU_EXIT with its event. (R17, R18, R19, R124, R126, R134, R143) The headbox's compute time
is a free number within its bound and the boundaries of the hold-up test are literal: the model's reading (log 32,
33). -/
def Obligations.TickComplete : Prop :=
  (∀ s, s.runs .lnk = true → s.sns.running = true → s.tickAt = none →
    Completes .shelfTick s (fun t => t.tick = s.tick ∧ t.tickAt = some s.time)) ∧
  (∀ s a, s.runs .lnk = true → s.sns.running = true → s.tickAt = some a → a + s.tickMin ≤ s.time →
    Completes .shelfTick s (fun t => t.tick = s.tick + 1 ∧ t.tickAt = some s.time)) ∧
  (∀ s, s.works = true → s.runs .lnk = true → s.hbx.frozen = false → s.ranOut s.tickAt (4500 * ns1) = true →
    Completes .payloadFreeze s (fun t => t.hbx.frozen = true ∧ t.tick = s.tick)) ∧
  (∀ s, s.works = true → s.runs .lnk = true → s.hbx.frozen = false → s.ranOut s.tickAt (4500 * ns1) = true →
    s.hbx.phase < 3 → s.bit F.HBX_CTL.en = true → s.hbx.lateNow = false → s.hbx.periodTick + s.hbx.period ≤ s.tick + 1 →
    Completes .payloadFreeze s (fun t => t.hbx.phase = 3 ∧ t.hbx.path = 3 ∧ t.hbx.lateCnt = s.hbx.lateCnt.inc ∧
      Raises s t 0x58 0x01 0 0)) ∧
  (∀ s, s.runs .dsp = true → s.atTick = true → s.fld F.HBX_PERIOD.ticks ≠ s.hbx.period → s.tick % s.hbx.period = 0 →
    s.tick % s.fld F.HBX_PERIOD.ticks = 0 →
    exec .hbxPeriodChange s = .next { s with hbx := { s.hbx with period := s.fld F.HBX_PERIOD.ticks } }) ∧
  (∀ s, s.works = true → s.runs .dsp = true → s.hbx.phase = 0 → s.tick = s.hbx.periodTick → s.ranOut s.tickAt (500 * ns1) = true →
    Completes .dspSnapshot s (fun t => t.hbx.phase = 1 ∧ t.hbx.done = t.bit F.HBX_CTL.en)) ∧
  (∀ s, s.works = true → s.runs .dsp = true → s.hbx.phase = 1 → s.tick = s.hbx.periodTick → s.ranOut s.tickAt (1700 * ns1) = true →
    Completes .hbxResultsRelease s (fun t => t.hbx.phase = 2)) ∧
  (∀ s, s.works = true → s.runs .dsp = true → s.hbx.phase = 2 → s.tick = s.hbx.periodTick → s.ranOut s.tickAt (2000 * ns1) = true →
    Completes .resultsDelivery s (fun t => t.hbx.phase = 3 ∧
      (∀ n : Fin 8, ∀ k : Fin 40, k.val = 32 + n.val → t.pwm.rail[n].refMa =
        (if s.hbx.done && s.bit F.HBX_CTL.en && s.srcEn k then some s.hbx.src[k].x else none)) ∧
      ∀ k : Fin 32, t.dkl.ld[k].code = if s.isLoad k && s.bit F.DKL_CTL.en then s.capCode k else 0x7FFF)) ∧
  (∀ s, s.works = true → s.runs .dsp = true → s.vat.hu = true → s.ranOut s.vat.exitSince (s.fld F.VAT_HU.exit_ms * ms1) = true →
    Completes .huExit s (fun t => t.vat.hu = false ∧ t.vat.exitSince = none ∧ Raises s t 0x5C 0x02 0 s.vat.g))

/-- A law engine's trigger, its output write and its snapshot request complete. In RUN or TRACK a trigger that is due (the
div-th counted completion of trig = 0b00, or the instant set by trig = 0b01 or 0b10) with no sample under way and none
in the last 500 ns begins a sample at this instant; one while a sample runs is counted as skipped; the output write
ends the sample, delivers its output with the feedback's stamp and, in RUN with a duty for the destination that held
at its trigger, gives the rail its command; a snapshot request stands until a sample takes it. (R47, R48, R49, R54,
R55, R59, 03_law_engines Table LAW.6) What LAW_TRIGGER stands for and the presets before the first TRACK sample are
the model's reading (log 28). -/
def Obligations.LawSamplesComplete : Prop :=
  (∀ e s, s.runs .ctl = true → s.law.eng[e].job = none → (s.law.eng[e].lastTrig = none ∨ s.ranOut s.law.eng[e].lastTrig (500 * ns1) = true) →
    s.lawWanted e = .run ∨ s.lawWanted e = .track →
    s.lawDue e →
    Completes (.lawTrigger e) s (fun t => t.law.eng[e].lastTrig = some s.time ∧
      ∃ j, t.law.eng[e].job = some j ∧ j.started = s.time ∧ j.run = s.lawWanted e)) ∧
  (∀ e s, s.runs .ctl = true → s.law.eng[e].job.isSome = true → s.law.eng[e].run = .run ∨ s.law.eng[e].run = .track →
    s.lawDue e →
    Completes (.lawTrigger e) s (fun t => t.law.eng[e].skip = s.law.eng[e].skip.inc ∧ t.law.eng[e].job = s.law.eng[e].job)) ∧
  (∀ e s j, s.runs .ctl = true → s.law.eng[e].job = some j →
    Completes (.lawOutputWrite e) s (fun t => t.law.eng[e].job = none ∧ t.law.eng[e].out = j.out ∧ t.law.eng[e].seen = true ∧
      t.law.eng[e].outStamp = j.stamp ∧
      (j.run = .run → j.dest = 1 → t.pwm.rail[rail8 j.destIdx].cmd = j.out))) ∧
  (∀ e s, s.runs .ctl = true → s.sys.step ≠ 15 → Completes (.lawSnapRequest e) s (fun t => t.law.eng[e].snapReq = true))

/-- A coefficient write, a commit request, the bank swap and the copy after it complete. An unlocked write to an engine's
window stores the word in its shadow bank; locked or not, it sets wdrop while that engine's commit is pending; a
commit request sets pend, and one while it stands is remembered for a clear at that instant; at a tick boundary after
the request outside a crossfade the swap makes a shadow bank with its reserved bits 0 the active one and else refuses
it with err; the copy brings the shadow bank to the active one and clears pend. (R62, R63, R64, R408) The event data
of a failed commit are the model's reading (log 28). -/
def Obligations.LawBanksComplete : Prop :=
  (∀ (off : BitVec 20) val s, s.StoresWf → s.runs .ctl = true → 0x40000 ≤ off.toNat → off.toNat < 0x45000 → off.toNat % 4 = 0 → s.sys.step ≠ 15 → s.sys.lock = false →
    (∀ e : Fin 20, e.val = (off.toNat - 0x40000) / 0x400 → s.law.eng[e].commit = 0) →
    Completes (.coeffShadowWrite off val) s (fun t => cellGet 0 t.law.shadow (off.toNat - 0x40000) = val ∧ t.law.active = s.law.active)) ∧
  (∀ (off : BitVec 20) val s (e : Fin 20), s.runs .ctl = true → 0x40000 ≤ off.toNat → off.toNat % 4 = 0 → s.sys.step ≠ 15 →
    e.val = (off.toNat - 0x40000) / 0x400 → s.law.eng[e].commit ≠ 0 →
    Completes (.coeffShadowWrite off val) s (fun t => t = s.stick F.LAW_COMMIT.wdrop)) ∧
  (∀ e s, s.runs .ctl = true → s.sys.step ≠ 15 → s.sys.lock = false → s.law.eng[e].commit = 0 →
    Completes (.lawCommitRequest e) s (fun t => t.law.eng[e].commit = 1 ∧ t.law.eng[e].commitAt = s.time)) ∧
  (∀ e s, s.runs .ctl = true → s.sys.step ≠ 15 → s.sys.lock = false → s.law.eng[e].commit ≠ 0 →
    Completes (.lawCommitRequest e) s (fun t => t.law.eng[e].commit = s.law.eng[e].commit ∧ t.law.eng[e].recommit = some s.time)) ∧
  (∀ e s, s.StoresWf → s.runs .ctl = true → s.atTick = true → s.law.eng[e].commit = 1 → s.law.eng[e].commitAt < s.time → s.law.eng[e].xf = none →
    s.law.eng[e].job.any (fun j => j.xf.isSome) = false → s.shadowClean e = true →
    Completes (.lawBankSwap e) s (fun t => t.law.eng[e].commit = 2 ∧
      ∀ k, cellGet 0 t.law.active k = (if 0x400 * e.val ≤ k ∧ k < 0x400 * e.val + 0x400 then cellGet 0 s.law.shadow k else cellGet 0 s.law.active k))) ∧
  (∀ e s, s.runs .ctl = true → s.atTick = true → s.law.eng[e].commit = 1 → s.law.eng[e].commitAt < s.time → s.law.eng[e].xf = none →
    s.law.eng[e].job.any (fun j => j.xf.isSome) = false → s.shadowClean e = false →
    Completes (.lawBankSwap e) s (fun t => t.law.eng[e].commit = (if s.law.eng[e].recommit = some s.time then 1 else 0) ∧ t.law.active = s.law.active ∧ t.law.shadow = s.law.shadow)) ∧
  (∀ e s, s.StoresWf → s.runs .ctl = true → s.law.eng[e].commit = 2 →
    Completes (.lawShadowCopyDone e) s (fun t => t.law.eng[e].commit = (if s.law.eng[e].recommit = some s.time then 1 else 0) ∧ t.law.active = s.law.active ∧
      ∀ k, cellGet 0 t.law.shadow k = (if 0x400 * e.val ≤ k ∧ k < 0x400 * e.val + 0x400 then cellGet 0 s.law.active k else cellGet 0 s.law.shadow k)))

/-- PWM periods, edges, the comparator, shedding, phase faults and assignments complete. A due period start begins a
period of the phase; its edges come where its intervals say; a crossing outside the blanking ends the high interval
and is counted; the shed takes the highest matched or active phase out and the add brings the lowest shed one back; an
open, stuck or disagreeing phase takes its fault state with its event; a held assignment applies at a tick boundary
with both rails OFF. (R83, R84, R85, R86, R87, R88, R93, R95, R103, R104, R105, R79) The schedule's base and the phase
that is shed are the model's reading (log 29). -/
def Obligations.PwmComplete : Prop :=
  (∀ j s t0, s.ctlWorks = true → (s.driven s.pwm.ph[j].rail).contains j = true → s.periodDue s.pwm.ph[j].rail j = some t0 → t0 ≤ s.time →
    (((s.edgesTo j t0).railAdopt s.pwm.ph[j].rail).driven s.pwm.ph[j].rail).contains j = true →
    Completes (.pwmPeriodStart j) s (fun t => t.pwm.ph[j].t0 = some t0 ∧ t.pwm.ph[j].cbcNow = false)) ∧
  (∀ j s i rest, s.ctlWorks = true → s.pwm.ph[j].asg = true → s.pwm.ph[j].endOff = false → s.pwm.ph[j].h = false →
    s.pwm.ph[j].hIv = i :: rest → i.a ≤ s.time → s.time < i.b → i.a + s.fld (F.RAIL_CFG.min_pulse s.pwm.ph[j].rail) * 64 ≤ i.b →
    Completes (.pwmEdge j) s (fun t => t.pwm.ph[j].h = true ∧ t.pwm.ph[j].hEdge = i.a)) ∧
  (∀ j s i, s.ctlWorks = true → s.pwm.ph[j].asg = true → s.pwm.ph[j].endOff = false → s.pwm.ph[j].h = true →
    s.pwm.ph[j].hIv = [i] → i.b ≤ s.time →
    Completes (.pwmEdge j) s (fun t => t.pwm.ph[j].h = false ∧ t.pwm.ph[j].hEdge = i.b)) ∧
  (∀ j s, s.ctlWorks = true → s.pwm.ph[j].asg = true → (s.edgesTo j s.time).pwm.ph[j].h = true →
    (s.edgesTo j s.time).pwm.ph[j].hEdge + s.fld (F.SNS_PH_CMP.cblank j) * 256 ≤ s.time →
    Completes (.cbcCrossing j false) s (fun t => t.pwm.ph[j].h = false ∧ t.pwm.ph[j].hEdge = s.time ∧
      t.pwm.ph[j].cbc = s.pwm.ph[j].cbc.inc)) ∧
  (∀ n s j, s.ctlWorks = true → s.shedCond n = true → s.pwm.rail[n].evalAt = some s.time →
    s.ranOut s.pwm.rail[n].shedSince (s.fld (F.RAIL_DWELL.shed_dwell n) * us1) = true →
    s.pwm.rail[n].lastShed = none ∨ s.ranOut s.pwm.rail[n].lastShed (s.fld (F.RAIL_DWELL.shed_dwell n) * us1) = true →
    ((s.driven n).filter (fun j => s.pwm.ph[j].pstate = 5)).getLast? = some j →
    Completes (.phaseShed n) s (fun t => t.pwm.ph[j].pstate = 4 ∧ t.pwm.rail[n].lastShed = some s.time)) ∧
  (∀ n s j, s.ctlWorks = true → s.shedCond n = true → s.pwm.rail[n].evalAt = some s.time →
    s.ranOut s.pwm.rail[n].shedSince (s.fld (F.RAIL_DWELL.shed_dwell n) * us1) = true →
    s.pwm.rail[n].lastShed = none ∨ s.ranOut s.pwm.rail[n].lastShed (s.fld (F.RAIL_DWELL.shed_dwell n) * us1) = true →
    (s.driven n).filter (fun j => s.pwm.ph[j].pstate = 5) = [] →
    ((s.driven n).filter (fun j => s.pwm.ph[j].pstate = 1)).getLast? = some j →
    Completes (.phaseShed n) s (fun t => t.pwm.ph[j].pstate = 2 ∧ t.pwm.rail[n].lastShed = some s.time)) ∧
  (∀ n s j l, s.ctlWorks = true → s.addCond n = true → s.pwm.rail[n].evalAt = some s.time →
    s.ranOut s.pwm.rail[n].addSince (s.fld (F.RAIL_DWELL.add_dwell n) * us1) = true →
    (s.railPhases n).filter (fun j => s.pwm.ph[j].pstate = 2) = j :: l →
    Completes (.phaseAdd n) s (fun t => t.pwm.ph[j].pstate = 1 ∧ t.pwm.rail[n].lastShed = some s.time)) ∧
  (∀ j s a t0, s.ctlWorks = true → s.pwm.ph[j].asg = true → s.pwm.ph[j].pstate = 1 → s.pwm.ph[j].openSince = some a →
    s.pwm.ph[j].t0 = some t0 → a + s.fld (F.RAIL_PHF.ph_time s.pwm.ph[j].rail) * us1 ≤ t0 → s.pwm.rail[s.pwm.ph[j].rail].sumBad = false →
    Completes (.phaseOpenDetect j) s (fun t => t.pwm.ph[j].pstate = 3 ∧ t.pwm.ph[j].h = false ∧ t.pwm.ph[j].l = false)) ∧
  (∀ j s, s.ctlWorks = true → s.pwm.ph[j].asg = true → s.pwm.ph[j].pstate = 1 → s.fld (F.RAIL_SNSF.stuck_cnt s.pwm.ph[j].rail) ≠ 0 →
    s.fld (F.RAIL_SNSF.stuck_cnt s.pwm.ph[j].rail) ≤ s.pwm.ph[j].sameRun ∨ s.fld (F.RAIL_SNSF.stuck_cnt s.pwm.ph[j].rail) ≤ s.pwm.ph[j].ovrRun →
    Completes (.phaseSenseStuck j) s (fun t => t.pwm.ph[j].pstate = s.sensePstate j)) ∧
  (∀ n s j, s.ctlWorks = true → s.fld (F.RAIL_SNSF.sum_n n) ≤ s.pwm.rail[n].sumRun → s.pwm.rail[n].sumRun ≠ 0 → s.farthest n = some j →
    Completes (.sumCheckFail n) s (fun t => t.pwm.ph[j].pstate = s.sensePstate j ∧ t.pwm.rail[n].sumRun = 0)) ∧
  (∀ j s a, s.runs .ctl = true → s.atTick = true → s.pwm.ph[j].heldAsg = some a → s.asgOff a = true →
    s.asgOff (s.pwm.ph[j].asg, s.pwm.ph[j].rail) = true →
    Completes (.phaseAssignmentApply j) s (fun t => t.pwm.ph[j].asg = a.1 ∧ t.pwm.ph[j].rail = a.2 ∧ t.pwm.ph[j].heldAsg = none))

/-- Rail starts, stops, ramps, short starts, synchronisation and tracking complete. A rail's enable and pause take it
through the states of Table RAIL.6; a ramp update moves a starting rail's reference by R98; a start short counts, and
hiccups with its off time while retries are left, else latches; the hiccup's end restarts the rail; sync edges and
their loss set the sync state with their events; a tracking edge or a static level sets the tracking value. (R92, R94,
R95, R98, R99, R100, R101, R102) What resumes, holds and restarts a rail's timers is the model's reading (log 30). -/
def Obligations.RailsComplete : Prop :=
  (∀ n s, s.ctlWorks = true → s.railOn n = true → s.pwm.rail[n].state = 0 →
    Completes (.railEnableChange n) s (fun t => t.pwm.rail[n].state = 1 ∧ t.pwm.rail[n].r = max 0 (s.eng (railCh n)) ∧
      t.pwm.rail[n].rampUs = 0)) ∧
  (∀ n s, s.ctlWorks = true → s.railOn n = false → s.pwm.rail[n].state = 1 ∨ s.pwm.rail[n].state = 2 ∨ s.pwm.rail[n].state = 3 →
    Completes (.railEnableChange n) s (fun t => t.pwm.rail[n].state = if s.bit (F.RAIL_CFG.soft_stop n) then 4 else 0)) ∧
  (∀ n s, s.ctlWorks = true → s.railOn n = false → s.pwm.rail[n].state = 5 ∨ s.pwm.rail[n].state = 6 →
    Completes (.railEnableChange n) s (fun t => t.pwm.rail[n].state = 0 ∧ t.pwm.rail[n].h = 0 ∧ t.pwm.rail[n].derated = false)) ∧
  (∀ n s, s.ctlWorks = true → s.railOn n = true → s.bit (F.RAIL_CTL.pause n) = true → s.pwm.rail[n].state = 1 ∨ s.pwm.rail[n].state = 2 →
    Completes (.railPauseChange n) s (fun t => t.pwm.rail[n].state = 3 ∧ t.pwm.rail[n].pausedFrom = s.pwm.rail[n].state)) ∧
  (∀ n s, s.ctlWorks = true → s.railOn n = true → s.bit (F.RAIL_CTL.pause n) = false → s.pwm.rail[n].state = 3 →
    Completes (.railPauseChange n) s (fun t => t.pwm.rail[n].state = s.pwm.rail[n].pausedFrom)) ∧
  (∀ s (n : Fin 8), s.ctlWorks = true → s.pwm.rail[n].state = 1 → s.fld (F.RAIL_TRK.mode n) = 0 →
    s.pwm.rail[n].p + rdiv ((s.sfld (F.RAIL_VREF.target n) - s.pwm.rail[n].p) *
      (min (s.pwm.rail[n].rampUs + 1) (s.fld (F.RAIL_SS.ss_us n)) : Nat)) (s.fld (F.RAIL_SS.ss_us n)) ≠ s.sfld (F.RAIL_VREF.target n) →
    Completes .rampUpdate s (fun t => t.pwm.rail[n].rampUs = s.pwm.rail[n].rampUs + 1 ∧
      t.pwm.rail[n].r = s.pwm.rail[n].p + rdiv ((s.sfld (F.RAIL_VREF.target n) - s.pwm.rail[n].p) *
        (min (s.pwm.rail[n].rampUs + 1) (s.fld (F.RAIL_SS.ss_us n)) : Nat)) (s.fld (F.RAIL_SS.ss_us n)))) ∧
  (∀ n s, s.ctlWorks = true → s.pwm.rail[n].state = 1 → s.fld (F.RAIL_SSFE.fe_time n) ≠ 0 →
    s.fld (F.RAIL_SSFE.fe_time n) ≤ s.pwm.rail[n].feRun → s.pwm.rail[n].h < s.fld (F.RAIL_SS.retries n) →
    Completes (.startShort n) s (fun t => t.pwm.rail[n].state = 5 ∧ t.pwm.rail[n].h = s.pwm.rail[n].h + 1 ∧
      t.pwm.rail[n].hicEnd = s.time + 50 * ms1 * 2 ^ s.pwm.rail[n].h ∧ t.pwm.rail[n].shorts = s.pwm.rail[n].shorts.inc ∧
      Raises s t (0x34 + n.val) 0x01 0 0)) ∧
  (∀ n s, s.ctlWorks = true → s.pwm.rail[n].state = 1 → s.fld (F.RAIL_SSFE.fe_time n) ≠ 0 →
    s.fld (F.RAIL_SSFE.fe_time n) ≤ s.pwm.rail[n].feRun → s.fld (F.RAIL_SS.retries n) ≤ s.pwm.rail[n].h →
    Completes (.startShort n) s (fun t => t.pwm.rail[n].state = 6 ∧ t.pwm.rail[n].shorts = s.pwm.rail[n].shorts.inc)) ∧
  (∀ n s, s.ctlWorks = true → s.pwm.rail[n].state = 5 → s.pwm.rail[n].hicEnd ≤ s.time → s.railOn n = true →
    Completes (.hiccupEnd n) s (fun t => t.pwm.rail[n].state = 1 ∧ t.pwm.rail[n].r = max 0 (s.eng (railCh n)))) ∧
  (∀ s, s.ctlWorks = true → s.bit F.PWM_SYNC_CFG.in_en = true →
    Completes .syncInEdge s (fun t => t.pwm.g.syncEdge = some s.time)) ∧
  (∀ s a, s.ctlWorks = true → s.bit F.PWM_SYNC_CFG.in_en = true → s.pwm.g.syncEdge = some a → s.pwm.g.syncValid = false → s.pwm.g.syncRun = 15 →
    ((s.time - a : Nat) - (s.fld F.PWM_SYNC_NOM.nom : Int)).natAbs * 100 ≤ s.fld F.PWM_SYNC_CFG.win * s.fld F.PWM_SYNC_NOM.nom →
    Completes .syncInEdge s (fun t => t.pwm.g.syncValid = true ∧ t.pwm.g.syncPer = min 0x1FFFFF (s.time - a) ∧
      Raises s t 0x3D 0x01 0 (min 0x1FFFFF ((s.time - a : Nat) : Int)))) ∧
  (∀ s, s.ctlWorks = true → s.pwm.g.syncValid = true → s.ranOut s.pwm.g.syncEdge (3 * s.pwm.g.syncPer / 2) = true →
    Completes .syncLost s (fun t => t.pwm.g.syncValid = false ∧ t.pwm.g.syncRun = 0 ∧ Raises s t 0x3C 0x01 0 s.pwm.g.syncPer)) ∧
  (∀ high period s, s.runs .ctl = true → period ≠ 0 →
    Completes (.trackEdge high period) s (fun t => t.pwm.g.trackStatic = false ∧
      t.pwm.g.trackL = (clampI 0 32767 (rdiv (high * 32768) period)).toNat)) ∧
  (∀ level s, s.runs .ctl = true → s.elapsed s.pwm.g.trackAt (100 * us1) = true →
    Completes (.trackStatic level) s (fun t => t.pwm.g.trackStatic = true ∧ t.pwm.g.trackLevel = level ∧
      t.pwm.g.trackL = if level then 32767 else 0))

/-- The headbox's commit, its curve writes and the clears of derate and shed complete. A commit request sets pend, and one
while it stands is remembered for a clear at that instant; the swap after it makes the staged curves the active ones
if R113 accepts them and else refuses with err; the copy ends the commit; a curve word lands in the staged bank;
DERATE_CLEAR and SHED_CLEAR end every derate and shed. (R111, R113, R114, R125, R144, R408) The exponent that fails
and the signs of the fields are the model's reading (log 28). -/
def Obligations.HeadboxWritesComplete : Prop :=
  (∀ s, s.runs .dsp = true → s.sys.lock = false → s.hbx.commit = 0 →
    exec .hbxCommitRequest s = .next { s with hbx := { s.hbx with commit := 1, commitAt := s.time } }) ∧
  (∀ s, s.runs .dsp = true → s.sys.lock = false → s.hbx.commit ≠ 0 →
    exec .hbxCommitRequest s = .next { s with hbx := { s.hbx with recommit := some s.time } }) ∧
  (∀ s, s.runs .dsp = true → s.atTick = true → s.hbx.commit = 1 → s.hbx.commitAt < s.time →
    curveFail s.stagedFld s.hbx.shadow = none →
    Completes .hbxCommitSwap s (fun t => t.hbx.commit = 2 ∧ t.hbx.active = s.hbx.shadow ∧ t.hbx.shadow = s.hbx.active)) ∧
  (∀ s i, s.runs .dsp = true → s.atTick = true → s.hbx.commit = 1 → s.hbx.commitAt < s.time →
    curveFail s.stagedFld s.hbx.shadow = some i →
    Completes .hbxCommitSwap s (fun t => t.hbx = s.hbx.commitEnd s.time ∧ Raises s t 0x59 0x01 i 0)) ∧
  (∀ s, s.runs .dsp = true → s.hbx.commit = 2 →
    Completes .hbxStagedCopyDone s (fun t => t.hbx.commit = (if s.hbx.recommit = some s.time then 1 else 0) ∧ t.hbx.shadow = s.hbx.active ∧ t.hbx.active = s.hbx.active)) ∧
  (∀ (off : BitVec 20) val s, s.StoresWf → s.runs .dsp = true → s.sys.lock = false → off.toNat % 4 = 0 → 0x50000 ≤ off.toNat →
    off.toNat < 0x50A00 → s.bit F.HBX_CTL.view = false → s.hbx.commit = 0 →
    Completes (.costCurveWrite off val) s (fun t => cellGet 0 t.hbx.shadow (off.toNat - 0x50000) = val ∧ t.hbx.active = s.hbx.active)) ∧
  (∀ s, s.runs .dsp = true → exec .derateClear s = .next { s with hbx := { s.hbx with drt16 := false, drt17 := false } }) ∧
  (∀ s, s.runs .dsp = true → Completes .shedClear s (fun t => t.dkl.shed0 = false ∧ (∀ n : Fin 8, t.dkl.shedr[n] = false) ∧
    ∀ k : Fin 32, t.dkl.ld[k].held = false ∧ t.dkl.ld[k].c = s.dkl.ld[k].c))

/-- Strobes, blocks, seconds, declarations and presence changes of the strings complete. A string strobe counts itself and
ends a reading of every string; a dynamic measurement, a presence change, a block, a second, an hour, an age tick, an
end-of-discharge or end-of-charge declaration, an enable with or without sound tables, a disable and a forget each
have their effect on the string and its record, with the event R176 gives it. (R150, R152, R154, R155, R156, R157,
R161, R164, R165, R167, R168, R170) Where the rules leave the estimates' corners open the model's reading is taken
(log 35, 36). -/
def Obligations.BatteryComplete : Prop :=
  (∀ v i s, s.batWorks = true → s.sns.running = true → s.atTick = true → s.tick % 50 = 0 → s.bat.strobeTick ≠ some s.tick →
    Completes (.stringStrobe v i) s (fun t => t.bat.strobes = s.bat.strobes + 1 ∧ t.bat.strobeTick = some s.tick ∧
      ∀ ch : Fin 130, 98 ≤ ch.val → ch.val < 114 → t.sns.ch[ch].stamp = some (s.sns64 - 375000))) ∧
  (∀ i s z, s.batWorks = true → s.bat.str[i].zd = some z → z.vs.length = 8 →
    ¬s.zRejects i true z.tAt z.sAt (rdiv (-(rdiv (sumI z.vs) 8 - z.vPost) * 10000) z.dI) →
    Completes (.zdMeasurement i) s (fun t => t.bat.str[i].zd = none ∧ t.bat.str[i].lrn = s.bat.str[i].lrn.inc)) ∧
  (∀ i s z, s.batWorks = true → s.bat.str[i].zd = some z → z.vs.length = 8 →
    s.zRejects i true z.tAt z.sAt (rdiv (-(rdiv (sumI z.vs) 8 - z.vPost) * 10000) z.dI) →
    Completes (.zdMeasurement i) s (fun t => t.bat.str[i].zd = none ∧ t.bat.str[i].rej = s.bat.str[i].rej.inc)) ∧
  (∀ i s c, s.batWorks = true → s.bat.enSeen[i] = true → s.bat.str[i].changeDue = true → s.bat.str[i].present = false →
    s.bat.str[i].newKey = some c →
    anyFin 8 (fun k => decide (k < i) && s.bat.str[k].changeDue && s.bat.str[k].newKey.isSome && s.bat.str[k].newKey == s.bat.str[i].newKey) = false →
    Completes (.presenceChange i) s (fun t => t.bat.str[i].present = true ∧ t.bat.str[i].code = c)) ∧
  (∀ i s, s.batWorks = true → s.bat.enSeen[i] = true → s.bat.str[i].changeDue = true → s.bat.str[i].present = true →
    s.bat.str[i].newKey = none →
    Completes (.presenceChange i) s (fun t => t.bat.str[i].present = false ∧ t.bat.str[i].limDis = 0 ∧ t.bat.str[i].limChg = 0)) ∧
  (∀ s, s.batWorks = true → s.bat.blockDue = true →
    Completes .batBlock s (fun t => t.bat.blockDue = false ∧ t.bat.blocks = (s.bat.blocks + 1) % 50 ∧ ∀ i : Fin 8, t.bat.str[i].nS = 0 ∧
      (s.bat.enSeen[i] = true → s.bat.str[i].present = true → s.bat.str[i].nS = 80 →
        t.bat.str[i].vb = rdiv s.bat.str[i].sV 80 ∧ t.bat.str[i].valid = true))) ∧
  (∀ i s, s.batWorks = true → s.bat.str[i].eodDue = true →
    Completes (.eodDeclare i) s (fun t => t.bat.str[i].eodDue = false ∧ t.bat.str[i].declared = true)) ∧
  (∀ i s, s.batWorks = true → s.bat.str[i].eocDue = true →
    Completes (.eocDeclare i) s (fun t => t.bat.str[i].eocDue = false ∧ t.bat.str[i].declared = true)) ∧
  (∀ s, s.batWorks = true → s.bat.secDue = true →
    Completes .batSecond s (fun t => t.bat.secDue = false ∧ ∀ i : Fin 8, t.bat.str[i].n2 = 0 ∧ t.bat.str[i].s2V = 0 ∧ t.bat.str[i].s2I = 0)) ∧
  (∀ s, s.batWorks = true → nextMul s.bat.hourAt opHour ≤ s.opTime →
    Completes .batHour s (fun t => t.bat.hourAt = nextMul s.bat.hourAt opHour)) ∧
  (∀ s, s.batWorks = true → nextMul s.bat.ageAt (4 * opHour) ≤ s.opTime →
    Completes .batAgeTick s (fun t => t.bat.ageAt = nextMul s.bat.ageAt (4 * opHour) ∧ t.bat.ageTicks = s.bat.ageTicks + 1)) ∧
  (∀ i s, s.runs .bat = true → s.bit (F.BAT_CTL.en i) = true → s.bat.enSeen[i] = false → s.tableBad = none →
    Completes (.batEnable i) s (fun t => t.bat.enSeen[i] = true ∧ t.bat.str[i].present = false)) ∧
  (∀ i s k, s.runs .bat = true → s.bit (F.BAT_CTL.en i) = true → s.bat.enSeen[i] = false → s.tableBad = some k →
    Completes (.batEnable i) s (fun t => t.bat = s.bat ∧ Raises s t (0x81 + 2 * i.val) 0x07 0 k)) ∧
  (∀ i s, s.runs .bat = true → s.bit (F.BAT_CTL.en i) = false → s.bat.enSeen[i] = true →
    Completes (.batDisable i) s (fun t => t.bat.enSeen[i] = false ∧ t.bat.str[i].present = false ∧ t.vat.strLim[i] = (0, 0))) ∧
  (∀ i s, s.batWorks = true → s.bat.enSeen[i] = true → s.bat.str[i].present = true →
    Completes (.batForget i) s (fun t => t.bat.str[i].valid = false ∧ t.bat.str[i].limDis = 0 ∧ t.bat.str[i].limChg = 0 ∧
      t.bat.str[i].unanch = true))

/-- Slot frames, the link state, the mailbox, the slot module, the claim line and the power stages complete. A valid
uplink leaves its measurements and its time and an invalid one a broken run; a lost or retrained link goes to TRAIN; a
stalled mailbox sends its chunks again and a request that ran out leaves; a valid downlink gives the port its claim, a
waiting command is applied, an expired claim is 0x00, hold and the local default begin; a claim word starts with its
CRC, and a stage takes the claim of a valid word and drops an expired one. (R179, R180, R187, R189, R190, R191, R194,
R195, R196, R205, R208, R209) The one unit of the clock by which the hold begins and ends after its time, and the
counting of frames with code violations, are the model's reading (log 37, 38). -/
def Obligations.SlotLinksComplete : Prop :=
  (∀ k f s, s.works = true → s.runs .lnk = true → s.bit (F.SLT_CFG.en k) = true → frameValid (s.uplinkSeen k f) = true →
    Completes (.uplinkFrameReceived k f) s (fun t => t.slt[k].last = some s.time ∧
      t.slt[k].status = BitVec.ofNat 16 (leAt f.payload.toList 0 2) ∧ t.slt[k].i = BitVec.ofNat 32 (leAt f.payload.toList 4 4) ∧
      t.slt[k].v = BitVec.ofNat 32 (leAt f.payload.toList 8 4) ∧ t.slt[k].t = BitVec.ofNat 16 (leAt f.payload.toList 12 2) ∧
      t.slt[k].fcnt = some f.payload[2] ∧ t.slt[k].rxts = BitVec.ofNat 32 s.sns64)) ∧
  (∀ k f s, s.works = true → s.runs .lnk = true → s.bit (F.SLT_CFG.en k) = true → frameValid (s.uplinkSeen k f) = false →
    Completes (.uplinkFrameReceived k f) s (fun t => t.slt[k].run = 0 ∧ t.slt[k].crcArm = false ∧
      t.slt[k].status = s.slt[k].status ∧ t.slt[k].last = s.slt[k].last)) ∧
  (∀ k s, s.works = true → s.runs .lnk = true → s.slt[k].lstate = 2 ∨ s.slt[k].lstate = 3 → s.ranOut s.slt[k].last (15500 * ns1) = true →
    Completes (.linkLost k) s (fun t => t.slt[k].lstate = 1 ∧ t.slt[k].lossCnt = s.slt[k].lossCnt.inc ∧
      Raises s t (0x60 + k.val) 0x02 s.slt[k].lstate s.slt[k].lossCnt.inc.word.toNat)) ∧
  (∀ k s, s.runs .lnk = true → s.slt[k].lstate = 2 ∨ s.slt[k].lstate = 3 →
    Completes (.linkRetrain k) s (fun t => t.slt[k].lstate = 1 ∧ t.slt[k].lossCnt = s.slt[k].lossCnt.inc)) ∧
  (∀ k s, s.runs .lnk = true → s.slt[k].lstate = 2 → s.slt[k].mbx.stalled = true →
    Completes (.mbResend k) s (fun t => t.slt[k].mbx = s.slt[k].mbx.resend ∧ t.slt[k].mbrtx = s.slt[k].mbrtx.inc)) ∧
  (∀ k tag s q, s.runs .lnk = true → s.slt[k].fw = none → q ∈ s.slt[k].req → q.tag = tag →
    q.at_ + s.fld (F.SLT_CFG.mb_to k) * ms1 ≤ s.time →
    Completes (.mbRequestTimeout k tag) s (fun t => q ∉ t.slt[k].req ∧ ∀ r ∈ t.slt[k].req, r ∈ s.slt[k].req)) ∧
  (∀ k p f s, frameValid f = true →
    Completes (.slotDownlinkReceived k p f) s (fun t => t.slot[k].port[p].claim = claimTaken f.payload[0] ∧
      t.slot[k].port[p].last = some s.time ∧ t.slot[k].port[p].echo = f.payload[1])) ∧
  (∀ k s c, s.slot[k].pend = some c →
    Completes (.slotFrameApply k) s (fun t => t.slot[k].sp = c.sp ∧ t.slot[k].cap = c.cap ∧ t.slot[k].ctl = c.ctl ∧
      t.slot[k].run = .normal ∧ t.slot[k].pend = none)) ∧
  (∀ k p s, s.ranOut s.slot[k].port[p].last (15500 * ns1) = true →
    Completes (.slotClaimExpiry k p) s (fun t => t.slot[k].port[p].claim = 0 ∧ t.slot[k].port[p].last = none ∧ t.slot[k].port[p].mbx = .zero)) ∧
  (∀ k s a, s.slot[k].run = .normal → s.slot[k].last = some a → a + 15500 * ns1 < s.time →
    Completes (.slotHoldBegin k) s (fun t => t.slot[k] = { s.slot[k] with run := .hold })) ∧
  (∀ k s a, s.slot[k].run = .hold → s.slot[k].last = some a → a + (15500 + 5000 * s.slot[k].hold) * ns1 < s.time →
    Completes (.slotHoldExpiry k) s (fun t => t.slot[k] = { s.slot[k] with run := .local_ })) ∧
  (∀ s, s.runs .ctl = true → s.tickAt.isSome = true → gridDue s.red.wordNext (800 * ns1) s.time = s.time →
    Completes .clmWordStart s (fun t => t.red.word = some (s.red.claim, BitVec.ofNat 4 (crc4 s.red.claim), s.time) ∧
      t.red.chips = clmChips s.red.claim (BitVec.ofNat 4 (crc4 s.red.claim)) ∧ t.red.wordNext = s.time + 800 * ns1)) ∧
  (∀ j p w s, w.syncOk = true → w.cellsOk = true → crc4 w.claim = w.crc.toNat →
    Completes (.stageClmWordReceived j p w) s (fun t => t.stage[j].claim[p] = claimTaken w.claim ∧ t.stage[j].last[p] = some s.time)) ∧
  (∀ j p s, s.ranOut s.stage[j].last[p] (3200 * ns1) = true →
    Completes (.stageClaimExpiry j p) s (fun t => t.stage[j].claim[p] = 0 ∧ t.stage[j].last[p] = none))

/-- The verdict port, the heartbeat and the firmware's liveness complete. DEMOTE_N accepted low counts a demotion and
makes an active unit a standby that is not ready; its release clears the level; TAKE_N makes a ready standby active
with its epoch advanced; the heartbeat takes the form its conditions ask for; a silent island's strobe is lost; the
liveness deadline and the firmware's write mark and clear a dead firmware. (R202, R206, R207, R213, R214, R215, R216,
R230, R390) When CONFLICT, IGNORED and PEER_HIGHER carry what is the model's reading (log 44); pads and claim words
stand by log 39. -/
def Obligations.RolesComplete : Prop :=
  (∀ s, s.aon.vaon = true → s.ballArbiter = false → s.aon.pinLow = false → s.aon.demoted = false → s.sys.role ≠ .undecided →
    Completes .demoteNAccept s (fun t => t.sys.role = .standby ∧ t.aon.demoted = true ∧ t.aon.pinLow = true ∧
      t.aon.demCnt = s.aon.demCnt.inc ∧ t.aon.epoch = s.aon.epoch)) ∧
  (∀ s, s.aon.vaon = true → s.ballArbiter = false → s.aon.pinLow = true → s.aon.bcnLow = false →
    Completes .demoteNRelease s (fun t => t.aon = { s.aon with pinLow := false, demoted := false })) ∧
  (∀ s, s.aon.vaon = true → s.ballArbiter = false → s.sys.role = .standby → s.strap = .pair → s.aon.demoted = false → s.red.ready = true →
    s.otp.live.denyActive = false → s.otp.live.unitFix ≠ 3 →
    Completes .takeNAccept s (fun t => t.sys.role = .active ∧ t.aon.takeCnt = s.aon.takeCnt.inc ∧
      t.aon.epoch = (match s.aon.peerEpoch with | some p => laterEpoch s.unitBit s.aon.epoch p | none => s.aon.epoch) + 1)) ∧
  (∀ s, s.aon.vaon = true → s.ballArbiter = false → s.hbWanted ≠ s.aon.hb →
    (s.hbWanted ≠ 0 → s.hbEdgeFrom (if s.aon.hb = 2 ∧ s.hbWanted = 1 then max s.time (s.aon.hbAt + 16 * us1) else s.time) ≤ s.time) →
    Completes .heartbeatFormChange s (fun t => t.aon = { s.aon with hb := s.hbWanted, hbAt := s.time, hbLvl := (if s.hbWanted = 0 then false else if s.aon.hb = 0 then true else s.vhbOut) })) ∧
  (∀ i s, s.aon.vaon = true → s.works = true → s.elapsed s.aon.strobe[strobeIdx i] (12 * us1) = true →
    Completes (.tickStrobeTimeout i) s (fun t => t.aon.strobeLost[strobeIdx i] = true)) ∧
  (∀ s, s.aon.vaon = true → s.sys.mgmtRestart = false → s.elapsed s.aon.liveAt (s.fld F.RED_HB.fw_ms * ms1) = true →
    Completes .fwLivenessTimeout s (fun t => t = { s with aon := { s.aon with fwDead := true } })) ∧
  (∀ s, s.aon.vaon = true → s.sys.step ≠ 15 →
    Completes .fwLivenessWrite s (fun t => t = { s with aon := { s.aon with liveAt := s.time, fwDead := false } }))

/-- The arbiter's classes, verdicts and pulses complete. The first edge of a heartbeat is the one its intervals count
from, the eighth interval near 1 µs makes the unit HEALTHY; 4.25 µs of silence make it DEAD; a deferred TAKE pulses if
it is still called for; a pulse of 2 µs ends; a demotion ends once it has stood 100 µs and the unit has been HEALTHY
for the hold time. (R217, R218, R219) The classes at the role decision and the instant of the deferred TAKE are the
model's reading (log 45). -/
def Obligations.ArbiterComplete : Prop :=
  (∀ x s, s.arbitrates = true → s.arb.u[x].seen = false →
    Completes (.vhbEdge x) s (fun t => t.arb.u[x].edge = s.time ∧ t.arb.u[x].seen = true)) ∧
  (∀ x s, s.arbitrates = true → s.arb.u[x].seen = true → 16 ≤ (s.time - s.arb.u[x].edge + 1600) / 3200 →
    (s.time - s.arb.u[x].edge + 1600) / 3200 ≤ 24 → 7 ≤ s.arb.u[x].nH →
    Completes (.vhbEdge x) s (fun t => t.arb.u[x].cls = .healthy ∧ t.arb.u[x].edge = s.time)) ∧
  (∀ x s, s.arbitrates = true → s.elapsed s.arb.u[x].edge (4250 * ns1) = true →
    Completes (.hbDeadTimeout x) s (fun t => t.arb.u[x].cls = .dead)) ∧
  (∀ s y a, s.arbitrates = true → s.arb.deferred = some (y, a) → a ≤ s.time → s.callTake (otherUnit y) = true →
    Completes .takeDeferredEval s (fun t => t.arb.deferred = none ∧ t.arb.u[y].take = true ∧ t.arb.u[y].takeAt = some s.time)) ∧
  (∀ s y a, s.arbitrates = true → s.arb.deferred = some (y, a) → a ≤ s.time → s.callTake (otherUnit y) = false →
    Completes .takeDeferredEval s (fun t => t = { s with arb := { s.arb with deferred := none } })) ∧
  (∀ s (x : Fin 2), s.arbitrates = true → s.arb.u[x].take = true → s.ranOut s.arb.u[x].takeAt (2 * us1) = true →
    Completes .takePulseEnd s (fun t => t.arb.u[x] = { s.arb.u[x] with take := false })) ∧
  (∀ x s, s.arbitrates = true → s.ranOut s.arb.u[x].demote (100 * us1) = true →
    s.ranOut s.arb.u[x].healthySince (s.fld F.RED_ARB.hold_us * us1) = true →
    Completes (.demoteHoldEnd x) s (fun t => t.arb.u[x] = { s.arb.u[x] with demote := none }))

/-- Packets, training, time transfer, snapshots and the couch drill complete. A valid packet gives the peer's claim and
its time; training brings both lanes or one, a failed lane or 20 µs of silence lowers the link; a packet is sent with
the own claim; a standby takes the offset and the counter once; an active unit captures a snapshot and a standby
counts an accepted or a rejected one and adopts the accepted one's epoch; a link down for keep_ms ends the readiness;
a lone unit degrades; a drill starts, is refused with its reason, is scheduled and is completed. (R202, R222, R223,
R224, R225, R226, R227, R229, R230, R289) When a lost link begins to train, and what a drill's completion is known to,
are the model's reading (log 46). -/
def Obligations.ChezonComplete : Prop :=
  (∀ p s, s.runs .per = true → s.linkOn = true → p.crcOk = true →
    Completes (.chezonPacketReceived p) s (fun t => t.red.pktAt = s.time ∧ t.red.peer = claimTaken p.claim ∧ t.red.peerSeen = true ∧
      (claimTaken p.claim ≠ 0 → t.aon.peerEpoch = some (claimEpoch (claimTaken p.claim))))) ∧
  (∀ s, s.runs .per = true → s.red.link = .train →
    Completes (.chezonTrained true true) s (fun t => t.red = { s.red with link := .up, pktAt := s.time, downAt := none } ∧
      Raises s t 0xB2 0x01 0 0)) ∧
  (∀ s, s.runs .per = true → s.red.link = .train →
    Completes (.chezonTrained true false) s (fun t => t.red = { s.red with link := .oneLane, lane := 1, pktAt := s.time, downAt := none } ∧
      Raises s t 0xB2 0x03 0 1)) ∧
  (∀ s, s.runs .per = true → s.red.link = .train →
    Completes (.chezonTrained false true) s (fun t => t.red = { s.red with link := .oneLane, lane := 0, pktAt := s.time, downAt := none } ∧
      Raises s t 0xB2 0x03 0 0)) ∧
  (∀ s, s.runs .per = true → s.red.link = .train →
    Completes .chezonTrainingFailed s (fun t => t.red = { s.red with link := .down })) ∧
  (∀ l s, s.runs .per = true → s.red.link = .up →
    Completes (.chezonOneLane l) s (fun t => t.red = { s.red with link := .oneLane, lane := l } ∧ Raises s t 0xB2 0x03 0 l.val)) ∧
  (∀ s, s.runs .per = true → s.linkOn = true → s.elapsed s.red.pktAt (20 * us1) = true →
    Completes .chezonLinkDown s (fun t => t.red = { s.red with link := .down, downAt := some s.time, aligned := false } ∧
      t.sys.peerHiSince = none ∧ Raises s t 0xB2 0x02 0 0)) ∧
  (∀ s, s.runs .per = true → s.red.link = .down → s.strap = .pair → 7 ≤ s.sys.step → s.sys.step ≤ 10 →
    Completes .chezonPacketSend s (fun t => t.red = { s.red with link := .train })) ∧
  (∀ s, s.runs .per = true → s.linkOn = true →
    Completes .chezonPacketSend s (fun t => t.red = { s.red with sentAt := s.time, sent := some ⟨true, s.red.claim, some s.ownStatus,
      s.upd.carry.head?.map (fun p => (s.upd.carried + 1, p))⟩ })) ∧
  (∀ o k a s, s.runs .per = true → s.linkOn = true → s.sys.role = .standby →
    Completes (.timeTransfer o k a) s (fun t => t.red.tofs = satN 32 o ∧ t.red.aligned = a ∧
      t.red.tickTaken = (s.red.tickTaken || a) ∧ t.tick = if a = true ∧ s.red.tickTaken = false then k else s.tick)) ∧
  (∀ s, s.runs .per = true → s.sys.role = .active → s.atTick = true → s.tick % s.snapTicks = 0 →
      s.red.out.all (fun o => o.tick != s.tick % 2 ^ 32) = true →
    Completes .snapshotCapture s (fun t => t.red.out = some s.snapshot ∧ t.red.outSeq = s.red.outSeq + 1)) ∧
  (∀ b c s, s.runs .per = true → s.linkOn = true → s.sys.role = .standby → s.snapOk b c = false →
    Completes (.snapshotReceived b c) s (fun t => t.red.snapErr = s.red.snapErr.inc ∧ t.red.accRun = 0 ∧ t.red.disp = s.red.disp ∧
      t.aon.epoch = s.aon.epoch)) ∧
  (∀ b c s, s.runs .per = true → s.linkOn = true → s.sys.role = .standby → s.snapOk b c = true →
    Completes (.snapshotReceived b c) s (fun t => t.red.snapCnt = s.red.snapCnt.inc ∧ t.red.disp = some b ∧ t.aon.epoch = b.epoch)) ∧
  (∀ s, s.runs .per = true → s.sys.role = .standby → s.linkOn = false → s.ranOut s.red.downAt (s.fld F.RED_SBY.keep_ms * ms1 + 1) = true →
    Completes .standbyKeepExpiry s (fun t => t.red.ready = false ∧ t.red.accRun = 0)) ∧
  (∀ s, s.runs .mgt = true → s.sys.lone = true → s.sys.role = .active → s.ranOut s.sys.peerHiSince ms1 = true →
    Completes .lonePeerHigherTimeout s (fun t => t = s.hwFld F.RED_CTL.degrade 1)) ∧
  (∀ s, s.runs .hst = true → s.sys.step ≠ 15 → s.drillRefusal = 0 →
    Completes .drillNow s (fun t => t.red.drill = some ⟨1, s.time⟩ ∧ Raises s t 0xB5 0x01 0 0)) ∧
  (∀ s, s.runs .hst = true → s.sys.step ≠ 15 → s.drillRefusal ≠ 0 →
    Completes .drillNow s (fun t => t.red = s.red ∧ Raises s t 0xB5 0x03 0 s.drillRefusal)) ∧
  (∀ s, s.runs .per = true → s.decided = true → s.fld F.RED_DRILL.days ≠ 0 →
    s.red.drillOpt + s.fld F.RED_DRILL.days * 24 * opHour ≤ s.opTime → s.red.drillReq = none → s.drillRefusal = 0 →
    Completes .drillSchedule s (fun t => t.red.drill = some ⟨1, s.time⟩)) ∧
  (∀ s f, s.runs .per = true → s.red.drill = some ⟨2, f⟩ → f + s.fld F.RED_DRILL.fb_ms * ms1 ≤ s.time →
    Completes .drillComplete s (fun t => t.red.drill = none ∧ t.red.drillOpt = s.opTime ∧ Raises s t 0xB5 0x02 0 0))

/-- Every command of the sequencer completes. The 1 µs step moves a rising node whose power-good holds to SETTLE, and
outside ACTIVE and SOLO only evaluates the rails; the delays, timeouts and a changed power-good move their node; go,
stop, retry, trip, its clearing and the restart delay move the sequencer. (R234, R235, R237, R238, R240, R241, R242,
R243, R244, R245, R246, R247) The order of falls and what a stop in RESTART_WAIT or IDLE runs are the model's reading
(log 47). -/
def Obligations.SequencerComplete : Prop :=
  (∀ s k, s.works = true → s.runs .sup = true → s.drives = true → s.nodeEn k = true → s.seq.n[k].st = .rising → s.seq.n[k].pg = true →
    s.seq.n[k].dset = none → s.seq.st ≠ 4 →
    Completes .seqStep s (fun t => t.seq.n[k].st = .settle ∧ t.seq.n[k].settle = s.time)) ∧
  (∀ s, s.works = true → s.runs .sup = true → s.drives = false →
    Completes .seqStep s (fun t => t = foldFin 8 s (fun s n => s.evalNode ⟨64 + n.val, by omega⟩))) ∧
  (∀ k s, s.seqRuns = true → s.drives = true → s.nodeEn k = true → s.seq.n[k].st = .wait → s.shutting k = false →
    s.ranOut s.seq.n[k].dly (s.fld (F.SEQ_N_DLY.on_dly k) * us1) = true →
    Completes (.nodeOnDelayEnd k) s (fun t => t.seq.n[k] = { s.seq.n[k] with en := true, st := .rising, dly := none, rise := s.time })) ∧
  (∀ k s, s.seqRuns = true → s.drives = true → s.nodeEn k = true → s.seq.n[k].st = .settle → s.seq.n[k].pg = true → s.shutting k = false →
    s.elapsed s.seq.n[k].settle (s.fld (F.SEQ_N_TIM.settle_us k) * us1) = true →
    Completes (.nodeSettleEnd k) s (fun t => t.seq.n[k] = { s.seq.n[k] with st := .up })) ∧
  (∀ k s, s.seqRuns = true → s.drives = true → s.nodeEn k = true → s.seq.n[k].st = .rising → s.shutting k = false →
    s.elapsed s.seq.n[k].rise (s.fld (F.SEQ_N_TIM.rise_to k) * 100 * us1) = true →
    Completes (.riseTimeout k) s (fun t => t.seq.n[k] = { s.seq.n[k] with en := false, st := .failed, dly := none, cause := 1 } ∧
      t.seq.failCnt = s.seq.failCnt.inc ∧ Raises s t 0x91 1 k (s.nodeVal k))) ∧
  (∀ k s, s.seqRuns = true → s.drives = true → s.shutting k = true → s.seq.n[k].st = .up → s.depsOff k = true →
    s.ranOut s.seq.n[k].dly (s.fld (F.SEQ_N_DLY.off_dly k) * us1) = true →
    Completes (.nodeOffDelayEnd k) s (fun t =>
      t.seq.n[k] = { s.seq.n[k] with en := false, st := .falling, dly := none, fall := s.time, fallCnt := 0 })) ∧
  (∀ k s, s.seqRuns = true → s.drives = true → s.nodeEn k = true → s.seq.n[k].st = .falling → s.seq.n[k].off = false →
    s.elapsed s.seq.n[k].fall ((s.seq.n[k].fallCnt + 1) * s.fld (F.SEQ_N_FALL.fall_to k) * 100 * us1) = true →
    Completes (.fallTimeout k) s (fun t => t.seq.n[k] = { s.seq.n[k] with
      cause := 1, fallCnt := s.seq.n[k].fallCnt + 1, st := if s.bit (F.SEQ_N_FALL.fall_hold k) then .falling else .off } ∧
      Raises s t 0x92 0x01 k (s.nodeVal k))) ∧
  (∀ k s, s.works = true → s.runs .sup = true → s.seq.n[k].due = true → s.drives = false →
    Completes (.pgChange k) s (fun t => t = s.pgTake k)) ∧
  (∀ k s, s.works = true → s.runs .sup = true → s.seq.n[k].due = true → s.drives = true → s.nodeEn k = true → s.seq.n[k].st = .rising →
    s.seq.n[k].pg = false → s.fld (F.SEQ_N_CFG.dbc k) ≤ s.seq.n[k].pgRun → s.seq.n[k].chat + 1 ≤ s.fld F.SEQ_CFG.chatter_max →
    Completes (.pgChange k) s (fun t => t.seq.n[k].pg = true ∧ t.seq.n[k].st = .settle ∧ t.seq.n[k].settle = s.time)) ∧
  (∀ s, s.seqRuns = true → s.drives = true → s.seq.st ≤ 3 → s.restartOk = true → Completes .seqGo s (fun t => t = s.powerUp)) ∧
  (∀ s, s.seqRuns = true → s.drives = true → 3 < s.seq.st ∨ s.restartOk = false →
    Completes .seqGo s (fun t => t.seq = { s.seq with goPend := true })) ∧
  (∀ s, s.seqRuns = true → s.drives = true → s.seq.st ≠ 4 → s.seq.st ≠ 6 →
    Completes .seqStop s (fun t => t.seq.st = 4 ∧ t.seq.cause = 1 ∧ t.seq.from_ = s.time ∧ Raises s t 0x90 0x03 1 0)) ∧
  (∀ s, s.seqRuns = true → s.drives = true → s.seq.st = 2 ∨ s.seq.st = 3 →
    Completes .seqRetry s (fun t => t.seq.st = 1 ∧ ∀ k : Fin 72, s.nodeEn k = true → s.seq.n[k].st = .blocked → s.seq.n[k].en = false →
      t.seq.n[k].st = .wait)) ∧
  (∀ s, s.seqRuns = true → s.drives = true →
    Completes .seqTrip s (fun t => t.seq.st = 6 ∧ t.seq.cause = 5 ∧ t.seq.tripAt = some s.time ∧
      (∀ k : Fin 72, t.seq.n[k].st = .off ∧ t.seq.n[k].en = false) ∧ Raises s t 0x90 0x05 3 0)) ∧
  (∀ s, s.works = true → s.runs .sup = true → s.seq.st = 6 → s.drives = true →
    Completes .seqTripClr s (fun t => t.aon.tripSeq = 0 ∧ t.seq.st = 0 ∧ t.seq.goPend = (s.seq.goPend || s.seq.retryPend))) ∧
  (∀ s, s.seqRuns = true → s.drives = true → s.restartOk = true → s.seq.st = 5 → s.vat.hu = false →
    Completes .restartDelayEnd s (fun t => t.seq.st = 1 ∧ t.seq.rsCnt = s.seq.rsCnt.inc ∧ Raises s t 0x90 0x06 s.seq.cause 0))

/-- The thermal watch and the hardware shutdown complete. The 1 ms step takes each on-die count and its temperature; a
restored sensor is whole again, a diode's conversion is held, a second's mean joins the means; a gate is taken, two
hot gates shut down, the reset hold comes 1 µs later, and 5 s of cool gates release it. (R250, R251, R252, R256, R257,
R258, R259, R260) Which sensors are tracked and when frames stop are the model's reading (log 50, 60). -/
def Obligations.ThermalComplete : Prop :=
  (∀ counts s (k : Fin 32) (q : Fin 48), s.watches = true → q.val = k.val →
    Completes (.thmStep counts) s (fun t => t.thm.s[q].raw = counts[k] ∧
      t.thm.s[q].t = satN 16 (dieTemp s.otp.live.tsTrim[k].1 s.otp.live.tsTrim[k].2 counts[k]))) ∧
  (∀ k s, s.watches = true → s.thm.s[k].broken = true → s.thm.s[k].restDue = true →
    Completes (.sensorRestored k) s (fun t => t.thm.s[k].broken = false ∧ t.thm.s[k].tu = s.thm.s[k].t ∧ t.thm.s[k].means = [])) ∧
  (∀ q d s (k : Fin 48), s.watches = true → s.sys.role ≠ .arbiter → k.val = 32 + q.val → s.fld (F.THM_S_CFG.src k) = 0 →
    Completes (.diodeConversion q d) s (fun t => t.thm.s[k] = { s.thm.s[k] with dio := some (diodeTaken d (s.fld (F.THM_S_DIO.nf k))) })) ∧
  (∀ s (k : Fin 48), s.watches = true → s.thm.s[k].num ≠ 0 →
    Completes .thmSecond s (fun t => t.thm.s[k].sum = 0 ∧ t.thm.s[k].num = 0 ∧
      t.thm.s[k].means = rdiv s.thm.s[k].sum s.thm.s[k].num :: s.thm.s[k].means.take 60)) ∧
  (∀ counts s, s.aon.vaon = true → s.aon.transport = false → Completes (.aonThermalGate counts) s (fun t => t.aon.gate = counts)) ∧
  (∀ s k l, finsWhere 32 (fun k => decide (2 ≤ s.aon.gateHot[k])) = k :: l → s.aon.vaon = true → s.aon.transport = false → s.aon.sd = false →
    Completes .thermalShutdown s (fun t => t.aon.sd = true ∧ t.aon.sdAt = s.time ∧ t.aon.sdSensor = k.val ∧ t.aon.sdCnt = s.aon.sdCnt.inc ∧
      t.aon.hb = 0 ∧ t.aon.tripSd = BitVec.ofNat 8 (s.fld F.THM_SDMAP.map) ∧ t.sys.role = (if s.drives then .standby else s.sys.role))) ∧
  (∀ s, s.aon.vaon = true → s.aon.sd = true → s.elapsed s.aon.sdAt us1 = true → s.sys.inReset = false →
    Completes .thermalResetHold s (fun t => t.sys.inReset = true ∧ t.sys.cold = false ∧ t.sys.rstCause = 12 ∧ t.tick = 0 ∧ t.law = Law.reset)) ∧
  (∀ s, s.aon.vaon = true → s.aon.sd = true → s.sys.inReset = true → s.ranOut s.aon.coolSince (5 * sec1) = true →
    Completes .thermalRestartRelease s (fun t => t.aon.sd = false ∧ t.aon.coolSince = none))

/-- Every command of the fuse array completes. The G5 check is done once; ARM arms; PROG and LOCK start or are refused
with their reason; the reads return the word as it may be read; a completed command disarms with result 1, 2 or 3; the
re-read takes its time. (R268, R269, R270, R272, R273, R274, R275) The order of the refusals is the model's reading
(log 51); the array as shipped is its choice (log 8). -/
def Obligations.FuseComplete : Prop :=
  (∀ s, s.aon.vaon = true → s.otp.latched = true → s.otp.g5Done = false → Completes .otpG5Check s (fun t => t.otp.g5Done = true)) ∧
  (∀ s, s.runs .recI = true → s.sys.step ≠ 15 → s.sys.mode = modeTest ∨ s.sys.mode = modeMaint →
    Completes .otpArm s (fun t => t = s.modOtp (fun o => { o with arm := true, armAt := some s.time }))) ∧
  (∀ s w, s.runs .recI = true → s.sys.step ≠ 15 → w = s.fld F.OTP_ADDR.word → s.progRefusal w = 0 →
    Completes .otpProg s (fun t => t.otp = { s.otp with cmd := some ⟨1, w, BitVec.ofNat 32 (s.fld F.OTP_DATA.data), 0⟩, result := 0, why := 0 })) ∧
  (∀ s w, s.runs .recI = true → s.sys.step ≠ 15 → w = s.fld F.OTP_ADDR.word → s.progRefusal w ≠ 0 →
    Completes .otpProg s (fun t => t.otp = { s.otp with result := 4, why := s.progRefusal w } ∧ Raises s t 0x11 0x03 w (s.progRefusal w))) ∧
  (∀ g s, s.runs .recI = true → s.sys.step ≠ 15 → s.lockRefusal g.toNat = 0 →
    Completes (.otpLock g) s (fun t => t.otp = { s.otp with cmd := some ⟨2, 0xD8, BitVec.ofNat 32 (2 ^ g.toNat), g.toNat⟩, result := 0, why := 0 })) ∧
  (∀ g s, s.runs .recI = true → s.sys.step ≠ 15 → s.lockRefusal g.toNat ≠ 0 →
    Completes (.otpLock g) s (fun t => t.otp = { s.otp with result := 4, why := s.lockRefusal g.toNat })) ∧
  (∀ s w, s.runs .recI = true → s.sys.step ≠ 15 → w = s.fld F.OTP_ADDR.word →
    Completes .otpReadN s (fun t => t.otp = { s.otp with
      rdata := readable w (s.otp.rdN w)
      arm := s.otp.arm && s.otp.armAt == some s.time })) ∧
  (∀ s w, s.runs .recI = true → s.sys.step ≠ 15 → w = s.fld F.OTP_ADDR.word →
    Completes .otpReadM s (fun t => t.otp = { s.otp with
      rdata := readable w (s.otp.rdM w)
      arm := s.otp.arm && s.otp.armAt == some s.time })) ∧
  (∀ a b n s c, s.runs .recI = true → s.otp.cmd = some c →
    Completes (.otpCommandComplete a b n) s (fun t => t.otp.cmd = none ∧ t.otp.arm = (s.otp.arm && s.otp.armAt == some s.time) ∧
      t.otp.result = (let va := (a ||| cellGet 0 s.otp.aM c.word) &&& c.bits
                      let vb := (b ||| cellGet 0 s.otp.bM c.word) &&& c.bits
                      if va &&& vb = c.bits then 1 else if va ||| vb = c.bits then 2 else 3))) ∧
  (∀ s, s.runs .recI = true → s.otp.cmd = none → s.otp.rereadDue = false → s.otp.rereadAt + 24 * opHour ≤ s.opTime →
    Completes .otpReread s (fun t => t.otp = { s.otp with rereadAt := s.opTime, rereadDue := false }))

/-- Every command of the parameter store completes. A commit starts and its end puts every word of the buffer into the
store; an uncorrected read gives the word with its cells in error; power-fail is taken and ridden through; saves
start, write their slot and end; the restores are done once; a full read is taken or left pending. (R299, R304, R305,
R306, R308, R309, R310, R311, R313, R314, R315) The slot a save takes, what it captures and when CORRECTED fires are
the model's reading (log 52, 53). -/
def Obligations.StoreComplete : Prop :=
  (∀ s, s.runs .mgt = true → s.nvp.commit = none → s.nvp.held ≠ 0 → s.aon.pf = false →
    Completes .nvpCommitRequest s (fun t => t.nvp = { s.nvp with commit := some s.time, stopped := false })) ∧
  (∀ us s c, s.nvp.commit = some c → s.nvp.stopped = false → s.runs .recI = true →
    Completes (.nvpCommitDone us) s (fun t => t.nvp.store = s.nvp.buf.foldl (fun m p => cellPut ⟨0, 0⟩ m p.1 ⟨p.2, 0⟩) s.nvp.store ∧
      t.nvp.cLast = min 0xFFFF us ∧ t.nvp.cWorst = max s.nvp.cWorst (min 0xFFFF us))) ∧
  (∀ a s, s.runs .mgt = true → s.sys.step ≠ 15 → a.getLsbD 31 = false → bits a.toNat 19 3 < 32768 →
    Completes (.nvpRawRead a) s (fun t => t.nvp.rd =
      (s.nvpCell (bits a.toNat 19 3)).data ^^^ errData (s.nvpCell (bits a.toNat 19 3)).err)) ∧
  (∀ n s, s.aon.vaon = true → s.aon.pf = false → Completes (.powerFailAssert n) s (fun t => t.aon.pf = true)) ∧
  (∀ s, s.aon.pf = true → s.aon.vaon = true → s.aon.pfGood = true →
    Completes .pfRide s (fun t => t.aon = { s.aon with pf := false } ∧ t.nvp.store = s.nvp.store)) ∧
  (∀ s, s.runs .recI = true → s.nvp.restoreDue = false → s.nvp.hourAt + opHour ≤ s.opTime → s.nvp.save = none →
    Completes .hourlySave s (fun t => t.nvp.hourAt = s.nvp.hourAt + opHour ∧
      t.nvp.save = some ⟨1, s.time, false, none, s.opTime, false, s.slotPayload 1, false, none⟩)) ∧
  (∀ s, s.runs .recI = true → s.nvp.restoreDue = false → s.nvp.hourAt + opHour ≤ s.opTime → s.nvp.save ≠ none →
    Completes .hourlySave s (fun t => t.nvp = { s.nvp with hourAt := s.nvp.hourAt + opHour })) ∧
  (∀ s, s.runs .recI = true → s.sys.step ≠ 15 → s.nvp.save = none →
    Completes .nvpSaveRequest s (fun t => t.nvp.save = some ⟨3, s.time, true, none, s.opTime, false, s.slotPayload 3, false, none⟩ ∧ t.nvp.image = none)) ∧
  (∀ s v, s.nvp.save = some v → v.slotDone = false → v.image = true → s.nvp.commit = none →
    Completes .ringSlotComplete s (fun t => t.nvp.save = some { v with slotDone := true } ∧
      t.nvp.sRing = min 0xFFFF ((s.time - v.from_) / us1))) ∧
  (∀ s v, s.nvp.save = some v → v.slotDone = false → v.image = false → s.nvp.commit = none → s.nvp.recDue = none → s.bbx.saveAgain = false →
    Completes .ringSlotComplete s (fun t => t.nvp.save = none ∧ t.nvp.saveCnt = s.nvp.saveCnt.inc)) ∧
  (∀ us s v, s.nvp.save = some v → v.slotDone = true → v.image = true → s.nvp.recDue = none → s.bbx.saveAgain = false →
    Completes (.saveComplete us) s (fun t => t.nvp.save = none ∧ t.nvp.saveCnt = s.nvp.saveCnt.inc ∧ t.nvp.sShadow = min 0xFFFF us ∧
      t.nvp.image.map (fun i => (i.opt, i.store)) = some (v.opt, v.frozen.getD s.bbx.st))) ∧
  (∀ s, s.sys.inReset = false → s.nvp.restoreDue = true → 4 ≤ s.sys.step →
    Completes .nvpRestore s (fun t => t.nvp.restoreDue = false ∧ t.nvp.restored = s.slotBest.isSome)) ∧
  (∀ s, s.sys.inReset = false → s.nvp.imageDue = true → s.nvp.restoreDue = false → 4 ≤ s.sys.step →
    Completes .shadowImageRestore s (fun t => t.nvp.imageDue = false ∧
      t.nvp.shadowOk = (s.nvp.image.isSome &&
        !(s.nvp.shErr.any (fun p => decide (2 ≤ errCount p.2)) || s.nvp.image.any (fun m => m.crc != m.store.crc))))) ∧
  (∀ s, s.runs .recI = true → s.nvp.scrubAt + 24 * opHour ≤ s.opTime → s.readFree = true →
    Completes .nvpScrub s (fun t => t.nvp.patrol = false ∧ t.nvp.scrubAt = s.opTime)) ∧
  (∀ s, s.runs .recI = true → s.sys.step ≠ 15 → s.readFree = true →
    Completes .nvpScrubRequest s (fun t => t.nvp.patrol = false ∧ t.nvp.scrubAt = s.opTime)) ∧
  (∀ s, s.runs .recI = true → s.sys.step ≠ 15 → s.readFree = false →
    Completes .nvpScrubRequest s (fun t => t.nvp = { s.nvp with patrol := true }))

/-- Every command of the black box completes. The next event joins the queue; its record takes the next seq or is
suppressed without a token; the bucket refills, rows are traced, the trace freezes, a watermark is computed; SEAL_NOW
writes its marker; a read at a ream's pointer moves it; nonces load and lapse; CLEAR and RELEASE run or are refused
with a reason and complete; a lockout ends. (R320, R321, R324, R325, R326, R331, R332, R333, R334, R335) The own
records' data, the order of the checks of an exec, and an op that is neither are the model's reading (log 22, 40, 42,
43). -/
def Obligations.BlackBoxComplete : Prop :=
  (∀ s k e, s.runs .recI = true → nextEvent s.chans.flight = some (k, e) → s.bbx.queue.length < 64 →
    Completes .bbxEventEnqueue s (fun t => t.bbx.queue = s.bbx.queue ++ [e])) ∧
  (∀ s e q, s.bbx.queue = e :: q → s.runs .recI = true → s.bbx.op = none → s.bbx.supRun = 0 →
    0 < s.bbx.tokens ∨ s.fld F.BBX_CFG.seal_sev ≤ s.evSev e →
    Completes .bbxRecordWrite s (fun t => t.bbx.queue = q ∧ t.bbx.seq = s.bbx.seq + 1)) ∧
  (∀ s e q, s.bbx.queue = e :: q → s.runs .recI = true → s.bbx.op = none → s.bbx.tokens ≤ 0 → s.evSev e < s.fld F.BBX_CFG.seal_sev →
    Completes .bbxRecordWrite s (fun t => t.bbx = { s.bbx with queue := q, supRun := min max32 (s.bbx.supRun + 1), sup := s.bbx.sup.inc })) ∧
  (∀ s, s.runs .recI = true → s.elapsed s.bbx.refillAt (1250 * us1) = true →
    Completes .tokenRefill s (fun t => t.bbx = { s.bbx with tokens := min 512 (s.bbx.tokens + 1), refillAt := s.bbx.refillAt + 1250 * us1 })) ∧
  (∀ s, s.runs .recI = true → s.sns.running = true → s.bbx.rowUs ≠ some (s.sns64 / 1000) → s.trcRun = true →
    Completes .traceRow s (fun t => t.bbx.st = { s.bbx.st with rows := cellPut (Vector.replicate 16 0) s.bbx.st.rows s.bbx.pos s.trcRow } ∧
      t.bbx.pos = (s.bbx.pos + 1) % 4000 ∧ t.bbx.rowTime = s.sns64 / 1000 * 1000 ∧ t.bbx.rowUs = some (s.sns64 / 1000))) ∧
  (∀ s r a, s.runs .recI = true → s.bbx.post = some (r, a) → a ≤ s.time →
    Completes .traceFreeze s (fun t => t.bbx.holder = some r ∧ t.bbx.post = none ∧ t.bbx.armed = true ∧ t.bbx.st.reams[r].trace = true)) ∧
  (∀ r s, s.runs .recI = true → s.bbx.st.reams[r].st = 1 → s.bbx.post = none →
    Completes (.watermarkDone r) s (fun t => t.bbx.st.reams[r].wm = s.watermark r ∧ t.bbx.st.reams[r].wmDone = true)) ∧
  (∀ s, s.runs .recI = true → s.sys.step ≠ 15 → s.bbx.op = none → s.bbx.supRun = 0 →
    Completes .bbxSealNow s (fun t => t.bbx.seq = s.bbx.seq + 1 ∧ t.bbx.queue = s.bbx.queue)) ∧
  (∀ r (o : BitVec 20) s, s.runs .recI = true → 0x80000 ≤ o.toNat → o.toNat < 0x90000 → s.bbx.st.reams[r].st = 2 →
    s.bbx.st.reams[r].ptr < s.bbx.st.reams[r].total →
    ptrPlace r s.bbx.st.reams[r].ptr = (s.fld F.BBX_PAGE.sel, (o.toNat - 0x80000) / 4 * 4) →
    Completes (.reamPointerRead r o) s (fun t => t.bbx.st.reams[r].ptr = s.bbx.st.reams[r].ptr + 1)) ∧
  (∀ x s, s.runs .recI = true → s.sys.step ≠ 15 → s.bbx.lock = none →
    Completes (.bbxNonceRequest x) s (fun t => t.bbx = { s.bbx with nonce := x, nvalid := true, nonceAt := s.time })) ∧
  (∀ s, s.bbx.nvalid = true → s.elapsed s.bbx.nonceAt (60 * sec1) = true →
    Completes .nonceExpiry s (fun t => t.bbx = { s.bbx with nvalid := false })) ∧
  (∀ s, s.runs .recI = true → s.sys.step ≠ 15 → s.fld F.BBX_OP.op = 1 → s.bbx.op = none → s.bbx.lock = none → s.openMode = true →
    Completes .bbxClear s (fun t => t.bbx.op.map Prod.fst = some 1 ∧ t.bbx.nvalid = false)) ∧
  (∀ s, s.runs .recI = true → s.sys.step ≠ 15 → s.fld F.BBX_OP.op ≠ 1 → s.fld F.BBX_OP.op ≠ 2 → s.bbx.op = none → s.bbx.lock = none →
    Completes .bbxClear s (fun t => t.bbx = { s.bbx with result := 7, nvalid := false })) ∧
  (∀ s (r : Fin 4), s.runs .recI = true → s.sys.step ≠ 15 → s.fld F.BBX_OP.op = 2 → r.val = s.fld F.BBX_OP.ream % 4 → s.bbx.op = none → s.bbx.lock = none →
    s.bbx.st.reams[r].st = 3 → s.openMode = true →
    Completes .bbxRelease s (fun t => t.bbx = { s.bbx with op := some (2, r), nvalid := false })) ∧
  (∀ s, s.runs .recI = true → s.sys.step ≠ 15 → s.fld F.BBX_OP.op = 2 → s.bbx.op = none → s.bbx.lock ≠ none →
    Completes .bbxRelease s (fun t => t.bbx = { s.bbx with result := 5, nvalid := false })) ∧
  (∀ s r, s.runs .recI = true → s.bbx.op = some (1, r) →
    Completes .bbxOpComplete s (fun t => t.bbx.op = none ∧ t.bbx.result = 1 ∧ t.bbx.clr = s.bbx.clr.inc)) ∧
  (∀ s r, s.runs .recI = true → s.bbx.op = some (2, r) →
    Completes .bbxOpComplete s (fun t => t.bbx.op = none ∧ t.bbx.result = 1 ∧ t.bbx.clr = s.bbx.clr)) ∧
  (∀ s a, s.bbx.lock = some a → a + 600 * 1024 ≤ s.opTime →
    Completes .lockoutEnd s (fun t => t.bbx = { s.bbx with lock := none, fails := 0 }))

/-- Every command of field update completes. BEGIN, CHUNK, END, COMMIT, ACTIVATE and ABORT are accepted with their effect
or refused with their reason; the prepare, the commit's writes, an activation step, the restart and its end, the
trial's end, a rollback and a slot's timeout take effect. (R340, R341, R342, R344, R345, R346, R347, R348, R351, R352,
R354, R355) The peer's share reaches the unit as commands, the model's choice (log 15); refusals, records and regions
stand by log 14, 54 and 55. -/
def Obligations.UpdateComplete : Prop :=
  (∀ s, s.runs .hst = true → s.runs .mgt = true → s.updMine = true → s.upd.phase = 0 → s.arbDrill = false →
    Completes .updBegin s (fun t => t.upd.phase = 1 ∧ t.upd.result = 0 ∧ t.upd.pkg = [] ∧ t.upd.man = none)) ∧
  (∀ s, s.runs .hst = true → s.runs .mgt = true → s.upd.phase ≠ 0 →
    Completes .updBegin s (fun t => t.upd = { s.upd with result := 2, reason := 0x10 } ∧ Raises s t 0xE1 0x01 0x10 0)) ∧
  (∀ s m off bytes pkg, s.runs .hst = true → s.runs .mgt = true → s.updMine = true → s.upd.phase = 1 → s.upd.ending = false →
    s.upd.man = some m → off = s.fld F.UPD_CHUNK.off →
    s.upd.lastOff = some (off - 2048) → 2048 ≤ off → off < leAt s.upd.pkg 16 4 →
    bytes = byteSlice s.updBuf 0 (min 2048 (leAt s.upd.pkg 16 4 - off)) → pkg = s.upd.pkg ++ bytes →
    (∀ e, m.entries[s.upd.decoded]? = some e → pkg.length < e.poff + e.plen) →
    Completes .updChunk s (fun t => t.upd = { (s.carryStep (.chunk off bytes)).upd with pkg := pkg, lastOff := some off })) ∧
  (∀ s, s.runs .hst = true → s.runs .mgt = true → s.upd.phase ≠ 1 →
    Completes .updChunk s (fun t => t.upd = { s.upd with result := 2, reason := 0x10 })) ∧
  (∀ s m, s.runs .hst = true → s.runs .mgt = true → s.updMine = true → s.upd.phase = 1 → s.upd.ending = false → s.upd.man = some m →
    m.plen ≤ s.upd.pkg.length → s.hashFails m = none →
    Completes .updEnd s (fun t => t.upd.verified = m.n ∧ t.upd.ending = true)) ∧
  (∀ s, s.runs .hst = true → s.runs .mgt = true → s.upd.phase ≠ 1 →
    Completes .updEnd s (fun t => t.upd = { s.upd with result := 2, reason := 0x10 })) ∧
  (∀ s, s.runs .mgt = true → s.upd.phase = 1 → s.upd.ending = true → (∀ k : Fin 32, s.slt[k].fw = none) →
    s.peerPrepared = true →
    Completes .prepareComplete s (fun t => t.upd = { s.upd with phase := 2, ending := false } ∧
      Raises s t 0xE0 0x01 0 (((s.upd.man.map Manifest.epoch).getD 0).toNat % 2 ^ 32 : Nat))) ∧
  (∀ s, s.runs .hst = true → s.runs .mgt = true → s.updMine = true → s.sys.step ≠ 15 → s.upd.phase = 2 → s.upd.committing = false →
    s.arbDrill = false → s.manRefusal = 0 →
    Completes .updCommit s (fun t => t.upd = { (s.carryStep .commit).upd with committing := true, ownWrite := false })) ∧
  (∀ s, s.runs .hst = true → s.runs .mgt = true → s.updMine = true → s.sys.step ≠ 15 → s.upd.phase = 2 → s.upd.committing = false →
    s.arbDrill = false → s.manRefusal ≠ 0 →
    Completes .updCommit s (fun t => t.upd = { s.upd with result := 2, reason := s.manRefusal })) ∧
  (∀ ok s m, s.upd.man = some m → s.runs .mgt = true → s.upd.phase = 2 → s.upd.committing = true → s.upd.ownWrite = false →
    s.strap ≠ .pair ∨ s.sys.role ≠ .active ∨ ok = true → (s.commitOwn m).rec1Waits = true →
    Completes (.commitWritesDone ok) s (fun t => t.upd = { s.upd with
      ownWrite := true, prevDigest := s.upd.rec1.digest, rec1 := s.commitRec m })) ∧
  (∀ ok s m, s.upd.man = some m → s.runs .mgt = true → s.upd.phase = 2 → s.upd.committing = true → s.upd.ownWrite = true →
    s.rec1Waits = false →
    Completes (.commitWritesDone ok) s (fun t => t.upd = { s.upd with phase := 3, committing := false, ownWrite := false } ∧
      Raises s t 0xE0 0x02 0 (m.epoch.toNat % 2 ^ 32 : Nat))) ∧
  (∀ s m, s.upd.man = some m → s.runs .mgt = true → s.upd.phase = 2 → s.upd.committing = true → s.upd.ownWrite = false →
    s.strap = .pair → s.sys.role = .active →
    Completes (.commitWritesDone false) s (fun t => t.upd.phase = 0 ∧ t.upd.result = 3 ∧ t.upd.reason = 0x0F)) ∧
  (∀ s, s.runs .hst = true → s.runs .mgt = true → s.updMine = true → s.sys.step ≠ 15 → s.upd.phase = 3 → s.arbDrill = false → s.manRefusal = 0 →
    Completes .updActivate s (fun t => t.upd = { (s.carryStep .activate).upd with
      phase := 4, step := 0, drillAsked := false, drillMine := false })) ∧
  (∀ s, s.mgtUp = true → s.upd.phase = 4 → s.vat.hu = false → s.actMine = true → s.upd.step = 0 →
    Completes .activationStep s (fun t => t.upd.step = 1 ∧ t.upd.rec1.step = 1)) ∧
  (∀ s, s.runs .hst = true → s.runs .mgt = true → s.updMine = true → s.upd.phase = 1 ∨ s.upd.phase = 2 →
    Completes .updAbort s (fun t => t.upd.phase = 0 ∧ t.upd.result = 3 ∧ t.upd.reason = 0x13)) ∧
  (∀ s, s.runs .hst = true → s.runs .mgt = true → s.updMine = true → s.upd.phase = 3 ∨ s.upd.phase = 4 ∨ s.upd.phase = 5 →
    Completes .updAbort s (fun t => t.upd.phase = 6 ∧ t.upd.result = 4 ∧ t.upd.reason = 0x13 ∧ t.upd.restartDue = true ∧
      t.upd.rbCnt = s.upd.rbCnt.inc)) ∧
  (∀ i s, s.aon.vaon = true → s.sys.inReset = false → s.gated .mgt = false → 6 < s.sys.step → s.sys.step ≠ 15 → s.upd.restartDue = true →
    (s.upd.phase = 6 && s.strap = .pair && s.sys.role = .active && s.linkOn && !s.peerIdle) = false → s.imageOk i = true →
    Completes (.mgmtRestart i) s (fun t => t.sys.mgmtRestart = true ∧ t.sys.wdtArmed = false ∧ t.upd.restartDue = false ∧
      t.sys.bank = t.upd.rec1.bank)) ∧
  (∀ s, s.aon.vaon = true → s.sys.mgmtRestart = true → s.upd.restartDue = false →
    Completes .mgmtRestartComplete s (fun t => t.sys.mgmtRestart = false ∧ t.sys.wdtArmed = true ∧ t.sys.wdtAt = s.time ∧
      t.upd = { s.upd with phase := if s.upd.phase = 6 then 0 else s.upd.phase })) ∧
  (∀ s a, s.upd.trialFrom = some a → s.runs .mgt = true → s.upd.phase = 5 → s.actMine = true → a + (s.fld F.UPD_TRIAL.ms * ms1 - s.upd.trialUsed) ≤ s.time →
    Completes .trialEnd s (fun t => t.upd.phase = 0 ∧ t.upd.result = 1 ∧ t.upd.doneCnt = s.upd.doneCnt.inc ∧ t.upd.rec1.state = 0)) ∧
  (∀ s, s.mgtUp = true → s.rollbackCause ≠ 0 → s.upd.phase ≠ 0 →
    Completes .updRollback s (fun t => t.upd.phase = 6 ∧ t.upd.result = 4 ∧ t.upd.reason = s.rollbackCause ∧ t.upd.restartDue = true)) ∧
  (∀ s q low, s.mgtUp = true → s.rollbackCause ≠ 0 → s.upd.phase = 0 → s.red.peerSt = some q →
    low = (if q.record.epoch < s.upd.rec1.epoch then q.record else s.upd.rec1) →
    Completes .updRollback s (fun t => t.upd.rec1 = { low with state := 0, step := 0 } ∧ t.upd.result = 4 ∧
      t.upd.reason = s.rollbackCause ∧ t.upd.restartDue = decide (low.bank ≠ s.sys.bank))) ∧
  (∀ k s a, s.upd.act = [(k, a, false)] → s.runs .mgt = true → s.upd.phase = 4 → s.upd.todo = [] → a + 30 * sec1 ≤ s.time →
    Completes (.slotActivateTimeout k) s (fun t => t.upd.act = [] ∧ Raises s t 0xE1 0x04 0 k.val))

/-- The endpoint, doorbells, fetch, completion, DMA errors, telemetry and event routing complete. A host-interface reset
empties the rings and mutes the commands; a link change is taken; doorbells move a ring's index or stop the ring; a
fetched command takes its place and a completion entry; a command with a result completes and is counted; a DMA error
stops the ring or ends the command; telemetry takes its tick, a held vector is sent, the summary and the trip outputs
clear. (R357, R360, R362, R364, R365, R368, R371, R373, R374, R375, R377) The MSI-X table's reset values are presumed
from PCI Express (log 9); what counts as unsent, full and complete is the model's reading (log 16, 21, 57). -/
def Obligations.HostEndpointComplete : Prop :=
  (∀ k s, s.runs .hst = true → k = .d3hotExit → s.hst.d3hot = true →
    Completes (.hstReset k) s (fun t => t.hst.ring = Hst.reset.ring ∧ t.hst.reserved = 0 ∧ t.evt.pba = 0 ∧ t.hst.d3hot = false ∧
      t.hst.cmd = s.hst.cmd.map (fun c => c.map (fun c => { c with mute := true })))) ∧
  (∀ k s, s.runs .hst = true → k ≠ .d3hotExit →
    Completes (.hstReset k) s (fun t => t.hst.ring = Hst.reset.ring ∧ t.hst.reserved = 0 ∧ t.evt.pba = 0 ∧ t.hst.d3hot = s.hst.d3hot ∧
      t.hst.cmd = s.hst.cmd.map (fun c => c.map (fun c => { c with mute := true })))) ∧
  (∀ u d g w l s, s.runs .hst = true → u = false ∨ (s.sns.running = true ∧ s.elapsed s.sns.timeFrom (20 * ms1) = true) →
    Completes (.pcieLinkChange u d g w l) s (fun t => t.hst.up = u ∧ t.hst.d3hot = d ∧ t.hst.gen = g ∧ t.hst.width = w ∧ t.hst.ltssm = l)) ∧
  (∀ r v s (q : Fin 8), q.val = r.val → s.runs .hst = true → s.ringOn q = true → v.toNat % 65536 < s.ringSize q →
    s.ringUsed q + (v.toNat % 65536 + s.ringSize q - s.hst.ring[q].tail % s.ringSize q) % s.ringSize q < s.ringSize q →
    Completes (.commandDoorbell r v) s (fun t => t.hst.ring[q].tail = v.toNat % 65536 ∧ t.hst.ring[q].bell = v.toNat % 65536)) ∧
  (∀ r v s (q : Fin 8), q.val = r.val → s.runs .hst = true → s.ringOn q = true → s.ringSize q ≤ v.toNat % 65536 →
    Completes (.commandDoorbell r v) s (fun t => t.hst.ring[q].err = true ∧ t.hst.ring[q].cause = 1 ∧ Raises s t 0xC2 0x01 0 q.val)) ∧
  (∀ r v s (q : Fin 8), q.val = 4 + r.val → s.runs .hst = true → s.ringOn q = true → v.toNat % 65536 < s.ringSize q →
    Completes (.consumerDoorbell r v) s (fun t => t.hst.ring[q].head = v.toNat % 65536)) ∧
  (∀ r v s (q : Fin 8), q.val = 4 + r.val → s.runs .hst = true → s.ringOn q = true → s.ringSize q ≤ v.toNat % 65536 →
    Completes (.consumerDoorbell r v) s (fun t => t.hst.ring[q].err = true ∧ t.hst.ring[q].cause = 1)) ∧
  (∀ r d s (q : Fin 8), q.val = r.val → s.mgtUp = true → s.hostUp = true → s.ringOn q = true → s.hst.ring[q].head ≠ s.hst.ring[q].tail →
    s.hst.cmd[r] = none → s.ringOn 4 = true → s.cplFree ≠ 0 → s.cmds.any Cmd.fence = false →
    Completes (.commandFetch r d) s (fun t => t.hst.cmd[r].map (fun c => (c.d, c.index, c.order)) =
        some (descOf d.toList, s.hst.ring[q].head, s.hst.fetched) ∧
      t.hst.reserved = s.hst.reserved + 1 ∧ t.hst.ring[q].head = (s.hst.ring[q].head + 1) % s.ringSize q)) ∧
  (∀ r s c x, s.hst.cmd[r] = some c → c.res = some x → s.runs .hst = true → s.runs .mgt = true → s.hostUp = true →
    Completes (.commandComplete r) s (fun t => t.hst.cmd[r] = none ∧ t.hst.cmdCnt = s.hst.cmdCnt.inc)) ∧
  (∀ r k s, s.hostUp = true → s.ringOn r = true →
    Completes (.hostDmaError r false k) s (fun t => t.hst.ring[r].err = true ∧ t.hst.ring[r].cause = 2)) ∧
  (∀ (r : Fin 8) (q : Fin 4) k s c, q.val = r.val → s.hostUp = true → s.ringOn r = true → s.hst.cmd[q] = some c →
    Completes (.hostDmaError r true k) s (fun t => t.hst.cmd[q] = some { c with started := true, res := some (CmdRes.of 7) } ∧
      Raises s t 0xC1 (DmaError.code k) 0 r.val)) ∧
  (∀ s, s.runs .hst = true → s.bit F.HST_TEL.en = true → s.tick % 2 ^ 32 % s.telPeriod = 0 → s.ranOut s.tickAt (3 * us1) = true →
    s.hst.telTick ≠ some s.tick → s.ringOn 6 = true → s.telValues ≠ [] →
    Completes .telemetryCapture s (fun t => t.hst.telTick = some s.tick)) ∧
  (∀ v s, s.runs .hst = true → s.evt.vheld[v] = true → s.vecModerated v = false → s.vecMasked v = false → s.hostUp = true →
    Completes (.msixModerationEnd v) s (fun t => t.evt.vheld[v] = false ∧ t.evt.vlast[v] = some s.time ∧ t.hst.posted = .msix v :: s.hst.posted)) ∧
  (∀ s, s.runs .mgt = true → s.sys.step ≠ 15 → (s.cleared 0x1004).count = 0 →
    Completes .evtSumClear s (fun t => t.evt.sev = 0 ∧ t.evt.src = 0 ∧ t.evt.cnt = .zero ∧ t.aon.bcnFault = 0 ∧ t.aon.bcnAttn = false)) ∧
  (∀ s, s.runs .mgt = true → s.sys.step ≠ 15 → (s.cleared 0x1004).count ≠ 0 →
    Completes .evtSumClear s (fun t => t.evt.sev = s.evt.sumNow.2.1 ∧ t.evt.src = s.evt.sumNow.2.2 ∧ t.evt.cnt = s.cleared 0x1004 ∧
      t.aon.bcnFault = s.evt.sumNow.2.1 ∧ t.aon.bcnAttn = true)) ∧
  (∀ s, s.runs .mgt = true → s.sys.step ≠ 15 →
    Completes .evtTripClear s (fun t =>
      t = { s with aon := { s.aon with tripEvt := if s.aon.tripNow.1 = s.time then s.aon.tripNow.2 else 0 } }))

/-- Every opcode of a command ring runs. A fetched command of its opcode starts and has its result, or waits for it: NOP,
NVP_READ, NVP_WRITE, NVP_SAVE, MB_REQ, UPD_OP, MODE_REQ and BBX_COPY. (R291, R302, R303, R310, R331, R340, R364, R366,
R196) The status of each malformed operand and the order under a fence are the model's reading (log 58). -/
def Obligations.HostCommandsComplete : Prop :=
  (∀ r s c, s.startable r 0x01 = some c →
    Completes (.nop r) s (fun t => t.hst.cmd[r] = some { c with started := true, res := some (CmdRes.of 0) })) ∧
  (∀ r s c, s.startable r 0x10 = some c →
    Completes (.nvpRead r) s (fun t => t.hst.cmd[r] = some { c with started := true, res := some (
      ((s.recSel (leAt c.d.opnd 0 2)).use.map (fun x : Bool × Copy =>
        CmdRes.mk 0 x.2.payload (BitVec.ofNat 32 (x.2.fmt + b2n x.1 * 65536)) (BitVec.ofNat 32 x.2.seq) 0)).getD (CmdRes.of 8)) })) ∧
  (∀ r p s c z, s.startable r 0x11 = some c → s.nvpWritable (leAt c.d.opnd 0 2) = true → recPlace (leAt c.d.opnd 0 2) = some z →
    16 + c.d.blen ≤ z.2.2 → s.recNextSeq (leAt c.d.opnd 0 2) ≤ 0xFFFFFFFFFFFF → s.nvp.queue = [] →
    Completes (.nvpWrite r p) s (fun t => t.hst.cmd[r] = some { c with started := true, res := some (
      CmdRes.mk 0 [] (BitVec.ofNat 32 (s.recNextSeq (leAt c.d.opnd 0 2))) 0 0) } ∧
      t.nvp = (s.recWrite (leAt c.d.opnd 0 2) (leAt c.d.opnd 2 2) (byteSlice p 0 c.d.blen)).nvp)) ∧
  (∀ r p s c, s.startable r 0x11 = some c → s.nvpWritable (leAt c.d.opnd 0 2) = false →
    Completes (.nvpWrite r p) s (fun t => t.hst.cmd[r] = some { c with started := true, res := some (CmdRes.of 3) } ∧ t.nvp = s.nvp)) ∧
  (∀ r s c, s.startable r 0x12 = some c → s.nvp.save = none →
    Completes (.nvpSave r) s (fun t => t.hst.cmd[r] = some { c with started := true, res := some (CmdRes.mk 0 [] 3 0 0) } ∧
      t.nvp.save = some ⟨3, s.time, true, none, s.opTime, false, s.slotPayload 3, false, none⟩)) ∧
  (∀ r s c, s.startable r 0x12 = some c → s.nvp.save ≠ none →
    Completes (.nvpSave r) s (fun t => t.hst.cmd[r] = some { c with started := true, res := some (CmdRes.of 4) } ∧ t.nvp = s.nvp)) ∧
  (∀ r p s c (k : Fin 32) (tag : Fin 4), s.startable r 0x20 = some c → leAt c.d.opnd 0 1 = k.val → leAt c.d.opnd 1 1 = tag.val →
    leAt c.d.opnd 2 1 ≤ 6 → leAt c.d.opnd 4 1 ≤ 240 → leAt c.d.opnd 4 1 ≤ c.d.blen → s.works = true → s.runs .lnk = true →
    s.linkUp k = true → s.slt[k].req.any (fun q => q.tag = tag) = false →
    Completes (.mbReq r p) s (fun t => t.hst.cmd[r] = some { c with started := true, res := none } ∧
      t.slt[k].req = s.slt[k].req ++ [⟨tag, some (r, BitVec.ofNat 16 c.index), s.time⟩])) ∧
  (∀ r p s c, s.startable r 0x30 = some c → c.d.blen ≤ 2048 →
    Completes (.updOp r p) s (fun t => t.hst.cmd[r] = some { c with started := true, res := (updRes (s.updOpRun (leAt c.d.opnd 0 1) (leAt c.d.opnd 4 4) (byteSlice p 0 c.d.blen))).2 } ∧
      t.upd = (s.updOpRun (leAt c.d.opnd 0 1) (leAt c.d.opnd 4 4) (byteSlice p 0 c.d.blen)).1.upd)) ∧
  (∀ r s c, s.startable r 0x40 = some c →
    Completes (.modeReq r) s (fun t => t.hst.cmd[r] = some { c with started := true, res := (
        if (s.modeAsk (leAt c.d.opnd 0 1)).2 then none else some (CmdRes.of 3)) } ∧
      t.sys = (s.modeAsk (leAt c.d.opnd 0 1)).1.sys)) ∧
  (∀ r s c, s.startable r 0x50 = some c → c.d.blen % 4 = 0 → leAt c.d.opnd 4 4 % 4 = 0 → leAt c.d.opnd 4 4 + c.d.blen ≤ 0x10000 →
    Completes (.bbxCopy r) s (fun t => t.hst.cmd[r] = some { c with started := true, res := some (
      CmdRes.mk 0 ((List.range (c.d.blen / 4)).flatMap (fun k => leBytes 4 (s.bbx.st.pageWord (leAt c.d.opnd 0 1) (leAt c.d.opnd 4 4 + 4 * k)).toNat)) 0 0 0) }))

/-- The two-wire ports complete: controller, target, attention, timeout, recovery. A go starts a transaction, or completes
with STUCK on a disabled port; a loss is counted and retried three times, then ARB_LOST; a transaction completes with
its result; a target takes a write at its pointer and moves it on for a read; an attention request is won or asks
again, and is served; a timeout completes with TIMEOUT; recovery ends in RECOVERED or TW_STUCK and is retried. (R380,
R382, R383, R384, R385, R386, R392) How a malformed go ends and what RECOVERED needs are the model's reading (log 49);
the receive half has 64 places (log 11). -/
def Obligations.TwoWireComplete : Prop :=
  (∀ p (v : Word) s, s.runs .mgt = true → s.sys.step ≠ 15 → v.getLsbD 31 = true → s.twp[p].xfer = none → s.twpCtrl p = true → s.bit (F.TWP_CFG.en p) = true →
    s.twp[p].stuck = false → s.twp[p].dead = false →
    Completes (.twpGo p v) s (fun t => t.twp[p] = { s.twp[p] with tries := 0, wait_ := 0, xfer := some (
      BitVec.ofNat 7 (bits v.toNat 22 16), (t.twp[p].xfer.map (fun x => x.2.1)).getD [], min 32 (bits v.toNat 13 8)) } ∧
      (t.twp[p].xfer.map (fun x => x.2.1.length)) = some (min 32 (bits v.toNat 5 0)))) ∧
  (∀ p (v : Word) s, s.runs .mgt = true → s.sys.step ≠ 15 → v.getLsbD 31 = true → s.twp[p].xfer = none → s.twpCtrl p = true →
    s.bit (F.TWP_CFG.en p) = false ∨ s.twp[p].stuck = true ∨ s.twp[p].dead = true →
    Completes (.twpGo p v) s (fun t => t.twp[p].result = 8 ∧ t.twp[p].xfer = none ∧ Raises s t (0xD0 + p.val) 0x01 (bits v.toNat 22 16) 8)) ∧
  (∀ p e s x, s.twp[p].xfer = some x → s.twpOn p = true → s.twpCtrl p = true → s.twp[p].check = false → s.twp[p].tries < 3 →
    Completes (.twpArbRetry p e) s (fun t => t.twp[p] = { s.twp[p] with arb := s.twp[p].arb.inc, tries := s.twp[p].tries + 1, wait_ := e.val })) ∧
  (∀ p e s x, s.twp[p].xfer = some x → s.twpOn p = true → s.twpCtrl p = true → s.twp[p].check = false → 3 ≤ s.twp[p].tries →
    Completes (.twpArbRetry p e) s (fun t => t.twp[p] = { s.twp[p] with arb := s.twp[p].arb.inc, xfer := none, result := 4 } ∧
      Raises s t (0xD0 + p.val) 0x01 x.1.toNat 4)) ∧
  (∀ p o s x, s.twp[p].xfer = some x → s.twpOn p = true → s.twpCtrl p = true → s.twp[p].check = false →
    s.bit (F.TWP_CFG.pec p) = true ∨ (∀ bs, o ≠ .pecErr bs) →
    Completes (.twpTransactionDone p o) s (fun t => t.twp[p].xfer = none ∧ t.twp[p].result = twpCode o)) ∧
  (∀ p bs s x, s.twp[p].xfer = some x → s.twpOn p = true → s.twpCtrl p = true → s.twp[p].check = false → s.bit (F.TWP_CFG.pec p) = false →
    Completes (.twpTransactionDone p (.pecErr bs)) s (fun t => t.twp[p].xfer = none ∧ t.twp[p].result = 1)) ∧
  (∀ p bs pec s, s.twpOn p = true → s.twpCtrl p = false → s.bit (F.TWP_CFG.pec p) = false →
    Completes (.twpTargetWrite p bs pec) s (fun t => t.twp[p] = s.twp[p].write bs ∧
      Raises s t (0xD0 + p.val) 0x06 (s.fld (F.TWP_CFG.taddr p)) (s.twp[p].write bs).ptr.toNat)) ∧
  (∀ p n s, s.twpOn p = true → s.twpCtrl p = false →
    Completes (.twpTargetRead p n) s (fun t => t.twp[p] = { s.twp[p] with
      ptr := BitVec.ofNat 6 (s.twp[p].ptr.toNat + n)
      sent := s.twpSends p (s.fld (F.TWP_CFG.taddr p)) s.twp[p].ptr.toNat n })) ∧
  (∀ p e n s, s.twpOn p = true → s.twpCtrl p = false → s.bit (F.TWP_CTL.attn p) = true →
    Completes (.twpAttnRequest p e (some n)) s (fun t =>
      t.twp[p] = { s.twp[p] with
        ptr := BitVec.ofNat 6 (0 + n), wait_ := 0, sent := s.twpSends p (s.fld (F.TWP_CFG.taddr p)) 0 n } ∧
      t.regs = (s.hwFld (F.TWP_CTL.attn p) 0).regs)) ∧
  (∀ p e s, s.twpOn p = true → s.twpCtrl p = false → s.bit (F.TWP_CTL.attn p) = true →
    Completes (.twpAttnRequest p e none) s (fun t => t = s.modTwp p (fun w => { w with wait_ := e.val }))) ∧
  (∀ p a bs s, s.twpOn p = true → s.twpCtrl p = true → s.bit (F.TWP_CFG.att_en p) = true →
    Completes (.twpAttention p a bs) s (fun t => t.twp[p].atta = a ∧
      t.twp[p].att = Vector.ofFn (fun (k : Fin 32) => (bs.take (s.fld (F.TWP_CFG.att_len p))).getD k.val 0) ∧
      Raises s t (0xD0 + p.val) 0x05 a.toNat (leAt (bs.take (s.fld (F.TWP_CFG.att_len p))) 0 4))) ∧
  (∀ p s, s.twpOn p = true → s.twpCtrl p = true →
    Completes (.twpTimeout p) s (fun t => t.twp[p] = { s.twp[p] with xfer := none, result := 6, check := true })) ∧
  (∀ p n s, s.twpOn p = true → s.twpCtrl p = true → s.twp[p].check = true →
    Completes (.twpBusRecovery p n false) s (fun t => t.twp[p].stuck = true ∧ t.twp[p].check = false ∧ t.twp[p].retries = 0 ∧ t.twp[p].recAt = s.time ∧
      Raises s t (0xD0 + p.val) 0x03 0 0)) ∧
  (∀ p n s, s.twpOn p = true → s.twpCtrl p = true → s.twp[p].check = true → n ≠ 0 →
    Completes (.twpBusRecovery p n true) s (fun t => t.twp[p].stuck = false ∧ t.twp[p].check = false ∧
      Raises s t (0xD0 + p.val) 0x04 0 s.twp[p].retries)) ∧
  (∀ p s, s.twpOn p = true → s.twpCtrl p = true → s.twp[p].check = true →
    Completes (.twpBusRecovery p 0 true) s (fun t => t = s.modTwp p (fun w => { w with check := false }))) ∧
  (∀ p high s, s.runs .mgt = true → s.bit (F.TWP_CFG.en p) = true → s.twpCtrl p = true → s.twp[p].stuck = true → s.twp[p].dead = false →
    s.elapsed s.twp[p].recAt (100 * ms1) = true →
    Completes (.twpRecoveryRetry p high) s (fun t => t.twp[p].retries = s.twp[p].retries + 1 ∧ t.twp[p].stuck = !high ∧
      t.twp[p].dead = (!high && decide (8 ≤ s.twp[p].retries + 1)) ∧
      Raises s t (0xD0 + p.val) (if high then 0x04 else 0x03) 0 (s.twp[p].retries + 1 : Nat)))

/-- The beacon answers its word and takes its four commands. A read latches the beacon word; DEMOTE demotes unless the
balls say ARBITER or DEMOTE_N is low; the demotion ends after 100 µs; SAFE_SHUTDOWN shuts the shelf down and is
watched, and its watch ends in a demotion; SAVE requests a save with cause 5; CLEAR_ATTN clears the summary; any other
word is counted bad. (R388, R389, R390, R391, R214, R243, R310) Which word is latched and when beacon events wait are
the model's reading (log 48). -/
def Obligations.BeaconComplete : Prop :=
  (∀ s, s.aon.vaon = true → Completes .beaconRead s (fun t => t = s.modAon (fun a => { a with bcnWord := s.beaconWord }))) ∧
  (∀ w s, s.aon.vaon = true → bcnCode w = 1 → s.ballArbiter = false → s.aon.demoted = false →
    Completes (.beaconDemote w) s (fun t => t.aon.demoted = true ∧ t.aon.bcnLow = true ∧ t.aon.bcnLowAt = s.time ∧
      t.aon.bcnCmd = w ∧ t.aon.bcnStat = 1 ∧ (s.sys.role ≠ .undecided → t.sys.role = .standby))) ∧
  (∀ w s, s.aon.vaon = true → bcnCode w = 1 → s.ballArbiter = true ∨ s.aon.demoted = true →
    Completes (.beaconDemote w) s (fun t => t.aon.demoted = s.aon.demoted ∧ t.sys = s.sys ∧ t.aon.bcnCmd = w ∧ t.aon.bcnStat = 2)) ∧
  (∀ s, s.aon.bcnLow = true → s.elapsed s.aon.bcnLowAt (100 * us1) = true → s.aon.demoted = true → s.aon.pinLow = false →
    Completes .beaconDemoteEnd s (fun t => t.aon.bcnLow = false ∧ t.aon.demoted = false)) ∧
  (∀ s, s.aon.bcnLow = true → s.elapsed s.aon.bcnLowAt (100 * us1) = true → s.aon.pinLow = true →
    Completes .beaconDemoteEnd s (fun t => t = s.modAon (fun a => { a with bcnLow := false }))) ∧
  (∀ w s, s.aon.vaon = true → bcnCode w = 2 → s.aon.sd = false → s.aon.transport = false → s.seq.st ≠ 4 → s.seq.st ≠ 6 → s.seqRuns = true →
    s.drives = true →
    Completes (.beaconSafeShutdown w) s (fun t => t.seq.st = 4 ∧ t.seq.cause = 1 ∧ t.aon.bcnSafe = some (s.time, true) ∧ t.aon.bcnStat = 1 ∧
      Raises s t 0x90 0x03 1 0)) ∧
  (∀ w s, s.aon.vaon = true → bcnCode w = 2 → s.aon.sd = true ∨ s.aon.transport = true ∨ s.seq.st = 4 ∨ s.seq.st = 6 →
    Completes (.beaconSafeShutdown w) s (fun t => t.seq = s.seq ∧ t.aon.bcnStat = 2)) ∧
  (∀ s t0, s.aon.bcnSafe = some (t0, false) → s.elapsed t0 ms1 = true → s.bcnSeq ≠ 4 → s.ballArbiter = false → s.aon.demoted = false →
    Completes .beaconShutdownTimeout s (fun t => t.aon.bcnSafe = none ∧ t.aon.demoted = true)) ∧
  (∀ s t0, s.aon.bcnSafe = some (t0, true) → s.elapsed t0 (10 * sec1) = true → s.bcnSeq ≠ 0 → s.bcnSeq ≠ 5 → s.ballArbiter = false →
    s.aon.demoted = false →
    Completes .beaconShutdownTimeout s (fun t => t.aon.bcnSafe = none ∧ t.aon.demoted = true)) ∧
  (∀ s t0, s.aon.bcnSafe = some (t0, true) → s.bcnSeq = 0 ∨ s.bcnSeq = 5 →
    Completes .beaconShutdownTimeout s (fun t => t = s.modAon (fun a => { a with bcnSafe := none }))) ∧
  (∀ w s, s.aon.vaon = true → bcnCode w = 3 → s.runs .recI = true → s.nvp.save = none →
    Completes (.beaconSave w) s (fun t => t.nvp.save = some ⟨5, s.time, true, none, s.opTime, false, s.slotPayload 5, false, none⟩ ∧ t.aon.bcnStat = 1)) ∧
  (∀ w s, s.aon.vaon = true → bcnCode w = 3 → s.runs .recI = false →
    Completes (.beaconSave w) s (fun t => t.nvp = s.nvp ∧ t.aon.bcnStat = 3)) ∧
  (∀ w s, s.aon.vaon = true → bcnCode w = 4 → (s.cleared 0x1004).count = 0 →
    Completes (.beaconClearAttn w) s (fun t => t.evt.sev = 0 ∧ t.evt.src = 0 ∧ t.evt.cnt = .zero ∧ t.aon.bcnFault = 0 ∧ t.aon.bcnAttn = false ∧
      t.aon.bcnCmd = w ∧ t.aon.bcnStat = 1)) ∧
  (∀ w s, s.aon.vaon = true → bcnCode w = 0 →
    Completes (.beaconBadWord w) s (fun t => t.aon.bcnCmd = w ∧ t.aon.bcnStat = 4 ∧ t.seq = s.seq ∧ t.sys = s.sys ∧ t.nvp = s.nvp))

/-- A step runs the front command; with none waiting the clock advances by one unit and boot step 5 ends once the
management cores run (the model's choice, log 1). With a command at the front of its queue, a step is exactly that
command's effect on the state whose queue is the rest. On an empty queue a step answers the same state one unit of
1/64 ns later, with boot step 5 done where the management cores run: that is the model's own clock, log entry 1; no
rule of the spec says how commands are spread over time. (R11, R12) The clock that moves on an empty queue is the
model's choice (log 1), and so is that boot step 5 ends there (log 79). -/
def Obligations.StepRunsFrontCommand : Prop :=
  (∀ c rest s, s.pending = c :: rest → step s = exec c { s with pending := rest }) ∧
  (∀ s, s.pending = [] → step s = .next { s with
    time := s.time + 1
    sys := if s.sys.step = 5 ∧ s.runs .mgt = true then { s.sys with step := 6 } else s.sys })

/-- A happening that is commanded before its instant comes about at that instant (the model's choice, log 4). Where the
other conditions of a timed happening hold, the command answers what it answers at the instant that its rule sets: the
end of a conversion or an aperture; a node's delays, settle time and fall interval; a lost slot link or claim, the
start of a slot's hold; the loss of the Chezon link; the watchdog, the shutdown's reset, the demotion's end; a token,
a frozen trace, a nonce's age, an hour of operating time. The rules give the instants; that a command given earlier
moves the clock on to its instant is the model's choice, log entry 4. (R29, R36, R187, R191, R209, R222, R238, R244,
R258, R286, R321, R334) The instants are the rules'; that a command given earlier waits for its instant is the model's
choice (log 4). -/
def Obligations.TimedCommandsWait : Prop :=
  (∀ j s a near rest, s.ctlWorks = true → s.pwm.ph[j].aps = (a, near) :: rest → Waits (.phaseSampleAperture j) s a) ∧
  (∀ (ch : Fin 34) code s (c : Fin 130) cv, c.val = ch.val → s.runs .ctl = true → s.sns.ch[c].conv = some cv →
    Waits (.snsConversionComplete ch code) s cv.due) ∧
  (∀ k s t, s.seqRuns = true → s.drives = true → s.nodeEn k = true → s.seq.n[k].st = .wait → s.shutting k = false →
    s.seq.n[k].dly = some t → Waits (.nodeOnDelayEnd k) s (t + s.fld (F.SEQ_N_DLY.on_dly k) * us1)) ∧
  (∀ k s, s.seqRuns = true → s.drives = true → s.nodeEn k = true → s.seq.n[k].st = .settle → s.seq.n[k].pg = true →
    s.shutting k = false → Waits (.nodeSettleEnd k) s (s.seq.n[k].settle + s.fld (F.SEQ_N_TIM.settle_us k) * us1)) ∧
  (∀ k s, s.seqRuns = true → s.drives = true → s.nodeEn k = true → s.seq.n[k].st = .falling → s.seq.n[k].off = false →
    Waits (.fallTimeout k) s (s.seq.n[k].fall + (s.seq.n[k].fallCnt + 1) * s.fld (F.SEQ_N_FALL.fall_to k) * 100 * us1)) ∧
  (∀ k s t, s.works = true → s.runs .lnk = true → s.slt[k].lstate = 2 → s.slt[k].last = some t →
    Waits (.linkLost k) s (t + 15500 * ns1)) ∧
  (∀ k s t, s.slot[k].run = .normal → s.slot[k].last = some t → Waits (.slotHoldBegin k) s (t + (15500 * ns1 + 1))) ∧
  (∀ j p s t, s.stage[j].last[p] = some t → Waits (.stageClaimExpiry j p) s (t + 3200 * ns1)) ∧
  (∀ s, s.runs .per = true → s.linkOn = true → Waits .chezonLinkDown s (s.red.pktAt + 20 * us1)) ∧
  (∀ s, s.runs .mgt = true → s.sys.wdtArmed = true → Waits .watchdogExpiry s (s.sys.wdtAt + s.fld F.SYS_WDT.ms * ms1)) ∧
  (∀ s, s.aon.vaon = true → s.aon.sd = true → s.sys.inReset = false → Waits .thermalResetHold s (s.aon.sdAt + us1)) ∧
  (∀ s, s.aon.bcnLow = true → Waits .beaconDemoteEnd s (s.aon.bcnLowAt + 100 * us1)) ∧
  (∀ s, s.runs .recI = true → Waits .tokenRefill s (s.bbx.refillAt + 1250 * us1)) ∧
  (∀ s r a, s.runs .recI = true → s.bbx.post = some (r, a) → Waits .traceFreeze s a) ∧
  (∀ s, s.bbx.nvalid = true → Waits .nonceExpiry s (s.bbx.nonceAt + 60 * sec1)) ∧
  (∀ s, s.batWorks = true → nextMul s.bat.hourAt opHour ≤ 0xFFFFFFFFFFFF → Waits .batHour s (s.opAt (nextMul s.bat.hourAt opHour)))

/-- The reset state has its stores in canonical form and no command waiting. At State.reset every addressed store
(parameter store, fuse array, coefficient and curve banks, impedance tables, event store, flash, registers) is in its
canonical form, and the queue is empty. The form is the model's own. (15_parameter_store.md, 13_fuse_array.md,
16_black_box.md) What the fuse array and the working state hold at State.reset is the model's choice (log 8, 66). -/
def Obligations.ResetStoresInForm : Prop :=
  State.reset.StoresWf ∧ State.reset.pending = []

/-- No command ever stops the machine; none touches the queue or runs the clock back. In every state every command answers
a next state: none faults and none is refused. The queue of waiting commands is as it was, and the clock is not
earlier than it was (a command that waits for its instant moves it on, log 4). (R11, R393, R394) That a command whose
conditions do not hold comes about not at all, and answers the same state, is the model's choice (log 4). -/
def Obligations.EveryCommandAnswers : Prop :=
  ∀ c s, ∃ t, exec c s = .next t ∧ s.time ≤ t.time ∧ t.pending = s.pending

/-- Every step keeps every addressed store in its canonical form. From any state whose addressed stores are in canonical
form (keys strictly rising, nothing listed that reads as an unlisted key), whatever the front command, a step leads to
a state whose stores are in that form: the parameter store and its saved event stores, the fuse array, both
coefficient banks, both curve banks, the impedance tables, the event store, the flash and the registers.
(15_parameter_store.md, 13_fuse_array.md, 16_black_box.md, 21_register_map.md) The canonical form is the model's own
way to hold the addressed memories. -/
def Obligations.EveryStepKeepsStores : Prop :=
  ∀ s t, s.StoresWf → step s = .next t → t.StoresWf

/-- Mode, epoch and configuration lock change only by the commands that may change them. A command that changes the mode
is a mode change's own step, the boot's image verification or a reset; one that changes the epoch is a TAKE_N verdict,
an accepted snapshot, the role decision or a cold reset; one that changes the configuration lock is the lock's own
write or a cold reset. (R290, R291, R293, R202, R6, R279) -/
def Obligations.AuthorityChangesOnlyBy : Prop :=
  ∀ c s t, exec c s = .next t →
    (t.sys.mode ≠ s.sys.mode →
      ((∃ a b d, c = .bootImageVerified a b d) ∨ c = .overlaySwap ∨ c = .transportOverlayApply ∨ (∃ a, c = .sysRstWarm a) ∨
        (∃ a, c = .supplyPgLost a) ∨ c = .refLost ∨ c = .watchdogExpiry ∨ c = .thermalResetHold ∨ c = .transportGate ∨
        c = .rstNAssert ∨ (∃ a, c = .sysRstCold a) ∨ c = .transportWake ∨ c = .vaonLost)) ∧
    (t.aon.epoch ≠ s.aon.epoch →
      (c = .takeNAccept ∨ (∃ a b, c = .snapshotReceived a b) ∨ c = .roleDecision ∨ c = .rstNAssert ∨
        (∃ a, c = .sysRstCold a) ∨ c = .transportWake ∨ c = .vaonLost)) ∧
    (t.sys.lock ≠ s.sys.lock →
      (c = .configLock ∨ c = .rstNAssert ∨ (∃ a, c = .sysRstCold a) ∨ c = .transportWake ∨ c = .vaonLost))

/-- Fuses, the parameter store and the flash change only by their own commands. A command that changes a word of the fuse
array ends a fuse command, ends a trial (here or, by its packet, in the other unit) or is boot step 9 (ADVANCE), or
cuts a pulse (power fail, thermal shutdown, a reset); one that changes a word of the parameter store ends a commit, a
ring slot or a save, or cuts a commit; one that changes the flash is an operation of field update that carries data,
here or by its packet in the other unit. (R263, R268, R274, R276, R302, R306, R309, R338, R340) -/
def Obligations.StoredChangesOnlyBy : Prop :=
  ∀ c s t, exec c s = .next t →
    (t.otp.array ≠ s.otp.array →
      ((∃ a b d, c = .otpCommandComplete a b d) ∨ c = .trialEnd ∨ c = .bootStep9 ∨ (∃ a, c = .powerFailAssert a) ∨
        (∃ a, c = .sysRstWarm a) ∨ (∃ a, c = .supplyPgLost a) ∨ c = .refLost ∨ c = .watchdogExpiry ∨ c = .thermalResetHold ∨
        c = .transportGate ∨ c = .rstNAssert ∨ (∃ a, c = .sysRstCold a) ∨ c = .transportWake ∨ c = .vaonLost ∨
        (∃ a, c = .chezonPacketReceived a) ∨ c = .thermalShutdown)) ∧
    (t.nvp.store ≠ s.nvp.store →
      ((∃ a, c = .nvpCommitDone a) ∨ c = .ringSlotComplete ∨ (∃ a, c = .powerFailAssert a) ∨ (∃ a, c = .sysRstWarm a) ∨
        (∃ a, c = .supplyPgLost a) ∨ c = .refLost ∨ c = .watchdogExpiry ∨ c = .thermalResetHold ∨ c = .transportGate ∨
        c = .rstNAssert ∨ (∃ a, c = .sysRstCold a) ∨ c = .transportWake ∨ c = .vaonLost ∨ (∃ a, c = .saveComplete a))) ∧
    (t.upd.flash ≠ s.upd.flash →
      (c = .updChunk ∨ c = .updEnd ∨ (∃ a b, c = .updOp a b) ∨ (∃ a, c = .chezonPacketReceived a)))

/-- The configuration in force changes only by writes, loads, overlays and the named hardware writes. A command that
changes a register field in force is a register write, a shadow boundary, an overlay, a configuration load, the
headbox commit or a reset (that of REC after a save or a slot write, and that of the islands a role gates, among
them), or one of the hardware's own writes: an enable (ring, string), the two-wire transfer, data and attention
fields, the raw-read address, the group a fuse lock names, RED_CTL.degrade at a demotion and for a lone unit. (R4,
R21, R114, R284, R295, R346, R357) -/
def Obligations.ConfigurationChangesOnlyBy : Prop :=
  ∀ c s t, exec c s = .next t →
    (t.regs.act ≠ s.regs.act →
      ((∃ a b, c = .regWrite a b) ∨ c = .shadowWriteApply ∨ c = .overlaySwap ∨ c = .transportOverlayApply ∨
        c = .configLoad ∨ c = .mgmtRestartComplete ∨ c = .hbxCommitSwap ∨ (∃ a b, c = .ringEnable a b) ∨
        (∃ a, c = .batEnable a) ∨ (∃ a b, c = .twpGo a b) ∨ (∃ a b, c = .twpTransactionDone a b) ∨
        (∃ a b d, c = .twpAttnRequest a b d) ∨ (∃ a, c = .nvpRawRead a) ∨ c = .demoteNAccept ∨ (∃ a, c = .beaconDemote a) ∨
        c = .beaconShutdownTimeout ∨ c = .lonePeerHigherTimeout ∨ (∃ a, c = .hstReset a) ∨ (∃ a, c = .sysRstWarm a) ∨
        (∃ a, c = .supplyPgLost a) ∨ c = .refLost ∨ c = .watchdogExpiry ∨ c = .thermalResetHold ∨ c = .transportGate ∨
        c = .rstNAssert ∨ (∃ a, c = .sysRstCold a) ∨ c = .transportWake ∨ c = .vaonLost ∨ c = .roleDecision ∨
        (∃ a, c = .otpLock a) ∨ (∃ a, c = .saveComplete a) ∨ c = .ringSlotComplete))

/-- A role changes only by a verdict, a demotion, a role decision or a reset. A command that changes the role is a
demotion (DEMOTE_N, thermal shutdown, beacon DEMOTE or its shutdown watch), which leads to STANDBY; a TAKE_N verdict,
which leads from STANDBY to ACTIVE; the role decision; or a reset. (R396, R214, R215, R228, R258, R288, R390, R278)
The role of a demoted SOLO unit is the model's reading (log 62). -/
def Obligations.RoleChangesOnlyBy : Prop :=
  ∀ c s t, exec c s = .next t → t.sys.role ≠ s.sys.role →
    ((c = .demoteNAccept ∨ c = .thermalShutdown ∨ (∃ a, c = .beaconDemote a) ∨ c = .beaconShutdownTimeout) ∧ t.sys.role = .standby) ∨
    (c = .takeNAccept ∧ s.sys.role = .standby ∧ t.sys.role = .active) ∨
    (c = .roleDecision ∨ (∃ a, c = .sysRstWarm a) ∨ (∃ a, c = .supplyPgLost a) ∨ c = .refLost ∨ c = .watchdogExpiry ∨
        c = .thermalResetHold ∨ c = .transportGate ∨ c = .rstNAssert ∨ (∃ a, c = .sysRstCold a) ∨ c = .transportWake ∨
        c = .vaonLost)

/-- No command ever clears a fuse bit. From a state whose fuse array is in canonical form, whatever the command (a reset
that cuts a pulse and a power failure among them), the fuse array stays in canonical form, and every bit that reads 1
in a copy, at normal or at margin read, reads 1 there afterwards. (R263, R268, R275, R276) -/
def Obligations.FuseBitsNeverClear : Prop :=
  ∀ c s t, s.otp.wf = true → exec c s = .next t → t.otp.wf = true ∧ ∀ w,
    cellGet 0 s.otp.aN w &&& cellGet 0 t.otp.aN w = cellGet 0 s.otp.aN w ∧ cellGet 0 s.otp.aM w &&& cellGet 0 t.otp.aM w = cellGet 0 s.otp.aM w ∧
    cellGet 0 s.otp.bN w &&& cellGet 0 t.otp.bN w = cellGet 0 s.otp.bN w ∧ cellGet 0 s.otp.bM w &&& cellGet 0 t.otp.bM w = cellGet 0 s.otp.bM w

/-- Resets, power and boot: what each command leaves as it was. Where one of these commands (resets, power and boot)
answers a next state, every part of the machine that its clause does not list stands as it was: the queue always, the
clock where it is not listed (it is where a happening waits for its instant, a choice of the model, log 4), and of
each block the registers, counters, memories and working state that the clause does not name. A clause that lists a
block but not the own part of it (configuration lock, mode, role, epoch, fuse array, parameter store, flash,
configuration registers) leaves that part as it was. (R278, R279, R280, R281, R284, R286, R288, R306) -/
def Obligations.ResetFrames : Prop :=
  (∀ a b s t, exec (.aonPowerGood a b) s = .next t →
    SameBut [.regs, .chans, .aon, .sys, .otp] s t) ∧
  (∀ s t, exec .rstNAssert s = .next t →
    SameBut [.freeCtr, .tick, .regs, .chans, .aon, .sys, .sns, .law, .pwm, .hbx, .dkl, .vat, .bat, .slt, .red, .arb, .seq, .thm,
      .otp, .nvp, .bbx, .upd, .hst, .evt, .twp, .lock, .mode, .role, .epoch, .fuse, .store, .config] s t) ∧
  (∀ s t, exec .rstNRelease s = .next t →
    SameBut [.regs, .chans, .aon, .sys, .otp] s t) ∧
  (∀ a s t, exec (.sysRstCold a) s = .next t →
    SameBut [.freeCtr, .tick, .regs, .chans, .aon, .sys, .sns, .law, .pwm, .hbx, .dkl, .vat, .bat, .slt, .red, .arb, .seq, .thm,
      .otp, .nvp, .bbx, .upd, .hst, .evt, .twp, .lock, .mode, .role, .epoch, .fuse, .store, .config] s t) ∧
  (∀ a s t, exec (.sysRstWarm a) s = .next t →
    SameBut [.freeCtr, .tick, .regs, .chans, .aon, .sys, .sns, .law, .pwm, .hbx, .dkl, .vat, .bat, .slt, .red, .arb, .seq, .thm,
      .otp, .nvp, .bbx, .upd, .hst, .evt, .twp, .mode, .role, .fuse, .store, .config] s t) ∧
  (∀ a s t, exec (.supplyPgLost a) s = .next t →
    SameBut [.freeCtr, .tick, .regs, .chans, .aon, .sys, .sns, .law, .pwm, .hbx, .dkl, .vat, .bat, .slt, .red, .arb, .seq, .thm,
      .otp, .nvp, .bbx, .upd, .hst, .evt, .twp, .mode, .role, .fuse, .store, .config] s t) ∧
  (∀ s t, exec .supplyPgReturn s = .next t →
    SameBut [.aon] s t) ∧
  (∀ s t, exec .refLost s = .next t →
    SameBut [.freeCtr, .tick, .regs, .chans, .aon, .sys, .sns, .law, .pwm, .hbx, .dkl, .vat, .bat, .slt, .red, .arb, .seq, .thm,
      .otp, .nvp, .bbx, .upd, .hst, .evt, .twp, .mode, .role, .fuse, .store, .config] s t) ∧
  (∀ s t, exec .refReturn s = .next t →
    SameBut [.aon] s t) ∧
  (∀ a b s t, exec (.coreRelease a b) s = .next t →
    SameBut [.aon, .sys] s t) ∧
  (∀ s t, exec .pllLock s = .next t →
    SameBut [.freeCtr, .aon, .sys, .sns] s t) ∧
  (∀ a b d s t, exec (.bootImageVerified a b d) s = .next t →
    SameBut [.regs, .chans, .sys, .otp, .nvp, .bbx, .upd, .mode] s t) ∧
  (∀ s t, exec .configLoad s = .next t →
    SameBut [.regs, .chans, .aon, .sys, .law, .pwm, .hbx, .bat, .slt, .slot, .seq, .thm, .nvp, .bbx, .upd, .hst, .twp, .config] s t) ∧
  (∀ a s t, exec (.selfTestComplete a) s = .next t →
    SameBut [.regs, .chans, .sys, .nvp, .upd] s t) ∧
  (∀ s t, exec .roleDecision s = .next t →
    SameBut [.time, .tick, .regs, .chans, .aon, .sys, .sns, .law, .pwm, .hbx, .dkl, .vat, .bat, .slt, .slot, .red, .arb, .thm, .upd,
      .hst, .twp, .role, .epoch, .config] s t) ∧
  (∀ s t, exec .bootStep9 s = .next t →
    SameBut [.freeCtr, .regs, .chans, .aon, .sys, .seq, .otp, .fuse] s t) ∧
  (∀ s t, exec .watchdogExpiry s = .next t →
    SameBut [.time, .freeCtr, .tick, .regs, .chans, .aon, .sys, .sns, .law, .pwm, .hbx, .dkl, .vat, .bat, .slt, .red, .arb, .seq,
      .thm, .otp, .nvp, .bbx, .upd, .hst, .evt, .twp, .mode, .role, .fuse, .store, .config] s t) ∧
  (∀ s t, exec .transportWake s = .next t →
    SameBut [.freeCtr, .tick, .regs, .chans, .aon, .sys, .sns, .law, .pwm, .hbx, .dkl, .vat, .bat, .slt, .red, .arb, .seq, .thm,
      .otp, .nvp, .bbx, .upd, .hst, .evt, .twp, .lock, .mode, .role, .epoch, .fuse, .store, .config] s t) ∧
  (∀ s t, exec .vaonLost s = .next t →
    SameBut [.freeCtr, .tick, .regs, .chans, .aon, .sys, .sns, .law, .pwm, .hbx, .dkl, .vat, .bat, .slt, .red, .arb, .seq, .thm,
      .otp, .nvp, .bbx, .upd, .hst, .evt, .twp, .lock, .mode, .role, .epoch, .fuse, .store, .config] s t)

/-- Mode requests, overlays, TRANSPORT, watchdog kick and lock: what each command leaves as it was. Where one of these
commands (mode requests, overlays, TRANSPORT, watchdog kick and lock) answers a next state, every part of the machine
that its clause does not list stands as it was: the queue always, the clock where it is not listed (it is where a
happening waits for its instant, a choice of the model, log 4), and of each block the registers, counters, memories
and working state that the clause does not name. A clause that lists a block but not the own part of it (configuration
lock, mode, role, epoch, fuse array, parameter store, flash, configuration registers) leaves that part as it was.
(R290, R291, R292, R293, R295, R286, R6) -/
def Obligations.ModeFrames : Prop :=
  (∀ s t, exec .wdtKick s = .next t →
    SameBut [.sys] s t) ∧
  (∀ s t, exec .configLock s = .next t →
    SameBut [.sys, .lock] s t) ∧
  (∀ a s t, exec (.modeRequest a) s = .next t →
    SameBut [.regs, .chans, .sys, .seq, .nvp, .hst] s t) ∧
  (∀ s t, exec .overlaySwap s = .next t →
    SameBut [.regs, .chans, .sys, .law, .pwm, .hbx, .slt, .slot, .seq, .thm, .otp, .nvp, .bbx, .upd, .hst, .twp, .mode, .config] s t) ∧
  (∀ s t, exec .holdupOverlayRequest s = .next t →
    SameBut [.regs, .chans, .sys, .seq, .nvp, .hst] s t) ∧
  (∀ s t, exec .serviceOverlayRequest s = .next t →
    SameBut [.regs, .chans, .sys, .seq, .nvp] s t) ∧
  (∀ s t, exec .transportOverlayApply s = .next t →
    SameBut [.regs, .chans, .sys, .law, .pwm, .hbx, .slt, .slot, .seq, .thm, .otp, .nvp, .bbx, .upd, .hst, .twp, .mode, .config] s t) ∧
  (∀ s t, exec .transportGate s = .next t →
    SameBut [.freeCtr, .tick, .regs, .chans, .aon, .sys, .sns, .law, .pwm, .hbx, .dkl, .vat, .bat, .slt, .red, .arb, .seq, .thm,
      .otp, .nvp, .bbx, .upd, .hst, .evt, .twp, .mode, .role, .fuse, .config] s t) ∧
  (∀ s t, exec .batTransportPrep s = .next t →
    SameBut [.sys, .vat, .bat] s t) ∧
  (∀ s t, exec .batTransportRelease s = .next t →
    SameBut [.time, .regs, .chans, .sys, .bat, .nvp] s t)

/-- Register accesses: what each command leaves as it was. Where one of these commands (register accesses) answers a next
state, every part of the machine that its clause does not list stands as it was: the queue always, the clock where it
is not listed (it is where a happening waits for its instant, a choice of the model, log 4), and of each block the
registers, counters, memories and working state that the clause does not name. A clause that lists a block but not the
own part of it (configuration lock, mode, role, epoch, fuse array, parameter store, flash, configuration registers)
leaves that part as it was. (R4, R6, R403, R405, R410, R399) -/
def Obligations.RegisterFrames : Prop :=
  (∀ a b s t, exec (.regWrite a b) s = .next t →
    SameBut [.regs, .chans, .law, .pwm, .hbx, .bat, .slt, .slot, .seq, .thm, .otp, .bbx, .upd, .hst, .evt, .twp, .config] s t) ∧
  (∀ s t, exec .shadowWriteApply s = .next t →
    SameBut [.regs, .chans, .law, .pwm, .hbx, .slt, .slot, .seq, .thm, .upd, .hst, .twp, .config] s t) ∧
  (∀ a b s t, exec (.gatedAccess a b) s = .next t →
    SameBut [.regs, .chans] s t) ∧
  (∀ a s t, exec (.latchedPairRead a) s = .next t →
    SameBut [.regs, .sns] s t) ∧
  (∀ a s t, exec (.counterClear a) s = .next t →
    SameBut [.regs, .aon, .law, .pwm, .hbx, .dkl, .vat, .bat, .slt, .red, .arb, .seq, .nvp, .bbx, .upd, .hst, .twp] s t) ∧
  (∀ a b s t, exec (.ringEnable a b) s = .next t →
    SameBut [.regs, .hst, .config] s t)

/-- Sense samples, the shelf tick, the laws and the phases: what each command leaves as it was. Where one of these
commands (sense samples, the shelf tick, the laws and the phases) answers a next state, every part of the machine that
its clause does not list stands as it was: the queue always, the clock where it is not listed (it is where a happening
waits for its instant, a choice of the model, log 4), and of each block the registers, counters, memories and working
state that the clause does not name. A clause that lists a block but not the own part of it (configuration lock, mode,
role, epoch, fuse array, parameter store, flash, configuration registers) leaves that part as it was. (R17, R25, R33,
R49, R61, R64, R79, R86) -/
def Obligations.SenseLawFrames : Prop :=
  (∀ s t, exec .shelfTick s = .next t →
    SameBut [.time, .tick, .regs, .chans, .aon, .sns, .law, .pwm, .hbx, .slt, .red] s t) ∧
  (∀ s t, exec .dspSnapshot s = .next t →
    SameBut [.time, .freeCtr, .regs, .chans, .sys, .law, .pwm, .hbx, .dkl, .vat, .slt, .red, .seq, .nvp, .upd] s t) ∧
  (∀ s t, exec .huExit s = .next t →
    SameBut [.time, .regs, .chans, .sys, .vat, .upd] s t) ∧
  (∀ s t, exec .hbxResultsRelease s = .next t →
    SameBut [.time, .chans, .hbx, .dkl] s t) ∧
  (∀ s t, exec .resultsDelivery s = .next t →
    SameBut [.time, .pwm, .hbx, .dkl, .red] s t) ∧
  (∀ s t, exec .payloadFreeze s = .next t →
    SameBut [.time, .regs, .chans, .hbx, .slt] s t) ∧
  (∀ s t, exec .hbxPeriodChange s = .next t →
    SameBut [.hbx] s t) ∧
  (∀ a s t, exec (.phaseSampleAperture a) s = .next t →
    SameBut [.time, .sns, .pwm] s t) ∧
  (∀ a s t, exec (.idleSample a) s = .next t →
    SameBut [.time, .sns, .pwm] s t) ∧
  (∀ a s t, exec (.railVoltageConversion a) s = .next t →
    SameBut [.time, .sns] s t) ∧
  (∀ s t, exec .busConversion s = .next t →
    SameBut [.time, .sns] s t) ∧
  (∀ a s t, exec (.scanSample a) s = .next t →
    SameBut [.time, .regs, .sns, .seq] s t) ∧
  (∀ a b s t, exec (.ntcIdSample a b) s = .next t →
    SameBut [.time, .sns] s t) ∧
  (∀ a b s t, exec (.snsConversionComplete a b) s = .next t →
    SameBut [.time, .regs, .sns, .law, .pwm] s t) ∧
  (∀ a b s t, exec (.cbcCrossing a b) s = .next t →
    SameBut [.regs, .chans, .pwm, .stage] s t) ∧
  (∀ a s t, exec (.lawTrigger a) s = .next t →
    SameBut [.time, .regs, .chans, .aon, .law, .pwm, .hbx, .dkl, .seq] s t) ∧
  (∀ a s t, exec (.lawOutputWrite a) s = .next t →
    SameBut [.regs, .chans, .law, .pwm] s t) ∧
  (∀ a s t, exec (.lawSnapRequest a) s = .next t →
    SameBut [.law] s t) ∧
  (∀ a b s t, exec (.coeffShadowWrite a b) s = .next t →
    SameBut [.regs, .law] s t) ∧
  (∀ a s t, exec (.lawCommitRequest a) s = .next t →
    SameBut [.law] s t) ∧
  (∀ a s t, exec (.lawBankSwap a) s = .next t →
    SameBut [.regs, .chans, .law] s t) ∧
  (∀ a s t, exec (.lawShadowCopyDone a) s = .next t →
    SameBut [.law] s t) ∧
  (∀ a s t, exec (.pwmPeriodStart a) s = .next t →
    SameBut [.time, .regs, .chans, .sns, .pwm, .stage] s t) ∧
  (∀ a s t, exec (.phaseShed a) s = .next t →
    SameBut [.regs, .chans, .pwm] s t) ∧
  (∀ a s t, exec (.phaseAdd a) s = .next t →
    SameBut [.regs, .chans, .pwm] s t) ∧
  (∀ a s t, exec (.phaseOpenDetect a) s = .next t →
    SameBut [.regs, .chans, .pwm] s t) ∧
  (∀ a s t, exec (.phaseSenseStuck a) s = .next t →
    SameBut [.regs, .chans, .pwm] s t) ∧
  (∀ a s t, exec (.sumCheckFail a) s = .next t →
    SameBut [.regs, .chans, .pwm] s t) ∧
  (∀ a s t, exec (.phaseAssignmentApply a) s = .next t →
    SameBut [.regs, .chans, .pwm] s t) ∧
  (∀ a s t, exec (.pwmEdge a) s = .next t →
    SameBut [.time, .regs, .chans, .pwm, .stage] s t)

/-- Rails: what each command leaves as it was. Where one of these commands (rails) answers a next state, every part of the
machine that its clause does not list stands as it was: the queue always, the clock where it is not listed (it is
where a happening waits for its instant, a choice of the model, log 4), and of each block the registers, counters,
memories and working state that the clause does not name. A clause that lists a block but not the own part of it
(configuration lock, mode, role, epoch, fuse array, parameter store, flash, configuration registers) leaves that part
as it was. (R97, R98, R101, R102, R103, R104) -/
def Obligations.RailFrames : Prop :=
  (∀ s t, exec .syncInEdge s = .next t →
    SameBut [.regs, .chans, .pwm] s t) ∧
  (∀ s t, exec .syncLost s = .next t →
    SameBut [.time, .regs, .chans, .pwm] s t) ∧
  (∀ s t, exec .rampUpdate s = .next t →
    SameBut [.regs, .chans, .law, .pwm] s t) ∧
  (∀ a s t, exec (.startShort a) s = .next t →
    SameBut [.regs, .chans, .aon, .law, .pwm, .seq] s t) ∧
  (∀ a s t, exec (.hiccupEnd a) s = .next t →
    SameBut [.time, .law, .pwm] s t) ∧
  (∀ a b s t, exec (.trackEdge a b) s = .next t →
    SameBut [.chans, .pwm] s t) ∧
  (∀ a s t, exec (.trackStatic a) s = .next t →
    SameBut [.time, .chans, .pwm] s t) ∧
  (∀ a s t, exec (.railEnableChange a) s = .next t →
    SameBut [.regs, .chans, .law, .pwm] s t) ∧
  (∀ a s t, exec (.railPauseChange a) s = .next t →
    SameBut [.regs, .chans, .law, .pwm] s t)

/-- Headbox, deckle, hold-up and battery: what each command leaves as it was. Where one of these commands (headbox,
deckle, hold-up and battery) answers a next state, every part of the machine that its clause does not list stands as
it was: the queue always, the clock where it is not listed (it is where a happening waits for its instant, a choice of
the model, log 4), and of each block the registers, counters, memories and working state that the clause does not
name. A clause that lists a block but not the own part of it (configuration lock, mode, role, epoch, fuse array,
parameter store, flash, configuration registers) leaves that part as it was. (R108, R113, R117, R134, R139, R151,
R160, R174) -/
def Obligations.EnergyFrames : Prop :=
  (∀ s t, exec .hbxCommitRequest s = .next t →
    SameBut [.hbx] s t) ∧
  (∀ s t, exec .hbxCommitSwap s = .next t →
    SameBut [.regs, .chans, .law, .pwm, .hbx, .slt, .slot, .thm, .upd, .hst, .twp, .config] s t) ∧
  (∀ s t, exec .hbxStagedCopyDone s = .next t →
    SameBut [.regs, .hbx] s t) ∧
  (∀ a b s t, exec (.costCurveWrite a b) s = .next t →
    SameBut [.regs, .hbx] s t) ∧
  (∀ s t, exec .derateClear s = .next t →
    SameBut [.hbx] s t) ∧
  (∀ s t, exec .shedClear s = .next t →
    SameBut [.dkl] s t) ∧
  (∀ a b s t, exec (.stringStrobe a b) s = .next t →
    SameBut [.regs, .chans, .sns, .pwm, .vat, .bat] s t) ∧
  (∀ a s t, exec (.zdMeasurement a) s = .next t →
    SameBut [.chans, .bat] s t) ∧
  (∀ a s t, exec (.presenceChange a) s = .next t →
    SameBut [.regs, .chans, .vat, .bat, .nvp] s t) ∧
  (∀ s t, exec .batBlock s = .next t →
    SameBut [.chans, .vat, .bat, .red] s t) ∧
  (∀ a s t, exec (.eodDeclare a) s = .next t →
    SameBut [.regs, .chans, .vat, .bat, .nvp] s t) ∧
  (∀ a s t, exec (.eocDeclare a) s = .next t →
    SameBut [.regs, .chans, .vat, .bat, .nvp] s t) ∧
  (∀ s t, exec .batSecond s = .next t →
    SameBut [.regs, .chans, .bat] s t) ∧
  (∀ s t, exec .batHour s = .next t →
    SameBut [.time, .chans, .bat] s t) ∧
  (∀ s t, exec .batAgeTick s = .next t →
    SameBut [.time, .regs, .chans, .bat, .nvp] s t) ∧
  (∀ a s t, exec (.batEnable a) s = .next t →
    SameBut [.regs, .chans, .bat, .config] s t) ∧
  (∀ a s t, exec (.batDisable a) s = .next t →
    SameBut [.regs, .chans, .vat, .bat, .nvp] s t) ∧
  (∀ a s t, exec (.batForget a) s = .next t →
    SameBut [.regs, .chans, .vat, .bat, .nvp] s t)

/-- Slot links and slots: what each command leaves as it was. Where one of these commands (slot links and slots) answers a
next state, every part of the machine that its clause does not list stands as it was: the queue always, the clock
where it is not listed (it is where a happening waits for its instant, a choice of the model, log 4), and of each
block the registers, counters, memories and working state that the clause does not name. A clause that lists a block
but not the own part of it (configuration lock, mode, role, epoch, fuse array, parameter store, flash, configuration
registers) leaves that part as it was. (R178, R187, R189, R190, R194, R196) -/
def Obligations.SlotFrames : Prop :=
  (∀ a b s t, exec (.uplinkFrameReceived a b) s = .next t →
    SameBut [.freeCtr, .regs, .chans, .hbx, .dkl, .slt, .slot, .upd, .hst] s t) ∧
  (∀ a s t, exec (.linkLost a) s = .next t →
    SameBut [.time, .regs, .chans, .slt, .slot, .upd, .hst] s t) ∧
  (∀ a s t, exec (.linkRetrain a) s = .next t →
    SameBut [.chans, .slt, .slot, .upd, .hst] s t) ∧
  (∀ a s t, exec (.mbResend a) s = .next t →
    SameBut [.chans, .slt] s t) ∧
  (∀ a b s t, exec (.mbRequestTimeout a b) s = .next t →
    SameBut [.time, .freeCtr, .slt, .upd, .hst] s t) ∧
  (∀ a s t, exec (.slotFrameApply a) s = .next t →
    SameBut [.slot] s t) ∧
  (∀ a b s t, exec (.slotClaimExpiry a b) s = .next t →
    SameBut [.time, .slt, .slot, .upd, .hst] s t) ∧
  (∀ a s t, exec (.slotHoldExpiry a) s = .next t →
    SameBut [.time, .slot] s t) ∧
  (∀ s t, exec .clmWordStart s = .next t →
    SameBut [.time, .red] s t) ∧
  (∀ a b d s t, exec (.stageClmWordReceived a b d) s = .next t →
    SameBut [.stage] s t) ∧
  (∀ a b s t, exec (.stageClaimExpiry a b) s = .next t →
    SameBut [.time, .stage] s t) ∧
  (∀ a b d s t, exec (.slotDownlinkReceived a b d) s = .next t →
    SameBut [.freeCtr, .slot] s t) ∧
  (∀ a s t, exec (.slotHoldBegin a) s = .next t →
    SameBut [.time, .slot] s t)

/-- Roles, claims, the arbiter and Chezon: what each command leaves as it was. Where one of these commands (roles, claims,
the arbiter and Chezon) answers a next state, every part of the machine that its clause does not list stands as it
was: the queue always, the clock where it is not listed (it is where a happening waits for its instant, a choice of
the model, log 4), and of each block the registers, counters, memories and working state that the clause does not
name. A clause that lists a block but not the own part of it (configuration lock, mode, role, epoch, fuse array,
parameter store, flash, configuration registers) leaves that part as it was. (R202, R207, R213, R214, R215, R217,
R224, R225, R229) -/
def Obligations.RedundancyFrames : Prop :=
  (∀ s t, exec .demoteNAccept s = .next t →
    SameBut [.regs, .chans, .aon, .sys, .law, .slt, .red, .seq, .role, .config] s t) ∧
  (∀ s t, exec .demoteNRelease s = .next t →
    SameBut [.chans, .aon, .red] s t) ∧
  (∀ s t, exec .takeNAccept s = .next t →
    SameBut [.regs, .chans, .aon, .sys, .law, .hbx, .red, .seq, .role, .epoch] s t) ∧
  (∀ s t, exec .heartbeatFormChange s = .next t →
    SameBut [.time, .chans, .aon] s t) ∧
  (∀ a s t, exec (.tickStrobeTimeout a) s = .next t →
    SameBut [.time, .aon] s t) ∧
  (∀ s t, exec .fwLivenessTimeout s = .next t →
    SameBut [.time, .aon] s t) ∧
  (∀ s t, exec .fwLivenessWrite s = .next t →
    SameBut [.aon] s t) ∧
  (∀ a s t, exec (.vhbEdge a) s = .next t →
    SameBut [.chans, .arb] s t) ∧
  (∀ a s t, exec (.hbDeadTimeout a) s = .next t →
    SameBut [.time, .chans, .arb] s t) ∧
  (∀ s t, exec .takeDeferredEval s = .next t →
    SameBut [.time, .arb] s t) ∧
  (∀ s t, exec .takePulseEnd s = .next t →
    SameBut [.time, .arb] s t) ∧
  (∀ a s t, exec (.demoteHoldEnd a) s = .next t →
    SameBut [.time, .arb] s t) ∧
  (∀ a s t, exec (.chezonPacketReceived a) s = .next t →
    SameBut [.freeCtr, .regs, .chans, .aon, .sys, .slt, .red, .seq, .otp, .nvp, .upd, .fuse, .flash] s t) ∧
  (∀ a b s t, exec (.chezonTrained a b) s = .next t →
    SameBut [.chans, .red] s t) ∧
  (∀ a s t, exec (.chezonOneLane a) s = .next t →
    SameBut [.chans, .red] s t) ∧
  (∀ s t, exec .chezonLinkDown s = .next t →
    SameBut [.time, .chans, .sys, .red, .upd] s t) ∧
  (∀ s t, exec .chezonPacketSend s = .next t →
    SameBut [.red] s t) ∧
  (∀ a b d s t, exec (.timeTransfer a b d) s = .next t →
    SameBut [.tick, .regs, .chans, .red] s t) ∧
  (∀ s t, exec .snapshotCapture s = .next t →
    SameBut [.freeCtr, .red] s t) ∧
  (∀ a b s t, exec (.snapshotReceived a b) s = .next t →
    SameBut [.regs, .chans, .aon, .law, .pwm, .red, .epoch] s t) ∧
  (∀ s t, exec .standbyKeepExpiry s = .next t →
    SameBut [.time, .chans, .red] s t) ∧
  (∀ s t, exec .lonePeerHigherTimeout s = .next t →
    SameBut [.time, .regs, .config] s t) ∧
  (∀ s t, exec .drillNow s = .next t →
    SameBut [.chans, .red] s t) ∧
  (∀ s t, exec .drillSchedule s = .next t →
    SameBut [.time, .chans, .red] s t) ∧
  (∀ s t, exec .drillComplete s = .next t →
    SameBut [.time, .chans, .red] s t) ∧
  (∀ s t, exec .chezonTrainingFailed s = .next t →
    SameBut [.red] s t)

/-- The sequencer: what each command leaves as it was. Where one of these commands (the sequencer) answers a next state,
every part of the machine that its clause does not list stands as it was: the queue always, the clock where it is not
listed (it is where a happening waits for its instant, a choice of the model, log 4), and of each block the registers,
counters, memories and working state that the clause does not name. A clause that lists a block but not the own part
of it (configuration lock, mode, role, epoch, fuse array, parameter store, flash, configuration registers) leaves that
part as it was. (R237, R240, R242, R243, R244, R246) -/
def Obligations.SequencerFrames : Prop :=
  (∀ s t, exec .seqStep s = .next t →
    SameBut [.chans, .sys, .seq] s t) ∧
  (∀ a s t, exec (.nodeOnDelayEnd a) s = .next t →
    SameBut [.time, .seq] s t) ∧
  (∀ a s t, exec (.nodeSettleEnd a) s = .next t →
    SameBut [.time, .seq] s t) ∧
  (∀ a s t, exec (.riseTimeout a) s = .next t →
    SameBut [.time, .regs, .chans, .seq] s t) ∧
  (∀ a s t, exec (.nodeOffDelayEnd a) s = .next t →
    SameBut [.time, .seq] s t) ∧
  (∀ a s t, exec (.fallTimeout a) s = .next t →
    SameBut [.time, .regs, .chans, .seq] s t) ∧
  (∀ a s t, exec (.pgChange a) s = .next t →
    SameBut [.regs, .chans, .aon, .seq] s t) ∧
  (∀ s t, exec .seqGo s = .next t →
    SameBut [.seq] s t) ∧
  (∀ s t, exec .seqStop s = .next t →
    SameBut [.chans, .seq] s t) ∧
  (∀ s t, exec .seqRetry s = .next t →
    SameBut [.seq] s t) ∧
  (∀ s t, exec .seqTrip s = .next t →
    SameBut [.regs, .chans, .aon, .seq] s t) ∧
  (∀ s t, exec .seqTripClr s = .next t →
    SameBut [.aon, .seq] s t) ∧
  (∀ s t, exec .restartDelayEnd s = .next t →
    SameBut [.time, .chans, .seq] s t)

/-- Thermal watch and fuse array: what each command leaves as it was. Where one of these commands (thermal watch and fuse
array) answers a next state, every part of the machine that its clause does not list stands as it was: the queue
always, the clock where it is not listed (it is where a happening waits for its instant, a choice of the model, log
4), and of each block the registers, counters, memories and working state that the clause does not name. A clause that
lists a block but not the own part of it (configuration lock, mode, role, epoch, fuse array, parameter store, flash,
configuration registers) leaves that part as it was. (R250, R254, R258, R260, R263, R273, R274, R275) -/
def Obligations.ThermalFuseFrames : Prop :=
  (∀ s t, exec .otpG5Check s = .next t →
    SameBut [.regs, .chans, .otp] s t) ∧
  (∀ a s t, exec (.thmStep a) s = .next t →
    SameBut [.regs, .chans, .aon, .pwm, .hbx, .dkl, .seq, .thm] s t) ∧
  (∀ a s t, exec (.sensorRestored a) s = .next t →
    SameBut [.chans, .thm] s t) ∧
  (∀ a b s t, exec (.diodeConversion a b) s = .next t →
    SameBut [.thm] s t) ∧
  (∀ s t, exec .thmSecond s = .next t →
    SameBut [.regs, .chans, .aon, .pwm, .hbx, .dkl, .seq, .thm] s t) ∧
  (∀ a s t, exec (.aonThermalGate a) s = .next t →
    SameBut [.aon] s t) ∧
  (∀ s t, exec .thermalShutdown s = .next t →
    SameBut [.freeCtr, .chans, .aon, .sys, .slt, .red, .otp, .role, .fuse] s t) ∧
  (∀ s t, exec .thermalResetHold s = .next t →
    SameBut [.time, .freeCtr, .tick, .regs, .chans, .aon, .sys, .sns, .law, .pwm, .hbx, .dkl, .vat, .bat, .slt, .red, .arb, .seq,
      .thm, .otp, .nvp, .bbx, .upd, .hst, .evt, .twp, .mode, .role, .fuse, .store, .config] s t) ∧
  (∀ s t, exec .thermalRestartRelease s = .next t →
    SameBut [.time, .aon] s t) ∧
  (∀ s t, exec .otpArm s = .next t →
    SameBut [.otp] s t) ∧
  (∀ s t, exec .otpProg s = .next t →
    SameBut [.regs, .chans, .otp] s t) ∧
  (∀ a s t, exec (.otpLock a) s = .next t →
    SameBut [.regs, .chans, .otp, .config] s t) ∧
  (∀ s t, exec .otpReadN s = .next t →
    SameBut [.regs, .otp] s t) ∧
  (∀ s t, exec .otpReadM s = .next t →
    SameBut [.regs, .otp] s t) ∧
  (∀ a b d s t, exec (.otpCommandComplete a b d) s = .next t →
    SameBut [.freeCtr, .regs, .chans, .otp, .fuse] s t) ∧
  (∀ s t, exec .otpReread s = .next t →
    SameBut [.time, .regs, .chans, .otp] s t)

/-- Parameter store and black box: what each command leaves as it was. Where one of these commands (parameter store and
black box) answers a next state, every part of the machine that its clause does not list stands as it was: the queue
always, the clock where it is not listed (it is where a happening waits for its instant, a choice of the model, log
4), and of each block the registers, counters, memories and working state that the clause does not name. A clause that
lists a block but not the own part of it (configuration lock, mode, role, epoch, fuse array, parameter store, flash,
configuration registers) leaves that part as it was. (R297, R302, R306, R310, R313, R320, R325, R331, R333) -/
def Obligations.StoreFrames : Prop :=
  (∀ s t, exec .nvpCommitRequest s = .next t →
    SameBut [.nvp] s t) ∧
  (∀ a s t, exec (.nvpCommitDone a) s = .next t →
    SameBut [.regs, .chans, .nvp, .store] s t) ∧
  (∀ a s t, exec (.nvpRawRead a) s = .next t →
    SameBut [.freeCtr, .regs, .chans, .nvp, .config] s t) ∧
  (∀ a s t, exec (.powerFailAssert a) s = .next t →
    SameBut [.freeCtr, .regs, .chans, .aon, .slt, .otp, .nvp, .bbx, .upd, .hst, .evt, .fuse, .store] s t) ∧
  (∀ s t, exec .pfRide s = .next t →
    SameBut [.regs, .chans, .aon, .nvp] s t) ∧
  (∀ s t, exec .hourlySave s = .next t →
    SameBut [.time, .regs, .nvp] s t) ∧
  (∀ s t, exec .nvpSaveRequest s = .next t →
    SameBut [.regs, .nvp] s t) ∧
  (∀ a s t, exec (.saveComplete a) s = .next t →
    SameBut [.freeCtr, .regs, .chans, .nvp, .bbx, .store, .config] s t) ∧
  (∀ s t, exec .nvpRestore s = .next t →
    SameBut [.regs, .chans, .aon, .nvp, .bbx] s t) ∧
  (∀ s t, exec .shadowImageRestore s = .next t →
    SameBut [.regs, .chans, .aon, .nvp, .bbx, .hst, .evt] s t) ∧
  (∀ s t, exec .nvpScrub s = .next t →
    SameBut [.time, .regs, .chans, .nvp] s t) ∧
  (∀ s t, exec .nvpScrubRequest s = .next t →
    SameBut [.regs, .chans, .nvp] s t) ∧
  (∀ s t, exec .bbxEventEnqueue s = .next t →
    SameBut [.freeCtr, .chans, .aon, .bbx, .hst, .evt] s t) ∧
  (∀ s t, exec .bbxRecordWrite s = .next t →
    SameBut [.regs, .chans, .aon, .nvp, .bbx, .hst, .evt] s t) ∧
  (∀ s t, exec .tokenRefill s = .next t →
    SameBut [.time, .bbx] s t) ∧
  (∀ s t, exec .traceRow s = .next t →
    SameBut [.chans, .nvp, .bbx, .hst, .evt] s t) ∧
  (∀ s t, exec .traceFreeze s = .next t →
    SameBut [.time, .nvp, .bbx] s t) ∧
  (∀ a s t, exec (.watermarkDone a) s = .next t →
    SameBut [.nvp, .bbx] s t) ∧
  (∀ s t, exec .bbxSealNow s = .next t →
    SameBut [.regs, .chans, .aon, .nvp, .bbx, .hst, .evt] s t) ∧
  (∀ a b s t, exec (.reamPointerRead a b) s = .next t →
    SameBut [.bbx] s t) ∧
  (∀ a s t, exec (.bbxNonceRequest a) s = .next t →
    SameBut [.bbx] s t) ∧
  (∀ s t, exec .nonceExpiry s = .next t →
    SameBut [.time, .bbx] s t) ∧
  (∀ s t, exec .bbxClear s = .next t →
    SameBut [.regs, .chans, .bbx] s t) ∧
  (∀ s t, exec .bbxRelease s = .next t →
    SameBut [.regs, .chans, .bbx] s t) ∧
  (∀ s t, exec .bbxOpComplete s = .next t →
    SameBut [.regs, .chans, .aon, .nvp, .bbx, .hst, .evt] s t) ∧
  (∀ s t, exec .lockoutEnd s = .next t →
    SameBut [.time, .bbx] s t) ∧
  (∀ s t, exec .ringSlotComplete s = .next t →
    SameBut [.freeCtr, .regs, .chans, .nvp, .bbx, .store, .config] s t)

/-- Field update: what each command leaves as it was. Where one of these commands (field update) answers a next state,
every part of the machine that its clause does not list stands as it was: the queue always, the clock where it is not
listed (it is where a happening waits for its instant, a choice of the model, log 4), and of each block the registers,
counters, memories and working state that the clause does not name. A clause that lists a block but not the own part
of it (configuration lock, mode, role, epoch, fuse array, parameter store, flash, configuration registers) leaves that
part as it was. (R338, R340, R342, R345, R346, R347, R348) -/
def Obligations.UpdateFrames : Prop :=
  (∀ s t, exec .updBegin s = .next t →
    SameBut [.chans, .upd] s t) ∧
  (∀ s t, exec .updChunk s = .next t →
    SameBut [.freeCtr, .chans, .slt, .upd, .flash] s t) ∧
  (∀ s t, exec .updEnd s = .next t →
    SameBut [.freeCtr, .chans, .slt, .upd, .flash] s t) ∧
  (∀ s t, exec .prepareComplete s = .next t →
    SameBut [.chans, .upd] s t) ∧
  (∀ s t, exec .updCommit s = .next t →
    SameBut [.chans, .upd] s t) ∧
  (∀ a s t, exec (.commitWritesDone a) s = .next t →
    SameBut [.regs, .chans, .slt, .nvp, .upd] s t) ∧
  (∀ s t, exec .updActivate s = .next t →
    SameBut [.chans, .upd] s t) ∧
  (∀ s t, exec .activationStep s = .next t →
    SameBut [.freeCtr, .regs, .chans, .slt, .red, .nvp, .upd] s t) ∧
  (∀ s t, exec .updAbort s = .next t →
    SameBut [.regs, .chans, .slt, .nvp, .upd] s t) ∧
  (∀ a s t, exec (.mgmtRestart a) s = .next t →
    SameBut [.regs, .chans, .sys, .nvp, .upd, .twp] s t) ∧
  (∀ s t, exec .mgmtRestartComplete s = .next t →
    SameBut [.regs, .chans, .aon, .sys, .law, .hbx, .bat, .seq, .nvp, .bbx, .upd, .hst, .config] s t) ∧
  (∀ s t, exec .trialEnd s = .next t →
    SameBut [.time, .freeCtr, .regs, .chans, .otp, .nvp, .upd, .fuse] s t) ∧
  (∀ s t, exec .updRollback s = .next t →
    SameBut [.regs, .chans, .nvp, .upd] s t) ∧
  (∀ a s t, exec (.slotActivateTimeout a) s = .next t →
    SameBut [.time, .freeCtr, .chans, .slt, .upd] s t)

/-- Host rings and events: what each command leaves as it was. Where one of these commands (host rings and events) answers
a next state, every part of the machine that its clause does not list stands as it was: the queue always, the clock
where it is not listed (it is where a happening waits for its instant, a choice of the model, log 4), and of each
block the registers, counters, memories and working state that the clause does not name. A clause that lists a block
but not the own part of it (configuration lock, mode, role, epoch, fuse array, parameter store, flash, configuration
registers) leaves that part as it was. (R357, R360, R362, R364, R365, R368, R373, R374, R377) -/
def Obligations.HostFrames : Prop :=
  (∀ a s t, exec (.hstReset a) s = .next t →
    SameBut [.regs, .hst, .evt, .config] s t) ∧
  (∀ a b d e f s t, exec (.pcieLinkChange a b d e f) s = .next t →
    SameBut [.chans, .hst, .evt] s t) ∧
  (∀ a b s t, exec (.commandDoorbell a b) s = .next t →
    SameBut [.chans, .hst] s t) ∧
  (∀ a b s t, exec (.consumerDoorbell a b) s = .next t →
    SameBut [.chans, .hst, .evt] s t) ∧
  (∀ a b s t, exec (.commandFetch a b) s = .next t →
    SameBut [.hst] s t) ∧
  (∀ a s t, exec (.nop a) s = .next t →
    SameBut [.hst] s t) ∧
  (∀ a s t, exec (.nvpRead a) s = .next t →
    SameBut [.regs, .chans, .nvp, .hst] s t) ∧
  (∀ a b s t, exec (.nvpWrite a b) s = .next t →
    SameBut [.regs, .chans, .nvp, .hst] s t) ∧
  (∀ a s t, exec (.nvpSave a) s = .next t →
    SameBut [.regs, .nvp, .hst] s t) ∧
  (∀ a b s t, exec (.mbReq a b) s = .next t →
    SameBut [.slt, .hst] s t) ∧
  (∀ a b s t, exec (.updOp a b) s = .next t →
    SameBut [.freeCtr, .regs, .chans, .slt, .nvp, .upd, .hst, .flash] s t) ∧
  (∀ a s t, exec (.modeReq a) s = .next t →
    SameBut [.regs, .chans, .sys, .seq, .nvp, .hst] s t) ∧
  (∀ a s t, exec (.bbxCopy a) s = .next t →
    SameBut [.bbx, .hst] s t) ∧
  (∀ a s t, exec (.commandComplete a) s = .next t →
    SameBut [.chans, .hst, .evt] s t) ∧
  (∀ a b d s t, exec (.hostDmaError a b d) s = .next t →
    SameBut [.chans, .hst] s t) ∧
  (∀ s t, exec .telemetryCapture s = .next t →
    SameBut [.time, .chans, .hst, .evt] s t) ∧
  (∀ a s t, exec (.msixModerationEnd a) s = .next t →
    SameBut [.time, .hst, .evt] s t) ∧
  (∀ s t, exec .evtSumClear s = .next t →
    SameBut [.aon, .evt] s t) ∧
  (∀ s t, exec .evtTripClear s = .next t →
    SameBut [.aon] s t)

/-- Two-wire ports and the beacon: what each command leaves as it was. Where one of these commands (two-wire ports and the
beacon) answers a next state, every part of the machine that its clause does not list stands as it was: the queue
always, the clock where it is not listed (it is where a happening waits for its instant, a choice of the model, log
4), and of each block the registers, counters, memories and working state that the clause does not name. A clause that
lists a block but not the own part of it (configuration lock, mode, role, epoch, fuse array, parameter store, flash,
configuration registers) leaves that part as it was. (R380, R382, R383, R384, R385, R386, R388, R390) -/
def Obligations.TwoWireFrames : Prop :=
  (∀ a b s t, exec (.twpGo a b) s = .next t →
    SameBut [.regs, .chans, .twp, .config] s t) ∧
  (∀ a b s t, exec (.twpArbRetry a b) s = .next t →
    SameBut [.regs, .chans, .twp] s t) ∧
  (∀ a b s t, exec (.twpTransactionDone a b) s = .next t →
    SameBut [.regs, .chans, .twp, .config] s t) ∧
  (∀ a b d s t, exec (.twpTargetWrite a b d) s = .next t →
    SameBut [.regs, .chans, .twp] s t) ∧
  (∀ a b s t, exec (.twpTargetRead a b) s = .next t →
    SameBut [.twp] s t) ∧
  (∀ a b d s t, exec (.twpAttnRequest a b d) s = .next t →
    SameBut [.regs, .twp, .config] s t) ∧
  (∀ a b d s t, exec (.twpAttention a b d) s = .next t →
    SameBut [.regs, .chans, .twp] s t) ∧
  (∀ a s t, exec (.twpTimeout a) s = .next t →
    SameBut [.regs, .chans, .twp] s t) ∧
  (∀ a b d s t, exec (.twpBusRecovery a b d) s = .next t →
    SameBut [.chans, .twp] s t) ∧
  (∀ a b s t, exec (.twpRecoveryRetry a b) s = .next t →
    SameBut [.time, .chans, .twp] s t) ∧
  (∀ s t, exec .beaconRead s = .next t →
    SameBut [.aon] s t) ∧
  (∀ a s t, exec (.beaconDemote a) s = .next t →
    SameBut [.regs, .chans, .aon, .sys, .law, .slt, .red, .seq, .role, .config] s t) ∧
  (∀ s t, exec .beaconDemoteEnd s = .next t →
    SameBut [.time, .chans, .aon, .red] s t) ∧
  (∀ a s t, exec (.beaconSafeShutdown a) s = .next t →
    SameBut [.chans, .aon, .seq] s t) ∧
  (∀ s t, exec .beaconShutdownTimeout s = .next t →
    SameBut [.time, .regs, .chans, .aon, .sys, .law, .slt, .red, .seq, .role, .config] s t) ∧
  (∀ a s t, exec (.beaconSave a) s = .next t →
    SameBut [.regs, .chans, .aon, .nvp] s t) ∧
  (∀ a s t, exec (.beaconClearAttn a) s = .next t →
    SameBut [.chans, .aon, .evt] s t) ∧
  (∀ a s t, exec (.beaconBadWord a) s = .next t →
    SameBut [.chans, .aon] s t)

/-- Claims are ordered as R201 orders them. For all 65,536 pairs of claims: the higher of two is the one of higher rank
(active, standby, none); at equal rank above none, the one whose epoch is 1 to 15 ahead modulo 32; at an epoch
difference of 0 or 16, the one with the unit bit set; two claims of rank none are equal. Claims that differ in the
unit bit are never equal unless both are none. (R201; as stated: "Two claims c1 and c2 are ordered exactly as in the
following pseudocode.") -/
def Obligations.ClaimsAreOrdered : Prop :=
  (∀ c1 c2 : Byte,
    let rank := fun (c : Byte) => if c.toNat / 64 = 3 then 2 else if c.toNat / 64 = 1 then 1 else 0
    let d := (c1.toNat / 2 % 32 + 32 - c2.toNat / 2 % 32) % 32
    claimHigher c1 c2 = true ↔
      rank c2 < rank c1 ∨ (rank c1 = rank c2 ∧ rank c1 ≠ 0 ∧ ((1 ≤ d ∧ d ≤ 15) ∨ ((d = 0 ∨ d = 16) ∧ c2.toNat % 2 < c1.toNat % 2)))) ∧
  (∀ c1 c2 : Byte, c1.toNat % 2 ≠ c2.toNat % 2 → claimHigher c1 c2 = false → claimHigher c2 c1 = false →
    claimTaken c1 = 0 ∧ claimTaken c2 = 0)

/-- The allocation period changes at a boundary of both lengths, and takes 1, 2, 4 or 10 ticks. At a tick boundary whose
counter is a multiple of the old and of the new period length the change takes effect; at any other instant
HBX_PERIOD_CHANGE changes nothing, so the period in progress completes. The load-time check of HBX_PERIOD passes
exactly when ticks is 1, 2, 4 or 10. (R126; as stated: "A change of HBX_PERIOD.ticks takes effect at the first tick
boundary whose counter value is a multiple of both the old and the new period length.") -/
def Obligations.HeadboxPeriodChanges : Prop :=
  (∀ s, s.runs .dsp = true → s.atTick = true → s.fld F.HBX_PERIOD.ticks ≠ s.hbx.period → s.tick % s.hbx.period = 0 →
    s.tick % s.fld F.HBX_PERIOD.ticks = 0 →
    exec .hbxPeriodChange s = .next { s with hbx := { s.hbx with period := s.fld F.HBX_PERIOD.ticks } }) ∧
  (∀ s, ¬ (s.atTick = true ∧ s.tick % s.hbx.period = 0 ∧ s.tick % s.fld F.HBX_PERIOD.ticks = 0) →
    exec .hbxPeriodChange s = .next s) ∧
  (∀ (s : State) w, s.checkReg .HBX_PERIOD w = true ↔
    s.fld F.HBX_PERIOD.ticks = 1 ∨ s.fld F.HBX_PERIOD.ticks = 2 ∨ s.fld F.HBX_PERIOD.ticks = 4 ∨ s.fld F.HBX_PERIOD.ticks = 10)

/-- A power failure that passes is ridden out. When PF_DET returns low and every supply was good when it rose and has
stayed good since (the pfGood bit of the always-on part), power-fail ends, a commit in progress resumes with its
buffer intact (the words not yet in the store stay in it), NVP_FLAG.ride sets, event 0x14 fires with cause PF_RIDE,
and the save in progress runs on untouched. (R308; as stated: "If PF_DET returns low and every supply remains good,
the commit engine resumes at the next unwritten word, with the buffer intact.") -/
def Obligations.PowerFailRide : Prop :=
  (∀ s, s.aon.pf = true → s.aon.vaon = true → s.aon.pfGood = true → s.regs.wf = true →
    Completes .pfRide s (fun t => t.aon = { s.aon with pf := false } ∧ t.nvp.save = s.nvp.save ∧ t.nvp.store = s.nvp.store ∧
      t.flag F.NVP_FLAG.ride = true ∧ (∃ why, Raises s t 0x14 0x02 0 why))) ∧
  (∀ s, s.aon.pf = true → s.aon.vaon = true → s.aon.pfGood = true → s.nvp.commit ≠ none →
    Completes .pfRide s (fun t => t.nvp = { s.nvp with stopped := false }))

/-- A repaired or restarted unit becomes STANDBY and stays STANDBY; only a verdict makes it ACTIVE. Where the peer is
accepted and sends an active claim, the role decision of a unit of a pair makes it STANDBY. A command that takes a
unit out of STANDBY is a TAKE_N verdict, which makes it ACTIVE; or a reset, which leaves the role undecided; or the
role decision of boot step 8 itself. So nothing but a verdict makes a standing-by unit ACTIVE. (R228; as stated: "A
repaired or restarted unit becomes STANDBY and stays STANDBY. It never pre-empts the active unit. Only a verdict makes
it ACTIVE.") -/
def Obligations.RepairedUnitStandsBy : Prop :=
  (∀ s, s.runs .mgt = true → s.sys.step = 8 → s.strap = .pair → s.peerAccepted = true → claimRole s.red.peer = 3 →
    Completes .roleDecision s (fun t => t.sys.role = .standby)) ∧
  (∀ c s t, exec c s = .next t → s.sys.role = .standby → t.sys.role ≠ .standby →
    (c = .takeNAccept ∧ t.sys.role = .active) ∨ (c = .roleDecision ∧ s.sys.step = 8) ∨ t.sys.role = .undecided)

/-- A thermal warning refuses the couch drill and ordinary parts of an update. A warning is active exactly while some
enabled sensor is in warning or trip, and THM_STAT.warn_any shows it. While it is active a drill asked for does not
start and DRILL_REFUSED fires, whether PER runs or is gated; and an update whose manifest holds an ordinary part is
refused at COMMIT and ACTIVATE. (R255; as stated: "A thermal warning is active while any enabled sensor is in warning
or trip. THM_STAT.warn_any shows this.") -/
def Obligations.ThermalWarningRefuses : Prop :=
  (∀ s : State, s.thmWarn = true ↔ ∃ k : Fin 48, s.bit (F.THM_S_CFG.en k) = true ∧ (s.thm.s[k].warn = true ∨ s.thm.s[k].trip = true)) ∧
  (∀ s : State, s.shown .THM_STAT 0 0 % 2 = b2n s.thmWarn) ∧
  (∀ s : State, s.thmWarn = true → s.runs .hst = true → s.sys.step ≠ 15 →
    Completes .drillNow s (fun t => t.red = s.red ∧ ∃ why, Raises s t 0xB5 0x03 0 why)) ∧
  (∀ (s : State) m, s.thmWarn = true → s.upd.man = some m → m.ordinary = true → s.manRefusal ≠ 0 ∧
    (s.updMine = true → s.sys.step ≠ 15 → s.upd.phase = 3 → s.runs .hst = true → s.runs .mgt = true →
      (∃ why, Completes .updActivate s (fun t => t.upd.phase = s.upd.phase ∧ Raises s t 0xE1 0x01 why 0))))

/-- A store of addressed memory, and the act of one port or ring, lands only where it points. A coefficient or a curve
write changes no other offset of its shadow bank and no offset of the active bank; the end of a fuse command changes
no fuse word but its own; the end of a commit changes no word of the parameter store but those of its buffer; a
command of one two-wire port changes no other port, and a doorbell no other ring. (R63, R111, R263, R275, R304, R360,
R362, R383, R384) -/
def Obligations.WritesLandOnlyThere : Prop :=
  (∀ off v s t w, s.law.wf = true → exec (.coeffShadowWrite off v) s = .next t → w ≠ off.toNat - 0x40000 →
    cellGet 0 t.law.shadow w = cellGet 0 s.law.shadow w ∧ t.law.active = s.law.active) ∧
  (∀ off v s t w, s.hbx.wf = true → exec (.costCurveWrite off v) s = .next t → w ≠ off.toNat - 0x50000 →
    cellGet 0 t.hbx.shadow w = cellGet 0 s.hbx.shadow w ∧ t.hbx.active = s.hbx.active) ∧
  (∀ a b n s t c w, s.otp.wf = true → s.otp.cmd = some c → exec (.otpCommandComplete a b n) s = .next t → w ≠ c.word →
    cellGet 0 t.otp.aN w = cellGet 0 s.otp.aN w ∧ cellGet 0 t.otp.aM w = cellGet 0 s.otp.aM w ∧
    cellGet 0 t.otp.bN w = cellGet 0 s.otp.bN w ∧ cellGet 0 t.otp.bM w = cellGet 0 s.otp.bM w) ∧
  (∀ us s t w, s.nvp.wf = true → exec (.nvpCommitDone us) s = .next t → w ∉ s.nvp.buf.map (·.1) →
    cellGet ⟨0, 0⟩ t.nvp.store w = cellGet ⟨0, 0⟩ s.nvp.store w) ∧
  (∀ (p q : Fin 4) c s t, q ≠ p → exec c s = .next t →
    ((∃ v, c = .twpGo p v) ∨ (∃ e, c = .twpArbRetry p e) ∨ (∃ o, c = .twpTransactionDone p o) ∨ (∃ b d, c = .twpTargetWrite p b d) ∨
      (∃ n, c = .twpTargetRead p n) ∨ (∃ e w, c = .twpAttnRequest p e w) ∨ (∃ a b, c = .twpAttention p a b) ∨ c = .twpTimeout p ∨
      (∃ n h, c = .twpBusRecovery p n h) ∨ (∃ h, c = .twpRecoveryRetry p h)) →
    t.twp[q] = s.twp[q]) ∧
  (∀ r v s t (q : Fin 8), q.val ≠ r.val → exec (.commandDoorbell r v) s = .next t → t.hst.ring[q] = s.hst.ring[q]) ∧
  (∀ r v s t (q : Fin 8), q.val ≠ 4 + r.val → exec (.consumerDoorbell r v) s = .next t → t.hst.ring[q].head = s.hst.ring[q].head)
end

