-- ==== Sys2Proof/Laws/Stores.lean ====
section
/-! SUPPORT. Sparse stores: what a write does to the place written and to every other place, and that every operation keeps the
canonical form. -/

set_option Elab.async false

namespace Sys2Proof.Machine

variable {α : Type} [DecidableEq α]

/-- Keys strictly rising, as a relation over all pairs. -/
def Rising (m : Cells α) : Prop := m.Pairwise (fun p q => p.1 < q.1)

theorem cellsWf_iff (d : α) (m : Cells α) : cellsWf d m = true ↔ Rising m ∧ ∀ p ∈ m, p.2 ≠ d := by
  unfold Rising
  induction m with
  | nil => simp [cellsWf]
  | cons p m ih =>
    obtain ⟨a, v⟩ := p
    cases m with
    | nil => simp [cellsWf]
    | cons q m =>
      obtain ⟨b, w⟩ := q
      simp only [cellsWf, Bool.and_eq_true, decide_eq_true_eq, ih]
      constructor
      · rintro ⟨⟨hv, hab⟩, hp, hm⟩
        refine ⟨List.pairwise_cons.2 ⟨?_, hp⟩, ?_⟩
        · intro r hr
          rcases List.mem_cons.1 hr with rfl | hr
          · exact hab
          · exact Nat.lt_trans hab ((List.pairwise_cons.1 hp).1 r hr)
        · intro r hr
          rcases List.mem_cons.1 hr with rfl | hr
          · exact hv
          · exact hm r hr
      · rintro ⟨hp, hm⟩
        have h := List.pairwise_cons.1 hp
        exact ⟨⟨hm _ (List.mem_cons_self ..), h.1 _ (List.mem_cons_self ..)⟩, h.2, fun r hr => hm r (List.mem_cons_of_mem _ hr)⟩

theorem keysRise_iff {β : Type} (m : Cells β) : keysRise m = true ↔ m.Pairwise (fun p q => p.1 < q.1) := by
  induction m with
  | nil => simp [keysRise]
  | cons p m ih =>
    obtain ⟨a, v⟩ := p
    cases m with
    | nil => simp [keysRise]
    | cons q m =>
      obtain ⟨b, w⟩ := q
      simp only [keysRise, Bool.and_eq_true, decide_eq_true_eq, ih]
      constructor
      · rintro ⟨hab, hp⟩
        refine List.pairwise_cons.2 ⟨?_, hp⟩
        intro r hr
        rcases List.mem_cons.1 hr with rfl | hr
        · exact hab
        · exact Nat.lt_trans hab ((List.pairwise_cons.1 hp).1 r hr)
      · intro hp
        have h := List.pairwise_cons.1 hp
        exact ⟨h.1 _ (List.mem_cons_self ..), h.2⟩

omit [DecidableEq α] in
theorem cellDel_sublist (m : Cells α) (k : Nat) : (cellDel m k).Sublist m := by
  induction m with
  | nil => exact List.Sublist.slnil
  | cons p m ih =>
    obtain ⟨a, v⟩ := p
    simp only [cellDel]
    split
    · exact List.sublist_cons_self ..
    · split
      · exact List.Sublist.refl _
      · exact ih.cons_cons _

omit [DecidableEq α] in
theorem cellIns_mem (m : Cells α) (k : Nat) (x : α) : ∀ p ∈ cellIns m k x, p = (k, x) ∨ p ∈ m := by
  induction m with
  | nil => intro p hp; exact Or.inl (List.mem_singleton.1 hp)
  | cons q m ih =>
    obtain ⟨a, v⟩ := q
    intro p hp
    simp only [cellIns] at hp
    split at hp
    · rcases List.mem_cons.1 hp with rfl | hp
      · exact Or.inl rfl
      · exact Or.inr (List.mem_cons_of_mem _ hp)
    · split at hp
      · rcases List.mem_cons.1 hp with rfl | hp
        · exact Or.inl rfl
        · exact Or.inr hp
      · rcases List.mem_cons.1 hp with rfl | hp
        · exact Or.inr (List.mem_cons_self ..)
        · exact (ih p hp).imp id (List.mem_cons_of_mem _)

omit [DecidableEq α] in
theorem rising_cellIns (m : Cells α) (k : Nat) (x : α) (h : Rising m) : Rising (cellIns m k x) := by
  unfold Rising at *
  induction m with
  | nil => simp [cellIns]
  | cons q m ih =>
    obtain ⟨a, v⟩ := q
    have hc := List.pairwise_cons.1 h
    simp only [cellIns]
    split
    · rename_i e
      subst e
      exact List.pairwise_cons.2 ⟨hc.1, hc.2⟩
    · split
      · rename_i e
        refine List.pairwise_cons.2 ⟨?_, h⟩
        intro r hr
        rcases List.mem_cons.1 hr with rfl | hr
        · exact e
        · exact Nat.lt_trans e (hc.1 r hr)
      · rename_i e1 e2
        refine List.pairwise_cons.2 ⟨?_, ih hc.2⟩
        intro r hr
        rcases cellIns_mem m k x r hr with rfl | hr
        · simp only at e1 e2 ⊢; omega
        · exact hc.1 r hr

/-- A write keeps the canonical form. -/
theorem cellsWf_put (d : α) (m : Cells α) (k : Nat) (x : α) (h : cellsWf d m = true) : cellsWf d (cellPut d m k x) = true := by
  rw [cellsWf_iff] at *
  unfold cellPut
  split
  · exact ⟨h.1.sublist (cellDel_sublist m k), fun p hp => h.2 p ((cellDel_sublist m k).subset hp)⟩
  · rename_i e
    refine ⟨rising_cellIns m k x h.1, fun p hp => ?_⟩
    rcases cellIns_mem m k x p hp with rfl | hp
    · exact e
    · exact h.2 p hp

/-- Writes one after another keep the canonical form. -/
theorem cellsWf_puts {β : Type} (d : α) (key : β → Nat) (val : Cells α → β → α) (l : List β) (m : Cells α)
    (h : cellsWf d m = true) : cellsWf d (l.foldl (fun m p => cellPut d m (key p) (val m p)) m) = true := by
  induction l generalizing m with
  | nil => exact h
  | cons p l ih => exact ih _ (cellsWf_put d m _ _ h)

/-- Cells taken away keep the canonical form. -/
theorem cellsWf_filter (d : α) (p : Nat × α → Bool) (m : Cells α) (h : cellsWf d m = true) : cellsWf d (m.filter p) = true := by
  rw [cellsWf_iff] at *
  exact ⟨h.1.sublist List.filter_sublist, fun q hq => h.2 q ((List.mem_filter.1 hq).1)⟩

/-- Cells listed one after another keep rising keys. -/
theorem keysRise_ins {β γ : Type} (key : γ → Nat) (val : γ → β) (l : List γ) (m : Cells β) (h : keysRise m = true) :
    keysRise (l.foldl (fun m p => cellIns m (key p) (val p)) m) = true := by
  induction l generalizing m with
  | nil => exact h
  | cons p l ih => exact ih _ ((keysRise_iff _).2 (rising_cellIns m _ _ ((keysRise_iff m).1 h)))

/-- The cells of rising places that are not 0 make a canonical store. -/
theorem cellsWf_filterMap (d : α) (f : Nat → Option (Nat × α)) (n : Nat)
    (hk : ∀ k p, f k = some p → p.2 ≠ d) (hr : ∀ j k p q, j < k → f j = some p → f k = some q → p.1 < q.1) :
    cellsWf d ((List.range n).filterMap f) = true := by
  rw [cellsWf_iff]
  constructor
  · refine List.Pairwise.filterMap f ?_ List.pairwise_lt_range
    intro j k hjk p hp q hq
    exact hr j k p q hjk (by simpa using hp) (by simpa using hq)
  · intro p hp
    obtain ⟨k, _, e⟩ := List.mem_filterMap.1 hp
    exact hk k p e

omit [DecidableEq α] in
theorem Rising.append {m p : Cells α} (hm : Rising m) (hp : Rising p) (h : ∀ x ∈ m, ∀ y ∈ p, x.1 < y.1) : Rising (m ++ p) :=
  List.pairwise_append.2 ⟨hm, hp, h⟩

/-- A key range taken from another store keeps the canonical form. -/
theorem cellsWf_splice (d : α) (m p : Cells α) (lo hi : Nat) (hl : lo ≤ hi) (h : cellsWf d m = true) (k : cellsWf d p = true) :
    cellsWf d (cellsSplice m p lo hi) = true := by
  have hr : ∀ (c : Cells α) (q : Nat × α → Bool), Rising c → Rising (c.filter q) := fun c q hc => hc.sublist List.filter_sublist
  rw [cellsWf_iff] at *
  unfold cellsSplice
  refine ⟨Rising.append (Rising.append (hr _ _ h.1) (hr _ _ k.1) ?_) (hr _ _ h.1) ?_, ?_⟩
  · intro x hx y hy
    have a := (List.mem_filter.1 hx).2
    have b := (List.mem_filter.1 hy).2
    simp only [decide_eq_true_eq] at a b
    omega
  · intro x hx y hy
    have b := (List.mem_filter.1 hy).2
    simp only [decide_eq_true_eq] at b
    rcases List.mem_append.1 hx with hx | hx
    · have a := (List.mem_filter.1 hx).2
      simp only [decide_eq_true_eq] at a
      omega
    · have a := (List.mem_filter.1 hx).2
      simp only [decide_eq_true_eq] at a
      omega
  · intro x hx
    rcases List.mem_append.1 hx with hx | hx
    · rcases List.mem_append.1 hx with hx | hx
      · exact h.2 x (List.mem_filter.1 hx).1
      · exact k.2 x (List.mem_filter.1 hx).1
    · exact h.2 x (List.mem_filter.1 hx).1

/-! ### The stores of the blocks -/

theorem Law.wf_iff (l : Law) : l.wf = true ↔ cellsWf 0 l.shadow = true ∧ cellsWf 0 l.active = true := by
  simp only [Law.wf, Bool.and_eq_true]

theorem Law.wf_mk {g : Vector Engine 20} {m p : Cells Word} (h : cellsWf 0 m = true) (k : cellsWf 0 p = true) :
    Law.wf ⟨g, m, p⟩ = true := (Law.wf_iff _).2 ⟨h, k⟩

theorem Law.wf_put {l : Law} {g : Vector Engine 20} {k : Nat} {x : Word} (h : l.wf = true) :
    Law.wf ⟨g, cellPut 0 l.shadow k x, l.active⟩ = true :=
  Law.wf_mk (cellsWf_put 0 _ _ _ ((Law.wf_iff l).1 h).1) ((Law.wf_iff l).1 h).2

theorem Law.wf_swap {l : Law} {g : Vector Engine 20} {lo n : Nat} (h : l.wf = true) :
    Law.wf ⟨g, cellsSplice l.shadow l.active lo (lo + n), cellsSplice l.active l.shadow lo (lo + n)⟩ = true :=
  have k := (Law.wf_iff l).1 h
  Law.wf_mk (cellsWf_splice 0 _ _ _ _ (Nat.le_add_right ..) k.1 k.2) (cellsWf_splice 0 _ _ _ _ (Nat.le_add_right ..) k.2 k.1)

theorem Law.wf_copy {l : Law} {g : Vector Engine 20} {lo n : Nat} (h : l.wf = true) :
    Law.wf ⟨g, cellsSplice l.shadow l.active lo (lo + n), l.active⟩ = true :=
  have k := (Law.wf_iff l).1 h
  Law.wf_mk (cellsWf_splice 0 _ _ _ _ (Nat.le_add_right ..) k.1 k.2) k.2

theorem Hbx.wf_iff (h : Hbx) : h.wf = true ↔ cellsWf 0 h.shadow = true ∧ cellsWf 0 h.active = true := by
  simp only [Hbx.wf, Bool.and_eq_true]

theorem Bat.wf_iff (b : Bat) : b.wf = true ↔ cellsWf 0 b.tmpl = true ∧ cellsWf Zent.zero b.ztab = true := by
  simp only [Bat.wf, Bool.and_eq_true]

theorem EvStore.wf_iff (e : EvStore) :
    e.wf = true ↔ cellsWf 0 e.ring = true ∧ cellsWf (Vector.replicate 16 0) e.rows = true := by
  simp only [EvStore.wf, Bool.and_eq_true]

theorem keysRise_put {β : Type} [DecidableEq β] (d : β) (m : Cells β) (k : Nat) (x : β) (h : keysRise m = true) :
    keysRise (cellPut d m k x) = true := by
  have r := (keysRise_iff m).1 h
  refine (keysRise_iff _).2 ?_
  unfold cellPut
  split
  · exact List.Pairwise.sublist (cellDel_sublist m k) r
  · exact rising_cellIns m k x r

theorem keysRise_filter {β : Type} (p : Nat × β → Bool) (m : Cells β) (h : keysRise m = true) : keysRise (m.filter p) = true :=
  (keysRise_iff _).2 (((keysRise_iff m).1 h).sublist List.filter_sublist)

theorem Regs.wf_iff (r : Regs) :
    r.wf = true ↔ keysRise r.act = true ∧ cellsWf 0 r.sticky = true ∧ keysRise r.staged = true ∧ keysRise r.base = true := by
  simp only [Regs.wf, Bool.and_eq_true, and_assoc]

theorem Regs.wf_of {n m : Regs} (h : n.wf = true) (a : m.act = n.act) (b : m.sticky = n.sticky) (c : m.staged = n.staged)
    (d : m.base = n.base) : m.wf = true := by
  rw [Regs.wf_iff] at *; rw [a, b, c, d]; exact h

/-- A write to a word in force keeps the register store's form. -/
theorem Regs.wf_putAct {n m : Regs} {d : Word} {k : Nat} {x : Word} (h : n.wf = true) (a : m.act = cellPut d n.act k x)
    (b : m.sticky = n.sticky) (c : m.staged = n.staged) (e : m.base = n.base) : m.wf = true := by
  rw [Regs.wf_iff] at *; rw [a, b, c, e]; exact ⟨keysRise_put _ _ _ _ h.1, h.2⟩

/-- So does a change of W1C bits. -/
theorem Regs.wf_putSticky {n m : Regs} {k : Nat} {x : Word} (h : n.wf = true) (a : m.act = n.act)
    (b : m.sticky = cellPut 0 n.sticky k x) (c : m.staged = n.staged) (e : m.base = n.base) : m.wf = true := by
  rw [Regs.wf_iff] at *; rw [a, b, c, e]; exact ⟨h.1, cellsWf_put _ _ _ _ h.2.1, h.2.2⟩

/-- So does a write to a staged field. -/
theorem Regs.wf_putStaged {n m : Regs} {k : Nat} {x : Word} (h : n.wf = true) (a : m.act = n.act)
    (b : m.sticky = n.sticky) (c : m.staged = cellPut 0 n.staged k x) (e : m.base = n.base) : m.wf = true := by
  rw [Regs.wf_iff] at *; rw [a, b, c, e]; exact ⟨h.1, h.2.1, keysRise_put _ _ _ _ h.2.2.1, h.2.2.2⟩

/-- So does a base configuration that is loaded anew. -/
theorem Regs.wf_loadBase {n m : Regs} {l : List (Nat × Word)} (h : n.wf = true) (a : m.act = n.act) (b : m.sticky = n.sticky)
    (c : m.staged = n.staged) (e : m.base = l.foldl (fun (m : Cells Word) (p : Nat × Word) => cellIns m p.1 p.2) []) :
    m.wf = true := by
  rw [Regs.wf_iff] at *; rw [a, b, c, e]
  exact ⟨h.1, h.2.1, h.2.2.1, keysRise_ins Prod.fst Prod.snd _ _ rfl⟩

/-! A change that leaves the stores of a block alone keeps their form. -/

theorem Nvp.wf_of {n m : Nvp} (h : n.wf = true) (a : m.store = n.store) (b : m.image = n.image) (c : m.save = n.save) :
    m.wf = true := by
  simp only [Nvp.wf, a, b, c] at *; exact h

theorem Otp.wf_of {n m : Otp} (h : n.wf = true) (a : m.aN = n.aN) (b : m.aM = n.aM) (c : m.bN = n.bN) (d : m.bM = n.bM) :
    m.wf = true := by
  simp only [Otp.wf, a, b, c, d] at *; exact h

theorem Law.wf_of {n m : Law} (h : n.wf = true) (a : m.shadow = n.shadow) (b : m.active = n.active) : m.wf = true := by
  simp only [Law.wf, a, b] at *; exact h

theorem Hbx.wf_of {n m : Hbx} (h : n.wf = true) (a : m.shadow = n.shadow) (b : m.active = n.active) : m.wf = true := by
  simp only [Hbx.wf, a, b] at *; exact h

theorem Bat.wf_of {n m : Bat} (h : n.wf = true) (a : m.tmpl = n.tmpl) (b : m.ztab = n.ztab) : m.wf = true := by
  simp only [Bat.wf, a, b] at *; exact h

theorem Upd.wf_of {n m : Upd} (h : n.wf = true) (a : m.flash = n.flash) : m.wf = true := by
  simp only [Upd.wf, a] at *; exact h

theorem EvStore.wf_of {n m : EvStore} (h : n.wf = true) (a : m.ring = n.ring) (b : m.rows = n.rows) : m.wf = true := by
  simp only [EvStore.wf, a, b] at *; exact h

theorem EvStore.wf_eq {n m : EvStore} (h : n.wf = true) (a : m = n) : m.wf = true := a ▸ h

/-! ### Reading after a write -/

omit [DecidableEq α] in
theorem cellGet?_lt (m : Cells α) (k : Nat) (h : ∀ p ∈ m, k < p.1) : cellGet? m k = none := by
  cases m with
  | nil => rfl
  | cons q m =>
    obtain ⟨a, v⟩ := q
    have := h (a, v) (List.mem_cons_self ..)
    simp only at this
    simp [cellGet?, show k ≠ a by omega, this]

omit [DecidableEq α] in
theorem cellGet?_ins (m : Cells α) (k j : Nat) (x : α) (h : Rising m) :
    cellGet? (cellIns m k x) j = if j = k then some x else cellGet? m j := by
  induction m with
  | nil =>
    simp only [cellIns, cellGet?]
    split <;> simp
  | cons q m ih =>
    obtain ⟨a, v⟩ := q
    have hc := List.pairwise_cons.1 h
    simp only [cellIns]
    split
    · rename_i e
      subst e
      simp only [cellGet?]
      split <;> simp_all
    · split
      · simp only [cellGet?]
        repeat' split
        all_goals first | rfl | omega | simp_all
        all_goals omega
      · simp only [cellGet?]
        repeat' split
        all_goals first | rfl | omega | (rw [ih hc.2]; simp_all)

omit [DecidableEq α] in
theorem cellGet?_del (m : Cells α) (k j : Nat) (h : Rising m) :
    cellGet? (cellDel m k) j = if j = k then none else cellGet? m j := by
  induction m with
  | nil => simp [cellDel, cellGet?]
  | cons q m ih =>
    obtain ⟨a, v⟩ := q
    have hc := List.pairwise_cons.1 h
    simp only [cellDel]
    split
    · rename_i e
      subst e
      simp only [cellGet?]
      split
      · rename_i e
        subst e
        exact cellGet?_lt m _ hc.1
      · split
        · rename_i e
          exact cellGet?_lt m _ (fun p hp => Nat.lt_trans e (hc.1 p hp))
        · rfl
    · split
      · simp only [cellGet?]
        repeat' split
        all_goals first | rfl | omega
      · simp only [cellGet?]
        repeat' split
        all_goals first | rfl | omega | (rw [ih hc.2]; simp_all)

/-- Reading the place written gives what was written. -/
theorem cellGet_put_same (d : α) (m : Cells α) (k : Nat) (x : α) (h : cellsWf d m = true) : cellGet d (cellPut d m k x) k = x := by
  have hr := ((cellsWf_iff d m).1 h).1
  unfold cellGet cellPut
  split
  · rw [cellGet?_del m k k hr]; simp_all
  · rw [cellGet?_ins m k k x hr]; simp

/-- Reading any other place gives what it gave. -/
theorem cellGet_put_other (d : α) (m : Cells α) (k j : Nat) (x : α) (h : cellsWf d m = true) (hj : j ≠ k) :
    cellGet d (cellPut d m k x) j = cellGet d m j := by
  have hr := ((cellsWf_iff d m).1 h).1
  unfold cellGet cellPut
  split
  · rw [cellGet?_del m k j hr]; simp_all
  · rw [cellGet?_ins m k j x hr]; simp_all

end Sys2Proof.Machine
end

