-- ==== Sys2Proof/Laws/Frame.lean ====
section
/-! SUPPORT. Steps compose: the lemmas by which the frame of a command is put together from those of the operations it calls. -/

set_option Elab.async false

namespace Sys2Proof.Machine

variable {ps qs : List Part} {s t u : State}

theorem SameBut.refl : SameBut ps s s := by intro p _; cases p <;> simp [Part.same]

theorem SameBut.trans (h : SameBut ps s t) (k : SameBut ps t u) : SameBut ps s u := by
  intro p hp
  have a := h p hp
  have b := k p hp
  cases p <;> simp_all [Part.same]

theorem SameBut.mono (h : SameBut ps s t) (k : ∀ p ∈ ps, p ∈ qs) : SameBut qs s t := fun p hp => h p (fun m => hp (k p m))

theorem Step.refl : Step ps s s := ⟨SameBut.refl, id, Nat.le_refl _⟩

theorem Step.trans (h : Step ps s t) (k : Step ps t u) : Step ps s u :=
  ⟨h.frame.trans k.frame, fun w => k.keeps (h.keeps w), Nat.le_trans h.later k.later⟩

theorem Step.mono (h : Step ps s t) (k : ∀ p ∈ ps, p ∈ qs) : Step qs s t := ⟨h.frame.mono k, h.keeps, h.later⟩

/-- Is a part listed? -/
def hasPart (p : Part) (ps : List Part) : Bool := ps.any (fun q => q.ctorIdx == p.ctorIdx)

/-- Is every part of one list in the other? -/
def subParts (qs ps : List Part) : Bool := qs.all (fun p => hasPart p ps)

theorem mem_of_hasPart {p : Part} (h : hasPart p ps = true) : p ∈ ps := by
  obtain ⟨q, hq, e⟩ := List.any_eq_true.1 h
  have : q = p := by
    cases q <;> cases p <;> first | rfl | exact absurd e (by decide)
  exact this ▸ hq

theorem mem_of_subParts (h : subParts qs ps = true) : ∀ p ∈ qs, p ∈ ps :=
  fun p hp => mem_of_hasPart (List.all_eq_true.1 h p hp)

/-- A step of an operation, after a step. -/
theorem Step.after (k : Step qs t u) (m : subParts qs ps = true) (h : Step ps s t) : Step ps s u :=
  h.trans (k.mono (mem_of_subParts m))

/-- A step whose last part keeps the stores' form for reasons that lie further back. -/
theorem Step.further (h : Step ps s t) (f : SameBut ps t u) (k : s.StoresWf → t.StoresWf → u.StoresWf) (l : u.time = t.time := by rfl) :
    Step ps s u := ⟨h.frame.trans f, fun w => k w (h.keeps w), l ▸ h.later⟩

/-- A state on the way. -/
theorem Step.cut (x : State) (h : Step ps s x) (k : Step ps s x → Step ps s t) : Step ps s t := k h

theorem Step.when {c : Bool} (h : Step ps s t) (k : Step ps s u) : Step ps s (t.when c u) := by
  unfold State.when; split <;> assumption

theorem Step.await (m : hasPart .time ps = true) (n : Nat) (h : Step ps s t) : Step ps s (t.await n) := by
  refine h.trans ⟨?_, id, Nat.le_max_left _ _⟩
  intro p hp
  have : p ≠ .time := fun e => hp (e ▸ mem_of_hasPart m)
  cases p <;> first | exact absurd rfl this | simp [Part.same, State.await]

theorem Step.whenAt {c : Bool} {n : Nat} {f : State → State} (m : hasPart .time ps = true) (h : Step ps s t)
    (k : ∀ u, Step ps u (f u)) : Step ps s (t.whenAt c n f) := by
  unfold State.whenAt
  split
  · exact (h.await m n).trans (k _)
  · exact h

theorem Step.whenDue {c : Bool} {a : Option Nat} {d : Nat} {f : State → State} (m : hasPart .time ps = true) (h : Step ps s t)
    (k : ∀ u, Step ps u (f u)) : Step ps s (t.whenDue c a d f) := by
  unfold State.whenDue
  split
  · exact Step.whenAt m h k
  · exact h

theorem Step.whenOp {c : Bool} {n : Nat} {f : State → State} (m : hasPart .time ps = true) (h : Step ps s t)
    (k : ∀ u, Step ps u (f u)) : Step ps s (t.whenOp c n f) := Step.whenAt m h k

theorem Step.periodAt {i o : Nat} {f : State → State} (m : hasPart .time ps = true) (h : Step ps s t)
    (k : ∀ u, Step ps u (f u)) : Step ps s (t.periodAt i o f) := Step.whenDue m h k

theorem Step.foldl {α : Type} (f : State → α → State) (l : List α) (k : ∀ s a, Step ps s (f s a)) (h : Step ps s t) :
    Step ps s (l.foldl f t) := by
  induction l generalizing t with
  | nil => exact h
  | cons a l ih => exact ih (h.trans (k t a))

theorem Step.foldlFst {α β : Type} (f : State × β → α → State × β) (l : List α) (b : β)
    (k : ∀ p a, Step ps p.1 (f p a).1) (h : Step ps s t) : Step ps s (l.foldl f (t, b)).1 := by
  induction l generalizing t b with
  | nil => exact h
  | cons a l ih =>
    have e := ih (f (t, b) a).2 (h.trans (k (t, b) a))
    exact e

theorem Step.foldFin {n : Nat} (f : State → Fin n → State) (k : ∀ s a, Step ps s (f s a)) (h : Step ps s t) :
    Step ps s (foldFin n t f) := Step.foldl f _ k h

/-- A record update: parts that are not listed stand as they were, and the stores of those that are keep their form. -/
theorem Step.put {n_freeCtr} {n_tick} {n_tickAt} {n_regs} {n_chans} {n_aon} {n_sys} {n_sns} {n_law} {n_pwm} {n_hbx} {n_dkl} {n_vat} {n_bat} {n_slt} {n_slot} {n_stage} {n_red} {n_arb} {n_seq} {n_thm} {n_otp} {n_nvp} {n_bbx} {n_upd} {n_hst} {n_evt} {n_twp}
    (h : Step ps s t)
    (f_freeCtr : n_freeCtr = t.freeCtr ∨ hasPart .freeCtr ps = true := by first | exact Or.inr rfl | exact Or.inl rfl)
    (f_tick : n_tick = t.tick ∨ hasPart .tick ps = true := by first | exact Or.inr rfl | exact Or.inl rfl)
    (f_tickAt : n_tickAt = t.tickAt ∨ hasPart .tick ps = true := by first | exact Or.inr rfl | exact Or.inl rfl)
    (f_regs : n_regs = t.regs ∨ hasPart .regs ps = true := by first | exact Or.inr rfl | exact Or.inl rfl)
    (f_chans : n_chans = t.chans ∨ hasPart .chans ps = true := by first | exact Or.inr rfl | exact Or.inl rfl)
    (f_aon : n_aon = t.aon ∨ hasPart .aon ps = true := by first | exact Or.inr rfl | exact Or.inl rfl)
    (f_sys : n_sys = t.sys ∨ hasPart .sys ps = true := by first | exact Or.inr rfl | exact Or.inl rfl)
    (f_sns : n_sns = t.sns ∨ hasPart .sns ps = true := by first | exact Or.inr rfl | exact Or.inl rfl)
    (f_law : n_law = t.law ∨ hasPart .law ps = true := by first | exact Or.inr rfl | exact Or.inl rfl)
    (f_pwm : n_pwm = t.pwm ∨ hasPart .pwm ps = true := by first | exact Or.inr rfl | exact Or.inl rfl)
    (f_hbx : n_hbx = t.hbx ∨ hasPart .hbx ps = true := by first | exact Or.inr rfl | exact Or.inl rfl)
    (f_dkl : n_dkl = t.dkl ∨ hasPart .dkl ps = true := by first | exact Or.inr rfl | exact Or.inl rfl)
    (f_vat : n_vat = t.vat ∨ hasPart .vat ps = true := by first | exact Or.inr rfl | exact Or.inl rfl)
    (f_bat : n_bat = t.bat ∨ hasPart .bat ps = true := by first | exact Or.inr rfl | exact Or.inl rfl)
    (f_slt : n_slt = t.slt ∨ hasPart .slt ps = true := by first | exact Or.inr rfl | exact Or.inl rfl)
    (f_slot : n_slot = t.slot ∨ hasPart .slot ps = true := by first | exact Or.inr rfl | exact Or.inl rfl)
    (f_stage : n_stage = t.stage ∨ hasPart .stage ps = true := by first | exact Or.inr rfl | exact Or.inl rfl)
    (f_red : n_red = t.red ∨ hasPart .red ps = true := by first | exact Or.inr rfl | exact Or.inl rfl)
    (f_arb : n_arb = t.arb ∨ hasPart .arb ps = true := by first | exact Or.inr rfl | exact Or.inl rfl)
    (f_seq : n_seq = t.seq ∨ hasPart .seq ps = true := by first | exact Or.inr rfl | exact Or.inl rfl)
    (f_thm : n_thm = t.thm ∨ hasPart .thm ps = true := by first | exact Or.inr rfl | exact Or.inl rfl)
    (f_otp : n_otp = t.otp ∨ hasPart .otp ps = true := by first | exact Or.inr rfl | exact Or.inl rfl)
    (f_nvp : n_nvp = t.nvp ∨ hasPart .nvp ps = true := by first | exact Or.inr rfl | exact Or.inl rfl)
    (f_bbx : n_bbx = t.bbx ∨ hasPart .bbx ps = true := by first | exact Or.inr rfl | exact Or.inl rfl)
    (f_upd : n_upd = t.upd ∨ hasPart .upd ps = true := by first | exact Or.inr rfl | exact Or.inl rfl)
    (f_hst : n_hst = t.hst ∨ hasPart .hst ps = true := by first | exact Or.inr rfl | exact Or.inl rfl)
    (f_evt : n_evt = t.evt ∨ hasPart .evt ps = true := by first | exact Or.inr rfl | exact Or.inl rfl)
    (f_twp : n_twp = t.twp ∨ hasPart .twp ps = true := by first | exact Or.inr rfl | exact Or.inl rfl)
    (f_lock : n_sys.lock = t.sys.lock ∨ hasPart .lock ps = true := by first | exact Or.inr rfl | exact Or.inl rfl)
    (f_mode : n_sys.mode = t.sys.mode ∨ hasPart .mode ps = true := by first | exact Or.inr rfl | exact Or.inl rfl)
    (f_role : n_sys.role = t.sys.role ∨ hasPart .role ps = true := by first | exact Or.inr rfl | exact Or.inl rfl)
    (f_epoch : n_aon.epoch = t.aon.epoch ∨ hasPart .epoch ps = true := by first | exact Or.inr rfl | exact Or.inl rfl)
    (f_fuse : n_otp.array = t.otp.array ∨ hasPart .fuse ps = true := by first | exact Or.inr rfl | exact Or.inl rfl)
    (f_store : n_nvp.store = t.nvp.store ∨ hasPart .store ps = true := by first | exact Or.inr rfl | exact Or.inl rfl)
    (f_flash : n_upd.flash = t.upd.flash ∨ hasPart .flash ps = true := by first | exact Or.inr rfl | exact Or.inl rfl)
    (f_config : n_regs.act = t.regs.act ∨ hasPart .config ps = true := by first | exact Or.inr rfl | exact Or.inl rfl)
    (w_nvp : t.nvp.wf = true → n_nvp.wf = true := by
      first | with_reducible exact id | with_reducible exact (Nvp.wf_of · rfl rfl rfl) | exact (fun _ => rfl))
    (w_otp : t.otp.wf = true → n_otp.wf = true := by
      first | with_reducible exact id | with_reducible exact (Otp.wf_of · rfl rfl rfl rfl) | exact (fun _ => rfl))
    (w_law : t.law.wf = true → n_law.wf = true := by
      first | with_reducible exact id | with_reducible exact (Law.wf_of · rfl rfl) | exact (fun _ => rfl) | exact Law.wf_put
            | exact Law.wf_swap | exact Law.wf_copy)
    (w_hbx : t.hbx.wf = true → n_hbx.wf = true := by
      first | with_reducible exact id | with_reducible exact (Hbx.wf_of · rfl rfl) | exact (fun _ => rfl)
            | exact (by intro h; rw [Hbx.wf_iff] at *; first | exact ⟨h.2, h.1⟩ | exact ⟨h.2, h.2⟩ | exact ⟨cellsWf_put 0 _ _ _ h.1, h.2⟩)
            | exact (by intro h; split <;> with_reducible exact Hbx.wf_of h rfl rfl))
    (w_bat : t.bat.wf = true → n_bat.wf = true := by
      first | with_reducible exact id | with_reducible exact (Bat.wf_of · rfl rfl) | exact (fun _ => rfl))
    (w_upd : t.upd.wf = true → n_upd.wf = true := by
      first | with_reducible exact id | with_reducible exact (Upd.wf_of · rfl) | exact (fun _ => rfl))
    (w_bbx : t.bbx.st.wf = true → n_bbx.st.wf = true := by
      first | with_reducible exact id | with_reducible exact (EvStore.wf_eq · rfl) | with_reducible exact (EvStore.wf_of · rfl rfl) | exact (fun _ => rfl))
    (w_regs : t.regs.wf = true → n_regs.wf = true := by
      first | with_reducible exact id | with_reducible exact (Regs.wf_of · rfl rfl rfl rfl)
            | with_reducible exact (Regs.wf_putAct · rfl rfl rfl rfl) | with_reducible exact (Regs.wf_putSticky · rfl rfl rfl rfl)
            | with_reducible exact (Regs.wf_putStaged · rfl rfl rfl rfl) | with_reducible exact (Regs.wf_loadBase · rfl rfl rfl rfl)
            | exact (fun _ => rfl)) :
    Step ps s (State.mk t.time t.pending n_freeCtr n_tick n_tickAt n_regs n_chans n_aon n_sys n_sns n_law n_pwm n_hbx n_dkl n_vat n_bat n_slt n_slot n_stage n_red n_arb n_seq n_thm n_otp n_nvp n_bbx n_upd n_hst n_evt n_twp) := by
  refine h.trans ⟨?_, ?_, Nat.le_refl _⟩
  · intro p hp
    cases p
    · rfl
    · rfl
    · exact f_freeCtr.resolve_right (fun h => hp (mem_of_hasPart h))
    · exact ⟨f_tick.resolve_right (fun h => hp (mem_of_hasPart h)), f_tickAt.resolve_right (fun h => hp (mem_of_hasPart h))⟩
    · exact f_regs.resolve_right (fun h => hp (mem_of_hasPart h))
    · exact f_chans.resolve_right (fun h => hp (mem_of_hasPart h))
    · exact f_aon.resolve_right (fun h => hp (mem_of_hasPart h))
    · exact f_sys.resolve_right (fun h => hp (mem_of_hasPart h))
    · exact f_sns.resolve_right (fun h => hp (mem_of_hasPart h))
    · exact f_law.resolve_right (fun h => hp (mem_of_hasPart h))
    · exact f_pwm.resolve_right (fun h => hp (mem_of_hasPart h))
    · exact f_hbx.resolve_right (fun h => hp (mem_of_hasPart h))
    · exact f_dkl.resolve_right (fun h => hp (mem_of_hasPart h))
    · exact f_vat.resolve_right (fun h => hp (mem_of_hasPart h))
    · exact f_bat.resolve_right (fun h => hp (mem_of_hasPart h))
    · exact f_slt.resolve_right (fun h => hp (mem_of_hasPart h))
    · exact f_slot.resolve_right (fun h => hp (mem_of_hasPart h))
    · exact f_stage.resolve_right (fun h => hp (mem_of_hasPart h))
    · exact f_red.resolve_right (fun h => hp (mem_of_hasPart h))
    · exact f_arb.resolve_right (fun h => hp (mem_of_hasPart h))
    · exact f_seq.resolve_right (fun h => hp (mem_of_hasPart h))
    · exact f_thm.resolve_right (fun h => hp (mem_of_hasPart h))
    · exact f_otp.resolve_right (fun h => hp (mem_of_hasPart h))
    · exact f_nvp.resolve_right (fun h => hp (mem_of_hasPart h))
    · exact f_bbx.resolve_right (fun h => hp (mem_of_hasPart h))
    · exact f_upd.resolve_right (fun h => hp (mem_of_hasPart h))
    · exact f_hst.resolve_right (fun h => hp (mem_of_hasPart h))
    · exact f_evt.resolve_right (fun h => hp (mem_of_hasPart h))
    · exact f_twp.resolve_right (fun h => hp (mem_of_hasPart h))
    · exact f_lock.resolve_right (fun h => hp (mem_of_hasPart h))
    · exact f_mode.resolve_right (fun h => hp (mem_of_hasPart h))
    · exact f_role.resolve_right (fun h => hp (mem_of_hasPart h))
    · exact f_epoch.resolve_right (fun h => hp (mem_of_hasPart h))
    · exact f_fuse.resolve_right (fun h => hp (mem_of_hasPart h))
    · exact f_store.resolve_right (fun h => hp (mem_of_hasPart h))
    · exact f_flash.resolve_right (fun h => hp (mem_of_hasPart h))
    · exact f_config.resolve_right (fun h => hp (mem_of_hasPart h))
  · rintro ⟨a, b, c, d, e, f, g, h⟩
    exact ⟨w_nvp a, w_otp b, w_law c, w_hbx d, w_bat e, w_bbx f, w_upd g, w_regs h⟩

/-! ### Answers -/

theorem Answers.ok (h : Step ps s t) : Answers ps s (Machine.ok t) := ⟨t, rfl, h⟩

theorem Answers.cut {o : Host.Outcome State Fault Refusal} (x : State) (h : Step ps s x) (k : Step ps s x → Answers ps s o) :
    Answers ps s o := k h

theorem Answers.next (h : Step ps s t) : Answers ps s (.next t) := ⟨t, rfl, h⟩

end Sys2Proof.Machine
end

