-- ==== Sys2Proof/Laws/FrameCore.lean ====
section
/-! SUPPORT. What each operation and each command may change, and that it keeps the addressed stores in form: flags and counters, the shared operations, the two resets.
The parts a lemma lists are those of `Sys2Proof.Machine.Part`; every other part stands as it was. -/

set_option Elab.async false
set_option maxRecDepth 4000

namespace Sys2Proof.Machine

/-! ### Flags -/

theorem step_setFld {s : State} {f : Fld} {v : Nat} : Step [.regs, .config] s (State.setFld s f v) := by
  unfold State.setFld
  repeat' (first
    | with_reducible apply Step.refl
    | with_reducible assumption
    | exact Eq.refl true
    | ((conv => arg 3; arg 28); refine Step.put ?_)
    | (extract_lets +onlyGivenNames lv; first | ((first | refine Step.cut lv ?_ ?_ | refine Answers.cut lv ?_ ?_); unfold lv; clear lv; rotate_left; intro hx; clear_value lv; revert lv; intro _ _) | (revert lv; intro _))
    | split)

theorem step_hwFld {s : State} {f : Fld} {v : Nat} : Step [.regs, .config] s (State.hwFld s f v) := by
  unfold State.hwFld
  repeat' (first
    | with_reducible apply Step.refl
    | with_reducible assumption
    | exact Eq.refl true
    | ((conv => arg 3; arg 28); refine Step.put ?_)
    | (extract_lets +onlyGivenNames lv; first | ((first | refine Step.cut lv ?_ ?_ | refine Answers.cut lv ?_ ?_); unfold lv; clear lv; rotate_left; intro hx; clear_value lv; revert lv; intro _ _) | (revert lv; intro _))
    | with_reducible apply Step.after step_setFld
    | with_reducible apply Step.when
    | (with_reducible apply Step.foldl; intro fs fa)
    | (with_reducible apply Step.foldFin; intro fs fa)
    | (with_reducible apply Step.foldlFst; intro fs fa)
    | exact (fun _ => rfl)
    | (intro n; dsimp only; split <;> rfl)
    | (split; rename_i heq; have hx : (_ : State) = _ := congrArg Prod.snd heq; dsimp only at hx; subst hx)
    | (split; rename_i heq; have hx : (_ : State) = _ := congrArg Prod.fst heq; dsimp only at hx; subst hx)
    | (intro (n : Nvp) hn; simp only [Nvp.wf, Bool.and_eq_true] at hn ⊢; first | exact ⟨⟨nvpPuts_wf _ _ hn.1.1, hn.1.2⟩, hn.2⟩ | exact ⟨hn.1, rfl⟩)
    | (intro (n : Nvp) hn; split <;> (with_reducible exact Nvp.wf_of hn rfl rfl rfl))
    | (intro (n : Nvp) hn; with_reducible exact Nvp.wf_of hn rfl rfl rfl)
    | (intro (n : Otp) hn; split <;> (with_reducible exact Otp.wf_of hn rfl rfl rfl rfl))
    | (intro (n : Otp) hn; with_reducible exact Otp.wf_of hn rfl rfl rfl rfl)
    | (intro (n : Upd) hn; split <;> (with_reducible exact Upd.wf_of hn rfl))
    | (intro (n : Upd) hn; with_reducible exact Upd.wf_of hn rfl)
    | (intro (n : EvStore) hn; rw [EvStore.wf_iff] at *; first | exact ⟨cellsWf_put 0 _ _ _ hn.1, hn.2⟩ | exact ⟨hn.1, cellsWf_put _ _ _ _ hn.2⟩ | exact ⟨cellsWf_filter 0 _ _ hn.1, hn.2⟩)
    | (intro (n : EvStore) hn; split <;> (with_reducible exact EvStore.wf_of hn rfl rfl))
    | (intro (n : EvStore) hn; with_reducible exact EvStore.wf_of hn rfl rfl)
    | (intro (n : Bbx) hn; split <;> (with_reducible exact EvStore.wf_of hn rfl rfl))
    | (intro (n : Bbx) hn; with_reducible exact EvStore.wf_eq hn rfl)
    | (intro (n : Bbx) hn; with_reducible exact EvStore.wf_of hn rfl rfl)
    | split)

theorem step_stickWord {s : State} {off : Nat} {w : Word} : Step [.regs] s (State.stickWord s off w) := by
  unfold State.stickWord
  repeat' (first
    | with_reducible apply Step.refl
    | with_reducible assumption
    | exact Eq.refl true
    | ((conv => arg 3; arg 28); refine Step.put ?_)
    | (extract_lets +onlyGivenNames lv; first | ((first | refine Step.cut lv ?_ ?_ | refine Answers.cut lv ?_ ?_); unfold lv; clear lv; rotate_left; intro hx; clear_value lv; revert lv; intro _ _) | (revert lv; intro _))
    | with_reducible apply Step.when
    | (with_reducible apply Step.foldl; intro fs fa)
    | (with_reducible apply Step.foldFin; intro fs fa)
    | (with_reducible apply Step.foldlFst; intro fs fa)
    | exact (fun _ => rfl)
    | (intro n; dsimp only; split <;> rfl)
    | (split; rename_i heq; have hx : (_ : State) = _ := congrArg Prod.snd heq; dsimp only at hx; subst hx)
    | (split; rename_i heq; have hx : (_ : State) = _ := congrArg Prod.fst heq; dsimp only at hx; subst hx)
    | (intro (n : Nvp) hn; simp only [Nvp.wf, Bool.and_eq_true] at hn ⊢; first | exact ⟨⟨nvpPuts_wf _ _ hn.1.1, hn.1.2⟩, hn.2⟩ | exact ⟨hn.1, rfl⟩)
    | (intro (n : Nvp) hn; split <;> (with_reducible exact Nvp.wf_of hn rfl rfl rfl))
    | (intro (n : Nvp) hn; with_reducible exact Nvp.wf_of hn rfl rfl rfl)
    | (intro (n : Otp) hn; split <;> (with_reducible exact Otp.wf_of hn rfl rfl rfl rfl))
    | (intro (n : Otp) hn; with_reducible exact Otp.wf_of hn rfl rfl rfl rfl)
    | (intro (n : Upd) hn; split <;> (with_reducible exact Upd.wf_of hn rfl))
    | (intro (n : Upd) hn; with_reducible exact Upd.wf_of hn rfl)
    | (intro (n : EvStore) hn; rw [EvStore.wf_iff] at *; first | exact ⟨cellsWf_put 0 _ _ _ hn.1, hn.2⟩ | exact ⟨hn.1, cellsWf_put _ _ _ _ hn.2⟩ | exact ⟨cellsWf_filter 0 _ _ hn.1, hn.2⟩)
    | (intro (n : EvStore) hn; split <;> (with_reducible exact EvStore.wf_of hn rfl rfl))
    | (intro (n : EvStore) hn; with_reducible exact EvStore.wf_of hn rfl rfl)
    | (intro (n : Bbx) hn; split <;> (with_reducible exact EvStore.wf_of hn rfl rfl))
    | (intro (n : Bbx) hn; with_reducible exact EvStore.wf_eq hn rfl)
    | (intro (n : Bbx) hn; with_reducible exact EvStore.wf_of hn rfl rfl)
    | split)

theorem step_stick {s : State} {f : Fld} : Step [.regs] s (State.stick s f) := by
  unfold State.stick
  repeat' (first
    | with_reducible apply Step.refl
    | with_reducible assumption
    | exact Eq.refl true
    | ((conv => arg 3; arg 28); refine Step.put ?_)
    | (extract_lets +onlyGivenNames lv; first | ((first | refine Step.cut lv ?_ ?_ | refine Answers.cut lv ?_ ?_); unfold lv; clear lv; rotate_left; intro hx; clear_value lv; revert lv; intro _ _) | (revert lv; intro _))
    | with_reducible apply Step.after step_stickWord
    | split)

theorem step_stickIf {s : State} {c : Bool} {f : Fld} : Step [.regs] s (State.stickIf s c f) := by
  unfold State.stickIf
  repeat' (first
    | with_reducible apply Step.refl
    | with_reducible assumption
    | exact Eq.refl true
    | (extract_lets +onlyGivenNames lv; first | ((first | refine Step.cut lv ?_ ?_ | refine Answers.cut lv ?_ ?_); unfold lv; clear lv; rotate_left; intro hx; clear_value lv; revert lv; intro _ _) | (revert lv; intro _))
    | with_reducible apply Step.after step_stick
    | split)

theorem step_stickBit {s : State} {f : Fld} {k : Nat} : Step [.regs] s (State.stickBit s f k) := by
  unfold State.stickBit
  repeat' (first
    | with_reducible apply Step.refl
    | with_reducible assumption
    | exact Eq.refl true
    | ((conv => arg 3; arg 28); refine Step.put ?_)
    | (extract_lets +onlyGivenNames lv; first | ((first | refine Step.cut lv ?_ ?_ | refine Answers.cut lv ?_ ?_); unfold lv; clear lv; rotate_left; intro hx; clear_value lv; revert lv; intro _ _) | (revert lv; intro _))
    | with_reducible apply Step.after step_stickWord
    | split)

theorem step_unstick {s : State} {f : Fld} : Step [.regs] s (State.unstick s f) := by
  unfold State.unstick
  repeat' (first
    | with_reducible apply Step.refl
    | with_reducible assumption
    | exact Eq.refl true
    | ((conv => arg 3; arg 28); refine Step.put ?_)
    | (extract_lets +onlyGivenNames lv; first | ((first | refine Step.cut lv ?_ ?_ | refine Answers.cut lv ?_ ?_); unfold lv; clear lv; rotate_left; intro hx; clear_value lv; revert lv; intro _ _) | (revert lv; intro _))
    | with_reducible apply Step.when
    | (with_reducible apply Step.foldl; intro fs fa)
    | (with_reducible apply Step.foldFin; intro fs fa)
    | (with_reducible apply Step.foldlFst; intro fs fa)
    | exact (fun _ => rfl)
    | (intro n; dsimp only; split <;> rfl)
    | (split; rename_i heq; have hx : (_ : State) = _ := congrArg Prod.snd heq; dsimp only at hx; subst hx)
    | (split; rename_i heq; have hx : (_ : State) = _ := congrArg Prod.fst heq; dsimp only at hx; subst hx)
    | (intro (n : Nvp) hn; simp only [Nvp.wf, Bool.and_eq_true] at hn ⊢; first | exact ⟨⟨nvpPuts_wf _ _ hn.1.1, hn.1.2⟩, hn.2⟩ | exact ⟨hn.1, rfl⟩)
    | (intro (n : Nvp) hn; split <;> (with_reducible exact Nvp.wf_of hn rfl rfl rfl))
    | (intro (n : Nvp) hn; with_reducible exact Nvp.wf_of hn rfl rfl rfl)
    | (intro (n : Otp) hn; split <;> (with_reducible exact Otp.wf_of hn rfl rfl rfl rfl))
    | (intro (n : Otp) hn; with_reducible exact Otp.wf_of hn rfl rfl rfl rfl)
    | (intro (n : Upd) hn; split <;> (with_reducible exact Upd.wf_of hn rfl))
    | (intro (n : Upd) hn; with_reducible exact Upd.wf_of hn rfl)
    | (intro (n : EvStore) hn; rw [EvStore.wf_iff] at *; first | exact ⟨cellsWf_put 0 _ _ _ hn.1, hn.2⟩ | exact ⟨hn.1, cellsWf_put _ _ _ _ hn.2⟩ | exact ⟨cellsWf_filter 0 _ _ hn.1, hn.2⟩)
    | (intro (n : EvStore) hn; split <;> (with_reducible exact EvStore.wf_of hn rfl rfl))
    | (intro (n : EvStore) hn; with_reducible exact EvStore.wf_of hn rfl rfl)
    | (intro (n : Bbx) hn; split <;> (with_reducible exact EvStore.wf_of hn rfl rfl))
    | (intro (n : Bbx) hn; with_reducible exact EvStore.wf_eq hn rfl)
    | (intro (n : Bbx) hn; with_reducible exact EvStore.wf_of hn rfl rfl)
    | split)

theorem step_fireRaw {s : State} {src : Nat} {data : BitVec 64} {cls : Option Nat} {sat : Bool} : Step [.chans] s (State.fireRaw s src data cls sat) := by
  unfold State.fireRaw
  repeat' (first
    | with_reducible apply Step.refl
    | with_reducible assumption
    | exact Eq.refl true
    | ((conv => arg 3; arg 28); refine Step.put ?_)
    | (extract_lets +onlyGivenNames lv; first | ((first | refine Step.cut lv ?_ ?_ | refine Answers.cut lv ?_ ?_); unfold lv; clear lv; rotate_left; intro hx; clear_value lv; revert lv; intro _ _) | (revert lv; intro _))
    | split)

theorem step_fire {s : State} {src : Nat} {cause : Nat} {mid : optParam Nat 0} {hi : optParam Int 0} : Step [.chans] s (State.fire s src cause mid hi) := by
  unfold State.fire
  repeat' (first
    | with_reducible apply Step.refl
    | with_reducible assumption
    | exact Eq.refl true
    | (extract_lets +onlyGivenNames lv; first | ((first | refine Step.cut lv ?_ ?_ | refine Answers.cut lv ?_ ?_); unfold lv; clear lv; rotate_left; intro hx; clear_value lv; revert lv; intro _ _) | (revert lv; intro _))
    | with_reducible apply Step.after step_fireRaw
    | split)

theorem step_fireCls {s : State} {src : Nat} {cause : Nat} {mid : Nat} {hi : Int} {cls : Nat} : Step [.chans] s (State.fireCls s src cause mid hi cls) := by
  unfold State.fireCls
  repeat' (first
    | with_reducible apply Step.refl
    | with_reducible assumption
    | exact Eq.refl true
    | (extract_lets +onlyGivenNames lv; first | ((first | refine Step.cut lv ?_ ?_ | refine Answers.cut lv ?_ ?_); unfold lv; clear lv; rotate_left; intro hx; clear_value lv; revert lv; intro _ _) | (revert lv; intro _))
    | with_reducible apply Step.after step_fireRaw
    | split)

theorem step_fireSat {s : State} {src : Nat} {off : Nat} : Step [.chans] s (State.fireSat s src off) := by
  unfold State.fireSat
  repeat' (first
    | with_reducible apply Step.refl
    | with_reducible assumption
    | exact Eq.refl true
    | (extract_lets +onlyGivenNames lv; first | ((first | refine Step.cut lv ?_ ?_ | refine Answers.cut lv ?_ ?_); unfold lv; clear lv; rotate_left; intro hx; clear_value lv; revert lv; intro _ _) | (revert lv; intro _))
    | with_reducible apply Step.after step_fireRaw
    | split)

theorem step_counted {s : State} {n : Nat} {off : Nat} : Step [.chans] s (State.counted s n off) := by
  unfold State.counted
  repeat' (first
    | with_reducible apply Step.refl
    | with_reducible assumption
    | exact Eq.refl true
    | ((conv => arg 3; arg 28); refine Step.put ?_)
    | (extract_lets +onlyGivenNames lv; first | ((first | refine Step.cut lv ?_ ?_ | refine Answers.cut lv ?_ ?_); unfold lv; clear lv; rotate_left; intro hx; clear_value lv; revert lv; intro _ _) | (revert lv; intro _))
    | with_reducible apply Step.when
    | (with_reducible apply Step.foldl; intro fs fa)
    | (with_reducible apply Step.foldFin; intro fs fa)
    | (with_reducible apply Step.foldlFst; intro fs fa)
    | exact (fun _ => rfl)
    | (intro n; dsimp only; split <;> rfl)
    | (split; rename_i heq; have hx : (_ : State) = _ := congrArg Prod.snd heq; dsimp only at hx; subst hx)
    | (split; rename_i heq; have hx : (_ : State) = _ := congrArg Prod.fst heq; dsimp only at hx; subst hx)
    | (intro (n : Nvp) hn; simp only [Nvp.wf, Bool.and_eq_true] at hn ⊢; first | exact ⟨⟨nvpPuts_wf _ _ hn.1.1, hn.1.2⟩, hn.2⟩ | exact ⟨hn.1, rfl⟩)
    | (intro (n : Nvp) hn; split <;> (with_reducible exact Nvp.wf_of hn rfl rfl rfl))
    | (intro (n : Nvp) hn; with_reducible exact Nvp.wf_of hn rfl rfl rfl)
    | (intro (n : Otp) hn; split <;> (with_reducible exact Otp.wf_of hn rfl rfl rfl rfl))
    | (intro (n : Otp) hn; with_reducible exact Otp.wf_of hn rfl rfl rfl rfl)
    | (intro (n : Upd) hn; split <;> (with_reducible exact Upd.wf_of hn rfl))
    | (intro (n : Upd) hn; with_reducible exact Upd.wf_of hn rfl)
    | (intro (n : EvStore) hn; rw [EvStore.wf_iff] at *; first | exact ⟨cellsWf_put 0 _ _ _ hn.1, hn.2⟩ | exact ⟨hn.1, cellsWf_put _ _ _ _ hn.2⟩ | exact ⟨cellsWf_filter 0 _ _ hn.1, hn.2⟩)
    | (intro (n : EvStore) hn; split <;> (with_reducible exact EvStore.wf_of hn rfl rfl))
    | (intro (n : EvStore) hn; with_reducible exact EvStore.wf_of hn rfl rfl)
    | (intro (n : Bbx) hn; split <;> (with_reducible exact EvStore.wf_of hn rfl rfl))
    | (intro (n : Bbx) hn; with_reducible exact EvStore.wf_eq hn rfl)
    | (intro (n : Bbx) hn; with_reducible exact EvStore.wf_of hn rfl rfl)
    | split)

theorem step_satEv {s : State} {old : Ctr} {new : Ctr} {src : Nat} {off : Nat} : Step [.chans] s (State.satEv s old new src off) := by
  unfold State.satEv
  repeat' (first
    | with_reducible apply Step.refl
    | with_reducible assumption
    | exact Eq.refl true
    | (extract_lets +onlyGivenNames lv; first | ((first | refine Step.cut lv ?_ ?_ | refine Answers.cut lv ?_ ?_); unfold lv; clear lv; rotate_left; intro hx; clear_value lv; revert lv; intro _ _) | (revert lv; intro _))
    | with_reducible apply Step.after step_counted
    | with_reducible apply Step.after step_fireSat
    | split)

theorem step_satIf {s : State} {b : Bool} {old : Ctr} {new : Ctr} {src : Nat} {off : Nat} : Step [.chans] s (State.satIf s b old new src off) := by
  unfold State.satIf
  repeat' (first
    | with_reducible apply Step.refl
    | with_reducible assumption
    | exact Eq.refl true
    | ((conv => arg 3; arg 28); refine Step.put ?_)
    | (extract_lets +onlyGivenNames lv; first | ((first | refine Step.cut lv ?_ ?_ | refine Answers.cut lv ?_ ?_); unfold lv; clear lv; rotate_left; intro hx; clear_value lv; revert lv; intro _ _) | (revert lv; intro _))
    | with_reducible apply Step.after step_satEv
    | with_reducible apply Step.when
    | (with_reducible apply Step.foldl; intro fs fa)
    | (with_reducible apply Step.foldFin; intro fs fa)
    | (with_reducible apply Step.foldlFst; intro fs fa)
    | exact (fun _ => rfl)
    | (intro n; dsimp only; split <;> rfl)
    | (split; rename_i heq; have hx : (_ : State) = _ := congrArg Prod.snd heq; dsimp only at hx; subst hx)
    | (split; rename_i heq; have hx : (_ : State) = _ := congrArg Prod.fst heq; dsimp only at hx; subst hx)
    | (intro (n : Nvp) hn; simp only [Nvp.wf, Bool.and_eq_true] at hn ⊢; first | exact ⟨⟨nvpPuts_wf _ _ hn.1.1, hn.1.2⟩, hn.2⟩ | exact ⟨hn.1, rfl⟩)
    | (intro (n : Nvp) hn; split <;> (with_reducible exact Nvp.wf_of hn rfl rfl rfl))
    | (intro (n : Nvp) hn; with_reducible exact Nvp.wf_of hn rfl rfl rfl)
    | (intro (n : Otp) hn; split <;> (with_reducible exact Otp.wf_of hn rfl rfl rfl rfl))
    | (intro (n : Otp) hn; with_reducible exact Otp.wf_of hn rfl rfl rfl rfl)
    | (intro (n : Upd) hn; split <;> (with_reducible exact Upd.wf_of hn rfl))
    | (intro (n : Upd) hn; with_reducible exact Upd.wf_of hn rfl)
    | (intro (n : EvStore) hn; rw [EvStore.wf_iff] at *; first | exact ⟨cellsWf_put 0 _ _ _ hn.1, hn.2⟩ | exact ⟨hn.1, cellsWf_put _ _ _ _ hn.2⟩ | exact ⟨cellsWf_filter 0 _ _ hn.1, hn.2⟩)
    | (intro (n : EvStore) hn; split <;> (with_reducible exact EvStore.wf_of hn rfl rfl))
    | (intro (n : EvStore) hn; with_reducible exact EvStore.wf_of hn rfl rfl)
    | (intro (n : Bbx) hn; split <;> (with_reducible exact EvStore.wf_of hn rfl rfl))
    | (intro (n : Bbx) hn; with_reducible exact EvStore.wf_eq hn rfl)
    | (intro (n : Bbx) hn; with_reducible exact EvStore.wf_of hn rfl rfl)
    | split)

/-! ### Ops -/

theorem step_drawn {s : State} : Step [.freeCtr] s (State.drawn s) := by
  unfold State.drawn
  repeat' (first
    | with_reducible apply Step.refl
    | with_reducible assumption
    | exact Eq.refl true
    | ((conv => arg 3; arg 28); refine Step.put ?_)
    | (extract_lets +onlyGivenNames lv; first | ((first | refine Step.cut lv ?_ ?_ | refine Answers.cut lv ?_ ?_); unfold lv; clear lv; rotate_left; intro hx; clear_value lv; revert lv; intro _ _) | (revert lv; intro _))
    | split)

theorem step_latchClaim {s : State} : Step [.red] s (State.latchClaim s) := by
  unfold State.latchClaim
  repeat' (first
    | with_reducible apply Step.refl
    | with_reducible assumption
    | exact Eq.refl true
    | ((conv => arg 3; arg 28); refine Step.put ?_)
    | (extract_lets +onlyGivenNames lv; first | ((first | refine Step.cut lv ?_ ?_ | refine Answers.cut lv ?_ ?_); unfold lv; clear lv; rotate_left; intro hx; clear_value lv; revert lv; intro _ _) | (revert lv; intro _))
    | split)

theorem step_claimDrop {s : State} : Step [.slt, .red] s (State.claimDrop s) := by
  unfold State.claimDrop
  repeat' (first
    | with_reducible apply Step.refl
    | with_reducible assumption
    | exact Eq.refl true
    | ((conv => arg 3; arg 28); refine Step.put ?_)
    | (extract_lets +onlyGivenNames lv; first | ((first | refine Step.cut lv ?_ ?_ | refine Answers.cut lv ?_ ?_); unfold lv; clear lv; rotate_left; intro hx; clear_value lv; revert lv; intro _ _) | (revert lv; intro _))
    | split)

theorem step_snsSat {s : State} : Step [.chans, .sns] s (State.snsSat s) := by
  unfold State.snsSat
  repeat' (first
    | with_reducible apply Step.refl
    | with_reducible assumption
    | exact Eq.refl true
    | ((conv => arg 3; arg 28); refine Step.put ?_)
    | (extract_lets +onlyGivenNames lv; first | ((first | refine Step.cut lv ?_ ?_ | refine Answers.cut lv ?_ ?_); unfold lv; clear lv; rotate_left; intro hx; clear_value lv; revert lv; intro _ _) | (revert lv; intro _))
    | with_reducible apply Step.after step_fireSat
    | with_reducible apply Step.when
    | (with_reducible apply Step.foldl; intro fs fa)
    | (with_reducible apply Step.foldFin; intro fs fa)
    | (with_reducible apply Step.foldlFst; intro fs fa)
    | exact (fun _ => rfl)
    | (intro n; dsimp only; split <;> rfl)
    | (split; rename_i heq; have hx : (_ : State) = _ := congrArg Prod.snd heq; dsimp only at hx; subst hx)
    | (split; rename_i heq; have hx : (_ : State) = _ := congrArg Prod.fst heq; dsimp only at hx; subst hx)
    | (intro (n : Nvp) hn; simp only [Nvp.wf, Bool.and_eq_true] at hn ⊢; first | exact ⟨⟨nvpPuts_wf _ _ hn.1.1, hn.1.2⟩, hn.2⟩ | exact ⟨hn.1, rfl⟩)
    | (intro (n : Nvp) hn; split <;> (with_reducible exact Nvp.wf_of hn rfl rfl rfl))
    | (intro (n : Nvp) hn; with_reducible exact Nvp.wf_of hn rfl rfl rfl)
    | (intro (n : Otp) hn; split <;> (with_reducible exact Otp.wf_of hn rfl rfl rfl rfl))
    | (intro (n : Otp) hn; with_reducible exact Otp.wf_of hn rfl rfl rfl rfl)
    | (intro (n : Upd) hn; split <;> (with_reducible exact Upd.wf_of hn rfl))
    | (intro (n : Upd) hn; with_reducible exact Upd.wf_of hn rfl)
    | (intro (n : EvStore) hn; rw [EvStore.wf_iff] at *; first | exact ⟨cellsWf_put 0 _ _ _ hn.1, hn.2⟩ | exact ⟨hn.1, cellsWf_put _ _ _ _ hn.2⟩ | exact ⟨cellsWf_filter 0 _ _ hn.1, hn.2⟩)
    | (intro (n : EvStore) hn; split <;> (with_reducible exact EvStore.wf_of hn rfl rfl))
    | (intro (n : EvStore) hn; with_reducible exact EvStore.wf_of hn rfl rfl)
    | (intro (n : Bbx) hn; split <;> (with_reducible exact EvStore.wf_of hn rfl rfl))
    | (intro (n : Bbx) hn; with_reducible exact EvStore.wf_eq hn rfl)
    | (intro (n : Bbx) hn; with_reducible exact EvStore.wf_of hn rfl rfl)
    | split)

/-! ### Reset -/

theorem Nvp.store_wf {n : Nvp} (h : n.wf = true) : cellsWf ⟨0, 0⟩ n.store = true := by
  simp only [Nvp.wf, Bool.and_eq_true] at h
  exact h.1.1

theorem Nvp.wf_store {n : Nvp} {m : Cells NWord} (h : n.wf = true) (k : cellsWf ⟨0, 0⟩ m = true) :
    Nvp.wf { n with store := m } = true := by
  simp only [Nvp.wf, Bool.and_eq_true] at *
  exact ⟨⟨k, h.1.2⟩, h.2⟩

theorem Nvp.wf_save {n : Nvp} {v : Option Save} (h : n.wf = true) (k : v.all (fun v => v.frozen.all EvStore.wf) = true) :
    Nvp.wf { n with save := v } = true := by
  simp only [Nvp.wf, Bool.and_eq_true] at *
  exact ⟨h.1, k⟩

theorem Nvp.save_wf {n : Nvp} (h : n.wf = true) : n.save.all (fun v => v.frozen.all EvStore.wf) = true := by
  simp only [Nvp.wf, Bool.and_eq_true] at h
  exact h.2

theorem Nvp.image_wf {n : Nvp} (h : n.wf = true) : n.image.all (fun i => i.store.wf) = true := by
  simp only [Nvp.wf, Bool.and_eq_true] at h
  exact h.1.2

theorem Nvp.wf_image {n : Nvp} {v : Option Image} (h : n.wf = true) (k : v.all (fun i => i.store.wf) = true) :
    Nvp.wf { n with image := v } = true := by
  simp only [Nvp.wf, Bool.and_eq_true] at *
  exact ⟨⟨h.1.1, k⟩, h.2⟩

/-- Words put into the parameter store keep its form. -/
theorem nvpPuts_wf (l : List (Nat × BitVec 64)) (m : Cells NWord) (h : cellsWf ⟨0, 0⟩ m = true) :
    cellsWf ⟨0, 0⟩ (l.foldl (fun m p => cellPut ⟨0, 0⟩ m p.1 ⟨p.2, 0⟩) m) = true :=
  cellsWf_puts ⟨0, 0⟩ Prod.fst (fun _ p => ⟨p.2, 0⟩) l m h

theorem Nvp.warm_wf {n : Nvp} (h : n.wf = true) : n.warm.wf = true := by
  simpa only [Nvp.warm, Nvp.wf] using h

theorem Otp.warm_wf {o : Otp} {c : Bool} (h : o.wf = true) : (o.warm c).wf = true := by
  simpa only [Otp.warm, Otp.wf] using h

theorem Bbx.warm_wf {b : Bbx} (h : b.st.wf = true) : b.warm.st.wf = true := by
  simpa only [Bbx.warm, EvStore.wf] using h

theorem Upd.afterReset_wf {u : Upd} (h : u.wf = true) : u.afterReset.wf = true := by
  unfold Upd.afterReset
  split <;> with_reducible exact Upd.wf_of h rfl

theorem Upd.afterReset_flash (u : Upd) : u.afterReset.flash = u.flash := by
  unfold Upd.afterReset; split <;> rfl


theorem Regs.warm_wf {r : Regs} {b : Bool} (h : r.wf = true) : (r.warm b).wf = true := by
  rw [Regs.wf_iff] at *
  exact ⟨keysRise_filter _ _ h.1, cellsWf_filter 0 _ _ h.2.1, rfl, rfl⟩

theorem step_holdTime {s : State} : Step [.aon] s (State.holdTime s) := by
  unfold State.holdTime
  repeat' (first
    | with_reducible apply Step.refl
    | with_reducible assumption
    | exact Eq.refl true
    | ((conv => arg 3; arg 28); refine Step.put ?_)
    | (extract_lets +onlyGivenNames lv; first | ((first | refine Step.cut lv ?_ ?_ | refine Answers.cut lv ?_ ?_); unfold lv; clear lv; rotate_left; intro hx; clear_value lv; revert lv; intro _ _) | (revert lv; intro _))
    | split)

theorem step_commitCut {s : State} : Step [.freeCtr, .nvp, .store] s (State.commitCut s) := by
  unfold State.commitCut
  split
  · exact Step.refl
  · split
    · exact Step.refl
    · exact Step.put (Step.after step_drawn rfl Step.refl)
        (w_nvp := fun h => Nvp.wf_store h (nvpPuts_wf _ _ (Nvp.store_wf h)))

theorem step_dropEvents {s : State} {d : Vector Nat 10} : Step [.chans] s (State.dropEvents s d) := by
  unfold State.dropEvents
  repeat' (first
    | with_reducible apply Step.refl
    | with_reducible assumption
    | exact Eq.refl true
    | ((conv => arg 3; arg 28); refine Step.put ?_)
    | (extract_lets +onlyGivenNames lv; first | ((first | refine Step.cut lv ?_ ?_ | refine Answers.cut lv ?_ ?_); unfold lv; clear lv; rotate_left; intro hx; clear_value lv; revert lv; intro _ _) | (revert lv; intro _))
    | with_reducible apply Step.after step_fire
    | with_reducible apply Step.when
    | (with_reducible apply Step.foldl; intro fs fa)
    | (with_reducible apply Step.foldFin; intro fs fa)
    | (with_reducible apply Step.foldlFst; intro fs fa)
    | exact (fun _ => rfl)
    | (intro n; dsimp only; split <;> rfl)
    | (split; rename_i heq; have hx : (_ : State) = _ := congrArg Prod.snd heq; dsimp only at hx; subst hx)
    | (split; rename_i heq; have hx : (_ : State) = _ := congrArg Prod.fst heq; dsimp only at hx; subst hx)
    | (intro (n : Nvp) hn; simp only [Nvp.wf, Bool.and_eq_true] at hn ⊢; first | exact ⟨⟨nvpPuts_wf _ _ hn.1.1, hn.1.2⟩, hn.2⟩ | exact ⟨hn.1, rfl⟩)
    | (intro (n : Nvp) hn; split <;> (with_reducible exact Nvp.wf_of hn rfl rfl rfl))
    | (intro (n : Nvp) hn; with_reducible exact Nvp.wf_of hn rfl rfl rfl)
    | (intro (n : Otp) hn; split <;> (with_reducible exact Otp.wf_of hn rfl rfl rfl rfl))
    | (intro (n : Otp) hn; with_reducible exact Otp.wf_of hn rfl rfl rfl rfl)
    | (intro (n : Upd) hn; split <;> (with_reducible exact Upd.wf_of hn rfl))
    | (intro (n : Upd) hn; with_reducible exact Upd.wf_of hn rfl)
    | (intro (n : EvStore) hn; rw [EvStore.wf_iff] at *; first | exact ⟨cellsWf_put 0 _ _ _ hn.1, hn.2⟩ | exact ⟨hn.1, cellsWf_put _ _ _ _ hn.2⟩ | exact ⟨cellsWf_filter 0 _ _ hn.1, hn.2⟩)
    | (intro (n : EvStore) hn; split <;> (with_reducible exact EvStore.wf_of hn rfl rfl))
    | (intro (n : EvStore) hn; with_reducible exact EvStore.wf_of hn rfl rfl)
    | (intro (n : Bbx) hn; split <;> (with_reducible exact EvStore.wf_of hn rfl rfl))
    | (intro (n : Bbx) hn; with_reducible exact EvStore.wf_eq hn rfl)
    | (intro (n : Bbx) hn; with_reducible exact EvStore.wf_of hn rfl rfl)
    | split)

theorem step_countPulses {s : State} {n : Nat} : Step [.chans, .otp] s (State.countPulses s n) := by
  unfold State.countPulses
  repeat' (first
    | with_reducible apply Step.refl
    | with_reducible assumption
    | exact Eq.refl true
    | ((conv => arg 3; arg 28); refine Step.put ?_)
    | (extract_lets +onlyGivenNames lv; first | ((first | refine Step.cut lv ?_ ?_ | refine Answers.cut lv ?_ ?_); unfold lv; clear lv; rotate_left; intro hx; clear_value lv; revert lv; intro _ _) | (revert lv; intro _))
    | with_reducible apply Step.after step_satEv
    | with_reducible apply Step.when
    | (with_reducible apply Step.foldl; intro fs fa)
    | (with_reducible apply Step.foldFin; intro fs fa)
    | (with_reducible apply Step.foldlFst; intro fs fa)
    | exact (fun _ => rfl)
    | (intro n; dsimp only; split <;> rfl)
    | (split; rename_i heq; have hx : (_ : State) = _ := congrArg Prod.snd heq; dsimp only at hx; subst hx)
    | (split; rename_i heq; have hx : (_ : State) = _ := congrArg Prod.fst heq; dsimp only at hx; subst hx)
    | (intro (n : Nvp) hn; simp only [Nvp.wf, Bool.and_eq_true] at hn ⊢; first | exact ⟨⟨nvpPuts_wf _ _ hn.1.1, hn.1.2⟩, hn.2⟩ | exact ⟨hn.1, rfl⟩)
    | (intro (n : Nvp) hn; split <;> (with_reducible exact Nvp.wf_of hn rfl rfl rfl))
    | (intro (n : Nvp) hn; with_reducible exact Nvp.wf_of hn rfl rfl rfl)
    | (intro (n : Otp) hn; split <;> (with_reducible exact Otp.wf_of hn rfl rfl rfl rfl))
    | (intro (n : Otp) hn; with_reducible exact Otp.wf_of hn rfl rfl rfl rfl)
    | (intro (n : Upd) hn; split <;> (with_reducible exact Upd.wf_of hn rfl))
    | (intro (n : Upd) hn; with_reducible exact Upd.wf_of hn rfl)
    | (intro (n : EvStore) hn; rw [EvStore.wf_iff] at *; first | exact ⟨cellsWf_put 0 _ _ _ hn.1, hn.2⟩ | exact ⟨hn.1, cellsWf_put _ _ _ _ hn.2⟩ | exact ⟨cellsWf_filter 0 _ _ hn.1, hn.2⟩)
    | (intro (n : EvStore) hn; split <;> (with_reducible exact EvStore.wf_of hn rfl rfl))
    | (intro (n : EvStore) hn; with_reducible exact EvStore.wf_of hn rfl rfl)
    | (intro (n : Bbx) hn; split <;> (with_reducible exact EvStore.wf_of hn rfl rfl))
    | (intro (n : Bbx) hn; with_reducible exact EvStore.wf_eq hn rfl)
    | (intro (n : Bbx) hn; with_reducible exact EvStore.wf_of hn rfl rfl)
    | split)

theorem step_otpCut {s0 : State} : Step [.freeCtr, .chans, .otp, .fuse] s0 (State.otpCut s0) := by
  unfold State.otpCut
  split
  · exact Step.refl
  · extract_lets +onlyGivenNames s1
    have h1 : Step [.freeCtr, .chans, .otp, .fuse] s0 s1 := Step.after step_countPulses rfl (Step.after step_drawn rfl Step.refl)
    clear_value s1
    refine Step.put (Step.after step_drawn rfl (Step.after step_drawn rfl h1)) (w_otp := fun h => ?_)
    simp only [Otp.wf, Bool.and_eq_true] at h ⊢
    exact ⟨⟨⟨cellsWf_put 0 _ _ _ h.1.1.1, cellsWf_put 0 _ _ _ h.1.1.2⟩, cellsWf_put 0 _ _ _ h.1.2⟩, cellsWf_put 0 _ _ _ h.2⟩

theorem step_islandsReset {s : State} : Step [.tick, .sns, .law, .pwm, .hbx, .dkl, .vat, .bat, .slt, .red, .arb, .seq, .thm, .upd, .hst, .evt, .twp] s (State.islandsReset s) := by
  unfold State.islandsReset
  exact Step.put Step.refl (f_flash := Or.inl (Upd.afterReset_flash _)) (w_upd := Upd.afterReset_wf)

theorem step_reportAbort {s : State} {u : Upd} : Step [.chans] s (State.reportAbort s u) := by
  unfold State.reportAbort
  repeat' (first
    | with_reducible apply Step.refl
    | with_reducible assumption
    | exact Eq.refl true
    | (extract_lets +onlyGivenNames lv; first | ((first | refine Step.cut lv ?_ ?_ | refine Answers.cut lv ?_ ?_); unfold lv; clear lv; rotate_left; intro hx; clear_value lv; revert lv; intro _ _) | (revert lv; intro _))
    | with_reducible apply Step.after step_fire
    | split)

theorem step_recReset {s0 : State} {cold : Bool} : Step [.freeCtr, .regs, .chans, .nvp, .bbx, .store, .config] s0 (State.recReset s0 cold) := by
  unfold State.recReset
  extract_lets +onlyGivenNames s1
  have h1 : Step [.freeCtr, .regs, .chans, .nvp, .bbx, .store, .config] s0 s1 := Step.after step_commitCut rfl Step.refl
  clear_value s1
  refine Step.put h1 (w_nvp := fun h => ?_) (w_bbx := fun h => ?_) (w_regs := fun h => ?_)
  · split
    · have k := Nvp.warm_wf h
      with_reducible exact Nvp.wf_of k rfl rfl rfl
    · exact Nvp.warm_wf h
  · split
    · rfl
    · exact Bbx.warm_wf h
  · rw [Regs.wf_iff] at *
    exact ⟨keysRise_filter _ _ h.1, cellsWf_filter 0 _ _ h.2.1, h.2.2⟩

theorem step_recResetOrWait {s : State} {cold : Bool} : Step [.freeCtr, .regs, .chans, .nvp, .bbx, .store, .config] s (State.recResetOrWait s cold) := by
  unfold State.recResetOrWait
  repeat' (first
    | with_reducible apply Step.refl
    | with_reducible assumption
    | exact Eq.refl true
    | ((conv => arg 3; arg 28); refine Step.put ?_)
    | (extract_lets +onlyGivenNames lv; first | ((first | refine Step.cut lv ?_ ?_ | refine Answers.cut lv ?_ ?_); unfold lv; clear lv; rotate_left; intro hx; clear_value lv; revert lv; intro _ _) | (revert lv; intro _))
    | with_reducible apply Step.after step_recReset
    | with_reducible apply Step.when
    | (with_reducible apply Step.foldl; intro fs fa)
    | (with_reducible apply Step.foldFin; intro fs fa)
    | (with_reducible apply Step.foldlFst; intro fs fa)
    | exact (fun _ => rfl)
    | (intro n; dsimp only; split <;> rfl)
    | (split; rename_i heq; have hx : (_ : State) = _ := congrArg Prod.snd heq; dsimp only at hx; subst hx)
    | (split; rename_i heq; have hx : (_ : State) = _ := congrArg Prod.fst heq; dsimp only at hx; subst hx)
    | (intro (n : Nvp) hn; simp only [Nvp.wf, Bool.and_eq_true] at hn ⊢; first | exact ⟨⟨nvpPuts_wf _ _ hn.1.1, hn.1.2⟩, hn.2⟩ | exact ⟨hn.1, rfl⟩)
    | (intro (n : Nvp) hn; split <;> (with_reducible exact Nvp.wf_of hn rfl rfl rfl))
    | (intro (n : Nvp) hn; with_reducible exact Nvp.wf_of hn rfl rfl rfl)
    | (intro (n : Otp) hn; split <;> (with_reducible exact Otp.wf_of hn rfl rfl rfl rfl))
    | (intro (n : Otp) hn; with_reducible exact Otp.wf_of hn rfl rfl rfl rfl)
    | (intro (n : Upd) hn; split <;> (with_reducible exact Upd.wf_of hn rfl))
    | (intro (n : Upd) hn; with_reducible exact Upd.wf_of hn rfl)
    | (intro (n : EvStore) hn; rw [EvStore.wf_iff] at *; first | exact ⟨cellsWf_put 0 _ _ _ hn.1, hn.2⟩ | exact ⟨hn.1, cellsWf_put _ _ _ _ hn.2⟩ | exact ⟨cellsWf_filter 0 _ _ hn.1, hn.2⟩)
    | (intro (n : EvStore) hn; split <;> (with_reducible exact EvStore.wf_of hn rfl rfl))
    | (intro (n : EvStore) hn; with_reducible exact EvStore.wf_of hn rfl rfl)
    | (intro (n : Bbx) hn; split <;> (with_reducible exact EvStore.wf_of hn rfl rfl))
    | (intro (n : Bbx) hn; with_reducible exact EvStore.wf_eq hn rfl)
    | (intro (n : Bbx) hn; with_reducible exact EvStore.wf_of hn rfl rfl)
    | split)

theorem step_warmReset {s : State} {cause : Nat} : Step [.freeCtr, .tick, .regs, .chans, .aon, .sys, .sns, .law, .pwm, .hbx, .dkl, .vat, .bat, .slt, .red, .arb, .seq, .thm, .otp, .nvp, .bbx, .upd, .hst, .evt, .twp, .mode, .role, .fuse, .store, .config] s (State.warmReset s cause) := by
  unfold State.warmReset
  extract_lets +onlyGivenNames s0 a b s1
  have h0 : Step [.freeCtr, .tick, .regs, .chans, .aon, .sys, .sns, .law, .pwm, .hbx, .dkl, .vat, .bat, .slt, .red, .arb, .seq, .thm, .otp, .nvp, .bbx, .upd, .hst, .evt, .twp, .mode, .role, .fuse, .store, .config] s s0 :=
    Step.after step_claimDrop rfl (Step.after step_otpCut rfl (Step.after step_holdTime rfl Step.refl))
  have h1 : Step [.freeCtr, .tick, .regs, .chans, .aon, .sys, .sns, .law, .pwm, .hbx, .dkl, .vat, .bat, .slt, .red, .arb, .seq, .thm, .otp, .nvp, .bbx, .upd, .hst, .evt, .twp, .mode, .role, .fuse, .store, .config] s s1 :=
    Step.put (t := s0.islandsReset) (Step.after step_islandsReset rfl h0) (w_otp := Otp.warm_wf) (w_regs := Regs.warm_wf)
  clear_value s1
  exact Step.after step_reportAbort rfl (Step.after step_satEv rfl (Step.after step_dropEvents rfl (Step.after step_recResetOrWait rfl h1)))

theorem step_coldReset {s : State} {cause : Nat} : Step [.freeCtr, .tick, .regs, .chans, .aon, .sys, .sns, .law, .pwm, .hbx, .dkl, .vat, .bat, .slt, .red, .arb, .seq, .thm, .otp, .nvp, .bbx, .upd, .hst, .evt, .twp, .lock, .mode, .role, .epoch, .fuse, .store, .config] s (State.coldReset s cause) := by
  unfold State.coldReset
  extract_lets +onlyGivenNames s0 a b c d s1
  have h0 : Step [.freeCtr, .tick, .regs, .chans, .aon, .sys, .sns, .law, .pwm, .hbx, .dkl, .vat, .bat, .slt, .red, .arb, .seq, .thm, .otp, .nvp, .bbx, .upd, .hst, .evt, .twp, .lock, .mode, .role, .epoch, .fuse, .store, .config] s s0 :=
    Step.after step_claimDrop rfl (Step.after step_otpCut rfl Step.refl)
  have h1 : Step [.freeCtr, .tick, .regs, .chans, .aon, .sys, .sns, .law, .pwm, .hbx, .dkl, .vat, .bat, .slt, .red, .arb, .seq, .thm, .otp, .nvp, .bbx, .upd, .hst, .evt, .twp, .lock, .mode, .role, .epoch, .fuse, .store, .config] s s1 :=
    Step.put (t := s0.islandsReset) (Step.after step_islandsReset rfl h0) (w_otp := fun h => Otp.warm_wf (c := false) h)
      (w_regs := fun h => by rw [Regs.wf_iff] at *; exact ⟨keysRise_filter _ _ h.1, cellsWf_filter 0 _ _ h.2.1, rfl, rfl⟩)
  clear_value s1
  exact Step.after step_reportAbort rfl (Step.after step_recResetOrWait rfl h1)

end Sys2Proof.Machine
end

