-- ==== Sys2Proof/Laws/FramePower.lean ====
section
/-! SUPPORT. What each operation and each command may change, and that it keeps the addressed stores in form: sequencer, sense front end, laws, phases and rails.
The parts a lemma lists are those of `Sys2Proof.Machine.Part`; every other part stands as it was. -/

set_option Elab.async false
set_option maxRecDepth 4000

namespace Sys2Proof.Machine

/-! ### Sequencer -/

theorem step_modNode {s : State} {k : Fin 72} {f : Node → Node} : Step [.seq] s (State.modNode s k f) := by
  unfold State.modNode
  repeat' (first
    | with_reducible apply Step.refl
    | with_reducible assumption
    | exact Eq.refl true
    | ((conv => arg 3; arg 28); refine Step.put ?_)
    | (extract_lets +onlyGivenNames lv; first | ((first | refine Step.cut lv ?_ ?_ | refine Answers.cut lv ?_ ?_); unfold lv; clear lv; rotate_left; intro hx; clear_value lv; revert lv; intro _ _) | (revert lv; intro _))
    | split)

theorem step_evalNode {s : State} {k : Fin 72} : Step [.seq] s (State.evalNode s k) := by
  unfold State.evalNode
  repeat' (first
    | with_reducible apply Step.refl
    | with_reducible assumption
    | exact Eq.refl true
    | (extract_lets +onlyGivenNames lv; first | ((first | refine Step.cut lv ?_ ?_ | refine Answers.cut lv ?_ ?_); unfold lv; clear lv; rotate_left; intro hx; clear_value lv; revert lv; intro _ _) | (revert lv; intro _))
    | with_reducible apply Step.after step_modNode
    | split)

theorem step_nodeFailed {s : State} {k : Fin 72} {cause : Nat} : Step [.regs, .chans, .seq] s (State.nodeFailed s k cause) := by
  unfold State.nodeFailed
  repeat' (first
    | with_reducible apply Step.refl
    | with_reducible assumption
    | exact Eq.refl true
    | ((conv => arg 3; arg 28); refine Step.put ?_)
    | (extract_lets +onlyGivenNames lv; first | ((first | refine Step.cut lv ?_ ?_ | refine Answers.cut lv ?_ ?_); unfold lv; clear lv; rotate_left; intro hx; clear_value lv; revert lv; intro _ _) | (revert lv; intro _))
    | with_reducible apply Step.after step_stick
    | with_reducible apply Step.after step_modNode
    | with_reducible apply Step.after step_satEv
    | with_reducible apply Step.after step_fire
    | split)

theorem step_blockDeps {s : State} {k : Fin 72} : Step [.chans, .seq] s (State.blockDeps s k) := by
  unfold State.blockDeps
  repeat' (first
    | with_reducible apply Step.refl
    | with_reducible assumption
    | exact Eq.refl true
    | ((conv => arg 3; arg 28); refine Step.put ?_)
    | (extract_lets +onlyGivenNames lv; first | ((first | refine Step.cut lv ?_ ?_ | refine Answers.cut lv ?_ ?_); unfold lv; clear lv; rotate_left; intro hx; clear_value lv; revert lv; intro _ _) | (revert lv; intro _))
    | with_reducible apply Step.after step_fire
    | split)

theorem step_nodeFail {s : State} {k : Fin 72} {cause : Nat} : Step [.regs, .chans, .seq] s (State.nodeFail s k cause) := by
  unfold State.nodeFail
  repeat' (first
    | with_reducible apply Step.refl
    | with_reducible assumption
    | exact Eq.refl true
    | (extract_lets +onlyGivenNames lv; first | ((first | refine Step.cut lv ?_ ?_ | refine Answers.cut lv ?_ ?_); unfold lv; clear lv; rotate_left; intro hx; clear_value lv; revert lv; intro _ _) | (revert lv; intro _))
    | with_reducible apply Step.after step_blockDeps
    | with_reducible apply Step.after step_nodeFailed
    | with_reducible apply Step.after step_modNode
    | split)

theorem step_shelfShutdown {s : State} {cause : Nat} : Step [.chans, .seq] s (State.shelfShutdown s cause) := by
  unfold State.shelfShutdown
  repeat' (first
    | with_reducible apply Step.refl
    | with_reducible assumption
    | exact Eq.refl true
    | ((conv => arg 3; arg 28); refine Step.put ?_)
    | (extract_lets +onlyGivenNames lv; first | ((first | refine Step.cut lv ?_ ?_ | refine Answers.cut lv ?_ ?_); unfold lv; clear lv; rotate_left; intro hx; clear_value lv; revert lv; intro _ _) | (revert lv; intro _))
    | with_reducible apply Step.after step_fire
    | split)

theorem step_shelfTrip {s : State} {source : Nat} {number : Nat} : Step [.regs, .chans, .aon, .seq] s (State.shelfTrip s source number) := by
  unfold State.shelfTrip
  repeat' (first
    | with_reducible apply Step.refl
    | with_reducible assumption
    | exact Eq.refl true
    | ((conv => arg 3; arg 28); refine Step.put ?_)
    | (extract_lets +onlyGivenNames lv; first | ((first | refine Step.cut lv ?_ ?_ | refine Answers.cut lv ?_ ?_); unfold lv; clear lv; rotate_left; intro hx; clear_value lv; revert lv; intro _ _) | (revert lv; intro _))
    | with_reducible apply Step.after step_stickIf
    | with_reducible apply Step.after step_fire
    | with_reducible apply Step.when
    | (with_reducible apply Step.foldl; intro fs fa)
    | (with_reducible apply Step.foldFin; intro fs fa)
    | (with_reducible apply Step.foldlFst; intro fs fa)
    | (split; rename_i heq; have hx : (_ : State) = _ := congrArg Prod.snd heq; dsimp only at hx; subst hx)
    | (split; rename_i heq; have hx : (_ : State) = _ := congrArg Prod.fst heq; dsimp only at hx; subst hx)
    | split)

theorem step_dependants {s : State} {k : Fin 72} : Step [.seq] s (State.dependants s k) := by
  unfold State.dependants
  repeat' (first
    | with_reducible apply Step.refl
    | with_reducible assumption
    | exact Eq.refl true
    | ((conv => arg 3; arg 28); refine Step.put ?_)
    | (extract_lets +onlyGivenNames lv; first | ((first | refine Step.cut lv ?_ ?_ | refine Answers.cut lv ?_ ?_); unfold lv; clear lv; rotate_left; intro hx; clear_value lv; revert lv; intro _ _) | (revert lv; intro _))
    | split)

theorem step_nodeFell {s : State} {k : Fin 72} {cause : Nat} : Step [.regs, .chans, .aon, .seq] s (State.nodeFell s k cause) := by
  unfold State.nodeFell
  repeat' (first
    | with_reducible apply Step.refl
    | with_reducible assumption
    | exact Eq.refl true
    | (extract_lets +onlyGivenNames lv; first | ((first | refine Step.cut lv ?_ ?_ | refine Answers.cut lv ?_ ?_); unfold lv; clear lv; rotate_left; intro hx; clear_value lv; revert lv; intro _ _) | (revert lv; intro _))
    | with_reducible apply Step.after step_fire
    | with_reducible apply Step.after step_modNode
    | with_reducible apply Step.after step_nodeFailed
    | with_reducible apply Step.after step_shelfShutdown
    | with_reducible apply Step.after step_shelfTrip
    | with_reducible apply Step.after step_dependants
    | split)

theorem step_nodeLatched {s : State} {n : Fin 8} : Step [.regs, .chans, .aon, .seq] s (State.nodeLatched s n) := by
  unfold State.nodeLatched
  repeat' (first
    | with_reducible apply Step.refl
    | with_reducible assumption
    | exact Eq.refl true
    | (extract_lets +onlyGivenNames lv; first | ((first | refine Step.cut lv ?_ ?_ | refine Answers.cut lv ?_ ?_); unfold lv; clear lv; rotate_left; intro hx; clear_value lv; revert lv; intro _ _) | (revert lv; intro _))
    | with_reducible apply Step.after step_nodeFail
    | with_reducible apply Step.after step_nodeFell
    | split)

theorem step_powerUp {s : State} : Step [.seq] s (State.powerUp s) := by
  unfold State.powerUp
  repeat' (first
    | with_reducible apply Step.refl
    | with_reducible assumption
    | exact Eq.refl true
    | ((conv => arg 3; arg 28); refine Step.put ?_)
    | (extract_lets +onlyGivenNames lv; first | ((first | refine Step.cut lv ?_ ?_ | refine Answers.cut lv ?_ ?_); unfold lv; clear lv; rotate_left; intro hx; clear_value lv; revert lv; intro _ _) | (revert lv; intro _))
    | split)

theorem step_stepOff {s : State} {k : Fin 72} : Step [.seq] s (State.stepOff s k) := by
  unfold State.stepOff
  repeat' (first
    | with_reducible apply Step.refl
    | with_reducible assumption
    | exact Eq.refl true
    | ((conv => arg 3; arg 28); refine Step.put ?_)
    | (extract_lets +onlyGivenNames lv; first | ((first | refine Step.cut lv ?_ ?_ | refine Answers.cut lv ?_ ?_); unfold lv; clear lv; rotate_left; intro hx; clear_value lv; revert lv; intro _ _) | (revert lv; intro _))
    | with_reducible apply Step.after step_modNode
    | with_reducible apply Step.when
    | (with_reducible apply Step.foldl; intro fs fa)
    | (with_reducible apply Step.foldFin; intro fs fa)
    | (with_reducible apply Step.foldlFst; intro fs fa)
    | exact (fun _ => rfl)
    | (intro n; dsimp only; split <;> rfl)
    | (split; rename_i heq; have hx : (_ : State) = _ := congrArg Prod.snd heq; dsimp only at hx; subst hx)
    | (split; rename_i heq; have hx : (_ : State) = _ := congrArg Prod.fst heq; dsimp only at hx; subst hx)
    | (intro (n : Nvp) hn; simp only [Nvp.wf, Bool.and_eq_true] at hn ⊢; first | exact ⟨⟨nvpPuts_wf _ _ hn.1.1, hn.1.2⟩, hn.2⟩ | exact ⟨hn.1, rfl⟩)
    | (intro (n : Nvp) hn; split <;> (with_reducible exact Nvp.wf_of hn rfl rfl rfl))
    | (intro (n : Nvp) hn; with_reducible exact Nvp.wf_of hn rfl rfl rfl)
    | (intro (n : Otp) hn; split <;> (with_reducible exact Otp.wf_of hn rfl rfl rfl rfl))
    | (intro (n : Otp) hn; with_reducible exact Otp.wf_of hn rfl rfl rfl rfl)
    | (intro (n : Upd) hn; split <;> (with_reducible exact Upd.wf_of hn rfl))
    | (intro (n : Upd) hn; with_reducible exact Upd.wf_of hn rfl)
    | (intro (n : EvStore) hn; rw [EvStore.wf_iff] at *; first | exact ⟨cellsWf_put 0 _ _ _ hn.1, hn.2⟩ | exact ⟨hn.1, cellsWf_put _ _ _ _ hn.2⟩ | exact ⟨cellsWf_filter 0 _ _ hn.1, hn.2⟩)
    | (intro (n : EvStore) hn; split <;> (with_reducible exact EvStore.wf_of hn rfl rfl))
    | (intro (n : EvStore) hn; with_reducible exact EvStore.wf_of hn rfl rfl)
    | (intro (n : Bbx) hn; split <;> (with_reducible exact EvStore.wf_of hn rfl rfl))
    | (intro (n : Bbx) hn; with_reducible exact EvStore.wf_eq hn rfl)
    | (intro (n : Bbx) hn; with_reducible exact EvStore.wf_of hn rfl rfl)
    | split)

theorem step_stepNode {s : State} {k : Fin 72} : Step [.seq] s (State.stepNode s k) := by
  unfold State.stepNode
  repeat' (first
    | with_reducible apply Step.refl
    | with_reducible assumption
    | exact Eq.refl true
    | ((conv => arg 3; arg 28); refine Step.put ?_)
    | (extract_lets +onlyGivenNames lv; first | ((first | refine Step.cut lv ?_ ?_ | refine Answers.cut lv ?_ ?_); unfold lv; clear lv; rotate_left; intro hx; clear_value lv; revert lv; intro _ _) | (revert lv; intro _))
    | with_reducible apply Step.after step_modNode
    | split)

theorem step_seqComplete {s : State} : Step [.chans, .sys, .seq] s (State.seqComplete s) := by
  unfold State.seqComplete
  repeat' (first
    | with_reducible apply Step.refl
    | with_reducible assumption
    | exact Eq.refl true
    | ((conv => arg 3; arg 28); refine Step.put ?_)
    | (extract_lets +onlyGivenNames lv; first | ((first | refine Step.cut lv ?_ ?_ | refine Answers.cut lv ?_ ?_); unfold lv; clear lv; rotate_left; intro hx; clear_value lv; revert lv; intro _ _) | (revert lv; intro _))
    | with_reducible apply Step.after step_fire
    | split)

theorem step_seqAllOff {s : State} : Step [.chans, .seq] s (State.seqAllOff s) := by
  unfold State.seqAllOff
  repeat' (first
    | with_reducible apply Step.refl
    | with_reducible assumption
    | exact Eq.refl true
    | ((conv => arg 3; arg 28); refine Step.put ?_)
    | (extract_lets +onlyGivenNames lv; first | ((first | refine Step.cut lv ?_ ?_ | refine Answers.cut lv ?_ ?_); unfold lv; clear lv; rotate_left; intro hx; clear_value lv; revert lv; intro _ _) | (revert lv; intro _))
    | with_reducible apply Step.after step_fire
    | split)

theorem step_seqMirror {s : State} {p : PeerStatus} : Step [.seq] s (State.seqMirror s p) := by
  unfold State.seqMirror
  repeat' (first
    | with_reducible apply Step.refl
    | with_reducible assumption
    | exact Eq.refl true
    | ((conv => arg 3; arg 28); refine Step.put ?_)
    | (extract_lets +onlyGivenNames lv; first | ((first | refine Step.cut lv ?_ ?_ | refine Answers.cut lv ?_ ?_); unfold lv; clear lv; rotate_left; intro hx; clear_value lv; revert lv; intro _ _) | (revert lv; intro _))
    | split)

theorem step_seqTakeover {s : State} : Step [.seq] s (State.seqTakeover s) := by
  unfold State.seqTakeover
  repeat' (first
    | with_reducible apply Step.refl
    | with_reducible assumption
    | exact Eq.refl true
    | ((conv => arg 3; arg 28); refine Step.put ?_)
    | (extract_lets +onlyGivenNames lv; first | ((first | refine Step.cut lv ?_ ?_ | refine Answers.cut lv ?_ ?_); unfold lv; clear lv; rotate_left; intro hx; clear_value lv; revert lv; intro _ _) | (revert lv; intro _))
    | with_reducible apply Step.after step_dependants
    | with_reducible apply Step.when
    | (with_reducible apply Step.foldl; intro fs fa)
    | (with_reducible apply Step.foldFin; intro fs fa)
    | (with_reducible apply Step.foldlFst; intro fs fa)
    | exact (fun _ => rfl)
    | (intro n; dsimp only; split <;> rfl)
    | (split; rename_i heq; have hx : (_ : State) = _ := congrArg Prod.snd heq; dsimp only at hx; subst hx)
    | (split; rename_i heq; have hx : (_ : State) = _ := congrArg Prod.fst heq; dsimp only at hx; subst hx)
    | (intro (n : Nvp) hn; simp only [Nvp.wf, Bool.and_eq_true] at hn ⊢; first | exact ⟨⟨nvpPuts_wf _ _ hn.1.1, hn.1.2⟩, hn.2⟩ | exact ⟨hn.1, rfl⟩)
    | (intro (n : Nvp) hn; split <;> (with_reducible exact Nvp.wf_of hn rfl rfl rfl))
    | (intro (n : Nvp) hn; with_reducible exact Nvp.wf_of hn rfl rfl rfl)
    | (intro (n : Otp) hn; split <;> (with_reducible exact Otp.wf_of hn rfl rfl rfl rfl))
    | (intro (n : Otp) hn; with_reducible exact Otp.wf_of hn rfl rfl rfl rfl)
    | (intro (n : Upd) hn; split <;> (with_reducible exact Upd.wf_of hn rfl))
    | (intro (n : Upd) hn; with_reducible exact Upd.wf_of hn rfl)
    | (intro (n : EvStore) hn; rw [EvStore.wf_iff] at *; first | exact ⟨cellsWf_put 0 _ _ _ hn.1, hn.2⟩ | exact ⟨hn.1, cellsWf_put _ _ _ _ hn.2⟩ | exact ⟨cellsWf_filter 0 _ _ hn.1, hn.2⟩)
    | (intro (n : EvStore) hn; split <;> (with_reducible exact EvStore.wf_of hn rfl rfl))
    | (intro (n : EvStore) hn; with_reducible exact EvStore.wf_of hn rfl rfl)
    | (intro (n : Bbx) hn; split <;> (with_reducible exact EvStore.wf_of hn rfl rfl))
    | (intro (n : Bbx) hn; with_reducible exact EvStore.wf_eq hn rfl)
    | (intro (n : Bbx) hn; with_reducible exact EvStore.wf_of hn rfl rfl)
    | split)

theorem step_seqDemoted {s : State} : Step [.seq] s (State.seqDemoted s) := by
  unfold State.seqDemoted
  repeat' (first
    | with_reducible apply Step.refl
    | with_reducible assumption
    | exact Eq.refl true
    | ((conv => arg 3; arg 28); refine Step.put ?_)
    | (extract_lets +onlyGivenNames lv; first | ((first | refine Step.cut lv ?_ ?_ | refine Answers.cut lv ?_ ?_); unfold lv; clear lv; rotate_left; intro hx; clear_value lv; revert lv; intro _ _) | (revert lv; intro _))
    | split)

theorem step_execSeqStep {s : State} : Answers [.chans, .sys, .seq] s (execSeqStep s) := by
  unfold execSeqStep
  repeat' (first
    | with_reducible apply Step.refl
    | with_reducible assumption
    | exact Eq.refl true
    | with_reducible apply Answers.ok
    | (extract_lets +onlyGivenNames lv; first | ((first | refine Step.cut lv ?_ ?_ | refine Answers.cut lv ?_ ?_); unfold lv; clear lv; rotate_left; intro hx; clear_value lv; revert lv; intro _ _) | (revert lv; intro _))
    | with_reducible apply Step.after step_evalNode
    | with_reducible apply Step.after step_seqAllOff
    | with_reducible apply Step.after step_seqComplete
    | with_reducible apply Step.after step_stepOff
    | with_reducible apply Step.after step_stepNode
    | with_reducible apply Step.when
    | (with_reducible apply Step.foldl; intro fs fa)
    | (with_reducible apply Step.foldFin; intro fs fa)
    | (with_reducible apply Step.foldlFst; intro fs fa)
    | (split; rename_i heq; have hx : (_ : State) = _ := congrArg Prod.snd heq; dsimp only at hx; subst hx)
    | (split; rename_i heq; have hx : (_ : State) = _ := congrArg Prod.fst heq; dsimp only at hx; subst hx)
    | split)

theorem step_execNodeOnDelayEnd {k : Fin 72} {s : State} : Answers [.time, .seq] s (execNodeOnDelayEnd k s) := by
  unfold execNodeOnDelayEnd
  repeat' (first
    | with_reducible apply Step.refl
    | with_reducible assumption
    | exact Eq.refl true
    | with_reducible apply Answers.ok
    | ((conv => arg 3; arg 28); refine Step.put ?_)
    | (extract_lets +onlyGivenNames lv; first | ((first | refine Step.cut lv ?_ ?_ | refine Answers.cut lv ?_ ?_); unfold lv; clear lv; rotate_left; intro hx; clear_value lv; revert lv; intro _ _) | (revert lv; intro _))
    | with_reducible apply Step.after step_modNode
    | with_reducible apply Step.when
    | (with_reducible refine Step.whenDue rfl ?_ (fun u => ?_))
    | (with_reducible apply Step.foldl; intro fs fa)
    | (with_reducible apply Step.foldFin; intro fs fa)
    | (with_reducible apply Step.foldlFst; intro fs fa)
    | exact (fun _ => rfl)
    | (intro n; dsimp only; split <;> rfl)
    | (split; rename_i heq; have hx : (_ : State) = _ := congrArg Prod.snd heq; dsimp only at hx; subst hx)
    | (split; rename_i heq; have hx : (_ : State) = _ := congrArg Prod.fst heq; dsimp only at hx; subst hx)
    | (intro (n : Nvp) hn; simp only [Nvp.wf, Bool.and_eq_true] at hn ⊢; first | exact ⟨⟨nvpPuts_wf _ _ hn.1.1, hn.1.2⟩, hn.2⟩ | exact ⟨hn.1, rfl⟩)
    | (intro (n : Nvp) hn; split <;> (with_reducible exact Nvp.wf_of hn rfl rfl rfl))
    | (intro (n : Nvp) hn; with_reducible exact Nvp.wf_of hn rfl rfl rfl)
    | (intro (n : Otp) hn; split <;> (with_reducible exact Otp.wf_of hn rfl rfl rfl rfl))
    | (intro (n : Otp) hn; with_reducible exact Otp.wf_of hn rfl rfl rfl rfl)
    | (intro (n : Upd) hn; split <;> (with_reducible exact Upd.wf_of hn rfl))
    | (intro (n : Upd) hn; with_reducible exact Upd.wf_of hn rfl)
    | (intro (n : EvStore) hn; rw [EvStore.wf_iff] at *; first | exact ⟨cellsWf_put 0 _ _ _ hn.1, hn.2⟩ | exact ⟨hn.1, cellsWf_put _ _ _ _ hn.2⟩ | exact ⟨cellsWf_filter 0 _ _ hn.1, hn.2⟩)
    | (intro (n : EvStore) hn; split <;> (with_reducible exact EvStore.wf_of hn rfl rfl))
    | (intro (n : EvStore) hn; with_reducible exact EvStore.wf_of hn rfl rfl)
    | (intro (n : Bbx) hn; split <;> (with_reducible exact EvStore.wf_of hn rfl rfl))
    | (intro (n : Bbx) hn; with_reducible exact EvStore.wf_eq hn rfl)
    | (intro (n : Bbx) hn; with_reducible exact EvStore.wf_of hn rfl rfl)
    | split)

theorem step_execNodeSettleEnd {k : Fin 72} {s : State} : Answers [.time, .seq] s (execNodeSettleEnd k s) := by
  unfold execNodeSettleEnd
  repeat' (first
    | with_reducible apply Step.refl
    | with_reducible assumption
    | exact Eq.refl true
    | with_reducible apply Answers.ok
    | ((conv => arg 3; arg 28); refine Step.put ?_)
    | (extract_lets +onlyGivenNames lv; first | ((first | refine Step.cut lv ?_ ?_ | refine Answers.cut lv ?_ ?_); unfold lv; clear lv; rotate_left; intro hx; clear_value lv; revert lv; intro _ _) | (revert lv; intro _))
    | with_reducible apply Step.after step_modNode
    | with_reducible apply Step.when
    | (with_reducible refine Step.whenAt rfl ?_ (fun u => ?_))
    | (with_reducible apply Step.foldl; intro fs fa)
    | (with_reducible apply Step.foldFin; intro fs fa)
    | (with_reducible apply Step.foldlFst; intro fs fa)
    | exact (fun _ => rfl)
    | (intro n; dsimp only; split <;> rfl)
    | (split; rename_i heq; have hx : (_ : State) = _ := congrArg Prod.snd heq; dsimp only at hx; subst hx)
    | (split; rename_i heq; have hx : (_ : State) = _ := congrArg Prod.fst heq; dsimp only at hx; subst hx)
    | (intro (n : Nvp) hn; simp only [Nvp.wf, Bool.and_eq_true] at hn ⊢; first | exact ⟨⟨nvpPuts_wf _ _ hn.1.1, hn.1.2⟩, hn.2⟩ | exact ⟨hn.1, rfl⟩)
    | (intro (n : Nvp) hn; split <;> (with_reducible exact Nvp.wf_of hn rfl rfl rfl))
    | (intro (n : Nvp) hn; with_reducible exact Nvp.wf_of hn rfl rfl rfl)
    | (intro (n : Otp) hn; split <;> (with_reducible exact Otp.wf_of hn rfl rfl rfl rfl))
    | (intro (n : Otp) hn; with_reducible exact Otp.wf_of hn rfl rfl rfl rfl)
    | (intro (n : Upd) hn; split <;> (with_reducible exact Upd.wf_of hn rfl))
    | (intro (n : Upd) hn; with_reducible exact Upd.wf_of hn rfl)
    | (intro (n : EvStore) hn; rw [EvStore.wf_iff] at *; first | exact ⟨cellsWf_put 0 _ _ _ hn.1, hn.2⟩ | exact ⟨hn.1, cellsWf_put _ _ _ _ hn.2⟩ | exact ⟨cellsWf_filter 0 _ _ hn.1, hn.2⟩)
    | (intro (n : EvStore) hn; split <;> (with_reducible exact EvStore.wf_of hn rfl rfl))
    | (intro (n : EvStore) hn; with_reducible exact EvStore.wf_of hn rfl rfl)
    | (intro (n : Bbx) hn; split <;> (with_reducible exact EvStore.wf_of hn rfl rfl))
    | (intro (n : Bbx) hn; with_reducible exact EvStore.wf_eq hn rfl)
    | (intro (n : Bbx) hn; with_reducible exact EvStore.wf_of hn rfl rfl)
    | split)

theorem step_execRiseTimeout {k : Fin 72} {s : State} : Answers [.time, .regs, .chans, .seq] s (execRiseTimeout k s) := by
  unfold execRiseTimeout
  repeat' (first
    | with_reducible apply Step.refl
    | with_reducible assumption
    | exact Eq.refl true
    | with_reducible apply Answers.ok
    | ((conv => arg 3; arg 28); refine Step.put ?_)
    | (extract_lets +onlyGivenNames lv; first | ((first | refine Step.cut lv ?_ ?_ | refine Answers.cut lv ?_ ?_); unfold lv; clear lv; rotate_left; intro hx; clear_value lv; revert lv; intro _ _) | (revert lv; intro _))
    | with_reducible apply Step.after step_nodeFail
    | with_reducible apply Step.when
    | (with_reducible refine Step.whenAt rfl ?_ (fun u => ?_))
    | (with_reducible apply Step.foldl; intro fs fa)
    | (with_reducible apply Step.foldFin; intro fs fa)
    | (with_reducible apply Step.foldlFst; intro fs fa)
    | exact (fun _ => rfl)
    | (intro n; dsimp only; split <;> rfl)
    | (split; rename_i heq; have hx : (_ : State) = _ := congrArg Prod.snd heq; dsimp only at hx; subst hx)
    | (split; rename_i heq; have hx : (_ : State) = _ := congrArg Prod.fst heq; dsimp only at hx; subst hx)
    | (intro (n : Nvp) hn; simp only [Nvp.wf, Bool.and_eq_true] at hn ⊢; first | exact ⟨⟨nvpPuts_wf _ _ hn.1.1, hn.1.2⟩, hn.2⟩ | exact ⟨hn.1, rfl⟩)
    | (intro (n : Nvp) hn; split <;> (with_reducible exact Nvp.wf_of hn rfl rfl rfl))
    | (intro (n : Nvp) hn; with_reducible exact Nvp.wf_of hn rfl rfl rfl)
    | (intro (n : Otp) hn; split <;> (with_reducible exact Otp.wf_of hn rfl rfl rfl rfl))
    | (intro (n : Otp) hn; with_reducible exact Otp.wf_of hn rfl rfl rfl rfl)
    | (intro (n : Upd) hn; split <;> (with_reducible exact Upd.wf_of hn rfl))
    | (intro (n : Upd) hn; with_reducible exact Upd.wf_of hn rfl)
    | (intro (n : EvStore) hn; rw [EvStore.wf_iff] at *; first | exact ⟨cellsWf_put 0 _ _ _ hn.1, hn.2⟩ | exact ⟨hn.1, cellsWf_put _ _ _ _ hn.2⟩ | exact ⟨cellsWf_filter 0 _ _ hn.1, hn.2⟩)
    | (intro (n : EvStore) hn; split <;> (with_reducible exact EvStore.wf_of hn rfl rfl))
    | (intro (n : EvStore) hn; with_reducible exact EvStore.wf_of hn rfl rfl)
    | (intro (n : Bbx) hn; split <;> (with_reducible exact EvStore.wf_of hn rfl rfl))
    | (intro (n : Bbx) hn; with_reducible exact EvStore.wf_eq hn rfl)
    | (intro (n : Bbx) hn; with_reducible exact EvStore.wf_of hn rfl rfl)
    | split)

theorem step_execNodeOffDelayEnd {k : Fin 72} {s : State} : Answers [.time, .seq] s (execNodeOffDelayEnd k s) := by
  unfold execNodeOffDelayEnd
  repeat' (first
    | with_reducible apply Step.refl
    | with_reducible assumption
    | exact Eq.refl true
    | with_reducible apply Answers.ok
    | ((conv => arg 3; arg 28); refine Step.put ?_)
    | (extract_lets +onlyGivenNames lv; first | ((first | refine Step.cut lv ?_ ?_ | refine Answers.cut lv ?_ ?_); unfold lv; clear lv; rotate_left; intro hx; clear_value lv; revert lv; intro _ _) | (revert lv; intro _))
    | with_reducible apply Step.after step_modNode
    | with_reducible apply Step.when
    | (with_reducible refine Step.whenDue rfl ?_ (fun u => ?_))
    | (with_reducible apply Step.foldl; intro fs fa)
    | (with_reducible apply Step.foldFin; intro fs fa)
    | (with_reducible apply Step.foldlFst; intro fs fa)
    | exact (fun _ => rfl)
    | (intro n; dsimp only; split <;> rfl)
    | (split; rename_i heq; have hx : (_ : State) = _ := congrArg Prod.snd heq; dsimp only at hx; subst hx)
    | (split; rename_i heq; have hx : (_ : State) = _ := congrArg Prod.fst heq; dsimp only at hx; subst hx)
    | (intro (n : Nvp) hn; simp only [Nvp.wf, Bool.and_eq_true] at hn ⊢; first | exact ⟨⟨nvpPuts_wf _ _ hn.1.1, hn.1.2⟩, hn.2⟩ | exact ⟨hn.1, rfl⟩)
    | (intro (n : Nvp) hn; split <;> (with_reducible exact Nvp.wf_of hn rfl rfl rfl))
    | (intro (n : Nvp) hn; with_reducible exact Nvp.wf_of hn rfl rfl rfl)
    | (intro (n : Otp) hn; split <;> (with_reducible exact Otp.wf_of hn rfl rfl rfl rfl))
    | (intro (n : Otp) hn; with_reducible exact Otp.wf_of hn rfl rfl rfl rfl)
    | (intro (n : Upd) hn; split <;> (with_reducible exact Upd.wf_of hn rfl))
    | (intro (n : Upd) hn; with_reducible exact Upd.wf_of hn rfl)
    | (intro (n : EvStore) hn; rw [EvStore.wf_iff] at *; first | exact ⟨cellsWf_put 0 _ _ _ hn.1, hn.2⟩ | exact ⟨hn.1, cellsWf_put _ _ _ _ hn.2⟩ | exact ⟨cellsWf_filter 0 _ _ hn.1, hn.2⟩)
    | (intro (n : EvStore) hn; split <;> (with_reducible exact EvStore.wf_of hn rfl rfl))
    | (intro (n : EvStore) hn; with_reducible exact EvStore.wf_of hn rfl rfl)
    | (intro (n : Bbx) hn; split <;> (with_reducible exact EvStore.wf_of hn rfl rfl))
    | (intro (n : Bbx) hn; with_reducible exact EvStore.wf_eq hn rfl)
    | (intro (n : Bbx) hn; with_reducible exact EvStore.wf_of hn rfl rfl)
    | split)

theorem step_execFallTimeout {k : Fin 72} {s : State} : Answers [.time, .regs, .chans, .seq] s (execFallTimeout k s) := by
  unfold execFallTimeout
  repeat' (first
    | with_reducible apply Step.refl
    | with_reducible assumption
    | exact Eq.refl true
    | with_reducible apply Answers.ok
    | ((conv => arg 3; arg 28); refine Step.put ?_)
    | (extract_lets +onlyGivenNames lv; first | ((first | refine Step.cut lv ?_ ?_ | refine Answers.cut lv ?_ ?_); unfold lv; clear lv; rotate_left; intro hx; clear_value lv; revert lv; intro _ _) | (revert lv; intro _))
    | with_reducible apply Step.after step_modNode
    | with_reducible apply Step.after step_fire
    | with_reducible apply Step.after step_stickIf
    | with_reducible apply Step.when
    | (with_reducible refine Step.whenAt rfl ?_ (fun u => ?_))
    | (with_reducible apply Step.foldl; intro fs fa)
    | (with_reducible apply Step.foldFin; intro fs fa)
    | (with_reducible apply Step.foldlFst; intro fs fa)
    | exact (fun _ => rfl)
    | (intro n; dsimp only; split <;> rfl)
    | (split; rename_i heq; have hx : (_ : State) = _ := congrArg Prod.snd heq; dsimp only at hx; subst hx)
    | (split; rename_i heq; have hx : (_ : State) = _ := congrArg Prod.fst heq; dsimp only at hx; subst hx)
    | (intro (n : Nvp) hn; simp only [Nvp.wf, Bool.and_eq_true] at hn ⊢; first | exact ⟨⟨nvpPuts_wf _ _ hn.1.1, hn.1.2⟩, hn.2⟩ | exact ⟨hn.1, rfl⟩)
    | (intro (n : Nvp) hn; split <;> (with_reducible exact Nvp.wf_of hn rfl rfl rfl))
    | (intro (n : Nvp) hn; with_reducible exact Nvp.wf_of hn rfl rfl rfl)
    | (intro (n : Otp) hn; split <;> (with_reducible exact Otp.wf_of hn rfl rfl rfl rfl))
    | (intro (n : Otp) hn; with_reducible exact Otp.wf_of hn rfl rfl rfl rfl)
    | (intro (n : Upd) hn; split <;> (with_reducible exact Upd.wf_of hn rfl))
    | (intro (n : Upd) hn; with_reducible exact Upd.wf_of hn rfl)
    | (intro (n : EvStore) hn; rw [EvStore.wf_iff] at *; first | exact ⟨cellsWf_put 0 _ _ _ hn.1, hn.2⟩ | exact ⟨hn.1, cellsWf_put _ _ _ _ hn.2⟩ | exact ⟨cellsWf_filter 0 _ _ hn.1, hn.2⟩)
    | (intro (n : EvStore) hn; split <;> (with_reducible exact EvStore.wf_of hn rfl rfl))
    | (intro (n : EvStore) hn; with_reducible exact EvStore.wf_of hn rfl rfl)
    | (intro (n : Bbx) hn; split <;> (with_reducible exact EvStore.wf_of hn rfl rfl))
    | (intro (n : Bbx) hn; with_reducible exact EvStore.wf_eq hn rfl)
    | (intro (n : Bbx) hn; with_reducible exact EvStore.wf_of hn rfl rfl)
    | split)

theorem step_pgTake {s : State} {k : Fin 72} : Step [.seq] s (State.pgTake s k) := by
  unfold State.pgTake
  repeat' (first
    | with_reducible apply Step.refl
    | with_reducible assumption
    | exact Eq.refl true
    | (extract_lets +onlyGivenNames lv; first | ((first | refine Step.cut lv ?_ ?_ | refine Answers.cut lv ?_ ?_); unfold lv; clear lv; rotate_left; intro hx; clear_value lv; revert lv; intro _ _) | (revert lv; intro _))
    | with_reducible apply Step.after step_modNode
    | split)

theorem step_execPgChange {k : Fin 72} {s : State} : Answers [.regs, .chans, .aon, .seq] s (execPgChange k s) := by
  unfold execPgChange
  repeat' (first
    | with_reducible apply Step.refl
    | with_reducible assumption
    | exact Eq.refl true
    | with_reducible apply Answers.ok
    | (extract_lets +onlyGivenNames lv; first | ((first | refine Step.cut lv ?_ ?_ | refine Answers.cut lv ?_ ?_); unfold lv; clear lv; rotate_left; intro hx; clear_value lv; revert lv; intro _ _) | (revert lv; intro _))
    | with_reducible apply Step.after step_pgTake
    | with_reducible apply Step.after step_modNode
    | with_reducible apply Step.after step_nodeFail
    | with_reducible apply Step.after step_nodeFell
    | split)

theorem step_execSeqGo {s : State} : Answers [.seq] s (execSeqGo s) := by
  unfold execSeqGo
  repeat' (first
    | with_reducible apply Step.refl
    | with_reducible assumption
    | exact Eq.refl true
    | with_reducible apply Answers.ok
    | ((conv => arg 3; arg 28); refine Step.put ?_)
    | (extract_lets +onlyGivenNames lv; first | ((first | refine Step.cut lv ?_ ?_ | refine Answers.cut lv ?_ ?_); unfold lv; clear lv; rotate_left; intro hx; clear_value lv; revert lv; intro _ _) | (revert lv; intro _))
    | with_reducible apply Step.after step_powerUp
    | split)

theorem step_execSeqStop {s : State} : Answers [.chans, .seq] s (execSeqStop s) := by
  unfold execSeqStop
  repeat' (first
    | with_reducible apply Step.refl
    | with_reducible assumption
    | exact Eq.refl true
    | with_reducible apply Answers.ok
    | (extract_lets +onlyGivenNames lv; first | ((first | refine Step.cut lv ?_ ?_ | refine Answers.cut lv ?_ ?_); unfold lv; clear lv; rotate_left; intro hx; clear_value lv; revert lv; intro _ _) | (revert lv; intro _))
    | with_reducible apply Step.after step_shelfShutdown
    | with_reducible apply Step.when
    | (with_reducible apply Step.foldl; intro fs fa)
    | (with_reducible apply Step.foldFin; intro fs fa)
    | (with_reducible apply Step.foldlFst; intro fs fa)
    | (split; rename_i heq; have hx : (_ : State) = _ := congrArg Prod.snd heq; dsimp only at hx; subst hx)
    | (split; rename_i heq; have hx : (_ : State) = _ := congrArg Prod.fst heq; dsimp only at hx; subst hx)
    | split)

theorem step_execSeqRetry {s : State} : Answers [.seq] s (execSeqRetry s) := by
  unfold execSeqRetry
  repeat' (first
    | with_reducible apply Step.refl
    | with_reducible assumption
    | exact Eq.refl true
    | with_reducible apply Answers.ok
    | ((conv => arg 3; arg 28); refine Step.put ?_)
    | (extract_lets +onlyGivenNames lv; first | ((first | refine Step.cut lv ?_ ?_ | refine Answers.cut lv ?_ ?_); unfold lv; clear lv; rotate_left; intro hx; clear_value lv; revert lv; intro _ _) | (revert lv; intro _))
    | split)

theorem step_execSeqTrip {s : State} : Answers [.regs, .chans, .aon, .seq] s (execSeqTrip s) := by
  unfold execSeqTrip
  repeat' (first
    | with_reducible apply Step.refl
    | with_reducible assumption
    | exact Eq.refl true
    | with_reducible apply Answers.ok
    | (extract_lets +onlyGivenNames lv; first | ((first | refine Step.cut lv ?_ ?_ | refine Answers.cut lv ?_ ?_); unfold lv; clear lv; rotate_left; intro hx; clear_value lv; revert lv; intro _ _) | (revert lv; intro _))
    | with_reducible apply Step.after step_shelfTrip
    | with_reducible apply Step.when
    | (with_reducible apply Step.foldl; intro fs fa)
    | (with_reducible apply Step.foldFin; intro fs fa)
    | (with_reducible apply Step.foldlFst; intro fs fa)
    | (split; rename_i heq; have hx : (_ : State) = _ := congrArg Prod.snd heq; dsimp only at hx; subst hx)
    | (split; rename_i heq; have hx : (_ : State) = _ := congrArg Prod.fst heq; dsimp only at hx; subst hx)
    | split)

theorem step_execSeqTripClr {s : State} : Answers [.aon, .seq] s (execSeqTripClr s) := by
  unfold execSeqTripClr
  repeat' (first
    | with_reducible apply Step.refl
    | with_reducible assumption
    | exact Eq.refl true
    | with_reducible apply Answers.ok
    | ((conv => arg 3; arg 28); refine Step.put ?_)
    | (extract_lets +onlyGivenNames lv; first | ((first | refine Step.cut lv ?_ ?_ | refine Answers.cut lv ?_ ?_); unfold lv; clear lv; rotate_left; intro hx; clear_value lv; revert lv; intro _ _) | (revert lv; intro _))
    | split)

theorem step_execRestartDelayEnd {s : State} : Answers [.time, .chans, .seq] s (execRestartDelayEnd s) := by
  unfold execRestartDelayEnd
  repeat' (first
    | with_reducible apply Step.refl
    | with_reducible assumption
    | exact Eq.refl true
    | with_reducible apply Answers.ok
    | ((conv => arg 3; arg 28); refine Step.put ?_)
    | (extract_lets +onlyGivenNames lv; first | ((first | refine Step.cut lv ?_ ?_ | refine Answers.cut lv ?_ ?_); unfold lv; clear lv; rotate_left; intro hx; clear_value lv; revert lv; intro _ _) | (revert lv; intro _))
    | with_reducible apply Step.after step_powerUp
    | with_reducible apply Step.after step_satEv
    | with_reducible apply Step.after step_fire
    | with_reducible apply Step.when
    | (with_reducible refine Step.whenAt rfl ?_ (fun u => ?_))
    | (with_reducible apply Step.foldl; intro fs fa)
    | (with_reducible apply Step.foldFin; intro fs fa)
    | (with_reducible apply Step.foldlFst; intro fs fa)
    | exact (fun _ => rfl)
    | (intro n; dsimp only; split <;> rfl)
    | (split; rename_i heq; have hx : (_ : State) = _ := congrArg Prod.snd heq; dsimp only at hx; subst hx)
    | (split; rename_i heq; have hx : (_ : State) = _ := congrArg Prod.fst heq; dsimp only at hx; subst hx)
    | (intro (n : Nvp) hn; simp only [Nvp.wf, Bool.and_eq_true] at hn ⊢; first | exact ⟨⟨nvpPuts_wf _ _ hn.1.1, hn.1.2⟩, hn.2⟩ | exact ⟨hn.1, rfl⟩)
    | (intro (n : Nvp) hn; split <;> (with_reducible exact Nvp.wf_of hn rfl rfl rfl))
    | (intro (n : Nvp) hn; with_reducible exact Nvp.wf_of hn rfl rfl rfl)
    | (intro (n : Otp) hn; split <;> (with_reducible exact Otp.wf_of hn rfl rfl rfl rfl))
    | (intro (n : Otp) hn; with_reducible exact Otp.wf_of hn rfl rfl rfl rfl)
    | (intro (n : Upd) hn; split <;> (with_reducible exact Upd.wf_of hn rfl))
    | (intro (n : Upd) hn; with_reducible exact Upd.wf_of hn rfl)
    | (intro (n : EvStore) hn; rw [EvStore.wf_iff] at *; first | exact ⟨cellsWf_put 0 _ _ _ hn.1, hn.2⟩ | exact ⟨hn.1, cellsWf_put _ _ _ _ hn.2⟩ | exact ⟨cellsWf_filter 0 _ _ hn.1, hn.2⟩)
    | (intro (n : EvStore) hn; split <;> (with_reducible exact EvStore.wf_of hn rfl rfl))
    | (intro (n : EvStore) hn; with_reducible exact EvStore.wf_of hn rfl rfl)
    | (intro (n : Bbx) hn; split <;> (with_reducible exact EvStore.wf_of hn rfl rfl))
    | (intro (n : Bbx) hn; with_reducible exact EvStore.wf_eq hn rfl)
    | (intro (n : Bbx) hn; with_reducible exact EvStore.wf_of hn rfl rfl)
    | split)

/-! ### LawState -/

theorem step_modEng {s : State} {e : Fin 20} {f : Engine → Engine} : Step [.law] s (State.modEng s e f) := by
  unfold State.modEng
  repeat' (first
    | with_reducible apply Step.refl
    | with_reducible assumption
    | exact Eq.refl true
    | ((conv => arg 3; arg 28); refine Step.put ?_)
    | (extract_lets +onlyGivenNames lv; first | ((first | refine Step.cut lv ?_ ?_ | refine Answers.cut lv ?_ ?_); unfold lv; clear lv; rotate_left; intro hx; clear_value lv; revert lv; intro _ _) | (revert lv; intro _))
    | split)

theorem step_lawSync {s : State} {e : Fin 20} : Step [.law] s (State.lawSync s e) := by
  unfold State.lawSync
  repeat' (first
    | with_reducible apply Step.refl
    | with_reducible assumption
    | exact Eq.refl true
    | (extract_lets +onlyGivenNames lv; first | ((first | refine Step.cut lv ?_ ?_ | refine Answers.cut lv ?_ ?_); unfold lv; clear lv; rotate_left; intro hx; clear_value lv; revert lv; intro _ _) | (revert lv; intro _))
    | with_reducible apply Step.after step_modEng
    | split)

theorem step_lawFresh {s : State} {p : Fin 20 → Bool} : Step [.law] s (State.lawFresh s p) := by
  unfold State.lawFresh
  repeat' (first
    | with_reducible apply Step.refl
    | with_reducible assumption
    | exact Eq.refl true
    | ((conv => arg 3; arg 28); refine Step.put ?_)
    | (extract_lets +onlyGivenNames lv; first | ((first | refine Step.cut lv ?_ ?_ | refine Answers.cut lv ?_ ?_); unfold lv; clear lv; rotate_left; intro hx; clear_value lv; revert lv; intro _ _) | (revert lv; intro _))
    | with_reducible apply Step.when
    | (with_reducible apply Step.foldl; intro fs fa)
    | (with_reducible apply Step.foldFin; intro fs fa)
    | (with_reducible apply Step.foldlFst; intro fs fa)
    | exact (fun _ => rfl)
    | (intro n; dsimp only; split <;> rfl)
    | (split; rename_i heq; have hx : (_ : State) = _ := congrArg Prod.snd heq; dsimp only at hx; subst hx)
    | (split; rename_i heq; have hx : (_ : State) = _ := congrArg Prod.fst heq; dsimp only at hx; subst hx)
    | (intro (n : Nvp) hn; simp only [Nvp.wf, Bool.and_eq_true] at hn ⊢; first | exact ⟨⟨nvpPuts_wf _ _ hn.1.1, hn.1.2⟩, hn.2⟩ | exact ⟨hn.1, rfl⟩)
    | (intro (n : Nvp) hn; split <;> (with_reducible exact Nvp.wf_of hn rfl rfl rfl))
    | (intro (n : Nvp) hn; with_reducible exact Nvp.wf_of hn rfl rfl rfl)
    | (intro (n : Otp) hn; split <;> (with_reducible exact Otp.wf_of hn rfl rfl rfl rfl))
    | (intro (n : Otp) hn; with_reducible exact Otp.wf_of hn rfl rfl rfl rfl)
    | (intro (n : Upd) hn; split <;> (with_reducible exact Upd.wf_of hn rfl))
    | (intro (n : Upd) hn; with_reducible exact Upd.wf_of hn rfl)
    | (intro (n : EvStore) hn; rw [EvStore.wf_iff] at *; first | exact ⟨cellsWf_put 0 _ _ _ hn.1, hn.2⟩ | exact ⟨hn.1, cellsWf_put _ _ _ _ hn.2⟩ | exact ⟨cellsWf_filter 0 _ _ hn.1, hn.2⟩)
    | (intro (n : EvStore) hn; split <;> (with_reducible exact EvStore.wf_of hn rfl rfl))
    | (intro (n : EvStore) hn; with_reducible exact EvStore.wf_of hn rfl rfl)
    | (intro (n : Bbx) hn; split <;> (with_reducible exact EvStore.wf_of hn rfl rfl))
    | (intro (n : Bbx) hn; with_reducible exact EvStore.wf_eq hn rfl)
    | (intro (n : Bbx) hn; with_reducible exact EvStore.wf_of hn rfl rfl)
    | split)

theorem step_lawNext {s : State} {start : Bool} : Step [.law] s (State.lawNext s start) := by
  unfold State.lawNext
  repeat' (first
    | with_reducible apply Step.refl
    | with_reducible assumption
    | exact Eq.refl true
    | ((conv => arg 3; arg 28); refine Step.put ?_)
    | (extract_lets +onlyGivenNames lv; first | ((first | refine Step.cut lv ?_ ?_ | refine Answers.cut lv ?_ ?_); unfold lv; clear lv; rotate_left; intro hx; clear_value lv; revert lv; intro _ _) | (revert lv; intro _))
    | with_reducible apply Step.when
    | (with_reducible apply Step.foldl; intro fs fa)
    | (with_reducible apply Step.foldFin; intro fs fa)
    | (with_reducible apply Step.foldlFst; intro fs fa)
    | exact (fun _ => rfl)
    | (intro n; dsimp only; split <;> rfl)
    | (split; rename_i heq; have hx : (_ : State) = _ := congrArg Prod.snd heq; dsimp only at hx; subst hx)
    | (split; rename_i heq; have hx : (_ : State) = _ := congrArg Prod.fst heq; dsimp only at hx; subst hx)
    | (intro (n : Nvp) hn; simp only [Nvp.wf, Bool.and_eq_true] at hn ⊢; first | exact ⟨⟨nvpPuts_wf _ _ hn.1.1, hn.1.2⟩, hn.2⟩ | exact ⟨hn.1, rfl⟩)
    | (intro (n : Nvp) hn; split <;> (with_reducible exact Nvp.wf_of hn rfl rfl rfl))
    | (intro (n : Nvp) hn; with_reducible exact Nvp.wf_of hn rfl rfl rfl)
    | (intro (n : Otp) hn; split <;> (with_reducible exact Otp.wf_of hn rfl rfl rfl rfl))
    | (intro (n : Otp) hn; with_reducible exact Otp.wf_of hn rfl rfl rfl rfl)
    | (intro (n : Upd) hn; split <;> (with_reducible exact Upd.wf_of hn rfl))
    | (intro (n : Upd) hn; with_reducible exact Upd.wf_of hn rfl)
    | (intro (n : EvStore) hn; rw [EvStore.wf_iff] at *; first | exact ⟨cellsWf_put 0 _ _ _ hn.1, hn.2⟩ | exact ⟨hn.1, cellsWf_put _ _ _ _ hn.2⟩ | exact ⟨cellsWf_filter 0 _ _ hn.1, hn.2⟩)
    | (intro (n : EvStore) hn; split <;> (with_reducible exact EvStore.wf_of hn rfl rfl))
    | (intro (n : EvStore) hn; with_reducible exact EvStore.wf_of hn rfl rfl)
    | (intro (n : Bbx) hn; split <;> (with_reducible exact EvStore.wf_of hn rfl rfl))
    | (intro (n : Bbx) hn; with_reducible exact EvStore.wf_eq hn rfl)
    | (intro (n : Bbx) hn; with_reducible exact EvStore.wf_of hn rfl rfl)
    | split)

theorem step_lawSyncAll {s : State} : Step [.law] s (State.lawSyncAll s) := by
  unfold State.lawSyncAll
  repeat' (first
    | with_reducible apply Step.refl
    | with_reducible assumption
    | exact Eq.refl true
    | (extract_lets +onlyGivenNames lv; first | ((first | refine Step.cut lv ?_ ?_ | refine Answers.cut lv ?_ ?_); unfold lv; clear lv; rotate_left; intro hx; clear_value lv; revert lv; intro _ _) | (revert lv; intro _))
    | with_reducible apply Step.after step_lawSync
    | with_reducible apply Step.when
    | (with_reducible apply Step.foldl; intro fs fa)
    | (with_reducible apply Step.foldFin; intro fs fa)
    | (with_reducible apply Step.foldlFst; intro fs fa)
    | (split; rename_i heq; have hx : (_ : State) = _ := congrArg Prod.snd heq; dsimp only at hx; subst hx)
    | (split; rename_i heq; have hx : (_ : State) = _ := congrArg Prod.fst heq; dsimp only at hx; subst hx)
    | split)

/-! ### Rails -/

theorem step_modPhase {s : State} {j : Fin 24} {f : Phase → Phase} : Step [.pwm] s (State.modPhase s j f) := by
  unfold State.modPhase
  repeat' (first
    | with_reducible apply Step.refl
    | with_reducible assumption
    | exact Eq.refl true
    | ((conv => arg 3; arg 28); refine Step.put ?_)
    | (extract_lets +onlyGivenNames lv; first | ((first | refine Step.cut lv ?_ ?_ | refine Answers.cut lv ?_ ?_); unfold lv; clear lv; rotate_left; intro hx; clear_value lv; revert lv; intro _ _) | (revert lv; intro _))
    | split)

theorem step_modRail {s : State} {n : Fin 8} {f : Rail → Rail} : Step [.pwm] s (State.modRail s n f) := by
  unfold State.modRail
  repeat' (first
    | with_reducible apply Step.refl
    | with_reducible assumption
    | exact Eq.refl true
    | ((conv => arg 3; arg 28); refine Step.put ?_)
    | (extract_lets +onlyGivenNames lv; first | ((first | refine Step.cut lv ?_ ?_ | refine Answers.cut lv ?_ ?_); unfold lv; clear lv; rotate_left; intro hx; clear_value lv; revert lv; intro _ _) | (revert lv; intro _))
    | split)

theorem step_railEvent {s : State} {n : Fin 8} {cause : Nat} {mid : Nat} : Step [.chans, .pwm] s (State.railEvent s n cause mid) := by
  unfold State.railEvent
  repeat' (first
    | with_reducible apply Step.refl
    | with_reducible assumption
    | exact Eq.refl true
    | (extract_lets +onlyGivenNames lv; first | ((first | refine Step.cut lv ?_ ?_ | refine Answers.cut lv ?_ ?_); unfold lv; clear lv; rotate_left; intro hx; clear_value lv; revert lv; intro _ _) | (revert lv; intro _))
    | with_reducible apply Step.after step_fire
    | with_reducible apply Step.after step_modRail
    | split)

theorem step_capEval {s : State} {n : Fin 8} : Step [.regs, .chans, .pwm] s (State.capEval s n) := by
  unfold State.capEval
  repeat' (first
    | with_reducible apply Step.refl
    | with_reducible assumption
    | exact Eq.refl true
    | (extract_lets +onlyGivenNames lv; first | ((first | refine Step.cut lv ?_ ?_ | refine Answers.cut lv ?_ ?_); unfold lv; clear lv; rotate_left; intro hx; clear_value lv; revert lv; intro _ _) | (revert lv; intro _))
    | with_reducible apply Step.after step_modRail
    | with_reducible apply Step.after step_railEvent
    | with_reducible apply Step.after step_stick
    | split)

theorem step_railCut {s : State} {n : Fin 8} : Step [.pwm] s (State.railCut s n) := by
  unfold State.railCut
  repeat' (first
    | with_reducible apply Step.refl
    | with_reducible assumption
    | exact Eq.refl true
    | (extract_lets +onlyGivenNames lv; first | ((first | refine Step.cut lv ?_ ?_ | refine Answers.cut lv ?_ ?_); unfold lv; clear lv; rotate_left; intro hx; clear_value lv; revert lv; intro _ _) | (revert lv; intro _))
    | with_reducible apply Step.after step_modPhase
    | with_reducible apply Step.when
    | (with_reducible apply Step.foldl; intro fs fa)
    | (with_reducible apply Step.foldFin; intro fs fa)
    | (with_reducible apply Step.foldlFst; intro fs fa)
    | (split; rename_i heq; have hx : (_ : State) = _ := congrArg Prod.snd heq; dsimp only at hx; subst hx)
    | (split; rename_i heq; have hx : (_ : State) = _ := congrArg Prod.fst heq; dsimp only at hx; subst hx)
    | split)

theorem step_railOff {s : State} {n : Fin 8} : Step [.regs, .chans, .pwm] s (State.railOff s n) := by
  unfold State.railOff
  repeat' (first
    | with_reducible apply Step.refl
    | with_reducible assumption
    | exact Eq.refl true
    | (extract_lets +onlyGivenNames lv; first | ((first | refine Step.cut lv ?_ ?_ | refine Answers.cut lv ?_ ?_); unfold lv; clear lv; rotate_left; intro hx; clear_value lv; revert lv; intro _ _) | (revert lv; intro _))
    | with_reducible apply Step.after step_railCut
    | with_reducible apply Step.after step_modPhase
    | with_reducible apply Step.after step_capEval
    | with_reducible apply Step.after step_modRail
    | with_reducible apply Step.when
    | (with_reducible apply Step.foldl; intro fs fa)
    | (with_reducible apply Step.foldFin; intro fs fa)
    | (with_reducible apply Step.foldlFst; intro fs fa)
    | (split; rename_i heq; have hx : (_ : State) = _ := congrArg Prod.snd heq; dsimp only at hx; subst hx)
    | (split; rename_i heq; have hx : (_ : State) = _ := congrArg Prod.fst heq; dsimp only at hx; subst hx)
    | split)

theorem step_railStart {s : State} {n : Fin 8} : Step [.pwm] s (State.railStart s n) := by
  unfold State.railStart
  repeat' (first
    | with_reducible apply Step.refl
    | with_reducible assumption
    | exact Eq.refl true
    | (extract_lets +onlyGivenNames lv; first | ((first | refine Step.cut lv ?_ ?_ | refine Answers.cut lv ?_ ?_); unfold lv; clear lv; rotate_left; intro hx; clear_value lv; revert lv; intro _ _) | (revert lv; intro _))
    | with_reducible apply Step.after step_modPhase
    | with_reducible apply Step.after step_modRail
    | with_reducible apply Step.when
    | (with_reducible apply Step.foldl; intro fs fa)
    | (with_reducible apply Step.foldFin; intro fs fa)
    | (with_reducible apply Step.foldlFst; intro fs fa)
    | (split; rename_i heq; have hx : (_ : State) = _ := congrArg Prod.snd heq; dsimp only at hx; subst hx)
    | (split; rename_i heq; have hx : (_ : State) = _ := congrArg Prod.fst heq; dsimp only at hx; subst hx)
    | split)

theorem step_railRun {s : State} {n : Fin 8} : Step [.regs, .chans, .pwm] s (State.railRun s n) := by
  unfold State.railRun
  repeat' (first
    | with_reducible apply Step.refl
    | with_reducible assumption
    | exact Eq.refl true
    | (extract_lets +onlyGivenNames lv; first | ((first | refine Step.cut lv ?_ ?_ | refine Answers.cut lv ?_ ?_); unfold lv; clear lv; rotate_left; intro hx; clear_value lv; revert lv; intro _ _) | (revert lv; intro _))
    | with_reducible apply Step.after step_capEval
    | with_reducible apply Step.after step_modRail
    | split)

theorem step_railPause {s : State} {n : Fin 8} : Step [.pwm] s (State.railPause s n) := by
  unfold State.railPause
  repeat' (first
    | with_reducible apply Step.refl
    | with_reducible assumption
    | exact Eq.refl true
    | (extract_lets +onlyGivenNames lv; first | ((first | refine Step.cut lv ?_ ?_ | refine Answers.cut lv ?_ ?_); unfold lv; clear lv; rotate_left; intro hx; clear_value lv; revert lv; intro _ _) | (revert lv; intro _))
    | with_reducible apply Step.after step_modPhase
    | with_reducible apply Step.after step_modRail
    | with_reducible apply Step.when
    | (with_reducible apply Step.foldl; intro fs fa)
    | (with_reducible apply Step.foldFin; intro fs fa)
    | (with_reducible apply Step.foldlFst; intro fs fa)
    | (split; rename_i heq; have hx : (_ : State) = _ := congrArg Prod.snd heq; dsimp only at hx; subst hx)
    | (split; rename_i heq; have hx : (_ : State) = _ := congrArg Prod.fst heq; dsimp only at hx; subst hx)
    | split)

theorem step_railResume {s : State} {n : Fin 8} : Step [.regs, .chans, .pwm] s (State.railResume s n) := by
  unfold State.railResume
  repeat' (first
    | with_reducible apply Step.refl
    | with_reducible assumption
    | exact Eq.refl true
    | (extract_lets +onlyGivenNames lv; first | ((first | refine Step.cut lv ?_ ?_ | refine Answers.cut lv ?_ ?_); unfold lv; clear lv; rotate_left; intro hx; clear_value lv; revert lv; intro _ _) | (revert lv; intro _))
    | with_reducible apply Step.after step_modPhase
    | with_reducible apply Step.after step_modRail
    | with_reducible apply Step.after step_capEval
    | with_reducible apply Step.when
    | (with_reducible apply Step.foldl; intro fs fa)
    | (with_reducible apply Step.foldFin; intro fs fa)
    | (with_reducible apply Step.foldlFst; intro fs fa)
    | (split; rename_i heq; have hx : (_ : State) = _ := congrArg Prod.snd heq; dsimp only at hx; subst hx)
    | (split; rename_i heq; have hx : (_ : State) = _ := congrArg Prod.fst heq; dsimp only at hx; subst hx)
    | split)

theorem step_railStop {s : State} {n : Fin 8} : Step [.pwm] s (State.railStop s n) := by
  unfold State.railStop
  repeat' (first
    | with_reducible apply Step.refl
    | with_reducible assumption
    | exact Eq.refl true
    | (extract_lets +onlyGivenNames lv; first | ((first | refine Step.cut lv ?_ ?_ | refine Answers.cut lv ?_ ?_); unfold lv; clear lv; rotate_left; intro hx; clear_value lv; revert lv; intro _ _) | (revert lv; intro _))
    | with_reducible apply Step.after step_modPhase
    | with_reducible apply Step.after step_modRail
    | with_reducible apply Step.when
    | (with_reducible apply Step.foldl; intro fs fa)
    | (with_reducible apply Step.foldFin; intro fs fa)
    | (with_reducible apply Step.foldlFst; intro fs fa)
    | (split; rename_i heq; have hx : (_ : State) = _ := congrArg Prod.snd heq; dsimp only at hx; subst hx)
    | (split; rename_i heq; have hx : (_ : State) = _ := congrArg Prod.fst heq; dsimp only at hx; subst hx)
    | split)

theorem step_railLatch {s : State} {n : Fin 8} {cause : Nat} : Step [.regs, .chans, .aon, .pwm, .seq] s (State.railLatch s n cause) := by
  unfold State.railLatch
  repeat' (first
    | with_reducible apply Step.refl
    | with_reducible assumption
    | exact Eq.refl true
    | (extract_lets +onlyGivenNames lv; first | ((first | refine Step.cut lv ?_ ?_ | refine Answers.cut lv ?_ ?_); unfold lv; clear lv; rotate_left; intro hx; clear_value lv; revert lv; intro _ _) | (revert lv; intro _))
    | with_reducible apply Step.after step_nodeLatched
    | with_reducible apply Step.after step_railEvent
    | with_reducible apply Step.after step_modRail
    | with_reducible apply Step.after step_railCut
    | split)

theorem step_railTrip {s : State} {n : Fin 8} : Step [.regs, .chans, .aon, .pwm, .seq] s (State.railTrip s n) := by
  unfold State.railTrip
  repeat' (first
    | with_reducible apply Step.refl
    | with_reducible assumption
    | exact Eq.refl true
    | (extract_lets +onlyGivenNames lv; first | ((first | refine Step.cut lv ?_ ?_ | refine Answers.cut lv ?_ ?_); unfold lv; clear lv; rotate_left; intro hx; clear_value lv; revert lv; intro _ _) | (revert lv; intro _))
    | with_reducible apply Step.after step_railLatch
    | split)

theorem step_railDerate {s : State} {n : Fin 8} : Step [.regs, .chans, .pwm] s (State.railDerate s n) := by
  unfold State.railDerate
  repeat' (first
    | with_reducible apply Step.refl
    | with_reducible assumption
    | exact Eq.refl true
    | (extract_lets +onlyGivenNames lv; first | ((first | refine Step.cut lv ?_ ?_ | refine Answers.cut lv ?_ ?_); unfold lv; clear lv; rotate_left; intro hx; clear_value lv; revert lv; intro _ _) | (revert lv; intro _))
    | with_reducible apply Step.after step_capEval
    | with_reducible apply Step.after step_railEvent
    | with_reducible apply Step.after step_modRail
    | split)

theorem step_railFollow {s : State} {n : Fin 8} : Step [.regs, .chans, .pwm] s (State.railFollow s n) := by
  unfold State.railFollow
  repeat' (first
    | with_reducible apply Step.refl
    | with_reducible assumption
    | exact Eq.refl true
    | (extract_lets +onlyGivenNames lv; first | ((first | refine Step.cut lv ?_ ?_ | refine Answers.cut lv ?_ ?_); unfold lv; clear lv; rotate_left; intro hx; clear_value lv; revert lv; intro _ _) | (revert lv; intro _))
    | with_reducible apply Step.after step_railStart
    | with_reducible apply Step.after step_railStop
    | with_reducible apply Step.after step_railOff
    | split)

theorem step_rampStep {s : State} {n : Fin 8} : Step [.regs, .chans, .pwm] s (State.rampStep s n) := by
  unfold State.rampStep
  repeat' (first
    | with_reducible apply Step.refl
    | with_reducible assumption
    | exact Eq.refl true
    | (extract_lets +onlyGivenNames lv; first | ((first | refine Step.cut lv ?_ ?_ | refine Answers.cut lv ?_ ?_); unfold lv; clear lv; rotate_left; intro hx; clear_value lv; revert lv; intro _ _) | (revert lv; intro _))
    | with_reducible apply Step.after step_modRail
    | with_reducible apply Step.after step_railRun
    | with_reducible apply Step.after step_railFollow
    | with_reducible apply Step.after step_railOff
    | split)

theorem step_senseFail {s : State} {j : Fin 24} : Step [.regs, .chans, .pwm] s (State.senseFail s j) := by
  unfold State.senseFail
  repeat' (first
    | with_reducible apply Step.refl
    | with_reducible assumption
    | exact Eq.refl true
    | (extract_lets +onlyGivenNames lv; first | ((first | refine Step.cut lv ?_ ?_ | refine Answers.cut lv ?_ ?_); unfold lv; clear lv; rotate_left; intro hx; clear_value lv; revert lv; intro _ _) | (revert lv; intro _))
    | with_reducible apply Step.after step_modPhase
    | with_reducible apply Step.after step_stick
    | with_reducible apply Step.after step_fire
    | with_reducible apply Step.after step_capEval
    | with_reducible apply Step.after step_railEvent
    | split)

theorem step_openFail {s : State} {j : Fin 24} : Step [.regs, .chans, .pwm] s (State.openFail s j) := by
  unfold State.openFail
  repeat' (first
    | with_reducible apply Step.refl
    | with_reducible assumption
    | exact Eq.refl true
    | (extract_lets +onlyGivenNames lv; first | ((first | refine Step.cut lv ?_ ?_ | refine Answers.cut lv ?_ ?_); unfold lv; clear lv; rotate_left; intro hx; clear_value lv; revert lv; intro _ _) | (revert lv; intro _))
    | with_reducible apply Step.after step_modPhase
    | with_reducible apply Step.after step_stick
    | with_reducible apply Step.after step_fire
    | with_reducible apply Step.after step_capEval
    | with_reducible apply Step.after step_railEvent
    | split)

theorem step_sumCheck {s : State} {n : Fin 8} {cur : Fin 8 → Int} : Step [.pwm] s (State.sumCheck s n cur) := by
  unfold State.sumCheck
  repeat' (first
    | with_reducible apply Step.refl
    | with_reducible assumption
    | exact Eq.refl true
    | (extract_lets +onlyGivenNames lv; first | ((first | refine Step.cut lv ?_ ?_ | refine Answers.cut lv ?_ ?_); unfold lv; clear lv; rotate_left; intro hx; clear_value lv; revert lv; intro _ _) | (revert lv; intro _))
    | with_reducible apply Step.after step_modRail
    | split)

theorem step_sumStrobe {s : State} : Step [.pwm] s (State.sumStrobe s) := by
  unfold State.sumStrobe
  repeat' (first
    | with_reducible apply Step.refl
    | with_reducible assumption
    | exact Eq.refl true
    | ((conv => arg 3; arg 28); refine Step.put ?_)
    | (extract_lets +onlyGivenNames lv; first | ((first | refine Step.cut lv ?_ ?_ | refine Answers.cut lv ?_ ?_); unfold lv; clear lv; rotate_left; intro hx; clear_value lv; revert lv; intro _ _) | (revert lv; intro _))
    | with_reducible apply Step.after step_sumCheck
    | with_reducible apply Step.when
    | (with_reducible apply Step.foldl; intro fs fa)
    | (with_reducible apply Step.foldFin; intro fs fa)
    | (with_reducible apply Step.foldlFst; intro fs fa)
    | exact (fun _ => rfl)
    | (intro n; dsimp only; split <;> rfl)
    | (split; rename_i heq; have hx : (_ : State) = _ := congrArg Prod.snd heq; dsimp only at hx; subst hx)
    | (split; rename_i heq; have hx : (_ : State) = _ := congrArg Prod.fst heq; dsimp only at hx; subst hx)
    | (intro (n : Nvp) hn; simp only [Nvp.wf, Bool.and_eq_true] at hn ⊢; first | exact ⟨⟨nvpPuts_wf _ _ hn.1.1, hn.1.2⟩, hn.2⟩ | exact ⟨hn.1, rfl⟩)
    | (intro (n : Nvp) hn; split <;> (with_reducible exact Nvp.wf_of hn rfl rfl rfl))
    | (intro (n : Nvp) hn; with_reducible exact Nvp.wf_of hn rfl rfl rfl)
    | (intro (n : Otp) hn; split <;> (with_reducible exact Otp.wf_of hn rfl rfl rfl rfl))
    | (intro (n : Otp) hn; with_reducible exact Otp.wf_of hn rfl rfl rfl rfl)
    | (intro (n : Upd) hn; split <;> (with_reducible exact Upd.wf_of hn rfl))
    | (intro (n : Upd) hn; with_reducible exact Upd.wf_of hn rfl)
    | (intro (n : EvStore) hn; rw [EvStore.wf_iff] at *; first | exact ⟨cellsWf_put 0 _ _ _ hn.1, hn.2⟩ | exact ⟨hn.1, cellsWf_put _ _ _ _ hn.2⟩ | exact ⟨cellsWf_filter 0 _ _ hn.1, hn.2⟩)
    | (intro (n : EvStore) hn; split <;> (with_reducible exact EvStore.wf_of hn rfl rfl))
    | (intro (n : EvStore) hn; with_reducible exact EvStore.wf_of hn rfl rfl)
    | (intro (n : Bbx) hn; split <;> (with_reducible exact EvStore.wf_of hn rfl rfl))
    | (intro (n : Bbx) hn; with_reducible exact EvStore.wf_eq hn rfl)
    | (intro (n : Bbx) hn; with_reducible exact EvStore.wf_of hn rfl rfl)
    | split)

theorem step_shedEval {s : State} {n : Fin 8} : Step [.pwm] s (State.shedEval s n) := by
  unfold State.shedEval
  repeat' (first
    | with_reducible apply Step.refl
    | with_reducible assumption
    | exact Eq.refl true
    | (extract_lets +onlyGivenNames lv; first | ((first | refine Step.cut lv ?_ ?_ | refine Answers.cut lv ?_ ?_); unfold lv; clear lv; rotate_left; intro hx; clear_value lv; revert lv; intro _ _) | (revert lv; intro _))
    | with_reducible apply Step.after step_modRail
    | split)

theorem step_shedDone {s : State} {n : Fin 8} : Step [.regs, .chans, .pwm] s (State.shedDone s n) := by
  unfold State.shedDone
  repeat' (first
    | with_reducible apply Step.refl
    | with_reducible assumption
    | exact Eq.refl true
    | (extract_lets +onlyGivenNames lv; first | ((first | refine Step.cut lv ?_ ?_ | refine Answers.cut lv ?_ ?_); unfold lv; clear lv; rotate_left; intro hx; clear_value lv; revert lv; intro _ _) | (revert lv; intro _))
    | with_reducible apply Step.after step_capEval
    | with_reducible apply Step.after step_modRail
    | split)

theorem step_assign {s : State} {j : Fin 24} {a : Bool × Fin 8} : Step [.pwm] s (State.assign s j a) := by
  unfold State.assign
  repeat' (first
    | with_reducible apply Step.refl
    | with_reducible assumption
    | exact Eq.refl true
    | (extract_lets +onlyGivenNames lv; first | ((first | refine Step.cut lv ?_ ?_ | refine Answers.cut lv ?_ ?_); unfold lv; clear lv; rotate_left; intro hx; clear_value lv; revert lv; intro _ _) | (revert lv; intro _))
    | with_reducible apply Step.after step_modPhase
    | split)

theorem step_assignAll {s : State} : Step [.pwm] s (State.assignAll s) := by
  unfold State.assignAll
  repeat' (first
    | with_reducible apply Step.refl
    | with_reducible assumption
    | exact Eq.refl true
    | (extract_lets +onlyGivenNames lv; first | ((first | refine Step.cut lv ?_ ?_ | refine Answers.cut lv ?_ ?_); unfold lv; clear lv; rotate_left; intro hx; clear_value lv; revert lv; intro _ _) | (revert lv; intro _))
    | with_reducible apply Step.after step_modPhase
    | with_reducible apply Step.after step_assign
    | with_reducible apply Step.when
    | (with_reducible apply Step.foldl; intro fs fa)
    | (with_reducible apply Step.foldFin; intro fs fa)
    | (with_reducible apply Step.foldlFst; intro fs fa)
    | (split; rename_i heq; have hx : (_ : State) = _ := congrArg Prod.snd heq; dsimp only at hx; subst hx)
    | (split; rename_i heq; have hx : (_ : State) = _ := congrArg Prod.fst heq; dsimp only at hx; subst hx)
    | split)

theorem step_slewRail {s : State} {n : Fin 8} {goal : Nat} : Step [.pwm] s (State.slewRail s n goal) := by
  unfold State.slewRail
  repeat' (first
    | with_reducible apply Step.refl
    | with_reducible assumption
    | exact Eq.refl true
    | (extract_lets +onlyGivenNames lv; first | ((first | refine Step.cut lv ?_ ?_ | refine Answers.cut lv ?_ ?_); unfold lv; clear lv; rotate_left; intro hx; clear_value lv; revert lv; intro _ _) | (revert lv; intro _))
    | with_reducible apply Step.after step_modRail
    | split)

theorem step_syncStep {s : State} {n : Fin 8} {t0 : Nat} : Step [.pwm] s (State.syncStep s n t0).1 := by
  unfold State.syncStep
  repeat' (first
    | with_reducible apply Step.refl
    | with_reducible assumption
    | exact Eq.refl true
    | (extract_lets +onlyGivenNames lv; first | ((first | refine Step.cut lv ?_ ?_ | refine Answers.cut lv ?_ ?_); unfold lv; clear lv; rotate_left; intro hx; clear_value lv; revert lv; intro _ _) | (revert lv; intro _))
    | with_reducible apply Step.after step_modRail
    | with_reducible apply Step.after step_slewRail
    | split)

theorem step_syncLoss {s : State} : Step [.regs, .chans, .pwm] s (State.syncLoss s) := by
  unfold State.syncLoss
  repeat' (first
    | with_reducible apply Step.refl
    | with_reducible assumption
    | exact Eq.refl true
    | ((conv => arg 3; arg 28); refine Step.put ?_)
    | (extract_lets +onlyGivenNames lv; first | ((first | refine Step.cut lv ?_ ?_ | refine Answers.cut lv ?_ ?_); unfold lv; clear lv; rotate_left; intro hx; clear_value lv; revert lv; intro _ _) | (revert lv; intro _))
    | with_reducible apply Step.after step_fire
    | with_reducible apply Step.after step_stick
    | split)

theorem step_railAdopt {s : State} {n : Fin 8} : Step [.regs, .chans, .pwm] s (State.railAdopt s n) := by
  unfold State.railAdopt
  repeat' (first
    | with_reducible apply Step.refl
    | with_reducible assumption
    | exact Eq.refl true
    | (extract_lets +onlyGivenNames lv; first | ((first | refine Step.cut lv ?_ ?_ | refine Answers.cut lv ?_ ?_); unfold lv; clear lv; rotate_left; intro hx; clear_value lv; revert lv; intro _ _) | (revert lv; intro _))
    | with_reducible apply Step.after step_railCut
    | with_reducible apply Step.after step_modPhase
    | with_reducible apply Step.after step_capEval
    | with_reducible apply Step.after step_modRail
    | with_reducible apply Step.when
    | (with_reducible apply Step.foldl; intro fs fa)
    | (with_reducible apply Step.foldFin; intro fs fa)
    | (with_reducible apply Step.foldlFst; intro fs fa)
    | (split; rename_i heq; have hx : (_ : State) = _ := congrArg Prod.snd heq; dsimp only at hx; subst hx)
    | (split; rename_i heq; have hx : (_ : State) = _ := congrArg Prod.fst heq; dsimp only at hx; subst hx)
    | split)

theorem step_execPhaseShed {n : Fin 8} {s : State} : Answers [.regs, .chans, .pwm] s (execPhaseShed n s) := by
  unfold execPhaseShed
  repeat' (first
    | with_reducible apply Step.refl
    | with_reducible assumption
    | exact Eq.refl true
    | with_reducible apply Answers.ok
    | ((conv => arg 3; arg 28); refine Step.put ?_)
    | (extract_lets +onlyGivenNames lv; first | ((first | refine Step.cut lv ?_ ?_ | refine Answers.cut lv ?_ ?_); unfold lv; clear lv; rotate_left; intro hx; clear_value lv; revert lv; intro _ _) | (revert lv; intro _))
    | with_reducible apply Step.after step_shedDone
    | with_reducible apply Step.after step_modPhase
    | with_reducible apply Step.when
    | (with_reducible apply Step.foldl; intro fs fa)
    | (with_reducible apply Step.foldFin; intro fs fa)
    | (with_reducible apply Step.foldlFst; intro fs fa)
    | exact (fun _ => rfl)
    | (intro n; dsimp only; split <;> rfl)
    | (split; rename_i heq; have hx : (_ : State) = _ := congrArg Prod.snd heq; dsimp only at hx; subst hx)
    | (split; rename_i heq; have hx : (_ : State) = _ := congrArg Prod.fst heq; dsimp only at hx; subst hx)
    | (intro (n : Nvp) hn; simp only [Nvp.wf, Bool.and_eq_true] at hn ⊢; first | exact ⟨⟨nvpPuts_wf _ _ hn.1.1, hn.1.2⟩, hn.2⟩ | exact ⟨hn.1, rfl⟩)
    | (intro (n : Nvp) hn; split <;> (with_reducible exact Nvp.wf_of hn rfl rfl rfl))
    | (intro (n : Nvp) hn; with_reducible exact Nvp.wf_of hn rfl rfl rfl)
    | (intro (n : Otp) hn; split <;> (with_reducible exact Otp.wf_of hn rfl rfl rfl rfl))
    | (intro (n : Otp) hn; with_reducible exact Otp.wf_of hn rfl rfl rfl rfl)
    | (intro (n : Upd) hn; split <;> (with_reducible exact Upd.wf_of hn rfl))
    | (intro (n : Upd) hn; with_reducible exact Upd.wf_of hn rfl)
    | (intro (n : EvStore) hn; rw [EvStore.wf_iff] at *; first | exact ⟨cellsWf_put 0 _ _ _ hn.1, hn.2⟩ | exact ⟨hn.1, cellsWf_put _ _ _ _ hn.2⟩ | exact ⟨cellsWf_filter 0 _ _ hn.1, hn.2⟩)
    | (intro (n : EvStore) hn; split <;> (with_reducible exact EvStore.wf_of hn rfl rfl))
    | (intro (n : EvStore) hn; with_reducible exact EvStore.wf_of hn rfl rfl)
    | (intro (n : Bbx) hn; split <;> (with_reducible exact EvStore.wf_of hn rfl rfl))
    | (intro (n : Bbx) hn; with_reducible exact EvStore.wf_eq hn rfl)
    | (intro (n : Bbx) hn; with_reducible exact EvStore.wf_of hn rfl rfl)
    | split)

theorem step_execPhaseAdd {n : Fin 8} {s : State} : Answers [.regs, .chans, .pwm] s (execPhaseAdd n s) := by
  unfold execPhaseAdd
  repeat' (first
    | with_reducible apply Step.refl
    | with_reducible assumption
    | exact Eq.refl true
    | with_reducible apply Answers.ok
    | ((conv => arg 3; arg 28); refine Step.put ?_)
    | (extract_lets +onlyGivenNames lv; first | ((first | refine Step.cut lv ?_ ?_ | refine Answers.cut lv ?_ ?_); unfold lv; clear lv; rotate_left; intro hx; clear_value lv; revert lv; intro _ _) | (revert lv; intro _))
    | with_reducible apply Step.after step_shedDone
    | with_reducible apply Step.after step_modPhase
    | with_reducible apply Step.when
    | (with_reducible apply Step.foldl; intro fs fa)
    | (with_reducible apply Step.foldFin; intro fs fa)
    | (with_reducible apply Step.foldlFst; intro fs fa)
    | exact (fun _ => rfl)
    | (intro n; dsimp only; split <;> rfl)
    | (split; rename_i heq; have hx : (_ : State) = _ := congrArg Prod.snd heq; dsimp only at hx; subst hx)
    | (split; rename_i heq; have hx : (_ : State) = _ := congrArg Prod.fst heq; dsimp only at hx; subst hx)
    | (intro (n : Nvp) hn; simp only [Nvp.wf, Bool.and_eq_true] at hn ⊢; first | exact ⟨⟨nvpPuts_wf _ _ hn.1.1, hn.1.2⟩, hn.2⟩ | exact ⟨hn.1, rfl⟩)
    | (intro (n : Nvp) hn; split <;> (with_reducible exact Nvp.wf_of hn rfl rfl rfl))
    | (intro (n : Nvp) hn; with_reducible exact Nvp.wf_of hn rfl rfl rfl)
    | (intro (n : Otp) hn; split <;> (with_reducible exact Otp.wf_of hn rfl rfl rfl rfl))
    | (intro (n : Otp) hn; with_reducible exact Otp.wf_of hn rfl rfl rfl rfl)
    | (intro (n : Upd) hn; split <;> (with_reducible exact Upd.wf_of hn rfl))
    | (intro (n : Upd) hn; with_reducible exact Upd.wf_of hn rfl)
    | (intro (n : EvStore) hn; rw [EvStore.wf_iff] at *; first | exact ⟨cellsWf_put 0 _ _ _ hn.1, hn.2⟩ | exact ⟨hn.1, cellsWf_put _ _ _ _ hn.2⟩ | exact ⟨cellsWf_filter 0 _ _ hn.1, hn.2⟩)
    | (intro (n : EvStore) hn; split <;> (with_reducible exact EvStore.wf_of hn rfl rfl))
    | (intro (n : EvStore) hn; with_reducible exact EvStore.wf_of hn rfl rfl)
    | (intro (n : Bbx) hn; split <;> (with_reducible exact EvStore.wf_of hn rfl rfl))
    | (intro (n : Bbx) hn; with_reducible exact EvStore.wf_eq hn rfl)
    | (intro (n : Bbx) hn; with_reducible exact EvStore.wf_of hn rfl rfl)
    | split)

theorem step_execPhaseOpenDetect {j : Fin 24} {s : State} : Answers [.regs, .chans, .pwm] s (execPhaseOpenDetect j s) := by
  unfold execPhaseOpenDetect
  repeat' (first
    | with_reducible apply Step.refl
    | with_reducible assumption
    | exact Eq.refl true
    | with_reducible apply Answers.ok
    | (extract_lets +onlyGivenNames lv; first | ((first | refine Step.cut lv ?_ ?_ | refine Answers.cut lv ?_ ?_); unfold lv; clear lv; rotate_left; intro hx; clear_value lv; revert lv; intro _ _) | (revert lv; intro _))
    | with_reducible apply Step.after step_senseFail
    | with_reducible apply Step.after step_openFail
    | split)

theorem step_execPhaseSenseStuck {j : Fin 24} {s : State} : Answers [.regs, .chans, .pwm] s (execPhaseSenseStuck j s) := by
  unfold execPhaseSenseStuck
  repeat' (first
    | with_reducible apply Step.refl
    | with_reducible assumption
    | exact Eq.refl true
    | with_reducible apply Answers.ok
    | (extract_lets +onlyGivenNames lv; first | ((first | refine Step.cut lv ?_ ?_ | refine Answers.cut lv ?_ ?_); unfold lv; clear lv; rotate_left; intro hx; clear_value lv; revert lv; intro _ _) | (revert lv; intro _))
    | with_reducible apply Step.after step_senseFail
    | with_reducible apply Step.when
    | (with_reducible apply Step.foldl; intro fs fa)
    | (with_reducible apply Step.foldFin; intro fs fa)
    | (with_reducible apply Step.foldlFst; intro fs fa)
    | (split; rename_i heq; have hx : (_ : State) = _ := congrArg Prod.snd heq; dsimp only at hx; subst hx)
    | (split; rename_i heq; have hx : (_ : State) = _ := congrArg Prod.fst heq; dsimp only at hx; subst hx)
    | split)

theorem step_execSumCheckFail {n : Fin 8} {s : State} : Answers [.regs, .chans, .pwm] s (execSumCheckFail n s) := by
  unfold execSumCheckFail
  repeat' (first
    | with_reducible apply Step.refl
    | with_reducible assumption
    | exact Eq.refl true
    | with_reducible apply Answers.ok
    | (extract_lets +onlyGivenNames lv; first | ((first | refine Step.cut lv ?_ ?_ | refine Answers.cut lv ?_ ?_); unfold lv; clear lv; rotate_left; intro hx; clear_value lv; revert lv; intro _ _) | (revert lv; intro _))
    | with_reducible apply Step.after step_modRail
    | with_reducible apply Step.after step_senseFail
    | split)

theorem step_execPhaseAssignmentApply {j : Fin 24} {s : State} : Answers [.regs, .chans, .pwm] s (execPhaseAssignmentApply j s) := by
  unfold execPhaseAssignmentApply
  repeat' (first
    | with_reducible apply Step.refl
    | with_reducible assumption
    | exact Eq.refl true
    | with_reducible apply Answers.ok
    | (extract_lets +onlyGivenNames lv; first | ((first | refine Step.cut lv ?_ ?_ | refine Answers.cut lv ?_ ?_); unfold lv; clear lv; rotate_left; intro hx; clear_value lv; revert lv; intro _ _) | (revert lv; intro _))
    | with_reducible apply Step.after step_capEval
    | with_reducible apply Step.after step_assign
    | with_reducible apply Step.when
    | (with_reducible apply Step.foldl; intro fs fa)
    | (with_reducible apply Step.foldFin; intro fs fa)
    | (with_reducible apply Step.foldlFst; intro fs fa)
    | (split; rename_i heq; have hx : (_ : State) = _ := congrArg Prod.snd heq; dsimp only at hx; subst hx)
    | (split; rename_i heq; have hx : (_ : State) = _ := congrArg Prod.fst heq; dsimp only at hx; subst hx)
    | split)

theorem step_execSyncInEdge {s : State} : Answers [.regs, .chans, .pwm] s (execSyncInEdge s) := by
  unfold execSyncInEdge
  repeat' (first
    | with_reducible apply Step.refl
    | with_reducible assumption
    | exact Eq.refl true
    | with_reducible apply Answers.ok
    | ((conv => arg 3; arg 28); refine Step.put ?_)
    | (extract_lets +onlyGivenNames lv; first | ((first | refine Step.cut lv ?_ ?_ | refine Answers.cut lv ?_ ?_); unfold lv; clear lv; rotate_left; intro hx; clear_value lv; revert lv; intro _ _) | (revert lv; intro _))
    | with_reducible apply Step.after step_fire
    | with_reducible apply Step.after step_stick
    | with_reducible apply Step.after step_syncLoss
    | split)

theorem step_execSyncLost {s : State} : Answers [.time, .regs, .chans, .pwm] s (execSyncLost s) := by
  unfold execSyncLost
  repeat' (first
    | with_reducible apply Step.refl
    | with_reducible assumption
    | exact Eq.refl true
    | with_reducible apply Answers.ok
    | ((conv => arg 3; arg 28); refine Step.put ?_)
    | (extract_lets +onlyGivenNames lv; first | ((first | refine Step.cut lv ?_ ?_ | refine Answers.cut lv ?_ ?_); unfold lv; clear lv; rotate_left; intro hx; clear_value lv; revert lv; intro _ _) | (revert lv; intro _))
    | with_reducible apply Step.after step_syncLoss
    | with_reducible apply Step.when
    | (with_reducible refine Step.whenDue rfl ?_ (fun u => ?_))
    | (with_reducible apply Step.foldl; intro fs fa)
    | (with_reducible apply Step.foldFin; intro fs fa)
    | (with_reducible apply Step.foldlFst; intro fs fa)
    | exact (fun _ => rfl)
    | (intro n; dsimp only; split <;> rfl)
    | (split; rename_i heq; have hx : (_ : State) = _ := congrArg Prod.snd heq; dsimp only at hx; subst hx)
    | (split; rename_i heq; have hx : (_ : State) = _ := congrArg Prod.fst heq; dsimp only at hx; subst hx)
    | (intro (n : Nvp) hn; simp only [Nvp.wf, Bool.and_eq_true] at hn ⊢; first | exact ⟨⟨nvpPuts_wf _ _ hn.1.1, hn.1.2⟩, hn.2⟩ | exact ⟨hn.1, rfl⟩)
    | (intro (n : Nvp) hn; split <;> (with_reducible exact Nvp.wf_of hn rfl rfl rfl))
    | (intro (n : Nvp) hn; with_reducible exact Nvp.wf_of hn rfl rfl rfl)
    | (intro (n : Otp) hn; split <;> (with_reducible exact Otp.wf_of hn rfl rfl rfl rfl))
    | (intro (n : Otp) hn; with_reducible exact Otp.wf_of hn rfl rfl rfl rfl)
    | (intro (n : Upd) hn; split <;> (with_reducible exact Upd.wf_of hn rfl))
    | (intro (n : Upd) hn; with_reducible exact Upd.wf_of hn rfl)
    | (intro (n : EvStore) hn; rw [EvStore.wf_iff] at *; first | exact ⟨cellsWf_put 0 _ _ _ hn.1, hn.2⟩ | exact ⟨hn.1, cellsWf_put _ _ _ _ hn.2⟩ | exact ⟨cellsWf_filter 0 _ _ hn.1, hn.2⟩)
    | (intro (n : EvStore) hn; split <;> (with_reducible exact EvStore.wf_of hn rfl rfl))
    | (intro (n : EvStore) hn; with_reducible exact EvStore.wf_of hn rfl rfl)
    | (intro (n : Bbx) hn; split <;> (with_reducible exact EvStore.wf_of hn rfl rfl))
    | (intro (n : Bbx) hn; with_reducible exact EvStore.wf_eq hn rfl)
    | (intro (n : Bbx) hn; with_reducible exact EvStore.wf_of hn rfl rfl)
    | split)

theorem step_execRampUpdate {s : State} : Answers [.regs, .chans, .law, .pwm] s (execRampUpdate s) := by
  unfold execRampUpdate
  repeat' (first
    | with_reducible apply Step.refl
    | with_reducible assumption
    | exact Eq.refl true
    | with_reducible apply Answers.ok
    | (extract_lets +onlyGivenNames lv; first | ((first | refine Step.cut lv ?_ ?_ | refine Answers.cut lv ?_ ?_); unfold lv; clear lv; rotate_left; intro hx; clear_value lv; revert lv; intro _ _) | (revert lv; intro _))
    | with_reducible apply Step.after step_lawSyncAll
    | with_reducible apply Step.after step_rampStep
    | with_reducible apply Step.when
    | (with_reducible apply Step.foldl; intro fs fa)
    | (with_reducible apply Step.foldFin; intro fs fa)
    | (with_reducible apply Step.foldlFst; intro fs fa)
    | (split; rename_i heq; have hx : (_ : State) = _ := congrArg Prod.snd heq; dsimp only at hx; subst hx)
    | (split; rename_i heq; have hx : (_ : State) = _ := congrArg Prod.fst heq; dsimp only at hx; subst hx)
    | split)

theorem step_execStartShort {n : Fin 8} {s : State} : Answers [.regs, .chans, .aon, .law, .pwm, .seq] s (execStartShort n s) := by
  unfold execStartShort
  repeat' (first
    | with_reducible apply Step.refl
    | with_reducible assumption
    | exact Eq.refl true
    | with_reducible apply Answers.ok
    | (extract_lets +onlyGivenNames lv; first | ((first | refine Step.cut lv ?_ ?_ | refine Answers.cut lv ?_ ?_); unfold lv; clear lv; rotate_left; intro hx; clear_value lv; revert lv; intro _ _) | (revert lv; intro _))
    | with_reducible apply Step.after step_railEvent
    | with_reducible apply Step.after step_stick
    | with_reducible apply Step.after step_modRail
    | with_reducible apply Step.after step_satEv
    | with_reducible apply Step.after step_lawSyncAll
    | with_reducible apply Step.after step_railCut
    | with_reducible apply Step.after step_railLatch
    | split)

theorem step_execHiccupEnd {n : Fin 8} {s : State} : Answers [.time, .law, .pwm] s (execHiccupEnd n s) := by
  unfold execHiccupEnd
  repeat' (first
    | with_reducible apply Step.refl
    | with_reducible assumption
    | exact Eq.refl true
    | with_reducible apply Answers.ok
    | ((conv => arg 3; arg 28); refine Step.put ?_)
    | (extract_lets +onlyGivenNames lv; first | ((first | refine Step.cut lv ?_ ?_ | refine Answers.cut lv ?_ ?_); unfold lv; clear lv; rotate_left; intro hx; clear_value lv; revert lv; intro _ _) | (revert lv; intro _))
    | with_reducible apply Step.after step_lawSyncAll
    | with_reducible apply Step.after step_railStart
    | with_reducible apply Step.when
    | (with_reducible refine Step.whenAt rfl ?_ (fun u => ?_))
    | (with_reducible apply Step.foldl; intro fs fa)
    | (with_reducible apply Step.foldFin; intro fs fa)
    | (with_reducible apply Step.foldlFst; intro fs fa)
    | exact (fun _ => rfl)
    | (intro n; dsimp only; split <;> rfl)
    | (split; rename_i heq; have hx : (_ : State) = _ := congrArg Prod.snd heq; dsimp only at hx; subst hx)
    | (split; rename_i heq; have hx : (_ : State) = _ := congrArg Prod.fst heq; dsimp only at hx; subst hx)
    | (intro (n : Nvp) hn; simp only [Nvp.wf, Bool.and_eq_true] at hn ⊢; first | exact ⟨⟨nvpPuts_wf _ _ hn.1.1, hn.1.2⟩, hn.2⟩ | exact ⟨hn.1, rfl⟩)
    | (intro (n : Nvp) hn; split <;> (with_reducible exact Nvp.wf_of hn rfl rfl rfl))
    | (intro (n : Nvp) hn; with_reducible exact Nvp.wf_of hn rfl rfl rfl)
    | (intro (n : Otp) hn; split <;> (with_reducible exact Otp.wf_of hn rfl rfl rfl rfl))
    | (intro (n : Otp) hn; with_reducible exact Otp.wf_of hn rfl rfl rfl rfl)
    | (intro (n : Upd) hn; split <;> (with_reducible exact Upd.wf_of hn rfl))
    | (intro (n : Upd) hn; with_reducible exact Upd.wf_of hn rfl)
    | (intro (n : EvStore) hn; rw [EvStore.wf_iff] at *; first | exact ⟨cellsWf_put 0 _ _ _ hn.1, hn.2⟩ | exact ⟨hn.1, cellsWf_put _ _ _ _ hn.2⟩ | exact ⟨cellsWf_filter 0 _ _ hn.1, hn.2⟩)
    | (intro (n : EvStore) hn; split <;> (with_reducible exact EvStore.wf_of hn rfl rfl))
    | (intro (n : EvStore) hn; with_reducible exact EvStore.wf_of hn rfl rfl)
    | (intro (n : Bbx) hn; split <;> (with_reducible exact EvStore.wf_of hn rfl rfl))
    | (intro (n : Bbx) hn; with_reducible exact EvStore.wf_eq hn rfl)
    | (intro (n : Bbx) hn; with_reducible exact EvStore.wf_of hn rfl rfl)
    | split)

theorem step_execTrackEdge {high : Nat} {period : Nat} {s : State} : Answers [.chans, .pwm] s (execTrackEdge high period s) := by
  unfold execTrackEdge
  repeat' (first
    | with_reducible apply Step.refl
    | with_reducible assumption
    | exact Eq.refl true
    | with_reducible apply Answers.ok
    | ((conv => arg 3; arg 28); refine Step.put ?_)
    | (extract_lets +onlyGivenNames lv; first | ((first | refine Step.cut lv ?_ ?_ | refine Answers.cut lv ?_ ?_); unfold lv; clear lv; rotate_left; intro hx; clear_value lv; revert lv; intro _ _) | (revert lv; intro _))
    | with_reducible apply Step.after step_fire
    | split)

theorem step_execTrackStatic {level : Bool} {s : State} : Answers [.time, .chans, .pwm] s (execTrackStatic level s) := by
  unfold execTrackStatic
  repeat' (first
    | with_reducible apply Step.refl
    | with_reducible assumption
    | exact Eq.refl true
    | with_reducible apply Answers.ok
    | ((conv => arg 3; arg 28); refine Step.put ?_)
    | (extract_lets +onlyGivenNames lv; first | ((first | refine Step.cut lv ?_ ?_ | refine Answers.cut lv ?_ ?_); unfold lv; clear lv; rotate_left; intro hx; clear_value lv; revert lv; intro _ _) | (revert lv; intro _))
    | with_reducible apply Step.after step_fire
    | with_reducible apply Step.when
    | (with_reducible refine Step.whenAt rfl ?_ (fun u => ?_))
    | (with_reducible apply Step.foldl; intro fs fa)
    | (with_reducible apply Step.foldFin; intro fs fa)
    | (with_reducible apply Step.foldlFst; intro fs fa)
    | exact (fun _ => rfl)
    | (intro n; dsimp only; split <;> rfl)
    | (split; rename_i heq; have hx : (_ : State) = _ := congrArg Prod.snd heq; dsimp only at hx; subst hx)
    | (split; rename_i heq; have hx : (_ : State) = _ := congrArg Prod.fst heq; dsimp only at hx; subst hx)
    | (intro (n : Nvp) hn; simp only [Nvp.wf, Bool.and_eq_true] at hn ⊢; first | exact ⟨⟨nvpPuts_wf _ _ hn.1.1, hn.1.2⟩, hn.2⟩ | exact ⟨hn.1, rfl⟩)
    | (intro (n : Nvp) hn; split <;> (with_reducible exact Nvp.wf_of hn rfl rfl rfl))
    | (intro (n : Nvp) hn; with_reducible exact Nvp.wf_of hn rfl rfl rfl)
    | (intro (n : Otp) hn; split <;> (with_reducible exact Otp.wf_of hn rfl rfl rfl rfl))
    | (intro (n : Otp) hn; with_reducible exact Otp.wf_of hn rfl rfl rfl rfl)
    | (intro (n : Upd) hn; split <;> (with_reducible exact Upd.wf_of hn rfl))
    | (intro (n : Upd) hn; with_reducible exact Upd.wf_of hn rfl)
    | (intro (n : EvStore) hn; rw [EvStore.wf_iff] at *; first | exact ⟨cellsWf_put 0 _ _ _ hn.1, hn.2⟩ | exact ⟨hn.1, cellsWf_put _ _ _ _ hn.2⟩ | exact ⟨cellsWf_filter 0 _ _ hn.1, hn.2⟩)
    | (intro (n : EvStore) hn; split <;> (with_reducible exact EvStore.wf_of hn rfl rfl))
    | (intro (n : EvStore) hn; with_reducible exact EvStore.wf_of hn rfl rfl)
    | (intro (n : Bbx) hn; split <;> (with_reducible exact EvStore.wf_of hn rfl rfl))
    | (intro (n : Bbx) hn; with_reducible exact EvStore.wf_eq hn rfl)
    | (intro (n : Bbx) hn; with_reducible exact EvStore.wf_of hn rfl rfl)
    | split)

theorem step_execRailEnableChange {n : Fin 8} {s : State} : Answers [.regs, .chans, .law, .pwm] s (execRailEnableChange n s) := by
  unfold execRailEnableChange
  repeat' (first
    | with_reducible apply Step.refl
    | with_reducible assumption
    | exact Eq.refl true
    | with_reducible apply Answers.ok
    | (extract_lets +onlyGivenNames lv; first | ((first | refine Step.cut lv ?_ ?_ | refine Answers.cut lv ?_ ?_); unfold lv; clear lv; rotate_left; intro hx; clear_value lv; revert lv; intro _ _) | (revert lv; intro _))
    | with_reducible apply Step.after step_lawSyncAll
    | with_reducible apply Step.after step_railFollow
    | with_reducible apply Step.when
    | (with_reducible apply Step.foldl; intro fs fa)
    | (with_reducible apply Step.foldFin; intro fs fa)
    | (with_reducible apply Step.foldlFst; intro fs fa)
    | (split; rename_i heq; have hx : (_ : State) = _ := congrArg Prod.snd heq; dsimp only at hx; subst hx)
    | (split; rename_i heq; have hx : (_ : State) = _ := congrArg Prod.fst heq; dsimp only at hx; subst hx)
    | split)

theorem step_execRailPauseChange {n : Fin 8} {s : State} : Answers [.regs, .chans, .law, .pwm] s (execRailPauseChange n s) := by
  unfold execRailPauseChange
  repeat' (first
    | with_reducible apply Step.refl
    | with_reducible assumption
    | exact Eq.refl true
    | with_reducible apply Answers.ok
    | (extract_lets +onlyGivenNames lv; first | ((first | refine Step.cut lv ?_ ?_ | refine Answers.cut lv ?_ ?_); unfold lv; clear lv; rotate_left; intro hx; clear_value lv; revert lv; intro _ _) | (revert lv; intro _))
    | with_reducible apply Step.after step_lawSyncAll
    | with_reducible apply Step.after step_railPause
    | with_reducible apply Step.after step_railResume
    | split)

/-! ### Sense -/

theorem step_deliver {s : State} {ch : Fin 130} {c : Cal} {stamp : Nat} : Step [.regs, .sns] s (State.deliver s ch c stamp) := by
  unfold State.deliver
  repeat' (first
    | with_reducible apply Step.refl
    | with_reducible assumption
    | exact Eq.refl true
    | ((conv => arg 3; arg 28); refine Step.put ?_)
    | (extract_lets +onlyGivenNames lv; first | ((first | refine Step.cut lv ?_ ?_ | refine Answers.cut lv ?_ ?_); unfold lv; clear lv; rotate_left; intro hx; clear_value lv; revert lv; intro _ _) | (revert lv; intro _))
    | with_reducible apply Step.after step_stickBit
    | split)

theorem step_convert {s : State} {ch : Fin 130} {c : Conv} : Step [.sns] s (State.convert s ch c) := by
  unfold State.convert
  repeat' (first
    | with_reducible apply Step.refl
    | with_reducible assumption
    | exact Eq.refl true
    | ((conv => arg 3; arg 28); refine Step.put ?_)
    | (extract_lets +onlyGivenNames lv; first | ((first | refine Step.cut lv ?_ ?_ | refine Answers.cut lv ?_ ?_); unfold lv; clear lv; rotate_left; intro hx; clear_value lv; revert lv; intro _ _) | (revert lv; intro _))
    | split)

theorem step_execPhaseSampleAperture {j : Fin 24} {s : State} : Answers [.time, .sns, .pwm] s (execPhaseSampleAperture j s) := by
  unfold execPhaseSampleAperture
  repeat' (first
    | with_reducible apply Step.refl
    | with_reducible assumption
    | exact Eq.refl true
    | with_reducible apply Answers.ok
    | ((conv => arg 3; arg 28); refine Step.put ?_)
    | (extract_lets +onlyGivenNames lv; first | ((first | refine Step.cut lv ?_ ?_ | refine Answers.cut lv ?_ ?_); unfold lv; clear lv; rotate_left; intro hx; clear_value lv; revert lv; intro _ _) | (revert lv; intro _))
    | with_reducible apply Step.after step_convert
    | with_reducible apply Step.after step_modPhase
    | with_reducible apply Step.when
    | (with_reducible refine Step.whenAt rfl ?_ (fun u => ?_))
    | (with_reducible apply Step.foldl; intro fs fa)
    | (with_reducible apply Step.foldFin; intro fs fa)
    | (with_reducible apply Step.foldlFst; intro fs fa)
    | exact (fun _ => rfl)
    | (intro n; dsimp only; split <;> rfl)
    | (split; rename_i heq; have hx : (_ : State) = _ := congrArg Prod.snd heq; dsimp only at hx; subst hx)
    | (split; rename_i heq; have hx : (_ : State) = _ := congrArg Prod.fst heq; dsimp only at hx; subst hx)
    | (intro (n : Nvp) hn; simp only [Nvp.wf, Bool.and_eq_true] at hn ⊢; first | exact ⟨⟨nvpPuts_wf _ _ hn.1.1, hn.1.2⟩, hn.2⟩ | exact ⟨hn.1, rfl⟩)
    | (intro (n : Nvp) hn; split <;> (with_reducible exact Nvp.wf_of hn rfl rfl rfl))
    | (intro (n : Nvp) hn; with_reducible exact Nvp.wf_of hn rfl rfl rfl)
    | (intro (n : Otp) hn; split <;> (with_reducible exact Otp.wf_of hn rfl rfl rfl rfl))
    | (intro (n : Otp) hn; with_reducible exact Otp.wf_of hn rfl rfl rfl rfl)
    | (intro (n : Upd) hn; split <;> (with_reducible exact Upd.wf_of hn rfl))
    | (intro (n : Upd) hn; with_reducible exact Upd.wf_of hn rfl)
    | (intro (n : EvStore) hn; rw [EvStore.wf_iff] at *; first | exact ⟨cellsWf_put 0 _ _ _ hn.1, hn.2⟩ | exact ⟨hn.1, cellsWf_put _ _ _ _ hn.2⟩ | exact ⟨cellsWf_filter 0 _ _ hn.1, hn.2⟩)
    | (intro (n : EvStore) hn; split <;> (with_reducible exact EvStore.wf_of hn rfl rfl))
    | (intro (n : EvStore) hn; with_reducible exact EvStore.wf_of hn rfl rfl)
    | (intro (n : Bbx) hn; split <;> (with_reducible exact EvStore.wf_of hn rfl rfl))
    | (intro (n : Bbx) hn; with_reducible exact EvStore.wf_eq hn rfl)
    | (intro (n : Bbx) hn; with_reducible exact EvStore.wf_of hn rfl rfl)
    | split)

theorem step_execIdleSample {j : Fin 24} {s : State} : Answers [.time, .sns, .pwm] s (execIdleSample j s) := by
  unfold execIdleSample
  repeat' (first
    | with_reducible apply Step.refl
    | with_reducible assumption
    | exact Eq.refl true
    | with_reducible apply Answers.ok
    | (extract_lets +onlyGivenNames lv; first | ((first | refine Step.cut lv ?_ ?_ | refine Answers.cut lv ?_ ?_); unfold lv; clear lv; rotate_left; intro hx; clear_value lv; revert lv; intro _ _) | (revert lv; intro _))
    | with_reducible apply Step.after step_convert
    | with_reducible apply Step.after step_modPhase
    | with_reducible apply Step.when
    | (with_reducible refine Step.whenAt rfl ?_ (fun u => ?_))
    | (with_reducible apply Step.foldl; intro fs fa)
    | (with_reducible apply Step.foldFin; intro fs fa)
    | (with_reducible apply Step.foldlFst; intro fs fa)
    | (split; rename_i heq; have hx : (_ : State) = _ := congrArg Prod.snd heq; dsimp only at hx; subst hx)
    | (split; rename_i heq; have hx : (_ : State) = _ := congrArg Prod.fst heq; dsimp only at hx; subst hx)
    | split)

theorem step_execRailVoltageConversion {n : Fin 8} {s : State} : Answers [.time, .sns] s (execRailVoltageConversion n s) := by
  unfold execRailVoltageConversion
  repeat' (first
    | with_reducible apply Step.refl
    | with_reducible assumption
    | exact Eq.refl true
    | with_reducible apply Answers.ok
    | ((conv => arg 3; arg 28); refine Step.put ?_)
    | (extract_lets +onlyGivenNames lv; first | ((first | refine Step.cut lv ?_ ?_ | refine Answers.cut lv ?_ ?_); unfold lv; clear lv; rotate_left; intro hx; clear_value lv; revert lv; intro _ _) | (revert lv; intro _))
    | with_reducible apply Step.after step_convert
    | with_reducible apply Step.when
    | (with_reducible refine Step.whenAt rfl ?_ (fun u => ?_))
    | (with_reducible apply Step.foldl; intro fs fa)
    | (with_reducible apply Step.foldFin; intro fs fa)
    | (with_reducible apply Step.foldlFst; intro fs fa)
    | exact (fun _ => rfl)
    | (intro n; dsimp only; split <;> rfl)
    | (split; rename_i heq; have hx : (_ : State) = _ := congrArg Prod.snd heq; dsimp only at hx; subst hx)
    | (split; rename_i heq; have hx : (_ : State) = _ := congrArg Prod.fst heq; dsimp only at hx; subst hx)
    | (intro (n : Nvp) hn; simp only [Nvp.wf, Bool.and_eq_true] at hn ⊢; first | exact ⟨⟨nvpPuts_wf _ _ hn.1.1, hn.1.2⟩, hn.2⟩ | exact ⟨hn.1, rfl⟩)
    | (intro (n : Nvp) hn; split <;> (with_reducible exact Nvp.wf_of hn rfl rfl rfl))
    | (intro (n : Nvp) hn; with_reducible exact Nvp.wf_of hn rfl rfl rfl)
    | (intro (n : Otp) hn; split <;> (with_reducible exact Otp.wf_of hn rfl rfl rfl rfl))
    | (intro (n : Otp) hn; with_reducible exact Otp.wf_of hn rfl rfl rfl rfl)
    | (intro (n : Upd) hn; split <;> (with_reducible exact Upd.wf_of hn rfl))
    | (intro (n : Upd) hn; with_reducible exact Upd.wf_of hn rfl)
    | (intro (n : EvStore) hn; rw [EvStore.wf_iff] at *; first | exact ⟨cellsWf_put 0 _ _ _ hn.1, hn.2⟩ | exact ⟨hn.1, cellsWf_put _ _ _ _ hn.2⟩ | exact ⟨cellsWf_filter 0 _ _ hn.1, hn.2⟩)
    | (intro (n : EvStore) hn; split <;> (with_reducible exact EvStore.wf_of hn rfl rfl))
    | (intro (n : EvStore) hn; with_reducible exact EvStore.wf_of hn rfl rfl)
    | (intro (n : Bbx) hn; split <;> (with_reducible exact EvStore.wf_of hn rfl rfl))
    | (intro (n : Bbx) hn; with_reducible exact EvStore.wf_eq hn rfl)
    | (intro (n : Bbx) hn; with_reducible exact EvStore.wf_of hn rfl rfl)
    | split)

theorem step_execBusConversion {s : State} : Answers [.time, .sns] s (execBusConversion s) := by
  unfold execBusConversion
  repeat' (first
    | with_reducible apply Step.refl
    | with_reducible assumption
    | exact Eq.refl true
    | with_reducible apply Answers.ok
    | ((conv => arg 3; arg 28); refine Step.put ?_)
    | (extract_lets +onlyGivenNames lv; first | ((first | refine Step.cut lv ?_ ?_ | refine Answers.cut lv ?_ ?_); unfold lv; clear lv; rotate_left; intro hx; clear_value lv; revert lv; intro _ _) | (revert lv; intro _))
    | with_reducible apply Step.after step_convert
    | with_reducible apply Step.when
    | (with_reducible refine Step.whenAt rfl ?_ (fun u => ?_))
    | (with_reducible apply Step.foldl; intro fs fa)
    | (with_reducible apply Step.foldFin; intro fs fa)
    | (with_reducible apply Step.foldlFst; intro fs fa)
    | exact (fun _ => rfl)
    | (intro n; dsimp only; split <;> rfl)
    | (split; rename_i heq; have hx : (_ : State) = _ := congrArg Prod.snd heq; dsimp only at hx; subst hx)
    | (split; rename_i heq; have hx : (_ : State) = _ := congrArg Prod.fst heq; dsimp only at hx; subst hx)
    | (intro (n : Nvp) hn; simp only [Nvp.wf, Bool.and_eq_true] at hn ⊢; first | exact ⟨⟨nvpPuts_wf _ _ hn.1.1, hn.1.2⟩, hn.2⟩ | exact ⟨hn.1, rfl⟩)
    | (intro (n : Nvp) hn; split <;> (with_reducible exact Nvp.wf_of hn rfl rfl rfl))
    | (intro (n : Nvp) hn; with_reducible exact Nvp.wf_of hn rfl rfl rfl)
    | (intro (n : Otp) hn; split <;> (with_reducible exact Otp.wf_of hn rfl rfl rfl rfl))
    | (intro (n : Otp) hn; with_reducible exact Otp.wf_of hn rfl rfl rfl rfl)
    | (intro (n : Upd) hn; split <;> (with_reducible exact Upd.wf_of hn rfl))
    | (intro (n : Upd) hn; with_reducible exact Upd.wf_of hn rfl)
    | (intro (n : EvStore) hn; rw [EvStore.wf_iff] at *; first | exact ⟨cellsWf_put 0 _ _ _ hn.1, hn.2⟩ | exact ⟨hn.1, cellsWf_put _ _ _ _ hn.2⟩ | exact ⟨cellsWf_filter 0 _ _ hn.1, hn.2⟩)
    | (intro (n : EvStore) hn; split <;> (with_reducible exact EvStore.wf_of hn rfl rfl))
    | (intro (n : EvStore) hn; with_reducible exact EvStore.wf_of hn rfl rfl)
    | (intro (n : Bbx) hn; split <;> (with_reducible exact EvStore.wf_of hn rfl rfl))
    | (intro (n : Bbx) hn; with_reducible exact EvStore.wf_eq hn rfl)
    | (intro (n : Bbx) hn; with_reducible exact EvStore.wf_of hn rfl rfl)
    | split)

theorem step_execScanSample {code : BitVec 12} {s : State} : Answers [.time, .regs, .sns, .seq] s (execScanSample code s) := by
  unfold execScanSample
  repeat' (first
    | with_reducible apply Step.refl
    | with_reducible assumption
    | exact Eq.refl true
    | with_reducible apply Answers.ok
    | ((conv => arg 3; arg 28); refine Step.put ?_)
    | (extract_lets +onlyGivenNames lv; first | ((first | refine Step.cut lv ?_ ?_ | refine Answers.cut lv ?_ ?_); unfold lv; clear lv; rotate_left; intro hx; clear_value lv; revert lv; intro _ _) | (revert lv; intro _))
    | with_reducible apply Step.after step_deliver
    | with_reducible apply Step.after step_evalNode
    | with_reducible apply Step.when
    | (with_reducible refine Step.whenAt rfl ?_ (fun u => ?_))
    | (with_reducible apply Step.foldl; intro fs fa)
    | (with_reducible apply Step.foldFin; intro fs fa)
    | (with_reducible apply Step.foldlFst; intro fs fa)
    | (split; rename_i heq; have hx : (_ : State) = _ := congrArg Prod.snd heq; dsimp only at hx; subst hx)
    | (split; rename_i heq; have hx : (_ : State) = _ := congrArg Prod.fst heq; dsimp only at hx; subst hx)
    | split)

theorem step_execNtcIdSample {ntc : Vector (BitVec 12) 8} {ident : Vector (BitVec 12) 8} {s : State} : Answers [.time, .sns] s (execNtcIdSample ntc ident s) := by
  unfold execNtcIdSample
  repeat' (first
    | with_reducible apply Step.refl
    | with_reducible assumption
    | exact Eq.refl true
    | with_reducible apply Answers.ok
    | ((conv => arg 3; arg 28); refine Step.put ?_)
    | (extract_lets +onlyGivenNames lv; first | ((first | refine Step.cut lv ?_ ?_ | refine Answers.cut lv ?_ ?_); unfold lv; clear lv; rotate_left; intro hx; clear_value lv; revert lv; intro _ _) | (revert lv; intro _))
    | with_reducible apply Step.when
    | (with_reducible refine Step.whenDue rfl ?_ (fun u => ?_))
    | (with_reducible apply Step.foldl; intro fs fa)
    | (with_reducible apply Step.foldFin; intro fs fa)
    | (with_reducible apply Step.foldlFst; intro fs fa)
    | (split; rename_i heq; have hx : (_ : State) = _ := congrArg Prod.snd heq; dsimp only at hx; subst hx)
    | (split; rename_i heq; have hx : (_ : State) = _ := congrArg Prod.fst heq; dsimp only at hx; subst hx)
    | split)

theorem step_execSnsConversionComplete {ch : Fin 34} {code : BitVec 16} {s : State} : Answers [.time, .regs, .sns, .law, .pwm] s (execSnsConversionComplete ch code s) := by
  unfold execSnsConversionComplete
  repeat' (first
    | with_reducible apply Step.refl
    | with_reducible assumption
    | exact Eq.refl true
    | with_reducible apply Answers.ok
    | ((conv => arg 3; arg 28); refine Step.put ?_)
    | (extract_lets +onlyGivenNames lv; first | ((first | refine Step.cut lv ?_ ?_ | refine Answers.cut lv ?_ ?_); unfold lv; clear lv; rotate_left; intro hx; clear_value lv; revert lv; intro _ _) | (revert lv; intro _))
    | with_reducible apply Step.after step_deliver
    | with_reducible apply Step.after step_modPhase
    | with_reducible apply Step.after step_lawFresh
    | with_reducible apply Step.when
    | (with_reducible refine Step.whenAt rfl ?_ (fun u => ?_))
    | (with_reducible apply Step.foldl; intro fs fa)
    | (with_reducible apply Step.foldFin; intro fs fa)
    | (with_reducible apply Step.foldlFst; intro fs fa)
    | exact (fun _ => rfl)
    | (intro n; dsimp only; split <;> rfl)
    | (split; rename_i heq; have hx : (_ : State) = _ := congrArg Prod.snd heq; dsimp only at hx; subst hx)
    | (split; rename_i heq; have hx : (_ : State) = _ := congrArg Prod.fst heq; dsimp only at hx; subst hx)
    | (intro (n : Nvp) hn; simp only [Nvp.wf, Bool.and_eq_true] at hn ⊢; first | exact ⟨⟨nvpPuts_wf _ _ hn.1.1, hn.1.2⟩, hn.2⟩ | exact ⟨hn.1, rfl⟩)
    | (intro (n : Nvp) hn; split <;> (with_reducible exact Nvp.wf_of hn rfl rfl rfl))
    | (intro (n : Nvp) hn; with_reducible exact Nvp.wf_of hn rfl rfl rfl)
    | (intro (n : Otp) hn; split <;> (with_reducible exact Otp.wf_of hn rfl rfl rfl rfl))
    | (intro (n : Otp) hn; with_reducible exact Otp.wf_of hn rfl rfl rfl rfl)
    | (intro (n : Upd) hn; split <;> (with_reducible exact Upd.wf_of hn rfl))
    | (intro (n : Upd) hn; with_reducible exact Upd.wf_of hn rfl)
    | (intro (n : EvStore) hn; rw [EvStore.wf_iff] at *; first | exact ⟨cellsWf_put 0 _ _ _ hn.1, hn.2⟩ | exact ⟨hn.1, cellsWf_put _ _ _ _ hn.2⟩ | exact ⟨cellsWf_filter 0 _ _ hn.1, hn.2⟩)
    | (intro (n : EvStore) hn; split <;> (with_reducible exact EvStore.wf_of hn rfl rfl))
    | (intro (n : EvStore) hn; with_reducible exact EvStore.wf_of hn rfl rfl)
    | (intro (n : Bbx) hn; split <;> (with_reducible exact EvStore.wf_of hn rfl rfl))
    | (intro (n : Bbx) hn; with_reducible exact EvStore.wf_eq hn rfl)
    | (intro (n : Bbx) hn; with_reducible exact EvStore.wf_of hn rfl rfl)
    | split)

/-! ### Pwm -/

theorem step_pulseDrop {s : State} {j : Fin 24} : Step [.regs, .chans] s (State.pulseDrop s j) := by
  unfold State.pulseDrop
  repeat' (first
    | with_reducible apply Step.refl
    | with_reducible assumption
    | exact Eq.refl true
    | (extract_lets +onlyGivenNames lv; first | ((first | refine Step.cut lv ?_ ?_ | refine Answers.cut lv ?_ ?_); unfold lv; clear lv; rotate_left; intro hx; clear_value lv; revert lv; intro _ _) | (revert lv; intro _))
    | with_reducible apply Step.after step_stick
    | with_reducible apply Step.after step_fire
    | split)

theorem step_stageRise {s : State} {j : Fin 24} : Step [.stage] s (State.stageRise s j) := by
  unfold State.stageRise
  repeat' (first
    | with_reducible apply Step.refl
    | with_reducible assumption
    | exact Eq.refl true
    | ((conv => arg 3; arg 28); refine Step.put ?_)
    | (extract_lets +onlyGivenNames lv; first | ((first | refine Step.cut lv ?_ ?_ | refine Answers.cut lv ?_ ?_); unfold lv; clear lv; rotate_left; intro hx; clear_value lv; revert lv; intro _ _) | (revert lv; intro _))
    | split)

theorem step_edgesTo {s : State} {j : Fin 24} {t : Nat} : Step [.regs, .chans, .pwm, .stage] s (State.edgesTo s j t) := by
  unfold State.edgesTo
  repeat' (first
    | with_reducible apply Step.refl
    | with_reducible assumption
    | exact Eq.refl true
    | (extract_lets +onlyGivenNames lv; first | ((first | refine Step.cut lv ?_ ?_ | refine Answers.cut lv ?_ ?_); unfold lv; clear lv; rotate_left; intro hx; clear_value lv; revert lv; intro _ _) | (revert lv; intro _))
    | with_reducible apply Step.after step_modPhase
    | with_reducible apply Step.after step_pulseDrop
    | with_reducible apply Step.after step_stageRise
    | split)

theorem step_endPeriod {s : State} {j : Fin 24} : Step [.pwm] s (State.endPeriod s j) := by
  unfold State.endPeriod
  repeat' (first
    | with_reducible apply Step.refl
    | with_reducible assumption
    | exact Eq.refl true
    | (extract_lets +onlyGivenNames lv; first | ((first | refine Step.cut lv ?_ ?_ | refine Answers.cut lv ?_ ?_); unfold lv; clear lv; rotate_left; intro hx; clear_value lv; revert lv; intro _ _) | (revert lv; intro _))
    | with_reducible apply Step.after step_modPhase
    | split)

theorem step_balance {s : State} {n : Fin 8} : Step [.pwm] s (State.balance s n) := by
  unfold State.balance
  repeat' (first
    | with_reducible apply Step.refl
    | with_reducible assumption
    | exact Eq.refl true
    | (extract_lets +onlyGivenNames lv; first | ((first | refine Step.cut lv ?_ ?_ | refine Answers.cut lv ?_ ?_); unfold lv; clear lv; rotate_left; intro hx; clear_value lv; revert lv; intro _ _) | (revert lv; intro _))
    | with_reducible apply Step.after step_modPhase
    | with_reducible apply Step.when
    | (with_reducible apply Step.foldl; intro fs fa)
    | (with_reducible apply Step.foldFin; intro fs fa)
    | (with_reducible apply Step.foldlFst; intro fs fa)
    | (split; rename_i heq; have hx : (_ : State) = _ := congrArg Prod.snd heq; dsimp only at hx; subst hx)
    | (split; rename_i heq; have hx : (_ : State) = _ := congrArg Prod.fst heq; dsimp only at hx; subst hx)
    | split)

theorem step_railFilter {s : State} {n : Fin 8} : Step [.pwm] s (State.railFilter s n) := by
  unfold State.railFilter
  repeat' (first
    | with_reducible apply Step.refl
    | with_reducible assumption
    | exact Eq.refl true
    | (extract_lets +onlyGivenNames lv; first | ((first | refine Step.cut lv ?_ ?_ | refine Answers.cut lv ?_ ?_); unfold lv; clear lv; rotate_left; intro hx; clear_value lv; revert lv; intro _ _) | (revert lv; intro _))
    | with_reducible apply Step.after step_modRail
    | split)

theorem step_periodStart {s : State} {n : Fin 8} {j : Fin 24} {t0 : Nat} {corr : Int} : Step [.regs, .chans, .pwm, .stage] s (State.periodStart s n j t0 corr) := by
  unfold State.periodStart
  repeat' (first
    | with_reducible apply Step.refl
    | with_reducible assumption
    | exact Eq.refl true
    | (extract_lets +onlyGivenNames lv; first | ((first | refine Step.cut lv ?_ ?_ | refine Answers.cut lv ?_ ?_); unfold lv; clear lv; rotate_left; intro hx; clear_value lv; revert lv; intro _ _) | (revert lv; intro _))
    | with_reducible apply Step.after step_modPhase
    | with_reducible apply Step.after step_modRail
    | with_reducible apply Step.after step_edgesTo
    | split)

theorem step_railConvAlign {s : State} {n : Fin 8} {j : Fin 24} {t0 : Nat} : Step [.sns] s (State.railConvAlign s n j t0) := by
  unfold State.railConvAlign
  repeat' (first
    | with_reducible apply Step.refl
    | with_reducible assumption
    | exact Eq.refl true
    | ((conv => arg 3; arg 28); refine Step.put ?_)
    | (extract_lets +onlyGivenNames lv; first | ((first | refine Step.cut lv ?_ ?_ | refine Answers.cut lv ?_ ?_); unfold lv; clear lv; rotate_left; intro hx; clear_value lv; revert lv; intro _ _) | (revert lv; intro _))
    | with_reducible apply Step.when
    | (with_reducible apply Step.foldl; intro fs fa)
    | (with_reducible apply Step.foldFin; intro fs fa)
    | (with_reducible apply Step.foldlFst; intro fs fa)
    | exact (fun _ => rfl)
    | (intro n; dsimp only; split <;> rfl)
    | (split; rename_i heq; have hx : (_ : State) = _ := congrArg Prod.snd heq; dsimp only at hx; subst hx)
    | (split; rename_i heq; have hx : (_ : State) = _ := congrArg Prod.fst heq; dsimp only at hx; subst hx)
    | (intro (n : Nvp) hn; simp only [Nvp.wf, Bool.and_eq_true] at hn ⊢; first | exact ⟨⟨nvpPuts_wf _ _ hn.1.1, hn.1.2⟩, hn.2⟩ | exact ⟨hn.1, rfl⟩)
    | (intro (n : Nvp) hn; split <;> (with_reducible exact Nvp.wf_of hn rfl rfl rfl))
    | (intro (n : Nvp) hn; with_reducible exact Nvp.wf_of hn rfl rfl rfl)
    | (intro (n : Otp) hn; split <;> (with_reducible exact Otp.wf_of hn rfl rfl rfl rfl))
    | (intro (n : Otp) hn; with_reducible exact Otp.wf_of hn rfl rfl rfl rfl)
    | (intro (n : Upd) hn; split <;> (with_reducible exact Upd.wf_of hn rfl))
    | (intro (n : Upd) hn; with_reducible exact Upd.wf_of hn rfl)
    | (intro (n : EvStore) hn; rw [EvStore.wf_iff] at *; first | exact ⟨cellsWf_put 0 _ _ _ hn.1, hn.2⟩ | exact ⟨hn.1, cellsWf_put _ _ _ _ hn.2⟩ | exact ⟨cellsWf_filter 0 _ _ hn.1, hn.2⟩)
    | (intro (n : EvStore) hn; split <;> (with_reducible exact EvStore.wf_of hn rfl rfl))
    | (intro (n : EvStore) hn; with_reducible exact EvStore.wf_of hn rfl rfl)
    | (intro (n : Bbx) hn; split <;> (with_reducible exact EvStore.wf_of hn rfl rfl))
    | (intro (n : Bbx) hn; with_reducible exact EvStore.wf_eq hn rfl)
    | (intro (n : Bbx) hn; with_reducible exact EvStore.wf_of hn rfl rfl)
    | split)

theorem step_execPwmPeriodStart {j : Fin 24} {s : State} : Answers [.time, .regs, .chans, .sns, .pwm, .stage] s (execPwmPeriodStart j s) := by
  unfold execPwmPeriodStart
  repeat' (first
    | with_reducible apply Step.refl
    | with_reducible assumption
    | exact Eq.refl true
    | with_reducible apply Answers.ok
    | ((conv => arg 3; arg 28); refine Step.put ?_)
    | (extract_lets +onlyGivenNames lv; first | ((first | refine Step.cut lv ?_ ?_ | refine Answers.cut lv ?_ ?_); unfold lv; clear lv; rotate_left; intro hx; clear_value lv; revert lv; intro _ _) | (revert lv; intro _))
    | with_reducible apply Step.after step_edgesTo
    | with_reducible apply Step.after step_railAdopt
    | with_reducible apply Step.after step_capEval
    | with_reducible apply Step.after step_shedEval
    | with_reducible apply Step.after step_railFilter
    | with_reducible apply Step.after step_balance
    | with_reducible apply Step.after step_syncStep
    | with_reducible apply Step.after step_railConvAlign
    | with_reducible apply Step.after step_periodStart
    | with_reducible apply Step.when
    | (with_reducible refine Step.whenAt rfl ?_ (fun u => ?_))
    | (with_reducible apply Step.foldl; intro fs fa)
    | (with_reducible apply Step.foldFin; intro fs fa)
    | (with_reducible apply Step.foldlFst; intro fs fa)
    | exact (fun _ => rfl)
    | (intro n; dsimp only; split <;> rfl)
    | (split; rename_i heq; have hx : (_ : State) = _ := congrArg Prod.snd heq; dsimp only at hx; subst hx)
    | (split; rename_i heq; have hx : (_ : State) = _ := congrArg Prod.fst heq; dsimp only at hx; subst hx)
    | (intro (n : Nvp) hn; simp only [Nvp.wf, Bool.and_eq_true] at hn ⊢; first | exact ⟨⟨nvpPuts_wf _ _ hn.1.1, hn.1.2⟩, hn.2⟩ | exact ⟨hn.1, rfl⟩)
    | (intro (n : Nvp) hn; split <;> (with_reducible exact Nvp.wf_of hn rfl rfl rfl))
    | (intro (n : Nvp) hn; with_reducible exact Nvp.wf_of hn rfl rfl rfl)
    | (intro (n : Otp) hn; split <;> (with_reducible exact Otp.wf_of hn rfl rfl rfl rfl))
    | (intro (n : Otp) hn; with_reducible exact Otp.wf_of hn rfl rfl rfl rfl)
    | (intro (n : Upd) hn; split <;> (with_reducible exact Upd.wf_of hn rfl))
    | (intro (n : Upd) hn; with_reducible exact Upd.wf_of hn rfl)
    | (intro (n : EvStore) hn; rw [EvStore.wf_iff] at *; first | exact ⟨cellsWf_put 0 _ _ _ hn.1, hn.2⟩ | exact ⟨hn.1, cellsWf_put _ _ _ _ hn.2⟩ | exact ⟨cellsWf_filter 0 _ _ hn.1, hn.2⟩)
    | (intro (n : EvStore) hn; split <;> (with_reducible exact EvStore.wf_of hn rfl rfl))
    | (intro (n : EvStore) hn; with_reducible exact EvStore.wf_of hn rfl rfl)
    | (intro (n : Bbx) hn; split <;> (with_reducible exact EvStore.wf_of hn rfl rfl))
    | (intro (n : Bbx) hn; with_reducible exact EvStore.wf_eq hn rfl)
    | (intro (n : Bbx) hn; with_reducible exact EvStore.wf_of hn rfl rfl)
    | split)

theorem step_execPwmEdge {j : Fin 24} {s : State} : Answers [.time, .regs, .chans, .pwm, .stage] s (execPwmEdge j s) := by
  unfold execPwmEdge
  repeat' (first
    | with_reducible apply Step.refl
    | with_reducible assumption
    | exact Eq.refl true
    | with_reducible apply Answers.ok
    | ((conv => arg 3; arg 28); refine Step.put ?_)
    | (extract_lets +onlyGivenNames lv; first | ((first | refine Step.cut lv ?_ ?_ | refine Answers.cut lv ?_ ?_); unfold lv; clear lv; rotate_left; intro hx; clear_value lv; revert lv; intro _ _) | (revert lv; intro _))
    | with_reducible apply Step.after step_endPeriod
    | with_reducible apply Step.after step_edgesTo
    | with_reducible apply Step.when
    | (with_reducible refine Step.whenDue rfl ?_ (fun u => ?_))
    | (with_reducible apply Step.foldl; intro fs fa)
    | (with_reducible apply Step.foldFin; intro fs fa)
    | (with_reducible apply Step.foldlFst; intro fs fa)
    | exact (fun _ => rfl)
    | (intro n; dsimp only; split <;> rfl)
    | (split; rename_i heq; have hx : (_ : State) = _ := congrArg Prod.snd heq; dsimp only at hx; subst hx)
    | (split; rename_i heq; have hx : (_ : State) = _ := congrArg Prod.fst heq; dsimp only at hx; subst hx)
    | (intro (n : Nvp) hn; simp only [Nvp.wf, Bool.and_eq_true] at hn ⊢; first | exact ⟨⟨nvpPuts_wf _ _ hn.1.1, hn.1.2⟩, hn.2⟩ | exact ⟨hn.1, rfl⟩)
    | (intro (n : Nvp) hn; split <;> (with_reducible exact Nvp.wf_of hn rfl rfl rfl))
    | (intro (n : Nvp) hn; with_reducible exact Nvp.wf_of hn rfl rfl rfl)
    | (intro (n : Otp) hn; split <;> (with_reducible exact Otp.wf_of hn rfl rfl rfl rfl))
    | (intro (n : Otp) hn; with_reducible exact Otp.wf_of hn rfl rfl rfl rfl)
    | (intro (n : Upd) hn; split <;> (with_reducible exact Upd.wf_of hn rfl))
    | (intro (n : Upd) hn; with_reducible exact Upd.wf_of hn rfl)
    | (intro (n : EvStore) hn; rw [EvStore.wf_iff] at *; first | exact ⟨cellsWf_put 0 _ _ _ hn.1, hn.2⟩ | exact ⟨hn.1, cellsWf_put _ _ _ _ hn.2⟩ | exact ⟨cellsWf_filter 0 _ _ hn.1, hn.2⟩)
    | (intro (n : EvStore) hn; split <;> (with_reducible exact EvStore.wf_of hn rfl rfl))
    | (intro (n : EvStore) hn; with_reducible exact EvStore.wf_of hn rfl rfl)
    | (intro (n : Bbx) hn; split <;> (with_reducible exact EvStore.wf_of hn rfl rfl))
    | (intro (n : Bbx) hn; with_reducible exact EvStore.wf_eq hn rfl)
    | (intro (n : Bbx) hn; with_reducible exact EvStore.wf_of hn rfl rfl)
    | split)

theorem step_cbcCount {s : State} {j : Fin 24} : Step [.regs, .chans, .pwm] s (State.cbcCount s j) := by
  unfold State.cbcCount
  repeat' (first
    | with_reducible apply Step.refl
    | with_reducible assumption
    | exact Eq.refl true
    | (extract_lets +onlyGivenNames lv; first | ((first | refine Step.cut lv ?_ ?_ | refine Answers.cut lv ?_ ?_); unfold lv; clear lv; rotate_left; intro hx; clear_value lv; revert lv; intro _ _) | (revert lv; intro _))
    | with_reducible apply Step.after step_stick
    | with_reducible apply Step.after step_counted
    | with_reducible apply Step.after step_modPhase
    | with_reducible apply Step.after step_fire
    | with_reducible apply Step.after step_fireRaw
    | split)

theorem step_execCbcCrossing {j : Fin 24} {positive : Bool} {s0 : State} : Answers [.regs, .chans, .pwm, .stage] s0 (execCbcCrossing j positive s0) := by
  unfold execCbcCrossing
  repeat' (first
    | with_reducible apply Step.refl
    | with_reducible assumption
    | exact Eq.refl true
    | with_reducible apply Answers.ok
    | (extract_lets +onlyGivenNames lv; first | ((first | refine Step.cut lv ?_ ?_ | refine Answers.cut lv ?_ ?_); unfold lv; clear lv; rotate_left; intro hx; clear_value lv; revert lv; intro _ _) | (revert lv; intro _))
    | with_reducible apply Step.after step_edgesTo
    | with_reducible apply Step.after step_cbcCount
    | with_reducible apply Step.after step_modPhase
    | split)

/-! ### Actions -/

theorem step_hbxDerate {s : State} {e : Nat} : Step [.regs, .chans, .hbx] s (State.hbxDerate s e) := by
  unfold State.hbxDerate
  split
  · refine Step.after step_fire rfl (Step.after step_stick rfl (Step.put Step.refl (w_hbx := fun h => ?_)))
    split <;> with_reducible exact Hbx.wf_of h rfl rfl
  · exact Step.refl

theorem step_dklShed {s : State} {rail : Option (Fin 8)} {num : Nat} : Step [.chans, .dkl] s (State.dklShed s rail num) := by
  unfold State.dklShed
  repeat' (first
    | with_reducible apply Step.refl
    | with_reducible assumption
    | exact Eq.refl true
    | ((conv => arg 3; arg 28); refine Step.put ?_)
    | (extract_lets +onlyGivenNames lv; first | ((first | refine Step.cut lv ?_ ?_ | refine Answers.cut lv ?_ ?_); unfold lv; clear lv; rotate_left; intro hx; clear_value lv; revert lv; intro _ _) | (revert lv; intro _))
    | with_reducible apply Step.after step_fire
    | split)

theorem step_demoteAction {s : State} : Step [.aon] s (State.demoteAction s) := by
  unfold State.demoteAction
  repeat' (first
    | with_reducible apply Step.refl
    | with_reducible assumption
    | exact Eq.refl true
    | ((conv => arg 3; arg 28); refine Step.put ?_)
    | (extract_lets +onlyGivenNames lv; first | ((first | refine Step.cut lv ?_ ?_ | refine Answers.cut lv ?_ ?_); unfold lv; clear lv; rotate_left; intro hx; clear_value lv; revert lv; intro _ _) | (revert lv; intro _))
    | split)

theorem step_action {s : State} {act : Nat} {rail : Option (Fin 8)} {e : Nat} {num : Nat} : Step [.regs, .chans, .aon, .pwm, .hbx, .dkl, .seq] s (State.action s act rail e num) := by
  unfold State.action
  repeat' (first
    | with_reducible apply Step.refl
    | with_reducible assumption
    | exact Eq.refl true
    | (extract_lets +onlyGivenNames lv; first | ((first | refine Step.cut lv ?_ ?_ | refine Answers.cut lv ?_ ?_); unfold lv; clear lv; rotate_left; intro hx; clear_value lv; revert lv; intro _ _) | (revert lv; intro _))
    | with_reducible apply Step.after step_railDerate
    | with_reducible apply Step.after step_hbxDerate
    | with_reducible apply Step.after step_dklShed
    | with_reducible apply Step.after step_railTrip
    | with_reducible apply Step.after step_shelfTrip
    | with_reducible apply Step.after step_demoteAction
    | split)

/-! ### Law -/

theorem step_lawEvent {s : State} {e : Fin 20} : Step [.chans] s (State.lawEvent s e) := by
  unfold State.lawEvent
  repeat' (first
    | with_reducible apply Step.refl
    | with_reducible assumption
    | exact Eq.refl true
    | (extract_lets +onlyGivenNames lv; first | ((first | refine Step.cut lv ?_ ?_ | refine Answers.cut lv ?_ ?_); unfold lv; clear lv; rotate_left; intro hx; clear_value lv; revert lv; intro _ _) | (revert lv; intro _))
    | with_reducible apply Step.after step_fireRaw
    | split)

theorem step_lawFlag {s : State} {e : Fin 20} {c : Bool} {f : Fld} : Step [.regs, .chans] s (State.lawFlag s e c f) := by
  unfold State.lawFlag
  repeat' (first
    | with_reducible apply Step.refl
    | with_reducible assumption
    | exact Eq.refl true
    | (extract_lets +onlyGivenNames lv; first | ((first | refine Step.cut lv ?_ ?_ | refine Answers.cut lv ?_ ?_); unfold lv; clear lv; rotate_left; intro hx; clear_value lv; revert lv; intro _ _) | (revert lv; intro _))
    | with_reducible apply Step.after step_lawEvent
    | with_reducible apply Step.after step_stick
    | split)

theorem step_feFire {s : State} {e : Fin 20} : Step [.regs, .chans, .aon, .law, .pwm, .hbx, .dkl, .seq] s (State.feFire s e) := by
  unfold State.feFire
  repeat' (first
    | with_reducible apply Step.refl
    | with_reducible assumption
    | exact Eq.refl true
    | (extract_lets +onlyGivenNames lv; first | ((first | refine Step.cut lv ?_ ?_ | refine Answers.cut lv ?_ ?_); unfold lv; clear lv; rotate_left; intro hx; clear_value lv; revert lv; intro _ _) | (revert lv; intro _))
    | with_reducible apply Step.after step_modEng
    | with_reducible apply Step.after step_stick
    | with_reducible apply Step.after step_satEv
    | with_reducible apply Step.after step_fireRaw
    | with_reducible apply Step.after step_lawSyncAll
    | with_reducible apply Step.after step_action
    | split)

theorem step_feStep {s : State} {e : Fin 20} {eIn : Int} : Step [.regs, .chans, .aon, .law, .pwm, .hbx, .dkl, .seq] s (State.feStep s e eIn) := by
  unfold State.feStep
  repeat' (first
    | with_reducible apply Step.refl
    | with_reducible assumption
    | exact Eq.refl true
    | (extract_lets +onlyGivenNames lv; first | ((first | refine Step.cut lv ?_ ?_ | refine Answers.cut lv ?_ ?_); unfold lv; clear lv; rotate_left; intro hx; clear_value lv; revert lv; intro _ _) | (revert lv; intro _))
    | with_reducible apply Step.after step_modEng
    | with_reducible apply Step.after step_feFire
    | split)

theorem step_trackCheck {s : State} {e : Fin 20} {b : SnapEngine} : Step [.regs, .chans, .law] s (State.trackCheck s e b) := by
  unfold State.trackCheck
  repeat' (first
    | with_reducible apply Step.refl
    | with_reducible assumption
    | exact Eq.refl true
    | (extract_lets +onlyGivenNames lv; first | ((first | refine Step.cut lv ?_ ?_ | refine Answers.cut lv ?_ ?_); unfold lv; clear lv; rotate_left; intro hx; clear_value lv; revert lv; intro _ _) | (revert lv; intro _))
    | with_reducible apply Step.after step_satEv
    | with_reducible apply Step.after step_modEng
    | with_reducible apply Step.after step_lawFlag
    | split)

theorem step_snapApply {s : State} {e : Fin 20} : Step [.regs, .chans, .law] s (State.snapApply s e) := by
  unfold State.snapApply
  repeat' (first
    | with_reducible apply Step.refl
    | with_reducible assumption
    | exact Eq.refl true
    | (extract_lets +onlyGivenNames lv; first | ((first | refine Step.cut lv ?_ ?_ | refine Answers.cut lv ?_ ?_); unfold lv; clear lv; rotate_left; intro hx; clear_value lv; revert lv; intro _ _) | (revert lv; intro _))
    | with_reducible apply Step.after step_modEng
    | with_reducible apply Step.after step_trackCheck
    | split)

theorem step_lawSample {s0 : State} {e : Fin 20} : Step [.regs, .chans, .aon, .law, .pwm, .hbx, .dkl, .seq] s0 (State.lawSample s0 e) := by
  unfold State.lawSample
  repeat' (first
    | with_reducible apply Step.refl
    | with_reducible assumption
    | exact Eq.refl true
    | (extract_lets +onlyGivenNames lv; first | ((first | refine Step.cut lv ?_ ?_ | refine Answers.cut lv ?_ ?_); unfold lv; clear lv; rotate_left; intro hx; clear_value lv; revert lv; intro _ _) | (revert lv; intro _))
    | with_reducible apply Step.after step_snapApply
    | with_reducible apply Step.after step_modEng
    | with_reducible apply Step.after step_satIf
    | with_reducible apply Step.after step_stickIf
    | with_reducible apply Step.after step_lawFlag
    | with_reducible apply Step.after step_feStep
    | split)

theorem step_lawSkip {s : State} {e : Fin 20} : Step [.regs, .chans, .law] s (State.lawSkip s e) := by
  unfold State.lawSkip
  repeat' (first
    | with_reducible apply Step.refl
    | with_reducible assumption
    | exact Eq.refl true
    | (extract_lets +onlyGivenNames lv; first | ((first | refine Step.cut lv ?_ ?_ | refine Answers.cut lv ?_ ?_); unfold lv; clear lv; rotate_left; intro hx; clear_value lv; revert lv; intro _ _) | (revert lv; intro _))
    | with_reducible apply Step.after step_satEv
    | with_reducible apply Step.after step_modEng
    | with_reducible apply Step.after step_lawFlag
    | split)

theorem step_lawTrigger {s : State} {e : Fin 20} : Step [.regs, .chans, .aon, .law, .pwm, .hbx, .dkl, .seq] s (State.lawTrigger s e) := by
  unfold State.lawTrigger
  repeat' (first
    | with_reducible apply Step.refl
    | with_reducible assumption
    | exact Eq.refl true
    | ((conv => arg 3; arg 28); refine Step.put ?_)
    | (extract_lets +onlyGivenNames lv; first | ((first | refine Step.cut lv ?_ ?_ | refine Answers.cut lv ?_ ?_); unfold lv; clear lv; rotate_left; intro hx; clear_value lv; revert lv; intro _ _) | (revert lv; intro _))
    | with_reducible apply Step.after step_lawSample
    | with_reducible apply Step.after step_lawSkip
    | with_reducible apply Step.when
    | (with_reducible apply Step.foldl; intro fs fa)
    | (with_reducible apply Step.foldFin; intro fs fa)
    | (with_reducible apply Step.foldlFst; intro fs fa)
    | exact (fun _ => rfl)
    | (intro n; dsimp only; split <;> rfl)
    | (split; rename_i heq; have hx : (_ : State) = _ := congrArg Prod.snd heq; dsimp only at hx; subst hx)
    | (split; rename_i heq; have hx : (_ : State) = _ := congrArg Prod.fst heq; dsimp only at hx; subst hx)
    | (intro (n : Nvp) hn; simp only [Nvp.wf, Bool.and_eq_true] at hn ⊢; first | exact ⟨⟨nvpPuts_wf _ _ hn.1.1, hn.1.2⟩, hn.2⟩ | exact ⟨hn.1, rfl⟩)
    | (intro (n : Nvp) hn; split <;> (with_reducible exact Nvp.wf_of hn rfl rfl rfl))
    | (intro (n : Nvp) hn; with_reducible exact Nvp.wf_of hn rfl rfl rfl)
    | (intro (n : Otp) hn; split <;> (with_reducible exact Otp.wf_of hn rfl rfl rfl rfl))
    | (intro (n : Otp) hn; with_reducible exact Otp.wf_of hn rfl rfl rfl rfl)
    | (intro (n : Upd) hn; split <;> (with_reducible exact Upd.wf_of hn rfl))
    | (intro (n : Upd) hn; with_reducible exact Upd.wf_of hn rfl)
    | (intro (n : EvStore) hn; rw [EvStore.wf_iff] at *; first | exact ⟨cellsWf_put 0 _ _ _ hn.1, hn.2⟩ | exact ⟨hn.1, cellsWf_put _ _ _ _ hn.2⟩ | exact ⟨cellsWf_filter 0 _ _ hn.1, hn.2⟩)
    | (intro (n : EvStore) hn; split <;> (with_reducible exact EvStore.wf_of hn rfl rfl))
    | (intro (n : EvStore) hn; with_reducible exact EvStore.wf_of hn rfl rfl)
    | (intro (n : Bbx) hn; split <;> (with_reducible exact EvStore.wf_of hn rfl rfl))
    | (intro (n : Bbx) hn; with_reducible exact EvStore.wf_eq hn rfl)
    | (intro (n : Bbx) hn; with_reducible exact EvStore.wf_of hn rfl rfl)
    | split)

theorem step_lawCount {s : State} {e : Fin 20} : Step [.regs, .chans, .aon, .law, .pwm, .hbx, .dkl, .seq] s (State.lawCount s e) := by
  unfold State.lawCount
  repeat' (first
    | with_reducible apply Step.refl
    | with_reducible assumption
    | exact Eq.refl true
    | ((conv => arg 3; arg 28); refine Step.put ?_)
    | (extract_lets +onlyGivenNames lv; first | ((first | refine Step.cut lv ?_ ?_ | refine Answers.cut lv ?_ ?_); unfold lv; clear lv; rotate_left; intro hx; clear_value lv; revert lv; intro _ _) | (revert lv; intro _))
    | with_reducible apply Step.after step_modEng
    | with_reducible apply Step.after step_lawTrigger
    | with_reducible apply Step.when
    | (with_reducible apply Step.foldl; intro fs fa)
    | (with_reducible apply Step.foldFin; intro fs fa)
    | (with_reducible apply Step.foldlFst; intro fs fa)
    | exact (fun _ => rfl)
    | (intro n; dsimp only; split <;> rfl)
    | (split; rename_i heq; have hx : (_ : State) = _ := congrArg Prod.snd heq; dsimp only at hx; subst hx)
    | (split; rename_i heq; have hx : (_ : State) = _ := congrArg Prod.fst heq; dsimp only at hx; subst hx)
    | (intro (n : Nvp) hn; simp only [Nvp.wf, Bool.and_eq_true] at hn ⊢; first | exact ⟨⟨nvpPuts_wf _ _ hn.1.1, hn.1.2⟩, hn.2⟩ | exact ⟨hn.1, rfl⟩)
    | (intro (n : Nvp) hn; split <;> (with_reducible exact Nvp.wf_of hn rfl rfl rfl))
    | (intro (n : Nvp) hn; with_reducible exact Nvp.wf_of hn rfl rfl rfl)
    | (intro (n : Otp) hn; split <;> (with_reducible exact Otp.wf_of hn rfl rfl rfl rfl))
    | (intro (n : Otp) hn; with_reducible exact Otp.wf_of hn rfl rfl rfl rfl)
    | (intro (n : Upd) hn; split <;> (with_reducible exact Upd.wf_of hn rfl))
    | (intro (n : Upd) hn; with_reducible exact Upd.wf_of hn rfl)
    | (intro (n : EvStore) hn; rw [EvStore.wf_iff] at *; first | exact ⟨cellsWf_put 0 _ _ _ hn.1, hn.2⟩ | exact ⟨hn.1, cellsWf_put _ _ _ _ hn.2⟩ | exact ⟨cellsWf_filter 0 _ _ hn.1, hn.2⟩)
    | (intro (n : EvStore) hn; split <;> (with_reducible exact EvStore.wf_of hn rfl rfl))
    | (intro (n : EvStore) hn; with_reducible exact EvStore.wf_of hn rfl rfl)
    | (intro (n : Bbx) hn; split <;> (with_reducible exact EvStore.wf_of hn rfl rfl))
    | (intro (n : Bbx) hn; with_reducible exact EvStore.wf_eq hn rfl)
    | (intro (n : Bbx) hn; with_reducible exact EvStore.wf_of hn rfl rfl)
    | split)

theorem step_execLawTrigger {e : Fin 20} {s0 : State} : Answers [.time, .regs, .chans, .aon, .law, .pwm, .hbx, .dkl, .seq] s0 (execLawTrigger e s0) := by
  unfold execLawTrigger
  repeat' (first
    | with_reducible apply Step.refl
    | with_reducible assumption
    | exact Eq.refl true
    | with_reducible apply Answers.ok
    | ((conv => arg 3; arg 28); refine Step.put ?_)
    | (extract_lets +onlyGivenNames lv; first | ((first | refine Step.cut lv ?_ ?_ | refine Answers.cut lv ?_ ?_); unfold lv; clear lv; rotate_left; intro hx; clear_value lv; revert lv; intro _ _) | (revert lv; intro _))
    | with_reducible apply Step.after step_lawSync
    | with_reducible apply Step.after step_lawCount
    | with_reducible apply Step.after step_lawTrigger
    | with_reducible apply Step.after step_modEng
    | with_reducible apply Step.when
    | (with_reducible refine Step.whenAt rfl ?_ (fun u => ?_))
    | (with_reducible apply Step.foldl; intro fs fa)
    | (with_reducible apply Step.foldFin; intro fs fa)
    | (with_reducible apply Step.foldlFst; intro fs fa)
    | exact (fun _ => rfl)
    | (intro n; dsimp only; split <;> rfl)
    | (split; rename_i heq; have hx : (_ : State) = _ := congrArg Prod.snd heq; dsimp only at hx; subst hx)
    | (split; rename_i heq; have hx : (_ : State) = _ := congrArg Prod.fst heq; dsimp only at hx; subst hx)
    | (intro (n : Nvp) hn; simp only [Nvp.wf, Bool.and_eq_true] at hn ⊢; first | exact ⟨⟨nvpPuts_wf _ _ hn.1.1, hn.1.2⟩, hn.2⟩ | exact ⟨hn.1, rfl⟩)
    | (intro (n : Nvp) hn; split <;> (with_reducible exact Nvp.wf_of hn rfl rfl rfl))
    | (intro (n : Nvp) hn; with_reducible exact Nvp.wf_of hn rfl rfl rfl)
    | (intro (n : Otp) hn; split <;> (with_reducible exact Otp.wf_of hn rfl rfl rfl rfl))
    | (intro (n : Otp) hn; with_reducible exact Otp.wf_of hn rfl rfl rfl rfl)
    | (intro (n : Upd) hn; split <;> (with_reducible exact Upd.wf_of hn rfl))
    | (intro (n : Upd) hn; with_reducible exact Upd.wf_of hn rfl)
    | (intro (n : EvStore) hn; rw [EvStore.wf_iff] at *; first | exact ⟨cellsWf_put 0 _ _ _ hn.1, hn.2⟩ | exact ⟨hn.1, cellsWf_put _ _ _ _ hn.2⟩ | exact ⟨cellsWf_filter 0 _ _ hn.1, hn.2⟩)
    | (intro (n : EvStore) hn; split <;> (with_reducible exact EvStore.wf_of hn rfl rfl))
    | (intro (n : EvStore) hn; with_reducible exact EvStore.wf_of hn rfl rfl)
    | (intro (n : Bbx) hn; split <;> (with_reducible exact EvStore.wf_of hn rfl rfl))
    | (intro (n : Bbx) hn; with_reducible exact EvStore.wf_eq hn rfl)
    | (intro (n : Bbx) hn; with_reducible exact EvStore.wf_of hn rfl rfl)
    | split)

theorem step_lawDelay {s : State} {e : Fin 20} {stamp : Option Nat} : Step [.regs, .chans, .law] s (State.lawDelay s e stamp) := by
  unfold State.lawDelay
  repeat' (first
    | with_reducible apply Step.refl
    | with_reducible assumption
    | exact Eq.refl true
    | (extract_lets +onlyGivenNames lv; first | ((first | refine Step.cut lv ?_ ?_ | refine Answers.cut lv ?_ ?_); unfold lv; clear lv; rotate_left; intro hx; clear_value lv; revert lv; intro _ _) | (revert lv; intro _))
    | with_reducible apply Step.after step_modEng
    | with_reducible apply Step.after step_lawFlag
    | split)

theorem step_execLawOutputWrite {e : Fin 20} {s : State} : Answers [.regs, .chans, .law, .pwm] s (execLawOutputWrite e s) := by
  unfold execLawOutputWrite
  repeat' (first
    | with_reducible apply Step.refl
    | with_reducible assumption
    | exact Eq.refl true
    | with_reducible apply Answers.ok
    | ((conv => arg 3; arg 28); refine Step.put ?_)
    | (extract_lets +onlyGivenNames lv; first | ((first | refine Step.cut lv ?_ ?_ | refine Answers.cut lv ?_ ?_); unfold lv; clear lv; rotate_left; intro hx; clear_value lv; revert lv; intro _ _) | (revert lv; intro _))
    | with_reducible apply Step.after step_modEng
    | with_reducible apply Step.after step_stickIf
    | with_reducible apply Step.after step_lawDelay
    | with_reducible apply Step.after step_modPhase
    | with_reducible apply Step.after step_modRail
    | with_reducible apply Step.after step_lawSync
    | with_reducible apply Step.after step_lawFresh
    | with_reducible apply Step.when
    | (with_reducible apply Step.foldl; intro fs fa)
    | (with_reducible apply Step.foldFin; intro fs fa)
    | (with_reducible apply Step.foldlFst; intro fs fa)
    | exact (fun _ => rfl)
    | (intro n; dsimp only; split <;> rfl)
    | (split; rename_i heq; have hx : (_ : State) = _ := congrArg Prod.snd heq; dsimp only at hx; subst hx)
    | (split; rename_i heq; have hx : (_ : State) = _ := congrArg Prod.fst heq; dsimp only at hx; subst hx)
    | (intro (n : Nvp) hn; simp only [Nvp.wf, Bool.and_eq_true] at hn ⊢; first | exact ⟨⟨nvpPuts_wf _ _ hn.1.1, hn.1.2⟩, hn.2⟩ | exact ⟨hn.1, rfl⟩)
    | (intro (n : Nvp) hn; split <;> (with_reducible exact Nvp.wf_of hn rfl rfl rfl))
    | (intro (n : Nvp) hn; with_reducible exact Nvp.wf_of hn rfl rfl rfl)
    | (intro (n : Otp) hn; split <;> (with_reducible exact Otp.wf_of hn rfl rfl rfl rfl))
    | (intro (n : Otp) hn; with_reducible exact Otp.wf_of hn rfl rfl rfl rfl)
    | (intro (n : Upd) hn; split <;> (with_reducible exact Upd.wf_of hn rfl))
    | (intro (n : Upd) hn; with_reducible exact Upd.wf_of hn rfl)
    | (intro (n : EvStore) hn; rw [EvStore.wf_iff] at *; first | exact ⟨cellsWf_put 0 _ _ _ hn.1, hn.2⟩ | exact ⟨hn.1, cellsWf_put _ _ _ _ hn.2⟩ | exact ⟨cellsWf_filter 0 _ _ hn.1, hn.2⟩)
    | (intro (n : EvStore) hn; split <;> (with_reducible exact EvStore.wf_of hn rfl rfl))
    | (intro (n : EvStore) hn; with_reducible exact EvStore.wf_of hn rfl rfl)
    | (intro (n : Bbx) hn; split <;> (with_reducible exact EvStore.wf_of hn rfl rfl))
    | (intro (n : Bbx) hn; with_reducible exact EvStore.wf_eq hn rfl)
    | (intro (n : Bbx) hn; with_reducible exact EvStore.wf_of hn rfl rfl)
    | split)

theorem step_execLawSnapRequest {e : Fin 20} {s : State} : Answers [.law] s (execLawSnapRequest e s) := by
  unfold execLawSnapRequest
  repeat' (first
    | with_reducible apply Step.refl
    | with_reducible assumption
    | exact Eq.refl true
    | with_reducible apply Answers.ok
    | (extract_lets +onlyGivenNames lv; first | ((first | refine Step.cut lv ?_ ?_ | refine Answers.cut lv ?_ ?_); unfold lv; clear lv; rotate_left; intro hx; clear_value lv; revert lv; intro _ _) | (revert lv; intro _))
    | with_reducible apply Step.after step_modEng
    | with_reducible apply Step.when
    | (with_reducible apply Step.foldl; intro fs fa)
    | (with_reducible apply Step.foldFin; intro fs fa)
    | (with_reducible apply Step.foldlFst; intro fs fa)
    | (split; rename_i heq; have hx : (_ : State) = _ := congrArg Prod.snd heq; dsimp only at hx; subst hx)
    | (split; rename_i heq; have hx : (_ : State) = _ := congrArg Prod.fst heq; dsimp only at hx; subst hx)
    | split)

theorem step_execCoeffShadowWrite {off : BitVec 20} {val : Word} {s : State} : Answers [.regs, .law] s (execCoeffShadowWrite off val s) := by
  unfold execCoeffShadowWrite
  repeat' (first
    | with_reducible apply Step.refl
    | with_reducible assumption
    | exact Eq.refl true
    | with_reducible apply Answers.ok
    | ((conv => arg 3; arg 28); refine Step.put ?_)
    | (extract_lets +onlyGivenNames lv; first | ((first | refine Step.cut lv ?_ ?_ | refine Answers.cut lv ?_ ?_); unfold lv; clear lv; rotate_left; intro hx; clear_value lv; revert lv; intro _ _) | (revert lv; intro _))
    | with_reducible apply Step.after step_stick
    | split)

theorem step_execLawCommitRequest {e : Fin 20} {s : State} : Answers [.law] s (execLawCommitRequest e s) := by
  unfold execLawCommitRequest
  repeat' (first
    | with_reducible apply Step.refl
    | with_reducible assumption
    | exact Eq.refl true
    | with_reducible apply Answers.ok
    | (extract_lets +onlyGivenNames lv; first | ((first | refine Step.cut lv ?_ ?_ | refine Answers.cut lv ?_ ?_); unfold lv; clear lv; rotate_left; intro hx; clear_value lv; revert lv; intro _ _) | (revert lv; intro _))
    | with_reducible apply Step.after step_modEng
    | with_reducible apply Step.when
    | (with_reducible apply Step.foldl; intro fs fa)
    | (with_reducible apply Step.foldFin; intro fs fa)
    | (with_reducible apply Step.foldlFst; intro fs fa)
    | (split; rename_i heq; have hx : (_ : State) = _ := congrArg Prod.snd heq; dsimp only at hx; subst hx)
    | (split; rename_i heq; have hx : (_ : State) = _ := congrArg Prod.fst heq; dsimp only at hx; subst hx)
    | split)

theorem step_execLawBankSwap {e : Fin 20} {s : State} : Answers [.regs, .chans, .law] s (execLawBankSwap e s) := by
  unfold execLawBankSwap
  repeat' (first
    | with_reducible apply Step.refl
    | with_reducible assumption
    | exact Eq.refl true
    | with_reducible apply Answers.ok
    | ((conv => arg 3; arg 28); refine Step.put ?_)
    | (extract_lets +onlyGivenNames lv; first | ((first | refine Step.cut lv ?_ ?_ | refine Answers.cut lv ?_ ?_); unfold lv; clear lv; rotate_left; intro hx; clear_value lv; revert lv; intro _ _) | (revert lv; intro _))
    | with_reducible apply Step.after step_modEng
    | with_reducible apply Step.after step_lawEvent
    | with_reducible apply Step.after step_stick
    | split)

theorem step_execLawShadowCopyDone {e : Fin 20} {s : State} : Answers [.law] s (execLawShadowCopyDone e s) := by
  unfold execLawShadowCopyDone
  repeat' (first
    | with_reducible apply Step.refl
    | with_reducible assumption
    | exact Eq.refl true
    | with_reducible apply Answers.ok
    | ((conv => arg 3; arg 28); refine Step.put ?_)
    | (extract_lets +onlyGivenNames lv; first | ((first | refine Step.cut lv ?_ ?_ | refine Answers.cut lv ?_ ?_); unfold lv; clear lv; rotate_left; intro hx; clear_value lv; revert lv; intro _ _) | (revert lv; intro _))
    | with_reducible apply Step.after step_modEng
    | with_reducible apply Step.when
    | (with_reducible apply Step.foldl; intro fs fa)
    | (with_reducible apply Step.foldFin; intro fs fa)
    | (with_reducible apply Step.foldlFst; intro fs fa)
    | (split; rename_i heq; have hx : (_ : State) = _ := congrArg Prod.snd heq; dsimp only at hx; subst hx)
    | (split; rename_i heq; have hx : (_ : State) = _ := congrArg Prod.fst heq; dsimp only at hx; subst hx)
    | split)

end Sys2Proof.Machine
end

