-- ==== Sys2Proof/Laws/FrameEnergy.lean ====
section
/-! SUPPORT. What each operation and each command may change, and that it keeps the addressed stores in form: headbox, hold-up and capping.
The parts a lemma lists are those of `Sys2Proof.Machine.Part`; every other part stands as it was. -/

set_option Elab.async false
set_option maxRecDepth 4000

namespace Sys2Proof.Machine

/-! ### Headbox -/

theorem step_modSrc {s : State} {k : Fin 40} {f : Src → Src} : Step [.hbx] s (State.modSrc s k f) := by
  unfold State.modSrc
  repeat' (first
    | with_reducible apply Step.refl
    | with_reducible assumption
    | exact Eq.refl true
    | ((conv => arg 3; arg 28); refine Step.put ?_)
    | (extract_lets +onlyGivenNames lv; first | ((first | refine Step.cut lv ?_ ?_ | refine Answers.cut lv ?_ ?_); unfold lv; clear lv; rotate_left; intro hx; clear_value lv; revert lv; intro _ _) | (revert lv; intro _))
    | split)

theorem step_stagedWrite {s : State} {off : Nat} {val : Word} : Step [.regs] s (State.stagedWrite s off val) := by
  unfold State.stagedWrite
  repeat' (first
    | with_reducible apply Step.refl
    | with_reducible assumption
    | exact Eq.refl true
    | ((conv => arg 3; arg 28); refine Step.put ?_)
    | (extract_lets +onlyGivenNames lv; first | ((first | refine Step.cut lv ?_ ?_ | refine Answers.cut lv ?_ ?_); unfold lv; clear lv; rotate_left; intro hx; clear_value lv; revert lv; intro _ _) | (revert lv; intro _))
    | with_reducible apply Step.after step_stick
    | split)

theorem step_srcBounds {s : State} {k : Fin 40} : Step [.hbx] s (State.srcBounds s k) := by
  unfold State.srcBounds
  repeat' (first
    | with_reducible apply Step.refl
    | with_reducible assumption
    | exact Eq.refl true
    | (extract_lets +onlyGivenNames lv; first | ((first | refine Step.cut lv ?_ ?_ | refine Answers.cut lv ?_ ?_); unfold lv; clear lv; rotate_left; intro hx; clear_value lv; revert lv; intro _ _) | (revert lv; intro _))
    | with_reducible apply Step.after step_modSrc
    | split)

theorem step_hbxRun {s : State} {now : Bool} {before : Bool} {f : Fld} {cause : Nat} {v : Int} : Step [.regs, .chans] s (State.hbxRun s now before f cause v) := by
  unfold State.hbxRun
  repeat' (first
    | with_reducible apply Step.refl
    | with_reducible assumption
    | exact Eq.refl true
    | (extract_lets +onlyGivenNames lv; first | ((first | refine Step.cut lv ?_ ?_ | refine Answers.cut lv ?_ ?_); unfold lv; clear lv; rotate_left; intro hx; clear_value lv; revert lv; intro _ _) | (revert lv; intro _))
    | with_reducible apply Step.after step_fire
    | with_reducible apply Step.after step_stick
    | split)

theorem step_seedNew {s : State} : Step [.hbx] s (State.seedNew s) := by
  unfold State.seedNew
  repeat' (first
    | with_reducible apply Step.refl
    | with_reducible assumption
    | exact Eq.refl true
    | ((conv => arg 3; arg 28); refine Step.put ?_)
    | (extract_lets +onlyGivenNames lv; first | ((first | refine Step.cut lv ?_ ?_ | refine Answers.cut lv ?_ ?_); unfold lv; clear lv; rotate_left; intro hx; clear_value lv; revert lv; intro _ _) | (revert lv; intro _))
    | with_reducible apply Step.when
    | (with_reducible apply Step.foldl; intro fs fa)
    | (with_reducible apply Step.foldFin; intro fs fa)
    | (with_reducible apply Step.foldlFst; intro fs fa)
    | exact (fun _ => rfl)
    | (intro n; dsimp only; split <;> rfl)
    | (split; rename_i heq; have hx : (_ : State) = _ := congrArg Prod.snd heq; dsimp only at hx; subst hx)
    | (split; rename_i heq; have hx : (_ : State) = _ := congrArg Prod.fst heq; dsimp only at hx; subst hx)
    | (intro (n : Nvp) hn; simp only [Nvp.wf, Bool.and_eq_true] at hn ⊢; first | exact ⟨⟨nvpPuts_wf _ _ hn.1.1, hn.1.2⟩, hn.2⟩ | exact ⟨hn.1, rfl⟩)
    | (intro (n : Nvp) hn; split <;> (with_reducible exact Nvp.wf_of hn rfl rfl rfl))
    | (intro (n : Nvp) hn; with_reducible exact Nvp.wf_of hn rfl rfl rfl)
    | (intro (n : Otp) hn; split <;> (with_reducible exact Otp.wf_of hn rfl rfl rfl rfl))
    | (intro (n : Otp) hn; with_reducible exact Otp.wf_of hn rfl rfl rfl rfl)
    | (intro (n : Upd) hn; split <;> (with_reducible exact Upd.wf_of hn rfl))
    | (intro (n : Upd) hn; with_reducible exact Upd.wf_of hn rfl)
    | (intro (n : EvStore) hn; rw [EvStore.wf_iff] at *; first | exact ⟨cellsWf_put 0 _ _ _ hn.1, hn.2⟩ | exact ⟨hn.1, cellsWf_put _ _ _ _ hn.2⟩ | exact ⟨cellsWf_filter 0 _ _ hn.1, hn.2⟩)
    | (intro (n : EvStore) hn; split <;> (with_reducible exact EvStore.wf_of hn rfl rfl))
    | (intro (n : EvStore) hn; with_reducible exact EvStore.wf_of hn rfl rfl)
    | (intro (n : Bbx) hn; split <;> (with_reducible exact EvStore.wf_of hn rfl rfl))
    | (intro (n : Bbx) hn; with_reducible exact EvStore.wf_eq hn rfl)
    | (intro (n : Bbx) hn; with_reducible exact EvStore.wf_of hn rfl rfl)
    | split)

theorem step_hbxAlloc {s : State} {r : Result} {q : Int} : Step [.hbx] s (State.hbxAlloc s r q) := by
  unfold State.hbxAlloc
  repeat' (first
    | with_reducible apply Step.refl
    | with_reducible assumption
    | exact Eq.refl true
    | ((conv => arg 3; arg 28); refine Step.put ?_)
    | (extract_lets +onlyGivenNames lv; first | ((first | refine Step.cut lv ?_ ?_ | refine Answers.cut lv ?_ ?_); unfold lv; clear lv; rotate_left; intro hx; clear_value lv; revert lv; intro _ _) | (revert lv; intro _))
    | with_reducible apply Step.after step_modSrc
    | with_reducible apply Step.when
    | (with_reducible apply Step.foldl; intro fs fa)
    | (with_reducible apply Step.foldFin; intro fs fa)
    | (with_reducible apply Step.foldlFst; intro fs fa)
    | exact (fun _ => rfl)
    | (intro n; dsimp only; split <;> rfl)
    | (split; rename_i heq; have hx : (_ : State) = _ := congrArg Prod.snd heq; dsimp only at hx; subst hx)
    | (split; rename_i heq; have hx : (_ : State) = _ := congrArg Prod.fst heq; dsimp only at hx; subst hx)
    | (intro (n : Nvp) hn; simp only [Nvp.wf, Bool.and_eq_true] at hn ⊢; first | exact ⟨⟨nvpPuts_wf _ _ hn.1.1, hn.1.2⟩, hn.2⟩ | exact ⟨hn.1, rfl⟩)
    | (intro (n : Nvp) hn; split <;> (with_reducible exact Nvp.wf_of hn rfl rfl rfl))
    | (intro (n : Nvp) hn; with_reducible exact Nvp.wf_of hn rfl rfl rfl)
    | (intro (n : Otp) hn; split <;> (with_reducible exact Otp.wf_of hn rfl rfl rfl rfl))
    | (intro (n : Otp) hn; with_reducible exact Otp.wf_of hn rfl rfl rfl rfl)
    | (intro (n : Upd) hn; split <;> (with_reducible exact Upd.wf_of hn rfl))
    | (intro (n : Upd) hn; with_reducible exact Upd.wf_of hn rfl)
    | (intro (n : EvStore) hn; rw [EvStore.wf_iff] at *; first | exact ⟨cellsWf_put 0 _ _ _ hn.1, hn.2⟩ | exact ⟨hn.1, cellsWf_put _ _ _ _ hn.2⟩ | exact ⟨cellsWf_filter 0 _ _ hn.1, hn.2⟩)
    | (intro (n : EvStore) hn; split <;> (with_reducible exact EvStore.wf_of hn rfl rfl))
    | (intro (n : EvStore) hn; with_reducible exact EvStore.wf_of hn rfl rfl)
    | (intro (n : Bbx) hn; split <;> (with_reducible exact EvStore.wf_of hn rfl rfl))
    | (intro (n : Bbx) hn; with_reducible exact EvStore.wf_eq hn rfl)
    | (intro (n : Bbx) hn; with_reducible exact EvStore.wf_of hn rfl rfl)
    | split)

/-- What a dispatch reports leaves the curve banks as they are. -/
theorem Hbx.wf_report {h : Hbx} {r : Result} {q : Int} {cap : Option Int} {n : Nat} (w : h.wf = true) : (h.report r q cap n).wf = true := by
  unfold Hbx.report
  with_reducible exact Hbx.wf_of w rfl rfl

theorem step_hbxDispatch {s : State} {d : Int} {cap : Option Int} : Step [.freeCtr, .regs, .chans, .hbx] s (State.hbxDispatch s d cap) := by
  unfold State.hbxDispatch
  extract_lets +onlyGivenNames e q en s1
  have h1 : Step [.freeCtr, .regs, .chans, .hbx] s s1 := Step.foldl _ _ (fun _ _ => Step.after step_srcBounds rfl Step.refl) (Step.after step_seedNew rfl Step.refl)
  clear_value s1 e q en
  extract_lets +onlyGivenNames r s2
  have h2 : Step [.freeCtr, .regs, .chans, .hbx] s s2 := Step.after step_hbxAlloc rfl h1
  clear_value r s2
  extract_lets +onlyGivenNames h h' a s3
  have h3 : Step [.freeCtr, .regs, .chans, .hbx] s s3 := Step.put (Step.after step_drawn rfl h2) (w_hbx := Hbx.wf_report)
  clear_value h h' s3
  extract_lets +onlyGivenNames s4
  have h4 : Step [.freeCtr, .regs, .chans, .hbx] s s4 := Step.after step_satIf rfl (Step.after step_satIf rfl h3)
  clear_value s4
  extract_lets +onlyGivenNames s5
  have h5 : Step [.freeCtr, .regs, .chans, .hbx] s s5 := by
    unfold s5
    split
    · exact Step.after step_fire rfl (Step.after step_stick rfl h4)
    · exact h4
  exact Step.after step_hbxRun rfl (Step.after step_hbxRun rfl h5)

theorem step_seedAll {s : State} : Step [.hbx] s (State.seedAll s) := by
  unfold State.seedAll
  repeat' (first
    | with_reducible apply Step.refl
    | with_reducible assumption
    | exact Eq.refl true
    | ((conv => arg 3; arg 28); refine Step.put ?_)
    | (extract_lets +onlyGivenNames lv; first | ((first | refine Step.cut lv ?_ ?_ | refine Answers.cut lv ?_ ?_); unfold lv; clear lv; rotate_left; intro hx; clear_value lv; revert lv; intro _ _) | (revert lv; intro _))
    | split)

theorem step_execHbxCommitRequest {s : State} : Answers [.hbx] s (execHbxCommitRequest s) := by
  unfold execHbxCommitRequest
  repeat' (first
    | with_reducible apply Step.refl
    | with_reducible assumption
    | exact Eq.refl true
    | with_reducible apply Answers.ok
    | ((conv => arg 3; arg 28); refine Step.put ?_)
    | (extract_lets +onlyGivenNames lv; first | ((first | refine Step.cut lv ?_ ?_ | refine Answers.cut lv ?_ ?_); unfold lv; clear lv; rotate_left; intro hx; clear_value lv; revert lv; intro _ _) | (revert lv; intro _))
    | with_reducible apply Step.when
    | (with_reducible apply Step.foldl; intro fs fa)
    | (with_reducible apply Step.foldFin; intro fs fa)
    | (with_reducible apply Step.foldlFst; intro fs fa)
    | (split; rename_i heq; have hx : (_ : State) = _ := congrArg Prod.snd heq; dsimp only at hx; subst hx)
    | (split; rename_i heq; have hx : (_ : State) = _ := congrArg Prod.fst heq; dsimp only at hx; subst hx)
    | split)

/-- The end of a commit leaves the curve banks as they are. -/
theorem Hbx.wf_commitEnd {h : Hbx} {t : Nat} (w : h.wf = true) : (h.commitEnd t).wf = true := by
  unfold Hbx.commitEnd
  split <;> with_reducible exact Hbx.wf_of w rfl rfl

/-- The copy of the words in force into the staged ones keeps the register store's form. -/
theorem Regs.wf_copy {r : Regs} (h : r.wf = true) : Regs.wf { r with staged := stagedOnly r.act } = true := by
  rw [Regs.wf_iff] at *
  exact ⟨h.1, h.2.1, keysRise_filter _ _ h.1, h.2.2.2⟩

theorem step_execHbxStagedCopyDone {s : State} : Answers [.regs, .hbx] s (execHbxStagedCopyDone s) := by
  unfold execHbxStagedCopyDone
  exact Answers.ok (Step.when Step.refl (Step.put Step.refl (w_regs := Regs.wf_copy)
    (w_hbx := fun h => Hbx.wf_commitEnd (by rw [Hbx.wf_iff] at *; exact ⟨h.2, h.2⟩))))

theorem step_execCostCurveWrite {off : BitVec 20} {val : Word} {s : State} : Answers [.regs, .hbx] s (execCostCurveWrite off val s) := by
  unfold execCostCurveWrite
  repeat' (first
    | with_reducible apply Step.refl
    | with_reducible assumption
    | exact Eq.refl true
    | with_reducible apply Answers.ok
    | ((conv => arg 3; arg 28); refine Step.put ?_)
    | (extract_lets +onlyGivenNames lv; first | ((first | refine Step.cut lv ?_ ?_ | refine Answers.cut lv ?_ ?_); unfold lv; clear lv; rotate_left; intro hx; clear_value lv; revert lv; intro _ _) | (revert lv; intro _))
    | with_reducible apply Step.after step_stagedWrite
    | with_reducible apply Step.after step_stick
    | split)

theorem step_execDerateClear {s : State} : Answers [.hbx] s (execDerateClear s) := by
  unfold execDerateClear
  repeat' (first
    | with_reducible apply Step.refl
    | with_reducible assumption
    | exact Eq.refl true
    | with_reducible apply Answers.ok
    | ((conv => arg 3; arg 28); refine Step.put ?_)
    | (extract_lets +onlyGivenNames lv; first | ((first | refine Step.cut lv ?_ ?_ | refine Answers.cut lv ?_ ?_); unfold lv; clear lv; rotate_left; intro hx; clear_value lv; revert lv; intro _ _) | (revert lv; intro _))
    | with_reducible apply Step.when
    | (with_reducible apply Step.foldl; intro fs fa)
    | (with_reducible apply Step.foldFin; intro fs fa)
    | (with_reducible apply Step.foldlFst; intro fs fa)
    | (split; rename_i heq; have hx : (_ : State) = _ := congrArg Prod.snd heq; dsimp only at hx; subst hx)
    | (split; rename_i heq; have hx : (_ : State) = _ := congrArg Prod.fst heq; dsimp only at hx; subst hx)
    | split)

/-! ### Holdup -/

theorem step_vatStep {s : State} : Step [.regs, .chans, .vat] s (State.vatStep s) := by
  unfold State.vatStep
  repeat' (first
    | with_reducible apply Step.refl
    | with_reducible assumption
    | exact Eq.refl true
    | ((conv => arg 3; arg 28); refine Step.put ?_)
    | (extract_lets +onlyGivenNames lv; first | ((first | refine Step.cut lv ?_ ?_ | refine Answers.cut lv ?_ ?_); unfold lv; clear lv; rotate_left; intro hx; clear_value lv; revert lv; intro _ _) | (revert lv; intro _))
    | with_reducible apply Step.after step_fire
    | with_reducible apply Step.after step_stick
    | with_reducible apply Step.when
    | (with_reducible apply Step.foldl; intro fs fa)
    | (with_reducible apply Step.foldFin; intro fs fa)
    | (with_reducible apply Step.foldlFst; intro fs fa)
    | exact (fun _ => rfl)
    | (intro n; dsimp only; split <;> rfl)
    | (split; rename_i heq; have hx : (_ : State) = _ := congrArg Prod.snd heq; dsimp only at hx; subst hx)
    | (split; rename_i heq; have hx : (_ : State) = _ := congrArg Prod.fst heq; dsimp only at hx; subst hx)
    | (intro (n : Nvp) hn; simp only [Nvp.wf, Bool.and_eq_true] at hn ⊢; first | exact ⟨⟨nvpPuts_wf _ _ hn.1.1, hn.1.2⟩, hn.2⟩ | exact ⟨hn.1, rfl⟩)
    | (intro (n : Nvp) hn; split <;> (with_reducible exact Nvp.wf_of hn rfl rfl rfl))
    | (intro (n : Nvp) hn; with_reducible exact Nvp.wf_of hn rfl rfl rfl)
    | (intro (n : Otp) hn; split <;> (with_reducible exact Otp.wf_of hn rfl rfl rfl rfl))
    | (intro (n : Otp) hn; with_reducible exact Otp.wf_of hn rfl rfl rfl rfl)
    | (intro (n : Upd) hn; split <;> (with_reducible exact Upd.wf_of hn rfl))
    | (intro (n : Upd) hn; with_reducible exact Upd.wf_of hn rfl)
    | (intro (n : EvStore) hn; rw [EvStore.wf_iff] at *; first | exact ⟨cellsWf_put 0 _ _ _ hn.1, hn.2⟩ | exact ⟨hn.1, cellsWf_put _ _ _ _ hn.2⟩ | exact ⟨cellsWf_filter 0 _ _ hn.1, hn.2⟩)
    | (intro (n : EvStore) hn; split <;> (with_reducible exact EvStore.wf_of hn rfl rfl))
    | (intro (n : EvStore) hn; with_reducible exact EvStore.wf_of hn rfl rfl)
    | (intro (n : Bbx) hn; split <;> (with_reducible exact EvStore.wf_of hn rfl rfl))
    | (intro (n : Bbx) hn; with_reducible exact EvStore.wf_eq hn rfl)
    | (intro (n : Bbx) hn; with_reducible exact EvStore.wf_of hn rfl rfl)
    | split)

theorem step_huRequest {s : State} {enter : Bool} : Step [.sys] s (State.huRequest s enter) := by
  unfold State.huRequest
  repeat' (first
    | with_reducible apply Step.refl
    | with_reducible assumption
    | exact Eq.refl true
    | ((conv => arg 3; arg 28); refine Step.put ?_)
    | (extract_lets +onlyGivenNames lv; first | ((first | refine Step.cut lv ?_ ?_ | refine Answers.cut lv ?_ ?_); unfold lv; clear lv; rotate_left; intro hx; clear_value lv; revert lv; intro _ _) | (revert lv; intro _))
    | split)

theorem step_trialPause {s : State} {enter : Bool} : Step [.upd] s (State.trialPause s enter) := by
  unfold State.trialPause
  repeat' (first
    | with_reducible apply Step.refl
    | with_reducible assumption
    | exact Eq.refl true
    | ((conv => arg 3; arg 28); refine Step.put ?_)
    | (extract_lets +onlyGivenNames lv; first | ((first | refine Step.cut lv ?_ ?_ | refine Answers.cut lv ?_ ?_); unfold lv; clear lv; rotate_left; intro hx; clear_value lv; revert lv; intro _ _) | (revert lv; intro _))
    | split)

theorem step_huEnter {s : State} {g : Int} : Step [.regs, .chans, .sys, .vat, .upd] s (State.huEnter s g) := by
  unfold State.huEnter
  repeat' (first
    | with_reducible apply Step.refl
    | with_reducible assumption
    | exact Eq.refl true
    | ((conv => arg 3; arg 28); refine Step.put ?_)
    | (extract_lets +onlyGivenNames lv; first | ((first | refine Step.cut lv ?_ ?_ | refine Answers.cut lv ?_ ?_); unfold lv; clear lv; rotate_left; intro hx; clear_value lv; revert lv; intro _ _) | (revert lv; intro _))
    | with_reducible apply Step.after step_huRequest
    | with_reducible apply Step.after step_trialPause
    | with_reducible apply Step.after step_satEv
    | with_reducible apply Step.after step_fire
    | with_reducible apply Step.after step_stick
    | with_reducible apply Step.when
    | (with_reducible apply Step.foldl; intro fs fa)
    | (with_reducible apply Step.foldFin; intro fs fa)
    | (with_reducible apply Step.foldlFst; intro fs fa)
    | exact (fun _ => rfl)
    | (intro n; dsimp only; split <;> rfl)
    | (split; rename_i heq; have hx : (_ : State) = _ := congrArg Prod.snd heq; dsimp only at hx; subst hx)
    | (split; rename_i heq; have hx : (_ : State) = _ := congrArg Prod.fst heq; dsimp only at hx; subst hx)
    | (intro (n : Nvp) hn; simp only [Nvp.wf, Bool.and_eq_true] at hn ⊢; first | exact ⟨⟨nvpPuts_wf _ _ hn.1.1, hn.1.2⟩, hn.2⟩ | exact ⟨hn.1, rfl⟩)
    | (intro (n : Nvp) hn; split <;> (with_reducible exact Nvp.wf_of hn rfl rfl rfl))
    | (intro (n : Nvp) hn; with_reducible exact Nvp.wf_of hn rfl rfl rfl)
    | (intro (n : Otp) hn; split <;> (with_reducible exact Otp.wf_of hn rfl rfl rfl rfl))
    | (intro (n : Otp) hn; with_reducible exact Otp.wf_of hn rfl rfl rfl rfl)
    | (intro (n : Upd) hn; split <;> (with_reducible exact Upd.wf_of hn rfl))
    | (intro (n : Upd) hn; with_reducible exact Upd.wf_of hn rfl)
    | (intro (n : EvStore) hn; rw [EvStore.wf_iff] at *; first | exact ⟨cellsWf_put 0 _ _ _ hn.1, hn.2⟩ | exact ⟨hn.1, cellsWf_put _ _ _ _ hn.2⟩ | exact ⟨cellsWf_filter 0 _ _ hn.1, hn.2⟩)
    | (intro (n : EvStore) hn; split <;> (with_reducible exact EvStore.wf_of hn rfl rfl))
    | (intro (n : EvStore) hn; with_reducible exact EvStore.wf_of hn rfl rfl)
    | (intro (n : Bbx) hn; split <;> (with_reducible exact EvStore.wf_of hn rfl rfl))
    | (intro (n : Bbx) hn; with_reducible exact EvStore.wf_eq hn rfl)
    | (intro (n : Bbx) hn; with_reducible exact EvStore.wf_of hn rfl rfl)
    | split)

theorem step_huLeave {s : State} {g : Int} : Step [.regs, .chans, .sys, .vat, .upd] s (State.huLeave s g) := by
  unfold State.huLeave
  repeat' (first
    | with_reducible apply Step.refl
    | with_reducible assumption
    | exact Eq.refl true
    | ((conv => arg 3; arg 28); refine Step.put ?_)
    | (extract_lets +onlyGivenNames lv; first | ((first | refine Step.cut lv ?_ ?_ | refine Answers.cut lv ?_ ?_); unfold lv; clear lv; rotate_left; intro hx; clear_value lv; revert lv; intro _ _) | (revert lv; intro _))
    | with_reducible apply Step.after step_huRequest
    | with_reducible apply Step.after step_trialPause
    | with_reducible apply Step.after step_fire
    | with_reducible apply Step.after step_stick
    | with_reducible apply Step.when
    | (with_reducible apply Step.foldl; intro fs fa)
    | (with_reducible apply Step.foldFin; intro fs fa)
    | (with_reducible apply Step.foldlFst; intro fs fa)
    | exact (fun _ => rfl)
    | (intro n; dsimp only; split <;> rfl)
    | (split; rename_i heq; have hx : (_ : State) = _ := congrArg Prod.snd heq; dsimp only at hx; subst hx)
    | (split; rename_i heq; have hx : (_ : State) = _ := congrArg Prod.fst heq; dsimp only at hx; subst hx)
    | (intro (n : Nvp) hn; simp only [Nvp.wf, Bool.and_eq_true] at hn ⊢; first | exact ⟨⟨nvpPuts_wf _ _ hn.1.1, hn.1.2⟩, hn.2⟩ | exact ⟨hn.1, rfl⟩)
    | (intro (n : Nvp) hn; split <;> (with_reducible exact Nvp.wf_of hn rfl rfl rfl))
    | (intro (n : Nvp) hn; with_reducible exact Nvp.wf_of hn rfl rfl rfl)
    | (intro (n : Otp) hn; split <;> (with_reducible exact Otp.wf_of hn rfl rfl rfl rfl))
    | (intro (n : Otp) hn; with_reducible exact Otp.wf_of hn rfl rfl rfl rfl)
    | (intro (n : Upd) hn; split <;> (with_reducible exact Upd.wf_of hn rfl))
    | (intro (n : Upd) hn; with_reducible exact Upd.wf_of hn rfl)
    | (intro (n : EvStore) hn; rw [EvStore.wf_iff] at *; first | exact ⟨cellsWf_put 0 _ _ _ hn.1, hn.2⟩ | exact ⟨hn.1, cellsWf_put _ _ _ _ hn.2⟩ | exact ⟨cellsWf_filter 0 _ _ hn.1, hn.2⟩)
    | (intro (n : EvStore) hn; split <;> (with_reducible exact EvStore.wf_of hn rfl rfl))
    | (intro (n : EvStore) hn; with_reducible exact EvStore.wf_of hn rfl rfl)
    | (intro (n : Bbx) hn; split <;> (with_reducible exact EvStore.wf_of hn rfl rfl))
    | (intro (n : Bbx) hn; with_reducible exact EvStore.wf_eq hn rfl)
    | (intro (n : Bbx) hn; with_reducible exact EvStore.wf_of hn rfl rfl)
    | split)

theorem step_walkStart {s : State} {gw : Int} : Step [.chans, .vat] s (State.walkStart s gw) := by
  unfold State.walkStart
  repeat' (first
    | with_reducible apply Step.refl
    | with_reducible assumption
    | exact Eq.refl true
    | ((conv => arg 3; arg 28); refine Step.put ?_)
    | (extract_lets +onlyGivenNames lv; first | ((first | refine Step.cut lv ?_ ?_ | refine Answers.cut lv ?_ ?_); unfold lv; clear lv; rotate_left; intro hx; clear_value lv; revert lv; intro _ _) | (revert lv; intro _))
    | with_reducible apply Step.after step_fire
    | with_reducible apply Step.when
    | (with_reducible apply Step.foldl; intro fs fa)
    | (with_reducible apply Step.foldFin; intro fs fa)
    | (with_reducible apply Step.foldlFst; intro fs fa)
    | exact (fun _ => rfl)
    | (intro n; dsimp only; split <;> rfl)
    | (split; rename_i heq; have hx : (_ : State) = _ := congrArg Prod.snd heq; dsimp only at hx; subst hx)
    | (split; rename_i heq; have hx : (_ : State) = _ := congrArg Prod.fst heq; dsimp only at hx; subst hx)
    | (intro (n : Nvp) hn; simp only [Nvp.wf, Bool.and_eq_true] at hn ⊢; first | exact ⟨⟨nvpPuts_wf _ _ hn.1.1, hn.1.2⟩, hn.2⟩ | exact ⟨hn.1, rfl⟩)
    | (intro (n : Nvp) hn; split <;> (with_reducible exact Nvp.wf_of hn rfl rfl rfl))
    | (intro (n : Nvp) hn; with_reducible exact Nvp.wf_of hn rfl rfl rfl)
    | (intro (n : Otp) hn; split <;> (with_reducible exact Otp.wf_of hn rfl rfl rfl rfl))
    | (intro (n : Otp) hn; with_reducible exact Otp.wf_of hn rfl rfl rfl rfl)
    | (intro (n : Upd) hn; split <;> (with_reducible exact Upd.wf_of hn rfl))
    | (intro (n : Upd) hn; with_reducible exact Upd.wf_of hn rfl)
    | (intro (n : EvStore) hn; rw [EvStore.wf_iff] at *; first | exact ⟨cellsWf_put 0 _ _ _ hn.1, hn.2⟩ | exact ⟨hn.1, cellsWf_put _ _ _ _ hn.2⟩ | exact ⟨cellsWf_filter 0 _ _ hn.1, hn.2⟩)
    | (intro (n : EvStore) hn; split <;> (with_reducible exact EvStore.wf_of hn rfl rfl))
    | (intro (n : EvStore) hn; with_reducible exact EvStore.wf_of hn rfl rfl)
    | (intro (n : Bbx) hn; split <;> (with_reducible exact EvStore.wf_of hn rfl rfl))
    | (intro (n : Bbx) hn; with_reducible exact EvStore.wf_eq hn rfl)
    | (intro (n : Bbx) hn; with_reducible exact EvStore.wf_of hn rfl rfl)
    | split)

theorem step_walkEnd {s : State} : Step [.chans, .vat] s (State.walkEnd s) := by
  unfold State.walkEnd
  repeat' (first
    | with_reducible apply Step.refl
    | with_reducible assumption
    | exact Eq.refl true
    | ((conv => arg 3; arg 28); refine Step.put ?_)
    | (extract_lets +onlyGivenNames lv; first | ((first | refine Step.cut lv ?_ ?_ | refine Answers.cut lv ?_ ?_); unfold lv; clear lv; rotate_left; intro hx; clear_value lv; revert lv; intro _ _) | (revert lv; intro _))
    | with_reducible apply Step.after step_fire
    | with_reducible apply Step.when
    | (with_reducible apply Step.foldl; intro fs fa)
    | (with_reducible apply Step.foldFin; intro fs fa)
    | (with_reducible apply Step.foldlFst; intro fs fa)
    | exact (fun _ => rfl)
    | (intro n; dsimp only; split <;> rfl)
    | (split; rename_i heq; have hx : (_ : State) = _ := congrArg Prod.snd heq; dsimp only at hx; subst hx)
    | (split; rename_i heq; have hx : (_ : State) = _ := congrArg Prod.fst heq; dsimp only at hx; subst hx)
    | (intro (n : Nvp) hn; simp only [Nvp.wf, Bool.and_eq_true] at hn ⊢; first | exact ⟨⟨nvpPuts_wf _ _ hn.1.1, hn.1.2⟩, hn.2⟩ | exact ⟨hn.1, rfl⟩)
    | (intro (n : Nvp) hn; split <;> (with_reducible exact Nvp.wf_of hn rfl rfl rfl))
    | (intro (n : Nvp) hn; with_reducible exact Nvp.wf_of hn rfl rfl rfl)
    | (intro (n : Otp) hn; split <;> (with_reducible exact Otp.wf_of hn rfl rfl rfl rfl))
    | (intro (n : Otp) hn; with_reducible exact Otp.wf_of hn rfl rfl rfl rfl)
    | (intro (n : Upd) hn; split <;> (with_reducible exact Upd.wf_of hn rfl))
    | (intro (n : Upd) hn; with_reducible exact Upd.wf_of hn rfl)
    | (intro (n : EvStore) hn; rw [EvStore.wf_iff] at *; first | exact ⟨cellsWf_put 0 _ _ _ hn.1, hn.2⟩ | exact ⟨hn.1, cellsWf_put _ _ _ _ hn.2⟩ | exact ⟨cellsWf_filter 0 _ _ hn.1, hn.2⟩)
    | (intro (n : EvStore) hn; split <;> (with_reducible exact EvStore.wf_of hn rfl rfl))
    | (intro (n : EvStore) hn; with_reducible exact EvStore.wf_of hn rfl rfl)
    | (intro (n : Bbx) hn; split <;> (with_reducible exact EvStore.wf_of hn rfl rfl))
    | (intro (n : Bbx) hn; with_reducible exact EvStore.wf_eq hn rfl)
    | (intro (n : Bbx) hn; with_reducible exact EvStore.wf_of hn rfl rfl)
    | split)

theorem step_holdupStep {s : State} {p : Nat} : Step [.regs, .chans, .sys, .vat, .upd] s (State.holdupStep s p) := by
  unfold State.holdupStep
  extract_lets g cfg low high z s0 s1 z1 s2 z2 s' s3 z3 s4
  have h0 : Step [.regs, .chans, .sys, .vat, .upd] s s0 := Step.put Step.refl
  have h1 : Step [.regs, .chans, .sys, .vat, .upd] s s1 := by
    unfold s1
    split
    · exact Step.after step_huEnter rfl h0
    · exact h0
  clear_value s1
  have h2 : Step [.regs, .chans, .sys, .vat, .upd] s s2 := Step.put h1
  have h' : Step [.regs, .chans, .sys, .vat, .upd] s s' := Step.put h2
  have h3 : Step [.regs, .chans, .sys, .vat, .upd] s s3 := by
    unfold s3
    split
    · split
      · exact Step.after step_walkEnd rfl h2
      · exact Step.put h2
    · split
      · split
        · exact h'
        · exact Step.after step_walkStart rfl h'
      · exact h2
  clear_value s3
  have h4 : Step [.regs, .chans, .sys, .vat, .upd] s s4 := by
    unfold s4
    split
    · exact Step.put h3
    · exact h3
  split
  · exact Step.after step_walkEnd rfl h4
  · exact h4

theorem step_dispAdopt {s : State} : Step [.regs, .chans, .sys, .dkl, .vat, .red, .upd] s (State.dispAdopt s) := by
  unfold State.dispAdopt
  repeat' (first
    | with_reducible apply Step.refl
    | with_reducible assumption
    | exact Eq.refl true
    | ((conv => arg 3; arg 28); refine Step.put ?_)
    | (extract_lets +onlyGivenNames lv; first | ((first | refine Step.cut lv ?_ ?_ | refine Answers.cut lv ?_ ?_); unfold lv; clear lv; rotate_left; intro hx; clear_value lv; revert lv; intro _ _) | (revert lv; intro _))
    | with_reducible apply Step.after step_huEnter
    | with_reducible apply Step.after step_huLeave
    | with_reducible apply Step.after step_walkStart
    | with_reducible apply Step.after step_walkEnd
    | with_reducible apply Step.when
    | (with_reducible apply Step.foldl; intro fs fa)
    | (with_reducible apply Step.foldFin; intro fs fa)
    | (with_reducible apply Step.foldlFst; intro fs fa)
    | exact (fun _ => rfl)
    | (intro n; dsimp only; split <;> rfl)
    | (split; rename_i heq; have hx : (_ : State) = _ := congrArg Prod.snd heq; dsimp only at hx; subst hx)
    | (split; rename_i heq; have hx : (_ : State) = _ := congrArg Prod.fst heq; dsimp only at hx; subst hx)
    | (intro (n : Nvp) hn; simp only [Nvp.wf, Bool.and_eq_true] at hn ⊢; first | exact ⟨⟨nvpPuts_wf _ _ hn.1.1, hn.1.2⟩, hn.2⟩ | exact ⟨hn.1, rfl⟩)
    | (intro (n : Nvp) hn; split <;> (with_reducible exact Nvp.wf_of hn rfl rfl rfl))
    | (intro (n : Nvp) hn; with_reducible exact Nvp.wf_of hn rfl rfl rfl)
    | (intro (n : Otp) hn; split <;> (with_reducible exact Otp.wf_of hn rfl rfl rfl rfl))
    | (intro (n : Otp) hn; with_reducible exact Otp.wf_of hn rfl rfl rfl rfl)
    | (intro (n : Upd) hn; split <;> (with_reducible exact Upd.wf_of hn rfl))
    | (intro (n : Upd) hn; with_reducible exact Upd.wf_of hn rfl)
    | (intro (n : EvStore) hn; rw [EvStore.wf_iff] at *; first | exact ⟨cellsWf_put 0 _ _ _ hn.1, hn.2⟩ | exact ⟨hn.1, cellsWf_put _ _ _ _ hn.2⟩ | exact ⟨cellsWf_filter 0 _ _ hn.1, hn.2⟩)
    | (intro (n : EvStore) hn; split <;> (with_reducible exact EvStore.wf_of hn rfl rfl))
    | (intro (n : EvStore) hn; with_reducible exact EvStore.wf_of hn rfl rfl)
    | (intro (n : Bbx) hn; split <;> (with_reducible exact EvStore.wf_of hn rfl rfl))
    | (intro (n : Bbx) hn; with_reducible exact EvStore.wf_eq hn rfl)
    | (intro (n : Bbx) hn; with_reducible exact EvStore.wf_of hn rfl rfl)
    | split)

theorem step_feederStep {s : State} : Step [.hbx, .dkl] s (State.feederStep s) := by
  unfold State.feederStep
  repeat' (first
    | with_reducible apply Step.refl
    | with_reducible assumption
    | exact Eq.refl true
    | ((conv => arg 3; arg 28); refine Step.put ?_)
    | (extract_lets +onlyGivenNames lv; first | ((first | refine Step.cut lv ?_ ?_ | refine Answers.cut lv ?_ ?_); unfold lv; clear lv; rotate_left; intro hx; clear_value lv; revert lv; intro _ _) | (revert lv; intro _))
    | split)

theorem step_bridgeStep {s : State} {d : Int} : Step [.regs, .chans, .vat] s (State.bridgeStep s d) := by
  unfold State.bridgeStep
  repeat' (first
    | with_reducible apply Step.refl
    | with_reducible assumption
    | exact Eq.refl true
    | ((conv => arg 3; arg 28); refine Step.put ?_)
    | (extract_lets +onlyGivenNames lv; first | ((first | refine Step.cut lv ?_ ?_ | refine Answers.cut lv ?_ ?_); unfold lv; clear lv; rotate_left; intro hx; clear_value lv; revert lv; intro _ _) | (revert lv; intro _))
    | with_reducible apply Step.after step_stickIf
    | with_reducible apply Step.after step_fire
    | with_reducible apply Step.when
    | (with_reducible apply Step.foldl; intro fs fa)
    | (with_reducible apply Step.foldFin; intro fs fa)
    | (with_reducible apply Step.foldlFst; intro fs fa)
    | exact (fun _ => rfl)
    | (intro n; dsimp only; split <;> rfl)
    | (split; rename_i heq; have hx : (_ : State) = _ := congrArg Prod.snd heq; dsimp only at hx; subst hx)
    | (split; rename_i heq; have hx : (_ : State) = _ := congrArg Prod.fst heq; dsimp only at hx; subst hx)
    | (intro (n : Nvp) hn; simp only [Nvp.wf, Bool.and_eq_true] at hn ⊢; first | exact ⟨⟨nvpPuts_wf _ _ hn.1.1, hn.1.2⟩, hn.2⟩ | exact ⟨hn.1, rfl⟩)
    | (intro (n : Nvp) hn; split <;> (with_reducible exact Nvp.wf_of hn rfl rfl rfl))
    | (intro (n : Nvp) hn; with_reducible exact Nvp.wf_of hn rfl rfl rfl)
    | (intro (n : Otp) hn; split <;> (with_reducible exact Otp.wf_of hn rfl rfl rfl rfl))
    | (intro (n : Otp) hn; with_reducible exact Otp.wf_of hn rfl rfl rfl rfl)
    | (intro (n : Upd) hn; split <;> (with_reducible exact Upd.wf_of hn rfl))
    | (intro (n : Upd) hn; with_reducible exact Upd.wf_of hn rfl)
    | (intro (n : EvStore) hn; rw [EvStore.wf_iff] at *; first | exact ⟨cellsWf_put 0 _ _ _ hn.1, hn.2⟩ | exact ⟨hn.1, cellsWf_put _ _ _ _ hn.2⟩ | exact ⟨cellsWf_filter 0 _ _ hn.1, hn.2⟩)
    | (intro (n : EvStore) hn; split <;> (with_reducible exact EvStore.wf_of hn rfl rfl))
    | (intro (n : EvStore) hn; with_reducible exact EvStore.wf_of hn rfl rfl)
    | (intro (n : Bbx) hn; split <;> (with_reducible exact EvStore.wf_of hn rfl rfl))
    | (intro (n : Bbx) hn; with_reducible exact EvStore.wf_eq hn rfl)
    | (intro (n : Bbx) hn; with_reducible exact EvStore.wf_of hn rfl rfl)
    | split)

theorem step_energyAdd {s : State} {k : Fin 4} {p : Int} {per : Nat} : Step [.chans, .nvp] s (State.energyAdd s k p per) := by
  unfold State.energyAdd
  repeat' (first
    | with_reducible apply Step.refl
    | with_reducible assumption
    | exact Eq.refl true
    | ((conv => arg 3; arg 28); refine Step.put ?_)
    | (extract_lets +onlyGivenNames lv; first | ((first | refine Step.cut lv ?_ ?_ | refine Answers.cut lv ?_ ?_); unfold lv; clear lv; rotate_left; intro hx; clear_value lv; revert lv; intro _ _) | (revert lv; intro _))
    | with_reducible apply Step.after step_fireSat
    | split)

theorem step_energyStep {s : State} {p : Nat} : Step [.chans, .nvp] s (State.energyStep s p) := by
  unfold State.energyStep
  repeat' (first
    | with_reducible apply Step.refl
    | with_reducible assumption
    | exact Eq.refl true
    | (extract_lets +onlyGivenNames lv; first | ((first | refine Step.cut lv ?_ ?_ | refine Answers.cut lv ?_ ?_); unfold lv; clear lv; rotate_left; intro hx; clear_value lv; revert lv; intro _ _) | (revert lv; intro _))
    | with_reducible apply Step.after step_energyAdd
    | split)

theorem step_setCap {s : State} {k : Fin 32} {c : Int} : Step [.dkl] s (State.setCap s k c) := by
  unfold State.setCap
  repeat' (first
    | with_reducible apply Step.refl
    | with_reducible assumption
    | exact Eq.refl true
    | ((conv => arg 3; arg 28); refine Step.put ?_)
    | (extract_lets +onlyGivenNames lv; first | ((first | refine Step.cut lv ?_ ?_ | refine Answers.cut lv ?_ ?_); unfold lv; clear lv; rotate_left; intro hx; clear_value lv; revert lv; intro _ _) | (revert lv; intro _))
    | with_reducible apply Step.when
    | (with_reducible apply Step.foldl; intro fs fa)
    | (with_reducible apply Step.foldFin; intro fs fa)
    | (with_reducible apply Step.foldlFst; intro fs fa)
    | exact (fun _ => rfl)
    | (intro n; dsimp only; split <;> rfl)
    | (split; rename_i heq; have hx : (_ : State) = _ := congrArg Prod.snd heq; dsimp only at hx; subst hx)
    | (split; rename_i heq; have hx : (_ : State) = _ := congrArg Prod.fst heq; dsimp only at hx; subst hx)
    | (intro (n : Nvp) hn; simp only [Nvp.wf, Bool.and_eq_true] at hn ⊢; first | exact ⟨⟨nvpPuts_wf _ _ hn.1.1, hn.1.2⟩, hn.2⟩ | exact ⟨hn.1, rfl⟩)
    | (intro (n : Nvp) hn; split <;> (with_reducible exact Nvp.wf_of hn rfl rfl rfl))
    | (intro (n : Nvp) hn; with_reducible exact Nvp.wf_of hn rfl rfl rfl)
    | (intro (n : Otp) hn; split <;> (with_reducible exact Otp.wf_of hn rfl rfl rfl rfl))
    | (intro (n : Otp) hn; with_reducible exact Otp.wf_of hn rfl rfl rfl rfl)
    | (intro (n : Upd) hn; split <;> (with_reducible exact Upd.wf_of hn rfl))
    | (intro (n : Upd) hn; with_reducible exact Upd.wf_of hn rfl)
    | (intro (n : EvStore) hn; rw [EvStore.wf_iff] at *; first | exact ⟨cellsWf_put 0 _ _ _ hn.1, hn.2⟩ | exact ⟨hn.1, cellsWf_put _ _ _ _ hn.2⟩ | exact ⟨cellsWf_filter 0 _ _ hn.1, hn.2⟩)
    | (intro (n : EvStore) hn; split <;> (with_reducible exact EvStore.wf_of hn rfl rfl))
    | (intro (n : EvStore) hn; with_reducible exact EvStore.wf_of hn rfl rfl)
    | (intro (n : Bbx) hn; split <;> (with_reducible exact EvStore.wf_of hn rfl rfl))
    | (intro (n : Bbx) hn; with_reducible exact EvStore.wf_eq hn rfl)
    | (intro (n : Bbx) hn; with_reducible exact EvStore.wf_of hn rfl rfl)
    | split)

theorem step_cutClass {s : State} {l : List (Fin 32)} {x : Int} : Step [.dkl] s (State.cutClass s l x).1 := by
  unfold State.cutClass
  repeat' (first
    | with_reducible apply Step.refl
    | with_reducible assumption
    | exact Eq.refl true
    | ((conv => arg 3; arg 28); refine Step.put ?_)
    | (extract_lets +onlyGivenNames lv; first | ((first | refine Step.cut lv ?_ ?_ | refine Answers.cut lv ?_ ?_); unfold lv; clear lv; rotate_left; intro hx; clear_value lv; revert lv; intro _ _) | (revert lv; intro _))
    | with_reducible apply Step.after step_setCap
    | with_reducible apply Step.when
    | (with_reducible apply Step.foldl; intro fs fa)
    | (with_reducible apply Step.foldFin; intro fs fa)
    | (with_reducible apply Step.foldlFst; intro fs fa)
    | exact (fun _ => rfl)
    | (intro n; dsimp only; split <;> rfl)
    | (split; rename_i heq; have hx : (_ : State) = _ := congrArg Prod.snd heq; dsimp only at hx; subst hx)
    | (split; rename_i heq; have hx : (_ : State) = _ := congrArg Prod.fst heq; dsimp only at hx; subst hx)
    | (intro (n : Nvp) hn; simp only [Nvp.wf, Bool.and_eq_true] at hn ⊢; first | exact ⟨⟨nvpPuts_wf _ _ hn.1.1, hn.1.2⟩, hn.2⟩ | exact ⟨hn.1, rfl⟩)
    | (intro (n : Nvp) hn; split <;> (with_reducible exact Nvp.wf_of hn rfl rfl rfl))
    | (intro (n : Nvp) hn; with_reducible exact Nvp.wf_of hn rfl rfl rfl)
    | (intro (n : Otp) hn; split <;> (with_reducible exact Otp.wf_of hn rfl rfl rfl rfl))
    | (intro (n : Otp) hn; with_reducible exact Otp.wf_of hn rfl rfl rfl rfl)
    | (intro (n : Upd) hn; split <;> (with_reducible exact Upd.wf_of hn rfl))
    | (intro (n : Upd) hn; with_reducible exact Upd.wf_of hn rfl)
    | (intro (n : EvStore) hn; rw [EvStore.wf_iff] at *; first | exact ⟨cellsWf_put 0 _ _ _ hn.1, hn.2⟩ | exact ⟨hn.1, cellsWf_put _ _ _ _ hn.2⟩ | exact ⟨cellsWf_filter 0 _ _ hn.1, hn.2⟩)
    | (intro (n : EvStore) hn; split <;> (with_reducible exact EvStore.wf_of hn rfl rfl))
    | (intro (n : EvStore) hn; with_reducible exact EvStore.wf_of hn rfl rfl)
    | (intro (n : Bbx) hn; split <;> (with_reducible exact EvStore.wf_of hn rfl rfl))
    | (intro (n : Bbx) hn; with_reducible exact EvStore.wf_eq hn rfl)
    | (intro (n : Bbx) hn; with_reducible exact EvStore.wf_of hn rfl rfl)
    | split)

theorem step_cutFeed {s : State} {l : List (Fin 32)} {x : Int} : Step [.dkl] s (State.cutFeed s l x).1 := by
  unfold State.cutFeed
  repeat' (first
    | with_reducible apply Step.refl
    | with_reducible assumption
    | exact Eq.refl true
    | (extract_lets +onlyGivenNames lv; first | ((first | refine Step.cut lv ?_ ?_ | refine Answers.cut lv ?_ ?_); unfold lv; clear lv; rotate_left; intro hx; clear_value lv; revert lv; intro _ _) | (revert lv; intro _))
    | with_reducible apply Step.after step_cutClass
    | with_reducible apply Step.when
    | (with_reducible apply Step.foldl; intro fs fa)
    | (with_reducible apply Step.foldFin; intro fs fa)
    | (with_reducible apply Step.foldlFst; intro fs fa)
    | (split; rename_i heq; have hx : (_ : State) = _ := congrArg Prod.snd heq; dsimp only at hx; subst hx)
    | (split; rename_i heq; have hx : (_ : State) = _ := congrArg Prod.fst heq; dsimp only at hx; subst hx)
    | split)

theorem step_modFeed {s : State} {f : Fin 9} {g : Feed → Feed} : Step [.dkl] s (State.modFeed s f g) := by
  unfold State.modFeed
  repeat' (first
    | with_reducible apply Step.refl
    | with_reducible assumption
    | exact Eq.refl true
    | ((conv => arg 3; arg 28); refine Step.put ?_)
    | (extract_lets +onlyGivenNames lv; first | ((first | refine Step.cut lv ?_ ?_ | refine Answers.cut lv ?_ ?_); unfold lv; clear lv; rotate_left; intro hx; clear_value lv; revert lv; intro _ _) | (revert lv; intro _))
    | split)

theorem step_releaseFeed {s : State} {l : List (Fin 32)} {a : Int} : Step [.dkl] s (State.releaseFeed s l a) := by
  unfold State.releaseFeed
  repeat' (first
    | with_reducible apply Step.refl
    | with_reducible assumption
    | exact Eq.refl true
    | ((conv => arg 3; arg 28); refine Step.put ?_)
    | (extract_lets +onlyGivenNames lv; first | ((first | refine Step.cut lv ?_ ?_ | refine Answers.cut lv ?_ ?_); unfold lv; clear lv; rotate_left; intro hx; clear_value lv; revert lv; intro _ _) | (revert lv; intro _))
    | with_reducible apply Step.after step_setCap
    | with_reducible apply Step.when
    | (with_reducible apply Step.foldl; intro fs fa)
    | (with_reducible apply Step.foldFin; intro fs fa)
    | (with_reducible apply Step.foldlFst; intro fs fa)
    | exact (fun _ => rfl)
    | (intro n; dsimp only; split <;> rfl)
    | (split; rename_i heq; have hx : (_ : State) = _ := congrArg Prod.snd heq; dsimp only at hx; subst hx)
    | (split; rename_i heq; have hx : (_ : State) = _ := congrArg Prod.fst heq; dsimp only at hx; subst hx)
    | (intro (n : Nvp) hn; simp only [Nvp.wf, Bool.and_eq_true] at hn ⊢; first | exact ⟨⟨nvpPuts_wf _ _ hn.1.1, hn.1.2⟩, hn.2⟩ | exact ⟨hn.1, rfl⟩)
    | (intro (n : Nvp) hn; split <;> (with_reducible exact Nvp.wf_of hn rfl rfl rfl))
    | (intro (n : Nvp) hn; with_reducible exact Nvp.wf_of hn rfl rfl rfl)
    | (intro (n : Otp) hn; split <;> (with_reducible exact Otp.wf_of hn rfl rfl rfl rfl))
    | (intro (n : Otp) hn; with_reducible exact Otp.wf_of hn rfl rfl rfl rfl)
    | (intro (n : Upd) hn; split <;> (with_reducible exact Upd.wf_of hn rfl))
    | (intro (n : Upd) hn; with_reducible exact Upd.wf_of hn rfl)
    | (intro (n : EvStore) hn; rw [EvStore.wf_iff] at *; first | exact ⟨cellsWf_put 0 _ _ _ hn.1, hn.2⟩ | exact ⟨hn.1, cellsWf_put _ _ _ _ hn.2⟩ | exact ⟨cellsWf_filter 0 _ _ hn.1, hn.2⟩)
    | (intro (n : EvStore) hn; split <;> (with_reducible exact EvStore.wf_of hn rfl rfl))
    | (intro (n : EvStore) hn; with_reducible exact EvStore.wf_of hn rfl rfl)
    | (intro (n : Bbx) hn; split <;> (with_reducible exact EvStore.wf_of hn rfl rfl))
    | (intro (n : Bbx) hn; with_reducible exact EvStore.wf_eq hn rfl)
    | (intro (n : Bbx) hn; with_reducible exact EvStore.wf_of hn rfl rfl)
    | split)

theorem step_feedStep {s : State} {was : Fin 9 → Bool} {f : Fin 9} : Step [.chans, .dkl] s (State.feedStep s was f) := by
  unfold State.feedStep
  repeat' (first
    | with_reducible apply Step.refl
    | with_reducible assumption
    | exact Eq.refl true
    | ((conv => arg 3; arg 28); refine Step.put ?_)
    | (extract_lets +onlyGivenNames lv; first | ((first | refine Step.cut lv ?_ ?_ | refine Answers.cut lv ?_ ?_); unfold lv; clear lv; rotate_left; intro hx; clear_value lv; revert lv; intro _ _) | (revert lv; intro _))
    | with_reducible apply Step.after step_modFeed
    | with_reducible apply Step.after step_cutFeed
    | with_reducible apply Step.after step_fire
    | with_reducible apply Step.after step_releaseFeed
    | split)

theorem step_loadStep {s : State} {k : Fin 32} : Step [.dkl] s (State.loadStep s k) := by
  unfold State.loadStep
  repeat' (first
    | with_reducible apply Step.refl
    | with_reducible assumption
    | exact Eq.refl true
    | ((conv => arg 3; arg 28); refine Step.put ?_)
    | (extract_lets +onlyGivenNames lv; first | ((first | refine Step.cut lv ?_ ?_ | refine Answers.cut lv ?_ ?_); unfold lv; clear lv; rotate_left; intro hx; clear_value lv; revert lv; intro _ _) | (revert lv; intro _))
    | split)

theorem step_deckleRun {s : State} : Step [.chans, .dkl] s (State.deckleRun s) := by
  unfold State.deckleRun
  repeat' (first
    | with_reducible apply Step.refl
    | with_reducible assumption
    | exact Eq.refl true
    | ((conv => arg 3; arg 28); refine Step.put ?_)
    | (extract_lets +onlyGivenNames lv; first | ((first | refine Step.cut lv ?_ ?_ | refine Answers.cut lv ?_ ?_); unfold lv; clear lv; rotate_left; intro hx; clear_value lv; revert lv; intro _ _) | (revert lv; intro _))
    | with_reducible apply Step.after step_loadStep
    | with_reducible apply Step.after step_feedStep
    | with_reducible apply Step.after step_satEv
    | with_reducible apply Step.when
    | (with_reducible apply Step.foldl; intro fs fa)
    | (with_reducible apply Step.foldFin; intro fs fa)
    | (with_reducible apply Step.foldlFst; intro fs fa)
    | (split; rename_i heq; have hx : (_ : State) = _ := congrArg Prod.snd heq; dsimp only at hx; subst hx)
    | (split; rename_i heq; have hx : (_ : State) = _ := congrArg Prod.fst heq; dsimp only at hx; subst hx)
    | split)

theorem step_takeInputs {s : State} : Step [.pwm, .dkl, .slt] s (State.takeInputs s) := by
  unfold State.takeInputs
  repeat' (first
    | with_reducible apply Step.refl
    | with_reducible assumption
    | exact Eq.refl true
    | ((conv => arg 3; arg 28); refine Step.put ?_)
    | (extract_lets +onlyGivenNames lv; first | ((first | refine Step.cut lv ?_ ?_ | refine Answers.cut lv ?_ ?_); unfold lv; clear lv; rotate_left; intro hx; clear_value lv; revert lv; intro _ _) | (revert lv; intro _))
    | with_reducible apply Step.after step_modRail
    | with_reducible apply Step.when
    | (with_reducible apply Step.foldl; intro fs fa)
    | (with_reducible apply Step.foldFin; intro fs fa)
    | (with_reducible apply Step.foldlFst; intro fs fa)
    | (split; rename_i heq; have hx : (_ : State) = _ := congrArg Prod.snd heq; dsimp only at hx; subst hx)
    | (split; rename_i heq; have hx : (_ : State) = _ := congrArg Prod.fst heq; dsimp only at hx; subst hx)
    | split)

theorem step_holdupStop {s : State} : Step [.chans, .seq] s (State.holdupStop s) := by
  unfold State.holdupStop
  repeat' (first
    | with_reducible apply Step.refl
    | with_reducible assumption
    | exact Eq.refl true
    | ((conv => arg 3; arg 28); refine Step.put ?_)
    | (extract_lets +onlyGivenNames lv; first | ((first | refine Step.cut lv ?_ ?_ | refine Answers.cut lv ?_ ?_); unfold lv; clear lv; rotate_left; intro hx; clear_value lv; revert lv; intro _ _) | (revert lv; intro _))
    | with_reducible apply Step.after step_shelfShutdown
    | with_reducible apply Step.when
    | (with_reducible apply Step.foldl; intro fs fa)
    | (with_reducible apply Step.foldFin; intro fs fa)
    | (with_reducible apply Step.foldlFst; intro fs fa)
    | exact (fun _ => rfl)
    | (intro n; dsimp only; split <;> rfl)
    | (split; rename_i heq; have hx : (_ : State) = _ := congrArg Prod.snd heq; dsimp only at hx; subst hx)
    | (split; rename_i heq; have hx : (_ : State) = _ := congrArg Prod.fst heq; dsimp only at hx; subst hx)
    | (intro (n : Nvp) hn; simp only [Nvp.wf, Bool.and_eq_true] at hn ⊢; first | exact ⟨⟨nvpPuts_wf _ _ hn.1.1, hn.1.2⟩, hn.2⟩ | exact ⟨hn.1, rfl⟩)
    | (intro (n : Nvp) hn; split <;> (with_reducible exact Nvp.wf_of hn rfl rfl rfl))
    | (intro (n : Nvp) hn; with_reducible exact Nvp.wf_of hn rfl rfl rfl)
    | (intro (n : Otp) hn; split <;> (with_reducible exact Otp.wf_of hn rfl rfl rfl rfl))
    | (intro (n : Otp) hn; with_reducible exact Otp.wf_of hn rfl rfl rfl rfl)
    | (intro (n : Upd) hn; split <;> (with_reducible exact Upd.wf_of hn rfl))
    | (intro (n : Upd) hn; with_reducible exact Upd.wf_of hn rfl)
    | (intro (n : EvStore) hn; rw [EvStore.wf_iff] at *; first | exact ⟨cellsWf_put 0 _ _ _ hn.1, hn.2⟩ | exact ⟨hn.1, cellsWf_put _ _ _ _ hn.2⟩ | exact ⟨cellsWf_filter 0 _ _ hn.1, hn.2⟩)
    | (intro (n : EvStore) hn; split <;> (with_reducible exact EvStore.wf_of hn rfl rfl))
    | (intro (n : EvStore) hn; with_reducible exact EvStore.wf_of hn rfl rfl)
    | (intro (n : Bbx) hn; split <;> (with_reducible exact EvStore.wf_of hn rfl rfl))
    | (intro (n : Bbx) hn; with_reducible exact EvStore.wf_eq hn rfl)
    | (intro (n : Bbx) hn; with_reducible exact EvStore.wf_of hn rfl rfl)
    | split)

theorem step_snapStep {s : State} : Step [.freeCtr, .regs, .chans, .sys, .law, .pwm, .hbx, .dkl, .vat, .slt, .red, .seq, .nvp, .upd] s (State.snapStep s) := by
  unfold State.snapStep
  repeat' (first
    | with_reducible apply Step.refl
    | with_reducible assumption
    | exact Eq.refl true
    | ((conv => arg 3; arg 28); refine Step.put ?_)
    | (extract_lets +onlyGivenNames lv; first | ((first | refine Step.cut lv ?_ ?_ | refine Answers.cut lv ?_ ?_); unfold lv; clear lv; rotate_left; intro hx; clear_value lv; revert lv; intro _ _) | (revert lv; intro _))
    | with_reducible apply Step.after step_vatStep
    | with_reducible apply Step.after step_takeInputs
    | with_reducible apply Step.after step_dispAdopt
    | with_reducible apply Step.after step_energyStep
    | with_reducible apply Step.after step_feederStep
    | with_reducible apply Step.after step_holdupStep
    | with_reducible apply Step.after step_hbxDispatch
    | with_reducible apply Step.after step_lawFresh
    | with_reducible apply Step.after step_holdupStop
    | with_reducible apply Step.after step_bridgeStep
    | with_reducible apply Step.when
    | (with_reducible apply Step.foldl; intro fs fa)
    | (with_reducible apply Step.foldFin; intro fs fa)
    | (with_reducible apply Step.foldlFst; intro fs fa)
    | exact (fun _ => rfl)
    | (intro n; dsimp only; split <;> rfl)
    | (split; rename_i heq; have hx : (_ : State) = _ := congrArg Prod.snd heq; dsimp only at hx; subst hx)
    | (split; rename_i heq; have hx : (_ : State) = _ := congrArg Prod.fst heq; dsimp only at hx; subst hx)
    | (intro (n : Nvp) hn; simp only [Nvp.wf, Bool.and_eq_true] at hn ⊢; first | exact ⟨⟨nvpPuts_wf _ _ hn.1.1, hn.1.2⟩, hn.2⟩ | exact ⟨hn.1, rfl⟩)
    | (intro (n : Nvp) hn; split <;> (with_reducible exact Nvp.wf_of hn rfl rfl rfl))
    | (intro (n : Nvp) hn; with_reducible exact Nvp.wf_of hn rfl rfl rfl)
    | (intro (n : Otp) hn; split <;> (with_reducible exact Otp.wf_of hn rfl rfl rfl rfl))
    | (intro (n : Otp) hn; with_reducible exact Otp.wf_of hn rfl rfl rfl rfl)
    | (intro (n : Upd) hn; split <;> (with_reducible exact Upd.wf_of hn rfl))
    | (intro (n : Upd) hn; with_reducible exact Upd.wf_of hn rfl)
    | (intro (n : EvStore) hn; rw [EvStore.wf_iff] at *; first | exact ⟨cellsWf_put 0 _ _ _ hn.1, hn.2⟩ | exact ⟨hn.1, cellsWf_put _ _ _ _ hn.2⟩ | exact ⟨cellsWf_filter 0 _ _ hn.1, hn.2⟩)
    | (intro (n : EvStore) hn; split <;> (with_reducible exact EvStore.wf_of hn rfl rfl))
    | (intro (n : EvStore) hn; with_reducible exact EvStore.wf_of hn rfl rfl)
    | (intro (n : Bbx) hn; split <;> (with_reducible exact EvStore.wf_of hn rfl rfl))
    | (intro (n : Bbx) hn; with_reducible exact EvStore.wf_eq hn rfl)
    | (intro (n : Bbx) hn; with_reducible exact EvStore.wf_of hn rfl rfl)
    | split)

theorem step_execDspSnapshot {s : State} : Answers [.time, .freeCtr, .regs, .chans, .sys, .law, .pwm, .hbx, .dkl, .vat, .slt, .red, .seq, .nvp, .upd] s (execDspSnapshot s) := by
  unfold execDspSnapshot
  repeat' (first
    | with_reducible apply Step.refl
    | with_reducible assumption
    | exact Eq.refl true
    | with_reducible apply Answers.ok
    | ((conv => arg 3; arg 28); refine Step.put ?_)
    | (extract_lets +onlyGivenNames lv; first | ((first | refine Step.cut lv ?_ ?_ | refine Answers.cut lv ?_ ?_); unfold lv; clear lv; rotate_left; intro hx; clear_value lv; revert lv; intro _ _) | (revert lv; intro _))
    | with_reducible apply Step.after step_snapStep
    | with_reducible apply Step.when
    | (with_reducible refine Step.periodAt rfl ?_ (fun u => ?_))
    | (with_reducible apply Step.foldl; intro fs fa)
    | (with_reducible apply Step.foldFin; intro fs fa)
    | (with_reducible apply Step.foldlFst; intro fs fa)
    | exact (fun _ => rfl)
    | (intro n; dsimp only; split <;> rfl)
    | (split; rename_i heq; have hx : (_ : State) = _ := congrArg Prod.snd heq; dsimp only at hx; subst hx)
    | (split; rename_i heq; have hx : (_ : State) = _ := congrArg Prod.fst heq; dsimp only at hx; subst hx)
    | (intro (n : Nvp) hn; simp only [Nvp.wf, Bool.and_eq_true] at hn ⊢; first | exact ⟨⟨nvpPuts_wf _ _ hn.1.1, hn.1.2⟩, hn.2⟩ | exact ⟨hn.1, rfl⟩)
    | (intro (n : Nvp) hn; split <;> (with_reducible exact Nvp.wf_of hn rfl rfl rfl))
    | (intro (n : Nvp) hn; with_reducible exact Nvp.wf_of hn rfl rfl rfl)
    | (intro (n : Otp) hn; split <;> (with_reducible exact Otp.wf_of hn rfl rfl rfl rfl))
    | (intro (n : Otp) hn; with_reducible exact Otp.wf_of hn rfl rfl rfl rfl)
    | (intro (n : Upd) hn; split <;> (with_reducible exact Upd.wf_of hn rfl))
    | (intro (n : Upd) hn; with_reducible exact Upd.wf_of hn rfl)
    | (intro (n : EvStore) hn; rw [EvStore.wf_iff] at *; first | exact ⟨cellsWf_put 0 _ _ _ hn.1, hn.2⟩ | exact ⟨hn.1, cellsWf_put _ _ _ _ hn.2⟩ | exact ⟨cellsWf_filter 0 _ _ hn.1, hn.2⟩)
    | (intro (n : EvStore) hn; split <;> (with_reducible exact EvStore.wf_of hn rfl rfl))
    | (intro (n : EvStore) hn; with_reducible exact EvStore.wf_of hn rfl rfl)
    | (intro (n : Bbx) hn; split <;> (with_reducible exact EvStore.wf_of hn rfl rfl))
    | (intro (n : Bbx) hn; with_reducible exact EvStore.wf_eq hn rfl)
    | (intro (n : Bbx) hn; with_reducible exact EvStore.wf_of hn rfl rfl)
    | split)

theorem step_execHuExit {s : State} : Answers [.time, .regs, .chans, .sys, .vat, .upd] s (execHuExit s) := by
  unfold execHuExit
  repeat' (first
    | with_reducible apply Step.refl
    | with_reducible assumption
    | exact Eq.refl true
    | with_reducible apply Answers.ok
    | ((conv => arg 3; arg 28); refine Step.put ?_)
    | (extract_lets +onlyGivenNames lv; first | ((first | refine Step.cut lv ?_ ?_ | refine Answers.cut lv ?_ ?_); unfold lv; clear lv; rotate_left; intro hx; clear_value lv; revert lv; intro _ _) | (revert lv; intro _))
    | with_reducible apply Step.after step_huLeave
    | with_reducible apply Step.when
    | (with_reducible refine Step.whenDue rfl ?_ (fun u => ?_))
    | (with_reducible apply Step.foldl; intro fs fa)
    | (with_reducible apply Step.foldFin; intro fs fa)
    | (with_reducible apply Step.foldlFst; intro fs fa)
    | exact (fun _ => rfl)
    | (intro n; dsimp only; split <;> rfl)
    | (split; rename_i heq; have hx : (_ : State) = _ := congrArg Prod.snd heq; dsimp only at hx; subst hx)
    | (split; rename_i heq; have hx : (_ : State) = _ := congrArg Prod.fst heq; dsimp only at hx; subst hx)
    | (intro (n : Nvp) hn; simp only [Nvp.wf, Bool.and_eq_true] at hn ⊢; first | exact ⟨⟨nvpPuts_wf _ _ hn.1.1, hn.1.2⟩, hn.2⟩ | exact ⟨hn.1, rfl⟩)
    | (intro (n : Nvp) hn; split <;> (with_reducible exact Nvp.wf_of hn rfl rfl rfl))
    | (intro (n : Nvp) hn; with_reducible exact Nvp.wf_of hn rfl rfl rfl)
    | (intro (n : Otp) hn; split <;> (with_reducible exact Otp.wf_of hn rfl rfl rfl rfl))
    | (intro (n : Otp) hn; with_reducible exact Otp.wf_of hn rfl rfl rfl rfl)
    | (intro (n : Upd) hn; split <;> (with_reducible exact Upd.wf_of hn rfl))
    | (intro (n : Upd) hn; with_reducible exact Upd.wf_of hn rfl)
    | (intro (n : EvStore) hn; rw [EvStore.wf_iff] at *; first | exact ⟨cellsWf_put 0 _ _ _ hn.1, hn.2⟩ | exact ⟨hn.1, cellsWf_put _ _ _ _ hn.2⟩ | exact ⟨cellsWf_filter 0 _ _ hn.1, hn.2⟩)
    | (intro (n : EvStore) hn; split <;> (with_reducible exact EvStore.wf_of hn rfl rfl))
    | (intro (n : EvStore) hn; with_reducible exact EvStore.wf_of hn rfl rfl)
    | (intro (n : Bbx) hn; split <;> (with_reducible exact EvStore.wf_of hn rfl rfl))
    | (intro (n : Bbx) hn; with_reducible exact EvStore.wf_eq hn rfl)
    | (intro (n : Bbx) hn; with_reducible exact EvStore.wf_of hn rfl rfl)
    | split)

theorem step_execHbxResultsRelease {s : State} : Answers [.time, .chans, .hbx, .dkl] s (execHbxResultsRelease s) := by
  unfold execHbxResultsRelease
  repeat' (first
    | with_reducible apply Step.refl
    | with_reducible assumption
    | exact Eq.refl true
    | with_reducible apply Answers.ok
    | ((conv => arg 3; arg 28); refine Step.put ?_)
    | (extract_lets +onlyGivenNames lv; first | ((first | refine Step.cut lv ?_ ?_ | refine Answers.cut lv ?_ ?_); unfold lv; clear lv; rotate_left; intro hx; clear_value lv; revert lv; intro _ _) | (revert lv; intro _))
    | with_reducible apply Step.after step_deckleRun
    | with_reducible apply Step.when
    | (with_reducible refine Step.periodAt rfl ?_ (fun u => ?_))
    | (with_reducible apply Step.foldl; intro fs fa)
    | (with_reducible apply Step.foldFin; intro fs fa)
    | (with_reducible apply Step.foldlFst; intro fs fa)
    | exact (fun _ => rfl)
    | (intro n; dsimp only; split <;> rfl)
    | (split; rename_i heq; have hx : (_ : State) = _ := congrArg Prod.snd heq; dsimp only at hx; subst hx)
    | (split; rename_i heq; have hx : (_ : State) = _ := congrArg Prod.fst heq; dsimp only at hx; subst hx)
    | (intro (n : Nvp) hn; simp only [Nvp.wf, Bool.and_eq_true] at hn ⊢; first | exact ⟨⟨nvpPuts_wf _ _ hn.1.1, hn.1.2⟩, hn.2⟩ | exact ⟨hn.1, rfl⟩)
    | (intro (n : Nvp) hn; split <;> (with_reducible exact Nvp.wf_of hn rfl rfl rfl))
    | (intro (n : Nvp) hn; with_reducible exact Nvp.wf_of hn rfl rfl rfl)
    | (intro (n : Otp) hn; split <;> (with_reducible exact Otp.wf_of hn rfl rfl rfl rfl))
    | (intro (n : Otp) hn; with_reducible exact Otp.wf_of hn rfl rfl rfl rfl)
    | (intro (n : Upd) hn; split <;> (with_reducible exact Upd.wf_of hn rfl))
    | (intro (n : Upd) hn; with_reducible exact Upd.wf_of hn rfl)
    | (intro (n : EvStore) hn; rw [EvStore.wf_iff] at *; first | exact ⟨cellsWf_put 0 _ _ _ hn.1, hn.2⟩ | exact ⟨hn.1, cellsWf_put _ _ _ _ hn.2⟩ | exact ⟨cellsWf_filter 0 _ _ hn.1, hn.2⟩)
    | (intro (n : EvStore) hn; split <;> (with_reducible exact EvStore.wf_of hn rfl rfl))
    | (intro (n : EvStore) hn; with_reducible exact EvStore.wf_of hn rfl rfl)
    | (intro (n : Bbx) hn; split <;> (with_reducible exact EvStore.wf_of hn rfl rfl))
    | (intro (n : Bbx) hn; with_reducible exact EvStore.wf_eq hn rfl)
    | (intro (n : Bbx) hn; with_reducible exact EvStore.wf_of hn rfl rfl)
    | split)

theorem step_execResultsDelivery {s : State} : Answers [.time, .pwm, .hbx, .dkl, .red] s (execResultsDelivery s) := by
  unfold execResultsDelivery
  repeat' (first
    | with_reducible apply Step.refl
    | with_reducible assumption
    | exact Eq.refl true
    | with_reducible apply Answers.ok
    | ((conv => arg 3; arg 28); refine Step.put ?_)
    | (extract_lets +onlyGivenNames lv; first | ((first | refine Step.cut lv ?_ ?_ | refine Answers.cut lv ?_ ?_); unfold lv; clear lv; rotate_left; intro hx; clear_value lv; revert lv; intro _ _) | (revert lv; intro _))
    | with_reducible apply Step.when
    | (with_reducible refine Step.periodAt rfl ?_ (fun u => ?_))
    | (with_reducible apply Step.foldl; intro fs fa)
    | (with_reducible apply Step.foldFin; intro fs fa)
    | (with_reducible apply Step.foldlFst; intro fs fa)
    | exact (fun _ => rfl)
    | (intro n; dsimp only; split <;> rfl)
    | (split; rename_i heq; have hx : (_ : State) = _ := congrArg Prod.snd heq; dsimp only at hx; subst hx)
    | (split; rename_i heq; have hx : (_ : State) = _ := congrArg Prod.fst heq; dsimp only at hx; subst hx)
    | (intro (n : Nvp) hn; simp only [Nvp.wf, Bool.and_eq_true] at hn ⊢; first | exact ⟨⟨nvpPuts_wf _ _ hn.1.1, hn.1.2⟩, hn.2⟩ | exact ⟨hn.1, rfl⟩)
    | (intro (n : Nvp) hn; split <;> (with_reducible exact Nvp.wf_of hn rfl rfl rfl))
    | (intro (n : Nvp) hn; with_reducible exact Nvp.wf_of hn rfl rfl rfl)
    | (intro (n : Otp) hn; split <;> (with_reducible exact Otp.wf_of hn rfl rfl rfl rfl))
    | (intro (n : Otp) hn; with_reducible exact Otp.wf_of hn rfl rfl rfl rfl)
    | (intro (n : Upd) hn; split <;> (with_reducible exact Upd.wf_of hn rfl))
    | (intro (n : Upd) hn; with_reducible exact Upd.wf_of hn rfl)
    | (intro (n : EvStore) hn; rw [EvStore.wf_iff] at *; first | exact ⟨cellsWf_put 0 _ _ _ hn.1, hn.2⟩ | exact ⟨hn.1, cellsWf_put _ _ _ _ hn.2⟩ | exact ⟨cellsWf_filter 0 _ _ hn.1, hn.2⟩)
    | (intro (n : EvStore) hn; split <;> (with_reducible exact EvStore.wf_of hn rfl rfl))
    | (intro (n : EvStore) hn; with_reducible exact EvStore.wf_of hn rfl rfl)
    | (intro (n : Bbx) hn; split <;> (with_reducible exact EvStore.wf_of hn rfl rfl))
    | (intro (n : Bbx) hn; with_reducible exact EvStore.wf_eq hn rfl)
    | (intro (n : Bbx) hn; with_reducible exact EvStore.wf_of hn rfl rfl)
    | split)

theorem step_execShedClear {s : State} : Answers [.dkl] s (execShedClear s) := by
  unfold execShedClear
  repeat' (first
    | with_reducible apply Step.refl
    | with_reducible assumption
    | exact Eq.refl true
    | with_reducible apply Answers.ok
    | ((conv => arg 3; arg 28); refine Step.put ?_)
    | (extract_lets +onlyGivenNames lv; first | ((first | refine Step.cut lv ?_ ?_ | refine Answers.cut lv ?_ ?_); unfold lv; clear lv; rotate_left; intro hx; clear_value lv; revert lv; intro _ _) | (revert lv; intro _))
    | with_reducible apply Step.when
    | (with_reducible apply Step.foldl; intro fs fa)
    | (with_reducible apply Step.foldFin; intro fs fa)
    | (with_reducible apply Step.foldlFst; intro fs fa)
    | (split; rename_i heq; have hx : (_ : State) = _ := congrArg Prod.snd heq; dsimp only at hx; subst hx)
    | (split; rename_i heq; have hx : (_ : State) = _ := congrArg Prod.fst heq; dsimp only at hx; subst hx)
    | split)

end Sys2Proof.Machine
end

