-- ==== Sys2Proof/Laws/FrameLinks.lean ====
section
/-! SUPPORT. What each operation and each command may change, and that it keeps the addressed stores in form: slot links, redundancy, Chezon, the shelf tick.
The parts a lemma lists are those of `Sys2Proof.Machine.Part`; every other part stands as it was. -/

set_option Elab.async false
set_option maxRecDepth 4000

namespace Sys2Proof.Machine

/-! ### Package -/

theorem step_flashWrite {s : State} {a : Nat} {bs : List Byte} : Step [.upd, .flash] s (State.flashWrite s a bs) := by
  unfold State.flashWrite
  exact Step.put Step.refl (w_upd := fun h => keysRise_ins (fun p : Byte × Nat => a + p.2) Prod.fst _ _ h)

/-! ### Slots -/

theorem step_modSlt {s : State} {k : Fin 32} {f : Slt → Slt} : Step [.slt] s (State.modSlt s k f) := by
  unfold State.modSlt
  repeat' (first
    | with_reducible apply Step.refl
    | with_reducible assumption
    | exact Eq.refl true
    | ((conv => arg 3; arg 28); refine Step.put ?_)
    | (extract_lets +onlyGivenNames lv; first | ((first | refine Step.cut lv ?_ ?_ | refine Answers.cut lv ?_ ?_); unfold lv; clear lv; rotate_left; intro hx; clear_value lv; revert lv; intro _ _) | (revert lv; intro _))
    | split)

theorem step_slotEvent {s : State} {k : Fin 32} {cause : Nat} {mid : Nat} {hi : Int} : Step [.chans] s (State.slotEvent s k cause mid hi) := by
  unfold State.slotEvent
  repeat' (first
    | with_reducible apply Step.refl
    | with_reducible assumption
    | exact Eq.refl true
    | (extract_lets +onlyGivenNames lv; first | ((first | refine Step.cut lv ?_ ?_ | refine Answers.cut lv ?_ ?_); unfold lv; clear lv; rotate_left; intro hx; clear_value lv; revert lv; intro _ _) | (revert lv; intro _))
    | with_reducible apply Step.after step_fire
    | split)

theorem step_mbResult {s : State} {q : MbReq} {r : CmdRes} : Step [.hst] s (State.mbResult s q r) := by
  unfold State.mbResult
  repeat' (first
    | with_reducible apply Step.refl
    | with_reducible assumption
    | exact Eq.refl true
    | ((conv => arg 3; arg 28); refine Step.put ?_)
    | (extract_lets +onlyGivenNames lv; first | ((first | refine Step.cut lv ?_ ?_ | refine Answers.cut lv ?_ ?_); unfold lv; clear lv; rotate_left; intro hx; clear_value lv; revert lv; intro _ _) | (revert lv; intro _))
    | split)

theorem step_fwEnd {s : State} {k : Fin 32} : Step [.slt, .upd] s (State.fwEnd s k) := by
  unfold State.fwEnd
  split
  · exact Step.put (Step.after step_modSlt rfl Step.refl) (w_upd := fun h => h)
  · exact Step.refl

theorem step_mbSend {s s1 : State} {k : Fin 32} {host : Option (Fin 4 × BitVec 16)} {type : Byte} {rest : List Byte}
    (h : s.mbSend k host type rest = some s1) : Step [.slt] s s1 := by
  obtain ⟨t, _, rfl⟩ := Option.map_eq_some_iff.1 h
  exact step_modSlt

theorem step_fwPump {s : State} {k : Fin 32} : Step [.freeCtr, .slt] s (State.fwPump s k) := by
  unfold State.fwPump
  split
  · split
    · exact Step.refl
    · extract_lets m
      split
      · rename_i heq
        have h1 : Step [.freeCtr, .slt] s _ := Step.after (step_mbSend heq) rfl Step.refl
        refine Step.after step_modSlt rfl ?_
        split
        · exact Step.after step_drawn rfl h1
        · exact h1
      · exact Step.refl
  · exact Step.refl

theorem step_fwStep {s : State} {k : Fin 32} {status : Nat} : Step [.slt, .upd] s (State.fwStep s k status) := by
  unfold State.fwStep
  split
  · split
    · exact Step.after step_fwEnd rfl Step.refl
    · split
      · exact Step.after step_modSlt rfl Step.refl
      · exact Step.put (Step.after step_modSlt rfl Step.refl) (w_upd := fun h => h)
  · exact Step.refl

theorem step_mbxReset {s : State} {k : Fin 32} : Step [.slt, .slot, .upd, .hst] s (State.mbxReset s k) := by
  unfold State.mbxReset
  repeat' (first
    | with_reducible apply Step.refl
    | with_reducible assumption
    | exact Eq.refl true
    | ((conv => arg 3; arg 28); refine Step.put ?_)
    | (extract_lets +onlyGivenNames lv; first | ((first | refine Step.cut lv ?_ ?_ | refine Answers.cut lv ?_ ?_); unfold lv; clear lv; rotate_left; intro hx; clear_value lv; revert lv; intro _ _) | (revert lv; intro _))
    | with_reducible apply Step.after step_mbResult
    | with_reducible apply Step.after step_modSlt
    | with_reducible apply Step.after step_fwEnd
    | with_reducible apply Step.when
    | (with_reducible apply Step.foldl; intro fs fa)
    | (with_reducible apply Step.foldFin; intro fs fa)
    | (with_reducible apply Step.foldlFst; intro fs fa)
    | exact (fun _ => rfl)
    | (intro n; dsimp only; split <;> rfl)
    | (split; rename_i heq; have hx : (_ : State) = _ := congrArg Prod.snd heq; dsimp only at hx; subst hx)
    | (split; rename_i heq; have hx : (_ : State) = _ := congrArg Prod.fst heq; dsimp only at hx; subst hx)
    | (intro (n : Nvp) hn; simp only [Nvp.wf, Bool.and_eq_true] at hn ⊢; first | exact ⟨⟨nvpPuts_wf _ _ hn.1.1, hn.1.2⟩, hn.2⟩ | exact ⟨hn.1, rfl⟩)
    | (intro (n : Nvp) hn; split <;> (with_reducible exact Nvp.wf_of hn rfl rfl rfl))
    | (intro (n : Nvp) hn; with_reducible exact Nvp.wf_of hn rfl rfl rfl)
    | (intro (n : Otp) hn; split <;> (with_reducible exact Otp.wf_of hn rfl rfl rfl rfl))
    | (intro (n : Otp) hn; with_reducible exact Otp.wf_of hn rfl rfl rfl rfl)
    | (intro (n : Upd) hn; split <;> (with_reducible exact Upd.wf_of hn rfl))
    | (intro (n : Upd) hn; with_reducible exact Upd.wf_of hn rfl)
    | (intro (n : EvStore) hn; rw [EvStore.wf_iff] at *; first | exact ⟨cellsWf_put 0 _ _ _ hn.1, hn.2⟩ | exact ⟨hn.1, cellsWf_put _ _ _ _ hn.2⟩ | exact ⟨cellsWf_filter 0 _ _ hn.1, hn.2⟩)
    | (intro (n : EvStore) hn; split <;> (with_reducible exact EvStore.wf_of hn rfl rfl))
    | (intro (n : EvStore) hn; with_reducible exact EvStore.wf_of hn rfl rfl)
    | (intro (n : Bbx) hn; split <;> (with_reducible exact EvStore.wf_of hn rfl rfl))
    | (intro (n : Bbx) hn; with_reducible exact EvStore.wf_eq hn rfl)
    | (intro (n : Bbx) hn; with_reducible exact EvStore.wf_of hn rfl rfl)
    | split)

theorem step_toTrain {s : State} {k : Fin 32} : Step [.chans, .slt, .slot, .upd, .hst] s (State.toTrain s k) := by
  unfold State.toTrain
  repeat' (first
    | with_reducible apply Step.refl
    | with_reducible assumption
    | exact Eq.refl true
    | ((conv => arg 3; arg 28); refine Step.put ?_)
    | (extract_lets +onlyGivenNames lv; first | ((first | refine Step.cut lv ?_ ?_ | refine Answers.cut lv ?_ ?_); unfold lv; clear lv; rotate_left; intro hx; clear_value lv; revert lv; intro _ _) | (revert lv; intro _))
    | with_reducible apply Step.after step_satEv
    | with_reducible apply Step.after step_modSlt
    | with_reducible apply Step.after step_mbxReset
    | split)

theorem step_linkSync {s : State} {k : Fin 32} : Step [.chans, .slt, .slot, .upd, .hst] s (State.linkSync s k) := by
  unfold State.linkSync
  repeat' (first
    | with_reducible apply Step.refl
    | with_reducible assumption
    | exact Eq.refl true
    | (extract_lets +onlyGivenNames lv; first | ((first | refine Step.cut lv ?_ ?_ | refine Answers.cut lv ?_ ?_); unfold lv; clear lv; rotate_left; intro hx; clear_value lv; revert lv; intro _ _) | (revert lv; intro _))
    | with_reducible apply Step.after step_modSlt
    | with_reducible apply Step.after step_mbxReset
    | with_reducible apply Step.after step_toTrain
    | split)

theorem step_linkUpNow {s : State} {k : Fin 32} {d : Byte × Nat × Byte} : Step [.regs, .chans, .hbx, .dkl, .slt] s (State.linkUpNow s k d) := by
  unfold State.linkUpNow
  repeat' (first
    | with_reducible apply Step.refl
    | with_reducible assumption
    | exact Eq.refl true
    | ((conv => arg 3; arg 28); refine Step.put ?_)
    | (extract_lets +onlyGivenNames lv; first | ((first | refine Step.cut lv ?_ ?_ | refine Answers.cut lv ?_ ?_); unfold lv; clear lv; rotate_left; intro hx; clear_value lv; revert lv; intro _ _) | (revert lv; intro _))
    | with_reducible apply Step.after step_modSlt
    | with_reducible apply Step.after step_modSrc
    | with_reducible apply Step.after step_slotEvent
    | with_reducible apply Step.after step_stick
    | split)

theorem step_declStep {s : State} {k : Fin 32} {d : Byte × Nat × Byte} : Step [.regs, .chans, .hbx, .dkl, .slt, .slot, .upd, .hst] s (State.declStep s k d) := by
  unfold State.declStep
  repeat' (first
    | with_reducible apply Step.refl
    | with_reducible assumption
    | exact Eq.refl true
    | (extract_lets +onlyGivenNames lv; first | ((first | refine Step.cut lv ?_ ?_ | refine Answers.cut lv ?_ ?_); unfold lv; clear lv; rotate_left; intro hx; clear_value lv; revert lv; intro _ _) | (revert lv; intro _))
    | with_reducible apply Step.after step_modSlt
    | with_reducible apply Step.after step_toTrain
    | with_reducible apply Step.after step_slotEvent
    | with_reducible apply Step.after step_stick
    | with_reducible apply Step.after step_linkUpNow
    | split)

theorem step_statusEvents {s : State} {k : Fin 32} {old : Nat} {new : Nat} {i : Int} : Step [.chans] s (State.statusEvents s k old new i) := by
  unfold State.statusEvents
  repeat' (first
    | with_reducible apply Step.refl
    | with_reducible assumption
    | exact Eq.refl true
    | (extract_lets +onlyGivenNames lv; first | ((first | refine Step.cut lv ?_ ?_ | refine Answers.cut lv ?_ ?_); unfold lv; clear lv; rotate_left; intro hx; clear_value lv; revert lv; intro _ _) | (revert lv; intro _))
    | with_reducible apply Step.after step_slotEvent
    | split)

theorem step_mbMessage {s : State} {k : Fin 32} {m : List Byte} : Step [.regs, .chans, .slt, .upd, .hst] s (State.mbMessage s k m) := by
  unfold State.mbMessage
  repeat' (first
    | with_reducible apply Step.refl
    | with_reducible assumption
    | exact Eq.refl true
    | (extract_lets +onlyGivenNames lv; first | ((first | refine Step.cut lv ?_ ?_ | refine Answers.cut lv ?_ ?_); unfold lv; clear lv; rotate_left; intro hx; clear_value lv; revert lv; intro _ _) | (revert lv; intro _))
    | with_reducible apply Step.after step_modSlt
    | with_reducible apply Step.after step_mbResult
    | with_reducible apply Step.after step_fwStep
    | with_reducible apply Step.after step_slotEvent
    | with_reducible apply Step.after step_stick
    | with_reducible apply Step.when
    | (with_reducible apply Step.foldl; intro fs fa)
    | (with_reducible apply Step.foldFin; intro fs fa)
    | (with_reducible apply Step.foldlFst; intro fs fa)
    | (split; rename_i heq; have hx : (_ : State) = _ := congrArg Prod.snd heq; dsimp only at hx; subst hx)
    | (split; rename_i heq; have hx : (_ : State) = _ := congrArg Prod.fst heq; dsimp only at hx; subst hx)
    | split)

theorem step_mbReceive {s : State} {k : Fin 32} {p : List Byte} : Step [.freeCtr, .regs, .chans, .slt, .upd, .hst] s (State.mbReceive s k p) := by
  unfold State.mbReceive
  repeat' (first
    | with_reducible apply Step.refl
    | with_reducible assumption
    | exact Eq.refl true
    | (extract_lets +onlyGivenNames lv; first | ((first | refine Step.cut lv ?_ ?_ | refine Answers.cut lv ?_ ?_); unfold lv; clear lv; rotate_left; intro hx; clear_value lv; revert lv; intro _ _) | (revert lv; intro _))
    | with_reducible apply Step.after step_modSlt
    | with_reducible apply Step.after step_fwPump
    | with_reducible apply Step.after step_mbMessage
    | with_reducible apply Step.after step_slotEvent
    | with_reducible apply Step.after step_stick
    | split)

theorem step_badUplink {s : State} {k : Fin 32} {f : Frame} : Step [.regs, .chans, .slt] s (State.badUplink s k f) := by
  unfold State.badUplink
  repeat' (first
    | with_reducible apply Step.refl
    | with_reducible assumption
    | exact Eq.refl true
    | (extract_lets +onlyGivenNames lv; first | ((first | refine Step.cut lv ?_ ?_ | refine Answers.cut lv ?_ ?_); unfold lv; clear lv; rotate_left; intro hx; clear_value lv; revert lv; intro _ _) | (revert lv; intro _))
    | with_reducible apply Step.after step_stick
    | with_reducible apply Step.after step_modSlt
    | with_reducible apply Step.after step_satIf
    | with_reducible apply Step.after step_slotEvent
    | split)

theorem step_execUplinkFrameReceived {k : Fin 32} {f0 : Frame} {s0 : State} : Answers [.freeCtr, .regs, .chans, .hbx, .dkl, .slt, .slot, .upd, .hst] s0 (execUplinkFrameReceived k f0 s0) := by
  unfold execUplinkFrameReceived
  repeat' (first
    | with_reducible apply Step.refl
    | with_reducible assumption
    | exact Eq.refl true
    | with_reducible apply Answers.ok
    | (extract_lets +onlyGivenNames lv; first | ((first | refine Step.cut lv ?_ ?_ | refine Answers.cut lv ?_ ?_); unfold lv; clear lv; rotate_left; intro hx; clear_value lv; revert lv; intro _ _) | (revert lv; intro _))
    | with_reducible apply Step.after step_badUplink
    | with_reducible apply Step.after step_linkSync
    | with_reducible apply Step.after step_modSlt
    | with_reducible apply Step.after step_stickIf
    | with_reducible apply Step.after step_satIf
    | with_reducible apply Step.after step_statusEvents
    | with_reducible apply Step.after step_mbReceive
    | with_reducible apply Step.after step_declStep
    | split)

theorem step_execLinkLost {k : Fin 32} {s : State} : Answers [.time, .regs, .chans, .slt, .slot, .upd, .hst] s (execLinkLost k s) := by
  unfold execLinkLost
  repeat' (first
    | with_reducible apply Step.refl
    | with_reducible assumption
    | exact Eq.refl true
    | with_reducible apply Answers.ok
    | ((conv => arg 3; arg 28); refine Step.put ?_)
    | (extract_lets +onlyGivenNames lv; first | ((first | refine Step.cut lv ?_ ?_ | refine Answers.cut lv ?_ ?_); unfold lv; clear lv; rotate_left; intro hx; clear_value lv; revert lv; intro _ _) | (revert lv; intro _))
    | with_reducible apply Step.after step_stick
    | with_reducible apply Step.after step_toTrain
    | with_reducible apply Step.after step_slotEvent
    | with_reducible apply Step.when
    | (with_reducible refine Step.whenDue rfl ?_ (fun u => ?_))
    | (with_reducible apply Step.foldl; intro fs fa)
    | (with_reducible apply Step.foldFin; intro fs fa)
    | (with_reducible apply Step.foldlFst; intro fs fa)
    | exact (fun _ => rfl)
    | (intro n; dsimp only; split <;> rfl)
    | (split; rename_i heq; have hx : (_ : State) = _ := congrArg Prod.snd heq; dsimp only at hx; subst hx)
    | (split; rename_i heq; have hx : (_ : State) = _ := congrArg Prod.fst heq; dsimp only at hx; subst hx)
    | (intro (n : Nvp) hn; simp only [Nvp.wf, Bool.and_eq_true] at hn ⊢; first | exact ⟨⟨nvpPuts_wf _ _ hn.1.1, hn.1.2⟩, hn.2⟩ | exact ⟨hn.1, rfl⟩)
    | (intro (n : Nvp) hn; split <;> (with_reducible exact Nvp.wf_of hn rfl rfl rfl))
    | (intro (n : Nvp) hn; with_reducible exact Nvp.wf_of hn rfl rfl rfl)
    | (intro (n : Otp) hn; split <;> (with_reducible exact Otp.wf_of hn rfl rfl rfl rfl))
    | (intro (n : Otp) hn; with_reducible exact Otp.wf_of hn rfl rfl rfl rfl)
    | (intro (n : Upd) hn; split <;> (with_reducible exact Upd.wf_of hn rfl))
    | (intro (n : Upd) hn; with_reducible exact Upd.wf_of hn rfl)
    | (intro (n : EvStore) hn; rw [EvStore.wf_iff] at *; first | exact ⟨cellsWf_put 0 _ _ _ hn.1, hn.2⟩ | exact ⟨hn.1, cellsWf_put _ _ _ _ hn.2⟩ | exact ⟨cellsWf_filter 0 _ _ hn.1, hn.2⟩)
    | (intro (n : EvStore) hn; split <;> (with_reducible exact EvStore.wf_of hn rfl rfl))
    | (intro (n : EvStore) hn; with_reducible exact EvStore.wf_of hn rfl rfl)
    | (intro (n : Bbx) hn; split <;> (with_reducible exact EvStore.wf_of hn rfl rfl))
    | (intro (n : Bbx) hn; with_reducible exact EvStore.wf_eq hn rfl)
    | (intro (n : Bbx) hn; with_reducible exact EvStore.wf_of hn rfl rfl)
    | split)

theorem step_execLinkRetrain {k : Fin 32} {s : State} : Answers [.chans, .slt, .slot, .upd, .hst] s (execLinkRetrain k s) := by
  unfold execLinkRetrain
  repeat' (first
    | with_reducible apply Step.refl
    | with_reducible assumption
    | exact Eq.refl true
    | with_reducible apply Answers.ok
    | (extract_lets +onlyGivenNames lv; first | ((first | refine Step.cut lv ?_ ?_ | refine Answers.cut lv ?_ ?_); unfold lv; clear lv; rotate_left; intro hx; clear_value lv; revert lv; intro _ _) | (revert lv; intro _))
    | with_reducible apply Step.after step_toTrain
    | with_reducible apply Step.after step_modSlt
    | split)

theorem step_execMbResend {k : Fin 32} {s : State} : Answers [.chans, .slt] s (execMbResend k s) := by
  unfold execMbResend
  repeat' (first
    | with_reducible apply Step.refl
    | with_reducible assumption
    | exact Eq.refl true
    | with_reducible apply Answers.ok
    | (extract_lets +onlyGivenNames lv; first | ((first | refine Step.cut lv ?_ ?_ | refine Answers.cut lv ?_ ?_); unfold lv; clear lv; rotate_left; intro hx; clear_value lv; revert lv; intro _ _) | (revert lv; intro _))
    | with_reducible apply Step.after step_satEv
    | with_reducible apply Step.after step_modSlt
    | with_reducible apply Step.when
    | (with_reducible apply Step.foldl; intro fs fa)
    | (with_reducible apply Step.foldFin; intro fs fa)
    | (with_reducible apply Step.foldlFst; intro fs fa)
    | (split; rename_i heq; have hx : (_ : State) = _ := congrArg Prod.snd heq; dsimp only at hx; subst hx)
    | (split; rename_i heq; have hx : (_ : State) = _ := congrArg Prod.fst heq; dsimp only at hx; subst hx)
    | split)

theorem step_execMbRequestTimeout {k : Fin 32} {tag : Fin 4} {s : State} : Answers [.time, .freeCtr, .slt, .upd, .hst] s (execMbRequestTimeout k tag s) := by
  unfold execMbRequestTimeout
  repeat' (first
    | with_reducible apply Step.refl
    | with_reducible assumption
    | exact Eq.refl true
    | with_reducible apply Answers.ok
    | ((conv => arg 3; arg 28); refine Step.put ?_)
    | (extract_lets +onlyGivenNames lv; first | ((first | refine Step.cut lv ?_ ?_ | refine Answers.cut lv ?_ ?_); unfold lv; clear lv; rotate_left; intro hx; clear_value lv; revert lv; intro _ _) | (revert lv; intro _))
    | with_reducible apply Step.after step_mbResult
    | with_reducible apply Step.after step_fwEnd
    | with_reducible apply Step.after step_fwPump
    | with_reducible apply Step.after step_modSlt
    | with_reducible apply Step.when
    | (with_reducible refine Step.whenAt rfl ?_ (fun u => ?_))
    | (with_reducible apply Step.foldl; intro fs fa)
    | (with_reducible apply Step.foldFin; intro fs fa)
    | (with_reducible apply Step.foldlFst; intro fs fa)
    | exact (fun _ => rfl)
    | (intro n; dsimp only; split <;> rfl)
    | (split; rename_i heq; have hx : (_ : State) = _ := congrArg Prod.snd heq; dsimp only at hx; subst hx)
    | (split; rename_i heq; have hx : (_ : State) = _ := congrArg Prod.fst heq; dsimp only at hx; subst hx)
    | (intro (n : Nvp) hn; simp only [Nvp.wf, Bool.and_eq_true] at hn ⊢; first | exact ⟨⟨nvpPuts_wf _ _ hn.1.1, hn.1.2⟩, hn.2⟩ | exact ⟨hn.1, rfl⟩)
    | (intro (n : Nvp) hn; split <;> (with_reducible exact Nvp.wf_of hn rfl rfl rfl))
    | (intro (n : Nvp) hn; with_reducible exact Nvp.wf_of hn rfl rfl rfl)
    | (intro (n : Otp) hn; split <;> (with_reducible exact Otp.wf_of hn rfl rfl rfl rfl))
    | (intro (n : Otp) hn; with_reducible exact Otp.wf_of hn rfl rfl rfl rfl)
    | (intro (n : Upd) hn; split <;> (with_reducible exact Upd.wf_of hn rfl))
    | (intro (n : Upd) hn; with_reducible exact Upd.wf_of hn rfl)
    | (intro (n : EvStore) hn; rw [EvStore.wf_iff] at *; first | exact ⟨cellsWf_put 0 _ _ _ hn.1, hn.2⟩ | exact ⟨hn.1, cellsWf_put _ _ _ _ hn.2⟩ | exact ⟨cellsWf_filter 0 _ _ hn.1, hn.2⟩)
    | (intro (n : EvStore) hn; split <;> (with_reducible exact EvStore.wf_of hn rfl rfl))
    | (intro (n : EvStore) hn; with_reducible exact EvStore.wf_of hn rfl rfl)
    | (intro (n : Bbx) hn; split <;> (with_reducible exact EvStore.wf_of hn rfl rfl))
    | (intro (n : Bbx) hn; with_reducible exact EvStore.wf_eq hn rfl)
    | (intro (n : Bbx) hn; with_reducible exact EvStore.wf_of hn rfl rfl)
    | split)

theorem step_frameStart {s : State} {k : Fin 32} : Step [.slt] s (State.frameStart s k) := by
  unfold State.frameStart
  repeat' (first
    | with_reducible apply Step.refl
    | with_reducible assumption
    | exact Eq.refl true
    | (extract_lets +onlyGivenNames lv; first | ((first | refine Step.cut lv ?_ ?_ | refine Answers.cut lv ?_ ?_); unfold lv; clear lv; rotate_left; intro hx; clear_value lv; revert lv; intro _ _) | (revert lv; intro _))
    | with_reducible apply Step.after step_modSlt
    | split)

theorem step_modSlot {s : State} {k : Fin 32} {f : SlotMod → SlotMod} : Step [.slot] s (State.modSlot s k f) := by
  unfold State.modSlot
  repeat' (first
    | with_reducible apply Step.refl
    | with_reducible assumption
    | exact Eq.refl true
    | ((conv => arg 3; arg 28); refine Step.put ?_)
    | (extract_lets +onlyGivenNames lv; first | ((first | refine Step.cut lv ?_ ?_ | refine Answers.cut lv ?_ ?_); unfold lv; clear lv; rotate_left; intro hx; clear_value lv; revert lv; intro _ _) | (revert lv; intro _))
    | split)

theorem step_slotMailbox {s : State} {k : Fin 32} {p : Port} {pl : List Byte} : Step [.freeCtr, .slot] s (State.slotMailbox s k p pl) := by
  unfold State.slotMailbox
  repeat' (first
    | with_reducible apply Step.refl
    | with_reducible assumption
    | exact Eq.refl true
    | (extract_lets +onlyGivenNames lv; first | ((first | refine Step.cut lv ?_ ?_ | refine Answers.cut lv ?_ ?_); unfold lv; clear lv; rotate_left; intro hx; clear_value lv; revert lv; intro _ _) | (revert lv; intro _))
    | with_reducible apply Step.after step_modSlot
    | with_reducible apply Step.after step_drawn
    | split)

theorem step_execSlotDownlinkReceived {k : Fin 32} {p : Port} {f : Frame} {s : State} : Answers [.freeCtr, .slot] s (execSlotDownlinkReceived k p f s) := by
  unfold execSlotDownlinkReceived
  repeat' (first
    | with_reducible apply Step.refl
    | with_reducible assumption
    | exact Eq.refl true
    | with_reducible apply Answers.ok
    | (extract_lets +onlyGivenNames lv; first | ((first | refine Step.cut lv ?_ ?_ | refine Answers.cut lv ?_ ?_); unfold lv; clear lv; rotate_left; intro hx; clear_value lv; revert lv; intro _ _) | (revert lv; intro _))
    | with_reducible apply Step.after step_modSlot
    | with_reducible apply Step.after step_slotMailbox
    | split)

theorem step_execSlotFrameApply {k : Fin 32} {s : State} : Answers [.slot] s (execSlotFrameApply k s) := by
  unfold execSlotFrameApply
  repeat' (first
    | with_reducible apply Step.refl
    | with_reducible assumption
    | exact Eq.refl true
    | with_reducible apply Answers.ok
    | (extract_lets +onlyGivenNames lv; first | ((first | refine Step.cut lv ?_ ?_ | refine Answers.cut lv ?_ ?_); unfold lv; clear lv; rotate_left; intro hx; clear_value lv; revert lv; intro _ _) | (revert lv; intro _))
    | with_reducible apply Step.after step_modSlot
    | split)

theorem step_execSlotClaimExpiry {k : Fin 32} {p : Port} {s : State} : Answers [.time, .slt, .slot, .upd, .hst] s (execSlotClaimExpiry k p s) := by
  unfold execSlotClaimExpiry
  repeat' (first
    | with_reducible apply Step.refl
    | with_reducible assumption
    | exact Eq.refl true
    | with_reducible apply Answers.ok
    | ((conv => arg 3; arg 28); refine Step.put ?_)
    | (extract_lets +onlyGivenNames lv; first | ((first | refine Step.cut lv ?_ ?_ | refine Answers.cut lv ?_ ?_); unfold lv; clear lv; rotate_left; intro hx; clear_value lv; revert lv; intro _ _) | (revert lv; intro _))
    | with_reducible apply Step.after step_modSlot
    | with_reducible apply Step.after step_mbxReset
    | with_reducible apply Step.when
    | (with_reducible refine Step.whenDue rfl ?_ (fun u => ?_))
    | (with_reducible apply Step.foldl; intro fs fa)
    | (with_reducible apply Step.foldFin; intro fs fa)
    | (with_reducible apply Step.foldlFst; intro fs fa)
    | exact (fun _ => rfl)
    | (intro n; dsimp only; split <;> rfl)
    | (split; rename_i heq; have hx : (_ : State) = _ := congrArg Prod.snd heq; dsimp only at hx; subst hx)
    | (split; rename_i heq; have hx : (_ : State) = _ := congrArg Prod.fst heq; dsimp only at hx; subst hx)
    | (intro (n : Nvp) hn; simp only [Nvp.wf, Bool.and_eq_true] at hn ⊢; first | exact ⟨⟨nvpPuts_wf _ _ hn.1.1, hn.1.2⟩, hn.2⟩ | exact ⟨hn.1, rfl⟩)
    | (intro (n : Nvp) hn; split <;> (with_reducible exact Nvp.wf_of hn rfl rfl rfl))
    | (intro (n : Nvp) hn; with_reducible exact Nvp.wf_of hn rfl rfl rfl)
    | (intro (n : Otp) hn; split <;> (with_reducible exact Otp.wf_of hn rfl rfl rfl rfl))
    | (intro (n : Otp) hn; with_reducible exact Otp.wf_of hn rfl rfl rfl rfl)
    | (intro (n : Upd) hn; split <;> (with_reducible exact Upd.wf_of hn rfl))
    | (intro (n : Upd) hn; with_reducible exact Upd.wf_of hn rfl)
    | (intro (n : EvStore) hn; rw [EvStore.wf_iff] at *; first | exact ⟨cellsWf_put 0 _ _ _ hn.1, hn.2⟩ | exact ⟨hn.1, cellsWf_put _ _ _ _ hn.2⟩ | exact ⟨cellsWf_filter 0 _ _ hn.1, hn.2⟩)
    | (intro (n : EvStore) hn; split <;> (with_reducible exact EvStore.wf_of hn rfl rfl))
    | (intro (n : EvStore) hn; with_reducible exact EvStore.wf_of hn rfl rfl)
    | (intro (n : Bbx) hn; split <;> (with_reducible exact EvStore.wf_of hn rfl rfl))
    | (intro (n : Bbx) hn; with_reducible exact EvStore.wf_eq hn rfl)
    | (intro (n : Bbx) hn; with_reducible exact EvStore.wf_of hn rfl rfl)
    | split)

theorem step_execSlotHoldBegin {k : Fin 32} {s : State} : Answers [.time, .slot] s (execSlotHoldBegin k s) := by
  unfold execSlotHoldBegin
  repeat' (first
    | with_reducible apply Step.refl
    | with_reducible assumption
    | exact Eq.refl true
    | with_reducible apply Answers.ok
    | ((conv => arg 3; arg 28); refine Step.put ?_)
    | (extract_lets +onlyGivenNames lv; first | ((first | refine Step.cut lv ?_ ?_ | refine Answers.cut lv ?_ ?_); unfold lv; clear lv; rotate_left; intro hx; clear_value lv; revert lv; intro _ _) | (revert lv; intro _))
    | with_reducible apply Step.after step_modSlot
    | with_reducible apply Step.when
    | (with_reducible refine Step.whenDue rfl ?_ (fun u => ?_))
    | (with_reducible apply Step.foldl; intro fs fa)
    | (with_reducible apply Step.foldFin; intro fs fa)
    | (with_reducible apply Step.foldlFst; intro fs fa)
    | exact (fun _ => rfl)
    | (intro n; dsimp only; split <;> rfl)
    | (split; rename_i heq; have hx : (_ : State) = _ := congrArg Prod.snd heq; dsimp only at hx; subst hx)
    | (split; rename_i heq; have hx : (_ : State) = _ := congrArg Prod.fst heq; dsimp only at hx; subst hx)
    | (intro (n : Nvp) hn; simp only [Nvp.wf, Bool.and_eq_true] at hn ⊢; first | exact ⟨⟨nvpPuts_wf _ _ hn.1.1, hn.1.2⟩, hn.2⟩ | exact ⟨hn.1, rfl⟩)
    | (intro (n : Nvp) hn; split <;> (with_reducible exact Nvp.wf_of hn rfl rfl rfl))
    | (intro (n : Nvp) hn; with_reducible exact Nvp.wf_of hn rfl rfl rfl)
    | (intro (n : Otp) hn; split <;> (with_reducible exact Otp.wf_of hn rfl rfl rfl rfl))
    | (intro (n : Otp) hn; with_reducible exact Otp.wf_of hn rfl rfl rfl rfl)
    | (intro (n : Upd) hn; split <;> (with_reducible exact Upd.wf_of hn rfl))
    | (intro (n : Upd) hn; with_reducible exact Upd.wf_of hn rfl)
    | (intro (n : EvStore) hn; rw [EvStore.wf_iff] at *; first | exact ⟨cellsWf_put 0 _ _ _ hn.1, hn.2⟩ | exact ⟨hn.1, cellsWf_put _ _ _ _ hn.2⟩ | exact ⟨cellsWf_filter 0 _ _ hn.1, hn.2⟩)
    | (intro (n : EvStore) hn; split <;> (with_reducible exact EvStore.wf_of hn rfl rfl))
    | (intro (n : EvStore) hn; with_reducible exact EvStore.wf_of hn rfl rfl)
    | (intro (n : Bbx) hn; split <;> (with_reducible exact EvStore.wf_of hn rfl rfl))
    | (intro (n : Bbx) hn; with_reducible exact EvStore.wf_eq hn rfl)
    | (intro (n : Bbx) hn; with_reducible exact EvStore.wf_of hn rfl rfl)
    | split)

theorem step_execSlotHoldExpiry {k : Fin 32} {s : State} : Answers [.time, .slot] s (execSlotHoldExpiry k s) := by
  unfold execSlotHoldExpiry
  repeat' (first
    | with_reducible apply Step.refl
    | with_reducible assumption
    | exact Eq.refl true
    | with_reducible apply Answers.ok
    | ((conv => arg 3; arg 28); refine Step.put ?_)
    | (extract_lets +onlyGivenNames lv; first | ((first | refine Step.cut lv ?_ ?_ | refine Answers.cut lv ?_ ?_); unfold lv; clear lv; rotate_left; intro hx; clear_value lv; revert lv; intro _ _) | (revert lv; intro _))
    | with_reducible apply Step.after step_modSlot
    | with_reducible apply Step.when
    | (with_reducible refine Step.whenDue rfl ?_ (fun u => ?_))
    | (with_reducible apply Step.foldl; intro fs fa)
    | (with_reducible apply Step.foldFin; intro fs fa)
    | (with_reducible apply Step.foldlFst; intro fs fa)
    | exact (fun _ => rfl)
    | (intro n; dsimp only; split <;> rfl)
    | (split; rename_i heq; have hx : (_ : State) = _ := congrArg Prod.snd heq; dsimp only at hx; subst hx)
    | (split; rename_i heq; have hx : (_ : State) = _ := congrArg Prod.fst heq; dsimp only at hx; subst hx)
    | (intro (n : Nvp) hn; simp only [Nvp.wf, Bool.and_eq_true] at hn ⊢; first | exact ⟨⟨nvpPuts_wf _ _ hn.1.1, hn.1.2⟩, hn.2⟩ | exact ⟨hn.1, rfl⟩)
    | (intro (n : Nvp) hn; split <;> (with_reducible exact Nvp.wf_of hn rfl rfl rfl))
    | (intro (n : Nvp) hn; with_reducible exact Nvp.wf_of hn rfl rfl rfl)
    | (intro (n : Otp) hn; split <;> (with_reducible exact Otp.wf_of hn rfl rfl rfl rfl))
    | (intro (n : Otp) hn; with_reducible exact Otp.wf_of hn rfl rfl rfl rfl)
    | (intro (n : Upd) hn; split <;> (with_reducible exact Upd.wf_of hn rfl))
    | (intro (n : Upd) hn; with_reducible exact Upd.wf_of hn rfl)
    | (intro (n : EvStore) hn; rw [EvStore.wf_iff] at *; first | exact ⟨cellsWf_put 0 _ _ _ hn.1, hn.2⟩ | exact ⟨hn.1, cellsWf_put _ _ _ _ hn.2⟩ | exact ⟨cellsWf_filter 0 _ _ hn.1, hn.2⟩)
    | (intro (n : EvStore) hn; split <;> (with_reducible exact EvStore.wf_of hn rfl rfl))
    | (intro (n : EvStore) hn; with_reducible exact EvStore.wf_of hn rfl rfl)
    | (intro (n : Bbx) hn; split <;> (with_reducible exact EvStore.wf_of hn rfl rfl))
    | (intro (n : Bbx) hn; with_reducible exact EvStore.wf_eq hn rfl)
    | (intro (n : Bbx) hn; with_reducible exact EvStore.wf_of hn rfl rfl)
    | split)

/-! ### Redundancy -/

theorem step_modRed {s : State} {f : Red → Red} : Step [.red] s (State.modRed s f) := by
  unfold State.modRed
  repeat' (first
    | with_reducible apply Step.refl
    | with_reducible assumption
    | exact Eq.refl true
    | ((conv => arg 3; arg 28); refine Step.put ?_)
    | (extract_lets +onlyGivenNames lv; first | ((first | refine Step.cut lv ?_ ?_ | refine Answers.cut lv ?_ ?_); unfold lv; clear lv; rotate_left; intro hx; clear_value lv; revert lv; intro _ _) | (revert lv; intro _))
    | split)

theorem step_execClmWordStart {s : State} : Answers [.time, .red] s (execClmWordStart s) := by
  unfold execClmWordStart
  repeat' (first
    | with_reducible apply Step.refl
    | with_reducible assumption
    | exact Eq.refl true
    | with_reducible apply Answers.ok
    | ((conv => arg 3; arg 28); refine Step.put ?_)
    | (extract_lets +onlyGivenNames lv; first | ((first | refine Step.cut lv ?_ ?_ | refine Answers.cut lv ?_ ?_); unfold lv; clear lv; rotate_left; intro hx; clear_value lv; revert lv; intro _ _) | (revert lv; intro _))
    | with_reducible apply Step.after step_modRed
    | with_reducible apply Step.when
    | (with_reducible refine Step.whenAt rfl ?_ (fun u => ?_))
    | (with_reducible apply Step.foldl; intro fs fa)
    | (with_reducible apply Step.foldFin; intro fs fa)
    | (with_reducible apply Step.foldlFst; intro fs fa)
    | exact (fun _ => rfl)
    | (intro n; dsimp only; split <;> rfl)
    | (split; rename_i heq; have hx : (_ : State) = _ := congrArg Prod.snd heq; dsimp only at hx; subst hx)
    | (split; rename_i heq; have hx : (_ : State) = _ := congrArg Prod.fst heq; dsimp only at hx; subst hx)
    | (intro (n : Nvp) hn; simp only [Nvp.wf, Bool.and_eq_true] at hn ⊢; first | exact ⟨⟨nvpPuts_wf _ _ hn.1.1, hn.1.2⟩, hn.2⟩ | exact ⟨hn.1, rfl⟩)
    | (intro (n : Nvp) hn; split <;> (with_reducible exact Nvp.wf_of hn rfl rfl rfl))
    | (intro (n : Nvp) hn; with_reducible exact Nvp.wf_of hn rfl rfl rfl)
    | (intro (n : Otp) hn; split <;> (with_reducible exact Otp.wf_of hn rfl rfl rfl rfl))
    | (intro (n : Otp) hn; with_reducible exact Otp.wf_of hn rfl rfl rfl rfl)
    | (intro (n : Upd) hn; split <;> (with_reducible exact Upd.wf_of hn rfl))
    | (intro (n : Upd) hn; with_reducible exact Upd.wf_of hn rfl)
    | (intro (n : EvStore) hn; rw [EvStore.wf_iff] at *; first | exact ⟨cellsWf_put 0 _ _ _ hn.1, hn.2⟩ | exact ⟨hn.1, cellsWf_put _ _ _ _ hn.2⟩ | exact ⟨cellsWf_filter 0 _ _ hn.1, hn.2⟩)
    | (intro (n : EvStore) hn; split <;> (with_reducible exact EvStore.wf_of hn rfl rfl))
    | (intro (n : EvStore) hn; with_reducible exact EvStore.wf_of hn rfl rfl)
    | (intro (n : Bbx) hn; split <;> (with_reducible exact EvStore.wf_of hn rfl rfl))
    | (intro (n : Bbx) hn; with_reducible exact EvStore.wf_eq hn rfl)
    | (intro (n : Bbx) hn; with_reducible exact EvStore.wf_of hn rfl rfl)
    | split)

theorem step_modStage {s : State} {j : Fin 24} {f : StageMod → StageMod} : Step [.stage] s (State.modStage s j f) := by
  unfold State.modStage
  repeat' (first
    | with_reducible apply Step.refl
    | with_reducible assumption
    | exact Eq.refl true
    | ((conv => arg 3; arg 28); refine Step.put ?_)
    | (extract_lets +onlyGivenNames lv; first | ((first | refine Step.cut lv ?_ ?_ | refine Answers.cut lv ?_ ?_); unfold lv; clear lv; rotate_left; intro hx; clear_value lv; revert lv; intro _ _) | (revert lv; intro _))
    | split)

theorem step_execStageClmWordReceived {j : Fin 24} {p : Port} {w : ClmWord} {s : State} : Answers [.stage] s (execStageClmWordReceived j p w s) := by
  unfold execStageClmWordReceived
  repeat' (first
    | with_reducible apply Step.refl
    | with_reducible assumption
    | exact Eq.refl true
    | with_reducible apply Answers.ok
    | (extract_lets +onlyGivenNames lv; first | ((first | refine Step.cut lv ?_ ?_ | refine Answers.cut lv ?_ ?_); unfold lv; clear lv; rotate_left; intro hx; clear_value lv; revert lv; intro _ _) | (revert lv; intro _))
    | with_reducible apply Step.after step_modStage
    | with_reducible apply Step.when
    | (with_reducible apply Step.foldl; intro fs fa)
    | (with_reducible apply Step.foldFin; intro fs fa)
    | (with_reducible apply Step.foldlFst; intro fs fa)
    | (split; rename_i heq; have hx : (_ : State) = _ := congrArg Prod.snd heq; dsimp only at hx; subst hx)
    | (split; rename_i heq; have hx : (_ : State) = _ := congrArg Prod.fst heq; dsimp only at hx; subst hx)
    | split)

theorem step_execStageClaimExpiry {j : Fin 24} {p : Port} {s : State} : Answers [.time, .stage] s (execStageClaimExpiry j p s) := by
  unfold execStageClaimExpiry
  repeat' (first
    | with_reducible apply Step.refl
    | with_reducible assumption
    | exact Eq.refl true
    | with_reducible apply Answers.ok
    | ((conv => arg 3; arg 28); refine Step.put ?_)
    | (extract_lets +onlyGivenNames lv; first | ((first | refine Step.cut lv ?_ ?_ | refine Answers.cut lv ?_ ?_); unfold lv; clear lv; rotate_left; intro hx; clear_value lv; revert lv; intro _ _) | (revert lv; intro _))
    | with_reducible apply Step.after step_modStage
    | with_reducible apply Step.when
    | (with_reducible refine Step.whenDue rfl ?_ (fun u => ?_))
    | (with_reducible apply Step.foldl; intro fs fa)
    | (with_reducible apply Step.foldFin; intro fs fa)
    | (with_reducible apply Step.foldlFst; intro fs fa)
    | exact (fun _ => rfl)
    | (intro n; dsimp only; split <;> rfl)
    | (split; rename_i heq; have hx : (_ : State) = _ := congrArg Prod.snd heq; dsimp only at hx; subst hx)
    | (split; rename_i heq; have hx : (_ : State) = _ := congrArg Prod.fst heq; dsimp only at hx; subst hx)
    | (intro (n : Nvp) hn; simp only [Nvp.wf, Bool.and_eq_true] at hn ⊢; first | exact ⟨⟨nvpPuts_wf _ _ hn.1.1, hn.1.2⟩, hn.2⟩ | exact ⟨hn.1, rfl⟩)
    | (intro (n : Nvp) hn; split <;> (with_reducible exact Nvp.wf_of hn rfl rfl rfl))
    | (intro (n : Nvp) hn; with_reducible exact Nvp.wf_of hn rfl rfl rfl)
    | (intro (n : Otp) hn; split <;> (with_reducible exact Otp.wf_of hn rfl rfl rfl rfl))
    | (intro (n : Otp) hn; with_reducible exact Otp.wf_of hn rfl rfl rfl rfl)
    | (intro (n : Upd) hn; split <;> (with_reducible exact Upd.wf_of hn rfl))
    | (intro (n : Upd) hn; with_reducible exact Upd.wf_of hn rfl)
    | (intro (n : EvStore) hn; rw [EvStore.wf_iff] at *; first | exact ⟨cellsWf_put 0 _ _ _ hn.1, hn.2⟩ | exact ⟨hn.1, cellsWf_put _ _ _ _ hn.2⟩ | exact ⟨cellsWf_filter 0 _ _ hn.1, hn.2⟩)
    | (intro (n : EvStore) hn; split <;> (with_reducible exact EvStore.wf_of hn rfl rfl))
    | (intro (n : EvStore) hn; with_reducible exact EvStore.wf_of hn rfl rfl)
    | (intro (n : Bbx) hn; split <;> (with_reducible exact EvStore.wf_of hn rfl rfl))
    | (intro (n : Bbx) hn; with_reducible exact EvStore.wf_eq hn rfl)
    | (intro (n : Bbx) hn; with_reducible exact EvStore.wf_of hn rfl rfl)
    | split)

theorem step_readyUp {s : State} : Step [.regs, .chans, .red] s (State.readyUp s) := by
  unfold State.readyUp
  repeat' (first
    | with_reducible apply Step.refl
    | with_reducible assumption
    | exact Eq.refl true
    | (extract_lets +onlyGivenNames lv; first | ((first | refine Step.cut lv ?_ ?_ | refine Answers.cut lv ?_ ?_); unfold lv; clear lv; rotate_left; intro hx; clear_value lv; revert lv; intro _ _) | (revert lv; intro _))
    | with_reducible apply Step.after step_latchClaim
    | with_reducible apply Step.after step_fire
    | with_reducible apply Step.after step_stick
    | with_reducible apply Step.after step_modRed
    | split)

theorem step_readyDown {s : State} : Step [.chans, .red] s (State.readyDown s) := by
  unfold State.readyDown
  repeat' (first
    | with_reducible apply Step.refl
    | with_reducible assumption
    | exact Eq.refl true
    | (extract_lets +onlyGivenNames lv; first | ((first | refine Step.cut lv ?_ ?_ | refine Answers.cut lv ?_ ?_); unfold lv; clear lv; rotate_left; intro hx; clear_value lv; revert lv; intro _ _) | (revert lv; intro _))
    | with_reducible apply Step.after step_modRed
    | with_reducible apply Step.after step_latchClaim
    | with_reducible apply Step.after step_fire
    | split)

/-- Words and sticky bits taken away keep the register store's form. -/
theorem Regs.wf_filter {r r' : Regs} {p : Nat × Word → Bool} {q : Nat × Word → Bool} (h : r.wf = true)
    (a : r'.act = r.act.filter p) (b : r'.sticky = r.sticky.filter q) (c : r'.staged = r.staged) (d : r'.base = r.base) : r'.wf = true := by
  rw [Regs.wf_iff] at *
  rw [a, b, c, d]
  exact ⟨keysRise_filter _ _ h.1, cellsWf_filter 0 _ _ h.2.1, h.2.2⟩

theorem step_perGated {s : State} : Step [.regs, .red, .config] s (State.perGated s) := by
  unfold State.perGated
  extract_lets +onlyGivenNames a r s1
  have h1 : Step [.regs, .red, .config] s s1 := Step.put Step.refl (w_regs := fun h => Regs.wf_filter h rfl rfl rfl rfl)
  exact Step.after step_unstick rfl (Step.after step_unstick rfl (Step.after step_unstick rfl h1))

theorem step_demoteNow {s : State} : Step [.regs, .chans, .aon, .sys, .law, .slt, .red, .seq, .role, .config] s (State.demoteNow s) := by
  unfold State.demoteNow
  repeat' (first
    | with_reducible apply Step.refl
    | with_reducible assumption
    | exact Eq.refl true
    | ((conv => arg 3; arg 28); refine Step.put ?_)
    | (extract_lets +onlyGivenNames lv; first | ((first | refine Step.cut lv ?_ ?_ | refine Answers.cut lv ?_ ?_); unfold lv; clear lv; rotate_left; intro hx; clear_value lv; revert lv; intro _ _) | (revert lv; intro _))
    | with_reducible apply Step.after step_claimDrop
    | with_reducible apply Step.after step_hwFld
    | with_reducible apply Step.after step_perGated
    | with_reducible apply Step.after step_seqDemoted
    | with_reducible apply Step.after step_fire
    | with_reducible apply Step.after step_stick
    | with_reducible apply Step.after step_lawSyncAll
    | with_reducible apply Step.after step_satEv
    | split)

theorem step_demoteOff {s : State} : Step [.chans, .aon, .red] s (State.demoteOff s) := by
  unfold State.demoteOff
  repeat' (first
    | with_reducible apply Step.refl
    | with_reducible assumption
    | exact Eq.refl true
    | ((conv => arg 3; arg 28); refine Step.put ?_)
    | (extract_lets +onlyGivenNames lv; first | ((first | refine Step.cut lv ?_ ?_ | refine Answers.cut lv ?_ ?_); unfold lv; clear lv; rotate_left; intro hx; clear_value lv; revert lv; intro _ _) | (revert lv; intro _))
    | with_reducible apply Step.after step_latchClaim
    | with_reducible apply Step.after step_fire
    | with_reducible apply Step.after step_modRed
    | split)

theorem step_takeDrive {s : State} {role : Role} {epoch : BitVec 5} : Step [.aon, .sys, .law, .hbx, .red, .role, .epoch] s (State.takeDrive s role epoch) := by
  unfold State.takeDrive
  repeat' (first
    | with_reducible apply Step.refl
    | with_reducible assumption
    | exact Eq.refl true
    | ((conv => arg 3; arg 28); refine Step.put ?_)
    | (extract_lets +onlyGivenNames lv; first | ((first | refine Step.cut lv ?_ ?_ | refine Answers.cut lv ?_ ?_); unfold lv; clear lv; rotate_left; intro hx; clear_value lv; revert lv; intro _ _) | (revert lv; intro _))
    | with_reducible apply Step.after step_lawSyncAll
    | with_reducible apply Step.after step_latchClaim
    | with_reducible apply Step.after step_seedAll
    | split)

theorem step_execDemoteNAccept {s : State} : Answers [.regs, .chans, .aon, .sys, .law, .slt, .red, .seq, .role, .config] s (execDemoteNAccept s) := by
  unfold execDemoteNAccept
  repeat' (first
    | with_reducible apply Step.refl
    | with_reducible assumption
    | exact Eq.refl true
    | with_reducible apply Answers.ok
    | ((conv => arg 3; arg 28); refine Step.put ?_)
    | (extract_lets +onlyGivenNames lv; first | ((first | refine Step.cut lv ?_ ?_ | refine Answers.cut lv ?_ ?_); unfold lv; clear lv; rotate_left; intro hx; clear_value lv; revert lv; intro _ _) | (revert lv; intro _))
    | with_reducible apply Step.after step_demoteNow
    | split)

theorem step_execDemoteNRelease {s : State} : Answers [.chans, .aon, .red] s (execDemoteNRelease s) := by
  unfold execDemoteNRelease
  repeat' (first
    | with_reducible apply Step.refl
    | with_reducible assumption
    | exact Eq.refl true
    | with_reducible apply Answers.ok
    | ((conv => arg 3; arg 28); refine Step.put ?_)
    | (extract_lets +onlyGivenNames lv; first | ((first | refine Step.cut lv ?_ ?_ | refine Answers.cut lv ?_ ?_); unfold lv; clear lv; rotate_left; intro hx; clear_value lv; revert lv; intro _ _) | (revert lv; intro _))
    | with_reducible apply Step.after step_demoteOff
    | split)

theorem step_execTakeNAccept {s : State} : Answers [.regs, .chans, .aon, .sys, .law, .hbx, .red, .seq, .role, .epoch] s (execTakeNAccept s) := by
  unfold execTakeNAccept
  repeat' (first
    | with_reducible apply Step.refl
    | with_reducible assumption
    | exact Eq.refl true
    | with_reducible apply Answers.ok
    | ((conv => arg 3; arg 28); refine Step.put ?_)
    | (extract_lets +onlyGivenNames lv; first | ((first | refine Step.cut lv ?_ ?_ | refine Answers.cut lv ?_ ?_); unfold lv; clear lv; rotate_left; intro hx; clear_value lv; revert lv; intro _ _) | (revert lv; intro _))
    | with_reducible apply Step.after step_fire
    | with_reducible apply Step.after step_stick
    | with_reducible apply Step.after step_takeDrive
    | with_reducible apply Step.after step_seqTakeover
    | with_reducible apply Step.after step_satEv
    | with_reducible apply Step.after step_modRed
    | with_reducible apply Step.when
    | (with_reducible apply Step.foldl; intro fs fa)
    | (with_reducible apply Step.foldFin; intro fs fa)
    | (with_reducible apply Step.foldlFst; intro fs fa)
    | exact (fun _ => rfl)
    | (intro n; dsimp only; split <;> rfl)
    | (split; rename_i heq; have hx : (_ : State) = _ := congrArg Prod.snd heq; dsimp only at hx; subst hx)
    | (split; rename_i heq; have hx : (_ : State) = _ := congrArg Prod.fst heq; dsimp only at hx; subst hx)
    | (intro (n : Nvp) hn; simp only [Nvp.wf, Bool.and_eq_true] at hn ⊢; first | exact ⟨⟨nvpPuts_wf _ _ hn.1.1, hn.1.2⟩, hn.2⟩ | exact ⟨hn.1, rfl⟩)
    | (intro (n : Nvp) hn; split <;> (with_reducible exact Nvp.wf_of hn rfl rfl rfl))
    | (intro (n : Nvp) hn; with_reducible exact Nvp.wf_of hn rfl rfl rfl)
    | (intro (n : Otp) hn; split <;> (with_reducible exact Otp.wf_of hn rfl rfl rfl rfl))
    | (intro (n : Otp) hn; with_reducible exact Otp.wf_of hn rfl rfl rfl rfl)
    | (intro (n : Upd) hn; split <;> (with_reducible exact Upd.wf_of hn rfl))
    | (intro (n : Upd) hn; with_reducible exact Upd.wf_of hn rfl)
    | (intro (n : EvStore) hn; rw [EvStore.wf_iff] at *; first | exact ⟨cellsWf_put 0 _ _ _ hn.1, hn.2⟩ | exact ⟨hn.1, cellsWf_put _ _ _ _ hn.2⟩ | exact ⟨cellsWf_filter 0 _ _ hn.1, hn.2⟩)
    | (intro (n : EvStore) hn; split <;> (with_reducible exact EvStore.wf_of hn rfl rfl))
    | (intro (n : EvStore) hn; with_reducible exact EvStore.wf_of hn rfl rfl)
    | (intro (n : Bbx) hn; split <;> (with_reducible exact EvStore.wf_of hn rfl rfl))
    | (intro (n : Bbx) hn; with_reducible exact EvStore.wf_eq hn rfl)
    | (intro (n : Bbx) hn; with_reducible exact EvStore.wf_of hn rfl rfl)
    | split)

theorem step_execHeartbeatFormChange {s : State} : Answers [.time, .chans, .aon] s (execHeartbeatFormChange s) := by
  unfold execHeartbeatFormChange
  repeat' (first
    | with_reducible apply Step.refl
    | with_reducible assumption
    | exact Eq.refl true
    | with_reducible apply Answers.ok
    | ((conv => arg 3; arg 28); refine Step.put ?_)
    | (extract_lets +onlyGivenNames lv; first | ((first | refine Step.cut lv ?_ ?_ | refine Answers.cut lv ?_ ?_); unfold lv; clear lv; rotate_left; intro hx; clear_value lv; revert lv; intro _ _) | (revert lv; intro _))
    | with_reducible apply Step.after step_fire
    | with_reducible apply Step.when
    | (with_reducible refine Step.whenAt rfl ?_ (fun u => ?_))
    | (with_reducible apply Step.foldl; intro fs fa)
    | (with_reducible apply Step.foldFin; intro fs fa)
    | (with_reducible apply Step.foldlFst; intro fs fa)
    | exact (fun _ => rfl)
    | (intro n; dsimp only; split <;> rfl)
    | (split; rename_i heq; have hx : (_ : State) = _ := congrArg Prod.snd heq; dsimp only at hx; subst hx)
    | (split; rename_i heq; have hx : (_ : State) = _ := congrArg Prod.fst heq; dsimp only at hx; subst hx)
    | (intro (n : Nvp) hn; simp only [Nvp.wf, Bool.and_eq_true] at hn ⊢; first | exact ⟨⟨nvpPuts_wf _ _ hn.1.1, hn.1.2⟩, hn.2⟩ | exact ⟨hn.1, rfl⟩)
    | (intro (n : Nvp) hn; split <;> (with_reducible exact Nvp.wf_of hn rfl rfl rfl))
    | (intro (n : Nvp) hn; with_reducible exact Nvp.wf_of hn rfl rfl rfl)
    | (intro (n : Otp) hn; split <;> (with_reducible exact Otp.wf_of hn rfl rfl rfl rfl))
    | (intro (n : Otp) hn; with_reducible exact Otp.wf_of hn rfl rfl rfl rfl)
    | (intro (n : Upd) hn; split <;> (with_reducible exact Upd.wf_of hn rfl))
    | (intro (n : Upd) hn; with_reducible exact Upd.wf_of hn rfl)
    | (intro (n : EvStore) hn; rw [EvStore.wf_iff] at *; first | exact ⟨cellsWf_put 0 _ _ _ hn.1, hn.2⟩ | exact ⟨hn.1, cellsWf_put _ _ _ _ hn.2⟩ | exact ⟨cellsWf_filter 0 _ _ hn.1, hn.2⟩)
    | (intro (n : EvStore) hn; split <;> (with_reducible exact EvStore.wf_of hn rfl rfl))
    | (intro (n : EvStore) hn; with_reducible exact EvStore.wf_of hn rfl rfl)
    | (intro (n : Bbx) hn; split <;> (with_reducible exact EvStore.wf_of hn rfl rfl))
    | (intro (n : Bbx) hn; with_reducible exact EvStore.wf_eq hn rfl)
    | (intro (n : Bbx) hn; with_reducible exact EvStore.wf_of hn rfl rfl)
    | split)

theorem step_strobe {s : State} {i : StrobeIsland} : Step [.aon] s (State.strobe s i) := by
  unfold State.strobe
  repeat' (first
    | with_reducible apply Step.refl
    | with_reducible assumption
    | exact Eq.refl true
    | ((conv => arg 3; arg 28); refine Step.put ?_)
    | (extract_lets +onlyGivenNames lv; first | ((first | refine Step.cut lv ?_ ?_ | refine Answers.cut lv ?_ ?_); unfold lv; clear lv; rotate_left; intro hx; clear_value lv; revert lv; intro _ _) | (revert lv; intro _))
    | split)

theorem step_execTickStrobeTimeout {i : StrobeIsland} {s : State} : Answers [.time, .aon] s (execTickStrobeTimeout i s) := by
  unfold execTickStrobeTimeout
  repeat' (first
    | with_reducible apply Step.refl
    | with_reducible assumption
    | exact Eq.refl true
    | with_reducible apply Answers.ok
    | ((conv => arg 3; arg 28); refine Step.put ?_)
    | (extract_lets +onlyGivenNames lv; first | ((first | refine Step.cut lv ?_ ?_ | refine Answers.cut lv ?_ ?_); unfold lv; clear lv; rotate_left; intro hx; clear_value lv; revert lv; intro _ _) | (revert lv; intro _))
    | with_reducible apply Step.when
    | (with_reducible refine Step.whenAt rfl ?_ (fun u => ?_))
    | (with_reducible apply Step.foldl; intro fs fa)
    | (with_reducible apply Step.foldFin; intro fs fa)
    | (with_reducible apply Step.foldlFst; intro fs fa)
    | exact (fun _ => rfl)
    | (intro n; dsimp only; split <;> rfl)
    | (split; rename_i heq; have hx : (_ : State) = _ := congrArg Prod.snd heq; dsimp only at hx; subst hx)
    | (split; rename_i heq; have hx : (_ : State) = _ := congrArg Prod.fst heq; dsimp only at hx; subst hx)
    | (intro (n : Nvp) hn; simp only [Nvp.wf, Bool.and_eq_true] at hn ⊢; first | exact ⟨⟨nvpPuts_wf _ _ hn.1.1, hn.1.2⟩, hn.2⟩ | exact ⟨hn.1, rfl⟩)
    | (intro (n : Nvp) hn; split <;> (with_reducible exact Nvp.wf_of hn rfl rfl rfl))
    | (intro (n : Nvp) hn; with_reducible exact Nvp.wf_of hn rfl rfl rfl)
    | (intro (n : Otp) hn; split <;> (with_reducible exact Otp.wf_of hn rfl rfl rfl rfl))
    | (intro (n : Otp) hn; with_reducible exact Otp.wf_of hn rfl rfl rfl rfl)
    | (intro (n : Upd) hn; split <;> (with_reducible exact Upd.wf_of hn rfl))
    | (intro (n : Upd) hn; with_reducible exact Upd.wf_of hn rfl)
    | (intro (n : EvStore) hn; rw [EvStore.wf_iff] at *; first | exact ⟨cellsWf_put 0 _ _ _ hn.1, hn.2⟩ | exact ⟨hn.1, cellsWf_put _ _ _ _ hn.2⟩ | exact ⟨cellsWf_filter 0 _ _ hn.1, hn.2⟩)
    | (intro (n : EvStore) hn; split <;> (with_reducible exact EvStore.wf_of hn rfl rfl))
    | (intro (n : EvStore) hn; with_reducible exact EvStore.wf_of hn rfl rfl)
    | (intro (n : Bbx) hn; split <;> (with_reducible exact EvStore.wf_of hn rfl rfl))
    | (intro (n : Bbx) hn; with_reducible exact EvStore.wf_eq hn rfl)
    | (intro (n : Bbx) hn; with_reducible exact EvStore.wf_of hn rfl rfl)
    | split)

theorem step_execFwLivenessTimeout {s : State} : Answers [.time, .aon] s (execFwLivenessTimeout s) := by
  unfold execFwLivenessTimeout
  repeat' (first
    | with_reducible apply Step.refl
    | with_reducible assumption
    | exact Eq.refl true
    | with_reducible apply Answers.ok
    | ((conv => arg 3; arg 28); refine Step.put ?_)
    | (extract_lets +onlyGivenNames lv; first | ((first | refine Step.cut lv ?_ ?_ | refine Answers.cut lv ?_ ?_); unfold lv; clear lv; rotate_left; intro hx; clear_value lv; revert lv; intro _ _) | (revert lv; intro _))
    | with_reducible apply Step.when
    | (with_reducible refine Step.whenAt rfl ?_ (fun u => ?_))
    | (with_reducible apply Step.foldl; intro fs fa)
    | (with_reducible apply Step.foldFin; intro fs fa)
    | (with_reducible apply Step.foldlFst; intro fs fa)
    | exact (fun _ => rfl)
    | (intro n; dsimp only; split <;> rfl)
    | (split; rename_i heq; have hx : (_ : State) = _ := congrArg Prod.snd heq; dsimp only at hx; subst hx)
    | (split; rename_i heq; have hx : (_ : State) = _ := congrArg Prod.fst heq; dsimp only at hx; subst hx)
    | (intro (n : Nvp) hn; simp only [Nvp.wf, Bool.and_eq_true] at hn ⊢; first | exact ⟨⟨nvpPuts_wf _ _ hn.1.1, hn.1.2⟩, hn.2⟩ | exact ⟨hn.1, rfl⟩)
    | (intro (n : Nvp) hn; split <;> (with_reducible exact Nvp.wf_of hn rfl rfl rfl))
    | (intro (n : Nvp) hn; with_reducible exact Nvp.wf_of hn rfl rfl rfl)
    | (intro (n : Otp) hn; split <;> (with_reducible exact Otp.wf_of hn rfl rfl rfl rfl))
    | (intro (n : Otp) hn; with_reducible exact Otp.wf_of hn rfl rfl rfl rfl)
    | (intro (n : Upd) hn; split <;> (with_reducible exact Upd.wf_of hn rfl))
    | (intro (n : Upd) hn; with_reducible exact Upd.wf_of hn rfl)
    | (intro (n : EvStore) hn; rw [EvStore.wf_iff] at *; first | exact ⟨cellsWf_put 0 _ _ _ hn.1, hn.2⟩ | exact ⟨hn.1, cellsWf_put _ _ _ _ hn.2⟩ | exact ⟨cellsWf_filter 0 _ _ hn.1, hn.2⟩)
    | (intro (n : EvStore) hn; split <;> (with_reducible exact EvStore.wf_of hn rfl rfl))
    | (intro (n : EvStore) hn; with_reducible exact EvStore.wf_of hn rfl rfl)
    | (intro (n : Bbx) hn; split <;> (with_reducible exact EvStore.wf_of hn rfl rfl))
    | (intro (n : Bbx) hn; with_reducible exact EvStore.wf_eq hn rfl)
    | (intro (n : Bbx) hn; with_reducible exact EvStore.wf_of hn rfl rfl)
    | split)

theorem step_execFwLivenessWrite {s : State} : Answers [.aon] s (execFwLivenessWrite s) := by
  unfold execFwLivenessWrite
  repeat' (first
    | with_reducible apply Step.refl
    | with_reducible assumption
    | exact Eq.refl true
    | with_reducible apply Answers.ok
    | ((conv => arg 3; arg 28); refine Step.put ?_)
    | (extract_lets +onlyGivenNames lv; first | ((first | refine Step.cut lv ?_ ?_ | refine Answers.cut lv ?_ ?_); unfold lv; clear lv; rotate_left; intro hx; clear_value lv; revert lv; intro _ _) | (revert lv; intro _))
    | with_reducible apply Step.when
    | (with_reducible apply Step.foldl; intro fs fa)
    | (with_reducible apply Step.foldFin; intro fs fa)
    | (with_reducible apply Step.foldlFst; intro fs fa)
    | (split; rename_i heq; have hx : (_ : State) = _ := congrArg Prod.snd heq; dsimp only at hx; subst hx)
    | (split; rename_i heq; have hx : (_ : State) = _ := congrArg Prod.fst heq; dsimp only at hx; subst hx)
    | split)

/-! ### Arbiter -/

theorem step_modArb {s : State} {x : Fin 2} {f : ArbUnit → ArbUnit} : Step [.arb] s (State.modArb s x f) := by
  unfold State.modArb
  repeat' (first
    | with_reducible apply Step.refl
    | with_reducible assumption
    | exact Eq.refl true
    | ((conv => arg 3; arg 28); refine Step.put ?_)
    | (extract_lets +onlyGivenNames lv; first | ((first | refine Step.cut lv ?_ ?_ | refine Answers.cut lv ?_ ?_); unfold lv; clear lv; rotate_left; intro hx; clear_value lv; revert lv; intro _ _) | (revert lv; intro _))
    | split)

theorem step_takePulse {s : State} {y : Fin 2} : Step [.arb] s (State.takePulse s y) := by
  unfold State.takePulse
  repeat' (first
    | with_reducible apply Step.refl
    | with_reducible assumption
    | exact Eq.refl true
    | (extract_lets +onlyGivenNames lv; first | ((first | refine Step.cut lv ?_ ?_ | refine Answers.cut lv ?_ ?_); unfold lv; clear lv; rotate_left; intro hx; clear_value lv; revert lv; intro _ _) | (revert lv; intro _))
    | with_reducible apply Step.after step_modArb
    | split)

theorem step_takeOrDefer {s : State} {y : Fin 2} : Step [.arb] s (State.takeOrDefer s y) := by
  unfold State.takeOrDefer
  repeat' (first
    | with_reducible apply Step.refl
    | with_reducible assumption
    | exact Eq.refl true
    | ((conv => arg 3; arg 28); refine Step.put ?_)
    | (extract_lets +onlyGivenNames lv; first | ((first | refine Step.cut lv ?_ ?_ | refine Answers.cut lv ?_ ?_); unfold lv; clear lv; rotate_left; intro hx; clear_value lv; revert lv; intro _ _) | (revert lv; intro _))
    | with_reducible apply Step.after step_takePulse
    | split)

theorem step_verdict {s : State} {x : Fin 2} : Step [.chans, .arb] s (State.verdict s x) := by
  unfold State.verdict
  repeat' (first
    | with_reducible apply Step.refl
    | with_reducible assumption
    | exact Eq.refl true
    | ((conv => arg 3; arg 28); refine Step.put ?_)
    | (extract_lets +onlyGivenNames lv; first | ((first | refine Step.cut lv ?_ ?_ | refine Answers.cut lv ?_ ?_); unfold lv; clear lv; rotate_left; intro hx; clear_value lv; revert lv; intro _ _) | (revert lv; intro _))
    | with_reducible apply Step.after step_modArb
    | with_reducible apply Step.after step_takeOrDefer
    | with_reducible apply Step.after step_satEv
    | with_reducible apply Step.after step_fire
    | split)

theorem step_classChange {s : State} {x : Fin 2} {c : HbClass} : Step [.chans, .arb] s (State.classChange s x c) := by
  unfold State.classChange
  repeat' (first
    | with_reducible apply Step.refl
    | with_reducible assumption
    | exact Eq.refl true
    | (extract_lets +onlyGivenNames lv; first | ((first | refine Step.cut lv ?_ ?_ | refine Answers.cut lv ?_ ?_); unfold lv; clear lv; rotate_left; intro hx; clear_value lv; revert lv; intro _ _) | (revert lv; intro _))
    | with_reducible apply Step.after step_modArb
    | with_reducible apply Step.after step_verdict
    | with_reducible apply Step.after step_fire
    | split)

theorem step_execVhbEdge {x : Fin 2} {s : State} : Answers [.chans, .arb] s (execVhbEdge x s) := by
  unfold execVhbEdge
  repeat' (first
    | with_reducible apply Step.refl
    | with_reducible assumption
    | exact Eq.refl true
    | with_reducible apply Answers.ok
    | (extract_lets +onlyGivenNames lv; first | ((first | refine Step.cut lv ?_ ?_ | refine Answers.cut lv ?_ ?_); unfold lv; clear lv; rotate_left; intro hx; clear_value lv; revert lv; intro _ _) | (revert lv; intro _))
    | with_reducible apply Step.after step_modArb
    | with_reducible apply Step.after step_classChange
    | split)

theorem step_execHbDeadTimeout {x : Fin 2} {s : State} : Answers [.time, .chans, .arb] s (execHbDeadTimeout x s) := by
  unfold execHbDeadTimeout
  repeat' (first
    | with_reducible apply Step.refl
    | with_reducible assumption
    | exact Eq.refl true
    | with_reducible apply Answers.ok
    | ((conv => arg 3; arg 28); refine Step.put ?_)
    | (extract_lets +onlyGivenNames lv; first | ((first | refine Step.cut lv ?_ ?_ | refine Answers.cut lv ?_ ?_); unfold lv; clear lv; rotate_left; intro hx; clear_value lv; revert lv; intro _ _) | (revert lv; intro _))
    | with_reducible apply Step.after step_classChange
    | with_reducible apply Step.after step_modArb
    | with_reducible apply Step.when
    | (with_reducible refine Step.whenAt rfl ?_ (fun u => ?_))
    | (with_reducible apply Step.foldl; intro fs fa)
    | (with_reducible apply Step.foldFin; intro fs fa)
    | (with_reducible apply Step.foldlFst; intro fs fa)
    | exact (fun _ => rfl)
    | (intro n; dsimp only; split <;> rfl)
    | (split; rename_i heq; have hx : (_ : State) = _ := congrArg Prod.snd heq; dsimp only at hx; subst hx)
    | (split; rename_i heq; have hx : (_ : State) = _ := congrArg Prod.fst heq; dsimp only at hx; subst hx)
    | (intro (n : Nvp) hn; simp only [Nvp.wf, Bool.and_eq_true] at hn ⊢; first | exact ⟨⟨nvpPuts_wf _ _ hn.1.1, hn.1.2⟩, hn.2⟩ | exact ⟨hn.1, rfl⟩)
    | (intro (n : Nvp) hn; split <;> (with_reducible exact Nvp.wf_of hn rfl rfl rfl))
    | (intro (n : Nvp) hn; with_reducible exact Nvp.wf_of hn rfl rfl rfl)
    | (intro (n : Otp) hn; split <;> (with_reducible exact Otp.wf_of hn rfl rfl rfl rfl))
    | (intro (n : Otp) hn; with_reducible exact Otp.wf_of hn rfl rfl rfl rfl)
    | (intro (n : Upd) hn; split <;> (with_reducible exact Upd.wf_of hn rfl))
    | (intro (n : Upd) hn; with_reducible exact Upd.wf_of hn rfl)
    | (intro (n : EvStore) hn; rw [EvStore.wf_iff] at *; first | exact ⟨cellsWf_put 0 _ _ _ hn.1, hn.2⟩ | exact ⟨hn.1, cellsWf_put _ _ _ _ hn.2⟩ | exact ⟨cellsWf_filter 0 _ _ hn.1, hn.2⟩)
    | (intro (n : EvStore) hn; split <;> (with_reducible exact EvStore.wf_of hn rfl rfl))
    | (intro (n : EvStore) hn; with_reducible exact EvStore.wf_of hn rfl rfl)
    | (intro (n : Bbx) hn; split <;> (with_reducible exact EvStore.wf_of hn rfl rfl))
    | (intro (n : Bbx) hn; with_reducible exact EvStore.wf_eq hn rfl)
    | (intro (n : Bbx) hn; with_reducible exact EvStore.wf_of hn rfl rfl)
    | split)

theorem step_execTakeDeferredEval {s : State} : Answers [.time, .arb] s (execTakeDeferredEval s) := by
  unfold execTakeDeferredEval
  repeat' (first
    | with_reducible apply Step.refl
    | with_reducible assumption
    | exact Eq.refl true
    | with_reducible apply Answers.ok
    | ((conv => arg 3; arg 28); refine Step.put ?_)
    | (extract_lets +onlyGivenNames lv; first | ((first | refine Step.cut lv ?_ ?_ | refine Answers.cut lv ?_ ?_); unfold lv; clear lv; rotate_left; intro hx; clear_value lv; revert lv; intro _ _) | (revert lv; intro _))
    | with_reducible apply Step.after step_takePulse
    | with_reducible apply Step.when
    | (with_reducible refine Step.whenAt rfl ?_ (fun u => ?_))
    | (with_reducible apply Step.foldl; intro fs fa)
    | (with_reducible apply Step.foldFin; intro fs fa)
    | (with_reducible apply Step.foldlFst; intro fs fa)
    | exact (fun _ => rfl)
    | (intro n; dsimp only; split <;> rfl)
    | (split; rename_i heq; have hx : (_ : State) = _ := congrArg Prod.snd heq; dsimp only at hx; subst hx)
    | (split; rename_i heq; have hx : (_ : State) = _ := congrArg Prod.fst heq; dsimp only at hx; subst hx)
    | (intro (n : Nvp) hn; simp only [Nvp.wf, Bool.and_eq_true] at hn ⊢; first | exact ⟨⟨nvpPuts_wf _ _ hn.1.1, hn.1.2⟩, hn.2⟩ | exact ⟨hn.1, rfl⟩)
    | (intro (n : Nvp) hn; split <;> (with_reducible exact Nvp.wf_of hn rfl rfl rfl))
    | (intro (n : Nvp) hn; with_reducible exact Nvp.wf_of hn rfl rfl rfl)
    | (intro (n : Otp) hn; split <;> (with_reducible exact Otp.wf_of hn rfl rfl rfl rfl))
    | (intro (n : Otp) hn; with_reducible exact Otp.wf_of hn rfl rfl rfl rfl)
    | (intro (n : Upd) hn; split <;> (with_reducible exact Upd.wf_of hn rfl))
    | (intro (n : Upd) hn; with_reducible exact Upd.wf_of hn rfl)
    | (intro (n : EvStore) hn; rw [EvStore.wf_iff] at *; first | exact ⟨cellsWf_put 0 _ _ _ hn.1, hn.2⟩ | exact ⟨hn.1, cellsWf_put _ _ _ _ hn.2⟩ | exact ⟨cellsWf_filter 0 _ _ hn.1, hn.2⟩)
    | (intro (n : EvStore) hn; split <;> (with_reducible exact EvStore.wf_of hn rfl rfl))
    | (intro (n : EvStore) hn; with_reducible exact EvStore.wf_of hn rfl rfl)
    | (intro (n : Bbx) hn; split <;> (with_reducible exact EvStore.wf_of hn rfl rfl))
    | (intro (n : Bbx) hn; with_reducible exact EvStore.wf_eq hn rfl)
    | (intro (n : Bbx) hn; with_reducible exact EvStore.wf_of hn rfl rfl)
    | split)

theorem step_execTakePulseEnd {s : State} : Answers [.time, .arb] s (execTakePulseEnd s) := by
  unfold execTakePulseEnd
  repeat' (first
    | with_reducible apply Step.refl
    | with_reducible assumption
    | exact Eq.refl true
    | with_reducible apply Answers.ok
    | ((conv => arg 3; arg 28); refine Step.put ?_)
    | (extract_lets +onlyGivenNames lv; first | ((first | refine Step.cut lv ?_ ?_ | refine Answers.cut lv ?_ ?_); unfold lv; clear lv; rotate_left; intro hx; clear_value lv; revert lv; intro _ _) | (revert lv; intro _))
    | with_reducible apply Step.after step_modArb
    | with_reducible apply Step.when
    | (with_reducible refine Step.whenDue rfl ?_ (fun u => ?_))
    | (with_reducible apply Step.foldl; intro fs fa)
    | (with_reducible apply Step.foldFin; intro fs fa)
    | (with_reducible apply Step.foldlFst; intro fs fa)
    | exact (fun _ => rfl)
    | (intro n; dsimp only; split <;> rfl)
    | (split; rename_i heq; have hx : (_ : State) = _ := congrArg Prod.snd heq; dsimp only at hx; subst hx)
    | (split; rename_i heq; have hx : (_ : State) = _ := congrArg Prod.fst heq; dsimp only at hx; subst hx)
    | (intro (n : Nvp) hn; simp only [Nvp.wf, Bool.and_eq_true] at hn ⊢; first | exact ⟨⟨nvpPuts_wf _ _ hn.1.1, hn.1.2⟩, hn.2⟩ | exact ⟨hn.1, rfl⟩)
    | (intro (n : Nvp) hn; split <;> (with_reducible exact Nvp.wf_of hn rfl rfl rfl))
    | (intro (n : Nvp) hn; with_reducible exact Nvp.wf_of hn rfl rfl rfl)
    | (intro (n : Otp) hn; split <;> (with_reducible exact Otp.wf_of hn rfl rfl rfl rfl))
    | (intro (n : Otp) hn; with_reducible exact Otp.wf_of hn rfl rfl rfl rfl)
    | (intro (n : Upd) hn; split <;> (with_reducible exact Upd.wf_of hn rfl))
    | (intro (n : Upd) hn; with_reducible exact Upd.wf_of hn rfl)
    | (intro (n : EvStore) hn; rw [EvStore.wf_iff] at *; first | exact ⟨cellsWf_put 0 _ _ _ hn.1, hn.2⟩ | exact ⟨hn.1, cellsWf_put _ _ _ _ hn.2⟩ | exact ⟨cellsWf_filter 0 _ _ hn.1, hn.2⟩)
    | (intro (n : EvStore) hn; split <;> (with_reducible exact EvStore.wf_of hn rfl rfl))
    | (intro (n : EvStore) hn; with_reducible exact EvStore.wf_of hn rfl rfl)
    | (intro (n : Bbx) hn; split <;> (with_reducible exact EvStore.wf_of hn rfl rfl))
    | (intro (n : Bbx) hn; with_reducible exact EvStore.wf_eq hn rfl)
    | (intro (n : Bbx) hn; with_reducible exact EvStore.wf_of hn rfl rfl)
    | split)

theorem step_execDemoteHoldEnd {x : Fin 2} {s : State} : Answers [.time, .arb] s (execDemoteHoldEnd x s) := by
  unfold execDemoteHoldEnd
  repeat' (first
    | with_reducible apply Step.refl
    | with_reducible assumption
    | exact Eq.refl true
    | with_reducible apply Answers.ok
    | ((conv => arg 3; arg 28); refine Step.put ?_)
    | (extract_lets +onlyGivenNames lv; first | ((first | refine Step.cut lv ?_ ?_ | refine Answers.cut lv ?_ ?_); unfold lv; clear lv; rotate_left; intro hx; clear_value lv; revert lv; intro _ _) | (revert lv; intro _))
    | with_reducible apply Step.after step_modArb
    | with_reducible apply Step.when
    | (with_reducible refine Step.whenAt rfl ?_ (fun u => ?_))
    | (with_reducible apply Step.foldl; intro fs fa)
    | (with_reducible apply Step.foldFin; intro fs fa)
    | (with_reducible apply Step.foldlFst; intro fs fa)
    | exact (fun _ => rfl)
    | (intro n; dsimp only; split <;> rfl)
    | (split; rename_i heq; have hx : (_ : State) = _ := congrArg Prod.snd heq; dsimp only at hx; subst hx)
    | (split; rename_i heq; have hx : (_ : State) = _ := congrArg Prod.fst heq; dsimp only at hx; subst hx)
    | (intro (n : Nvp) hn; simp only [Nvp.wf, Bool.and_eq_true] at hn ⊢; first | exact ⟨⟨nvpPuts_wf _ _ hn.1.1, hn.1.2⟩, hn.2⟩ | exact ⟨hn.1, rfl⟩)
    | (intro (n : Nvp) hn; split <;> (with_reducible exact Nvp.wf_of hn rfl rfl rfl))
    | (intro (n : Nvp) hn; with_reducible exact Nvp.wf_of hn rfl rfl rfl)
    | (intro (n : Otp) hn; split <;> (with_reducible exact Otp.wf_of hn rfl rfl rfl rfl))
    | (intro (n : Otp) hn; with_reducible exact Otp.wf_of hn rfl rfl rfl rfl)
    | (intro (n : Upd) hn; split <;> (with_reducible exact Upd.wf_of hn rfl))
    | (intro (n : Upd) hn; with_reducible exact Upd.wf_of hn rfl)
    | (intro (n : EvStore) hn; rw [EvStore.wf_iff] at *; first | exact ⟨cellsWf_put 0 _ _ _ hn.1, hn.2⟩ | exact ⟨hn.1, cellsWf_put _ _ _ _ hn.2⟩ | exact ⟨cellsWf_filter 0 _ _ hn.1, hn.2⟩)
    | (intro (n : EvStore) hn; split <;> (with_reducible exact EvStore.wf_of hn rfl rfl))
    | (intro (n : EvStore) hn; with_reducible exact EvStore.wf_of hn rfl rfl)
    | (intro (n : Bbx) hn; split <;> (with_reducible exact EvStore.wf_of hn rfl rfl))
    | (intro (n : Bbx) hn; with_reducible exact EvStore.wf_eq hn rfl)
    | (intro (n : Bbx) hn; with_reducible exact EvStore.wf_of hn rfl rfl)
    | split)

/-! ### Chezon -/

theorem step_peerHigher {s : State} {c : Byte} : Step [.regs, .chans, .sys] s (State.peerHigher s c) := by
  unfold State.peerHigher
  repeat' (first
    | with_reducible apply Step.refl
    | with_reducible assumption
    | exact Eq.refl true
    | ((conv => arg 3; arg 28); refine Step.put ?_)
    | (extract_lets +onlyGivenNames lv; first | ((first | refine Step.cut lv ?_ ?_ | refine Answers.cut lv ?_ ?_); unfold lv; clear lv; rotate_left; intro hx; clear_value lv; revert lv; intro _ _) | (revert lv; intro _))
    | with_reducible apply Step.after step_stick
    | with_reducible apply Step.after step_fire
    | split)

theorem step_digestEval {s : State} : Step [.chans, .red] s (State.digestEval s) := by
  unfold State.digestEval
  repeat' (first
    | with_reducible apply Step.refl
    | with_reducible assumption
    | exact Eq.refl true
    | (extract_lets +onlyGivenNames lv; first | ((first | refine Step.cut lv ?_ ?_ | refine Answers.cut lv ?_ ?_); unfold lv; clear lv; rotate_left; intro hx; clear_value lv; revert lv; intro _ _) | (revert lv; intro _))
    | with_reducible apply Step.after step_modRed
    | with_reducible apply Step.after step_fire
    | split)

theorem step_statusTaken {s : State} {p : PeerStatus} : Step [.chans, .sys, .red, .seq] s (State.statusTaken s p) := by
  unfold State.statusTaken
  repeat' (first
    | with_reducible apply Step.refl
    | with_reducible assumption
    | exact Eq.refl true
    | ((conv => arg 3; arg 28); refine Step.put ?_)
    | (extract_lets +onlyGivenNames lv; first | ((first | refine Step.cut lv ?_ ?_ | refine Answers.cut lv ?_ ?_); unfold lv; clear lv; rotate_left; intro hx; clear_value lv; revert lv; intro _ _) | (revert lv; intro _))
    | with_reducible apply Step.after step_seqMirror
    | with_reducible apply Step.after step_modRed
    | with_reducible apply Step.after step_digestEval
    | split)

theorem step_execChezonTrained {lane0 : Bool} {lane1 : Bool} {s : State} : Answers [.chans, .red] s (execChezonTrained lane0 lane1 s) := by
  unfold execChezonTrained
  repeat' (first
    | with_reducible apply Step.refl
    | with_reducible assumption
    | exact Eq.refl true
    | with_reducible apply Answers.ok
    | (extract_lets +onlyGivenNames lv; first | ((first | refine Step.cut lv ?_ ?_ | refine Answers.cut lv ?_ ?_); unfold lv; clear lv; rotate_left; intro hx; clear_value lv; revert lv; intro _ _) | (revert lv; intro _))
    | with_reducible apply Step.after step_fire
    | with_reducible apply Step.after step_modRed
    | split)

theorem step_execChezonTrainingFailed {s : State} : Answers [.red] s (execChezonTrainingFailed s) := by
  unfold execChezonTrainingFailed
  repeat' (first
    | with_reducible apply Step.refl
    | with_reducible assumption
    | exact Eq.refl true
    | with_reducible apply Answers.ok
    | (extract_lets +onlyGivenNames lv; first | ((first | refine Step.cut lv ?_ ?_ | refine Answers.cut lv ?_ ?_); unfold lv; clear lv; rotate_left; intro hx; clear_value lv; revert lv; intro _ _) | (revert lv; intro _))
    | with_reducible apply Step.after step_modRed
    | with_reducible apply Step.when
    | (with_reducible apply Step.foldl; intro fs fa)
    | (with_reducible apply Step.foldFin; intro fs fa)
    | (with_reducible apply Step.foldlFst; intro fs fa)
    | (split; rename_i heq; have hx : (_ : State) = _ := congrArg Prod.snd heq; dsimp only at hx; subst hx)
    | (split; rename_i heq; have hx : (_ : State) = _ := congrArg Prod.fst heq; dsimp only at hx; subst hx)
    | split)

theorem step_execChezonOneLane {lane : Fin 2} {s : State} : Answers [.chans, .red] s (execChezonOneLane lane s) := by
  unfold execChezonOneLane
  repeat' (first
    | with_reducible apply Step.refl
    | with_reducible assumption
    | exact Eq.refl true
    | with_reducible apply Answers.ok
    | (extract_lets +onlyGivenNames lv; first | ((first | refine Step.cut lv ?_ ?_ | refine Answers.cut lv ?_ ?_); unfold lv; clear lv; rotate_left; intro hx; clear_value lv; revert lv; intro _ _) | (revert lv; intro _))
    | with_reducible apply Step.after step_fire
    | with_reducible apply Step.after step_modRed
    | with_reducible apply Step.when
    | (with_reducible apply Step.foldl; intro fs fa)
    | (with_reducible apply Step.foldFin; intro fs fa)
    | (with_reducible apply Step.foldlFst; intro fs fa)
    | (split; rename_i heq; have hx : (_ : State) = _ := congrArg Prod.snd heq; dsimp only at hx; subst hx)
    | (split; rename_i heq; have hx : (_ : State) = _ := congrArg Prod.fst heq; dsimp only at hx; subst hx)
    | split)

theorem step_execChezonLinkDown {s : State} : Answers [.time, .chans, .sys, .red, .upd] s (execChezonLinkDown s) := by
  unfold execChezonLinkDown
  exact Answers.ok (Step.whenAt rfl Step.refl (fun u => Step.after step_fire rfl (Step.put (Step.after step_modRed rfl Step.refl))))

theorem step_execChezonPacketSend {s : State} : Answers [.red] s (execChezonPacketSend s) := by
  unfold execChezonPacketSend
  repeat' (first
    | with_reducible apply Step.refl
    | with_reducible assumption
    | exact Eq.refl true
    | with_reducible apply Answers.ok
    | ((conv => arg 3; arg 28); refine Step.put ?_)
    | (extract_lets +onlyGivenNames lv; first | ((first | refine Step.cut lv ?_ ?_ | refine Answers.cut lv ?_ ?_); unfold lv; clear lv; rotate_left; intro hx; clear_value lv; revert lv; intro _ _) | (revert lv; intro _))
    | with_reducible apply Step.after step_modRed
    | with_reducible apply Step.when
    | (with_reducible apply Step.foldl; intro fs fa)
    | (with_reducible apply Step.foldFin; intro fs fa)
    | (with_reducible apply Step.foldlFst; intro fs fa)
    | exact (fun _ => rfl)
    | (intro n; dsimp only; split <;> rfl)
    | (split; rename_i heq; have hx : (_ : State) = _ := congrArg Prod.snd heq; dsimp only at hx; subst hx)
    | (split; rename_i heq; have hx : (_ : State) = _ := congrArg Prod.fst heq; dsimp only at hx; subst hx)
    | (intro (n : Nvp) hn; simp only [Nvp.wf, Bool.and_eq_true] at hn ⊢; first | exact ⟨⟨nvpPuts_wf _ _ hn.1.1, hn.1.2⟩, hn.2⟩ | exact ⟨hn.1, rfl⟩)
    | (intro (n : Nvp) hn; split <;> (with_reducible exact Nvp.wf_of hn rfl rfl rfl))
    | (intro (n : Nvp) hn; with_reducible exact Nvp.wf_of hn rfl rfl rfl)
    | (intro (n : Otp) hn; split <;> (with_reducible exact Otp.wf_of hn rfl rfl rfl rfl))
    | (intro (n : Otp) hn; with_reducible exact Otp.wf_of hn rfl rfl rfl rfl)
    | (intro (n : Upd) hn; split <;> (with_reducible exact Upd.wf_of hn rfl))
    | (intro (n : Upd) hn; with_reducible exact Upd.wf_of hn rfl)
    | (intro (n : EvStore) hn; rw [EvStore.wf_iff] at *; first | exact ⟨cellsWf_put 0 _ _ _ hn.1, hn.2⟩ | exact ⟨hn.1, cellsWf_put _ _ _ _ hn.2⟩ | exact ⟨cellsWf_filter 0 _ _ hn.1, hn.2⟩)
    | (intro (n : EvStore) hn; split <;> (with_reducible exact EvStore.wf_of hn rfl rfl))
    | (intro (n : EvStore) hn; with_reducible exact EvStore.wf_of hn rfl rfl)
    | (intro (n : Bbx) hn; split <;> (with_reducible exact EvStore.wf_of hn rfl rfl))
    | (intro (n : Bbx) hn; with_reducible exact EvStore.wf_eq hn rfl)
    | (intro (n : Bbx) hn; with_reducible exact EvStore.wf_of hn rfl rfl)
    | split)

theorem step_execTimeTransfer {offset : Int} {peerTick : Nat} {aligned : Bool} {s : State} : Answers [.tick, .regs, .chans, .red] s (execTimeTransfer offset peerTick aligned s) := by
  unfold execTimeTransfer
  repeat' (first
    | with_reducible apply Step.refl
    | with_reducible assumption
    | exact Eq.refl true
    | with_reducible apply Answers.ok
    | ((conv => arg 3; arg 28); refine Step.put ?_)
    | (extract_lets +onlyGivenNames lv; first | ((first | refine Step.cut lv ?_ ?_ | refine Answers.cut lv ?_ ?_); unfold lv; clear lv; rotate_left; intro hx; clear_value lv; revert lv; intro _ _) | (revert lv; intro _))
    | with_reducible apply Step.after step_modRed
    | with_reducible apply Step.after step_readyUp
    | split)

theorem step_execSnapshotCapture {s : State} : Answers [.freeCtr, .red] s (execSnapshotCapture s) := by
  unfold execSnapshotCapture
  repeat' (first
    | with_reducible apply Step.refl
    | with_reducible assumption
    | exact Eq.refl true
    | with_reducible apply Answers.ok
    | (extract_lets +onlyGivenNames lv; first | ((first | refine Step.cut lv ?_ ?_ | refine Answers.cut lv ?_ ?_); unfold lv; clear lv; rotate_left; intro hx; clear_value lv; revert lv; intro _ _) | (revert lv; intro _))
    | with_reducible apply Step.after step_modRed
    | with_reducible apply Step.after step_drawn
    | with_reducible apply Step.when
    | (with_reducible apply Step.foldl; intro fs fa)
    | (with_reducible apply Step.foldFin; intro fs fa)
    | (with_reducible apply Step.foldlFst; intro fs fa)
    | (split; rename_i heq; have hx : (_ : State) = _ := congrArg Prod.snd heq; dsimp only at hx; subst hx)
    | (split; rename_i heq; have hx : (_ : State) = _ := congrArg Prod.fst heq; dsimp only at hx; subst hx)
    | split)

theorem step_compare {s : State} {item : Fin 83} {differs : Bool} {mask : Fld} {bit : Nat} {cause : Nat} {arg : Nat} : Step [.regs, .chans, .red] s (State.compare s item differs mask bit cause arg) := by
  unfold State.compare
  repeat' (first
    | with_reducible apply Step.refl
    | with_reducible assumption
    | exact Eq.refl true
    | (extract_lets +onlyGivenNames lv; first | ((first | refine Step.cut lv ?_ ?_ | refine Answers.cut lv ?_ ?_); unfold lv; clear lv; rotate_left; intro hx; clear_value lv; revert lv; intro _ _) | (revert lv; intro _))
    | with_reducible apply Step.after step_modRed
    | with_reducible apply Step.after step_satEv
    | with_reducible apply Step.after step_fire
    | with_reducible apply Step.after step_stick
    | with_reducible apply Step.after step_stickBit
    | split)

theorem step_xcheckChannels {s : State} {b : Snapshot} : Step [.regs, .chans, .red] s (State.xcheckChannels s b) := by
  unfold State.xcheckChannels
  repeat' (first
    | with_reducible apply Step.refl
    | with_reducible assumption
    | exact Eq.refl true
    | (extract_lets +onlyGivenNames lv; first | ((first | refine Step.cut lv ?_ ?_ | refine Answers.cut lv ?_ ?_); unfold lv; clear lv; rotate_left; intro hx; clear_value lv; revert lv; intro _ _) | (revert lv; intro _))
    | with_reducible apply Step.after step_compare
    | with_reducible apply Step.when
    | (with_reducible apply Step.foldl; intro fs fa)
    | (with_reducible apply Step.foldFin; intro fs fa)
    | (with_reducible apply Step.foldlFst; intro fs fa)
    | (split; rename_i heq; have hx : (_ : State) = _ := congrArg Prod.snd heq; dsimp only at hx; subst hx)
    | (split; rename_i heq; have hx : (_ : State) = _ := congrArg Prod.fst heq; dsimp only at hx; subst hx)
    | split)

theorem step_xcheckStrings {s : State} {b : Snapshot} : Step [.regs, .chans, .red] s (State.xcheckStrings s b) := by
  unfold State.xcheckStrings
  repeat' (first
    | with_reducible apply Step.refl
    | with_reducible assumption
    | exact Eq.refl true
    | (extract_lets +onlyGivenNames lv; first | ((first | refine Step.cut lv ?_ ?_ | refine Answers.cut lv ?_ ?_); unfold lv; clear lv; rotate_left; intro hx; clear_value lv; revert lv; intro _ _) | (revert lv; intro _))
    | with_reducible apply Step.after step_modRed
    | with_reducible apply Step.after step_compare
    | with_reducible apply Step.when
    | (with_reducible apply Step.foldl; intro fs fa)
    | (with_reducible apply Step.foldFin; intro fs fa)
    | (with_reducible apply Step.foldlFst; intro fs fa)
    | (split; rename_i heq; have hx : (_ : State) = _ := congrArg Prod.snd heq; dsimp only at hx; subst hx)
    | (split; rename_i heq; have hx : (_ : State) = _ := congrArg Prod.fst heq; dsimp only at hx; subst hx)
    | split)

theorem step_xcheckScan {s : State} {b : Snapshot} : Step [.regs, .chans, .red] s (State.xcheckScan s b) := by
  unfold State.xcheckScan
  repeat' (first
    | with_reducible apply Step.refl
    | with_reducible assumption
    | exact Eq.refl true
    | (extract_lets +onlyGivenNames lv; first | ((first | refine Step.cut lv ?_ ?_ | refine Answers.cut lv ?_ ?_); unfold lv; clear lv; rotate_left; intro hx; clear_value lv; revert lv; intro _ _) | (revert lv; intro _))
    | with_reducible apply Step.after step_compare
    | with_reducible apply Step.after step_modRed
    | split)

theorem step_xcheckDispatch {s : State} {b : Snapshot} : Step [.regs, .chans, .red] s (State.xcheckDispatch s b) := by
  unfold State.xcheckDispatch
  repeat' (first
    | with_reducible apply Step.refl
    | with_reducible assumption
    | exact Eq.refl true
    | (extract_lets +onlyGivenNames lv; first | ((first | refine Step.cut lv ?_ ?_ | refine Answers.cut lv ?_ ?_); unfold lv; clear lv; rotate_left; intro hx; clear_value lv; revert lv; intro _ _) | (revert lv; intro _))
    | with_reducible apply Step.after step_modRed
    | with_reducible apply Step.after step_compare
    | with_reducible apply Step.when
    | (with_reducible apply Step.foldl; intro fs fa)
    | (with_reducible apply Step.foldFin; intro fs fa)
    | (with_reducible apply Step.foldlFst; intro fs fa)
    | (split; rename_i heq; have hx : (_ : State) = _ := congrArg Prod.snd heq; dsimp only at hx; subst hx)
    | (split; rename_i heq; have hx : (_ : State) = _ := congrArg Prod.fst heq; dsimp only at hx; subst hx)
    | split)

theorem step_crossCheck {s : State} {b : Snapshot} : Step [.regs, .chans, .red] s (State.crossCheck s b) := by
  unfold State.crossCheck
  repeat' (first
    | with_reducible apply Step.refl
    | with_reducible assumption
    | exact Eq.refl true
    | (extract_lets +onlyGivenNames lv; first | ((first | refine Step.cut lv ?_ ?_ | refine Answers.cut lv ?_ ?_); unfold lv; clear lv; rotate_left; intro hx; clear_value lv; revert lv; intro _ _) | (revert lv; intro _))
    | with_reducible apply Step.after step_modRed
    | with_reducible apply Step.after step_xcheckDispatch
    | with_reducible apply Step.after step_xcheckScan
    | with_reducible apply Step.after step_xcheckStrings
    | with_reducible apply Step.after step_xcheckChannels
    | split)

theorem step_snapAdopt {s : State} {b : Snapshot} : Step [.aon, .law, .pwm, .red, .epoch] s (State.snapAdopt s b) := by
  unfold State.snapAdopt
  repeat' (first
    | with_reducible apply Step.refl
    | with_reducible assumption
    | exact Eq.refl true
    | ((conv => arg 3; arg 28); refine Step.put ?_)
    | (extract_lets +onlyGivenNames lv; first | ((first | refine Step.cut lv ?_ ?_ | refine Answers.cut lv ?_ ?_); unfold lv; clear lv; rotate_left; intro hx; clear_value lv; revert lv; intro _ _) | (revert lv; intro _))
    | with_reducible apply Step.after step_modEng
    | with_reducible apply Step.after step_modRail
    | with_reducible apply Step.after step_latchClaim
    | with_reducible apply Step.after step_modRed
    | with_reducible apply Step.when
    | (with_reducible apply Step.foldl; intro fs fa)
    | (with_reducible apply Step.foldFin; intro fs fa)
    | (with_reducible apply Step.foldlFst; intro fs fa)
    | (split; rename_i heq; have hx : (_ : State) = _ := congrArg Prod.snd heq; dsimp only at hx; subst hx)
    | (split; rename_i heq; have hx : (_ : State) = _ := congrArg Prod.fst heq; dsimp only at hx; subst hx)
    | split)

theorem step_execSnapshotReceived {snap : Snapshot} {crcOk : Bool} {s : State} : Answers [.regs, .chans, .aon, .law, .pwm, .red, .epoch] s (execSnapshotReceived snap crcOk s) := by
  unfold execSnapshotReceived
  repeat' (first
    | with_reducible apply Step.refl
    | with_reducible assumption
    | exact Eq.refl true
    | with_reducible apply Answers.ok
    | (extract_lets +onlyGivenNames lv; first | ((first | refine Step.cut lv ?_ ?_ | refine Answers.cut lv ?_ ?_); unfold lv; clear lv; rotate_left; intro hx; clear_value lv; revert lv; intro _ _) | (revert lv; intro _))
    | with_reducible apply Step.after step_modRed
    | with_reducible apply Step.after step_satEv
    | with_reducible apply Step.after step_fire
    | with_reducible apply Step.after step_stick
    | with_reducible apply Step.after step_readyUp
    | with_reducible apply Step.after step_crossCheck
    | with_reducible apply Step.after step_snapAdopt
    | split)

theorem step_execStandbyKeepExpiry {s : State} : Answers [.time, .chans, .red] s (execStandbyKeepExpiry s) := by
  unfold execStandbyKeepExpiry
  repeat' (first
    | with_reducible apply Step.refl
    | with_reducible assumption
    | exact Eq.refl true
    | with_reducible apply Answers.ok
    | ((conv => arg 3; arg 28); refine Step.put ?_)
    | (extract_lets +onlyGivenNames lv; first | ((first | refine Step.cut lv ?_ ?_ | refine Answers.cut lv ?_ ?_); unfold lv; clear lv; rotate_left; intro hx; clear_value lv; revert lv; intro _ _) | (revert lv; intro _))
    | with_reducible apply Step.after step_readyDown
    | with_reducible apply Step.when
    | (with_reducible refine Step.whenDue rfl ?_ (fun u => ?_))
    | (with_reducible apply Step.foldl; intro fs fa)
    | (with_reducible apply Step.foldFin; intro fs fa)
    | (with_reducible apply Step.foldlFst; intro fs fa)
    | exact (fun _ => rfl)
    | (intro n; dsimp only; split <;> rfl)
    | (split; rename_i heq; have hx : (_ : State) = _ := congrArg Prod.snd heq; dsimp only at hx; subst hx)
    | (split; rename_i heq; have hx : (_ : State) = _ := congrArg Prod.fst heq; dsimp only at hx; subst hx)
    | (intro (n : Nvp) hn; simp only [Nvp.wf, Bool.and_eq_true] at hn ⊢; first | exact ⟨⟨nvpPuts_wf _ _ hn.1.1, hn.1.2⟩, hn.2⟩ | exact ⟨hn.1, rfl⟩)
    | (intro (n : Nvp) hn; split <;> (with_reducible exact Nvp.wf_of hn rfl rfl rfl))
    | (intro (n : Nvp) hn; with_reducible exact Nvp.wf_of hn rfl rfl rfl)
    | (intro (n : Otp) hn; split <;> (with_reducible exact Otp.wf_of hn rfl rfl rfl rfl))
    | (intro (n : Otp) hn; with_reducible exact Otp.wf_of hn rfl rfl rfl rfl)
    | (intro (n : Upd) hn; split <;> (with_reducible exact Upd.wf_of hn rfl))
    | (intro (n : Upd) hn; with_reducible exact Upd.wf_of hn rfl)
    | (intro (n : EvStore) hn; rw [EvStore.wf_iff] at *; first | exact ⟨cellsWf_put 0 _ _ _ hn.1, hn.2⟩ | exact ⟨hn.1, cellsWf_put _ _ _ _ hn.2⟩ | exact ⟨cellsWf_filter 0 _ _ hn.1, hn.2⟩)
    | (intro (n : EvStore) hn; split <;> (with_reducible exact EvStore.wf_of hn rfl rfl))
    | (intro (n : EvStore) hn; with_reducible exact EvStore.wf_of hn rfl rfl)
    | (intro (n : Bbx) hn; split <;> (with_reducible exact EvStore.wf_of hn rfl rfl))
    | (intro (n : Bbx) hn; with_reducible exact EvStore.wf_eq hn rfl)
    | (intro (n : Bbx) hn; with_reducible exact EvStore.wf_of hn rfl rfl)
    | split)

theorem step_execLonePeerHigherTimeout {s : State} : Answers [.time, .regs, .config] s (execLonePeerHigherTimeout s) := by
  unfold execLonePeerHigherTimeout
  repeat' (first
    | with_reducible apply Step.refl
    | with_reducible assumption
    | exact Eq.refl true
    | with_reducible apply Answers.ok
    | ((conv => arg 3; arg 28); refine Step.put ?_)
    | (extract_lets +onlyGivenNames lv; first | ((first | refine Step.cut lv ?_ ?_ | refine Answers.cut lv ?_ ?_); unfold lv; clear lv; rotate_left; intro hx; clear_value lv; revert lv; intro _ _) | (revert lv; intro _))
    | with_reducible apply Step.after step_hwFld
    | with_reducible apply Step.when
    | (with_reducible refine Step.whenDue rfl ?_ (fun u => ?_))
    | (with_reducible apply Step.foldl; intro fs fa)
    | (with_reducible apply Step.foldFin; intro fs fa)
    | (with_reducible apply Step.foldlFst; intro fs fa)
    | exact (fun _ => rfl)
    | (intro n; dsimp only; split <;> rfl)
    | (split; rename_i heq; have hx : (_ : State) = _ := congrArg Prod.snd heq; dsimp only at hx; subst hx)
    | (split; rename_i heq; have hx : (_ : State) = _ := congrArg Prod.fst heq; dsimp only at hx; subst hx)
    | (intro (n : Nvp) hn; simp only [Nvp.wf, Bool.and_eq_true] at hn ⊢; first | exact ⟨⟨nvpPuts_wf _ _ hn.1.1, hn.1.2⟩, hn.2⟩ | exact ⟨hn.1, rfl⟩)
    | (intro (n : Nvp) hn; split <;> (with_reducible exact Nvp.wf_of hn rfl rfl rfl))
    | (intro (n : Nvp) hn; with_reducible exact Nvp.wf_of hn rfl rfl rfl)
    | (intro (n : Otp) hn; split <;> (with_reducible exact Otp.wf_of hn rfl rfl rfl rfl))
    | (intro (n : Otp) hn; with_reducible exact Otp.wf_of hn rfl rfl rfl rfl)
    | (intro (n : Upd) hn; split <;> (with_reducible exact Upd.wf_of hn rfl))
    | (intro (n : Upd) hn; with_reducible exact Upd.wf_of hn rfl)
    | (intro (n : EvStore) hn; rw [EvStore.wf_iff] at *; first | exact ⟨cellsWf_put 0 _ _ _ hn.1, hn.2⟩ | exact ⟨hn.1, cellsWf_put _ _ _ _ hn.2⟩ | exact ⟨cellsWf_filter 0 _ _ hn.1, hn.2⟩)
    | (intro (n : EvStore) hn; split <;> (with_reducible exact EvStore.wf_of hn rfl rfl))
    | (intro (n : EvStore) hn; with_reducible exact EvStore.wf_of hn rfl rfl)
    | (intro (n : Bbx) hn; split <;> (with_reducible exact EvStore.wf_of hn rfl rfl))
    | (intro (n : Bbx) hn; with_reducible exact EvStore.wf_eq hn rfl)
    | (intro (n : Bbx) hn; with_reducible exact EvStore.wf_of hn rfl rfl)
    | split)

theorem step_drillStart {s : State} : Step [.chans, .red] s (State.drillStart s) := by
  unfold State.drillStart
  repeat' (first
    | with_reducible apply Step.refl
    | with_reducible assumption
    | exact Eq.refl true
    | (extract_lets +onlyGivenNames lv; first | ((first | refine Step.cut lv ?_ ?_ | refine Answers.cut lv ?_ ?_); unfold lv; clear lv; rotate_left; intro hx; clear_value lv; revert lv; intro _ _) | (revert lv; intro _))
    | with_reducible apply Step.after step_fire
    | with_reducible apply Step.after step_modRed
    | split)

theorem step_drillAsk {s : State} : Step [.chans, .red] s (State.drillAsk s) := by
  unfold State.drillAsk
  repeat' (first
    | with_reducible apply Step.refl
    | with_reducible assumption
    | exact Eq.refl true
    | (extract_lets +onlyGivenNames lv; first | ((first | refine Step.cut lv ?_ ?_ | refine Answers.cut lv ?_ ?_); unfold lv; clear lv; rotate_left; intro hx; clear_value lv; revert lv; intro _ _) | (revert lv; intro _))
    | with_reducible apply Step.after step_drillStart
    | with_reducible apply Step.after step_fire
    | split)

theorem step_execDrillNow {s : State} : Answers [.chans, .red] s (execDrillNow s) := by
  unfold execDrillNow
  repeat' (first
    | with_reducible apply Step.refl
    | with_reducible assumption
    | exact Eq.refl true
    | with_reducible apply Answers.ok
    | (extract_lets +onlyGivenNames lv; first | ((first | refine Step.cut lv ?_ ?_ | refine Answers.cut lv ?_ ?_); unfold lv; clear lv; rotate_left; intro hx; clear_value lv; revert lv; intro _ _) | (revert lv; intro _))
    | with_reducible apply Step.after step_drillAsk
    | with_reducible apply Step.when
    | (with_reducible apply Step.foldl; intro fs fa)
    | (with_reducible apply Step.foldFin; intro fs fa)
    | (with_reducible apply Step.foldlFst; intro fs fa)
    | (split; rename_i heq; have hx : (_ : State) = _ := congrArg Prod.snd heq; dsimp only at hx; subst hx)
    | (split; rename_i heq; have hx : (_ : State) = _ := congrArg Prod.fst heq; dsimp only at hx; subst hx)
    | split)

theorem step_execDrillSchedule {s : State} : Answers [.time, .chans, .red] s (execDrillSchedule s) := by
  unfold execDrillSchedule
  repeat' (first
    | with_reducible apply Step.refl
    | with_reducible assumption
    | exact Eq.refl true
    | with_reducible apply Answers.ok
    | ((conv => arg 3; arg 28); refine Step.put ?_)
    | (extract_lets +onlyGivenNames lv; first | ((first | refine Step.cut lv ?_ ?_ | refine Answers.cut lv ?_ ?_); unfold lv; clear lv; rotate_left; intro hx; clear_value lv; revert lv; intro _ _) | (revert lv; intro _))
    | with_reducible apply Step.after step_drillStart
    | with_reducible apply Step.after step_modRed
    | with_reducible apply Step.after step_fire
    | with_reducible apply Step.when
    | (with_reducible refine Step.whenOp rfl ?_ (fun u => ?_))
    | (with_reducible apply Step.foldl; intro fs fa)
    | (with_reducible apply Step.foldFin; intro fs fa)
    | (with_reducible apply Step.foldlFst; intro fs fa)
    | exact (fun _ => rfl)
    | (intro n; dsimp only; split <;> rfl)
    | (split; rename_i heq; have hx : (_ : State) = _ := congrArg Prod.snd heq; dsimp only at hx; subst hx)
    | (split; rename_i heq; have hx : (_ : State) = _ := congrArg Prod.fst heq; dsimp only at hx; subst hx)
    | (intro (n : Nvp) hn; simp only [Nvp.wf, Bool.and_eq_true] at hn ⊢; first | exact ⟨⟨nvpPuts_wf _ _ hn.1.1, hn.1.2⟩, hn.2⟩ | exact ⟨hn.1, rfl⟩)
    | (intro (n : Nvp) hn; split <;> (with_reducible exact Nvp.wf_of hn rfl rfl rfl))
    | (intro (n : Nvp) hn; with_reducible exact Nvp.wf_of hn rfl rfl rfl)
    | (intro (n : Otp) hn; split <;> (with_reducible exact Otp.wf_of hn rfl rfl rfl rfl))
    | (intro (n : Otp) hn; with_reducible exact Otp.wf_of hn rfl rfl rfl rfl)
    | (intro (n : Upd) hn; split <;> (with_reducible exact Upd.wf_of hn rfl))
    | (intro (n : Upd) hn; with_reducible exact Upd.wf_of hn rfl)
    | (intro (n : EvStore) hn; rw [EvStore.wf_iff] at *; first | exact ⟨cellsWf_put 0 _ _ _ hn.1, hn.2⟩ | exact ⟨hn.1, cellsWf_put _ _ _ _ hn.2⟩ | exact ⟨cellsWf_filter 0 _ _ hn.1, hn.2⟩)
    | (intro (n : EvStore) hn; split <;> (with_reducible exact EvStore.wf_of hn rfl rfl))
    | (intro (n : EvStore) hn; with_reducible exact EvStore.wf_of hn rfl rfl)
    | (intro (n : Bbx) hn; split <;> (with_reducible exact EvStore.wf_of hn rfl rfl))
    | (intro (n : Bbx) hn; with_reducible exact EvStore.wf_eq hn rfl)
    | (intro (n : Bbx) hn; with_reducible exact EvStore.wf_of hn rfl rfl)
    | split)

theorem step_drillDone {s : State} : Step [.chans, .red] s (State.drillDone s) := by
  unfold State.drillDone
  repeat' (first
    | with_reducible apply Step.refl
    | with_reducible assumption
    | exact Eq.refl true
    | ((conv => arg 3; arg 28); refine Step.put ?_)
    | (extract_lets +onlyGivenNames lv; first | ((first | refine Step.cut lv ?_ ?_ | refine Answers.cut lv ?_ ?_); unfold lv; clear lv; rotate_left; intro hx; clear_value lv; revert lv; intro _ _) | (revert lv; intro _))
    | with_reducible apply Step.after step_fire
    | with_reducible apply Step.after step_modRed
    | with_reducible apply Step.after step_readyDown
    | with_reducible apply Step.when
    | (with_reducible apply Step.foldl; intro fs fa)
    | (with_reducible apply Step.foldFin; intro fs fa)
    | (with_reducible apply Step.foldlFst; intro fs fa)
    | exact (fun _ => rfl)
    | (intro n; dsimp only; split <;> rfl)
    | (split; rename_i heq; have hx : (_ : State) = _ := congrArg Prod.snd heq; dsimp only at hx; subst hx)
    | (split; rename_i heq; have hx : (_ : State) = _ := congrArg Prod.fst heq; dsimp only at hx; subst hx)
    | (intro (n : Nvp) hn; simp only [Nvp.wf, Bool.and_eq_true] at hn ⊢; first | exact ⟨⟨nvpPuts_wf _ _ hn.1.1, hn.1.2⟩, hn.2⟩ | exact ⟨hn.1, rfl⟩)
    | (intro (n : Nvp) hn; split <;> (with_reducible exact Nvp.wf_of hn rfl rfl rfl))
    | (intro (n : Nvp) hn; with_reducible exact Nvp.wf_of hn rfl rfl rfl)
    | (intro (n : Otp) hn; split <;> (with_reducible exact Otp.wf_of hn rfl rfl rfl rfl))
    | (intro (n : Otp) hn; with_reducible exact Otp.wf_of hn rfl rfl rfl rfl)
    | (intro (n : Upd) hn; split <;> (with_reducible exact Upd.wf_of hn rfl))
    | (intro (n : Upd) hn; with_reducible exact Upd.wf_of hn rfl)
    | (intro (n : EvStore) hn; rw [EvStore.wf_iff] at *; first | exact ⟨cellsWf_put 0 _ _ _ hn.1, hn.2⟩ | exact ⟨hn.1, cellsWf_put _ _ _ _ hn.2⟩ | exact ⟨cellsWf_filter 0 _ _ hn.1, hn.2⟩)
    | (intro (n : EvStore) hn; split <;> (with_reducible exact EvStore.wf_of hn rfl rfl))
    | (intro (n : EvStore) hn; with_reducible exact EvStore.wf_of hn rfl rfl)
    | (intro (n : Bbx) hn; split <;> (with_reducible exact EvStore.wf_of hn rfl rfl))
    | (intro (n : Bbx) hn; with_reducible exact EvStore.wf_eq hn rfl)
    | (intro (n : Bbx) hn; with_reducible exact EvStore.wf_of hn rfl rfl)
    | split)

theorem step_execDrillComplete {s : State} : Answers [.time, .chans, .red] s (execDrillComplete s) := by
  unfold execDrillComplete
  repeat' (first
    | with_reducible apply Step.refl
    | with_reducible assumption
    | exact Eq.refl true
    | with_reducible apply Answers.ok
    | ((conv => arg 3; arg 28); refine Step.put ?_)
    | (extract_lets +onlyGivenNames lv; first | ((first | refine Step.cut lv ?_ ?_ | refine Answers.cut lv ?_ ?_); unfold lv; clear lv; rotate_left; intro hx; clear_value lv; revert lv; intro _ _) | (revert lv; intro _))
    | with_reducible apply Step.after step_drillDone
    | with_reducible apply Step.when
    | (with_reducible refine Step.whenAt rfl ?_ (fun u => ?_))
    | (with_reducible apply Step.foldl; intro fs fa)
    | (with_reducible apply Step.foldFin; intro fs fa)
    | (with_reducible apply Step.foldlFst; intro fs fa)
    | exact (fun _ => rfl)
    | (intro n; dsimp only; split <;> rfl)
    | (split; rename_i heq; have hx : (_ : State) = _ := congrArg Prod.snd heq; dsimp only at hx; subst hx)
    | (split; rename_i heq; have hx : (_ : State) = _ := congrArg Prod.fst heq; dsimp only at hx; subst hx)
    | (intro (n : Nvp) hn; simp only [Nvp.wf, Bool.and_eq_true] at hn ⊢; first | exact ⟨⟨nvpPuts_wf _ _ hn.1.1, hn.1.2⟩, hn.2⟩ | exact ⟨hn.1, rfl⟩)
    | (intro (n : Nvp) hn; split <;> (with_reducible exact Nvp.wf_of hn rfl rfl rfl))
    | (intro (n : Nvp) hn; with_reducible exact Nvp.wf_of hn rfl rfl rfl)
    | (intro (n : Otp) hn; split <;> (with_reducible exact Otp.wf_of hn rfl rfl rfl rfl))
    | (intro (n : Otp) hn; with_reducible exact Otp.wf_of hn rfl rfl rfl rfl)
    | (intro (n : Upd) hn; split <;> (with_reducible exact Upd.wf_of hn rfl))
    | (intro (n : Upd) hn; with_reducible exact Upd.wf_of hn rfl)
    | (intro (n : EvStore) hn; rw [EvStore.wf_iff] at *; first | exact ⟨cellsWf_put 0 _ _ _ hn.1, hn.2⟩ | exact ⟨hn.1, cellsWf_put _ _ _ _ hn.2⟩ | exact ⟨cellsWf_filter 0 _ _ hn.1, hn.2⟩)
    | (intro (n : EvStore) hn; split <;> (with_reducible exact EvStore.wf_of hn rfl rfl))
    | (intro (n : EvStore) hn; with_reducible exact EvStore.wf_of hn rfl rfl)
    | (intro (n : Bbx) hn; split <;> (with_reducible exact EvStore.wf_of hn rfl rfl))
    | (intro (n : Bbx) hn; with_reducible exact EvStore.wf_eq hn rfl)
    | (intro (n : Bbx) hn; with_reducible exact EvStore.wf_of hn rfl rfl)
    | split)

/-! ### Shelf -/

theorem step_tickStrobes {s : State} : Step [.aon] s (State.tickStrobes s) := by
  unfold State.tickStrobes
  repeat' (first
    | with_reducible apply Step.refl
    | with_reducible assumption
    | exact Eq.refl true
    | (extract_lets +onlyGivenNames lv; first | ((first | refine Step.cut lv ?_ ?_ | refine Answers.cut lv ?_ ?_); unfold lv; clear lv; rotate_left; intro hx; clear_value lv; revert lv; intro _ _) | (revert lv; intro _))
    | with_reducible apply Step.after step_strobe
    | split)

theorem step_boundary {s : State} : Step [.tick, .regs, .chans, .sns, .law, .pwm, .hbx, .slt, .red] s (State.boundary s) := by
  unfold State.boundary
  repeat' (first
    | with_reducible apply Step.refl
    | with_reducible assumption
    | exact Eq.refl true
    | ((conv => arg 3; arg 28); refine Step.put ?_)
    | (extract_lets +onlyGivenNames lv; first | ((first | refine Step.cut lv ?_ ?_ | refine Answers.cut lv ?_ ?_); unfold lv; clear lv; rotate_left; intro hx; clear_value lv; revert lv; intro _ _) | (revert lv; intro _))
    | with_reducible apply Step.after step_lawNext
    | with_reducible apply Step.after step_snsSat
    | with_reducible apply Step.after step_frameStart
    | with_reducible apply Step.after step_railAdopt
    | with_reducible apply Step.when
    | (with_reducible apply Step.foldl; intro fs fa)
    | (with_reducible apply Step.foldFin; intro fs fa)
    | (with_reducible apply Step.foldlFst; intro fs fa)
    | (split; rename_i heq; have hx : (_ : State) = _ := congrArg Prod.snd heq; dsimp only at hx; subst hx)
    | (split; rename_i heq; have hx : (_ : State) = _ := congrArg Prod.fst heq; dsimp only at hx; subst hx)
    | split)

theorem step_execShelfTick {s : State} : Answers [.time, .tick, .regs, .chans, .aon, .sns, .law, .pwm, .hbx, .slt, .red] s (execShelfTick s) := by
  unfold execShelfTick
  repeat' (first
    | with_reducible apply Step.refl
    | with_reducible assumption
    | exact Eq.refl true
    | with_reducible apply Answers.ok
    | ((conv => arg 3; arg 28); refine Step.put ?_)
    | (extract_lets +onlyGivenNames lv; first | ((first | refine Step.cut lv ?_ ?_ | refine Answers.cut lv ?_ ?_); unfold lv; clear lv; rotate_left; intro hx; clear_value lv; revert lv; intro _ _) | (revert lv; intro _))
    | with_reducible apply Step.after step_boundary
    | with_reducible apply Step.after step_tickStrobes
    | with_reducible apply Step.when
    | (with_reducible refine Step.whenAt rfl ?_ (fun u => ?_))
    | (with_reducible apply Step.foldl; intro fs fa)
    | (with_reducible apply Step.foldFin; intro fs fa)
    | (with_reducible apply Step.foldlFst; intro fs fa)
    | exact (fun _ => rfl)
    | (intro n; dsimp only; split <;> rfl)
    | (split; rename_i heq; have hx : (_ : State) = _ := congrArg Prod.snd heq; dsimp only at hx; subst hx)
    | (split; rename_i heq; have hx : (_ : State) = _ := congrArg Prod.fst heq; dsimp only at hx; subst hx)
    | (intro (n : Nvp) hn; simp only [Nvp.wf, Bool.and_eq_true] at hn ⊢; first | exact ⟨⟨nvpPuts_wf _ _ hn.1.1, hn.1.2⟩, hn.2⟩ | exact ⟨hn.1, rfl⟩)
    | (intro (n : Nvp) hn; split <;> (with_reducible exact Nvp.wf_of hn rfl rfl rfl))
    | (intro (n : Nvp) hn; with_reducible exact Nvp.wf_of hn rfl rfl rfl)
    | (intro (n : Otp) hn; split <;> (with_reducible exact Otp.wf_of hn rfl rfl rfl rfl))
    | (intro (n : Otp) hn; with_reducible exact Otp.wf_of hn rfl rfl rfl rfl)
    | (intro (n : Upd) hn; split <;> (with_reducible exact Upd.wf_of hn rfl))
    | (intro (n : Upd) hn; with_reducible exact Upd.wf_of hn rfl)
    | (intro (n : EvStore) hn; rw [EvStore.wf_iff] at *; first | exact ⟨cellsWf_put 0 _ _ _ hn.1, hn.2⟩ | exact ⟨hn.1, cellsWf_put _ _ _ _ hn.2⟩ | exact ⟨cellsWf_filter 0 _ _ hn.1, hn.2⟩)
    | (intro (n : EvStore) hn; split <;> (with_reducible exact EvStore.wf_of hn rfl rfl))
    | (intro (n : EvStore) hn; with_reducible exact EvStore.wf_of hn rfl rfl)
    | (intro (n : Bbx) hn; split <;> (with_reducible exact EvStore.wf_of hn rfl rfl))
    | (intro (n : Bbx) hn; with_reducible exact EvStore.wf_eq hn rfl)
    | (intro (n : Bbx) hn; with_reducible exact EvStore.wf_of hn rfl rfl)
    | split)

theorem step_hbxLate {s : State} : Step [.regs, .chans, .hbx] s (State.hbxLate s) := by
  unfold State.hbxLate
  repeat' (first
    | with_reducible apply Step.refl
    | with_reducible assumption
    | exact Eq.refl true
    | ((conv => arg 3; arg 28); refine Step.put ?_)
    | (extract_lets +onlyGivenNames lv; first | ((first | refine Step.cut lv ?_ ?_ | refine Answers.cut lv ?_ ?_); unfold lv; clear lv; rotate_left; intro hx; clear_value lv; revert lv; intro _ _) | (revert lv; intro _))
    | with_reducible apply Step.after step_satEv
    | with_reducible apply Step.after step_fire
    | with_reducible apply Step.after step_stick
    | split)

theorem step_execPayloadFreeze {s : State} : Answers [.time, .regs, .chans, .hbx, .slt] s (execPayloadFreeze s) := by
  unfold execPayloadFreeze
  repeat' (first
    | with_reducible apply Step.refl
    | with_reducible assumption
    | exact Eq.refl true
    | with_reducible apply Answers.ok
    | ((conv => arg 3; arg 28); refine Step.put ?_)
    | (extract_lets +onlyGivenNames lv; first | ((first | refine Step.cut lv ?_ ?_ | refine Answers.cut lv ?_ ?_); unfold lv; clear lv; rotate_left; intro hx; clear_value lv; revert lv; intro _ _) | (revert lv; intro _))
    | with_reducible apply Step.after step_hbxLate
    | with_reducible apply Step.when
    | (with_reducible refine Step.whenDue rfl ?_ (fun u => ?_))
    | (with_reducible apply Step.foldl; intro fs fa)
    | (with_reducible apply Step.foldFin; intro fs fa)
    | (with_reducible apply Step.foldlFst; intro fs fa)
    | exact (fun _ => rfl)
    | (intro n; dsimp only; split <;> rfl)
    | (split; rename_i heq; have hx : (_ : State) = _ := congrArg Prod.snd heq; dsimp only at hx; subst hx)
    | (split; rename_i heq; have hx : (_ : State) = _ := congrArg Prod.fst heq; dsimp only at hx; subst hx)
    | (intro (n : Nvp) hn; simp only [Nvp.wf, Bool.and_eq_true] at hn ⊢; first | exact ⟨⟨nvpPuts_wf _ _ hn.1.1, hn.1.2⟩, hn.2⟩ | exact ⟨hn.1, rfl⟩)
    | (intro (n : Nvp) hn; split <;> (with_reducible exact Nvp.wf_of hn rfl rfl rfl))
    | (intro (n : Nvp) hn; with_reducible exact Nvp.wf_of hn rfl rfl rfl)
    | (intro (n : Otp) hn; split <;> (with_reducible exact Otp.wf_of hn rfl rfl rfl rfl))
    | (intro (n : Otp) hn; with_reducible exact Otp.wf_of hn rfl rfl rfl rfl)
    | (intro (n : Upd) hn; split <;> (with_reducible exact Upd.wf_of hn rfl))
    | (intro (n : Upd) hn; with_reducible exact Upd.wf_of hn rfl)
    | (intro (n : EvStore) hn; rw [EvStore.wf_iff] at *; first | exact ⟨cellsWf_put 0 _ _ _ hn.1, hn.2⟩ | exact ⟨hn.1, cellsWf_put _ _ _ _ hn.2⟩ | exact ⟨cellsWf_filter 0 _ _ hn.1, hn.2⟩)
    | (intro (n : EvStore) hn; split <;> (with_reducible exact EvStore.wf_of hn rfl rfl))
    | (intro (n : EvStore) hn; with_reducible exact EvStore.wf_of hn rfl rfl)
    | (intro (n : Bbx) hn; split <;> (with_reducible exact EvStore.wf_of hn rfl rfl))
    | (intro (n : Bbx) hn; with_reducible exact EvStore.wf_eq hn rfl)
    | (intro (n : Bbx) hn; with_reducible exact EvStore.wf_of hn rfl rfl)
    | split)

theorem step_execHbxPeriodChange {s : State} : Answers [.hbx] s (execHbxPeriodChange s) := by
  unfold execHbxPeriodChange
  repeat' (first
    | with_reducible apply Step.refl
    | with_reducible assumption
    | exact Eq.refl true
    | with_reducible apply Answers.ok
    | ((conv => arg 3; arg 28); refine Step.put ?_)
    | (extract_lets +onlyGivenNames lv; first | ((first | refine Step.cut lv ?_ ?_ | refine Answers.cut lv ?_ ?_); unfold lv; clear lv; rotate_left; intro hx; clear_value lv; revert lv; intro _ _) | (revert lv; intro _))
    | with_reducible apply Step.when
    | (with_reducible apply Step.foldl; intro fs fa)
    | (with_reducible apply Step.foldFin; intro fs fa)
    | (with_reducible apply Step.foldlFst; intro fs fa)
    | (split; rename_i heq; have hx : (_ : State) = _ := congrArg Prod.snd heq; dsimp only at hx; subst hx)
    | (split; rename_i heq; have hx : (_ : State) = _ := congrArg Prod.fst heq; dsimp only at hx; subst hx)
    | split)

end Sys2Proof.Machine
end

