-- ==== Sys2Proof/Laws/FrameStore.lean ====
section
/-! SUPPORT. What each operation and each command may change, and that it keeps the addressed stores in form: battery, thermal watch, fuse array, rings, black box, parameter store.
The parts a lemma lists are those of `Sys2Proof.Machine.Part`; every other part stands as it was. -/

set_option Elab.async false
set_option maxRecDepth 4000

namespace Sys2Proof.Machine

/-! ### Store -/

theorem step_modNvpStore {s : State} {f : Nvp → Nvp} (h : ∀ n : Nvp, n.wf = true → (f n).wf = true) : Step [.nvp, .store] s (State.modNvp s f) := by
  unfold State.modNvp
  exact Step.put Step.refl (w_nvp := h _)

theorem step_modNvp {s : State} {f : Nvp → Nvp} (h : ∀ n : Nvp, n.wf = true → (f n).wf = true) (e : ∀ n : Nvp, (f n).store = n.store) : Step [.nvp] s (State.modNvp s f) := by
  unfold State.modNvp
  exact Step.put Step.refl (f_store := Or.inl (e _)) (w_nvp := h _)

theorem step_eccCount {s : State} {shadow : Bool} {a : Nat} {n : Nat} : Step [.regs, .chans, .nvp] s (State.eccCount s shadow a n) := by
  have hm : ∀ {t : State} {f : Nvp → Nvp}, (∀ n : Nvp, n.wf = true → (f n).wf = true) → (∀ n : Nvp, (f n).store = n.store) → Step [.regs, .chans, .nvp] s t → Step [.regs, .chans, .nvp] s (t.modNvp f) :=
    fun k e h => Step.after (step_modNvp k e) rfl h
  unfold State.eccCount
  dsimp only
  repeat' (first
    | with_reducible apply Step.refl
    | exact Eq.refl true
    | with_reducible apply hm
    | with_reducible apply Step.after step_fire
    | with_reducible apply Step.after step_stick
    | with_reducible apply Step.after step_satEv
    | (intro n hn; with_reducible exact Nvp.wf_of hn rfl rfl rfl)
    | exact (fun _ => rfl)
    | split)

theorem step_eccTouch {s : State} {a : Nat} : Step [.regs, .chans, .nvp] s (State.eccTouch s a) := by
  unfold State.eccTouch
  repeat' (first
    | with_reducible apply Step.refl
    | with_reducible assumption
    | exact Eq.refl true
    | (extract_lets +onlyGivenNames lv; first | ((first | refine Step.cut lv ?_ ?_ | refine Answers.cut lv ?_ ?_); unfold lv; clear lv; rotate_left; intro hx; clear_value lv; revert lv; intro _ _) | (revert lv; intro _))
    | with_reducible apply Step.after step_eccCount
    | with_reducible apply Step.after (step_modNvp ?_ ?_)
    | exact (fun _ => rfl)
    | (intro n; dsimp only; split <;> rfl)
    | (intro (n : Nvp) hn; simp only [Nvp.wf, Bool.and_eq_true] at hn ⊢; first | exact ⟨⟨nvpPuts_wf _ _ hn.1.1, hn.1.2⟩, hn.2⟩ | exact ⟨hn.1, rfl⟩)
    | (intro (n : Nvp) hn; split <;> (with_reducible exact Nvp.wf_of hn rfl rfl rfl))
    | (intro (n : Nvp) hn; with_reducible exact Nvp.wf_of hn rfl rfl rfl)
    | (intro (n : Otp) hn; split <;> (with_reducible exact Otp.wf_of hn rfl rfl rfl rfl))
    | (intro (n : Otp) hn; with_reducible exact Otp.wf_of hn rfl rfl rfl rfl)
    | (intro (n : Upd) hn; split <;> (with_reducible exact Upd.wf_of hn rfl))
    | (intro (n : Upd) hn; with_reducible exact Upd.wf_of hn rfl)
    | (intro (n : EvStore) hn; rw [EvStore.wf_iff] at *; first | exact ⟨cellsWf_put 0 _ _ _ hn.1, hn.2⟩ | exact ⟨hn.1, cellsWf_put _ _ _ _ hn.2⟩ | exact ⟨cellsWf_filter 0 _ _ hn.1, hn.2⟩)
    | (intro (n : EvStore) hn; split <;> (with_reducible exact EvStore.wf_of hn rfl rfl))
    | (intro (n : EvStore) hn; with_reducible exact EvStore.wf_of hn rfl rfl)
    | (intro (n : Bbx) hn; split <;> (with_reducible exact EvStore.wf_of hn rfl rfl))
    | (intro (n : Bbx) hn; with_reducible exact EvStore.wf_eq hn rfl)
    | (intro (n : Bbx) hn; with_reducible exact EvStore.wf_of hn rfl rfl)
    | split)

theorem step_eccShadow {s : State} {a : Nat} {e : BitVec 72} : Step [.regs, .chans, .nvp] s (State.eccShadow s a e) := by
  unfold State.eccShadow
  repeat' (first
    | with_reducible apply Step.refl
    | with_reducible assumption
    | exact Eq.refl true
    | ((conv => arg 3; arg 28); refine Step.put ?_)
    | (extract_lets +onlyGivenNames lv; first | ((first | refine Step.cut lv ?_ ?_ | refine Answers.cut lv ?_ ?_); unfold lv; clear lv; rotate_left; intro hx; clear_value lv; revert lv; intro _ _) | (revert lv; intro _))
    | with_reducible apply Step.after step_eccCount
    | with_reducible apply Step.after (step_modNvp ?_ ?_)
    | with_reducible apply Step.when
    | (with_reducible apply Step.foldl; intro fs fa)
    | (with_reducible apply Step.foldFin; intro fs fa)
    | (with_reducible apply Step.foldlFst; intro fs fa)
    | exact (fun _ => rfl)
    | (intro n; dsimp only; split <;> rfl)
    | (split; rename_i heq; have hx : (_ : State) = _ := congrArg Prod.snd heq; dsimp only at hx; subst hx)
    | (split; rename_i heq; have hx : (_ : State) = _ := congrArg Prod.fst heq; dsimp only at hx; subst hx)
    | (intro (n : Nvp) hn; simp only [Nvp.wf, Bool.and_eq_true] at hn ⊢; first | exact ⟨⟨nvpPuts_wf _ _ hn.1.1, hn.1.2⟩, hn.2⟩ | exact ⟨hn.1, rfl⟩)
    | (intro (n : Nvp) hn; split <;> (with_reducible exact Nvp.wf_of hn rfl rfl rfl))
    | (intro (n : Nvp) hn; with_reducible exact Nvp.wf_of hn rfl rfl rfl)
    | (intro (n : Otp) hn; split <;> (with_reducible exact Otp.wf_of hn rfl rfl rfl rfl))
    | (intro (n : Otp) hn; with_reducible exact Otp.wf_of hn rfl rfl rfl rfl)
    | (intro (n : Upd) hn; split <;> (with_reducible exact Upd.wf_of hn rfl))
    | (intro (n : Upd) hn; with_reducible exact Upd.wf_of hn rfl)
    | (intro (n : EvStore) hn; rw [EvStore.wf_iff] at *; first | exact ⟨cellsWf_put 0 _ _ _ hn.1, hn.2⟩ | exact ⟨hn.1, cellsWf_put _ _ _ _ hn.2⟩ | exact ⟨cellsWf_filter 0 _ _ hn.1, hn.2⟩)
    | (intro (n : EvStore) hn; split <;> (with_reducible exact EvStore.wf_of hn rfl rfl))
    | (intro (n : EvStore) hn; with_reducible exact EvStore.wf_of hn rfl rfl)
    | (intro (n : Bbx) hn; split <;> (with_reducible exact EvStore.wf_of hn rfl rfl))
    | (intro (n : Bbx) hn; with_reducible exact EvStore.wf_eq hn rfl)
    | (intro (n : Bbx) hn; with_reducible exact EvStore.wf_of hn rfl rfl)
    | split)

theorem step_eccRange {s : State} {a : Nat} {n : Nat} : Step [.regs, .chans, .nvp] s (State.eccRange s a n) := by
  unfold State.eccRange
  repeat' (first
    | with_reducible apply Step.refl
    | with_reducible assumption
    | exact Eq.refl true
    | (extract_lets +onlyGivenNames lv; first | ((first | refine Step.cut lv ?_ ?_ | refine Answers.cut lv ?_ ?_); unfold lv; clear lv; rotate_left; intro hx; clear_value lv; revert lv; intro _ _) | (revert lv; intro _))
    | with_reducible apply Step.after step_eccTouch
    | with_reducible apply Step.when
    | (with_reducible apply Step.foldl; intro fs fa)
    | (with_reducible apply Step.foldFin; intro fs fa)
    | (with_reducible apply Step.foldlFst; intro fs fa)
    | (split; rename_i heq; have hx : (_ : State) = _ := congrArg Prod.snd heq; dsimp only at hx; subst hx)
    | (split; rename_i heq; have hx : (_ : State) = _ := congrArg Prod.fst heq; dsimp only at hx; subst hx)
    | split)

theorem step_recRead {s : State} {id : Nat} : Step [.regs, .chans, .nvp] s (State.recRead s id).1 := by
  unfold State.recRead
  repeat' (first
    | with_reducible apply Step.refl
    | with_reducible assumption
    | exact Eq.refl true
    | (extract_lets +onlyGivenNames lv; first | ((first | refine Step.cut lv ?_ ?_ | refine Answers.cut lv ?_ ?_); unfold lv; clear lv; rotate_left; intro hx; clear_value lv; revert lv; intro _ _) | (revert lv; intro _))
    | with_reducible apply Step.after step_eccRange
    | with_reducible apply Step.after step_satEv
    | with_reducible apply Step.after step_fire
    | with_reducible apply Step.after step_stick
    | with_reducible apply Step.after (step_modNvp ?_ ?_)
    | exact (fun _ => rfl)
    | (intro n; dsimp only; split <;> rfl)
    | (intro (n : Nvp) hn; simp only [Nvp.wf, Bool.and_eq_true] at hn ⊢; first | exact ⟨⟨nvpPuts_wf _ _ hn.1.1, hn.1.2⟩, hn.2⟩ | exact ⟨hn.1, rfl⟩)
    | (intro (n : Nvp) hn; split <;> (with_reducible exact Nvp.wf_of hn rfl rfl rfl))
    | (intro (n : Nvp) hn; with_reducible exact Nvp.wf_of hn rfl rfl rfl)
    | (intro (n : Otp) hn; split <;> (with_reducible exact Otp.wf_of hn rfl rfl rfl rfl))
    | (intro (n : Otp) hn; with_reducible exact Otp.wf_of hn rfl rfl rfl rfl)
    | (intro (n : Upd) hn; split <;> (with_reducible exact Upd.wf_of hn rfl))
    | (intro (n : Upd) hn; with_reducible exact Upd.wf_of hn rfl)
    | (intro (n : EvStore) hn; rw [EvStore.wf_iff] at *; first | exact ⟨cellsWf_put 0 _ _ _ hn.1, hn.2⟩ | exact ⟨hn.1, cellsWf_put _ _ _ _ hn.2⟩ | exact ⟨cellsWf_filter 0 _ _ hn.1, hn.2⟩)
    | (intro (n : EvStore) hn; split <;> (with_reducible exact EvStore.wf_of hn rfl rfl))
    | (intro (n : EvStore) hn; with_reducible exact EvStore.wf_of hn rfl rfl)
    | (intro (n : Bbx) hn; split <;> (with_reducible exact EvStore.wf_of hn rfl rfl))
    | (intro (n : Bbx) hn; with_reducible exact EvStore.wf_eq hn rfl)
    | (intro (n : Bbx) hn; with_reducible exact EvStore.wf_of hn rfl rfl)
    | split)

theorem step_commitStart {s : State} : Step [.nvp] s (State.commitStart s) := by
  unfold State.commitStart
  repeat' (first
    | with_reducible apply Step.refl
    | with_reducible assumption
    | exact Eq.refl true
    | (extract_lets +onlyGivenNames lv; first | ((first | refine Step.cut lv ?_ ?_ | refine Answers.cut lv ?_ ?_); unfold lv; clear lv; rotate_left; intro hx; clear_value lv; revert lv; intro _ _) | (revert lv; intro _))
    | with_reducible apply Step.after (step_modNvp ?_ ?_)
    | exact (fun _ => rfl)
    | (intro n; dsimp only; split <;> rfl)
    | (intro (n : Nvp) hn; simp only [Nvp.wf, Bool.and_eq_true] at hn ⊢; first | exact ⟨⟨nvpPuts_wf _ _ hn.1.1, hn.1.2⟩, hn.2⟩ | exact ⟨hn.1, rfl⟩)
    | (intro (n : Nvp) hn; split <;> (with_reducible exact Nvp.wf_of hn rfl rfl rfl))
    | (intro (n : Nvp) hn; with_reducible exact Nvp.wf_of hn rfl rfl rfl)
    | (intro (n : Otp) hn; split <;> (with_reducible exact Otp.wf_of hn rfl rfl rfl rfl))
    | (intro (n : Otp) hn; with_reducible exact Otp.wf_of hn rfl rfl rfl rfl)
    | (intro (n : Upd) hn; split <;> (with_reducible exact Upd.wf_of hn rfl))
    | (intro (n : Upd) hn; with_reducible exact Upd.wf_of hn rfl)
    | (intro (n : EvStore) hn; rw [EvStore.wf_iff] at *; first | exact ⟨cellsWf_put 0 _ _ _ hn.1, hn.2⟩ | exact ⟨hn.1, cellsWf_put _ _ _ _ hn.2⟩ | exact ⟨cellsWf_filter 0 _ _ hn.1, hn.2⟩)
    | (intro (n : EvStore) hn; split <;> (with_reducible exact EvStore.wf_of hn rfl rfl))
    | (intro (n : EvStore) hn; with_reducible exact EvStore.wf_of hn rfl rfl)
    | (intro (n : Bbx) hn; split <;> (with_reducible exact EvStore.wf_of hn rfl rfl))
    | (intro (n : Bbx) hn; with_reducible exact EvStore.wf_eq hn rfl)
    | (intro (n : Bbx) hn; with_reducible exact EvStore.wf_of hn rfl rfl)
    | split)

theorem step_nvpPump {a0 : Nat} {a1 : State} : Step [.regs, .chans, .nvp] a1 (State.nvpPump a0 a1) := by
  have hm : ∀ {s t : State} {f : Nvp → Nvp}, (∀ n : Nvp, n.wf = true → (f n).wf = true) → (∀ n : Nvp, (f n).store = n.store) → Step [.regs, .chans, .nvp] s t → Step [.regs, .chans, .nvp] s (t.modNvp f) :=
    fun k e h => Step.after (step_modNvp k e) rfl h
  induction a0 generalizing a1 with
  | zero => exact Step.refl
  | succ n ih =>
    unfold State.nvpPump
    split
    · exact Step.refl
    · split
      · extract_lets room s1
        have h1 : Step [.regs, .chans, .nvp] a1 s1 := hm (fun n h => by with_reducible exact Nvp.wf_of h rfl rfl rfl) (fun _ => rfl) Step.refl
        clear_value s1
        split
        · exact h1.trans ih
        · exact Step.after step_commitStart rfl h1
      · split
        · exact Step.refl
        · split
          · exact Step.refl
          · split
            · rename_i w q _ _ _
              extract_lets s1 s2
              have h1 : Step [.regs, .chans, .nvp] a1 s1 :=
                Step.after step_stick rfl (hm (fun n h => by with_reducible exact Nvp.wf_of h rfl rfl rfl) (fun _ => rfl) Step.refl)
              have h2 : Step [.regs, .chans, .nvp] a1 s2 := by
                unfold s2
                split
                · exact h1
                · exact Step.after step_fire rfl (hm (fun n h => by with_reducible exact Nvp.wf_of h rfl rfl rfl) (fun _ => rfl) h1)
              exact h2.trans ih
            · extract_lets ws
              split
              · exact Step.trans (by refine hm ?_ (fun _ => rfl) Step.refl; exact (fun n h => by with_reducible exact Nvp.wf_of h rfl rfl rfl)) ih
              · split
                · exact Step.trans (by refine hm ?_ (fun _ => rfl) Step.refl; exact (fun n h => by with_reducible exact Nvp.wf_of h rfl rfl rfl)) ih
                · exact Step.after step_commitStart rfl Step.refl

theorem step_nvpFlow {s : State} : Step [.regs, .chans, .nvp] s (State.nvpFlow s) := by
  unfold State.nvpFlow
  repeat' (first
    | with_reducible apply Step.refl
    | with_reducible assumption
    | exact Eq.refl true
    | (extract_lets +onlyGivenNames lv; first | ((first | refine Step.cut lv ?_ ?_ | refine Answers.cut lv ?_ ?_); unfold lv; clear lv; rotate_left; intro hx; clear_value lv; revert lv; intro _ _) | (revert lv; intro _))
    | with_reducible apply Step.after step_nvpPump
    | split)

theorem step_recWrite {s : State} {id : Nat} {fmt : Nat} {pl : List Byte} : Step [.regs, .chans, .nvp] s (State.recWrite s id fmt pl) := by
  unfold State.recWrite
  repeat' (first
    | with_reducible apply Step.refl
    | with_reducible assumption
    | exact Eq.refl true
    | (extract_lets +onlyGivenNames lv; first | ((first | refine Step.cut lv ?_ ?_ | refine Answers.cut lv ?_ ?_); unfold lv; clear lv; rotate_left; intro hx; clear_value lv; revert lv; intro _ _) | (revert lv; intro _))
    | with_reducible apply Step.after step_nvpFlow
    | with_reducible apply Step.after (step_modNvp ?_ ?_)
    | exact (fun _ => rfl)
    | (intro n; dsimp only; split <;> rfl)
    | (intro (n : Nvp) hn; simp only [Nvp.wf, Bool.and_eq_true] at hn ⊢; first | exact ⟨⟨nvpPuts_wf _ _ hn.1.1, hn.1.2⟩, hn.2⟩ | exact ⟨hn.1, rfl⟩)
    | (intro (n : Nvp) hn; split <;> (with_reducible exact Nvp.wf_of hn rfl rfl rfl))
    | (intro (n : Nvp) hn; with_reducible exact Nvp.wf_of hn rfl rfl rfl)
    | (intro (n : Otp) hn; split <;> (with_reducible exact Otp.wf_of hn rfl rfl rfl rfl))
    | (intro (n : Otp) hn; with_reducible exact Otp.wf_of hn rfl rfl rfl rfl)
    | (intro (n : Upd) hn; split <;> (with_reducible exact Upd.wf_of hn rfl))
    | (intro (n : Upd) hn; with_reducible exact Upd.wf_of hn rfl)
    | (intro (n : EvStore) hn; rw [EvStore.wf_iff] at *; first | exact ⟨cellsWf_put 0 _ _ _ hn.1, hn.2⟩ | exact ⟨hn.1, cellsWf_put _ _ _ _ hn.2⟩ | exact ⟨cellsWf_filter 0 _ _ hn.1, hn.2⟩)
    | (intro (n : EvStore) hn; split <;> (with_reducible exact EvStore.wf_of hn rfl rfl))
    | (intro (n : EvStore) hn; with_reducible exact EvStore.wf_of hn rfl rfl)
    | (intro (n : Bbx) hn; split <;> (with_reducible exact EvStore.wf_of hn rfl rfl))
    | (intro (n : Bbx) hn; with_reducible exact EvStore.wf_eq hn rfl)
    | (intro (n : Bbx) hn; with_reducible exact EvStore.wf_of hn rfl rfl)
    | split)


theorem step_saveStart {s : State} {why : Nat} {image : Bool} {after : Option Nat} : Step [.nvp] s (State.saveStart s why image after) := by
  unfold State.saveStart
  refine step_modNvp (fun n h => ?_) (fun _ => rfl)
  have k := Nvp.wf_save (v := some ⟨why, s.time, image, after, s.opTime, false, s.slotPayload why, false, none⟩) h rfl
  simp only [Nvp.wf, Bool.and_eq_true] at k ⊢
  refine ⟨⟨k.1.1, ?_⟩, k.2⟩
  split
  · rfl
  · exact k.1.2

theorem step_saveRequest {s : State} {why : Nat} : Step [.regs, .nvp] s (State.saveRequest s why) := by
  unfold State.saveRequest
  repeat' (first
    | with_reducible apply Step.refl
    | with_reducible assumption
    | exact Eq.refl true
    | (extract_lets +onlyGivenNames lv; first | ((first | refine Step.cut lv ?_ ?_ | refine Answers.cut lv ?_ ?_); unfold lv; clear lv; rotate_left; intro hx; clear_value lv; revert lv; intro _ _) | (revert lv; intro _))
    | with_reducible apply Step.after step_stick
    | with_reducible apply Step.after step_saveStart
    | split)

theorem step_freezeImage {s : State} : Step [.nvp] s (State.freezeImage s) := by
  unfold State.freezeImage
  split
  · split
    · refine ⟨?_, fun h => ⟨Nvp.wf_save h.1 ?_, h.2⟩, Nat.le_refl _⟩
      · intro p hp
        cases p <;> first | rfl | exact ⟨rfl, rfl⟩ | exact absurd (by decide) hp
      · simpa [Option.all] using h.2.2.2.2.2.1
    · exact Step.refl
  · exact Step.refl

/-! ### Battery -/

theorem step_modStr {s : State} {i : Fin 8} {f : Str → Str} : Step [.bat] s (State.modStr s i f) := by
  unfold State.modStr
  repeat' (first
    | with_reducible apply Step.refl
    | with_reducible assumption
    | exact Eq.refl true
    | ((conv => arg 3; arg 28); refine Step.put ?_)
    | (extract_lets +onlyGivenNames lv; first | ((first | refine Step.cut lv ?_ ?_ | refine Answers.cut lv ?_ ?_); unfold lv; clear lv; rotate_left; intro hx; clear_value lv; revert lv; intro _ _) | (revert lv; intro _))
    | split)

theorem step_batEvent {s : State} {i : Fin 8} {cause : Nat} {mid : Nat} {hi : Int} : Step [.chans] s (State.batEvent s i cause mid hi) := by
  unfold State.batEvent
  repeat' (first
    | with_reducible apply Step.refl
    | with_reducible assumption
    | exact Eq.refl true
    | (extract_lets +onlyGivenNames lv; first | ((first | refine Step.cut lv ?_ ?_ | refine Answers.cut lv ?_ ?_); unfold lv; clear lv; rotate_left; intro hx; clear_value lv; revert lv; intro _ _) | (revert lv; intro _))
    | with_reducible apply Step.after step_fire
    | split)

theorem step_batFault {s : State} {i : Fin 8} {cause : Nat} {mid : Nat} {hi : Int} : Step [.chans] s (State.batFault s i cause mid hi) := by
  unfold State.batFault
  repeat' (first
    | with_reducible apply Step.refl
    | with_reducible assumption
    | exact Eq.refl true
    | (extract_lets +onlyGivenNames lv; first | ((first | refine Step.cut lv ?_ ?_ | refine Answers.cut lv ?_ ?_); unfold lv; clear lv; rotate_left; intro hx; clear_value lv; revert lv; intro _ _) | (revert lv; intro _))
    | with_reducible apply Step.after step_fire
    | split)

theorem step_modBRec {s : State} {i : Fin 8} {f : IdRec → IdRec} : Step [.bat] s (State.modBRec s i f) := by
  unfold State.modBRec
  repeat' (first
    | with_reducible apply Step.refl
    | with_reducible assumption
    | exact Eq.refl true
    | ((conv => arg 3; arg 28); refine Step.put ?_)
    | (extract_lets +onlyGivenNames lv; first | ((first | refine Step.cut lv ?_ ?_ | refine Answers.cut lv ?_ ?_); unfold lv; clear lv; rotate_left; intro hx; clear_value lv; revert lv; intro _ _) | (revert lv; intro _))
    | with_reducible apply Step.after step_modStr
    | split)

theorem step_putZent {s : State} {i : Fin 8} {k : Nat} {z : Zent} : Step [.bat] s (State.putZent s i k z) := by
  unfold State.putZent
  extract_lets x
  split
  · exact Step.after step_modStr rfl Step.refl
  · exact Step.put Step.refl (w_bat := fun h => (Bat.wf_iff _).2 ⟨((Bat.wf_iff _).1 h).1, cellsWf_put _ _ _ _ ((Bat.wf_iff _).1 h).2⟩)

theorem step_tableOfTemplate {s : State} {c : Nat} : Step [.bat] s (State.tableOfTemplate s c) := by
  unfold State.tableOfTemplate
  exact Step.put Step.refl (w_bat := fun h => (Bat.wf_iff _).2 ⟨((Bat.wf_iff _).1 h).1,
    cellsWf_puts Zent.zero (fun k => 336 * c + k) (fun _ k => wordZent (cellGet 0 s.bat.tmpl k) s.bat.ageTicks) _ _ ((Bat.wf_iff _).1 h).2⟩)

theorem step_learn {s : State} {i : Fin 8} {dynamic : Bool} {t : Int} {soc : Int} {zm : Int} : Step [.chans, .bat] s (State.learn s i dynamic t soc zm) := by
  unfold State.learn
  repeat' (first
    | with_reducible apply Step.refl
    | with_reducible assumption
    | exact Eq.refl true
    | (extract_lets +onlyGivenNames lv; first | ((first | refine Step.cut lv ?_ ?_ | refine Answers.cut lv ?_ ?_); unfold lv; clear lv; rotate_left; intro hx; clear_value lv; revert lv; intro _ _) | (revert lv; intro _))
    | with_reducible apply Step.after step_satEv
    | with_reducible apply Step.after step_modStr
    | with_reducible apply Step.after step_putZent
    | split)

theorem step_idWrite {s : State} {i : Fin 8} : Step [.regs, .chans, .bat, .nvp] s (State.idWrite s i) := by
  unfold State.idWrite
  repeat' (first
    | with_reducible apply Step.refl
    | with_reducible assumption
    | exact Eq.refl true
    | ((conv => arg 3; arg 28); refine Step.put ?_)
    | (extract_lets +onlyGivenNames lv; first | ((first | refine Step.cut lv ?_ ?_ | refine Answers.cut lv ?_ ?_); unfold lv; clear lv; rotate_left; intro hx; clear_value lv; revert lv; intro _ _) | (revert lv; intro _))
    | with_reducible apply Step.after step_modBRec
    | with_reducible apply Step.after step_recWrite
    | split)

theorem step_takeTemplate {s : State} {i : Fin 8} : Step [.bat] s (State.takeTemplate s i) := by
  unfold State.takeTemplate
  repeat' (first
    | with_reducible apply Step.refl
    | with_reducible assumption
    | exact Eq.refl true
    | (extract_lets +onlyGivenNames lv; first | ((first | refine Step.cut lv ?_ ?_ | refine Answers.cut lv ?_ ?_); unfold lv; clear lv; rotate_left; intro hx; clear_value lv; revert lv; intro _ _) | (revert lv; intro _))
    | with_reducible apply Step.after step_modBRec
    | with_reducible apply Step.after step_modStr
    | with_reducible apply Step.after step_tableOfTemplate
    | split)

theorem step_takeRecord {s : State} {i : Fin 8} : Step [.chans, .bat] s (State.takeRecord s i) := by
  unfold State.takeRecord
  repeat' (first
    | with_reducible apply Step.refl
    | with_reducible assumption
    | exact Eq.refl true
    | (extract_lets +onlyGivenNames lv; first | ((first | refine Step.cut lv ?_ ?_ | refine Answers.cut lv ?_ ?_); unfold lv; clear lv; rotate_left; intro hx; clear_value lv; revert lv; intro _ _) | (revert lv; intro _))
    | with_reducible apply Step.after step_batFault
    | with_reducible apply Step.after step_takeTemplate
    | with_reducible apply Step.after step_modBRec
    | with_reducible apply Step.after step_modStr
    | split)

theorem step_batDeliver {s : State} {i : Fin 8} : Step [.vat] s (State.batDeliver s i) := by
  unfold State.batDeliver
  repeat' (first
    | with_reducible apply Step.refl
    | with_reducible assumption
    | exact Eq.refl true
    | ((conv => arg 3; arg 28); refine Step.put ?_)
    | (extract_lets +onlyGivenNames lv; first | ((first | refine Step.cut lv ?_ ?_ | refine Answers.cut lv ?_ ?_); unfold lv; clear lv; rotate_left; intro hx; clear_value lv; revert lv; intro _ _) | (revert lv; intro _))
    | with_reducible apply Step.when
    | (with_reducible apply Step.foldl; intro fs fa)
    | (with_reducible apply Step.foldFin; intro fs fa)
    | (with_reducible apply Step.foldlFst; intro fs fa)
    | exact (fun _ => rfl)
    | (intro n; dsimp only; split <;> rfl)
    | (split; rename_i heq; have hx : (_ : State) = _ := congrArg Prod.snd heq; dsimp only at hx; subst hx)
    | (split; rename_i heq; have hx : (_ : State) = _ := congrArg Prod.fst heq; dsimp only at hx; subst hx)
    | (intro (n : Nvp) hn; simp only [Nvp.wf, Bool.and_eq_true] at hn ⊢; first | exact ⟨⟨nvpPuts_wf _ _ hn.1.1, hn.1.2⟩, hn.2⟩ | exact ⟨hn.1, rfl⟩)
    | (intro (n : Nvp) hn; split <;> (with_reducible exact Nvp.wf_of hn rfl rfl rfl))
    | (intro (n : Nvp) hn; with_reducible exact Nvp.wf_of hn rfl rfl rfl)
    | (intro (n : Otp) hn; split <;> (with_reducible exact Otp.wf_of hn rfl rfl rfl rfl))
    | (intro (n : Otp) hn; with_reducible exact Otp.wf_of hn rfl rfl rfl rfl)
    | (intro (n : Upd) hn; split <;> (with_reducible exact Upd.wf_of hn rfl))
    | (intro (n : Upd) hn; with_reducible exact Upd.wf_of hn rfl)
    | (intro (n : EvStore) hn; rw [EvStore.wf_iff] at *; first | exact ⟨cellsWf_put 0 _ _ _ hn.1, hn.2⟩ | exact ⟨hn.1, cellsWf_put _ _ _ _ hn.2⟩ | exact ⟨cellsWf_filter 0 _ _ hn.1, hn.2⟩)
    | (intro (n : EvStore) hn; split <;> (with_reducible exact EvStore.wf_of hn rfl rfl))
    | (intro (n : EvStore) hn; with_reducible exact EvStore.wf_of hn rfl rfl)
    | (intro (n : Bbx) hn; split <;> (with_reducible exact EvStore.wf_of hn rfl rfl))
    | (intro (n : Bbx) hn; with_reducible exact EvStore.wf_eq hn rfl)
    | (intro (n : Bbx) hn; with_reducible exact EvStore.wf_of hn rfl rfl)
    | split)

theorem step_contactorUpdate {s : State} {i : Fin 8} : Step [.bat] s (State.contactorUpdate s i) := by
  unfold State.contactorUpdate
  repeat' (first
    | with_reducible apply Step.refl
    | with_reducible assumption
    | exact Eq.refl true
    | (extract_lets +onlyGivenNames lv; first | ((first | refine Step.cut lv ?_ ?_ | refine Answers.cut lv ?_ ?_); unfold lv; clear lv; rotate_left; intro hx; clear_value lv; revert lv; intro _ _) | (revert lv; intro _))
    | with_reducible apply Step.after step_modStr
    | split)

theorem step_remove {s : State} {i : Fin 8} : Step [.regs, .chans, .vat, .bat, .nvp] s (State.remove s i) := by
  unfold State.remove
  repeat' (first
    | with_reducible apply Step.refl
    | with_reducible assumption
    | exact Eq.refl true
    | (extract_lets +onlyGivenNames lv; first | ((first | refine Step.cut lv ?_ ?_ | refine Answers.cut lv ?_ ?_); unfold lv; clear lv; rotate_left; intro hx; clear_value lv; revert lv; intro _ _) | (revert lv; intro _))
    | with_reducible apply Step.after step_idWrite
    | with_reducible apply Step.after step_batDeliver
    | with_reducible apply Step.after step_contactorUpdate
    | with_reducible apply Step.after step_modStr
    | split)

theorem step_arrive {s : State} {i : Fin 8} {c : Nat} : Step [.regs, .chans, .bat] s (State.arrive s i c) := by
  unfold State.arrive
  repeat' (first
    | with_reducible apply Step.refl
    | with_reducible assumption
    | exact Eq.refl true
    | (extract_lets +onlyGivenNames lv; first | ((first | refine Step.cut lv ?_ ?_ | refine Answers.cut lv ?_ ?_); unfold lv; clear lv; rotate_left; intro hx; clear_value lv; revert lv; intro _ _) | (revert lv; intro _))
    | with_reducible apply Step.after step_takeRecord
    | with_reducible apply Step.after step_modStr
    | with_reducible apply Step.after step_batFault
    | with_reducible apply Step.after step_stick
    | split)

theorem step_execPresenceChange {i : Fin 8} {s : State} : Answers [.regs, .chans, .vat, .bat, .nvp] s (execPresenceChange i s) := by
  unfold execPresenceChange
  repeat' (first
    | with_reducible apply Step.refl
    | with_reducible assumption
    | exact Eq.refl true
    | with_reducible apply Answers.ok
    | (extract_lets +onlyGivenNames lv; first | ((first | refine Step.cut lv ?_ ?_ | refine Answers.cut lv ?_ ?_); unfold lv; clear lv; rotate_left; intro hx; clear_value lv; revert lv; intro _ _) | (revert lv; intro _))
    | with_reducible apply Step.after step_modStr
    | with_reducible apply Step.after step_stick
    | with_reducible apply Step.after step_remove
    | with_reducible apply Step.after step_batEvent
    | with_reducible apply Step.after step_arrive
    | split)

theorem step_idStrobe {s : State} {i : Fin 8} {x : Nat} {y : Nat} : Step [.regs, .chans, .bat] s (State.idStrobe s i x y) := by
  unfold State.idStrobe
  repeat' (first
    | with_reducible apply Step.refl
    | with_reducible assumption
    | exact Eq.refl true
    | (extract_lets +onlyGivenNames lv; first | ((first | refine Step.cut lv ?_ ?_ | refine Answers.cut lv ?_ ?_); unfold lv; clear lv; rotate_left; intro hx; clear_value lv; revert lv; intro _ _) | (revert lv; intro _))
    | with_reducible apply Step.after step_batFault
    | with_reducible apply Step.after step_stick
    | with_reducible apply Step.after step_modStr
    | split)

theorem step_ntcFault {s : State} {i : Fin 8} {x : Nat} : Step [.chans, .vat, .bat] s (State.ntcFault s i x) := by
  unfold State.ntcFault
  repeat' (first
    | with_reducible apply Step.refl
    | with_reducible assumption
    | exact Eq.refl true
    | (extract_lets +onlyGivenNames lv; first | ((first | refine Step.cut lv ?_ ?_ | refine Answers.cut lv ?_ ?_); unfold lv; clear lv; rotate_left; intro hx; clear_value lv; revert lv; intro _ _) | (revert lv; intro _))
    | with_reducible apply Step.after step_batFault
    | with_reducible apply Step.after step_modStr
    | with_reducible apply Step.after step_batDeliver
    | split)

theorem step_chargeCount {s : State} {i : Fin 8} {cur : Int} : Step [.chans, .bat] s (State.chargeCount s i cur) := by
  unfold State.chargeCount
  repeat' (first
    | with_reducible apply Step.refl
    | with_reducible assumption
    | exact Eq.refl true
    | ((conv => arg 3; arg 28); refine Step.put ?_)
    | (extract_lets +onlyGivenNames lv; first | ((first | refine Step.cut lv ?_ ?_ | refine Answers.cut lv ?_ ?_); unfold lv; clear lv; rotate_left; intro hx; clear_value lv; revert lv; intro _ _) | (revert lv; intro _))
    | with_reducible apply Step.after step_modBRec
    | with_reducible apply Step.after step_counted
    | with_reducible apply Step.after step_fireRaw
    | with_reducible apply Step.when
    | (with_reducible apply Step.foldl; intro fs fa)
    | (with_reducible apply Step.foldFin; intro fs fa)
    | (with_reducible apply Step.foldlFst; intro fs fa)
    | exact (fun _ => rfl)
    | (intro n; dsimp only; split <;> rfl)
    | (split; rename_i heq; have hx : (_ : State) = _ := congrArg Prod.snd heq; dsimp only at hx; subst hx)
    | (split; rename_i heq; have hx : (_ : State) = _ := congrArg Prod.fst heq; dsimp only at hx; subst hx)
    | (intro (n : Nvp) hn; simp only [Nvp.wf, Bool.and_eq_true] at hn ⊢; first | exact ⟨⟨nvpPuts_wf _ _ hn.1.1, hn.1.2⟩, hn.2⟩ | exact ⟨hn.1, rfl⟩)
    | (intro (n : Nvp) hn; split <;> (with_reducible exact Nvp.wf_of hn rfl rfl rfl))
    | (intro (n : Nvp) hn; with_reducible exact Nvp.wf_of hn rfl rfl rfl)
    | (intro (n : Otp) hn; split <;> (with_reducible exact Otp.wf_of hn rfl rfl rfl rfl))
    | (intro (n : Otp) hn; with_reducible exact Otp.wf_of hn rfl rfl rfl rfl)
    | (intro (n : Upd) hn; split <;> (with_reducible exact Upd.wf_of hn rfl))
    | (intro (n : Upd) hn; with_reducible exact Upd.wf_of hn rfl)
    | (intro (n : EvStore) hn; rw [EvStore.wf_iff] at *; first | exact ⟨cellsWf_put 0 _ _ _ hn.1, hn.2⟩ | exact ⟨hn.1, cellsWf_put _ _ _ _ hn.2⟩ | exact ⟨cellsWf_filter 0 _ _ hn.1, hn.2⟩)
    | (intro (n : EvStore) hn; split <;> (with_reducible exact EvStore.wf_of hn rfl rfl))
    | (intro (n : EvStore) hn; with_reducible exact EvStore.wf_of hn rfl rfl)
    | (intro (n : Bbx) hn; split <;> (with_reducible exact EvStore.wf_of hn rfl rfl))
    | (intro (n : Bbx) hn; with_reducible exact EvStore.wf_eq hn rfl)
    | (intro (n : Bbx) hn; with_reducible exact EvStore.wf_of hn rfl rfl)
    | split)

theorem step_stepDetect {s : State} {i : Fin 8} : Step [.chans, .bat] s (State.stepDetect s i) := by
  unfold State.stepDetect
  repeat' (first
    | with_reducible apply Step.refl
    | with_reducible assumption
    | exact Eq.refl true
    | (extract_lets +onlyGivenNames lv; first | ((first | refine Step.cut lv ?_ ?_ | refine Answers.cut lv ?_ ?_); unfold lv; clear lv; rotate_left; intro hx; clear_value lv; revert lv; intro _ _) | (revert lv; intro _))
    | with_reducible apply Step.after step_learn
    | with_reducible apply Step.after step_modStr
    | split)

theorem step_zdWait {s : State} {i : Fin 8} {v : Int} {cur : Int} {ovr : Bool} : Step [.bat] s (State.zdWait s i v cur ovr) := by
  unfold State.zdWait
  repeat' (first
    | with_reducible apply Step.refl
    | with_reducible assumption
    | exact Eq.refl true
    | (extract_lets +onlyGivenNames lv; first | ((first | refine Step.cut lv ?_ ?_ | refine Answers.cut lv ?_ ?_); unfold lv; clear lv; rotate_left; intro hx; clear_value lv; revert lv; intro _ _) | (revert lv; intro _))
    | with_reducible apply Step.after step_modStr
    | split)

theorem step_strStrobe {s : State} {i : Fin 8} {v : Int} {cur : Int} {ovr : Bool} {x : Nat} : Step [.chans, .bat] s (State.strStrobe s i v cur ovr x) := by
  unfold State.strStrobe
  repeat' (first
    | with_reducible apply Step.refl
    | with_reducible assumption
    | exact Eq.refl true
    | (extract_lets +onlyGivenNames lv; first | ((first | refine Step.cut lv ?_ ?_ | refine Answers.cut lv ?_ ?_); unfold lv; clear lv; rotate_left; intro hx; clear_value lv; revert lv; intro _ _) | (revert lv; intro _))
    | with_reducible apply Step.after step_chargeCount
    | with_reducible apply Step.after step_modStr
    | with_reducible apply Step.after step_stepDetect
    | with_reducible apply Step.after step_zdWait
    | split)

theorem step_oneString {s : State} {i : Fin 8} {v : Int} {cur : Int} {ovr : Bool} {nt : Option (BitVec 12 × BitVec 12)} : Step [.regs, .chans, .vat, .bat] s (State.oneString s i v cur ovr nt) := by
  unfold State.oneString
  repeat' (first
    | with_reducible apply Step.refl
    | with_reducible assumption
    | exact Eq.refl true
    | (extract_lets +onlyGivenNames lv; first | ((first | refine Step.cut lv ?_ ?_ | refine Answers.cut lv ?_ ?_); unfold lv; clear lv; rotate_left; intro hx; clear_value lv; revert lv; intro _ _) | (revert lv; intro _))
    | with_reducible apply Step.after step_contactorUpdate
    | with_reducible apply Step.after step_ntcFault
    | with_reducible apply Step.after step_idStrobe
    | with_reducible apply Step.after step_strStrobe
    | split)

theorem step_strobeOne {v : Vector (BitVec 18) 8} {i : Vector (BitVec 18) 8} {s : State} {k : Fin 8} : Step [.regs, .chans, .sns, .vat, .bat] s (State.strobeOne v i s k) := by
  unfold State.strobeOne
  extract_lets +onlyGivenNames stamp nt chV chI cv ci s1
  have h1 : Step [.regs, .chans, .sns, .vat, .bat] s s1 := Step.after step_deliver rfl (Step.after step_deliver rfl Step.refl)
  clear_value s1 nt
  extract_lets +onlyGivenNames s2
  refine Step.after step_oneString rfl ?_
  unfold s2
  split
  · exact Step.after step_deliver rfl (Step.after step_deliver rfl h1)
  · exact h1

theorem step_execStringStrobe {v : Vector (BitVec 18) 8} {i : Vector (BitVec 18) 8} {s : State} : Answers [.regs, .chans, .sns, .pwm, .vat, .bat] s (execStringStrobe v i s) := by
  unfold execStringStrobe
  repeat' (first
    | with_reducible apply Step.refl
    | with_reducible assumption
    | exact Eq.refl true
    | with_reducible apply Answers.ok
    | ((conv => arg 3; arg 28); refine Step.put ?_)
    | (extract_lets +onlyGivenNames lv; first | ((first | refine Step.cut lv ?_ ?_ | refine Answers.cut lv ?_ ?_); unfold lv; clear lv; rotate_left; intro hx; clear_value lv; revert lv; intro _ _) | (revert lv; intro _))
    | with_reducible apply Step.after step_sumStrobe
    | with_reducible apply Step.after step_strobeOne
    | with_reducible apply Step.when
    | (with_reducible apply Step.foldl; intro fs fa)
    | (with_reducible apply Step.foldFin; intro fs fa)
    | (with_reducible apply Step.foldlFst; intro fs fa)
    | (split; rename_i heq; have hx : (_ : State) = _ := congrArg Prod.snd heq; dsimp only at hx; subst hx)
    | (split; rename_i heq; have hx : (_ : State) = _ := congrArg Prod.fst heq; dsimp only at hx; subst hx)
    | split)

theorem step_execZdMeasurement {i : Fin 8} {s : State} : Answers [.chans, .bat] s (execZdMeasurement i s) := by
  unfold execZdMeasurement
  repeat' (first
    | with_reducible apply Step.refl
    | with_reducible assumption
    | exact Eq.refl true
    | with_reducible apply Answers.ok
    | (extract_lets +onlyGivenNames lv; first | ((first | refine Step.cut lv ?_ ?_ | refine Answers.cut lv ?_ ?_); unfold lv; clear lv; rotate_left; intro hx; clear_value lv; revert lv; intro _ _) | (revert lv; intro _))
    | with_reducible apply Step.after step_modStr
    | with_reducible apply Step.after step_learn
    | split)

theorem step_batLimits {s : State} {i : Fin 8} : Step [.chans, .vat, .bat] s (State.batLimits s i) := by
  unfold State.batLimits
  repeat' (first
    | with_reducible apply Step.refl
    | with_reducible assumption
    | exact Eq.refl true
    | (extract_lets +onlyGivenNames lv; first | ((first | refine Step.cut lv ?_ ?_ | refine Answers.cut lv ?_ ?_); unfold lv; clear lv; rotate_left; intro hx; clear_value lv; revert lv; intro _ _) | (revert lv; intro _))
    | with_reducible apply Step.after step_batFault
    | with_reducible apply Step.after step_batDeliver
    | with_reducible apply Step.after step_modStr
    | split)

theorem step_batLatches {s : State} {i : Fin 8} : Step [.chans, .bat] s (State.batLatches s i) := by
  unfold State.batLatches
  repeat' (first
    | with_reducible apply Step.refl
    | with_reducible assumption
    | exact Eq.refl true
    | (extract_lets +onlyGivenNames lv; first | ((first | refine Step.cut lv ?_ ?_ | refine Answers.cut lv ?_ ?_); unfold lv; clear lv; rotate_left; intro hx; clear_value lv; revert lv; intro _ _) | (revert lv; intro _))
    | with_reducible apply Step.after step_modStr
    | with_reducible apply Step.after step_batEvent
    | with_reducible apply Step.after step_modBRec
    | split)

theorem step_strBlock {s : State} {i : Fin 8} : Step [.chans, .vat, .bat] s (State.strBlock s i) := by
  unfold State.strBlock
  repeat' (first
    | with_reducible apply Step.refl
    | with_reducible assumption
    | exact Eq.refl true
    | (extract_lets +onlyGivenNames lv; first | ((first | refine Step.cut lv ?_ ?_ | refine Answers.cut lv ?_ ?_); unfold lv; clear lv; rotate_left; intro hx; clear_value lv; revert lv; intro _ _) | (revert lv; intro _))
    | with_reducible apply Step.after step_modStr
    | with_reducible apply Step.after step_modBRec
    | with_reducible apply Step.after step_batLimits
    | with_reducible apply Step.after step_batLatches
    | split)

theorem step_execBatBlock {s : State} : Answers [.chans, .vat, .bat, .red] s (execBatBlock s) := by
  unfold execBatBlock
  repeat' (first
    | with_reducible apply Step.refl
    | with_reducible assumption
    | exact Eq.refl true
    | with_reducible apply Answers.ok
    | ((conv => arg 3; arg 28); refine Step.put ?_)
    | (extract_lets +onlyGivenNames lv; first | ((first | refine Step.cut lv ?_ ?_ | refine Answers.cut lv ?_ ?_); unfold lv; clear lv; rotate_left; intro hx; clear_value lv; revert lv; intro _ _) | (revert lv; intro _))
    | with_reducible apply Step.after step_strBlock
    | with_reducible apply Step.when
    | (with_reducible apply Step.foldl; intro fs fa)
    | (with_reducible apply Step.foldFin; intro fs fa)
    | (with_reducible apply Step.foldlFst; intro fs fa)
    | (split; rename_i heq; have hx : (_ : State) = _ := congrArg Prod.snd heq; dsimp only at hx; subst hx)
    | (split; rename_i heq; have hx : (_ : State) = _ := congrArg Prod.fst heq; dsimp only at hx; subst hx)
    | split)

theorem step_batAnchor {s : State} {i : Fin 8} : Step [.regs, .bat] s (State.batAnchor s i) := by
  unfold State.batAnchor
  repeat' (first
    | with_reducible apply Step.refl
    | with_reducible assumption
    | exact Eq.refl true
    | (extract_lets +onlyGivenNames lv; first | ((first | refine Step.cut lv ?_ ?_ | refine Answers.cut lv ?_ ?_); unfold lv; clear lv; rotate_left; intro hx; clear_value lv; revert lv; intro _ _) | (revert lv; intro _))
    | with_reducible apply Step.after step_stick
    | with_reducible apply Step.after step_modStr
    | with_reducible apply Step.after step_modBRec
    | split)

theorem step_fccLimit {s : State} {i : Fin 8} {old : Nat} : Step [.regs, .chans, .bat] s (State.fccLimit s i old) := by
  unfold State.fccLimit
  repeat' (first
    | with_reducible apply Step.refl
    | with_reducible assumption
    | exact Eq.refl true
    | (extract_lets +onlyGivenNames lv; first | ((first | refine Step.cut lv ?_ ?_ | refine Answers.cut lv ?_ ?_); unfold lv; clear lv; rotate_left; intro hx; clear_value lv; revert lv; intro _ _) | (revert lv; intro _))
    | with_reducible apply Step.after step_modBRec
    | with_reducible apply Step.after step_batEvent
    | with_reducible apply Step.after step_stick
    | split)

theorem step_execEodDeclare {i : Fin 8} {s : State} : Answers [.regs, .chans, .vat, .bat, .nvp] s (execEodDeclare i s) := by
  unfold execEodDeclare
  repeat' (first
    | with_reducible apply Step.refl
    | with_reducible assumption
    | exact Eq.refl true
    | with_reducible apply Answers.ok
    | (extract_lets +onlyGivenNames lv; first | ((first | refine Step.cut lv ?_ ?_ | refine Answers.cut lv ?_ ?_); unfold lv; clear lv; rotate_left; intro hx; clear_value lv; revert lv; intro _ _) | (revert lv; intro _))
    | with_reducible apply Step.after step_batEvent
    | with_reducible apply Step.after step_modBRec
    | with_reducible apply Step.after step_batAnchor
    | with_reducible apply Step.after step_fccLimit
    | with_reducible apply Step.after step_modStr
    | with_reducible apply Step.after step_idWrite
    | with_reducible apply Step.after step_batLimits
    | split)

theorem step_execEocDeclare {i : Fin 8} {s : State} : Answers [.regs, .chans, .vat, .bat, .nvp] s (execEocDeclare i s) := by
  unfold execEocDeclare
  repeat' (first
    | with_reducible apply Step.refl
    | with_reducible assumption
    | exact Eq.refl true
    | with_reducible apply Answers.ok
    | (extract_lets +onlyGivenNames lv; first | ((first | refine Step.cut lv ?_ ?_ | refine Answers.cut lv ?_ ?_); unfold lv; clear lv; rotate_left; intro hx; clear_value lv; revert lv; intro _ _) | (revert lv; intro _))
    | with_reducible apply Step.after step_batEvent
    | with_reducible apply Step.after step_modBRec
    | with_reducible apply Step.after step_batAnchor
    | with_reducible apply Step.after step_fccLimit
    | with_reducible apply Step.after step_modStr
    | with_reducible apply Step.after step_idWrite
    | with_reducible apply Step.after step_batLimits
    | split)

theorem step_correct {s : State} {i : Fin 8} : Step [.regs, .chans, .bat] s (State.correct s i) := by
  unfold State.correct
  repeat' (first
    | with_reducible apply Step.refl
    | with_reducible assumption
    | exact Eq.refl true
    | (extract_lets +onlyGivenNames lv; first | ((first | refine Step.cut lv ?_ ?_ | refine Answers.cut lv ?_ ?_); unfold lv; clear lv; rotate_left; intro hx; clear_value lv; revert lv; intro _ _) | (revert lv; intro _))
    | with_reducible apply Step.after step_modStr
    | with_reducible apply Step.after step_modBRec
    | with_reducible apply Step.after step_batAnchor
    | with_reducible apply Step.after step_takeTemplate
    | with_reducible apply Step.after step_batFault
    | with_reducible apply Step.after step_stick
    | split)

theorem step_execBatSecond {s : State} : Answers [.regs, .chans, .bat] s (execBatSecond s) := by
  unfold execBatSecond
  repeat' (first
    | with_reducible apply Step.refl
    | with_reducible assumption
    | exact Eq.refl true
    | with_reducible apply Answers.ok
    | ((conv => arg 3; arg 28); refine Step.put ?_)
    | (extract_lets +onlyGivenNames lv; first | ((first | refine Step.cut lv ?_ ?_ | refine Answers.cut lv ?_ ?_); unfold lv; clear lv; rotate_left; intro hx; clear_value lv; revert lv; intro _ _) | (revert lv; intro _))
    | with_reducible apply Step.after step_correct
    | with_reducible apply Step.after step_modStr
    | with_reducible apply Step.when
    | (with_reducible apply Step.foldl; intro fs fa)
    | (with_reducible apply Step.foldFin; intro fs fa)
    | (with_reducible apply Step.foldlFst; intro fs fa)
    | (split; rename_i heq; have hx : (_ : State) = _ := congrArg Prod.snd heq; dsimp only at hx; subst hx)
    | (split; rename_i heq; have hx : (_ : State) = _ := congrArg Prod.fst heq; dsimp only at hx; subst hx)
    | split)

theorem step_execBatHour {s : State} : Answers [.time, .chans, .bat] s (execBatHour s) := by
  unfold execBatHour
  repeat' (first
    | with_reducible apply Step.refl
    | with_reducible assumption
    | exact Eq.refl true
    | with_reducible apply Answers.ok
    | ((conv => arg 3; arg 28); refine Step.put ?_)
    | (extract_lets +onlyGivenNames lv; first | ((first | refine Step.cut lv ?_ ?_ | refine Answers.cut lv ?_ ?_); unfold lv; clear lv; rotate_left; intro hx; clear_value lv; revert lv; intro _ _) | (revert lv; intro _))
    | with_reducible apply Step.after step_modBRec
    | with_reducible apply Step.after step_batEvent
    | with_reducible apply Step.after step_modStr
    | with_reducible apply Step.after step_fireSat
    | with_reducible apply Step.when
    | (with_reducible refine Step.whenOp rfl ?_ (fun u => ?_))
    | (with_reducible apply Step.foldl; intro fs fa)
    | (with_reducible apply Step.foldFin; intro fs fa)
    | (with_reducible apply Step.foldlFst; intro fs fa)
    | exact (fun _ => rfl)
    | (intro n; dsimp only; split <;> rfl)
    | (split; rename_i heq; have hx : (_ : State) = _ := congrArg Prod.snd heq; dsimp only at hx; subst hx)
    | (split; rename_i heq; have hx : (_ : State) = _ := congrArg Prod.fst heq; dsimp only at hx; subst hx)
    | (intro (n : Nvp) hn; simp only [Nvp.wf, Bool.and_eq_true] at hn ⊢; first | exact ⟨⟨nvpPuts_wf _ _ hn.1.1, hn.1.2⟩, hn.2⟩ | exact ⟨hn.1, rfl⟩)
    | (intro (n : Nvp) hn; split <;> (with_reducible exact Nvp.wf_of hn rfl rfl rfl))
    | (intro (n : Nvp) hn; with_reducible exact Nvp.wf_of hn rfl rfl rfl)
    | (intro (n : Otp) hn; split <;> (with_reducible exact Otp.wf_of hn rfl rfl rfl rfl))
    | (intro (n : Otp) hn; with_reducible exact Otp.wf_of hn rfl rfl rfl rfl)
    | (intro (n : Upd) hn; split <;> (with_reducible exact Upd.wf_of hn rfl))
    | (intro (n : Upd) hn; with_reducible exact Upd.wf_of hn rfl)
    | (intro (n : EvStore) hn; rw [EvStore.wf_iff] at *; first | exact ⟨cellsWf_put 0 _ _ _ hn.1, hn.2⟩ | exact ⟨hn.1, cellsWf_put _ _ _ _ hn.2⟩ | exact ⟨cellsWf_filter 0 _ _ hn.1, hn.2⟩)
    | (intro (n : EvStore) hn; split <;> (with_reducible exact EvStore.wf_of hn rfl rfl))
    | (intro (n : EvStore) hn; with_reducible exact EvStore.wf_of hn rfl rfl)
    | (intro (n : Bbx) hn; split <;> (with_reducible exact EvStore.wf_of hn rfl rfl))
    | (intro (n : Bbx) hn; with_reducible exact EvStore.wf_eq hn rfl)
    | (intro (n : Bbx) hn; with_reducible exact EvStore.wf_of hn rfl rfl)
    | split)

theorem step_execBatAgeTick {s : State} : Answers [.time, .regs, .chans, .bat, .nvp] s (execBatAgeTick s) := by
  unfold execBatAgeTick
  repeat' (first
    | with_reducible apply Step.refl
    | with_reducible assumption
    | exact Eq.refl true
    | with_reducible apply Answers.ok
    | ((conv => arg 3; arg 28); refine Step.put ?_)
    | (extract_lets +onlyGivenNames lv; first | ((first | refine Step.cut lv ?_ ?_ | refine Answers.cut lv ?_ ?_); unfold lv; clear lv; rotate_left; intro hx; clear_value lv; revert lv; intro _ _) | (revert lv; intro _))
    | with_reducible apply Step.after step_idWrite
    | with_reducible apply Step.when
    | (with_reducible refine Step.whenOp rfl ?_ (fun u => ?_))
    | (with_reducible apply Step.foldl; intro fs fa)
    | (with_reducible apply Step.foldFin; intro fs fa)
    | (with_reducible apply Step.foldlFst; intro fs fa)
    | exact (fun _ => rfl)
    | (intro n; dsimp only; split <;> rfl)
    | (split; rename_i heq; have hx : (_ : State) = _ := congrArg Prod.snd heq; dsimp only at hx; subst hx)
    | (split; rename_i heq; have hx : (_ : State) = _ := congrArg Prod.fst heq; dsimp only at hx; subst hx)
    | (intro (n : Nvp) hn; simp only [Nvp.wf, Bool.and_eq_true] at hn ⊢; first | exact ⟨⟨nvpPuts_wf _ _ hn.1.1, hn.1.2⟩, hn.2⟩ | exact ⟨hn.1, rfl⟩)
    | (intro (n : Nvp) hn; split <;> (with_reducible exact Nvp.wf_of hn rfl rfl rfl))
    | (intro (n : Nvp) hn; with_reducible exact Nvp.wf_of hn rfl rfl rfl)
    | (intro (n : Otp) hn; split <;> (with_reducible exact Otp.wf_of hn rfl rfl rfl rfl))
    | (intro (n : Otp) hn; with_reducible exact Otp.wf_of hn rfl rfl rfl rfl)
    | (intro (n : Upd) hn; split <;> (with_reducible exact Upd.wf_of hn rfl))
    | (intro (n : Upd) hn; with_reducible exact Upd.wf_of hn rfl)
    | (intro (n : EvStore) hn; rw [EvStore.wf_iff] at *; first | exact ⟨cellsWf_put 0 _ _ _ hn.1, hn.2⟩ | exact ⟨hn.1, cellsWf_put _ _ _ _ hn.2⟩ | exact ⟨cellsWf_filter 0 _ _ hn.1, hn.2⟩)
    | (intro (n : EvStore) hn; split <;> (with_reducible exact EvStore.wf_of hn rfl rfl))
    | (intro (n : EvStore) hn; with_reducible exact EvStore.wf_of hn rfl rfl)
    | (intro (n : Bbx) hn; split <;> (with_reducible exact EvStore.wf_of hn rfl rfl))
    | (intro (n : Bbx) hn; with_reducible exact EvStore.wf_eq hn rfl)
    | (intro (n : Bbx) hn; with_reducible exact EvStore.wf_of hn rfl rfl)
    | split)

theorem step_execBatEnable {i : Fin 8} {s : State} : Answers [.regs, .chans, .bat, .config] s (execBatEnable i s) := by
  unfold execBatEnable
  repeat' (first
    | with_reducible apply Step.refl
    | with_reducible assumption
    | exact Eq.refl true
    | with_reducible apply Answers.ok
    | ((conv => arg 3; arg 28); refine Step.put ?_)
    | (extract_lets +onlyGivenNames lv; first | ((first | refine Step.cut lv ?_ ?_ | refine Answers.cut lv ?_ ?_); unfold lv; clear lv; rotate_left; intro hx; clear_value lv; revert lv; intro _ _) | (revert lv; intro _))
    | with_reducible apply Step.after step_batFault
    | with_reducible apply Step.after step_hwFld
    | with_reducible apply Step.after step_modStr
    | split)

theorem step_execBatDisable {i : Fin 8} {s : State} : Answers [.regs, .chans, .vat, .bat, .nvp] s (execBatDisable i s) := by
  unfold execBatDisable
  repeat' (first
    | with_reducible apply Step.refl
    | with_reducible assumption
    | exact Eq.refl true
    | with_reducible apply Answers.ok
    | ((conv => arg 3; arg 28); refine Step.put ?_)
    | (extract_lets +onlyGivenNames lv; first | ((first | refine Step.cut lv ?_ ?_ | refine Answers.cut lv ?_ ?_); unfold lv; clear lv; rotate_left; intro hx; clear_value lv; revert lv; intro _ _) | (revert lv; intro _))
    | with_reducible apply Step.after step_remove
    | with_reducible apply Step.after step_batDeliver
    | with_reducible apply Step.after step_modStr
    | split)

theorem step_execBatForget {i : Fin 8} {s : State} : Answers [.regs, .chans, .vat, .bat, .nvp] s (execBatForget i s) := by
  unfold execBatForget
  repeat' (first
    | with_reducible apply Step.refl
    | with_reducible assumption
    | exact Eq.refl true
    | with_reducible apply Answers.ok
    | (extract_lets +onlyGivenNames lv; first | ((first | refine Step.cut lv ?_ ?_ | refine Answers.cut lv ?_ ?_); unfold lv; clear lv; rotate_left; intro hx; clear_value lv; revert lv; intro _ _) | (revert lv; intro _))
    | with_reducible apply Step.after step_modStr
    | with_reducible apply Step.after step_takeTemplate
    | with_reducible apply Step.after step_idWrite
    | with_reducible apply Step.after step_batDeliver
    | split)

theorem step_execBatTransportPrep {s : State} : Answers [.sys, .vat, .bat] s (execBatTransportPrep s) := by
  unfold execBatTransportPrep
  repeat' (first
    | with_reducible apply Step.refl
    | with_reducible assumption
    | exact Eq.refl true
    | with_reducible apply Answers.ok
    | ((conv => arg 3; arg 28); refine Step.put ?_)
    | (extract_lets +onlyGivenNames lv; first | ((first | refine Step.cut lv ?_ ?_ | refine Answers.cut lv ?_ ?_); unfold lv; clear lv; rotate_left; intro hx; clear_value lv; revert lv; intro _ _) | (revert lv; intro _))
    | with_reducible apply Step.after step_batDeliver
    | with_reducible apply Step.after step_modStr
    | with_reducible apply Step.when
    | (with_reducible apply Step.foldl; intro fs fa)
    | (with_reducible apply Step.foldFin; intro fs fa)
    | (with_reducible apply Step.foldlFst; intro fs fa)
    | (split; rename_i heq; have hx : (_ : State) = _ := congrArg Prod.snd heq; dsimp only at hx; subst hx)
    | (split; rename_i heq; have hx : (_ : State) = _ := congrArg Prod.fst heq; dsimp only at hx; subst hx)
    | split)

theorem step_execBatTransportRelease {s : State} : Answers [.time, .regs, .chans, .sys, .bat, .nvp] s (execBatTransportRelease s) := by
  unfold execBatTransportRelease
  repeat' (first
    | with_reducible apply Step.refl
    | with_reducible assumption
    | exact Eq.refl true
    | with_reducible apply Answers.ok
    | ((conv => arg 3; arg 28); refine Step.put ?_)
    | (extract_lets +onlyGivenNames lv; first | ((first | refine Step.cut lv ?_ ?_ | refine Answers.cut lv ?_ ?_); unfold lv; clear lv; rotate_left; intro hx; clear_value lv; revert lv; intro _ _) | (revert lv; intro _))
    | with_reducible apply Step.after step_contactorUpdate
    | with_reducible apply Step.after step_idWrite
    | with_reducible apply Step.after step_saveRequest
    | with_reducible apply Step.when
    | (with_reducible refine Step.whenDue rfl ?_ (fun u => ?_))
    | (with_reducible apply Step.foldl; intro fs fa)
    | (with_reducible apply Step.foldFin; intro fs fa)
    | (with_reducible apply Step.foldlFst; intro fs fa)
    | exact (fun _ => rfl)
    | (intro n; dsimp only; split <;> rfl)
    | (split; rename_i heq; have hx : (_ : State) = _ := congrArg Prod.snd heq; dsimp only at hx; subst hx)
    | (split; rename_i heq; have hx : (_ : State) = _ := congrArg Prod.fst heq; dsimp only at hx; subst hx)
    | (intro (n : Nvp) hn; simp only [Nvp.wf, Bool.and_eq_true] at hn ⊢; first | exact ⟨⟨nvpPuts_wf _ _ hn.1.1, hn.1.2⟩, hn.2⟩ | exact ⟨hn.1, rfl⟩)
    | (intro (n : Nvp) hn; split <;> (with_reducible exact Nvp.wf_of hn rfl rfl rfl))
    | (intro (n : Nvp) hn; with_reducible exact Nvp.wf_of hn rfl rfl rfl)
    | (intro (n : Otp) hn; split <;> (with_reducible exact Otp.wf_of hn rfl rfl rfl rfl))
    | (intro (n : Otp) hn; with_reducible exact Otp.wf_of hn rfl rfl rfl rfl)
    | (intro (n : Upd) hn; split <;> (with_reducible exact Upd.wf_of hn rfl))
    | (intro (n : Upd) hn; with_reducible exact Upd.wf_of hn rfl)
    | (intro (n : EvStore) hn; rw [EvStore.wf_iff] at *; first | exact ⟨cellsWf_put 0 _ _ _ hn.1, hn.2⟩ | exact ⟨hn.1, cellsWf_put _ _ _ _ hn.2⟩ | exact ⟨cellsWf_filter 0 _ _ hn.1, hn.2⟩)
    | (intro (n : EvStore) hn; split <;> (with_reducible exact EvStore.wf_of hn rfl rfl))
    | (intro (n : EvStore) hn; with_reducible exact EvStore.wf_of hn rfl rfl)
    | (intro (n : Bbx) hn; split <;> (with_reducible exact EvStore.wf_of hn rfl rfl))
    | (intro (n : Bbx) hn; with_reducible exact EvStore.wf_eq hn rfl)
    | (intro (n : Bbx) hn; with_reducible exact EvStore.wf_of hn rfl rfl)
    | split)

/-! ### Thermal -/

theorem step_modSensor {s : State} {k : Fin 48} {f : Sensor → Sensor} : Step [.thm] s (State.modSensor s k f) := by
  unfold State.modSensor
  repeat' (first
    | with_reducible apply Step.refl
    | with_reducible assumption
    | exact Eq.refl true
    | ((conv => arg 3; arg 28); refine Step.put ?_)
    | (extract_lets +onlyGivenNames lv; first | ((first | refine Step.cut lv ?_ ?_ | refine Answers.cut lv ?_ ?_); unfold lv; clear lv; rotate_left; intro hx; clear_value lv; revert lv; intro _ _) | (revert lv; intro _))
    | split)

theorem step_modAon {s : State} {f : Aon → Aon} (e : ∀ n : Aon, (f n).epoch = n.epoch) : Step [.aon] s (State.modAon s f) := by
  unfold State.modAon
  exact Step.put Step.refl (f_epoch := Or.inl (e _))

theorem step_sensorState {s : State} {k : Fin 48} {code : Nat} : Step [.regs, .chans, .thm] s (State.sensorState s k code) := by
  unfold State.sensorState
  repeat' (first
    | with_reducible apply Step.refl
    | with_reducible assumption
    | exact Eq.refl true
    | (extract_lets +onlyGivenNames lv; first | ((first | refine Step.cut lv ?_ ?_ | refine Answers.cut lv ?_ ?_); unfold lv; clear lv; rotate_left; intro hx; clear_value lv; revert lv; intro _ _) | (revert lv; intro _))
    | with_reducible apply Step.after step_modSensor
    | with_reducible apply Step.after step_fire
    | with_reducible apply Step.after step_stick
    | split)

theorem step_thmAct {s : State} {k : Fin 48} {act : Nat} : Step [.regs, .chans, .aon, .pwm, .hbx, .dkl, .seq] s (State.thmAct s k act) := by
  unfold State.thmAct
  repeat' (first
    | with_reducible apply Step.refl
    | with_reducible assumption
    | exact Eq.refl true
    | (extract_lets +onlyGivenNames lv; first | ((first | refine Step.cut lv ?_ ?_ | refine Answers.cut lv ?_ ?_); unfold lv; clear lv; rotate_left; intro hx; clear_value lv; revert lv; intro _ _) | (revert lv; intro _))
    | with_reducible apply Step.after step_action
    | split)

theorem step_levels {s : State} {k : Fin 48} : Step [.regs, .chans, .aon, .pwm, .hbx, .dkl, .seq, .thm] s (State.levels s k) := by
  unfold State.levels
  repeat' (first
    | with_reducible apply Step.refl
    | with_reducible assumption
    | exact Eq.refl true
    | (extract_lets +onlyGivenNames lv; first | ((first | refine Step.cut lv ?_ ?_ | refine Answers.cut lv ?_ ?_); unfold lv; clear lv; rotate_left; intro hx; clear_value lv; revert lv; intro _ _) | (revert lv; intro _))
    | with_reducible apply Step.after step_modSensor
    | with_reducible apply Step.after step_fire
    | with_reducible apply Step.after step_stick
    | with_reducible apply Step.after step_thmAct
    | with_reducible apply Step.after step_fireCls
    | split)

theorem step_readSensor {counts : Vector Nat 32} {s : State} {k : Fin 48} : Step [.regs, .chans, .thm] s (State.readSensor counts s k) := by
  unfold State.readSensor
  repeat' (first
    | with_reducible apply Step.refl
    | with_reducible assumption
    | exact Eq.refl true
    | (extract_lets +onlyGivenNames lv; first | ((first | refine Step.cut lv ?_ ?_ | refine Answers.cut lv ?_ ?_); unfold lv; clear lv; rotate_left; intro hx; clear_value lv; revert lv; intro _ _) | (revert lv; intro _))
    | with_reducible apply Step.after step_sensorState
    | with_reducible apply Step.after step_modSensor
    | split)

theorem step_evalSensor {s : State} {k : Fin 48} : Step [.regs, .chans, .aon, .pwm, .hbx, .dkl, .seq, .thm] s (State.evalSensor s k) := by
  unfold State.evalSensor
  repeat' (first
    | with_reducible apply Step.refl
    | with_reducible assumption
    | exact Eq.refl true
    | (extract_lets +onlyGivenNames lv; first | ((first | refine Step.cut lv ?_ ?_ | refine Answers.cut lv ?_ ?_); unfold lv; clear lv; rotate_left; intro hx; clear_value lv; revert lv; intro _ _) | (revert lv; intro _))
    | with_reducible apply Step.after step_modSensor
    | with_reducible apply Step.after step_levels
    | split)

theorem step_execThmStep {counts : Vector Nat 32} {s : State} : Answers [.regs, .chans, .aon, .pwm, .hbx, .dkl, .seq, .thm] s (execThmStep counts s) := by
  unfold execThmStep
  repeat' (first
    | with_reducible apply Step.refl
    | with_reducible assumption
    | exact Eq.refl true
    | with_reducible apply Answers.ok
    | (extract_lets +onlyGivenNames lv; first | ((first | refine Step.cut lv ?_ ?_ | refine Answers.cut lv ?_ ?_); unfold lv; clear lv; rotate_left; intro hx; clear_value lv; revert lv; intro _ _) | (revert lv; intro _))
    | with_reducible apply Step.after step_evalSensor
    | with_reducible apply Step.after step_readSensor
    | with_reducible apply Step.when
    | (with_reducible apply Step.foldl; intro fs fa)
    | (with_reducible apply Step.foldFin; intro fs fa)
    | (with_reducible apply Step.foldlFst; intro fs fa)
    | (split; rename_i heq; have hx : (_ : State) = _ := congrArg Prod.snd heq; dsimp only at hx; subst hx)
    | (split; rename_i heq; have hx : (_ : State) = _ := congrArg Prod.fst heq; dsimp only at hx; subst hx)
    | split)

theorem step_execSensorRestored {k : Fin 48} {s : State} : Answers [.chans, .thm] s (execSensorRestored k s) := by
  unfold execSensorRestored
  repeat' (first
    | with_reducible apply Step.refl
    | with_reducible assumption
    | exact Eq.refl true
    | with_reducible apply Answers.ok
    | (extract_lets +onlyGivenNames lv; first | ((first | refine Step.cut lv ?_ ?_ | refine Answers.cut lv ?_ ?_); unfold lv; clear lv; rotate_left; intro hx; clear_value lv; revert lv; intro _ _) | (revert lv; intro _))
    | with_reducible apply Step.after step_modSensor
    | with_reducible apply Step.after step_fire
    | with_reducible apply Step.when
    | (with_reducible apply Step.foldl; intro fs fa)
    | (with_reducible apply Step.foldFin; intro fs fa)
    | (with_reducible apply Step.foldlFst; intro fs fa)
    | (split; rename_i heq; have hx : (_ : State) = _ := congrArg Prod.snd heq; dsimp only at hx; subst hx)
    | (split; rename_i heq; have hx : (_ : State) = _ := congrArg Prod.fst heq; dsimp only at hx; subst hx)
    | split)

theorem step_execDiodeConversion {q : Fin 16} {d : Diode} {s : State} : Answers [.thm] s (execDiodeConversion q d s) := by
  unfold execDiodeConversion
  repeat' (first
    | with_reducible apply Step.refl
    | with_reducible assumption
    | exact Eq.refl true
    | with_reducible apply Answers.ok
    | (extract_lets +onlyGivenNames lv; first | ((first | refine Step.cut lv ?_ ?_ | refine Answers.cut lv ?_ ?_); unfold lv; clear lv; rotate_left; intro hx; clear_value lv; revert lv; intro _ _) | (revert lv; intro _))
    | with_reducible apply Step.after step_modSensor
    | with_reducible apply Step.when
    | (with_reducible apply Step.foldl; intro fs fa)
    | (with_reducible apply Step.foldFin; intro fs fa)
    | (with_reducible apply Step.foldlFst; intro fs fa)
    | (split; rename_i heq; have hx : (_ : State) = _ := congrArg Prod.snd heq; dsimp only at hx; subst hx)
    | (split; rename_i heq; have hx : (_ : State) = _ := congrArg Prod.fst heq; dsimp only at hx; subst hx)
    | split)

theorem step_rocStep {s : State} {k : Fin 48} : Step [.regs, .chans, .aon, .pwm, .hbx, .dkl, .seq, .thm] s (State.rocStep s k) := by
  unfold State.rocStep
  repeat' (first
    | with_reducible apply Step.refl
    | with_reducible assumption
    | exact Eq.refl true
    | (extract_lets +onlyGivenNames lv; first | ((first | refine Step.cut lv ?_ ?_ | refine Answers.cut lv ?_ ?_); unfold lv; clear lv; rotate_left; intro hx; clear_value lv; revert lv; intro _ _) | (revert lv; intro _))
    | with_reducible apply Step.after step_modSensor
    | with_reducible apply Step.after step_thmAct
    | with_reducible apply Step.after step_fireCls
    | with_reducible apply Step.after step_stick
    | split)

theorem step_execThmSecond {s : State} : Answers [.regs, .chans, .aon, .pwm, .hbx, .dkl, .seq, .thm] s (execThmSecond s) := by
  unfold execThmSecond
  repeat' (first
    | with_reducible apply Step.refl
    | with_reducible assumption
    | exact Eq.refl true
    | with_reducible apply Answers.ok
    | (extract_lets +onlyGivenNames lv; first | ((first | refine Step.cut lv ?_ ?_ | refine Answers.cut lv ?_ ?_); unfold lv; clear lv; rotate_left; intro hx; clear_value lv; revert lv; intro _ _) | (revert lv; intro _))
    | with_reducible apply Step.after step_rocStep
    | with_reducible apply Step.when
    | (with_reducible apply Step.foldl; intro fs fa)
    | (with_reducible apply Step.foldFin; intro fs fa)
    | (with_reducible apply Step.foldlFst; intro fs fa)
    | (split; rename_i heq; have hx : (_ : State) = _ := congrArg Prod.snd heq; dsimp only at hx; subst hx)
    | (split; rename_i heq; have hx : (_ : State) = _ := congrArg Prod.fst heq; dsimp only at hx; subst hx)
    | split)

theorem step_execAonThermalGate {counts : Vector Nat 32} {s : State} : Answers [.aon] s (execAonThermalGate counts s) := by
  unfold execAonThermalGate
  repeat' (first
    | with_reducible apply Step.refl
    | with_reducible assumption
    | exact Eq.refl true
    | with_reducible apply Answers.ok
    | (extract_lets +onlyGivenNames lv; first | ((first | refine Step.cut lv ?_ ?_ | refine Answers.cut lv ?_ ?_); unfold lv; clear lv; rotate_left; intro hx; clear_value lv; revert lv; intro _ _) | (revert lv; intro _))
    | with_reducible apply Step.after (step_modAon ?_)
    | exact (fun _ => rfl)
    | (intro n; dsimp only; split <;> rfl)
    | split)

theorem step_execThermalShutdown {s : State} : Answers [.freeCtr, .chans, .aon, .sys, .slt, .red, .otp, .role, .fuse] s (execThermalShutdown s) := by
  unfold execThermalShutdown
  repeat' (first
    | with_reducible apply Step.refl
    | with_reducible assumption
    | exact Eq.refl true
    | with_reducible apply Answers.ok
    | ((conv => arg 3; arg 28); refine Step.put ?_)
    | (extract_lets +onlyGivenNames lv; first | ((first | refine Step.cut lv ?_ ?_ | refine Answers.cut lv ?_ ?_); unfold lv; clear lv; rotate_left; intro hx; clear_value lv; revert lv; intro _ _) | (revert lv; intro _))
    | with_reducible apply Step.after (step_modAon ?_)
    | with_reducible apply Step.after step_satEv
    | with_reducible apply Step.after step_otpCut
    | with_reducible apply Step.after step_claimDrop
    | exact (fun _ => rfl)
    | (intro n; dsimp only; split <;> rfl)
    | split)

theorem step_execThermalResetHold {s : State} : Answers [.time, .freeCtr, .tick, .regs, .chans, .aon, .sys, .sns, .law, .pwm, .hbx, .dkl, .vat, .bat, .slt, .red, .arb, .seq, .thm, .otp, .nvp, .bbx, .upd, .hst, .evt, .twp, .mode, .role, .fuse, .store, .config] s (execThermalResetHold s) := by
  unfold execThermalResetHold
  repeat' (first
    | with_reducible apply Step.refl
    | with_reducible assumption
    | exact Eq.refl true
    | with_reducible apply Answers.ok
    | ((conv => arg 3; arg 28); refine Step.put ?_)
    | (extract_lets +onlyGivenNames lv; first | ((first | refine Step.cut lv ?_ ?_ | refine Answers.cut lv ?_ ?_); unfold lv; clear lv; rotate_left; intro hx; clear_value lv; revert lv; intro _ _) | (revert lv; intro _))
    | with_reducible apply Step.after step_warmReset
    | with_reducible apply Step.when
    | (with_reducible refine Step.whenAt rfl ?_ (fun u => ?_))
    | (with_reducible apply Step.foldl; intro fs fa)
    | (with_reducible apply Step.foldFin; intro fs fa)
    | (with_reducible apply Step.foldlFst; intro fs fa)
    | exact (fun _ => rfl)
    | (intro n; dsimp only; split <;> rfl)
    | (split; rename_i heq; have hx : (_ : State) = _ := congrArg Prod.snd heq; dsimp only at hx; subst hx)
    | (split; rename_i heq; have hx : (_ : State) = _ := congrArg Prod.fst heq; dsimp only at hx; subst hx)
    | (intro (n : Nvp) hn; simp only [Nvp.wf, Bool.and_eq_true] at hn ⊢; first | exact ⟨⟨nvpPuts_wf _ _ hn.1.1, hn.1.2⟩, hn.2⟩ | exact ⟨hn.1, rfl⟩)
    | (intro (n : Nvp) hn; split <;> (with_reducible exact Nvp.wf_of hn rfl rfl rfl))
    | (intro (n : Nvp) hn; with_reducible exact Nvp.wf_of hn rfl rfl rfl)
    | (intro (n : Otp) hn; split <;> (with_reducible exact Otp.wf_of hn rfl rfl rfl rfl))
    | (intro (n : Otp) hn; with_reducible exact Otp.wf_of hn rfl rfl rfl rfl)
    | (intro (n : Upd) hn; split <;> (with_reducible exact Upd.wf_of hn rfl))
    | (intro (n : Upd) hn; with_reducible exact Upd.wf_of hn rfl)
    | (intro (n : EvStore) hn; rw [EvStore.wf_iff] at *; first | exact ⟨cellsWf_put 0 _ _ _ hn.1, hn.2⟩ | exact ⟨hn.1, cellsWf_put _ _ _ _ hn.2⟩ | exact ⟨cellsWf_filter 0 _ _ hn.1, hn.2⟩)
    | (intro (n : EvStore) hn; split <;> (with_reducible exact EvStore.wf_of hn rfl rfl))
    | (intro (n : EvStore) hn; with_reducible exact EvStore.wf_of hn rfl rfl)
    | (intro (n : Bbx) hn; split <;> (with_reducible exact EvStore.wf_of hn rfl rfl))
    | (intro (n : Bbx) hn; with_reducible exact EvStore.wf_eq hn rfl)
    | (intro (n : Bbx) hn; with_reducible exact EvStore.wf_of hn rfl rfl)
    | split)

theorem step_execThermalRestartRelease {s : State} : Answers [.time, .aon] s (execThermalRestartRelease s) := by
  unfold execThermalRestartRelease
  repeat' (first
    | with_reducible apply Step.refl
    | with_reducible assumption
    | exact Eq.refl true
    | with_reducible apply Answers.ok
    | ((conv => arg 3; arg 28); refine Step.put ?_)
    | (extract_lets +onlyGivenNames lv; first | ((first | refine Step.cut lv ?_ ?_ | refine Answers.cut lv ?_ ?_); unfold lv; clear lv; rotate_left; intro hx; clear_value lv; revert lv; intro _ _) | (revert lv; intro _))
    | with_reducible apply Step.after (step_modAon ?_)
    | with_reducible apply Step.when
    | (with_reducible refine Step.whenDue rfl ?_ (fun u => ?_))
    | (with_reducible apply Step.foldl; intro fs fa)
    | (with_reducible apply Step.foldFin; intro fs fa)
    | (with_reducible apply Step.foldlFst; intro fs fa)
    | exact (fun _ => rfl)
    | (intro n; dsimp only; split <;> rfl)
    | (split; rename_i heq; have hx : (_ : State) = _ := congrArg Prod.snd heq; dsimp only at hx; subst hx)
    | (split; rename_i heq; have hx : (_ : State) = _ := congrArg Prod.fst heq; dsimp only at hx; subst hx)
    | (intro (n : Nvp) hn; simp only [Nvp.wf, Bool.and_eq_true] at hn ⊢; first | exact ⟨⟨nvpPuts_wf _ _ hn.1.1, hn.1.2⟩, hn.2⟩ | exact ⟨hn.1, rfl⟩)
    | (intro (n : Nvp) hn; split <;> (with_reducible exact Nvp.wf_of hn rfl rfl rfl))
    | (intro (n : Nvp) hn; with_reducible exact Nvp.wf_of hn rfl rfl rfl)
    | (intro (n : Otp) hn; split <;> (with_reducible exact Otp.wf_of hn rfl rfl rfl rfl))
    | (intro (n : Otp) hn; with_reducible exact Otp.wf_of hn rfl rfl rfl rfl)
    | (intro (n : Upd) hn; split <;> (with_reducible exact Upd.wf_of hn rfl))
    | (intro (n : Upd) hn; with_reducible exact Upd.wf_of hn rfl)
    | (intro (n : EvStore) hn; rw [EvStore.wf_iff] at *; first | exact ⟨cellsWf_put 0 _ _ _ hn.1, hn.2⟩ | exact ⟨hn.1, cellsWf_put _ _ _ _ hn.2⟩ | exact ⟨cellsWf_filter 0 _ _ hn.1, hn.2⟩)
    | (intro (n : EvStore) hn; split <;> (with_reducible exact EvStore.wf_of hn rfl rfl))
    | (intro (n : EvStore) hn; with_reducible exact EvStore.wf_of hn rfl rfl)
    | (intro (n : Bbx) hn; split <;> (with_reducible exact EvStore.wf_of hn rfl rfl))
    | (intro (n : Bbx) hn; with_reducible exact EvStore.wf_eq hn rfl)
    | (intro (n : Bbx) hn; with_reducible exact EvStore.wf_of hn rfl rfl)
    | split)

/-! ### Fuse -/

theorem step_modOtpArray {s : State} {f : Otp → Otp} (h : ∀ n : Otp, n.wf = true → (f n).wf = true) : Step [.otp, .fuse] s (State.modOtp s f) := by
  unfold State.modOtp
  exact Step.put Step.refl (w_otp := h _)

theorem step_modOtp {s : State} {f : Otp → Otp} (h : ∀ n : Otp, n.wf = true → (f n).wf = true) (e : ∀ n : Otp, (f n).array = n.array) : Step [.otp] s (State.modOtp s f) := by
  unfold State.modOtp
  exact Step.put Step.refl (f_fuse := Or.inl (e _)) (w_otp := h _)

theorem step_grpCheck {s : State} {g : Nat} : Step [.regs, .chans, .otp] s (State.grpCheck s g) := by
  unfold State.grpCheck
  repeat' (first
    | with_reducible apply Step.refl
    | with_reducible assumption
    | exact Eq.refl true
    | (extract_lets +onlyGivenNames lv; first | ((first | refine Step.cut lv ?_ ?_ | refine Answers.cut lv ?_ ?_); unfold lv; clear lv; rotate_left; intro hx; clear_value lv; revert lv; intro _ _) | (revert lv; intro _))
    | with_reducible apply Step.after step_fire
    | with_reducible apply Step.after step_stick
    | with_reducible apply Step.after (step_modOtp ?_ ?_)
    | exact (fun _ => rfl)
    | (intro n; dsimp only; split <;> rfl)
    | (intro (n : Nvp) hn; simp only [Nvp.wf, Bool.and_eq_true] at hn ⊢; first | exact ⟨⟨nvpPuts_wf _ _ hn.1.1, hn.1.2⟩, hn.2⟩ | exact ⟨hn.1, rfl⟩)
    | (intro (n : Nvp) hn; split <;> (with_reducible exact Nvp.wf_of hn rfl rfl rfl))
    | (intro (n : Nvp) hn; with_reducible exact Nvp.wf_of hn rfl rfl rfl)
    | (intro (n : Otp) hn; split <;> (with_reducible exact Otp.wf_of hn rfl rfl rfl rfl))
    | (intro (n : Otp) hn; with_reducible exact Otp.wf_of hn rfl rfl rfl rfl)
    | (intro (n : Upd) hn; split <;> (with_reducible exact Upd.wf_of hn rfl))
    | (intro (n : Upd) hn; with_reducible exact Upd.wf_of hn rfl)
    | (intro (n : EvStore) hn; rw [EvStore.wf_iff] at *; first | exact ⟨cellsWf_put 0 _ _ _ hn.1, hn.2⟩ | exact ⟨hn.1, cellsWf_put _ _ _ _ hn.2⟩ | exact ⟨cellsWf_filter 0 _ _ hn.1, hn.2⟩)
    | (intro (n : EvStore) hn; split <;> (with_reducible exact EvStore.wf_of hn rfl rfl))
    | (intro (n : EvStore) hn; with_reducible exact EvStore.wf_of hn rfl rfl)
    | (intro (n : Bbx) hn; split <;> (with_reducible exact EvStore.wf_of hn rfl rfl))
    | (intro (n : Bbx) hn; with_reducible exact EvStore.wf_eq hn rfl)
    | (intro (n : Bbx) hn; with_reducible exact EvStore.wf_of hn rfl rfl)
    | split)

theorem step_margCheck {s : State} {w : Nat} {m : Nat} : Step [.regs, .chans, .otp] s (State.margCheck s w m) := by
  unfold State.margCheck
  repeat' (first
    | with_reducible apply Step.refl
    | with_reducible assumption
    | exact Eq.refl true
    | (extract_lets +onlyGivenNames lv; first | ((first | refine Step.cut lv ?_ ?_ | refine Answers.cut lv ?_ ?_); unfold lv; clear lv; rotate_left; intro hx; clear_value lv; revert lv; intro _ _) | (revert lv; intro _))
    | with_reducible apply Step.after (step_modOtp ?_ ?_)
    | with_reducible apply Step.after step_fire
    | with_reducible apply Step.after step_stick
    | exact (fun _ => rfl)
    | (intro n; dsimp only; split <;> rfl)
    | (intro (n : Nvp) hn; simp only [Nvp.wf, Bool.and_eq_true] at hn ⊢; first | exact ⟨⟨nvpPuts_wf _ _ hn.1.1, hn.1.2⟩, hn.2⟩ | exact ⟨hn.1, rfl⟩)
    | (intro (n : Nvp) hn; split <;> (with_reducible exact Nvp.wf_of hn rfl rfl rfl))
    | (intro (n : Nvp) hn; with_reducible exact Nvp.wf_of hn rfl rfl rfl)
    | (intro (n : Otp) hn; split <;> (with_reducible exact Otp.wf_of hn rfl rfl rfl rfl))
    | (intro (n : Otp) hn; with_reducible exact Otp.wf_of hn rfl rfl rfl rfl)
    | (intro (n : Upd) hn; split <;> (with_reducible exact Upd.wf_of hn rfl))
    | (intro (n : Upd) hn; with_reducible exact Upd.wf_of hn rfl)
    | (intro (n : EvStore) hn; rw [EvStore.wf_iff] at *; first | exact ⟨cellsWf_put 0 _ _ _ hn.1, hn.2⟩ | exact ⟨hn.1, cellsWf_put _ _ _ _ hn.2⟩ | exact ⟨cellsWf_filter 0 _ _ hn.1, hn.2⟩)
    | (intro (n : EvStore) hn; split <;> (with_reducible exact EvStore.wf_of hn rfl rfl))
    | (intro (n : EvStore) hn; with_reducible exact EvStore.wf_of hn rfl rfl)
    | (intro (n : Bbx) hn; split <;> (with_reducible exact EvStore.wf_of hn rfl rfl))
    | (intro (n : Bbx) hn; with_reducible exact EvStore.wf_eq hn rfl)
    | (intro (n : Bbx) hn; with_reducible exact EvStore.wf_of hn rfl rfl)
    | split)

theorem step_holeCheck {s : State} {t : Nat} : Step [.regs, .chans] s (State.holeCheck s t) := by
  unfold State.holeCheck
  repeat' (first
    | with_reducible apply Step.refl
    | with_reducible assumption
    | exact Eq.refl true
    | (extract_lets +onlyGivenNames lv; first | ((first | refine Step.cut lv ?_ ?_ | refine Answers.cut lv ?_ ?_); unfold lv; clear lv; rotate_left; intro hx; clear_value lv; revert lv; intro _ _) | (revert lv; intro _))
    | with_reducible apply Step.after step_fire
    | with_reducible apply Step.after step_stick
    | split)

theorem step_thresholds {s : State} : Step [.aon] s (State.thresholds s) := by
  unfold State.thresholds
  repeat' (first
    | with_reducible apply Step.refl
    | with_reducible assumption
    | exact Eq.refl true
    | (extract_lets +onlyGivenNames lv; first | ((first | refine Step.cut lv ?_ ?_ | refine Answers.cut lv ?_ ?_); unfold lv; clear lv; rotate_left; intro hx; clear_value lv; revert lv; intro _ _) | (revert lv; intro _))
    | with_reducible apply Step.after (step_modAon ?_)
    | exact (fun _ => rfl)
    | (intro n; dsimp only; split <;> rfl)
    | split)

theorem step_fuseLatch {s : State} : Step [.regs, .chans, .aon, .otp] s (State.fuseLatch s) := by
  unfold State.fuseLatch
  repeat' (first
    | with_reducible apply Step.refl
    | with_reducible assumption
    | exact Eq.refl true
    | (extract_lets +onlyGivenNames lv; first | ((first | refine Step.cut lv ?_ ?_ | refine Answers.cut lv ?_ ?_); unfold lv; clear lv; rotate_left; intro hx; clear_value lv; revert lv; intro _ _) | (revert lv; intro _))
    | with_reducible apply Step.after (step_modOtp ?_ ?_)
    | with_reducible apply Step.after step_margCheck
    | with_reducible apply Step.after step_thresholds
    | with_reducible apply Step.after step_holeCheck
    | with_reducible apply Step.after step_grpCheck
    | with_reducible apply Step.when
    | (with_reducible apply Step.foldl; intro fs fa)
    | (with_reducible apply Step.foldFin; intro fs fa)
    | (with_reducible apply Step.foldlFst; intro fs fa)
    | exact (fun _ => rfl)
    | (intro n; dsimp only; split <;> rfl)
    | (split; rename_i heq; have hx : (_ : State) = _ := congrArg Prod.snd heq; dsimp only at hx; subst hx)
    | (split; rename_i heq; have hx : (_ : State) = _ := congrArg Prod.fst heq; dsimp only at hx; subst hx)
    | (intro (n : Nvp) hn; simp only [Nvp.wf, Bool.and_eq_true] at hn ⊢; first | exact ⟨⟨nvpPuts_wf _ _ hn.1.1, hn.1.2⟩, hn.2⟩ | exact ⟨hn.1, rfl⟩)
    | (intro (n : Nvp) hn; split <;> (with_reducible exact Nvp.wf_of hn rfl rfl rfl))
    | (intro (n : Nvp) hn; with_reducible exact Nvp.wf_of hn rfl rfl rfl)
    | (intro (n : Otp) hn; split <;> (with_reducible exact Otp.wf_of hn rfl rfl rfl rfl))
    | (intro (n : Otp) hn; with_reducible exact Otp.wf_of hn rfl rfl rfl rfl)
    | (intro (n : Upd) hn; split <;> (with_reducible exact Upd.wf_of hn rfl))
    | (intro (n : Upd) hn; with_reducible exact Upd.wf_of hn rfl)
    | (intro (n : EvStore) hn; rw [EvStore.wf_iff] at *; first | exact ⟨cellsWf_put 0 _ _ _ hn.1, hn.2⟩ | exact ⟨hn.1, cellsWf_put _ _ _ _ hn.2⟩ | exact ⟨cellsWf_filter 0 _ _ hn.1, hn.2⟩)
    | (intro (n : EvStore) hn; split <;> (with_reducible exact EvStore.wf_of hn rfl rfl))
    | (intro (n : EvStore) hn; with_reducible exact EvStore.wf_of hn rfl rfl)
    | (intro (n : Bbx) hn; split <;> (with_reducible exact EvStore.wf_of hn rfl rfl))
    | (intro (n : Bbx) hn; with_reducible exact EvStore.wf_eq hn rfl)
    | (intro (n : Bbx) hn; with_reducible exact EvStore.wf_of hn rfl rfl)
    | split)

theorem step_execOtpG5Check {s : State} : Answers [.regs, .chans, .otp] s (execOtpG5Check s) := by
  unfold execOtpG5Check
  repeat' (first
    | with_reducible apply Step.refl
    | with_reducible assumption
    | exact Eq.refl true
    | with_reducible apply Answers.ok
    | (extract_lets +onlyGivenNames lv; first | ((first | refine Step.cut lv ?_ ?_ | refine Answers.cut lv ?_ ?_); unfold lv; clear lv; rotate_left; intro hx; clear_value lv; revert lv; intro _ _) | (revert lv; intro _))
    | with_reducible apply Step.after (step_modOtp ?_ ?_)
    | with_reducible apply Step.after step_grpCheck
    | exact (fun _ => rfl)
    | (intro n; dsimp only; split <;> rfl)
    | (intro (n : Nvp) hn; simp only [Nvp.wf, Bool.and_eq_true] at hn ⊢; first | exact ⟨⟨nvpPuts_wf _ _ hn.1.1, hn.1.2⟩, hn.2⟩ | exact ⟨hn.1, rfl⟩)
    | (intro (n : Nvp) hn; split <;> (with_reducible exact Nvp.wf_of hn rfl rfl rfl))
    | (intro (n : Nvp) hn; with_reducible exact Nvp.wf_of hn rfl rfl rfl)
    | (intro (n : Otp) hn; split <;> (with_reducible exact Otp.wf_of hn rfl rfl rfl rfl))
    | (intro (n : Otp) hn; with_reducible exact Otp.wf_of hn rfl rfl rfl rfl)
    | (intro (n : Upd) hn; split <;> (with_reducible exact Upd.wf_of hn rfl))
    | (intro (n : Upd) hn; with_reducible exact Upd.wf_of hn rfl)
    | (intro (n : EvStore) hn; rw [EvStore.wf_iff] at *; first | exact ⟨cellsWf_put 0 _ _ _ hn.1, hn.2⟩ | exact ⟨hn.1, cellsWf_put _ _ _ _ hn.2⟩ | exact ⟨cellsWf_filter 0 _ _ hn.1, hn.2⟩)
    | (intro (n : EvStore) hn; split <;> (with_reducible exact EvStore.wf_of hn rfl rfl))
    | (intro (n : EvStore) hn; with_reducible exact EvStore.wf_of hn rfl rfl)
    | (intro (n : Bbx) hn; split <;> (with_reducible exact EvStore.wf_of hn rfl rfl))
    | (intro (n : Bbx) hn; with_reducible exact EvStore.wf_eq hn rfl)
    | (intro (n : Bbx) hn; with_reducible exact EvStore.wf_of hn rfl rfl)
    | split)

theorem step_execOtpArm {s : State} : Answers [.otp] s (execOtpArm s) := by
  unfold execOtpArm
  repeat' (first
    | with_reducible apply Step.refl
    | with_reducible assumption
    | exact Eq.refl true
    | with_reducible apply Answers.ok
    | (extract_lets +onlyGivenNames lv; first | ((first | refine Step.cut lv ?_ ?_ | refine Answers.cut lv ?_ ?_); unfold lv; clear lv; rotate_left; intro hx; clear_value lv; revert lv; intro _ _) | (revert lv; intro _))
    | with_reducible apply Step.after (step_modOtp ?_ ?_)
    | with_reducible apply Step.when
    | (with_reducible apply Step.foldl; intro fs fa)
    | (with_reducible apply Step.foldFin; intro fs fa)
    | (with_reducible apply Step.foldlFst; intro fs fa)
    | exact (fun _ => rfl)
    | (intro n; dsimp only; split <;> rfl)
    | (split; rename_i heq; have hx : (_ : State) = _ := congrArg Prod.snd heq; dsimp only at hx; subst hx)
    | (split; rename_i heq; have hx : (_ : State) = _ := congrArg Prod.fst heq; dsimp only at hx; subst hx)
    | (intro (n : Nvp) hn; simp only [Nvp.wf, Bool.and_eq_true] at hn ⊢; first | exact ⟨⟨nvpPuts_wf _ _ hn.1.1, hn.1.2⟩, hn.2⟩ | exact ⟨hn.1, rfl⟩)
    | (intro (n : Nvp) hn; split <;> (with_reducible exact Nvp.wf_of hn rfl rfl rfl))
    | (intro (n : Nvp) hn; with_reducible exact Nvp.wf_of hn rfl rfl rfl)
    | (intro (n : Otp) hn; split <;> (with_reducible exact Otp.wf_of hn rfl rfl rfl rfl))
    | (intro (n : Otp) hn; with_reducible exact Otp.wf_of hn rfl rfl rfl rfl)
    | (intro (n : Upd) hn; split <;> (with_reducible exact Upd.wf_of hn rfl))
    | (intro (n : Upd) hn; with_reducible exact Upd.wf_of hn rfl)
    | (intro (n : EvStore) hn; rw [EvStore.wf_iff] at *; first | exact ⟨cellsWf_put 0 _ _ _ hn.1, hn.2⟩ | exact ⟨hn.1, cellsWf_put _ _ _ _ hn.2⟩ | exact ⟨cellsWf_filter 0 _ _ hn.1, hn.2⟩)
    | (intro (n : EvStore) hn; split <;> (with_reducible exact EvStore.wf_of hn rfl rfl))
    | (intro (n : EvStore) hn; with_reducible exact EvStore.wf_of hn rfl rfl)
    | (intro (n : Bbx) hn; split <;> (with_reducible exact EvStore.wf_of hn rfl rfl))
    | (intro (n : Bbx) hn; with_reducible exact EvStore.wf_eq hn rfl)
    | (intro (n : Bbx) hn; with_reducible exact EvStore.wf_of hn rfl rfl)
    | split)

theorem step_otpRefuse {s : State} {why : Nat} {arg : Nat} : Step [.regs, .chans, .otp] s (State.otpRefuse s why arg) := by
  unfold State.otpRefuse
  repeat' (first
    | with_reducible apply Step.refl
    | with_reducible assumption
    | exact Eq.refl true
    | (extract_lets +onlyGivenNames lv; first | ((first | refine Step.cut lv ?_ ?_ | refine Answers.cut lv ?_ ?_); unfold lv; clear lv; rotate_left; intro hx; clear_value lv; revert lv; intro _ _) | (revert lv; intro _))
    | with_reducible apply Step.after step_fire
    | with_reducible apply Step.after step_stick
    | with_reducible apply Step.after (step_modOtp ?_ ?_)
    | exact (fun _ => rfl)
    | (intro n; dsimp only; split <;> rfl)
    | (intro (n : Nvp) hn; simp only [Nvp.wf, Bool.and_eq_true] at hn ⊢; first | exact ⟨⟨nvpPuts_wf _ _ hn.1.1, hn.1.2⟩, hn.2⟩ | exact ⟨hn.1, rfl⟩)
    | (intro (n : Nvp) hn; split <;> (with_reducible exact Nvp.wf_of hn rfl rfl rfl))
    | (intro (n : Nvp) hn; with_reducible exact Nvp.wf_of hn rfl rfl rfl)
    | (intro (n : Otp) hn; split <;> (with_reducible exact Otp.wf_of hn rfl rfl rfl rfl))
    | (intro (n : Otp) hn; with_reducible exact Otp.wf_of hn rfl rfl rfl rfl)
    | (intro (n : Upd) hn; split <;> (with_reducible exact Upd.wf_of hn rfl))
    | (intro (n : Upd) hn; with_reducible exact Upd.wf_of hn rfl)
    | (intro (n : EvStore) hn; rw [EvStore.wf_iff] at *; first | exact ⟨cellsWf_put 0 _ _ _ hn.1, hn.2⟩ | exact ⟨hn.1, cellsWf_put _ _ _ _ hn.2⟩ | exact ⟨cellsWf_filter 0 _ _ hn.1, hn.2⟩)
    | (intro (n : EvStore) hn; split <;> (with_reducible exact EvStore.wf_of hn rfl rfl))
    | (intro (n : EvStore) hn; with_reducible exact EvStore.wf_of hn rfl rfl)
    | (intro (n : Bbx) hn; split <;> (with_reducible exact EvStore.wf_of hn rfl rfl))
    | (intro (n : Bbx) hn; with_reducible exact EvStore.wf_eq hn rfl)
    | (intro (n : Bbx) hn; with_reducible exact EvStore.wf_of hn rfl rfl)
    | split)

theorem step_execOtpProg {s : State} : Answers [.regs, .chans, .otp] s (execOtpProg s) := by
  unfold execOtpProg
  repeat' (first
    | with_reducible apply Step.refl
    | with_reducible assumption
    | exact Eq.refl true
    | with_reducible apply Answers.ok
    | (extract_lets +onlyGivenNames lv; first | ((first | refine Step.cut lv ?_ ?_ | refine Answers.cut lv ?_ ?_); unfold lv; clear lv; rotate_left; intro hx; clear_value lv; revert lv; intro _ _) | (revert lv; intro _))
    | with_reducible apply Step.after step_otpRefuse
    | with_reducible apply Step.after (step_modOtp ?_ ?_)
    | exact (fun _ => rfl)
    | (intro n; dsimp only; split <;> rfl)
    | (intro (n : Nvp) hn; simp only [Nvp.wf, Bool.and_eq_true] at hn ⊢; first | exact ⟨⟨nvpPuts_wf _ _ hn.1.1, hn.1.2⟩, hn.2⟩ | exact ⟨hn.1, rfl⟩)
    | (intro (n : Nvp) hn; split <;> (with_reducible exact Nvp.wf_of hn rfl rfl rfl))
    | (intro (n : Nvp) hn; with_reducible exact Nvp.wf_of hn rfl rfl rfl)
    | (intro (n : Otp) hn; split <;> (with_reducible exact Otp.wf_of hn rfl rfl rfl rfl))
    | (intro (n : Otp) hn; with_reducible exact Otp.wf_of hn rfl rfl rfl rfl)
    | (intro (n : Upd) hn; split <;> (with_reducible exact Upd.wf_of hn rfl))
    | (intro (n : Upd) hn; with_reducible exact Upd.wf_of hn rfl)
    | (intro (n : EvStore) hn; rw [EvStore.wf_iff] at *; first | exact ⟨cellsWf_put 0 _ _ _ hn.1, hn.2⟩ | exact ⟨hn.1, cellsWf_put _ _ _ _ hn.2⟩ | exact ⟨cellsWf_filter 0 _ _ hn.1, hn.2⟩)
    | (intro (n : EvStore) hn; split <;> (with_reducible exact EvStore.wf_of hn rfl rfl))
    | (intro (n : EvStore) hn; with_reducible exact EvStore.wf_of hn rfl rfl)
    | (intro (n : Bbx) hn; split <;> (with_reducible exact EvStore.wf_of hn rfl rfl))
    | (intro (n : Bbx) hn; with_reducible exact EvStore.wf_eq hn rfl)
    | (intro (n : Bbx) hn; with_reducible exact EvStore.wf_of hn rfl rfl)
    | split)

theorem step_otpOther {s : State} : Step [.regs, .chans, .otp] s (State.otpOther s) := by
  unfold State.otpOther
  repeat' (first
    | with_reducible apply Step.refl
    | with_reducible assumption
    | exact Eq.refl true
    | ((conv => arg 3; arg 28); refine Step.put ?_)
    | (extract_lets +onlyGivenNames lv; first | ((first | refine Step.cut lv ?_ ?_ | refine Answers.cut lv ?_ ?_); unfold lv; clear lv; rotate_left; intro hx; clear_value lv; revert lv; intro _ _) | (revert lv; intro _))
    | with_reducible apply Step.after step_otpRefuse
    | with_reducible apply Step.when
    | (with_reducible apply Step.foldl; intro fs fa)
    | (with_reducible apply Step.foldFin; intro fs fa)
    | (with_reducible apply Step.foldlFst; intro fs fa)
    | exact (fun _ => rfl)
    | (intro n; dsimp only; split <;> rfl)
    | (split; rename_i heq; have hx : (_ : State) = _ := congrArg Prod.snd heq; dsimp only at hx; subst hx)
    | (split; rename_i heq; have hx : (_ : State) = _ := congrArg Prod.fst heq; dsimp only at hx; subst hx)
    | (intro (n : Nvp) hn; simp only [Nvp.wf, Bool.and_eq_true] at hn ⊢; first | exact ⟨⟨nvpPuts_wf _ _ hn.1.1, hn.1.2⟩, hn.2⟩ | exact ⟨hn.1, rfl⟩)
    | (intro (n : Nvp) hn; split <;> (with_reducible exact Nvp.wf_of hn rfl rfl rfl))
    | (intro (n : Nvp) hn; with_reducible exact Nvp.wf_of hn rfl rfl rfl)
    | (intro (n : Otp) hn; split <;> (with_reducible exact Otp.wf_of hn rfl rfl rfl rfl))
    | (intro (n : Otp) hn; with_reducible exact Otp.wf_of hn rfl rfl rfl rfl)
    | (intro (n : Upd) hn; split <;> (with_reducible exact Upd.wf_of hn rfl))
    | (intro (n : Upd) hn; with_reducible exact Upd.wf_of hn rfl)
    | (intro (n : EvStore) hn; rw [EvStore.wf_iff] at *; first | exact ⟨cellsWf_put 0 _ _ _ hn.1, hn.2⟩ | exact ⟨hn.1, cellsWf_put _ _ _ _ hn.2⟩ | exact ⟨cellsWf_filter 0 _ _ hn.1, hn.2⟩)
    | (intro (n : EvStore) hn; split <;> (with_reducible exact EvStore.wf_of hn rfl rfl))
    | (intro (n : EvStore) hn; with_reducible exact EvStore.wf_of hn rfl rfl)
    | (intro (n : Bbx) hn; split <;> (with_reducible exact EvStore.wf_of hn rfl rfl))
    | (intro (n : Bbx) hn; with_reducible exact EvStore.wf_eq hn rfl)
    | (intro (n : Bbx) hn; with_reducible exact EvStore.wf_of hn rfl rfl)
    | split)

theorem step_execOtpLock {grp : BitVec 3} {s : State} : Answers [.regs, .chans, .otp, .config] s (execOtpLock grp s) := by
  unfold execOtpLock
  repeat' (first
    | with_reducible apply Step.refl
    | with_reducible assumption
    | exact Eq.refl true
    | with_reducible apply Answers.ok
    | (extract_lets +onlyGivenNames lv; first | ((first | refine Step.cut lv ?_ ?_ | refine Answers.cut lv ?_ ?_); unfold lv; clear lv; rotate_left; intro hx; clear_value lv; revert lv; intro _ _) | (revert lv; intro _))
    | with_reducible apply Step.after step_otpRefuse
    | with_reducible apply Step.after step_setFld
    | with_reducible apply Step.after (step_modOtp ?_ ?_)
    | exact (fun _ => rfl)
    | (intro n; dsimp only; split <;> rfl)
    | (intro (n : Nvp) hn; simp only [Nvp.wf, Bool.and_eq_true] at hn ⊢; first | exact ⟨⟨nvpPuts_wf _ _ hn.1.1, hn.1.2⟩, hn.2⟩ | exact ⟨hn.1, rfl⟩)
    | (intro (n : Nvp) hn; split <;> (with_reducible exact Nvp.wf_of hn rfl rfl rfl))
    | (intro (n : Nvp) hn; with_reducible exact Nvp.wf_of hn rfl rfl rfl)
    | (intro (n : Otp) hn; split <;> (with_reducible exact Otp.wf_of hn rfl rfl rfl rfl))
    | (intro (n : Otp) hn; with_reducible exact Otp.wf_of hn rfl rfl rfl rfl)
    | (intro (n : Upd) hn; split <;> (with_reducible exact Upd.wf_of hn rfl))
    | (intro (n : Upd) hn; with_reducible exact Upd.wf_of hn rfl)
    | (intro (n : EvStore) hn; rw [EvStore.wf_iff] at *; first | exact ⟨cellsWf_put 0 _ _ _ hn.1, hn.2⟩ | exact ⟨hn.1, cellsWf_put _ _ _ _ hn.2⟩ | exact ⟨cellsWf_filter 0 _ _ hn.1, hn.2⟩)
    | (intro (n : EvStore) hn; split <;> (with_reducible exact EvStore.wf_of hn rfl rfl))
    | (intro (n : EvStore) hn; with_reducible exact EvStore.wf_of hn rfl rfl)
    | (intro (n : Bbx) hn; split <;> (with_reducible exact EvStore.wf_of hn rfl rfl))
    | (intro (n : Bbx) hn; with_reducible exact EvStore.wf_eq hn rfl)
    | (intro (n : Bbx) hn; with_reducible exact EvStore.wf_of hn rfl rfl)
    | split)

theorem step_execOtpReadN {s : State} : Answers [.regs, .otp] s (execOtpReadN s) := by
  unfold execOtpReadN
  repeat' (first
    | with_reducible apply Step.refl
    | with_reducible assumption
    | exact Eq.refl true
    | with_reducible apply Answers.ok
    | (extract_lets +onlyGivenNames lv; first | ((first | refine Step.cut lv ?_ ?_ | refine Answers.cut lv ?_ ?_); unfold lv; clear lv; rotate_left; intro hx; clear_value lv; revert lv; intro _ _) | (revert lv; intro _))
    | with_reducible apply Step.after step_stick
    | with_reducible apply Step.after (step_modOtp ?_ ?_)
    | with_reducible apply Step.when
    | (with_reducible apply Step.foldl; intro fs fa)
    | (with_reducible apply Step.foldFin; intro fs fa)
    | (with_reducible apply Step.foldlFst; intro fs fa)
    | exact (fun _ => rfl)
    | (intro n; dsimp only; split <;> rfl)
    | (split; rename_i heq; have hx : (_ : State) = _ := congrArg Prod.snd heq; dsimp only at hx; subst hx)
    | (split; rename_i heq; have hx : (_ : State) = _ := congrArg Prod.fst heq; dsimp only at hx; subst hx)
    | (intro (n : Nvp) hn; simp only [Nvp.wf, Bool.and_eq_true] at hn ⊢; first | exact ⟨⟨nvpPuts_wf _ _ hn.1.1, hn.1.2⟩, hn.2⟩ | exact ⟨hn.1, rfl⟩)
    | (intro (n : Nvp) hn; split <;> (with_reducible exact Nvp.wf_of hn rfl rfl rfl))
    | (intro (n : Nvp) hn; with_reducible exact Nvp.wf_of hn rfl rfl rfl)
    | (intro (n : Otp) hn; split <;> (with_reducible exact Otp.wf_of hn rfl rfl rfl rfl))
    | (intro (n : Otp) hn; with_reducible exact Otp.wf_of hn rfl rfl rfl rfl)
    | (intro (n : Upd) hn; split <;> (with_reducible exact Upd.wf_of hn rfl))
    | (intro (n : Upd) hn; with_reducible exact Upd.wf_of hn rfl)
    | (intro (n : EvStore) hn; rw [EvStore.wf_iff] at *; first | exact ⟨cellsWf_put 0 _ _ _ hn.1, hn.2⟩ | exact ⟨hn.1, cellsWf_put _ _ _ _ hn.2⟩ | exact ⟨cellsWf_filter 0 _ _ hn.1, hn.2⟩)
    | (intro (n : EvStore) hn; split <;> (with_reducible exact EvStore.wf_of hn rfl rfl))
    | (intro (n : EvStore) hn; with_reducible exact EvStore.wf_of hn rfl rfl)
    | (intro (n : Bbx) hn; split <;> (with_reducible exact EvStore.wf_of hn rfl rfl))
    | (intro (n : Bbx) hn; with_reducible exact EvStore.wf_eq hn rfl)
    | (intro (n : Bbx) hn; with_reducible exact EvStore.wf_of hn rfl rfl)
    | split)

theorem step_execOtpReadM {s : State} : Answers [.regs, .otp] s (execOtpReadM s) := by
  unfold execOtpReadM
  repeat' (first
    | with_reducible apply Step.refl
    | with_reducible assumption
    | exact Eq.refl true
    | with_reducible apply Answers.ok
    | (extract_lets +onlyGivenNames lv; first | ((first | refine Step.cut lv ?_ ?_ | refine Answers.cut lv ?_ ?_); unfold lv; clear lv; rotate_left; intro hx; clear_value lv; revert lv; intro _ _) | (revert lv; intro _))
    | with_reducible apply Step.after step_stick
    | with_reducible apply Step.after (step_modOtp ?_ ?_)
    | with_reducible apply Step.when
    | (with_reducible apply Step.foldl; intro fs fa)
    | (with_reducible apply Step.foldFin; intro fs fa)
    | (with_reducible apply Step.foldlFst; intro fs fa)
    | exact (fun _ => rfl)
    | (intro n; dsimp only; split <;> rfl)
    | (split; rename_i heq; have hx : (_ : State) = _ := congrArg Prod.snd heq; dsimp only at hx; subst hx)
    | (split; rename_i heq; have hx : (_ : State) = _ := congrArg Prod.fst heq; dsimp only at hx; subst hx)
    | (intro (n : Nvp) hn; simp only [Nvp.wf, Bool.and_eq_true] at hn ⊢; first | exact ⟨⟨nvpPuts_wf _ _ hn.1.1, hn.1.2⟩, hn.2⟩ | exact ⟨hn.1, rfl⟩)
    | (intro (n : Nvp) hn; split <;> (with_reducible exact Nvp.wf_of hn rfl rfl rfl))
    | (intro (n : Nvp) hn; with_reducible exact Nvp.wf_of hn rfl rfl rfl)
    | (intro (n : Otp) hn; split <;> (with_reducible exact Otp.wf_of hn rfl rfl rfl rfl))
    | (intro (n : Otp) hn; with_reducible exact Otp.wf_of hn rfl rfl rfl rfl)
    | (intro (n : Upd) hn; split <;> (with_reducible exact Upd.wf_of hn rfl))
    | (intro (n : Upd) hn; with_reducible exact Upd.wf_of hn rfl)
    | (intro (n : EvStore) hn; rw [EvStore.wf_iff] at *; first | exact ⟨cellsWf_put 0 _ _ _ hn.1, hn.2⟩ | exact ⟨hn.1, cellsWf_put _ _ _ _ hn.2⟩ | exact ⟨cellsWf_filter 0 _ _ hn.1, hn.2⟩)
    | (intro (n : EvStore) hn; split <;> (with_reducible exact EvStore.wf_of hn rfl rfl))
    | (intro (n : EvStore) hn; with_reducible exact EvStore.wf_of hn rfl rfl)
    | (intro (n : Bbx) hn; split <;> (with_reducible exact EvStore.wf_of hn rfl rfl))
    | (intro (n : Bbx) hn; with_reducible exact EvStore.wf_eq hn rfl)
    | (intro (n : Bbx) hn; with_reducible exact EvStore.wf_of hn rfl rfl)
    | split)

/-- Bits programmed into the four fuse arrays keep their form. -/
theorem Otp.wf_prog {o : Otp} {w : Nat} {a b c d : Word} (h : o.wf = true) :
    Otp.wf { o with aN := cellPut 0 o.aN w a, aM := cellPut 0 o.aM w b, bN := cellPut 0 o.bN w c, bM := cellPut 0 o.bM w d } = true := by
  simp only [Otp.wf, Bool.and_eq_true] at *
  exact ⟨⟨⟨cellsWf_put 0 _ _ _ h.1.1.1, cellsWf_put 0 _ _ _ h.1.1.2⟩, cellsWf_put 0 _ _ _ h.1.2⟩, cellsWf_put 0 _ _ _ h.2⟩

theorem step_progBits {s : State} {w : Nat} {req : Word} {va : Word} {vb : Word} : Step [.freeCtr, .otp, .fuse] s (State.progBits s w req va vb) := by
  unfold State.progBits
  exact Step.after (step_modOtpArray (fun o h => Otp.wf_prog h)) rfl (Step.after step_drawn rfl Step.refl)

theorem step_reread {s : State} : Step [.regs, .chans, .otp] s (State.reread s) := by
  unfold State.reread
  repeat' (first
    | with_reducible apply Step.refl
    | with_reducible assumption
    | exact Eq.refl true
    | ((conv => arg 3; arg 28); refine Step.put ?_)
    | (extract_lets +onlyGivenNames lv; first | ((first | refine Step.cut lv ?_ ?_ | refine Answers.cut lv ?_ ?_); unfold lv; clear lv; rotate_left; intro hx; clear_value lv; revert lv; intro _ _) | (revert lv; intro _))
    | with_reducible apply Step.after step_fire
    | with_reducible apply Step.after step_stick
    | with_reducible apply Step.after (step_modOtp ?_ ?_)
    | with_reducible apply Step.when
    | (with_reducible apply Step.foldl; intro fs fa)
    | (with_reducible apply Step.foldFin; intro fs fa)
    | (with_reducible apply Step.foldlFst; intro fs fa)
    | exact (fun _ => rfl)
    | (intro n; dsimp only; split <;> rfl)
    | (split; rename_i heq; have hx : (_ : State) = _ := congrArg Prod.snd heq; dsimp only at hx; subst hx)
    | (split; rename_i heq; have hx : (_ : State) = _ := congrArg Prod.fst heq; dsimp only at hx; subst hx)
    | (intro (n : Nvp) hn; simp only [Nvp.wf, Bool.and_eq_true] at hn ⊢; first | exact ⟨⟨nvpPuts_wf _ _ hn.1.1, hn.1.2⟩, hn.2⟩ | exact ⟨hn.1, rfl⟩)
    | (intro (n : Nvp) hn; split <;> (with_reducible exact Nvp.wf_of hn rfl rfl rfl))
    | (intro (n : Nvp) hn; with_reducible exact Nvp.wf_of hn rfl rfl rfl)
    | (intro (n : Otp) hn; split <;> (with_reducible exact Otp.wf_of hn rfl rfl rfl rfl))
    | (intro (n : Otp) hn; with_reducible exact Otp.wf_of hn rfl rfl rfl rfl)
    | (intro (n : Upd) hn; split <;> (with_reducible exact Upd.wf_of hn rfl))
    | (intro (n : Upd) hn; with_reducible exact Upd.wf_of hn rfl)
    | (intro (n : EvStore) hn; rw [EvStore.wf_iff] at *; first | exact ⟨cellsWf_put 0 _ _ _ hn.1, hn.2⟩ | exact ⟨hn.1, cellsWf_put _ _ _ _ hn.2⟩ | exact ⟨cellsWf_filter 0 _ _ hn.1, hn.2⟩)
    | (intro (n : EvStore) hn; split <;> (with_reducible exact EvStore.wf_of hn rfl rfl))
    | (intro (n : EvStore) hn; with_reducible exact EvStore.wf_of hn rfl rfl)
    | (intro (n : Bbx) hn; split <;> (with_reducible exact EvStore.wf_of hn rfl rfl))
    | (intro (n : Bbx) hn; with_reducible exact EvStore.wf_eq hn rfl)
    | (intro (n : Bbx) hn; with_reducible exact EvStore.wf_of hn rfl rfl)
    | split)

theorem step_execOtpReread {s : State} : Answers [.time, .regs, .chans, .otp] s (execOtpReread s) := by
  unfold execOtpReread
  repeat' (first
    | with_reducible apply Step.refl
    | with_reducible assumption
    | exact Eq.refl true
    | with_reducible apply Answers.ok
    | ((conv => arg 3; arg 28); refine Step.put ?_)
    | (extract_lets +onlyGivenNames lv; first | ((first | refine Step.cut lv ?_ ?_ | refine Answers.cut lv ?_ ?_); unfold lv; clear lv; rotate_left; intro hx; clear_value lv; revert lv; intro _ _) | (revert lv; intro _))
    | with_reducible apply Step.after (step_modOtp ?_ ?_)
    | with_reducible apply Step.after step_reread
    | with_reducible apply Step.when
    | (with_reducible refine Step.whenOp rfl ?_ (fun u => ?_))
    | (with_reducible apply Step.foldl; intro fs fa)
    | (with_reducible apply Step.foldFin; intro fs fa)
    | (with_reducible apply Step.foldlFst; intro fs fa)
    | exact (fun _ => rfl)
    | (intro n; dsimp only; split <;> rfl)
    | (split; rename_i heq; have hx : (_ : State) = _ := congrArg Prod.snd heq; dsimp only at hx; subst hx)
    | (split; rename_i heq; have hx : (_ : State) = _ := congrArg Prod.fst heq; dsimp only at hx; subst hx)
    | (intro (n : Nvp) hn; simp only [Nvp.wf, Bool.and_eq_true] at hn ⊢; first | exact ⟨⟨nvpPuts_wf _ _ hn.1.1, hn.1.2⟩, hn.2⟩ | exact ⟨hn.1, rfl⟩)
    | (intro (n : Nvp) hn; split <;> (with_reducible exact Nvp.wf_of hn rfl rfl rfl))
    | (intro (n : Nvp) hn; with_reducible exact Nvp.wf_of hn rfl rfl rfl)
    | (intro (n : Otp) hn; split <;> (with_reducible exact Otp.wf_of hn rfl rfl rfl rfl))
    | (intro (n : Otp) hn; with_reducible exact Otp.wf_of hn rfl rfl rfl rfl)
    | (intro (n : Upd) hn; split <;> (with_reducible exact Upd.wf_of hn rfl))
    | (intro (n : Upd) hn; with_reducible exact Upd.wf_of hn rfl)
    | (intro (n : EvStore) hn; rw [EvStore.wf_iff] at *; first | exact ⟨cellsWf_put 0 _ _ _ hn.1, hn.2⟩ | exact ⟨hn.1, cellsWf_put _ _ _ _ hn.2⟩ | exact ⟨cellsWf_filter 0 _ _ hn.1, hn.2⟩)
    | (intro (n : EvStore) hn; split <;> (with_reducible exact EvStore.wf_of hn rfl rfl))
    | (intro (n : EvStore) hn; with_reducible exact EvStore.wf_of hn rfl rfl)
    | (intro (n : Bbx) hn; split <;> (with_reducible exact EvStore.wf_of hn rfl rfl))
    | (intro (n : Bbx) hn; with_reducible exact EvStore.wf_eq hn rfl)
    | (intro (n : Bbx) hn; with_reducible exact EvStore.wf_of hn rfl rfl)
    | split)

theorem step_otpResult {s : State} {arg : Nat} {req : Word} {va : Word} {vb : Word} : Step [.regs, .chans, .otp] s (State.otpResult s arg req va vb) := by
  unfold State.otpResult
  repeat' (first
    | with_reducible apply Step.refl
    | with_reducible assumption
    | exact Eq.refl true
    | ((conv => arg 3; arg 28); refine Step.put ?_)
    | (extract_lets +onlyGivenNames lv; first | ((first | refine Step.cut lv ?_ ?_ | refine Answers.cut lv ?_ ?_); unfold lv; clear lv; rotate_left; intro hx; clear_value lv; revert lv; intro _ _) | (revert lv; intro _))
    | with_reducible apply Step.after (step_modOtp ?_ ?_)
    | with_reducible apply Step.after step_fire
    | with_reducible apply Step.after step_stick
    | with_reducible apply Step.when
    | (with_reducible apply Step.foldl; intro fs fa)
    | (with_reducible apply Step.foldFin; intro fs fa)
    | (with_reducible apply Step.foldlFst; intro fs fa)
    | exact (fun _ => rfl)
    | (intro n; dsimp only; split <;> rfl)
    | (split; rename_i heq; have hx : (_ : State) = _ := congrArg Prod.snd heq; dsimp only at hx; subst hx)
    | (split; rename_i heq; have hx : (_ : State) = _ := congrArg Prod.fst heq; dsimp only at hx; subst hx)
    | (intro (n : Nvp) hn; simp only [Nvp.wf, Bool.and_eq_true] at hn ⊢; first | exact ⟨⟨nvpPuts_wf _ _ hn.1.1, hn.1.2⟩, hn.2⟩ | exact ⟨hn.1, rfl⟩)
    | (intro (n : Nvp) hn; split <;> (with_reducible exact Nvp.wf_of hn rfl rfl rfl))
    | (intro (n : Nvp) hn; with_reducible exact Nvp.wf_of hn rfl rfl rfl)
    | (intro (n : Otp) hn; split <;> (with_reducible exact Otp.wf_of hn rfl rfl rfl rfl))
    | (intro (n : Otp) hn; with_reducible exact Otp.wf_of hn rfl rfl rfl rfl)
    | (intro (n : Upd) hn; split <;> (with_reducible exact Upd.wf_of hn rfl))
    | (intro (n : Upd) hn; with_reducible exact Upd.wf_of hn rfl)
    | (intro (n : EvStore) hn; rw [EvStore.wf_iff] at *; first | exact ⟨cellsWf_put 0 _ _ _ hn.1, hn.2⟩ | exact ⟨hn.1, cellsWf_put _ _ _ _ hn.2⟩ | exact ⟨cellsWf_filter 0 _ _ hn.1, hn.2⟩)
    | (intro (n : EvStore) hn; split <;> (with_reducible exact EvStore.wf_of hn rfl rfl))
    | (intro (n : EvStore) hn; with_reducible exact EvStore.wf_of hn rfl rfl)
    | (intro (n : Bbx) hn; split <;> (with_reducible exact EvStore.wf_of hn rfl rfl))
    | (intro (n : Bbx) hn; with_reducible exact EvStore.wf_eq hn rfl)
    | (intro (n : Bbx) hn; with_reducible exact EvStore.wf_of hn rfl rfl)
    | split)

theorem step_execOtpCommandComplete {verifiedA : Word} {verifiedB : Word} {pulses : Nat} {s : State} : Answers [.freeCtr, .regs, .chans, .otp, .fuse] s (execOtpCommandComplete verifiedA verifiedB pulses s) := by
  unfold execOtpCommandComplete
  repeat' (first
    | with_reducible apply Step.refl
    | with_reducible assumption
    | exact Eq.refl true
    | with_reducible apply Answers.ok
    | (extract_lets +onlyGivenNames lv; first | ((first | refine Step.cut lv ?_ ?_ | refine Answers.cut lv ?_ ?_); unfold lv; clear lv; rotate_left; intro hx; clear_value lv; revert lv; intro _ _) | (revert lv; intro _))
    | with_reducible apply Step.after (step_modOtp ?_ ?_)
    | with_reducible apply Step.after step_countPulses
    | with_reducible apply Step.after step_progBits
    | with_reducible apply Step.after step_otpResult
    | with_reducible apply Step.after step_stick
    | with_reducible apply Step.after step_reread
    | exact (fun _ => rfl)
    | (intro n; dsimp only; split <;> rfl)
    | (intro (n : Nvp) hn; simp only [Nvp.wf, Bool.and_eq_true] at hn ⊢; first | exact ⟨⟨nvpPuts_wf _ _ hn.1.1, hn.1.2⟩, hn.2⟩ | exact ⟨hn.1, rfl⟩)
    | (intro (n : Nvp) hn; split <;> (with_reducible exact Nvp.wf_of hn rfl rfl rfl))
    | (intro (n : Nvp) hn; with_reducible exact Nvp.wf_of hn rfl rfl rfl)
    | (intro (n : Otp) hn; split <;> (with_reducible exact Otp.wf_of hn rfl rfl rfl rfl))
    | (intro (n : Otp) hn; with_reducible exact Otp.wf_of hn rfl rfl rfl rfl)
    | (intro (n : Upd) hn; split <;> (with_reducible exact Upd.wf_of hn rfl))
    | (intro (n : Upd) hn; with_reducible exact Upd.wf_of hn rfl)
    | (intro (n : EvStore) hn; rw [EvStore.wf_iff] at *; first | exact ⟨cellsWf_put 0 _ _ _ hn.1, hn.2⟩ | exact ⟨hn.1, cellsWf_put _ _ _ _ hn.2⟩ | exact ⟨cellsWf_filter 0 _ _ hn.1, hn.2⟩)
    | (intro (n : EvStore) hn; split <;> (with_reducible exact EvStore.wf_of hn rfl rfl))
    | (intro (n : EvStore) hn; with_reducible exact EvStore.wf_of hn rfl rfl)
    | (intro (n : Bbx) hn; split <;> (with_reducible exact EvStore.wf_of hn rfl rfl))
    | (intro (n : Bbx) hn; with_reducible exact EvStore.wf_eq hn rfl)
    | (intro (n : Bbx) hn; with_reducible exact EvStore.wf_of hn rfl rfl)
    | split)

theorem step_advanceWord {s : State} {w : Nat} {req : Word} : Step [.freeCtr, .chans, .otp, .fuse] s (State.advanceWord s w req).1 := by
  unfold State.advanceWord
  repeat' (first
    | with_reducible apply Step.refl
    | with_reducible assumption
    | exact Eq.refl true
    | ((conv => arg 3; arg 28); refine Step.put ?_)
    | (extract_lets +onlyGivenNames lv; first | ((first | refine Step.cut lv ?_ ?_ | refine Answers.cut lv ?_ ?_); unfold lv; clear lv; rotate_left; intro hx; clear_value lv; revert lv; intro _ _) | (revert lv; intro _))
    | with_reducible apply Step.after step_drawn
    | with_reducible apply Step.after step_progBits
    | with_reducible apply Step.after step_countPulses
    | with_reducible apply Step.when
    | (with_reducible apply Step.foldl; intro fs fa)
    | (with_reducible apply Step.foldFin; intro fs fa)
    | (with_reducible apply Step.foldlFst; intro fs fa)
    | exact (fun _ => rfl)
    | (intro n; dsimp only; split <;> rfl)
    | (split; rename_i heq; have hx : (_ : State) = _ := congrArg Prod.snd heq; dsimp only at hx; subst hx)
    | (split; rename_i heq; have hx : (_ : State) = _ := congrArg Prod.fst heq; dsimp only at hx; subst hx)
    | (intro (n : Nvp) hn; simp only [Nvp.wf, Bool.and_eq_true] at hn ⊢; first | exact ⟨⟨nvpPuts_wf _ _ hn.1.1, hn.1.2⟩, hn.2⟩ | exact ⟨hn.1, rfl⟩)
    | (intro (n : Nvp) hn; split <;> (with_reducible exact Nvp.wf_of hn rfl rfl rfl))
    | (intro (n : Nvp) hn; with_reducible exact Nvp.wf_of hn rfl rfl rfl)
    | (intro (n : Otp) hn; split <;> (with_reducible exact Otp.wf_of hn rfl rfl rfl rfl))
    | (intro (n : Otp) hn; with_reducible exact Otp.wf_of hn rfl rfl rfl rfl)
    | (intro (n : Upd) hn; split <;> (with_reducible exact Upd.wf_of hn rfl))
    | (intro (n : Upd) hn; with_reducible exact Upd.wf_of hn rfl)
    | (intro (n : EvStore) hn; rw [EvStore.wf_iff] at *; first | exact ⟨cellsWf_put 0 _ _ _ hn.1, hn.2⟩ | exact ⟨hn.1, cellsWf_put _ _ _ _ hn.2⟩ | exact ⟨cellsWf_filter 0 _ _ hn.1, hn.2⟩)
    | (intro (n : EvStore) hn; split <;> (with_reducible exact EvStore.wf_of hn rfl rfl))
    | (intro (n : EvStore) hn; with_reducible exact EvStore.wf_of hn rfl rfl)
    | (intro (n : Bbx) hn; split <;> (with_reducible exact EvStore.wf_of hn rfl rfl))
    | (intro (n : Bbx) hn; with_reducible exact EvStore.wf_eq hn rfl)
    | (intro (n : Bbx) hn; with_reducible exact EvStore.wf_of hn rfl rfl)
    | split)

theorem step_advance {s : State} {t : Nat} {n : Nat} : Step [.freeCtr, .chans, .otp, .fuse] s (State.advance s t n).1 := by
  unfold State.advance
  repeat' (first
    | with_reducible apply Step.refl
    | with_reducible assumption
    | exact Eq.refl true
    | (extract_lets +onlyGivenNames lv; first | ((first | refine Step.cut lv ?_ ?_ | refine Answers.cut lv ?_ ?_); unfold lv; clear lv; rotate_left; intro hx; clear_value lv; revert lv; intro _ _) | (revert lv; intro _))
    | with_reducible apply Step.after step_advanceWord
    | with_reducible apply Step.when
    | (with_reducible apply Step.foldl; intro fs fa)
    | (with_reducible apply Step.foldFin; intro fs fa)
    | (with_reducible apply Step.foldlFst; intro fs fa)
    | (split; rename_i heq; have hx : (_ : State) = _ := congrArg Prod.snd heq; dsimp only at hx; subst hx)
    | (split; rename_i heq; have hx : (_ : State) = _ := congrArg Prod.fst heq; dsimp only at hx; subst hx)
    | split)

/-! ### Rings -/

theorem step_modHst {s : State} {f : Hst → Hst} : Step [.hst] s (State.modHst s f) := by
  unfold State.modHst
  repeat' (first
    | with_reducible apply Step.refl
    | with_reducible assumption
    | exact Eq.refl true
    | ((conv => arg 3; arg 28); refine Step.put ?_)
    | (extract_lets +onlyGivenNames lv; first | ((first | refine Step.cut lv ?_ ?_ | refine Answers.cut lv ?_ ?_); unfold lv; clear lv; rotate_left; intro hx; clear_value lv; revert lv; intro _ _) | (revert lv; intro _))
    | split)

theorem step_modEvt {s : State} {f : Evt → Evt} : Step [.evt] s (State.modEvt s f) := by
  unfold State.modEvt
  repeat' (first
    | with_reducible apply Step.refl
    | with_reducible assumption
    | exact Eq.refl true
    | ((conv => arg 3; arg 28); refine Step.put ?_)
    | (extract_lets +onlyGivenNames lv; first | ((first | refine Step.cut lv ?_ ?_ | refine Answers.cut lv ?_ ?_); unfold lv; clear lv; rotate_left; intro hx; clear_value lv; revert lv; intro _ _) | (revert lv; intro _))
    | split)

theorem step_modRing {s : State} {r : Fin 8} {f : HRing → HRing} : Step [.hst] s (State.modRing s r f) := by
  unfold State.modRing
  repeat' (first
    | with_reducible apply Step.refl
    | with_reducible assumption
    | exact Eq.refl true
    | (extract_lets +onlyGivenNames lv; first | ((first | refine Step.cut lv ?_ ?_ | refine Answers.cut lv ?_ ?_); unfold lv; clear lv; rotate_left; intro hx; clear_value lv; revert lv; intro _ _) | (revert lv; intro _))
    | with_reducible apply Step.after step_modHst
    | split)

theorem step_post {s : State} {p : Posted} : Step [.hst] s (State.post s p) := by
  unfold State.post
  repeat' (first
    | with_reducible apply Step.refl
    | with_reducible assumption
    | exact Eq.refl true
    | (extract_lets +onlyGivenNames lv; first | ((first | refine Step.cut lv ?_ ?_ | refine Answers.cut lv ?_ ?_); unfold lv; clear lv; rotate_left; intro hx; clear_value lv; revert lv; intro _ _) | (revert lv; intro _))
    | with_reducible apply Step.after step_modHst
    | split)

theorem step_vecSend {s : State} {v : Fin 64} : Step [.hst, .evt] s (State.vecSend s v) := by
  unfold State.vecSend
  repeat' (first
    | with_reducible apply Step.refl
    | with_reducible assumption
    | exact Eq.refl true
    | ((conv => arg 3; arg 28); refine Step.put ?_)
    | (extract_lets +onlyGivenNames lv; first | ((first | refine Step.cut lv ?_ ?_ | refine Answers.cut lv ?_ ?_); unfold lv; clear lv; rotate_left; intro hx; clear_value lv; revert lv; intro _ _) | (revert lv; intro _))
    | with_reducible apply Step.after step_modEvt
    | with_reducible apply Step.after step_post
    | with_reducible apply Step.when
    | (with_reducible apply Step.foldl; intro fs fa)
    | (with_reducible apply Step.foldFin; intro fs fa)
    | (with_reducible apply Step.foldlFst; intro fs fa)
    | exact (fun _ => rfl)
    | (intro n; dsimp only; split <;> rfl)
    | (split; rename_i heq; have hx : (_ : State) = _ := congrArg Prod.snd heq; dsimp only at hx; subst hx)
    | (split; rename_i heq; have hx : (_ : State) = _ := congrArg Prod.fst heq; dsimp only at hx; subst hx)
    | (intro (n : Nvp) hn; simp only [Nvp.wf, Bool.and_eq_true] at hn ⊢; first | exact ⟨⟨nvpPuts_wf _ _ hn.1.1, hn.1.2⟩, hn.2⟩ | exact ⟨hn.1, rfl⟩)
    | (intro (n : Nvp) hn; split <;> (with_reducible exact Nvp.wf_of hn rfl rfl rfl))
    | (intro (n : Nvp) hn; with_reducible exact Nvp.wf_of hn rfl rfl rfl)
    | (intro (n : Otp) hn; split <;> (with_reducible exact Otp.wf_of hn rfl rfl rfl rfl))
    | (intro (n : Otp) hn; with_reducible exact Otp.wf_of hn rfl rfl rfl rfl)
    | (intro (n : Upd) hn; split <;> (with_reducible exact Upd.wf_of hn rfl))
    | (intro (n : Upd) hn; with_reducible exact Upd.wf_of hn rfl)
    | (intro (n : EvStore) hn; rw [EvStore.wf_iff] at *; first | exact ⟨cellsWf_put 0 _ _ _ hn.1, hn.2⟩ | exact ⟨hn.1, cellsWf_put _ _ _ _ hn.2⟩ | exact ⟨cellsWf_filter 0 _ _ hn.1, hn.2⟩)
    | (intro (n : EvStore) hn; split <;> (with_reducible exact EvStore.wf_of hn rfl rfl))
    | (intro (n : EvStore) hn; with_reducible exact EvStore.wf_of hn rfl rfl)
    | (intro (n : Bbx) hn; split <;> (with_reducible exact EvStore.wf_of hn rfl rfl))
    | (intro (n : Bbx) hn; with_reducible exact EvStore.wf_eq hn rfl)
    | (intro (n : Bbx) hn; with_reducible exact EvStore.wf_of hn rfl rfl)
    | split)

theorem step_vecRaise {s : State} {v : Fin 64} : Step [.chans, .hst, .evt] s (State.vecRaise s v) := by
  unfold State.vecRaise
  repeat' (first
    | with_reducible apply Step.refl
    | with_reducible assumption
    | exact Eq.refl true
    | ((conv => arg 3; arg 28); refine Step.put ?_)
    | (extract_lets +onlyGivenNames lv; first | ((first | refine Step.cut lv ?_ ?_ | refine Answers.cut lv ?_ ?_); unfold lv; clear lv; rotate_left; intro hx; clear_value lv; revert lv; intro _ _) | (revert lv; intro _))
    | with_reducible apply Step.after step_modEvt
    | with_reducible apply Step.after step_vecSend
    | with_reducible apply Step.after step_satEv
    | with_reducible apply Step.when
    | (with_reducible apply Step.foldl; intro fs fa)
    | (with_reducible apply Step.foldFin; intro fs fa)
    | (with_reducible apply Step.foldlFst; intro fs fa)
    | exact (fun _ => rfl)
    | (intro n; dsimp only; split <;> rfl)
    | (split; rename_i heq; have hx : (_ : State) = _ := congrArg Prod.snd heq; dsimp only at hx; subst hx)
    | (split; rename_i heq; have hx : (_ : State) = _ := congrArg Prod.fst heq; dsimp only at hx; subst hx)
    | (intro (n : Nvp) hn; simp only [Nvp.wf, Bool.and_eq_true] at hn ⊢; first | exact ⟨⟨nvpPuts_wf _ _ hn.1.1, hn.1.2⟩, hn.2⟩ | exact ⟨hn.1, rfl⟩)
    | (intro (n : Nvp) hn; split <;> (with_reducible exact Nvp.wf_of hn rfl rfl rfl))
    | (intro (n : Nvp) hn; with_reducible exact Nvp.wf_of hn rfl rfl rfl)
    | (intro (n : Otp) hn; split <;> (with_reducible exact Otp.wf_of hn rfl rfl rfl rfl))
    | (intro (n : Otp) hn; with_reducible exact Otp.wf_of hn rfl rfl rfl rfl)
    | (intro (n : Upd) hn; split <;> (with_reducible exact Upd.wf_of hn rfl))
    | (intro (n : Upd) hn; with_reducible exact Upd.wf_of hn rfl)
    | (intro (n : EvStore) hn; rw [EvStore.wf_iff] at *; first | exact ⟨cellsWf_put 0 _ _ _ hn.1, hn.2⟩ | exact ⟨hn.1, cellsWf_put _ _ _ _ hn.2⟩ | exact ⟨cellsWf_filter 0 _ _ hn.1, hn.2⟩)
    | (intro (n : EvStore) hn; split <;> (with_reducible exact EvStore.wf_of hn rfl rfl))
    | (intro (n : EvStore) hn; with_reducible exact EvStore.wf_of hn rfl rfl)
    | (intro (n : Bbx) hn; split <;> (with_reducible exact EvStore.wf_of hn rfl rfl))
    | (intro (n : Bbx) hn; with_reducible exact EvStore.wf_eq hn rfl)
    | (intro (n : Bbx) hn; with_reducible exact EvStore.wf_of hn rfl rfl)
    | split)

theorem step_vecRelease {s : State} : Step [.hst, .evt] s (State.vecRelease s) := by
  unfold State.vecRelease
  repeat' (first
    | with_reducible apply Step.refl
    | with_reducible assumption
    | exact Eq.refl true
    | ((conv => arg 3; arg 28); refine Step.put ?_)
    | (extract_lets +onlyGivenNames lv; first | ((first | refine Step.cut lv ?_ ?_ | refine Answers.cut lv ?_ ?_); unfold lv; clear lv; rotate_left; intro hx; clear_value lv; revert lv; intro _ _) | (revert lv; intro _))
    | with_reducible apply Step.after step_vecSend
    | with_reducible apply Step.after step_modEvt
    | with_reducible apply Step.when
    | (with_reducible apply Step.foldl; intro fs fa)
    | (with_reducible apply Step.foldFin; intro fs fa)
    | (with_reducible apply Step.foldlFst; intro fs fa)
    | exact (fun _ => rfl)
    | (intro n; dsimp only; split <;> rfl)
    | (split; rename_i heq; have hx : (_ : State) = _ := congrArg Prod.snd heq; dsimp only at hx; subst hx)
    | (split; rename_i heq; have hx : (_ : State) = _ := congrArg Prod.fst heq; dsimp only at hx; subst hx)
    | (intro (n : Nvp) hn; simp only [Nvp.wf, Bool.and_eq_true] at hn ⊢; first | exact ⟨⟨nvpPuts_wf _ _ hn.1.1, hn.1.2⟩, hn.2⟩ | exact ⟨hn.1, rfl⟩)
    | (intro (n : Nvp) hn; split <;> (with_reducible exact Nvp.wf_of hn rfl rfl rfl))
    | (intro (n : Nvp) hn; with_reducible exact Nvp.wf_of hn rfl rfl rfl)
    | (intro (n : Otp) hn; split <;> (with_reducible exact Otp.wf_of hn rfl rfl rfl rfl))
    | (intro (n : Otp) hn; with_reducible exact Otp.wf_of hn rfl rfl rfl rfl)
    | (intro (n : Upd) hn; split <;> (with_reducible exact Upd.wf_of hn rfl))
    | (intro (n : Upd) hn; with_reducible exact Upd.wf_of hn rfl)
    | (intro (n : EvStore) hn; rw [EvStore.wf_iff] at *; first | exact ⟨cellsWf_put 0 _ _ _ hn.1, hn.2⟩ | exact ⟨hn.1, cellsWf_put _ _ _ _ hn.2⟩ | exact ⟨cellsWf_filter 0 _ _ hn.1, hn.2⟩)
    | (intro (n : EvStore) hn; split <;> (with_reducible exact EvStore.wf_of hn rfl rfl))
    | (intro (n : EvStore) hn; with_reducible exact EvStore.wf_of hn rfl rfl)
    | (intro (n : Bbx) hn; split <;> (with_reducible exact EvStore.wf_of hn rfl rfl))
    | (intro (n : Bbx) hn; with_reducible exact EvStore.wf_eq hn rfl)
    | (intro (n : Bbx) hn; with_reducible exact EvStore.wf_of hn rfl rfl)
    | split)

theorem step_execMsixModerationEnd {v : Fin 64} {s : State} : Answers [.time, .hst, .evt] s (execMsixModerationEnd v s) := by
  unfold execMsixModerationEnd
  repeat' (first
    | with_reducible apply Step.refl
    | with_reducible assumption
    | exact Eq.refl true
    | with_reducible apply Answers.ok
    | ((conv => arg 3; arg 28); refine Step.put ?_)
    | (extract_lets +onlyGivenNames lv; first | ((first | refine Step.cut lv ?_ ?_ | refine Answers.cut lv ?_ ?_); unfold lv; clear lv; rotate_left; intro hx; clear_value lv; revert lv; intro _ _) | (revert lv; intro _))
    | with_reducible apply Step.after step_vecSend
    | with_reducible apply Step.after step_modEvt
    | with_reducible apply Step.when
    | (with_reducible refine Step.whenAt rfl ?_ (fun u => ?_))
    | (with_reducible apply Step.foldl; intro fs fa)
    | (with_reducible apply Step.foldFin; intro fs fa)
    | (with_reducible apply Step.foldlFst; intro fs fa)
    | exact (fun _ => rfl)
    | (intro n; dsimp only; split <;> rfl)
    | (split; rename_i heq; have hx : (_ : State) = _ := congrArg Prod.snd heq; dsimp only at hx; subst hx)
    | (split; rename_i heq; have hx : (_ : State) = _ := congrArg Prod.fst heq; dsimp only at hx; subst hx)
    | (intro (n : Nvp) hn; simp only [Nvp.wf, Bool.and_eq_true] at hn ⊢; first | exact ⟨⟨nvpPuts_wf _ _ hn.1.1, hn.1.2⟩, hn.2⟩ | exact ⟨hn.1, rfl⟩)
    | (intro (n : Nvp) hn; split <;> (with_reducible exact Nvp.wf_of hn rfl rfl rfl))
    | (intro (n : Nvp) hn; with_reducible exact Nvp.wf_of hn rfl rfl rfl)
    | (intro (n : Otp) hn; split <;> (with_reducible exact Otp.wf_of hn rfl rfl rfl rfl))
    | (intro (n : Otp) hn; with_reducible exact Otp.wf_of hn rfl rfl rfl rfl)
    | (intro (n : Upd) hn; split <;> (with_reducible exact Upd.wf_of hn rfl))
    | (intro (n : Upd) hn; with_reducible exact Upd.wf_of hn rfl)
    | (intro (n : EvStore) hn; rw [EvStore.wf_iff] at *; first | exact ⟨cellsWf_put 0 _ _ _ hn.1, hn.2⟩ | exact ⟨hn.1, cellsWf_put _ _ _ _ hn.2⟩ | exact ⟨cellsWf_filter 0 _ _ hn.1, hn.2⟩)
    | (intro (n : EvStore) hn; split <;> (with_reducible exact EvStore.wf_of hn rfl rfl))
    | (intro (n : EvStore) hn; with_reducible exact EvStore.wf_of hn rfl rfl)
    | (intro (n : Bbx) hn; split <;> (with_reducible exact EvStore.wf_of hn rfl rfl))
    | (intro (n : Bbx) hn; with_reducible exact EvStore.wf_eq hn rfl)
    | (intro (n : Bbx) hn; with_reducible exact EvStore.wf_of hn rfl rfl)
    | split)

theorem step_writeBack {s : State} : Step [.hst] s (State.writeBack s) := by
  unfold State.writeBack
  repeat' (first
    | with_reducible apply Step.refl
    | with_reducible assumption
    | exact Eq.refl true
    | (extract_lets +onlyGivenNames lv; first | ((first | refine Step.cut lv ?_ ?_ | refine Answers.cut lv ?_ ?_); unfold lv; clear lv; rotate_left; intro hx; clear_value lv; revert lv; intro _ _) | (revert lv; intro _))
    | with_reducible apply Step.after step_post
    | split)

theorem step_ringVec {s : State} {r : Fin 8} : Step [.chans, .hst, .evt] s (State.ringVec s r) := by
  unfold State.ringVec
  repeat' (first
    | with_reducible apply Step.refl
    | with_reducible assumption
    | exact Eq.refl true
    | (extract_lets +onlyGivenNames lv; first | ((first | refine Step.cut lv ?_ ?_ | refine Answers.cut lv ?_ ?_); unfold lv; clear lv; rotate_left; intro hx; clear_value lv; revert lv; intro _ _) | (revert lv; intro _))
    | with_reducible apply Step.after step_vecRaise
    | split)

theorem step_ringEvent {s : State} {r : Fin 8} {src : Nat} {cause : Nat} {hi : Int} : Step [.chans, .hst] s (State.ringEvent s r src cause hi) := by
  unfold State.ringEvent
  repeat' (first
    | with_reducible apply Step.refl
    | with_reducible assumption
    | exact Eq.refl true
    | (extract_lets +onlyGivenNames lv; first | ((first | refine Step.cut lv ?_ ?_ | refine Answers.cut lv ?_ ?_); unfold lv; clear lv; rotate_left; intro hx; clear_value lv; revert lv; intro _ _) | (revert lv; intro _))
    | with_reducible apply Step.after step_fire
    | with_reducible apply Step.after step_modRing
    | split)

theorem step_ringPush {s : State} {r : Fin 8} {es : List (List Byte)} : Step [.chans, .hst, .evt] s (State.ringPush s r es) := by
  unfold State.ringPush
  repeat' (first
    | with_reducible apply Step.refl
    | with_reducible assumption
    | exact Eq.refl true
    | (extract_lets +onlyGivenNames lv; first | ((first | refine Step.cut lv ?_ ?_ | refine Answers.cut lv ?_ ?_); unfold lv; clear lv; rotate_left; intro hx; clear_value lv; revert lv; intro _ _) | (revert lv; intro _))
    | with_reducible apply Step.after step_modRing
    | with_reducible apply Step.after step_post
    | with_reducible apply Step.after step_ringVec
    | with_reducible apply Step.after step_writeBack
    | with_reducible apply Step.after step_ringEvent
    | with_reducible apply Step.when
    | (with_reducible apply Step.foldl; intro fs fa)
    | (with_reducible apply Step.foldFin; intro fs fa)
    | (with_reducible apply Step.foldlFst; intro fs fa)
    | (split; rename_i heq; have hx : (_ : State) = _ := congrArg Prod.snd heq; dsimp only at hx; subst hx)
    | (split; rename_i heq; have hx : (_ : State) = _ := congrArg Prod.fst heq; dsimp only at hx; subst hx)
    | split)

theorem step_ringLose {s : State} {r : Fin 8} : Step [.hst] s (State.ringLose s r) := by
  unfold State.ringLose
  repeat' (first
    | with_reducible apply Step.refl
    | with_reducible assumption
    | exact Eq.refl true
    | (extract_lets +onlyGivenNames lv; first | ((first | refine Step.cut lv ?_ ?_ | refine Answers.cut lv ?_ ?_); unfold lv; clear lv; rotate_left; intro hx; clear_value lv; revert lv; intro _ _) | (revert lv; intro _))
    | with_reducible apply Step.after step_modRing
    | split)

theorem step_hstSat {s : State} {old : Ctr} {new : Ctr} {off : Nat} : Step [.chans] s (State.hstSat s old new off) := by
  unfold State.hstSat
  repeat' (first
    | with_reducible apply Step.refl
    | with_reducible assumption
    | exact Eq.refl true
    | (extract_lets +onlyGivenNames lv; first | ((first | refine Step.cut lv ?_ ?_ | refine Answers.cut lv ?_ ?_); unfold lv; clear lv; rotate_left; intro hx; clear_value lv; revert lv; intro _ _) | (revert lv; intro _))
    | with_reducible apply Step.after step_satEv
    | split)

theorem step_sumUpdate {s : State} {src : Nat} {sev : Nat} : Step [.chans, .aon, .evt] s (State.sumUpdate s src sev) := by
  unfold State.sumUpdate
  repeat' (first
    | with_reducible apply Step.refl
    | with_reducible assumption
    | exact Eq.refl true
    | ((conv => arg 3; arg 28); refine Step.put ?_)
    | (extract_lets +onlyGivenNames lv; first | ((first | refine Step.cut lv ?_ ?_ | refine Answers.cut lv ?_ ?_); unfold lv; clear lv; rotate_left; intro hx; clear_value lv; revert lv; intro _ _) | (revert lv; intro _))
    | with_reducible apply Step.after step_modEvt
    | with_reducible apply Step.after step_satEv
    | with_reducible apply Step.when
    | (with_reducible apply Step.foldl; intro fs fa)
    | (with_reducible apply Step.foldFin; intro fs fa)
    | (with_reducible apply Step.foldlFst; intro fs fa)
    | exact (fun _ => rfl)
    | (intro n; dsimp only; split <;> rfl)
    | (split; rename_i heq; have hx : (_ : State) = _ := congrArg Prod.snd heq; dsimp only at hx; subst hx)
    | (split; rename_i heq; have hx : (_ : State) = _ := congrArg Prod.fst heq; dsimp only at hx; subst hx)
    | (intro (n : Nvp) hn; simp only [Nvp.wf, Bool.and_eq_true] at hn ⊢; first | exact ⟨⟨nvpPuts_wf _ _ hn.1.1, hn.1.2⟩, hn.2⟩ | exact ⟨hn.1, rfl⟩)
    | (intro (n : Nvp) hn; split <;> (with_reducible exact Nvp.wf_of hn rfl rfl rfl))
    | (intro (n : Nvp) hn; with_reducible exact Nvp.wf_of hn rfl rfl rfl)
    | (intro (n : Otp) hn; split <;> (with_reducible exact Otp.wf_of hn rfl rfl rfl rfl))
    | (intro (n : Otp) hn; with_reducible exact Otp.wf_of hn rfl rfl rfl rfl)
    | (intro (n : Upd) hn; split <;> (with_reducible exact Upd.wf_of hn rfl))
    | (intro (n : Upd) hn; with_reducible exact Upd.wf_of hn rfl)
    | (intro (n : EvStore) hn; rw [EvStore.wf_iff] at *; first | exact ⟨cellsWf_put 0 _ _ _ hn.1, hn.2⟩ | exact ⟨hn.1, cellsWf_put _ _ _ _ hn.2⟩ | exact ⟨cellsWf_filter 0 _ _ hn.1, hn.2⟩)
    | (intro (n : EvStore) hn; split <;> (with_reducible exact EvStore.wf_of hn rfl rfl))
    | (intro (n : EvStore) hn; with_reducible exact EvStore.wf_of hn rfl rfl)
    | (intro (n : Bbx) hn; split <;> (with_reducible exact EvStore.wf_of hn rfl rfl))
    | (intro (n : Bbx) hn; with_reducible exact EvStore.wf_eq hn rfl)
    | (intro (n : Bbx) hn; with_reducible exact EvStore.wf_of hn rfl rfl)
    | split)

theorem step_route {s : State} {src : Nat} {sev : Nat} : Step [.chans, .aon, .hst, .evt] s (State.route s src sev) := by
  unfold State.route
  repeat' (first
    | with_reducible apply Step.refl
    | with_reducible assumption
    | exact Eq.refl true
    | ((conv => arg 3; arg 28); refine Step.put ?_)
    | (extract_lets +onlyGivenNames lv; first | ((first | refine Step.cut lv ?_ ?_ | refine Answers.cut lv ?_ ?_); unfold lv; clear lv; rotate_left; intro hx; clear_value lv; revert lv; intro _ _) | (revert lv; intro _))
    | with_reducible apply Step.after step_vecRaise
    | with_reducible apply Step.after step_sumUpdate
    | with_reducible apply Step.when
    | (with_reducible apply Step.foldl; intro fs fa)
    | (with_reducible apply Step.foldFin; intro fs fa)
    | (with_reducible apply Step.foldlFst; intro fs fa)
    | exact (fun _ => rfl)
    | (intro n; dsimp only; split <;> rfl)
    | (split; rename_i heq; have hx : (_ : State) = _ := congrArg Prod.snd heq; dsimp only at hx; subst hx)
    | (split; rename_i heq; have hx : (_ : State) = _ := congrArg Prod.fst heq; dsimp only at hx; subst hx)
    | (intro (n : Nvp) hn; simp only [Nvp.wf, Bool.and_eq_true] at hn ⊢; first | exact ⟨⟨nvpPuts_wf _ _ hn.1.1, hn.1.2⟩, hn.2⟩ | exact ⟨hn.1, rfl⟩)
    | (intro (n : Nvp) hn; split <;> (with_reducible exact Nvp.wf_of hn rfl rfl rfl))
    | (intro (n : Nvp) hn; with_reducible exact Nvp.wf_of hn rfl rfl rfl)
    | (intro (n : Otp) hn; split <;> (with_reducible exact Otp.wf_of hn rfl rfl rfl rfl))
    | (intro (n : Otp) hn; with_reducible exact Otp.wf_of hn rfl rfl rfl rfl)
    | (intro (n : Upd) hn; split <;> (with_reducible exact Upd.wf_of hn rfl))
    | (intro (n : Upd) hn; with_reducible exact Upd.wf_of hn rfl)
    | (intro (n : EvStore) hn; rw [EvStore.wf_iff] at *; first | exact ⟨cellsWf_put 0 _ _ _ hn.1, hn.2⟩ | exact ⟨hn.1, cellsWf_put _ _ _ _ hn.2⟩ | exact ⟨cellsWf_filter 0 _ _ hn.1, hn.2⟩)
    | (intro (n : EvStore) hn; split <;> (with_reducible exact EvStore.wf_of hn rfl rfl))
    | (intro (n : EvStore) hn; with_reducible exact EvStore.wf_of hn rfl rfl)
    | (intro (n : Bbx) hn; split <;> (with_reducible exact EvStore.wf_of hn rfl rfl))
    | (intro (n : Bbx) hn; with_reducible exact EvStore.wf_eq hn rfl)
    | (intro (n : Bbx) hn; with_reducible exact EvStore.wf_of hn rfl rfl)
    | split)

theorem step_chanDrop {s : State} {i : Island} : Step [.freeCtr, .chans] s (State.chanDrop s i) := by
  unfold State.chanDrop
  repeat' (first
    | with_reducible apply Step.refl
    | with_reducible assumption
    | exact Eq.refl true
    | ((conv => arg 3; arg 28); refine Step.put ?_)
    | (extract_lets +onlyGivenNames lv; first | ((first | refine Step.cut lv ?_ ?_ | refine Answers.cut lv ?_ ?_); unfold lv; clear lv; rotate_left; intro hx; clear_value lv; revert lv; intro _ _) | (revert lv; intro _))
    | with_reducible apply Step.after step_fire
    | with_reducible apply Step.after step_fireRaw
    | with_reducible apply Step.after step_drawn
    | split)

theorem step_landed {s : State} {k : Nat} : Step [.chans] s (State.landed s k) := by
  unfold State.landed
  repeat' (first
    | with_reducible apply Step.refl
    | with_reducible assumption
    | exact Eq.refl true
    | ((conv => arg 3; arg 28); refine Step.put ?_)
    | (extract_lets +onlyGivenNames lv; first | ((first | refine Step.cut lv ?_ ?_ | refine Answers.cut lv ?_ ?_); unfold lv; clear lv; rotate_left; intro hx; clear_value lv; revert lv; intro _ _) | (revert lv; intro _))
    | with_reducible apply Step.when
    | (with_reducible apply Step.foldl; intro fs fa)
    | (with_reducible apply Step.foldFin; intro fs fa)
    | (with_reducible apply Step.foldlFst; intro fs fa)
    | exact (fun _ => rfl)
    | (intro n; dsimp only; split <;> rfl)
    | (split; rename_i heq; have hx : (_ : State) = _ := congrArg Prod.snd heq; dsimp only at hx; subst hx)
    | (split; rename_i heq; have hx : (_ : State) = _ := congrArg Prod.fst heq; dsimp only at hx; subst hx)
    | (intro (n : Nvp) hn; simp only [Nvp.wf, Bool.and_eq_true] at hn ⊢; first | exact ⟨⟨nvpPuts_wf _ _ hn.1.1, hn.1.2⟩, hn.2⟩ | exact ⟨hn.1, rfl⟩)
    | (intro (n : Nvp) hn; split <;> (with_reducible exact Nvp.wf_of hn rfl rfl rfl))
    | (intro (n : Nvp) hn; with_reducible exact Nvp.wf_of hn rfl rfl rfl)
    | (intro (n : Otp) hn; split <;> (with_reducible exact Otp.wf_of hn rfl rfl rfl rfl))
    | (intro (n : Otp) hn; with_reducible exact Otp.wf_of hn rfl rfl rfl rfl)
    | (intro (n : Upd) hn; split <;> (with_reducible exact Upd.wf_of hn rfl))
    | (intro (n : Upd) hn; with_reducible exact Upd.wf_of hn rfl)
    | (intro (n : EvStore) hn; rw [EvStore.wf_iff] at *; first | exact ⟨cellsWf_put 0 _ _ _ hn.1, hn.2⟩ | exact ⟨hn.1, cellsWf_put _ _ _ _ hn.2⟩ | exact ⟨cellsWf_filter 0 _ _ hn.1, hn.2⟩)
    | (intro (n : EvStore) hn; split <;> (with_reducible exact EvStore.wf_of hn rfl rfl))
    | (intro (n : EvStore) hn; with_reducible exact EvStore.wf_of hn rfl rfl)
    | (intro (n : Bbx) hn; split <;> (with_reducible exact EvStore.wf_of hn rfl rfl))
    | (intro (n : Bbx) hn; with_reducible exact EvStore.wf_eq hn rfl)
    | (intro (n : Bbx) hn; with_reducible exact EvStore.wf_of hn rfl rfl)
    | split)

theorem step_execBbxEventEnqueue {s : State} : Answers [.freeCtr, .chans, .aon, .bbx, .hst, .evt] s (execBbxEventEnqueue s) := by
  unfold execBbxEventEnqueue
  repeat' (first
    | with_reducible apply Step.refl
    | with_reducible assumption
    | exact Eq.refl true
    | with_reducible apply Answers.ok
    | ((conv => arg 3; arg 28); refine Step.put ?_)
    | (extract_lets +onlyGivenNames lv; first | ((first | refine Step.cut lv ?_ ?_ | refine Answers.cut lv ?_ ?_); unfold lv; clear lv; rotate_left; intro hx; clear_value lv; revert lv; intro _ _) | (revert lv; intro _))
    | with_reducible apply Step.after step_chanDrop
    | with_reducible apply Step.after step_landed
    | with_reducible apply Step.after step_route
    | with_reducible apply Step.when
    | (with_reducible apply Step.foldl; intro fs fa)
    | (with_reducible apply Step.foldFin; intro fs fa)
    | (with_reducible apply Step.foldlFst; intro fs fa)
    | exact (fun _ => rfl)
    | (intro n; dsimp only; split <;> rfl)
    | (split; rename_i heq; have hx : (_ : State) = _ := congrArg Prod.snd heq; dsimp only at hx; subst hx)
    | (split; rename_i heq; have hx : (_ : State) = _ := congrArg Prod.fst heq; dsimp only at hx; subst hx)
    | (intro (n : Nvp) hn; simp only [Nvp.wf, Bool.and_eq_true] at hn ⊢; first | exact ⟨⟨nvpPuts_wf _ _ hn.1.1, hn.1.2⟩, hn.2⟩ | exact ⟨hn.1, rfl⟩)
    | (intro (n : Nvp) hn; split <;> (with_reducible exact Nvp.wf_of hn rfl rfl rfl))
    | (intro (n : Nvp) hn; with_reducible exact Nvp.wf_of hn rfl rfl rfl)
    | (intro (n : Otp) hn; split <;> (with_reducible exact Otp.wf_of hn rfl rfl rfl rfl))
    | (intro (n : Otp) hn; with_reducible exact Otp.wf_of hn rfl rfl rfl rfl)
    | (intro (n : Upd) hn; split <;> (with_reducible exact Upd.wf_of hn rfl))
    | (intro (n : Upd) hn; with_reducible exact Upd.wf_of hn rfl)
    | (intro (n : EvStore) hn; rw [EvStore.wf_iff] at *; first | exact ⟨cellsWf_put 0 _ _ _ hn.1, hn.2⟩ | exact ⟨hn.1, cellsWf_put _ _ _ _ hn.2⟩ | exact ⟨cellsWf_filter 0 _ _ hn.1, hn.2⟩)
    | (intro (n : EvStore) hn; split <;> (with_reducible exact EvStore.wf_of hn rfl rfl))
    | (intro (n : EvStore) hn; with_reducible exact EvStore.wf_of hn rfl rfl)
    | (intro (n : Bbx) hn; split <;> (with_reducible exact EvStore.wf_of hn rfl rfl))
    | (intro (n : Bbx) hn; with_reducible exact EvStore.wf_eq hn rfl)
    | (intro (n : Bbx) hn; with_reducible exact EvStore.wf_of hn rfl rfl)
    | split)

theorem step_sumClear {s : State} : Step [.aon, .evt] s (State.sumClear s) := by
  unfold State.sumClear
  exact Step.put (Step.after step_modEvt rfl Step.refl)

theorem step_tripClear {s : State} : Step [.aon] s (State.tripClear s) := by
  unfold State.tripClear
  repeat' (first
    | with_reducible apply Step.refl
    | with_reducible assumption
    | exact Eq.refl true
    | ((conv => arg 3; arg 28); refine Step.put ?_)
    | (extract_lets +onlyGivenNames lv; first | ((first | refine Step.cut lv ?_ ?_ | refine Answers.cut lv ?_ ?_); unfold lv; clear lv; rotate_left; intro hx; clear_value lv; revert lv; intro _ _) | (revert lv; intro _))
    | with_reducible apply Step.when
    | (with_reducible apply Step.foldl; intro fs fa)
    | (with_reducible apply Step.foldFin; intro fs fa)
    | (with_reducible apply Step.foldlFst; intro fs fa)
    | exact (fun _ => rfl)
    | (intro n; dsimp only; split <;> rfl)
    | (split; rename_i heq; have hx : (_ : State) = _ := congrArg Prod.snd heq; dsimp only at hx; subst hx)
    | (split; rename_i heq; have hx : (_ : State) = _ := congrArg Prod.fst heq; dsimp only at hx; subst hx)
    | (intro (n : Nvp) hn; simp only [Nvp.wf, Bool.and_eq_true] at hn ⊢; first | exact ⟨⟨nvpPuts_wf _ _ hn.1.1, hn.1.2⟩, hn.2⟩ | exact ⟨hn.1, rfl⟩)
    | (intro (n : Nvp) hn; split <;> (with_reducible exact Nvp.wf_of hn rfl rfl rfl))
    | (intro (n : Nvp) hn; with_reducible exact Nvp.wf_of hn rfl rfl rfl)
    | (intro (n : Otp) hn; split <;> (with_reducible exact Otp.wf_of hn rfl rfl rfl rfl))
    | (intro (n : Otp) hn; with_reducible exact Otp.wf_of hn rfl rfl rfl rfl)
    | (intro (n : Upd) hn; split <;> (with_reducible exact Upd.wf_of hn rfl))
    | (intro (n : Upd) hn; with_reducible exact Upd.wf_of hn rfl)
    | (intro (n : EvStore) hn; rw [EvStore.wf_iff] at *; first | exact ⟨cellsWf_put 0 _ _ _ hn.1, hn.2⟩ | exact ⟨hn.1, cellsWf_put _ _ _ _ hn.2⟩ | exact ⟨cellsWf_filter 0 _ _ hn.1, hn.2⟩)
    | (intro (n : EvStore) hn; split <;> (with_reducible exact EvStore.wf_of hn rfl rfl))
    | (intro (n : EvStore) hn; with_reducible exact EvStore.wf_of hn rfl rfl)
    | (intro (n : Bbx) hn; split <;> (with_reducible exact EvStore.wf_of hn rfl rfl))
    | (intro (n : Bbx) hn; with_reducible exact EvStore.wf_eq hn rfl)
    | (intro (n : Bbx) hn; with_reducible exact EvStore.wf_of hn rfl rfl)
    | split)

theorem step_execEvtSumClear {s : State} : Answers [.aon, .evt] s (execEvtSumClear s) := by
  unfold execEvtSumClear
  repeat' (first
    | with_reducible apply Step.refl
    | with_reducible assumption
    | exact Eq.refl true
    | with_reducible apply Answers.ok
    | (extract_lets +onlyGivenNames lv; first | ((first | refine Step.cut lv ?_ ?_ | refine Answers.cut lv ?_ ?_); unfold lv; clear lv; rotate_left; intro hx; clear_value lv; revert lv; intro _ _) | (revert lv; intro _))
    | with_reducible apply Step.after step_sumClear
    | with_reducible apply Step.when
    | (with_reducible apply Step.foldl; intro fs fa)
    | (with_reducible apply Step.foldFin; intro fs fa)
    | (with_reducible apply Step.foldlFst; intro fs fa)
    | (split; rename_i heq; have hx : (_ : State) = _ := congrArg Prod.snd heq; dsimp only at hx; subst hx)
    | (split; rename_i heq; have hx : (_ : State) = _ := congrArg Prod.fst heq; dsimp only at hx; subst hx)
    | split)

theorem step_execEvtTripClear {s : State} : Answers [.aon] s (execEvtTripClear s) := by
  unfold execEvtTripClear
  repeat' (first
    | with_reducible apply Step.refl
    | with_reducible assumption
    | exact Eq.refl true
    | with_reducible apply Answers.ok
    | (extract_lets +onlyGivenNames lv; first | ((first | refine Step.cut lv ?_ ?_ | refine Answers.cut lv ?_ ?_); unfold lv; clear lv; rotate_left; intro hx; clear_value lv; revert lv; intro _ _) | (revert lv; intro _))
    | with_reducible apply Step.after step_tripClear
    | with_reducible apply Step.when
    | (with_reducible apply Step.foldl; intro fs fa)
    | (with_reducible apply Step.foldFin; intro fs fa)
    | (with_reducible apply Step.foldlFst; intro fs fa)
    | (split; rename_i heq; have hx : (_ : State) = _ := congrArg Prod.snd heq; dsimp only at hx; subst hx)
    | (split; rename_i heq; have hx : (_ : State) = _ := congrArg Prod.fst heq; dsimp only at hx; subst hx)
    | split)

/-! ### BlackBox -/

theorem step_modBbx {s : State} {f : Bbx → Bbx} (h : ∀ n : Bbx, n.st.wf = true → (f n).st.wf = true) : Step [.bbx] s (State.modBbx s f) := by
  unfold State.modBbx
  exact Step.put Step.refl (w_bbx := h _)

theorem step_modStore {s : State} {f : EvStore → EvStore} (h : ∀ n : EvStore, n.wf = true → (f n).wf = true) : Step [.nvp, .bbx] s (State.modStore s f) := by
  unfold State.modStore
  exact Step.after (step_modBbx (fun n hn => h n.st hn)) rfl (Step.after step_freezeImage rfl Step.refl)

theorem step_modReam {s : State} {r : Fin 4} {f : Ream → Ream} : Step [.nvp, .bbx] s (State.modReam s r f) := by
  unfold State.modReam
  repeat' (first
    | with_reducible apply Step.refl
    | with_reducible assumption
    | exact Eq.refl true
    | (extract_lets +onlyGivenNames lv; first | ((first | refine Step.cut lv ?_ ?_ | refine Answers.cut lv ?_ ?_); unfold lv; clear lv; rotate_left; intro hx; clear_value lv; revert lv; intro _ _) | (revert lv; intro _))
    | with_reducible apply Step.after (step_modStore ?_)
    | (intro (n : Nvp) hn; simp only [Nvp.wf, Bool.and_eq_true] at hn ⊢; first | exact ⟨⟨nvpPuts_wf _ _ hn.1.1, hn.1.2⟩, hn.2⟩ | exact ⟨hn.1, rfl⟩)
    | (intro (n : Nvp) hn; split <;> (with_reducible exact Nvp.wf_of hn rfl rfl rfl))
    | (intro (n : Nvp) hn; with_reducible exact Nvp.wf_of hn rfl rfl rfl)
    | (intro (n : Otp) hn; split <;> (with_reducible exact Otp.wf_of hn rfl rfl rfl rfl))
    | (intro (n : Otp) hn; with_reducible exact Otp.wf_of hn rfl rfl rfl rfl)
    | (intro (n : Upd) hn; split <;> (with_reducible exact Upd.wf_of hn rfl))
    | (intro (n : Upd) hn; with_reducible exact Upd.wf_of hn rfl)
    | (intro (n : EvStore) hn; rw [EvStore.wf_iff] at *; first | exact ⟨cellsWf_put 0 _ _ _ hn.1, hn.2⟩ | exact ⟨hn.1, cellsWf_put _ _ _ _ hn.2⟩ | exact ⟨cellsWf_filter 0 _ _ hn.1, hn.2⟩)
    | (intro (n : EvStore) hn; split <;> (with_reducible exact EvStore.wf_of hn rfl rfl))
    | (intro (n : EvStore) hn; with_reducible exact EvStore.wf_of hn rfl rfl)
    | (intro (n : Bbx) hn; split <;> (with_reducible exact EvStore.wf_of hn rfl rfl))
    | (intro (n : Bbx) hn; with_reducible exact EvStore.wf_eq hn rfl)
    | (intro (n : Bbx) hn; with_reducible exact EvStore.wf_of hn rfl rfl)
    | split)

/-- A record put into its slot keeps the store's form. -/
theorem EvStore.wf_ring {e : EvStore} {k : Nat} {v : Rec} (h : e.wf = true) :
    EvStore.wf { e with ring := cellPut 0 e.ring k v } = true := by
  rw [EvStore.wf_iff] at *
  exact ⟨cellsWf_put 0 _ _ _ h.1, h.2⟩

/-- A row put into the trace keeps the store's form. -/
theorem EvStore.wf_rows {e : EvStore} {k : Nat} {v : Vector (BitVec 16) 16} (h : e.wf = true) :
    EvStore.wf { e with rows := cellPut (Vector.replicate 16 0) e.rows k v } = true := by
  rw [EvStore.wf_iff] at *
  exact ⟨h.1, cellsWf_put _ _ _ _ h.2⟩

theorem step_putRecord {s : State} {src : Nat} {cause : Nat} {data : BitVec 64} {sev : Nat} {sat : Bool} : Step [.chans, .nvp, .bbx, .hst, .evt] s (State.putRecord s src cause data sev sat).2 := by
  unfold State.putRecord
  extract_lets toRing takes rec_
  clear_value takes rec_
  generalize s.slotFor = q
  obtain ⟨k, old⟩ := q
  dsimp -zeta only
  extract_lets +onlyGivenNames s1
  have h1 : Step [.chans, .nvp, .bbx, .hst, .evt] s s1 := Step.after (step_modBbx (fun n hn => by with_reducible exact EvStore.wf_eq hn rfl)) rfl
    (Step.after (step_modStore (fun n hn => EvStore.wf_ring hn)) rfl Step.refl)
  clear_value s1
  extract_lets +onlyGivenNames c s2
  have h2 : Step [.chans, .nvp, .bbx, .hst, .evt] s s2 := by
    unfold s2
    split
    · exact h1
    · split
      · exact Step.after step_ringPush rfl h1
      · exact Step.after step_hstSat rfl (Step.after step_ringLose rfl (Step.after step_modHst rfl h1))
  exact h2

theorem step_freeze {s : State} {r : Fin 4} : Step [.nvp, .bbx] s (State.freeze s r) := by
  unfold State.freeze
  repeat' (first
    | with_reducible apply Step.refl
    | with_reducible assumption
    | exact Eq.refl true
    | (extract_lets +onlyGivenNames lv; first | ((first | refine Step.cut lv ?_ ?_ | refine Answers.cut lv ?_ ?_); unfold lv; clear lv; rotate_left; intro hx; clear_value lv; revert lv; intro _ _) | (revert lv; intro _))
    | with_reducible apply Step.after (step_modBbx ?_)
    | with_reducible apply Step.after step_modReam
    | (intro (n : Nvp) hn; simp only [Nvp.wf, Bool.and_eq_true] at hn ⊢; first | exact ⟨⟨nvpPuts_wf _ _ hn.1.1, hn.1.2⟩, hn.2⟩ | exact ⟨hn.1, rfl⟩)
    | (intro (n : Nvp) hn; split <;> (with_reducible exact Nvp.wf_of hn rfl rfl rfl))
    | (intro (n : Nvp) hn; with_reducible exact Nvp.wf_of hn rfl rfl rfl)
    | (intro (n : Otp) hn; split <;> (with_reducible exact Otp.wf_of hn rfl rfl rfl rfl))
    | (intro (n : Otp) hn; with_reducible exact Otp.wf_of hn rfl rfl rfl rfl)
    | (intro (n : Upd) hn; split <;> (with_reducible exact Upd.wf_of hn rfl))
    | (intro (n : Upd) hn; with_reducible exact Upd.wf_of hn rfl)
    | (intro (n : EvStore) hn; rw [EvStore.wf_iff] at *; first | exact ⟨cellsWf_put 0 _ _ _ hn.1, hn.2⟩ | exact ⟨hn.1, cellsWf_put _ _ _ _ hn.2⟩ | exact ⟨cellsWf_filter 0 _ _ hn.1, hn.2⟩)
    | (intro (n : EvStore) hn; split <;> (with_reducible exact EvStore.wf_of hn rfl rfl))
    | (intro (n : EvStore) hn; with_reducible exact EvStore.wf_of hn rfl rfl)
    | (intro (n : Bbx) hn; split <;> (with_reducible exact EvStore.wf_of hn rfl rfl))
    | (intro (n : Bbx) hn; with_reducible exact EvStore.wf_eq hn rfl)
    | (intro (n : Bbx) hn; with_reducible exact EvStore.wf_of hn rfl rfl)
    | split)

theorem step_sealStart {s : State} {slot : Nat} {sealSeq : BitVec 40} {pf : Bool} : Step [.regs, .chans, .nvp, .bbx] s (State.sealStart s slot sealSeq pf) := by
  unfold State.sealStart
  repeat' (first
    | with_reducible apply Step.refl
    | with_reducible assumption
    | exact Eq.refl true
    | (extract_lets +onlyGivenNames lv; first | ((first | refine Step.cut lv ?_ ?_ | refine Answers.cut lv ?_ ?_); unfold lv; clear lv; rotate_left; intro hx; clear_value lv; revert lv; intro _ _) | (revert lv; intro _))
    | with_reducible apply Step.after step_satEv
    | with_reducible apply Step.after step_stick
    | with_reducible apply Step.after (step_modBbx ?_)
    | with_reducible apply Step.after step_fire
    | with_reducible apply Step.after step_modReam
    | with_reducible apply Step.after step_freeze
    | (intro (n : Nvp) hn; simp only [Nvp.wf, Bool.and_eq_true] at hn ⊢; first | exact ⟨⟨nvpPuts_wf _ _ hn.1.1, hn.1.2⟩, hn.2⟩ | exact ⟨hn.1, rfl⟩)
    | (intro (n : Nvp) hn; split <;> (with_reducible exact Nvp.wf_of hn rfl rfl rfl))
    | (intro (n : Nvp) hn; with_reducible exact Nvp.wf_of hn rfl rfl rfl)
    | (intro (n : Otp) hn; split <;> (with_reducible exact Otp.wf_of hn rfl rfl rfl rfl))
    | (intro (n : Otp) hn; with_reducible exact Otp.wf_of hn rfl rfl rfl rfl)
    | (intro (n : Upd) hn; split <;> (with_reducible exact Upd.wf_of hn rfl))
    | (intro (n : Upd) hn; with_reducible exact Upd.wf_of hn rfl)
    | (intro (n : EvStore) hn; rw [EvStore.wf_iff] at *; first | exact ⟨cellsWf_put 0 _ _ _ hn.1, hn.2⟩ | exact ⟨hn.1, cellsWf_put _ _ _ _ hn.2⟩ | exact ⟨cellsWf_filter 0 _ _ hn.1, hn.2⟩)
    | (intro (n : EvStore) hn; split <;> (with_reducible exact EvStore.wf_of hn rfl rfl))
    | (intro (n : EvStore) hn; with_reducible exact EvStore.wf_of hn rfl rfl)
    | (intro (n : Bbx) hn; split <;> (with_reducible exact EvStore.wf_of hn rfl rfl))
    | (intro (n : Bbx) hn; with_reducible exact EvStore.wf_eq hn rfl)
    | (intro (n : Bbx) hn; with_reducible exact EvStore.wf_of hn rfl rfl)
    | split)

theorem step_laterCount {s : State} : Step [.nvp, .bbx] s (State.laterCount s) := by
  unfold State.laterCount
  repeat' (first
    | with_reducible apply Step.refl
    | with_reducible assumption
    | exact Eq.refl true
    | (extract_lets +onlyGivenNames lv; first | ((first | refine Step.cut lv ?_ ?_ | refine Answers.cut lv ?_ ?_); unfold lv; clear lv; rotate_left; intro hx; clear_value lv; revert lv; intro _ _) | (revert lv; intro _))
    | with_reducible apply Step.after step_modReam
    | split)

theorem step_writeRec {s : State} {src : Nat} {cause : Nat} {data : BitVec 64} {sev : Nat} {sat : Bool} {pf : Bool} : Step [.regs, .chans, .nvp, .bbx, .hst, .evt] s (State.writeRec s src cause data sev sat pf) := by
  unfold State.writeRec
  repeat' (first
    | with_reducible apply Step.refl
    | with_reducible assumption
    | exact Eq.refl true
    | (extract_lets +onlyGivenNames lv; first | ((first | refine Step.cut lv ?_ ?_ | refine Answers.cut lv ?_ ?_); unfold lv; clear lv; rotate_left; intro hx; clear_value lv; revert lv; intro _ _) | (revert lv; intro _))
    | with_reducible apply Step.after step_putRecord
    | with_reducible apply Step.after step_sealStart
    | with_reducible apply Step.after step_laterCount
    | with_reducible apply Step.after step_freeze
    | with_reducible apply Step.when
    | (with_reducible apply Step.foldl; intro fs fa)
    | (with_reducible apply Step.foldFin; intro fs fa)
    | (with_reducible apply Step.foldlFst; intro fs fa)
    | (split; rename_i heq; have hx : (_ : State) = _ := congrArg Prod.snd heq; dsimp only at hx; subst hx)
    | (split; rename_i heq; have hx : (_ : State) = _ := congrArg Prod.fst heq; dsimp only at hx; subst hx)
    | split)

theorem step_endRun {s : State} : Step [.regs, .chans, .aon, .nvp, .bbx, .hst, .evt] s (State.endRun s) := by
  unfold State.endRun
  repeat' (first
    | with_reducible apply Step.refl
    | with_reducible assumption
    | exact Eq.refl true
    | (extract_lets +onlyGivenNames lv; first | ((first | refine Step.cut lv ?_ ?_ | refine Answers.cut lv ?_ ?_); unfold lv; clear lv; rotate_left; intro hx; clear_value lv; revert lv; intro _ _) | (revert lv; intro _))
    | with_reducible apply Step.after (step_modBbx ?_)
    | with_reducible apply Step.after step_route
    | with_reducible apply Step.after step_writeRec
    | (intro (n : Nvp) hn; simp only [Nvp.wf, Bool.and_eq_true] at hn ⊢; first | exact ⟨⟨nvpPuts_wf _ _ hn.1.1, hn.1.2⟩, hn.2⟩ | exact ⟨hn.1, rfl⟩)
    | (intro (n : Nvp) hn; split <;> (with_reducible exact Nvp.wf_of hn rfl rfl rfl))
    | (intro (n : Nvp) hn; with_reducible exact Nvp.wf_of hn rfl rfl rfl)
    | (intro (n : Otp) hn; split <;> (with_reducible exact Otp.wf_of hn rfl rfl rfl rfl))
    | (intro (n : Otp) hn; with_reducible exact Otp.wf_of hn rfl rfl rfl rfl)
    | (intro (n : Upd) hn; split <;> (with_reducible exact Upd.wf_of hn rfl))
    | (intro (n : Upd) hn; with_reducible exact Upd.wf_of hn rfl)
    | (intro (n : EvStore) hn; rw [EvStore.wf_iff] at *; first | exact ⟨cellsWf_put 0 _ _ _ hn.1, hn.2⟩ | exact ⟨hn.1, cellsWf_put _ _ _ _ hn.2⟩ | exact ⟨cellsWf_filter 0 _ _ hn.1, hn.2⟩)
    | (intro (n : EvStore) hn; split <;> (with_reducible exact EvStore.wf_of hn rfl rfl))
    | (intro (n : EvStore) hn; with_reducible exact EvStore.wf_of hn rfl rfl)
    | (intro (n : Bbx) hn; split <;> (with_reducible exact EvStore.wf_of hn rfl rfl))
    | (intro (n : Bbx) hn; with_reducible exact EvStore.wf_eq hn rfl)
    | (intro (n : Bbx) hn; with_reducible exact EvStore.wf_of hn rfl rfl)
    | split)

theorem step_takeToken {s : State} : Step [.bbx] s (State.takeToken s) := by
  unfold State.takeToken
  repeat' (first
    | with_reducible apply Step.refl
    | with_reducible assumption
    | exact Eq.refl true
    | (extract_lets +onlyGivenNames lv; first | ((first | refine Step.cut lv ?_ ?_ | refine Answers.cut lv ?_ ?_); unfold lv; clear lv; rotate_left; intro hx; clear_value lv; revert lv; intro _ _) | (revert lv; intro _))
    | with_reducible apply Step.after (step_modBbx ?_)
    | (intro (n : Nvp) hn; simp only [Nvp.wf, Bool.and_eq_true] at hn ⊢; first | exact ⟨⟨nvpPuts_wf _ _ hn.1.1, hn.1.2⟩, hn.2⟩ | exact ⟨hn.1, rfl⟩)
    | (intro (n : Nvp) hn; split <;> (with_reducible exact Nvp.wf_of hn rfl rfl rfl))
    | (intro (n : Nvp) hn; with_reducible exact Nvp.wf_of hn rfl rfl rfl)
    | (intro (n : Otp) hn; split <;> (with_reducible exact Otp.wf_of hn rfl rfl rfl rfl))
    | (intro (n : Otp) hn; with_reducible exact Otp.wf_of hn rfl rfl rfl rfl)
    | (intro (n : Upd) hn; split <;> (with_reducible exact Upd.wf_of hn rfl))
    | (intro (n : Upd) hn; with_reducible exact Upd.wf_of hn rfl)
    | (intro (n : EvStore) hn; rw [EvStore.wf_iff] at *; first | exact ⟨cellsWf_put 0 _ _ _ hn.1, hn.2⟩ | exact ⟨hn.1, cellsWf_put _ _ _ _ hn.2⟩ | exact ⟨cellsWf_filter 0 _ _ hn.1, hn.2⟩)
    | (intro (n : EvStore) hn; split <;> (with_reducible exact EvStore.wf_of hn rfl rfl))
    | (intro (n : EvStore) hn; with_reducible exact EvStore.wf_of hn rfl rfl)
    | (intro (n : Bbx) hn; split <;> (with_reducible exact EvStore.wf_of hn rfl rfl))
    | (intro (n : Bbx) hn; with_reducible exact EvStore.wf_eq hn rfl)
    | (intro (n : Bbx) hn; with_reducible exact EvStore.wf_of hn rfl rfl)
    | split)

theorem step_suppress {s : State} : Step [.regs, .chans, .bbx] s (State.suppress s) := by
  unfold State.suppress
  repeat' (first
    | with_reducible apply Step.refl
    | with_reducible assumption
    | exact Eq.refl true
    | (extract_lets +onlyGivenNames lv; first | ((first | refine Step.cut lv ?_ ?_ | refine Answers.cut lv ?_ ?_); unfold lv; clear lv; rotate_left; intro hx; clear_value lv; revert lv; intro _ _) | (revert lv; intro _))
    | with_reducible apply Step.after step_satEv
    | with_reducible apply Step.after step_stick
    | with_reducible apply Step.after (step_modBbx ?_)
    | (intro (n : Nvp) hn; simp only [Nvp.wf, Bool.and_eq_true] at hn ⊢; first | exact ⟨⟨nvpPuts_wf _ _ hn.1.1, hn.1.2⟩, hn.2⟩ | exact ⟨hn.1, rfl⟩)
    | (intro (n : Nvp) hn; split <;> (with_reducible exact Nvp.wf_of hn rfl rfl rfl))
    | (intro (n : Nvp) hn; with_reducible exact Nvp.wf_of hn rfl rfl rfl)
    | (intro (n : Otp) hn; split <;> (with_reducible exact Otp.wf_of hn rfl rfl rfl rfl))
    | (intro (n : Otp) hn; with_reducible exact Otp.wf_of hn rfl rfl rfl rfl)
    | (intro (n : Upd) hn; split <;> (with_reducible exact Upd.wf_of hn rfl))
    | (intro (n : Upd) hn; with_reducible exact Upd.wf_of hn rfl)
    | (intro (n : EvStore) hn; rw [EvStore.wf_iff] at *; first | exact ⟨cellsWf_put 0 _ _ _ hn.1, hn.2⟩ | exact ⟨hn.1, cellsWf_put _ _ _ _ hn.2⟩ | exact ⟨cellsWf_filter 0 _ _ hn.1, hn.2⟩)
    | (intro (n : EvStore) hn; split <;> (with_reducible exact EvStore.wf_of hn rfl rfl))
    | (intro (n : EvStore) hn; with_reducible exact EvStore.wf_of hn rfl rfl)
    | (intro (n : Bbx) hn; split <;> (with_reducible exact EvStore.wf_of hn rfl rfl))
    | (intro (n : Bbx) hn; with_reducible exact EvStore.wf_eq hn rfl)
    | (intro (n : Bbx) hn; with_reducible exact EvStore.wf_of hn rfl rfl)
    | split)

theorem step_ownRecord {s : State} {src : Nat} {cause : Nat} {data : BitVec 64} {sev : Nat} {pf : Bool} : Step [.regs, .chans, .aon, .nvp, .bbx, .hst, .evt] s (State.ownRecord s src cause data sev pf) := by
  unfold State.ownRecord
  repeat' (first
    | with_reducible apply Step.refl
    | with_reducible assumption
    | exact Eq.refl true
    | (extract_lets +onlyGivenNames lv; first | ((first | refine Step.cut lv ?_ ?_ | refine Answers.cut lv ?_ ?_); unfold lv; clear lv; rotate_left; intro hx; clear_value lv; revert lv; intro _ _) | (revert lv; intro _))
    | with_reducible apply Step.after step_writeRec
    | with_reducible apply Step.after step_takeToken
    | with_reducible apply Step.after step_endRun
    | with_reducible apply Step.after step_route
    | split)

theorem step_execBbxRecordWrite {s : State} : Answers [.regs, .chans, .aon, .nvp, .bbx, .hst, .evt] s (execBbxRecordWrite s) := by
  unfold execBbxRecordWrite
  repeat' (first
    | with_reducible apply Step.refl
    | with_reducible assumption
    | exact Eq.refl true
    | with_reducible apply Answers.ok
    | (extract_lets +onlyGivenNames lv; first | ((first | refine Step.cut lv ?_ ?_ | refine Answers.cut lv ?_ ?_); unfold lv; clear lv; rotate_left; intro hx; clear_value lv; revert lv; intro _ _) | (revert lv; intro _))
    | with_reducible apply Step.after (step_modBbx ?_)
    | with_reducible apply Step.after step_suppress
    | with_reducible apply Step.after step_writeRec
    | with_reducible apply Step.after step_takeToken
    | with_reducible apply Step.after step_endRun
    | (intro (n : Nvp) hn; simp only [Nvp.wf, Bool.and_eq_true] at hn ⊢; first | exact ⟨⟨nvpPuts_wf _ _ hn.1.1, hn.1.2⟩, hn.2⟩ | exact ⟨hn.1, rfl⟩)
    | (intro (n : Nvp) hn; split <;> (with_reducible exact Nvp.wf_of hn rfl rfl rfl))
    | (intro (n : Nvp) hn; with_reducible exact Nvp.wf_of hn rfl rfl rfl)
    | (intro (n : Otp) hn; split <;> (with_reducible exact Otp.wf_of hn rfl rfl rfl rfl))
    | (intro (n : Otp) hn; with_reducible exact Otp.wf_of hn rfl rfl rfl rfl)
    | (intro (n : Upd) hn; split <;> (with_reducible exact Upd.wf_of hn rfl))
    | (intro (n : Upd) hn; with_reducible exact Upd.wf_of hn rfl)
    | (intro (n : EvStore) hn; rw [EvStore.wf_iff] at *; first | exact ⟨cellsWf_put 0 _ _ _ hn.1, hn.2⟩ | exact ⟨hn.1, cellsWf_put _ _ _ _ hn.2⟩ | exact ⟨cellsWf_filter 0 _ _ hn.1, hn.2⟩)
    | (intro (n : EvStore) hn; split <;> (with_reducible exact EvStore.wf_of hn rfl rfl))
    | (intro (n : EvStore) hn; with_reducible exact EvStore.wf_of hn rfl rfl)
    | (intro (n : Bbx) hn; split <;> (with_reducible exact EvStore.wf_of hn rfl rfl))
    | (intro (n : Bbx) hn; with_reducible exact EvStore.wf_eq hn rfl)
    | (intro (n : Bbx) hn; with_reducible exact EvStore.wf_of hn rfl rfl)
    | split)

theorem step_execTokenRefill {s : State} : Answers [.time, .bbx] s (execTokenRefill s) := by
  unfold execTokenRefill
  repeat' (first
    | with_reducible apply Step.refl
    | with_reducible assumption
    | exact Eq.refl true
    | with_reducible apply Answers.ok
    | ((conv => arg 3; arg 28); refine Step.put ?_)
    | (extract_lets +onlyGivenNames lv; first | ((first | refine Step.cut lv ?_ ?_ | refine Answers.cut lv ?_ ?_); unfold lv; clear lv; rotate_left; intro hx; clear_value lv; revert lv; intro _ _) | (revert lv; intro _))
    | with_reducible apply Step.after (step_modBbx ?_)
    | with_reducible apply Step.when
    | (with_reducible refine Step.whenAt rfl ?_ (fun u => ?_))
    | (with_reducible apply Step.foldl; intro fs fa)
    | (with_reducible apply Step.foldFin; intro fs fa)
    | (with_reducible apply Step.foldlFst; intro fs fa)
    | exact (fun _ => rfl)
    | (intro n; dsimp only; split <;> rfl)
    | (split; rename_i heq; have hx : (_ : State) = _ := congrArg Prod.snd heq; dsimp only at hx; subst hx)
    | (split; rename_i heq; have hx : (_ : State) = _ := congrArg Prod.fst heq; dsimp only at hx; subst hx)
    | (intro (n : Nvp) hn; simp only [Nvp.wf, Bool.and_eq_true] at hn ⊢; first | exact ⟨⟨nvpPuts_wf _ _ hn.1.1, hn.1.2⟩, hn.2⟩ | exact ⟨hn.1, rfl⟩)
    | (intro (n : Nvp) hn; split <;> (with_reducible exact Nvp.wf_of hn rfl rfl rfl))
    | (intro (n : Nvp) hn; with_reducible exact Nvp.wf_of hn rfl rfl rfl)
    | (intro (n : Otp) hn; split <;> (with_reducible exact Otp.wf_of hn rfl rfl rfl rfl))
    | (intro (n : Otp) hn; with_reducible exact Otp.wf_of hn rfl rfl rfl rfl)
    | (intro (n : Upd) hn; split <;> (with_reducible exact Upd.wf_of hn rfl))
    | (intro (n : Upd) hn; with_reducible exact Upd.wf_of hn rfl)
    | (intro (n : EvStore) hn; rw [EvStore.wf_iff] at *; first | exact ⟨cellsWf_put 0 _ _ _ hn.1, hn.2⟩ | exact ⟨hn.1, cellsWf_put _ _ _ _ hn.2⟩ | exact ⟨cellsWf_filter 0 _ _ hn.1, hn.2⟩)
    | (intro (n : EvStore) hn; split <;> (with_reducible exact EvStore.wf_of hn rfl rfl))
    | (intro (n : EvStore) hn; with_reducible exact EvStore.wf_of hn rfl rfl)
    | (intro (n : Bbx) hn; split <;> (with_reducible exact EvStore.wf_of hn rfl rfl))
    | (intro (n : Bbx) hn; with_reducible exact EvStore.wf_eq hn rfl)
    | (intro (n : Bbx) hn; with_reducible exact EvStore.wf_of hn rfl rfl)
    | split)

theorem step_trcStream {s : State} {n : Nat} {row : Vector (BitVec 16) 16} : Step [.chans, .hst, .evt] s (State.trcStream s n row) := by
  unfold State.trcStream
  repeat' (first
    | with_reducible apply Step.refl
    | with_reducible assumption
    | exact Eq.refl true
    | (extract_lets +onlyGivenNames lv; first | ((first | refine Step.cut lv ?_ ?_ | refine Answers.cut lv ?_ ?_); unfold lv; clear lv; rotate_left; intro hx; clear_value lv; revert lv; intro _ _) | (revert lv; intro _))
    | with_reducible apply Step.after step_ringPush
    | with_reducible apply Step.after step_hstSat
    | with_reducible apply Step.after step_ringLose
    | with_reducible apply Step.after step_modHst
    | split)

theorem step_execTraceRow {s : State} : Answers [.chans, .nvp, .bbx, .hst, .evt] s (execTraceRow s) := by
  unfold execTraceRow
  extract_lets +onlyGivenNames n
  split
  · exact Answers.ok Step.refl
  · extract_lets +onlyGivenNames row s0
    have h0 : Step [.chans, .nvp, .bbx, .hst, .evt] s s0 := Step.after (step_modBbx (fun n hn => by with_reducible exact EvStore.wf_eq hn rfl)) rfl Step.refl
    clear_value s0
    extract_lets +onlyGivenNames s1
    have h1 : Step [.chans, .nvp, .bbx, .hst, .evt] s s1 := by
      unfold s1
      split
      · exact Step.after (step_modBbx (fun n hn => by with_reducible exact EvStore.wf_eq hn rfl)) rfl
          (Step.after (step_modStore (fun n hn => EvStore.wf_rows hn)) rfl h0)
      · exact h0
    clear_value s1
    exact Answers.ok (Step.after step_trcStream rfl h1)

theorem step_execTraceFreeze {s : State} : Answers [.time, .nvp, .bbx] s (execTraceFreeze s) := by
  unfold execTraceFreeze
  repeat' (first
    | with_reducible apply Step.refl
    | with_reducible assumption
    | exact Eq.refl true
    | with_reducible apply Answers.ok
    | ((conv => arg 3; arg 28); refine Step.put ?_)
    | (extract_lets +onlyGivenNames lv; first | ((first | refine Step.cut lv ?_ ?_ | refine Answers.cut lv ?_ ?_); unfold lv; clear lv; rotate_left; intro hx; clear_value lv; revert lv; intro _ _) | (revert lv; intro _))
    | with_reducible apply Step.after step_freeze
    | with_reducible apply Step.when
    | (with_reducible refine Step.whenAt rfl ?_ (fun u => ?_))
    | (with_reducible apply Step.foldl; intro fs fa)
    | (with_reducible apply Step.foldFin; intro fs fa)
    | (with_reducible apply Step.foldlFst; intro fs fa)
    | exact (fun _ => rfl)
    | (intro n; dsimp only; split <;> rfl)
    | (split; rename_i heq; have hx : (_ : State) = _ := congrArg Prod.snd heq; dsimp only at hx; subst hx)
    | (split; rename_i heq; have hx : (_ : State) = _ := congrArg Prod.fst heq; dsimp only at hx; subst hx)
    | (intro (n : Nvp) hn; simp only [Nvp.wf, Bool.and_eq_true] at hn ⊢; first | exact ⟨⟨nvpPuts_wf _ _ hn.1.1, hn.1.2⟩, hn.2⟩ | exact ⟨hn.1, rfl⟩)
    | (intro (n : Nvp) hn; split <;> (with_reducible exact Nvp.wf_of hn rfl rfl rfl))
    | (intro (n : Nvp) hn; with_reducible exact Nvp.wf_of hn rfl rfl rfl)
    | (intro (n : Otp) hn; split <;> (with_reducible exact Otp.wf_of hn rfl rfl rfl rfl))
    | (intro (n : Otp) hn; with_reducible exact Otp.wf_of hn rfl rfl rfl rfl)
    | (intro (n : Upd) hn; split <;> (with_reducible exact Upd.wf_of hn rfl))
    | (intro (n : Upd) hn; with_reducible exact Upd.wf_of hn rfl)
    | (intro (n : EvStore) hn; rw [EvStore.wf_iff] at *; first | exact ⟨cellsWf_put 0 _ _ _ hn.1, hn.2⟩ | exact ⟨hn.1, cellsWf_put _ _ _ _ hn.2⟩ | exact ⟨cellsWf_filter 0 _ _ hn.1, hn.2⟩)
    | (intro (n : EvStore) hn; split <;> (with_reducible exact EvStore.wf_of hn rfl rfl))
    | (intro (n : EvStore) hn; with_reducible exact EvStore.wf_of hn rfl rfl)
    | (intro (n : Bbx) hn; split <;> (with_reducible exact EvStore.wf_of hn rfl rfl))
    | (intro (n : Bbx) hn; with_reducible exact EvStore.wf_eq hn rfl)
    | (intro (n : Bbx) hn; with_reducible exact EvStore.wf_of hn rfl rfl)
    | split)

theorem step_execWatermarkDone {r : Fin 4} {s : State} : Answers [.nvp, .bbx] s (execWatermarkDone r s) := by
  unfold execWatermarkDone
  repeat' (first
    | with_reducible apply Step.refl
    | with_reducible assumption
    | exact Eq.refl true
    | with_reducible apply Answers.ok
    | (extract_lets +onlyGivenNames lv; first | ((first | refine Step.cut lv ?_ ?_ | refine Answers.cut lv ?_ ?_); unfold lv; clear lv; rotate_left; intro hx; clear_value lv; revert lv; intro _ _) | (revert lv; intro _))
    | with_reducible apply Step.after step_modReam
    | with_reducible apply Step.when
    | (with_reducible apply Step.foldl; intro fs fa)
    | (with_reducible apply Step.foldFin; intro fs fa)
    | (with_reducible apply Step.foldlFst; intro fs fa)
    | (split; rename_i heq; have hx : (_ : State) = _ := congrArg Prod.snd heq; dsimp only at hx; subst hx)
    | (split; rename_i heq; have hx : (_ : State) = _ := congrArg Prod.fst heq; dsimp only at hx; subst hx)
    | split)

theorem step_sealNow {s : State} : Step [.regs, .chans, .aon, .nvp, .bbx, .hst, .evt] s (State.sealNow s) := by
  unfold State.sealNow
  repeat' (first
    | with_reducible apply Step.refl
    | with_reducible assumption
    | exact Eq.refl true
    | (extract_lets +onlyGivenNames lv; first | ((first | refine Step.cut lv ?_ ?_ | refine Answers.cut lv ?_ ?_); unfold lv; clear lv; rotate_left; intro hx; clear_value lv; revert lv; intro _ _) | (revert lv; intro _))
    | with_reducible apply Step.after step_ownRecord
    | split)

theorem step_execBbxSealNow {s : State} : Answers [.regs, .chans, .aon, .nvp, .bbx, .hst, .evt] s (execBbxSealNow s) := by
  unfold execBbxSealNow
  repeat' (first
    | with_reducible apply Step.refl
    | with_reducible assumption
    | exact Eq.refl true
    | with_reducible apply Answers.ok
    | ((conv => arg 3; arg 28); refine Step.put ?_)
    | (extract_lets +onlyGivenNames lv; first | ((first | refine Step.cut lv ?_ ?_ | refine Answers.cut lv ?_ ?_); unfold lv; clear lv; rotate_left; intro hx; clear_value lv; revert lv; intro _ _) | (revert lv; intro _))
    | with_reducible apply Step.after (step_modBbx ?_)
    | with_reducible apply Step.after step_sealNow
    | with_reducible apply Step.when
    | (with_reducible apply Step.foldl; intro fs fa)
    | (with_reducible apply Step.foldFin; intro fs fa)
    | (with_reducible apply Step.foldlFst; intro fs fa)
    | exact (fun _ => rfl)
    | (intro n; dsimp only; split <;> rfl)
    | (split; rename_i heq; have hx : (_ : State) = _ := congrArg Prod.snd heq; dsimp only at hx; subst hx)
    | (split; rename_i heq; have hx : (_ : State) = _ := congrArg Prod.fst heq; dsimp only at hx; subst hx)
    | (intro (n : Nvp) hn; simp only [Nvp.wf, Bool.and_eq_true] at hn ⊢; first | exact ⟨⟨nvpPuts_wf _ _ hn.1.1, hn.1.2⟩, hn.2⟩ | exact ⟨hn.1, rfl⟩)
    | (intro (n : Nvp) hn; split <;> (with_reducible exact Nvp.wf_of hn rfl rfl rfl))
    | (intro (n : Nvp) hn; with_reducible exact Nvp.wf_of hn rfl rfl rfl)
    | (intro (n : Otp) hn; split <;> (with_reducible exact Otp.wf_of hn rfl rfl rfl rfl))
    | (intro (n : Otp) hn; with_reducible exact Otp.wf_of hn rfl rfl rfl rfl)
    | (intro (n : Upd) hn; split <;> (with_reducible exact Upd.wf_of hn rfl))
    | (intro (n : Upd) hn; with_reducible exact Upd.wf_of hn rfl)
    | (intro (n : EvStore) hn; rw [EvStore.wf_iff] at *; first | exact ⟨cellsWf_put 0 _ _ _ hn.1, hn.2⟩ | exact ⟨hn.1, cellsWf_put _ _ _ _ hn.2⟩ | exact ⟨cellsWf_filter 0 _ _ hn.1, hn.2⟩)
    | (intro (n : EvStore) hn; split <;> (with_reducible exact EvStore.wf_of hn rfl rfl))
    | (intro (n : EvStore) hn; with_reducible exact EvStore.wf_of hn rfl rfl)
    | (intro (n : Bbx) hn; split <;> (with_reducible exact EvStore.wf_of hn rfl rfl))
    | (intro (n : Bbx) hn; with_reducible exact EvStore.wf_eq hn rfl)
    | (intro (n : Bbx) hn; with_reducible exact EvStore.wf_of hn rfl rfl)
    | split)

theorem step_ptrRead {s : State} {r : Fin 4} {sel : Nat} {o : Nat} : Step [.bbx] s (State.ptrRead s r sel o) := by
  unfold State.ptrRead
  repeat' (first
    | with_reducible apply Step.refl
    | with_reducible assumption
    | exact Eq.refl true
    | (extract_lets +onlyGivenNames lv; first | ((first | refine Step.cut lv ?_ ?_ | refine Answers.cut lv ?_ ?_); unfold lv; clear lv; rotate_left; intro hx; clear_value lv; revert lv; intro _ _) | (revert lv; intro _))
    | with_reducible apply Step.after (step_modBbx ?_)
    | (intro (n : Nvp) hn; simp only [Nvp.wf, Bool.and_eq_true] at hn ⊢; first | exact ⟨⟨nvpPuts_wf _ _ hn.1.1, hn.1.2⟩, hn.2⟩ | exact ⟨hn.1, rfl⟩)
    | (intro (n : Nvp) hn; split <;> (with_reducible exact Nvp.wf_of hn rfl rfl rfl))
    | (intro (n : Nvp) hn; with_reducible exact Nvp.wf_of hn rfl rfl rfl)
    | (intro (n : Otp) hn; split <;> (with_reducible exact Otp.wf_of hn rfl rfl rfl rfl))
    | (intro (n : Otp) hn; with_reducible exact Otp.wf_of hn rfl rfl rfl rfl)
    | (intro (n : Upd) hn; split <;> (with_reducible exact Upd.wf_of hn rfl))
    | (intro (n : Upd) hn; with_reducible exact Upd.wf_of hn rfl)
    | (intro (n : EvStore) hn; rw [EvStore.wf_iff] at *; first | exact ⟨cellsWf_put 0 _ _ _ hn.1, hn.2⟩ | exact ⟨hn.1, cellsWf_put _ _ _ _ hn.2⟩ | exact ⟨cellsWf_filter 0 _ _ hn.1, hn.2⟩)
    | (intro (n : EvStore) hn; split <;> (with_reducible exact EvStore.wf_of hn rfl rfl))
    | (intro (n : EvStore) hn; with_reducible exact EvStore.wf_of hn rfl rfl)
    | (intro (n : Bbx) hn; split <;> (with_reducible exact EvStore.wf_of hn rfl rfl))
    | (intro (n : Bbx) hn; with_reducible exact EvStore.wf_eq hn rfl)
    | (intro (n : Bbx) hn; with_reducible exact EvStore.wf_of hn rfl rfl)
    | split)

theorem step_execReamPointerRead {r : Fin 4} {off : BitVec 20} {s : State} : Answers [.bbx] s (execReamPointerRead r off s) := by
  unfold execReamPointerRead
  repeat' (first
    | with_reducible apply Step.refl
    | with_reducible assumption
    | exact Eq.refl true
    | with_reducible apply Answers.ok
    | (extract_lets +onlyGivenNames lv; first | ((first | refine Step.cut lv ?_ ?_ | refine Answers.cut lv ?_ ?_); unfold lv; clear lv; rotate_left; intro hx; clear_value lv; revert lv; intro _ _) | (revert lv; intro _))
    | with_reducible apply Step.after step_ptrRead
    | with_reducible apply Step.when
    | (with_reducible apply Step.foldl; intro fs fa)
    | (with_reducible apply Step.foldFin; intro fs fa)
    | (with_reducible apply Step.foldlFst; intro fs fa)
    | (split; rename_i heq; have hx : (_ : State) = _ := congrArg Prod.snd heq; dsimp only at hx; subst hx)
    | (split; rename_i heq; have hx : (_ : State) = _ := congrArg Prod.fst heq; dsimp only at hx; subst hx)
    | split)

theorem step_authFail {s : State} : Step [.regs, .chans, .bbx] s (State.authFail s) := by
  unfold State.authFail
  repeat' (first
    | with_reducible apply Step.refl
    | with_reducible assumption
    | exact Eq.refl true
    | (extract_lets +onlyGivenNames lv; first | ((first | refine Step.cut lv ?_ ?_ | refine Answers.cut lv ?_ ?_); unfold lv; clear lv; rotate_left; intro hx; clear_value lv; revert lv; intro _ _) | (revert lv; intro _))
    | with_reducible apply Step.after step_fire
    | with_reducible apply Step.after step_satEv
    | with_reducible apply Step.after step_stick
    | with_reducible apply Step.after (step_modBbx ?_)
    | (intro (n : Nvp) hn; simp only [Nvp.wf, Bool.and_eq_true] at hn ⊢; first | exact ⟨⟨nvpPuts_wf _ _ hn.1.1, hn.1.2⟩, hn.2⟩ | exact ⟨hn.1, rfl⟩)
    | (intro (n : Nvp) hn; split <;> (with_reducible exact Nvp.wf_of hn rfl rfl rfl))
    | (intro (n : Nvp) hn; with_reducible exact Nvp.wf_of hn rfl rfl rfl)
    | (intro (n : Otp) hn; split <;> (with_reducible exact Otp.wf_of hn rfl rfl rfl rfl))
    | (intro (n : Otp) hn; with_reducible exact Otp.wf_of hn rfl rfl rfl rfl)
    | (intro (n : Upd) hn; split <;> (with_reducible exact Upd.wf_of hn rfl))
    | (intro (n : Upd) hn; with_reducible exact Upd.wf_of hn rfl)
    | (intro (n : EvStore) hn; rw [EvStore.wf_iff] at *; first | exact ⟨cellsWf_put 0 _ _ _ hn.1, hn.2⟩ | exact ⟨hn.1, cellsWf_put _ _ _ _ hn.2⟩ | exact ⟨cellsWf_filter 0 _ _ hn.1, hn.2⟩)
    | (intro (n : EvStore) hn; split <;> (with_reducible exact EvStore.wf_of hn rfl rfl))
    | (intro (n : EvStore) hn; with_reducible exact EvStore.wf_of hn rfl rfl)
    | (intro (n : Bbx) hn; split <;> (with_reducible exact EvStore.wf_of hn rfl rfl))
    | (intro (n : Bbx) hn; with_reducible exact EvStore.wf_eq hn rfl)
    | (intro (n : Bbx) hn; with_reducible exact EvStore.wf_of hn rfl rfl)
    | split)

theorem step_bbxExec {s : State} : Step [.regs, .chans, .bbx] s (State.bbxExec s) := by
  unfold State.bbxExec
  repeat' (first
    | with_reducible apply Step.refl
    | with_reducible assumption
    | exact Eq.refl true
    | (extract_lets +onlyGivenNames lv; first | ((first | refine Step.cut lv ?_ ?_ | refine Answers.cut lv ?_ ?_); unfold lv; clear lv; rotate_left; intro hx; clear_value lv; revert lv; intro _ _) | (revert lv; intro _))
    | with_reducible apply Step.after (step_modBbx ?_)
    | with_reducible apply Step.after step_authFail
    | (intro (n : Nvp) hn; simp only [Nvp.wf, Bool.and_eq_true] at hn ⊢; first | exact ⟨⟨nvpPuts_wf _ _ hn.1.1, hn.1.2⟩, hn.2⟩ | exact ⟨hn.1, rfl⟩)
    | (intro (n : Nvp) hn; split <;> (with_reducible exact Nvp.wf_of hn rfl rfl rfl))
    | (intro (n : Nvp) hn; with_reducible exact Nvp.wf_of hn rfl rfl rfl)
    | (intro (n : Otp) hn; split <;> (with_reducible exact Otp.wf_of hn rfl rfl rfl rfl))
    | (intro (n : Otp) hn; with_reducible exact Otp.wf_of hn rfl rfl rfl rfl)
    | (intro (n : Upd) hn; split <;> (with_reducible exact Upd.wf_of hn rfl))
    | (intro (n : Upd) hn; with_reducible exact Upd.wf_of hn rfl)
    | (intro (n : EvStore) hn; rw [EvStore.wf_iff] at *; first | exact ⟨cellsWf_put 0 _ _ _ hn.1, hn.2⟩ | exact ⟨hn.1, cellsWf_put _ _ _ _ hn.2⟩ | exact ⟨cellsWf_filter 0 _ _ hn.1, hn.2⟩)
    | (intro (n : EvStore) hn; split <;> (with_reducible exact EvStore.wf_of hn rfl rfl))
    | (intro (n : EvStore) hn; with_reducible exact EvStore.wf_of hn rfl rfl)
    | (intro (n : Bbx) hn; split <;> (with_reducible exact EvStore.wf_of hn rfl rfl))
    | (intro (n : Bbx) hn; with_reducible exact EvStore.wf_eq hn rfl)
    | (intro (n : Bbx) hn; with_reducible exact EvStore.wf_of hn rfl rfl)
    | split)

theorem step_execBbxNonceRequest {entropy : BitVec 128} {s : State} : Answers [.bbx] s (execBbxNonceRequest entropy s) := by
  unfold execBbxNonceRequest
  repeat' (first
    | with_reducible apply Step.refl
    | with_reducible assumption
    | exact Eq.refl true
    | with_reducible apply Answers.ok
    | (extract_lets +onlyGivenNames lv; first | ((first | refine Step.cut lv ?_ ?_ | refine Answers.cut lv ?_ ?_); unfold lv; clear lv; rotate_left; intro hx; clear_value lv; revert lv; intro _ _) | (revert lv; intro _))
    | with_reducible apply Step.after (step_modBbx ?_)
    | with_reducible apply Step.when
    | (with_reducible apply Step.foldl; intro fs fa)
    | (with_reducible apply Step.foldFin; intro fs fa)
    | (with_reducible apply Step.foldlFst; intro fs fa)
    | (split; rename_i heq; have hx : (_ : State) = _ := congrArg Prod.snd heq; dsimp only at hx; subst hx)
    | (split; rename_i heq; have hx : (_ : State) = _ := congrArg Prod.fst heq; dsimp only at hx; subst hx)
    | (intro (n : Nvp) hn; simp only [Nvp.wf, Bool.and_eq_true] at hn ⊢; first | exact ⟨⟨nvpPuts_wf _ _ hn.1.1, hn.1.2⟩, hn.2⟩ | exact ⟨hn.1, rfl⟩)
    | (intro (n : Nvp) hn; split <;> (with_reducible exact Nvp.wf_of hn rfl rfl rfl))
    | (intro (n : Nvp) hn; with_reducible exact Nvp.wf_of hn rfl rfl rfl)
    | (intro (n : Otp) hn; split <;> (with_reducible exact Otp.wf_of hn rfl rfl rfl rfl))
    | (intro (n : Otp) hn; with_reducible exact Otp.wf_of hn rfl rfl rfl rfl)
    | (intro (n : Upd) hn; split <;> (with_reducible exact Upd.wf_of hn rfl))
    | (intro (n : Upd) hn; with_reducible exact Upd.wf_of hn rfl)
    | (intro (n : EvStore) hn; rw [EvStore.wf_iff] at *; first | exact ⟨cellsWf_put 0 _ _ _ hn.1, hn.2⟩ | exact ⟨hn.1, cellsWf_put _ _ _ _ hn.2⟩ | exact ⟨cellsWf_filter 0 _ _ hn.1, hn.2⟩)
    | (intro (n : EvStore) hn; split <;> (with_reducible exact EvStore.wf_of hn rfl rfl))
    | (intro (n : EvStore) hn; with_reducible exact EvStore.wf_of hn rfl rfl)
    | (intro (n : Bbx) hn; split <;> (with_reducible exact EvStore.wf_of hn rfl rfl))
    | (intro (n : Bbx) hn; with_reducible exact EvStore.wf_eq hn rfl)
    | (intro (n : Bbx) hn; with_reducible exact EvStore.wf_of hn rfl rfl)
    | split)

theorem step_execNonceExpiry {s : State} : Answers [.time, .bbx] s (execNonceExpiry s) := by
  unfold execNonceExpiry
  repeat' (first
    | with_reducible apply Step.refl
    | with_reducible assumption
    | exact Eq.refl true
    | with_reducible apply Answers.ok
    | ((conv => arg 3; arg 28); refine Step.put ?_)
    | (extract_lets +onlyGivenNames lv; first | ((first | refine Step.cut lv ?_ ?_ | refine Answers.cut lv ?_ ?_); unfold lv; clear lv; rotate_left; intro hx; clear_value lv; revert lv; intro _ _) | (revert lv; intro _))
    | with_reducible apply Step.after (step_modBbx ?_)
    | with_reducible apply Step.when
    | (with_reducible refine Step.whenAt rfl ?_ (fun u => ?_))
    | (with_reducible apply Step.foldl; intro fs fa)
    | (with_reducible apply Step.foldFin; intro fs fa)
    | (with_reducible apply Step.foldlFst; intro fs fa)
    | exact (fun _ => rfl)
    | (intro n; dsimp only; split <;> rfl)
    | (split; rename_i heq; have hx : (_ : State) = _ := congrArg Prod.snd heq; dsimp only at hx; subst hx)
    | (split; rename_i heq; have hx : (_ : State) = _ := congrArg Prod.fst heq; dsimp only at hx; subst hx)
    | (intro (n : Nvp) hn; simp only [Nvp.wf, Bool.and_eq_true] at hn ⊢; first | exact ⟨⟨nvpPuts_wf _ _ hn.1.1, hn.1.2⟩, hn.2⟩ | exact ⟨hn.1, rfl⟩)
    | (intro (n : Nvp) hn; split <;> (with_reducible exact Nvp.wf_of hn rfl rfl rfl))
    | (intro (n : Nvp) hn; with_reducible exact Nvp.wf_of hn rfl rfl rfl)
    | (intro (n : Otp) hn; split <;> (with_reducible exact Otp.wf_of hn rfl rfl rfl rfl))
    | (intro (n : Otp) hn; with_reducible exact Otp.wf_of hn rfl rfl rfl rfl)
    | (intro (n : Upd) hn; split <;> (with_reducible exact Upd.wf_of hn rfl))
    | (intro (n : Upd) hn; with_reducible exact Upd.wf_of hn rfl)
    | (intro (n : EvStore) hn; rw [EvStore.wf_iff] at *; first | exact ⟨cellsWf_put 0 _ _ _ hn.1, hn.2⟩ | exact ⟨hn.1, cellsWf_put _ _ _ _ hn.2⟩ | exact ⟨cellsWf_filter 0 _ _ hn.1, hn.2⟩)
    | (intro (n : EvStore) hn; split <;> (with_reducible exact EvStore.wf_of hn rfl rfl))
    | (intro (n : EvStore) hn; with_reducible exact EvStore.wf_of hn rfl rfl)
    | (intro (n : Bbx) hn; split <;> (with_reducible exact EvStore.wf_of hn rfl rfl))
    | (intro (n : Bbx) hn; with_reducible exact EvStore.wf_eq hn rfl)
    | (intro (n : Bbx) hn; with_reducible exact EvStore.wf_of hn rfl rfl)
    | split)

theorem step_execBbxClear {s : State} : Answers [.regs, .chans, .bbx] s (execBbxClear s) := by
  unfold execBbxClear
  repeat' (first
    | with_reducible apply Step.refl
    | with_reducible assumption
    | exact Eq.refl true
    | with_reducible apply Answers.ok
    | ((conv => arg 3; arg 28); refine Step.put ?_)
    | (extract_lets +onlyGivenNames lv; first | ((first | refine Step.cut lv ?_ ?_ | refine Answers.cut lv ?_ ?_); unfold lv; clear lv; rotate_left; intro hx; clear_value lv; revert lv; intro _ _) | (revert lv; intro _))
    | with_reducible apply Step.after step_bbxExec
    | with_reducible apply Step.when
    | (with_reducible apply Step.foldl; intro fs fa)
    | (with_reducible apply Step.foldFin; intro fs fa)
    | (with_reducible apply Step.foldlFst; intro fs fa)
    | exact (fun _ => rfl)
    | (intro n; dsimp only; split <;> rfl)
    | (split; rename_i heq; have hx : (_ : State) = _ := congrArg Prod.snd heq; dsimp only at hx; subst hx)
    | (split; rename_i heq; have hx : (_ : State) = _ := congrArg Prod.fst heq; dsimp only at hx; subst hx)
    | (intro (n : Nvp) hn; simp only [Nvp.wf, Bool.and_eq_true] at hn ⊢; first | exact ⟨⟨nvpPuts_wf _ _ hn.1.1, hn.1.2⟩, hn.2⟩ | exact ⟨hn.1, rfl⟩)
    | (intro (n : Nvp) hn; split <;> (with_reducible exact Nvp.wf_of hn rfl rfl rfl))
    | (intro (n : Nvp) hn; with_reducible exact Nvp.wf_of hn rfl rfl rfl)
    | (intro (n : Otp) hn; split <;> (with_reducible exact Otp.wf_of hn rfl rfl rfl rfl))
    | (intro (n : Otp) hn; with_reducible exact Otp.wf_of hn rfl rfl rfl rfl)
    | (intro (n : Upd) hn; split <;> (with_reducible exact Upd.wf_of hn rfl))
    | (intro (n : Upd) hn; with_reducible exact Upd.wf_of hn rfl)
    | (intro (n : EvStore) hn; rw [EvStore.wf_iff] at *; first | exact ⟨cellsWf_put 0 _ _ _ hn.1, hn.2⟩ | exact ⟨hn.1, cellsWf_put _ _ _ _ hn.2⟩ | exact ⟨cellsWf_filter 0 _ _ hn.1, hn.2⟩)
    | (intro (n : EvStore) hn; split <;> (with_reducible exact EvStore.wf_of hn rfl rfl))
    | (intro (n : EvStore) hn; with_reducible exact EvStore.wf_of hn rfl rfl)
    | (intro (n : Bbx) hn; split <;> (with_reducible exact EvStore.wf_of hn rfl rfl))
    | (intro (n : Bbx) hn; with_reducible exact EvStore.wf_eq hn rfl)
    | (intro (n : Bbx) hn; with_reducible exact EvStore.wf_of hn rfl rfl)
    | split)

theorem step_execBbxRelease {s : State} : Answers [.regs, .chans, .bbx] s (execBbxRelease s) := by
  unfold execBbxRelease
  repeat' (first
    | with_reducible apply Step.refl
    | with_reducible assumption
    | exact Eq.refl true
    | with_reducible apply Answers.ok
    | (extract_lets +onlyGivenNames lv; first | ((first | refine Step.cut lv ?_ ?_ | refine Answers.cut lv ?_ ?_); unfold lv; clear lv; rotate_left; intro hx; clear_value lv; revert lv; intro _ _) | (revert lv; intro _))
    | with_reducible apply Step.after step_bbxExec
    | with_reducible apply Step.when
    | (with_reducible apply Step.foldl; intro fs fa)
    | (with_reducible apply Step.foldFin; intro fs fa)
    | (with_reducible apply Step.foldlFst; intro fs fa)
    | (split; rename_i heq; have hx : (_ : State) = _ := congrArg Prod.snd heq; dsimp only at hx; subst hx)
    | (split; rename_i heq; have hx : (_ : State) = _ := congrArg Prod.fst heq; dsimp only at hx; subst hx)
    | split)

theorem step_opSave {s : State} : Step [.regs, .nvp, .bbx] s (State.opSave s) := by
  unfold State.opSave
  repeat' (first
    | with_reducible apply Step.refl
    | with_reducible assumption
    | exact Eq.refl true
    | (extract_lets +onlyGivenNames lv; first | ((first | refine Step.cut lv ?_ ?_ | refine Answers.cut lv ?_ ?_); unfold lv; clear lv; rotate_left; intro hx; clear_value lv; revert lv; intro _ _) | (revert lv; intro _))
    | with_reducible apply Step.after (step_modBbx ?_)
    | with_reducible apply Step.after step_stick
    | with_reducible apply Step.after step_saveRequest
    | (intro (n : Nvp) hn; simp only [Nvp.wf, Bool.and_eq_true] at hn ⊢; first | exact ⟨⟨nvpPuts_wf _ _ hn.1.1, hn.1.2⟩, hn.2⟩ | exact ⟨hn.1, rfl⟩)
    | (intro (n : Nvp) hn; split <;> (with_reducible exact Nvp.wf_of hn rfl rfl rfl))
    | (intro (n : Nvp) hn; with_reducible exact Nvp.wf_of hn rfl rfl rfl)
    | (intro (n : Otp) hn; split <;> (with_reducible exact Otp.wf_of hn rfl rfl rfl rfl))
    | (intro (n : Otp) hn; with_reducible exact Otp.wf_of hn rfl rfl rfl rfl)
    | (intro (n : Upd) hn; split <;> (with_reducible exact Upd.wf_of hn rfl))
    | (intro (n : Upd) hn; with_reducible exact Upd.wf_of hn rfl)
    | (intro (n : EvStore) hn; rw [EvStore.wf_iff] at *; first | exact ⟨cellsWf_put 0 _ _ _ hn.1, hn.2⟩ | exact ⟨hn.1, cellsWf_put _ _ _ _ hn.2⟩ | exact ⟨cellsWf_filter 0 _ _ hn.1, hn.2⟩)
    | (intro (n : EvStore) hn; split <;> (with_reducible exact EvStore.wf_of hn rfl rfl))
    | (intro (n : EvStore) hn; with_reducible exact EvStore.wf_of hn rfl rfl)
    | (intro (n : Bbx) hn; split <;> (with_reducible exact EvStore.wf_of hn rfl rfl))
    | (intro (n : Bbx) hn; with_reducible exact EvStore.wf_eq hn rfl)
    | (intro (n : Bbx) hn; with_reducible exact EvStore.wf_of hn rfl rfl)
    | split)

theorem step_sealWaiting {s : State} : Step [.regs, .chans, .aon, .nvp, .bbx, .hst, .evt] s (State.sealWaiting s) := by
  unfold State.sealWaiting
  repeat' (first
    | with_reducible apply Step.refl
    | with_reducible assumption
    | exact Eq.refl true
    | ((conv => arg 3; arg 28); refine Step.put ?_)
    | (extract_lets +onlyGivenNames lv; first | ((first | refine Step.cut lv ?_ ?_ | refine Answers.cut lv ?_ ?_); unfold lv; clear lv; rotate_left; intro hx; clear_value lv; revert lv; intro _ _) | (revert lv; intro _))
    | with_reducible apply Step.after step_sealNow
    | with_reducible apply Step.after (step_modBbx ?_)
    | with_reducible apply Step.when
    | (with_reducible apply Step.foldl; intro fs fa)
    | (with_reducible apply Step.foldFin; intro fs fa)
    | (with_reducible apply Step.foldlFst; intro fs fa)
    | exact (fun _ => rfl)
    | (intro n; dsimp only; split <;> rfl)
    | (split; rename_i heq; have hx : (_ : State) = _ := congrArg Prod.snd heq; dsimp only at hx; subst hx)
    | (split; rename_i heq; have hx : (_ : State) = _ := congrArg Prod.fst heq; dsimp only at hx; subst hx)
    | (intro (n : Nvp) hn; simp only [Nvp.wf, Bool.and_eq_true] at hn ⊢; first | exact ⟨⟨nvpPuts_wf _ _ hn.1.1, hn.1.2⟩, hn.2⟩ | exact ⟨hn.1, rfl⟩)
    | (intro (n : Nvp) hn; split <;> (with_reducible exact Nvp.wf_of hn rfl rfl rfl))
    | (intro (n : Nvp) hn; with_reducible exact Nvp.wf_of hn rfl rfl rfl)
    | (intro (n : Otp) hn; split <;> (with_reducible exact Otp.wf_of hn rfl rfl rfl rfl))
    | (intro (n : Otp) hn; with_reducible exact Otp.wf_of hn rfl rfl rfl rfl)
    | (intro (n : Upd) hn; split <;> (with_reducible exact Upd.wf_of hn rfl))
    | (intro (n : Upd) hn; with_reducible exact Upd.wf_of hn rfl)
    | (intro (n : EvStore) hn; rw [EvStore.wf_iff] at *; first | exact ⟨cellsWf_put 0 _ _ _ hn.1, hn.2⟩ | exact ⟨hn.1, cellsWf_put _ _ _ _ hn.2⟩ | exact ⟨cellsWf_filter 0 _ _ hn.1, hn.2⟩)
    | (intro (n : EvStore) hn; split <;> (with_reducible exact EvStore.wf_of hn rfl rfl))
    | (intro (n : EvStore) hn; with_reducible exact EvStore.wf_of hn rfl rfl)
    | (intro (n : Bbx) hn; split <;> (with_reducible exact EvStore.wf_of hn rfl rfl))
    | (intro (n : Bbx) hn; with_reducible exact EvStore.wf_eq hn rfl)
    | (intro (n : Bbx) hn; with_reducible exact EvStore.wf_of hn rfl rfl)
    | split)

theorem step_opFinish {s : State} : Step [.regs, .chans, .aon, .nvp, .bbx, .hst, .evt] s (State.opFinish s) := by
  unfold State.opFinish
  repeat' (first
    | with_reducible apply Step.refl
    | with_reducible assumption
    | exact Eq.refl true
    | (extract_lets +onlyGivenNames lv; first | ((first | refine Step.cut lv ?_ ?_ | refine Answers.cut lv ?_ ?_); unfold lv; clear lv; rotate_left; intro hx; clear_value lv; revert lv; intro _ _) | (revert lv; intro _))
    | with_reducible apply Step.after (step_modBbx ?_)
    | with_reducible apply Step.after (step_modStore ?_)
    | with_reducible apply Step.after step_opSave
    | with_reducible apply Step.after step_sealWaiting
    | with_reducible apply Step.after step_ownRecord
    | with_reducible apply Step.after step_satEv
    | with_reducible apply Step.after step_stick
    | with_reducible apply Step.after step_modReam
    | (intro (n : Nvp) hn; simp only [Nvp.wf, Bool.and_eq_true] at hn ⊢; first | exact ⟨⟨nvpPuts_wf _ _ hn.1.1, hn.1.2⟩, hn.2⟩ | exact ⟨hn.1, rfl⟩)
    | (intro (n : Nvp) hn; split <;> (with_reducible exact Nvp.wf_of hn rfl rfl rfl))
    | (intro (n : Nvp) hn; with_reducible exact Nvp.wf_of hn rfl rfl rfl)
    | (intro (n : Otp) hn; split <;> (with_reducible exact Otp.wf_of hn rfl rfl rfl rfl))
    | (intro (n : Otp) hn; with_reducible exact Otp.wf_of hn rfl rfl rfl rfl)
    | (intro (n : Upd) hn; split <;> (with_reducible exact Upd.wf_of hn rfl))
    | (intro (n : Upd) hn; with_reducible exact Upd.wf_of hn rfl)
    | (intro (n : EvStore) hn; rw [EvStore.wf_iff] at *; first | exact ⟨cellsWf_put 0 _ _ _ hn.1, hn.2⟩ | exact ⟨hn.1, cellsWf_put _ _ _ _ hn.2⟩ | exact ⟨cellsWf_filter 0 _ _ hn.1, hn.2⟩)
    | (intro (n : EvStore) hn; split <;> (with_reducible exact EvStore.wf_of hn rfl rfl))
    | (intro (n : EvStore) hn; with_reducible exact EvStore.wf_of hn rfl rfl)
    | (intro (n : Bbx) hn; split <;> (with_reducible exact EvStore.wf_of hn rfl rfl))
    | (intro (n : Bbx) hn; with_reducible exact EvStore.wf_eq hn rfl)
    | (intro (n : Bbx) hn; with_reducible exact EvStore.wf_of hn rfl rfl)
    | split)

theorem step_execBbxOpComplete {s : State} : Answers [.regs, .chans, .aon, .nvp, .bbx, .hst, .evt] s (execBbxOpComplete s) := by
  unfold execBbxOpComplete
  repeat' (first
    | with_reducible apply Step.refl
    | with_reducible assumption
    | exact Eq.refl true
    | with_reducible apply Answers.ok
    | (extract_lets +onlyGivenNames lv; first | ((first | refine Step.cut lv ?_ ?_ | refine Answers.cut lv ?_ ?_); unfold lv; clear lv; rotate_left; intro hx; clear_value lv; revert lv; intro _ _) | (revert lv; intro _))
    | with_reducible apply Step.after step_opFinish
    | with_reducible apply Step.when
    | (with_reducible apply Step.foldl; intro fs fa)
    | (with_reducible apply Step.foldFin; intro fs fa)
    | (with_reducible apply Step.foldlFst; intro fs fa)
    | (split; rename_i heq; have hx : (_ : State) = _ := congrArg Prod.snd heq; dsimp only at hx; subst hx)
    | (split; rename_i heq; have hx : (_ : State) = _ := congrArg Prod.fst heq; dsimp only at hx; subst hx)
    | split)

theorem step_execLockoutEnd {s : State} : Answers [.time, .bbx] s (execLockoutEnd s) := by
  unfold execLockoutEnd
  repeat' (first
    | with_reducible apply Step.refl
    | with_reducible assumption
    | exact Eq.refl true
    | with_reducible apply Answers.ok
    | ((conv => arg 3; arg 28); refine Step.put ?_)
    | (extract_lets +onlyGivenNames lv; first | ((first | refine Step.cut lv ?_ ?_ | refine Answers.cut lv ?_ ?_); unfold lv; clear lv; rotate_left; intro hx; clear_value lv; revert lv; intro _ _) | (revert lv; intro _))
    | with_reducible apply Step.after (step_modBbx ?_)
    | with_reducible apply Step.when
    | (with_reducible refine Step.whenOp rfl ?_ (fun u => ?_))
    | (with_reducible apply Step.foldl; intro fs fa)
    | (with_reducible apply Step.foldFin; intro fs fa)
    | (with_reducible apply Step.foldlFst; intro fs fa)
    | exact (fun _ => rfl)
    | (intro n; dsimp only; split <;> rfl)
    | (split; rename_i heq; have hx : (_ : State) = _ := congrArg Prod.snd heq; dsimp only at hx; subst hx)
    | (split; rename_i heq; have hx : (_ : State) = _ := congrArg Prod.fst heq; dsimp only at hx; subst hx)
    | (intro (n : Nvp) hn; simp only [Nvp.wf, Bool.and_eq_true] at hn ⊢; first | exact ⟨⟨nvpPuts_wf _ _ hn.1.1, hn.1.2⟩, hn.2⟩ | exact ⟨hn.1, rfl⟩)
    | (intro (n : Nvp) hn; split <;> (with_reducible exact Nvp.wf_of hn rfl rfl rfl))
    | (intro (n : Nvp) hn; with_reducible exact Nvp.wf_of hn rfl rfl rfl)
    | (intro (n : Otp) hn; split <;> (with_reducible exact Otp.wf_of hn rfl rfl rfl rfl))
    | (intro (n : Otp) hn; with_reducible exact Otp.wf_of hn rfl rfl rfl rfl)
    | (intro (n : Upd) hn; split <;> (with_reducible exact Upd.wf_of hn rfl))
    | (intro (n : Upd) hn; with_reducible exact Upd.wf_of hn rfl)
    | (intro (n : EvStore) hn; rw [EvStore.wf_iff] at *; first | exact ⟨cellsWf_put 0 _ _ _ hn.1, hn.2⟩ | exact ⟨hn.1, cellsWf_put _ _ _ _ hn.2⟩ | exact ⟨cellsWf_filter 0 _ _ hn.1, hn.2⟩)
    | (intro (n : EvStore) hn; split <;> (with_reducible exact EvStore.wf_of hn rfl rfl))
    | (intro (n : EvStore) hn; with_reducible exact EvStore.wf_of hn rfl rfl)
    | (intro (n : Bbx) hn; split <;> (with_reducible exact EvStore.wf_of hn rfl rfl))
    | (intro (n : Bbx) hn; with_reducible exact EvStore.wf_eq hn rfl)
    | (intro (n : Bbx) hn; with_reducible exact EvStore.wf_of hn rfl rfl)
    | split)

/-! ### ParamStore -/

theorem step_execNvpCommitRequest {s : State} : Answers [.nvp] s (execNvpCommitRequest s) := by
  unfold execNvpCommitRequest
  repeat' (first
    | with_reducible apply Step.refl
    | with_reducible assumption
    | exact Eq.refl true
    | with_reducible apply Answers.ok
    | (extract_lets +onlyGivenNames lv; first | ((first | refine Step.cut lv ?_ ?_ | refine Answers.cut lv ?_ ?_); unfold lv; clear lv; rotate_left; intro hx; clear_value lv; revert lv; intro _ _) | (revert lv; intro _))
    | with_reducible apply Step.after step_commitStart
    | with_reducible apply Step.when
    | (with_reducible apply Step.foldl; intro fs fa)
    | (with_reducible apply Step.foldFin; intro fs fa)
    | (with_reducible apply Step.foldlFst; intro fs fa)
    | (split; rename_i heq; have hx : (_ : State) = _ := congrArg Prod.snd heq; dsimp only at hx; subst hx)
    | (split; rename_i heq; have hx : (_ : State) = _ := congrArg Prod.fst heq; dsimp only at hx; subst hx)
    | split)

theorem step_execNvpCommitDone {us : Nat} {s : State} : Answers [.regs, .chans, .nvp, .store] s (execNvpCommitDone us s) := by
  unfold execNvpCommitDone
  split
  · exact Answers.ok Step.refl
  · refine Answers.ok (Step.after step_nvpFlow rfl (Step.after (step_modNvpStore (fun n h => ?_)) rfl Step.refl))
    unfold Nvp.committed
    simp only [Nvp.wf, Bool.and_eq_true] at h ⊢
    exact ⟨⟨nvpPuts_wf _ _ h.1.1, h.1.2⟩, h.2⟩

theorem step_rawRead {s : State} {addr : Word} : Step [.freeCtr, .regs, .chans, .nvp, .config] s (State.rawRead s addr) := by
  unfold State.rawRead
  repeat' (first
    | with_reducible apply Step.refl
    | with_reducible assumption
    | exact Eq.refl true
    | (extract_lets +onlyGivenNames lv; first | ((first | refine Step.cut lv ?_ ?_ | refine Answers.cut lv ?_ ?_); unfold lv; clear lv; rotate_left; intro hx; clear_value lv; revert lv; intro _ _) | (revert lv; intro _))
    | with_reducible apply Step.after step_setFld
    | with_reducible apply Step.after step_drawn
    | with_reducible apply Step.after (step_modNvp ?_ ?_)
    | with_reducible apply Step.after step_eccShadow
    | with_reducible apply Step.after step_eccTouch
    | exact (fun _ => rfl)
    | (intro n; dsimp only; split <;> rfl)
    | (intro (n : Nvp) hn; simp only [Nvp.wf, Bool.and_eq_true] at hn ⊢; first | exact ⟨⟨nvpPuts_wf _ _ hn.1.1, hn.1.2⟩, hn.2⟩ | exact ⟨hn.1, rfl⟩)
    | (intro (n : Nvp) hn; split <;> (with_reducible exact Nvp.wf_of hn rfl rfl rfl))
    | (intro (n : Nvp) hn; with_reducible exact Nvp.wf_of hn rfl rfl rfl)
    | (intro (n : Otp) hn; split <;> (with_reducible exact Otp.wf_of hn rfl rfl rfl rfl))
    | (intro (n : Otp) hn; with_reducible exact Otp.wf_of hn rfl rfl rfl rfl)
    | (intro (n : Upd) hn; split <;> (with_reducible exact Upd.wf_of hn rfl))
    | (intro (n : Upd) hn; with_reducible exact Upd.wf_of hn rfl)
    | (intro (n : EvStore) hn; rw [EvStore.wf_iff] at *; first | exact ⟨cellsWf_put 0 _ _ _ hn.1, hn.2⟩ | exact ⟨hn.1, cellsWf_put _ _ _ _ hn.2⟩ | exact ⟨cellsWf_filter 0 _ _ hn.1, hn.2⟩)
    | (intro (n : EvStore) hn; split <;> (with_reducible exact EvStore.wf_of hn rfl rfl))
    | (intro (n : EvStore) hn; with_reducible exact EvStore.wf_of hn rfl rfl)
    | (intro (n : Bbx) hn; split <;> (with_reducible exact EvStore.wf_of hn rfl rfl))
    | (intro (n : Bbx) hn; with_reducible exact EvStore.wf_eq hn rfl)
    | (intro (n : Bbx) hn; with_reducible exact EvStore.wf_of hn rfl rfl)
    | split)

theorem step_execNvpRawRead {addr : Word} {s : State} : Answers [.freeCtr, .regs, .chans, .nvp, .config] s (execNvpRawRead addr s) := by
  unfold execNvpRawRead
  repeat' (first
    | with_reducible apply Step.refl
    | with_reducible assumption
    | exact Eq.refl true
    | with_reducible apply Answers.ok
    | (extract_lets +onlyGivenNames lv; first | ((first | refine Step.cut lv ?_ ?_ | refine Answers.cut lv ?_ ?_); unfold lv; clear lv; rotate_left; intro hx; clear_value lv; revert lv; intro _ _) | (revert lv; intro _))
    | with_reducible apply Step.after step_rawRead
    | with_reducible apply Step.when
    | (with_reducible apply Step.foldl; intro fs fa)
    | (with_reducible apply Step.foldFin; intro fs fa)
    | (with_reducible apply Step.foldlFst; intro fs fa)
    | (split; rename_i heq; have hx : (_ : State) = _ := congrArg Prod.snd heq; dsimp only at hx; subst hx)
    | (split; rename_i heq; have hx : (_ : State) = _ := congrArg Prod.fst heq; dsimp only at hx; subst hx)
    | split)

theorem step_saveEnd {s : State} {why : Nat} : Step [.freeCtr, .regs, .chans, .nvp, .bbx, .store, .config] s (State.saveEnd s why) := by
  unfold State.saveEnd
  repeat' (first
    | with_reducible apply Step.refl
    | with_reducible assumption
    | exact Eq.refl true
    | (extract_lets +onlyGivenNames lv; first | ((first | refine Step.cut lv ?_ ?_ | refine Answers.cut lv ?_ ?_); unfold lv; clear lv; rotate_left; intro hx; clear_value lv; revert lv; intro _ _) | (revert lv; intro _))
    | with_reducible apply Step.after step_satEv
    | with_reducible apply Step.after (step_modNvp ?_ ?_)
    | with_reducible apply Step.after step_fire
    | with_reducible apply Step.after step_stick
    | with_reducible apply Step.after step_recReset
    | with_reducible apply Step.after step_saveRequest
    | with_reducible apply Step.after (step_modBbx ?_)
    | exact (fun _ => rfl)
    | (intro n; dsimp only; split <;> rfl)
    | (intro (n : Nvp) hn; simp only [Nvp.wf, Bool.and_eq_true] at hn ⊢; first | exact ⟨⟨nvpPuts_wf _ _ hn.1.1, hn.1.2⟩, hn.2⟩ | exact ⟨hn.1, rfl⟩)
    | (intro (n : Nvp) hn; split <;> (with_reducible exact Nvp.wf_of hn rfl rfl rfl))
    | (intro (n : Nvp) hn; with_reducible exact Nvp.wf_of hn rfl rfl rfl)
    | (intro (n : Otp) hn; split <;> (with_reducible exact Otp.wf_of hn rfl rfl rfl rfl))
    | (intro (n : Otp) hn; with_reducible exact Otp.wf_of hn rfl rfl rfl rfl)
    | (intro (n : Upd) hn; split <;> (with_reducible exact Upd.wf_of hn rfl))
    | (intro (n : Upd) hn; with_reducible exact Upd.wf_of hn rfl)
    | (intro (n : EvStore) hn; rw [EvStore.wf_iff] at *; first | exact ⟨cellsWf_put 0 _ _ _ hn.1, hn.2⟩ | exact ⟨hn.1, cellsWf_put _ _ _ _ hn.2⟩ | exact ⟨cellsWf_filter 0 _ _ hn.1, hn.2⟩)
    | (intro (n : EvStore) hn; split <;> (with_reducible exact EvStore.wf_of hn rfl rfl))
    | (intro (n : EvStore) hn; with_reducible exact EvStore.wf_of hn rfl rfl)
    | (intro (n : Bbx) hn; split <;> (with_reducible exact EvStore.wf_of hn rfl rfl))
    | (intro (n : Bbx) hn; with_reducible exact EvStore.wf_eq hn rfl)
    | (intro (n : Bbx) hn; with_reducible exact EvStore.wf_of hn rfl rfl)
    | split)

theorem step_storeWords {s : State} {ws : List (Nat × BitVec 64)} : Step [.nvp, .store] s (State.storeWords s ws) := by
  unfold State.storeWords
  exact step_modNvpStore (fun n h => Nvp.wf_store h (nvpPuts_wf _ _ (Nvp.store_wf h)))

theorem step_execRingSlotComplete {s : State} : Answers [.freeCtr, .regs, .chans, .nvp, .bbx, .store, .config] s (execRingSlotComplete s) := by
  have hm : ∀ {t : State} {f : Nvp → Nvp}, (∀ n : Nvp, n.wf = true → (f n).wf = true) → (∀ n : Nvp, (f n).store = n.store) → Step [.freeCtr, .regs, .chans, .nvp, .bbx, .store, .config] s t → Step [.freeCtr, .regs, .chans, .nvp, .bbx, .store, .config] s (t.modNvp f) :=
    fun k e h => Step.after (step_modNvp k e) rfl h
  unfold execRingSlotComplete
  split
  · exact Answers.ok Step.refl
  · rename_i v _
    split
    · exact Answers.ok Step.refl
    · generalize s.nextSlot v.after = q
      obtain ⟨j, q⟩ := q
      dsimp -zeta only
      extract_lets +onlyGivenNames us t s1
      have h1 : Step [.freeCtr, .regs, .chans, .nvp, .bbx, .store, .config] s s1 := by
        unfold s1
        split
        · have ht : Step [.freeCtr, .regs, .chans, .nvp, .bbx, .store, .config] s t := Step.after step_stick rfl Step.refl
          clear_value t
          split
          · exact ht
          · exact Step.after step_fire rfl (hm (fun n h => by with_reducible exact Nvp.wf_of h rfl rfl rfl) (fun _ => rfl) ht)
        · exact hm (fun n h => by with_reducible exact Nvp.wf_of h rfl rfl rfl) (fun _ => rfl) (Step.after step_storeWords rfl Step.refl)
      clear_value s1
      extract_lets +onlyGivenNames s2
      have h2 : Step [.freeCtr, .regs, .chans, .nvp, .bbx, .store, .config] s s2 := hm (fun n h => by
        have k := Nvp.save_wf h
        refine Nvp.wf_save (v := n.save.map (fun x => { x with slotDone := true })) (n := { n with sRing := us }) (by with_reducible exact Nvp.wf_of h rfl rfl rfl) ?_
        rw [Option.all_map]
        exact k) (fun _ => rfl) h1
      clear_value s2
      split
      · exact Answers.ok h2
      · exact Answers.ok (Step.after step_saveEnd rfl h2)

theorem step_execSaveComplete {us : Nat} {s : State} : Answers [.freeCtr, .regs, .chans, .nvp, .bbx, .store, .config] s (execSaveComplete us s) := by
  unfold execSaveComplete
  split
  · exact Answers.ok Step.refl
  · rename_i v hv
    split
    · exact Answers.ok Step.refl
    · extract_lets st
      refine Answers.ok (Step.after step_saveEnd rfl (Step.further (Step.after step_drawn rfl Step.refl) ?_ ?_))
      · unfold State.modNvp
        intro p hp
        cases p <;> first | rfl | exact ⟨rfl, rfl⟩ | exact absurd (by decide) hp
      · intro w h
        unfold State.StoresWf at h
        refine ⟨?_, h.2⟩
        have k : st.wf = true := by
          have a := Nvp.save_wf w.1
          rw [hv] at a
          unfold st
          cases hf : v.frozen with
          | none => exact w.2.2.2.2.2.1
          | some e => rw [Option.all_some, hf] at a; exact a
        exact Nvp.wf_image (n := { s.drawn.nvp with shErr := [], shScrub := [], sShadow := min 0xFFFF us }) (v := some ⟨_, _, st, _⟩) (by with_reducible exact Nvp.wf_of (n := s.drawn.nvp) h.1 rfl rfl rfl) k

theorem step_execHourlySave {s : State} : Answers [.time, .regs, .nvp] s (execHourlySave s) := by
  unfold execHourlySave
  repeat' (first
    | with_reducible apply Step.refl
    | with_reducible assumption
    | exact Eq.refl true
    | with_reducible apply Answers.ok
    | ((conv => arg 3; arg 28); refine Step.put ?_)
    | (extract_lets +onlyGivenNames lv; first | ((first | refine Step.cut lv ?_ ?_ | refine Answers.cut lv ?_ ?_); unfold lv; clear lv; rotate_left; intro hx; clear_value lv; revert lv; intro _ _) | (revert lv; intro _))
    | with_reducible apply Step.after (step_modNvp ?_ ?_)
    | with_reducible apply Step.after step_stick
    | with_reducible apply Step.after step_saveStart
    | with_reducible apply Step.when
    | (with_reducible refine Step.whenOp rfl ?_ (fun u => ?_))
    | (with_reducible apply Step.foldl; intro fs fa)
    | (with_reducible apply Step.foldFin; intro fs fa)
    | (with_reducible apply Step.foldlFst; intro fs fa)
    | exact (fun _ => rfl)
    | (intro n; dsimp only; split <;> rfl)
    | (split; rename_i heq; have hx : (_ : State) = _ := congrArg Prod.snd heq; dsimp only at hx; subst hx)
    | (split; rename_i heq; have hx : (_ : State) = _ := congrArg Prod.fst heq; dsimp only at hx; subst hx)
    | (intro (n : Nvp) hn; simp only [Nvp.wf, Bool.and_eq_true] at hn ⊢; first | exact ⟨⟨nvpPuts_wf _ _ hn.1.1, hn.1.2⟩, hn.2⟩ | exact ⟨hn.1, rfl⟩)
    | (intro (n : Nvp) hn; split <;> (with_reducible exact Nvp.wf_of hn rfl rfl rfl))
    | (intro (n : Nvp) hn; with_reducible exact Nvp.wf_of hn rfl rfl rfl)
    | (intro (n : Otp) hn; split <;> (with_reducible exact Otp.wf_of hn rfl rfl rfl rfl))
    | (intro (n : Otp) hn; with_reducible exact Otp.wf_of hn rfl rfl rfl rfl)
    | (intro (n : Upd) hn; split <;> (with_reducible exact Upd.wf_of hn rfl))
    | (intro (n : Upd) hn; with_reducible exact Upd.wf_of hn rfl)
    | (intro (n : EvStore) hn; rw [EvStore.wf_iff] at *; first | exact ⟨cellsWf_put 0 _ _ _ hn.1, hn.2⟩ | exact ⟨hn.1, cellsWf_put _ _ _ _ hn.2⟩ | exact ⟨cellsWf_filter 0 _ _ hn.1, hn.2⟩)
    | (intro (n : EvStore) hn; split <;> (with_reducible exact EvStore.wf_of hn rfl rfl))
    | (intro (n : EvStore) hn; with_reducible exact EvStore.wf_of hn rfl rfl)
    | (intro (n : Bbx) hn; split <;> (with_reducible exact EvStore.wf_of hn rfl rfl))
    | (intro (n : Bbx) hn; with_reducible exact EvStore.wf_eq hn rfl)
    | (intro (n : Bbx) hn; with_reducible exact EvStore.wf_of hn rfl rfl)
    | split)

theorem step_execNvpSaveRequest {s : State} : Answers [.regs, .nvp] s (execNvpSaveRequest s) := by
  unfold execNvpSaveRequest
  repeat' (first
    | with_reducible apply Step.refl
    | with_reducible assumption
    | exact Eq.refl true
    | with_reducible apply Answers.ok
    | (extract_lets +onlyGivenNames lv; first | ((first | refine Step.cut lv ?_ ?_ | refine Answers.cut lv ?_ ?_); unfold lv; clear lv; rotate_left; intro hx; clear_value lv; revert lv; intro _ _) | (revert lv; intro _))
    | with_reducible apply Step.after step_saveRequest
    | with_reducible apply Step.when
    | (with_reducible apply Step.foldl; intro fs fa)
    | (with_reducible apply Step.foldFin; intro fs fa)
    | (with_reducible apply Step.foldlFst; intro fs fa)
    | (split; rename_i heq; have hx : (_ : State) = _ := congrArg Prod.snd heq; dsimp only at hx; subst hx)
    | (split; rename_i heq; have hx : (_ : State) = _ := congrArg Prod.fst heq; dsimp only at hx; subst hx)
    | split)

theorem step_execPfRide {s : State} : Answers [.regs, .chans, .aon, .nvp] s (execPfRide s) := by
  unfold execPfRide
  repeat' (first
    | with_reducible apply Step.refl
    | with_reducible assumption
    | exact Eq.refl true
    | with_reducible apply Answers.ok
    | ((conv => arg 3; arg 28); refine Step.put ?_)
    | (extract_lets +onlyGivenNames lv; first | ((first | refine Step.cut lv ?_ ?_ | refine Answers.cut lv ?_ ?_); unfold lv; clear lv; rotate_left; intro hx; clear_value lv; revert lv; intro _ _) | (revert lv; intro _))
    | with_reducible apply Step.after step_nvpFlow
    | with_reducible apply Step.after step_fire
    | with_reducible apply Step.after step_stick
    | with_reducible apply Step.after (step_modNvp ?_ ?_)
    | with_reducible apply Step.when
    | (with_reducible apply Step.foldl; intro fs fa)
    | (with_reducible apply Step.foldFin; intro fs fa)
    | (with_reducible apply Step.foldlFst; intro fs fa)
    | exact (fun _ => rfl)
    | (intro n; dsimp only; split <;> rfl)
    | (split; rename_i heq; have hx : (_ : State) = _ := congrArg Prod.snd heq; dsimp only at hx; subst hx)
    | (split; rename_i heq; have hx : (_ : State) = _ := congrArg Prod.fst heq; dsimp only at hx; subst hx)
    | (intro (n : Nvp) hn; simp only [Nvp.wf, Bool.and_eq_true] at hn ⊢; first | exact ⟨⟨nvpPuts_wf _ _ hn.1.1, hn.1.2⟩, hn.2⟩ | exact ⟨hn.1, rfl⟩)
    | (intro (n : Nvp) hn; split <;> (with_reducible exact Nvp.wf_of hn rfl rfl rfl))
    | (intro (n : Nvp) hn; with_reducible exact Nvp.wf_of hn rfl rfl rfl)
    | (intro (n : Otp) hn; split <;> (with_reducible exact Otp.wf_of hn rfl rfl rfl rfl))
    | (intro (n : Otp) hn; with_reducible exact Otp.wf_of hn rfl rfl rfl rfl)
    | (intro (n : Upd) hn; split <;> (with_reducible exact Upd.wf_of hn rfl))
    | (intro (n : Upd) hn; with_reducible exact Upd.wf_of hn rfl)
    | (intro (n : EvStore) hn; rw [EvStore.wf_iff] at *; first | exact ⟨cellsWf_put 0 _ _ _ hn.1, hn.2⟩ | exact ⟨hn.1, cellsWf_put _ _ _ _ hn.2⟩ | exact ⟨cellsWf_filter 0 _ _ hn.1, hn.2⟩)
    | (intro (n : EvStore) hn; split <;> (with_reducible exact EvStore.wf_of hn rfl rfl))
    | (intro (n : EvStore) hn; with_reducible exact EvStore.wf_of hn rfl rfl)
    | (intro (n : Bbx) hn; split <;> (with_reducible exact EvStore.wf_of hn rfl rfl))
    | (intro (n : Bbx) hn; with_reducible exact EvStore.wf_eq hn rfl)
    | (intro (n : Bbx) hn; with_reducible exact EvStore.wf_of hn rfl rfl)
    | split)

theorem step_nvpRestore {s : State} : Step [.regs, .chans, .aon, .nvp, .bbx] s (State.nvpRestore s) := by
  have hm : ∀ {t : State} {f : Nvp → Nvp}, (∀ n : Nvp, n.wf = true → (f n).wf = true) → (∀ n : Nvp, (f n).store = n.store) → Step [.regs, .chans, .aon, .nvp, .bbx] s t → Step [.regs, .chans, .aon, .nvp, .bbx] s (t.modNvp f) :=
    fun k e h => Step.after (step_modNvp k e) rfl h
  unfold State.nvpRestore
  extract_lets +onlyGivenNames best s0
  have h0 : Step [.regs, .chans, .aon, .nvp, .bbx] s s0 := Step.foldl _ _ (fun _ _ => Step.after step_eccRange rfl Step.refl) Step.refl
  clear_value best s0
  split
  · extract_lets +onlyGivenNames p why kept pc a b s1
    have h1 : Step [.regs, .chans, .aon, .nvp, .bbx] s s1 := Step.put h0 (w_bbx := fun h => by with_reducible exact EvStore.wf_eq h rfl)
    clear_value s1
    extract_lets +onlyGivenNames s2
    have h2 : Step [.regs, .chans, .aon, .nvp, .bbx] s s2 := hm (fun n h => by with_reducible exact Nvp.wf_of h rfl rfl rfl) (fun _ => rfl) h1
    clear_value s2
    exact Step.after step_fire rfl h2
  · extract_lets +onlyGivenNames kept a s1
    have h1 : Step [.regs, .chans, .aon, .nvp, .bbx] s s1 := Step.put h0
    clear_value s1
    exact Step.after step_fire rfl (hm (fun n h => by with_reducible exact Nvp.wf_of h rfl rfl rfl) (fun _ => rfl) h1)

theorem step_execNvpRestore {s : State} : Answers [.regs, .chans, .aon, .nvp, .bbx] s (execNvpRestore s) := by
  unfold execNvpRestore
  repeat' (first
    | with_reducible apply Step.refl
    | with_reducible assumption
    | exact Eq.refl true
    | with_reducible apply Answers.ok
    | (extract_lets +onlyGivenNames lv; first | ((first | refine Step.cut lv ?_ ?_ | refine Answers.cut lv ?_ ?_); unfold lv; clear lv; rotate_left; intro hx; clear_value lv; revert lv; intro _ _) | (revert lv; intro _))
    | with_reducible apply Step.after step_nvpRestore
    | with_reducible apply Step.when
    | (with_reducible apply Step.foldl; intro fs fa)
    | (with_reducible apply Step.foldFin; intro fs fa)
    | (with_reducible apply Step.foldlFst; intro fs fa)
    | (split; rename_i heq; have hx : (_ : State) = _ := congrArg Prod.snd heq; dsimp only at hx; subst hx)
    | (split; rename_i heq; have hx : (_ : State) = _ := congrArg Prod.fst heq; dsimp only at hx; subst hx)
    | split)

theorem step_imageRestore {s : State} : Step [.regs, .chans, .aon, .nvp, .bbx, .hst, .evt] s (State.imageRestore s) := by
  have hm : ∀ {t : State} {f : Nvp → Nvp}, (∀ n : Nvp, n.wf = true → (f n).wf = true) → (∀ n : Nvp, (f n).store = n.store) → Step [.regs, .chans, .aon, .nvp, .bbx, .hst, .evt] s t → Step [.regs, .chans, .aon, .nvp, .bbx, .hst, .evt] s (t.modNvp f) :=
    fun k e h => Step.after (step_modNvp k e) rfl h
  unfold State.imageRestore
  extract_lets +onlyGivenNames s0 bad from_
  have h0 : Step [.regs, .chans, .aon, .nvp, .bbx, .hst, .evt] s s0 := Step.foldl _ _ (fun _ _ => Step.after step_eccShadow rfl Step.refl) Step.refl
  clear_value s0 bad
  split
  · rename_i m hm'
    extract_lets +onlyGivenNames st holder
    generalize hq : (match st.latest with
      | some (k, q) => ((k + 1) % 16384, laterSeq s.bbx.seq (q + 1))
      | none => (0, s.bbx.seq)) = q
    obtain ⟨slot, seq⟩ := q
    dsimp -zeta only
    extract_lets +onlyGivenNames s1
    refine Step.after step_ownRecord rfl (Step.after step_stick rfl ?_)
    have ha : Step [.regs, .chans, .aon, .nvp, .bbx, .hst, .evt] s (s0.modNvp (fun v => { v with imageDue := false, shadowOk := true })) :=
      hm (fun n h => by with_reducible exact Nvp.wf_of h rfl rfl rfl) (fun _ => rfl) h0
    refine Step.further ha ?_ ?_
    · unfold s1 State.modBbx
      intro p hp
      cases p <;> first | rfl | exact ⟨rfl, rfl⟩ | exact absurd (by decide) hp
    · intro w h
      refine ⟨h.1, h.2.1, h.2.2.1, h.2.2.2.1, h.2.2.2.2.1, ?_, h.2.2.2.2.2.2⟩
      have a := Nvp.image_wf w.1
      rw [hm', Option.all_some] at a
      exact a
  · exact Step.after step_fire rfl (hm (fun n h => by with_reducible exact Nvp.wf_of h rfl rfl rfl) (fun _ => rfl) h0)

theorem step_execShadowImageRestore {s : State} : Answers [.regs, .chans, .aon, .nvp, .bbx, .hst, .evt] s (execShadowImageRestore s) := by
  unfold execShadowImageRestore
  repeat' (first
    | with_reducible apply Step.refl
    | with_reducible assumption
    | exact Eq.refl true
    | with_reducible apply Answers.ok
    | (extract_lets +onlyGivenNames lv; first | ((first | refine Step.cut lv ?_ ?_ | refine Answers.cut lv ?_ ?_); unfold lv; clear lv; rotate_left; intro hx; clear_value lv; revert lv; intro _ _) | (revert lv; intro _))
    | with_reducible apply Step.after step_imageRestore
    | with_reducible apply Step.when
    | (with_reducible apply Step.foldl; intro fs fa)
    | (with_reducible apply Step.foldFin; intro fs fa)
    | (with_reducible apply Step.foldlFst; intro fs fa)
    | (split; rename_i heq; have hx : (_ : State) = _ := congrArg Prod.snd heq; dsimp only at hx; subst hx)
    | (split; rename_i heq; have hx : (_ : State) = _ := congrArg Prod.fst heq; dsimp only at hx; subst hx)
    | split)

theorem step_fullRead {s : State} : Step [.regs, .chans, .nvp] s (State.fullRead s) := by
  unfold State.fullRead
  repeat' (first
    | with_reducible apply Step.refl
    | with_reducible assumption
    | exact Eq.refl true
    | (extract_lets +onlyGivenNames lv; first | ((first | refine Step.cut lv ?_ ?_ | refine Answers.cut lv ?_ ?_); unfold lv; clear lv; rotate_left; intro hx; clear_value lv; revert lv; intro _ _) | (revert lv; intro _))
    | with_reducible apply Step.after step_eccTouch
    | with_reducible apply Step.after step_eccShadow
    | with_reducible apply Step.after step_nvpFlow
    | with_reducible apply Step.after (step_modNvp ?_ ?_)
    | with_reducible apply Step.when
    | (with_reducible apply Step.foldl; intro fs fa)
    | (with_reducible apply Step.foldFin; intro fs fa)
    | (with_reducible apply Step.foldlFst; intro fs fa)
    | exact (fun _ => rfl)
    | (intro n; dsimp only; split <;> rfl)
    | (split; rename_i heq; have hx : (_ : State) = _ := congrArg Prod.snd heq; dsimp only at hx; subst hx)
    | (split; rename_i heq; have hx : (_ : State) = _ := congrArg Prod.fst heq; dsimp only at hx; subst hx)
    | (intro (n : Nvp) hn; simp only [Nvp.wf, Bool.and_eq_true] at hn ⊢; first | exact ⟨⟨nvpPuts_wf _ _ hn.1.1, hn.1.2⟩, hn.2⟩ | exact ⟨hn.1, rfl⟩)
    | (intro (n : Nvp) hn; split <;> (with_reducible exact Nvp.wf_of hn rfl rfl rfl))
    | (intro (n : Nvp) hn; with_reducible exact Nvp.wf_of hn rfl rfl rfl)
    | (intro (n : Otp) hn; split <;> (with_reducible exact Otp.wf_of hn rfl rfl rfl rfl))
    | (intro (n : Otp) hn; with_reducible exact Otp.wf_of hn rfl rfl rfl rfl)
    | (intro (n : Upd) hn; split <;> (with_reducible exact Upd.wf_of hn rfl))
    | (intro (n : Upd) hn; with_reducible exact Upd.wf_of hn rfl)
    | (intro (n : EvStore) hn; rw [EvStore.wf_iff] at *; first | exact ⟨cellsWf_put 0 _ _ _ hn.1, hn.2⟩ | exact ⟨hn.1, cellsWf_put _ _ _ _ hn.2⟩ | exact ⟨cellsWf_filter 0 _ _ hn.1, hn.2⟩)
    | (intro (n : EvStore) hn; split <;> (with_reducible exact EvStore.wf_of hn rfl rfl))
    | (intro (n : EvStore) hn; with_reducible exact EvStore.wf_of hn rfl rfl)
    | (intro (n : Bbx) hn; split <;> (with_reducible exact EvStore.wf_of hn rfl rfl))
    | (intro (n : Bbx) hn; with_reducible exact EvStore.wf_eq hn rfl)
    | (intro (n : Bbx) hn; with_reducible exact EvStore.wf_of hn rfl rfl)
    | split)

theorem step_execNvpScrub {s : State} : Answers [.time, .regs, .chans, .nvp] s (execNvpScrub s) := by
  unfold execNvpScrub
  repeat' (first
    | with_reducible apply Step.refl
    | with_reducible assumption
    | exact Eq.refl true
    | with_reducible apply Answers.ok
    | ((conv => arg 3; arg 28); refine Step.put ?_)
    | (extract_lets +onlyGivenNames lv; first | ((first | refine Step.cut lv ?_ ?_ | refine Answers.cut lv ?_ ?_); unfold lv; clear lv; rotate_left; intro hx; clear_value lv; revert lv; intro _ _) | (revert lv; intro _))
    | with_reducible apply Step.after step_fullRead
    | with_reducible apply Step.after (step_modNvp ?_ ?_)
    | with_reducible apply Step.when
    | (with_reducible refine Step.whenOp rfl ?_ (fun u => ?_))
    | (with_reducible apply Step.foldl; intro fs fa)
    | (with_reducible apply Step.foldFin; intro fs fa)
    | (with_reducible apply Step.foldlFst; intro fs fa)
    | exact (fun _ => rfl)
    | (intro n; dsimp only; split <;> rfl)
    | (split; rename_i heq; have hx : (_ : State) = _ := congrArg Prod.snd heq; dsimp only at hx; subst hx)
    | (split; rename_i heq; have hx : (_ : State) = _ := congrArg Prod.fst heq; dsimp only at hx; subst hx)
    | (intro (n : Nvp) hn; simp only [Nvp.wf, Bool.and_eq_true] at hn ⊢; first | exact ⟨⟨nvpPuts_wf _ _ hn.1.1, hn.1.2⟩, hn.2⟩ | exact ⟨hn.1, rfl⟩)
    | (intro (n : Nvp) hn; split <;> (with_reducible exact Nvp.wf_of hn rfl rfl rfl))
    | (intro (n : Nvp) hn; with_reducible exact Nvp.wf_of hn rfl rfl rfl)
    | (intro (n : Otp) hn; split <;> (with_reducible exact Otp.wf_of hn rfl rfl rfl rfl))
    | (intro (n : Otp) hn; with_reducible exact Otp.wf_of hn rfl rfl rfl rfl)
    | (intro (n : Upd) hn; split <;> (with_reducible exact Upd.wf_of hn rfl))
    | (intro (n : Upd) hn; with_reducible exact Upd.wf_of hn rfl)
    | (intro (n : EvStore) hn; rw [EvStore.wf_iff] at *; first | exact ⟨cellsWf_put 0 _ _ _ hn.1, hn.2⟩ | exact ⟨hn.1, cellsWf_put _ _ _ _ hn.2⟩ | exact ⟨cellsWf_filter 0 _ _ hn.1, hn.2⟩)
    | (intro (n : EvStore) hn; split <;> (with_reducible exact EvStore.wf_of hn rfl rfl))
    | (intro (n : EvStore) hn; with_reducible exact EvStore.wf_of hn rfl rfl)
    | (intro (n : Bbx) hn; split <;> (with_reducible exact EvStore.wf_of hn rfl rfl))
    | (intro (n : Bbx) hn; with_reducible exact EvStore.wf_eq hn rfl)
    | (intro (n : Bbx) hn; with_reducible exact EvStore.wf_of hn rfl rfl)
    | split)

theorem step_execNvpScrubRequest {s : State} : Answers [.regs, .chans, .nvp] s (execNvpScrubRequest s) := by
  unfold execNvpScrubRequest
  repeat' (first
    | with_reducible apply Step.refl
    | with_reducible assumption
    | exact Eq.refl true
    | with_reducible apply Answers.ok
    | (extract_lets +onlyGivenNames lv; first | ((first | refine Step.cut lv ?_ ?_ | refine Answers.cut lv ?_ ?_); unfold lv; clear lv; rotate_left; intro hx; clear_value lv; revert lv; intro _ _) | (revert lv; intro _))
    | with_reducible apply Step.after step_fullRead
    | with_reducible apply Step.after (step_modNvp ?_ ?_)
    | with_reducible apply Step.when
    | (with_reducible apply Step.foldl; intro fs fa)
    | (with_reducible apply Step.foldFin; intro fs fa)
    | (with_reducible apply Step.foldlFst; intro fs fa)
    | exact (fun _ => rfl)
    | (intro n; dsimp only; split <;> rfl)
    | (split; rename_i heq; have hx : (_ : State) = _ := congrArg Prod.snd heq; dsimp only at hx; subst hx)
    | (split; rename_i heq; have hx : (_ : State) = _ := congrArg Prod.fst heq; dsimp only at hx; subst hx)
    | (intro (n : Nvp) hn; simp only [Nvp.wf, Bool.and_eq_true] at hn ⊢; first | exact ⟨⟨nvpPuts_wf _ _ hn.1.1, hn.1.2⟩, hn.2⟩ | exact ⟨hn.1, rfl⟩)
    | (intro (n : Nvp) hn; split <;> (with_reducible exact Nvp.wf_of hn rfl rfl rfl))
    | (intro (n : Nvp) hn; with_reducible exact Nvp.wf_of hn rfl rfl rfl)
    | (intro (n : Otp) hn; split <;> (with_reducible exact Otp.wf_of hn rfl rfl rfl rfl))
    | (intro (n : Otp) hn; with_reducible exact Otp.wf_of hn rfl rfl rfl rfl)
    | (intro (n : Upd) hn; split <;> (with_reducible exact Upd.wf_of hn rfl))
    | (intro (n : Upd) hn; with_reducible exact Upd.wf_of hn rfl)
    | (intro (n : EvStore) hn; rw [EvStore.wf_iff] at *; first | exact ⟨cellsWf_put 0 _ _ _ hn.1, hn.2⟩ | exact ⟨hn.1, cellsWf_put _ _ _ _ hn.2⟩ | exact ⟨cellsWf_filter 0 _ _ hn.1, hn.2⟩)
    | (intro (n : EvStore) hn; split <;> (with_reducible exact EvStore.wf_of hn rfl rfl))
    | (intro (n : EvStore) hn; with_reducible exact EvStore.wf_of hn rfl rfl)
    | (intro (n : Bbx) hn; split <;> (with_reducible exact EvStore.wf_of hn rfl rfl))
    | (intro (n : Bbx) hn; with_reducible exact EvStore.wf_eq hn rfl)
    | (intro (n : Bbx) hn; with_reducible exact EvStore.wf_of hn rfl rfl)
    | split)

end Sys2Proof.Machine
end

