-- ==== Sys2Proof/Laws/State.lean ====
section
/-! SUPPORT. What each small update of State does to each field: one lemma per update and field, so that no proof unfolds a
record update. -/

set_option Elab.async false

namespace Sys2Proof.Machine

@[simp] theorem State.modArb_time (s : State) (x : Fin 2) (f : ArbUnit → ArbUnit) : (s.modArb x f).time = s.time := rfl
@[simp] theorem State.modArb_pending (s : State) (x : Fin 2) (f : ArbUnit → ArbUnit) : (s.modArb x f).pending = s.pending := rfl
@[simp] theorem State.modArb_freeCtr (s : State) (x : Fin 2) (f : ArbUnit → ArbUnit) : (s.modArb x f).freeCtr = s.freeCtr := rfl
@[simp] theorem State.modArb_tick (s : State) (x : Fin 2) (f : ArbUnit → ArbUnit) : (s.modArb x f).tick = s.tick := rfl
@[simp] theorem State.modArb_tickAt (s : State) (x : Fin 2) (f : ArbUnit → ArbUnit) : (s.modArb x f).tickAt = s.tickAt := rfl
@[simp] theorem State.modArb_regs (s : State) (x : Fin 2) (f : ArbUnit → ArbUnit) : (s.modArb x f).regs = s.regs := rfl
@[simp] theorem State.modArb_chans (s : State) (x : Fin 2) (f : ArbUnit → ArbUnit) : (s.modArb x f).chans = s.chans := rfl
@[simp] theorem State.modArb_aon (s : State) (x : Fin 2) (f : ArbUnit → ArbUnit) : (s.modArb x f).aon = s.aon := rfl
@[simp] theorem State.modArb_sys (s : State) (x : Fin 2) (f : ArbUnit → ArbUnit) : (s.modArb x f).sys = s.sys := rfl
@[simp] theorem State.modArb_sns (s : State) (x : Fin 2) (f : ArbUnit → ArbUnit) : (s.modArb x f).sns = s.sns := rfl
@[simp] theorem State.modArb_law (s : State) (x : Fin 2) (f : ArbUnit → ArbUnit) : (s.modArb x f).law = s.law := rfl
@[simp] theorem State.modArb_pwm (s : State) (x : Fin 2) (f : ArbUnit → ArbUnit) : (s.modArb x f).pwm = s.pwm := rfl
@[simp] theorem State.modArb_hbx (s : State) (x : Fin 2) (f : ArbUnit → ArbUnit) : (s.modArb x f).hbx = s.hbx := rfl
@[simp] theorem State.modArb_dkl (s : State) (x : Fin 2) (f : ArbUnit → ArbUnit) : (s.modArb x f).dkl = s.dkl := rfl
@[simp] theorem State.modArb_vat (s : State) (x : Fin 2) (f : ArbUnit → ArbUnit) : (s.modArb x f).vat = s.vat := rfl
@[simp] theorem State.modArb_bat (s : State) (x : Fin 2) (f : ArbUnit → ArbUnit) : (s.modArb x f).bat = s.bat := rfl
@[simp] theorem State.modArb_slt (s : State) (x : Fin 2) (f : ArbUnit → ArbUnit) : (s.modArb x f).slt = s.slt := rfl
@[simp] theorem State.modArb_slot (s : State) (x : Fin 2) (f : ArbUnit → ArbUnit) : (s.modArb x f).slot = s.slot := rfl
@[simp] theorem State.modArb_stage (s : State) (x : Fin 2) (f : ArbUnit → ArbUnit) : (s.modArb x f).stage = s.stage := rfl
@[simp] theorem State.modArb_red (s : State) (x : Fin 2) (f : ArbUnit → ArbUnit) : (s.modArb x f).red = s.red := rfl
@[simp] theorem State.modArb_arb (s : State) (x : Fin 2) (f : ArbUnit → ArbUnit) : (s.modArb x f).arb = { s.arb with u := modAt s.arb.u x f } := rfl
@[simp] theorem State.modArb_seq (s : State) (x : Fin 2) (f : ArbUnit → ArbUnit) : (s.modArb x f).seq = s.seq := rfl
@[simp] theorem State.modArb_thm (s : State) (x : Fin 2) (f : ArbUnit → ArbUnit) : (s.modArb x f).thm = s.thm := rfl
@[simp] theorem State.modArb_otp (s : State) (x : Fin 2) (f : ArbUnit → ArbUnit) : (s.modArb x f).otp = s.otp := rfl
@[simp] theorem State.modArb_nvp (s : State) (x : Fin 2) (f : ArbUnit → ArbUnit) : (s.modArb x f).nvp = s.nvp := rfl
@[simp] theorem State.modArb_bbx (s : State) (x : Fin 2) (f : ArbUnit → ArbUnit) : (s.modArb x f).bbx = s.bbx := rfl
@[simp] theorem State.modArb_upd (s : State) (x : Fin 2) (f : ArbUnit → ArbUnit) : (s.modArb x f).upd = s.upd := rfl
@[simp] theorem State.modArb_hst (s : State) (x : Fin 2) (f : ArbUnit → ArbUnit) : (s.modArb x f).hst = s.hst := rfl
@[simp] theorem State.modArb_evt (s : State) (x : Fin 2) (f : ArbUnit → ArbUnit) : (s.modArb x f).evt = s.evt := rfl
@[simp] theorem State.modArb_twp (s : State) (x : Fin 2) (f : ArbUnit → ArbUnit) : (s.modArb x f).twp = s.twp := rfl

@[simp] theorem State.modStr_time (s : State) (i : Fin 8) (f : Str → Str) : (s.modStr i f).time = s.time := rfl
@[simp] theorem State.modStr_pending (s : State) (i : Fin 8) (f : Str → Str) : (s.modStr i f).pending = s.pending := rfl
@[simp] theorem State.modStr_freeCtr (s : State) (i : Fin 8) (f : Str → Str) : (s.modStr i f).freeCtr = s.freeCtr := rfl
@[simp] theorem State.modStr_tick (s : State) (i : Fin 8) (f : Str → Str) : (s.modStr i f).tick = s.tick := rfl
@[simp] theorem State.modStr_tickAt (s : State) (i : Fin 8) (f : Str → Str) : (s.modStr i f).tickAt = s.tickAt := rfl
@[simp] theorem State.modStr_regs (s : State) (i : Fin 8) (f : Str → Str) : (s.modStr i f).regs = s.regs := rfl
@[simp] theorem State.modStr_chans (s : State) (i : Fin 8) (f : Str → Str) : (s.modStr i f).chans = s.chans := rfl
@[simp] theorem State.modStr_aon (s : State) (i : Fin 8) (f : Str → Str) : (s.modStr i f).aon = s.aon := rfl
@[simp] theorem State.modStr_sys (s : State) (i : Fin 8) (f : Str → Str) : (s.modStr i f).sys = s.sys := rfl
@[simp] theorem State.modStr_sns (s : State) (i : Fin 8) (f : Str → Str) : (s.modStr i f).sns = s.sns := rfl
@[simp] theorem State.modStr_law (s : State) (i : Fin 8) (f : Str → Str) : (s.modStr i f).law = s.law := rfl
@[simp] theorem State.modStr_pwm (s : State) (i : Fin 8) (f : Str → Str) : (s.modStr i f).pwm = s.pwm := rfl
@[simp] theorem State.modStr_hbx (s : State) (i : Fin 8) (f : Str → Str) : (s.modStr i f).hbx = s.hbx := rfl
@[simp] theorem State.modStr_dkl (s : State) (i : Fin 8) (f : Str → Str) : (s.modStr i f).dkl = s.dkl := rfl
@[simp] theorem State.modStr_vat (s : State) (i : Fin 8) (f : Str → Str) : (s.modStr i f).vat = s.vat := rfl
@[simp] theorem State.modStr_bat (s : State) (i : Fin 8) (f : Str → Str) : (s.modStr i f).bat = { s.bat with str := modAt s.bat.str i f } := rfl
@[simp] theorem State.modStr_slt (s : State) (i : Fin 8) (f : Str → Str) : (s.modStr i f).slt = s.slt := rfl
@[simp] theorem State.modStr_slot (s : State) (i : Fin 8) (f : Str → Str) : (s.modStr i f).slot = s.slot := rfl
@[simp] theorem State.modStr_stage (s : State) (i : Fin 8) (f : Str → Str) : (s.modStr i f).stage = s.stage := rfl
@[simp] theorem State.modStr_red (s : State) (i : Fin 8) (f : Str → Str) : (s.modStr i f).red = s.red := rfl
@[simp] theorem State.modStr_arb (s : State) (i : Fin 8) (f : Str → Str) : (s.modStr i f).arb = s.arb := rfl
@[simp] theorem State.modStr_seq (s : State) (i : Fin 8) (f : Str → Str) : (s.modStr i f).seq = s.seq := rfl
@[simp] theorem State.modStr_thm (s : State) (i : Fin 8) (f : Str → Str) : (s.modStr i f).thm = s.thm := rfl
@[simp] theorem State.modStr_otp (s : State) (i : Fin 8) (f : Str → Str) : (s.modStr i f).otp = s.otp := rfl
@[simp] theorem State.modStr_nvp (s : State) (i : Fin 8) (f : Str → Str) : (s.modStr i f).nvp = s.nvp := rfl
@[simp] theorem State.modStr_bbx (s : State) (i : Fin 8) (f : Str → Str) : (s.modStr i f).bbx = s.bbx := rfl
@[simp] theorem State.modStr_upd (s : State) (i : Fin 8) (f : Str → Str) : (s.modStr i f).upd = s.upd := rfl
@[simp] theorem State.modStr_hst (s : State) (i : Fin 8) (f : Str → Str) : (s.modStr i f).hst = s.hst := rfl
@[simp] theorem State.modStr_evt (s : State) (i : Fin 8) (f : Str → Str) : (s.modStr i f).evt = s.evt := rfl
@[simp] theorem State.modStr_twp (s : State) (i : Fin 8) (f : Str → Str) : (s.modStr i f).twp = s.twp := rfl

@[simp] theorem State.modBbx_time (s : State) (f : Bbx → Bbx) : (s.modBbx f).time = s.time := rfl
@[simp] theorem State.modBbx_pending (s : State) (f : Bbx → Bbx) : (s.modBbx f).pending = s.pending := rfl
@[simp] theorem State.modBbx_freeCtr (s : State) (f : Bbx → Bbx) : (s.modBbx f).freeCtr = s.freeCtr := rfl
@[simp] theorem State.modBbx_tick (s : State) (f : Bbx → Bbx) : (s.modBbx f).tick = s.tick := rfl
@[simp] theorem State.modBbx_tickAt (s : State) (f : Bbx → Bbx) : (s.modBbx f).tickAt = s.tickAt := rfl
@[simp] theorem State.modBbx_regs (s : State) (f : Bbx → Bbx) : (s.modBbx f).regs = s.regs := rfl
@[simp] theorem State.modBbx_chans (s : State) (f : Bbx → Bbx) : (s.modBbx f).chans = s.chans := rfl
@[simp] theorem State.modBbx_aon (s : State) (f : Bbx → Bbx) : (s.modBbx f).aon = s.aon := rfl
@[simp] theorem State.modBbx_sys (s : State) (f : Bbx → Bbx) : (s.modBbx f).sys = s.sys := rfl
@[simp] theorem State.modBbx_sns (s : State) (f : Bbx → Bbx) : (s.modBbx f).sns = s.sns := rfl
@[simp] theorem State.modBbx_law (s : State) (f : Bbx → Bbx) : (s.modBbx f).law = s.law := rfl
@[simp] theorem State.modBbx_pwm (s : State) (f : Bbx → Bbx) : (s.modBbx f).pwm = s.pwm := rfl
@[simp] theorem State.modBbx_hbx (s : State) (f : Bbx → Bbx) : (s.modBbx f).hbx = s.hbx := rfl
@[simp] theorem State.modBbx_dkl (s : State) (f : Bbx → Bbx) : (s.modBbx f).dkl = s.dkl := rfl
@[simp] theorem State.modBbx_vat (s : State) (f : Bbx → Bbx) : (s.modBbx f).vat = s.vat := rfl
@[simp] theorem State.modBbx_bat (s : State) (f : Bbx → Bbx) : (s.modBbx f).bat = s.bat := rfl
@[simp] theorem State.modBbx_slt (s : State) (f : Bbx → Bbx) : (s.modBbx f).slt = s.slt := rfl
@[simp] theorem State.modBbx_slot (s : State) (f : Bbx → Bbx) : (s.modBbx f).slot = s.slot := rfl
@[simp] theorem State.modBbx_stage (s : State) (f : Bbx → Bbx) : (s.modBbx f).stage = s.stage := rfl
@[simp] theorem State.modBbx_red (s : State) (f : Bbx → Bbx) : (s.modBbx f).red = s.red := rfl
@[simp] theorem State.modBbx_arb (s : State) (f : Bbx → Bbx) : (s.modBbx f).arb = s.arb := rfl
@[simp] theorem State.modBbx_seq (s : State) (f : Bbx → Bbx) : (s.modBbx f).seq = s.seq := rfl
@[simp] theorem State.modBbx_thm (s : State) (f : Bbx → Bbx) : (s.modBbx f).thm = s.thm := rfl
@[simp] theorem State.modBbx_otp (s : State) (f : Bbx → Bbx) : (s.modBbx f).otp = s.otp := rfl
@[simp] theorem State.modBbx_nvp (s : State) (f : Bbx → Bbx) : (s.modBbx f).nvp = s.nvp := rfl
@[simp] theorem State.modBbx_bbx (s : State) (f : Bbx → Bbx) : (s.modBbx f).bbx = f s.bbx := rfl
@[simp] theorem State.modBbx_upd (s : State) (f : Bbx → Bbx) : (s.modBbx f).upd = s.upd := rfl
@[simp] theorem State.modBbx_hst (s : State) (f : Bbx → Bbx) : (s.modBbx f).hst = s.hst := rfl
@[simp] theorem State.modBbx_evt (s : State) (f : Bbx → Bbx) : (s.modBbx f).evt = s.evt := rfl
@[simp] theorem State.modBbx_twp (s : State) (f : Bbx → Bbx) : (s.modBbx f).twp = s.twp := rfl

@[simp] theorem State.modOtp_time (s : State) (f : Otp → Otp) : (s.modOtp f).time = s.time := rfl
@[simp] theorem State.modOtp_pending (s : State) (f : Otp → Otp) : (s.modOtp f).pending = s.pending := rfl
@[simp] theorem State.modOtp_freeCtr (s : State) (f : Otp → Otp) : (s.modOtp f).freeCtr = s.freeCtr := rfl
@[simp] theorem State.modOtp_tick (s : State) (f : Otp → Otp) : (s.modOtp f).tick = s.tick := rfl
@[simp] theorem State.modOtp_tickAt (s : State) (f : Otp → Otp) : (s.modOtp f).tickAt = s.tickAt := rfl
@[simp] theorem State.modOtp_regs (s : State) (f : Otp → Otp) : (s.modOtp f).regs = s.regs := rfl
@[simp] theorem State.modOtp_chans (s : State) (f : Otp → Otp) : (s.modOtp f).chans = s.chans := rfl
@[simp] theorem State.modOtp_aon (s : State) (f : Otp → Otp) : (s.modOtp f).aon = s.aon := rfl
@[simp] theorem State.modOtp_sys (s : State) (f : Otp → Otp) : (s.modOtp f).sys = s.sys := rfl
@[simp] theorem State.modOtp_sns (s : State) (f : Otp → Otp) : (s.modOtp f).sns = s.sns := rfl
@[simp] theorem State.modOtp_law (s : State) (f : Otp → Otp) : (s.modOtp f).law = s.law := rfl
@[simp] theorem State.modOtp_pwm (s : State) (f : Otp → Otp) : (s.modOtp f).pwm = s.pwm := rfl
@[simp] theorem State.modOtp_hbx (s : State) (f : Otp → Otp) : (s.modOtp f).hbx = s.hbx := rfl
@[simp] theorem State.modOtp_dkl (s : State) (f : Otp → Otp) : (s.modOtp f).dkl = s.dkl := rfl
@[simp] theorem State.modOtp_vat (s : State) (f : Otp → Otp) : (s.modOtp f).vat = s.vat := rfl
@[simp] theorem State.modOtp_bat (s : State) (f : Otp → Otp) : (s.modOtp f).bat = s.bat := rfl
@[simp] theorem State.modOtp_slt (s : State) (f : Otp → Otp) : (s.modOtp f).slt = s.slt := rfl
@[simp] theorem State.modOtp_slot (s : State) (f : Otp → Otp) : (s.modOtp f).slot = s.slot := rfl
@[simp] theorem State.modOtp_stage (s : State) (f : Otp → Otp) : (s.modOtp f).stage = s.stage := rfl
@[simp] theorem State.modOtp_red (s : State) (f : Otp → Otp) : (s.modOtp f).red = s.red := rfl
@[simp] theorem State.modOtp_arb (s : State) (f : Otp → Otp) : (s.modOtp f).arb = s.arb := rfl
@[simp] theorem State.modOtp_seq (s : State) (f : Otp → Otp) : (s.modOtp f).seq = s.seq := rfl
@[simp] theorem State.modOtp_thm (s : State) (f : Otp → Otp) : (s.modOtp f).thm = s.thm := rfl
@[simp] theorem State.modOtp_otp (s : State) (f : Otp → Otp) : (s.modOtp f).otp = f s.otp := rfl
@[simp] theorem State.modOtp_nvp (s : State) (f : Otp → Otp) : (s.modOtp f).nvp = s.nvp := rfl
@[simp] theorem State.modOtp_bbx (s : State) (f : Otp → Otp) : (s.modOtp f).bbx = s.bbx := rfl
@[simp] theorem State.modOtp_upd (s : State) (f : Otp → Otp) : (s.modOtp f).upd = s.upd := rfl
@[simp] theorem State.modOtp_hst (s : State) (f : Otp → Otp) : (s.modOtp f).hst = s.hst := rfl
@[simp] theorem State.modOtp_evt (s : State) (f : Otp → Otp) : (s.modOtp f).evt = s.evt := rfl
@[simp] theorem State.modOtp_twp (s : State) (f : Otp → Otp) : (s.modOtp f).twp = s.twp := rfl

@[simp] theorem State.modSrc_time (s : State) (k : Fin 40) (f : Src → Src) : (s.modSrc k f).time = s.time := rfl
@[simp] theorem State.modSrc_pending (s : State) (k : Fin 40) (f : Src → Src) : (s.modSrc k f).pending = s.pending := rfl
@[simp] theorem State.modSrc_freeCtr (s : State) (k : Fin 40) (f : Src → Src) : (s.modSrc k f).freeCtr = s.freeCtr := rfl
@[simp] theorem State.modSrc_tick (s : State) (k : Fin 40) (f : Src → Src) : (s.modSrc k f).tick = s.tick := rfl
@[simp] theorem State.modSrc_tickAt (s : State) (k : Fin 40) (f : Src → Src) : (s.modSrc k f).tickAt = s.tickAt := rfl
@[simp] theorem State.modSrc_regs (s : State) (k : Fin 40) (f : Src → Src) : (s.modSrc k f).regs = s.regs := rfl
@[simp] theorem State.modSrc_chans (s : State) (k : Fin 40) (f : Src → Src) : (s.modSrc k f).chans = s.chans := rfl
@[simp] theorem State.modSrc_aon (s : State) (k : Fin 40) (f : Src → Src) : (s.modSrc k f).aon = s.aon := rfl
@[simp] theorem State.modSrc_sys (s : State) (k : Fin 40) (f : Src → Src) : (s.modSrc k f).sys = s.sys := rfl
@[simp] theorem State.modSrc_sns (s : State) (k : Fin 40) (f : Src → Src) : (s.modSrc k f).sns = s.sns := rfl
@[simp] theorem State.modSrc_law (s : State) (k : Fin 40) (f : Src → Src) : (s.modSrc k f).law = s.law := rfl
@[simp] theorem State.modSrc_pwm (s : State) (k : Fin 40) (f : Src → Src) : (s.modSrc k f).pwm = s.pwm := rfl
@[simp] theorem State.modSrc_hbx (s : State) (k : Fin 40) (f : Src → Src) : (s.modSrc k f).hbx = { s.hbx with src := modAt s.hbx.src k f } := rfl
@[simp] theorem State.modSrc_dkl (s : State) (k : Fin 40) (f : Src → Src) : (s.modSrc k f).dkl = s.dkl := rfl
@[simp] theorem State.modSrc_vat (s : State) (k : Fin 40) (f : Src → Src) : (s.modSrc k f).vat = s.vat := rfl
@[simp] theorem State.modSrc_bat (s : State) (k : Fin 40) (f : Src → Src) : (s.modSrc k f).bat = s.bat := rfl
@[simp] theorem State.modSrc_slt (s : State) (k : Fin 40) (f : Src → Src) : (s.modSrc k f).slt = s.slt := rfl
@[simp] theorem State.modSrc_slot (s : State) (k : Fin 40) (f : Src → Src) : (s.modSrc k f).slot = s.slot := rfl
@[simp] theorem State.modSrc_stage (s : State) (k : Fin 40) (f : Src → Src) : (s.modSrc k f).stage = s.stage := rfl
@[simp] theorem State.modSrc_red (s : State) (k : Fin 40) (f : Src → Src) : (s.modSrc k f).red = s.red := rfl
@[simp] theorem State.modSrc_arb (s : State) (k : Fin 40) (f : Src → Src) : (s.modSrc k f).arb = s.arb := rfl
@[simp] theorem State.modSrc_seq (s : State) (k : Fin 40) (f : Src → Src) : (s.modSrc k f).seq = s.seq := rfl
@[simp] theorem State.modSrc_thm (s : State) (k : Fin 40) (f : Src → Src) : (s.modSrc k f).thm = s.thm := rfl
@[simp] theorem State.modSrc_otp (s : State) (k : Fin 40) (f : Src → Src) : (s.modSrc k f).otp = s.otp := rfl
@[simp] theorem State.modSrc_nvp (s : State) (k : Fin 40) (f : Src → Src) : (s.modSrc k f).nvp = s.nvp := rfl
@[simp] theorem State.modSrc_bbx (s : State) (k : Fin 40) (f : Src → Src) : (s.modSrc k f).bbx = s.bbx := rfl
@[simp] theorem State.modSrc_upd (s : State) (k : Fin 40) (f : Src → Src) : (s.modSrc k f).upd = s.upd := rfl
@[simp] theorem State.modSrc_hst (s : State) (k : Fin 40) (f : Src → Src) : (s.modSrc k f).hst = s.hst := rfl
@[simp] theorem State.modSrc_evt (s : State) (k : Fin 40) (f : Src → Src) : (s.modSrc k f).evt = s.evt := rfl
@[simp] theorem State.modSrc_twp (s : State) (k : Fin 40) (f : Src → Src) : (s.modSrc k f).twp = s.twp := rfl

@[simp] theorem State.modFeed_time (s : State) (k : Fin 9) (f : Feed → Feed) : (s.modFeed k f).time = s.time := rfl
@[simp] theorem State.modFeed_pending (s : State) (k : Fin 9) (f : Feed → Feed) : (s.modFeed k f).pending = s.pending := rfl
@[simp] theorem State.modFeed_freeCtr (s : State) (k : Fin 9) (f : Feed → Feed) : (s.modFeed k f).freeCtr = s.freeCtr := rfl
@[simp] theorem State.modFeed_tick (s : State) (k : Fin 9) (f : Feed → Feed) : (s.modFeed k f).tick = s.tick := rfl
@[simp] theorem State.modFeed_tickAt (s : State) (k : Fin 9) (f : Feed → Feed) : (s.modFeed k f).tickAt = s.tickAt := rfl
@[simp] theorem State.modFeed_regs (s : State) (k : Fin 9) (f : Feed → Feed) : (s.modFeed k f).regs = s.regs := rfl
@[simp] theorem State.modFeed_chans (s : State) (k : Fin 9) (f : Feed → Feed) : (s.modFeed k f).chans = s.chans := rfl
@[simp] theorem State.modFeed_aon (s : State) (k : Fin 9) (f : Feed → Feed) : (s.modFeed k f).aon = s.aon := rfl
@[simp] theorem State.modFeed_sys (s : State) (k : Fin 9) (f : Feed → Feed) : (s.modFeed k f).sys = s.sys := rfl
@[simp] theorem State.modFeed_sns (s : State) (k : Fin 9) (f : Feed → Feed) : (s.modFeed k f).sns = s.sns := rfl
@[simp] theorem State.modFeed_law (s : State) (k : Fin 9) (f : Feed → Feed) : (s.modFeed k f).law = s.law := rfl
@[simp] theorem State.modFeed_pwm (s : State) (k : Fin 9) (f : Feed → Feed) : (s.modFeed k f).pwm = s.pwm := rfl
@[simp] theorem State.modFeed_hbx (s : State) (k : Fin 9) (f : Feed → Feed) : (s.modFeed k f).hbx = s.hbx := rfl
@[simp] theorem State.modFeed_dkl (s : State) (k : Fin 9) (f : Feed → Feed) : (s.modFeed k f).dkl = { s.dkl with fd := modAt s.dkl.fd k f } := rfl
@[simp] theorem State.modFeed_vat (s : State) (k : Fin 9) (f : Feed → Feed) : (s.modFeed k f).vat = s.vat := rfl
@[simp] theorem State.modFeed_bat (s : State) (k : Fin 9) (f : Feed → Feed) : (s.modFeed k f).bat = s.bat := rfl
@[simp] theorem State.modFeed_slt (s : State) (k : Fin 9) (f : Feed → Feed) : (s.modFeed k f).slt = s.slt := rfl
@[simp] theorem State.modFeed_slot (s : State) (k : Fin 9) (f : Feed → Feed) : (s.modFeed k f).slot = s.slot := rfl
@[simp] theorem State.modFeed_stage (s : State) (k : Fin 9) (f : Feed → Feed) : (s.modFeed k f).stage = s.stage := rfl
@[simp] theorem State.modFeed_red (s : State) (k : Fin 9) (f : Feed → Feed) : (s.modFeed k f).red = s.red := rfl
@[simp] theorem State.modFeed_arb (s : State) (k : Fin 9) (f : Feed → Feed) : (s.modFeed k f).arb = s.arb := rfl
@[simp] theorem State.modFeed_seq (s : State) (k : Fin 9) (f : Feed → Feed) : (s.modFeed k f).seq = s.seq := rfl
@[simp] theorem State.modFeed_thm (s : State) (k : Fin 9) (f : Feed → Feed) : (s.modFeed k f).thm = s.thm := rfl
@[simp] theorem State.modFeed_otp (s : State) (k : Fin 9) (f : Feed → Feed) : (s.modFeed k f).otp = s.otp := rfl
@[simp] theorem State.modFeed_nvp (s : State) (k : Fin 9) (f : Feed → Feed) : (s.modFeed k f).nvp = s.nvp := rfl
@[simp] theorem State.modFeed_bbx (s : State) (k : Fin 9) (f : Feed → Feed) : (s.modFeed k f).bbx = s.bbx := rfl
@[simp] theorem State.modFeed_upd (s : State) (k : Fin 9) (f : Feed → Feed) : (s.modFeed k f).upd = s.upd := rfl
@[simp] theorem State.modFeed_hst (s : State) (k : Fin 9) (f : Feed → Feed) : (s.modFeed k f).hst = s.hst := rfl
@[simp] theorem State.modFeed_evt (s : State) (k : Fin 9) (f : Feed → Feed) : (s.modFeed k f).evt = s.evt := rfl
@[simp] theorem State.modFeed_twp (s : State) (k : Fin 9) (f : Feed → Feed) : (s.modFeed k f).twp = s.twp := rfl

@[simp] theorem State.modEng_time (s : State) (e : Fin 20) (f : Engine → Engine) : (s.modEng e f).time = s.time := rfl
@[simp] theorem State.modEng_pending (s : State) (e : Fin 20) (f : Engine → Engine) : (s.modEng e f).pending = s.pending := rfl
@[simp] theorem State.modEng_freeCtr (s : State) (e : Fin 20) (f : Engine → Engine) : (s.modEng e f).freeCtr = s.freeCtr := rfl
@[simp] theorem State.modEng_tick (s : State) (e : Fin 20) (f : Engine → Engine) : (s.modEng e f).tick = s.tick := rfl
@[simp] theorem State.modEng_tickAt (s : State) (e : Fin 20) (f : Engine → Engine) : (s.modEng e f).tickAt = s.tickAt := rfl
@[simp] theorem State.modEng_regs (s : State) (e : Fin 20) (f : Engine → Engine) : (s.modEng e f).regs = s.regs := rfl
@[simp] theorem State.modEng_chans (s : State) (e : Fin 20) (f : Engine → Engine) : (s.modEng e f).chans = s.chans := rfl
@[simp] theorem State.modEng_aon (s : State) (e : Fin 20) (f : Engine → Engine) : (s.modEng e f).aon = s.aon := rfl
@[simp] theorem State.modEng_sys (s : State) (e : Fin 20) (f : Engine → Engine) : (s.modEng e f).sys = s.sys := rfl
@[simp] theorem State.modEng_sns (s : State) (e : Fin 20) (f : Engine → Engine) : (s.modEng e f).sns = s.sns := rfl
@[simp] theorem State.modEng_law (s : State) (e : Fin 20) (f : Engine → Engine) : (s.modEng e f).law = { s.law with eng := modAt s.law.eng e f } := rfl
@[simp] theorem State.modEng_pwm (s : State) (e : Fin 20) (f : Engine → Engine) : (s.modEng e f).pwm = s.pwm := rfl
@[simp] theorem State.modEng_hbx (s : State) (e : Fin 20) (f : Engine → Engine) : (s.modEng e f).hbx = s.hbx := rfl
@[simp] theorem State.modEng_dkl (s : State) (e : Fin 20) (f : Engine → Engine) : (s.modEng e f).dkl = s.dkl := rfl
@[simp] theorem State.modEng_vat (s : State) (e : Fin 20) (f : Engine → Engine) : (s.modEng e f).vat = s.vat := rfl
@[simp] theorem State.modEng_bat (s : State) (e : Fin 20) (f : Engine → Engine) : (s.modEng e f).bat = s.bat := rfl
@[simp] theorem State.modEng_slt (s : State) (e : Fin 20) (f : Engine → Engine) : (s.modEng e f).slt = s.slt := rfl
@[simp] theorem State.modEng_slot (s : State) (e : Fin 20) (f : Engine → Engine) : (s.modEng e f).slot = s.slot := rfl
@[simp] theorem State.modEng_stage (s : State) (e : Fin 20) (f : Engine → Engine) : (s.modEng e f).stage = s.stage := rfl
@[simp] theorem State.modEng_red (s : State) (e : Fin 20) (f : Engine → Engine) : (s.modEng e f).red = s.red := rfl
@[simp] theorem State.modEng_arb (s : State) (e : Fin 20) (f : Engine → Engine) : (s.modEng e f).arb = s.arb := rfl
@[simp] theorem State.modEng_seq (s : State) (e : Fin 20) (f : Engine → Engine) : (s.modEng e f).seq = s.seq := rfl
@[simp] theorem State.modEng_thm (s : State) (e : Fin 20) (f : Engine → Engine) : (s.modEng e f).thm = s.thm := rfl
@[simp] theorem State.modEng_otp (s : State) (e : Fin 20) (f : Engine → Engine) : (s.modEng e f).otp = s.otp := rfl
@[simp] theorem State.modEng_nvp (s : State) (e : Fin 20) (f : Engine → Engine) : (s.modEng e f).nvp = s.nvp := rfl
@[simp] theorem State.modEng_bbx (s : State) (e : Fin 20) (f : Engine → Engine) : (s.modEng e f).bbx = s.bbx := rfl
@[simp] theorem State.modEng_upd (s : State) (e : Fin 20) (f : Engine → Engine) : (s.modEng e f).upd = s.upd := rfl
@[simp] theorem State.modEng_hst (s : State) (e : Fin 20) (f : Engine → Engine) : (s.modEng e f).hst = s.hst := rfl
@[simp] theorem State.modEng_evt (s : State) (e : Fin 20) (f : Engine → Engine) : (s.modEng e f).evt = s.evt := rfl
@[simp] theorem State.modEng_twp (s : State) (e : Fin 20) (f : Engine → Engine) : (s.modEng e f).twp = s.twp := rfl

@[simp] theorem State.modPhase_time (s : State) (j : Fin 24) (f : Phase → Phase) : (s.modPhase j f).time = s.time := rfl
@[simp] theorem State.modPhase_pending (s : State) (j : Fin 24) (f : Phase → Phase) : (s.modPhase j f).pending = s.pending := rfl
@[simp] theorem State.modPhase_freeCtr (s : State) (j : Fin 24) (f : Phase → Phase) : (s.modPhase j f).freeCtr = s.freeCtr := rfl
@[simp] theorem State.modPhase_tick (s : State) (j : Fin 24) (f : Phase → Phase) : (s.modPhase j f).tick = s.tick := rfl
@[simp] theorem State.modPhase_tickAt (s : State) (j : Fin 24) (f : Phase → Phase) : (s.modPhase j f).tickAt = s.tickAt := rfl
@[simp] theorem State.modPhase_regs (s : State) (j : Fin 24) (f : Phase → Phase) : (s.modPhase j f).regs = s.regs := rfl
@[simp] theorem State.modPhase_chans (s : State) (j : Fin 24) (f : Phase → Phase) : (s.modPhase j f).chans = s.chans := rfl
@[simp] theorem State.modPhase_aon (s : State) (j : Fin 24) (f : Phase → Phase) : (s.modPhase j f).aon = s.aon := rfl
@[simp] theorem State.modPhase_sys (s : State) (j : Fin 24) (f : Phase → Phase) : (s.modPhase j f).sys = s.sys := rfl
@[simp] theorem State.modPhase_sns (s : State) (j : Fin 24) (f : Phase → Phase) : (s.modPhase j f).sns = s.sns := rfl
@[simp] theorem State.modPhase_law (s : State) (j : Fin 24) (f : Phase → Phase) : (s.modPhase j f).law = s.law := rfl
@[simp] theorem State.modPhase_pwm (s : State) (j : Fin 24) (f : Phase → Phase) : (s.modPhase j f).pwm = { s.pwm with ph := modAt s.pwm.ph j f } := rfl
@[simp] theorem State.modPhase_hbx (s : State) (j : Fin 24) (f : Phase → Phase) : (s.modPhase j f).hbx = s.hbx := rfl
@[simp] theorem State.modPhase_dkl (s : State) (j : Fin 24) (f : Phase → Phase) : (s.modPhase j f).dkl = s.dkl := rfl
@[simp] theorem State.modPhase_vat (s : State) (j : Fin 24) (f : Phase → Phase) : (s.modPhase j f).vat = s.vat := rfl
@[simp] theorem State.modPhase_bat (s : State) (j : Fin 24) (f : Phase → Phase) : (s.modPhase j f).bat = s.bat := rfl
@[simp] theorem State.modPhase_slt (s : State) (j : Fin 24) (f : Phase → Phase) : (s.modPhase j f).slt = s.slt := rfl
@[simp] theorem State.modPhase_slot (s : State) (j : Fin 24) (f : Phase → Phase) : (s.modPhase j f).slot = s.slot := rfl
@[simp] theorem State.modPhase_stage (s : State) (j : Fin 24) (f : Phase → Phase) : (s.modPhase j f).stage = s.stage := rfl
@[simp] theorem State.modPhase_red (s : State) (j : Fin 24) (f : Phase → Phase) : (s.modPhase j f).red = s.red := rfl
@[simp] theorem State.modPhase_arb (s : State) (j : Fin 24) (f : Phase → Phase) : (s.modPhase j f).arb = s.arb := rfl
@[simp] theorem State.modPhase_seq (s : State) (j : Fin 24) (f : Phase → Phase) : (s.modPhase j f).seq = s.seq := rfl
@[simp] theorem State.modPhase_thm (s : State) (j : Fin 24) (f : Phase → Phase) : (s.modPhase j f).thm = s.thm := rfl
@[simp] theorem State.modPhase_otp (s : State) (j : Fin 24) (f : Phase → Phase) : (s.modPhase j f).otp = s.otp := rfl
@[simp] theorem State.modPhase_nvp (s : State) (j : Fin 24) (f : Phase → Phase) : (s.modPhase j f).nvp = s.nvp := rfl
@[simp] theorem State.modPhase_bbx (s : State) (j : Fin 24) (f : Phase → Phase) : (s.modPhase j f).bbx = s.bbx := rfl
@[simp] theorem State.modPhase_upd (s : State) (j : Fin 24) (f : Phase → Phase) : (s.modPhase j f).upd = s.upd := rfl
@[simp] theorem State.modPhase_hst (s : State) (j : Fin 24) (f : Phase → Phase) : (s.modPhase j f).hst = s.hst := rfl
@[simp] theorem State.modPhase_evt (s : State) (j : Fin 24) (f : Phase → Phase) : (s.modPhase j f).evt = s.evt := rfl
@[simp] theorem State.modPhase_twp (s : State) (j : Fin 24) (f : Phase → Phase) : (s.modPhase j f).twp = s.twp := rfl

@[simp] theorem State.modRail_time (s : State) (n : Fin 8) (f : Rail → Rail) : (s.modRail n f).time = s.time := rfl
@[simp] theorem State.modRail_pending (s : State) (n : Fin 8) (f : Rail → Rail) : (s.modRail n f).pending = s.pending := rfl
@[simp] theorem State.modRail_freeCtr (s : State) (n : Fin 8) (f : Rail → Rail) : (s.modRail n f).freeCtr = s.freeCtr := rfl
@[simp] theorem State.modRail_tick (s : State) (n : Fin 8) (f : Rail → Rail) : (s.modRail n f).tick = s.tick := rfl
@[simp] theorem State.modRail_tickAt (s : State) (n : Fin 8) (f : Rail → Rail) : (s.modRail n f).tickAt = s.tickAt := rfl
@[simp] theorem State.modRail_regs (s : State) (n : Fin 8) (f : Rail → Rail) : (s.modRail n f).regs = s.regs := rfl
@[simp] theorem State.modRail_chans (s : State) (n : Fin 8) (f : Rail → Rail) : (s.modRail n f).chans = s.chans := rfl
@[simp] theorem State.modRail_aon (s : State) (n : Fin 8) (f : Rail → Rail) : (s.modRail n f).aon = s.aon := rfl
@[simp] theorem State.modRail_sys (s : State) (n : Fin 8) (f : Rail → Rail) : (s.modRail n f).sys = s.sys := rfl
@[simp] theorem State.modRail_sns (s : State) (n : Fin 8) (f : Rail → Rail) : (s.modRail n f).sns = s.sns := rfl
@[simp] theorem State.modRail_law (s : State) (n : Fin 8) (f : Rail → Rail) : (s.modRail n f).law = s.law := rfl
@[simp] theorem State.modRail_pwm (s : State) (n : Fin 8) (f : Rail → Rail) : (s.modRail n f).pwm = { s.pwm with rail := modAt s.pwm.rail n f } := rfl
@[simp] theorem State.modRail_hbx (s : State) (n : Fin 8) (f : Rail → Rail) : (s.modRail n f).hbx = s.hbx := rfl
@[simp] theorem State.modRail_dkl (s : State) (n : Fin 8) (f : Rail → Rail) : (s.modRail n f).dkl = s.dkl := rfl
@[simp] theorem State.modRail_vat (s : State) (n : Fin 8) (f : Rail → Rail) : (s.modRail n f).vat = s.vat := rfl
@[simp] theorem State.modRail_bat (s : State) (n : Fin 8) (f : Rail → Rail) : (s.modRail n f).bat = s.bat := rfl
@[simp] theorem State.modRail_slt (s : State) (n : Fin 8) (f : Rail → Rail) : (s.modRail n f).slt = s.slt := rfl
@[simp] theorem State.modRail_slot (s : State) (n : Fin 8) (f : Rail → Rail) : (s.modRail n f).slot = s.slot := rfl
@[simp] theorem State.modRail_stage (s : State) (n : Fin 8) (f : Rail → Rail) : (s.modRail n f).stage = s.stage := rfl
@[simp] theorem State.modRail_red (s : State) (n : Fin 8) (f : Rail → Rail) : (s.modRail n f).red = s.red := rfl
@[simp] theorem State.modRail_arb (s : State) (n : Fin 8) (f : Rail → Rail) : (s.modRail n f).arb = s.arb := rfl
@[simp] theorem State.modRail_seq (s : State) (n : Fin 8) (f : Rail → Rail) : (s.modRail n f).seq = s.seq := rfl
@[simp] theorem State.modRail_thm (s : State) (n : Fin 8) (f : Rail → Rail) : (s.modRail n f).thm = s.thm := rfl
@[simp] theorem State.modRail_otp (s : State) (n : Fin 8) (f : Rail → Rail) : (s.modRail n f).otp = s.otp := rfl
@[simp] theorem State.modRail_nvp (s : State) (n : Fin 8) (f : Rail → Rail) : (s.modRail n f).nvp = s.nvp := rfl
@[simp] theorem State.modRail_bbx (s : State) (n : Fin 8) (f : Rail → Rail) : (s.modRail n f).bbx = s.bbx := rfl
@[simp] theorem State.modRail_upd (s : State) (n : Fin 8) (f : Rail → Rail) : (s.modRail n f).upd = s.upd := rfl
@[simp] theorem State.modRail_hst (s : State) (n : Fin 8) (f : Rail → Rail) : (s.modRail n f).hst = s.hst := rfl
@[simp] theorem State.modRail_evt (s : State) (n : Fin 8) (f : Rail → Rail) : (s.modRail n f).evt = s.evt := rfl
@[simp] theorem State.modRail_twp (s : State) (n : Fin 8) (f : Rail → Rail) : (s.modRail n f).twp = s.twp := rfl

@[simp] theorem State.modRed_time (s : State) (f : Red → Red) : (s.modRed f).time = s.time := rfl
@[simp] theorem State.modRed_pending (s : State) (f : Red → Red) : (s.modRed f).pending = s.pending := rfl
@[simp] theorem State.modRed_freeCtr (s : State) (f : Red → Red) : (s.modRed f).freeCtr = s.freeCtr := rfl
@[simp] theorem State.modRed_tick (s : State) (f : Red → Red) : (s.modRed f).tick = s.tick := rfl
@[simp] theorem State.modRed_tickAt (s : State) (f : Red → Red) : (s.modRed f).tickAt = s.tickAt := rfl
@[simp] theorem State.modRed_regs (s : State) (f : Red → Red) : (s.modRed f).regs = s.regs := rfl
@[simp] theorem State.modRed_chans (s : State) (f : Red → Red) : (s.modRed f).chans = s.chans := rfl
@[simp] theorem State.modRed_aon (s : State) (f : Red → Red) : (s.modRed f).aon = s.aon := rfl
@[simp] theorem State.modRed_sys (s : State) (f : Red → Red) : (s.modRed f).sys = s.sys := rfl
@[simp] theorem State.modRed_sns (s : State) (f : Red → Red) : (s.modRed f).sns = s.sns := rfl
@[simp] theorem State.modRed_law (s : State) (f : Red → Red) : (s.modRed f).law = s.law := rfl
@[simp] theorem State.modRed_pwm (s : State) (f : Red → Red) : (s.modRed f).pwm = s.pwm := rfl
@[simp] theorem State.modRed_hbx (s : State) (f : Red → Red) : (s.modRed f).hbx = s.hbx := rfl
@[simp] theorem State.modRed_dkl (s : State) (f : Red → Red) : (s.modRed f).dkl = s.dkl := rfl
@[simp] theorem State.modRed_vat (s : State) (f : Red → Red) : (s.modRed f).vat = s.vat := rfl
@[simp] theorem State.modRed_bat (s : State) (f : Red → Red) : (s.modRed f).bat = s.bat := rfl
@[simp] theorem State.modRed_slt (s : State) (f : Red → Red) : (s.modRed f).slt = s.slt := rfl
@[simp] theorem State.modRed_slot (s : State) (f : Red → Red) : (s.modRed f).slot = s.slot := rfl
@[simp] theorem State.modRed_stage (s : State) (f : Red → Red) : (s.modRed f).stage = s.stage := rfl
@[simp] theorem State.modRed_red (s : State) (f : Red → Red) : (s.modRed f).red = f s.red := rfl
@[simp] theorem State.modRed_arb (s : State) (f : Red → Red) : (s.modRed f).arb = s.arb := rfl
@[simp] theorem State.modRed_seq (s : State) (f : Red → Red) : (s.modRed f).seq = s.seq := rfl
@[simp] theorem State.modRed_thm (s : State) (f : Red → Red) : (s.modRed f).thm = s.thm := rfl
@[simp] theorem State.modRed_otp (s : State) (f : Red → Red) : (s.modRed f).otp = s.otp := rfl
@[simp] theorem State.modRed_nvp (s : State) (f : Red → Red) : (s.modRed f).nvp = s.nvp := rfl
@[simp] theorem State.modRed_bbx (s : State) (f : Red → Red) : (s.modRed f).bbx = s.bbx := rfl
@[simp] theorem State.modRed_upd (s : State) (f : Red → Red) : (s.modRed f).upd = s.upd := rfl
@[simp] theorem State.modRed_hst (s : State) (f : Red → Red) : (s.modRed f).hst = s.hst := rfl
@[simp] theorem State.modRed_evt (s : State) (f : Red → Red) : (s.modRed f).evt = s.evt := rfl
@[simp] theorem State.modRed_twp (s : State) (f : Red → Red) : (s.modRed f).twp = s.twp := rfl

@[simp] theorem State.modStage_time (s : State) (j : Fin 24) (f : StageMod → StageMod) : (s.modStage j f).time = s.time := rfl
@[simp] theorem State.modStage_pending (s : State) (j : Fin 24) (f : StageMod → StageMod) : (s.modStage j f).pending = s.pending := rfl
@[simp] theorem State.modStage_freeCtr (s : State) (j : Fin 24) (f : StageMod → StageMod) : (s.modStage j f).freeCtr = s.freeCtr := rfl
@[simp] theorem State.modStage_tick (s : State) (j : Fin 24) (f : StageMod → StageMod) : (s.modStage j f).tick = s.tick := rfl
@[simp] theorem State.modStage_tickAt (s : State) (j : Fin 24) (f : StageMod → StageMod) : (s.modStage j f).tickAt = s.tickAt := rfl
@[simp] theorem State.modStage_regs (s : State) (j : Fin 24) (f : StageMod → StageMod) : (s.modStage j f).regs = s.regs := rfl
@[simp] theorem State.modStage_chans (s : State) (j : Fin 24) (f : StageMod → StageMod) : (s.modStage j f).chans = s.chans := rfl
@[simp] theorem State.modStage_aon (s : State) (j : Fin 24) (f : StageMod → StageMod) : (s.modStage j f).aon = s.aon := rfl
@[simp] theorem State.modStage_sys (s : State) (j : Fin 24) (f : StageMod → StageMod) : (s.modStage j f).sys = s.sys := rfl
@[simp] theorem State.modStage_sns (s : State) (j : Fin 24) (f : StageMod → StageMod) : (s.modStage j f).sns = s.sns := rfl
@[simp] theorem State.modStage_law (s : State) (j : Fin 24) (f : StageMod → StageMod) : (s.modStage j f).law = s.law := rfl
@[simp] theorem State.modStage_pwm (s : State) (j : Fin 24) (f : StageMod → StageMod) : (s.modStage j f).pwm = s.pwm := rfl
@[simp] theorem State.modStage_hbx (s : State) (j : Fin 24) (f : StageMod → StageMod) : (s.modStage j f).hbx = s.hbx := rfl
@[simp] theorem State.modStage_dkl (s : State) (j : Fin 24) (f : StageMod → StageMod) : (s.modStage j f).dkl = s.dkl := rfl
@[simp] theorem State.modStage_vat (s : State) (j : Fin 24) (f : StageMod → StageMod) : (s.modStage j f).vat = s.vat := rfl
@[simp] theorem State.modStage_bat (s : State) (j : Fin 24) (f : StageMod → StageMod) : (s.modStage j f).bat = s.bat := rfl
@[simp] theorem State.modStage_slt (s : State) (j : Fin 24) (f : StageMod → StageMod) : (s.modStage j f).slt = s.slt := rfl
@[simp] theorem State.modStage_slot (s : State) (j : Fin 24) (f : StageMod → StageMod) : (s.modStage j f).slot = s.slot := rfl
@[simp] theorem State.modStage_stage (s : State) (j : Fin 24) (f : StageMod → StageMod) : (s.modStage j f).stage = modAt s.stage j f := rfl
@[simp] theorem State.modStage_red (s : State) (j : Fin 24) (f : StageMod → StageMod) : (s.modStage j f).red = s.red := rfl
@[simp] theorem State.modStage_arb (s : State) (j : Fin 24) (f : StageMod → StageMod) : (s.modStage j f).arb = s.arb := rfl
@[simp] theorem State.modStage_seq (s : State) (j : Fin 24) (f : StageMod → StageMod) : (s.modStage j f).seq = s.seq := rfl
@[simp] theorem State.modStage_thm (s : State) (j : Fin 24) (f : StageMod → StageMod) : (s.modStage j f).thm = s.thm := rfl
@[simp] theorem State.modStage_otp (s : State) (j : Fin 24) (f : StageMod → StageMod) : (s.modStage j f).otp = s.otp := rfl
@[simp] theorem State.modStage_nvp (s : State) (j : Fin 24) (f : StageMod → StageMod) : (s.modStage j f).nvp = s.nvp := rfl
@[simp] theorem State.modStage_bbx (s : State) (j : Fin 24) (f : StageMod → StageMod) : (s.modStage j f).bbx = s.bbx := rfl
@[simp] theorem State.modStage_upd (s : State) (j : Fin 24) (f : StageMod → StageMod) : (s.modStage j f).upd = s.upd := rfl
@[simp] theorem State.modStage_hst (s : State) (j : Fin 24) (f : StageMod → StageMod) : (s.modStage j f).hst = s.hst := rfl
@[simp] theorem State.modStage_evt (s : State) (j : Fin 24) (f : StageMod → StageMod) : (s.modStage j f).evt = s.evt := rfl
@[simp] theorem State.modStage_twp (s : State) (j : Fin 24) (f : StageMod → StageMod) : (s.modStage j f).twp = s.twp := rfl

@[simp] theorem State.modHst_time (s : State) (f : Hst → Hst) : (s.modHst f).time = s.time := rfl
@[simp] theorem State.modHst_pending (s : State) (f : Hst → Hst) : (s.modHst f).pending = s.pending := rfl
@[simp] theorem State.modHst_freeCtr (s : State) (f : Hst → Hst) : (s.modHst f).freeCtr = s.freeCtr := rfl
@[simp] theorem State.modHst_tick (s : State) (f : Hst → Hst) : (s.modHst f).tick = s.tick := rfl
@[simp] theorem State.modHst_tickAt (s : State) (f : Hst → Hst) : (s.modHst f).tickAt = s.tickAt := rfl
@[simp] theorem State.modHst_regs (s : State) (f : Hst → Hst) : (s.modHst f).regs = s.regs := rfl
@[simp] theorem State.modHst_chans (s : State) (f : Hst → Hst) : (s.modHst f).chans = s.chans := rfl
@[simp] theorem State.modHst_aon (s : State) (f : Hst → Hst) : (s.modHst f).aon = s.aon := rfl
@[simp] theorem State.modHst_sys (s : State) (f : Hst → Hst) : (s.modHst f).sys = s.sys := rfl
@[simp] theorem State.modHst_sns (s : State) (f : Hst → Hst) : (s.modHst f).sns = s.sns := rfl
@[simp] theorem State.modHst_law (s : State) (f : Hst → Hst) : (s.modHst f).law = s.law := rfl
@[simp] theorem State.modHst_pwm (s : State) (f : Hst → Hst) : (s.modHst f).pwm = s.pwm := rfl
@[simp] theorem State.modHst_hbx (s : State) (f : Hst → Hst) : (s.modHst f).hbx = s.hbx := rfl
@[simp] theorem State.modHst_dkl (s : State) (f : Hst → Hst) : (s.modHst f).dkl = s.dkl := rfl
@[simp] theorem State.modHst_vat (s : State) (f : Hst → Hst) : (s.modHst f).vat = s.vat := rfl
@[simp] theorem State.modHst_bat (s : State) (f : Hst → Hst) : (s.modHst f).bat = s.bat := rfl
@[simp] theorem State.modHst_slt (s : State) (f : Hst → Hst) : (s.modHst f).slt = s.slt := rfl
@[simp] theorem State.modHst_slot (s : State) (f : Hst → Hst) : (s.modHst f).slot = s.slot := rfl
@[simp] theorem State.modHst_stage (s : State) (f : Hst → Hst) : (s.modHst f).stage = s.stage := rfl
@[simp] theorem State.modHst_red (s : State) (f : Hst → Hst) : (s.modHst f).red = s.red := rfl
@[simp] theorem State.modHst_arb (s : State) (f : Hst → Hst) : (s.modHst f).arb = s.arb := rfl
@[simp] theorem State.modHst_seq (s : State) (f : Hst → Hst) : (s.modHst f).seq = s.seq := rfl
@[simp] theorem State.modHst_thm (s : State) (f : Hst → Hst) : (s.modHst f).thm = s.thm := rfl
@[simp] theorem State.modHst_otp (s : State) (f : Hst → Hst) : (s.modHst f).otp = s.otp := rfl
@[simp] theorem State.modHst_nvp (s : State) (f : Hst → Hst) : (s.modHst f).nvp = s.nvp := rfl
@[simp] theorem State.modHst_bbx (s : State) (f : Hst → Hst) : (s.modHst f).bbx = s.bbx := rfl
@[simp] theorem State.modHst_upd (s : State) (f : Hst → Hst) : (s.modHst f).upd = s.upd := rfl
@[simp] theorem State.modHst_hst (s : State) (f : Hst → Hst) : (s.modHst f).hst = f s.hst := rfl
@[simp] theorem State.modHst_evt (s : State) (f : Hst → Hst) : (s.modHst f).evt = s.evt := rfl
@[simp] theorem State.modHst_twp (s : State) (f : Hst → Hst) : (s.modHst f).twp = s.twp := rfl

@[simp] theorem State.modEvt_time (s : State) (f : Evt → Evt) : (s.modEvt f).time = s.time := rfl
@[simp] theorem State.modEvt_pending (s : State) (f : Evt → Evt) : (s.modEvt f).pending = s.pending := rfl
@[simp] theorem State.modEvt_freeCtr (s : State) (f : Evt → Evt) : (s.modEvt f).freeCtr = s.freeCtr := rfl
@[simp] theorem State.modEvt_tick (s : State) (f : Evt → Evt) : (s.modEvt f).tick = s.tick := rfl
@[simp] theorem State.modEvt_tickAt (s : State) (f : Evt → Evt) : (s.modEvt f).tickAt = s.tickAt := rfl
@[simp] theorem State.modEvt_regs (s : State) (f : Evt → Evt) : (s.modEvt f).regs = s.regs := rfl
@[simp] theorem State.modEvt_chans (s : State) (f : Evt → Evt) : (s.modEvt f).chans = s.chans := rfl
@[simp] theorem State.modEvt_aon (s : State) (f : Evt → Evt) : (s.modEvt f).aon = s.aon := rfl
@[simp] theorem State.modEvt_sys (s : State) (f : Evt → Evt) : (s.modEvt f).sys = s.sys := rfl
@[simp] theorem State.modEvt_sns (s : State) (f : Evt → Evt) : (s.modEvt f).sns = s.sns := rfl
@[simp] theorem State.modEvt_law (s : State) (f : Evt → Evt) : (s.modEvt f).law = s.law := rfl
@[simp] theorem State.modEvt_pwm (s : State) (f : Evt → Evt) : (s.modEvt f).pwm = s.pwm := rfl
@[simp] theorem State.modEvt_hbx (s : State) (f : Evt → Evt) : (s.modEvt f).hbx = s.hbx := rfl
@[simp] theorem State.modEvt_dkl (s : State) (f : Evt → Evt) : (s.modEvt f).dkl = s.dkl := rfl
@[simp] theorem State.modEvt_vat (s : State) (f : Evt → Evt) : (s.modEvt f).vat = s.vat := rfl
@[simp] theorem State.modEvt_bat (s : State) (f : Evt → Evt) : (s.modEvt f).bat = s.bat := rfl
@[simp] theorem State.modEvt_slt (s : State) (f : Evt → Evt) : (s.modEvt f).slt = s.slt := rfl
@[simp] theorem State.modEvt_slot (s : State) (f : Evt → Evt) : (s.modEvt f).slot = s.slot := rfl
@[simp] theorem State.modEvt_stage (s : State) (f : Evt → Evt) : (s.modEvt f).stage = s.stage := rfl
@[simp] theorem State.modEvt_red (s : State) (f : Evt → Evt) : (s.modEvt f).red = s.red := rfl
@[simp] theorem State.modEvt_arb (s : State) (f : Evt → Evt) : (s.modEvt f).arb = s.arb := rfl
@[simp] theorem State.modEvt_seq (s : State) (f : Evt → Evt) : (s.modEvt f).seq = s.seq := rfl
@[simp] theorem State.modEvt_thm (s : State) (f : Evt → Evt) : (s.modEvt f).thm = s.thm := rfl
@[simp] theorem State.modEvt_otp (s : State) (f : Evt → Evt) : (s.modEvt f).otp = s.otp := rfl
@[simp] theorem State.modEvt_nvp (s : State) (f : Evt → Evt) : (s.modEvt f).nvp = s.nvp := rfl
@[simp] theorem State.modEvt_bbx (s : State) (f : Evt → Evt) : (s.modEvt f).bbx = s.bbx := rfl
@[simp] theorem State.modEvt_upd (s : State) (f : Evt → Evt) : (s.modEvt f).upd = s.upd := rfl
@[simp] theorem State.modEvt_hst (s : State) (f : Evt → Evt) : (s.modEvt f).hst = s.hst := rfl
@[simp] theorem State.modEvt_evt (s : State) (f : Evt → Evt) : (s.modEvt f).evt = f s.evt := rfl
@[simp] theorem State.modEvt_twp (s : State) (f : Evt → Evt) : (s.modEvt f).twp = s.twp := rfl

@[simp] theorem State.modRing_time (s : State) (r : Fin 8) (f : HRing → HRing) : (s.modRing r f).time = s.time := rfl
@[simp] theorem State.modRing_pending (s : State) (r : Fin 8) (f : HRing → HRing) : (s.modRing r f).pending = s.pending := rfl
@[simp] theorem State.modRing_freeCtr (s : State) (r : Fin 8) (f : HRing → HRing) : (s.modRing r f).freeCtr = s.freeCtr := rfl
@[simp] theorem State.modRing_tick (s : State) (r : Fin 8) (f : HRing → HRing) : (s.modRing r f).tick = s.tick := rfl
@[simp] theorem State.modRing_tickAt (s : State) (r : Fin 8) (f : HRing → HRing) : (s.modRing r f).tickAt = s.tickAt := rfl
@[simp] theorem State.modRing_regs (s : State) (r : Fin 8) (f : HRing → HRing) : (s.modRing r f).regs = s.regs := rfl
@[simp] theorem State.modRing_chans (s : State) (r : Fin 8) (f : HRing → HRing) : (s.modRing r f).chans = s.chans := rfl
@[simp] theorem State.modRing_aon (s : State) (r : Fin 8) (f : HRing → HRing) : (s.modRing r f).aon = s.aon := rfl
@[simp] theorem State.modRing_sys (s : State) (r : Fin 8) (f : HRing → HRing) : (s.modRing r f).sys = s.sys := rfl
@[simp] theorem State.modRing_sns (s : State) (r : Fin 8) (f : HRing → HRing) : (s.modRing r f).sns = s.sns := rfl
@[simp] theorem State.modRing_law (s : State) (r : Fin 8) (f : HRing → HRing) : (s.modRing r f).law = s.law := rfl
@[simp] theorem State.modRing_pwm (s : State) (r : Fin 8) (f : HRing → HRing) : (s.modRing r f).pwm = s.pwm := rfl
@[simp] theorem State.modRing_hbx (s : State) (r : Fin 8) (f : HRing → HRing) : (s.modRing r f).hbx = s.hbx := rfl
@[simp] theorem State.modRing_dkl (s : State) (r : Fin 8) (f : HRing → HRing) : (s.modRing r f).dkl = s.dkl := rfl
@[simp] theorem State.modRing_vat (s : State) (r : Fin 8) (f : HRing → HRing) : (s.modRing r f).vat = s.vat := rfl
@[simp] theorem State.modRing_bat (s : State) (r : Fin 8) (f : HRing → HRing) : (s.modRing r f).bat = s.bat := rfl
@[simp] theorem State.modRing_slt (s : State) (r : Fin 8) (f : HRing → HRing) : (s.modRing r f).slt = s.slt := rfl
@[simp] theorem State.modRing_slot (s : State) (r : Fin 8) (f : HRing → HRing) : (s.modRing r f).slot = s.slot := rfl
@[simp] theorem State.modRing_stage (s : State) (r : Fin 8) (f : HRing → HRing) : (s.modRing r f).stage = s.stage := rfl
@[simp] theorem State.modRing_red (s : State) (r : Fin 8) (f : HRing → HRing) : (s.modRing r f).red = s.red := rfl
@[simp] theorem State.modRing_arb (s : State) (r : Fin 8) (f : HRing → HRing) : (s.modRing r f).arb = s.arb := rfl
@[simp] theorem State.modRing_seq (s : State) (r : Fin 8) (f : HRing → HRing) : (s.modRing r f).seq = s.seq := rfl
@[simp] theorem State.modRing_thm (s : State) (r : Fin 8) (f : HRing → HRing) : (s.modRing r f).thm = s.thm := rfl
@[simp] theorem State.modRing_otp (s : State) (r : Fin 8) (f : HRing → HRing) : (s.modRing r f).otp = s.otp := rfl
@[simp] theorem State.modRing_nvp (s : State) (r : Fin 8) (f : HRing → HRing) : (s.modRing r f).nvp = s.nvp := rfl
@[simp] theorem State.modRing_bbx (s : State) (r : Fin 8) (f : HRing → HRing) : (s.modRing r f).bbx = s.bbx := rfl
@[simp] theorem State.modRing_upd (s : State) (r : Fin 8) (f : HRing → HRing) : (s.modRing r f).upd = s.upd := rfl
@[simp] theorem State.modRing_hst (s : State) (r : Fin 8) (f : HRing → HRing) : (s.modRing r f).hst = { s.hst with ring := modAt s.hst.ring r f } := rfl
@[simp] theorem State.modRing_evt (s : State) (r : Fin 8) (f : HRing → HRing) : (s.modRing r f).evt = s.evt := rfl
@[simp] theorem State.modRing_twp (s : State) (r : Fin 8) (f : HRing → HRing) : (s.modRing r f).twp = s.twp := rfl

@[simp] theorem State.modNode_time (s : State) (k : Fin 72) (f : Node → Node) : (s.modNode k f).time = s.time := rfl
@[simp] theorem State.modNode_pending (s : State) (k : Fin 72) (f : Node → Node) : (s.modNode k f).pending = s.pending := rfl
@[simp] theorem State.modNode_freeCtr (s : State) (k : Fin 72) (f : Node → Node) : (s.modNode k f).freeCtr = s.freeCtr := rfl
@[simp] theorem State.modNode_tick (s : State) (k : Fin 72) (f : Node → Node) : (s.modNode k f).tick = s.tick := rfl
@[simp] theorem State.modNode_tickAt (s : State) (k : Fin 72) (f : Node → Node) : (s.modNode k f).tickAt = s.tickAt := rfl
@[simp] theorem State.modNode_regs (s : State) (k : Fin 72) (f : Node → Node) : (s.modNode k f).regs = s.regs := rfl
@[simp] theorem State.modNode_chans (s : State) (k : Fin 72) (f : Node → Node) : (s.modNode k f).chans = s.chans := rfl
@[simp] theorem State.modNode_aon (s : State) (k : Fin 72) (f : Node → Node) : (s.modNode k f).aon = s.aon := rfl
@[simp] theorem State.modNode_sys (s : State) (k : Fin 72) (f : Node → Node) : (s.modNode k f).sys = s.sys := rfl
@[simp] theorem State.modNode_sns (s : State) (k : Fin 72) (f : Node → Node) : (s.modNode k f).sns = s.sns := rfl
@[simp] theorem State.modNode_law (s : State) (k : Fin 72) (f : Node → Node) : (s.modNode k f).law = s.law := rfl
@[simp] theorem State.modNode_pwm (s : State) (k : Fin 72) (f : Node → Node) : (s.modNode k f).pwm = s.pwm := rfl
@[simp] theorem State.modNode_hbx (s : State) (k : Fin 72) (f : Node → Node) : (s.modNode k f).hbx = s.hbx := rfl
@[simp] theorem State.modNode_dkl (s : State) (k : Fin 72) (f : Node → Node) : (s.modNode k f).dkl = s.dkl := rfl
@[simp] theorem State.modNode_vat (s : State) (k : Fin 72) (f : Node → Node) : (s.modNode k f).vat = s.vat := rfl
@[simp] theorem State.modNode_bat (s : State) (k : Fin 72) (f : Node → Node) : (s.modNode k f).bat = s.bat := rfl
@[simp] theorem State.modNode_slt (s : State) (k : Fin 72) (f : Node → Node) : (s.modNode k f).slt = s.slt := rfl
@[simp] theorem State.modNode_slot (s : State) (k : Fin 72) (f : Node → Node) : (s.modNode k f).slot = s.slot := rfl
@[simp] theorem State.modNode_stage (s : State) (k : Fin 72) (f : Node → Node) : (s.modNode k f).stage = s.stage := rfl
@[simp] theorem State.modNode_red (s : State) (k : Fin 72) (f : Node → Node) : (s.modNode k f).red = s.red := rfl
@[simp] theorem State.modNode_arb (s : State) (k : Fin 72) (f : Node → Node) : (s.modNode k f).arb = s.arb := rfl
@[simp] theorem State.modNode_seq (s : State) (k : Fin 72) (f : Node → Node) : (s.modNode k f).seq = { s.seq with n := modAt s.seq.n k f } := rfl
@[simp] theorem State.modNode_thm (s : State) (k : Fin 72) (f : Node → Node) : (s.modNode k f).thm = s.thm := rfl
@[simp] theorem State.modNode_otp (s : State) (k : Fin 72) (f : Node → Node) : (s.modNode k f).otp = s.otp := rfl
@[simp] theorem State.modNode_nvp (s : State) (k : Fin 72) (f : Node → Node) : (s.modNode k f).nvp = s.nvp := rfl
@[simp] theorem State.modNode_bbx (s : State) (k : Fin 72) (f : Node → Node) : (s.modNode k f).bbx = s.bbx := rfl
@[simp] theorem State.modNode_upd (s : State) (k : Fin 72) (f : Node → Node) : (s.modNode k f).upd = s.upd := rfl
@[simp] theorem State.modNode_hst (s : State) (k : Fin 72) (f : Node → Node) : (s.modNode k f).hst = s.hst := rfl
@[simp] theorem State.modNode_evt (s : State) (k : Fin 72) (f : Node → Node) : (s.modNode k f).evt = s.evt := rfl
@[simp] theorem State.modNode_twp (s : State) (k : Fin 72) (f : Node → Node) : (s.modNode k f).twp = s.twp := rfl

@[simp] theorem State.modSlt_time (s : State) (k : Fin 32) (f : Slt → Slt) : (s.modSlt k f).time = s.time := rfl
@[simp] theorem State.modSlt_pending (s : State) (k : Fin 32) (f : Slt → Slt) : (s.modSlt k f).pending = s.pending := rfl
@[simp] theorem State.modSlt_freeCtr (s : State) (k : Fin 32) (f : Slt → Slt) : (s.modSlt k f).freeCtr = s.freeCtr := rfl
@[simp] theorem State.modSlt_tick (s : State) (k : Fin 32) (f : Slt → Slt) : (s.modSlt k f).tick = s.tick := rfl
@[simp] theorem State.modSlt_tickAt (s : State) (k : Fin 32) (f : Slt → Slt) : (s.modSlt k f).tickAt = s.tickAt := rfl
@[simp] theorem State.modSlt_regs (s : State) (k : Fin 32) (f : Slt → Slt) : (s.modSlt k f).regs = s.regs := rfl
@[simp] theorem State.modSlt_chans (s : State) (k : Fin 32) (f : Slt → Slt) : (s.modSlt k f).chans = s.chans := rfl
@[simp] theorem State.modSlt_aon (s : State) (k : Fin 32) (f : Slt → Slt) : (s.modSlt k f).aon = s.aon := rfl
@[simp] theorem State.modSlt_sys (s : State) (k : Fin 32) (f : Slt → Slt) : (s.modSlt k f).sys = s.sys := rfl
@[simp] theorem State.modSlt_sns (s : State) (k : Fin 32) (f : Slt → Slt) : (s.modSlt k f).sns = s.sns := rfl
@[simp] theorem State.modSlt_law (s : State) (k : Fin 32) (f : Slt → Slt) : (s.modSlt k f).law = s.law := rfl
@[simp] theorem State.modSlt_pwm (s : State) (k : Fin 32) (f : Slt → Slt) : (s.modSlt k f).pwm = s.pwm := rfl
@[simp] theorem State.modSlt_hbx (s : State) (k : Fin 32) (f : Slt → Slt) : (s.modSlt k f).hbx = s.hbx := rfl
@[simp] theorem State.modSlt_dkl (s : State) (k : Fin 32) (f : Slt → Slt) : (s.modSlt k f).dkl = s.dkl := rfl
@[simp] theorem State.modSlt_vat (s : State) (k : Fin 32) (f : Slt → Slt) : (s.modSlt k f).vat = s.vat := rfl
@[simp] theorem State.modSlt_bat (s : State) (k : Fin 32) (f : Slt → Slt) : (s.modSlt k f).bat = s.bat := rfl
@[simp] theorem State.modSlt_slt (s : State) (k : Fin 32) (f : Slt → Slt) : (s.modSlt k f).slt = modAt s.slt k f := rfl
@[simp] theorem State.modSlt_slot (s : State) (k : Fin 32) (f : Slt → Slt) : (s.modSlt k f).slot = s.slot := rfl
@[simp] theorem State.modSlt_stage (s : State) (k : Fin 32) (f : Slt → Slt) : (s.modSlt k f).stage = s.stage := rfl
@[simp] theorem State.modSlt_red (s : State) (k : Fin 32) (f : Slt → Slt) : (s.modSlt k f).red = s.red := rfl
@[simp] theorem State.modSlt_arb (s : State) (k : Fin 32) (f : Slt → Slt) : (s.modSlt k f).arb = s.arb := rfl
@[simp] theorem State.modSlt_seq (s : State) (k : Fin 32) (f : Slt → Slt) : (s.modSlt k f).seq = s.seq := rfl
@[simp] theorem State.modSlt_thm (s : State) (k : Fin 32) (f : Slt → Slt) : (s.modSlt k f).thm = s.thm := rfl
@[simp] theorem State.modSlt_otp (s : State) (k : Fin 32) (f : Slt → Slt) : (s.modSlt k f).otp = s.otp := rfl
@[simp] theorem State.modSlt_nvp (s : State) (k : Fin 32) (f : Slt → Slt) : (s.modSlt k f).nvp = s.nvp := rfl
@[simp] theorem State.modSlt_bbx (s : State) (k : Fin 32) (f : Slt → Slt) : (s.modSlt k f).bbx = s.bbx := rfl
@[simp] theorem State.modSlt_upd (s : State) (k : Fin 32) (f : Slt → Slt) : (s.modSlt k f).upd = s.upd := rfl
@[simp] theorem State.modSlt_hst (s : State) (k : Fin 32) (f : Slt → Slt) : (s.modSlt k f).hst = s.hst := rfl
@[simp] theorem State.modSlt_evt (s : State) (k : Fin 32) (f : Slt → Slt) : (s.modSlt k f).evt = s.evt := rfl
@[simp] theorem State.modSlt_twp (s : State) (k : Fin 32) (f : Slt → Slt) : (s.modSlt k f).twp = s.twp := rfl

@[simp] theorem State.modSlot_time (s : State) (k : Fin 32) (f : SlotMod → SlotMod) : (s.modSlot k f).time = s.time := rfl
@[simp] theorem State.modSlot_pending (s : State) (k : Fin 32) (f : SlotMod → SlotMod) : (s.modSlot k f).pending = s.pending := rfl
@[simp] theorem State.modSlot_freeCtr (s : State) (k : Fin 32) (f : SlotMod → SlotMod) : (s.modSlot k f).freeCtr = s.freeCtr := rfl
@[simp] theorem State.modSlot_tick (s : State) (k : Fin 32) (f : SlotMod → SlotMod) : (s.modSlot k f).tick = s.tick := rfl
@[simp] theorem State.modSlot_tickAt (s : State) (k : Fin 32) (f : SlotMod → SlotMod) : (s.modSlot k f).tickAt = s.tickAt := rfl
@[simp] theorem State.modSlot_regs (s : State) (k : Fin 32) (f : SlotMod → SlotMod) : (s.modSlot k f).regs = s.regs := rfl
@[simp] theorem State.modSlot_chans (s : State) (k : Fin 32) (f : SlotMod → SlotMod) : (s.modSlot k f).chans = s.chans := rfl
@[simp] theorem State.modSlot_aon (s : State) (k : Fin 32) (f : SlotMod → SlotMod) : (s.modSlot k f).aon = s.aon := rfl
@[simp] theorem State.modSlot_sys (s : State) (k : Fin 32) (f : SlotMod → SlotMod) : (s.modSlot k f).sys = s.sys := rfl
@[simp] theorem State.modSlot_sns (s : State) (k : Fin 32) (f : SlotMod → SlotMod) : (s.modSlot k f).sns = s.sns := rfl
@[simp] theorem State.modSlot_law (s : State) (k : Fin 32) (f : SlotMod → SlotMod) : (s.modSlot k f).law = s.law := rfl
@[simp] theorem State.modSlot_pwm (s : State) (k : Fin 32) (f : SlotMod → SlotMod) : (s.modSlot k f).pwm = s.pwm := rfl
@[simp] theorem State.modSlot_hbx (s : State) (k : Fin 32) (f : SlotMod → SlotMod) : (s.modSlot k f).hbx = s.hbx := rfl
@[simp] theorem State.modSlot_dkl (s : State) (k : Fin 32) (f : SlotMod → SlotMod) : (s.modSlot k f).dkl = s.dkl := rfl
@[simp] theorem State.modSlot_vat (s : State) (k : Fin 32) (f : SlotMod → SlotMod) : (s.modSlot k f).vat = s.vat := rfl
@[simp] theorem State.modSlot_bat (s : State) (k : Fin 32) (f : SlotMod → SlotMod) : (s.modSlot k f).bat = s.bat := rfl
@[simp] theorem State.modSlot_slt (s : State) (k : Fin 32) (f : SlotMod → SlotMod) : (s.modSlot k f).slt = s.slt := rfl
@[simp] theorem State.modSlot_slot (s : State) (k : Fin 32) (f : SlotMod → SlotMod) : (s.modSlot k f).slot = modAt s.slot k f := rfl
@[simp] theorem State.modSlot_stage (s : State) (k : Fin 32) (f : SlotMod → SlotMod) : (s.modSlot k f).stage = s.stage := rfl
@[simp] theorem State.modSlot_red (s : State) (k : Fin 32) (f : SlotMod → SlotMod) : (s.modSlot k f).red = s.red := rfl
@[simp] theorem State.modSlot_arb (s : State) (k : Fin 32) (f : SlotMod → SlotMod) : (s.modSlot k f).arb = s.arb := rfl
@[simp] theorem State.modSlot_seq (s : State) (k : Fin 32) (f : SlotMod → SlotMod) : (s.modSlot k f).seq = s.seq := rfl
@[simp] theorem State.modSlot_thm (s : State) (k : Fin 32) (f : SlotMod → SlotMod) : (s.modSlot k f).thm = s.thm := rfl
@[simp] theorem State.modSlot_otp (s : State) (k : Fin 32) (f : SlotMod → SlotMod) : (s.modSlot k f).otp = s.otp := rfl
@[simp] theorem State.modSlot_nvp (s : State) (k : Fin 32) (f : SlotMod → SlotMod) : (s.modSlot k f).nvp = s.nvp := rfl
@[simp] theorem State.modSlot_bbx (s : State) (k : Fin 32) (f : SlotMod → SlotMod) : (s.modSlot k f).bbx = s.bbx := rfl
@[simp] theorem State.modSlot_upd (s : State) (k : Fin 32) (f : SlotMod → SlotMod) : (s.modSlot k f).upd = s.upd := rfl
@[simp] theorem State.modSlot_hst (s : State) (k : Fin 32) (f : SlotMod → SlotMod) : (s.modSlot k f).hst = s.hst := rfl
@[simp] theorem State.modSlot_evt (s : State) (k : Fin 32) (f : SlotMod → SlotMod) : (s.modSlot k f).evt = s.evt := rfl
@[simp] theorem State.modSlot_twp (s : State) (k : Fin 32) (f : SlotMod → SlotMod) : (s.modSlot k f).twp = s.twp := rfl

@[simp] theorem State.modNvp_time (s : State) (f : Nvp → Nvp) : (s.modNvp f).time = s.time := rfl
@[simp] theorem State.modNvp_pending (s : State) (f : Nvp → Nvp) : (s.modNvp f).pending = s.pending := rfl
@[simp] theorem State.modNvp_freeCtr (s : State) (f : Nvp → Nvp) : (s.modNvp f).freeCtr = s.freeCtr := rfl
@[simp] theorem State.modNvp_tick (s : State) (f : Nvp → Nvp) : (s.modNvp f).tick = s.tick := rfl
@[simp] theorem State.modNvp_tickAt (s : State) (f : Nvp → Nvp) : (s.modNvp f).tickAt = s.tickAt := rfl
@[simp] theorem State.modNvp_regs (s : State) (f : Nvp → Nvp) : (s.modNvp f).regs = s.regs := rfl
@[simp] theorem State.modNvp_chans (s : State) (f : Nvp → Nvp) : (s.modNvp f).chans = s.chans := rfl
@[simp] theorem State.modNvp_aon (s : State) (f : Nvp → Nvp) : (s.modNvp f).aon = s.aon := rfl
@[simp] theorem State.modNvp_sys (s : State) (f : Nvp → Nvp) : (s.modNvp f).sys = s.sys := rfl
@[simp] theorem State.modNvp_sns (s : State) (f : Nvp → Nvp) : (s.modNvp f).sns = s.sns := rfl
@[simp] theorem State.modNvp_law (s : State) (f : Nvp → Nvp) : (s.modNvp f).law = s.law := rfl
@[simp] theorem State.modNvp_pwm (s : State) (f : Nvp → Nvp) : (s.modNvp f).pwm = s.pwm := rfl
@[simp] theorem State.modNvp_hbx (s : State) (f : Nvp → Nvp) : (s.modNvp f).hbx = s.hbx := rfl
@[simp] theorem State.modNvp_dkl (s : State) (f : Nvp → Nvp) : (s.modNvp f).dkl = s.dkl := rfl
@[simp] theorem State.modNvp_vat (s : State) (f : Nvp → Nvp) : (s.modNvp f).vat = s.vat := rfl
@[simp] theorem State.modNvp_bat (s : State) (f : Nvp → Nvp) : (s.modNvp f).bat = s.bat := rfl
@[simp] theorem State.modNvp_slt (s : State) (f : Nvp → Nvp) : (s.modNvp f).slt = s.slt := rfl
@[simp] theorem State.modNvp_slot (s : State) (f : Nvp → Nvp) : (s.modNvp f).slot = s.slot := rfl
@[simp] theorem State.modNvp_stage (s : State) (f : Nvp → Nvp) : (s.modNvp f).stage = s.stage := rfl
@[simp] theorem State.modNvp_red (s : State) (f : Nvp → Nvp) : (s.modNvp f).red = s.red := rfl
@[simp] theorem State.modNvp_arb (s : State) (f : Nvp → Nvp) : (s.modNvp f).arb = s.arb := rfl
@[simp] theorem State.modNvp_seq (s : State) (f : Nvp → Nvp) : (s.modNvp f).seq = s.seq := rfl
@[simp] theorem State.modNvp_thm (s : State) (f : Nvp → Nvp) : (s.modNvp f).thm = s.thm := rfl
@[simp] theorem State.modNvp_otp (s : State) (f : Nvp → Nvp) : (s.modNvp f).otp = s.otp := rfl
@[simp] theorem State.modNvp_nvp (s : State) (f : Nvp → Nvp) : (s.modNvp f).nvp = f s.nvp := rfl
@[simp] theorem State.modNvp_bbx (s : State) (f : Nvp → Nvp) : (s.modNvp f).bbx = s.bbx := rfl
@[simp] theorem State.modNvp_upd (s : State) (f : Nvp → Nvp) : (s.modNvp f).upd = s.upd := rfl
@[simp] theorem State.modNvp_hst (s : State) (f : Nvp → Nvp) : (s.modNvp f).hst = s.hst := rfl
@[simp] theorem State.modNvp_evt (s : State) (f : Nvp → Nvp) : (s.modNvp f).evt = s.evt := rfl
@[simp] theorem State.modNvp_twp (s : State) (f : Nvp → Nvp) : (s.modNvp f).twp = s.twp := rfl

@[simp] theorem State.modSensor_time (s : State) (k : Fin 48) (f : Sensor → Sensor) : (s.modSensor k f).time = s.time := rfl
@[simp] theorem State.modSensor_pending (s : State) (k : Fin 48) (f : Sensor → Sensor) : (s.modSensor k f).pending = s.pending := rfl
@[simp] theorem State.modSensor_freeCtr (s : State) (k : Fin 48) (f : Sensor → Sensor) : (s.modSensor k f).freeCtr = s.freeCtr := rfl
@[simp] theorem State.modSensor_tick (s : State) (k : Fin 48) (f : Sensor → Sensor) : (s.modSensor k f).tick = s.tick := rfl
@[simp] theorem State.modSensor_tickAt (s : State) (k : Fin 48) (f : Sensor → Sensor) : (s.modSensor k f).tickAt = s.tickAt := rfl
@[simp] theorem State.modSensor_regs (s : State) (k : Fin 48) (f : Sensor → Sensor) : (s.modSensor k f).regs = s.regs := rfl
@[simp] theorem State.modSensor_chans (s : State) (k : Fin 48) (f : Sensor → Sensor) : (s.modSensor k f).chans = s.chans := rfl
@[simp] theorem State.modSensor_aon (s : State) (k : Fin 48) (f : Sensor → Sensor) : (s.modSensor k f).aon = s.aon := rfl
@[simp] theorem State.modSensor_sys (s : State) (k : Fin 48) (f : Sensor → Sensor) : (s.modSensor k f).sys = s.sys := rfl
@[simp] theorem State.modSensor_sns (s : State) (k : Fin 48) (f : Sensor → Sensor) : (s.modSensor k f).sns = s.sns := rfl
@[simp] theorem State.modSensor_law (s : State) (k : Fin 48) (f : Sensor → Sensor) : (s.modSensor k f).law = s.law := rfl
@[simp] theorem State.modSensor_pwm (s : State) (k : Fin 48) (f : Sensor → Sensor) : (s.modSensor k f).pwm = s.pwm := rfl
@[simp] theorem State.modSensor_hbx (s : State) (k : Fin 48) (f : Sensor → Sensor) : (s.modSensor k f).hbx = s.hbx := rfl
@[simp] theorem State.modSensor_dkl (s : State) (k : Fin 48) (f : Sensor → Sensor) : (s.modSensor k f).dkl = s.dkl := rfl
@[simp] theorem State.modSensor_vat (s : State) (k : Fin 48) (f : Sensor → Sensor) : (s.modSensor k f).vat = s.vat := rfl
@[simp] theorem State.modSensor_bat (s : State) (k : Fin 48) (f : Sensor → Sensor) : (s.modSensor k f).bat = s.bat := rfl
@[simp] theorem State.modSensor_slt (s : State) (k : Fin 48) (f : Sensor → Sensor) : (s.modSensor k f).slt = s.slt := rfl
@[simp] theorem State.modSensor_slot (s : State) (k : Fin 48) (f : Sensor → Sensor) : (s.modSensor k f).slot = s.slot := rfl
@[simp] theorem State.modSensor_stage (s : State) (k : Fin 48) (f : Sensor → Sensor) : (s.modSensor k f).stage = s.stage := rfl
@[simp] theorem State.modSensor_red (s : State) (k : Fin 48) (f : Sensor → Sensor) : (s.modSensor k f).red = s.red := rfl
@[simp] theorem State.modSensor_arb (s : State) (k : Fin 48) (f : Sensor → Sensor) : (s.modSensor k f).arb = s.arb := rfl
@[simp] theorem State.modSensor_seq (s : State) (k : Fin 48) (f : Sensor → Sensor) : (s.modSensor k f).seq = s.seq := rfl
@[simp] theorem State.modSensor_thm (s : State) (k : Fin 48) (f : Sensor → Sensor) : (s.modSensor k f).thm = { s.thm with s := modAt s.thm.s k f } := rfl
@[simp] theorem State.modSensor_otp (s : State) (k : Fin 48) (f : Sensor → Sensor) : (s.modSensor k f).otp = s.otp := rfl
@[simp] theorem State.modSensor_nvp (s : State) (k : Fin 48) (f : Sensor → Sensor) : (s.modSensor k f).nvp = s.nvp := rfl
@[simp] theorem State.modSensor_bbx (s : State) (k : Fin 48) (f : Sensor → Sensor) : (s.modSensor k f).bbx = s.bbx := rfl
@[simp] theorem State.modSensor_upd (s : State) (k : Fin 48) (f : Sensor → Sensor) : (s.modSensor k f).upd = s.upd := rfl
@[simp] theorem State.modSensor_hst (s : State) (k : Fin 48) (f : Sensor → Sensor) : (s.modSensor k f).hst = s.hst := rfl
@[simp] theorem State.modSensor_evt (s : State) (k : Fin 48) (f : Sensor → Sensor) : (s.modSensor k f).evt = s.evt := rfl
@[simp] theorem State.modSensor_twp (s : State) (k : Fin 48) (f : Sensor → Sensor) : (s.modSensor k f).twp = s.twp := rfl

@[simp] theorem State.modAon_time (s : State) (f : Aon → Aon) : (s.modAon f).time = s.time := rfl
@[simp] theorem State.modAon_pending (s : State) (f : Aon → Aon) : (s.modAon f).pending = s.pending := rfl
@[simp] theorem State.modAon_freeCtr (s : State) (f : Aon → Aon) : (s.modAon f).freeCtr = s.freeCtr := rfl
@[simp] theorem State.modAon_tick (s : State) (f : Aon → Aon) : (s.modAon f).tick = s.tick := rfl
@[simp] theorem State.modAon_tickAt (s : State) (f : Aon → Aon) : (s.modAon f).tickAt = s.tickAt := rfl
@[simp] theorem State.modAon_regs (s : State) (f : Aon → Aon) : (s.modAon f).regs = s.regs := rfl
@[simp] theorem State.modAon_chans (s : State) (f : Aon → Aon) : (s.modAon f).chans = s.chans := rfl
@[simp] theorem State.modAon_aon (s : State) (f : Aon → Aon) : (s.modAon f).aon = f s.aon := rfl
@[simp] theorem State.modAon_sys (s : State) (f : Aon → Aon) : (s.modAon f).sys = s.sys := rfl
@[simp] theorem State.modAon_sns (s : State) (f : Aon → Aon) : (s.modAon f).sns = s.sns := rfl
@[simp] theorem State.modAon_law (s : State) (f : Aon → Aon) : (s.modAon f).law = s.law := rfl
@[simp] theorem State.modAon_pwm (s : State) (f : Aon → Aon) : (s.modAon f).pwm = s.pwm := rfl
@[simp] theorem State.modAon_hbx (s : State) (f : Aon → Aon) : (s.modAon f).hbx = s.hbx := rfl
@[simp] theorem State.modAon_dkl (s : State) (f : Aon → Aon) : (s.modAon f).dkl = s.dkl := rfl
@[simp] theorem State.modAon_vat (s : State) (f : Aon → Aon) : (s.modAon f).vat = s.vat := rfl
@[simp] theorem State.modAon_bat (s : State) (f : Aon → Aon) : (s.modAon f).bat = s.bat := rfl
@[simp] theorem State.modAon_slt (s : State) (f : Aon → Aon) : (s.modAon f).slt = s.slt := rfl
@[simp] theorem State.modAon_slot (s : State) (f : Aon → Aon) : (s.modAon f).slot = s.slot := rfl
@[simp] theorem State.modAon_stage (s : State) (f : Aon → Aon) : (s.modAon f).stage = s.stage := rfl
@[simp] theorem State.modAon_red (s : State) (f : Aon → Aon) : (s.modAon f).red = s.red := rfl
@[simp] theorem State.modAon_arb (s : State) (f : Aon → Aon) : (s.modAon f).arb = s.arb := rfl
@[simp] theorem State.modAon_seq (s : State) (f : Aon → Aon) : (s.modAon f).seq = s.seq := rfl
@[simp] theorem State.modAon_thm (s : State) (f : Aon → Aon) : (s.modAon f).thm = s.thm := rfl
@[simp] theorem State.modAon_otp (s : State) (f : Aon → Aon) : (s.modAon f).otp = s.otp := rfl
@[simp] theorem State.modAon_nvp (s : State) (f : Aon → Aon) : (s.modAon f).nvp = s.nvp := rfl
@[simp] theorem State.modAon_bbx (s : State) (f : Aon → Aon) : (s.modAon f).bbx = s.bbx := rfl
@[simp] theorem State.modAon_upd (s : State) (f : Aon → Aon) : (s.modAon f).upd = s.upd := rfl
@[simp] theorem State.modAon_hst (s : State) (f : Aon → Aon) : (s.modAon f).hst = s.hst := rfl
@[simp] theorem State.modAon_evt (s : State) (f : Aon → Aon) : (s.modAon f).evt = s.evt := rfl
@[simp] theorem State.modAon_twp (s : State) (f : Aon → Aon) : (s.modAon f).twp = s.twp := rfl

@[simp] theorem State.modTwp_time (s : State) (p : Fin 4) (f : TwPort → TwPort) : (s.modTwp p f).time = s.time := rfl
@[simp] theorem State.modTwp_pending (s : State) (p : Fin 4) (f : TwPort → TwPort) : (s.modTwp p f).pending = s.pending := rfl
@[simp] theorem State.modTwp_freeCtr (s : State) (p : Fin 4) (f : TwPort → TwPort) : (s.modTwp p f).freeCtr = s.freeCtr := rfl
@[simp] theorem State.modTwp_tick (s : State) (p : Fin 4) (f : TwPort → TwPort) : (s.modTwp p f).tick = s.tick := rfl
@[simp] theorem State.modTwp_tickAt (s : State) (p : Fin 4) (f : TwPort → TwPort) : (s.modTwp p f).tickAt = s.tickAt := rfl
@[simp] theorem State.modTwp_regs (s : State) (p : Fin 4) (f : TwPort → TwPort) : (s.modTwp p f).regs = s.regs := rfl
@[simp] theorem State.modTwp_chans (s : State) (p : Fin 4) (f : TwPort → TwPort) : (s.modTwp p f).chans = s.chans := rfl
@[simp] theorem State.modTwp_aon (s : State) (p : Fin 4) (f : TwPort → TwPort) : (s.modTwp p f).aon = s.aon := rfl
@[simp] theorem State.modTwp_sys (s : State) (p : Fin 4) (f : TwPort → TwPort) : (s.modTwp p f).sys = s.sys := rfl
@[simp] theorem State.modTwp_sns (s : State) (p : Fin 4) (f : TwPort → TwPort) : (s.modTwp p f).sns = s.sns := rfl
@[simp] theorem State.modTwp_law (s : State) (p : Fin 4) (f : TwPort → TwPort) : (s.modTwp p f).law = s.law := rfl
@[simp] theorem State.modTwp_pwm (s : State) (p : Fin 4) (f : TwPort → TwPort) : (s.modTwp p f).pwm = s.pwm := rfl
@[simp] theorem State.modTwp_hbx (s : State) (p : Fin 4) (f : TwPort → TwPort) : (s.modTwp p f).hbx = s.hbx := rfl
@[simp] theorem State.modTwp_dkl (s : State) (p : Fin 4) (f : TwPort → TwPort) : (s.modTwp p f).dkl = s.dkl := rfl
@[simp] theorem State.modTwp_vat (s : State) (p : Fin 4) (f : TwPort → TwPort) : (s.modTwp p f).vat = s.vat := rfl
@[simp] theorem State.modTwp_bat (s : State) (p : Fin 4) (f : TwPort → TwPort) : (s.modTwp p f).bat = s.bat := rfl
@[simp] theorem State.modTwp_slt (s : State) (p : Fin 4) (f : TwPort → TwPort) : (s.modTwp p f).slt = s.slt := rfl
@[simp] theorem State.modTwp_slot (s : State) (p : Fin 4) (f : TwPort → TwPort) : (s.modTwp p f).slot = s.slot := rfl
@[simp] theorem State.modTwp_stage (s : State) (p : Fin 4) (f : TwPort → TwPort) : (s.modTwp p f).stage = s.stage := rfl
@[simp] theorem State.modTwp_red (s : State) (p : Fin 4) (f : TwPort → TwPort) : (s.modTwp p f).red = s.red := rfl
@[simp] theorem State.modTwp_arb (s : State) (p : Fin 4) (f : TwPort → TwPort) : (s.modTwp p f).arb = s.arb := rfl
@[simp] theorem State.modTwp_seq (s : State) (p : Fin 4) (f : TwPort → TwPort) : (s.modTwp p f).seq = s.seq := rfl
@[simp] theorem State.modTwp_thm (s : State) (p : Fin 4) (f : TwPort → TwPort) : (s.modTwp p f).thm = s.thm := rfl
@[simp] theorem State.modTwp_otp (s : State) (p : Fin 4) (f : TwPort → TwPort) : (s.modTwp p f).otp = s.otp := rfl
@[simp] theorem State.modTwp_nvp (s : State) (p : Fin 4) (f : TwPort → TwPort) : (s.modTwp p f).nvp = s.nvp := rfl
@[simp] theorem State.modTwp_bbx (s : State) (p : Fin 4) (f : TwPort → TwPort) : (s.modTwp p f).bbx = s.bbx := rfl
@[simp] theorem State.modTwp_upd (s : State) (p : Fin 4) (f : TwPort → TwPort) : (s.modTwp p f).upd = s.upd := rfl
@[simp] theorem State.modTwp_hst (s : State) (p : Fin 4) (f : TwPort → TwPort) : (s.modTwp p f).hst = s.hst := rfl
@[simp] theorem State.modTwp_evt (s : State) (p : Fin 4) (f : TwPort → TwPort) : (s.modTwp p f).evt = s.evt := rfl
@[simp] theorem State.modTwp_twp (s : State) (p : Fin 4) (f : TwPort → TwPort) : (s.modTwp p f).twp = modAt s.twp p f := rfl

@[simp] theorem State.modUpd_time (s : State) (f : Upd → Upd) : (s.modUpd f).time = s.time := rfl
@[simp] theorem State.modUpd_pending (s : State) (f : Upd → Upd) : (s.modUpd f).pending = s.pending := rfl
@[simp] theorem State.modUpd_freeCtr (s : State) (f : Upd → Upd) : (s.modUpd f).freeCtr = s.freeCtr := rfl
@[simp] theorem State.modUpd_tick (s : State) (f : Upd → Upd) : (s.modUpd f).tick = s.tick := rfl
@[simp] theorem State.modUpd_tickAt (s : State) (f : Upd → Upd) : (s.modUpd f).tickAt = s.tickAt := rfl
@[simp] theorem State.modUpd_regs (s : State) (f : Upd → Upd) : (s.modUpd f).regs = s.regs := rfl
@[simp] theorem State.modUpd_chans (s : State) (f : Upd → Upd) : (s.modUpd f).chans = s.chans := rfl
@[simp] theorem State.modUpd_aon (s : State) (f : Upd → Upd) : (s.modUpd f).aon = s.aon := rfl
@[simp] theorem State.modUpd_sys (s : State) (f : Upd → Upd) : (s.modUpd f).sys = s.sys := rfl
@[simp] theorem State.modUpd_sns (s : State) (f : Upd → Upd) : (s.modUpd f).sns = s.sns := rfl
@[simp] theorem State.modUpd_law (s : State) (f : Upd → Upd) : (s.modUpd f).law = s.law := rfl
@[simp] theorem State.modUpd_pwm (s : State) (f : Upd → Upd) : (s.modUpd f).pwm = s.pwm := rfl
@[simp] theorem State.modUpd_hbx (s : State) (f : Upd → Upd) : (s.modUpd f).hbx = s.hbx := rfl
@[simp] theorem State.modUpd_dkl (s : State) (f : Upd → Upd) : (s.modUpd f).dkl = s.dkl := rfl
@[simp] theorem State.modUpd_vat (s : State) (f : Upd → Upd) : (s.modUpd f).vat = s.vat := rfl
@[simp] theorem State.modUpd_bat (s : State) (f : Upd → Upd) : (s.modUpd f).bat = s.bat := rfl
@[simp] theorem State.modUpd_slt (s : State) (f : Upd → Upd) : (s.modUpd f).slt = s.slt := rfl
@[simp] theorem State.modUpd_slot (s : State) (f : Upd → Upd) : (s.modUpd f).slot = s.slot := rfl
@[simp] theorem State.modUpd_stage (s : State) (f : Upd → Upd) : (s.modUpd f).stage = s.stage := rfl
@[simp] theorem State.modUpd_red (s : State) (f : Upd → Upd) : (s.modUpd f).red = s.red := rfl
@[simp] theorem State.modUpd_arb (s : State) (f : Upd → Upd) : (s.modUpd f).arb = s.arb := rfl
@[simp] theorem State.modUpd_seq (s : State) (f : Upd → Upd) : (s.modUpd f).seq = s.seq := rfl
@[simp] theorem State.modUpd_thm (s : State) (f : Upd → Upd) : (s.modUpd f).thm = s.thm := rfl
@[simp] theorem State.modUpd_otp (s : State) (f : Upd → Upd) : (s.modUpd f).otp = s.otp := rfl
@[simp] theorem State.modUpd_nvp (s : State) (f : Upd → Upd) : (s.modUpd f).nvp = s.nvp := rfl
@[simp] theorem State.modUpd_bbx (s : State) (f : Upd → Upd) : (s.modUpd f).bbx = s.bbx := rfl
@[simp] theorem State.modUpd_upd (s : State) (f : Upd → Upd) : (s.modUpd f).upd = f s.upd := rfl
@[simp] theorem State.modUpd_hst (s : State) (f : Upd → Upd) : (s.modUpd f).hst = s.hst := rfl
@[simp] theorem State.modUpd_evt (s : State) (f : Upd → Upd) : (s.modUpd f).evt = s.evt := rfl
@[simp] theorem State.modUpd_twp (s : State) (f : Upd → Upd) : (s.modUpd f).twp = s.twp := rfl

@[simp] theorem State.fire_time (s : State) (a b c : Nat) (d : Int) : (s.fire a b c d).time = s.time := rfl
@[simp] theorem State.fire_pending (s : State) (a b c : Nat) (d : Int) : (s.fire a b c d).pending = s.pending := rfl
@[simp] theorem State.fire_freeCtr (s : State) (a b c : Nat) (d : Int) : (s.fire a b c d).freeCtr = s.freeCtr := rfl
@[simp] theorem State.fire_tick (s : State) (a b c : Nat) (d : Int) : (s.fire a b c d).tick = s.tick := rfl
@[simp] theorem State.fire_tickAt (s : State) (a b c : Nat) (d : Int) : (s.fire a b c d).tickAt = s.tickAt := rfl
@[simp] theorem State.fire_regs (s : State) (a b c : Nat) (d : Int) : (s.fire a b c d).regs = s.regs := rfl
@[simp] theorem State.fire_aon (s : State) (a b c : Nat) (d : Int) : (s.fire a b c d).aon = s.aon := rfl
@[simp] theorem State.fire_sys (s : State) (a b c : Nat) (d : Int) : (s.fire a b c d).sys = s.sys := rfl
@[simp] theorem State.fire_sns (s : State) (a b c : Nat) (d : Int) : (s.fire a b c d).sns = s.sns := rfl
@[simp] theorem State.fire_law (s : State) (a b c : Nat) (d : Int) : (s.fire a b c d).law = s.law := rfl
@[simp] theorem State.fire_pwm (s : State) (a b c : Nat) (d : Int) : (s.fire a b c d).pwm = s.pwm := rfl
@[simp] theorem State.fire_hbx (s : State) (a b c : Nat) (d : Int) : (s.fire a b c d).hbx = s.hbx := rfl
@[simp] theorem State.fire_dkl (s : State) (a b c : Nat) (d : Int) : (s.fire a b c d).dkl = s.dkl := rfl
@[simp] theorem State.fire_vat (s : State) (a b c : Nat) (d : Int) : (s.fire a b c d).vat = s.vat := rfl
@[simp] theorem State.fire_bat (s : State) (a b c : Nat) (d : Int) : (s.fire a b c d).bat = s.bat := rfl
@[simp] theorem State.fire_slt (s : State) (a b c : Nat) (d : Int) : (s.fire a b c d).slt = s.slt := rfl
@[simp] theorem State.fire_slot (s : State) (a b c : Nat) (d : Int) : (s.fire a b c d).slot = s.slot := rfl
@[simp] theorem State.fire_stage (s : State) (a b c : Nat) (d : Int) : (s.fire a b c d).stage = s.stage := rfl
@[simp] theorem State.fire_red (s : State) (a b c : Nat) (d : Int) : (s.fire a b c d).red = s.red := rfl
@[simp] theorem State.fire_arb (s : State) (a b c : Nat) (d : Int) : (s.fire a b c d).arb = s.arb := rfl
@[simp] theorem State.fire_seq (s : State) (a b c : Nat) (d : Int) : (s.fire a b c d).seq = s.seq := rfl
@[simp] theorem State.fire_thm (s : State) (a b c : Nat) (d : Int) : (s.fire a b c d).thm = s.thm := rfl
@[simp] theorem State.fire_otp (s : State) (a b c : Nat) (d : Int) : (s.fire a b c d).otp = s.otp := rfl
@[simp] theorem State.fire_nvp (s : State) (a b c : Nat) (d : Int) : (s.fire a b c d).nvp = s.nvp := rfl
@[simp] theorem State.fire_bbx (s : State) (a b c : Nat) (d : Int) : (s.fire a b c d).bbx = s.bbx := rfl
@[simp] theorem State.fire_upd (s : State) (a b c : Nat) (d : Int) : (s.fire a b c d).upd = s.upd := rfl
@[simp] theorem State.fire_hst (s : State) (a b c : Nat) (d : Int) : (s.fire a b c d).hst = s.hst := rfl
@[simp] theorem State.fire_evt (s : State) (a b c : Nat) (d : Int) : (s.fire a b c d).evt = s.evt := rfl
@[simp] theorem State.fire_twp (s : State) (a b c : Nat) (d : Int) : (s.fire a b c d).twp = s.twp := rfl
@[simp] theorem State.fire_chans (s : State) (a b c : Nat) (d : Int) : (s.fire a b c d).chans = { s.chans with flight := s.chans.flight ++ [⟨a, evData b c d, none, false, s.time⟩] } := rfl

@[simp] theorem State.post_time (s : State) (p : Posted) : (s.post p).time = s.time := rfl
@[simp] theorem State.post_pending (s : State) (p : Posted) : (s.post p).pending = s.pending := rfl
@[simp] theorem State.post_freeCtr (s : State) (p : Posted) : (s.post p).freeCtr = s.freeCtr := rfl
@[simp] theorem State.post_tick (s : State) (p : Posted) : (s.post p).tick = s.tick := rfl
@[simp] theorem State.post_tickAt (s : State) (p : Posted) : (s.post p).tickAt = s.tickAt := rfl
@[simp] theorem State.post_regs (s : State) (p : Posted) : (s.post p).regs = s.regs := rfl
@[simp] theorem State.post_chans (s : State) (p : Posted) : (s.post p).chans = s.chans := rfl
@[simp] theorem State.post_aon (s : State) (p : Posted) : (s.post p).aon = s.aon := rfl
@[simp] theorem State.post_sys (s : State) (p : Posted) : (s.post p).sys = s.sys := rfl
@[simp] theorem State.post_sns (s : State) (p : Posted) : (s.post p).sns = s.sns := rfl
@[simp] theorem State.post_law (s : State) (p : Posted) : (s.post p).law = s.law := rfl
@[simp] theorem State.post_pwm (s : State) (p : Posted) : (s.post p).pwm = s.pwm := rfl
@[simp] theorem State.post_hbx (s : State) (p : Posted) : (s.post p).hbx = s.hbx := rfl
@[simp] theorem State.post_dkl (s : State) (p : Posted) : (s.post p).dkl = s.dkl := rfl
@[simp] theorem State.post_vat (s : State) (p : Posted) : (s.post p).vat = s.vat := rfl
@[simp] theorem State.post_bat (s : State) (p : Posted) : (s.post p).bat = s.bat := rfl
@[simp] theorem State.post_slt (s : State) (p : Posted) : (s.post p).slt = s.slt := rfl
@[simp] theorem State.post_slot (s : State) (p : Posted) : (s.post p).slot = s.slot := rfl
@[simp] theorem State.post_stage (s : State) (p : Posted) : (s.post p).stage = s.stage := rfl
@[simp] theorem State.post_red (s : State) (p : Posted) : (s.post p).red = s.red := rfl
@[simp] theorem State.post_arb (s : State) (p : Posted) : (s.post p).arb = s.arb := rfl
@[simp] theorem State.post_seq (s : State) (p : Posted) : (s.post p).seq = s.seq := rfl
@[simp] theorem State.post_thm (s : State) (p : Posted) : (s.post p).thm = s.thm := rfl
@[simp] theorem State.post_otp (s : State) (p : Posted) : (s.post p).otp = s.otp := rfl
@[simp] theorem State.post_nvp (s : State) (p : Posted) : (s.post p).nvp = s.nvp := rfl
@[simp] theorem State.post_bbx (s : State) (p : Posted) : (s.post p).bbx = s.bbx := rfl
@[simp] theorem State.post_upd (s : State) (p : Posted) : (s.post p).upd = s.upd := rfl
@[simp] theorem State.post_hst (s : State) (p : Posted) : (s.post p).hst = { s.hst with posted := p :: s.hst.posted } := rfl
@[simp] theorem State.post_evt (s : State) (p : Posted) : (s.post p).evt = s.evt := rfl
@[simp] theorem State.post_twp (s : State) (p : Posted) : (s.post p).twp = s.twp := rfl

@[simp] theorem State.await_time (s : State) (n : Nat) : (s.await n).time = max s.time n := rfl
@[simp] theorem State.await_pending (s : State) (n : Nat) : (s.await n).pending = s.pending := rfl
@[simp] theorem State.await_freeCtr (s : State) (n : Nat) : (s.await n).freeCtr = s.freeCtr := rfl
@[simp] theorem State.await_tick (s : State) (n : Nat) : (s.await n).tick = s.tick := rfl
@[simp] theorem State.await_tickAt (s : State) (n : Nat) : (s.await n).tickAt = s.tickAt := rfl
@[simp] theorem State.await_regs (s : State) (n : Nat) : (s.await n).regs = s.regs := rfl
@[simp] theorem State.await_chans (s : State) (n : Nat) : (s.await n).chans = s.chans := rfl
@[simp] theorem State.await_aon (s : State) (n : Nat) : (s.await n).aon = s.aon := rfl
@[simp] theorem State.await_sys (s : State) (n : Nat) : (s.await n).sys = s.sys := rfl
@[simp] theorem State.await_sns (s : State) (n : Nat) : (s.await n).sns = s.sns := rfl
@[simp] theorem State.await_law (s : State) (n : Nat) : (s.await n).law = s.law := rfl
@[simp] theorem State.await_pwm (s : State) (n : Nat) : (s.await n).pwm = s.pwm := rfl
@[simp] theorem State.await_hbx (s : State) (n : Nat) : (s.await n).hbx = s.hbx := rfl
@[simp] theorem State.await_dkl (s : State) (n : Nat) : (s.await n).dkl = s.dkl := rfl
@[simp] theorem State.await_vat (s : State) (n : Nat) : (s.await n).vat = s.vat := rfl
@[simp] theorem State.await_bat (s : State) (n : Nat) : (s.await n).bat = s.bat := rfl
@[simp] theorem State.await_slt (s : State) (n : Nat) : (s.await n).slt = s.slt := rfl
@[simp] theorem State.await_slot (s : State) (n : Nat) : (s.await n).slot = s.slot := rfl
@[simp] theorem State.await_stage (s : State) (n : Nat) : (s.await n).stage = s.stage := rfl
@[simp] theorem State.await_red (s : State) (n : Nat) : (s.await n).red = s.red := rfl
@[simp] theorem State.await_arb (s : State) (n : Nat) : (s.await n).arb = s.arb := rfl
@[simp] theorem State.await_seq (s : State) (n : Nat) : (s.await n).seq = s.seq := rfl
@[simp] theorem State.await_thm (s : State) (n : Nat) : (s.await n).thm = s.thm := rfl
@[simp] theorem State.await_otp (s : State) (n : Nat) : (s.await n).otp = s.otp := rfl
@[simp] theorem State.await_nvp (s : State) (n : Nat) : (s.await n).nvp = s.nvp := rfl
@[simp] theorem State.await_bbx (s : State) (n : Nat) : (s.await n).bbx = s.bbx := rfl
@[simp] theorem State.await_upd (s : State) (n : Nat) : (s.await n).upd = s.upd := rfl
@[simp] theorem State.await_hst (s : State) (n : Nat) : (s.await n).hst = s.hst := rfl
@[simp] theorem State.await_evt (s : State) (n : Nat) : (s.await n).evt = s.evt := rfl
@[simp] theorem State.await_twp (s : State) (n : Nat) : (s.await n).twp = s.twp := rfl

/-- Nothing is waited for where the instant is past. -/
theorem State.await_now {s : State} {n : Nat} (h : n ≤ s.time) : s.await n = s := by
  unfold State.await
  rw [Nat.max_eq_left h]

theorem State.whenAt_now {s : State} {c : Bool} {n : Nat} {f : State → State} (hc : c = true) (h : n ≤ s.time) :
    s.whenAt c n f = f s := by
  rw [State.whenAt, if_pos hc, State.await_now h]

theorem State.whenDue_now {s : State} {c : Bool} {a : Option Nat} {d : Nat} {f : State → State} (hc : c = true)
    (h : s.ranOut a d = true) : s.whenDue c a d f = f s := by
  cases a with
  | none => simp [State.ranOut] at h
  | some t =>
    simp only [State.ranOut, decide_eq_true_eq] at h
    exact State.whenAt_now hc h

theorem State.whenOp_now {s : State} {c : Bool} {n : Nat} {f : State → State} (hc : c = true) (h : n ≤ s.opTime) :
    s.whenOp c n f = f s := by
  have k : n ≤ 0xFFFFFFFFFFFF := Nat.le_trans h (Nat.min_le_left _ _)
  exact State.whenAt_now (by simp [hc, k]) (by simp [State.opAt, h])

/-- A happening that waits comes about as it does at the instant it waits for. -/
theorem State.whenAt_await (s : State) (c : Bool) (n : Nat) (f : State → State) :
    s.whenAt c n f = if c then (s.await n).whenAt true n f else s := by
  unfold State.whenAt
  split
  · rw [if_pos rfl, State.await_now (s := s.await n) (Nat.le_max_right _ _)]
  · rfl

end Sys2Proof.Machine
end

