-- ==== Sys2Proof/Laws/Complete.lean ====
section
/-! SUPPORT. Small lemmas about completing, about folds, about what an operation keeps, and about the operations that several commands share. -/

set_option Elab.async false

namespace Sys2Proof.Machine
variable {c : Instr} {s x : State} {P : State → Prop} {b : Bool} {o : Host.Outcome State Fault Refusal}

/-- A command that answers a state outright completes with what holds of that state. -/
theorem Completes.ok (e : exec c s = Machine.ok x) (h : P x) : Completes c s P := ⟨x, e, h⟩

/-- A command under a condition completes where the condition holds. -/
theorem Completes.when (e : exec c s = Machine.ok (s.when b x)) (hb : b = true) (h : P x) : Completes c s P :=
  ⟨x, by rw [e, State.when, if_pos hb]; rfl, h⟩

/-- A happening whose instant is past, or now, comes about where its conditions hold. -/
theorem Completes.at {n : Nat} {f : State → State} (e : exec c s = Machine.ok (s.whenAt b n f)) (hb : b = true) (hn : n ≤ s.time)
    (h : P (f s)) : Completes c s P := ⟨f s, by rw [e, State.whenAt_now hb hn]; rfl, h⟩

/-- The same for a happening that a timer sets. -/
theorem Completes.due {a : Option Nat} {d : Nat} {f : State → State} (e : exec c s = Machine.ok (s.whenDue b a d f)) (hb : b = true)
    (hn : s.ranOut a d = true) (h : P (f s)) : Completes c s P := ⟨f s, by rw [e, State.whenDue_now hb hn]; rfl, h⟩

/-- The same for a happening that the operating time sets. -/
theorem Completes.opDue {n : Nat} {f : State → State} (e : exec c s = Machine.ok (s.whenOp b n f)) (hb : b = true) (hn : n ≤ s.opTime)
    (h : P (f s)) : Completes c s P := ⟨f s, by rw [e, State.whenOp_now hb hn]; rfl, h⟩

/-- A command that stands still under a condition goes on where the condition does not hold. -/
theorem Completes.past {p : Prop} [Decidable p] (e : exec c s = if p then Machine.ok s else o) (hp : ¬p)
    (h : ∃ t, o = .next t ∧ P t) : Completes c s P := by
  rw [if_neg hp] at e
  obtain ⟨t, a, b⟩ := h
  exact ⟨t, e.trans a, b⟩

end Sys2Proof.Machine

namespace Sys2Proof.Machine

/-- What each round of a fold keeps, the fold keeps. -/
theorem foldl_keep {α β : Type} (g : State → β) (f : State → α → State) (k : ∀ s a, g (f s a) = g s) (l : List α) (s : State) :
    g (l.foldl f s) = g s := by
  induction l generalizing s with
  | nil => rfl
  | cons a l ih => exact (ih (f s a)).trans (k s a)

theorem foldFin_keep {β : Type} {n : Nat} (g : State → β) (f : State → Fin n → State) (k : ∀ s a, g (f s a) = g s) (s : State) :
    g (foldFin n s f) = g s := foldl_keep g f k _ s

end Sys2Proof.Machine

namespace Sys2Proof.Machine

theorem modAt_same {α : Type} {n : Nat} (v : Vector α n) (i : Fin n) (f : α → α) : (modAt v i f)[i] = f v[i] := by
  simp [modAt]

end Sys2Proof.Machine

namespace Sys2Proof.Machine

theorem modAt_at {α : Type} {n : Nat} (v : Vector α n) (i : Fin n) (f : α → α) : (modAt v i f)[(i : Nat)] = f v[(i : Nat)] := by
  simp [modAt]

end Sys2Proof.Machine

namespace Sys2Proof.Machine

/-- A part that a command does not list stands as it was. -/
theorem Answers.frame {ps : List Part} {s t : State} {o : Host.Outcome State Fault Refusal} (h : Answers ps s o) (e : o = .next t)
    (p : Part) (m : p ∉ ps) : p.same s t := by
  obtain ⟨u, a, b⟩ := h
  have : u = t := by rw [a] at e; injection e
  exact this ▸ b.frame p m

end Sys2Proof.Machine

namespace Sys2Proof.Machine

theorem Raises.after {s x t : State} {a b c : Nat} {d : Int} (h : Raises s x a b c d) (l) (e : t.chans.flight = x.chans.flight ++ l) : Raises s t a b c d := by
  obtain ⟨m, p, q⟩ := h
  exact ⟨m ++ l, by rw [e, p, List.append_assoc], List.mem_append_left _ q⟩

theorem Raises.keep {s x t : State} {a b c : Nat} {d : Int} (h : Raises s x a b c d) (e : t.chans = x.chans) : Raises s t a b c d :=
  h.after [] (by rw [e, List.append_nil])

theorem Raises.fire {s x : State} (src cause mid : Nat) (hi : Int) (l) (e : x.chans.flight = s.chans.flight ++ l) (ht : x.time = s.time) :
    Raises s (x.fire src cause mid hi) src cause mid hi :=
  ⟨l ++ [⟨src, evData cause mid hi, none, false, x.time⟩], by rw [← List.append_assoc, ← e]; rfl, by rw [ht]; exact List.mem_append_right _ (List.mem_singleton.2 rfl)⟩

/-- Counting touches the channels alone: an event may set out, and what was counted is kept. -/
theorem satEv_chans (s : State) (o n : Ctr) (a b : Nat) :
    ∃ c, s.satEv o n a b = { s with chans := c } ∧ ∃ l, c.flight = s.chans.flight ++ l := by
  unfold State.satEv
  extract_lets s1
  split
  · exact ⟨_, rfl, _, rfl⟩
  · exact ⟨_, rfl, [], (List.append_nil _).symm⟩

theorem Raises.satEv {s x : State} {a b c : Nat} {d : Int} (h : Raises s x a b c d) (o n : Ctr) (p q : Nat) : Raises s (x.satEv o n p q) a b c d := by
  obtain ⟨_, e, l, k⟩ := satEv_chans x o n p q
  exact h.after l (by rw [e, k])

/-- One event set out since s. -/
theorem Raises.one {s t : State} {src cause mid : Nat} {hi : Int} (e : t.chans.flight = s.chans.flight ++ [⟨src, evData cause mid hi, none, false, s.time⟩]) :
    Raises s t src cause mid hi := ⟨_, e, List.mem_singleton.2 rfl⟩

/-- What a conditional keeps. -/
theorem when_keep {β : Type} (g : State → β) {s x : State} {b : Bool} (h : g x = g s) : g (s.when b x) = g s := by
  unfold State.when; split
  · exact h
  · rfl

theorem ite_keep {β : Type} (g : State → β) {p : Prop} [Decidable p] {x y s : State} (h : g x = g s) (k : g y = g s) : g (if p then x else y) = g s := by
  split
  · exact h
  · exact k

end Sys2Proof.Machine

namespace Sys2Proof

theorem cellGet?_find {α : Type} (m : Cells α) (k : Nat) (h : m.Pairwise (fun p q => p.1 < q.1)) :
    cellGet? m k = (m.find? (fun p => p.1 == k)).map (·.2) := by
  induction m with
  | nil => rfl
  | cons a m ih =>
    obtain ⟨x, v⟩ := a
    rw [List.pairwise_cons] at h
    unfold cellGet?
    rw [List.find?_cons]
    by_cases e : k = x
    · subst e; simp
    · have : ((x, v).1 == k) = false := by simpa using fun q => e q.symm
      rw [if_neg e, this]
      split
      · have : m.find? (fun p => p.1 == k) = none := by
          rw [List.find?_eq_none]
          intro p hp
          have := h.1 p hp
          simp only [beq_iff_eq]; dsimp only at this; omega
        rw [this]; rfl
      · exact ih h.2

theorem find?_filter_key {α : Type} (m : Cells α) (k : Nat) (p : Nat → Bool) :
    (m.filter (fun x => p x.1)).find? (fun x => x.1 == k) = if p k then m.find? (fun x => x.1 == k) else none := by
  rw [List.find?_filter]
  split
  · rename_i h
    congr 1
    funext x
    by_cases e : x.1 = k
    · simp [e, h]
    · simp [e]
  · rename_i h
    rw [List.find?_eq_none]
    intro x _ q
    have q1 := of_decide_eq_true q
    exact h ((beq_iff_eq.1 q1.2) ▸ q1.1)

open Machine in
theorem cellGet_splice {α : Type} [DecidableEq α] (d : α) (m p : Cells α) (lo n k : Nat) (h : cellsWf d m = true) (h' : cellsWf d p = true) :
    cellGet d (cellsSplice m p lo (lo + n)) k = if lo ≤ k ∧ k < lo + n then cellGet d p k else cellGet d m k := by
  have hs := cellsWf_splice d m p lo (lo + n) (by omega) h h'
  have r := ((cellsWf_iff _ _).1 hs).1
  have rm := ((cellsWf_iff _ _).1 h).1
  have rp := ((cellsWf_iff _ _).1 h').1
  unfold cellGet
  rw [cellGet?_find _ _ r, cellGet?_find _ _ rm, cellGet?_find _ _ rp]
  unfold cellsSplice
  have f1 := find?_filter_key m k (fun a => decide (a < lo))
  have f2 := find?_filter_key p k (fun a => decide (lo ≤ a ∧ a < lo + n))
  have f3 := find?_filter_key m k (fun a => decide (lo + n ≤ a))
  rw [List.find?_append, List.find?_append, f1, f2, f3]
  by_cases a : k < lo
  · simp [a, Nat.not_le.2 a, show ¬ (lo + n ≤ k) by omega]
  · by_cases b : k < lo + n
    · simp [a, b, Nat.not_lt.1 a, show ¬ (lo + n ≤ k) by omega]
    · simp [a, b, Nat.not_lt.1 b]

end Sys2Proof

namespace Sys2Proof.Machine

theorem modAt_ne {α : Type} {n : Nat} (v : Vector α n) (i k : Fin n) (f : α → α) (h : i ≠ k) : (modAt v i f)[k] = v[k] := by
  unfold modAt
  exact Vector.getElem_set_ne _ _ (fun q => h (Fin.ext q))

theorem modPhase_at (s : State) (j : Fin 24) (f) : (s.modPhase j f).pwm.ph[j] = f s.pwm.ph[j] := modAt_same _ _ _

theorem modPhase_rail (s : State) (j : Fin 24) (f) : (s.modPhase j f).pwm.rail = s.pwm.rail := rfl

theorem modRail_at (s : State) (n : Fin 8) (f) : (s.modRail n f).pwm.rail[n] = f s.pwm.rail[n] := modAt_same _ _ _

theorem modRail_ne (s : State) (n m : Fin 8) (f) (h : n ≠ m) : (s.modRail n f).pwm.rail[m] = s.pwm.rail[m] := modAt_ne s.pwm.rail n m f h

theorem modRail_ph (s : State) (n : Fin 8) (f) : (s.modRail n f).pwm.ph = s.pwm.ph := rfl

theorem railEvent_ph (s : State) (n c m) : (s.railEvent n c m).pwm.ph = s.pwm.ph := rfl

theorem railEvent_at (s : State) (n c m) : (s.railEvent n c m).pwm.rail[n] = { s.pwm.rail[n] with cause := c } := modRail_at s n _

theorem railEvent_ne (s : State) (n c m k) (h : n ≠ k) : (s.railEvent n c m).pwm.rail[k] = s.pwm.rail[k] := modRail_ne s n k _ h

theorem capEval_ph (s : State) (n) : (s.capEval n).pwm.ph = s.pwm.ph := by
  unfold State.capEval
  extract_lets +onlyGivenNames r req s1
  exact ite_keep (fun x => x.pwm.ph) (s := s) rfl rfl

theorem capEval_at (s : State) (n) : ∃ a b, (s.capEval n).pwm.rail[n] = { s.pwm.rail[n] with capReq := a, cause := b } := by
  unfold State.capEval
  extract_lets +onlyGivenNames r req s1
  have h1 : s1.pwm.rail[n] = { s.pwm.rail[n] with capReq := req } := modRail_at s n _
  by_cases q : (req && !r.capReq) = true
  · rw [if_pos q]
    refine ⟨req, 5, ?_⟩
    rw [railEvent_at]
    show ({ s1.pwm.rail[n] with cause := 5 } : Rail) = _
    rw [h1]
  · rw [if_neg q]
    exact ⟨req, s.pwm.rail[n].cause, h1⟩

theorem capEval_ne (s : State) (n k) (h : n ≠ k) : (s.capEval n).pwm.rail[k] = s.pwm.rail[k] := by
  unfold State.capEval
  extract_lets +onlyGivenNames r req s1
  have h1 : s1.pwm.rail[k] = s.pwm.rail[k] := modRail_ne s n k _ h
  refine ite_keep (fun x => x.pwm.rail[k]) ?_ h1
  exact (railEvent_ne _ n 5 0 k h).trans h1

theorem phFold_rail (l : List (Fin 24)) (f : State → Fin 24 → Phase → Phase) (s : State) :
    (l.foldl (fun s j => s.modPhase j (f s j)) s).pwm.rail = s.pwm.rail :=
  foldl_keep (fun x => x.pwm.rail) (fun s j => s.modPhase j (f s j)) (fun _ _ => rfl) l s

theorem railCut_rail (s : State) (n) : (s.railCut n).pwm.rail = s.pwm.rail := phFold_rail _ (fun s _ => Phase.cut s.time) s

/-- The phase at which a field is not written keeps it. -/
theorem modPhase_keep {β : Type} (g : Phase → β) (s : State) (i j : Fin 24) (f : Phase → Phase) (h : ∀ p, g (f p) = g p := by intro; rfl) :
    g (s.modPhase i f).pwm.ph[j] = g s.pwm.ph[j] := by
  by_cases e : i = j
  · subst e; rw [modPhase_at]; exact h _
  · show g ((modAt s.pwm.ph i f)[j]) = _
    rw [modAt_ne _ _ _ _ e]

theorem lawSyncAll_pwm (s : State) : s.lawSyncAll.pwm = s.pwm := step_lawSyncAll.frame .pwm (by decide)

theorem lawSyncAll_chans (s : State) : s.lawSyncAll.chans = s.chans := step_lawSyncAll.frame .chans (by decide)

theorem nodeLatched_pwm (s : State) (n) : (s.nodeLatched n).pwm = s.pwm := step_nodeLatched.frame .pwm (by decide)

theorem satEv_pwm (s : State) (o n : Ctr) (a b : Nat) : (s.satEv o n a b).pwm = s.pwm := step_satEv.frame .pwm (by decide)

theorem edgesTo_rail (s : State) (j t) : (s.edgesTo j t).pwm.rail = s.pwm.rail ∧ (s.edgesTo j t).time = s.time := by
  refine ⟨?_, step_edgesTo.frame .time (by decide)⟩
  unfold State.edgesTo
  extract_lets +onlyGivenNames p minp h l s1 s2
  have k2 : s2.pwm.rail = s.pwm.rail := by
    have q : (s1.pulseDrop j).pwm = s1.pwm := step_pulseDrop.frame .pwm (by decide)
    exact ite_keep (fun x => x.pwm.rail) (s := s) rfl (by show (s1.pulseDrop j).pwm.rail = _; rw [q]; rfl)
  have q : (s2.stageRise j).pwm = s2.pwm := step_stageRise.frame .pwm (by decide)
  exact ite_keep (fun x => x.pwm.rail) (s := s) (by show (s2.stageRise j).pwm.rail = _; rw [q]; exact k2) k2

theorem edgesTo_at (s : State) (j t) : (s.edgesTo j t).pwm.ph[j] =
    let p := s.pwm.ph[j]
    let minp := s.fld (F.RAIL_CFG.min_pulse p.rail) * 64
    let h := runIvals t minp p.hIv p.h none 0
    let l := runIvals t minp p.lIv p.l none 0
    { p with h := h.1, hIv := h.2.1, hEdge := h.2.2.1.getD p.hEdge, l := l.1, lIv := l.2.1 } := by
  unfold State.edgesTo
  extract_lets +onlyGivenNames p minp h l s1 s2
  have k1 : s1.pwm.ph[j] = { p with h := h.1, hIv := h.2.1, hEdge := h.2.2.1.getD p.hEdge, l := l.1, lIv := l.2.1 } := modPhase_at _ _ _
  have k2 : s2.pwm.ph[j] = s1.pwm.ph[j] := by
    have q : (s1.pulseDrop j).pwm = s1.pwm := step_pulseDrop.frame .pwm (by decide)
    exact ite_keep (fun x => x.pwm.ph[j]) (s := s1) rfl (by show (s1.pulseDrop j).pwm.ph[j] = _; rw [q])
  have q : (s2.stageRise j).pwm = s2.pwm := step_stageRise.frame .pwm (by decide)
  have k3 := ite_keep (fun x => x.pwm.ph[j]) (p := (((!s.padH j && s2.padH j) || (!s.padL j && s2.padL j)) = true)) (s := s2) (x := s2.stageRise j) (y := s2) (by show (s2.stageRise j).pwm.ph[j] = _; rw [q]) rfl
  exact k3.trans (k2.trans k1)

end Sys2Proof.Machine

namespace Sys2Proof.Machine

theorem modStr_at (s : State) (i : Fin 8) (f) : (s.modStr i f).bat.str[i] = f s.bat.str[i] := modAt_same _ _ _

theorem modStr_keep {β : Type} (g : Str → β) (s : State) (i j : Fin 8) (f : Str → Str) (h : ∀ p, g (f p) = g p := by intro; rfl) :
    g (s.modStr i f).bat.str[j] = g s.bat.str[j] := by
  by_cases e : i = j
  · subst e; rw [modStr_at]; exact h _
  · show g ((modAt s.bat.str i f)[j]) = _
    rw [modAt_ne _ _ _ _ e]

/-- A string without its guest record. -/
def noRec (x : Str) : Str := { x with rec_ := IdRec.zero }

theorem of_noRec {β : Type} {a b : Str} (h : noRec a = noRec b) (g : Str → β) (hg : ∀ x, g (noRec x) = g x := by intro; rfl) : g a = g b := by
  rw [← hg a, ← hg b, h]

theorem modBRec_keep (s : State) (i j : Fin 8) (f) : noRec (s.modBRec i f).bat.str[j] = noRec s.bat.str[j] := by
  unfold State.modBRec
  refine ite_keep (fun x => noRec x.bat.str[j]) (modStr_keep noRec s i j _ (fun _ => rfl)) rfl

theorem recWrite_bat (s : State) (a b c) : (s.recWrite a b c).bat = s.bat := step_recWrite.frame .bat (by decide)

theorem batDeliver_bat (s : State) (i) : (s.batDeliver i).bat = s.bat := rfl

theorem idWrite_keep (s : State) (i j : Fin 8) : noRec (s.idWrite i).bat.str[j] = noRec s.bat.str[j] ∧ (s.idWrite i).bat.enSeen = s.bat.enSeen := by
  unfold State.idWrite
  extract_lets +onlyGivenNames x s1 y s2
  have e1 : noRec s1.bat.str[j] = noRec s.bat.str[j] ∧ s1.bat.enSeen = s.bat.enSeen := by
    refine ⟨modBRec_keep _ _ _ _, ?_⟩
    unfold s1 State.modBRec
    exact ite_keep (fun x => x.bat.enSeen) (s := s) rfl rfl
  have e2 : (s2.recWrite (0x40 + x.code) 0 (s2.bRec i).bytes).bat = s2.bat := recWrite_bat _ _ _ _
  constructor
  · refine ite_keep (fun x => noRec x.bat.str[j]) rfl ?_
    rw [e2]; exact e1.1
  · refine ite_keep (fun x => x.bat.enSeen) rfl ?_
    rw [e2]; exact e1.2

end Sys2Proof.Machine

namespace Sys2Proof.Machine

/-- A fold whose round k turns P into Q, while every other round keeps both. -/
theorem foldl_once {α : Type} {f : State → α → State} {P Q : State → Prop} {k : α} (hP : ∀ x j, j ≠ k → P x → P (f x j))
    (hk : ∀ x, P x → Q (f x k)) (hQ : ∀ x j, j ≠ k → Q x → Q (f x j)) (l : List α) (h1 : l.Nodup) (h2 : k ∈ l) (s : State) (h : P s) :
    Q (l.foldl f s) := by
  have later : ∀ (l : List α) (s : State), k ∉ l → Q s → Q (l.foldl f s) := by
    intro l
    induction l with
    | nil => intro s _ q; exact q
    | cons a l ih =>
      intro s m q
      rw [List.mem_cons, not_or] at m
      exact ih _ m.2 (hQ s a (fun e => m.1 e.symm) q)
  induction l generalizing s with
  | nil => exact absurd h2 List.not_mem_nil
  | cons a l ih =>
    rw [List.nodup_cons] at h1
    by_cases e : a = k
    · subst e
      exact later l _ h1.1 (hk s h)
    · rcases List.mem_cons.1 h2 with m | m
      · exact absurd m.symm e
      · exact ih h1.2 m _ (hP s a e h)

theorem foldl_inv {α : Type} {f : State → α → State} {P : State → Prop} (h : ∀ x j, P x → P (f x j)) (l : List α) (s : State) (p : P s) : P (l.foldl f s) := by
  induction l generalizing s with
  | nil => exact p
  | cons a l ih => exact ih _ (h s a p)

theorem mapFin_at {α : Type} {n : Nat} (v : Vector α n) (f : Fin n → α → α) (k : Fin n) : (mapFin v f)[k] = f k v[k] := by
  unfold mapFin; simp

theorem map_at {α β : Type} {n : Nat} (v : Vector α n) (f : α → β) (k : Fin n) : (v.map f)[k] = f v[k] := by
  simp

theorem modNode_at (s : State) (k : Fin 72) (f) : (s.modNode k f).seq.n[k] = f s.seq.n[k] := modAt_same _ _ _

theorem modNode_ne (s : State) (k m : Fin 72) (f) (h : k ≠ m) : (s.modNode k f).seq.n[m] = s.seq.n[m] := modAt_ne s.seq.n k m f h

end Sys2Proof.Machine

namespace Sys2Proof.Machine

theorem thresholds_aon (s : State) : ∃ a b, s.thresholds.aon = { s.aon with nSd := a, nRs := b } := ⟨_, _, rfl⟩

theorem fuseLatch_aon (s : State) : ∃ a b, s.fuseLatch.aon = { s.aon with nSd := a, nRs := b } := by
  unfold State.fuseLatch
  extract_lets _ _ _ _ s1 s2
  obtain ⟨a, b, h⟩ := thresholds_aon (((([0, 1, 2, 3].foldl State.grpCheck s2).holeCheck 0).holeCheck 1))
  refine ⟨a, b, ?_⟩
  rw [h]
  have e1 : Step [.regs, .chans, .otp] s s1 := Step.after (step_modOtp (fun n hn => by with_reducible exact Otp.wf_of hn rfl rfl rfl rfl) (fun _ => rfl)) rfl Step.refl
  have e2 : Step [.regs, .chans, .otp] s s2 := Step.foldl _ _ (fun _ _ => Step.after step_margCheck rfl Step.refl) e1
  have e3 : Step [.regs, .chans, .otp] s ([0, 1, 2, 3].foldl State.grpCheck s2) := Step.foldl _ _ (fun _ _ => Step.after step_grpCheck rfl Step.refl) e2
  have e4 : Step [.regs, .chans, .otp] s (((([0, 1, 2, 3].foldl State.grpCheck s2).holeCheck 0).holeCheck 1)) := Step.after step_holeCheck rfl (Step.after step_holeCheck rfl e3)
  have : _ = s.aon := e4.frame .aon (by decide)
  rw [this]

theorem fuseLatch_keep (s : State) : s.fuseLatch.sys = s.sys ∧ s.fuseLatch.tick = s.tick ∧ s.fuseLatch.law = s.law :=
  ⟨step_fuseLatch.frame .sys (by decide), (step_fuseLatch.frame .tick (by decide)).1, step_fuseLatch.frame .law (by decide)⟩

theorem reportAbort_keep (s : State) (u : Upd) : ∃ c, s.reportAbort u = { s with chans := c } := by
  unfold State.reportAbort; split
  · exact ⟨_, rfl⟩
  · exact ⟨_, rfl⟩

theorem otpCut_live (s : State) : s.otpCut.otp.live = s.otp.live := by
  have h : ∀ (x : State) (n : Nat), (x.countPulses n).otp.live = x.otp.live := by
    intro x n
    unfold State.countPulses
    extract_lets c c' a
    obtain ⟨_, e, _⟩ := satEv_chans { x with otp := { x.otp with pulses := c' } } c c' 0x11 0x203C
    have k : ({ x with otp := { x.otp with pulses := c' } }.satEv c c' 0x11 0x203C).otp.live = x.otp.live := by rw [e]
    exact k
  unfold State.otpCut
  split
  · rfl
  · exact h _ _

theorem warmReset_sys (s : State) (c : Nat) : (s.warmReset c).sys = s.sys.afterReset false c ∧ (s.warmReset c).tick = 0 ∧ (s.warmReset c).law = Law.reset ∧ (s.warmReset c).otp.live = s.otp.live ∧ (s.warmReset c).aon.epoch = s.aon.epoch := by
  have key : ∃ x : State, x.sys = s.sys.afterReset false c ∧ x.tick = 0 ∧ x.law = Law.reset ∧ x.otp.live = s.otp.live ∧ x.aon.epoch = s.aon.epoch ∧ Step [.freeCtr, .regs, .chans, .nvp, .bbx, .store, .config] x (s.warmReset c) := by
    unfold State.warmReset
    extract_lets +onlyGivenNames s0 a b s1
    have h0 : Step [.freeCtr, .regs, .chans, .aon, .law, .slt, .red, .otp, .fuse] s s0 :=
      Step.after step_claimDrop rfl (Step.after step_otpCut rfl (Step.after step_holdTime rfl Step.refl))
    have e0 : s0.sys = s.sys := h0.frame .sys (by decide)
    have e1 : s0.otp.live = s.otp.live := by
      have : Step [.freeCtr, .aon, .nvp, .store] s s.holdTime := Step.after step_holdTime rfl Step.refl
      have e : s.holdTime.otp = s.otp := this.frame .otp (by decide)
      show s.holdTime.otpCut.otp.live = _
      rw [← e]
      exact otpCut_live _
    refine ⟨s1, ?_, rfl, rfl, e1, h0.frame .epoch (by decide), ?_⟩
    · show s0.sys.afterReset false c = _
      rw [e0]
    · exact Step.after step_reportAbort rfl (Step.after step_satEv rfl (Step.after step_dropEvents rfl (Step.after step_recResetOrWait rfl Step.refl)))
  obtain ⟨x, a, b, c', d, e, f⟩ := key
  refine ⟨(f.frame .sys (by decide)).trans a, ((f.frame .tick (by decide)).1).trans b, (f.frame .law (by decide)).trans c', ?_, ?_⟩
  · have : _ = x.otp := f.frame .otp (by decide)
    rw [this, d]
  · have : _ = x.aon := f.frame .aon (by decide)
    rw [this, e]

/-- Registers of REC that a reset takes away, of a register file that lists none of them. -/
theorem recResetOrWait_regs (s : State) (c : Bool) (h : s.regs.act = []) (k : s.regs.sticky = []) : (s.recResetOrWait c).regs = s.regs := by
  unfold State.recResetOrWait
  split
  · rfl
  · have e : s.commitCut.regs = s.regs := step_commitCut.frame .regs (by decide)
    unfold State.recReset
    dsimp only
    rw [e, h, k]
    cases hr : s.regs
    simp_all

theorem coldReset_keep (s : State) (c : Nat) : (s.coldReset c).sys = s.sys.afterReset true c ∧ (s.coldReset c).tick = 0 ∧ (s.coldReset c).law = Law.reset ∧ (s.recBusy = false → (s.coldReset c).regs = Regs.reset) ∧ (s.coldReset c).time = s.time ∧ (s.coldReset c).aon.transport = false := by
  unfold State.coldReset
  extract_lets +onlyGivenNames s0 a b c1 d s1
  have h0 : Step [.freeCtr, .regs, .chans, .aon, .law, .slt, .red, .otp, .fuse] s s0 := Step.after step_claimDrop rfl (Step.after step_otpCut rfl Step.refl)
  have e0 : s0.sys = s.sys := h0.frame .sys (by decide)
  have e1 : s0.time = s.time := h0.frame .time (by decide)
  have h1 : Step [.freeCtr, .regs, .chans, .nvp, .bbx, .store, .config] s1 ((s1.recResetOrWait true).reportAbort s0.upd) :=
    Step.after step_reportAbort rfl (Step.after step_recResetOrWait rfl Step.refl)
  obtain ⟨q, hq⟩ := reportAbort_keep (s1.recResetOrWait true) s0.upd
  have f1 : _ = s1.sys := h1.frame .sys (by decide)
  have f2 : _ = s1.law := h1.frame .law (by decide)
  have f3 : _ = s1.time := h1.frame .time (by decide)
  have f4 : _ = s1.aon := h1.frame .aon (by decide)
  refine ⟨?_, (h1.frame .tick (by decide)).1, f2, fun hb => ?_, f3.trans e1, congrArg Aon.transport f4⟩
  · rw [f1, ← e0]
  · have e2 : s0.recBusy = false := by
      have : s0.nvp = s.nvp := h0.frame .nvp (by decide)
      unfold State.recBusy at hb ⊢
      rw [this]; exact hb
    have e3 : s1.regs = Regs.reset := by
      unfold s1
      have none (l : List (Nat × Word)) : l.filter (fun _ => false) = [] := List.filter_eq_nil_iff.2 (by simp)
      simp only [e2, Bool.false_and, none]
      rfl
    rw [hq]
    show (s1.recResetOrWait true).regs = _
    rw [recResetOrWait_regs s1 true (by rw [e3]; rfl) (by rw [e3]; rfl), e3]

theorem coldSteps_keep (s : State) : s.coldSteps.sys = { s.sys with step := 2 } ∧ s.coldSteps.tick = s.tick ∧ s.coldSteps.law = s.law ∧ ∃ a b, s.coldSteps.aon = { s.aon with nSd := a, nRs := b } := by
  obtain ⟨a, b, c⟩ := fuseLatch_keep s
  have d := fuseLatch_aon s
  unfold State.coldSteps
  generalize s.fuseLatch = x at *
  dsimp only
  rw [a]
  exact ⟨rfl, b, c, d⟩

end Sys2Proof.Machine

namespace Sys2Proof.Machine

theorem demoteNow_aon (s : State) : s.demoteNow.aon = { s.aon with demoted := true, demoteReq := false, demCnt := s.aon.demCnt.inc } ∧
    s.demoteNow.sys.role = if s.sys.role = .undecided then s.sys.role else .standby := by
  unfold State.demoteNow
  extract_lets +onlyGivenNames c was x0 a drill role x1 x2 s1
  have k1 : (if was = .solo then s1.perGated else s1).aon = a ∧ (if was = .solo then s1.perGated else s1).sys.role = role := by
    have e1 : s1.perGated.aon = s1.aon := step_perGated.frame .aon (by decide)
    have e2 : s1.perGated.sys = s1.sys := step_perGated.frame .sys (by decide)
    split
    · rw [e1, e2]; exact ⟨rfl, rfl⟩
    · exact ⟨rfl, rfl⟩
  generalize (if was = .solo then s1.perGated else s1) = p1 at *
  extract_lets +onlyGivenNames s2 s3 s4 s5
  have k2 : s2.aon = a ∧ s2.sys.role = role := by
    have e1 : s2.aon = (p1.hwFld F.RED_CTL.degrade 0).aon := step_claimDrop.frame .aon (by decide)
    have e2 : s2.sys = (p1.hwFld F.RED_CTL.degrade 0).sys := step_claimDrop.frame .sys (by decide)
    have e3 : (p1.hwFld F.RED_CTL.degrade 0).aon = p1.aon := step_hwFld.frame .aon (by decide)
    have e4 : (p1.hwFld F.RED_CTL.degrade 0).sys = p1.sys := step_hwFld.frame .sys (by decide)
    rw [e1, e2, e3, e4]; exact k1
  have k3 : s3.aon = a ∧ s3.sys.role = role := by
    have e1 : s2.seqDemoted.aon = s2.aon := step_seqDemoted.frame .aon (by decide)
    have e2 : s2.seqDemoted.sys.role = s2.sys.role := step_seqDemoted.frame .role (by decide)
    have f1 : s3.aon = s2.aon := ite_keep (fun x => x.aon) (s := s2) e1 rfl
    have f2 : s3.sys.role = s2.sys.role := ite_keep (fun x => x.sys.role) (s := s2) e2 rfl
    rw [f1, f2]; exact k2
  have k5 : s5.aon = a ∧ s5.sys.role = role := by
    have f1 : s5.aon = s3.aon := ite_keep (fun x => x.aon) (s := s3) rfl rfl
    have f2 : s5.sys = s3.sys := ite_keep (fun x => x.sys) (s := s3) rfl rfl
    rw [f1, f2]; exact k3
  clear_value s5
  have e1 : (s5.satEv s.aon.demCnt c 0xB0 0x1A038).lawSyncAll.aon = (s5.satEv s.aon.demCnt c 0xB0 0x1A038).aon := step_lawSyncAll.frame .aon (by decide)
  have e2 : (s5.satEv s.aon.demCnt c 0xB0 0x1A038).lawSyncAll.sys = (s5.satEv s.aon.demCnt c 0xB0 0x1A038).sys := step_lawSyncAll.frame .sys (by decide)
  have e3 : (s5.satEv s.aon.demCnt c 0xB0 0x1A038).aon = s5.aon := step_satEv.frame .aon (by decide)
  have e4 : (s5.satEv s.aon.demCnt c 0xB0 0x1A038).sys = s5.sys := step_satEv.frame .sys (by decide)
  rw [e1, e2, e3, e4]
  exact k5

end Sys2Proof.Machine

namespace Sys2Proof.Machine

/-- A happening that may wait comes about at the instant it waits for, or does not come about. -/
theorem whenAt_or (s : State) (c : Bool) (n : Nat) (f : State → State) : s.whenAt c n f = f (s.await n) ∨ s.whenAt c n f = s := by
  unfold State.whenAt
  split
  · exact Or.inl rfl
  · exact Or.inr rfl

theorem okInj {x t : State} (h : (ok x : Host.Outcome State Fault Refusal) = .next t) : x = t := by injection h

theorem demoted_role (s : State) : s.demoteNow.sys.role ≠ s.sys.role → s.demoteNow.sys.role = .standby := by
  rw [(demoteNow_aon s).2]
  intro n
  split
  · rename_i h; rw [if_pos h] at n; exact absurd rfl n
  · rfl

theorem bcnTaken_role (s : State) (w r c) : (s.bcnTaken w r c).sys = s.sys := step_bcnTaken.frame .sys (by decide)

theorem bcnDemote_role (s : State) (n : s.bcnDemote.sys.role ≠ s.sys.role) : s.bcnDemote.sys.role = .standby := by
  unfold State.bcnDemote at n ⊢
  split
  · rename_i h; rw [if_pos h] at n; exact absurd rfl n
  · rename_i h; rw [if_neg h] at n; exact demoted_role _ n

theorem takeDrive_role (s : State) (r e) : (s.takeDrive r e).sys.role = r := by
  unfold State.takeDrive
  extract_lets +onlyGivenNames x0 x1 x2 s1
  have b1 : s1.seedAll.latchClaim.lawSyncAll.sys = s1.seedAll.latchClaim.sys := step_lawSyncAll.frame .sys (by decide)
  have b2 : s1.seedAll.latchClaim.sys = s1.seedAll.sys := step_latchClaim.frame .sys (by decide)
  have b3 : s1.seedAll.sys = s1.sys := step_seedAll.frame .sys (by decide)
  rw [b1, b2, b3]

end Sys2Proof.Machine
end

