-- ==== Sys2Proof/Laws/ModeOps.lean ====
section
/-! SUPPORT. What the operations of mode changes and overlays keep and what they lead to. -/

set_option Elab.async false

namespace Sys2Proof.Machine
open Sys2Proof

theorem stageMode_ok (s : State) (m : Nat) (b : Bool) (ws ps) (h : (s.overlayCheck m).2 = some (ws, ps)) :
    (s.stageMode m b).1.regs.stage = some ⟨m, ws, ps, b, false, s.time⟩ ∧ (s.stageMode m b).1.sys = { s.sys with pend := some m, pendHost := b } := by
  have e : Step [.regs, .chans, .seq, .nvp] s (s.overlayCheck m).1 := step_overlayCheck
  have a : _ = s.sys := e.frame .sys (by decide)
  have c : _ = s.time := e.frame .time (by decide)
  unfold State.stageMode
  generalize s.overlayCheck m = q at *
  obtain ⟨s1, r⟩ := q
  dsimp only at h a c ⊢
  subst h
  dsimp only
  rw [a]
  exact ⟨rfl, rfl⟩

/-- With nothing asked for and nothing staged there is nothing to drop. -/
theorem dropPending_none (s : State) (h : s.regs.stage = none) (k : s.sys.waitReq = none) (n : s.sys.transportStep ≠ 1) : s.dropPending = s := by
  unfold State.dropPending
  rw [h, k]
  dsimp only
  rw [if_neg n]

/-- A stage in hand keeps the held writes held. -/
theorem heldOn_stage (s : State) (h : s.regs.stage.isSome = true) : s.heldOn = s := by unfold State.heldOn; rw [if_pos h]

theorem modeReqEnd_keep (s : State) (a b c : Nat) : ∃ h, s.modeReqEnd a b c = { s with hst := h } := ⟨_, rfl⟩

theorem claimDrop_sys (s : State) : s.otpCut.claimDrop.sys = s.sys :=
  (Step.after step_claimDrop rfl (Step.after step_otpCut rfl Step.refl) : Step [.freeCtr, .chans, .regs, .aon, .law, .slt, .red, .otp, .fuse] _ _).frame .sys (by decide)

theorem follow_keep (a x : State) : (a.follow x).sys = x.sys ∧ (a.follow x).regs = x.regs ∧ (a.follow x).otp = x.otp ∧ (a.follow x).bbx = x.bbx :=
  ⟨step_follow.frame .sys (by decide), step_follow.frame .regs (by decide), step_follow.frame .otp (by decide), step_follow.frame .bbx (by decide)⟩

/-- A request that comes to its turn leaves the values in force, the mode and the black box alone. -/
theorem waitTurn_keep (s : State) : s.waitTurn.regs.act = s.regs.act ∧ s.waitTurn.sys.mode = s.sys.mode ∧ s.waitTurn.otp = s.otp ∧
    s.waitTurn.bbx = s.bbx ∧ (s.sys.waitReq = none → s.waitTurn = s) :=
  ⟨step_waitTurn.frame .config (by decide), step_waitTurn.frame .mode (by decide), step_waitTurn.frame .otp (by decide),
    step_waitTurn.frame .bbx (by decide), fun h => by unfold State.waitTurn; rw [h]⟩

end Sys2Proof.Machine
end

