-- ==== Sys2Proof/Laws/RegisterOps.lean ====
section
/-! SUPPORT. What the operations of register writes keep and what they lead to. -/

set_option Elab.async false

namespace Sys2Proof.Machine
open Sys2Proof

theorem and_ones (a : Word) : a &&& 0xFFFFFFFF = a := by
  exact BitVec.and_allOnes

theorem and_not_zero (a : Word) : a &&& ~~~0 = a := by
  have : (~~~(0 : Word)) = 0xFFFFFFFF := rfl
  rw [this, and_ones]

theorem and_not_ones (a : Word) : a &&& ~~~0xFFFFFFFF = 0 := by
  have : (~~~(0xFFFFFFFF : Word)) = 0 := rfl
  rw [this]; simp

theorem and_zero' (a : Word) : a &&& 0 = 0 := by simp

/-- The registers after a host write: what waits and what is in force are those of its two parts; a write of another OTP_CMD.op also
sets a sticky bit. -/
theorem writeReg_regs (s : State) (d : RegDesc) (e off : Nat) (val : Word) (hd : d.shadow ≠ .staged) :
    let r := (((if s.writeMask d e &&& ~~~d.shadowMask = 0 then s.clearSticky d off val else (s.clearSticky d off val).checkedWrite d e ⟨off, val, s.writeMask d e &&& ~~~d.shadowMask, s.time⟩).queueWrite ⟨off, val, s.writeMask d e &&& d.shadowMask, s.time⟩)).regs
    (s.writeReg d e off val).regs.act = r.act ∧ (s.writeReg d e off val).regs.shadowQ = r.shadowQ ∧ (s.writeReg d e off val).regs.held = r.held ∧
      (d.id ≠ .OTP_CMD → (s.writeReg d e off val).regs.sticky = r.sticky) := by
  unfold State.writeReg
  extract_lets +onlyGivenNames r m s1
  rw [if_neg hd]
  extract_lets +onlyGivenNames now s2 s3 a s4
  have : (s.follow s4).regs = s4.regs := step_follow.frame .regs (by decide)
  rw [this]
  have h3 : s3.regs = r := rfl
  rw [← h3]
  unfold s4
  split
  · rename_i h
    split
    · exact ⟨rfl, rfl, rfl, fun _ => rfl⟩
    · exact ⟨rfl, rfl, rfl, fun n => absurd h n⟩
  · exact ⟨rfl, rfl, rfl, fun _ => rfl⟩
  · split
    · split <;> exact ⟨rfl, rfl, rfl, fun _ => rfl⟩
    · exact ⟨rfl, rfl, rfl, fun _ => rfl⟩
  · exact ⟨rfl, rfl, rfl, fun _ => rfl⟩

theorem clear_act (s : State) (d : RegDesc) (off : Nat) (val : Word) : (s.clearSticky d off val).regs.act = s.regs.act ∧ (s.clearSticky d off val).regs.shadowQ = s.regs.shadowQ ∧ (s.clearSticky d off val).regs.stage = s.regs.stage ∧ (s.clearSticky d off val).regs.staged = s.regs.staged ∧ (s.clearSticky d off val).hbx = s.hbx ∧ (s.clearSticky d off val).regs.held = s.regs.held := by
  unfold State.clearSticky; split <;> exact ⟨rfl, rfl, rfl, rfl, rfl, rfl⟩

theorem clear_sticky (s : State) (d : RegDesc) (off : Nat) (val : Word) (h : cellsWf 0 s.regs.sticky = true) :
    cellGet 0 (s.clearSticky d off val).regs.sticky off = cellGet 0 s.regs.sticky off &&& (~~~(val &&& BitVec.ofNat 32 d.w1c) ||| cellGet 0 s.freshNow off) := by
  unfold State.clearSticky
  split
  · rename_i h0
    rw [h0, show BitVec.ofNat 32 0 = (0 : Word) from rfl, and_zero']
    have : (~~~(0 : Word)) ||| cellGet 0 s.freshNow off = 0xFFFFFFFF := by
      rw [show (~~~(0 : Word)) = BitVec.allOnes 32 from rfl, BitVec.allOnes_or]
      rfl
    rw [this, and_ones]
  · exact cellGet_put_same 0 _ _ _ h

theorem graphChecked_regs (s c : State) : (s.graphChecked c).regs = s.regs := step_graphChecked.frame .regs (by decide)

/-- A write that passes its checks: the word is in force, and the registers note that it was written at this instant. -/
theorem checkedWrite_good (s : State) (d : RegDesc) (e : Nat) (h : HostWrite)
    (g : (s.setWord d e h.off (maskIn (s.word h.off (d.rstAt e)) h.val h.mask)).checkReg d.id (maskIn (s.word h.off (d.rstAt e)) h.val h.mask) = true) :
    ∃ a b, (s.checkedWrite d e h).regs = { (s.setWord d e h.off (maskIn (s.word h.off (d.rstAt e)) h.val h.mask)).regs with wrote := a, wroteAt := b } := by
  unfold State.checkedWrite
  extract_lets +onlyGivenNames w cand good c put s1
  have hg : good = true := g
  rw [if_pos hg]
  unfold s1
  simp only [hg, if_true]
  split
  · rw [graphChecked_regs]; exact ⟨_, _, rfl⟩
  · exact ⟨_, _, rfl⟩

theorem maskIn_zero (a b : Word) : maskIn a b 0 = a := by unfold maskIn; rw [and_not_zero, and_zero']; simp

theorem cellGet?_put (d : Word) (m : Cells Word) (k : Nat) (x : Word) (h : keysRise m = true) : (cellGet? (cellPut d m k x) k).getD d = x := by
  have r := (keysRise_iff m).1 h
  unfold cellPut
  split
  · rw [cellGet?_del m k k r, if_pos rfl]; simp_all
  · rw [cellGet?_ins m k k x r, if_pos rfl]; rfl

theorem seen {s : State} {i : Island} (h : s.regs.gatedSeen.contains i = false) (off : Nat) :
  (s.gatedEvent i off).regs.gatedSeen = i :: s.regs.gatedSeen ∧ Raises s (s.gatedEvent i off) 0x06 0x01 0 off := by
  unfold State.gatedEvent
  rw [if_neg (by rw [h]; simp)]
  exact ⟨rfl, _, rfl, List.mem_singleton.2 rfl⟩

theorem bat_counters (s s1 t : State) (i : Fin 8) (c : Ctr) (h1 : s.modStr i (fun x => { x with lrn := s.cleared (0x170C0 + 0x200 * i.val), rej := s.cleared (0x170C4 + 0x200 * i.val) }) = s1)
    (ht : (if s.bat.str[i].present then s1.modBRec i (fun r => { r with cyc := s.cleared (0x170A8 + 0x200 * i.val) }) else s1) = t)
    (hc : c ∈ CntBlock.counters t (.bat i)) :
    c = s.cleared (0x170C0 + 0x200 * i.val) ∨ c = s.cleared (0x170C4 + 0x200 * i.val) ∨ c = s.cleared (0x170A8 + 0x200 * i.val) := by
  have e1 : s1.bat.str[i].lrn = s.cleared (0x170C0 + 0x200 * i.val) ∧ s1.bat.str[i].rej = s.cleared (0x170C4 + 0x200 * i.val) ∧
      s1.bat.str[i].guest = s.bat.str[i].guest ∧ s1.bat.str[i].present = s.bat.str[i].present ∧ s1.bat.str[i].code = s.bat.str[i].code := by
    rw [← h1]
    unfold State.modStr
    dsimp only
    simp only [Fin.getElem_fin, modAt_at, and_self]
  have e2 : t.bat.str[i].lrn = s.cleared (0x170C0 + 0x200 * i.val) ∧ t.bat.str[i].rej = s.cleared (0x170C4 + 0x200 * i.val) ∧
      (t.bat.str[i].present = true → (t.bRec i).cyc = s.cleared (0x170A8 + 0x200 * i.val)) := by
    rw [← ht]
    split
    · unfold State.modBRec
      split
      · rename_i hg
        unfold State.bRec State.modStr
        dsimp only
        simp only [Fin.getElem_fin, modAt_at] at e1 hg ⊢
        simp only [e1.1, e1.2.1, hg, if_true, true_and, implies_true]
      · rename_i hg
        refine ⟨e1.1, e1.2.1, fun _ => ?_⟩
        refine (congrArg IdRec.cyc (if_neg hg)).trans ?_
        have := modAt_at s1.bat.ids (idx16 s1.bat.str[i].code) (fun r => { r with cyc := s.cleared (0x170A8 + 0x200 * i.val) })
        exact congrArg IdRec.cyc this
    · rename_i hp
      exact ⟨e1.1, e1.2.1, fun h => absurd (e1.2.2.2.1.symm.trans h) hp⟩
  unfold CntBlock.counters at hc
  dsimp only at hc
  rw [e2.1, e2.2.1] at hc
  split at hc
  · rename_i hp
    rw [e2.2.2 hp] at hc
    simp at hc
    rcases hc with h | h | h <;> simp [h]
  · simp at hc
    rcases hc with h | h <;> simp [h]

theorem bit31_low (w : Word) : (w.toNat &&& 2147483647) >>> 31 % 2 = 0 := by
  have : w.toNat &&& 2147483647 < 2147483648 := Nat.lt_of_le_of_lt Nat.and_le_right (by decide)
  rw [Nat.shiftRight_eq_div_pow]
  omega

theorem map_disjoint : regMap.all (fun d => (d.rw ||| d.rws) &&& d.rwl == 0 && decide (d.rwl < 2 ^ 32)) = true := by decide +kernel

theorem mem_disjoint {d : RegDesc} (h : d ∈ regMap) : (d.rw ||| d.rws) &&& d.rwl = 0 ∧ d.rwl < 2 ^ 32 := by
  have := List.all_eq_true.1 map_disjoint d h
  simpa using this

theorem regAt_mem {off : Nat} {d e w} (h : regAt off = some (d, e, w)) : d ∈ regMap := by
  unfold regAt at h
  obtain ⟨r, hr, hm⟩ := List.exists_of_findSome?_eq_some h
  obtain ⟨p, hp, he⟩ := Option.map_eq_some_iff.1 hm
  have : r = d := congrArg Prod.fst he
  exact this ▸ hr

theorem writable_rwl {s : State} {d : RegDesc} {e : Nat} (hl : s.sys.lock = true) (h : (d.rw ||| d.rws) &&& d.rwl = 0) :
    s.writable d e &&& BitVec.ofNat 32 d.rwl = 0 := by
  unfold State.writable
  rw [if_pos hl]
  have : BitVec.ofNat 32 (d.rw ||| d.rws ||| 0) &&& BitVec.ofNat 32 d.rwl = 0 := by
    have : (d.rw ||| d.rws ||| 0) = d.rw ||| d.rws := Nat.or_zero _
    rw [this, ← BitVec.ofNat_and, h]
    rfl
  rw [BitVec.and_assoc, BitVec.and_comm (~~~_), ← BitVec.and_assoc, this]
  simp

theorem maskIn_and {a b m r : Word} (h : m &&& r = 0) : maskIn a b m &&& r = a &&& r := by
  unfold maskIn
  ext i hi
  have := congrArg (fun x : Word => x[i]) h
  simp at this ⊢
  cases hm : m[i] <;> cases hr : r[i] <;> simp_all

theorem clear_act' (s : State) (d : RegDesc) (off : Nat) (val : Word) : (s.clearSticky d off val).regs.act = s.regs.act ∧ (s.clearSticky d off val).regs.shadowQ = s.regs.shadowQ ∧ (s.clearSticky d off val).regs.held = s.regs.held ∧ (s.clearSticky d off val).sys = s.sys := by
  unfold State.clearSticky; split <;> exact ⟨rfl, rfl, rfl, rfl⟩

theorem checked_word {s : State} {d : RegDesc} {e : Nat} {h : HostWrite} {r : Word} (wf : keysRise s.regs.act = true) (hm : h.mask &&& r = 0) :
    (s.checkedWrite d e h).word h.off (d.rstAt e) &&& r = s.word h.off (d.rstAt e) &&& r ∧ (s.checkedWrite d e h).regs.shadowQ = s.regs.shadowQ ∧ (s.checkedWrite d e h).regs.held = s.regs.held := by
  unfold State.checkedWrite
  extract_lets +onlyGivenNames w cand good a put s1
  have hc : cand.word h.off (d.rstAt e) &&& r = s.word h.off (d.rstAt e) &&& r := by
    have : cand.word h.off (d.rstAt e) = w := cellGet?_put _ _ _ _ wf
    rw [this]
    exact maskIn_and hm
  have hq : cand.regs.shadowQ = s.regs.shadowQ ∧ cand.regs.held = s.regs.held := ⟨rfl, rfl⟩
  have h1 : (∃ x y, s1.regs = { cand.regs with wrote := x, wroteAt := y }) ∨ (∃ x y, s1.regs = { s.regs with wrote := x, wroteAt := y }) := by
    unfold s1
    split
    · rw [graphChecked_regs]
      unfold put
      split
      · exact .inl ⟨_, _, rfl⟩
      · exact .inr ⟨_, _, rfl⟩
    · unfold put
      split
      · exact .inl ⟨_, _, rfl⟩
      · exact .inr ⟨_, _, rfl⟩
  have h2 : (if good then s1 else s1.fire 0x01 0x04 0 h.off).regs = s1.regs := by split <;> rfl
  unfold State.word at *
  rw [h2]
  rcases h1 with ⟨x, y, h1⟩ | ⟨x, y, h1⟩ <;> rw [h1]
  · exact ⟨hc, hq⟩
  · exact ⟨rfl, rfl, rfl⟩

theorem writeReg_rwl (s : State) (d : RegDesc) (e off : Nat) (val : Word) (wf : keysRise s.regs.act = true) (hl : s.sys.lock = true) (h : (d.rw ||| d.rws) &&& d.rwl = 0) :
    (s.writeReg d e off val).word off (d.rstAt e) &&& BitVec.ofNat 32 d.rwl = s.word off (d.rstAt e) &&& BitVec.ofNat 32 d.rwl ∧
      ∀ h ∈ (s.writeReg d e off val).regs.shadowQ ++ (s.writeReg d e off val).regs.held, h ∈ s.regs.shadowQ ++ s.regs.held ∨ h.mask &&& BitVec.ofNat 32 d.rwl = 0 := by
  have c := clear_act' s d off val
  unfold State.writeReg
  extract_lets +onlyGivenNames m s1
  have hm : m &&& BitVec.ofNat 32 d.rwl = 0 := by
    unfold m State.writeMask
    split
    · simp
    · exact writable_rwl hl h
  have cw : s1.word off (d.rstAt e) = s.word off (d.rstAt e) := by unfold State.word; rw [c.1]
  split
  · exact ⟨by rw [cw], fun h m => .inl (by rw [c.2.1, c.2.2.1] at m; exact m)⟩
  · extract_lets +onlyGivenNames now s2 s3 a s4
    have h2 : s2.word off (d.rstAt e) &&& BitVec.ofNat 32 d.rwl = s.word off (d.rstAt e) &&& BitVec.ofNat 32 d.rwl ∧ s2.regs.shadowQ = s.regs.shadowQ ∧ s2.regs.held = s.regs.held := by
      unfold s2
      split
      · exact ⟨by rw [cw], c.2.1, c.2.2.1⟩
      · have := checked_word (s := s1) (d := d) (e := e) (h := ⟨off, val, now, s.time⟩) (r := BitVec.ofNat 32 d.rwl) (by rw [c.1]; exact wf) (by
          show (m &&& ~~~d.shadowMask) &&& _ = 0
          rw [BitVec.and_assoc, BitVec.and_comm (~~~_), ← BitVec.and_assoc, hm]; simp)
        exact ⟨this.1.trans (by rw [cw]), this.2.1.trans c.2.1, this.2.2.trans c.2.2.1⟩
    have h3 : s3.word off (d.rstAt e) = s2.word off (d.rstAt e) ∧ ∀ h ∈ s3.regs.shadowQ ++ s3.regs.held, h ∈ s2.regs.shadowQ ++ s2.regs.held ∨ h.mask &&& BitVec.ofNat 32 d.rwl = 0 := by
      have hz : (m &&& d.shadowMask) &&& BitVec.ofNat 32 d.rwl = 0 := by
        rw [BitVec.and_assoc, BitVec.and_comm (d.shadowMask), ← BitVec.and_assoc, hm]; simp
      unfold s3 State.queueWrite
      split
      · exact ⟨rfl, fun h m => .inl m⟩
      · split
        · refine ⟨rfl, fun h m => ?_⟩
          simp only [List.mem_append, List.mem_singleton] at m ⊢
          rcases m with m | m | m
          · exact .inl (.inl m)
          · exact .inl (.inr m)
          · exact .inr (by rw [m]; exact hz)
        · refine ⟨rfl, fun h m => ?_⟩
          simp only [List.mem_append, List.mem_singleton] at m ⊢
          rcases m with (m | m) | m
          · exact .inl (.inl m)
          · exact .inr (by rw [m]; exact hz)
          · exact .inl (.inr m)
    have h4 : s4.regs.act = s3.regs.act ∧ s4.regs.shadowQ = s3.regs.shadowQ ∧ s4.regs.held = s3.regs.held := by
      unfold s4
      split
      · split <;> exact ⟨rfl, rfl, rfl⟩
      · exact ⟨rfl, rfl, rfl⟩
      · split
        · split <;> exact ⟨rfl, rfl, rfl⟩
        · exact ⟨rfl, rfl, rfl⟩
      · exact ⟨rfl, rfl, rfl⟩
    have h5 : (s.follow s4).regs = s4.regs := step_follow.frame .regs (by decide)
    rw [h5, h4.2.1, h4.2.2]
    constructor
    · have : (s.follow s4).word off (d.rstAt e) = s3.word off (d.rstAt e) := by unfold State.word; rw [h5, h4.1]
      rw [this, h3.1, h2.1]
    · intro h m
      rcases h3.2 h m with k | k
      · rw [h2.2.1, h2.2.2] at k; exact .inl k
      · exact .inr k

end Sys2Proof.Machine
end

