-- ==== Sys2Proof/Laws/SenseOps.lean ====
section
/-! SUPPORT. What the operations of samples and the tick keep and what they lead to. -/

set_option Elab.async false

namespace Sys2Proof.Machine
open Sys2Proof

theorem deliver_ch (s : State) (ch : Fin 130) (c : Cal) (st : Nat) : ((s.deliver ch c st).sns.ch[ch]).stamp = some st ∧ ((s.deliver ch c st).sns.ch[ch]).val = c.val ∧
   ((s.deliver ch c st).sns.ch[ch]).raw = c.raw ∧ ((s.deliver ch c st).sns.ch[ch]).eng = c.eng ∧ ((s.deliver ch c st).sns.ch[ch]).conv = none ∧ (s.deliver ch c st).sns.scanNext = s.sns.scanNext := by
  have : ∃ (x : Bool) (y : Chan → List (Nat × Int)), (s.deliver ch c st).sns = { s.sns with ch := modAt s.sns.ch ch (fun z => { z with raw := c.raw, eng := c.eng, val := c.val, stamp := some st, ovr := x, conv := none, hist := y z }) } := by
    unfold State.deliver
    extract_lets s1
    refine ⟨c.ovr, fun x => if ch.val < 34 then (st, c.eng) :: x.hist.takeWhile (fun h => decide (st < h.1 + 25000)) else [], ?_⟩
    split <;> rfl
  obtain ⟨x, y, h⟩ := this
  rw [h]
  simp [modAt]

theorem frameStart_keep (x : State) (k) : (x.frameStart k).tick = x.tick ∧ (x.frameStart k).tickAt = x.tickAt :=
  step_frameStart.frame .tick (by decide)

/-- An event of the allocation period comes about in the period's first tick once its offset has passed. -/
theorem Completes.period {s : State} {c : Instr} {stage off : Nat} {f : State → State} {P : State → Prop}
    (e : exec c s = Machine.ok (s.periodAt stage off f)) (h1 : s.works = true) (h2 : s.runs .dsp = true) (h3 : s.hbx.phase = stage)
    (h4 : s.tick = s.hbx.periodTick) (h5 : s.ranOut s.tickAt off = true) (h : P (f s)) : Completes c s P := by
  refine Completes.due e (by simp [h1, h2, h3, h4]) ?_ h
  rw [h4]
  simpa using h5

theorem hbxLate_now (s : State) (h6 : s.hbx.phase < 3) (h7 : s.bit F.HBX_CTL.en = true) (h8 : s.hbx.lateNow = false)
    (h9 : s.hbx.periodTick + s.hbx.period ≤ s.tick + 1) : ∃ l, s.hbxLate.hbx.phase = 3 ∧ s.hbxLate.hbx.path = 3 ∧ s.hbxLate.hbx.lateCnt = s.hbx.lateCnt.inc ∧
      s.hbxLate.chans.flight = s.chans.flight ++ ([⟨0x58, evData 0x01 0 0, none, false, s.time⟩] ++ l) := by
  unfold State.hbxLate
  simp only [h6, h7, h8, h9, decide_true, Bool.true_or, Bool.and_self, Bool.or_true, if_true, Bool.false_eq_true, if_false]
  obtain ⟨c, e, l, k⟩ := satEv_chans (((State.stick { s with hbx := { s.hbx with path := 3, lateCnt := s.hbx.lateCnt.inc, lateNow := true } } F.HBX_STAT.late).fire 0x58 0x01 0 0)) s.hbx.lateCnt s.hbx.lateCnt.inc 0x58 0x1407C
  rw [e]
  exact ⟨l, by first | trivial | rfl, rfl, rfl, k.trans (List.append_assoc ..)⟩

theorem boundary_aux (s1 : State) (start : Bool) : let s2 := (foldFin 32 s1.snsSat State.frameStart).lawNext start
    let r := if s2.ctlWorks then foldFin 8 s2 (fun s n => if s.driven n = [] then s.railAdopt n else s) else s2
    r.tick = s1.tick ∧ r.tickAt = s1.tickAt := by
  extract_lets s2 r
  have a0 := (step_snsSat (s := s1)).frame .tick (by decide)
  have a1 : (foldFin 32 s1.snsSat State.frameStart).tick = s1.tick := (foldFin_keep (fun x => x.tick) _ (fun x k => (frameStart_keep x k).1) _).trans a0.1
  have a2 : (foldFin 32 s1.snsSat State.frameStart).tickAt = s1.tickAt := (foldFin_keep (fun x => x.tickAt) _ (fun x k => (frameStart_keep x k).2) _).trans a0.2
  have b : s2.tick = _ ∧ s2.tickAt = _ := step_lawNext.frame .tick (by decide)
  have e2 : s2.tick = s1.tick ∧ s2.tickAt = s1.tickAt := ⟨b.1.trans a1, b.2.trans a2⟩
  unfold r
  split
  · have q (x : State) (k) : (x.railAdopt k).tick = x.tick ∧ (x.railAdopt k).tickAt = x.tickAt := step_railAdopt.frame .tick (by decide)
    constructor
    · refine Eq.trans (foldFin_keep (fun x => x.tick) _ (fun x k => ?_) _) e2.1
      split
      · exact (q x k).1
      · rfl
    · refine Eq.trans (foldFin_keep (fun x => x.tickAt) _ (fun x k => ?_) _) e2.2
      split
      · exact (q x k).2
      · rfl
  · exact e2

theorem boundary_keep (s : State) : s.boundary.tick = s.tick ∧ s.boundary.tickAt = some s.time := by
  unfold State.boundary
  exact boundary_aux _ _

theorem srcFold_keep (l : List (Fin 40)) (x : State) : (l.foldl State.srcBounds x).hbx.phase = x.hbx.phase ∧ (l.foldl State.srcBounds x).hbx.done = x.hbx.done ∧ (l.foldl State.srcBounds x).regs.act = x.regs.act := by
  have q (y : State) (k) : (y.srcBounds k).hbx.phase = y.hbx.phase ∧ (y.srcBounds k).hbx.done = y.hbx.done ∧ (y.srcBounds k).regs.act = y.regs.act := by
    unfold State.srcBounds
    extract_lets
    repeat' split
    all_goals exact ⟨rfl, rfl, rfl⟩
  exact ⟨foldl_keep (fun y => y.hbx.phase) _ (fun y k => (q y k).1) l x, foldl_keep (fun y => y.hbx.done) _ (fun y k => (q y k).2.1) l x, foldl_keep (fun y => y.regs.act) _ (fun y k => (q y k).2.2) l x⟩

theorem hbxRun_keep (x : State) (a b c d e) : (x.hbxRun a b c d e).hbx = x.hbx ∧ (x.hbxRun a b c d e).regs.act = x.regs.act := by
  unfold State.hbxRun
  repeat' split
  all_goals exact ⟨rfl, rfl⟩

theorem satEv_keep (x : State) (o n : Ctr) (a b) : (x.satEv o n a b).hbx = x.hbx ∧ (x.satEv o n a b).regs = x.regs :=
  ⟨step_satEv.frame .hbx (by decide), step_satEv.frame .regs (by decide)⟩

theorem report_keep (h : Hbx) (r : Result) (q : Int) (cap : Option Int) (ns : Nat) : (h.report r q cap ns).phase = h.phase ∧ (h.report r q cap ns).done = h.done := by
  unfold Hbx.report
  extract_lets
  exact ⟨rfl, rfl⟩

theorem seedNew_all (s : State) : s.seedNew.hbx.phase = s.hbx.phase ∧ s.seedNew.hbx.done = s.hbx.done ∧ s.seedNew.regs.act = s.regs.act := by
  unfold State.seedNew
  exact ⟨rfl, rfl, rfl⟩

theorem hbxAlloc_all (s : State) (r q) : (s.hbxAlloc r q).hbx.phase = s.hbx.phase ∧ (s.hbxAlloc r q).hbx.done = s.hbx.done ∧ (s.hbxAlloc r q).regs.act = s.regs.act := by
  unfold State.hbxAlloc
  refine ⟨foldl_keep (fun y => y.hbx.phase) _ ?_ _ _, foldl_keep (fun y => y.hbx.done) _ ?_ _ _, foldl_keep (fun y => y.regs.act) _ ?_ _ _⟩
  all_goals exact fun _ _ => rfl

theorem hbxDispatch_all (s : State) (d : Int) (c) : (s.hbxDispatch d c).hbx.phase = s.hbx.phase ∧ (s.hbxDispatch d c).hbx.done = s.hbx.done ∧ (s.hbxDispatch d c).regs.act = s.regs.act := by
  unfold State.hbxDispatch
  extract_lets +onlyGivenNames e q en
  have kk := srcFold_keep en s.seedNew
  generalize List.foldl State.srcBounds s.seedNew en = x1 at kk ⊢
  extract_lets s1 r s2 h h' s2d s3 s4 s5
  have k0 : s.seedNew.hbx.phase = s.hbx.phase ∧ s.seedNew.hbx.done = s.hbx.done ∧ s.seedNew.regs.act = s.regs.act := seedNew_all s
  have k1 : s1.hbx.phase = s.seedNew.hbx.phase ∧ s1.hbx.done = s.seedNew.hbx.done ∧ s1.regs.act = s.seedNew.regs.act := kk
  rw [k0.1, k0.2.1, k0.2.2] at k1
  clear_value r s1
  have k2 := hbxAlloc_all s1 r q
  have k3 : s3.hbx.phase = s2.hbx.phase ∧ s3.hbx.done = s2.hbx.done ∧ s3.regs.act = s2.regs.act := by
    have hr := report_keep h r q c (s2.hbxTime r.path)
    exact ⟨hr.1, hr.2, rfl⟩
  have k4 : s4.hbx = s3.hbx ∧ s4.regs = s3.regs := by
    unfold s4 State.satIf
    split <;> split <;> simp only [satEv_keep, and_self]
  have k5 : s5.hbx = s4.hbx ∧ s5.regs.act = s4.regs.act := by
    unfold s5; split <;> exact ⟨rfl, rfl⟩
  rw [(hbxRun_keep _ _ _ _ _ _).1, (hbxRun_keep _ _ _ _ _ _).1, (hbxRun_keep _ _ _ _ _ _).2, (hbxRun_keep _ _ _ _ _ _).2, k5.1, k5.2, k4.1, k4.2]
  exact ⟨k3.1.trans (k2.1.trans k1.1), k3.2.1.trans (k2.2.1.trans k1.2.1), k3.2.2.trans (k2.2.2.trans k1.2.2)⟩

theorem hbxDispatch_keep (s : State) (d : Int) (c) : (s.hbxDispatch d c).hbx.phase = s.hbx.phase ∧ (s.hbxDispatch d c).hbx.done = s.hbx.done :=
  ⟨(hbxDispatch_all s d c).1, (hbxDispatch_all s d c).2.1⟩

theorem hbxDispatch_act (s : State) (d : Int) (c) : (s.hbxDispatch d c).regs.act = s.regs.act := (hbxDispatch_all s d c).2.2

end Sys2Proof.Machine
end

