-- ==== Sys2Proof/Laws/LawOps.lean ====
section
/-! SUPPORT. What the operations of the engines keep and what they lead to. -/

set_option Elab.async false

namespace Sys2Proof.Machine
open Sys2Proof

theorem lawFresh_at (s : State) (p : Fin 20 → Bool) (e : Fin 20) : ∃ b, (s.lawFresh p).law.eng[e] = { s.law.eng[e] with fresh := b } := by
  unfold State.lawFresh mapFin
  simp only [Fin.getElem_fin, Vector.getElem_ofFn]
  split
  · exact ⟨true, rfl⟩
  · exact ⟨_, rfl⟩

theorem flag_law (s : State) (e c f) : (s.lawFlag e c f).law = s.law ∧ (s.lawFlag e c f).pwm = s.pwm :=
  ⟨step_lawFlag.frame .law (by decide), step_lawFlag.frame .pwm (by decide)⟩

theorem satEv_law (s : State) (o n : Ctr) (a b : Nat) : (s.satEv o n a b).law = s.law ∧ (s.satEv o n a b).pwm = s.pwm :=
  ⟨step_satEv.frame .law (by decide), step_satEv.frame .pwm (by decide)⟩

theorem modEng_at (s : State) (e : Fin 20) (f) : (s.modEng e f).law.eng[e] = f s.law.eng[e] := modAt_same _ _ _

theorem modEng_pwm (s : State) (e : Fin 20) (f) : (s.modEng e f).pwm = s.pwm := rfl

theorem modEng_other (s : State) (e d : Fin 20) (f) (h : e ≠ d) : (s.modEng e f).law.eng[d] = s.law.eng[d] := by
  show (modAt s.law.eng e f)[d] = _
  unfold modAt
  exact Vector.getElem_set_ne _ _ (fun q => h (Fin.ext q))

/-- Fields of an engine that neither following error nor its actions change. -/
theorem enter_keep (g : Engine) (r b) : (g.enter r b).job = g.job ∧ (g.enter r b).lastTrig = g.lastTrig ∧ (g.enter r b).out = g.out ∧ (g.enter r b).seen = g.seen ∧ (g.enter r b).outStamp = g.outStamp ∧ (g.enter r b).skip = g.skip := by
  unfold Engine.enter; split
  · exact ⟨rfl, rfl, rfl, rfl, rfl, rfl⟩
  · split <;> exact ⟨rfl, rfl, rfl, rfl, rfl, rfl⟩

theorem enter_self (g : Engine) (b) : g.enter g.run b = g := by unfold Engine.enter; rw [if_pos rfl]

theorem lawSync_at (s : State) (d e : Fin 20) : ∃ r b, (s.lawSync d).law.eng[e] = s.law.eng[e].enter r b := by
  unfold State.lawSync
  split
  · exact ⟨_, 0, (enter_self _ _).symm⟩
  · by_cases h : d = e
    · subst h; rw [modEng_at]; exact ⟨_, _, rfl⟩
    · rw [modEng_other _ _ _ _ h]; exact ⟨_, 0, (enter_self _ _).symm⟩

theorem lawSync_keep (s : State) (d e : Fin 20) : (s.lawSync d).law.eng[e].job = s.law.eng[e].job ∧ (s.lawSync d).law.eng[e].lastTrig = s.law.eng[e].lastTrig ∧ (s.lawSync d).law.eng[e].out = s.law.eng[e].out ∧ (s.lawSync d).law.eng[e].seen = s.law.eng[e].seen ∧ (s.lawSync d).law.eng[e].outStamp = s.law.eng[e].outStamp ∧ (s.lawSync d).law.eng[e].skip = s.law.eng[e].skip := by
  obtain ⟨r, b, h⟩ := lawSync_at s d e
  rw [h]
  exact enter_keep s.law.eng[e] r b

theorem lawSyncAll_keep (s : State) (e : Fin 20) : (s.lawSyncAll).law.eng[e].job = s.law.eng[e].job ∧ (s.lawSyncAll).law.eng[e].lastTrig = s.law.eng[e].lastTrig := by
  unfold State.lawSyncAll
  constructor
  · with_reducible exact foldFin_keep (fun x => x.law.eng[e].job) _ (fun x d => (lawSync_keep x d e).1) s
  · with_reducible exact foldFin_keep (fun x => x.law.eng[e].lastTrig) _ (fun x d => (lawSync_keep x d e).2.1) s

theorem snapApply_keep (s : State) (e : Fin 20) : (s.snapApply e).law.eng[e].run = s.law.eng[e].run := by
  unfold State.snapApply
  have h (b) : (s.trackCheck e b).law.eng[e].run = s.law.eng[e].run := by
    unfold State.trackCheck
    extract_lets +onlyGivenNames g near c s1
    have k : s1.law = (s.modEng e (fun g => { g with mis := c })).law := by unfold s1; exact (satEv_law _ _ _ _ _).1
    clear_value s1
    refine ite_keep (fun x => x.law.eng[e].run) ?_ rfl
    rw [(flag_law s1 e true (F.LAW_STAT.trk_mis e)).1, k]
    show ((s.modEng e (fun g => { g with mis := c })).law.eng[e]).run = _
    rw [modEng_at]
  split
  · rw [modEng_at]
    rename_i b _ _
    exact h b
  · rfl

theorem snapApply_time (s : State) (e : Fin 20) : (s.snapApply e).time = s.time := step_snapApply.frame .time (by decide)

theorem lawSample_keep (s : State) (e : Fin 20) : (s.lawSample e).law.eng[e].lastTrig = some s.time ∧ ∃ j, (s.lawSample e).law.eng[e].job = some j ∧ j.started = s.time ∧ j.run = s.law.eng[e].run := by
  unfold State.lawSample
  extract_lets +onlyGivenNames s0 fb eIn g en v vf tgt cur want defer start len xf st stN lo hi n ds di o job xc s1 s2 s3 s4
  have h4 : s4.law = s1.law := by
    unfold s4; rw [(flag_law _ _ _ _).1, (flag_law _ _ _ _).1]
    unfold s3 State.stickIf
    have : s2.law = s1.law := step_satIf.frame .law (by decide)
    split
    · exact this
    · exact this
  have h1 : s1.law.eng[e].lastTrig = some s.time ∧ s1.law.eng[e].job = some job.1 := by
    unfold s1; rw [modEng_at]
    exact ⟨congrArg some (snapApply_time s e), rfl⟩
  have hj : job.1.started = s.time ∧ job.1.run = s.law.eng[e].run := by
    have a : s0.time = s.time := snapApply_time s e
    have b : g.run = s.law.eng[e].run := snapApply_keep s e
    clear_value xf s0
    unfold job
    cases xf
    · exact ⟨a, b⟩
    · exact ⟨a, b⟩
  have hf : (s4.feStep e eIn).law.eng[e].lastTrig = s4.law.eng[e].lastTrig ∧ (s4.feStep e eIn).law.eng[e].job = s4.law.eng[e].job := by
    unfold State.feStep
    extract_lets +onlyGivenNames g' n'
    split
    · rw [modEng_at]; exact ⟨rfl, rfl⟩
    · split
      · extract_lets +onlyGivenNames c s1'
        have k : s1'.law.eng[e].lastTrig = s4.law.eng[e].lastTrig ∧ s1'.law.eng[e].job = s4.law.eng[e].job := by
          unfold s1'; rw [modEng_at]; exact ⟨rfl, rfl⟩
        split
        · have q (x : State) : (x.feFire e).law.eng[e].lastTrig = x.law.eng[e].lastTrig ∧ (x.feFire e).law.eng[e].job = x.law.eng[e].job := by
            unfold State.feFire
            extract_lets +onlyGivenNames g act c' y1 d y2
            have ya : y1.law.eng[e].lastTrig = x.law.eng[e].lastTrig ∧ y1.law.eng[e].job = x.law.eng[e].job := by
              unfold y1; rw [modEng_at]; exact ⟨rfl, rfl⟩
            have yb : y2.law = y1.law := (satEv_law _ _ _ _ _).1
            have yc (r) : (y2.action act r e.val e.val).law = y2.law := step_action.frame .law (by decide)
            rw [(lawSyncAll_keep _ e).1, (lawSyncAll_keep _ e).2, yc, yb]
            exact ya
          rw [(q s1').1, (q s1').2]; exact k
        · exact k
      · rw [modEng_at]; exact ⟨rfl, rfl⟩
  rw [hf.1, hf.2, h4]
  exact ⟨h1.1, job.1, h1.2, hj⟩

/-- A trigger that is due, of an engine that samples, comes to the trigger's own step, with the engine's run state, sample under
way, last trigger and skip counter as they are. -/
theorem trigger_reaches (e : Fin 20) (s0 : State) (h1 : s0.runs .ctl = true) (g0 : Engine) (h2 : (s0.lawSync e).law.eng[e] = g0)
    (hf : ∀ f, (s0.lawSync e).fld f = s0.fld f) (ht : (s0.lawSync e).time = s0.time) (hs : g0.samples = true)
    (hd : (s0.fld (F.LAW_CFG.trig e) = 0 ∧ g0.fresh = true ∧ s0.fld (F.LAW_CFG.div_m1 e) ≤ g0.divCnt) ∨
      (s0.fld (F.LAW_CFG.trig e) ≠ 0 ∧ ∃ n, g0.next = some n ∧ n ≤ s0.time)) :
    ∃ x : State, execLawTrigger e s0 = .next (x.lawTrigger e) ∧ x.time = s0.time ∧ x.law.eng[e].job = g0.job ∧
      x.law.eng[e].lastTrig = g0.lastTrig ∧ x.law.eng[e].run = g0.run ∧ x.law.eng[e].skip = g0.skip := by
  unfold execLawTrigger
  rw [if_neg (by simp [h1])]
  extract_lets +onlyGivenNames s g
  have hg : g = g0 := h2
  rw [if_neg (by rw [hg, hs]; simp), hf, hg]
  rcases hd with ⟨a, b, c⟩ | ⟨a, n, b, c⟩
  · rw [if_pos a]
    refine ⟨s.modEng e (fun g => { g with divCnt := 0, fresh := false }), ?_, ht, ?_⟩
    · unfold State.when
      rw [if_pos b]
      unfold State.lawCount
      have hs' : s.law.eng[e] = g0 := h2
      rw [hs', show s.fld _ = s0.fld _ from hf _, if_neg (by omega)]
      rfl
    · rw [modEng_at, show s.law.eng[e] = g0 from h2]
      exact ⟨rfl, rfl, rfl, rfl⟩
  · rw [if_neg a, b]
    refine ⟨s.modEng e (fun g => { g with next := s.lawAfter e n }), ?_, ht, ?_⟩
    · dsimp only
      rw [State.whenAt_now rfl (by rw [show s.time = s0.time from ht]; exact c)]
      rfl
    · rw [modEng_at, show s.law.eng[e] = g0 from h2]
      exact ⟨rfl, rfl, rfl, rfl⟩

end Sys2Proof.Machine
end

