-- ==== Sys2Proof/Laws/PwmOps.lean ====
section
/-! SUPPORT. What the operations of the modulators keep and what they lead to. -/

set_option Elab.async false

namespace Sys2Proof.Machine
open Sys2Proof

theorem periodStart_at (s : State) (n j t0 c) : (s.periodStart n j t0 c).pwm.ph[j].t0 = some t0 ∧ (s.periodStart n j t0 c).pwm.ph[j].cbcNow = false := by
  unfold State.periodStart
  extract_lets +onlyGivenNames per base lead a diff short step tj r cmd duty d mode dtr dtf minp open1 hadPeriod sw ap s1 s2
  rw [edgesTo_at]
  have k2 : s2.pwm.ph = s1.pwm.ph := by
    unfold s2
    split <;> rfl
  rw [k2]
  have k : s1.pwm.ph[j].t0 = some t0 ∧ s1.pwm.ph[j].cbcNow = false := by
    unfold s1
    rw [modPhase_at]
    exact ⟨rfl, rfl⟩
  exact k

theorem shedDone_at (s : State) (n) : (s.shedDone n).pwm.ph = s.pwm.ph ∧ (s.shedDone n).pwm.rail[n].lastShed = some s.time := by
  unfold State.shedDone
  refine ⟨capEval_ph _ _, ?_⟩
  obtain ⟨a, b, h⟩ := capEval_at (s.modRail n (fun r => { r with
      lastShed := some s.time, evalAt := none
      shedSince := if s.shedCond n then r.shedSince else none
      addSince := if s.addCond n then r.addSince else none })) n
  rw [h, modRail_at]

theorem senseFail_at (s : State) (j) : (s.senseFail j).pwm.ph[j].pstate = s.sensePstate j := by
  unfold State.senseFail
  extract_lets +onlyGivenNames n c st s1 s2 s3
  rw [capEval_ph, railEvent_ph]
  show s1.pwm.ph[j].pstate = st
  unfold s1
  rw [modPhase_at]

theorem nextEdge_ranOut {s : State} {p : Phase} {t : Nat} (m : t ∈ nextIval p.h p.hIv) (h : t ≤ s.time) : s.ranOut p.nextEdge 0 = true := by
  unfold Phase.nextEdge
  cases q : (nextIval p.h p.hIv ++ nextIval p.l p.lIv ++ (if p.endOff then (p.t0.map (fun a => a + p.tj)).toList else [])).min? with
  | none => rw [List.min?_eq_none_iff] at q; simp_all
  | some a =>
    have k : a ≤ t := by
      rw [List.min?_eq_some_iff] at q
      exact q.2 t (by simp [m])
    simp only [State.ranOut, decide_eq_true_eq]
    omega

theorem shed_ranOut {s : State} {a b : Option Nat} {d : Nat} (h : s.ranOut a d = true) (k : b = none ∨ s.ranOut b d = true) :
    s.ranOut (a.map (fun t => max t (b.getD t))) d = true := by
  cases a with
  | none => simp [State.ranOut] at h
  | some t =>
    rcases k with k | k
    · subst k; simpa [State.ranOut] using h
    · cases b with
      | none => simp [State.ranOut] at k
      | some u =>
        simp only [State.ranOut, decide_eq_true_eq, Option.map_some, Option.getD_some] at *
        omega

end Sys2Proof.Machine
end

