-- ==== Sys2Proof/Laws/RailOps.lean ====
section
/-! SUPPORT. What the operations of the rails keep and what they lead to. -/

set_option Elab.async false

namespace Sys2Proof.Machine
open Sys2Proof

theorem railStart_at (s : State) (n) : (s.railStart n).pwm.rail[n].state = 1 ∧ (s.railStart n).pwm.rail[n].r = max 0 (s.eng (railCh n)) ∧ (s.railStart n).pwm.rail[n].rampUs = 0 := by
  unfold State.railStart
  extract_lets +onlyGivenNames p s1
  rw [modRail_at]
  exact ⟨rfl, rfl, rfl⟩

theorem railOff_at (s : State) (n) : (s.railOff n).pwm.rail[n].state = 0 ∧ (s.railOff n).pwm.rail[n].h = 0 ∧ (s.railOff n).pwm.rail[n].derated = false := by
  unfold State.railOff
  extract_lets +onlyGivenNames s1 s2
  obtain ⟨a, b, e⟩ := capEval_at (s2.modRail n (fun r => { r with state := 0, h := 0, derated := false, shedSince := none, addSince := none, sync := 0, evalAt := none, syncT0 := none })) n
  rw [e, modRail_at]
  exact ⟨rfl, rfl, rfl⟩

theorem railOff_ne (s : State) (n k) (h : n ≠ k) : (s.railOff n).pwm.rail[k] = s.pwm.rail[k] := by
  unfold State.railOff
  extract_lets +onlyGivenNames s1 s2
  rw [capEval_ne _ _ _ h, modRail_ne _ _ _ _ h]
  have e1 : s2.pwm.rail = s1.pwm.rail := phFold_rail _ (fun _ _ p => { p with pstate := 1 }) _
  have e2 : s1.pwm.rail = s.pwm.rail := railCut_rail _ _
  rw [e1, e2]

theorem railStart_ne (s : State) (n k) (h : n ≠ k) : (s.railStart n).pwm.rail[k] = s.pwm.rail[k] := by
  unfold State.railStart
  extract_lets +onlyGivenNames p s1
  rw [modRail_ne _ _ _ _ h]
  have e1 : s1.pwm.rail = s.pwm.rail := phFold_rail _ (fun _ _ x => { x with trim := 0 }) _
  rw [e1]

theorem railStop_at (s : State) (n) : (s.railStop n).pwm.rail[n].state = 4 := by
  unfold State.railStop
  extract_lets +onlyGivenNames s1
  rw [modRail_at]

theorem railStop_ne (s : State) (n k) (h : n ≠ k) : (s.railStop n).pwm.rail[k] = s.pwm.rail[k] := by
  unfold State.railStop
  extract_lets +onlyGivenNames s1
  rw [modRail_ne _ _ _ _ h]
  have e1 : s1.pwm.rail = s.pwm.rail := phFold_rail _ (fun _ _ p => { p with endOff := false }) _
  rw [e1]

theorem railFollow_ne (s : State) (n k) (h : n ≠ k) : (s.railFollow n).pwm.rail[k] = s.pwm.rail[k] := by
  unfold State.railFollow
  extract_lets +onlyGivenNames st
  refine ite_keep (fun x => x.pwm.rail[k]) ?_ (ite_keep (fun x => x.pwm.rail[k]) ?_ (ite_keep (fun x => x.pwm.rail[k]) ?_ rfl))
  · exact ite_keep (fun x => x.pwm.rail[k]) (railStart_ne s n k h) rfl
  · exact ite_keep (fun x => x.pwm.rail[k]) (railStop_ne s n k h) (railOff_ne s n k h)
  · exact railOff_ne s n k h

theorem railRun_ne (s : State) (n k) (h : n ≠ k) : (s.railRun n).pwm.rail[k] = s.pwm.rail[k] := by
  unfold State.railRun
  rw [capEval_ne _ _ _ h, modRail_ne _ _ _ _ h]

theorem rampStep_ne (s : State) (n k) (h : n ≠ k) : (s.rampStep n).pwm.rail[k] = s.pwm.rail[k] := by
  unfold State.rampStep
  extract_lets +onlyGivenNames r tgt ss trk trkR t r' bad fe run s1 r'' s1'
  have e1 : s1.pwm.rail[k] = s.pwm.rail[k] := modRail_ne _ _ _ _ h
  have e2 : s1'.pwm.rail[k] = s.pwm.rail[k] := modRail_ne _ _ _ _ h
  refine ite_keep (fun x => x.pwm.rail[k]) ?_ (ite_keep (fun x => x.pwm.rail[k]) ?_ (ite_keep (fun x => x.pwm.rail[k]) ?_ rfl))
  · exact ite_keep (fun x => x.pwm.rail[k]) ((railRun_ne _ _ _ h).trans e1) e1
  · refine ite_keep (fun x => x.pwm.rail[k]) (modRail_ne _ _ _ _ h) (ite_keep (fun x => x.pwm.rail[k]) (modRail_ne _ _ _ _ h) (ite_keep (fun x => x.pwm.rail[k]) (modRail_ne _ _ _ _ h) rfl))
  · exact ite_keep (fun x => x.pwm.rail[k]) ((railFollow_ne _ _ _ h).trans ((railOff_ne _ _ _ h).trans e2)) e2

theorem capEval_act (s : State) (n) : (s.capEval n).regs.act = s.regs.act := by
  unfold State.capEval
  extract_lets +onlyGivenNames r req s1
  exact ite_keep (fun x => x.regs.act) (s := s) rfl rfl

theorem railOff_act (s : State) (n) : (s.railOff n).regs.act = s.regs.act := by
  unfold State.railOff
  extract_lets +onlyGivenNames s1 s2
  rw [capEval_act]
  have e1 : s2.regs = s1.regs := (Step.foldl (ps := [.pwm]) _ _ (fun _ _ => Step.after step_modPhase rfl Step.refl) Step.refl : Step [.pwm] s1 s2).frame .regs (by decide)
  have e2 : s1.regs = s.regs := step_railCut.frame .regs (by decide)
  show s2.regs.act = _
  rw [e1, e2]

theorem railStart_act (s : State) (n) : (s.railStart n).regs = s.regs := step_railStart.frame .regs (by decide)

theorem railStop_act (s : State) (n) : (s.railStop n).regs = s.regs := step_railStop.frame .regs (by decide)

theorem railFollow_act (s : State) (n) : (s.railFollow n).regs.act = s.regs.act := by
  unfold State.railFollow
  extract_lets +onlyGivenNames st
  refine ite_keep (fun x => x.regs.act) ?_ (ite_keep (fun x => x.regs.act) ?_ (ite_keep (fun x => x.regs.act) (railOff_act s n) rfl))
  · exact ite_keep (fun x => x.regs.act) (congrArg Regs.act (railStart_act s n)) rfl
  · exact ite_keep (fun x => x.regs.act) (congrArg Regs.act (railStop_act s n)) (railOff_act s n)

theorem rampStep_act (s : State) (n) : (s.rampStep n).regs.act = s.regs.act := by
  unfold State.rampStep
  extract_lets +onlyGivenNames r tgt ss trk trkR t r' bad fe run s1 r'' s1'
  have rr (x : State) : (x.railRun n).regs.act = x.regs.act := by unfold State.railRun; rw [capEval_act]; rfl
  refine ite_keep (fun x => x.regs.act) ?_ (ite_keep (fun x => x.regs.act) ?_ (ite_keep (fun x => x.regs.act) ?_ rfl))
  · exact ite_keep (fun x => x.regs.act) (rr s1) rfl
  · exact ite_keep (fun x => x.regs.act) rfl (ite_keep (fun x => x.regs.act) rfl (ite_keep (fun x => x.regs.act) rfl rfl))
  · exact ite_keep (fun x => x.regs.act) ((railFollow_act _ _).trans (railOff_act s1' n)) rfl

theorem fld_act {s t : State} (h : t.regs.act = s.regs.act) (f : Fld) : t.fld f = s.fld f := by unfold State.fld State.word; rw [h]

theorem rampStep_self (s : State) (n : Fin 8) (h2 : s.pwm.rail[n].state = 1) (h3 : s.fld (F.RAIL_TRK.mode n) = 0)
    (v : Int) (hv : v = s.pwm.rail[n].p + rdiv ((s.sfld (F.RAIL_VREF.target n) - s.pwm.rail[n].p) * (min (s.pwm.rail[n].rampUs + 1) (s.fld (F.RAIL_SS.ss_us n)) : Nat)) (s.fld (F.RAIL_SS.ss_us n)))
    (h4 : v ≠ s.sfld (F.RAIL_VREF.target n)) :
    (s.rampStep n).pwm.rail[n].rampUs = s.pwm.rail[n].rampUs + 1 ∧ (s.rampStep n).pwm.rail[n].r = v := by
  unfold State.rampStep
  extract_lets +onlyGivenNames r tgt ss trk trkR t r' bad fe run s1 r'' s1'
  have ht : ¬trk := by unfold trk; rw [h3]; omega
  have hr : r' = v := by
    unfold r'
    rw [if_neg ht, hv]
    have : t = ((min (s.pwm.rail[n].rampUs + 1) (s.fld (F.RAIL_SS.ss_us n)) : Nat) : Int) := by
      unfold t ss r; omega
    rw [this]
  have e1 : s1.pwm.rail[n].rampUs = s.pwm.rail[n].rampUs + 1 ∧ s1.pwm.rail[n].r = v := by
    unfold s1; rw [modRail_at]; exact ⟨rfl, hr⟩
  rw [if_pos (show r.state = 1 from h2), if_neg (by rw [hr]; exact fun q => h4 q.1)]
  exact e1

theorem ramp_fold (n : Fin 8) (v : Int) (l : List (Fin 8)) : ∀ s : State, l.Nodup → n ∈ l → s.pwm.rail[n].state = 1 → s.fld (F.RAIL_TRK.mode n) = 0 →
    v = s.pwm.rail[n].p + rdiv ((s.sfld (F.RAIL_VREF.target n) - s.pwm.rail[n].p) * (min (s.pwm.rail[n].rampUs + 1) (s.fld (F.RAIL_SS.ss_us n)) : Nat)) (s.fld (F.RAIL_SS.ss_us n)) →
    v ≠ s.sfld (F.RAIL_VREF.target n) →
    (l.foldl State.rampStep s).pwm.rail[n].rampUs = s.pwm.rail[n].rampUs + 1 ∧ (l.foldl State.rampStep s).pwm.rail[n].r = v := by
  have keep : ∀ (l : List (Fin 8)) (x : State), n ∉ l → (l.foldl State.rampStep x).pwm.rail[n] = x.pwm.rail[n] := by
    intro l
    induction l with
    | nil => exact fun _ _ => rfl
    | cons a l ih =>
      intro x h
      rw [List.mem_cons, not_or] at h
      exact (ih _ h.2).trans (rampStep_ne x a n (fun q => h.1 q.symm))
  induction l with
  | nil => intro s _ h; cases h
  | cons a l ih =>
    intro s hd hm h2 h3 hv h4
    rw [List.nodup_cons] at hd
    by_cases e : a = n
    · subst e
      have := rampStep_self s a h2 h3 v hv h4
      rw [List.foldl_cons, keep l _ hd.1]
      exact this
    · have k := rampStep_ne s a n e
      have f := fun x => fld_act (rampStep_act s a) x
      have sf : ∀ x, (s.rampStep a).sfld x = s.sfld x := fun x => by unfold State.sfld; rw [f]
      have := ih (s.rampStep a) hd.2 (by rcases List.mem_cons.1 hm with q | q; exact absurd q.symm e; exact q) (by rw [k]; exact h2) (by rw [f]; exact h3) (by rw [k, sf, f]; exact hv) (by rw [sf]; exact h4)
      rw [List.foldl_cons, this.1, k]
      exact ⟨rfl, this.2⟩

theorem syncLoss_at (s : State) : s.syncLoss.pwm.g = { s.pwm.g with syncValid := false, syncRun := 0 } := rfl

end Sys2Proof.Machine
end

