-- ==== Sys2Proof/Laws/BatteryOps.lean ====
section
/-! SUPPORT. What the operations of the strings keep and what they lead to. -/

set_option Elab.async false

namespace Sys2Proof.Machine
open Sys2Proof

theorem follow_hbx (s0 s : State) : (s0.follow s).hbx.commit = s.hbx.commit ∧ (s0.follow s).hbx.active = s.hbx.active ∧ (s0.follow s).hbx.shadow = s.hbx.shadow := by
  unfold State.follow
  extract_lets +onlyGivenNames sa s1 s2 s3 s4
  have ka : sa.hbx = s.hbx := ite_keep State.hbx (s := s) (step_assignAll.frame .hbx (by decide)) rfl
  have k1 : s1.hbx = s.hbx := by
    unfold s1
    split
    · exact (step_lawSyncAll.frame .hbx (by decide)).trans ka
    · exact ka
  have k2 : s2.hbx = s.hbx := by
    unfold s2
    split
    · exact (foldFin_keep State.hbx _ (fun x k => step_linkSync.frame .hbx (by decide)) _).trans k1
    · exact k1
  have k3 : s3.hbx.commit = s.hbx.commit ∧ s3.hbx.active = s.hbx.active ∧ s3.hbx.shadow = s.hbx.shadow := by
    unfold s3
    split
    · unfold State.seedAll
      dsimp only
      rw [k2]
      exact ⟨rfl, rfl, rfl⟩
    · rw [k2]
      exact ⟨rfl, rfl, rfl⟩
  have k4 : s4.hbx = s3.hbx := by
    unfold s4
    split <;> rfl
  have k5 : (if s.runs .mgt then foldFin 4 s4 State.twpSync else s4).hbx = s4.hbx := by
    split
    · exact foldFin_keep State.hbx _ (fun x k => step_twpSync.frame .hbx (by decide)) _
    · rfl
  rw [k5, k4]
  exact k3

theorem contactorUpdate_keep {β : Type} (g : Str → β) (h : ∀ x : Str, ∀ c, g { x with closed := c } = g x) (s : State) (i j : Fin 8) : g (s.contactorUpdate i).bat.str[j] = g s.bat.str[j] := by
  unfold State.contactorUpdate
  exact modStr_keep g s i j _ (fun _ => h _ _)

theorem takeTemplate_present (s : State) (i j : Fin 8) : (s.takeTemplate i).bat.str[j].present = s.bat.str[j].present ∧ (s.takeTemplate i).bat.str[j].code = s.bat.str[j].code := by
  unfold State.takeTemplate
  extract_lets +onlyGivenNames x r0 r s1 s2
  have e1 : s1.bat.str[j].present = s.bat.str[j].present ∧ s1.bat.str[j].code = s.bat.str[j].code := by
    have := modBRec_keep s i j (fun _ => r)
    exact ⟨of_noRec this Str.present, of_noRec this Str.code⟩
  have e2 : s2.bat.str[j].present = s.bat.str[j].present ∧ s2.bat.str[j].code = s.bat.str[j].code := by
    constructor
    · refine ite_keep (fun x => x.bat.str[j].present) (s := s) ((modStr_keep Str.present _ _ _ _).trans e1.1) e1.1
    · refine ite_keep (fun x => x.bat.str[j].code) (s := s) ((modStr_keep Str.code _ _ _ _).trans e1.2) e1.2
  exact ⟨(modStr_keep Str.present _ _ _ _).trans e2.1, (modStr_keep Str.code _ _ _ _).trans e2.2⟩

theorem takeRecord_present (s : State) (i j : Fin 8) : (s.takeRecord i).bat.str[j].present = s.bat.str[j].present ∧ (s.takeRecord i).bat.str[j].code = s.bat.str[j].code := by
  unfold State.takeRecord
  extract_lets +onlyGivenNames x r s1 sec s1'
  have e1 : s1.bat = s.bat := ite_keep (fun x => x.bat) (s := s) rfl rfl
  have t := takeTemplate_present s1 i j
  rw [e1] at t
  have e2 : s1'.bat.str[j].present = s.bat.str[j].present ∧ s1'.bat.str[j].code = s.bat.str[j].code := by
    have := modBRec_keep s i j (fun r => { r with p := min (r.p + s.fld (F.BAT_QP.qp i) * sec) 100000000 })
    exact ⟨of_noRec this Str.present, of_noRec this Str.code⟩
  constructor
  · exact ite_keep (fun x => x.bat.str[j].present) (s := s) t.1 ((modStr_keep Str.present _ _ _ _).trans e2.1)
  · exact ite_keep (fun x => x.bat.str[j].code) (s := s) t.2 ((modStr_keep Str.code _ _ _ _).trans e2.2)

theorem arrive_at (s : State) (i : Fin 8) (c : Nat) : (s.arrive i c).bat.str[i].present = true ∧ (s.arrive i c).bat.str[i].code = c := by
  unfold State.arrive
  split
  · have := takeRecord_present (s.modStr i (fun x => { x.away with present := true, code := c, guest := false })) i i
    rw [this.1, this.2, modStr_at]; exact ⟨rfl, rfl⟩
  · have := takeRecord_present (s.modStr i (fun x => { x.away with present := true, code := c, guest := true })) i i
    show (State.takeRecord _ i).bat.str[i].present = true ∧ (State.takeRecord _ i).bat.str[i].code = c
    rw [this.1, this.2, modStr_at]; exact ⟨rfl, rfl⟩

theorem remove_at (s : State) (i : Fin 8) : (s.remove i).bat.str[i].present = false ∧ (s.remove i).bat.str[i].limDis = 0 ∧ (s.remove i).bat.str[i].limChg = 0 := by
  unfold State.remove
  extract_lets +onlyGivenNames s1
  rw [batDeliver_bat]
  refine ⟨?_, ?_, ?_⟩
  · rw [contactorUpdate_keep Str.present (fun _ _ => rfl), modStr_at]; rfl
  · rw [contactorUpdate_keep Str.limDis (fun _ _ => rfl), modStr_at]; rfl
  · rw [contactorUpdate_keep Str.limChg (fun _ _ => rfl), modStr_at]; rfl

theorem batLimits_keep {β : Type} (g : Str → β) (s : State) (i j : Fin 8) (h : ∀ (x : Str) a b c d e, g { x with tlDis := a, tlChg := b, limDis := c, limChg := d, erem := e } = g x := by intros; rfl) : g (s.batLimits i).bat.str[j] = g s.bat.str[j] := by
  unfold State.batLimits
  extract_lets +onlyGivenNames x r vc tp idis ichg ifl dOut cOut dis chg off s1 s2
  have e1 : s1.bat = s.bat := ite_keep (fun x => x.bat) (s := s) rfl rfl
  have e2 : s2.bat = s.bat := ite_keep (fun x => x.bat) (s := s) e1 e1
  rw [batDeliver_bat]
  refine (modStr_keep g s2 i j _ (fun p => h p _ _ _ _ _)).trans ?_
  rw [e2]

theorem batAnchor_keep {β : Type} (g : Str → β) (s : State) (i j : Fin 8) (h : ∀ (x : Str), g { x with unanch := false, unanchFired := false, unanchSat := false } = g x := by intros; rfl) (hg : ∀ x, g (noRec x) = g x := by intro; rfl) : g (s.batAnchor i).bat.str[j] = g s.bat.str[j] := by
  unfold State.batAnchor
  have r := modBRec_keep s i j (fun r => { r with unanchH := 0 })
  exact (modStr_keep g _ i j _ h).trans (of_noRec r g hg)

theorem fccLimit_keep {β : Type} (g : Str → β) (s : State) (i j : Fin 8) (o) (hg : ∀ x, g (noRec x) = g x := by intro; rfl) : g (s.fccLimit i o).bat.str[j] = g s.bat.str[j] := by
  unfold State.fccLimit
  extract_lets +onlyGivenNames nom lo hi f s1
  have r := modBRec_keep s i j (fun r => { r with fcc := f })
  have b : g s1.bat.str[j] = g s.bat.str[j] := of_noRec r g hg
  exact ite_keep (fun x => g x.bat.str[j]) b b

theorem declare_tail (s : State) (i : Fin 8) (o : Nat) (f : Str → Str) :
    (((((s.modStr i f).fccLimit i o).batAnchor i).batLimits i).idWrite i).bat.str[i].eodDue = (f s.bat.str[i]).eodDue ∧ (((((s.modStr i f).fccLimit i o).batAnchor i).batLimits i).idWrite i).bat.str[i].eocDue = (f s.bat.str[i]).eocDue ∧ (((((s.modStr i f).fccLimit i o).batAnchor i).batLimits i).idWrite i).bat.str[i].declared = (f s.bat.str[i]).declared := by
  have e : (s.modStr i f).bat.str[i] = f s.bat.str[i] := modStr_at _ _ _
  generalize s.modStr i f = x at *
  have a := (idWrite_keep (((x.fccLimit i o).batAnchor i).batLimits i) i i).1
  rw [← e]
  refine ⟨?_, ?_, ?_⟩
  · exact (of_noRec a Str.eodDue).trans ((batLimits_keep Str.eodDue _ i i).trans ((batAnchor_keep Str.eodDue _ i i).trans (fccLimit_keep Str.eodDue x i i o)))
  · exact (of_noRec a Str.eocDue).trans ((batLimits_keep Str.eocDue _ i i).trans ((batAnchor_keep Str.eocDue _ i i).trans (fccLimit_keep Str.eocDue x i i o)))
  · exact (of_noRec a Str.declared).trans ((batLimits_keep Str.declared _ i i).trans ((batAnchor_keep Str.declared _ i i).trans (fccLimit_keep Str.declared x i i o)))

theorem deliver_stamp (s : State) (ch d : Fin 130) (c : Cal) (st : Nat) : ((s.deliver ch c st).sns.ch[d]).stamp = if ch = d then some st else s.sns.ch[d].stamp := by
  have : ∃ f, (s.deliver ch c st).sns.ch = modAt s.sns.ch ch f ∧ ∀ x, (f x).stamp = some st := by
    unfold State.deliver
    extract_lets s1
    refine ⟨fun x => { x with raw := c.raw, eng := c.eng, val := c.val, stamp := some st, ovr := c.ovr, conv := none, hist := if ch.val < 34 then (st, c.eng) :: x.hist.takeWhile (fun h => decide (st < h.1 + 25000)) else [] }, ?_, fun _ => rfl⟩
    split <;> rfl
  obtain ⟨f, h, k⟩ := this
  rw [h]
  split
  · rename_i e; subst e; rw [modAt_same]; exact k _
  · rename_i e; rw [modAt_ne _ _ _ _ e]

theorem deliver_clock (s : State) (ch : Fin 130) (c : Cal) (st : Nat) : (s.deliver ch c st).sns64 = s.sns64 ∧ (s.deliver ch c st).bat = s.bat := by
  unfold State.deliver
  extract_lets s1
  split <;> exact ⟨rfl, rfl⟩

theorem oneString_keep (s : State) (k v c o n) : (s.oneString k v c o n).sns = s.sns ∧ (s.oneString k v c o n).time = s.time :=
  ⟨step_oneString.frame .sns (by decide), step_oneString.frame .time (by decide)⟩

/-- What the strings' own steps leave of the block's counters. -/
def strobeKeep (s : State) : (Nat × Option Nat) × Bool × Nat × Bool × Nat × Nat × Nat :=
  ((s.bat.strobes, s.bat.strobeTick), s.bat.blockDue, s.bat.blocks, s.bat.secDue, s.bat.hourAt, s.bat.ageAt, s.bat.ageTicks)

theorem sk_of {s t : State} (h : strobeKeep t = strobeKeep s) : t.bat.strobes = s.bat.strobes ∧ t.bat.strobeTick = s.bat.strobeTick ∧ t.bat.blockDue = s.bat.blockDue ∧
    t.bat.blocks = s.bat.blocks ∧ t.bat.secDue = s.bat.secDue ∧ t.bat.hourAt = s.bat.hourAt ∧ t.bat.ageAt = s.bat.ageAt ∧ t.bat.ageTicks = s.bat.ageTicks := by
  simp only [strobeKeep, Prod.mk.injEq] at h
  obtain ⟨⟨a, b⟩, c, d, e, f, g, i⟩ := h
  exact ⟨a, b, c, d, e, f, g, i⟩

theorem sk_bat {s t : State} (h : t.bat = s.bat) : strobeKeep t = strobeKeep s := by unfold strobeKeep; rw [h]

theorem modStr_sk (s : State) (i f) : strobeKeep (s.modStr i f) = strobeKeep s := rfl

theorem modBRec_sk (s : State) (i f) : strobeKeep (s.modBRec i f) = strobeKeep s := by
  unfold State.modBRec; exact ite_keep strobeKeep (s := s) rfl rfl

theorem learn_sk (s : State) (i d t c z) : strobeKeep (s.learn i d t c z) = strobeKeep s := by
  unfold State.learn
  extract_lets +onlyGivenNames k e z0 pl age c1 z' e' c2
  have q (x : State) (o n : Ctr) (a b) : strobeKeep (x.satEv o n a b) = strobeKeep x := sk_bat (step_satEv.frame .bat (by decide))
  have p (x : State) (k z) : strobeKeep (x.putZent i k z) = strobeKeep x := by
    unfold State.putZent; exact ite_keep strobeKeep (s := x) rfl rfl
  refine ite_keep strobeKeep ?_ ?_
  · rw [q, modStr_sk]
  · rw [q, modStr_sk]; exact p s _ _

theorem learn_kept {s : State} {i : Fin 8} {d : Bool} {a b z : Int} (h : ¬s.zRejects i d a b z) : (s.learn i d a b z).bat.str[i].lrn = s.bat.str[i].lrn.inc := by
  unfold State.learn
  extract_lets +onlyGivenNames k e z0 pl age c1 z' e' c2
  have q (x : State) (o n : Ctr) (a b) : (x.satEv o n a b).bat = x.bat := step_satEv.frame .bat (by decide)
  rw [if_neg (show ¬(z ≤ 0 ∨ (age ≠ 255 ∧ (z * pl < z0 ∨ z0 * pl < z))) from h), q, modStr_at]

theorem learn_rejected {s : State} {i : Fin 8} {d : Bool} {a b z : Int} (h : s.zRejects i d a b z) : (s.learn i d a b z).bat.str[i].rej = s.bat.str[i].rej.inc := by
  unfold State.learn
  extract_lets +onlyGivenNames k e z0 pl age c1 z' e' c2
  have q (x : State) (o n : Ctr) (a b) : (x.satEv o n a b).bat = x.bat := step_satEv.frame .bat (by decide)
  rw [if_pos (show z ≤ 0 ∨ (age ≠ 255 ∧ (z * pl < z0 ∨ z0 * pl < z)) from h), q, modStr_at]

theorem strStrobe_sk (s : State) (i v c o x) : strobeKeep (s.strStrobe i v c o x) = strobeKeep s := by
  unfold State.strStrobe
  extract_lets +onlyGivenNames s1 t smp s2
  have e1 : strobeKeep s1 = strobeKeep s := by
    unfold s1 State.chargeCount
    extract_lets +onlyGivenNames nom r q0 q acc n c' cyc d y1
    have n2 : strobeKeep y1 = strobeKeep s := (modBRec_sk _ _ _).trans (sk_bat rfl)
    exact ite_keep strobeKeep (s := s) n2 n2
  have e2 : strobeKeep (s2.zdWait i v c o) = strobeKeep s := e1
  have e4 : strobeKeep ((s2.zdWait i v c o).stepDetect i) = strobeKeep (s2.zdWait i v c o) := by
    generalize s2.zdWait i v c o = y
    unfold State.stepDetect
    extract_lets +onlyGivenNames x' post pre sm iPost iPre dI vPost vPre at_ y1
    refine ite_keep strobeKeep rfl ?_
    rw [modStr_sk]
    exact learn_sk _ _ _ _ _ _
  exact e4.trans e2

theorem ntcFault_sk (s : State) (i x) : strobeKeep (s.ntcFault i x) = strobeKeep s := by
  unfold State.ntcFault
  extract_lets +onlyGivenNames short fault z1 z2
  have k1 : strobeKeep z1 = strobeKeep s := ite_keep strobeKeep (s := s) rfl rfl
  have k2 : strobeKeep z2 = strobeKeep s := k1
  exact ite_keep strobeKeep (s := s) ((sk_bat (batDeliver_bat _ _)).trans k2) k2

theorem idStrobe_sk (s : State) (i x y) : strobeKeep (s.idStrobe i x y) = strobeKeep s := by
  unfold State.idStrobe
  extract_lets +onlyGivenNames str src isOpen rd absent last code y1 cur key n'
  have k1 : strobeKeep y1 = strobeKeep s := ite_keep strobeKeep (s := s) rfl rfl
  refine ite_keep strobeKeep k1 (ite_keep strobeKeep k1 k1)

theorem contactor_sk (s : State) (i) : strobeKeep (s.contactorUpdate i) = strobeKeep s := rfl

theorem oneString_sk (s : State) (i v c o n) : strobeKeep (s.oneString i v c o n) = strobeKeep s := by
  unfold State.oneString
  refine ite_keep strobeKeep (contactor_sk _ _) ?_
  cases n with
  | none => exact contactor_sk _ _
  | some p =>
    dsimp only
    rw [contactor_sk]
    have k := (ntcFault_sk (s.idStrobe i p.1.toNat p.2.toNat) i p.1.toNat).trans (idStrobe_sk s i p.1.toNat p.2.toNat)
    refine ite_keep strobeKeep ?_ k
    exact (strStrobe_sk _ _ _ _ _ _).trans k

theorem takeTemplate_sk (s : State) (i) : strobeKeep (s.takeTemplate i) = strobeKeep s := by
  unfold State.takeTemplate
  extract_lets +onlyGivenNames x r0 r s1 s2
  rw [modStr_sk]
  have e1 : strobeKeep s1 = strobeKeep s := modBRec_sk _ _ _
  exact ite_keep strobeKeep (s := s) e1 e1

theorem batAnchor_sk (s : State) (i) : strobeKeep (s.batAnchor i) = strobeKeep s := by
  unfold State.batAnchor
  show strobeKeep (State.modBRec s i _) = _
  exact modBRec_sk _ _ _

theorem correct_sk (s : State) (i) : strobeKeep (s.correct i) = strobeKeep s := by
  unfold State.correct
  extract_lets +onlyGivenNames x r v cur t sc z vocv sv rv rs p ds s1 quiet s2 s3
  have e1 : strobeKeep s1 = strobeKeep s := by
    unfold s1; rw [modStr_sk]; exact modBRec_sk _ _ _
  have e2 : strobeKeep s2 = strobeKeep s := ite_keep strobeKeep ((batAnchor_sk _ _).trans e1) e1
  have e3 : strobeKeep s3 = strobeKeep s := by
    unfold s3; rw [modBRec_sk, takeTemplate_sk]; exact e2
  clear_value s3 s2 s1
  exact ite_keep strobeKeep (ite_keep strobeKeep e3 e2) e2

theorem idWrite_sk (s : State) (i) : strobeKeep (s.idWrite i) = strobeKeep s := by
  unfold State.idWrite
  extract_lets +onlyGivenNames x s1 y s2
  refine ite_keep strobeKeep rfl ?_
  refine (sk_bat (recWrite_bat s2 _ _ _)).trans ?_
  exact modBRec_sk _ _ _

theorem foldFin_sk {n : Nat} (f : State → Fin n → State) (k : ∀ s a, strobeKeep (f s a) = strobeKeep s) (s : State) : strobeKeep (foldFin n s f) = strobeKeep s :=
  foldFin_keep strobeKeep f k s

theorem batLimits_sk (s : State) (i) : strobeKeep (s.batLimits i) = strobeKeep s := by
  unfold State.batLimits
  extract_lets +onlyGivenNames x r vc tp idis ichg ifl dOut cOut dis chg off s1 s2
  have e1 : strobeKeep s1 = strobeKeep s := ite_keep strobeKeep (s := s) rfl rfl
  exact ite_keep strobeKeep (s := s) e1 e1

theorem batLatches_sk (s : State) (i) : strobeKeep (s.batLatches i) = strobeKeep s := by
  unfold State.batLatches
  extract_lets +onlyGivenNames x r vc e c h nd nc s1 s2
  have e2 : strobeKeep s2 = strobeKeep s := ite_keep strobeKeep (s := s) (by rw [← modStr_sk s i]; exact modBRec_sk _ _ _) rfl
  exact ite_keep strobeKeep ((modBRec_sk _ _ _).trans e2) e2

theorem strBlock_sk (s : State) (i) : strobeKeep (s.strBlock i) = strobeKeep s := by
  unfold State.strBlock
  extract_lets +onlyGivenNames x s0 v cur t s1 sc z vc s2 s3
  refine ite_keep strobeKeep rfl ?_
  rw [batLimits_sk, batLatches_sk]
  show strobeKeep s2 = _
  exact ite_keep strobeKeep (s := s) (modBRec_sk _ _ _) rfl

/-- What a step on string i keeps of string j. -/
theorem batLatches_keep {β : Type} (g : Str → β) (s : State) (i j : Fin 8) (h : ∀ (x : Str) a b c d e, g { x with eodRun := a, eocRun := b, eodDue := c, eocDue := d, declared := e } = g x := by intros; rfl) (hg : ∀ x, g (noRec x) = g x := by intro; rfl) : g (s.batLatches i).bat.str[j] = g s.bat.str[j] := by
  unfold State.batLatches
  extract_lets +onlyGivenNames x r vc e c h' nd nc s1 s2
  have e1 : g s1.bat.str[j] = g s.bat.str[j] := modStr_keep g s i j _ (fun p => h p _ _ _ _ _)
  have e2 : g s2.bat.str[j] = g s.bat.str[j] := ite_keep (fun x => g x.bat.str[j]) ((of_noRec (modBRec_keep s1 i j (fun r => { r with eod := false })) g hg).trans e1) e1
  exact ite_keep (fun x => g x.bat.str[j]) ((of_noRec (modBRec_keep s2 i j (fun r => { r with eoc := false })) g hg).trans e2) e2

theorem strBlock_at (s : State) (i : Fin 8) : (s.strBlock i).bat.str[i].nS = 0 ∧ (s.bat.enSeen[i] = true → s.bat.str[i].present = true → s.bat.str[i].nS = 80 → (s.strBlock i).bat.str[i].vb = rdiv s.bat.str[i].sV 80 ∧ (s.strBlock i).bat.str[i].valid = true) := by
  unfold State.strBlock
  extract_lets +onlyGivenNames x s0 v cur t s1 sc z vc s2 s3
  have e0 : s0.bat.str[i].nS = 0 := by unfold s0; rw [modStr_at]
  have e1 : s1.bat.str[i].nS = 0 := by unfold s1; rw [modStr_at]; exact e0
  have e2 : s2.bat.str[i].nS = 0 := by
    unfold s2; split
    · exact (of_noRec (modBRec_keep s1 i i _) Str.nS).trans e1
    · exact e1
  have e3 : s3.bat.str[i].nS = 0 ∧ s3.bat.str[i].vb = v ∧ s3.bat.str[i].valid = true := by
    unfold s3; rw [modStr_at]; exact ⟨e2, rfl, rfl⟩
  have f (g : Str → Nat) (h1 : ∀ (x : Str) a b c d e, g { x with tlDis := a, tlChg := b, limDis := c, limChg := d, erem := e } = g x) (h2 : ∀ (x : Str) a b c d e, g { x with eodRun := a, eocRun := b, eodDue := c, eocDue := d, declared := e } = g x) (h3 : ∀ x, g (noRec x) = g x) :
    g ((s3.batLatches i).batLimits i).bat.str[i] = g s3.bat.str[i] := (batLimits_keep g _ i i h1).trans (batLatches_keep g s3 i i h2 h3)
  by_cases q : (!(s.bat.enSeen[i] && x.present) || decide (x.nS ≠ 80)) = true
  · rw [if_pos q]
    refine ⟨e0, fun a b c => ?_⟩
    rw [a, show x.present = true from b, show x.nS = 80 from c] at q
    simp at q
  · rw [if_neg q]
    refine ⟨(f Str.nS (by intros; rfl) (by intros; rfl) (by intros; rfl)).trans e3.1, fun _ _ _ => ⟨?_, ?_⟩⟩
    · exact ((batLimits_keep Str.vb _ i i).trans (batLatches_keep Str.vb s3 i i)).trans e3.2.1
    · exact ((batLimits_keep Str.valid _ i i).trans (batLatches_keep Str.valid s3 i i)).trans e3.2.2

theorem modStr_ne (s : State) (i j : Fin 8) (f) (h : i ≠ j) : (s.modStr i f).bat.str[j] = s.bat.str[j] := modAt_ne s.bat.str i j f h

theorem strBlock_ne (s : State) (i j : Fin 8) (h : i ≠ j) : noRec (s.strBlock i).bat.str[j] = noRec s.bat.str[j] ∧ (s.strBlock i).bat.enSeen = s.bat.enSeen := by
  unfold State.strBlock
  extract_lets +onlyGivenNames x s0 v cur t s1 sc z vc s2 s3
  have mb (y : State) (f) : (y.modBRec i f).bat.enSeen = y.bat.enSeen := by unfold State.modBRec; exact ite_keep (fun x => x.bat.enSeen) (s := y) rfl rfl
  have e0 : s0.bat.str[j] = s.bat.str[j] := modStr_ne _ _ _ _ h
  have e1 : s1.bat.str[j] = s.bat.str[j] := (modStr_ne s0 _ _ _ h).trans e0
  have e2 : noRec s2.bat.str[j] = noRec s.bat.str[j] ∧ s2.bat.enSeen = s.bat.enSeen := by
    unfold s2; split
    · exact ⟨(modBRec_keep s1 i j _).trans (congrArg noRec e1), mb _ _⟩
    · exact ⟨congrArg noRec e1, rfl⟩
  have e3 : noRec s3.bat.str[j] = noRec s.bat.str[j] ∧ s3.bat.enSeen = s.bat.enSeen := ⟨(congrArg noRec (modStr_ne s2 i j _ h)).trans e2.1, e2.2⟩
  have l1 (y : State) : noRec (y.batLatches i).bat.str[j] = noRec y.bat.str[j] ∧ (y.batLatches i).bat.enSeen = y.bat.enSeen := by
    unfold State.batLatches
    extract_lets +onlyGivenNames x r vc e c h' nd nc s1 s2
    have e1 : noRec s1.bat.str[j] = noRec y.bat.str[j] ∧ s1.bat.enSeen = y.bat.enSeen := ⟨congrArg noRec (modStr_ne y i j _ h), rfl⟩
    have e2 : noRec s2.bat.str[j] = noRec y.bat.str[j] ∧ s2.bat.enSeen = y.bat.enSeen := by
      unfold s2; split
      · exact ⟨(modBRec_keep s1 i j _).trans e1.1, (mb _ _).trans e1.2⟩
      · exact e1
    split
    · exact ⟨(modBRec_keep s2 i j _).trans e2.1, (mb _ _).trans e2.2⟩
    · exact e2
  have l2 (y : State) : noRec (y.batLimits i).bat.str[j] = noRec y.bat.str[j] ∧ (y.batLimits i).bat.enSeen = y.bat.enSeen := by
    unfold State.batLimits
    extract_lets +onlyGivenNames x r vc tp idis ichg ifl dOut cOut dis chg off s1 s2
    have e1 : s1.bat = y.bat := ite_keep (fun x => x.bat) (s := y) rfl rfl
    have e2 : s2.bat = y.bat := ite_keep (fun x => x.bat) (s := y) e1 e1
    rw [batDeliver_bat]
    refine ⟨congrArg noRec ((modStr_ne s2 i j _ h).trans (by rw [e2])), Eq.trans (b := s2.bat.enSeen) rfl (congrArg Bat.enSeen e2)⟩
  by_cases q : (!(s.bat.enSeen[i] && x.present) || decide (x.nS ≠ 80)) = true
  · rw [if_pos q]; exact ⟨congrArg noRec e0, rfl⟩
  · rw [if_neg q]
    exact ⟨((l2 _).1.trans (l1 _).1).trans e3.1, ((l2 _).2.trans (l1 _).2).trans e3.2⟩

theorem block_fold (i : Fin 8) (l : List (Fin 8)) : ∀ s : State, l.Nodup → i ∈ l → 
    (l.foldl State.strBlock s).bat.str[i].nS = 0 ∧ (s.bat.enSeen[i] = true → s.bat.str[i].present = true → s.bat.str[i].nS = 80 → (l.foldl State.strBlock s).bat.str[i].vb = rdiv s.bat.str[i].sV 80 ∧ (l.foldl State.strBlock s).bat.str[i].valid = true) := by
  have keep : ∀ (l : List (Fin 8)) (s : State), i ∉ l → noRec (l.foldl State.strBlock s).bat.str[i] = noRec s.bat.str[i] := by
    intro l
    induction l with
    | nil => exact fun _ _ => rfl
    | cons a l ih =>
      intro s h
      rw [List.mem_cons, not_or] at h
      exact (ih _ h.2).trans (strBlock_ne s a i (fun q => h.1 q.symm)).1
  induction l with
  | nil => intro s _ h; cases h
  | cons a l ih =>
    intro s hd hm
    rw [List.nodup_cons] at hd
    rw [List.foldl_cons]
    by_cases e : a = i
    · subst e
      have k := keep l (s.strBlock a) hd.1
      obtain ⟨p, q⟩ := strBlock_at s a
      exact ⟨(of_noRec k Str.nS).trans p, fun x y z => ⟨(of_noRec k Str.vb).trans (q x y z).1, (of_noRec k Str.valid).trans (q x y z).2⟩⟩
    · obtain ⟨k, k'⟩ := strBlock_ne s a i e
      obtain ⟨p, q⟩ := ih (s.strBlock a) hd.2 (by rcases List.mem_cons.1 hm with q | q; exact absurd q.symm e; exact q)
      refine ⟨p, fun x y z => ?_⟩
      have := q (by rw [k']; exact x) ((of_noRec k Str.present).trans y) ((of_noRec k Str.nS).trans z)
      rw [show (s.strBlock a).bat.str[i].sV = s.bat.str[i].sV from of_noRec k Str.sV] at this
      exact this

theorem takeTemplate_keep {β : Type} (g : Str → β) (s : State) (i j : Fin 8) (hg : ∀ x, g (noRec x) = g x := by intro; rfl) (h1 : ∀ (x : Str) a, g { x with gtable := a } = g x := by intros; rfl) (h2 : ∀ (x : Str), g { x with ud := 0, unanch := true, unanchFired := false, qrFromV := true, mismDue := false } = g x := by intros; rfl) : g (s.takeTemplate i).bat.str[j] = g s.bat.str[j] := by
  unfold State.takeTemplate
  extract_lets +onlyGivenNames x r0 r s1 s2
  have e1 : g s1.bat.str[j] = g s.bat.str[j] := of_noRec (modBRec_keep s i j _) g hg
  have e2 : g s2.bat.str[j] = g s.bat.str[j] := ite_keep (fun x => g x.bat.str[j]) ((modStr_keep g s1 i j _ (fun p => h1 p _)).trans e1) e1
  exact (modStr_keep g s2 i j _ h2).trans e2

theorem correct_keep {β : Type} (g : Str → β) (s : State) (i j : Fin 8) (hg : ∀ x, g (noRec x) = g x := by intro; rfl) (h1 : ∀ (x : Str) a, g { x with gtable := a } = g x := by intros; rfl) (h2 : ∀ (x : Str), g { x with ud := 0, unanch := true, unanchFired := false, qrFromV := true, mismDue := false } = g x := by intros; rfl)
    (h3 : ∀ (x : Str) a, g { x with rs := a } = g x := by intros; rfl) (h4 : ∀ (x : Str), g { x with unanch := false, unanchFired := false, unanchSat := false } = g x := by intros; rfl) (h5 : ∀ (x : Str), g { x with qrFromV := false } = g x := by intros; rfl) (h6 : ∀ (x : Str), g { x with mismDue := false } = g x := by intros; rfl) :
    g (s.correct i).bat.str[j] = g s.bat.str[j] := by
  unfold State.correct
  extract_lets +onlyGivenNames x r v cur t sc z vocv sv rv rs p ds s1 quiet s2 s3
  have e1 : g s1.bat.str[j] = g s.bat.str[j] := (modStr_keep g _ i j _ (fun p => h3 p _)).trans (of_noRec (modBRec_keep s i j _) g hg)
  have e2 : g s2.bat.str[j] = g s.bat.str[j] := ite_keep (fun x => g x.bat.str[j]) ((batAnchor_keep g s1 i j h4 hg).trans e1) e1
  have e3 : g s3.bat.str[j] = g s.bat.str[j] := (of_noRec (modBRec_keep _ i j _) g hg).trans ((takeTemplate_keep g s2 i j hg h1 h2).trans e2)
  refine ite_keep (fun x => g x.bat.str[j]) (ite_keep (fun x => g x.bat.str[j]) ?_ ?_) e2
  · exact (modStr_keep g s3 i j _ h5).trans e3
  · exact (modStr_keep g s2 i j _ h6).trans e2

theorem strobeOne_sk (v i : Vector (BitVec 18) 8) (s : State) (k : Fin 8) : strobeKeep (State.strobeOne v i s k) = strobeKeep s ∧ (State.strobeOne v i s k).sns64 = s.sns64 ∧
    (∀ ch : Fin 130, ch.val = 98 + k.val ∨ ch.val = 106 + k.val → (State.strobeOne v i s k).sns.ch[ch].stamp = some (s.sns64 - 375000)) ∧
    (∀ ch : Fin 130, 98 ≤ ch.val → ch.val < 114 → ch.val ≠ 98 + k.val → ch.val ≠ 106 + k.val → (State.strobeOne v i s k).sns.ch[ch].stamp = s.sns.ch[ch].stamp) := by
  have key : ∀ (s2 : State) (a b : Int) (o : Bool) (n), strobeKeep s2 = strobeKeep s → s2.sns64 = s.sns64 →
      (∀ ch : Fin 130, ch.val = 98 + k.val ∨ ch.val = 106 + k.val → s2.sns.ch[ch].stamp = some (s.sns64 - 375000)) →
      (∀ ch : Fin 130, 98 ≤ ch.val → ch.val < 114 → ch.val ≠ 98 + k.val → ch.val ≠ 106 + k.val → s2.sns.ch[ch].stamp = s.sns.ch[ch].stamp) →
      strobeKeep (s2.oneString k a b o n) = strobeKeep s ∧ (s2.oneString k a b o n).sns64 = s.sns64 ∧
      (∀ ch : Fin 130, ch.val = 98 + k.val ∨ ch.val = 106 + k.val → (s2.oneString k a b o n).sns.ch[ch].stamp = some (s.sns64 - 375000)) ∧
      (∀ ch : Fin 130, 98 ≤ ch.val → ch.val < 114 → ch.val ≠ 98 + k.val → ch.val ≠ 106 + k.val → (s2.oneString k a b o n).sns.ch[ch].stamp = s.sns.ch[ch].stamp) := by
    intro s2 a b o n h1 h2 h3 h4
    obtain ⟨p, q⟩ := oneString_keep s2 k a b o n
    refine ⟨(oneString_sk _ _ _ _ _ _).trans h1, ?_, ?_, ?_⟩
    · unfold State.sns64; rw [p, q]; exact h2
    · rw [p]; exact h3
    · rw [p]; exact h4
  unfold State.strobeOne
  extract_lets +onlyGivenNames stamp nt chV chI cv ci s1 chN chD s2
  have ne (a b : Fin 130) (h : a.val ≠ b.val) : ¬ a = b := fun q => h (congrArg Fin.val q)
  have b1 : s1.bat = s.bat ∧ s1.sns64 = s.sns64 := by
    unfold s1
    exact ⟨(deliver_clock _ _ _ _).2.trans (deliver_clock _ _ _ _).2, (deliver_clock _ _ _ _).1.trans (deliver_clock _ _ _ _).1⟩
  have b2 : ∀ ch : Fin 130, s1.sns.ch[ch].stamp = if chI = ch then some stamp else if chV = ch then some stamp else s.sns.ch[ch].stamp := by
    intro ch
    unfold s1
    rw [deliver_stamp, deliver_stamp]
  have c1 : s2.bat = s.bat ∧ s2.sns64 = s.sns64 ∧ ∀ ch : Fin 130, ch.val < 114 → s2.sns.ch[ch].stamp = s1.sns.ch[ch].stamp := by
    unfold s2
    clear_value nt
    cases nt
    rotate_left
    · refine ⟨((deliver_clock _ _ _ _).2.trans (deliver_clock _ _ _ _).2).trans b1.1, ((deliver_clock _ _ _ _).1.trans (deliver_clock _ _ _ _).1).trans b1.2, ?_⟩
      intro ch hc
      rw [deliver_stamp, deliver_stamp, if_neg (ne chD ch (by show 122 + k.val ≠ _; omega)), if_neg (ne chN ch (by show 114 + k.val ≠ _; omega))]
    · exact ⟨b1.1, b1.2, fun _ _ => rfl⟩
  refine key s2 _ _ _ _ (by unfold strobeKeep; rw [c1.1]) c1.2.1 ?_ ?_
  · intro ch hc
    rw [c1.2.2 ch (by omega), b2]
    rcases hc with hc | hc
    · rw [if_neg (ne chI ch (by show 106 + k.val ≠ _; omega)), if_pos (Fin.ext (by show 98 + k.val = _; omega))]
    · rw [if_pos (Fin.ext (by show 106 + k.val = _; omega))]
  · intro ch h1 h2 h3 h4
    rw [c1.2.2 ch h2, b2, if_neg (ne chI ch (by show 106 + k.val ≠ _; omega)), if_neg (ne chV ch (by show 98 + k.val ≠ _; omega))]

theorem strobe_fold (v i : Vector (BitVec 18) 8) (l : List (Fin 8)) : ∀ s : State, strobeKeep (l.foldl (State.strobeOne v i) s) = strobeKeep s ∧
    (∀ ch : Fin 130, 98 ≤ ch.val → ch.val < 114 → ((∃ k ∈ l, ch.val = 98 + k.val ∨ ch.val = 106 + k.val) ∨ s.sns.ch[ch].stamp = some (s.sns64 - 375000)) →
      (l.foldl (State.strobeOne v i) s).sns.ch[ch].stamp = some (s.sns64 - 375000)) := by
  induction l with
  | nil =>
    intro s
    refine ⟨rfl, fun ch _ _ h => ?_⟩
    rcases h with ⟨k, h, _⟩ | h
    · cases h
    · exact h
  | cons a l ih =>
    intro s
    obtain ⟨p1, p2, p3, p4⟩ := strobeOne_sk v i s a
    obtain ⟨q1, q2⟩ := ih (State.strobeOne v i s a)
    refine ⟨q1.trans p1, fun ch h1 h2 h3 => ?_⟩
    rw [p2] at q2
    refine q2 ch h1 h2 ?_
    by_cases e : ch.val = 98 + a.val ∨ ch.val = 106 + a.val
    · exact .inr (p3 ch e)
    · rcases h3 with ⟨k, h3, h4⟩ | h3
      · rcases List.mem_cons.1 h3 with h3 | h3
        · subst h3; exact absurd h4 e
        · exact .inl ⟨k, h3, h4⟩
      · rw [not_or] at e
        exact .inr ((p4 ch h1 h2 e.1 e.2).trans h3)

theorem strobe_all {v i : Vector (BitVec 18) 8} {s0 : State} {n : Nat} {tk : Option Nat} {c : Nat} (h1 : s0.bat.strobes = n) (h2 : s0.bat.strobeTick = tk) (h3 : s0.sns64 = c) :
    (foldFin 8 s0 (State.strobeOne v i)).bat.strobes = n ∧ (foldFin 8 s0 (State.strobeOne v i)).bat.strobeTick = tk ∧
      ∀ ch : Fin 130, 98 ≤ ch.val → ch.val < 114 → (foldFin 8 s0 (State.strobeOne v i)).sns.ch[ch].stamp = some (c - 375000) := by
  have key := strobe_fold v i (List.finRange 8) s0
  unfold foldFin
  obtain ⟨k1, k2, -⟩ := sk_of key.1
  refine ⟨k1.trans h1, k2.trans h2, fun ch a b => ?_⟩
  rw [← h3]
  refine key.2 ch a b (.inl ?_)
  by_cases e : ch.val < 106
  · exact ⟨⟨ch.val - 98, by omega⟩, List.mem_finRange _, .inl (by show _ = 98 + (ch.val - 98); omega)⟩
  · exact ⟨⟨ch.val - 106, by omega⟩, List.mem_finRange _, .inr (by show _ = 106 + (ch.val - 106); omega)⟩

def hourOne (s : State) (i : Fin 8) : State :=
      let x := s.bat.str[i]
      if !(s.bat.enSeen[i] && x.present) then s
      else
        let n := min 65535 ((s.bRec i).unanchH + 1)
        let s1 := s.modBRec i (fun r => { r with unanchH := n })
        let s2 := if s.fld (F.BAT_ANC.unanch_max i) ≤ n ∧ !x.unanchFired then
            (s1.modStr i (fun x => { x with unanch := true, unanchFired := true })).batEvent i 0x08 x.code n else s1
        if n = 65535 ∧ !x.unanchSat then (s2.modStr i (fun x => { x with unanchSat := true })).fireSat (0x80 + 2 * i) (0x170BC + 0x200 * i) else s2

theorem hourOne_sk (y : State) (k) : strobeKeep (hourOne y k) = strobeKeep y := by
  unfold hourOne
  extract_lets +onlyGivenNames x n s1 s2
  have e1 : strobeKeep s1 = strobeKeep y := modBRec_sk _ _ _
  clear_value s1
  have e2 : strobeKeep s2 = strobeKeep y := ite_keep strobeKeep e1 e1
  clear_value s2
  exact ite_keep strobeKeep rfl (ite_keep strobeKeep e2 e2)

def ageOne (s : State) (i : Fin 8) : State := if s.bat.enSeen[i] && s.bat.str[i].present then s.idWrite i else s

theorem ageOne_sk (y : State) (k) : strobeKeep (ageOne y k) = strobeKeep y := ite_keep strobeKeep (idWrite_sk _ _) rfl

def secOne (s : State) (i : Fin 8) : State :=
      let x := s.bat.str[i]
      let go := s.bat.enSeen[i] && x.present && x.valid && x.n2 = 4000 && !x.skipSec && !x.ntcf && !x.declared && !x.eodDue && !x.eocDue
      let s1 := if go then s.correct i else s
      s1.modStr i (fun x => { x with n2 := 0, s2V := 0, s2I := 0, s2T := 0, n2T := 0, di := 0, ibPrev := none, skipSec := x.ntcf })

def secFacts (x : Str) : Nat × Int × Int := (x.n2, x.s2V, x.s2I)

theorem secOne_at (s : State) (a i : Fin 8) : secFacts (secOne s a).bat.str[i] = if a = i then (0, 0, 0) else secFacts s.bat.str[i] := by
  unfold secOne
  extract_lets +onlyGivenNames x go s1
  split
  · rename_i e; subst e; rw [modStr_at]; rfl
  · rename_i e
    rw [modStr_ne _ _ _ _ e]
    exact ite_keep (fun x => secFacts x.bat.str[i]) (correct_keep secFacts s a i) rfl

theorem second_fold (i : Fin 8) (l : List (Fin 8)) : ∀ s : State, (i ∈ l ∨ secFacts s.bat.str[i] = (0, 0, 0)) → secFacts (l.foldl secOne s).bat.str[i] = (0, 0, 0) := by
  induction l with
  | nil =>
    intro s h
    rcases h with h | h
    · cases h
    · exact h
  | cons a l ih =>
    intro s h
    refine ih _ ?_
    rw [secOne_at]
    by_cases e : a = i
    · right; rw [if_pos e]
    · rw [if_neg e]
      rcases h with h | h
      · rcases List.mem_cons.1 h with h | h
        · exact absurd h.symm e
        · exact .inl h
      · exact .inr h

end Sys2Proof.Machine
end

