-- ==== Sys2Proof/Laws/SlotOps.lean ====
section
/-! SUPPORT. What the operations of the slot links keep and what they lead to. -/

set_option Elab.async false

namespace Sys2Proof.Machine
open Sys2Proof

theorem modSlt_at (s : State) (k) (f) : (s.modSlt k f).slt[k] = f s.slt[k] := modAt_same _ _ _

theorem modSlot_at (s : State) (k) (f) : (s.modSlot k f).slot[k] = f s.slot[k] := modAt_same _ _ _

theorem modStage_at (s : State) (k) (f) : (s.modStage k f).stage[k] = f s.stage[k] := modAt_same _ _ _

theorem modSlt_keep {β : Type} (g : Slt → β) (s : State) (i j : Fin 32) (f : Slt → Slt) (h : ∀ p, g (f p) = g p := by intro; rfl) :
    g (s.modSlt i f).slt[j] = g s.slt[j] := by
  by_cases e : i = j
  · subst e; rw [modSlt_at]; exact h _
  · show g ((modAt s.slt i f)[j]) = _
    rw [modAt_ne _ _ _ _ e]

/-- What a frame leaves in the link's measurement registers. -/
def Slt.frameRegs (l : Slt) : BitVec 16 × Byte × BitVec 32 × BitVec 32 × BitVec 16 × Option Byte × BitVec 32 := (l.status, l.follow, l.i, l.v, l.t, l.fcnt, l.rxts)

theorem mbResult_slt (s : State) (q r) : (s.mbResult q r).slt = s.slt := by
  unfold State.mbResult; split <;> rfl

theorem fwEnd_keep {β : Type} (g : Slt → β) (s : State) (k) (h : ∀ l, g ({ l with fw := none } : Slt) = g l) : g (s.fwEnd k).slt[k] = g s.slt[k] := by
  unfold State.fwEnd; split
  · exact modSlt_keep g s k k _ h
  · rfl

theorem mbxReset_keep {β : Type} (g : Slt → β) (s : State) (k) (h : ∀ l, g ({ l with fw := none } : Slt) = g l) (h2 : ∀ l, g ({ l with mbx := .zero, req := [] } : Slt) = g l) :
    g (s.mbxReset k).slt[k] = g s.slt[k] := by
  unfold State.mbxReset
  extract_lets s1
  refine (modSlt_keep g _ k k _ h2).trans ?_
  refine (fwEnd_keep g _ k h).trans ?_
  have : s1.slt = s.slt := foldl_keep (fun x => x.slt) (fun s q => s.mbResult q (CmdRes.of 6)) (fun _ _ => mbResult_slt _ _ _) _ s
  rw [this]

theorem toTrain_at (s : State) (k) : (s.toTrain k).slt[k].lstate = 1 ∧ (s.toTrain k).slt[k].lossCnt = s.slt[k].lossCnt.inc ∧ (s.toTrain k).slt[k].frameRegs = s.slt[k].frameRegs := by
  unfold State.toTrain
  extract_lets +onlyGivenNames l c x0 s0 s1
  have e1 : s1.slt = (s0.modSlt k (fun l => { l with lstate := 1, run := 0, lossCnt := c })).slt := step_satEv.frame .slt (by decide)
  have k1 : s1.slt[k].lstate = 1 ∧ s1.slt[k].lossCnt = c ∧ s1.slt[k].frameRegs = s.slt[k].frameRegs := by
    rw [e1, modSlt_at]; exact ⟨rfl, rfl, rfl⟩
  split
  · refine ⟨?_, ?_, ?_⟩
    · exact (mbxReset_keep (fun l => l.lstate) s1 k (fun _ => rfl) (fun _ => rfl)).trans k1.1
    · exact (mbxReset_keep (fun l => l.lossCnt) s1 k (fun _ => rfl) (fun _ => rfl)).trans k1.2.1
    · exact (mbxReset_keep Slt.frameRegs s1 k (fun _ => rfl) (fun _ => rfl)).trans k1.2.2
  · exact k1

theorem toTrain_chans (s : State) (k) : (s.toTrain k).chans = (s.satEv s.slt[k].lossCnt s.slt[k].lossCnt.inc (0x60 + k.val) (0x18040 + 0x100 * k.val)).chans := by
  unfold State.toTrain
  extract_lets +onlyGivenNames l c x0 s0 s1
  have k1 : s1.chans = (s.satEv s.slt[k].lossCnt s.slt[k].lossCnt.inc (0x60 + k.val) (0x18040 + 0x100 * k.val)).chans := by
    unfold s1 State.satEv
    split <;> rfl
  refine Eq.trans ?_ k1
  refine ite_keep (fun x => x.chans) (s := s1) ?_ rfl
  exact step_mbxReset.frame (s := s1) .chans (by decide)

theorem toTrain_flight (s : State) (k) : ∃ x, (s.toTrain k).chans.flight = s.chans.flight ++ x := by
  rw [toTrain_chans]
  obtain ⟨c, e, x, h⟩ := satEv_chans s s.slt[k].lossCnt s.slt[k].lossCnt.inc (0x60 + k.val) (0x18040 + 0x100 * k.val)
  exact ⟨x, by rw [e]; exact h⟩

theorem linkUpNow_meas (s : State) (k d) : (s.linkUpNow k d).slt[k].frameRegs = s.slt[k].frameRegs :=
  modSlt_keep Slt.frameRegs s k k _ (fun _ => rfl)

theorem declStep_meas (s : State) (k d) : (s.declStep k d).slt[k].frameRegs = s.slt[k].frameRegs := by
  unfold State.declStep
  extract_lets +onlyGivenNames l near
  split
  · extract_lets +onlyGivenNames old s1
    split
    · rfl
    · show s1.slt[k].frameRegs = _
      unfold s1
      refine Eq.trans (modSlt_keep Slt.frameRegs _ k k _ ?_) (toTrain_at s k).2.2
      intro _; rfl
  · split
    · extract_lets +onlyGivenNames run s1 s2
      have k1 : s1.slt[k].frameRegs = s.slt[k].frameRegs := modSlt_keep Slt.frameRegs _ k k _ (fun _ => rfl)
      split
      · exact k1
      · split
        · exact (linkUpNow_meas s1 k d).trans k1
        · show s2.slt[k].frameRegs = _
          refine Eq.trans (modSlt_keep Slt.frameRegs _ k k _ ?_) k1
          intro _; rfl
    · rfl

theorem mbSend_meas (s s' : State) (k h t r) (e : s.mbSend k h t r = some s') : s'.slt[k].frameRegs = s.slt[k].frameRegs := by
  unfold State.mbSend at e
  obtain ⟨a, _, b⟩ := Option.map_eq_some_iff.1 e
  rw [← b]
  exact modSlt_keep Slt.frameRegs s k k _ (fun _ => rfl)

theorem fwPump_meas (s : State) (k) : (s.fwPump k).slt[k].frameRegs = s.slt[k].frameRegs := by
  unfold State.fwPump
  split
  · split
    · rfl
    · extract_lets +onlyGivenNames m
      split
      · rename_i s1 e
        refine Eq.trans (modSlt_keep Slt.frameRegs _ k k _ ?_) ?_
        · intro _; rfl
        refine Eq.trans ?_ (mbSend_meas s s1 k _ _ _ e)
        exact ite_keep (fun x => x.slt[k].frameRegs) (s := s1) rfl rfl
      · rfl
  · rfl

theorem fwStep_meas (s : State) (k n) : (s.fwStep k n).slt[k].frameRegs = s.slt[k].frameRegs := by
  unfold State.fwStep
  split
  · split
    · exact fwEnd_keep Slt.frameRegs s k (fun _ => rfl)
    · split
      · exact modSlt_keep Slt.frameRegs s k k _ (fun _ => rfl)
      · exact modSlt_keep Slt.frameRegs s k k _ (fun _ => rfl)
  · rfl

theorem mbMessage_meas (s : State) (k m) : (s.mbMessage k m).slt[k].frameRegs = s.slt[k].frameRegs := by
  unfold State.mbMessage
  extract_lets +onlyGivenNames b mine drop
  have kd : ∀ x : State, (drop x).slt[k].frameRegs = x.slt[k].frameRegs := fun x => modSlt_keep Slt.frameRegs x k k _ (fun _ => rfl)
  split
  · refine Eq.trans ?_ (kd s)
    refine foldl_keep (fun x => x.slt[k].frameRegs) _ (fun x q => ?_) _ _
    exact ite_keep (fun x => x.slt[k].frameRegs) (by show (x.mbResult q _).slt[k].frameRegs = _; rw [mbResult_slt]) rfl
  · split
    · exact (fwStep_meas _ k _).trans (kd s)
    · rfl
  · rfl
  · rfl

theorem mbReceive_meas (s : State) (k p) : (s.mbReceive k p).slt[k].frameRegs = s.slt[k].frameRegs := by
  unfold State.mbReceive
  split
  · rfl
  · extract_lets +onlyGivenNames ctl m1 r s1 s2
    have k1 : s1.slt[k].frameRegs = s.slt[k].frameRegs := modSlt_keep Slt.frameRegs s k k _ (fun _ => rfl)
    have k2 : s2.slt[k].frameRegs = s.slt[k].frameRegs := by
      unfold s2
      split
      · exact (fwPump_meas _ k).trans ((mbMessage_meas s1 k _).trans k1)
      · exact k1
    split
    · exact k2
    · exact k2

theorem statusEvents_slt (s : State) (k a b i) : (s.statusEvents k a b i).slt = s.slt := step_statusEvents.frame .slt (by decide)

theorem linkSync_sns (s : State) (k) : (s.linkSync k).sns64 = s.sns64 ∧ (s.linkSync k).time = s.time := by
  have a : (s.linkSync k).sns = s.sns := step_linkSync.frame .sns (by decide)
  have b : (s.linkSync k).time = s.time := step_linkSync.frame .time (by decide)
  unfold State.sns64
  rw [a, b]
  exact ⟨rfl, rfl⟩

theorem refollow_port (m : SlotMod) : m.refollow.port = m.port := rfl

theorem claim_slotMailbox (s : State) (k p pl) : (fun q : SlotPort => (q.claim, q.last, q.echo)) (s.slotMailbox k p pl).slot[k].port[p] = (s.slot[k].port[p].claim, s.slot[k].port[p].last, s.slot[k].port[p].echo) := by
  unfold State.slotMailbox
  extract_lets +onlyGivenNames m ctl b0 r allowed ans b1 b2
  rw [modSlot_at]
  have : (if ans.isSome = true then s.drawn else s).slot = s.slot := ite_keep (fun x => x.slot) (s := s) rfl rfl
  rw [this]
  show (fun q : SlotPort => (q.claim, q.last, q.echo)) ((modAt s.slot[k].port p _)[p]) = _
  rw [modAt_same]

end Sys2Proof.Machine
end

