-- ==== Sys2Proof/Laws/RoleOps.lean ====
section
/-! SUPPORT. What the operations of roles and verdicts keep and what they lead to. -/

set_option Elab.async false

namespace Sys2Proof.Machine
open Sys2Proof

theorem takeDrive_aon (s : State) (r e) : (s.takeDrive r e).aon = { s.aon with epoch := e } ∧ (s.takeDrive r e).sys.role = r := by
  unfold State.takeDrive
  extract_lets +onlyGivenNames x0 x1 x2 s1
  have a1 : s1.seedAll.latchClaim.lawSyncAll.aon = s1.seedAll.latchClaim.aon := step_lawSyncAll.frame .aon (by decide)
  have a2 : s1.seedAll.latchClaim.aon = s1.seedAll.aon := step_latchClaim.frame .aon (by decide)
  have a3 : s1.seedAll.aon = s1.aon := step_seedAll.frame .aon (by decide)
  have b1 : s1.seedAll.latchClaim.lawSyncAll.sys = s1.seedAll.latchClaim.sys := step_lawSyncAll.frame .sys (by decide)
  have b2 : s1.seedAll.latchClaim.sys = s1.seedAll.sys := step_latchClaim.frame .sys (by decide)
  have b3 : s1.seedAll.sys = s1.sys := step_seedAll.frame .sys (by decide)
  rw [a1, a2, a3, b1, b2, b3]
  exact ⟨rfl, rfl⟩

theorem modArb_at (s : State) (x f) : (s.modArb x f).arb.u[x] = f s.arb.u[x] := modAt_same _ _ _

theorem modArb_keep {β : Type} (g : ArbUnit → β) (s : State) (i j : Fin 2) (f : ArbUnit → ArbUnit) (h : ∀ p, g (f p) = g p) :
    g (s.modArb i f).arb.u[j] = g s.arb.u[j] := by
  by_cases e : i = j
  · subst e; rw [modArb_at]; exact h _
  · show g ((modAt s.arb.u i f)[j]) = _
    rw [modAt_ne _ _ _ _ e]

def unitView (u : ArbUnit) : HbClass × Nat := (u.cls, u.edge)

theorem takeOrDefer_keep (s : State) (y x : Fin 2) : unitView (s.takeOrDefer y).arb.u[x] = unitView s.arb.u[x] := by
  unfold State.takeOrDefer
  have : unitView (s.takePulse y).arb.u[x] = unitView s.arb.u[x] := modArb_keep unitView s y x _ (fun _ => rfl)
  split
  · exact ite_keep (fun z => unitView z.arb.u[x]) rfl this
  · exact this

theorem verdict_keep (s : State) (y x : Fin 2) : unitView (s.verdict y).arb.u[x] = unitView s.arb.u[x] := by
  unfold State.verdict
  refine ite_keep (fun z => unitView z.arb.u[x]) ?_ rfl
  extract_lets +onlyGivenNames c s1 s2 x0 s3
  have k1 : unitView s1.arb.u[x] = unitView s.arb.u[x] := modArb_keep unitView s y x _ (fun _ => rfl)
  have k2 : unitView s2.arb.u[x] = unitView s.arb.u[x] := ite_keep (fun z => unitView z.arb.u[x]) ((takeOrDefer_keep s1 _ x).trans k1) k1
  have e : ((s3.fire 0xB8 0x02 0 s3.arbOut).satEv s.arb.verdCnt c 0xB0 0x1A088).arb = (s3.fire 0xB8 0x02 0 s3.arbOut).arb := step_satEv.frame .arb (by decide)
  show unitView (State.arb _).u[x] = _
  rw [e]
  exact k2

theorem classChange_at (s : State) (x c) : unitView (s.classChange x c).arb.u[x] = (c, s.arb.u[x].edge) := by
  unfold State.classChange
  by_cases q : s.arb.u[x].cls = c
  · rw [if_pos q, ← q]; rfl
  · rw [if_neg q]
    extract_lets s1
    rw [verdict_keep, verdict_keep]
    show unitView s1.arb.u[x] = _
    unfold s1
    rw [modArb_at]; rfl

theorem foldFin_at {n : Nat} {α : Type} (g : State → Vector α n) (f : State → Fin n → State) (r : State → Fin n → α → α)
    (k : ∀ s a, g (f s a) = modAt (g s) a (r s a)) (rt : ∀ s b a, r (f s b) a = r s a) (s : State) (x : Fin n) :
    (g (foldFin n s f))[x] = r s x (g s)[x] := by
  have go : ∀ (l : List (Fin n)) (s : State), l.Nodup → (g (l.foldl f s))[x] = if x ∈ l then r s x (g s)[x] else (g s)[x] := by
    intro l
    induction l with
    | nil => intro s _; rfl
    | cons a l ih =>
      intro s hn
      rw [List.nodup_cons] at hn
      show (g (l.foldl f (f s a)))[x] = _
      rw [ih _ hn.2, k]
      by_cases e : a = x
      · subst e
        rw [if_neg hn.1, modAt_same, if_pos (List.mem_cons_self)]
      · rw [modAt_ne _ _ _ _ e, rt]
        by_cases m : x ∈ l
        · rw [if_pos m, if_pos (List.mem_cons_of_mem _ m)]
        · rw [if_neg m, if_neg (by simp [m]; exact fun q => e q.symm)]
  unfold foldFin
  rw [go _ s (List.nodup_finRange n), if_pos (List.mem_finRange x)]

def takeEndRound (s : State) (x : Fin 2) : State := s.modArb x (fun u => { u with take := u.take && !s.ranOut u.takeAt (2 * us1) })

theorem pulseEnd_ranOut {s : State} {x : Fin 2} (h : s.arb.u[x].take = true) (k : s.ranOut s.arb.u[x].takeAt (2 * us1) = true) :
    s.ranOut s.pulseEnd 0 = true := by
  cases q : s.arb.u[x].takeAt with
  | none => rw [q] at k; exact absurd k (by simp [State.ranOut])
  | some t =>
    rw [q] at k
    simp only [State.ranOut, decide_eq_true_eq] at k
    have m : t + 2 * us1 ∈ (s.arb.u.toList.filter (fun u => u.take)).filterMap (fun u => u.takeAt.map (fun t => t + 2 * us1)) := by
      refine List.mem_filterMap.2 ⟨s.arb.u[x], List.mem_filter.2 ⟨?_, h⟩, by rw [q]; rfl⟩
      simp
    unfold State.pulseEnd
    generalize hl : (s.arb.u.toList.filter (fun u => u.take)).filterMap (fun u => u.takeAt.map (fun t => t + 2 * us1)) = l at *
    cases r : l.min? with
    | none => rw [List.min?_eq_none_iff] at r; rw [r] at m; exact absurd m List.not_mem_nil
    | some a =>
      rw [List.min?_eq_some_iff] at r
      have := r.2 _ m
      simp only [State.ranOut, decide_eq_true_eq]
      omega

end Sys2Proof.Machine
end

