-- ==== Sys2Proof/Laws/ChezonOps.lean ====
section
/-! SUPPORT. What the operations of the peer link keep and what they lead to. -/

set_option Elab.async false

namespace Sys2Proof.Machine
open Sys2Proof

def redView (r : Red) : Nat × Byte × Bool × Ctr × Ctr × Option Snapshot × Int × Bool × Bool :=
  (r.pktAt, r.peer, r.peerSeen, r.snapCnt, r.snapErr, r.disp, r.tofs, r.aligned, r.tickTaken)

theorem readyUp_view (s : State) : redView s.readyUp.red = redView s.red := ite_keep (fun x => redView x.red) rfl rfl

theorem digestEval_view (s : State) : redView s.digestEval.red = redView s.red :=
  ite_keep (fun x => redView x.red) rfl (ite_keep (fun x => redView x.red) rfl (ite_keep (fun x => redView x.red) rfl rfl))

theorem statusTaken_view (s : State) (p) : redView (s.statusTaken p).red = redView s.red := by
  unfold State.statusTaken
  extract_lets +onlyGivenNames ended s1 up x0 s2
  rw [digestEval_view]
  have h : ∀ x : State, (x.seqMirror p).red = x.red := fun _ => step_seqMirror.frame .red (by decide)
  show redView s1.red = _
  unfold s1; rw [h]; rfl

theorem peerHigher_keep (s : State) (c) : (s.peerHigher c).red = s.red ∧ (s.peerHigher c).aon = s.aon := by
  unfold State.peerHigher
  constructor
  · refine ite_keep (fun x => x.red) ?_ rfl
    split <;> rfl
  · refine ite_keep (fun x => x.aon) ?_ rfl
    split <;> rfl

theorem compare_view (s : State) (i d m b c a) : redView (s.compare i d m b c a).red = redView s.red := by
  unfold State.compare
  refine ite_keep (fun x => redView x.red) rfl ?_
  extract_lets +onlyGivenNames n s1
  refine ite_keep (fun x => redView x.red) rfl ?_
  extract_lets +onlyGivenNames s2
  refine ite_keep (fun x => redView x.red) rfl ?_
  extract_lets +onlyGivenNames c'
  have : ∀ x : State, ∀ o n a b, (x.satEv o n a b).red = x.red := fun _ _ _ _ _ => step_satEv.frame .red (by decide)
  rw [this]
  have e : ((s2.modRed (fun r => { r with xmis := c' })).stickBit m b).red = (s2.modRed (fun r => { r with xmis := c' })).red := step_stickBit.frame .red (by decide)
  show redView ((s2.modRed (fun r => { r with xmis := c' })).stickBit m b).red = _
  rw [e]
  rfl

theorem crossCheck_view (s : State) (b) : redView (s.crossCheck b).red = redView s.red := by
  have h1 : ∀ x : State, redView (x.xcheckChannels b).red = redView x.red := by
    intro x
    unfold State.xcheckChannels
    refine foldFin_keep (fun x => redView x.red) _ (fun z k => ?_) x
    split
    · rfl
    · split
      · rfl
      · refine ite_keep (fun x => redView x.red) rfl ?_
        split
        · exact compare_view _ _ _ _ _ _ _
        · exact compare_view _ _ _ _ _ _ _
  have h2 : ∀ x : State, redView (x.xcheckStrings b).red = redView x.red := by
    intro x
    unfold State.xcheckStrings
    split
    · rfl
    refine ite_keep (fun x => redView x.red) rfl ?_
    exact foldFin_keep (fun x => redView x.red) _ (fun z k => compare_view _ _ _ _ _ _ _) _
  have h3 : ∀ x : State, redView (x.xcheckScan b).red = redView x.red := by
    intro x
    unfold State.xcheckScan
    refine ite_keep (fun x => redView x.red) rfl ?_
    exact compare_view _ _ _ _ _ _ _
  have h4 : ∀ x : State, redView (x.xcheckDispatch b).red = redView x.red := by
    intro x
    unfold State.xcheckDispatch
    split
    · rfl
    refine ite_keep (fun x => redView x.red) rfl ?_
    exact foldFin_keep (fun x => redView x.red) _ (fun z k => compare_view _ _ _ _ _ _ _) _
  unfold State.crossCheck
  rw [h4, h3, h2, h1]; rfl

theorem drillStart_red (s : State) : s.drillStart.red.drill = some ⟨1, s.time⟩ := rfl

end Sys2Proof.Machine
end

