-- ==== Sys2Proof/Laws/SequencerOps.lean ====
section
/-! SUPPORT. What the operations of the sequencer keep and what they lead to. -/

set_option Elab.async false

namespace Sys2Proof.Machine
open Sys2Proof

def riseView (n : Node) : NState × Bool × Option Nat × Nat := (n.st, n.pg, n.dset, n.settle)

theorem evalNode_view (s : State) (j k : Fin 72) : riseView (s.evalNode j).seq.n[k] = riseView s.seq.n[k] := by
  unfold State.evalNode
  extract_lets +onlyGivenNames v dbc
  by_cases e : j = k
  · subst e; rw [modNode_at]; rfl
  · rw [modNode_ne _ _ _ _ e]

theorem stepNode_other (s : State) (j k : Fin 72) (h : j ≠ k) (hd : s.seq.n[k].dset = none) : (s.stepNode j).seq.n[k] = s.seq.n[k] := by
  unfold State.stepNode
  extract_lets +onlyGivenNames n
  refine ite_keep (fun x => x.seq.n[k]) rfl ?_
  split
  · exact ite_keep (fun x => x.seq.n[k]) (modNode_ne s j k _ h) rfl
  · exact ite_keep (fun x => x.seq.n[k]) (ite_keep (fun x => x.seq.n[k]) (modNode_ne s j k _ h) rfl) (ite_keep (fun x => x.seq.n[k]) (modNode_ne s j k _ h) rfl)
  · exact ite_keep (fun x => x.seq.n[k]) (ite_keep (fun x => x.seq.n[k]) (modNode_ne s j k _ h) rfl) (ite_keep (fun x => x.seq.n[k]) (modNode_ne s j k _ h) rfl)
  · exact ite_keep (fun x => x.seq.n[k]) (ite_keep (fun x => x.seq.n[k]) (modNode_ne s j k _ h) rfl) (ite_keep (fun x => x.seq.n[k]) (modNode_ne s j k _ h) rfl)
  · refine ite_keep (fun x => x.seq.n[k]) ?_ rfl
    extract_lets +onlyGivenNames s1
    have e : s1.seq.n[k] = s.seq.n[k] := modNode_ne s j k _ h
    show (s1.seq.n.map _)[k] = _
    rw [map_at, e, hd]
    rfl
  · rfl

theorem stepNode_const (s : State) (j : Fin 72) : (s.stepNode j).regs = s.regs ∧ (s.stepNode j).time = s.time ∧ (s.stepNode j).seq.st = s.seq.st := by
  refine ⟨step_stepNode.frame .regs (by decide), step_stepNode.frame .time (by decide), ?_⟩
  unfold State.stepNode
  extract_lets +onlyGivenNames n
  refine ite_keep (fun x => x.seq.st) rfl ?_
  split
  · exact ite_keep (fun x => x.seq.st) rfl rfl
  · exact ite_keep (fun x => x.seq.st) (ite_keep (fun x => x.seq.st) rfl rfl) (ite_keep (fun x => x.seq.st) rfl rfl)
  · exact ite_keep (fun x => x.seq.st) (ite_keep (fun x => x.seq.st) rfl rfl) (ite_keep (fun x => x.seq.st) rfl rfl)
  · exact ite_keep (fun x => x.seq.st) (ite_keep (fun x => x.seq.st) rfl rfl) (ite_keep (fun x => x.seq.st) rfl rfl)
  · exact ite_keep (fun x => x.seq.st) rfl rfl
  · rfl

theorem stepOff_keep (s : State) (j k : Fin 72) (h : s.seq.n[k].st = .rising) :
    (s.stepOff j).regs = s.regs ∧ (s.stepOff j).time = s.time ∧ (s.stepOff j).seq.st = s.seq.st ∧ (s.stepOff j).seq.n[k] = s.seq.n[k] := by
  refine ⟨step_stepOff.frame .regs (by decide), step_stepOff.frame .time (by decide), ?_, ?_⟩
  · unfold State.stepOff
    refine ite_keep (fun x => x.seq.st) rfl ?_
    split
    · exact ite_keep (fun x => x.seq.st) rfl rfl
    · exact ite_keep (fun x => x.seq.st) rfl rfl
    · rfl
  · by_cases e : j = k
    · subst e
      unfold State.stepOff
      rw [h]
      exact ite_keep (fun x => x.seq.n[j]) rfl rfl
    · unfold State.stepOff
      refine ite_keep (fun x => x.seq.n[k]) rfl ?_
      split
      · exact ite_keep (fun x => x.seq.n[k]) (modNode_ne s j k _ e) rfl
      · exact ite_keep (fun x => x.seq.n[k]) (modNode_ne s j k _ e) rfl
      · rfl

theorem nodeEn_of (s t : State) (k) (h : t.regs = s.regs) : t.nodeEn k = s.nodeEn k := by
  unfold State.nodeEn State.bit State.fld State.word; rw [h]

theorem seqComplete_n (s : State) : s.seqComplete.seq.n = s.seq.n := by
  unfold State.seqComplete; exact ite_keep (fun x => x.seq.n) rfl rfl

theorem seqAllOff_n (s : State) : s.seqAllOff.seq.n = s.seq.n := by
  unfold State.seqAllOff; exact ite_keep (fun x => x.seq.n) rfl rfl

theorem stepNode_rise (s : State) (k : Fin 72) (h1 : s.nodeEn k = true) (h2 : s.seq.n[k].st = .rising) (h3 : s.seq.n[k].pg = true)
    (h4 : s.seq.n[k].dset = none) (h5 : s.seq.st ≠ 4) : (s.stepNode k).seq.n[k] = { s.seq.n[k] with st := .settle, settle := s.time } := by
  unfold State.stepNode
  extract_lets +onlyGivenNames n
  have hs : s.shutting k = false := by
    unfold State.shutting
    rw [h1, h4]
    simpa using h5
  have hn : n.st = .rising := h2
  have hp : n.pg = true := h3
  rw [if_neg (by rw [h1]; decide), hn]
  dsimp only
  rw [if_neg (by rw [hs]; decide), if_pos (by rw [hp]; rfl), modNode_at]

theorem nodeFail_at (s : State) (k : Fin 72) (c : Nat) : (s.nodeFail k c).seq.n[k] = { s.seq.n[k] with en := false, st := .failed, dly := none, cause := c } ∧
    (s.nodeFail k c).seq.failCnt = s.seq.failCnt.inc ∧ Raises s (s.nodeFail k c) 0x91 c k (s.nodeVal k) := by
  have e0 : ∀ x : State, ∀ o n a b, (x.satEv o n a b).seq = x.seq := fun _ _ _ _ _ => step_satEv.frame .seq (by decide)
  have key : ∀ x : State, (x.nodeFailed k c).seq.n[k] = { x.seq.n[k] with cause := c } ∧ (x.nodeFailed k c).seq.failCnt = x.seq.failCnt.inc ∧ Raises x (x.nodeFailed k c) 0x91 c k (x.nodeVal k) := by
    intro x
    unfold State.nodeFailed
    extract_lets +onlyGivenNames c' s1 x0 s2
    rw [e0]
    refine ⟨?_, rfl, ?_⟩
    · show (x.modNode k _).seq.n[k] = _
      rw [modNode_at]
    · exact Raises.satEv (Raises.fire 0x91 c k (x.nodeVal k) [] (List.append_nil _).symm rfl) _ _ _ _
  have kb : ∀ x : State, x.seq.n[k].st = .failed → (x.blockDeps k).seq.n[k] = x.seq.n[k] ∧ (x.blockDeps k).seq.failCnt = x.seq.failCnt ∧ ∃ l, (x.blockDeps k).chans.flight = x.chans.flight ++ l := by
    intro x hx
    unfold State.blockDeps
    extract_lets +onlyGivenNames m hit cnt x0 s1
    have h1 : s1.seq.n[k] = x.seq.n[k] := by
      show (mapFin x.seq.n _)[k] = _
      rw [mapFin_at, if_neg]
      show ¬ (bitAt m k && (x.seq.n[k].st = .off || x.seq.n[k].st = .wait)) = true
      rw [hx]; simp
    have h2 : s1.seq.failCnt = x.seq.failCnt ∧ s1.chans.flight = x.chans.flight := ⟨rfl, rfl⟩
    clear_value s1 cnt
    by_cases q : cnt = 0
    · rw [if_pos q]
      exact ⟨h1, h2.1, [], by rw [h2.2, List.append_nil]⟩
    · rw [if_neg q]
      refine ⟨h1, h2.1, [⟨0x91, evData 0x05 k cnt, none, false, s1.time⟩], ?_⟩
      show s1.chans.flight ++ _ = _
      rw [h2.2]
  unfold State.nodeFail
  obtain ⟨a1, a2, a3⟩ := key (s.modNode k (fun n => { n with en := false, st := .failed, dly := none }))
  have b1 : (s.modNode k (fun n => { n with en := false, st := .failed, dly := none })).seq.n[k] = { s.seq.n[k] with en := false, st := .failed, dly := none } := modNode_at _ _ _
  rw [b1] at a1
  obtain ⟨c1, c2, l, c3⟩ := kb ((s.modNode k (fun n => { n with en := false, st := .failed, dly := none })).nodeFailed k c) (by rw [a1])
  exact ⟨c1.trans a1, c2.trans a2, Raises.after a3 l c3⟩

theorem restart_after {s : State} {o : Option Nat} {d : Nat} (h : (o.isNone || s.ranOut o d) = true) :
    (o.map (fun t => t + d)).getD 0 ≤ s.time := by
  cases o with
  | none => exact Nat.zero_le _
  | some t => simpa [State.ranOut] using h

end Sys2Proof.Machine
end

