-- ==== Sys2Proof/Laws/ThermalOps.lean ====
section
/-! SUPPORT. What the operations of temperatures and fuses keep and what they lead to. -/

set_option Elab.async false

namespace Sys2Proof.Machine
open Sys2Proof

theorem modSensor_at (s : State) (k : Fin 48) (f) : (s.modSensor k f).thm.s[k] = f s.thm.s[k] := modAt_same _ _ _

theorem modSensor_ne (s : State) (k m : Fin 48) (f) (h : k ≠ m) : (s.modSensor k f).thm.s[m] = s.thm.s[m] := modAt_ne s.thm.s k m f h

def rawView (x : Sensor) : Nat × Int := (x.raw, x.t)

theorem sensorState_view (s : State) (k m : Fin 48) (c) : rawView (s.sensorState k c).thm.s[m] = rawView s.thm.s[m] := by
  have mk : ∀ f : Sensor → Sensor, (∀ x, rawView (f x) = rawView x) → rawView (s.modSensor k f).thm.s[m] = rawView s.thm.s[m] := by
    intro f hf
    by_cases e : k = m
    · subst e; rw [modSensor_at]; exact hf _
    · rw [modSensor_ne _ _ _ _ e]
  unfold State.sensorState
  extract_lets +onlyGivenNames x s1
  refine ite_keep (fun z => rawView z.thm.s[m]) ?_ (ite_keep (fun z => rawView z.thm.s[m]) ?_ rfl)
  · have h1 : rawView s1.thm.s[m] = rawView s.thm.s[m] := mk _ (fun x => by dsimp only; split <;> rfl)
    exact ite_keep (fun z => rawView z.thm.s[m]) h1 h1
  · exact mk _ (fun _ => rfl)

theorem sensorState_ne (s : State) (k m : Fin 48) (c) (h : k ≠ m) : (s.sensorState k c).thm.s[m] = s.thm.s[m] := by
  unfold State.sensorState
  extract_lets +onlyGivenNames x s1
  have h1 : s1.thm.s[m] = s.thm.s[m] := modSensor_ne _ _ _ _ h
  refine ite_keep (fun z => z.thm.s[m]) (ite_keep (fun z => z.thm.s[m]) h1 h1) (ite_keep (fun z => z.thm.s[m]) (modSensor_ne _ _ _ _ h) rfl)

theorem readSensor_ne (c) (s : State) (k m : Fin 48) (h : k ≠ m) : (State.readSensor c s k).thm.s[m] = s.thm.s[m] := by
  unfold State.readSensor
  extract_lets r
  rw [sensorState_ne _ _ _ _ h, modSensor_ne _ _ _ _ h]

theorem thm_levels (s : State) (k m : Fin 48) : rawView (s.levels k).thm.s[m] = rawView s.thm.s[m] := by
  unfold State.levels
  extract_lets +onlyGivenNames x warn trip h w p s1 s2 act
  have h1 : rawView s1.thm.s[m] = rawView s.thm.s[m] := by
    by_cases e : k = m
    · subst e; unfold s1; rw [modSensor_at]; rfl
    · unfold s1; rw [modSensor_ne _ _ _ _ e]
  have h2 : rawView s2.thm.s[m] = rawView s.thm.s[m] := ite_keep (fun z => rawView z.thm.s[m]) h1 (ite_keep (fun z => rawView z.thm.s[m]) h1 h1)
  refine ite_keep (fun z => rawView z.thm.s[m]) ?_ h2
  have e : ∀ z : State, (z.thmAct k act).thm = z.thm := fun z => step_thmAct.frame .thm (by decide)
  rw [e]
  exact h2

theorem evalSensor_view (s : State) (k m : Fin 48) : rawView (s.evalSensor k).thm.s[m] = rawView s.thm.s[m] := by
  unfold State.evalSensor
  extract_lets +onlyGivenNames tu s1
  have h1 : rawView s1.thm.s[m] = rawView s.thm.s[m] := by
    by_cases e : k = m
    · subst e; unfold s1; rw [modSensor_at]; rfl
    · unfold s1; rw [modSensor_ne _ _ _ _ e]
  exact ite_keep (fun z => rawView z.thm.s[m]) ((thm_levels s1 k m).trans h1) h1

theorem readSensor_at (counts : Vector Nat 32) (s : State) (k : Fin 32) (q : Fin 48) (h : q.val = k.val) : rawView (State.readSensor counts s q).thm.s[q] =
    (counts[k], satN 16 (dieTemp s.otp.live.tsTrim[k].1 s.otp.live.tsTrim[k].2 counts[k])) := by
  unfold State.readSensor
  extract_lets r
  rw [sensorState_view, modSensor_at]
  have hk : (⟨q.val, by omega⟩ : Fin 32) = k := Fin.ext h
  have hr : r = s.dieRead k counts[k] s.thm.s[q] := by
    unfold r
    rw [dif_pos (by omega)]
    have hc : counts[q.val]'(by omega) = counts[k] := by
      show counts[q.val]'(by omega) = counts[k.val]
      simp only [h]
    have hd : ∀ (a b : Fin 32) (n : Nat), a = b → s.dieRead a n s.thm.s[q] = s.dieRead b n s.thm.s[q] := fun a b n e => by rw [e]
    rw [hc]
    exact hd _ _ _ hk
  rw [hr]
  rfl

theorem rocStep_at (s : State) (k m : Fin 48) : (k ≠ m → (s.rocStep k).thm.s[m] = s.thm.s[m]) ∧ (k = m → s.thm.s[k].num ≠ 0 → (s.rocStep k).thm.s[k].sum = 0 ∧ (s.rocStep k).thm.s[k].num = 0 ∧
    (s.rocStep k).thm.s[k].means = rdiv s.thm.s[k].sum s.thm.s[k].num :: s.thm.s[k].means.take 60) := by
  have e : ∀ z : State, ∀ act, (z.thmAct k act).thm = z.thm := fun z _ => step_thmAct.frame .thm (by decide)
  unfold State.rocStep
  extract_lets +onlyGivenNames x m' ms w lim s1
  constructor
  · intro h
    have h1 : s1.thm.s[m] = s.thm.s[m] := modSensor_ne _ _ _ _ h
    refine ite_keep (fun z => z.thm.s[m]) rfl ?_
    split
    · rw [modSensor_ne _ _ _ _ h, h1]
    · extract_lets +onlyGivenNames rise hi s2
      have h2 : s2.thm.s[m] = s.thm.s[m] := by unfold s2; rw [modSensor_ne _ _ _ _ h, h1]
      refine ite_keep (fun z => z.thm.s[m]) ?_ h2
      extract_lets +onlyGivenNames act
      rw [e]; exact h2
  · intro _ hn
    have h1 : s1.thm.s[k] = { s.thm.s[k] with sum := 0, num := 0, means := ms } := modSensor_at _ _ _
    have fin : ∀ z : State, ∀ a b, z.thm.s[k] = { s.thm.s[k] with sum := 0, num := 0, means := ms, rise := a, rocHi := b } → z.thm.s[k].sum = 0 ∧ z.thm.s[k].num = 0 ∧ z.thm.s[k].means = rdiv s.thm.s[k].sum s.thm.s[k].num :: s.thm.s[k].means.take 60 := by
      intro z a b q; rw [q]; exact ⟨rfl, rfl, rfl⟩
    rw [if_neg hn]
    split
    · refine fin _ s.thm.s[k].rise false ?_
      rw [modSensor_at, h1]
    · extract_lets +onlyGivenNames rise hi s2
      have h2 : s2.thm.s[k] = { s.thm.s[k] with sum := 0, num := 0, means := ms, rise := satN 16 rise, rocHi := hi } := by
        unfold s2; rw [modSensor_at, h1]
      refine fin _ (satN 16 rise) hi ?_
      refine Eq.trans ?_ h2
      refine ite_keep (fun z => z.thm.s[k]) ?_ rfl
      extract_lets +onlyGivenNames act
      rw [e]; rfl

theorem grpCheck_g5 (s : State) (g) : (s.grpCheck g).otp.g5Done = s.otp.g5Done := by
  unfold State.grpCheck
  refine ite_keep (fun x => x.otp.g5Done) rfl ?_
  extract_lets w s1
  exact ite_keep (fun x => x.otp.g5Done) rfl rfl

theorem reread_otp (s : State) : s.reread.otp = { s.otp with rereadAt := s.opTime, rereadDue := false } :=
  foldl_keep (fun x => x.otp) (fun s g => if s.rereadFinds g then (s.stick F.OTP_FLAG.reread).fire 0x10 0x05 g 0 else s)
    (fun s g => ite_keep (fun x => x.otp) rfl rfl) (List.range 7) (s.modOtp (fun o => { o with rereadAt := s.opTime, rereadDue := false }))

theorem countPulses_arm (s : State) (n) : (s.countPulses n).otp.arm = s.otp.arm ∧ (s.countPulses n).otp.armAt = s.otp.armAt := by
  unfold State.countPulses
  extract_lets c c'
  have e : ∀ x : State, ∀ o n a b, (x.satEv o n a b).otp = x.otp := fun _ _ _ _ _ => step_satEv.frame .otp (by decide)
  rw [e]
  exact ⟨rfl, rfl⟩

theorem recI_open (s : State) (h : s.runs .recI = true) (hx : s.sys.step ≠ 15) : (s.runs .recI && s.exposed) = true := by
  simp [h, State.exposed, hx]

end Sys2Proof.Machine
end

