-- ==== Sys2Proof/Laws/NvpOps.lean ====
section
/-! SUPPORT. What the operations of the parameter store keep and what they lead to. -/

set_option Elab.async false

namespace Sys2Proof.Machine
open Sys2Proof

def nvpStill (v : Nvp) : Nvp := { v with buf := [], rest := [], queue := [], commit := none, stopped := false, seqSat := [], errAddr := 0, ce := .zero, ue := .zero, big := none, shScrub := [] }

theorem of_still {β : Type} {a b : Nvp} (h : nvpStill a = nvpStill b) (g : Nvp → β) (hg : ∀ x, g (nvpStill x) = g x := by intro; rfl) : g a = g b := by
  rw [← hg a, ← hg b, h]

theorem satEv_nvp (s : State) (o n a b) : (s.satEv o n a b).nvp = s.nvp := step_satEv.frame .nvp (by decide)

theorem still_ce (v : Nvp) (c : Ctr) : nvpStill { v with ce := c } = nvpStill v := rfl

theorem still_ue (v : Nvp) (c : Ctr) : nvpStill { v with ue := c } = nvpStill v := rfl

theorem still_adr (v : Nvp) (x : Word) : nvpStill { v with errAddr := x } = nvpStill v := rfl

theorem still_mod (s : State) (f) (h : ∀ v, nvpStill (f v) = nvpStill v) : nvpStill (s.modNvp f).nvp = nvpStill s.nvp := h _

theorem eccCount_still (s : State) (b a n) : nvpStill (s.eccCount b a n).nvp = nvpStill s.nvp := by
  unfold State.eccCount
  by_cases q : n = 0
  · rw [if_pos q]
  · rw [if_neg q]
    by_cases q1 : n = 1
    · rw [if_pos q1]
      by_cases q2 : s.flag F.NVP_FLAG.ce = true
      · rw [if_pos q2, satEv_nvp]
        exact (still_mod _ _ (fun v => still_ce v _)).trans (still_mod _ _ (fun v => still_adr v _))
      · rw [if_neg q2]
        show nvpStill (State.satEv _ _ _ _ _).nvp = _
        rw [satEv_nvp]
        exact (still_mod _ _ (fun v => still_ce v _)).trans (still_mod _ _ (fun v => still_adr v _))
    · rw [if_neg q1]
      by_cases q2 : s.flag F.NVP_FLAG.ue = true
      · rw [if_pos q2, satEv_nvp]
        exact (still_mod _ _ (fun v => still_ue v _)).trans (still_mod _ _ (fun v => still_adr v _))
      · rw [if_neg q2]
        show nvpStill (State.satEv _ _ _ _ _).nvp = _
        rw [satEv_nvp]
        exact (still_mod _ _ (fun v => still_ue v _)).trans (still_mod _ _ (fun v => still_adr v _))

theorem eccTouch_still (s : State) (a) : nvpStill (s.eccTouch a).nvp = nvpStill s.nvp := by
  unfold State.eccTouch
  extract_lets +onlyGivenNames w n s1
  have h1 : nvpStill s1.nvp = nvpStill s.nvp := eccCount_still s false a n
  clear_value s1
  exact ite_keep (fun x => nvpStill x.nvp) h1 (ite_keep (fun x => nvpStill x.nvp) h1 (ite_keep (fun x => nvpStill x.nvp) h1 h1))

theorem eccShadow_still (s : State) (a e) : nvpStill (s.eccShadow a e).nvp = nvpStill s.nvp := by
  unfold State.eccShadow
  extract_lets +onlyGivenNames n s1
  have h1 : nvpStill s1.nvp = nvpStill s.nvp := eccCount_still s true a n
  clear_value s1
  exact ite_keep (fun x => nvpStill x.nvp) h1 h1

theorem commitStart_still (s : State) : nvpStill s.commitStart.nvp = nvpStill s.nvp := rfl

theorem nvpPump_still (n : Nat) (s : State) : nvpStill (State.nvpPump n s).nvp = nvpStill s.nvp := by
  induction n generalizing s with
  | zero => rfl
  | succ n ih =>
    unfold State.nvpPump
    refine ite_keep (fun x => nvpStill x.nvp) rfl ?_
    split
    · extract_lets +onlyGivenNames room s1
      have h1 : nvpStill s1.nvp = nvpStill s.nvp := rfl
      exact ite_keep (fun x => nvpStill x.nvp) ((ih s1).trans h1) h1
    · split
      · rfl
      · refine ite_keep (fun x => nvpStill x.nvp) rfl ?_
        refine ite_keep (fun x => nvpStill x.nvp) ?_ ?_
        · extract_lets +onlyGivenNames s1 s2
          have h2 : nvpStill s2.nvp = nvpStill s.nvp := ite_keep (fun x => nvpStill x.nvp) rfl rfl
          exact (ih s2).trans h2
        · extract_lets +onlyGivenNames ws
          refine ite_keep (fun x => nvpStill x.nvp) ((ih _).trans rfl) (ite_keep (fun x => nvpStill x.nvp) ((ih _).trans ?_) rfl)
          exact still_mod _ _ (fun v => rfl)

theorem nvpFlow_still (s : State) : nvpStill s.nvpFlow.nvp = nvpStill s.nvp := nvpPump_still _ s

theorem saveEnd_at (s : State) (why) (hd : s.nvp.recDue = none) (h : s.bbx.saveAgain = false) :
    (s.saveEnd why).nvp = { s.nvp with save := none, saveCnt := s.nvp.saveCnt.inc } := by
  unfold State.saveEnd
  extract_lets +onlyGivenNames lost c s1 s2
  have h1 : s1.nvp = { s.nvp with save := none, saveCnt := s.nvp.saveCnt.inc } := by unfold s1; rw [satEv_nvp]; rfl
  have h1' : s1.bbx = s.bbx := step_satEv.frame .bbx (by decide)
  have h2 : s2.nvp = s1.nvp := ite_keep (fun x => x.nvp) rfl rfl
  have h2' : s2.bbx = s1.bbx := ite_keep (fun x => x.bbx) rfl rfl
  clear_value s1
  clear_value s2
  have hq : s2.nvp.recDue = none := by rw [h2, h1]; exact hd
  rw [hq]
  dsimp only
  rw [if_neg (by rw [h2', h1', h]; decide), h2, h1]

def dueView (s : State) : Bool × Bool := (s.nvp.imageDue, s.nvp.shadowOk)

theorem modStore_due (s : State) (f) : dueView (s.modStore f) = dueView s := by
  unfold State.modStore
  show dueView s.freezeImage = _
  unfold State.freezeImage
  split
  · exact ite_keep dueView rfl rfl
  · rfl

theorem modReam_due (s : State) (r f) : dueView (s.modReam r f) = dueView s := modStore_due s _

theorem due_nvp {s t : State} (h : t.nvp = s.nvp) : dueView t = dueView s := by unfold dueView; rw [h]

theorem freeze_due (s : State) (r) : dueView (s.freeze r) = dueView s := by
  unfold State.freeze
  extract_lets +onlyGivenNames t0
  exact modReam_due s r (fun m => { m with trace := true, t0 := t0, map := s.trcMap, row0 := s.bbx.pos, zkey := s.zkey })

theorem putRecord_due (s : State) (a b c d e) : dueView (s.putRecord a b c d e).2 = dueView s := by
  unfold State.putRecord
  extract_lets +onlyGivenNames toRing takes rec_
  clear_value toRing takes rec_
  generalize s.slotFor = p
  obtain ⟨k, old⟩ := p
  dsimp -zeta only
  extract_lets +onlyGivenNames s1 c' s2
  have h1 : dueView s1 = dueView s := by
    have e : s1.nvp = (s.modStore (fun e => { e with ring := cellPut 0 e.ring k rec_ })).nvp := rfl
    exact (due_nvp e).trans (modStore_due s _)
  clear_value s1
  show dueView s2 = _
  unfold s2
  refine ite_keep dueView h1 (ite_keep dueView ?_ ?_)
  · exact (due_nvp (step_ringPush.frame .nvp (by decide))).trans h1
  · refine (due_nvp ?_).trans h1
    exact (step_hstSat.frame .nvp (by decide)).trans (step_ringLose.frame .nvp (by decide))

theorem satEv_due (s : State) (o n a b) : dueView (s.satEv o n a b) = dueView s := due_nvp (step_satEv.frame .nvp (by decide))

theorem sealStart_due (s : State) (k q p) : dueView (s.sealStart k q p) = dueView s := by
  unfold State.sealStart
  split
  · extract_lets +onlyGivenNames c s1
    have h1 : dueView s1 = dueView s := (satEv_due _ _ _ _ _).trans rfl
    exact ite_keep dueView h1 h1
  · extract_lets +onlyGivenNames slots x0 s1 s2
    have h1 : dueView s1 = dueView s := modReam_due s _ _
    have h2 : dueView s2 = dueView s := h1
    clear_value s2
    exact ite_keep dueView h2 (ite_keep dueView ((freeze_due _ _).trans h2) h2)

theorem writeRec_due (s : State) (a b c d e f) : dueView (s.writeRec a b c d e f) = dueView s := by
  unfold State.writeRec
  extract_lets +onlyGivenNames seq
  have h := putRecord_due s a b c d e
  generalize s.putRecord a b c d e = p at *
  obtain ⟨k, s1⟩ := p
  dsimp -zeta only at *
  refine ite_keep dueView h (ite_keep dueView (ite_keep dueView h ((sealStart_due _ _ _ _).trans h)) ?_)
  extract_lets +onlyGivenNames s2
  have h2 : dueView s2 = dueView s := by
    unfold s2 State.laterCount
    split
    · exact (modReam_due _ _ _).trans h
    · exact h
  clear_value s2
  split
  · exact (freeze_due _ _).trans h2
  · exact h2

theorem ownRecord_still (s : State) (a b d n p) : (s.ownRecord a b d n p).nvp.imageDue = s.nvp.imageDue ∧ (s.ownRecord a b d n p).nvp.shadowOk = s.nvp.shadowOk := by
  have h : dueView (s.ownRecord a b d n p) = dueView s := by
    unfold State.ownRecord
    rw [writeRec_due]
    show dueView (s.route a n).endRun.takeToken = _
    refine Eq.trans (b := dueView (s.route a n).endRun) rfl ?_
    have r : dueView (s.route a n) = dueView s := due_nvp (step_route.frame .nvp (by decide))
    rw [← r]
    generalize s.route a n = x
    unfold State.endRun
    refine ite_keep dueView rfl ?_
    extract_lets +onlyGivenNames sev s1 s2
    rw [writeRec_due]
    exact ite_keep dueView (due_nvp (step_route.frame .nvp (by decide))) rfl
  exact ⟨congrArg Prod.fst h, congrArg Prod.snd h⟩

def pfView (s : State) : Bool := s.aon.pf

theorem pf_aon {s t : State} (h : t.aon = s.aon) : pfView t = pfView s := congrArg Aon.pf h

theorem sumUpdate_pf (s : State) (a b) : pfView (s.sumUpdate a b) = pfView s := by
  unfold State.sumUpdate
  extract_lets +onlyGivenNames c s1
  have e : ∀ x : State, (x.satEv s.evt.cnt c evtSatSrc 0x1004).aon = x.aon := fun _ => step_satEv.frame .aon (by decide)
  exact (pf_aon (e _)).trans rfl

theorem route_pf (s : State) (a n) : pfView (s.route a n) = pfView s := by
  unfold State.route
  extract_lets +onlyGivenNames bcn trip s1 s2
  have h1 : pfView s1 = pfView s := ite_keep pfView (pf_aon (step_vecRaise.frame .aon (by decide))) rfl
  clear_value s1
  have h2 : pfView s2 = pfView s1 := ite_keep pfView (sumUpdate_pf _ _ _) rfl
  clear_value s2
  exact Eq.trans (b := pfView s2) (by dsimp only; split <;> rfl) (h2.trans h1)

theorem writeRec_pf (s : State) (a b c d e f) : pfView (s.writeRec a b c d e f) = pfView s := pf_aon (step_writeRec.frame .aon (by decide))

theorem endRun_pf (s : State) : pfView s.endRun = pfView s := by
  unfold State.endRun
  refine ite_keep pfView rfl ?_
  extract_lets +onlyGivenNames sev s1 s2
  have h : pfView s2 = pfView s := ite_keep pfView (route_pf _ _ _) rfl
  exact (writeRec_pf _ _ _ _ _ _ _).trans h

theorem ownRecord_pf (s : State) (a b d n p) : pfView (s.ownRecord a b d n p) = pfView s := by
  unfold State.ownRecord
  refine (writeRec_pf _ _ _ _ _ _ _).trans ?_
  refine Eq.trans (b := pfView (s.route a n).endRun) rfl ?_
  rw [endRun_pf, route_pf]

theorem modStore_pf (s : State) (f) : pfView (s.modStore f) = pfView s := by
  show pfView s.freezeImage = _
  exact pf_aon (step_freezeImage.frame .aon (by decide))

theorem sealNow_pf (s : State) : pfView s.sealNow = pfView s := by
  unfold State.sealNow
  extract_lets
  first
  | exact ownRecord_pf _ _ _ _ _ _
  | exact (ownRecord_pf _ _ _ _ _ _).trans rfl

theorem sealWaiting_pf (s : State) : pfView s.sealWaiting = pfView s :=
  foldl_keep pfView (fun s _ => s.sealNow) (fun s _ => sealNow_pf s) (List.range s.bbx.sealWait) (s.modBbx (fun b => { b with sealWait := 0 }))

theorem opFinish_pf (s : State) : pfView s.opFinish = pfView s := by
  unfold State.opFinish
  split
  · rfl
  · rename_i op r _
    extract_lets +onlyGivenNames data s0 n c s1 m s2
    have e : ∀ x : State, pfView x.opSave = pfView x := fun _ => pf_aon (step_opSave.frame .aon (by decide))
    have e1 : pfView s1 = pfView s := modStore_pf s0 (fun e => { e with ring := e.ring.filter (fun p => e.sealed p.1) })
    have e2 : pfView s2 = pfView s := modStore_pf s0 (fun e => { e with reams := modAt e.reams r (fun _ => Ream.free) })
    clear_value s1 s2
    refine ite_keep pfView ?_ ?_
    · rw [e, sealWaiting_pf, ownRecord_pf]
      exact (pf_aon (step_satEv.frame .aon (by decide))).trans e1
    · rw [e, sealWaiting_pf, ownRecord_pf]
      exact e2

end Sys2Proof.Machine
end

