-- ==== Sys2Proof/Laws/BlackBoxOps.lean ====
section
/-! SUPPORT. What the operations of the black box keep and what they lead to. -/

set_option Elab.async false

namespace Sys2Proof.Machine
open Sys2Proof

def opView (s : State) : Option (Nat × Fin 4) × Nat × Ctr × List Ev × BitVec 40 := (s.bbx.op, s.bbx.result, s.bbx.clr, s.bbx.queue, s.bbx.seq)

theorem freezeImage_bbx (s : State) : s.freezeImage.bbx = s.bbx := step_freezeImage.frame .bbx (by decide)

theorem modStore_bbx (s : State) (f) : (s.modStore f).bbx = { s.bbx with st := f s.bbx.st } := by
  unfold State.modStore State.modBbx
  dsimp only
  rw [freezeImage_bbx]

theorem op_bbx {s t : State} (h : t.bbx = s.bbx) : opView t = opView s := by unfold opView; rw [h]

theorem modStore_op (s : State) (f) : opView (s.modStore f) = opView s := by
  unfold opView; rw [modStore_bbx]

theorem modBbx_op (s : State) (f : Bbx → Bbx) (h : ∀ b, (f b).op = b.op ∧ (f b).result = b.result ∧ (f b).clr = b.clr ∧ (f b).queue = b.queue ∧ (f b).seq = b.seq) : opView (s.modBbx f) = opView s := by
  obtain ⟨a, b, c, d, e⟩ := h s.bbx
  show ((f s.bbx).op, (f s.bbx).result, (f s.bbx).clr, (f s.bbx).queue, (f s.bbx).seq) = _
  rw [a, b, c, d, e]; rfl

theorem freeze_op (s : State) (r) : opView (s.freeze r) = opView s := by
  unfold State.freeze
  extract_lets +onlyGivenNames t0
  refine Eq.trans (modBbx_op _ _ ?_) (modStore_op s _)
  intro _; exact ⟨rfl, rfl, rfl, rfl, rfl⟩

theorem satEv_op (s : State) (o n a b) : opView (s.satEv o n a b) = opView s := op_bbx (step_satEv.frame .bbx (by decide))

def bump (v : Option (Nat × Fin 4) × Nat × Ctr × List Ev × BitVec 40) : Option (Nat × Fin 4) × Nat × Ctr × List Ev × BitVec 40 := (v.1, v.2.1, v.2.2.1, v.2.2.2.1, v.2.2.2.2 + 1)

theorem putRecord_op (s : State) (a b c d e) : opView (s.putRecord a b c d e).2 = bump (opView s) := by
  unfold State.putRecord
  extract_lets +onlyGivenNames toRing takes rec_
  clear_value toRing takes rec_
  generalize s.slotFor = p
  obtain ⟨k, old⟩ := p
  dsimp -zeta only
  extract_lets +onlyGivenNames s1 c' s2
  have h1 : opView s1 = bump (opView s) := by
    have e := modStore_bbx s (fun e => { e with ring := cellPut 0 e.ring k rec_ })
    unfold opView s1 State.modBbx
    dsimp only
    rw [e]
    rfl
  clear_value s1
  show opView s2 = _
  unfold s2
  refine Eq.trans ?_ h1
  refine ite_keep opView rfl (ite_keep opView ?_ ?_)
  · exact op_bbx (step_ringPush.frame .bbx (by decide))
  · exact op_bbx ((step_hstSat.frame .bbx (by decide)).trans (step_ringLose.frame .bbx (by decide)))

theorem sealStart_op (s : State) (k q p) : opView (s.sealStart k q p) = opView s := by
  unfold State.sealStart
  split
  · extract_lets +onlyGivenNames c s1
    have h1 : opView s1 = opView s := (satEv_op _ _ _ _ _).trans (modBbx_op s _ (fun _ => ⟨rfl, rfl, rfl, rfl, rfl⟩))
    exact ite_keep opView h1 h1
  · rename_i r _
    extract_lets +onlyGivenNames slots x0 s1 s2
    have h1 : opView s1 = opView s := modStore_op s _
    have h2 : opView s2 = opView s := (modBbx_op s1 (fun b => { b with missRun := false, oldest := b.oldest.filter (fun o => !slots.contains o) }) (fun _ => ⟨rfl, rfl, rfl, rfl, rfl⟩)).trans h1
    clear_value s2
    exact ite_keep opView h2 (ite_keep opView ((freeze_op _ _).trans h2) ((modBbx_op s2 _ (fun _ => ⟨rfl, rfl, rfl, rfl, rfl⟩)).trans h2))

theorem writeRec_op (s : State) (a b c d e f) : opView (s.writeRec a b c d e f) = bump (opView s) := by
  unfold State.writeRec
  extract_lets +onlyGivenNames seq
  have h := putRecord_op s a b c d e
  generalize s.putRecord a b c d e = p at *
  obtain ⟨k, s1⟩ := p
  dsimp -zeta only at *
  rw [← h]
  refine ite_keep opView rfl (ite_keep opView (ite_keep opView rfl (sealStart_op _ _ _ _)) ?_)
  extract_lets +onlyGivenNames s2
  have h2 : opView s2 = opView s1 := by
    unfold s2 State.laterCount
    split
    · exact modStore_op s1 _
    · rfl
  clear_value s2
  split
  · exact (freeze_op _ _).trans h2
  · exact h2

theorem endRun_op (s : State) (h : s.bbx.supRun = 0) : s.endRun = s := by
  unfold State.endRun
  rw [if_pos h]

theorem route_bbx (s : State) (a n) : (s.route a n).bbx = s.bbx := step_route.frame .bbx (by decide)

theorem endRun_view (s : State) : (fun v : Option (Nat × Fin 4) × Nat × Ctr × List Ev × BitVec 40 => (v.1, v.2.1, v.2.2.1, v.2.2.2.1)) (opView s.endRun) = (fun v => (v.1, v.2.1, v.2.2.1, v.2.2.2.1)) (opView s) := by
  unfold State.endRun
  refine ite_keep (fun x => (fun v : Option (Nat × Fin 4) × Nat × Ctr × List Ev × BitVec 40 => (v.1, v.2.1, v.2.2.1, v.2.2.2.1)) (opView x)) rfl ?_
  extract_lets +onlyGivenNames sev s1 s2
  have h2 : opView s2 = opView s1 := ite_keep opView (op_bbx (route_bbx _ _ _)) rfl
  dsimp only
  rw [writeRec_op, h2]
  rfl

theorem ownRecord_view (s : State) (a b c d e) : ((s.ownRecord a b c d e).bbx.op, (s.ownRecord a b c d e).bbx.result, (s.ownRecord a b c d e).bbx.clr, (s.ownRecord a b c d e).bbx.queue) = (s.bbx.op, s.bbx.result, s.bbx.clr, s.bbx.queue) := by
  show (fun v : Option (Nat × Fin 4) × Nat × Ctr × List Ev × BitVec 40 => (v.1, v.2.1, v.2.2.1, v.2.2.2.1)) (opView (s.ownRecord a b c d e)) = _
  unfold State.ownRecord
  rw [writeRec_op]
  have k1 : opView (s.route a d).endRun.takeToken = opView (s.route a d).endRun := modBbx_op _ _ (fun _ => ⟨rfl, rfl, rfl, rfl, rfl⟩)
  rw [k1]
  have k2 := endRun_view (s.route a d)
  have k3 : opView (s.route a d) = opView s := op_bbx (route_bbx _ _ _)
  rw [k3] at k2
  exact k2

theorem ownRecord_seq (s : State) (a b c d e) (h : s.bbx.supRun = 0) : (s.ownRecord a b c d e).bbx.seq = s.bbx.seq + 1 := by
  have k1 : (s.route a d).endRun = s.route a d := endRun_op _ (by rw [route_bbx, h])
  have k2 : opView ((s.route a d).takeToken) = opView s := (modBbx_op _ _ (fun _ => ⟨rfl, rfl, rfl, rfl, rfl⟩)).trans (op_bbx (route_bbx _ _ _))
  have k3 : opView (s.ownRecord a b c d e) = bump (opView s) := by
    unfold State.ownRecord
    rw [writeRec_op, k1, k2]
  exact congrArg (fun v : Option (Nat × Fin 4) × Nat × Ctr × List Ev × BitVec 40 => v.2.2.2.2) k3

theorem opSave_view (s : State) : opView s.opSave = opView s := by
  unfold State.opSave
  refine ite_keep opView (modBbx_op _ _ (fun _ => ⟨rfl, rfl, rfl, rfl, rfl⟩)) ?_
  exact op_bbx (step_saveRequest.frame .bbx (by decide))

theorem sealWaiting_view (s : State) : (s.sealWaiting.bbx.op, s.sealWaiting.bbx.result, s.sealWaiting.bbx.clr) = (s.bbx.op, s.bbx.result, s.bbx.clr) :=
  foldl_keep (fun x => (x.bbx.op, x.bbx.result, x.bbx.clr)) (fun s _ => s.sealNow) (fun s _ => by
    unfold State.sealNow
    extract_lets r
    exact congrArg (fun v : Option (Nat × Fin 4) × Nat × Ctr × List Ev => (v.1, v.2.1, v.2.2.1)) (ownRecord_view s 0xD5 0x03 (evData 0x03 0 r) 15 false))
    (List.range s.bbx.sealWait) (s.modBbx (fun b => { b with sealWait := 0 }))

end Sys2Proof.Machine
end

