-- ==== Sys2Proof/Laws/UpdateOps.lean ====
section
/-! SUPPORT. What the operations of field update keep and what they lead to. -/

set_option Elab.async false

namespace Sys2Proof.Machine
open Sys2Proof

theorem updHost_on (s : State) (r) (h1 : s.runs .hst = true) (h2 : s.runs .mgt = true) : s.updHost r = r.1 := by
  unfold State.updHost State.when; rw [if_pos (by rw [h1, h2]; rfl)]

theorem recWrite_upd (s : State) (a b c) : (s.recWrite a b c).upd = s.upd := step_recWrite.frame .upd (by decide)

theorem writeRec1_upd (s : State) (r) : (s.writeRec1 r).upd = { s.upd with rec1 := r } := by
  unfold State.writeRec1
  extract_lets +onlyGivenNames s1
  have h1 : s1.upd = { s.upd with rec1 := r } := recWrite_upd _ _ _ _
  exact Eq.trans (ite_keep (fun x => x.upd) (s := s1) rfl rfl) h1

theorem satEv_upd (s : State) (o n a b) : (s.satEv o n a b).upd = s.upd := step_satEv.frame .upd (by decide)

theorem carry_ext (s : State) (p) : ∃ c, s.carryStep p = { s with upd := { s.upd with carry := c } } := by
  unfold State.carryStep
  split
  · exact ⟨_, rfl⟩
  · exact ⟨s.upd.carry, rfl⟩

theorem carry_mod (s : State) (f : Upd → Upd) (p) (h : ∀ u c, f { u with carry := c } = { f u with carry := c } := by intros; rfl)
    (h' : ∀ u, (f u).carry = u.carry := by intros; rfl) :
    ((s.modUpd f).carryStep p).upd = f (s.carryStep p).upd := by
  unfold State.carryStep
  by_cases q : (s.strap = .pair && s.sys.role = .active) = true
  · rw [if_pos q, if_pos (show (decide ((s.modUpd f).strap = .pair) && decide ((s.modUpd f).sys.role = .active)) = true from q)]
    show { f s.upd with carry := (f s.upd).carry ++ [p] } = f { s.upd with carry := s.upd.carry ++ [p] }
    rw [h' s.upd]; exact (h s.upd _).symm
  · rw [if_neg q, if_neg (show ¬ (decide ((s.modUpd f).strap = .pair) && decide ((s.modUpd f).sys.role = .active)) = true from q)]
    rfl

theorem rollTo_at (s : State) (q r b) : (s.rollTo q r b).upd.phase = (if b then 6 else 0) ∧ (s.rollTo q r b).upd.result = 4 ∧ (s.rollTo q r b).upd.reason = r ∧ (s.rollTo q r b).upd.restartDue = b ∧ (s.rollTo q r b).upd.rbCnt = s.upd.rbCnt.inc ∧ (s.rollTo q r b).upd.rec1 = q := by
  unfold State.rollTo
  extract_lets +onlyGivenNames c s1
  have k1 : s1.upd.phase = (if b then 6 else 0) ∧ s1.upd.result = 4 ∧ s1.upd.reason = r ∧ s1.upd.restartDue = b ∧ s1.upd.rbCnt = c := ⟨rfl, rfl, rfl, rfl, rfl⟩
  clear_value s1
  rw [satEv_upd]
  show (s1.writeRec1 q).upd.phase = _ ∧ (s1.writeRec1 q).upd.result = _ ∧ (s1.writeRec1 q).upd.reason = _ ∧ (s1.writeRec1 q).upd.restartDue = _ ∧ (s1.writeRec1 q).upd.rbCnt = _ ∧ (s1.writeRec1 q).upd.rec1 = _
  rw [writeRec1_upd]
  exact ⟨k1.1, k1.2.1, k1.2.2.1, k1.2.2.2.1, k1.2.2.2.2, rfl⟩

theorem rollBack_at (s : State) (r b) : (s.rollBack r b).upd.phase = (if b then 6 else 0) ∧ (s.rollBack r b).upd.result = 4 ∧ (s.rollBack r b).upd.reason = r ∧ (s.rollBack r b).upd.restartDue = b ∧ (s.rollBack r b).upd.rbCnt = s.upd.rbCnt.inc := by
  unfold State.rollBack
  obtain ⟨c, e⟩ := carry_ext s (.rollback r)
  obtain ⟨a1, a2, a3, a4, a5, _⟩ := rollTo_at (s.carryStep (.rollback r)) s.oldRec r b
  refine ⟨a1, a2, a3, a4, a5.trans ?_⟩
  rw [e]

theorem updAbort_at (s : State) (r i) : (s.updAbort r i).upd.phase = 0 ∧ (s.updAbort r i).upd.result = 3 ∧ (s.updAbort r i).upd.reason = r := by
  unfold State.updAbort
  generalize foldFin 32 s State.fwEnd = x
  extract_lets +onlyGivenNames s1
  obtain ⟨c, e⟩ := carry_ext (s1.fire 0xE1 0x02 r i) (.abort r i)
  rw [e]
  exact ⟨rfl, rfl, rfl⟩

theorem hashFails_carry (s : State) (p m) : (s.carryStep p).hashFails m = s.hashFails m := by
  obtain ⟨c, e⟩ := carry_ext s p
  have h1 : ∀ x, (s.carryStep p).partMine x = s.partMine x := fun x => by rw [e]; rfl
  have f : ∀ k, (s.carryStep p).flashByte k = s.flashByte k := fun k => by rw [e]; rfl
  have g : ∀ x, (s.carryStep p).targeted x = s.targeted x := fun x => by rw [e]; rfl
  have v : ∀ b x, (s.carryStep p).partVer b x = s.partVer b x := fun b x => by
    have h : ∀ k n, (s.carryStep p).flashBytes k n = s.flashBytes k n := fun k n => by unfold State.flashBytes; simp only [f]
    unfold State.partVer State.bankManifest
    simp only [h, g]
  have r : (s.carryStep p).upd.rec1 = s.upd.rec1 := by rw [e]
  have h2 : ∀ b x, (s.carryStep p).partResult b x = s.partResult b x := fun b x => by
    unfold State.partResult
    simp only [v, f, r]
  have h3 : (s.carryStep p).upd.pkg = s.upd.pkg := by rw [e]
  unfold State.hashFails
  simp only [h1, h2, h3]

def sysView (s : State) : Bool × Bool × Nat := (s.sys.mgmtRestart, s.sys.wdtArmed, s.sys.wdtAt)

theorem sys_view {s t : State} (h : t.sys = s.sys) : sysView t = sysView s := by unfold sysView; rw [h]

theorem reload_view (s : State) : sysView s.reload = sysView s := by
  unfold State.reload
  extract_lets +onlyGivenNames m s1 x0 x1 ts
  have h000 : Part.same s s.tablesLoad .sys := (step_tablesLoad (s := s)).frame .sys (by decide)
  have h00 : s1.sys = s.sys := h000
  clear_value s1
  have hs : ts.sys = s1.sys := rfl
  have h0 : sysView ts = sysView s := sys_view (hs.trans h00)
  clear_value ts
  have h1 : (ts.configChoose m).1.sys = ts.sys := step_configChoose.frame .sys (by decide)
  generalize ts.configChoose m = p at h1
  obtain ⟨r, g, failed⟩ := p
  dsimp -zeta only at h1 ⊢
  extract_lets +onlyGivenNames back s2 x3 s3
  have hb : sysView back = sysView s := (sys_view (show back.sys = ts.sys from h1)).trans h0
  clear_value back
  have h2 : sysView s2 = sysView s := (ite_keep sysView (s := back) (sys_view (step_cfgFailEvent.frame .sys (by decide))) rfl).trans hb
  clear_value s2
  have h3 : sysView s3 = sysView s := h2
  clear_value s3
  cases g with
  | none => exact h3
  | some c =>
    dsimp -zeta only
    extract_lets +onlyGivenNames ws curves shadow g' x4 x5 s4
    have h4 : sysView s4 = sysView s := h3
    clear_value s4
    refine Eq.trans ?_ h4
    exact sys_view (step_commitTables.frame .sys (by decide))

end Sys2Proof.Machine
end

