-- ==== Sys2Proof/Laws/EndpointOps.lean ====
section
/-! SUPPORT. What the operations of the host endpoint keep and what they lead to. -/

set_option Elab.async false

namespace Sys2Proof.Machine
open Sys2Proof

def hstStill (h : Hst) : Hst := { h with posted := [] }

theorem modRing_at (s : State) (r : Fin 8) (f) : (s.modRing r f).hst.ring[r] = f s.hst.ring[r] := modAt_same _ _ _

theorem vecSend_still (s : State) (v) : hstStill (s.vecSend v).hst = hstStill s.hst := by
  unfold State.vecSend
  exact ite_keep (fun x => hstStill x.hst) rfl (ite_keep (fun x => hstStill x.hst) rfl rfl)

theorem vecRaise_still (s : State) (v) : hstStill (s.vecRaise v).hst = hstStill s.hst := by
  unfold State.vecRaise
  extract_lets +onlyGivenNames c s1
  rw [vecSend_still]
  have : ((s1.satEv s.evt.vcnt[v] c evtSatSrc (0x1100 + 4 * v.val)).hst) = s1.hst := step_satEv.frame .hst (by decide)
  rw [this]
  rfl

theorem ringVec_still (s : State) (r) : hstStill (s.ringVec r).hst = hstStill s.hst := by
  unfold State.ringVec
  exact ite_keep (fun x => hstStill x.hst) (vecRaise_still s _) rfl

theorem vecRelease_still (s : State) : hstStill s.vecRelease.hst = hstStill s.hst := by
  unfold State.vecRelease foldFin
  refine foldl_keep (fun x => hstStill x.hst) _ (fun s v => ?_) _ s
  exact ite_keep (fun x => hstStill x.hst) (vecSend_still _ v) rfl

theorem writeBack_still (s : State) : hstStill s.writeBack.hst = hstStill s.hst := by
  unfold State.writeBack
  exact ite_keep (fun x => hstStill x.hst) rfl rfl

theorem of_hst {β : Type} {a b : Hst} (h : hstStill a = hstStill b) (g : Hst → β) (hg : ∀ x, g (hstStill x) = g x := by intro; rfl) : g a = g b := by
  rw [← hg a, ← hg b, h]

def cmdView (h : Hst) : Vector (Option Cmd) 4 × Ctr × Option Nat := (h.cmd, h.cmdCnt, h.telTick)

theorem cmd_still {a b : Hst} (h : hstStill a = hstStill b) : cmdView a = cmdView b := of_hst h cmdView

theorem ringPush_cmd (s : State) (r es) : cmdView (s.ringPush r es).hst = cmdView s.hst := by
  unfold State.ringPush
  extract_lets +onlyGivenNames s1 s2
  have h1 : cmdView s1.hst = cmdView s.hst := foldl_keep (fun x => cmdView x.hst) (fun s e =>
    (s.post (.mem (s.ringBase r + 32 * s.hst.ring[r].tail) e)).modRing r (fun g => { g with tail := (g.tail + 1) % s.ringSize r })) (fun _ _ => rfl) es s
  have h2 : cmdView s2.hst = cmdView s.hst := ((cmd_still (ringVec_still _ _)).trans (cmd_still (writeBack_still _))).trans h1
  clear_value s2
  exact ite_keep (fun x => cmdView x.hst) h2 h2

theorem hstSat_hst (s : State) (o n f) : (s.hstSat o n f).hst = s.hst := step_hstSat.frame .hst (by decide)

theorem complete_cmd (s : State) (r c x) : cmdView (s.complete r c x).hst = (s.hst.cmd.set r none, s.hst.cmdCnt.inc, s.hst.telTick) := by
  unfold State.complete
  extract_lets +onlyGivenNames n s0 s1 s2 k
  have h0 : cmdView s0.hst = (s.hst.cmd.set r none, n, s.hst.telTick) := by unfold s0; rw [hstSat_hst]; rfl
  rw [show s.hst.cmdCnt.inc = n from rfl]
  clear_value s0 n
  have h2 : cmdView s2.hst = cmdView s0.hst := ite_keep (fun x => cmdView x.hst) (s := s1) rfl rfl
  clear_value s2
  rw [← h0]
  refine ite_keep (fun x => cmdView x.hst) rfl (ite_keep (fun x => cmdView x.hst) ?_ ?_)
  · exact (ringPush_cmd _ _ _).trans h2
  · rw [hstSat_hst]; exact h2

theorem startable_cmd (s : State) (r op c) (h : s.startable r op = some c) : s.hst.cmd[r] = some c ∧ c.started = false := by
  unfold State.startable at h
  split at h
  · rename_i c' e
    split at h
    · rename_i q
      injection h with h
      subst h
      refine ⟨e, ?_⟩
      cases hs : c'.started with
      | false => rfl
      | true => rw [hs] at q; simp at q
    · exact absurd h (by simp)
  · exact absurd h (by simp)

theorem begun_at (s x : State) (r res c) (h : x.hst.cmd[r] = some c) : (x.begun r res).hst.cmd[r] = some { c with started := true, res := res } := by
  show (modAt x.hst.cmd r _)[r] = _
  rw [modAt_same, h]; rfl

theorem run_at (s : State) (r op f c) (h : s.startable r op = some c) : s.runCmd r op f = (f c).1.begun r (f c).2 := by
  unfold State.runCmd; rw [h]

theorem recRead_use (s : State) (id) : (s.recRead id).2 = (s.recSel id).use := by
  unfold State.recRead State.recSel
  split
  · rename_i h; simp only [h]
  · rename_i h; simp only [h]

theorem reqEnd_cmd (s : State) (r : Fin 4) (c) (a b d : Nat) (h : s.hst.cmd[r] = some c) (h2 : c.started = false) :
    (s.modeReqEnd a b d).hst.cmd[r] = some c := by
  show (s.hst.cmd.map _)[r] = _
  rw [map_at, h]
  simp [h2]

theorem ite_is {α β : Type} (g : α → β) {p : Prop} [Decidable p] {x y : α} {b : β} (h : g x = b) (k : g y = b) : g (if p then x else y) = b := by
  split
  · exact h
  · exact k

theorem dropPending_cmd (s : State) (r : Fin 4) (c) (h : s.hst.cmd[r] = some c) (h2 : c.started = false) : s.dropPending.hst.cmd[r] = some c := by
  unfold State.dropPending
  extract_lets +onlyGivenNames x9 s1 x0 s2
  have k1 : s1.hst.cmd[r] = some c := by
    unfold s1
    split
    · exact reqEnd_cmd _ r c _ _ _ h h2
    · exact h
  clear_value s1
  have k2 : s2.hst.cmd[r] = some c := ite_is (fun x : State => x.hst.cmd[r]) (reqEnd_cmd _ r c _ _ _ k1 h2) k1
  clear_value s2
  split
  · refine ite_is (fun x : State => x.hst.cmd[r]) k2 ?_
    extract_lets +onlyGivenNames x1 x2 s3
    have k3 : s3.hst.cmd[r] = some c := k2
    clear_value s3
    exact ite_is (fun x : State => x.hst.cmd[r]) (reqEnd_cmd _ r c _ _ _ k3 h2) k3
  · exact k2

theorem modeAsk_cmd (s : State) (m) (r : Fin 4) (c) (h : s.hst.cmd[r] = some c) (h2 : c.started = false) : (s.modeAsk m).1.hst.cmd[r] = some c := by
  unfold State.modeAsk
  have d := dropPending_cmd s r c h h2
  refine ite_is (fun x : State × Bool => x.1.hst.cmd[r]) h ?_
  extract_lets +onlyGivenNames s1
  have d1 : s1.hst.cmd[r] = some c := d
  clear_value s1
  refine ite_is (fun x : State × Bool => x.1.hst.cmd[r]) d1 ?_
  extract_lets +onlyGivenNames q
  have e : q.1.hst = s1.hst := by
    unfold q State.askTurn
    refine ite_is (fun x : State × Bool => x.1.hst) ?_ ?_
    · extract_lets +onlyGivenNames x0 s2
      have e2 : s2.hst = s1.hst := rfl
      clear_value s2
      refine ite_is (fun x : State => x.hst) ?_ e2
      exact (show (s2.shelfShutdown 4).hst = s2.hst from step_shelfShutdown.frame .hst (by decide)).trans e2
    · exact step_stageMode.frame .hst (by decide)
  clear_value q
  show q.1.heldOn.hst.cmd[r] = some c
  have e3 : q.1.heldOn.hst = q.1.hst := step_heldOn.frame .hst (by decide)
  rw [e3, e]; exact d1

end Sys2Proof.Machine
end

