-- ==== Sys2Proof/Laws/TwoWireOps.lean ====
section
/-! SUPPORT. What the operations of the two-wire ports and the beacon keep and what they lead to. -/

set_option Elab.async false

namespace Sys2Proof.Machine
open Sys2Proof

theorem modTwp_at (s : State) (p : Fin 4) (f) : (s.modTwp p f).twp[p] = f s.twp[p] := modAt_same _ _ _

theorem twpDone_twp (s : State) (p : Fin 4) (r a) : (s.twpDone p r a).twp[p] = { s.twp[p] with xfer := none, result := r } := by
  unfold State.twpDone
  extract_lets +onlyGivenNames s1
  have e : s1.twp[p] = { s.twp[p] with xfer := none, result := r } := modTwp_at s p _
  refine Eq.trans (ite_keep (fun x => x.twp[p]) (s := s1) rfl (ite_keep (fun x => x.twp[p]) (s := s1) rfl rfl)) e

theorem twpDone_raises (s : State) (p : Fin 4) (r a) (h : r ≠ 1) (h' : r ≠ 5) : Raises s (s.twpDone p r a) (0xD0 + p.val) 0x01 a r := by
  unfold State.twpDone
  extract_lets +onlyGivenNames s1
  rw [if_neg h, if_neg h']
  exact Raises.one rfl

theorem arbLoss_twp (s : State) (p : Fin 4) : (s.arbLoss p).twp[p] = { s.twp[p] with arb := s.twp[p].arb.inc } := by
  unfold State.arbLoss
  extract_lets +onlyGivenNames c
  have e : ∀ x : State, ∀ a b, (x.satEv s.twp[p].arb c a b).twp = x.twp := fun x a b => by
    obtain ⟨l, h, _⟩ := satEv_chans x s.twp[p].arb c a b; rw [h]
  rw [e]
  exact modTwp_at s p _

theorem arbLoss_time (s : State) (p : Fin 4) : (s.arbLoss p).time = s.time ∧ ∃ l, (s.arbLoss p).chans.flight = s.chans.flight ++ l := by
  unfold State.arbLoss
  extract_lets +onlyGivenNames c
  obtain ⟨l, h, m, hm⟩ := satEv_chans (s.modTwp p (fun t => { t with arb := c })) s.twp[p].arb c (0xD0 + p.val) (0x20014 + 0x100 * p.val)
  rw [h]
  exact ⟨rfl, m, hm⟩

theorem hwFld_twp (s : State) (f v) : (s.hwFld f v).twp = s.twp := step_hwFld.frame .twp (by decide)

theorem hwFld_regs {s x : State} {f : Fld} {v : Nat} (h : x.regs = s.regs) (ht : x.time = s.time) : (x.hwFld f v).regs = (s.hwFld f v).regs := by
  unfold State.hwFld
  rw [h, ht]
  split
  · exact h
  · unfold State.setFld State.word
    dsimp only
    rw [h]

theorem putData_twp (s : State) (p bs) : (s.putData p bs).twp = s.twp := step_putData.frame .twp (by decide)

theorem mgt_open (s : State) (h : s.runs .mgt = true) (hx : s.sys.step ≠ 15) : (s.runs .mgt && s.exposed) = true := by
  simp [h, State.exposed, hx]

def aonTw (a : Aon) : Aon := { a with bcnCmd := 0, bcnStat := 0, bcnEv := [] }

theorem bcnEvent_aon (s : State) (c w) : ∃ e, (s.bcnEvent c w).aon = { s.aon with bcnEv := e } := by
  unfold State.bcnEvent
  split
  · exact ⟨s.aon.bcnEv, rfl⟩
  · exact ⟨_, rfl⟩

theorem bcnEvent_rest (s : State) (c w) : (s.bcnEvent c w).seq = s.seq ∧ (s.bcnEvent c w).sys = s.sys ∧ (s.bcnEvent c w).nvp = s.nvp ∧ (s.bcnEvent c w).evt = s.evt ∧
    ∃ l, (s.bcnEvent c w).chans.flight = s.chans.flight ++ l := by
  unfold State.bcnEvent
  split
  · exact ⟨rfl, rfl, rfl, rfl, _, rfl⟩
  · exact ⟨rfl, rfl, rfl, rfl, [], (List.append_nil _).symm⟩

theorem bcnTaken_aon (s : State) (w r c) : ∃ e, (s.bcnTaken w r c).aon = { s.aon with bcnCmd := w, bcnStat := r, bcnEv := e } := by
  unfold State.bcnTaken
  obtain ⟨e, h⟩ := bcnEvent_aon (s.modAon (fun a => { a with bcnCmd := w, bcnStat := r })) c w
  exact ⟨e, h⟩

theorem bcnTaken_rest (s : State) (w r c) : (s.bcnTaken w r c).seq = s.seq ∧ (s.bcnTaken w r c).sys = s.sys ∧ (s.bcnTaken w r c).nvp = s.nvp ∧ (s.bcnTaken w r c).evt = s.evt ∧
    ∃ l, (s.bcnTaken w r c).chans.flight = s.chans.flight ++ l := bcnEvent_rest _ c w

theorem bcnDemote_view (s : State) (h1 : s.ballArbiter = false) (h2 : s.aon.demoted = false) :
    s.bcnDemote.aon = { s.aon with demoted := true, demoteReq := false, demCnt := s.aon.demCnt.inc, bcnLow := true, bcnLowAt := s.time } ∧
    s.bcnDemote.sys.role = if s.sys.role = .undecided then s.sys.role else .standby := by
  unfold State.bcnDemote
  rw [if_neg (by rw [h1, h2]; decide)]
  obtain ⟨a, b⟩ := demoteNow_aon { s with aon := { s.aon with bcnLow := true, bcnLowAt := s.time } }
  rw [a, b]
  dsimp only
  exact ⟨rfl, rfl⟩

theorem bcnDemote_nop (s : State) (h : s.ballArbiter = true ∨ s.aon.demoted = true) : s.bcnDemote = s := by
  unfold State.bcnDemote
  rw [if_pos (by rcases h with h | h <;> simp [h])]

theorem demoteOff_aon (s : State) : s.demoteOff.aon = { s.aon with demoted := false } := by
  have e : ∀ x : State, x.latchClaim.aon = x.aon := fun x => step_latchClaim.frame .aon (by decide)
  unfold State.demoteOff
  extract_lets +onlyGivenNames x0 s1
  split
  · refine Eq.trans (ite_keep (fun x => x.aon) (s := s1) ?_ (e s1)) rfl
    rw [e]; rfl
  · exact e s1

theorem seqDown (s : State) (h1 : s.seq.st ≠ 4) (h2 : s.seq.st ≠ 6) : (s.shelfShutdown 1).seq.st = 4 ∧ (s.shelfShutdown 1).seq.cause = 1 ∧
    (s.shelfShutdown 1).aon = s.aon ∧ (s.shelfShutdown 1).time = s.time ∧ Raises s (s.shelfShutdown 1) 0x90 0x03 1 0 := by
  unfold State.shelfShutdown
  rw [if_neg (by simp [h1, h2])]
  exact ⟨rfl, rfl, rfl, rfl, Raises.one rfl⟩

end Sys2Proof.Machine
end

