-- ==== Sys2Proof/Laws/WaitOps.lean ====
section
/-! SUPPORT. What the operations of happenings that wait keep and what they lead to. -/

set_option Elab.async false

namespace Sys2Proof.Machine
open Sys2Proof

theorem Waits.at {c : Instr} {s : State} {n : Nat} {b : Bool} {f : State → State} (e : exec c s = ok (s.whenAt b n f))
    (k : exec c (s.await n) = ok ((s.await n).whenAt b n f)) (hb : b = true) : Waits c s n := by
  unfold Waits
  rw [e, k, State.whenAt_await, if_pos hb, hb]

theorem Waits.due {c : Instr} {s : State} {a : Option Nat} {t d : Nat} {b : Bool} {f : State → State}
    (e : exec c s = ok (s.whenDue b a d f)) (k : exec c (s.await (t + d)) = ok ((s.await (t + d)).whenDue b a d f)) (ha : a = some t)
    (hb : b = true) : Waits c s (t + d) := by
  subst ha
  exact Waits.at e k hb

theorem opAt_reached (s : State) (n : Nat) (h : n ≤ 0xFFFFFFFFFFFF) : n ≤ (s.await (s.opAt n)).opTime := by
  unfold State.opAt
  split
  · rename_i k
    rw [State.await_now (Nat.le_refl _)]
    exact k
  · refine Nat.le_min.2 ⟨h, ?_⟩
    have a : s.aon.optFrom + (n - s.aon.optBase) * 62500000 ≤ (s.await (s.aon.optFrom + (n - s.aon.optBase) * 62500000)).time :=
      Nat.le_max_right _ _
    show n ≤ s.aon.optBase + ((s.await (s.aon.optFrom + (n - s.aon.optBase) * 62500000)).time - s.aon.optFrom) / 62500000
    generalize (s.await (s.aon.optFrom + (n - s.aon.optBase) * 62500000)).time = t at *
    omega

theorem Waits.op {c : Instr} {s : State} {n : Nat} {b : Bool} {f : State → State} (e : exec c s = ok (s.whenOp b n f))
    (k : exec c (s.await (s.opAt n)) = ok ((s.await (s.opAt n)).whenOp b n f)) (hb : b = true) (h : n ≤ 0xFFFFFFFFFFFF) :
    Waits c s (s.opAt n) := by
  unfold Waits
  rw [e, k, State.whenOp_now hb (opAt_reached s n h)]
  unfold State.whenOp State.whenAt
  rw [if_pos (by simp [hb, h])]

end Sys2Proof.Machine
end

