-- ==== Sys2Proof/Laws/FuseOps.lean ====
section
/-! SUPPORT. What the operations of the fuse arrays keep and what they lead to. -/

set_option Elab.async false

namespace Sys2Proof.Machine
open Sys2Proof

def CGrow (a b : Cells Word) : Prop := ∀ w, cellGet 0 a w &&& cellGet 0 b w = cellGet 0 a w

def Grow (s t : State) : Prop := s.otp.wf = true → t.otp.wf = true ∧ CGrow s.otp.aN t.otp.aN ∧ CGrow s.otp.aM t.otp.aM ∧ CGrow s.otp.bN t.otp.bN ∧ CGrow s.otp.bM t.otp.bM

theorem CGrow.refl (a) : CGrow a a := fun _ => BitVec.and_self

theorem CGrow.trans {a b c} (h : CGrow a b) (k : CGrow b c) : CGrow a c := fun w => by rw [← h w, BitVec.and_assoc, k w]

theorem CGrow.put {m : Cells Word} (k : Nat) (x : Word) (h : cellsWf 0 m = true) : CGrow m (cellPut 0 m k (cellGet 0 m k ||| x)) := by
  intro w
  by_cases e : w = k
  · subst e
    rw [cellGet_put_same 0 m w _ h]
    ext i hi
    simp
    intro a; exact Or.inl a
  · rw [cellGet_put_other 0 m k w _ h e, BitVec.and_self]

theorem Grow.refl (s : State) : Grow s s := fun w => ⟨w, CGrow.refl _, CGrow.refl _, CGrow.refl _, CGrow.refl _⟩

theorem Grow.trans {s t u : State} (h : Grow s t) (k : Grow t u) : Grow s u := fun w =>
  have a := h w
  have b := k a.1
  ⟨b.1, a.2.1.trans b.2.1, a.2.2.1.trans b.2.2.1, a.2.2.2.1.trans b.2.2.2.1, a.2.2.2.2.trans b.2.2.2.2⟩

theorem Grow.same {s t : State} (h : t.otp.array = s.otp.array) : Grow s t := by
  intro w
  simp only [Otp.array, Prod.mk.injEq] at h
  obtain ⟨a, b, c, d⟩ := h
  refine ⟨Otp.wf_of w a b c d, ?_⟩
  rw [a, b, c, d]
  exact ⟨CGrow.refl _, CGrow.refl _, CGrow.refl _, CGrow.refl _⟩

theorem Grow.step {ps : List Part} {s t : State} (h : Step ps s t) (k : Part.fuse ∉ ps) : Grow s t := Grow.same (h.frame .fuse k)

theorem Grow.ite {p : Prop} [Decidable p] {s x y : State} (h : Grow s x) (k : Grow s y) : Grow s (if p then x else y) := by
  split
  · exact h
  · exact k

theorem Grow.whenAt {s : State} {c : Bool} {n : Nat} {f : State → State} (h : ∀ u, Grow u (f u)) : Grow s (s.whenAt c n f) := by
  rcases whenAt_or s c n f with e | e
  · rw [e]; exact Grow.trans (t := s.await n) (Grow.same rfl) (h _)
  · rw [e]; exact Grow.same rfl

theorem Grow.when {b : Bool} {s x : State} (h : Grow s x) : Grow s (s.when b x) := by
  unfold State.when
  exact Grow.ite h (Grow.refl s)

theorem Grow.foldl {α : Type} (f : State → α → State) (h : ∀ x a, Grow x (f x a)) (l : List α) (s : State) : Grow s (l.foldl f s) := by
  induction l generalizing s with
  | nil => exact Grow.refl s
  | cons a l ih => exact (h s a).trans (ih _)

theorem grow_put (s x : State) (k : Nat) (a b c d : Word) (e1 : x.otp.aN = cellPut 0 s.otp.aN k (cellGet 0 s.otp.aN k ||| a))
    (e2 : x.otp.aM = cellPut 0 s.otp.aM k (cellGet 0 s.otp.aM k ||| b)) (e3 : x.otp.bN = cellPut 0 s.otp.bN k (cellGet 0 s.otp.bN k ||| c))
    (e4 : x.otp.bM = cellPut 0 s.otp.bM k (cellGet 0 s.otp.bM k ||| d)) : Grow s x := by
  intro w
  simp only [Otp.wf, Bool.and_eq_true] at w ⊢
  rw [e1, e2, e3, e4]
  exact ⟨⟨⟨⟨cellsWf_put 0 _ _ _ w.1.1.1, cellsWf_put 0 _ _ _ w.1.1.2⟩, cellsWf_put 0 _ _ _ w.1.2⟩, cellsWf_put 0 _ _ _ w.2⟩,
    CGrow.put _ _ w.1.1.1, CGrow.put _ _ w.1.1.2, CGrow.put _ _ w.1.2, CGrow.put _ _ w.2⟩

theorem grow_prog (s : State) (w req va vb) : Grow s (s.progBits w req va vb) := by
  unfold State.progBits
  exact grow_put s _ w _ _ _ _ rfl rfl rfl rfl

theorem grow_cut (s : State) : Grow s s.otpCut := by
  unfold State.otpCut
  split
  · exact Grow.refl s
  · rename_i c _
    extract_lets +onlyGivenNames u
    have hu : Grow s u := (Grow.step (step_drawn (s := s)) (by decide)).trans (Grow.step step_countPulses (by decide))
    clear_value u
    refine hu.trans ?_
    dsimp only
    exact grow_put u _ c.word _ _ _ _ rfl rfl rfl rfl

theorem grow_word (s : State) (w r) : Grow s (s.advanceWord w r).1 := by
  unfold State.advanceWord
  split
  · exact Grow.refl s
  · dsimp only
    exact ((Grow.step (step_drawn (s := s)) (by decide)).trans ((Grow.step (step_drawn (s := s.drawn)) (by decide)).trans (Grow.step step_countPulses (by decide)))).trans (grow_prog _ _ _ _ _)

theorem Grow.pairs {α β : Type} (f : State × β → α → State × β) (h : ∀ x a, Grow x.1 (f x a).1) (l : List α) (s : State) (b : β) : Grow s (l.foldl f (s, b)).1 := by
  suffices k : ∀ p : State × β, Grow p.1 (l.foldl f p).1 from k (s, b)
  induction l with
  | nil => exact fun p => Grow.refl p.1
  | cons a l ih => exact fun p => (h p a).trans (ih _)

theorem grow_advance (s : State) (t n) : Grow s (s.advance t n).1 := by
  unfold State.advance
  extract_lets +onlyGivenNames v
  clear_value v
  split
  · exact Grow.refl s
  · split
    · exact Grow.refl s
    · with_reducible exact Grow.pairs (fun p k => ((p.1.advanceWord (0x90 + 4 * t + k) (advanceReq v n k)).1, p.2 && (p.1.advanceWord (0x90 + 4 * t + k) (advanceReq v n k)).2)) (fun x a => grow_word x.1 _ _) _ _ _

theorem grow_one (s : State) (t) : Grow s (s.advanceOne t) := by
  unfold State.advanceOne
  extract_lets +onlyGivenNames n
  refine Grow.ite (Grow.refl s) ?_
  have h := grow_advance s t n
  generalize s.advance t n = p at h
  obtain ⟨s1, good⟩ := p
  dsimp only at h ⊢
  exact Grow.ite (h.trans (Grow.step step_fire (by decide))) (Grow.ite (h.trans (Grow.step step_fire (by decide))) h)

theorem grow_both (s : State) : Grow s s.advanceBoth := by
  unfold State.advanceBoth
  exact (grow_one s 0).trans (grow_one _ 1)

theorem grow_confirm (s : State) : Grow s s.confirm := by
  unfold State.confirm
  extract_lets +onlyGivenNames c s1 x0 s2
  have h1 : Grow s s1 := Grow.trans (t := s.carryStep .confirm) (Grow.step step_carryStep (by decide)) (Grow.same rfl)
  have h2 : Grow s1 s2 := by
    unfold s2
    exact (Grow.step (step_writeRec1 (s := s1)) (by decide)).trans (grow_both _)
  clear_value s1 s2
  exact ((h1.trans h2).trans (Grow.step (step_updEvent (s := s2)) (by decide))).trans (Grow.step step_satEv (by decide))

theorem grow_warm (s : State) (c) : Grow s (s.warmReset c) := by
  unfold State.warmReset
  extract_lets +onlyGivenNames s0 x0 x1 s1 s2
  have h0 : Grow s s0 := by
    unfold s0
    exact ((Grow.step step_holdTime (by decide)).trans (grow_cut _)).trans (Grow.step step_claimDrop (by decide))
  have h1 : Grow s0 s1 := Grow.same rfl
  have h2 : Grow s1 s2 := by
    unfold s2
    clear_value s1
    exact ((Grow.step step_recResetOrWait (by decide)).trans (Grow.step step_dropEvents (by decide))).trans (Grow.step step_satEv (by decide))
  exact (h0.trans (h1.trans h2)).trans (Grow.step step_reportAbort (by decide))

theorem grow_cold (s : State) (c) : Grow s (s.coldReset c) := by
  unfold State.coldReset
  extract_lets +onlyGivenNames s0 x0 x1 x2 x3 s1
  have h0 : Grow s s0 := by
    unfold s0
    exact (grow_cut _).trans (Grow.step step_claimDrop (by decide))
  have h1 : Grow s0 s1 := Grow.same rfl
  have h2 : Grow s1 (s1.recResetOrWait true) := Grow.step step_recResetOrWait (by decide)
  exact (h0.trans (h1.trans h2)).trans (Grow.step step_reportAbort (by decide))

theorem grow_steps (s : State) : Grow s s.coldSteps := Grow.step step_coldSteps (by decide)

theorem Grow.ok {s x t : State} (h : (ok x : Host.Outcome State Fault Refusal) = .next t) (k : Grow s x) : Grow s t := okInj h ▸ k

theorem grow_powerFail (s : State) (n) : Grow s (s.powerFail n) := by
  unfold State.powerFail
  refine Grow.ite (Grow.refl s) ?_
  extract_lets +onlyGivenNames x0 s1
  have h1 : Grow s s1 := by
    unfold s1
    have k : Grow s { s with aon := { s.aon with pf := true, pfGood := s.aon.good.toList.all id } } := Grow.same rfl
    exact (k.trans (grow_cut _)).trans (Grow.step step_commitStop (by decide))
  clear_value s1
  exact Grow.ite (((h1.trans (Grow.step (step_pfRecord (s := s1)) (by decide))).trans (Grow.step (step_pfSave (s := s1.pfRecord)) (by decide))).trans (Grow.step (step_pfUpdate (s := s1.pfRecord.pfSave)) (by decide))) h1

theorem grow_peer (s : State) (p) : Grow s (s.peerStep p) := by
  unfold State.peerStep
  cases p with
  | confirm => exact Grow.ite (grow_confirm s) (Grow.refl s)
  | begin_ => exact Grow.ite (Grow.step step_updStart (by decide)) (Grow.refl s)
  | chunk off b => exact Grow.ite (Grow.step step_updTake (by decide)) (Grow.refl s)
  | finish => exact Grow.ite (Grow.step step_updFinish (by decide)) (Grow.refl s)
  | commit =>
    dsimp only
    split
    · exact Grow.ite (Grow.trans (t := s.modUpd (fun u => { u with committing := true })) (Grow.same rfl) (Grow.step step_commitOwn (by decide))) (Grow.refl s)
    · exact Grow.refl s
  | activate => exact Grow.ite (Grow.same rfl) (Grow.refl s)
  | step n => exact Grow.ite (Grow.step step_peerActRun (by decide)) (Grow.refl s)
  | abort r i => exact Grow.ite (Grow.step step_updAbort (by decide)) (Grow.refl s)
  | rollback r => exact Grow.ite (Grow.step step_rollBack (by decide)) (Grow.refl s)

theorem grow_taken (s : State) (p) : Grow s (s.stepTaken p) := by
  unfold State.stepTaken
  split
  · exact Grow.refl s
  · rename_i k st
    exact Grow.ite (Grow.trans (t := s.peerStep st) (grow_peer s st) (Grow.same rfl)) (Grow.refl s)

end Sys2Proof.Machine
end

