-- ==== Sys2Proof/Laws/PeerOps.lean ====
section
/-! SUPPORT. What the operations of claims and rides keep and what they lead to. -/

set_option Elab.async false

namespace Sys2Proof.Machine
open Sys2Proof

theorem claimEpoch_sub (a b : Byte) : (claimEpoch a - claimEpoch b).toNat = (a.toNat / 2 % 32 + 32 - b.toNat / 2 % 32) % 32 := by
  have f : ∀ c : Byte, (claimEpoch c).toNat = c.toNat / 2 % 32 := fun c => by unfold claimEpoch; rw [BitVec.toNat_ofNat]
  rw [BitVec.toNat_sub, f, f]
  omega

theorem one_testBit (j : Nat) : Nat.testBit 1 j = decide (j = 0) := by
  cases j with
  | zero => rfl
  | succ j => simp [Nat.testBit_succ]

theorem ones_testBit (i : Nat) (h : i < 32) : Nat.testBit 0xFFFFFFFF i = true := by
  rw [show (0xFFFFFFFF : Nat) = 2 ^ 32 - 1 from rfl, Nat.testBit_two_pow_sub_one]
  exact decide_eq_true h

theorem insert_testBit (g : Fld) (w : Word) (i : Nat) (k : g.width = 1) (hi : i < 32) :
    (g.insert w 1).toNat.testBit i = (decide (i = g.lo) || w.toNat.testBit i) := by
  unfold Fld.insert
  rw [k, BitVec.toNat_ofNat, Nat.testBit_mod_two_pow, decide_eq_true hi, Bool.true_and]
  rw [show (2 ^ 1 - 1 : Nat) = 1 from rfl, show (1 % 2 ^ 1 : Nat) = 1 from rfl]
  rw [Nat.testBit_or, Nat.testBit_and, Nat.testBit_xor, Nat.testBit_shiftLeft, ones_testBit i hi, one_testBit]
  generalize w.toNat.testBit i = x
  by_cases e : i = g.lo
  · subst e; simp
  · have : (decide (i ≥ g.lo) && decide (i - g.lo = 0)) = false := by
      rw [Bool.and_eq_false_iff, decide_eq_false_iff_not, decide_eq_false_iff_not]; omega
    rw [this, decide_eq_false e]; simp

theorem flag_bit (s : State) (f : Fld) : s.flag f = (cellGet (0 : Word) s.regs.sticky f.off).toNat.testBit f.lo := by
  unfold State.flag
  rw [Nat.testBit, Nat.and_comm, Nat.and_one_is_mod]
  generalize (cellGet (0 : Word) s.regs.sticky f.off).toNat >>> f.lo = n
  have : n % 2 = 0 ∨ n % 2 = 1 := by omega
  rcases this with h | h <;> rw [h] <;> rfl

theorem flag_stick (s : State) (f g : Fld) (h : cellsWf 0 s.regs.sticky = true) (e : f.off = g.off) (k : g.width = 1) (l : f.lo < 32) (b : s.flag f = true ∨ f.lo = g.lo) :
    (s.stick g).flag f = true := by
  rw [flag_bit] at *
  unfold State.stick
  rw [e]
  show (cellGet (0 : Word) (cellPut 0 _ _ _) _).toNat.testBit _ = true
  rw [cellGet_put_same 0 _ _ _ h, BitVec.toNat_or, Nat.testBit_or, insert_testBit _ _ _ k l]
  rw [e] at b
  rcases b with b | b
  · rw [b, Bool.true_or]
  · rw [decide_eq_true b, Bool.true_or, Bool.or_true]

theorem pump_keep (n : Nat) (s : State) (h : s.regs.wf = true) : (State.nvpPump n s).nvp.save = s.nvp.save ∧
    (∀ f : Fld, f.off = F.NVP_FLAG.seq_sat.off → f.lo < 32 → s.flag f = true → (State.nvpPump n s).flag f = true) ∧
    ∃ l, (State.nvpPump n s).chans.flight = s.chans.flight ++ l := by
  induction n generalizing s with
  | zero => exact ⟨rfl, fun _ _ _ q => q, [], (List.append_nil _).symm⟩
  | succ n ih =>
    have same : ∀ x : State, x.regs = s.regs → x.nvp.save = s.nvp.save → x.chans = s.chans → (State.nvpPump n x).nvp.save = s.nvp.save ∧
        (∀ f : Fld, f.off = F.NVP_FLAG.seq_sat.off → f.lo < 32 → s.flag f = true → (State.nvpPump n x).flag f = true) ∧
        ∃ l, (State.nvpPump n x).chans.flight = s.chans.flight ++ l := by
      intro x e1 e2 e3
      obtain ⟨a, b, c⟩ := ih x (by rw [e1]; exact h)
      refine ⟨a.trans e2, fun f p q r => b f p q ?_, by rw [← e3]; exact c⟩
      unfold State.flag at r ⊢; rw [e1]; exact r
    have self : s.nvp.save = s.nvp.save ∧ (∀ f : Fld, f.off = F.NVP_FLAG.seq_sat.off → f.lo < 32 → s.flag f = true → s.flag f = true) ∧
        ∃ l, s.chans.flight = s.chans.flight ++ l := ⟨rfl, fun _ _ _ q => q, [], (List.append_nil _).symm⟩
    unfold State.nvpPump
    split
    · exact self
    · split
      · extract_lets room s1
        split
        · exact same s1 rfl rfl rfl
        · exact self
      · split
        · exact self
        · split
          · exact self
          · split
            · rename_i w q _ _ _
              extract_lets s1 s2
              have hw : cellsWf 0 s.regs.sticky = true := ((Regs.wf_iff _).1 h).2.1
              have r1 : s1.regs.wf = true := by
                have w1 := (Regs.wf_iff _).1 h
                refine (Regs.wf_iff _).2 ⟨w1.1, ?_, w1.2.2.1, w1.2.2.2⟩
                exact cellsWf_put 0 _ _ _ w1.2.1
              have f1 : ∀ f : Fld, f.off = F.NVP_FLAG.seq_sat.off → f.lo < 32 → s.flag f = true → s1.flag f = true := fun f a b c =>
                flag_stick (s.modNvp (fun v => { v with queue := q })) f F.NVP_FLAG.seq_sat hw a rfl b (.inl c)
              have k1 : s1.nvp.save = s.nvp.save ∧ s1.chans = s.chans := ⟨rfl, rfl⟩
              clear_value s1
              have k2 : s2.regs = s1.regs ∧ s2.nvp.save = s1.nvp.save ∧ ∃ l, s2.chans.flight = s1.chans.flight ++ l := by
                unfold s2
                split
                · exact ⟨rfl, rfl, [], (List.append_nil _).symm⟩
                · exact ⟨rfl, rfl, _, rfl⟩
              clear_value s2
              obtain ⟨a, b, c, d⟩ := ih s2 (by rw [k2.1]; exact r1)
              obtain ⟨l, hl⟩ := k2.2.2
              refine ⟨a.trans (k2.2.1.trans k1.1), fun f p q r => b f p q ?_, l ++ c, ?_⟩
              · have := f1 f p q r
                unfold State.flag at this ⊢; rw [k2.1]; exact this
              · rw [d, hl, k1.2, List.append_assoc]
            · extract_lets ws
              split
              · exact same _ rfl rfl rfl
              · split
                · exact same _ rfl rfl rfl
                · exact self

theorem Undec.ok {x s t : State} (h : (ok x : Host.Outcome State Fault Refusal) = .next t) (n : t.sys.role ≠ s.sys.role) (k : x.sys.role ≠ s.sys.role → x.sys.role = .undecided) :
    t.sys.role = .undecided := by rw [← okInj h] at n ⊢; exact k n

theorem Undec.when {s x : State} {b : Bool} (k : x.sys.role = .undecided) : (s.when b x).sys.role ≠ s.sys.role → (s.when b x).sys.role = .undecided := by
  unfold State.when
  split
  · exact fun _ => k
  · exact fun n => absurd rfl n

theorem Undec.whenAt {s : State} {c : Bool} {n : Nat} {f : State → State} (k : ∀ u, (f u).sys.role = .undecided) :
    (s.whenAt c n f).sys.role ≠ s.sys.role → (s.whenAt c n f).sys.role = .undecided := by
  rcases whenAt_or s c n f with e | e
  · rw [e]; exact fun _ => k _
  · rw [e]; exact fun n => absurd rfl n

theorem warm_role (s : State) (c) : (s.warmReset c).sys.role = .undecided := by rw [(warmReset_sys s c).1]; rfl

theorem cold_role (s : State) (c) : (s.coldReset c).sys.role = .undecided := by rw [(coldReset_keep s c).1]; rfl

theorem steps_role (s : State) : s.coldSteps.sys.role = s.sys.role := by rw [(coldSteps_keep s).1]

theorem decide_standby (s : State) (h1 : s.strap = .pair) (h2 : s.peerAccepted = true) (h3 : claimRole s.red.peer = 3) : s.decide288.1 = .standby := by
  unfold State.decide288
  rw [h1]
  dsimp only
  split
  · rfl
  · split
    · rfl
    · first | rfl | rw [if_pos h2, if_pos h3]

theorem roleDecision_role (s) (h1 : s.runs .mgt = true) (h2 : s.sys.step = 8) (h3 : s.strap = .pair) (h4 : s.peerAccepted = true) :
    Completes .roleDecision s (fun t => t.sys.role = s.decide288.1) := by
    show ∃ t, execRoleDecision s = .next t ∧ _
    unfold execRoleDecision
    extract_lets +onlyGivenNames acc
    have ha : acc = true := by simp [acc, h3, h4]
    rw [if_pos ha, State.whenAt_now (by simp [h1, h2]) (Nat.le_refl _)]
    unfold State.roleDecide
    extract_lets +onlyGivenNames s0
    have e4 : s0.decide288 = s.decide288 ∧ ∃ b c, s0 = { s with sys := { s.sys with peerRej := b }, chans := c } := by
      unfold s0 State.peerReject
      split
      · split
        · exact ⟨rfl, _, _, rfl⟩
        · exact ⟨rfl, _, _, rfl⟩
      · exact ⟨rfl, _, _, rfl⟩
    obtain ⟨e4, b, c, e5⟩ := e4
    rw [e4]
    generalize hq : s.decide288 = q
    obtain ⟨role, lone, denied⟩ := q
    dsimp -zeta only
    extract_lets +onlyGivenNames a x0 x1 x2 s1
    have k1 : s1.sys.role = role := rfl
    clear_value s1
    extract_lets +onlyGivenNames s2
    have k2 : s2.sys.role = role := by
      unfold s2
      split
      · exact takeDrive_role _ _ _
      · have e1 : s1.latchClaim.lawSyncAll.sys = s1.latchClaim.sys := step_lawSyncAll.frame .sys (by decide)
        have e2 : s1.latchClaim.sys = s1.sys := step_latchClaim.frame .sys (by decide)
        rw [e1, e2, k1]
    clear_value s2
    extract_lets +onlyGivenNames s3
    have k3 : s3.sys.role = role := by
      unfold s3
      split
      · exact k2
      · exact k2
    clear_value s3
    refine ⟨_, rfl, ?_⟩
    have e : (s.follow (s3.fire 0x07 0x01 0 role.code)).sys = (s3.fire 0x07 0x01 0 role.code).sys := step_follow.frame .sys (by decide)
    rw [e]
    exact k3

theorem pair_bit (r : RegId) (h : r = .THM_STAT) (s : State) : s.shown r 0 0 = s.showThm r 0 := by
  subst h
  unfold State.shown
  simp [State.showSys, State.showOtp, State.showNvp, State.showSns, State.showLaw, State.showPwm, State.showHbx, State.showDkl, State.showBat, State.showSlt, State.showRed, State.showSeq, State.showBbx, State.showHost, showAt]

end Sys2Proof.Machine
end

