-- ==== Sys2Proof/Laws/PortOps.lean ====
section
/-! SUPPORT. What the operations of single ports and rings keep and what they lead to. -/

set_option Elab.async false

namespace Sys2Proof.Machine
open Sys2Proof

theorem modTwp_ne (s : State) (p q : Fin 4) (f) (h : q ≠ p) : (s.modTwp p f).twp[q] = s.twp[q] := modAt_ne _ _ _ _ (fun e => h e.symm)

theorem twpDone_ne (s : State) (p q : Fin 4) (r a) (h : q ≠ p) : (s.twpDone p r a).twp[q] = s.twp[q] := by
  unfold State.twpDone
  extract_lets +onlyGivenNames s1
  have e : s1.twp[q] = s.twp[q] := modTwp_ne s p q _ h
  exact Eq.trans (ite_keep (fun x => x.twp[q]) (s := s1) rfl (ite_keep (fun x => x.twp[q]) (s := s1) rfl rfl)) e

theorem arbLoss_ne (s : State) (p q : Fin 4) (h : q ≠ p) : (s.arbLoss p).twp[q] = s.twp[q] := by
  unfold State.arbLoss
  extract_lets +onlyGivenNames c
  have e : ∀ x : State, ∀ a b, (x.satEv s.twp[p].arb c a b).twp = x.twp := fun x a b => by
    obtain ⟨c', h, l, hl⟩ := satEv_chans x s.twp[p].arb c a b; rw [h]
  rw [e]
  exact modTwp_ne s p q _ h

theorem twpEvent_twp (s : State) (p c m a) : (s.twpEvent p c m a).twp = s.twp := step_twpEvent.frame .twp (by decide)

theorem okTwp {x s t : State} {q : Fin 4} (h : (ok x : Host.Outcome State Fault Refusal) = .next t) (k : x.twp[q] = s.twp[q]) : t.twp[q] = s.twp[q] := okInj h ▸ k

theorem whenTwp {x s : State} {b : Bool} {q : Fin 4} (k : x.twp[q] = s.twp[q]) : (s.when b x).twp[q] = s.twp[q] := when_keep (fun y => y.twp[q]) k

theorem puts_other (l : List (Nat × BitVec 64)) (m : Cells NWord) (w : Nat) (h : cellsWf ⟨0, 0⟩ m = true) (n : w ∉ l.map (·.1)) :
    cellGet ⟨0, 0⟩ (l.foldl (fun m p => cellPut ⟨0, 0⟩ m p.1 ⟨p.2, 0⟩) m) w = cellGet ⟨0, 0⟩ m w := by
  induction l generalizing m with
  | nil => rfl
  | cons a l ih =>
    rw [List.map_cons, List.mem_cons, not_or] at n
    rw [List.foldl_cons, ih _ (cellsWf_put _ _ _ _ h) n.2, cellGet_put_other _ _ _ _ _ h n.1]

theorem put_other (m : Cells Word) (k w : Nat) (x : Word) (h : cellsWf 0 m = true) (n : w ≠ k) : cellGet 0 (cellPut 0 m k x) w = cellGet 0 m w :=
  cellGet_put_other 0 m k w x h n

end Sys2Proof.Machine
end

