-- ==== Sys2Proof/Tests/Slice0.lean ====
section
/-! SUPPORT. Tests, and witnesses that meet the hypotheses of the obligations. -/

set_option Elab.async false

namespace Sys2Proof.Machine

/-- Every island out of reset past boot, SOLO. -/
def upState : State :=
  { State.reset with
    aon := { Aon.reset with pf := false }
    sys := { Sys.reset with step := 10, inReset := false, cold := false, role := .solo, mode := 1 } }

end Sys2Proof.Machine

open Sys2Proof Sys2Proof.Machine

/-- A unit past boot in a role, at an instant. -/
def unitAt (r : Role) (t : Nat) : State := { upState with time := t, sys := { upState.sys with role := r } }

/-- The register at a BAR0 offset. -/
def regD (off : Nat) : RegDesc :=
  match regAt off with
  | some x => x.1
  | none => ⟨.SYS_ID, 0, 0, 1, 1, 0, 0, 0, 0, 0, 0, .none, .mgt⟩

/-- An image that no check passes. -/
def imgBad : ImageCheck := ⟨false, 0, false, false, 0⟩

/-- An image that passes in a unit whose key fuses are clear. -/
def imgOk : ImageCheck := ⟨true, 0, true, false, 0⟩

/-- A snapshot of nothing. -/
def snap0 : Snapshot :=
  ⟨0, 0, 0, 0, 0, Vector.replicate 34 0, Vector.replicate 34 none, Vector.replicate 8 (0, 0), Vector.replicate 64 0, [], [],
    Vector.replicate 40 0, Vector.replicate 32 none, Vector.replicate 32 false, Vector.replicate 9 0, false, false, 0, 0, 0, 0, 0, 0⟩

/-- A command that answers answers some state. -/
theorem next_of {o : Host.Outcome State Fault Refusal} (h : (match o with | .next _ => true | _ => false) = true) :
    ∃ t, o = .next t := by
  cases o with
  | next t => exact ⟨t, rfl⟩
  | fault _ => cases h
  | refused _ => cases h

/-- The addressed stores hold nothing but what the unit came with. -/
theorem wf_fresh : upState.StoresWf := ⟨rfl, by decide +kernel, rfl, rfl, rfl, rfl, rfl, rfl⟩

/-- The sense front end running. -/
def snsRun (s : State) : State := { s with sns := { s.sns with running := true } }

/-- A law sample in progress. -/
def job0 : Job :=
  ⟨.run, 0, 0, Vector.replicate 8 SecSt.zero, Vector.replicate 8 SecSt.zero, 0, none, 0, false, false, false, none, false, 0, 0, 0⟩

/-- Phase 23 ACTIVE on rail 7, which is in RUN. -/
def pwmRun (t : Nat) : State :=
  ((unitAt .solo t).modPhase 23 (fun p => { p with asg := true, rail := 7, pstate := 1 })).modRail 7 (fun r => { r with state := 2 })

/-- Phases 22 and 23 on rail 7 at little current, the second in a given state; shedding is due. -/
def shedState (st : Nat) : State :=
  ((((((pwmRun (200000 * us1)).modPhase 22 (fun p => { p with asg := true, rail := 7, pstate := 1 })).modPhase 23
    (fun p => { p with pstate := st })).modRail 7 (fun r => { r with shedSince := some 0, evalAt := some (200000 * us1) })).setFld (F.RAIL_CFG.shed_en 7) 1).setFld
    (F.RAIL_CFG.min_ph 7) 1).setFld (F.RAIL_SHED.shed_lvl 7) 1

/-- Phase 22 ACTIVE and 23 shed on rail 7 at much current; adding is due. -/
def addState : State :=
  ((((pwmRun (200000 * us1)).modPhase 22 (fun p => { p with asg := true, rail := 7, pstate := 1 })).modPhase 23
    (fun p => { p with pstate := 2 })).modRail 7 (fun r => { r with addSince := some 0, ifl := 1000000000, evalAt := some (200000 * us1) })).setFld
    (F.RAIL_CFG.shed_en 7) 1

/-- Rail 7 in a state, enabled by the sequencer and by RAIL_CTL. -/
def railOnState (st : Nat) : State :=
  ((((upState.modRail 7 (fun r => { r with state := st })).modNode 71 (fun n => { n with en := true })).setFld
    (F.SEQ_N_CFG.en 71) 1).setFld (F.SEQ_N_CFG.kind 71) 1).setFld (F.RAIL_CTL.en 7) 1

/-- SYNC_IN one edge from valid. -/
def syncState : State :=
  ((({ unitAt .solo 1000 with pwm := { Pwm.reset with g := { PwmGlobal.reset with syncEdge := some 0, syncRun := 15 } } }).setFld
    F.PWM_SYNC_CFG.in_en 1).setFld F.PWM_SYNC_NOM.nom 1000).setFld F.PWM_SYNC_CFG.win 1

/-- String 7 in use. -/
def strOn (f : Str → Str) : State :=
  { upState with bat := { Bat.reset with str := modAt Bat.reset.str 7 f, enSeen := modAt Bat.reset.enSeen 7 (fun _ => true) } }

/-- A unit with so many hours of operating time. -/
def hours (n : Nat) : State := { unitAt .solo (n * opHour * 62500000) with nvp := { Nvp.reset with restoreDue := false } }

/-- An impedance template without a zero entry. -/
def fullTable : Cells Word := (List.range 336).map (fun k => (k, 0xFFFFFFFF))

/-- A frame whose CRC passes. -/
def frameOk : Frame := ⟨true, true, Vector.replicate 36 0, BitVec.ofNat 16 (crc16 (List.replicate 36 0))⟩

/-- A paired unit with its link to the peer in a state. -/
def chez (r : Role) (l : Link) (t : Nat) : State := (unitAt r t).modRed (fun x => { x with link := l })

/-- What a ready peer says of itself. -/
def peerReady : PeerStatus := ⟨true, true, 0, false, true, true, 0, 0, Vector.replicate 72 (0, false), Rec1.zero, ⟨0, 0, 0, 0, 0, false⟩, false, 0⟩

/-- An active unit that no condition keeps from a couch drill. -/
def drillable (t : Nat) : State := (chez .active .up t).modRed (fun r => { r with peerSt := some peerReady })

/-- Node 71 enabled, in a state. -/
def node (f : Node → Node) (t : Nat) : State := ((unitAt .solo t).modNode 71 f).setFld (F.SEQ_N_CFG.en 71) 1

/-- The sequencer in a state, all off since instant 0. -/
def seqSt (n : Nat) : State := { upState with seq := { Seq.reset with st := n, allOffAt := some 0 } }

/-- A save whose slot is not written yet. -/
def save0 : Save := ⟨3, 0, false, none, 0, false, [], false, none⟩

/-- An event of the mode controller. -/
def ev0 : Ev := ⟨0x01, 0, none, false, 0⟩

/-- Ream 3 in a state, its pointer somewhere. -/
def ream3 (st p : Nat) : State :=
  upState.modBbx (fun b => { b with st := { b.st with reams := modAt b.st.reams 3 (fun r => { r with st := st, ptr := p }) } })

/-- Mode START with an operation of the black box asked for, and ream 3 read out. -/
def bbxAsk (op : Nat) : State :=
  ({ ream3 3 4112 with sys := { upState.sys with mode := 0 } }).setFld F.BBX_OP.op op

/-- A unit in a phase of an update. -/
def updIn (p : Nat) : State := upState.modUpd (fun u => { u with phase := p })

/-- A manifest without entries, and one with an ordinary part. -/
def man0 : Manifest := ⟨0, 0, 0, 0, 0, []⟩
def man1 : Manifest := ⟨1, 0, 0, 0, 0, [⟨2, 0, 0, 0, 0, 0, 4, 0, 4, 0, 0⟩]⟩

/-- The first chunk of a package of 4,096 bytes is in. -/
def chunkState : State :=
  let p := List.replicate 16 0 ++ leBytes 4 4096 ++ List.replicate 2028 0
  ((updIn 1).modUpd (fun u => { u with man := some man0, lastOff := some 0, pkg := p })).setFld F.UPD_CHUNK.off 2048

/-- The host link up and the rings on. -/
def rings : State :=
  ((List.range 8).foldl (fun s k => s.setFld (F.HST_RING_CFG.en k) 1) upState).modHst (fun h => { h with up := true })

/-- A command as fetched. -/
def cmdOf (op : Nat) (opnd : List Byte) (blen : Nat) : Cmd := ⟨⟨op, 0, 0, 0, blen, opnd, true⟩, 0, 0, false, none, false⟩

/-- That command in progress on ring 3. -/
def inHand (c : Cmd) : State := rings.modHst (fun h => { h with cmd := modAt h.cmd 3 (fun _ => some c) })

/-- Telemetry of one word, 3 µs after tick 0. -/
def telState : State :=
  { ((rings.setFld F.HST_TEL.en 1).setFld (F.HST_TEL_SEL.valid 0) 1) with time := 3 * us1, tickAt := some 0 }

/-- Port 3 enabled as target or as controller. -/
def twi (target : Bool) (f : TwPort → TwPort) (t : Nat) : State :=
  (((unitAt .solo t).setFld (F.TWP_CFG.en 3) 1).setFld (F.TWP_CFG.role 3) (b2n target)).modTwp 3 f

/-- Boot step 8 with an accepted active peer. -/
def paired : State :=
  { (chez .undecided .up 0).modRed (fun r => { r with peer := 0xC1, peerSt := some peerReady }) with
    sys := { upState.sys with role := .undecided, step := 8 }
    otp := { Otp.reset with live := { Live.failure with noPeer := false } } }

/-- A standby that may take. -/
def takeable : State :=
  { unitAt .standby 0 with
    red := { Red.reset with ready := true }
    otp := { Otp.reset with live := { Live.failure with denyActive := false, unitFix := 0 } } }

/-- A thermal warning stands. -/
def warned : State := ((unitAt .active 0).modSensor 47 (fun x => { x with warn := true })).setFld (F.THM_S_CFG.en 47) 1

/-- The state that a command answers. -/
def after (c : Instr) (s : State) : State :=
  match exec c s with
  | .next t => t
  | _ => s

/-- A command that answers answers that state. -/
theorem after_next {c : Instr} {s : State} (h : (match exec c s with | .next _ => true | _ => false) = true) :
    exec c s = .next (after c s) := by
  unfold after
  cases e : exec c s with
  | next t => rfl
  | fault _ => rw [e] at h; cases h
  | refused _ => rw [e] at h; cases h

/-- The configuration load has delivered the shelf's place. -/
def placed : State := { upState with sys := { upState.sys with placed := true } }

/-! ### Ill-formed commands are refused by their checks -/

theorem test_wf_offset : Instr.wf (.regWrite 0x00016 0) = false ∧ Instr.wf (.regWrite 0x00014 0) = true := by decide
theorem test_wf_gated : Instr.wf (.gatedAccess 0x08015 true) = false ∧ Instr.wf (.gatedAccess 0x08014 true) = true := by decide
theorem test_wf_coeff : Instr.wf (.coeffShadowWrite 0x46000 0) = false ∧ Instr.wf (.coeffShadowWrite 0x3FFFC 0) = false ∧
    Instr.wf (.coeffShadowWrite 0x40002 0) = false ∧ Instr.wf (.coeffShadowWrite 0x44FFC 0) = true := by decide
theorem test_wf_curve : Instr.wf (.costCurveWrite 0x50001 0) = false ∧ Instr.wf (.costCurveWrite 0x50000 0) = true := by decide
theorem test_wf_track : Instr.wf (.trackEdge 0 0) = false ∧ Instr.wf (.trackEdge 2 1) = false ∧ Instr.wf (.trackEdge 1 1) = true := by decide
theorem test_wf_lanes : Instr.wf (.chezonTrained false false) = false ∧ Instr.wf (.chezonTrained false true) = true := by decide
theorem test_wf_image : Instr.wf (.mgmtRestart ⟨true, 0, true, true, 0⟩) = false ∧
    Instr.wf (.bootImageVerified imgBad imgBad ⟨true, 0, true, true, 0⟩) = false ∧
    Instr.wf (.bootImageVerified imgBad imgBad imgBad) = true := by decide
theorem test_wf_snapshot : Instr.wf (.snapshotReceived { snap0 with rails := [(1, ⟨0, 0, 0, 0, 0, []⟩), (1, ⟨0, 0, 0, 0, 0, []⟩)] } true) = false ∧
    Instr.wf (.snapshotReceived snap0 true) = true := by decide
theorem test_wf_pulses : Instr.wf (.otpCommandComplete 0 0 513) = false ∧ Instr.wf (.otpCommandComplete 0 0 512) = true := by decide
theorem test_wf_ream : Instr.wf (.reamPointerRead 0 0x90000) = false ∧ Instr.wf (.reamPointerRead 0 0x7FFFC) = false ∧
    Instr.wf (.reamPointerRead 0 0x80002) = false ∧ Instr.wf (.reamPointerRead 0 0x8FFFC) = true := by decide
theorem test_wf_attention : Instr.wf (.twpAttention 0 0 (List.replicate 33 0)) = false ∧ Instr.wf (.twpAttention 0 0 (List.replicate 32 0)) = true := by decide
theorem test_wf_recovery : Instr.wf (.twpBusRecovery 0 10 true) = false ∧ Instr.wf (.twpBusRecovery 0 9 true) = true := by decide
theorem test_wf_beacon : Instr.wf (.beaconDemote 0x2D0B) = false ∧ Instr.wf (.beaconSafeShutdown 0x1E06) = false ∧
    Instr.wf (.beaconSave 0x4B02) = false ∧ Instr.wf (.beaconClearAttn 0x3C01) = false ∧ Instr.wf (.beaconBadWord 0x1E06) = false ∧
    Instr.wf (.beaconBadWord 0x1E07) = true := by decide
theorem test_wf_payload : (∀ l : List Byte, l.length = 65537 → Instr.wf (.nvpWrite 0 l) = false ∧ Instr.wf (.mbReq 0 l) = false ∧
    Instr.wf (.updOp 0 l) = false) ∧ Instr.wf (.nvpWrite 0 []) = true := by
  refine ⟨fun l h => ?_, rfl⟩
  simp [Instr.wf, h]

/-- The table gives its rows no bits, so no word spells a command. -/
theorem test_decode_none : decodeTableWord 32 0x2D0B = none ∧ upState.withFetchWord 32 0x2D0B = upState := ⟨rfl, rfl⟩

/-! ### The spec's checks and codes -/

/-- 10_redundancy R206: the CRC-4 of the claims 0x00, 0x4A, 0xCB and 0xCC. -/
theorem test_crc4 : crc4 0x00 = 0x6 ∧ crc4 0x4A = 0xC ∧ crc4 0xCB = 0x1 ∧ crc4 0xCC = 0x8 := by decide +kernel

/-- 09_slot_links R177: CRC-16 with 0x1021 and 0xFFFF, over the published check string "123456789". -/
theorem test_crc16 : crc16 [0x31, 0x32, 0x33, 0x34, 0x35, 0x36, 0x37, 0x38, 0x39] = 0x29B1 := by decide +kernel

/-- CRC-32 over the same string (published check value). -/
theorem test_crc32 : crc32 [0x31, 0x32, 0x33, 0x34, 0x35, 0x36, 0x37, 0x38, 0x39] = 0xCBF43926 := by decide +kernel

/-- 19_two_wire_ports R390, Table TWP.4: the four command words; 0x4B03 is none. -/
theorem test_beacon_words : bcnCode 0x1E06 = 1 ∧ bcnCode 0x2D0B = 2 ∧ bcnCode 0x3C01 = 3 ∧ bcnCode 0x4B02 = 4 ∧ bcnCode 0x4B03 = 0 := by
  decide +kernel

/-- 19_two_wire_ports R388: an active, healthy unit with a thermal warning, severity 2, sequencer UP answers 0x2925. -/
theorem test_beacon_word :
    (({ warned with seq := { Seq.reset with st := 2 } }).modAon (fun a => { a with hb := 1, bcnFault := 2, bcnAttn := true })).beaconWord = 0x2925 := by
  decide +kernel

/-- 00_scope Table DOC.4 and 09_slot_links: phase 13 of rail 3, and slot 3, of the shelf 5/2/17/3. -/
theorem test_path (h : Config.place.toNat * 4096 = 0x14913000) :
    (placed.path 0 3 1) = 0x14913019 ∧ placed.path 3 8 7 = 0x149131C7 := by
  have e : placed.place = 0x14913000 := h
  unfold State.path
  rw [e]
  decide

/-- 10_redundancy R201 and 09_slot_links Table SLT.8: A's standby claim 0x4A yields to B's 0xCB, and 0xCC to neither. -/
theorem test_claims : claimHigher 0xCB 0x4A = true ∧ claimHigher 0xCC 0xCB = true ∧ claimHigher 0x4A 0xCC = false := by decide +kernel

/-- 21_register_map Table REG.2: whole-word reset values. -/
theorem test_reset_words :
    [0x08010, 0x08004, 0x0C00C, 0x10004, 0x12014, 0x12024, 0x1C104, 0x01400, 0x1D200, 0x1F108].map upState.regRead =
      [0x7FFF8000, 0x000103E8, 0x00017FFF, 0x01400140, 0x400003E8, 0x7FFF0000, 0x07D006E0, 0xA0000000, 0x22222222, 0x00000004] := by
  decide +kernel

/-- 15_parameter_store: identity record 3 has its copies at 0x1_EC00 and 0x1_EE00. -/
theorem test_identity_place : recPlace 0x43 = some (0x1EC00, 0x200, 0x200) := by decide +kernel

/-! ### The spec's worked examples -/

/-- 02_sense R36: phase 5, raw code 512, trims 0x4040 and 4096, full scale 100 A. -/
theorem test_calibration : calibrate 5 512 (0x4040, 4096) 0x4000 0 100000 false = ⟨2097152, 8208, 25049, false⟩ := by decide +kernel

/-- 03_law_engines: section 0 (PI) and section 1 (lead) of the loop on rail 0. -/
def piLead (i : Fin 8) : Sec :=
  if i = 0 then ⟨-18432, 16384, 0, -32768, 0, 8192, true, false, 0⟩ else ⟨24576, -16384, 0, -8192, 0, 8192, false, false, 1⟩

/-- Sample 0: the presets, then 8,096. -/
theorem test_law_sample0 :
    (cascade piLead 2 2048 14336 1024 (presets piLead 1024)).out = 8096 ∧
    (cascade piLead 2 2048 14336 1024 (presets piLead 1024)).st[0] = ⟨1024, 1024, 8128, 8192, 0⟩ ∧
    (cascade piLead 2 2048 14336 1024 (presets piLead 1024)).st[1] = ⟨8128, 8192, 8096, 8192, 0⟩ := by decide +kernel

/-- Sample 1 from those states: a tie rounds to the even 8,378. -/
theorem test_law_sample1 :
    let c := cascade piLead 2 2048 14336 596 (cascade piLead 2 2048 14336 1024 (presets piLead 1024)).st
    c.out = 8378 ∧ c.st[0] = ⟨596, 1024, 8305, 8128, 0⟩ ∧ c.st[1] = ⟨8305, 8128, 8378, 8096, 0⟩ := by decide +kernel

/-- Sample 2: the limiter acts at out_lo, and the stored state is the limited one (R51). -/
theorem test_law_sample2 :
    let st : Vector SecSt 8 := (Vector.replicate 8 SecSt.zero).set 0 ⟨596, 1024, 8305, 8128, 0⟩ |>.set 1 ⟨8305, 8128, 8378, 8096, 0⟩
    let c := cascade piLead 2 2048 14336 8388 st
    c.out = 2048 ∧ c.lo = true ∧ c.hi = false ∧ c.st[0] = ⟨8388, 596, 3885, 8305, 0⟩ ∧ c.st[1] = ⟨3885, 8305, 2048, 8378, 0⟩ := by decide +kernel

/-- 04_gain_schedule Table SCH.3: the crossfade's blend 3/4 and 1/4 of 9,001 and 9,403, half to even. -/
theorem test_blend : rne (3 * 9001 + 9403) 2 = 9102 := by decide +kernel

/-- 05_phases: rail 0 of the reference shelf, T = 128,000, D = 32,375, dead times 320. -/
theorem test_period : rne (8288 * 128000) 15 = 32375 ∧
    (Phase.reset.schedule 0 0 128000 32375 320 320 0).hIv = [⟨320, 32375⟩] ∧
    (Phase.reset.schedule 0 0 128000 32375 320 320 0).lIv = [⟨32695, 128000⟩] ∧
    (aperture 0 0 0 32375 320 320 128000).1 = 16347 := by decide +kernel

/-- 06_headbox Table HBX.6: rectifier k, rail k, the vat. -/
def rectifier (k : Fin 40) : Item := ⟨k, true, 0, [(9000, 1000), (9000, 1040), (9000, 1100)], 18900, 26900, 0⟩
def storage (k : Fin 40) : Item := ⟨k, false, -40000, [(40000, 1200), (60000, 1500)], -30000, 10000, -40000⟩
def vatItem : Item := ⟨36, false, -20000, [(20000, 950), (100000, 2000)], 0, 100000, -20000⟩
def shelfItems : List Item :=
  [rectifier 0, rectifier 1, rectifier 2, rectifier 3, rectifier 4, rectifier 5, rectifier 6, rectifier 7, rectifier 8, rectifier 9,
    rectifier 10, rectifier 11, storage 32, storage 33, storage 34, storage 35, vatItem]

/-- 06_headbox Table HBX.7: the result of the example, D = 250,000 and Gcap = 271,726. -/
theorem test_dispatch :
    (dispatch shelfItems 250000 (some 271726)).x.map (fun p => p.2.1) =
      [22644, 22644, 22644, 22644, 22644, 22644, 22644, 22644, 22644, 22644, 22643, 22643, -5431, -5431, -5432, -5432, 0] ∧
    (dispatch shelfItems 250000 (some 271726)).lam = (1200, 1100, 1200) ∧ (dispatch shelfItems 250000 (some 271726)).path = 1 ∧
    (dispatch shelfItems 250000 (some 271726)).gap = 0 := by decide +kernel

/-- 06_headbox: the first solve of the example ends at 1,200 with −18,200 on each rail. -/
theorem test_solve : (solve shelfItems 250000).lam = 1200 ∧ (solve shelfItems 250000).x.map Prod.fst =
    List.replicate 12 26900 ++ List.replicate 4 (-18200) ++ [0] := by decide +kernel

/-- 08_battery Table BAT.7: string 0 under load, identity 3. -/
def underLoad : State :=
  let rec3 : IdRec := { IdRec.zero with valid := true, fcc := 86800, p := 40000, qr := 768700800000 }
  let ocv : Vector Int 21 := Vector.ofFn (fun i => if i.val ≤ 12 then 99600 - 200 * (12 - i.val) else 99840 + 200 * (i.val - 13))
  let str0 (x : Str) : Str :=
    { x with present := true, code := 3, valid := true, ud := 480, di := 3000, s2V := 393200000, s2I := 160000000, s2T := 8000, n2T := 20 }
  let bat : Bat :=
    { Bat.reset with
      str := modAt Bat.reset.str 0 str0
      ids := modAt Bat.reset.ids 3 (fun _ => rec3)
      ocv := ocv
      ztab := [(1188, ⟨256, 126, 30, 0⟩), (1189, ⟨236, 106, 12, 0⟩)] }
  (((((({ upState with bat := bat }).setFld (F.BAT_RV.r0 0) 400).setFld (F.BAT_RV.kd 0) 2).setFld
    (F.BAT_RV.ka 0) 10).setFld (F.BAT_QP.qp 0) 100).setFld (F.BAT_ANC.rmax 0) 10000).setFld (F.BAT_CAPNOM.mah 0) 86800

theorem test_impedance : underLoad.zLookup 0 400 6150 = (250, 120, 30) := by decide +kernel
theorem test_correction : (underLoad.correct 0).bat.ids[3].qr = 794824128000 ∧ (underLoad.correct 0).bat.ids[3].p = 2847 ∧
    (underLoad.correct 0).bat.str[0].rs = 3064 ∧ (underLoad.correct 0).bat.ids[3].sc = 6359 := by decide +kernel

/-- 12_thermal R250 and 13_fuse: the temperature of a count, and the two thresholds of sensor 13. -/
theorem test_thermal : dieTemp 98000 8000 92240 = 1552 ∧ nThreshold 98000 8000 2160 = 89200 ∧ nThreshold 98000 8000 1680 = 91600 := by
  decide +kernel

/-- 13_fuse: the marginal limit word: G1 word 0x73 reads 0x0A05 and 0x0A04, G2 word 0x7A reads 0x10 and 0. -/
def marginal : Otp :=
  let n : Cells Word := [(0x73, 0xA05), (0x7A, 0x10)]
  let crc (g : Nat) : Word := crcWord (fun w => cellGet 0 n w) g
  { Otp.reset with
    aN := [(0x73, 0xA05), (0x79, crc 1), (0x7A, 0x10), (0x7D, crc 2)], aM := [(0x73, 0xA04), (0x79, crc 1), (0x7D, crc 2)], bN := [], bM := [] }

theorem test_marginal_bits : marginal.marginal 0x73 0x13F3F = 1 ∧ marginal.pass 1 = true ∧ marginal.pass 2 = true := by decide +kernel
theorem test_marginal_live : marginal.latchLive.unitFix = 3 := by decide +kernel
theorem test_limit_word : marginal.worst 1 0x73 5 0 35 = 5 ∧ marginal.worst 1 0x73 13 8 35 = 10 := by decide +kernel

/-! ### One step of a command -/

/-- 05_phases Table RAIL.6, 11_sequencing: SEQ_STOP leads the sequencer to SHUTDOWN. -/
theorem test_seq_stop : (after .seqStop (seqSt 2)).seq.st = 4 := by decide +kernel

/-- 10_redundancy R214: DEMOTE_N low makes an active unit a standby. -/
theorem test_demote : (after .demoteNAccept (unitAt .active 0)).sys.role = .standby := by decide +kernel

/-- 01_shelf R17: a tick boundary adds one to the counter. -/
theorem test_tick : (after .shelfTick (snsRun { unitAt .solo 320000 with tickAt := some 0, tick := 0x1234A7 })).tick = 0x1234A8 := by decide +kernel

/-- 14_start_up R278: a lost core supply is a warm reset with cause 10. -/
theorem test_supply : (after (.supplyPgLost .vpll) upState).sys.rstCause = 10 ∧ (after (.supplyPgLost .vpll) upState).sys.cold = false := by
  decide +kernel

/-- 13_fuse R274: PROG without ARM is refused, with result 4. -/
theorem test_prog_unarmed : (after .otpProg upState).otp.cmd = none := by decide +kernel

/-- 19_two_wire R391: CLEAR_ATTN clears the summary. -/
theorem test_clear_attn : (after (.beaconClearAttn 0x4B02) (upState.modEvt (fun e => { e with sev := 5 }))).evt.sev = 0 := by decide +kernel

/-- The queue: a step takes the front command and leaves the rest. -/
theorem test_step_queue : (match step { upState with pending := [.configLock, .seqGo] } with
    | .next t => t.sys.lock && t.pending == [.seqGo]
    | _ => false) = true := by decide +kernel

/-! ### Witnesses: what meets the hypotheses of the statements -/

/-- Meets the hypotheses of every clause of Obligations.ResetPinsComplete. -/
theorem witness_ResetPinsComplete :
    (∃ (s : State), (s.aon.vaon = false ∨ s.sys.step = 0)) ∧
    (∃ (s : State), s.aon.vaon = true ∧ s.aon.rstN = true) ∧
    (∃ (s : State), s.aon.vaon = true ∧ s.aon.rstN = false) ∧
    (∃ (s : State), s.runs .hst = true ∧ s.runs .mgt = true) ∧
    (∃ (s : State), s.runs .hst = true ∧ s.runs .mgt = true ∧ s.sys.step ≠ 15) ∧
    (∃ (s : State), s.runs .hst = true ∧ s.runs .mgt = true ∧ s.sys.step = 15) ∧
    (∃ (s : State), s.aon.vaon = true ∧ s.aon.transport = true) ∧
    (∃ (s : State), s.aon.vaon = true) :=
  ⟨⟨{ upState with aon := { Aon.reset with vaon := false } }, by decide +kernel⟩,
    ⟨upState, by decide +kernel⟩,
    ⟨upState.modAon (fun a => { a with rstN := false }), by decide +kernel⟩,
    ⟨upState, by decide +kernel⟩,
    ⟨upState, by decide +kernel⟩,
    ⟨{ upState with sys := { upState.sys with step := 15 } }, by decide +kernel⟩,
    ⟨upState.modAon (fun a => { a with transport := true }), by decide +kernel⟩,
    ⟨upState, by decide +kernel⟩⟩

/-- Meets the hypotheses of every clause of Obligations.CoreSuppliesComplete. -/
theorem witness_CoreSuppliesComplete :
    (∃ (which : Supply) (s : State), s.aon.vaon = true ∧ s.sys.inReset = true ∧ (which ≠ .vcore ∨ s.nvp.recDue = none)) ∧
    (∃ (s : State), s.aon.vaon = true ∧ s.sys.inReset = false) ∧
    (∃ (s : State), s.aon.vaon = true) ∧
    (∃ (s : State), s.aon.vaon = true ∧ s.aon.refOk = true ∧ s.sys.inReset = true) ∧
    (∃ (s : State), s.aon.vaon = true ∧ s.aon.refOk = true ∧ s.sys.inReset = false) ∧
    (∃ (s : State), s.aon.vaon = true) ∧
    (∃ (s : State), s.aon.vaon = true ∧ s.sys.inReset = true ∧ s.otp.latched = true ∧ s.aon.good = Vector.replicate 5 true ∧ s.aon.rstN = true ∧ s.aon.refOk = true ∧ s.aon.sd = false ∧ s.aon.transport = false ∧ s.nvp.recDue = none) ∧
    (∃ (s : State), s.runs .mgt = true ∧ s.sys.step = 3 ∧ s.aon.heldAt = none) ∧
    (∃ (s : State) (at_ : _), s.runs .mgt = true ∧ s.sys.step = 3 ∧ s.aon.heldAt = some at_) :=
  ⟨⟨.vcore, State.reset, by decide +kernel⟩,
    ⟨upState, by decide +kernel⟩,
    ⟨upState, by decide +kernel⟩,
    ⟨State.reset, by decide +kernel⟩,
    ⟨upState, by decide +kernel⟩,
    ⟨upState, by decide +kernel⟩,
    ⟨{ State.reset with otp := { Otp.reset with latched := true } }, by decide +kernel⟩,
    ⟨{ upState with sys := { upState.sys with step := 3 } }, by decide +kernel⟩,
    ⟨{ upState with aon := { upState.aon with heldAt := some 7 }, sys := { upState.sys with step := 3 } }, 7, by decide +kernel⟩⟩

/-- Meets the hypotheses of every clause of Obligations.BootStepsComplete. -/
theorem witness_BootStepsComplete :
    (∃ (bank0 : ImageCheck) (bank1 : ImageCheck) (s : State), s.runs .mgt = true ∧ s.sys.step = 4 ∧ s.sys.wdtRun < 3 ∧ s.bootChecks.otp.live.key ≠ 2 ∧ s.bootChecks.imageOk (if s.bootChecks.upd.rec1.bank then bank1 else bank0) = true) ∧
    (∃ (bank0 : ImageCheck) (bank1 : ImageCheck) (s : State), s.runs .mgt = true ∧ s.sys.step = 4 ∧ s.sys.wdtRun < 3 ∧ s.bootChecks.otp.live.key ≠ 2 ∧ s.bootChecks.imageOk (if s.bootChecks.upd.rec1.bank then bank1 else bank0) = false ∧ s.bootChecks.imageOk (if s.bootChecks.upd.rec1.bank then bank0 else bank1) = true) ∧
    (∃ (recov : ImageCheck) (s : State), s.runs .mgt = true ∧ s.sys.step = 4 ∧ 3 ≤ s.sys.wdtRun ∧ s.bootChecks.recoveryOk recov = true) ∧
    (∃ (recov : ImageCheck) (s : State), s.runs .mgt = true ∧ s.sys.step = 4 ∧ 3 ≤ s.sys.wdtRun ∧ s.bootChecks.recoveryOk recov = false) ∧
    (∃ (s : State), s.runs .mgt = true ∧ s.sys.step = 6 ∧ s.nvp.restoreDue = false ∧ s.nvp.imageDue = false) ∧
    (∃ (s : State), s.runs .mgt = true ∧ s.sys.step = 7) ∧
    (∃ (s : State), s.runs .mgt = true ∧ s.sys.step = 8 ∧ s.elapsed s.sys.peerFrom (s.fld F.SYS_BOOT.peer_ms * ms1) = true) ∧
    (∃ (s : State), s.runs .mgt = true ∧ s.sys.step = 9) ∧
    (∃ (s : State), s.runs .mgt = true ∧ s.sys.wdtArmed = true ∧ s.elapsed s.sys.wdtAt (s.fld F.SYS_WDT.ms * ms1) = true) :=
  ⟨⟨imgOk, imgBad, { upState with sys := { upState.sys with step := 4 } }, by decide +kernel⟩,
    ⟨imgBad, imgOk, { upState with sys := { upState.sys with step := 4 } }, by decide +kernel⟩,
    ⟨imgOk, { upState with sys := { upState.sys with step := 4, wdtRun := 3 } }, by decide +kernel⟩,
    ⟨imgBad, { upState with sys := { upState.sys with step := 4, wdtRun := 3 } }, by decide +kernel⟩,
    ⟨{ upState with sys := { upState.sys with step := 6 }, nvp := { Nvp.reset with restoreDue := false, imageDue := false } }, by decide +kernel⟩,
    ⟨{ upState with sys := { upState.sys with step := 7 } }, by decide +kernel⟩,
    ⟨{ upState with time := upState.fld F.SYS_BOOT.peer_ms * ms1, sys := { upState.sys with step := 8 } }, by decide +kernel⟩,
    ⟨{ upState with sys := { upState.sys with step := 9 } }, by decide +kernel⟩,
    ⟨{ upState with time := upState.fld F.SYS_WDT.ms * ms1, sys := { upState.sys with wdtArmed := true } }, by decide +kernel⟩⟩

/-- Meets the hypotheses of every clause of Obligations.ModeRequestsComplete. -/
theorem witness_ModeRequestsComplete :
    (∃ (s : State), s.runs .hst = true ∧ s.runs .mgt = true) ∧
    (∃ (s : State), s.runs .hst = true ∧ s.runs .mgt = true) ∧
    (∃ (code : BitVec 4) (s : State) (ws : _) (ps : _), s.runs .hst = true ∧ s.mgtUp = true ∧ modeMove s.sys.mode code.toNat = true ∧ s.sys.mode ≠ modeHoldup ∧ s.sys.transportStep = 0 ∧ s.sys.waitReq = none ∧ s.regs.stage = none ∧ code.toNat ≠ modeTransport ∧ (s.overlayCheck code.toNat).2 = some (ws, ps)) ∧
    (∃ (s : State), s.runs .hst = true ∧ s.mgtUp = true ∧ modeMove s.sys.mode modeTransport = true ∧ s.sys.mode ≠ modeHoldup ∧ s.sys.transportStep = 0 ∧ s.sys.waitReq = none ∧ s.regs.stage = none) ∧
    (∃ (s : State) (ws : _) (ps : _), s.mgtUp = true ∧ s.sys.huReq = some true ∧ s.regs.stage = none ∧ s.transportOn = false ∧ s.sys.waitReq = none ∧ s.sys.transportStep ≠ 1 ∧ (s.sys.mode = modeStart ∨ s.sys.mode = modeService ∨ s.sys.mode = modeMaint ∨ s.sys.mode = modeCustom) ∧ (State.overlayCheck { s with sys := { s.sys with huReq := none } } modeHoldup).2 = some (ws, ps)) ∧
    (∃ (s : State) (ws : _) (ps : _), s.mgtUp = true ∧ s.sys.huReq = some false ∧ s.regs.stage = none ∧ s.transportOn = false ∧ s.sys.waitReq = none ∧ s.sys.transportStep ≠ 1 ∧ s.sys.mode = modeHoldup ∧ (State.overlayCheck { s with sys := { s.sys with huReq := none } } s.sys.prev).2 = some (ws, ps)) ∧
    (∃ (s : State) (ws : _) (ps : _), s.mgtUp = true ∧ s.sys.svcReq = true ∧ s.regs.stage = none ∧ s.sys.huReq = none ∧ s.sys.mode = modeStart ∧ (State.overlayCheck { s with sys := { s.sys with svcReq := false } } modeService).2 = some (ws, ps)) :=
  ⟨⟨upState, by decide +kernel⟩,
    ⟨upState, by decide +kernel⟩,
    ⟨3, upState, [], [], by decide +kernel⟩,
    ⟨{ upState with sys := { upState.sys with mode := 5 } }, by decide +kernel⟩,
    ⟨{ upState with sys := { upState.sys with huReq := some true } }, [], [], by decide +kernel⟩,
    ⟨{ upState with sys := { upState.sys with mode := 2, prev := 1, huReq := some false } }, [], [], by decide +kernel⟩,
    ⟨{ upState with sys := { upState.sys with mode := 0, svcReq := true } }, [], [], by decide +kernel⟩⟩

/-- Meets the hypotheses of every clause of Obligations.OverlaysApplyComplete. -/
theorem witness_OverlaysApplyComplete :
    (∃ (s : State) (g : _), s.runs .mgt = true ∧ s.regs.stage = some g ∧ g.reload = false ∧ (s.tickAt = none ∨ (s.atTick = true ∧ g.at_ < s.time))) ∧
    (∃ (s : State) (g : _), s.runs .mgt = true ∧ s.regs.stage = some g ∧ g.reload = true ∧ (s.tickAt = none ∨ (s.atTick = true ∧ g.at_ < s.time))) ∧
    (∃ (s : State) (ws : _) (ps : _), s.mgtUp = true ∧ s.sys.transportStep = 1 ∧ s.seq.st ≠ 4 ∧ allFin 72 (fun k => !s.nodeEn k || s.seq.n[k].st.isOff) = true ∧ (s.tickAt = none ∨ s.atTick = true) ∧ (s.overlayCheck modeTransport).2 = some (ws, ps)) ∧
    (∃ (s : State), s.runs .bat = true ∧ s.sys.transportStep = 2) ∧
    (∃ (s : State), s.runs .bat = true ∧ s.sys.transportStep = 3 ∧ s.ranOut s.bat.txAt (100 * ms1) = true) ∧
    (∃ (s : State), s.runs .bat = true ∧ s.sys.transportStep = 4 ∧ s.nvp.save = none ∧ s.recordsDone = true ∧ s.aon.sd = false) :=
  ⟨⟨{ upState with regs := { upState.regs with stage := some ⟨3, [], [], true, false, 0⟩ } }, ⟨3, [], [], true, false, 0⟩, by decide +kernel⟩,
    ⟨{ upState with time := 1, tickAt := some 1, regs := { upState.regs with stage := some ⟨3, [], [], false, true, 0⟩ } }, ⟨3, [], [], false, true, 0⟩, by decide +kernel⟩,
    ⟨{ upState with sys := { upState.sys with transportStep := 1 } }, [], [], by decide +kernel⟩,
    ⟨{ upState with sys := { upState.sys with transportStep := 2 } }, by decide +kernel⟩,
    ⟨{ upState with time := 100 * ms1, sys := { upState.sys with transportStep := 3 }, bat := { Bat.reset with txAt := some 0 } }, by decide +kernel⟩,
    ⟨{ upState with sys := { upState.sys with transportStep := 4 } }, by decide +kernel⟩⟩

/-- Meets the hypotheses of every clause of Obligations.RegisterWritesComplete. -/
theorem witness_RegisterWritesComplete :
    (∃ (off : BitVec 20) (val : Word) (s : State) (d : _) (e : _) (w : _) (i : _), s.StoresWf ∧ s.runs .hst = true ∧ off.toNat % 4 = 0 ∧ (s.sys.step ≠ 15 ∨ inBootBlock off.toNat = true) ∧ islandAt off.toNat = some i ∧ s.gated i = false ∧ s.runs i = true ∧ regAt off.toNat = some (d, e, w) ∧ d.shadow ≠ .staged ∧ (s.writeMask d e &&& ~~~d.shadowMask = 0 ∨ ((s.clearSticky d off.toNat val).setWord d e off.toNat (maskIn (s.word off.toNat (d.rstAt e)) val (s.writeMask d e &&& ~~~d.shadowMask))).checkReg d.id (maskIn (s.word off.toNat (d.rstAt e)) val (s.writeMask d e &&& ~~~d.shadowMask)) = true)) ∧
    (∃ (off : BitVec 20) (s : State) (d : _) (e : _) (w : _) (i : _), s.StoresWf ∧ s.runs .hst = true ∧ off.toNat % 4 = 0 ∧ s.sys.step ≠ 15 ∧ islandAt off.toNat = some i ∧ s.gated i = false ∧ s.runs i = true ∧ regAt off.toNat = some (d, e, w) ∧ d.shadow = .staged ∧ s.sys.lock = false ∧ s.hbx.commit = 0) ∧
    (∃ (off : BitVec 20) (s : State), s.StoresWf ∧ s.runs .hst = true ∧ off.toNat % 4 = 0 ∧ s.sys.step ≠ 15 ∧ 0x5D400 ≤ off.toNat ∧ off.toNat < 0x5D940 ∧ regAt off.toNat = none ∧ s.gated .bat = false ∧ s.runs .bat = true ∧ s.sys.lock = false ∧ ((∀ i < 8, s.bit (F.BAT_CTL.en i) = false))) ∧
    (∃ (off : BitVec 20) (s : State), s.StoresWf ∧ s.runs .hst = true ∧ off.toNat % 4 = 0 ∧ s.sys.step ≠ 15 ∧ 0xF0000 ≤ off.toNat ∧ off.toNat < 0xF0400 ∧ regAt off.toNat = none ∧ s.gated .hst = false) ∧
    (∃ (off : BitVec 20) (s : State) (i : _), s.runs .hst = true ∧ off.toNat % 4 = 0 ∧ s.sys.step ≠ 15 ∧ islandAt off.toNat = some i ∧ s.gated i = true ∧ s.regs.gatedSeen.contains i = false) ∧
    (∃ (off : BitVec 20), islandAt off.toNat = none) :=
  ⟨⟨0x00014, 0x32, upState, regD 0x00014, 0, 0, .mgt, wf_fresh, by decide +kernel⟩,
    ⟨0x14014, upState, regD 0x14014, 0, 0, .dsp, wf_fresh, by decide +kernel⟩,
    ⟨0x5D400, upState, wf_fresh, by decide +kernel⟩,
    ⟨0xF0000, upState, wf_fresh, by decide +kernel⟩,
    ⟨0x08014, unitAt .arbiter 0, .ctl, by decide +kernel⟩,
    ⟨0xFFFFC, by decide +kernel⟩⟩

/-- Meets the hypotheses of every clause of Obligations.RegisterEventsComplete. -/
theorem witness_RegisterEventsComplete :
    (∃ (s : State) (h : _) (d : _) (e : _) (w : _), s.StoresWf ∧ s.runs .hst = true ∧ s.tickAt = none ∧ s.regs.shadowQ = [h] ∧ regAt h.off = some (d, e, w) ∧ (State.setWord { s with regs := { s.regs with shadowQ := [] } } d e h.off (maskIn (s.word h.off (d.rstAt e)) h.val h.mask)).checkReg d.id (maskIn (s.word h.off (d.rstAt e)) h.val h.mask) = true) ∧
    (∃ (off : BitVec 20) (s : State) (i : _), islandAt off.toNat = some i ∧ s.runs .hst = true ∧ s.sys.step ≠ 15 ∧ s.gated i = true ∧ s.regs.gatedSeen.contains i = false) ∧
    (∃ (s : State), s.runs .hst = true ∧ s.runs .ctl = true) ∧
    (∃ (s : State), s.runs .hst = true ∧ s.runs .ctl = true) ∧
    (∃ (s : State), s.runs .hst = true ∧ s.runs .recI = true) ∧
    (∃ (s : State), s.runs .hst = true ∧ s.runs .recI = true) ∧
    (∃ (s : State), s.runs .hst = true ∧ s.runs .mgt = true) ∧
    (∃ (b : CntBlock) (s : State), s.runs .hst = true ∧ s.runs (cntIsland b) = true ∧ (s.sys.step ≠ 15 ∨ b = .upd)) ∧
    (∃ (r : Fin 8) (s : State), s.runs .hst = true ∧ s.sys.step ≠ 15 ∧ s.bit (F.HST_RING_CFG.en r) = false) ∧
    (∃ (s : State), s.StoresWf ∧ s.runs .hst = true ∧ s.sys.step ≠ 15) :=
  ⟨⟨{ upState with regs := { upState.regs with shadowQ := [⟨0x08014, 5, 0xFFFF, 0⟩] } }, ⟨0x08014, 5, 0xFFFF, 0⟩, regD 0x08014, 0, 0, wf_fresh, by decide +kernel⟩,
    ⟨0x5FFFC, unitAt .arbiter 0, .bat, by decide +kernel⟩,
    ⟨upState, by decide +kernel⟩,
    ⟨upState, by decide +kernel⟩,
    ⟨upState, by decide +kernel⟩,
    ⟨upState, by decide +kernel⟩,
    ⟨upState, by decide +kernel⟩,
    ⟨.hbx, upState, by decide +kernel⟩,
    ⟨7, upState, by decide +kernel⟩,
    ⟨upState, wf_fresh, by decide +kernel⟩⟩

/-- Meets the hypotheses of every clause of Obligations.LockedFieldsStand. -/
theorem witness_LockedFieldsStand :
    (∃ (off : BitVec 20) (s : State) (d : _) (e : _) (w : _), s.StoresWf ∧ s.sys.lock = true ∧ regAt off.toNat = some (d, e, w)) ∧
    (∃ (c : _) (s : State) (t : State), s.sys.lock = true ∧ exec c s = .next t) :=
  ⟨⟨0x00014, { upState with sys := { upState.sys with lock := true } }, regD 0x00014, 0, 0, wf_fresh, by decide +kernel⟩,
    ⟨.wdtKick, { upState with sys := { upState.sys with lock := true } }, _, rfl, rfl⟩⟩

/-- Meets the hypotheses of every clause of Obligations.SamplesComplete. -/
theorem witness_SamplesComplete :
    (∃ (j : Fin 24) (s : State) (a : _) (near : _) (rest : _), s.ctlWorks = true ∧ s.pwm.ph[j].aps = (a, near) :: rest ∧ a ≤ s.time) ∧
    (∃ (j : Fin 24) (s : State), s.runs .ctl = true ∧ s.sns.running = true ∧ s.pwm.ph[j].asg = true ∧ (s.driven s.pwm.ph[j].rail).contains j = false ∧ gridDue s.pwm.ph[j].idleNext (s.idlePer s.pwm.ph[j].rail) s.time = s.time) ∧
    (∃ (n : Fin 8) (s : State), s.runs .ctl = true ∧ s.sns.running = true ∧ gridDue s.sns.railNext[n] (250 * ns1) s.time = s.time) ∧
    (∃ (s : State), s.runs .ctl = true ∧ s.sns.running = true ∧ gridDue s.sns.busNext (250 * ns1) s.time = s.time) ∧
    (∃ (s : State) (ch : Fin 130), s.runs .sup = true ∧ s.sns.running = true ∧ s.sys.role ≠ .arbiter ∧ ch.val = 34 + s.sns.scanNext.val ∧ gridDue s.sns.scanAt us1 s.time = s.time) ∧
    (∃ (s : State), s.runs .bat = true ∧ s.sns.running = true ∧ ((∀ x ∈ s.sns.ntcId, x.1 ≠ s.sns.strobes + 2)) ∧ s.ranOut s.sns.strobeAt (125 * us1) = true) ∧
    (∃ (ch : Fin 34) (s : State) (c : Fin 130) (cv : _), c.val = ch.val ∧ s.runs .ctl = true ∧ s.sns.ch[c].conv = some cv ∧ cv.due ≤ s.time) :=
  ⟨⟨23, (unitAt .solo 5).modPhase 23 (fun p => { p with aps := [(5, false)] }), 5, false, [], by decide +kernel⟩,
    ⟨23, snsRun (upState.modPhase 23 (fun p => { p with asg := true })), by decide +kernel⟩,
    ⟨0, snsRun upState, by decide +kernel⟩,
    ⟨snsRun upState, by decide +kernel⟩,
    ⟨snsRun upState, 34, by decide +kernel⟩,
    ⟨snsRun { unitAt .solo (125 * us1) with sns := { Sns.reset with strobeAt := some 0 } }, by decide +kernel⟩,
    ⟨33, { upState with sns := { Sns.reset with ch := modAt Sns.reset.ch 33 (fun c => { c with conv := some ⟨0, false, false, 0⟩ }) } }, 33, ⟨0, false, false, 0⟩, by decide +kernel⟩⟩

/-- Meets the hypotheses of every clause of Obligations.TickComplete. -/
theorem witness_TickComplete :
    (∃ (s : State), s.runs .lnk = true ∧ s.sns.running = true ∧ s.tickAt = none) ∧
    (∃ (s : State) (a : _), s.runs .lnk = true ∧ s.sns.running = true ∧ s.tickAt = some a ∧ a + s.tickMin ≤ s.time) ∧
    (∃ (s : State), s.works = true ∧ s.runs .lnk = true ∧ s.hbx.frozen = false ∧ s.ranOut s.tickAt (4500 * ns1) = true) ∧
    (∃ (s : State), s.works = true ∧ s.runs .lnk = true ∧ s.hbx.frozen = false ∧ s.ranOut s.tickAt (4500 * ns1) = true ∧ s.hbx.phase < 3 ∧ s.bit F.HBX_CTL.en = true ∧ s.hbx.lateNow = false ∧ s.hbx.periodTick + s.hbx.period ≤ s.tick + 1) ∧
    (∃ (s : State), s.runs .dsp = true ∧ s.atTick = true ∧ s.fld F.HBX_PERIOD.ticks ≠ s.hbx.period ∧ s.tick % s.hbx.period = 0 ∧ s.tick % s.fld F.HBX_PERIOD.ticks = 0) ∧
    (∃ (s : State), s.works = true ∧ s.runs .dsp = true ∧ s.hbx.phase = 0 ∧ s.tick = s.hbx.periodTick ∧ s.ranOut s.tickAt (500 * ns1) = true) ∧
    (∃ (s : State), s.works = true ∧ s.runs .dsp = true ∧ s.hbx.phase = 1 ∧ s.tick = s.hbx.periodTick ∧ s.ranOut s.tickAt (1700 * ns1) = true) ∧
    (∃ (s : State), s.works = true ∧ s.runs .dsp = true ∧ s.hbx.phase = 2 ∧ s.tick = s.hbx.periodTick ∧ s.ranOut s.tickAt (2000 * ns1) = true) ∧
    (∃ (s : State), s.works = true ∧ s.runs .dsp = true ∧ s.vat.hu = true ∧ s.ranOut s.vat.exitSince (s.fld F.VAT_HU.exit_ms * ms1) = true) :=
  ⟨⟨snsRun upState, by decide +kernel⟩,
    ⟨snsRun { unitAt .solo 320000 with tickAt := some 0 }, 0, by decide +kernel⟩,
    ⟨{ unitAt .solo 288000 with tickAt := some 0 }, by decide +kernel⟩,
    ⟨{ unitAt .solo 288000 with tickAt := some 0 }.setFld F.HBX_CTL.en 1, by decide +kernel⟩,
    ⟨{ upState with tickAt := some 0 }.setFld F.HBX_PERIOD.ticks 2, by decide +kernel⟩,
    ⟨{ unitAt .solo 32000 with tickAt := some 0 }, by decide +kernel⟩,
    ⟨{ unitAt .solo 108800 with tickAt := some 0, hbx := { Hbx.reset with phase := 1 } }, by decide +kernel⟩,
    ⟨{ unitAt .solo 128000 with tickAt := some 0, hbx := { Hbx.reset with phase := 2 } }, by decide +kernel⟩,
    ⟨{ unitAt .solo (upState.fld F.VAT_HU.exit_ms * ms1) with vat := { Vat.reset with hu := true, exitSince := some 0 } }, by decide +kernel⟩⟩

/-- Meets the hypotheses of every clause of Obligations.LawSamplesComplete. -/
theorem witness_LawSamplesComplete :
    (∃ (e : Fin 20) (s : State), s.runs .ctl = true ∧ s.law.eng[e].job = none ∧ ((s.law.eng[e].lastTrig = none ∨ s.ranOut s.law.eng[e].lastTrig (500 * ns1) = true)) ∧ (s.lawWanted e = .run ∨ s.lawWanted e = .track) ∧ s.lawDue e) ∧
    (∃ (e : Fin 20) (s : State), s.runs .ctl = true ∧ s.law.eng[e].job.isSome = true ∧ (s.law.eng[e].run = .run ∨ s.law.eng[e].run = .track) ∧ s.lawDue e) ∧
    (∃ (e : Fin 20) (s : State) (j : _), s.runs .ctl = true ∧ s.law.eng[e].job = some j) ∧
    (∃ (s : State), s.runs .ctl = true ∧ s.sys.step ≠ 15) :=
  ⟨⟨19, (upState.setFld (F.LAW_CTL.en 19) 1).modEng 19 (fun g => { g with fresh := true }), by decide +kernel, rfl, .inl rfl, .inl (by decide +kernel), .inl (by decide +kernel)⟩,
    ⟨0, upState.modEng 0 (fun g => { g with run := .track, job := some job0, fresh := true }), rfl, rfl, .inr rfl, .inl (by decide +kernel)⟩,
    ⟨0, upState.modEng 0 (fun g => { g with job := some job0 }), job0, by decide +kernel⟩,
    ⟨upState, by decide +kernel⟩⟩

/-- Meets the hypotheses of every clause of Obligations.LawBanksComplete. -/
theorem witness_LawBanksComplete :
    (∃ (off : BitVec 20) (s : State), s.StoresWf ∧ s.runs .ctl = true ∧ 0x40000 ≤ off.toNat ∧ off.toNat < 0x45000 ∧ off.toNat % 4 = 0 ∧ s.sys.step ≠ 15 ∧ s.sys.lock = false ∧ ((∀ e : Fin 20, e.val = (off.toNat - 0x40000) / 0x400 → s.law.eng[e].commit = 0))) ∧
    (∃ (off : BitVec 20) (s : State) (e : Fin 20), s.runs .ctl = true ∧ 0x40000 ≤ off.toNat ∧ off.toNat % 4 = 0 ∧ s.sys.step ≠ 15 ∧ e.val = (off.toNat - 0x40000) / 0x400 ∧ s.law.eng[e].commit ≠ 0) ∧
    (∃ (e : Fin 20) (s : State), s.runs .ctl = true ∧ s.sys.step ≠ 15 ∧ s.sys.lock = false ∧ s.law.eng[e].commit = 0) ∧
    (∃ (e : Fin 20) (s : State), s.runs .ctl = true ∧ s.sys.step ≠ 15 ∧ s.sys.lock = false ∧ s.law.eng[e].commit ≠ 0) ∧
    (∃ (e : Fin 20) (s : State), s.StoresWf ∧ s.runs .ctl = true ∧ s.atTick = true ∧ s.law.eng[e].commit = 1 ∧ s.law.eng[e].commitAt < s.time ∧ s.law.eng[e].xf = none ∧ s.law.eng[e].job.any (fun j => j.xf.isSome) = false ∧ s.shadowClean e = true) ∧
    (∃ (e : Fin 20) (s : State), s.runs .ctl = true ∧ s.atTick = true ∧ s.law.eng[e].commit = 1 ∧ s.law.eng[e].commitAt < s.time ∧ s.law.eng[e].xf = none ∧ s.law.eng[e].job.any (fun j => j.xf.isSome) = false ∧ s.shadowClean e = false) ∧
    (∃ (e : Fin 20) (s : State), s.StoresWf ∧ s.runs .ctl = true ∧ s.law.eng[e].commit = 2) :=
  ⟨⟨0x44FFC, upState, wf_fresh, by decide +kernel⟩,
    ⟨0x40000, upState.modEng 0 (fun g => { g with commit := 1 }), 0, by decide +kernel⟩,
    ⟨0, upState, by decide +kernel⟩,
    ⟨0, upState.modEng 0 (fun g => { g with commit := 1 }), by decide +kernel⟩,
    ⟨0, { unitAt .solo 1 with tickAt := some 1, law := (upState.modEng 0 (fun g => { g with commit := 1 })).law }, ⟨rfl, by decide +kernel, rfl, rfl, rfl, rfl, rfl, rfl⟩, by decide +kernel⟩,
    ⟨0, { unitAt .solo 1 with tickAt := some 1, law := { (upState.modEng 0 (fun g => { g with commit := 1 })).law with shadow := [(12, 32)] } }, by decide +kernel⟩,
    ⟨19, upState.modEng 19 (fun g => { g with commit := 2 }), ⟨rfl, by decide +kernel, rfl, rfl, rfl, rfl, rfl, rfl⟩, by decide +kernel⟩⟩

/-- Meets the hypotheses of every clause of Obligations.PwmComplete. -/
theorem witness_PwmComplete :
    (∃ (j : Fin 24) (s : State) (t0 : _), s.ctlWorks = true ∧ (s.driven s.pwm.ph[j].rail).contains j = true ∧ s.periodDue s.pwm.ph[j].rail j = some t0 ∧ t0 ≤ s.time ∧ (((s.edgesTo j t0).railAdopt s.pwm.ph[j].rail).driven s.pwm.ph[j].rail).contains j = true) ∧
    (∃ (j : Fin 24) (s : State) (i : _) (rest : _), s.ctlWorks = true ∧ s.pwm.ph[j].asg = true ∧ s.pwm.ph[j].endOff = false ∧ s.pwm.ph[j].h = false ∧ s.pwm.ph[j].hIv = i :: rest ∧ i.a ≤ s.time ∧ s.time < i.b ∧ i.a + s.fld (F.RAIL_CFG.min_pulse s.pwm.ph[j].rail) * 64 ≤ i.b) ∧
    (∃ (j : Fin 24) (s : State) (i : _), s.ctlWorks = true ∧ s.pwm.ph[j].asg = true ∧ s.pwm.ph[j].endOff = false ∧ s.pwm.ph[j].h = true ∧ s.pwm.ph[j].hIv = [i] ∧ i.b ≤ s.time) ∧
    (∃ (j : Fin 24) (s : State), s.ctlWorks = true ∧ s.pwm.ph[j].asg = true ∧ (s.edgesTo j s.time).pwm.ph[j].h = true ∧ (s.edgesTo j s.time).pwm.ph[j].hEdge + s.fld (F.SNS_PH_CMP.cblank j) * 256 ≤ s.time) ∧
    (∃ (n : Fin 8) (s : State) (j : _), s.ctlWorks = true ∧ s.shedCond n = true ∧ s.pwm.rail[n].evalAt = some s.time ∧ s.ranOut s.pwm.rail[n].shedSince (s.fld (F.RAIL_DWELL.shed_dwell n) * us1) = true ∧ (s.pwm.rail[n].lastShed = none ∨ s.ranOut s.pwm.rail[n].lastShed (s.fld (F.RAIL_DWELL.shed_dwell n) * us1) = true) ∧ ((s.driven n).filter (fun j => s.pwm.ph[j].pstate = 5)).getLast? = some j) ∧
    (∃ (n : Fin 8) (s : State) (j : _), s.ctlWorks = true ∧ s.shedCond n = true ∧ s.pwm.rail[n].evalAt = some s.time ∧ s.ranOut s.pwm.rail[n].shedSince (s.fld (F.RAIL_DWELL.shed_dwell n) * us1) = true ∧ (s.pwm.rail[n].lastShed = none ∨ s.ranOut s.pwm.rail[n].lastShed (s.fld (F.RAIL_DWELL.shed_dwell n) * us1) = true) ∧ (s.driven n).filter (fun j => s.pwm.ph[j].pstate = 5) = [] ∧ ((s.driven n).filter (fun j => s.pwm.ph[j].pstate = 1)).getLast? = some j) ∧
    (∃ (n : Fin 8) (s : State) (j : _) (l : _), s.ctlWorks = true ∧ s.addCond n = true ∧ s.pwm.rail[n].evalAt = some s.time ∧ s.ranOut s.pwm.rail[n].addSince (s.fld (F.RAIL_DWELL.add_dwell n) * us1) = true ∧ (s.railPhases n).filter (fun j => s.pwm.ph[j].pstate = 2) = j :: l) ∧
    (∃ (j : Fin 24) (s : State) (a : _) (t0 : _), s.ctlWorks = true ∧ s.pwm.ph[j].asg = true ∧ s.pwm.ph[j].pstate = 1 ∧ s.pwm.ph[j].openSince = some a ∧ s.pwm.ph[j].t0 = some t0 ∧ a + s.fld (F.RAIL_PHF.ph_time s.pwm.ph[j].rail) * us1 ≤ t0 ∧ s.pwm.rail[s.pwm.ph[j].rail].sumBad = false) ∧
    (∃ (j : Fin 24) (s : State), s.ctlWorks = true ∧ s.pwm.ph[j].asg = true ∧ s.pwm.ph[j].pstate = 1 ∧ s.fld (F.RAIL_SNSF.stuck_cnt s.pwm.ph[j].rail) ≠ 0 ∧ (s.fld (F.RAIL_SNSF.stuck_cnt s.pwm.ph[j].rail) ≤ s.pwm.ph[j].sameRun ∨ s.fld (F.RAIL_SNSF.stuck_cnt s.pwm.ph[j].rail) ≤ s.pwm.ph[j].ovrRun)) ∧
    (∃ (n : Fin 8) (s : State) (j : _), s.ctlWorks = true ∧ s.fld (F.RAIL_SNSF.sum_n n) ≤ s.pwm.rail[n].sumRun ∧ s.pwm.rail[n].sumRun ≠ 0 ∧ s.farthest n = some j) ∧
    (∃ (j : Fin 24) (s : State) (a : _), s.runs .ctl = true ∧ s.atTick = true ∧ s.pwm.ph[j].heldAsg = some a ∧ s.asgOff a = true ∧ s.asgOff (s.pwm.ph[j].asg, s.pwm.ph[j].rail) = true) :=
  ⟨⟨23, (pwmRun 64).modPhase 23 (fun p => { p with t0 := some 0, tj := 64 }), 64, by decide +kernel⟩,
    ⟨23, (pwmRun 0).modPhase 23 (fun p => { p with hIv := [⟨0, 64000⟩] }), ⟨0, 64000⟩, [], by decide +kernel⟩,
    ⟨23, (pwmRun 64000).modPhase 23 (fun p => { p with h := true, hIv := [⟨0, 64000⟩] }), ⟨0, 64000⟩, by decide +kernel⟩,
    ⟨23, (pwmRun 1000000).modPhase 23 (fun p => { p with h := true, hIv := [⟨0, 2000000⟩] }), by decide +kernel⟩,
    ⟨7, shedState 5, 23, by decide +kernel⟩,
    ⟨7, shedState 1, 23, by decide +kernel⟩,
    ⟨7, addState, 23, [], by decide +kernel⟩,
    ⟨23, (pwmRun 0).modPhase 23 (fun p => { p with openSince := some 0, t0 := some (upState.fld (F.RAIL_PHF.ph_time 7) * us1) }), 0, upState.fld (F.RAIL_PHF.ph_time 7) * us1, by decide +kernel⟩,
    ⟨23, ((pwmRun 0).modPhase 23 (fun p => { p with sameRun := 1 })).setFld (F.RAIL_SNSF.stuck_cnt 7) 1, by decide +kernel⟩,
    ⟨7, ((pwmRun 0).modRail 7 (fun r => { r with sumRun := 1 })).setFld (F.RAIL_SNSF.sum_n 7) 1, 23, by decide +kernel⟩,
    ⟨23, { upState.modPhase 23 (fun p => { p with heldAsg := some (true, 7) }) with tickAt := some 0 }, (true, 7), by decide +kernel⟩⟩

/-- Meets the hypotheses of every clause of Obligations.RailsComplete. -/
theorem witness_RailsComplete :
    (∃ (n : Fin 8) (s : State), s.ctlWorks = true ∧ s.railOn n = true ∧ s.pwm.rail[n].state = 0) ∧
    (∃ (n : Fin 8) (s : State), s.ctlWorks = true ∧ s.railOn n = false ∧ (s.pwm.rail[n].state = 1 ∨ s.pwm.rail[n].state = 2 ∨ s.pwm.rail[n].state = 3)) ∧
    (∃ (n : Fin 8) (s : State), s.ctlWorks = true ∧ s.railOn n = false ∧ (s.pwm.rail[n].state = 5 ∨ s.pwm.rail[n].state = 6)) ∧
    (∃ (n : Fin 8) (s : State), s.ctlWorks = true ∧ s.railOn n = true ∧ s.bit (F.RAIL_CTL.pause n) = true ∧ (s.pwm.rail[n].state = 1 ∨ s.pwm.rail[n].state = 2)) ∧
    (∃ (n : Fin 8) (s : State), s.ctlWorks = true ∧ s.railOn n = true ∧ s.bit (F.RAIL_CTL.pause n) = false ∧ s.pwm.rail[n].state = 3) ∧
    (∃ (s : State) (n : Fin 8), s.ctlWorks = true ∧ s.pwm.rail[n].state = 1 ∧ s.fld (F.RAIL_TRK.mode n) = 0 ∧ s.pwm.rail[n].p + rdiv ((s.sfld (F.RAIL_VREF.target n) - s.pwm.rail[n].p) * (min (s.pwm.rail[n].rampUs + 1) (s.fld (F.RAIL_SS.ss_us n)) : Nat)) (s.fld (F.RAIL_SS.ss_us n)) ≠ s.sfld (F.RAIL_VREF.target n)) ∧
    (∃ (n : Fin 8) (s : State), s.ctlWorks = true ∧ s.pwm.rail[n].state = 1 ∧ s.fld (F.RAIL_SSFE.fe_time n) ≠ 0 ∧ s.fld (F.RAIL_SSFE.fe_time n) ≤ s.pwm.rail[n].feRun ∧ s.pwm.rail[n].h < s.fld (F.RAIL_SS.retries n)) ∧
    (∃ (n : Fin 8) (s : State), s.ctlWorks = true ∧ s.pwm.rail[n].state = 1 ∧ s.fld (F.RAIL_SSFE.fe_time n) ≠ 0 ∧ s.fld (F.RAIL_SSFE.fe_time n) ≤ s.pwm.rail[n].feRun ∧ s.fld (F.RAIL_SS.retries n) ≤ s.pwm.rail[n].h) ∧
    (∃ (n : Fin 8) (s : State), s.ctlWorks = true ∧ s.pwm.rail[n].state = 5 ∧ s.pwm.rail[n].hicEnd ≤ s.time ∧ s.railOn n = true) ∧
    (∃ (s : State), s.ctlWorks = true ∧ s.bit F.PWM_SYNC_CFG.in_en = true) ∧
    (∃ (s : State) (a : _), s.ctlWorks = true ∧ s.bit F.PWM_SYNC_CFG.in_en = true ∧ s.pwm.g.syncEdge = some a ∧ s.pwm.g.syncValid = false ∧ s.pwm.g.syncRun = 15 ∧ ((s.time - a : Nat) - (s.fld F.PWM_SYNC_NOM.nom : Int)).natAbs * 100 ≤ s.fld F.PWM_SYNC_CFG.win * s.fld F.PWM_SYNC_NOM.nom) ∧
    (∃ (s : State), s.ctlWorks = true ∧ s.pwm.g.syncValid = true ∧ s.ranOut s.pwm.g.syncEdge (3 * s.pwm.g.syncPer / 2) = true) ∧
    (∃ (period : Nat) (s : State), s.runs .ctl = true ∧ period ≠ 0) ∧
    (∃ (s : State), s.runs .ctl = true ∧ s.elapsed s.pwm.g.trackAt (100 * us1) = true) :=
  ⟨⟨7, railOnState 0, by decide +kernel⟩,
    ⟨7, upState.modRail 7 (fun r => { r with state := 3 }), by decide +kernel⟩,
    ⟨7, upState.modRail 7 (fun r => { r with state := 6 }), by decide +kernel⟩,
    ⟨7, (railOnState 2).setFld (F.RAIL_CTL.pause 7) 1, by decide +kernel⟩,
    ⟨7, railOnState 3, by decide +kernel⟩,
    ⟨((railOnState 1).setFld (F.RAIL_VREF.target 7) 100).setFld (F.RAIL_SS.ss_us 7) 100, 7, by decide +kernel⟩,
    ⟨7, ((upState.modRail 7 (fun r => { r with state := 1, feRun := 1 })).setFld (F.RAIL_SSFE.fe_time 7) 1).setFld (F.RAIL_SS.retries 7) 1, by decide +kernel⟩,
    ⟨7, ((upState.modRail 7 (fun r => { r with state := 1, feRun := 1, h := 1 })).setFld (F.RAIL_SSFE.fe_time 7) 1).setFld (F.RAIL_SS.retries 7) 1, by decide +kernel⟩,
    ⟨7, railOnState 5, by decide +kernel⟩,
    ⟨upState.setFld F.PWM_SYNC_CFG.in_en 1, by decide +kernel⟩,
    ⟨syncState, 0, by decide +kernel⟩,
    ⟨{ unitAt .solo 150 with pwm := { Pwm.reset with g := { PwmGlobal.reset with syncValid := true, syncEdge := some 0, syncPer := 100 } } }, by decide +kernel⟩,
    ⟨1, upState, by decide +kernel⟩,
    ⟨unitAt .solo (100 * us1), by decide +kernel⟩⟩

/-- Meets the hypotheses of every clause of Obligations.HeadboxWritesComplete. -/
theorem witness_HeadboxWritesComplete :
    (∃ (s : State), s.runs .dsp = true ∧ s.sys.lock = false ∧ s.hbx.commit = 0) ∧
    (∃ (s : State), s.runs .dsp = true ∧ s.sys.lock = false ∧ s.hbx.commit ≠ 0) ∧
    (∃ (s : State), s.runs .dsp = true ∧ s.atTick = true ∧ s.hbx.commit = 1 ∧ s.hbx.commitAt < s.time ∧ curveFail s.stagedFld s.hbx.shadow = none) ∧
    (∃ (s : State) (i : _), s.runs .dsp = true ∧ s.atTick = true ∧ s.hbx.commit = 1 ∧ s.hbx.commitAt < s.time ∧ curveFail s.stagedFld s.hbx.shadow = some i) ∧
    (∃ (s : State), s.runs .dsp = true ∧ s.hbx.commit = 2) ∧
    (∃ (off : BitVec 20) (s : State), s.StoresWf ∧ s.runs .dsp = true ∧ s.sys.lock = false ∧ off.toNat % 4 = 0 ∧ 0x50000 ≤ off.toNat ∧ off.toNat < 0x50A00 ∧ s.bit F.HBX_CTL.view = false ∧ s.hbx.commit = 0) ∧
    (∃ (s : State), s.runs .dsp = true) ∧
    (∃ (s : State), s.runs .dsp = true) :=
  ⟨⟨upState, by decide +kernel⟩,
    ⟨{ upState with hbx := { Hbx.reset with commit := 1 } }, by decide +kernel⟩,
    ⟨{ unitAt .solo 1 with tickAt := some 1, hbx := { Hbx.reset with commit := 1 } }, by decide +kernel⟩,
    ⟨{ unitAt .solo 1 with tickAt := some 1, hbx := { Hbx.reset with commit := 1 }, regs := { Regs.reset with staged := [(0x14400, 0x80000000)] } }, 0, by decide +kernel⟩,
    ⟨{ upState with hbx := { Hbx.reset with commit := 2 } }, by decide +kernel⟩,
    ⟨0x509FC, upState, wf_fresh, by decide +kernel⟩,
    ⟨upState, by decide +kernel⟩,
    ⟨upState, by decide +kernel⟩⟩

/-- Meets the hypotheses of every clause of Obligations.BatteryComplete. -/
theorem witness_BatteryComplete :
    (∃ (s : State), s.batWorks = true ∧ s.sns.running = true ∧ s.atTick = true ∧ s.tick % 50 = 0 ∧ s.bat.strobeTick ≠ some s.tick) ∧
    (∃ (i : Fin 8) (s : State) (z : _), s.batWorks = true ∧ s.bat.str[i].zd = some z ∧ z.vs.length = 8 ∧ ¬s.zRejects i true z.tAt z.sAt (rdiv (-(rdiv (sumI z.vs) 8 - z.vPost) * 10000) z.dI)) ∧
    (∃ (i : Fin 8) (s : State) (z : _), s.batWorks = true ∧ s.bat.str[i].zd = some z ∧ z.vs.length = 8 ∧ s.zRejects i true z.tAt z.sAt (rdiv (-(rdiv (sumI z.vs) 8 - z.vPost) * 10000) z.dI)) ∧
    (∃ (i : Fin 8) (s : State) (c : _), s.batWorks = true ∧ s.bat.enSeen[i] = true ∧ s.bat.str[i].changeDue = true ∧ s.bat.str[i].present = false ∧ s.bat.str[i].newKey = some c ∧ anyFin 8 (fun k => decide (k < i) && s.bat.str[k].changeDue && s.bat.str[k].newKey.isSome && s.bat.str[k].newKey == s.bat.str[i].newKey) = false) ∧
    (∃ (i : Fin 8) (s : State), s.batWorks = true ∧ s.bat.enSeen[i] = true ∧ s.bat.str[i].changeDue = true ∧ s.bat.str[i].present = true ∧ s.bat.str[i].newKey = none) ∧
    (∃ (s : State), s.batWorks = true ∧ s.bat.blockDue = true) ∧
    (∃ (i : Fin 8) (s : State), s.batWorks = true ∧ s.bat.str[i].eodDue = true) ∧
    (∃ (i : Fin 8) (s : State), s.batWorks = true ∧ s.bat.str[i].eocDue = true) ∧
    (∃ (s : State), s.batWorks = true ∧ s.bat.secDue = true) ∧
    (∃ (s : State), s.batWorks = true ∧ nextMul s.bat.hourAt opHour ≤ s.opTime) ∧
    (∃ (s : State), s.batWorks = true ∧ nextMul s.bat.ageAt (4 * opHour) ≤ s.opTime) ∧
    (∃ (i : Fin 8) (s : State), s.runs .bat = true ∧ s.bit (F.BAT_CTL.en i) = true ∧ s.bat.enSeen[i] = false ∧ s.tableBad = none) ∧
    (∃ (i : Fin 8) (s : State) (k : _), s.runs .bat = true ∧ s.bit (F.BAT_CTL.en i) = true ∧ s.bat.enSeen[i] = false ∧ s.tableBad = some k) ∧
    (∃ (i : Fin 8) (s : State), s.runs .bat = true ∧ s.bit (F.BAT_CTL.en i) = false ∧ s.bat.enSeen[i] = true) ∧
    (∃ (i : Fin 8) (s : State), s.batWorks = true ∧ s.bat.enSeen[i] = true ∧ s.bat.str[i].present = true) :=
  ⟨⟨snsRun { upState with tickAt := some 0 }, by decide +kernel⟩,
    ⟨7, { upState with bat := { Bat.reset with ageTicks := 255, str := modAt Bat.reset.str 7 (fun b => { b with zd := some ⟨0, 1, 1, 0, 0, 0, List.replicate 8 0⟩ }) } }, ⟨0, 1, 1, 0, 0, 0, List.replicate 8 0⟩, rfl, rfl, rfl, (by unfold State.zRejects; decide +kernel)⟩,
    ⟨7, upState.modStr 7 (fun b => { b with zd := some ⟨0, 1, 0, 0, 0, 0, List.replicate 8 0⟩ }), ⟨0, 1, 0, 0, 0, 0, List.replicate 8 0⟩, rfl, rfl, rfl, (by unfold State.zRejects; decide +kernel)⟩,
    ⟨7, strOn (fun b => { b with changeDue := true, newKey := some 15 }), 15, by decide +kernel⟩,
    ⟨7, strOn (fun b => { b with changeDue := true, present := true }), by decide +kernel⟩,
    ⟨{ upState with bat := { Bat.reset with blockDue := true } }, by decide +kernel⟩,
    ⟨7, upState.modStr 7 (fun b => { b with eodDue := true }), by decide +kernel⟩,
    ⟨7, upState.modStr 7 (fun b => { b with eocDue := true }), by decide +kernel⟩,
    ⟨{ upState with bat := { Bat.reset with secDue := true } }, by decide +kernel⟩,
    ⟨hours 1, by decide +kernel⟩,
    ⟨hours 4, by decide +kernel⟩,
    ⟨7, { upState with bat := { Bat.reset with tmpl := fullTable, ocv := Vector.ofFn (fun i => (i.val : Int)) } }.setFld (F.BAT_CTL.en 7) 1, by decide +kernel⟩,
    ⟨7, upState.setFld (F.BAT_CTL.en 7) 1, 0, by decide +kernel⟩,
    ⟨7, strOn id, by decide +kernel⟩,
    ⟨7, strOn (fun b => { b with present := true }), by decide +kernel⟩⟩

/-- Meets the hypotheses of every clause of Obligations.SlotLinksComplete. -/
theorem witness_SlotLinksComplete :
    (∃ (k : Fin 32) (f : Frame) (s : State), s.works = true ∧ s.runs .lnk = true ∧ s.bit (F.SLT_CFG.en k) = true ∧ frameValid (s.uplinkSeen k f) = true) ∧
    (∃ (k : Fin 32) (f : Frame) (s : State), s.works = true ∧ s.runs .lnk = true ∧ s.bit (F.SLT_CFG.en k) = true ∧ frameValid (s.uplinkSeen k f) = false) ∧
    (∃ (k : Fin 32) (s : State), s.works = true ∧ s.runs .lnk = true ∧ (s.slt[k].lstate = 2 ∨ s.slt[k].lstate = 3) ∧ s.ranOut s.slt[k].last (15500 * ns1) = true) ∧
    (∃ (k : Fin 32) (s : State), s.runs .lnk = true ∧ (s.slt[k].lstate = 2 ∨ s.slt[k].lstate = 3)) ∧
    (∃ (k : Fin 32) (s : State), s.runs .lnk = true ∧ s.slt[k].lstate = 2 ∧ s.slt[k].mbx.stalled = true) ∧
    (∃ (k : Fin 32) (tag : Fin 4) (s : State) (q : _), s.runs .lnk = true ∧ s.slt[k].fw = none ∧ q ∈ s.slt[k].req ∧ q.tag = tag ∧ q.at_ + s.fld (F.SLT_CFG.mb_to k) * ms1 ≤ s.time) ∧
    (∃ (f : Frame), frameValid f = true) ∧
    (∃ (k : Fin 32) (s : State) (c : _), s.slot[k].pend = some c) ∧
    (∃ (k : Fin 32) (p : Port) (s : State), s.ranOut s.slot[k].port[p].last (15500 * ns1) = true) ∧
    (∃ (k : Fin 32) (s : State) (a : _), s.slot[k].run = .normal ∧ s.slot[k].last = some a ∧ a + 15500 * ns1 < s.time) ∧
    (∃ (k : Fin 32) (s : State) (a : _), s.slot[k].run = .hold ∧ s.slot[k].last = some a ∧ a + (15500 + 5000 * s.slot[k].hold) * ns1 < s.time) ∧
    (∃ (s : State), s.runs .ctl = true ∧ s.tickAt.isSome = true ∧ gridDue s.red.wordNext (800 * ns1) s.time = s.time) ∧
    (∃ (w : ClmWord), w.syncOk = true ∧ w.cellsOk = true ∧ crc4 w.claim = w.crc.toNat) ∧
    (∃ (j : Fin 24) (p : Port) (s : State), s.ranOut s.stage[j].last[p] (3200 * ns1) = true) :=
  ⟨⟨31, frameOk, upState.setFld (F.SLT_CFG.en 31) 1, by decide +kernel⟩,
    ⟨31, { frameOk with syncOk := false }, upState.setFld (F.SLT_CFG.en 31) 1, by decide +kernel⟩,
    ⟨31, (unitAt .solo 992000).modSlt 31 (fun l => { l with lstate := 2, last := some 0 }), by decide +kernel⟩,
    ⟨31, upState.modSlt 31 (fun l => { l with lstate := 3 }), by decide +kernel⟩,
    ⟨31, upState.modSlt 31 (fun l => { l with lstate := 2, mbx := { Mbx.zero with unack := [(0, ⟨Vector.replicate 4 0, true, true, 4⟩)], frames := 6 } }), by decide +kernel⟩,
    ⟨31, 3, (unitAt .solo (upState.fld (F.SLT_CFG.mb_to 31) * ms1)).modSlt 31 (fun l => { l with req := [⟨3, none, 0⟩] }), ⟨3, none, 0⟩, by decide +kernel⟩,
    ⟨frameOk, by decide +kernel⟩,
    ⟨31, upState.modSlot 31 (fun l => { l with pend := some ⟨1, 2, 3, 4, 0⟩ }), ⟨1, 2, 3, 4, 0⟩, by decide +kernel⟩,
    ⟨31, 1, (unitAt .solo 992000).modSlot 31 (fun l => { l with port := Vector.replicate 2 { SlotPort.reset with last := some 0 } }), by decide +kernel⟩,
    ⟨31, (unitAt .solo 992001).modSlot 31 (fun l => { l with run := .normal, last := some 0 }), 0, by decide +kernel⟩,
    ⟨31, (unitAt .solo 1312001).modSlot 31 (fun l => { l with run := .hold, hold := 1, last := some 0 }), 0, by decide +kernel⟩,
    ⟨{ upState with tickAt := some 0 }, by decide +kernel⟩,
    ⟨⟨true, true, 0xCB, 1⟩, by decide +kernel⟩,
    ⟨23, 1, (unitAt .solo 204800).modStage 23 (fun g => { g with last := Vector.replicate 2 (some 0) }), by decide +kernel⟩⟩

/-- Meets the hypotheses of every clause of Obligations.RolesComplete. -/
theorem witness_RolesComplete :
    (∃ (s : State), s.aon.vaon = true ∧ s.ballArbiter = false ∧ s.aon.pinLow = false ∧ s.aon.demoted = false ∧ s.sys.role ≠ .undecided) ∧
    (∃ (s : State), s.aon.vaon = true ∧ s.ballArbiter = false ∧ s.aon.pinLow = true ∧ s.aon.bcnLow = false) ∧
    (∃ (s : State), s.aon.vaon = true ∧ s.ballArbiter = false ∧ s.sys.role = .standby ∧ s.strap = .pair ∧ s.aon.demoted = false ∧ s.red.ready = true ∧ s.otp.live.denyActive = false ∧ s.otp.live.unitFix ≠ 3) ∧
    (∃ (s : State), s.aon.vaon = true ∧ s.ballArbiter = false ∧ s.hbWanted ≠ s.aon.hb ∧ ((s.hbWanted ≠ 0 → s.hbEdgeFrom (if s.aon.hb = 2 ∧ s.hbWanted = 1 then max s.time (s.aon.hbAt + 16 * us1) else s.time) ≤ s.time))) ∧
    (∃ (i : StrobeIsland) (s : State), s.aon.vaon = true ∧ s.works = true ∧ s.elapsed s.aon.strobe[strobeIdx i] (12 * us1) = true) ∧
    (∃ (s : State), s.aon.vaon = true ∧ s.sys.mgmtRestart = false ∧ s.elapsed s.aon.liveAt (s.fld F.RED_HB.fw_ms * ms1) = true) ∧
    (∃ (s : State), s.aon.vaon = true ∧ s.sys.step ≠ 15) :=
  ⟨⟨upState, by decide +kernel⟩,
    ⟨upState.modAon (fun a => { a with pinLow := true }), by decide +kernel⟩,
    ⟨{ unitAt .standby 0 with red := { Red.reset with ready := true }, otp := { Otp.reset with live := { Live.failure with denyActive := false, unitFix := 0 } } }, by decide +kernel⟩,
    ⟨upState, by decide +kernel⟩,
    ⟨.lnk, unitAt .solo (12 * us1), by decide +kernel⟩,
    ⟨unitAt .solo (upState.fld F.RED_HB.fw_ms * ms1), by decide +kernel⟩,
    ⟨upState, by decide +kernel⟩⟩

/-- Meets the hypotheses of every clause of Obligations.ArbiterComplete. -/
theorem witness_ArbiterComplete :
    (∃ (x : Fin 2) (s : State), s.arbitrates = true ∧ s.arb.u[x].seen = false) ∧
    (∃ (x : Fin 2) (s : State), s.arbitrates = true ∧ s.arb.u[x].seen = true ∧ 16 ≤ (s.time - s.arb.u[x].edge + 1600) / 3200 ∧ (s.time - s.arb.u[x].edge + 1600) / 3200 ≤ 24 ∧ 7 ≤ s.arb.u[x].nH) ∧
    (∃ (x : Fin 2) (s : State), s.arbitrates = true ∧ s.elapsed s.arb.u[x].edge (4250 * ns1) = true) ∧
    (∃ (s : State) (y : _) (a : _), s.arbitrates = true ∧ s.arb.deferred = some (y, a) ∧ a ≤ s.time ∧ s.callTake (otherUnit y) = true) ∧
    (∃ (s : State) (y : _) (a : _), s.arbitrates = true ∧ s.arb.deferred = some (y, a) ∧ a ≤ s.time ∧ s.callTake (otherUnit y) = false) ∧
    (∃ (s : State) (x : Fin 2), s.arbitrates = true ∧ s.arb.u[x].take = true ∧ s.ranOut s.arb.u[x].takeAt (2 * us1) = true) ∧
    (∃ (x : Fin 2) (s : State), s.arbitrates = true ∧ s.ranOut s.arb.u[x].demote (100 * us1) = true ∧ s.ranOut s.arb.u[x].healthySince (s.fld F.RED_ARB.hold_us * us1) = true) :=
  ⟨⟨1, unitAt .arbiter 0, by decide +kernel⟩,
    ⟨1, (unitAt .arbiter 49600).modArb 1 (fun u => { u with seen := true, nH := 7 }), by decide +kernel⟩,
    ⟨1, unitAt .arbiter (4250 * ns1), by decide +kernel⟩,
    ⟨(({ unitAt .arbiter 0 with arb := { Arb.reset with deferred := some (0, 0) } }).modArb 1 (fun u => { u with cls := .dead })).modArb 0 (fun u => { u with cls := .healthy }), 0, 0, by decide +kernel⟩,
    ⟨{ unitAt .arbiter 0 with arb := { Arb.reset with deferred := some (0, 0) } }, 0, 0, by decide +kernel⟩,
    ⟨(unitAt .arbiter (2 * us1)).modArb 1 (fun u => { u with take := true, takeAt := some 0 }), 1, by decide +kernel⟩,
    ⟨1, (unitAt .arbiter (max (100 * us1) (upState.fld F.RED_ARB.hold_us * us1))).modArb 1 (fun u => { u with demote := some 0, healthySince := some 0 }), by decide +kernel⟩⟩

/-- Meets the hypotheses of every clause of Obligations.ChezonComplete. -/
theorem witness_ChezonComplete :
    (∃ (p : ChezonPacket) (s : State), s.runs .per = true ∧ s.linkOn = true ∧ p.crcOk = true) ∧
    (∃ (s : State), s.runs .per = true ∧ s.red.link = .train) ∧
    (∃ (s : State), s.runs .per = true ∧ s.red.link = .train) ∧
    (∃ (s : State), s.runs .per = true ∧ s.red.link = .train) ∧
    (∃ (s : State), s.runs .per = true ∧ s.red.link = .train) ∧
    (∃ (s : State), s.runs .per = true ∧ s.red.link = .up) ∧
    (∃ (s : State), s.runs .per = true ∧ s.linkOn = true ∧ s.elapsed s.red.pktAt (20 * us1) = true) ∧
    (∃ (s : State), s.runs .per = true ∧ s.red.link = .down ∧ s.strap = .pair ∧ 7 ≤ s.sys.step ∧ s.sys.step ≤ 10) ∧
    (∃ (s : State), s.runs .per = true ∧ s.linkOn = true) ∧
    (∃ (s : State), s.runs .per = true ∧ s.linkOn = true ∧ s.sys.role = .standby) ∧
    (∃ (s : State), s.runs .per = true ∧ s.sys.role = .active ∧ s.atTick = true ∧ s.tick % s.snapTicks = 0 ∧ s.red.out.all (fun o => o.tick != s.tick % 2 ^ 32) = true) ∧
    (∃ (b : Snapshot) (c : Bool) (s : State), s.runs .per = true ∧ s.linkOn = true ∧ s.sys.role = .standby ∧ s.snapOk b c = false) ∧
    (∃ (b : Snapshot) (c : Bool) (s : State), s.runs .per = true ∧ s.linkOn = true ∧ s.sys.role = .standby ∧ s.snapOk b c = true) ∧
    (∃ (s : State), s.runs .per = true ∧ s.sys.role = .standby ∧ s.linkOn = false ∧ s.ranOut s.red.downAt (s.fld F.RED_SBY.keep_ms * ms1 + 1) = true) ∧
    (∃ (s : State), s.runs .mgt = true ∧ s.sys.lone = true ∧ s.sys.role = .active ∧ s.ranOut s.sys.peerHiSince ms1 = true) ∧
    (∃ (s : State), s.runs .hst = true ∧ s.sys.step ≠ 15 ∧ s.drillRefusal = 0) ∧
    (∃ (s : State), s.runs .hst = true ∧ s.sys.step ≠ 15 ∧ s.drillRefusal ≠ 0) ∧
    (∃ (s : State), s.runs .per = true ∧ s.decided = true ∧ s.fld F.RED_DRILL.days ≠ 0 ∧ s.red.drillOpt + s.fld F.RED_DRILL.days * 24 * opHour ≤ s.opTime ∧ s.red.drillReq = none ∧ s.drillRefusal = 0) ∧
    (∃ (s : State) (f : _), s.runs .per = true ∧ s.red.drill = some ⟨2, f⟩ ∧ f + s.fld F.RED_DRILL.fb_ms * ms1 ≤ s.time) :=
  ⟨⟨⟨true, 0, none, none⟩, chez .standby .up 0, by decide +kernel⟩,
    ⟨chez .standby .train 0, by decide +kernel⟩,
    ⟨chez .standby .train 0, by decide +kernel⟩,
    ⟨chez .standby .train 0, by decide +kernel⟩,
    ⟨chez .active .train 0, by decide +kernel⟩,
    ⟨chez .active .up 0, by decide +kernel⟩,
    ⟨chez .active .oneLane (20 * us1), by decide +kernel⟩,
    ⟨chez .active .down 0, by decide +kernel⟩,
    ⟨chez .active .up 0, by decide +kernel⟩,
    ⟨chez .standby .up 0, by decide +kernel⟩,
    ⟨{ chez .active .oneLane 0 with tickAt := some 0 }, by decide +kernel⟩,
    ⟨snap0, false, chez .standby .up 0, by decide +kernel⟩,
    ⟨{ snap0 with claim := 0xC0 }, true, chez .standby .up 0, by decide +kernel⟩,
    ⟨(chez .standby .down (upState.fld F.RED_SBY.keep_ms * ms1 + 1)).modRed (fun r => { r with downAt := some 0 }), by decide +kernel⟩,
    ⟨{ chez .active .down ms1 with sys := { upState.sys with role := .active, lone := true, peerHiSince := some 0 } }, by decide +kernel⟩,
    ⟨drillable 0, by decide +kernel⟩,
    ⟨unitAt .standby 0, by decide +kernel⟩,
    ⟨(drillable (24 * opHour * 62500000)).setFld F.RED_DRILL.days 1, by decide +kernel⟩,
    ⟨(chez .standby .up (upState.fld F.RED_DRILL.fb_ms * ms1)).modRed (fun r => { r with drill := some ⟨2, 0⟩ }), 0, by decide +kernel⟩⟩

/-- Meets the hypotheses of every clause of Obligations.SequencerComplete. -/
theorem witness_SequencerComplete :
    (∃ (s : State) (k : _), s.works = true ∧ s.runs .sup = true ∧ s.drives = true ∧ s.nodeEn k = true ∧ s.seq.n[k].st = .rising ∧ s.seq.n[k].pg = true ∧ s.seq.n[k].dset = none ∧ s.seq.st ≠ 4) ∧
    (∃ (s : State), s.works = true ∧ s.runs .sup = true ∧ s.drives = false) ∧
    (∃ (k : Fin 72) (s : State), s.seqRuns = true ∧ s.drives = true ∧ s.nodeEn k = true ∧ s.seq.n[k].st = .wait ∧ s.shutting k = false ∧ s.ranOut s.seq.n[k].dly (s.fld (F.SEQ_N_DLY.on_dly k) * us1) = true) ∧
    (∃ (k : Fin 72) (s : State), s.seqRuns = true ∧ s.drives = true ∧ s.nodeEn k = true ∧ s.seq.n[k].st = .settle ∧ s.seq.n[k].pg = true ∧ s.shutting k = false ∧ s.elapsed s.seq.n[k].settle (s.fld (F.SEQ_N_TIM.settle_us k) * us1) = true) ∧
    (∃ (k : Fin 72) (s : State), s.seqRuns = true ∧ s.drives = true ∧ s.nodeEn k = true ∧ s.seq.n[k].st = .rising ∧ s.shutting k = false ∧ s.elapsed s.seq.n[k].rise (s.fld (F.SEQ_N_TIM.rise_to k) * 100 * us1) = true) ∧
    (∃ (k : Fin 72) (s : State), s.seqRuns = true ∧ s.drives = true ∧ s.shutting k = true ∧ s.seq.n[k].st = .up ∧ s.depsOff k = true ∧ s.ranOut s.seq.n[k].dly (s.fld (F.SEQ_N_DLY.off_dly k) * us1) = true) ∧
    (∃ (k : Fin 72) (s : State), s.seqRuns = true ∧ s.drives = true ∧ s.nodeEn k = true ∧ s.seq.n[k].st = .falling ∧ s.seq.n[k].off = false ∧ s.elapsed s.seq.n[k].fall ((s.seq.n[k].fallCnt + 1) * s.fld (F.SEQ_N_FALL.fall_to k) * 100 * us1) = true) ∧
    (∃ (k : Fin 72) (s : State), s.works = true ∧ s.runs .sup = true ∧ s.seq.n[k].due = true ∧ s.drives = false) ∧
    (∃ (k : Fin 72) (s : State), s.works = true ∧ s.runs .sup = true ∧ s.seq.n[k].due = true ∧ s.drives = true ∧ s.nodeEn k = true ∧ s.seq.n[k].st = .rising ∧ s.seq.n[k].pg = false ∧ s.fld (F.SEQ_N_CFG.dbc k) ≤ s.seq.n[k].pgRun ∧ s.seq.n[k].chat + 1 ≤ s.fld F.SEQ_CFG.chatter_max) ∧
    (∃ (s : State), s.seqRuns = true ∧ s.drives = true ∧ s.seq.st ≤ 3 ∧ s.restartOk = true) ∧
    (∃ (s : State), s.seqRuns = true ∧ s.drives = true ∧ (3 < s.seq.st ∨ s.restartOk = false)) ∧
    (∃ (s : State), s.seqRuns = true ∧ s.drives = true ∧ s.seq.st ≠ 4 ∧ s.seq.st ≠ 6) ∧
    (∃ (s : State), s.seqRuns = true ∧ s.drives = true ∧ (s.seq.st = 2 ∨ s.seq.st = 3)) ∧
    (∃ (s : State), s.seqRuns = true ∧ s.drives = true) ∧
    (∃ (s : State), s.works = true ∧ s.runs .sup = true ∧ s.seq.st = 6 ∧ s.drives = true) ∧
    (∃ (s : State), s.seqRuns = true ∧ s.drives = true ∧ s.restartOk = true ∧ s.seq.st = 5 ∧ s.vat.hu = false) :=
  ⟨⟨node (fun n => { n with st := .rising, pg := true }) 0, 71, by decide +kernel⟩,
    ⟨unitAt .standby 0, by decide +kernel⟩,
    ⟨71, node (fun n => { n with st := .wait, dly := some 0 }) (upState.fld (F.SEQ_N_DLY.on_dly 71) * us1), by decide +kernel⟩,
    ⟨71, node (fun n => { n with st := .settle, pg := true }) (upState.fld (F.SEQ_N_TIM.settle_us 71) * us1), by decide +kernel⟩,
    ⟨71, node (fun n => { n with st := .rising }) (upState.fld (F.SEQ_N_TIM.rise_to 71) * 100 * us1), by decide +kernel⟩,
    ⟨71, let s := node (fun n => { n with st := .up, dly := some 0 }) (upState.fld (F.SEQ_N_DLY.off_dly 71) * us1); { s with seq := { s.seq with st := 4 } }, by decide +kernel⟩,
    ⟨71, node (fun n => { n with st := .falling }) (upState.fld (F.SEQ_N_FALL.fall_to 71) * 100 * us1), by decide +kernel⟩,
    ⟨71, (unitAt .standby 0).modNode 71 (fun n => { n with due := true }), by decide +kernel⟩,
    ⟨71, (node (fun n => { n with st := .rising, due := true, pgRun := 255 }) 0).setFld F.SEQ_CFG.chatter_max 1, by decide +kernel⟩,
    ⟨upState, by decide +kernel⟩,
    ⟨(seqSt 0).setFld F.SEQ_RSDLY.ms 1, by decide +kernel⟩,
    ⟨seqSt 2, by decide +kernel⟩,
    ⟨seqSt 3, by decide +kernel⟩,
    ⟨upState, by decide +kernel⟩,
    ⟨seqSt 6, by decide +kernel⟩,
    ⟨{ seqSt 5 with time := upState.fld F.SEQ_RSDLY.ms * ms1 }, by decide +kernel⟩⟩

/-- Meets the hypotheses of every clause of Obligations.ThermalComplete. -/
theorem witness_ThermalComplete :
    (∃ (s : State) (k : Fin 32) (q : Fin 48), s.watches = true ∧ q.val = k.val) ∧
    (∃ (k : Fin 48) (s : State), s.watches = true ∧ s.thm.s[k].broken = true ∧ s.thm.s[k].restDue = true) ∧
    (∃ (q : Fin 16) (s : State) (k : Fin 48), s.watches = true ∧ s.sys.role ≠ .arbiter ∧ k.val = 32 + q.val ∧ s.fld (F.THM_S_CFG.src k) = 0) ∧
    (∃ (s : State) (k : Fin 48), s.watches = true ∧ s.thm.s[k].num ≠ 0) ∧
    (∃ (s : State), s.aon.vaon = true ∧ s.aon.transport = false) ∧
    (∃ (s : State) (k : _) (l : _), finsWhere 32 (fun k => decide (2 ≤ s.aon.gateHot[k])) = k :: l ∧ s.aon.vaon = true ∧ s.aon.transport = false ∧ s.aon.sd = false) ∧
    (∃ (s : State), s.aon.vaon = true ∧ s.aon.sd = true ∧ s.elapsed s.aon.sdAt us1 = true ∧ s.sys.inReset = false) ∧
    (∃ (s : State), s.aon.vaon = true ∧ s.aon.sd = true ∧ s.sys.inReset = true ∧ s.ranOut s.aon.coolSince (5 * sec1) = true) :=
  ⟨⟨upState.setFld F.THM_CTL.en 1, 31, 31, by decide +kernel⟩,
    ⟨47, (upState.modSensor 47 (fun x => { x with broken := true, restDue := true })).setFld F.THM_CTL.en 1, by decide +kernel⟩,
    ⟨15, upState.setFld F.THM_CTL.en 1, 47, by decide +kernel⟩,
    ⟨(upState.modSensor 47 (fun x => { x with num := 1 })).setFld F.THM_CTL.en 1, 47, by decide +kernel⟩,
    ⟨upState, by decide +kernel⟩,
    ⟨upState.modAon (fun a => { a with gateHot := modAt a.gateHot 31 (fun _ => 2) }), 31, [], by decide +kernel⟩,
    ⟨(unitAt .standby us1).modAon (fun a => { a with sd := true }), by decide +kernel⟩,
    ⟨{ State.reset with time := 5 * sec1, aon := { Aon.reset with sd := true, coolSince := some 0 } }, by decide +kernel⟩⟩

/-- Meets the hypotheses of every clause of Obligations.FuseComplete. -/
theorem witness_FuseComplete :
    (∃ (s : State), s.aon.vaon = true ∧ s.otp.latched = true ∧ s.otp.g5Done = false) ∧
    (∃ (s : State), s.runs .recI = true ∧ s.sys.step ≠ 15 ∧ (s.sys.mode = modeTest ∨ s.sys.mode = modeMaint)) ∧
    (∃ (s : State) (w : _), s.runs .recI = true ∧ s.sys.step ≠ 15 ∧ w = s.fld F.OTP_ADDR.word ∧ s.progRefusal w = 0) ∧
    (∃ (s : State) (w : _), s.runs .recI = true ∧ s.sys.step ≠ 15 ∧ w = s.fld F.OTP_ADDR.word ∧ s.progRefusal w ≠ 0) ∧
    (∃ (g : BitVec 3) (s : State), s.runs .recI = true ∧ s.sys.step ≠ 15 ∧ s.lockRefusal g.toNat = 0) ∧
    (∃ (g : BitVec 3) (s : State), s.runs .recI = true ∧ s.sys.step ≠ 15 ∧ s.lockRefusal g.toNat ≠ 0) ∧
    (∃ (s : State) (w : _), s.runs .recI = true ∧ s.sys.step ≠ 15 ∧ w = s.fld F.OTP_ADDR.word) ∧
    (∃ (s : State) (w : _), s.runs .recI = true ∧ s.sys.step ≠ 15 ∧ w = s.fld F.OTP_ADDR.word) ∧
    (∃ (s : State) (c : _), s.runs .recI = true ∧ s.otp.cmd = some c) ∧
    (∃ (s : State), s.runs .recI = true ∧ s.otp.cmd = none ∧ s.otp.rereadDue = false ∧ s.otp.rereadAt + 24 * opHour ≤ s.opTime) :=
  ⟨⟨{ upState with otp := { Otp.reset with latched := true } }, by decide +kernel⟩,
    ⟨{ upState with sys := { upState.sys with mode := 3 } }, by decide +kernel⟩,
    ⟨{ (upState.setFld F.OTP_ADDR.word 0xD7) with otp := { Otp.reset with arm := true } }, 0xD7, by decide +kernel⟩,
    ⟨upState, 0, by decide +kernel⟩,
    ⟨1, { upState with otp := { Otp.reset with arm := true, aN := cellPut 0 Otp.factory 0x79 (crcWord (fun _ => 0) 1), aM := cellPut 0 Otp.factory 0x79 (crcWord (fun _ => 0) 1) } }, by decide +kernel⟩,
    ⟨0, { upState with otp := { Otp.reset with arm := true } }, by decide +kernel⟩,
    ⟨upState, 0, by decide +kernel⟩,
    ⟨upState.setFld F.OTP_ADDR.word 0xD8, 0xD8, by decide +kernel⟩,
    ⟨{ upState with otp := { Otp.reset with cmd := some ⟨1, 0x72, 1, 0⟩ } }, ⟨1, 0x72, 1, 0⟩, by decide +kernel⟩,
    ⟨hours 24, by decide +kernel⟩⟩

/-- Meets the hypotheses of every clause of Obligations.StoreComplete. -/
theorem witness_StoreComplete :
    (∃ (s : State), s.runs .mgt = true ∧ s.nvp.commit = none ∧ s.nvp.held ≠ 0 ∧ s.aon.pf = false) ∧
    (∃ (s : State) (c : _), s.nvp.commit = some c ∧ s.nvp.stopped = false ∧ s.runs .recI = true) ∧
    (∃ (a : Word) (s : State), s.runs .mgt = true ∧ s.sys.step ≠ 15 ∧ a.getLsbD 31 = false ∧ bits a.toNat 19 3 < 32768) ∧
    (∃ (s : State), s.aon.vaon = true ∧ s.aon.pf = false) ∧
    (∃ (s : State), s.aon.pf = true ∧ s.aon.vaon = true ∧ s.aon.pfGood = true) ∧
    (∃ (s : State), s.runs .recI = true ∧ s.nvp.restoreDue = false ∧ s.nvp.hourAt + opHour ≤ s.opTime ∧ s.nvp.save = none) ∧
    (∃ (s : State), s.runs .recI = true ∧ s.nvp.restoreDue = false ∧ s.nvp.hourAt + opHour ≤ s.opTime ∧ s.nvp.save ≠ none) ∧
    (∃ (s : State), s.runs .recI = true ∧ s.sys.step ≠ 15 ∧ s.nvp.save = none) ∧
    (∃ (s : State) (v : _), s.nvp.save = some v ∧ v.slotDone = false ∧ v.image = true ∧ s.nvp.commit = none) ∧
    (∃ (s : State) (v : _), s.nvp.save = some v ∧ v.slotDone = false ∧ v.image = false ∧ s.nvp.commit = none ∧ s.nvp.recDue = none ∧ s.bbx.saveAgain = false) ∧
    (∃ (s : State) (v : _), s.nvp.save = some v ∧ v.slotDone = true ∧ v.image = true ∧ s.nvp.recDue = none ∧ s.bbx.saveAgain = false) ∧
    (∃ (s : State), s.sys.inReset = false ∧ s.nvp.restoreDue = true ∧ 4 ≤ s.sys.step) ∧
    (∃ (s : State), s.sys.inReset = false ∧ s.nvp.imageDue = true ∧ s.nvp.restoreDue = false ∧ 4 ≤ s.sys.step) ∧
    (∃ (s : State), s.runs .recI = true ∧ s.nvp.scrubAt + 24 * opHour ≤ s.opTime ∧ s.readFree = true) ∧
    (∃ (s : State), s.runs .recI = true ∧ s.sys.step ≠ 15 ∧ s.readFree = true) ∧
    (∃ (s : State), s.runs .recI = true ∧ s.sys.step ≠ 15 ∧ s.readFree = false) :=
  ⟨⟨{ upState with nvp := { Nvp.reset with buf := [(0, 5)] } }, by decide +kernel⟩,
    ⟨{ upState with nvp := { Nvp.reset with commit := some 0 } }, 0, by decide +kernel⟩,
    ⟨0x0003FFF8, upState, by decide +kernel⟩,
    ⟨upState, by decide +kernel⟩,
    ⟨upState.modAon (fun a => { a with pf := true, pfGood := true }), by decide +kernel⟩,
    ⟨hours 1, by decide +kernel⟩,
    ⟨(hours 1).modNvp (fun v => { v with save := some save0 }), by decide +kernel⟩,
    ⟨upState, by decide +kernel⟩,
    ⟨upState.modNvp (fun v => { v with save := some { save0 with image := true } }), { save0 with image := true }, by decide +kernel⟩,
    ⟨upState.modNvp (fun v => { v with save := some save0 }), save0, by decide +kernel⟩,
    ⟨upState.modNvp (fun v => { v with save := some { save0 with image := true, slotDone := true } }), { save0 with image := true, slotDone := true }, by decide +kernel⟩,
    ⟨upState, by decide +kernel⟩,
    ⟨upState.modNvp (fun v => { v with restoreDue := false }), by decide +kernel⟩,
    ⟨hours 24, by decide +kernel⟩,
    ⟨upState, by decide +kernel⟩,
    ⟨upState.modNvp (fun v => { v with save := some save0 }), by decide +kernel⟩⟩

/-- Meets the hypotheses of every clause of Obligations.BlackBoxComplete. -/
theorem witness_BlackBoxComplete :
    (∃ (s : State) (k : _) (e : _), s.runs .recI = true ∧ nextEvent s.chans.flight = some (k, e) ∧ s.bbx.queue.length < 64) ∧
    (∃ (s : State) (e : _) (q : _), s.bbx.queue = e :: q ∧ s.runs .recI = true ∧ s.bbx.op = none ∧ s.bbx.supRun = 0 ∧ (0 < s.bbx.tokens ∨ s.fld F.BBX_CFG.seal_sev ≤ s.evSev e)) ∧
    (∃ (s : State) (e : _) (q : _), s.bbx.queue = e :: q ∧ s.runs .recI = true ∧ s.bbx.op = none ∧ s.bbx.tokens ≤ 0 ∧ s.evSev e < s.fld F.BBX_CFG.seal_sev) ∧
    (∃ (s : State), s.runs .recI = true ∧ s.elapsed s.bbx.refillAt (1250 * us1) = true) ∧
    (∃ (s : State), s.runs .recI = true ∧ s.sns.running = true ∧ s.bbx.rowUs ≠ some (s.sns64 / 1000) ∧ s.trcRun = true) ∧
    (∃ (s : State) (r : _) (a : _), s.runs .recI = true ∧ s.bbx.post = some (r, a) ∧ a ≤ s.time) ∧
    (∃ (r : Fin 4) (s : State), s.runs .recI = true ∧ s.bbx.st.reams[r].st = 1 ∧ s.bbx.post = none) ∧
    (∃ (s : State), s.runs .recI = true ∧ s.sys.step ≠ 15 ∧ s.bbx.op = none ∧ s.bbx.supRun = 0) ∧
    (∃ (r : Fin 4) (o : BitVec 20) (s : State), s.runs .recI = true ∧ 0x80000 ≤ o.toNat ∧ o.toNat < 0x90000 ∧ s.bbx.st.reams[r].st = 2 ∧ s.bbx.st.reams[r].ptr < s.bbx.st.reams[r].total ∧ ptrPlace r s.bbx.st.reams[r].ptr = (s.fld F.BBX_PAGE.sel, (o.toNat - 0x80000) / 4 * 4)) ∧
    (∃ (s : State), s.runs .recI = true ∧ s.sys.step ≠ 15 ∧ s.bbx.lock = none) ∧
    (∃ (s : State), s.bbx.nvalid = true ∧ s.elapsed s.bbx.nonceAt (60 * sec1) = true) ∧
    (∃ (s : State), s.runs .recI = true ∧ s.sys.step ≠ 15 ∧ s.fld F.BBX_OP.op = 1 ∧ s.bbx.op = none ∧ s.bbx.lock = none ∧ s.openMode = true) ∧
    (∃ (s : State), s.runs .recI = true ∧ s.sys.step ≠ 15 ∧ s.fld F.BBX_OP.op ≠ 1 ∧ s.fld F.BBX_OP.op ≠ 2 ∧ s.bbx.op = none ∧ s.bbx.lock = none) ∧
    (∃ (s : State) (r : Fin 4), s.runs .recI = true ∧ s.sys.step ≠ 15 ∧ s.fld F.BBX_OP.op = 2 ∧ r.val = s.fld F.BBX_OP.ream % 4 ∧ s.bbx.op = none ∧ s.bbx.lock = none ∧ s.bbx.st.reams[r].st = 3 ∧ s.openMode = true) ∧
    (∃ (s : State), s.runs .recI = true ∧ s.sys.step ≠ 15 ∧ s.fld F.BBX_OP.op = 2 ∧ s.bbx.op = none ∧ s.bbx.lock ≠ none) ∧
    (∃ (s : State) (r : _), s.runs .recI = true ∧ s.bbx.op = some (1, r)) ∧
    (∃ (s : State) (r : _), s.runs .recI = true ∧ s.bbx.op = some (2, r)) ∧
    (∃ (s : State) (a : _), s.bbx.lock = some a ∧ a + 600 * 1024 ≤ s.opTime) :=
  ⟨⟨{ upState with chans := { Chans.reset with flight := [ev0] } }, 0, ev0, by decide +kernel⟩,
    ⟨upState.modBbx (fun b => { b with queue := [ev0] }), ev0, [], by decide +kernel⟩,
    ⟨(upState.modBbx (fun b => { b with queue := [ev0], tokens := 0 })).setFld F.BBX_CFG.seal_sev 9, ev0, [], by decide +kernel⟩,
    ⟨unitAt .solo (1250 * us1), by decide +kernel⟩,
    ⟨snsRun (unitAt .solo 64000), by decide +kernel⟩,
    ⟨upState.modBbx (fun b => { b with post := some (3, 0) }), 3, 0, by decide +kernel⟩,
    ⟨3, ream3 1 0, by decide +kernel⟩,
    ⟨upState, by decide +kernel⟩,
    ⟨3, 0x8403C, (ream3 2 4111).setFld F.BBX_PAGE.sel 19, by decide +kernel⟩,
    ⟨upState, by decide +kernel⟩,
    ⟨(unitAt .solo (60 * sec1)).modBbx (fun b => { b with nvalid := true }), by decide +kernel⟩,
    ⟨bbxAsk 1, by decide +kernel⟩,
    ⟨upState, by decide +kernel⟩,
    ⟨(bbxAsk 2).setFld F.BBX_OP.ream 3, 3, by decide +kernel⟩,
    ⟨(bbxAsk 2).modBbx (fun b => { b with lock := some 0 }), by decide +kernel⟩,
    ⟨upState.modBbx (fun b => { b with op := some (1, 0) }), 0, by decide +kernel⟩,
    ⟨upState.modBbx (fun b => { b with op := some (2, 3) }), 3, by decide +kernel⟩,
    ⟨{ unitAt .solo (600 * 1024 * 62500000) with bbx := { Bbx.reset with lock := some 0 } }, 0, by decide +kernel⟩⟩

/-- Meets the hypotheses of every clause of Obligations.UpdateComplete. -/
theorem witness_UpdateComplete :
    (∃ (s : State), s.runs .hst = true ∧ s.runs .mgt = true ∧ s.updMine = true ∧ s.upd.phase = 0 ∧ s.arbDrill = false) ∧
    (∃ (s : State), s.runs .hst = true ∧ s.runs .mgt = true ∧ s.upd.phase ≠ 0) ∧
    (∃ (s : State) (m : _) (off : _) (bytes : _) (pkg : _), s.runs .hst = true ∧ s.runs .mgt = true ∧ s.updMine = true ∧ s.upd.phase = 1 ∧ s.upd.ending = false ∧ s.upd.man = some m ∧ off = s.fld F.UPD_CHUNK.off ∧ s.upd.lastOff = some (off - 2048) ∧ 2048 ≤ off ∧ off < leAt s.upd.pkg 16 4 ∧ bytes = byteSlice s.updBuf 0 (min 2048 (leAt s.upd.pkg 16 4 - off)) ∧ pkg = s.upd.pkg ++ bytes ∧ ((∀ e, m.entries[s.upd.decoded]? = some e → pkg.length < e.poff + e.plen))) ∧
    (∃ (s : State), s.runs .hst = true ∧ s.runs .mgt = true ∧ s.upd.phase ≠ 1) ∧
    (∃ (s : State) (m : _), s.runs .hst = true ∧ s.runs .mgt = true ∧ s.updMine = true ∧ s.upd.phase = 1 ∧ s.upd.ending = false ∧ s.upd.man = some m ∧ m.plen ≤ s.upd.pkg.length ∧ s.hashFails m = none) ∧
    (∃ (s : State), s.runs .hst = true ∧ s.runs .mgt = true ∧ s.upd.phase ≠ 1) ∧
    (∃ (s : State), s.runs .mgt = true ∧ s.upd.phase = 1 ∧ s.upd.ending = true ∧ ((∀ k : Fin 32, s.slt[k].fw = none)) ∧ s.peerPrepared = true) ∧
    (∃ (s : State), s.runs .hst = true ∧ s.runs .mgt = true ∧ s.updMine = true ∧ s.sys.step ≠ 15 ∧ s.upd.phase = 2 ∧ s.upd.committing = false ∧ s.arbDrill = false ∧ s.manRefusal = 0) ∧
    (∃ (s : State), s.runs .hst = true ∧ s.runs .mgt = true ∧ s.updMine = true ∧ s.sys.step ≠ 15 ∧ s.upd.phase = 2 ∧ s.upd.committing = false ∧ s.arbDrill = false ∧ s.manRefusal ≠ 0) ∧
    (∃ (ok : Bool) (s : State) (m : _), s.upd.man = some m ∧ s.runs .mgt = true ∧ s.upd.phase = 2 ∧ s.upd.committing = true ∧ s.upd.ownWrite = false ∧ (s.strap ≠ .pair ∨ s.sys.role ≠ .active ∨ ok = true) ∧ (s.commitOwn m).rec1Waits = true) ∧
    (∃ (s : State) (m : _), s.upd.man = some m ∧ s.runs .mgt = true ∧ s.upd.phase = 2 ∧ s.upd.committing = true ∧ s.upd.ownWrite = true ∧ s.rec1Waits = false) ∧
    (∃ (s : State) (m : _), s.upd.man = some m ∧ s.runs .mgt = true ∧ s.upd.phase = 2 ∧ s.upd.committing = true ∧ s.upd.ownWrite = false ∧ s.strap = .pair ∧ s.sys.role = .active) ∧
    (∃ (s : State), s.runs .hst = true ∧ s.runs .mgt = true ∧ s.updMine = true ∧ s.sys.step ≠ 15 ∧ s.upd.phase = 3 ∧ s.arbDrill = false ∧ s.manRefusal = 0) ∧
    (∃ (s : State), s.mgtUp = true ∧ s.upd.phase = 4 ∧ s.vat.hu = false ∧ s.actMine = true ∧ s.upd.step = 0) ∧
    (∃ (s : State), s.runs .hst = true ∧ s.runs .mgt = true ∧ s.updMine = true ∧ (s.upd.phase = 1 ∨ s.upd.phase = 2)) ∧
    (∃ (s : State), s.runs .hst = true ∧ s.runs .mgt = true ∧ s.updMine = true ∧ (s.upd.phase = 3 ∨ s.upd.phase = 4 ∨ s.upd.phase = 5)) ∧
    (∃ (i : ImageCheck) (s : State), s.aon.vaon = true ∧ s.sys.inReset = false ∧ s.gated .mgt = false ∧ 6 < s.sys.step ∧ s.sys.step ≠ 15 ∧ s.upd.restartDue = true ∧ (s.upd.phase = 6 && s.strap = .pair && s.sys.role = .active && s.linkOn && !s.peerIdle) = false ∧ s.imageOk i = true) ∧
    (∃ (s : State), s.aon.vaon = true ∧ s.sys.mgmtRestart = true ∧ s.upd.restartDue = false) ∧
    (∃ (s : State) (a : _), s.upd.trialFrom = some a ∧ s.runs .mgt = true ∧ s.upd.phase = 5 ∧ s.actMine = true ∧ a + (s.fld F.UPD_TRIAL.ms * ms1 - s.upd.trialUsed) ≤ s.time) ∧
    (∃ (s : State), s.mgtUp = true ∧ s.rollbackCause ≠ 0 ∧ s.upd.phase ≠ 0) ∧
    (∃ (s : State) (q : _) (low : _), s.mgtUp = true ∧ s.rollbackCause ≠ 0 ∧ s.upd.phase = 0 ∧ s.red.peerSt = some q ∧ low = (if q.record.epoch < s.upd.rec1.epoch then q.record else s.upd.rec1)) ∧
    (∃ (k : Fin 32) (s : State) (a : _), s.upd.act = [(k, a, false)] ∧ s.runs .mgt = true ∧ s.upd.phase = 4 ∧ s.upd.todo = [] ∧ a + 30 * sec1 ≤ s.time) :=
  ⟨⟨upState, by decide +kernel⟩,
    ⟨updIn 5, by decide +kernel⟩,
    ⟨chunkState, man0, 2048, _, _, by decide +kernel, by decide +kernel, by decide +kernel, by decide +kernel, by decide +kernel, rfl, by decide +kernel, by decide +kernel, by decide +kernel, by decide +kernel, rfl, rfl, fun _ h => nomatch h⟩,
    ⟨upState, by decide +kernel⟩,
    ⟨(updIn 1).modUpd (fun u => { u with man := some man0 }), man0, by decide +kernel⟩,
    ⟨upState, by decide +kernel⟩,
    ⟨(updIn 1).modUpd (fun u => { u with ending := true }), by decide +kernel⟩,
    ⟨updIn 2, by decide +kernel⟩,
    ⟨(updIn 2).modUpd (fun u => { u with man := some man1 }), by decide +kernel⟩,
    ⟨true, (updIn 2).modUpd (fun u => { u with man := some man0, committing := true }), man0, by decide +kernel⟩,
    ⟨(updIn 2).modUpd (fun u => { u with man := some man0, committing := true, ownWrite := true }), man0, by decide +kernel⟩,
    ⟨(unitAt .active 0).modUpd (fun u => { u with phase := 2, man := some man0, committing := true }), man0, by decide +kernel⟩,
    ⟨updIn 3, by decide +kernel⟩,
    ⟨updIn 4, by decide +kernel⟩,
    ⟨updIn 2, by decide +kernel⟩,
    ⟨updIn 5, by decide +kernel⟩,
    ⟨⟨true, 0, true, false, 64⟩, { (updIn 4).modUpd (fun u => { u with restartDue := true }) with otp := { Otp.reset with live := { Live.failure with key := 0 } } }, by decide +kernel⟩,
    ⟨{ upState with sys := { upState.sys with mgmtRestart := true } }, by decide +kernel⟩,
    ⟨{ (updIn 5).modUpd (fun u => { u with trialFrom := some 0 }) with time := upState.fld F.UPD_TRIAL.ms * ms1 }, 0, by decide +kernel⟩,
    ⟨(chez .active .down 0).modUpd (fun u => { u with phase := 3 }), by decide +kernel⟩,
    ⟨{ (chez .active .up 0).modRed (fun r => { r with peer := 0xC1, peerSt := some { peerReady with record := { Rec1.zero with epoch := 1 } } }) with otp := { Otp.reset with live := { Live.failure with noPeer := false } } }, { peerReady with record := { Rec1.zero with epoch := 1 } }, _, by decide +kernel, by decide +kernel, rfl, rfl, rfl⟩,
    ⟨31, { (updIn 4).modUpd (fun u => { u with act := [(31, 0, false)] }) with time := 30 * sec1 }, 0, by decide +kernel⟩⟩

/-- Meets the hypotheses of every clause of Obligations.HostEndpointComplete. -/
theorem witness_HostEndpointComplete :
    (∃ (k : HstReset) (s : State), s.runs .hst = true ∧ k = .d3hotExit ∧ s.hst.d3hot = true) ∧
    (∃ (k : HstReset) (s : State), s.runs .hst = true ∧ k ≠ .d3hotExit) ∧
    (∃ (u : Bool) (s : State), s.runs .hst = true ∧ (u = false ∨ (s.sns.running = true ∧ s.elapsed s.sns.timeFrom (20 * ms1) = true))) ∧
    (∃ (r : Fin 4) (v : Word) (s : State) (q : Fin 8), q.val = r.val ∧ s.runs .hst = true ∧ s.ringOn q = true ∧ v.toNat % 65536 < s.ringSize q ∧ s.ringUsed q + (v.toNat % 65536 + s.ringSize q - s.hst.ring[q].tail % s.ringSize q) % s.ringSize q < s.ringSize q) ∧
    (∃ (r : Fin 4) (v : Word) (s : State) (q : Fin 8), q.val = r.val ∧ s.runs .hst = true ∧ s.ringOn q = true ∧ s.ringSize q ≤ v.toNat % 65536) ∧
    (∃ (r : Fin 4) (v : Word) (s : State) (q : Fin 8), q.val = 4 + r.val ∧ s.runs .hst = true ∧ s.ringOn q = true ∧ v.toNat % 65536 < s.ringSize q) ∧
    (∃ (r : Fin 4) (v : Word) (s : State) (q : Fin 8), q.val = 4 + r.val ∧ s.runs .hst = true ∧ s.ringOn q = true ∧ s.ringSize q ≤ v.toNat % 65536) ∧
    (∃ (r : Fin 4) (s : State) (q : Fin 8), q.val = r.val ∧ s.mgtUp = true ∧ s.hostUp = true ∧ s.ringOn q = true ∧ s.hst.ring[q].head ≠ s.hst.ring[q].tail ∧ s.hst.cmd[r] = none ∧ s.ringOn 4 = true ∧ s.cplFree ≠ 0 ∧ s.cmds.any Cmd.fence = false) ∧
    (∃ (r : Fin 4) (s : State) (c : _) (x : _), s.hst.cmd[r] = some c ∧ c.res = some x ∧ s.runs .hst = true ∧ s.runs .mgt = true ∧ s.hostUp = true) ∧
    (∃ (r : Fin 8) (s : State), s.hostUp = true ∧ s.ringOn r = true) ∧
    (∃ (r : Fin 8) (q : Fin 4) (s : State) (c : _), q.val = r.val ∧ s.hostUp = true ∧ s.ringOn r = true ∧ s.hst.cmd[q] = some c) ∧
    (∃ (s : State), s.runs .hst = true ∧ s.bit F.HST_TEL.en = true ∧ s.tick % 2 ^ 32 % s.telPeriod = 0 ∧ s.ranOut s.tickAt (3 * us1) = true ∧ s.hst.telTick ≠ some s.tick ∧ s.ringOn 6 = true ∧ s.telValues ≠ []) ∧
    (∃ (v : Fin 64) (s : State), s.runs .hst = true ∧ s.evt.vheld[v] = true ∧ s.vecModerated v = false ∧ s.vecMasked v = false ∧ s.hostUp = true) ∧
    (∃ (s : State), s.runs .mgt = true ∧ s.sys.step ≠ 15 ∧ (s.cleared 0x1004).count = 0) ∧
    (∃ (s : State), s.runs .mgt = true ∧ s.sys.step ≠ 15 ∧ (s.cleared 0x1004).count ≠ 0) ∧
    (∃ (s : State), s.runs .mgt = true ∧ s.sys.step ≠ 15) :=
  ⟨⟨.d3hotExit, upState.modHst (fun h => { h with d3hot := true }), by decide +kernel⟩,
    ⟨.flr, upState, by decide +kernel⟩,
    ⟨false, upState, by decide +kernel⟩,
    ⟨3, 15, rings, 3, by decide +kernel⟩,
    ⟨3, 16, rings, 3, by decide +kernel⟩,
    ⟨3, 15, rings, 7, by decide +kernel⟩,
    ⟨3, 16, rings, 7, by decide +kernel⟩,
    ⟨3, rings.modRing 3 (fun g => { g with tail := 1 }), 3, by decide +kernel⟩,
    ⟨3, inHand { cmdOf 1 [] 0 with res := some ⟨0, [], 0, 0, 0⟩ }, { cmdOf 1 [] 0 with res := some ⟨0, [], 0, 0, 0⟩ }, ⟨0, [], 0, 0, 0⟩, by decide +kernel⟩,
    ⟨7, rings, by decide +kernel⟩,
    ⟨3, 3, inHand (cmdOf 1 [] 0), cmdOf 1 [] 0, by decide +kernel⟩,
    ⟨telState, by decide +kernel⟩,
    ⟨63, { rings with evt := { Evt.reset with vheld := modAt Evt.reset.vheld 63 (fun _ => true), msix := Vector.replicate 256 0 } }, by decide +kernel⟩,
    ⟨upState, by decide +kernel⟩,
    ⟨upState.counted 1 0x1004, by decide +kernel⟩,
    ⟨upState, by decide +kernel⟩⟩

/-- Meets the hypotheses of every clause of Obligations.HostCommandsComplete. -/
theorem witness_HostCommandsComplete :
    (∃ (r : Fin 4) (s : State) (c : _), s.startable r 0x01 = some c) ∧
    (∃ (r : Fin 4) (s : State) (c : _), s.startable r 0x10 = some c) ∧
    (∃ (r : Fin 4) (s : State) (c : _) (z : _), s.startable r 0x11 = some c ∧ s.nvpWritable (leAt c.d.opnd 0 2) = true ∧ recPlace (leAt c.d.opnd 0 2) = some z ∧ 16 + c.d.blen ≤ z.2.2 ∧ s.recNextSeq (leAt c.d.opnd 0 2) ≤ 0xFFFFFFFFFFFF ∧ s.nvp.queue = []) ∧
    (∃ (r : Fin 4) (s : State) (c : _), s.startable r 0x11 = some c ∧ s.nvpWritable (leAt c.d.opnd 0 2) = false) ∧
    (∃ (r : Fin 4) (s : State) (c : _), s.startable r 0x12 = some c ∧ s.nvp.save = none) ∧
    (∃ (r : Fin 4) (s : State) (c : _), s.startable r 0x12 = some c ∧ s.nvp.save ≠ none) ∧
    (∃ (r : Fin 4) (s : State) (c : _) (k : Fin 32) (tag : Fin 4), s.startable r 0x20 = some c ∧ leAt c.d.opnd 0 1 = k.val ∧ leAt c.d.opnd 1 1 = tag.val ∧ leAt c.d.opnd 2 1 ≤ 6 ∧ leAt c.d.opnd 4 1 ≤ 240 ∧ leAt c.d.opnd 4 1 ≤ c.d.blen ∧ s.works = true ∧ s.runs .lnk = true ∧ s.linkUp k = true ∧ s.slt[k].req.any (fun q => q.tag = tag) = false) ∧
    (∃ (r : Fin 4) (s : State) (c : _), s.startable r 0x30 = some c ∧ c.d.blen ≤ 2048) ∧
    (∃ (r : Fin 4) (s : State) (c : _), s.startable r 0x40 = some c) ∧
    (∃ (r : Fin 4) (s : State) (c : _), s.startable r 0x50 = some c ∧ c.d.blen % 4 = 0 ∧ leAt c.d.opnd 4 4 % 4 = 0 ∧ leAt c.d.opnd 4 4 + c.d.blen ≤ 0x10000) :=
  ⟨⟨3, inHand (cmdOf 0x01 [] 0), cmdOf 0x01 [] 0, by decide +kernel⟩,
    ⟨3, inHand (cmdOf 0x10 [] 0), cmdOf 0x10 [] 0, by decide +kernel⟩,
    ⟨3, inHand (cmdOf 0x11 [0x7F, 0x80] 8), cmdOf 0x11 [0x7F, 0x80] 8, (recPlace 0x807F).getD (0, 0, 0), by decide +kernel⟩,
    ⟨3, inHand (cmdOf 0x11 [0x80, 0x80] 8), cmdOf 0x11 [0x80, 0x80] 8, by decide +kernel⟩,
    ⟨3, inHand (cmdOf 0x12 [] 0), cmdOf 0x12 [] 0, by decide +kernel⟩,
    ⟨3, (inHand (cmdOf 0x12 [] 0)).modNvp (fun v => { v with save := some save0 }), cmdOf 0x12 [] 0, by decide +kernel⟩,
    ⟨3, (inHand (cmdOf 0x20 [31, 3, 6, 0, 240] 240)).modSlt 31 (fun l => { l with lstate := 2 }), cmdOf 0x20 [31, 3, 6, 0, 240] 240, 31, 3, by decide +kernel⟩,
    ⟨3, inHand (cmdOf 0x30 [1] 2048), cmdOf 0x30 [1] 2048, by decide +kernel⟩,
    ⟨3, inHand (cmdOf 0x40 [3] 0), cmdOf 0x40 [3] 0, by decide +kernel⟩,
    ⟨3, inHand (cmdOf 0x50 [0, 0, 0, 0, 0xFC, 0xFF, 0, 0] 4), cmdOf 0x50 [0, 0, 0, 0, 0xFC, 0xFF, 0, 0] 4, by decide +kernel⟩⟩

/-- Meets the hypotheses of every clause of Obligations.TwoWireComplete. -/
theorem witness_TwoWireComplete :
    (∃ (p : Fin 4) (v : Word) (s : State), s.runs .mgt = true ∧ s.sys.step ≠ 15 ∧ v.getLsbD 31 = true ∧ s.twp[p].xfer = none ∧ s.twpCtrl p = true ∧ s.bit (F.TWP_CFG.en p) = true ∧ s.twp[p].stuck = false ∧ s.twp[p].dead = false) ∧
    (∃ (p : Fin 4) (v : Word) (s : State), s.runs .mgt = true ∧ s.sys.step ≠ 15 ∧ v.getLsbD 31 = true ∧ s.twp[p].xfer = none ∧ s.twpCtrl p = true ∧ (s.bit (F.TWP_CFG.en p) = false ∨ s.twp[p].stuck = true ∨ s.twp[p].dead = true)) ∧
    (∃ (p : Fin 4) (s : State) (x : _), s.twp[p].xfer = some x ∧ s.twpOn p = true ∧ s.twpCtrl p = true ∧ s.twp[p].check = false ∧ s.twp[p].tries < 3) ∧
    (∃ (p : Fin 4) (s : State) (x : _), s.twp[p].xfer = some x ∧ s.twpOn p = true ∧ s.twpCtrl p = true ∧ s.twp[p].check = false ∧ 3 ≤ s.twp[p].tries) ∧
    (∃ (p : Fin 4) (o : TwpOutcome) (s : State) (x : _), s.twp[p].xfer = some x ∧ s.twpOn p = true ∧ s.twpCtrl p = true ∧ s.twp[p].check = false ∧ (s.bit (F.TWP_CFG.pec p) = true ∨ (∀ bs, o ≠ .pecErr bs))) ∧
    (∃ (p : Fin 4) (s : State) (x : _), s.twp[p].xfer = some x ∧ s.twpOn p = true ∧ s.twpCtrl p = true ∧ s.twp[p].check = false ∧ s.bit (F.TWP_CFG.pec p) = false) ∧
    (∃ (p : Fin 4) (s : State), s.twpOn p = true ∧ s.twpCtrl p = false ∧ s.bit (F.TWP_CFG.pec p) = false) ∧
    (∃ (p : Fin 4) (s : State), s.twpOn p = true ∧ s.twpCtrl p = false) ∧
    (∃ (p : Fin 4) (s : State), s.twpOn p = true ∧ s.twpCtrl p = false ∧ s.bit (F.TWP_CTL.attn p) = true) ∧
    (∃ (p : Fin 4) (s : State), s.twpOn p = true ∧ s.twpCtrl p = false ∧ s.bit (F.TWP_CTL.attn p) = true) ∧
    (∃ (p : Fin 4) (s : State), s.twpOn p = true ∧ s.twpCtrl p = true ∧ s.bit (F.TWP_CFG.att_en p) = true) ∧
    (∃ (p : Fin 4) (s : State), s.twpOn p = true ∧ s.twpCtrl p = true) ∧
    (∃ (p : Fin 4) (s : State), s.twpOn p = true ∧ s.twpCtrl p = true ∧ s.twp[p].check = true) ∧
    (∃ (p : Fin 4) (n : Nat) (s : State), s.twpOn p = true ∧ s.twpCtrl p = true ∧ s.twp[p].check = true ∧ n ≠ 0) ∧
    (∃ (p : Fin 4) (s : State), s.twpOn p = true ∧ s.twpCtrl p = true ∧ s.twp[p].check = true) ∧
    (∃ (p : Fin 4) (s : State), s.runs .mgt = true ∧ s.bit (F.TWP_CFG.en p) = true ∧ s.twpCtrl p = true ∧ s.twp[p].stuck = true ∧ s.twp[p].dead = false ∧ s.elapsed s.twp[p].recAt (100 * ms1) = true) :=
  ⟨⟨3, 0x80000000, twi false id 0, by decide +kernel⟩,
    ⟨3, 0x80000000, twi false (fun p => { p with dead := true }) 0, by decide +kernel⟩,
    ⟨3, twi false (fun p => { p with xfer := some (0x10, [1], 2), tries := 2 }) 0, (0x10, [1], 2), by decide +kernel⟩,
    ⟨3, twi false (fun p => { p with xfer := some (0x10, [1], 2), tries := 3 }) 0, (0x10, [1], 2), by decide +kernel⟩,
    ⟨3, .nackAddr, twi false (fun p => { p with xfer := some (0x10, [1], 2) }) 0, (0x10, [1], 2), rfl, by decide +kernel, by decide +kernel, rfl, .inr (fun _ h => nomatch h)⟩,
    ⟨3, twi false (fun p => { p with xfer := some (0x10, [1], 2) }) 0, (0x10, [1], 2), by decide +kernel⟩,
    ⟨3, twi true id 0, by decide +kernel⟩,
    ⟨3, twi true id 0, by decide +kernel⟩,
    ⟨3, (twi true id 0).setFld (F.TWP_CTL.attn 3) 1, by decide +kernel⟩,
    ⟨3, (twi true id 0).setFld (F.TWP_CTL.attn 3) 1, by decide +kernel⟩,
    ⟨3, (twi false id 0).setFld (F.TWP_CFG.att_en 3) 1, by decide +kernel⟩,
    ⟨3, twi false id 0, by decide +kernel⟩,
    ⟨3, twi false (fun p => { p with check := true }) 0, by decide +kernel⟩,
    ⟨3, 9, twi false (fun p => { p with check := true }) 0, by decide +kernel⟩,
    ⟨3, twi false (fun p => { p with check := true }) 0, by decide +kernel⟩,
    ⟨3, twi false (fun p => { p with stuck := true }) (100 * ms1), by decide +kernel⟩⟩

/-- Meets the hypotheses of every clause of Obligations.BeaconComplete. -/
theorem witness_BeaconComplete :
    (∃ (s : State), s.aon.vaon = true) ∧
    (∃ (w : BitVec 16) (s : State), s.aon.vaon = true ∧ bcnCode w = 1 ∧ s.ballArbiter = false ∧ s.aon.demoted = false) ∧
    (∃ (w : BitVec 16) (s : State), s.aon.vaon = true ∧ bcnCode w = 1 ∧ (s.ballArbiter = true ∨ s.aon.demoted = true)) ∧
    (∃ (s : State), s.aon.bcnLow = true ∧ s.elapsed s.aon.bcnLowAt (100 * us1) = true ∧ s.aon.demoted = true ∧ s.aon.pinLow = false) ∧
    (∃ (s : State), s.aon.bcnLow = true ∧ s.elapsed s.aon.bcnLowAt (100 * us1) = true ∧ s.aon.pinLow = true) ∧
    (∃ (w : BitVec 16) (s : State), s.aon.vaon = true ∧ bcnCode w = 2 ∧ s.aon.sd = false ∧ s.aon.transport = false ∧ s.seq.st ≠ 4 ∧ s.seq.st ≠ 6 ∧ s.seqRuns = true ∧ s.drives = true) ∧
    (∃ (w : BitVec 16) (s : State), s.aon.vaon = true ∧ bcnCode w = 2 ∧ (s.aon.sd = true ∨ s.aon.transport = true ∨ s.seq.st = 4 ∨ s.seq.st = 6)) ∧
    (∃ (s : State) (t0 : _), s.aon.bcnSafe = some (t0, false) ∧ s.elapsed t0 ms1 = true ∧ s.bcnSeq ≠ 4 ∧ s.ballArbiter = false ∧ s.aon.demoted = false) ∧
    (∃ (s : State) (t0 : _), s.aon.bcnSafe = some (t0, true) ∧ s.elapsed t0 (10 * sec1) = true ∧ s.bcnSeq ≠ 0 ∧ s.bcnSeq ≠ 5 ∧ s.ballArbiter = false ∧ s.aon.demoted = false) ∧
    (∃ (s : State) (t0 : _), s.aon.bcnSafe = some (t0, true) ∧ (s.bcnSeq = 0 ∨ s.bcnSeq = 5)) ∧
    (∃ (w : BitVec 16) (s : State), s.aon.vaon = true ∧ bcnCode w = 3 ∧ s.runs .recI = true ∧ s.nvp.save = none) ∧
    (∃ (w : BitVec 16) (s : State), s.aon.vaon = true ∧ bcnCode w = 3 ∧ s.runs .recI = false) ∧
    (∃ (w : BitVec 16) (s : State), s.aon.vaon = true ∧ bcnCode w = 4 ∧ (s.cleared 0x1004).count = 0) ∧
    (∃ (w : BitVec 16) (s : State), s.aon.vaon = true ∧ bcnCode w = 0) :=
  ⟨⟨upState, by decide +kernel⟩,
    ⟨0x1E06, upState, by decide +kernel⟩,
    ⟨0x1E06, upState.modAon (fun a => { a with demoted := true }), by decide +kernel⟩,
    ⟨(unitAt .solo (100 * us1)).modAon (fun a => { a with bcnLow := true, demoted := true }), by decide +kernel⟩,
    ⟨(unitAt .solo (100 * us1)).modAon (fun a => { a with bcnLow := true, pinLow := true }), by decide +kernel⟩,
    ⟨0x2D0B, upState, by decide +kernel⟩,
    ⟨0x2D0B, seqSt 6, by decide +kernel⟩,
    ⟨(unitAt .solo ms1).modAon (fun a => { a with bcnSafe := some (0, false) }), 0, by decide +kernel⟩,
    ⟨({ seqSt 4 with time := 10 * sec1 }).modAon (fun a => { a with bcnSafe := some (0, true) }), 0, by decide +kernel⟩,
    ⟨(seqSt 5).modAon (fun a => { a with bcnSafe := some (0, true) }), 0, by decide +kernel⟩,
    ⟨0x3C01, upState, by decide +kernel⟩,
    ⟨0x3C01, State.reset, by decide +kernel⟩,
    ⟨0x4B02, upState, by decide +kernel⟩,
    ⟨0x1E07, upState, by decide +kernel⟩⟩

/-- Meets the hypotheses of every clause of Obligations.StepRunsFrontCommand. -/
theorem witness_StepRunsFrontCommand :
    (∃ (c : _) (rest : _) (s : State), s.pending = c :: rest) ∧
    (∃ (s : State), s.pending = []) :=
  ⟨⟨.wdtKick, [.seqGo], { upState with pending := [.wdtKick, .seqGo] }, by decide +kernel⟩,
    ⟨upState, by decide +kernel⟩⟩

/-- Meets the hypotheses of every clause of Obligations.TimedCommandsWait. -/
theorem witness_TimedCommandsWait :
    (∃ (j : Fin 24) (s : State) (a : _) (near : _) (rest : _), s.ctlWorks = true ∧ s.pwm.ph[j].aps = (a, near) :: rest) ∧
    (∃ (ch : Fin 34) (s : State) (c : Fin 130) (cv : _), c.val = ch.val ∧ s.runs .ctl = true ∧ s.sns.ch[c].conv = some cv) ∧
    (∃ (k : Fin 72) (s : State) (t : _), s.seqRuns = true ∧ s.drives = true ∧ s.nodeEn k = true ∧ s.seq.n[k].st = .wait ∧ s.shutting k = false ∧ s.seq.n[k].dly = some t) ∧
    (∃ (k : Fin 72) (s : State), s.seqRuns = true ∧ s.drives = true ∧ s.nodeEn k = true ∧ s.seq.n[k].st = .settle ∧ s.seq.n[k].pg = true ∧ s.shutting k = false) ∧
    (∃ (k : Fin 72) (s : State), s.seqRuns = true ∧ s.drives = true ∧ s.nodeEn k = true ∧ s.seq.n[k].st = .falling ∧ s.seq.n[k].off = false) ∧
    (∃ (k : Fin 32) (s : State) (t : _), s.works = true ∧ s.runs .lnk = true ∧ s.slt[k].lstate = 2 ∧ s.slt[k].last = some t) ∧
    (∃ (k : Fin 32) (s : State) (t : _), s.slot[k].run = .normal ∧ s.slot[k].last = some t) ∧
    (∃ (j : Fin 24) (p : Port) (s : State) (t : _), s.stage[j].last[p] = some t) ∧
    (∃ (s : State), s.runs .per = true ∧ s.linkOn = true) ∧
    (∃ (s : State), s.runs .mgt = true ∧ s.sys.wdtArmed = true) ∧
    (∃ (s : State), s.aon.vaon = true ∧ s.aon.sd = true ∧ s.sys.inReset = false) ∧
    (∃ (s : State), s.aon.bcnLow = true) ∧
    (∃ (s : State), s.runs .recI = true) ∧
    (∃ (s : State) (r : _) (a : _), s.runs .recI = true ∧ s.bbx.post = some (r, a)) ∧
    (∃ (s : State), s.bbx.nvalid = true) ∧
    (∃ (s : State), s.batWorks = true ∧ nextMul s.bat.hourAt opHour ≤ 0xFFFFFFFFFFFF) :=
  ⟨⟨23, upState.modPhase 23 (fun p => { p with aps := [(5, false)] }), 5, false, [], by decide +kernel⟩,
    ⟨33, { upState with sns := { Sns.reset with ch := modAt Sns.reset.ch 33 (fun c => { c with conv := some ⟨0, false, false, 9⟩ }) } }, 33, ⟨0, false, false, 9⟩, by decide +kernel⟩,
    ⟨71, node (fun n => { n with st := .wait, dly := some 0 }) 0, 0, by decide +kernel⟩,
    ⟨71, node (fun n => { n with st := .settle, pg := true }) 0, by decide +kernel⟩,
    ⟨71, node (fun n => { n with st := .falling }) 0, by decide +kernel⟩,
    ⟨31, upState.modSlt 31 (fun l => { l with lstate := 2, last := some 0 }), 0, by decide +kernel⟩,
    ⟨31, upState.modSlot 31 (fun l => { l with run := .normal, last := some 0 }), 0, by decide +kernel⟩,
    ⟨23, 1, upState.modStage 23 (fun g => { g with last := Vector.replicate 2 (some 0) }), 0, by decide +kernel⟩,
    ⟨chez .active .up 0, by decide +kernel⟩,
    ⟨{ upState with sys := { upState.sys with wdtArmed := true } }, by decide +kernel⟩,
    ⟨upState.modAon (fun a => { a with sd := true }), by decide +kernel⟩,
    ⟨upState.modAon (fun a => { a with bcnLow := true }), by decide +kernel⟩,
    ⟨upState, by decide +kernel⟩,
    ⟨upState.modBbx (fun b => { b with post := some (3, 7) }), 3, 7, by decide +kernel⟩,
    ⟨upState.modBbx (fun b => { b with nvalid := true }), by decide +kernel⟩,
    ⟨upState, by decide +kernel⟩⟩

/-- Meets the hypotheses of every clause of Obligations.EveryStepKeepsStores. -/
theorem witness_EveryStepKeepsStores : ∃ (s : State) (t : State), s.StoresWf ∧ step s = .next t :=
  ⟨{ upState with pending := [.wdtKick] }, after .wdtKick upState, ⟨rfl, by decide +kernel, rfl, rfl, rfl, rfl, rfl, rfl⟩, after_next (c := .wdtKick) (s := upState) (by decide +kernel)⟩

/-- Meets the hypotheses of every clause of Obligations.AuthorityChangesOnlyBy. -/
theorem witness_AuthorityChangesOnlyBy : ∃ (c : _) (s : State) (t : State), exec c s = .next t :=
  ⟨.configLock, upState, after .configLock upState, after_next (by decide +kernel)⟩

/-- Meets the hypotheses of every clause of Obligations.StoredChangesOnlyBy. -/
theorem witness_StoredChangesOnlyBy : ∃ (c : _) (s : State) (t : State), exec c s = .next t :=
  ⟨.nvpCommitDone 1, upState, after (.nvpCommitDone 1) upState, after_next (by decide +kernel)⟩

/-- Meets the hypotheses of every clause of Obligations.ConfigurationChangesOnlyBy. -/
theorem witness_ConfigurationChangesOnlyBy : ∃ (c : _) (s : State) (t : State), exec c s = .next t :=
  ⟨.regWrite 0x08014 1, upState, after (.regWrite 0x08014 1) upState, after_next (by decide +kernel)⟩

/-- Meets the hypotheses of every clause of Obligations.RoleChangesOnlyBy. -/
theorem witness_RoleChangesOnlyBy : ∃ (c : _) (s : State) (t : State), exec c s = .next t ∧ t.sys.role ≠ s.sys.role :=
  ⟨.demoteNAccept, upState, after .demoteNAccept upState, after_next (by decide +kernel), by decide +kernel⟩

/-- Meets the hypotheses of every clause of Obligations.FuseBitsNeverClear. -/
theorem witness_FuseBitsNeverClear : ∃ (c : _) (s : State) (t : State), s.otp.wf = true ∧ exec c s = .next t :=
  ⟨.otpCommandComplete 1 1 0, { upState with otp := { Otp.reset with cmd := some ⟨1, 0x72, 1, 0⟩ } }, after (.otpCommandComplete 1 1 0) { upState with otp := { Otp.reset with cmd := some ⟨1, 0x72, 1, 0⟩ } }, by decide +kernel, after_next (by decide +kernel)⟩

/-- Meets the hypotheses of every clause of Obligations.ResetFrames. -/
theorem witness_ResetFrames :
    (∃ (a : Bool) (b : Bool) (s : State) (t : State), exec (.aonPowerGood a b) s = .next t) ∧
    (∃ (s : State) (t : State), exec .rstNAssert s = .next t) ∧
    (∃ (s : State) (t : State), exec .rstNRelease s = .next t) ∧
    (∃ (a : BitVec 16) (s : State) (t : State), exec (.sysRstCold a) s = .next t) ∧
    (∃ (a : BitVec 16) (s : State) (t : State), exec (.sysRstWarm a) s = .next t) ∧
    (∃ (a : Supply) (s : State) (t : State), exec (.supplyPgLost a) s = .next t) ∧
    (∃ (s : State) (t : State), exec .supplyPgReturn s = .next t) ∧
    (∃ (s : State) (t : State), exec .refLost s = .next t) ∧
    (∃ (s : State) (t : State), exec .refReturn s = .next t) ∧
    (∃ (a : Bool) (b : StrapBalls) (s : State) (t : State), exec (.coreRelease a b) s = .next t) ∧
    (∃ (s : State) (t : State), exec .pllLock s = .next t) ∧
    (∃ (a : ImageCheck) (b : ImageCheck) (d : ImageCheck) (s : State) (t : State), exec (.bootImageVerified a b d) s = .next t) ∧
    (∃ (s : State) (t : State), exec .configLoad s = .next t) ∧
    (∃ (a : BitVec 8) (s : State) (t : State), exec (.selfTestComplete a) s = .next t) ∧
    (∃ (s : State) (t : State), exec .roleDecision s = .next t) ∧
    (∃ (s : State) (t : State), exec .bootStep9 s = .next t) ∧
    (∃ (s : State) (t : State), exec .watchdogExpiry s = .next t) ∧
    (∃ (s : State) (t : State), exec .transportWake s = .next t) ∧
    (∃ (s : State) (t : State), exec .vaonLost s = .next t) :=
  ⟨⟨true, true, upState, next_of (by decide +kernel)⟩,
    ⟨upState, next_of (by decide +kernel)⟩,
    ⟨upState, next_of (by decide +kernel)⟩,
    ⟨0, upState, next_of (by decide +kernel)⟩,
    ⟨0, upState, next_of (by decide +kernel)⟩,
    ⟨.vcore, upState, next_of (by decide +kernel)⟩,
    ⟨upState, next_of (by decide +kernel)⟩,
    ⟨upState, next_of (by decide +kernel)⟩,
    ⟨upState, next_of (by decide +kernel)⟩,
    ⟨true, ⟨true, true⟩, upState, next_of (by decide +kernel)⟩,
    ⟨upState, next_of (by decide +kernel)⟩,
    ⟨⟨false, 0, false, false, 0⟩, ⟨false, 0, false, false, 0⟩, ⟨false, 0, false, false, 0⟩, upState, next_of (by decide +kernel)⟩,
    ⟨upState, next_of (by decide +kernel)⟩,
    ⟨0, upState, next_of (by decide +kernel)⟩,
    ⟨upState, next_of (by decide +kernel)⟩,
    ⟨upState, next_of (by decide +kernel)⟩,
    ⟨upState, next_of (by decide +kernel)⟩,
    ⟨upState, next_of (by decide +kernel)⟩,
    ⟨upState, next_of (by decide +kernel)⟩⟩

/-- Meets the hypotheses of every clause of Obligations.ModeFrames. -/
theorem witness_ModeFrames :
    (∃ (s : State) (t : State), exec .wdtKick s = .next t) ∧
    (∃ (s : State) (t : State), exec .configLock s = .next t) ∧
    (∃ (a : BitVec 4) (s : State) (t : State), exec (.modeRequest a) s = .next t) ∧
    (∃ (s : State) (t : State), exec .overlaySwap s = .next t) ∧
    (∃ (s : State) (t : State), exec .holdupOverlayRequest s = .next t) ∧
    (∃ (s : State) (t : State), exec .serviceOverlayRequest s = .next t) ∧
    (∃ (s : State) (t : State), exec .transportOverlayApply s = .next t) ∧
    (∃ (s : State) (t : State), exec .transportGate s = .next t) ∧
    (∃ (s : State) (t : State), exec .batTransportPrep s = .next t) ∧
    (∃ (s : State) (t : State), exec .batTransportRelease s = .next t) :=
  ⟨⟨upState, next_of (by decide +kernel)⟩,
    ⟨upState, next_of (by decide +kernel)⟩,
    ⟨0, upState, next_of (by decide +kernel)⟩,
    ⟨upState, next_of (by decide +kernel)⟩,
    ⟨upState, next_of (by decide +kernel)⟩,
    ⟨upState, next_of (by decide +kernel)⟩,
    ⟨upState, next_of (by decide +kernel)⟩,
    ⟨upState, next_of (by decide +kernel)⟩,
    ⟨upState, next_of (by decide +kernel)⟩,
    ⟨upState, next_of (by decide +kernel)⟩⟩

/-- Meets the hypotheses of every clause of Obligations.RegisterFrames. -/
theorem witness_RegisterFrames :
    (∃ (a : BitVec 20) (b : Word) (s : State) (t : State), exec (.regWrite a b) s = .next t) ∧
    (∃ (s : State) (t : State), exec .shadowWriteApply s = .next t) ∧
    (∃ (a : BitVec 20) (b : Bool) (s : State) (t : State), exec (.gatedAccess a b) s = .next t) ∧
    (∃ (a : LatchPair) (s : State) (t : State), exec (.latchedPairRead a) s = .next t) ∧
    (∃ (a : CntBlock) (s : State) (t : State), exec (.counterClear a) s = .next t) ∧
    (∃ (a : Fin 8) (b : Bool) (s : State) (t : State), exec (.ringEnable a b) s = .next t) :=
  ⟨⟨0, 0, upState, next_of (by decide +kernel)⟩,
    ⟨upState, next_of (by decide +kernel)⟩,
    ⟨0, true, upState, next_of (by decide +kernel)⟩,
    ⟨.snsTime, upState, next_of (by decide +kernel)⟩,
    ⟨.pwm, upState, next_of (by decide +kernel)⟩,
    ⟨0, true, upState, next_of (by decide +kernel)⟩⟩

/-- Meets the hypotheses of every clause of Obligations.SenseLawFrames. -/
theorem witness_SenseLawFrames :
    (∃ (s : State) (t : State), exec .shelfTick s = .next t) ∧
    (∃ (s : State) (t : State), exec .dspSnapshot s = .next t) ∧
    (∃ (s : State) (t : State), exec .huExit s = .next t) ∧
    (∃ (s : State) (t : State), exec .hbxResultsRelease s = .next t) ∧
    (∃ (s : State) (t : State), exec .resultsDelivery s = .next t) ∧
    (∃ (s : State) (t : State), exec .payloadFreeze s = .next t) ∧
    (∃ (s : State) (t : State), exec .hbxPeriodChange s = .next t) ∧
    (∃ (a : Fin 24) (s : State) (t : State), exec (.phaseSampleAperture a) s = .next t) ∧
    (∃ (a : Fin 24) (s : State) (t : State), exec (.idleSample a) s = .next t) ∧
    (∃ (a : Fin 8) (s : State) (t : State), exec (.railVoltageConversion a) s = .next t) ∧
    (∃ (s : State) (t : State), exec .busConversion s = .next t) ∧
    (∃ (a : BitVec 12) (s : State) (t : State), exec (.scanSample a) s = .next t) ∧
    (∃ (a : Vector (BitVec 12) 8) (b : Vector (BitVec 12) 8) (s : State) (t : State), exec (.ntcIdSample a b) s = .next t) ∧
    (∃ (a : Fin 34) (b : BitVec 16) (s : State) (t : State), exec (.snsConversionComplete a b) s = .next t) ∧
    (∃ (a : Fin 24) (b : Bool) (s : State) (t : State), exec (.cbcCrossing a b) s = .next t) ∧
    (∃ (a : Fin 20) (s : State) (t : State), exec (.lawTrigger a) s = .next t) ∧
    (∃ (a : Fin 20) (s : State) (t : State), exec (.lawOutputWrite a) s = .next t) ∧
    (∃ (a : Fin 20) (s : State) (t : State), exec (.lawSnapRequest a) s = .next t) ∧
    (∃ (a : BitVec 20) (b : Word) (s : State) (t : State), exec (.coeffShadowWrite a b) s = .next t) ∧
    (∃ (a : Fin 20) (s : State) (t : State), exec (.lawCommitRequest a) s = .next t) ∧
    (∃ (a : Fin 20) (s : State) (t : State), exec (.lawBankSwap a) s = .next t) ∧
    (∃ (a : Fin 20) (s : State) (t : State), exec (.lawShadowCopyDone a) s = .next t) ∧
    (∃ (a : Fin 24) (s : State) (t : State), exec (.pwmPeriodStart a) s = .next t) ∧
    (∃ (a : Fin 8) (s : State) (t : State), exec (.phaseShed a) s = .next t) ∧
    (∃ (a : Fin 8) (s : State) (t : State), exec (.phaseAdd a) s = .next t) ∧
    (∃ (a : Fin 24) (s : State) (t : State), exec (.phaseOpenDetect a) s = .next t) ∧
    (∃ (a : Fin 24) (s : State) (t : State), exec (.phaseSenseStuck a) s = .next t) ∧
    (∃ (a : Fin 8) (s : State) (t : State), exec (.sumCheckFail a) s = .next t) ∧
    (∃ (a : Fin 24) (s : State) (t : State), exec (.phaseAssignmentApply a) s = .next t) ∧
    (∃ (a : Fin 24) (s : State) (t : State), exec (.pwmEdge a) s = .next t) :=
  ⟨⟨upState, next_of (by decide +kernel)⟩,
    ⟨upState, next_of (by decide +kernel)⟩,
    ⟨upState, next_of (by decide +kernel)⟩,
    ⟨upState, next_of (by decide +kernel)⟩,
    ⟨upState, next_of (by decide +kernel)⟩,
    ⟨upState, next_of (by decide +kernel)⟩,
    ⟨upState, next_of (by decide +kernel)⟩,
    ⟨0, upState, next_of (by decide +kernel)⟩,
    ⟨0, upState, next_of (by decide +kernel)⟩,
    ⟨0, upState, next_of (by decide +kernel)⟩,
    ⟨upState, next_of (by decide +kernel)⟩,
    ⟨0, upState, next_of (by decide +kernel)⟩,
    ⟨Vector.replicate 8 0, Vector.replicate 8 0, upState, next_of (by decide +kernel)⟩,
    ⟨0, 0, upState, next_of (by decide +kernel)⟩,
    ⟨0, true, upState, next_of (by decide +kernel)⟩,
    ⟨0, upState, next_of (by decide +kernel)⟩,
    ⟨0, upState, next_of (by decide +kernel)⟩,
    ⟨0, upState, next_of (by decide +kernel)⟩,
    ⟨0, 0, upState, next_of (by decide +kernel)⟩,
    ⟨0, upState, next_of (by decide +kernel)⟩,
    ⟨0, upState, next_of (by decide +kernel)⟩,
    ⟨0, upState, next_of (by decide +kernel)⟩,
    ⟨0, upState, next_of (by decide +kernel)⟩,
    ⟨0, upState, next_of (by decide +kernel)⟩,
    ⟨0, upState, next_of (by decide +kernel)⟩,
    ⟨0, upState, next_of (by decide +kernel)⟩,
    ⟨0, upState, next_of (by decide +kernel)⟩,
    ⟨0, upState, next_of (by decide +kernel)⟩,
    ⟨0, upState, next_of (by decide +kernel)⟩,
    ⟨0, upState, next_of (by decide +kernel)⟩⟩

/-- Meets the hypotheses of every clause of Obligations.RailFrames. -/
theorem witness_RailFrames :
    (∃ (s : State) (t : State), exec .syncInEdge s = .next t) ∧
    (∃ (s : State) (t : State), exec .syncLost s = .next t) ∧
    (∃ (s : State) (t : State), exec .rampUpdate s = .next t) ∧
    (∃ (a : Fin 8) (s : State) (t : State), exec (.startShort a) s = .next t) ∧
    (∃ (a : Fin 8) (s : State) (t : State), exec (.hiccupEnd a) s = .next t) ∧
    (∃ (a : Nat) (b : Nat) (s : State) (t : State), exec (.trackEdge a b) s = .next t) ∧
    (∃ (a : Bool) (s : State) (t : State), exec (.trackStatic a) s = .next t) ∧
    (∃ (a : Fin 8) (s : State) (t : State), exec (.railEnableChange a) s = .next t) ∧
    (∃ (a : Fin 8) (s : State) (t : State), exec (.railPauseChange a) s = .next t) :=
  ⟨⟨upState, next_of (by decide +kernel)⟩,
    ⟨upState, next_of (by decide +kernel)⟩,
    ⟨upState, next_of (by decide +kernel)⟩,
    ⟨0, upState, next_of (by decide +kernel)⟩,
    ⟨0, upState, next_of (by decide +kernel)⟩,
    ⟨0, 0, upState, next_of (by decide +kernel)⟩,
    ⟨true, upState, next_of (by decide +kernel)⟩,
    ⟨0, upState, next_of (by decide +kernel)⟩,
    ⟨0, upState, next_of (by decide +kernel)⟩⟩

/-- Meets the hypotheses of every clause of Obligations.EnergyFrames. -/
theorem witness_EnergyFrames :
    (∃ (s : State) (t : State), exec .hbxCommitRequest s = .next t) ∧
    (∃ (s : State) (t : State), exec .hbxCommitSwap s = .next t) ∧
    (∃ (s : State) (t : State), exec .hbxStagedCopyDone s = .next t) ∧
    (∃ (a : BitVec 20) (b : Word) (s : State) (t : State), exec (.costCurveWrite a b) s = .next t) ∧
    (∃ (s : State) (t : State), exec .derateClear s = .next t) ∧
    (∃ (s : State) (t : State), exec .shedClear s = .next t) ∧
    (∃ (a : Vector (BitVec 18) 8) (b : Vector (BitVec 18) 8) (s : State) (t : State), exec (.stringStrobe a b) s = .next t) ∧
    (∃ (a : Fin 8) (s : State) (t : State), exec (.zdMeasurement a) s = .next t) ∧
    (∃ (a : Fin 8) (s : State) (t : State), exec (.presenceChange a) s = .next t) ∧
    (∃ (s : State) (t : State), exec .batBlock s = .next t) ∧
    (∃ (a : Fin 8) (s : State) (t : State), exec (.eodDeclare a) s = .next t) ∧
    (∃ (a : Fin 8) (s : State) (t : State), exec (.eocDeclare a) s = .next t) ∧
    (∃ (s : State) (t : State), exec .batSecond s = .next t) ∧
    (∃ (s : State) (t : State), exec .batHour s = .next t) ∧
    (∃ (s : State) (t : State), exec .batAgeTick s = .next t) ∧
    (∃ (a : Fin 8) (s : State) (t : State), exec (.batEnable a) s = .next t) ∧
    (∃ (a : Fin 8) (s : State) (t : State), exec (.batDisable a) s = .next t) ∧
    (∃ (a : Fin 8) (s : State) (t : State), exec (.batForget a) s = .next t) :=
  ⟨⟨upState, next_of (by decide +kernel)⟩,
    ⟨upState, next_of (by decide +kernel)⟩,
    ⟨upState, next_of (by decide +kernel)⟩,
    ⟨0, 0, upState, next_of (by decide +kernel)⟩,
    ⟨upState, next_of (by decide +kernel)⟩,
    ⟨upState, next_of (by decide +kernel)⟩,
    ⟨Vector.replicate 8 0, Vector.replicate 8 0, upState, next_of (by decide +kernel)⟩,
    ⟨0, upState, next_of (by decide +kernel)⟩,
    ⟨0, upState, next_of (by decide +kernel)⟩,
    ⟨upState, next_of (by decide +kernel)⟩,
    ⟨0, upState, next_of (by decide +kernel)⟩,
    ⟨0, upState, next_of (by decide +kernel)⟩,
    ⟨upState, next_of (by decide +kernel)⟩,
    ⟨upState, next_of (by decide +kernel)⟩,
    ⟨upState, next_of (by decide +kernel)⟩,
    ⟨0, upState, next_of (by decide +kernel)⟩,
    ⟨0, upState, next_of (by decide +kernel)⟩,
    ⟨0, upState, next_of (by decide +kernel)⟩⟩

/-- Meets the hypotheses of every clause of Obligations.SlotFrames. -/
theorem witness_SlotFrames :
    (∃ (a : Fin 32) (b : Frame) (s : State) (t : State), exec (.uplinkFrameReceived a b) s = .next t) ∧
    (∃ (a : Fin 32) (s : State) (t : State), exec (.linkLost a) s = .next t) ∧
    (∃ (a : Fin 32) (s : State) (t : State), exec (.linkRetrain a) s = .next t) ∧
    (∃ (a : Fin 32) (s : State) (t : State), exec (.mbResend a) s = .next t) ∧
    (∃ (a : Fin 32) (b : Fin 4) (s : State) (t : State), exec (.mbRequestTimeout a b) s = .next t) ∧
    (∃ (a : Fin 32) (s : State) (t : State), exec (.slotFrameApply a) s = .next t) ∧
    (∃ (a : Fin 32) (b : Port) (s : State) (t : State), exec (.slotClaimExpiry a b) s = .next t) ∧
    (∃ (a : Fin 32) (s : State) (t : State), exec (.slotHoldExpiry a) s = .next t) ∧
    (∃ (s : State) (t : State), exec .clmWordStart s = .next t) ∧
    (∃ (a : Fin 24) (b : Port) (d : ClmWord) (s : State) (t : State), exec (.stageClmWordReceived a b d) s = .next t) ∧
    (∃ (a : Fin 24) (b : Port) (s : State) (t : State), exec (.stageClaimExpiry a b) s = .next t) ∧
    (∃ (a : Fin 32) (b : Port) (d : Frame) (s : State) (t : State), exec (.slotDownlinkReceived a b d) s = .next t) ∧
    (∃ (a : Fin 32) (s : State) (t : State), exec (.slotHoldBegin a) s = .next t) :=
  ⟨⟨0, ⟨false, false, Vector.replicate 36 0, 0⟩, upState, next_of (by decide +kernel)⟩,
    ⟨0, upState, next_of (by decide +kernel)⟩,
    ⟨0, upState, next_of (by decide +kernel)⟩,
    ⟨0, upState, next_of (by decide +kernel)⟩,
    ⟨0, 0, upState, next_of (by decide +kernel)⟩,
    ⟨0, upState, next_of (by decide +kernel)⟩,
    ⟨0, 0, upState, next_of (by decide +kernel)⟩,
    ⟨0, upState, next_of (by decide +kernel)⟩,
    ⟨upState, next_of (by decide +kernel)⟩,
    ⟨0, 0, ⟨false, false, 0, 0⟩, upState, next_of (by decide +kernel)⟩,
    ⟨0, 0, upState, next_of (by decide +kernel)⟩,
    ⟨0, 0, ⟨false, false, Vector.replicate 36 0, 0⟩, upState, next_of (by decide +kernel)⟩,
    ⟨0, upState, next_of (by decide +kernel)⟩⟩

/-- Meets the hypotheses of every clause of Obligations.RedundancyFrames. -/
theorem witness_RedundancyFrames :
    (∃ (s : State) (t : State), exec .demoteNAccept s = .next t) ∧
    (∃ (s : State) (t : State), exec .demoteNRelease s = .next t) ∧
    (∃ (s : State) (t : State), exec .takeNAccept s = .next t) ∧
    (∃ (s : State) (t : State), exec .heartbeatFormChange s = .next t) ∧
    (∃ (a : StrobeIsland) (s : State) (t : State), exec (.tickStrobeTimeout a) s = .next t) ∧
    (∃ (s : State) (t : State), exec .fwLivenessTimeout s = .next t) ∧
    (∃ (s : State) (t : State), exec .fwLivenessWrite s = .next t) ∧
    (∃ (a : Fin 2) (s : State) (t : State), exec (.vhbEdge a) s = .next t) ∧
    (∃ (a : Fin 2) (s : State) (t : State), exec (.hbDeadTimeout a) s = .next t) ∧
    (∃ (s : State) (t : State), exec .takeDeferredEval s = .next t) ∧
    (∃ (s : State) (t : State), exec .takePulseEnd s = .next t) ∧
    (∃ (a : Fin 2) (s : State) (t : State), exec (.demoteHoldEnd a) s = .next t) ∧
    (∃ (a : ChezonPacket) (s : State) (t : State), exec (.chezonPacketReceived a) s = .next t) ∧
    (∃ (a : Bool) (b : Bool) (s : State) (t : State), exec (.chezonTrained a b) s = .next t) ∧
    (∃ (a : Fin 2) (s : State) (t : State), exec (.chezonOneLane a) s = .next t) ∧
    (∃ (s : State) (t : State), exec .chezonLinkDown s = .next t) ∧
    (∃ (s : State) (t : State), exec .chezonPacketSend s = .next t) ∧
    (∃ (a : Int) (b : Nat) (d : Bool) (s : State) (t : State), exec (.timeTransfer a b d) s = .next t) ∧
    (∃ (s : State) (t : State), exec .snapshotCapture s = .next t) ∧
    (∃ (a : Snapshot) (b : Bool) (s : State) (t : State), exec (.snapshotReceived a b) s = .next t) ∧
    (∃ (s : State) (t : State), exec .standbyKeepExpiry s = .next t) ∧
    (∃ (s : State) (t : State), exec .lonePeerHigherTimeout s = .next t) ∧
    (∃ (s : State) (t : State), exec .drillNow s = .next t) ∧
    (∃ (s : State) (t : State), exec .drillSchedule s = .next t) ∧
    (∃ (s : State) (t : State), exec .drillComplete s = .next t) ∧
    (∃ (s : State) (t : State), exec .chezonTrainingFailed s = .next t) :=
  ⟨⟨upState, next_of (by decide +kernel)⟩,
    ⟨upState, next_of (by decide +kernel)⟩,
    ⟨upState, next_of (by decide +kernel)⟩,
    ⟨upState, next_of (by decide +kernel)⟩,
    ⟨.ctl, upState, next_of (by decide +kernel)⟩,
    ⟨upState, next_of (by decide +kernel)⟩,
    ⟨upState, next_of (by decide +kernel)⟩,
    ⟨0, upState, next_of (by decide +kernel)⟩,
    ⟨0, upState, next_of (by decide +kernel)⟩,
    ⟨upState, next_of (by decide +kernel)⟩,
    ⟨upState, next_of (by decide +kernel)⟩,
    ⟨0, upState, next_of (by decide +kernel)⟩,
    ⟨⟨false, 0, none, none⟩, upState, next_of (by decide +kernel)⟩,
    ⟨true, true, upState, next_of (by decide +kernel)⟩,
    ⟨0, upState, next_of (by decide +kernel)⟩,
    ⟨upState, next_of (by decide +kernel)⟩,
    ⟨upState, next_of (by decide +kernel)⟩,
    ⟨0, 0, true, upState, next_of (by decide +kernel)⟩,
    ⟨upState, next_of (by decide +kernel)⟩,
    ⟨snap0, true, upState, next_of (by decide +kernel)⟩,
    ⟨upState, next_of (by decide +kernel)⟩,
    ⟨upState, next_of (by decide +kernel)⟩,
    ⟨upState, next_of (by decide +kernel)⟩,
    ⟨upState, next_of (by decide +kernel)⟩,
    ⟨upState, next_of (by decide +kernel)⟩,
    ⟨upState, next_of (by decide +kernel)⟩⟩

/-- Meets the hypotheses of every clause of Obligations.SequencerFrames. -/
theorem witness_SequencerFrames :
    (∃ (s : State) (t : State), exec .seqStep s = .next t) ∧
    (∃ (a : Fin 72) (s : State) (t : State), exec (.nodeOnDelayEnd a) s = .next t) ∧
    (∃ (a : Fin 72) (s : State) (t : State), exec (.nodeSettleEnd a) s = .next t) ∧
    (∃ (a : Fin 72) (s : State) (t : State), exec (.riseTimeout a) s = .next t) ∧
    (∃ (a : Fin 72) (s : State) (t : State), exec (.nodeOffDelayEnd a) s = .next t) ∧
    (∃ (a : Fin 72) (s : State) (t : State), exec (.fallTimeout a) s = .next t) ∧
    (∃ (a : Fin 72) (s : State) (t : State), exec (.pgChange a) s = .next t) ∧
    (∃ (s : State) (t : State), exec .seqGo s = .next t) ∧
    (∃ (s : State) (t : State), exec .seqStop s = .next t) ∧
    (∃ (s : State) (t : State), exec .seqRetry s = .next t) ∧
    (∃ (s : State) (t : State), exec .seqTrip s = .next t) ∧
    (∃ (s : State) (t : State), exec .seqTripClr s = .next t) ∧
    (∃ (s : State) (t : State), exec .restartDelayEnd s = .next t) :=
  ⟨⟨upState, next_of (by decide +kernel)⟩,
    ⟨0, upState, next_of (by decide +kernel)⟩,
    ⟨0, upState, next_of (by decide +kernel)⟩,
    ⟨0, upState, next_of (by decide +kernel)⟩,
    ⟨0, upState, next_of (by decide +kernel)⟩,
    ⟨0, upState, next_of (by decide +kernel)⟩,
    ⟨0, upState, next_of (by decide +kernel)⟩,
    ⟨upState, next_of (by decide +kernel)⟩,
    ⟨upState, next_of (by decide +kernel)⟩,
    ⟨upState, next_of (by decide +kernel)⟩,
    ⟨upState, next_of (by decide +kernel)⟩,
    ⟨upState, next_of (by decide +kernel)⟩,
    ⟨upState, next_of (by decide +kernel)⟩⟩

/-- Meets the hypotheses of every clause of Obligations.ThermalFuseFrames. -/
theorem witness_ThermalFuseFrames :
    (∃ (s : State) (t : State), exec .otpG5Check s = .next t) ∧
    (∃ (a : Vector Nat 32) (s : State) (t : State), exec (.thmStep a) s = .next t) ∧
    (∃ (a : Fin 48) (s : State) (t : State), exec (.sensorRestored a) s = .next t) ∧
    (∃ (a : Fin 16) (b : Diode) (s : State) (t : State), exec (.diodeConversion a b) s = .next t) ∧
    (∃ (s : State) (t : State), exec .thmSecond s = .next t) ∧
    (∃ (a : Vector Nat 32) (s : State) (t : State), exec (.aonThermalGate a) s = .next t) ∧
    (∃ (s : State) (t : State), exec .thermalShutdown s = .next t) ∧
    (∃ (s : State) (t : State), exec .thermalResetHold s = .next t) ∧
    (∃ (s : State) (t : State), exec .thermalRestartRelease s = .next t) ∧
    (∃ (s : State) (t : State), exec .otpArm s = .next t) ∧
    (∃ (s : State) (t : State), exec .otpProg s = .next t) ∧
    (∃ (a : BitVec 3) (s : State) (t : State), exec (.otpLock a) s = .next t) ∧
    (∃ (s : State) (t : State), exec .otpReadN s = .next t) ∧
    (∃ (s : State) (t : State), exec .otpReadM s = .next t) ∧
    (∃ (a : Word) (b : Word) (d : Nat) (s : State) (t : State), exec (.otpCommandComplete a b d) s = .next t) ∧
    (∃ (s : State) (t : State), exec .otpReread s = .next t) :=
  ⟨⟨upState, next_of (by decide +kernel)⟩,
    ⟨Vector.replicate 32 0, upState, next_of (by decide +kernel)⟩,
    ⟨0, upState, next_of (by decide +kernel)⟩,
    ⟨0, .openPair, upState, next_of (by decide +kernel)⟩,
    ⟨upState, next_of (by decide +kernel)⟩,
    ⟨Vector.replicate 32 0, upState, next_of (by decide +kernel)⟩,
    ⟨upState, next_of (by decide +kernel)⟩,
    ⟨upState, next_of (by decide +kernel)⟩,
    ⟨upState, next_of (by decide +kernel)⟩,
    ⟨upState, next_of (by decide +kernel)⟩,
    ⟨upState, next_of (by decide +kernel)⟩,
    ⟨0, upState, next_of (by decide +kernel)⟩,
    ⟨upState, next_of (by decide +kernel)⟩,
    ⟨upState, next_of (by decide +kernel)⟩,
    ⟨0, 0, 0, upState, next_of (by decide +kernel)⟩,
    ⟨upState, next_of (by decide +kernel)⟩⟩

/-- Meets the hypotheses of every clause of Obligations.StoreFrames. -/
theorem witness_StoreFrames :
    (∃ (s : State) (t : State), exec .nvpCommitRequest s = .next t) ∧
    (∃ (a : Nat) (s : State) (t : State), exec (.nvpCommitDone a) s = .next t) ∧
    (∃ (a : Word) (s : State) (t : State), exec (.nvpRawRead a) s = .next t) ∧
    (∃ (a : Nat) (s : State) (t : State), exec (.powerFailAssert a) s = .next t) ∧
    (∃ (s : State) (t : State), exec .pfRide s = .next t) ∧
    (∃ (s : State) (t : State), exec .hourlySave s = .next t) ∧
    (∃ (s : State) (t : State), exec .nvpSaveRequest s = .next t) ∧
    (∃ (a : Nat) (s : State) (t : State), exec (.saveComplete a) s = .next t) ∧
    (∃ (s : State) (t : State), exec .nvpRestore s = .next t) ∧
    (∃ (s : State) (t : State), exec .shadowImageRestore s = .next t) ∧
    (∃ (s : State) (t : State), exec .nvpScrub s = .next t) ∧
    (∃ (s : State) (t : State), exec .nvpScrubRequest s = .next t) ∧
    (∃ (s : State) (t : State), exec .bbxEventEnqueue s = .next t) ∧
    (∃ (s : State) (t : State), exec .bbxRecordWrite s = .next t) ∧
    (∃ (s : State) (t : State), exec .tokenRefill s = .next t) ∧
    (∃ (s : State) (t : State), exec .traceRow s = .next t) ∧
    (∃ (s : State) (t : State), exec .traceFreeze s = .next t) ∧
    (∃ (a : Fin 4) (s : State) (t : State), exec (.watermarkDone a) s = .next t) ∧
    (∃ (s : State) (t : State), exec .bbxSealNow s = .next t) ∧
    (∃ (a : Fin 4) (b : BitVec 20) (s : State) (t : State), exec (.reamPointerRead a b) s = .next t) ∧
    (∃ (a : BitVec 128) (s : State) (t : State), exec (.bbxNonceRequest a) s = .next t) ∧
    (∃ (s : State) (t : State), exec .nonceExpiry s = .next t) ∧
    (∃ (s : State) (t : State), exec .bbxClear s = .next t) ∧
    (∃ (s : State) (t : State), exec .bbxRelease s = .next t) ∧
    (∃ (s : State) (t : State), exec .bbxOpComplete s = .next t) ∧
    (∃ (s : State) (t : State), exec .lockoutEnd s = .next t) ∧
    (∃ (s : State) (t : State), exec .ringSlotComplete s = .next t) :=
  ⟨⟨upState, next_of (by decide +kernel)⟩,
    ⟨0, upState, next_of (by decide +kernel)⟩,
    ⟨0, upState, next_of (by decide +kernel)⟩,
    ⟨0, upState, next_of (by decide +kernel)⟩,
    ⟨upState, next_of (by decide +kernel)⟩,
    ⟨upState, next_of (by decide +kernel)⟩,
    ⟨upState, next_of (by decide +kernel)⟩,
    ⟨0, upState, next_of (by decide +kernel)⟩,
    ⟨upState, next_of (by decide +kernel)⟩,
    ⟨upState, next_of (by decide +kernel)⟩,
    ⟨upState, next_of (by decide +kernel)⟩,
    ⟨upState, next_of (by decide +kernel)⟩,
    ⟨upState, next_of (by decide +kernel)⟩,
    ⟨upState, next_of (by decide +kernel)⟩,
    ⟨upState, next_of (by decide +kernel)⟩,
    ⟨upState, next_of (by decide +kernel)⟩,
    ⟨upState, next_of (by decide +kernel)⟩,
    ⟨0, upState, next_of (by decide +kernel)⟩,
    ⟨upState, next_of (by decide +kernel)⟩,
    ⟨0, 0, upState, next_of (by decide +kernel)⟩,
    ⟨0, upState, next_of (by decide +kernel)⟩,
    ⟨upState, next_of (by decide +kernel)⟩,
    ⟨upState, next_of (by decide +kernel)⟩,
    ⟨upState, next_of (by decide +kernel)⟩,
    ⟨upState, next_of (by decide +kernel)⟩,
    ⟨upState, next_of (by decide +kernel)⟩,
    ⟨upState, next_of (by decide +kernel)⟩⟩

/-- Meets the hypotheses of every clause of Obligations.UpdateFrames. -/
theorem witness_UpdateFrames :
    (∃ (s : State) (t : State), exec .updBegin s = .next t) ∧
    (∃ (s : State) (t : State), exec .updChunk s = .next t) ∧
    (∃ (s : State) (t : State), exec .updEnd s = .next t) ∧
    (∃ (s : State) (t : State), exec .prepareComplete s = .next t) ∧
    (∃ (s : State) (t : State), exec .updCommit s = .next t) ∧
    (∃ (a : Bool) (s : State) (t : State), exec (.commitWritesDone a) s = .next t) ∧
    (∃ (s : State) (t : State), exec .updActivate s = .next t) ∧
    (∃ (s : State) (t : State), exec .activationStep s = .next t) ∧
    (∃ (s : State) (t : State), exec .updAbort s = .next t) ∧
    (∃ (a : ImageCheck) (s : State) (t : State), exec (.mgmtRestart a) s = .next t) ∧
    (∃ (s : State) (t : State), exec .mgmtRestartComplete s = .next t) ∧
    (∃ (s : State) (t : State), exec .trialEnd s = .next t) ∧
    (∃ (s : State) (t : State), exec .updRollback s = .next t) ∧
    (∃ (a : Fin 32) (s : State) (t : State), exec (.slotActivateTimeout a) s = .next t) :=
  ⟨⟨upState, next_of (by decide +kernel)⟩,
    ⟨upState, next_of (by decide +kernel)⟩,
    ⟨upState, next_of (by decide +kernel)⟩,
    ⟨upState, next_of (by decide +kernel)⟩,
    ⟨upState, next_of (by decide +kernel)⟩,
    ⟨true, upState, next_of (by decide +kernel)⟩,
    ⟨upState, next_of (by decide +kernel)⟩,
    ⟨upState, next_of (by decide +kernel)⟩,
    ⟨upState, next_of (by decide +kernel)⟩,
    ⟨⟨false, 0, false, false, 0⟩, upState, next_of (by decide +kernel)⟩,
    ⟨upState, next_of (by decide +kernel)⟩,
    ⟨upState, next_of (by decide +kernel)⟩,
    ⟨upState, next_of (by decide +kernel)⟩,
    ⟨0, upState, next_of (by decide +kernel)⟩⟩

/-- Meets the hypotheses of every clause of Obligations.HostFrames. -/
theorem witness_HostFrames :
    (∃ (a : HstReset) (s : State) (t : State), exec (.hstReset a) s = .next t) ∧
    (∃ (a : Bool) (b : Bool) (d : BitVec 4) (e : BitVec 4) (f : BitVec 6) (s : State) (t : State), exec (.pcieLinkChange a b d e f) s = .next t) ∧
    (∃ (a : Fin 4) (b : Word) (s : State) (t : State), exec (.commandDoorbell a b) s = .next t) ∧
    (∃ (a : Fin 4) (b : Word) (s : State) (t : State), exec (.consumerDoorbell a b) s = .next t) ∧
    (∃ (a : Fin 4) (b : Vector Byte 32) (s : State) (t : State), exec (.commandFetch a b) s = .next t) ∧
    (∃ (a : Fin 4) (s : State) (t : State), exec (.nop a) s = .next t) ∧
    (∃ (a : Fin 4) (s : State) (t : State), exec (.nvpRead a) s = .next t) ∧
    (∃ (a : Fin 4) (b : List Byte) (s : State) (t : State), exec (.nvpWrite a b) s = .next t) ∧
    (∃ (a : Fin 4) (s : State) (t : State), exec (.nvpSave a) s = .next t) ∧
    (∃ (a : Fin 4) (b : List Byte) (s : State) (t : State), exec (.mbReq a b) s = .next t) ∧
    (∃ (a : Fin 4) (b : List Byte) (s : State) (t : State), exec (.updOp a b) s = .next t) ∧
    (∃ (a : Fin 4) (s : State) (t : State), exec (.modeReq a) s = .next t) ∧
    (∃ (a : Fin 4) (s : State) (t : State), exec (.bbxCopy a) s = .next t) ∧
    (∃ (a : Fin 4) (s : State) (t : State), exec (.commandComplete a) s = .next t) ∧
    (∃ (a : Fin 8) (b : Bool) (d : DmaError) (s : State) (t : State), exec (.hostDmaError a b d) s = .next t) ∧
    (∃ (s : State) (t : State), exec .telemetryCapture s = .next t) ∧
    (∃ (a : Fin 64) (s : State) (t : State), exec (.msixModerationEnd a) s = .next t) ∧
    (∃ (s : State) (t : State), exec .evtSumClear s = .next t) ∧
    (∃ (s : State) (t : State), exec .evtTripClear s = .next t) :=
  ⟨⟨.flr, upState, next_of (by decide +kernel)⟩,
    ⟨true, true, 0, 0, 0, upState, next_of (by decide +kernel)⟩,
    ⟨0, 0, upState, next_of (by decide +kernel)⟩,
    ⟨0, 0, upState, next_of (by decide +kernel)⟩,
    ⟨0, Vector.replicate 32 0, upState, next_of (by decide +kernel)⟩,
    ⟨0, upState, next_of (by decide +kernel)⟩,
    ⟨0, upState, next_of (by decide +kernel)⟩,
    ⟨0, [], upState, next_of (by decide +kernel)⟩,
    ⟨0, upState, next_of (by decide +kernel)⟩,
    ⟨0, [], upState, next_of (by decide +kernel)⟩,
    ⟨0, [], upState, next_of (by decide +kernel)⟩,
    ⟨0, upState, next_of (by decide +kernel)⟩,
    ⟨0, upState, next_of (by decide +kernel)⟩,
    ⟨0, upState, next_of (by decide +kernel)⟩,
    ⟨0, true, .ur, upState, next_of (by decide +kernel)⟩,
    ⟨upState, next_of (by decide +kernel)⟩,
    ⟨0, upState, next_of (by decide +kernel)⟩,
    ⟨upState, next_of (by decide +kernel)⟩,
    ⟨upState, next_of (by decide +kernel)⟩⟩

/-- Meets the hypotheses of every clause of Obligations.TwoWireFrames. -/
theorem witness_TwoWireFrames :
    (∃ (a : Fin 4) (b : Word) (s : State) (t : State), exec (.twpGo a b) s = .next t) ∧
    (∃ (a : Fin 4) (b : Fin 8) (s : State) (t : State), exec (.twpArbRetry a b) s = .next t) ∧
    (∃ (a : Fin 4) (b : TwpOutcome) (s : State) (t : State), exec (.twpTransactionDone a b) s = .next t) ∧
    (∃ (a : Fin 4) (b : List Byte) (d : Byte) (s : State) (t : State), exec (.twpTargetWrite a b d) s = .next t) ∧
    (∃ (a : Fin 4) (b : Nat) (s : State) (t : State), exec (.twpTargetRead a b) s = .next t) ∧
    (∃ (a : Fin 4) (b : Fin 8) (d : Option Nat) (s : State) (t : State), exec (.twpAttnRequest a b d) s = .next t) ∧
    (∃ (a : Fin 4) (b : BitVec 7) (d : List Byte) (s : State) (t : State), exec (.twpAttention a b d) s = .next t) ∧
    (∃ (a : Fin 4) (s : State) (t : State), exec (.twpTimeout a) s = .next t) ∧
    (∃ (a : Fin 4) (b : Nat) (d : Bool) (s : State) (t : State), exec (.twpBusRecovery a b d) s = .next t) ∧
    (∃ (a : Fin 4) (b : Bool) (s : State) (t : State), exec (.twpRecoveryRetry a b) s = .next t) ∧
    (∃ (s : State) (t : State), exec .beaconRead s = .next t) ∧
    (∃ (a : BitVec 16) (s : State) (t : State), exec (.beaconDemote a) s = .next t) ∧
    (∃ (s : State) (t : State), exec .beaconDemoteEnd s = .next t) ∧
    (∃ (a : BitVec 16) (s : State) (t : State), exec (.beaconSafeShutdown a) s = .next t) ∧
    (∃ (s : State) (t : State), exec .beaconShutdownTimeout s = .next t) ∧
    (∃ (a : BitVec 16) (s : State) (t : State), exec (.beaconSave a) s = .next t) ∧
    (∃ (a : BitVec 16) (s : State) (t : State), exec (.beaconClearAttn a) s = .next t) ∧
    (∃ (a : BitVec 16) (s : State) (t : State), exec (.beaconBadWord a) s = .next t) :=
  ⟨⟨0, 0, upState, next_of (by decide +kernel)⟩,
    ⟨0, 0, upState, next_of (by decide +kernel)⟩,
    ⟨0, .nackAddr, upState, next_of (by decide +kernel)⟩,
    ⟨0, [], 0, upState, next_of (by decide +kernel)⟩,
    ⟨0, 0, upState, next_of (by decide +kernel)⟩,
    ⟨0, 0, none, upState, next_of (by decide +kernel)⟩,
    ⟨0, 0, [], upState, next_of (by decide +kernel)⟩,
    ⟨0, upState, next_of (by decide +kernel)⟩,
    ⟨0, 0, true, upState, next_of (by decide +kernel)⟩,
    ⟨0, true, upState, next_of (by decide +kernel)⟩,
    ⟨upState, next_of (by decide +kernel)⟩,
    ⟨0, upState, next_of (by decide +kernel)⟩,
    ⟨upState, next_of (by decide +kernel)⟩,
    ⟨0, upState, next_of (by decide +kernel)⟩,
    ⟨upState, next_of (by decide +kernel)⟩,
    ⟨0, upState, next_of (by decide +kernel)⟩,
    ⟨0, upState, next_of (by decide +kernel)⟩,
    ⟨0, upState, next_of (by decide +kernel)⟩⟩

/-- Meets the hypotheses of every clause of Obligations.ClaimsAreOrdered. -/
theorem witness_ClaimsAreOrdered : ∃ (c1 : Byte) (c2 : Byte), c1.toNat % 2 ≠ c2.toNat % 2 ∧ claimHigher c1 c2 = false ∧ claimHigher c2 c1 = false :=
  ⟨0x00, 0x01, by decide +kernel⟩

/-- Meets the hypotheses of every clause of Obligations.HeadboxPeriodChanges. -/
theorem witness_HeadboxPeriodChanges :
    (∃ (s : State), s.runs .dsp = true ∧ s.atTick = true ∧ s.fld F.HBX_PERIOD.ticks ≠ s.hbx.period ∧ s.tick % s.hbx.period = 0 ∧ s.tick % s.fld F.HBX_PERIOD.ticks = 0) ∧
    (∃ (s : State), ¬ (s.atTick = true ∧ s.tick % s.hbx.period = 0 ∧ s.tick % s.fld F.HBX_PERIOD.ticks = 0)) :=
  ⟨⟨{ upState with tickAt := some 0 }.setFld F.HBX_PERIOD.ticks 2, by decide +kernel⟩,
    ⟨upState, by decide +kernel⟩⟩

/-- Meets the hypotheses of every clause of Obligations.PowerFailRide. -/
theorem witness_PowerFailRide :
    (∃ (s : State), s.aon.pf = true ∧ s.aon.vaon = true ∧ s.aon.pfGood = true ∧ s.regs.wf = true) ∧
    (∃ (s : State), s.aon.pf = true ∧ s.aon.vaon = true ∧ s.aon.pfGood = true ∧ s.nvp.commit ≠ none) :=
  ⟨⟨upState.modAon (fun a => { a with pf := true, pfGood := true }), by decide +kernel⟩,
    ⟨(upState.modAon (fun a => { a with pf := true, pfGood := true })).modNvp (fun v => { v with commit := some 0 }), by decide +kernel⟩⟩

/-- Meets the hypotheses of every clause of Obligations.RepairedUnitStandsBy. -/
theorem witness_RepairedUnitStandsBy :
    (∃ (s : State), s.runs .mgt = true ∧ s.sys.step = 8 ∧ s.strap = .pair ∧ s.peerAccepted = true ∧ claimRole s.red.peer = 3) ∧
    (∃ (c : _) (s : State) (t : State), exec c s = .next t ∧ s.sys.role = .standby ∧ t.sys.role ≠ .standby) :=
  ⟨⟨paired, by decide +kernel⟩,
    ⟨.takeNAccept, takeable, after .takeNAccept takeable, after_next (by decide +kernel), by decide +kernel⟩⟩

/-- Meets the hypotheses of every clause of Obligations.ThermalWarningRefuses. -/
theorem witness_ThermalWarningRefuses :
    (∃ (s : State), s.thmWarn = true ∧ s.runs .hst = true ∧ s.sys.step ≠ 15) ∧
    (∃ (s : State) (m : _), s.thmWarn = true ∧ s.upd.man = some m ∧ m.ordinary = true) :=
  ⟨⟨warned, by decide +kernel⟩,
    ⟨warned.modUpd (fun u => { u with man := some man1 }), man1, by decide +kernel⟩⟩

/-- Meets the hypotheses of every clause of Obligations.WritesLandOnlyThere. -/
theorem witness_WritesLandOnlyThere :
    (∃ (off : BitVec 20) (v : Word) (s : State) (t : State) (w : _), s.law.wf = true ∧ exec (.coeffShadowWrite off v) s = .next t ∧ w ≠ off.toNat - 0x40000) ∧
    (∃ (off : BitVec 20) (v : Word) (s : State) (t : State) (w : _), s.hbx.wf = true ∧ exec (.costCurveWrite off v) s = .next t ∧ w ≠ off.toNat - 0x50000) ∧
    (∃ (a : Word) (b : Word) (n : Nat) (s : State) (t : State) (c : _) (w : _), s.otp.wf = true ∧ s.otp.cmd = some c ∧ exec (.otpCommandComplete a b n) s = .next t ∧ w ≠ c.word) ∧
    (∃ (us : Nat) (s : State) (t : State) (w : _), s.nvp.wf = true ∧ exec (.nvpCommitDone us) s = .next t ∧ w ∉ s.nvp.buf.map (·.1)) ∧
    (∃ (p : Fin 4) (q : Fin 4) (c : _) (s : State) (t : State), q ≠ p ∧ exec c s = .next t ∧ (((∃ v, c = .twpGo p v) ∨ (∃ e, c = .twpArbRetry p e) ∨ (∃ o, c = .twpTransactionDone p o) ∨ (∃ b d, c = .twpTargetWrite p b d) ∨ (∃ n, c = .twpTargetRead p n) ∨ (∃ e w, c = .twpAttnRequest p e w) ∨ (∃ a b, c = .twpAttention p a b) ∨ c = .twpTimeout p ∨ (∃ n h, c = .twpBusRecovery p n h) ∨ (∃ h, c = .twpRecoveryRetry p h)))) ∧
    (∃ (r : Fin 4) (v : Word) (s : State) (t : State) (q : Fin 8), q.val ≠ r.val ∧ exec (.commandDoorbell r v) s = .next t) ∧
    (∃ (r : Fin 4) (v : Word) (s : State) (t : State) (q : Fin 8), q.val ≠ 4 + r.val ∧ exec (.consumerDoorbell r v) s = .next t) :=
  ⟨⟨0x44FFC, 7, upState, after (.coeffShadowWrite 0x44FFC 7) upState, 0, rfl, after_next (by decide +kernel), by decide +kernel⟩,
    ⟨0x509FC, 7, upState, after (.costCurveWrite 0x509FC 7) upState, 0, rfl, after_next (by decide +kernel), by decide +kernel⟩,
    ⟨1, 1, 0, { upState with otp := { Otp.reset with cmd := some ⟨1, 0x72, 1, 0⟩ } }, after (.otpCommandComplete 1 1 0) { upState with otp := { Otp.reset with cmd := some ⟨1, 0x72, 1, 0⟩ } }, ⟨1, 0x72, 1, 0⟩, 0x73, by decide +kernel, rfl, after_next (by decide +kernel), by decide +kernel⟩,
    ⟨1, { upState with nvp := { Nvp.reset with buf := [(3, 5)], commit := some 0 } }, after (.nvpCommitDone 1) { upState with nvp := { Nvp.reset with buf := [(3, 5)], commit := some 0 } }, 4, by decide +kernel, after_next (by decide +kernel), by decide +kernel⟩,
    ⟨3, 2, .twpTimeout 3, twi false id 0, after (.twpTimeout 3) (twi false id 0), by decide +kernel, after_next (by decide +kernel), by simp⟩,
    ⟨3, 15, rings, after (.commandDoorbell 3 15) rings, 0, by decide +kernel, after_next (by decide +kernel)⟩,
    ⟨3, 15, rings, after (.consumerDoorbell 3 15) rings, 0, by decide +kernel, after_next (by decide +kernel)⟩⟩
end

section
/-! SUPPORT. What each command may change, said once for all commands: the list of parts that bounds a command's step, and
that every command answers by such a step. -/

namespace Sys2Proof.Machine

/-- The parts that a command may change. Commands of one list stand together. -/
def mayChange : Instr → List Part
  | .aonPowerGood _ _ | .rstNRelease => [.regs, .chans, .aon, .sys, .otp]
  | .otpG5Check | .otpProg => [.regs, .chans, .otp]
  | .rstNAssert | .sysRstCold _ | .transportWake | .vaonLost =>
      [.freeCtr, .tick, .regs, .chans, .aon, .sys, .sns, .law, .pwm, .hbx, .dkl, .vat, .bat, .slt, .red, .arb, .seq, .thm,
       .otp, .nvp, .bbx, .upd, .hst, .evt, .twp, .lock, .mode, .role, .epoch, .fuse, .store, .config]
  | .sysRstWarm _ | .supplyPgLost _ | .refLost =>
      [.freeCtr, .tick, .regs, .chans, .aon, .sys, .sns, .law, .pwm, .hbx, .dkl, .vat, .bat, .slt, .red, .arb, .seq, .thm,
       .otp, .nvp, .bbx, .upd, .hst, .evt, .twp, .mode, .role, .fuse, .store, .config]
  | .supplyPgReturn | .refReturn | .fwLivenessWrite | .aonThermalGate _ | .evtTripClear | .beaconRead => [.aon]
  | .coreRelease _ _ => [.aon, .sys]
  | .pllLock => [.freeCtr, .aon, .sys, .sns]
  | .bootImageVerified _ _ _ => [.regs, .chans, .sys, .otp, .nvp, .bbx, .upd, .mode]
  | .configLoad =>
      [.regs, .chans, .aon, .sys, .law, .pwm, .hbx, .bat, .slt, .slot, .seq, .thm, .nvp, .bbx, .upd, .hst, .twp, .config]
  | .selfTestComplete _ => [.regs, .chans, .sys, .nvp, .upd]
  | .roleDecision =>
      [.time, .tick, .regs, .chans, .aon, .sys, .sns, .law, .pwm, .hbx, .dkl, .vat, .bat, .slt, .slot, .red, .arb, .thm, .upd,
       .hst, .twp, .role, .epoch, .config]
  | .bootStep9 => [.freeCtr, .regs, .chans, .aon, .sys, .seq, .otp, .fuse]
  | .watchdogExpiry | .thermalResetHold =>
      [.time, .freeCtr, .tick, .regs, .chans, .aon, .sys, .sns, .law, .pwm, .hbx, .dkl, .vat, .bat, .slt, .red, .arb, .seq,
       .thm, .otp, .nvp, .bbx, .upd, .hst, .evt, .twp, .mode, .role, .fuse, .store, .config]
  | .wdtKick => [.sys]
  | .configLock => [.sys, .lock]
  | .modeRequest _ | .holdupOverlayRequest | .modeReq _ => [.regs, .chans, .sys, .seq, .nvp, .hst]
  | .overlaySwap | .transportOverlayApply =>
      [.regs, .chans, .sys, .law, .pwm, .hbx, .slt, .slot, .seq, .thm, .otp, .nvp, .bbx, .upd, .hst, .twp, .mode, .config]
  | .serviceOverlayRequest => [.regs, .chans, .sys, .seq, .nvp]
  | .transportGate =>
      [.freeCtr, .tick, .regs, .chans, .aon, .sys, .sns, .law, .pwm, .hbx, .dkl, .vat, .bat, .slt, .red, .arb, .seq, .thm,
       .otp, .nvp, .bbx, .upd, .hst, .evt, .twp, .mode, .role, .fuse, .config]
  | .regWrite _ _ =>
      [.regs, .chans, .law, .pwm, .hbx, .bat, .slt, .slot, .seq, .thm, .otp, .bbx, .upd, .hst, .evt, .twp, .config]
  | .shadowWriteApply => [.regs, .chans, .law, .pwm, .hbx, .slt, .slot, .seq, .thm, .upd, .hst, .twp, .config]
  | .gatedAccess _ _ => [.regs, .chans]
  | .latchedPairRead _ => [.regs, .sns]
  | .counterClear _ => [.regs, .aon, .law, .pwm, .hbx, .dkl, .vat, .bat, .slt, .red, .arb, .seq, .nvp, .bbx, .upd, .hst, .twp]
  | .shelfTick => [.time, .tick, .regs, .chans, .aon, .sns, .law, .pwm, .hbx, .slt, .red]
  | .dspSnapshot => [.time, .freeCtr, .regs, .chans, .sys, .law, .pwm, .hbx, .dkl, .vat, .slt, .red, .seq, .nvp, .upd]
  | .huExit => [.time, .regs, .chans, .sys, .vat, .upd]
  | .hbxResultsRelease => [.time, .chans, .hbx, .dkl]
  | .resultsDelivery => [.time, .pwm, .hbx, .dkl, .red]
  | .payloadFreeze => [.time, .regs, .chans, .hbx, .slt]
  | .hbxPeriodChange | .hbxCommitRequest | .derateClear => [.hbx]
  | .phaseSampleAperture _ | .idleSample _ => [.time, .sns, .pwm]
  | .railVoltageConversion _ | .busConversion | .ntcIdSample _ _ => [.time, .sns]
  | .scanSample _ => [.time, .regs, .sns, .seq]
  | .snsConversionComplete _ _ => [.time, .regs, .sns, .law, .pwm]
  | .cbcCrossing _ _ => [.regs, .chans, .pwm, .stage]
  | .lawTrigger _ => [.time, .regs, .chans, .aon, .law, .pwm, .hbx, .dkl, .seq]
  | .lawOutputWrite _ | .rampUpdate | .railEnableChange _ | .railPauseChange _ => [.regs, .chans, .law, .pwm]
  | .lawSnapRequest _ | .lawCommitRequest _ | .lawShadowCopyDone _ => [.law]
  | .coeffShadowWrite _ _ => [.regs, .law]
  | .lawBankSwap _ => [.regs, .chans, .law]
  | .pwmPeriodStart _ => [.time, .regs, .chans, .sns, .pwm, .stage]
  | .phaseShed _ | .phaseAdd _ | .phaseOpenDetect _ | .phaseSenseStuck _ | .sumCheckFail _ | .phaseAssignmentApply _ |
    .syncInEdge => [.regs, .chans, .pwm]
  | .syncLost => [.time, .regs, .chans, .pwm]
  | .startShort _ => [.regs, .chans, .aon, .law, .pwm, .seq]
  | .hiccupEnd _ => [.time, .law, .pwm]
  | .trackEdge _ _ => [.chans, .pwm]
  | .trackStatic _ => [.time, .chans, .pwm]
  | .hbxCommitSwap => [.regs, .chans, .law, .pwm, .hbx, .slt, .slot, .thm, .upd, .hst, .twp, .config]
  | .hbxStagedCopyDone | .costCurveWrite _ _ => [.regs, .hbx]
  | .shedClear => [.dkl]
  | .stringStrobe _ _ => [.regs, .chans, .sns, .pwm, .vat, .bat]
  | .zdMeasurement _ => [.chans, .bat]
  | .presenceChange _ | .eodDeclare _ | .eocDeclare _ | .batDisable _ | .batForget _ => [.regs, .chans, .vat, .bat, .nvp]
  | .batBlock => [.chans, .vat, .bat, .red]
  | .batSecond => [.regs, .chans, .bat]
  | .batHour => [.time, .chans, .bat]
  | .batAgeTick => [.time, .regs, .chans, .bat, .nvp]
  | .batEnable _ => [.regs, .chans, .bat, .config]
  | .batTransportPrep => [.sys, .vat, .bat]
  | .batTransportRelease => [.time, .regs, .chans, .sys, .bat, .nvp]
  | .uplinkFrameReceived _ _ => [.freeCtr, .regs, .chans, .hbx, .dkl, .slt, .slot, .upd, .hst]
  | .linkLost _ => [.time, .regs, .chans, .slt, .slot, .upd, .hst]
  | .linkRetrain _ => [.chans, .slt, .slot, .upd, .hst]
  | .mbResend _ => [.chans, .slt]
  | .mbRequestTimeout _ _ => [.time, .freeCtr, .slt, .upd, .hst]
  | .slotFrameApply _ => [.slot]
  | .slotClaimExpiry _ _ => [.time, .slt, .slot, .upd, .hst]
  | .slotHoldExpiry _ | .slotHoldBegin _ => [.time, .slot]
  | .clmWordStart => [.time, .red]
  | .stageClmWordReceived _ _ _ => [.stage]
  | .stageClaimExpiry _ _ => [.time, .stage]
  | .demoteNAccept | .beaconDemote _ => [.regs, .chans, .aon, .sys, .law, .slt, .red, .seq, .role, .config]
  | .demoteNRelease => [.chans, .aon, .red]
  | .takeNAccept => [.regs, .chans, .aon, .sys, .law, .hbx, .red, .seq, .role, .epoch]
  | .heartbeatFormChange => [.time, .chans, .aon]
  | .tickStrobeTimeout _ | .fwLivenessTimeout | .thermalRestartRelease => [.time, .aon]
  | .vhbEdge _ => [.chans, .arb]
  | .hbDeadTimeout _ => [.time, .chans, .arb]
  | .takeDeferredEval | .takePulseEnd | .demoteHoldEnd _ => [.time, .arb]
  | .chezonPacketReceived _ => [.freeCtr, .regs, .chans, .aon, .sys, .slt, .red, .seq, .otp, .nvp, .upd, .fuse, .flash]
  | .chezonTrained _ _ | .chezonOneLane _ | .drillNow => [.chans, .red]
  | .chezonLinkDown => [.time, .chans, .sys, .red, .upd]
  | .chezonPacketSend | .chezonTrainingFailed => [.red]
  | .timeTransfer _ _ _ => [.tick, .regs, .chans, .red]
  | .snapshotCapture => [.freeCtr, .red]
  | .snapshotReceived _ _ => [.regs, .chans, .aon, .law, .pwm, .red, .epoch]
  | .standbyKeepExpiry | .drillSchedule | .drillComplete => [.time, .chans, .red]
  | .lonePeerHigherTimeout => [.time, .regs, .config]
  | .seqStep => [.chans, .sys, .seq]
  | .nodeOnDelayEnd _ | .nodeSettleEnd _ | .nodeOffDelayEnd _ => [.time, .seq]
  | .riseTimeout _ | .fallTimeout _ => [.time, .regs, .chans, .seq]
  | .pgChange _ | .seqTrip => [.regs, .chans, .aon, .seq]
  | .seqGo | .seqRetry => [.seq]
  | .seqStop => [.chans, .seq]
  | .seqTripClr => [.aon, .seq]
  | .restartDelayEnd => [.time, .chans, .seq]
  | .thmStep _ | .thmSecond => [.regs, .chans, .aon, .pwm, .hbx, .dkl, .seq, .thm]
  | .sensorRestored _ => [.chans, .thm]
  | .diodeConversion _ _ => [.thm]
  | .thermalShutdown => [.freeCtr, .chans, .aon, .sys, .slt, .red, .otp, .role, .fuse]
  | .otpArm => [.otp]
  | .otpLock _ => [.regs, .chans, .otp, .config]
  | .otpReadN | .otpReadM => [.regs, .otp]
  | .otpCommandComplete _ _ _ => [.freeCtr, .regs, .chans, .otp, .fuse]
  | .otpReread => [.time, .regs, .chans, .otp]
  | .nvpCommitRequest => [.nvp]
  | .nvpCommitDone _ => [.regs, .chans, .nvp, .store]
  | .nvpRawRead _ => [.freeCtr, .regs, .chans, .nvp, .config]
  | .powerFailAssert _ => [.freeCtr, .regs, .chans, .aon, .slt, .otp, .nvp, .bbx, .upd, .hst, .evt, .fuse, .store]
  | .pfRide | .beaconSave _ => [.regs, .chans, .aon, .nvp]
  | .hourlySave => [.time, .regs, .nvp]
  | .nvpSaveRequest => [.regs, .nvp]
  | .saveComplete _ | .ringSlotComplete => [.freeCtr, .regs, .chans, .nvp, .bbx, .store, .config]
  | .nvpRestore => [.regs, .chans, .aon, .nvp, .bbx]
  | .shadowImageRestore | .bbxRecordWrite | .bbxSealNow | .bbxOpComplete => [.regs, .chans, .aon, .nvp, .bbx, .hst, .evt]
  | .nvpScrub => [.time, .regs, .chans, .nvp]
  | .nvpScrubRequest => [.regs, .chans, .nvp]
  | .bbxEventEnqueue => [.freeCtr, .chans, .aon, .bbx, .hst, .evt]
  | .tokenRefill | .nonceExpiry | .lockoutEnd => [.time, .bbx]
  | .traceRow => [.chans, .nvp, .bbx, .hst, .evt]
  | .traceFreeze => [.time, .nvp, .bbx]
  | .watermarkDone _ => [.nvp, .bbx]
  | .reamPointerRead _ _ | .bbxNonceRequest _ => [.bbx]
  | .bbxClear | .bbxRelease => [.regs, .chans, .bbx]
  | .updBegin | .prepareComplete | .updCommit | .updActivate => [.chans, .upd]
  | .updChunk | .updEnd => [.freeCtr, .chans, .slt, .upd, .flash]
  | .commitWritesDone _ | .updAbort => [.regs, .chans, .slt, .nvp, .upd]
  | .activationStep => [.freeCtr, .regs, .chans, .slt, .red, .nvp, .upd]
  | .mgmtRestart _ => [.regs, .chans, .sys, .nvp, .upd, .twp]
  | .mgmtRestartComplete => [.regs, .chans, .aon, .sys, .law, .hbx, .bat, .seq, .nvp, .bbx, .upd, .hst, .config]
  | .trialEnd => [.time, .freeCtr, .regs, .chans, .otp, .nvp, .upd, .fuse]
  | .updRollback => [.regs, .chans, .nvp, .upd]
  | .slotActivateTimeout _ => [.time, .freeCtr, .chans, .slt, .upd]
  | .hstReset _ => [.regs, .hst, .evt, .config]
  | .pcieLinkChange _ _ _ _ _ | .consumerDoorbell _ _ | .commandComplete _ => [.chans, .hst, .evt]
  | .ringEnable _ _ => [.regs, .hst, .config]
  | .commandDoorbell _ _ | .hostDmaError _ _ _ => [.chans, .hst]
  | .commandFetch _ _ | .nop _ => [.hst]
  | .nvpRead _ | .nvpWrite _ _ => [.regs, .chans, .nvp, .hst]
  | .nvpSave _ => [.regs, .nvp, .hst]
  | .mbReq _ _ => [.slt, .hst]
  | .updOp _ _ => [.freeCtr, .regs, .chans, .slt, .nvp, .upd, .hst, .flash]
  | .bbxCopy _ => [.bbx, .hst]
  | .telemetryCapture => [.time, .chans, .hst, .evt]
  | .msixModerationEnd _ => [.time, .hst, .evt]
  | .evtSumClear => [.aon, .evt]
  | .twpGo _ _ | .twpTransactionDone _ _ => [.regs, .chans, .twp, .config]
  | .twpArbRetry _ _ | .twpTargetWrite _ _ _ | .twpAttention _ _ _ | .twpTimeout _ => [.regs, .chans, .twp]
  | .twpTargetRead _ _ => [.twp]
  | .twpAttnRequest _ _ _ => [.regs, .twp, .config]
  | .twpBusRecovery _ _ _ => [.chans, .twp]
  | .twpRecoveryRetry _ _ => [.time, .chans, .twp]
  | .beaconDemoteEnd => [.time, .chans, .aon, .red]
  | .beaconSafeShutdown _ => [.chans, .aon, .seq]
  | .beaconShutdownTimeout => [.time, .regs, .chans, .aon, .sys, .law, .slt, .red, .seq, .role, .config]
  | .beaconClearAttn _ => [.chans, .aon, .evt]
  | .beaconBadWord _ => [.chans, .aon]
  | .pwmEdge _ => [.time, .regs, .chans, .pwm, .stage]
  | .slotDownlinkReceived _ _ _ => [.freeCtr, .slot]

/-- Every command answers a next state, by a step that changes the parts of its list alone. -/
theorem exec_answers (c : Instr) (s : State) : Answers (mayChange c) s (exec c s) :=
  match c with
  | .aonPowerGood .. => step_execAonPowerGood
  | .otpG5Check => step_execOtpG5Check
  | .rstNAssert => step_execRstNAssert
  | .rstNRelease => step_execRstNRelease
  | .sysRstCold .. => step_execSysRstCold
  | .sysRstWarm .. => step_execSysRstWarm
  | .supplyPgLost .. => step_execSupplyPgLost
  | .supplyPgReturn => step_execSupplyPgReturn
  | .refLost => step_execRefLost
  | .refReturn => step_execRefReturn
  | .coreRelease .. => step_execCoreRelease
  | .pllLock => step_execPllLock
  | .bootImageVerified .. => step_execBootImageVerified
  | .configLoad => step_execConfigLoad
  | .selfTestComplete .. => step_execSelfTestComplete
  | .roleDecision => step_execRoleDecision
  | .bootStep9 => step_execBootStep9
  | .watchdogExpiry => step_execWatchdogExpiry
  | .wdtKick => step_execWdtKick
  | .configLock => step_execConfigLock
  | .modeRequest .. => step_execModeRequest
  | .overlaySwap => step_execOverlaySwap
  | .holdupOverlayRequest => step_execHoldupOverlayRequest
  | .serviceOverlayRequest => step_execServiceOverlayRequest
  | .transportOverlayApply => step_execTransportOverlayApply
  | .transportGate => step_execTransportGate
  | .transportWake => step_execTransportWake
  | .regWrite .. => step_execRegWrite
  | .shadowWriteApply => step_execShadowWriteApply
  | .gatedAccess _ isWrite => step_execGatedAccess (_isWrite := isWrite)
  | .latchedPairRead .. => step_execLatchedPairRead
  | .counterClear .. => step_execCounterClear
  | .shelfTick => step_execShelfTick
  | .dspSnapshot => step_execDspSnapshot
  | .huExit => step_execHuExit
  | .hbxResultsRelease => step_execHbxResultsRelease
  | .resultsDelivery => step_execResultsDelivery
  | .payloadFreeze => step_execPayloadFreeze
  | .hbxPeriodChange => step_execHbxPeriodChange
  | .phaseSampleAperture .. => step_execPhaseSampleAperture
  | .idleSample .. => step_execIdleSample
  | .railVoltageConversion .. => step_execRailVoltageConversion
  | .busConversion => step_execBusConversion
  | .scanSample .. => step_execScanSample
  | .ntcIdSample .. => step_execNtcIdSample
  | .snsConversionComplete .. => step_execSnsConversionComplete
  | .cbcCrossing .. => step_execCbcCrossing
  | .lawTrigger .. => step_execLawTrigger
  | .lawOutputWrite .. => step_execLawOutputWrite
  | .lawSnapRequest .. => step_execLawSnapRequest
  | .coeffShadowWrite .. => step_execCoeffShadowWrite
  | .lawCommitRequest .. => step_execLawCommitRequest
  | .lawBankSwap .. => step_execLawBankSwap
  | .lawShadowCopyDone .. => step_execLawShadowCopyDone
  | .pwmPeriodStart .. => step_execPwmPeriodStart
  | .phaseShed .. => step_execPhaseShed
  | .phaseAdd .. => step_execPhaseAdd
  | .phaseOpenDetect .. => step_execPhaseOpenDetect
  | .phaseSenseStuck .. => step_execPhaseSenseStuck
  | .sumCheckFail .. => step_execSumCheckFail
  | .phaseAssignmentApply .. => step_execPhaseAssignmentApply
  | .syncInEdge => step_execSyncInEdge
  | .syncLost => step_execSyncLost
  | .rampUpdate => step_execRampUpdate
  | .startShort .. => step_execStartShort
  | .hiccupEnd .. => step_execHiccupEnd
  | .trackEdge .. => step_execTrackEdge
  | .trackStatic .. => step_execTrackStatic
  | .railEnableChange .. => step_execRailEnableChange
  | .railPauseChange .. => step_execRailPauseChange
  | .hbxCommitRequest => step_execHbxCommitRequest
  | .hbxCommitSwap => step_execHbxCommitSwap
  | .hbxStagedCopyDone => step_execHbxStagedCopyDone
  | .costCurveWrite .. => step_execCostCurveWrite
  | .derateClear => step_execDerateClear
  | .shedClear => step_execShedClear
  | .stringStrobe .. => step_execStringStrobe
  | .zdMeasurement .. => step_execZdMeasurement
  | .presenceChange .. => step_execPresenceChange
  | .batBlock => step_execBatBlock
  | .eodDeclare .. => step_execEodDeclare
  | .eocDeclare .. => step_execEocDeclare
  | .batSecond => step_execBatSecond
  | .batHour => step_execBatHour
  | .batAgeTick => step_execBatAgeTick
  | .batEnable .. => step_execBatEnable
  | .batDisable .. => step_execBatDisable
  | .batForget .. => step_execBatForget
  | .batTransportPrep => step_execBatTransportPrep
  | .batTransportRelease => step_execBatTransportRelease
  | .uplinkFrameReceived .. => step_execUplinkFrameReceived
  | .linkLost .. => step_execLinkLost
  | .linkRetrain .. => step_execLinkRetrain
  | .mbResend .. => step_execMbResend
  | .mbRequestTimeout .. => step_execMbRequestTimeout
  | .slotFrameApply .. => step_execSlotFrameApply
  | .slotClaimExpiry .. => step_execSlotClaimExpiry
  | .slotHoldExpiry .. => step_execSlotHoldExpiry
  | .clmWordStart => step_execClmWordStart
  | .stageClmWordReceived .. => step_execStageClmWordReceived
  | .stageClaimExpiry .. => step_execStageClaimExpiry
  | .demoteNAccept => step_execDemoteNAccept
  | .demoteNRelease => step_execDemoteNRelease
  | .takeNAccept => step_execTakeNAccept
  | .heartbeatFormChange => step_execHeartbeatFormChange
  | .tickStrobeTimeout .. => step_execTickStrobeTimeout
  | .fwLivenessTimeout => step_execFwLivenessTimeout
  | .fwLivenessWrite => step_execFwLivenessWrite
  | .vhbEdge .. => step_execVhbEdge
  | .hbDeadTimeout .. => step_execHbDeadTimeout
  | .takeDeferredEval => step_execTakeDeferredEval
  | .takePulseEnd => step_execTakePulseEnd
  | .demoteHoldEnd .. => step_execDemoteHoldEnd
  | .chezonPacketReceived .. => step_execChezonPacketReceived
  | .chezonTrained .. => step_execChezonTrained
  | .chezonOneLane .. => step_execChezonOneLane
  | .chezonLinkDown => step_execChezonLinkDown
  | .chezonPacketSend => step_execChezonPacketSend
  | .timeTransfer .. => step_execTimeTransfer
  | .snapshotCapture => step_execSnapshotCapture
  | .snapshotReceived .. => step_execSnapshotReceived
  | .standbyKeepExpiry => step_execStandbyKeepExpiry
  | .lonePeerHigherTimeout => step_execLonePeerHigherTimeout
  | .drillNow => step_execDrillNow
  | .drillSchedule => step_execDrillSchedule
  | .drillComplete => step_execDrillComplete
  | .seqStep => step_execSeqStep
  | .nodeOnDelayEnd .. => step_execNodeOnDelayEnd
  | .nodeSettleEnd .. => step_execNodeSettleEnd
  | .riseTimeout .. => step_execRiseTimeout
  | .nodeOffDelayEnd .. => step_execNodeOffDelayEnd
  | .fallTimeout .. => step_execFallTimeout
  | .pgChange .. => step_execPgChange
  | .seqGo => step_execSeqGo
  | .seqStop => step_execSeqStop
  | .seqRetry => step_execSeqRetry
  | .seqTrip => step_execSeqTrip
  | .seqTripClr => step_execSeqTripClr
  | .restartDelayEnd => step_execRestartDelayEnd
  | .thmStep .. => step_execThmStep
  | .sensorRestored .. => step_execSensorRestored
  | .diodeConversion .. => step_execDiodeConversion
  | .thmSecond => step_execThmSecond
  | .aonThermalGate .. => step_execAonThermalGate
  | .thermalShutdown => step_execThermalShutdown
  | .thermalResetHold => step_execThermalResetHold
  | .thermalRestartRelease => step_execThermalRestartRelease
  | .otpArm => step_execOtpArm
  | .otpProg => step_execOtpProg
  | .otpLock .. => step_execOtpLock
  | .otpReadN => step_execOtpReadN
  | .otpReadM => step_execOtpReadM
  | .otpCommandComplete .. => step_execOtpCommandComplete
  | .otpReread => step_execOtpReread
  | .nvpCommitRequest => step_execNvpCommitRequest
  | .nvpCommitDone .. => step_execNvpCommitDone
  | .nvpRawRead .. => step_execNvpRawRead
  | .powerFailAssert .. => step_execPowerFailAssert
  | .pfRide => step_execPfRide
  | .hourlySave => step_execHourlySave
  | .nvpSaveRequest => step_execNvpSaveRequest
  | .saveComplete .. => step_execSaveComplete
  | .nvpRestore => step_execNvpRestore
  | .shadowImageRestore => step_execShadowImageRestore
  | .nvpScrub => step_execNvpScrub
  | .nvpScrubRequest => step_execNvpScrubRequest
  | .bbxEventEnqueue => step_execBbxEventEnqueue
  | .bbxRecordWrite => step_execBbxRecordWrite
  | .tokenRefill => step_execTokenRefill
  | .traceRow => step_execTraceRow
  | .traceFreeze => step_execTraceFreeze
  | .watermarkDone .. => step_execWatermarkDone
  | .bbxSealNow => step_execBbxSealNow
  | .reamPointerRead .. => step_execReamPointerRead
  | .bbxNonceRequest .. => step_execBbxNonceRequest
  | .nonceExpiry => step_execNonceExpiry
  | .bbxClear => step_execBbxClear
  | .bbxRelease => step_execBbxRelease
  | .bbxOpComplete => step_execBbxOpComplete
  | .lockoutEnd => step_execLockoutEnd
  | .updBegin => step_execUpdBegin
  | .updChunk => step_execUpdChunk
  | .updEnd => step_execUpdEnd
  | .prepareComplete => step_execPrepareComplete
  | .updCommit => step_execUpdCommit
  | .commitWritesDone .. => step_execCommitWritesDone
  | .updActivate => step_execUpdActivate
  | .activationStep => step_execActivationStep
  | .updAbort => step_execUpdAbort
  | .mgmtRestart .. => step_execMgmtRestart
  | .mgmtRestartComplete => step_execMgmtRestartComplete
  | .trialEnd => step_execTrialEnd
  | .updRollback => step_execUpdRollback
  | .slotActivateTimeout .. => step_execSlotActivateTimeout
  | .hstReset .. => step_execHstReset
  | .pcieLinkChange .. => step_execPcieLinkChange
  | .ringEnable .. => step_execRingEnable
  | .commandDoorbell .. => step_execCommandDoorbell
  | .consumerDoorbell .. => step_execConsumerDoorbell
  | .commandFetch .. => step_execCommandFetch
  | .nop .. => step_execNop
  | .nvpRead .. => step_execNvpRead
  | .nvpWrite .. => step_execNvpWrite
  | .nvpSave .. => step_execNvpSave
  | .mbReq .. => step_execMbReq
  | .updOp .. => step_execUpdOp
  | .modeReq .. => step_execModeReq
  | .bbxCopy .. => step_execBbxCopy
  | .commandComplete .. => step_execCommandComplete
  | .hostDmaError .. => step_execHostDmaError
  | .telemetryCapture => step_execTelemetryCapture
  | .msixModerationEnd .. => step_execMsixModerationEnd
  | .evtSumClear => step_execEvtSumClear
  | .evtTripClear => step_execEvtTripClear
  | .twpGo .. => step_execTwpGo
  | .twpArbRetry .. => step_execTwpArbRetry
  | .twpTransactionDone .. => step_execTwpTransactionDone
  | .twpTargetWrite .. => step_execTwpTargetWrite
  | .twpTargetRead .. => step_execTwpTargetRead
  | .twpAttnRequest .. => step_execTwpAttnRequest
  | .twpAttention .. => step_execTwpAttention
  | .twpTimeout .. => step_execTwpTimeout
  | .twpBusRecovery .. => step_execTwpBusRecovery
  | .twpRecoveryRetry .. => step_execTwpRecoveryRetry
  | .beaconRead => step_execBeaconRead
  | .beaconDemote .. => step_execBeaconDemote
  | .beaconDemoteEnd => step_execBeaconDemoteEnd
  | .beaconSafeShutdown .. => step_execBeaconSafeShutdown
  | .beaconShutdownTimeout => step_execBeaconShutdownTimeout
  | .beaconSave .. => step_execBeaconSave
  | .beaconClearAttn .. => step_execBeaconClearAttn
  | .beaconBadWord .. => step_execBeaconBadWord
  | .vaonLost => step_execVaonLost
  | .pwmEdge .. => step_execPwmEdge
  | .slotDownlinkReceived .. => step_execSlotDownlinkReceived
  | .slotHoldBegin .. => step_execSlotHoldBegin
  | .chezonTrainingFailed => step_execChezonTrainingFailed
  | .ringSlotComplete => step_execRingSlotComplete

variable {c : Instr} {s t : State}

theorem exec_step (h : exec c s = .next t) : Step (mayChange c) s t := by
  obtain ⟨u, hu, step⟩ := exec_answers c s
  rw [h] at hu
  cases hu
  exact step

theorem exec_frame (h : exec c s = .next t) : SameBut (mayChange c) s t := (exec_step h).frame

/-- A part that a command has changed is one of its list. -/
theorem mem_mayChange (h : exec c s = .next t) {p : Part} (changed : ¬ p.same s t) : p ∈ mayChange c :=
  Decidable.by_contra fun notListed => changed (exec_frame h p notListed)

end Sys2Proof.Machine
end

section
/-! The configuration lock (00_scope R6): what a host write leaves of a locked register, and which commands open the lock. -/

namespace Sys2Proof.Machine
open Sys2Proof

theorem gatedEvent_regs (s : State) (i : Island) (off : Nat) :
    ∃ seen, (s.gatedEvent i off).regs = { s.regs with gatedSeen := seen } := by
  unfold State.gatedEvent
  split
  · exact ⟨_, rfl⟩
  · exact ⟨_, rfl⟩

/-- Under the lock a host write, wherever it ends, leaves the RWL fields of its register as they were, in force and among
the writes that wait. -/
theorem hostWrite_rwl {s : State} {off : Nat} {val : Word} {d : RegDesc} {e : Nat} {w : Nat}
    (wf : keysRise s.regs.act = true) (locked : s.sys.lock = true) (hreg : regAt off = some (d, e, w)) :
    (s.hostWrite off val).word off (d.rstAt e) &&& BitVec.ofNat 32 d.rwl = s.word off (d.rstAt e) &&& BitVec.ofNat 32 d.rwl ∧
      ∀ h ∈ (s.hostWrite off val).regs.shadowQ ++ (s.hostWrite off val).regs.held,
        h ∈ s.regs.shadowQ ++ s.regs.held ∨ h.mask &&& BitVec.ofNat 32 d.rwl = 0 := by
  unfold State.hostWrite
  split
  · -- the host block or the boot state does not serve the access
    exact ⟨rfl, fun _ m => .inl m⟩
  split
  · -- no island stands at this offset
    exact ⟨rfl, fun _ m => .inl m⟩
  next i _ =>
  split
  · -- a gated island: one event, and the write is discarded (R15)
    obtain ⟨seen, hregs⟩ := gatedEvent_regs s i off
    unfold State.word
    rw [hregs]
    exact ⟨rfl, fun _ m => .inl m⟩
  split
  · -- the island does not run
    exact ⟨rfl, fun _ m => .inl m⟩
  rw [hreg]
  exact writeReg_rwl s d e off val wf locked (mem_disjoint (regAt_mem hreg)).1

theorem configLock_keeps_lock {s t : State} (locked : s.sys.lock = true) (h : exec .configLock s = .next t) :
    t.sys.lock = true := by
  have ht : s.when (s.runs .hst && s.runs .mgt) { s with sys := { s.sys with lock := true } } = t := by
    injection h
  rw [← ht]
  exact (when_keep (fun x => x.sys.lock) locked.symm).trans locked

/-- Settles O8: a host write ends in the register's own write, whose mask leaves the RWL fields out while the lock is
set, or changes no register field; and the lock is in the list of parts of no other command than those named and
CONFIG_LOCK, which sets it. -/
theorem lockedFieldsStand : Obligations.LockedFieldsStand := by
  unfold Obligations.LockedFieldsStand
  constructor
  · intro off val s d e w ⟨_, _, _, _, _, _, _, regsWf⟩ locked hreg
    exact Completes.ok rfl (hostWrite_rwl ((Regs.wf_iff _).1 regsWf).1 locked hreg)
  · intro c s t locked h
    by_cases same : t.sys.lock = s.sys.lock
    · exact .inl (same.trans locked)
    · have listed : Part.lock ∈ mayChange c := mem_mayChange h same
      cases c
      case configLock => exact .inl (configLock_keeps_lock locked h)
      all_goals simp [mayChange] at listed ⊢

end Sys2Proof.Machine
end

section
/-! What the lists of parts say of the configuration in force and of the register accesses. -/

namespace Sys2Proof.Machine
open Sys2Proof

/-- Settles O38: the configuration is in the list of parts of the named commands alone. -/
theorem configurationChangesOnlyBy : Obligations.ConfigurationChangesOnlyBy := by
  unfold Obligations.ConfigurationChangesOnlyBy
  intro c s t h changed
  have listed : Part.config ∈ mayChange c := mem_mayChange h changed
  cases c <;> simp [mayChange] at listed ⊢

/-- Settles O43: each clause is the frame of its command. -/
theorem registerFrames : Obligations.RegisterFrames := by
  unfold Obligations.RegisterFrames
  exact ⟨fun _ _ _ _ h => exec_frame h, fun _ _ h => exec_frame h, fun _ _ _ _ h => exec_frame h,
    fun _ _ _ h => exec_frame h, fun _ _ _ h => exec_frame h, fun _ _ _ _ h => exec_frame h⟩

end Sys2Proof.Machine
end

section
/-! Requests for a mode (14_start_up R291, R292): what is staged where nothing stands in the way. -/

namespace Sys2Proof.Machine
open Sys2Proof

/-- A request whose overlay passes its check is staged, the writes that wait for it are held, and of SYS only the request
pending changes. -/
theorem stageMode_heldOn {s : State} {m : Nat} {host : Bool} {ws : List (Nat × Word)} {ps : List Nat}
    (checked : (s.overlayCheck m).2 = some (ws, ps)) :
    (s.stageMode m host).1.heldOn.regs.stage = some ⟨m, ws, ps, host, false, s.time⟩ ∧
      (s.stageMode m host).1.heldOn.sys = { s.sys with pend := some m, pendHost := host } := by
  obtain ⟨hstage, hsys⟩ := stageMode_ok s m host ws ps checked
  rw [heldOn_stage _ (by rw [hstage]; rfl)]
  exact ⟨hstage, hsys⟩

theorem askRefused_eq_false {s : State} {m : Nat} (hmove : modeMove s.sys.mode m = true) (hmode : s.sys.mode ≠ modeHoldup)
    (hstep : s.sys.transportStep = 0) : s.askRefused m = false := by
  unfold State.askRefused
  simp [hmove, hmode, hstep]

/-- An accepted request with no other in hand comes to its turn at once. -/
theorem modeAsk_turn {s : State} {m : Nat} (hmove : modeMove s.sys.mode m = true) (hmode : s.sys.mode ≠ modeHoldup)
    (hstep : s.sys.transportStep = 0) (hwait : s.sys.waitReq = none) (hstage : s.regs.stage = none) :
    s.modeAsk m = ((s.askTurn m).1.heldOn, (s.askTurn m).2) := by
  unfold State.modeAsk
  rw [if_neg (by rw [askRefused_eq_false hmove hmode hstep]; decide), dropPending_none s hstage hwait (by rw [hstep]; decide)]
  dsimp only
  rw [if_neg (by rw [hstage]; decide)]

/-- The turn of a request for TRANSPORT begins the entry. -/
theorem askTurn_transport (s : State) :
    (s.askTurn modeTransport).1.sys = { s.sys with transportStep := 1, pend := some modeTransport, pendHost := true } := by
  unfold State.askTurn
  rw [if_pos rfl]
  dsimp only
  split
  · exact step_shelfShutdown.frame .sys (by decide)
  · rfl

theorem askTurn_overlay {s : State} {m : Nat} (h : m ≠ modeTransport) : s.askTurn m = s.stageMode m true := by
  unfold State.askTurn
  rw [if_neg h]

theorem heldOn_sys (s : State) : s.heldOn.sys = s.sys := step_heldOn.frame .sys (by decide)

/-- The pending request for a HOLDUP entry or exit is taken up (R291). -/
def State.huTaken (s : State) : State := { s with sys := { s.sys with huReq := none } }

theorem huTaken_dropPending {s : State} (hstage : s.regs.stage = none) (hwait : s.sys.waitReq = none)
    (hstep : s.sys.transportStep ≠ 1) : s.huTaken.dropPending = s.huTaken := dropPending_none s.huTaken hstage hwait hstep

theorem execHoldup_enter {s : State} (up : s.mgtUp = true) (hreq : s.sys.huReq = some true) (hstage : s.regs.stage = none)
    (hoff : s.transportOn = false)
    (hmode : s.sys.mode = modeStart ∨ s.sys.mode = modeService ∨ s.sys.mode = modeMaint ∨ s.sys.mode = modeCustom) :
    execHoldupOverlayRequest s = ok (s.huTaken.dropPending.stageMode modeHoldup false).1.heldOn := by
  unfold execHoldupOverlayRequest
  rw [hreq, hstage]
  simp [up, hoff, hmode, State.huTaken]

theorem execHoldup_exit {s : State} (up : s.mgtUp = true) (hreq : s.sys.huReq = some false) (hstage : s.regs.stage = none)
    (hoff : s.transportOn = false) (hmode : s.sys.mode = modeHoldup) :
    execHoldupOverlayRequest s = ok (s.huTaken.dropPending.stageMode s.sys.prev false).1.heldOn := by
  unfold execHoldupOverlayRequest
  rw [hreq, hstage]
  simp [up, hoff, hmode, State.huTaken]

/-- A HOLDUP request with no other in hand is taken up and its overlay staged. -/
theorem completes_huTaken {s : State} {m : Nat} {ws : List (Nat × Word)} {ps : List Nat} (hstage : s.regs.stage = none)
    (hwait : s.sys.waitReq = none) (hstep : s.sys.transportStep ≠ 1)
    (taken : execHoldupOverlayRequest s = ok (s.huTaken.dropPending.stageMode m false).1.heldOn)
    (checked : (s.huTaken.overlayCheck m).2 = some (ws, ps)) :
    Completes .holdupOverlayRequest s (fun t => t.regs.stage = some ⟨m, ws, ps, false, false, s.time⟩ ∧
      t.sys.huReq = none ∧ t.sys.pend = some m ∧ t.sys.pendHost = false) := by
  refine Completes.ok taken ?_
  rw [huTaken_dropPending hstage hwait hstep]
  obtain ⟨staged, hsys⟩ := stageMode_heldOn (host := false) checked
  rw [hsys]
  exact ⟨staged, rfl, rfl, rfl⟩

theorem execService_start {s : State} (up : s.mgtUp = true) (hreq : s.sys.svcReq = true) (hstage : s.regs.stage = none)
    (hhu : s.sys.huReq = none) (hmode : s.sys.mode = modeStart) :
    execServiceOverlayRequest s = ok (State.stageMode { s with sys := { s.sys with svcReq := false } } modeService false).1 := by
  unfold execServiceOverlayRequest
  simp [up, hreq, hstage, hhu, hmode, modeStart, modeHoldup]

/-- Settles O4: with no other request in hand each request comes to its turn at once, and an overlay that passes its
check is staged. -/
theorem modeRequestsComplete : Obligations.ModeRequestsComplete := by
  unfold Obligations.ModeRequestsComplete
  refine ⟨?lock, ?kick, ?overlay, ?transport, ?enter, ?exit, ?service⟩
  case lock =>
    intro s hst mgt
    show execConfigLock s = _
    rw [execConfigLock, State.when, hst, mgt]
    rfl
  case kick =>
    intro s hst mgt
    show execWdtKick s = _
    rw [execWdtKick, State.when, hst, mgt]
    rfl
  case overlay =>
    intro code s ws ps hst up hmove hmode hstep hwait hstage other checked
    refine Completes.when rfl (by rw [hst, up]; rfl) ?_
    rw [modeAsk_turn hmove hmode hstep hwait hstage, askTurn_overlay other]
    obtain ⟨staged, hsys⟩ := stageMode_heldOn (host := true) checked
    dsimp only
    rw [hsys]
    exact ⟨staged, rfl, rfl, rfl⟩
  case transport =>
    intro s hst up hmove hmode hstep hwait hstage
    refine Completes.when rfl (by rw [hst, up]; rfl) ?_
    have hsys : (s.modeAsk modeTransport).1.sys =
        { s.sys with transportStep := 1, pend := some modeTransport, pendHost := true } := by
      rw [modeAsk_turn hmove hmode hstep hwait hstage]
      exact (heldOn_sys _).trans (askTurn_transport s)
    rw [show (4 : BitVec 4).toNat = modeTransport from rfl, hsys]
    exact ⟨rfl, rfl, rfl, rfl⟩
  case enter =>
    intro s ws ps up hreq hstage hoff hwait hstep hmode checked
    exact completes_huTaken hstage hwait hstep (execHoldup_enter up hreq hstage hoff hmode) checked
  case exit =>
    intro s ws ps up hreq hstage hoff hwait hstep hmode checked
    exact completes_huTaken hstage hwait hstep (execHoldup_exit up hreq hstage hoff hmode) checked
  case service =>
    intro s ws ps up hreq hstage hhu hmode checked
    refine Completes.ok (execService_start up hreq hstage hhu hmode) ?_
    obtain ⟨staged, hsys⟩ := stageMode_ok _ modeService false ws ps checked
    rw [hsys]
    exact ⟨staged, rfl, rfl⟩

end Sys2Proof.Machine
end

section
/-! What the lists of parts say of every command: none touches the queue, none runs the clock back. -/

namespace Sys2Proof.Machine
open Sys2Proof

variable {c : Instr} {s t : State}

/-- No command lists the queue of waiting commands. -/
theorem pending_notMem_mayChange (c : Instr) : Part.pending ∉ mayChange c := by
  cases c <;> simp [mayChange]

theorem exec_pending (h : exec c s = .next t) : t.pending = s.pending := exec_frame h .pending (pending_notMem_mayChange c)

theorem exec_time_le (h : exec c s = .next t) : s.time ≤ t.time := (exec_step h).later

/-- Settles O34: every command answers by a step of its list of parts, in which the queue never stands. -/
theorem everyCommandAnswers : Obligations.EveryCommandAnswers := by
  unfold Obligations.EveryCommandAnswers
  intro c s
  obtain ⟨t, answers, _⟩ := exec_answers c s
  exact ⟨t, answers, exec_time_le answers, exec_pending answers⟩

/-- Settles O44: each clause is the frame of its command. -/
theorem senseLawFrames : Obligations.SenseLawFrames := by
  unfold Obligations.SenseLawFrames
  and_intros
  all_goals
    intros
    exact exec_frame ‹_›

end Sys2Proof.Machine
end

section
/-! One step of the machine (log 1): the front command, or the passing of time. -/

namespace Sys2Proof.Machine
open Sys2Proof

theorem step_cons {s : State} {c : Instr} {rest : List Instr} (queue : s.pending = c :: rest) :
    step s = exec c { s with pending := rest } := by
  rw [step, queue]

theorem step_nil {s : State} (queue : s.pending = []) : step s = .next s.idle := by
  rw [step, queue]

theorem idle_eq (s : State) : s.idle = { s with
    time := s.time + 1
    sys := if s.sys.step = 5 ∧ s.runs .mgt = true then { s.sys with step := 6 } else s.sys } := by
  simp only [State.idle, Bool.and_eq_true, decide_eq_true_eq]

/-- Settles O31: the two cases of a step are those of its queue. -/
theorem stepRunsFrontCommand : Obligations.StepRunsFrontCommand := by
  unfold Obligations.StepRunsFrontCommand
  exact ⟨fun _ _ _ queue => step_cons queue, fun s queue => (step_nil queue).trans (congrArg _ (idle_eq s))⟩

end Sys2Proof.Machine
end

section
/-! The shelf tick and the events of the allocation period (01_shelf R17–R19, 06_headbox R124, R126). -/

namespace Sys2Proof.Machine
open Sys2Proof

variable {s : State}

/-! ### Tick boundary -/

theorem execShelfTick_first (lnk : s.runs .lnk = true) (running : s.sns.running = true) (unset : s.tickAt = none) :
    exec .shelfTick s = ok s.boundary := by
  show execShelfTick s = _
  rw [execShelfTick, lnk, running, unset]
  rfl

/-- The state in which a later boundary comes about: the strobes of the tick that ends are given, the counter is one on. -/
def State.nextTick (s : State) : State := { s.tickStrobes with tick := s.tick + 1 }

theorem nextTick_time (s : State) : s.nextTick.time = s.time := step_tickStrobes.frame .time (by decide)

theorem execShelfTick_later {a : Nat} (lnk : s.runs .lnk = true) (running : s.sns.running = true) (last : s.tickAt = some a)
    (full : a + s.tickMin ≤ s.time) : exec .shelfTick s = ok s.nextTick.boundary := by
  show execShelfTick s = _
  rw [execShelfTick, lnk, running, last]
  dsimp only
  rw [if_pos full]
  exact congrArg ok (State.whenAt_now rfl (Nat.le_refl _))

/-! ### Payload freeze -/

theorem hbxLate_tick (s : State) : s.hbxLate.tick = s.tick := (step_hbxLate.frame .tick (by decide)).1

/-! ### Allocation period -/

/-- The dispatch of a snapshot, or what stands in its place while the headbox is off, comes to stage 1, its results due
where the headbox is on; what the snapshot does after it is no part of the headbox (R18). -/
theorem snapStep_result (s : State) : s.snapStep.hbx.phase = 1 ∧ s.snapStep.hbx.done = s.snapStep.bit F.HBX_CTL.en := by
  unfold State.snapStep
  extract_lets +onlyGivenNames p s1 s2 d cap en hbx s3 hbxOff s4
  have dispatched : s4.hbx.phase = 1 ∧ s4.hbx.done = en ∧ s4.regs.act = s2.regs.act := by
    unfold s4
    split
    · obtain ⟨phase, done, act⟩ := hbxDispatch_all s3 d cap
      exact ⟨phase, done, act⟩
    · exact ⟨rfl, rfl, rfl⟩
  obtain ⟨phase, done, act⟩ := dispatched
  generalize hlast : ((s4.bridgeStep d).holdupStop).lawFresh (fun e => s.fld (F.LAW_SRC.fb_sel e) = 2) = last
  have rest : Step [.regs, .chans, .law, .vat, .seq] s4 last :=
    hlast ▸ Step.after step_lawFresh rfl (Step.after step_holdupStop rfl (Step.after step_bridgeStep rfl Step.refl))
  have hhbx : last.hbx = s4.hbx := rest.frame .hbx (by decide)
  have hact : last.regs.act = s4.regs.act := rest.frame .config (by decide)
  have hen : last.bit F.HBX_CTL.en = en := by
    show last.bit F.HBX_CTL.en = s2.bit F.HBX_CTL.en
    unfold State.bit State.fld State.word
    rw [hact, act]
  rw [hhbx, hen]
  exact ⟨phase, done⟩

/-- The direct-rail source of a rail (06_headbox Table HBX.2). -/
def railSrc (n : Fin 8) : Fin 40 := ⟨32 + n.val, by omega⟩

/-! ### End of hold-up -/

theorem huLeave_result (s : State) (g : Int) :
    (s.huLeave g).vat.hu = false ∧ (s.huLeave g).vat.exitSince = none ∧ Raises s (s.huLeave g) 0x5C 0x02 0 g := by
  unfold State.huLeave
  extract_lets +onlyGivenNames vat s1
  generalize hfired : (s1.stick F.VAT_STAT.hu_out).fire 0x5C 0x02 0 g = fired
  have raised : Raises s fired 0x5C 0x02 0 g := hfired ▸ Raises.one rfl
  have hvat : fired.vat = s1.vat := hfired ▸ rfl
  generalize hlast : (fired.trialPause false).huRequest false = last
  have rest : Step [.sys, .upd] fired last := hlast ▸ Step.after step_huRequest rfl (Step.after step_trialPause rfl Step.refl)
  rw [show last.vat = s1.vat from (rest.frame .vat (by decide)).trans hvat]
  exact ⟨rfl, rfl, raised.keep (rest.frame .chans (by decide))⟩

/-- Settles O10: each event of the tick and of the allocation period comes about once its offset has passed. -/
theorem tickComplete : Obligations.TickComplete := by
  unfold Obligations.TickComplete
  refine ⟨?first, ?later, ?freeze, ?late, ?change, ?snapshot, ?release, ?delivery, ?exit⟩
  case first =>
    intro s lnk running unset
    exact Completes.ok (execShelfTick_first lnk running unset) (boundary_keep s)
  case later =>
    intro s a lnk running last full
    refine Completes.ok (execShelfTick_later lnk running last full) ?_
    have instant : s.nextTick.boundary.tickAt = some s.nextTick.time := (boundary_keep s.nextTick).2
    rw [nextTick_time] at instant
    exact ⟨(boundary_keep s.nextTick).1, instant⟩
  case freeze =>
    intro s works lnk frozen due
    exact Completes.due rfl (by simp [works, lnk, frozen]) due ⟨rfl, hbxLate_tick s⟩
  case late =>
    intro s works lnk frozen due phase en lateNow lastTick
    refine Completes.due rfl (by simp [works, lnk, frozen]) due ?_
    obtain ⟨l, hphase, hpath, hcnt, hflight⟩ := hbxLate_now s phase en lateNow lastTick
    exact ⟨hphase, hpath, hcnt, _, hflight, List.mem_append_left _ (List.mem_singleton.2 rfl)⟩
  case change =>
    intro s dsp boundary new multOld multNew
    show execHbxPeriodChange s = _
    rw [execHbxPeriodChange, State.when]
    dsimp only
    rw [if_pos (by simp [dsp, boundary, new, multOld, multNew])]
    rfl
  case snapshot =>
    intro s works dsp phase tick due
    exact Completes.period rfl works dsp phase tick due (snapStep_result s)
  case release =>
    intro s works dsp phase tick due
    exact Completes.period rfl works dsp phase tick due rfl
  case delivery =>
    intro s works dsp phase tick due
    refine Completes.period rfl works dsp phase tick due ⟨rfl, ?refs, ?caps⟩
    case refs =>
      intro n k hk
      obtain rfl : k = railSrc n := Fin.ext hk
      dsimp only
      rw [mapFin_at]
      rfl
    case caps =>
      intro k
      dsimp only
      rw [mapFin_at]
      exact Vector.getElem_ofFn ..
  case exit =>
    intro s works dsp hu due
    exact Completes.due rfl (by simp [works, dsp, hu]) due (huLeave_result s s.vat.g)

end Sys2Proof.Machine
end

section
/-! Overlays that take effect (14_start_up R290–R292) and the entry of TRANSPORT (R293, 08_battery R174). -/

namespace Sys2Proof.Machine
open Sys2Proof

variable {s : State} {g : Stage}

/-! ### The swap -/

/-- The staged words are in force and nothing is staged (R21). -/
def State.stageTaken (s : State) (g : Stage) : State :=
  { s.putWords g.words with regs := { (s.putWords g.words).regs with stage := none, patched := g.patched } }

/-- The overlay has taken effect: with the change of mode, unless it is a reload, and the answer to a host that asked for it. -/
def State.swapped (s : State) (g : Stage) : State :=
  let s1 := if g.reload then s.stageTaken g else (s.stageTaken g).modeChange g.mode
  if g.host then s1.modeReqEnd 0 g.mode s.sys.mode else s1

theorem execOverlaySwap_due (mgt : s.runs .mgt = true) (staged : s.regs.stage = some g)
    (boundary : s.tickAt = none ∨ (s.atTick = true ∧ g.at_ < s.time)) :
    exec .overlaySwap s = ok (s.follow (s.swapped g).releaseHeld).waitTurn := by
  have due : (s.runs .mgt && (s.tickAt.isNone || (s.atTick && decide (g.at_ < s.time)))) = true := by
    rcases boundary with unset | ⟨tick, later⟩
    · simp [mgt, unset]
    · simp [mgt, tick, later]
  show execOverlaySwap s = _
  unfold execOverlaySwap
  rw [staged]
  dsimp only
  rw [due, if_neg (by decide)]
  rfl

theorem stageTaken_keep (s : State) (g : Stage) :
    (s.stageTaken g).sys = s.sys ∧ (s.stageTaken g).otp = s.otp ∧ (s.stageTaken g).time = s.time :=
  ⟨step_putWords.frame .sys (by decide), step_putWords.frame .otp (by decide), step_putWords.frame .time (by decide)⟩

/-- The answer to the host is outside the registers and what a change of mode touches. -/
theorem ite_modeReqEnd_keep (s : State) (b : Bool) (i j k : Nat) :
    (if b then s.modeReqEnd i j k else s).regs = s.regs ∧ (if b then s.modeReqEnd i j k else s).sys = s.sys ∧
      (if b then s.modeReqEnd i j k else s).otp = s.otp ∧ (if b then s.modeReqEnd i j k else s).bbx = s.bbx := by
  cases b <;> exact ⟨rfl, rfl, rfl, rfl⟩

/-- A change of mode: the mode is new, no request is pending, an idle fuse array is disarmed and the nonce has ended. -/
theorem modeChange_result (s : State) (m : Nat) :
    (s.modeChange m).regs = s.regs ∧ (s.modeChange m).sys.mode = m ∧ (s.modeChange m).sys.pend = none ∧
      (s.modeChange m).sys.waitReq = s.sys.waitReq ∧
      (s.modeChange m).bbx.nvalid = false ∧ (s.otp.cmd = none → (s.modeChange m).otp = s.otp.disarm s.time) := by
  refine ⟨rfl, rfl, rfl, rfl, rfl, fun idle => ?_⟩
  show (if s.otp.cmd.isSome then s.otp else s.otp.disarm s.time) = _
  rw [idle]
  rfl

theorem swapped_regs (s : State) (g : Stage) : (s.swapped g).regs = (s.stageTaken g).regs := by
  unfold State.swapped
  dsimp only
  rw [(ite_modeReqEnd_keep ..).1]
  split
  · rfl
  · exact (modeChange_result ..).1

theorem swapped_act (s : State) (g : Stage) : (s.swapped g).regs.act = (s.putWords g.words).regs.act := by
  rw [swapped_regs]
  rfl

/-- A reload leaves the mode and the requests as they were. -/
theorem swapped_reload (reload : g.reload = true) : (s.swapped g).sys = s.sys := by
  unfold State.swapped
  dsimp only
  rw [(ite_modeReqEnd_keep ..).2.1, if_pos reload]
  exact (stageTaken_keep s g).1

/-- Any other overlay brings its mode. -/
theorem swapped_mode (mode : g.reload = false) :
    (s.swapped g).sys.mode = g.mode ∧ (s.swapped g).sys.pend = none ∧ (s.swapped g).sys.waitReq = s.sys.waitReq ∧
      (s.swapped g).bbx.nvalid = false ∧ (s.otp.cmd = none → (s.swapped g).otp = s.otp.disarm s.time) := by
  obtain ⟨hsys, hotp, htime⟩ := stageTaken_keep s g
  obtain ⟨_, newMode, pend, wait, nonce, disarmed⟩ := modeChange_result (s.stageTaken g) g.mode
  rw [hsys] at wait
  rw [hotp, htime] at disarmed
  unfold State.swapped
  rw [mode, if_neg Bool.false_ne_true]
  obtain ⟨-, keepSys, keepOtp, keepBbx⟩ := ite_modeReqEnd_keep ((s.stageTaken g).modeChange g.mode) g.host 0 g.mode s.sys.mode
  dsimp only
  rw [keepSys, keepOtp, keepBbx]
  exact ⟨newMode, pend, wait, nonce, disarmed⟩

/-- After the swap the held writes are released and a request that waited comes to its turn: neither touches the values in
force, the mode, the fuse array or the black box; with none waiting the registers and SYS stand as the swap left them. -/
theorem follow_waitTurn_keep (s x : State) :
    (s.follow x).waitTurn.regs.act = x.regs.act ∧ (s.follow x).waitTurn.sys.mode = x.sys.mode ∧
      (s.follow x).waitTurn.otp = x.otp ∧ (s.follow x).waitTurn.bbx = x.bbx ∧
      (x.sys.waitReq = none → (s.follow x).waitTurn.regs = x.regs ∧ (s.follow x).waitTurn.sys = x.sys) := by
  obtain ⟨hsys, hregs, hotp, hbbx⟩ := follow_keep s x
  obtain ⟨act, mode, otp, bbx, noneWaits⟩ := waitTurn_keep (s.follow x)
  refine ⟨act.trans (by rw [hregs]), mode.trans (by rw [hsys]), otp.trans hotp, bbx.trans hbbx, fun wait => ?_⟩
  rw [noneWaits (by rw [hsys, wait])]
  exact ⟨hregs, hsys⟩

/-! ### TRANSPORT, step by step -/

/-- The words of the TRANSPORT overlay are in force and the second step of the entry is done (R293). -/
def State.transportTaken (s : State) (ws : List (Nat × Word)) (ps : List Nat) : State :=
  let s1 := s.putWords ws
  { s1 with regs := { s1.regs with patched := ps }, sys := { s1.sys with transportStep := 2 } }

theorem execTransportOverlayApply_due {ws : List (Nat × Word)} {ps : List Nat} (up : s.mgtUp = true) (begun : s.sys.transportStep = 1)
    (running : s.seq.st ≠ 4) (off : allFin 72 (fun k => !s.nodeEn k || s.seq.n[k].st.isOff) = true)
    (boundary : s.tickAt = none ∨ s.atTick = true) (checked : (s.overlayCheck modeTransport).2 = some (ws, ps)) :
    exec .transportOverlayApply s = ok (s.follow ((((s.overlayCheck modeTransport).1.transportTaken ws ps).modeChange
      modeTransport).modeReqEnd 0 modeTransport s.sys.mode)) := by
  show execTransportOverlayApply s = _
  unfold execTransportOverlayApply
  dsimp only
  have atBoundary : (s.tickAt.isNone || s.atTick) = true := by
    rcases boundary with unset | tick
    · simp [unset]
    · simp [tick]
  rw [off, atBoundary, if_neg (by simp [up, begun, running])]
  generalize s.overlayCheck modeTransport = checkedState at *
  obtain ⟨s1, r⟩ := checkedState
  dsimp only at checked ⊢
  subst checked
  rfl

theorem idWrite_txAt (s : State) (i : Fin 8) : (s.idWrite i).bat.txAt = s.bat.txAt := by
  unfold State.idWrite
  extract_lets x s1 s2
  have bRec : s1.bat.txAt = s.bat.txAt := by
    unfold s1 State.modBRec
    exact ite_keep (fun y => y.bat.txAt) (s := s) rfl rfl
  refine ite_keep (fun y => y.bat.txAt) rfl ?_
  rw [recWrite_bat]
  exact bRec

/-- The records written and the contactors released: what BAT's release does for each string before the save. -/
def State.stringReleased (s : State) (i : Fin 8) : State := (if s.bat.str[i].present then s.idWrite i else s).contactorUpdate i

theorem stringReleased_keep (s : State) (i : Fin 8) :
    (s.stringReleased i).sys = s.sys ∧ (s.stringReleased i).bat.txAt = s.bat.txAt := by
  unfold State.stringReleased
  constructor
  · refine (step_contactorUpdate.frame .sys (by decide)).trans ?_
    exact ite_keep (fun y => y.sys) (step_idWrite.frame .sys (by decide)) rfl
  · exact ite_keep (fun y => y.bat.txAt) (idWrite_txAt s i) rfl

/-- The release of BAT: the fourth step is done, no wait is left, and the records and the fast-changing values are being saved. -/
def State.batReleased (s : State) : State :=
  (foldFin 8 { s with sys := { s.sys with transportStep := 4 }, bat := { s.bat with txAt := none } } State.stringReleased).saveRequest 4

theorem batReleased_result (s : State) : s.batReleased.sys.transportStep = 4 ∧ s.batReleased.bat.txAt = none := by
  unfold State.batReleased
  generalize hbegun : ({ s with sys := { s.sys with transportStep := 4 }, bat := { s.bat with txAt := none } } : State) = begun
  have hsys : (foldFin 8 begun State.stringReleased).sys = begun.sys :=
    foldFin_keep (fun x => x.sys) _ (fun x i => (stringReleased_keep x i).1) _
  have hwait : (foldFin 8 begun State.stringReleased).bat.txAt = begun.bat.txAt :=
    foldFin_keep (fun x => x.bat.txAt) _ (fun x i => (stringReleased_keep x i).2) _
  rw [show (State.saveRequest _ 4).sys = _ from step_saveRequest.frame .sys (by decide), hsys,
    show (State.saveRequest _ 4).bat = _ from step_saveRequest.frame .bat (by decide), hwait, ← hbegun]
  exact ⟨rfl, rfl⟩

/-- The limits of a string are 0 for the entry and handed to the hold-up logic (R174). -/
def State.stringPrepared (s : State) (i : Fin 8) : State :=
  (s.modStr i (fun x => { x with txport := true, limDis := 0, limChg := 0 })).batDeliver i

theorem stringPrepared_keep (s : State) (i : Fin 8) :
    (s.stringPrepared i).sys = s.sys ∧ (s.stringPrepared i).bat.txAt = s.bat.txAt := ⟨rfl, rfl⟩

/-- Once the longest wait has run out, the currents need not be asked: at rest or not, the release is due (R174). -/
theorem ranOut_quiet {s : State} {a : Option Nat} {d : Nat} (h : s.ranOut a d = true) (quiet : Bool) :
    s.ranOut (if quiet then some s.time else a.map (fun t => t + d)) 0 = true := by
  cases quiet
  · cases a with
    | none => cases h
    | some t => exact h
  · simp [State.ranOut]

/-- In TRANSPORT every island but AON is gated, and so does not run. -/
theorem transport_gates {t : State} (h : t.aon.transport = true) (i : Island) (notAon : i ≠ .aon) :
    t.gated i = true ∧ t.runs i = false := by
  have gated : t.gated i = true := by
    cases i <;> simp [State.gated, h] at notAon ⊢
  refine ⟨gated, ?_⟩
  cases i <;> simp [State.runs, gated] at notAon ⊢

/-- Settles O5: a swap or a step of the TRANSPORT entry whose condition holds comes about, and what follows it leaves what it
did. -/
theorem overlaysApplyComplete : Obligations.OverlaysApplyComplete := by
  unfold Obligations.OverlaysApplyComplete
  refine ⟨?swap, ?reload, ?transport, ?prepare, ?release, ?gate⟩
  case swap =>
    intro s g mgt staged mode boundary
    refine Completes.ok (execOverlaySwap_due mgt staged boundary) ?_
    obtain ⟨newMode, pend, wait, nonce, disarmed⟩ := swapped_mode (s := s) mode
    obtain ⟨act, hmode, hotp, hbbx, noneWaits⟩ := follow_waitTurn_keep s (s.swapped g).releaseHeld
    refine ⟨act.trans (swapped_act s g), hmode.trans newMode, ?_, fun idle => hotp.trans (disarmed idle),
      fun noWait => ?_⟩
    · rw [hbbx]
      exact nonce
    · obtain ⟨hregs, hsys⟩ := noneWaits (wait.trans noWait)
      rw [hregs, hsys]
      exact ⟨congrArg Regs.stage (swapped_regs s g), congrArg Regs.patched (swapped_regs s g), rfl, pend⟩
  case reload =>
    intro s g mgt staged reload boundary
    refine Completes.ok (execOverlaySwap_due mgt staged boundary) ?_
    have sys : (s.swapped g).releaseHeld.sys = s.sys := swapped_reload reload
    obtain ⟨act, hmode, _, _, noneWaits⟩ := follow_waitTurn_keep s (s.swapped g).releaseHeld
    refine ⟨act.trans (swapped_act s g), hmode.trans (by rw [sys]), fun noWait => ?_⟩
    rw [(noneWaits (by rw [sys, noWait])).1]
    exact ⟨congrArg Regs.stage (swapped_regs s g), congrArg Regs.patched (swapped_regs s g), rfl⟩
  case transport =>
    intro s ws ps up begun running off boundary checked
    refine Completes.ok (execTransportOverlayApply_due up begun running off boundary checked) ?_
    obtain ⟨hsys, hregs, _, _⟩ := follow_keep s ((((s.overlayCheck modeTransport).1.transportTaken ws ps).modeChange
      modeTransport).modeReqEnd 0 modeTransport s.sys.mode)
    rw [hsys, hregs]
    exact ⟨rfl, rfl, rfl, rfl⟩
  case prepare =>
    intro s bat due
    refine Completes.past rfl (by simp [bat, due]) ⟨_, rfl, ?_, ?_⟩
    · exact foldFin_keep (fun x => x.sys.transportStep) State.stringPrepared (fun x i => by rw [(stringPrepared_keep x i).1]) _
    · exact foldFin_keep (fun x => x.bat.txAt) State.stringPrepared (fun x i => (stringPrepared_keep x i).2) _
  case release =>
    intro s bat due waited
    exact Completes.due (f := State.batReleased) rfl (by simp [bat, due]) (ranOut_quiet waited _) (batReleased_result s)
  case gate =>
    intro s bat released save stored cool
    refine Completes.past rfl (by simp [bat, released, save, stored, cool]) ⟨_, rfl, rfl, rfl, ?lock, rfl, rfl, transport_gates rfl⟩
    show s.otpCut.claimDrop.sys.lock = s.sys.lock
    rw [claimDrop_sys]

end Sys2Proof.Machine
end

section
/-! The sense front end (02_sense_front_end R29–R38): the start of a conversion, and the delivery of its value. -/

namespace Sys2Proof.Machine
open Sys2Proof

variable {s : State}

/-! ### Start of a conversion -/

theorem convert_conv (s : State) (ch : Fin 130) (c : Conv) : (s.convert ch c).sns.ch[ch].conv = some c := by
  rw [State.convert, modAt_same]

theorem convert_ch_ne (s : State) {ch d : Fin 130} (c : Conv) (h : ch ≠ d) : (s.convert ch c).sns.ch[d] = s.sns.ch[d] :=
  modAt_ne s.sns.ch ch d _ h

/-- The aperture of phase j that the list had first is reached: its conversion is under way, stamped with the aperture (R29). -/
def State.apertureTaken (j : Fin 24) (a : Nat) (near : Bool) (rest : List (Nat × Bool)) (s : State) : State :=
  (s.modPhase j (fun p => { p with aps := rest })).convert (phCh j) ⟨s.snsAt a, false, near, a + 4000⟩

theorem execPhaseSampleAperture_first {j : Fin 24} {a : Nat} {near : Bool} {rest : List (Nat × Bool)}
    (first : s.pwm.ph[j].aps = (a, near) :: rest) :
    exec (.phaseSampleAperture j) s = ok (s.whenAt s.ctlWorks a (State.apertureTaken j a near rest)) := by
  show execPhaseSampleAperture j s = _
  rw [execPhaseSampleAperture, first]
  rfl

theorem apertureTaken_aps (s : State) (j : Fin 24) (a : Nat) (near : Bool) (rest : List (Nat × Bool)) :
    (s.apertureTaken j a near rest).pwm.ph[j].aps = rest := by
  show (s.modPhase j (fun p => { p with aps := rest })).pwm.ph[j].aps = rest
  rw [modPhase_at]

/-- Both bus conversions start at one instant, each on its own channel (R32). -/
theorem convert_bus (s : State) (c : Conv) :
    ((s.convert 32 c).convert 33 c).sns.ch[(32 : Fin 130)].conv = some c ∧
      ((s.convert 32 c).convert 33 c).sns.ch[(33 : Fin 130)].conv = some c := by
  rw [convert_ch_ne _ _ (by decide), convert_conv, convert_conv]
  exact ⟨rfl, rfl⟩

/-! ### Delivery -/

/-- The channel of an input of the scan (02_sense R33). -/
def scanCh (k : Fin 64) : Fin 130 := ⟨34 + k.val, by omega⟩

theorem evalNode_sns (s : State) (k : Fin 72) : (s.evalNode k).sns = s.sns := step_evalNode.frame .sns (by decide)

/-- The channel of a conversion that completes. -/
def convCh (ch : Fin 34) : Fin 130 := ⟨ch.val, by omega⟩

/-- A conversion under way completes at its instant by one and the same happening f, and what f does after the delivery (a phase's
runs and windows, R104; the engines whose feedback it is, 03_law R47) leaves every channel as the delivery left it. -/
theorem execSnsConversionComplete_under (ch : Fin 34) (code : BitVec 16) (cv : Conv) : ∃ f : State → State,
    (∀ s, s.sns.ch[convCh ch].conv = some cv →
      exec (.snsConversionComplete ch code) s = ok (s.whenAt (s.runs .ctl) cv.due f)) ∧
    ∀ s, (f s).sns.ch = (s.deliver (convCh ch) (s.calAt (convCh ch) code.toNat cv.stamp) cv.stamp).sns.ch := by
  apply Exists.intro -- f is read off the model when the first part closes
  refine ⟨?happening, ?channels⟩
  case happening =>
    intro s under
    show execSnsConversionComplete ch code s = _
    unfold execSnsConversionComplete
    dsimp only
    rw [show s.sns.ch[(⟨ch.val, by omega⟩ : Fin 130)].conv = some cv from under]
  case channels =>
    intro s
    by_cases phase : ch.val < 24
    · rw [dif_pos phase]
      rfl
    · rw [dif_neg phase]
      rfl

/-- Settles O9: a sample or conversion whose instant has come starts, or delivers its value with its stamp. -/
theorem samplesComplete : Obligations.SamplesComplete := by
  unfold Obligations.SamplesComplete
  refine ⟨?aperture, ?idle, ?rail, ?bus, ?scan, ?ntc, ?complete⟩
  case aperture =>
    intro j s a near rest works first reached
    exact Completes.at (execPhaseSampleAperture_first first) works reached
      ⟨convert_conv _ _ _, apertureTaken_aps s j a near rest⟩
  case idle =>
    intro j s ctl running asg undriven due
    refine Completes.at rfl (by rw [ctl, running, asg, undriven]; rfl) (Nat.le_of_eq due) ⟨convert_conv _ _ _, ?_⟩
    exact congrArg Phase.idleNext (modPhase_at s j (fun p => { p with idleNext := s.time + s.idlePer s.pwm.ph[j].rail }))
  case rail =>
    intro n s ctl running due
    exact Completes.at rfl (by simp [ctl, running]) (Nat.le_of_eq due) ⟨convert_conv _ _ _, modAt_same _ _ _⟩
  case bus =>
    intro s ctl running due
    obtain ⟨voltage, current⟩ := convert_bus { s with sns := { s.sns with busNext := s.time + 250 * ns1 } }
      ⟨s.sns64, false, false, s.time⟩
    exact Completes.at rfl (by simp [ctl, running]) (Nat.le_of_eq due) ⟨voltage, current, rfl⟩
  case scan =>
    intro code s ch sup running role input due
    obtain rfl : ch = scanCh s.sns.scanNext := Fin.ext input
    refine Completes.at rfl (by simp [sup, running, role]) (Nat.le_of_eq due) ?_
    dsimp only
    rw [evalNode_sns]
    obtain ⟨stamp, val, -⟩ := deliver_ch s (scanCh s.sns.scanNext) (s.calAt (scanCh s.sns.scanNext) code.toNat s.sns64) s.sns64
    exact ⟨rfl, rfl, stamp, val⟩
  case ntc =>
    intro ntc ident s bat running notHeld due
    exact Completes.due rfl (by simpa [bat, running] using fun k n i m => notHeld (k, n, i) m) due rfl
  case complete =>
    intro ch code s c cv same ctl under due
    obtain rfl : c = convCh ch := Fin.ext same
    obtain ⟨f, completes, delivers⟩ := execSnsConversionComplete_under ch code cv
    refine Completes.at (completes s under) ctl due ?_
    rw [delivers s]
    obtain ⟨stamp, val, raw, eng, conv, -⟩ := deliver_ch s (convCh ch) (s.calAt (convCh ch) code.toNat cv.stamp) cv.stamp
    exact ⟨conv, stamp, raw, eng, val⟩

end Sys2Proof.Machine
end

section
/-! Happenings that wait for the instant that their rule sets (log 4). -/

namespace Sys2Proof.Machine
open Sys2Proof

variable {s : State}

theorem execTraceFreeze_post {r : Fin 4} {a : Nat} (post : s.bbx.post = some (r, a)) :
    exec .traceFreeze s = ok (s.whenAt (s.runs .recI) a (fun s => s.freeze r)) := by
  show execTraceFreeze s = _
  rw [execTraceFreeze, post]

/-- Settles O32: the conditions of a happening do not read the clock, so it answers at its instant what it answers before. -/
theorem timedCommandsWait : Obligations.TimedCommandsWait := by
  unfold Obligations.TimedCommandsWait
  refine ⟨?aperture, ?conversion, ?onDelay, ?settle, ?fall, ?link, ?slotHold, ?stageClaim, ?chezon, ?watchdog, ?thermal, ?demoteEnd,
    ?token, ?trace, ?nonce, ?hour⟩
  case aperture =>
    intro j s a near rest works first
    exact Waits.at (execPhaseSampleAperture_first first) (execPhaseSampleAperture_first (s := s.await a) first) works
  case conversion =>
    intro ch code s c cv same ctl under
    obtain rfl : c = convCh ch := Fin.ext same
    obtain ⟨f, completes, -⟩ := execSnsConversionComplete_under ch code cv
    exact Waits.at (completes s under) (completes (s.await cv.due) under) ctl
  case onDelay =>
    intro k s t runs drives en wait calm started
    exact Waits.due rfl rfl started (by simp [-Fin.getElem_fin, runs, drives, en, wait, calm])
  case settle =>
    intro k s runs drives en settle pg calm
    exact Waits.at rfl rfl (by simp [-Fin.getElem_fin, runs, drives, en, settle, pg, calm])
  case fall =>
    intro k s runs drives en falling notOff
    exact Waits.at rfl rfl (by simp [-Fin.getElem_fin, runs, drives, en, falling, notOff])
  case link =>
    intro k s t works lnk up last
    exact Waits.due rfl rfl last (by simp [-Fin.getElem_fin, works, lnk, up])
  case slotHold =>
    intro k s t normal last
    exact Waits.due rfl rfl last (by simp [-Fin.getElem_fin, normal])
  case stageClaim =>
    intro j p s t last
    exact Waits.due rfl rfl last rfl
  case chezon =>
    intro s per on
    exact Waits.at rfl rfl (by simp [per, on])
  case watchdog =>
    intro s mgt armed
    exact Waits.at rfl rfl (by simp [mgt, armed])
  case thermal =>
    intro s vaon down notReset
    exact Waits.at rfl rfl (by simp [vaon, down, notReset])
  case demoteEnd =>
    intro s low
    exact Waits.at rfl rfl low
  case token =>
    intro s recI
    exact Waits.at rfl rfl recI
  case trace =>
    intro s r a recI post
    exact Waits.at (execTraceFreeze_post post) (execTraceFreeze_post (s := s.await a) post) recI
  case nonce =>
    intro s valid
    exact Waits.at rfl rfl valid
  case hour =>
    intro s works inRange
    exact Waits.op rfl rfl works inRange

end Sys2Proof.Machine
end

section
/-! Where a store of addressed memory, a two-wire port or a ring takes a write (03_law_engines R63, 06_headbox R111, 13_fuse_array R275,
15_parameter_store R304, 18_host_rings R360, R362, 19_two_wire_ports R383, R384). -/

namespace Sys2Proof.Machine
open Sys2Proof

variable {s t : State}

/-! ### Banks and arrays: what a write can do -/

theorem coeffShadowWrite_law {off : BitVec 20} {v : Word} (answers : exec (.coeffShadowWrite off v) s = .next t) :
    t.law = s.law ∨ t.law = { s.law with shadow := cellPut 0 s.law.shadow (off.toNat - 0x40000) v } := by
  change execCoeffShadowWrite off v s = .next t at answers
  unfold execCoeffShadowWrite at answers
  dsimp only at answers
  split at answers
  · exact .inl (okInj answers ▸ rfl)
  split at answers
  · split at answers
    · exact .inl (okInj answers ▸ rfl)
    split at answers
    · exact .inl (okInj answers ▸ rfl)
    · exact .inr (okInj answers ▸ rfl)
  · exact .inl (okInj answers ▸ rfl)

theorem costCurveWrite_hbx {off : BitVec 20} {v : Word} (answers : exec (.costCurveWrite off v) s = .next t) :
    t.hbx = s.hbx ∨ t.hbx = { s.hbx with shadow := cellPut 0 s.hbx.shadow (off.toNat - 0x50000) v } := by
  change execCostCurveWrite off v s = .next t at answers
  unfold execCostCurveWrite at answers
  dsimp only at answers
  split at answers
  · exact .inl (okInj answers ▸ rfl)
  split at answers
  · exact .inl (okInj answers ▸ step_stagedWrite.frame .hbx (by decide))
  split at answers
  · split at answers
    · exact .inl (okInj answers ▸ rfl)
    · exact .inr (okInj answers ▸ rfl)
  · exact .inl (okInj answers ▸ rfl)

/-- What comes after the programming of a fuse word, its result, its record and a re-read that waited, leaves the array. -/
theorem otpCommandComplete_array {a b : Word} {n : Nat} {c : OtpCmd} (cmd : s.otp.cmd = some c)
    (answers : exec (.otpCommandComplete a b n) s = .next t) :
    t.otp.array = s.otp.array ∨ ∃ va vb, t.otp.array = (s.progBits c.word c.bits va vb).otp.array := by
  change execOtpCommandComplete a b n s = .next t at answers
  unfold execOtpCommandComplete at answers
  rw [cmd] at answers
  dsimp -zeta only at answers
  split at answers
  · exact .inl (okInj answers ▸ rfl)
  · extract_lets req va vb arg pulses s1 s2 at answers
    have programmed : s1.otp.array = (s.progBits c.word req va vb).otp.array := step_countPulses.frame .fuse (by decide)
    have told : s2.otp.array = s1.otp.array := step_otpResult.frame .fuse (by decide)
    refine .inr ⟨va, vb, ?_⟩
    rw [← okInj answers]
    exact (ite_keep (fun x => x.otp.array) (step_reread.frame .fuse (by decide)) rfl).trans (told.trans programmed)

theorem nvpCommitDone_store {us : Nat} (answers : exec (.nvpCommitDone us) s = .next t) :
    t.nvp.store = s.nvp.store ∨ t.nvp.store = s.nvp.buf.foldl (fun m p => cellPut ⟨0, 0⟩ m p.1 ⟨p.2, 0⟩) s.nvp.store := by
  change execNvpCommitDone us s = .next t at answers
  unfold execNvpCommitDone at answers
  split at answers
  · exact .inl (okInj answers ▸ rfl)
  · exact .inr (okInj answers ▸ step_nvpFlow.frame .store (by decide))

theorem progBits_other {w k : Nat} {req va vb : Word} (wf : s.otp.wf = true) (other : k ≠ w) :
    let o := (s.progBits w req va vb).otp
    cellGet 0 o.aN k = cellGet 0 s.otp.aN k ∧ cellGet 0 o.aM k = cellGet 0 s.otp.aM k ∧
      cellGet 0 o.bN k = cellGet 0 s.otp.bN k ∧ cellGet 0 o.bM k = cellGet 0 s.otp.bM k := by
  simp only [Otp.wf, Bool.and_eq_true] at wf
  obtain ⟨⟨⟨aN, aM⟩, bN⟩, bM⟩ := wf
  exact ⟨put_other _ _ _ _ aN other, put_other _ _ _ _ aM other, put_other _ _ _ _ bN other, put_other _ _ _ _ bM other⟩

/-! ### Two-wire ports -/

/-- An answer in which port q stands as it does in s. -/
def KeepsPort (q : Fin 4) (s : State) (o : Host.Outcome State Fault Refusal) : Prop := ∀ t, o = .next t → t.twp[q] = s.twp[q]

theorem KeepsPort.ok {q : Fin 4} {x : State} (kept : x.twp[q] = s.twp[q]) : KeepsPort q s (Machine.ok x) := fun _ answers => okTwp answers kept

theorem KeepsPort.ite {q : Fin 4} {P : Prop} [Decidable P] {a b : Host.Outcome State Fault Refusal} (yes : KeepsPort q s a)
    (no : KeepsPort q s b) : KeepsPort q s (if P then a else b) := by
  split
  · exact yes
  · exact no

section
variable {p q : Fin 4} (other : q ≠ p)
include other

theorem twpSent_ne (k n : Nat) : (s.twpSent p k n).twp[q] = s.twp[q] := modTwp_ne _ _ _ _ other

theorem twpRecovered_ne : (s.twpRecovered p).twp[q] = s.twp[q] := by
  unfold State.twpRecovered
  rw [twpEvent_twp]
  exact modTwp_ne _ _ _ _ other

theorem twpStuck_ne : (s.twpStuck p).twp[q] = s.twp[q] := by
  unfold State.twpStuck
  rw [twpEvent_twp]
  exact modTwp_ne _ _ _ _ other

theorem twpGo_keepsPort (v : Word) : KeepsPort q s (execTwpGo p v s) := by
  unfold execTwpGo
  extract_lets v' s1 t w
  have fields : s1.twp = s.twp := rfl
  clear_value s1
  refine .ite (.ok rfl) (.ite (.ok ?_) (.ite (.ok ?_) (.ok ?_)))
  · rw [fields]
  · rw [twpDone_ne _ _ _ _ _ other, fields]
  · rw [modTwp_ne _ _ _ _ other, fields]

theorem twpArbRetry_keepsPort (extra : Fin 8) : KeepsPort q s (execTwpArbRetry p extra s) := by
  unfold execTwpArbRetry
  split
  · exact .ok rfl
  · refine .ite (.ok rfl) (.ite (.ok ?_) (.ok ?_))
    · rw [twpDone_ne _ _ _ _ _ other, arbLoss_ne _ _ _ other]
    · rw [modTwp_ne _ _ _ _ other, arbLoss_ne _ _ _ other]

theorem twpTransactionDone_keepsPort (o : TwpOutcome) : KeepsPort q s (execTwpTransactionDone p o s) := by
  unfold execTwpTransactionDone
  split
  · exact .ok rfl
  · refine .ite (.ok rfl) ?_
    split
    · exact .ok (by rw [twpDone_ne _ _ _ _ _ other, putData_twp])
    · exact .ok (by rw [twpDone_ne _ _ _ _ _ other, putData_twp])
    · exact .ok (by rw [twpDone_ne _ _ _ _ _ other, arbLoss_ne _ _ _ other])
    · exact .ok (twpDone_ne _ _ _ _ _ other)

theorem twpTargetWrite_keepsPort (bytes : List Byte) (pec : Byte) : KeepsPort q s (execTwpTargetWrite p bytes pec s) := by
  unfold execTwpTargetWrite
  refine .ite (.ok rfl) (.ok ?_)
  rw [twpEvent_twp]
  exact modTwp_ne _ _ _ _ other

theorem twpTargetRead_keepsPort (n : Nat) : KeepsPort q s (execTwpTargetRead p n s) := .ok (whenTwp (twpSent_ne other _ n))

theorem twpAttnRequest_keepsPort (extra : Fin 8) (won : Option Nat) : KeepsPort q s (execTwpAttnRequest p extra won s) := by
  unfold execTwpAttnRequest
  refine .ite (.ok rfl) ?_
  split
  · refine .ok ?_
    rw [hwFld_twp, modTwp_ne _ _ _ _ other, twpSent_ne other]
  · exact .ok (modTwp_ne _ _ _ _ other)

theorem twpAttention_keepsPort (addr : BitVec 7) (bytes : List Byte) : KeepsPort q s (execTwpAttention p addr bytes s) := by
  unfold execTwpAttention
  refine .ok (whenTwp ?_)
  rw [twpEvent_twp]
  exact modTwp_ne _ _ _ _ other

theorem twpTimeout_keepsPort : KeepsPort q s (execTwpTimeout p s) := by
  unfold execTwpTimeout
  refine .ok (whenTwp ?_)
  rw [modTwp_ne _ _ _ _ other, twpDone_ne _ _ _ _ _ other]

theorem twpBusRecovery_keepsPort (pulses : Nat) (sdaHigh : Bool) : KeepsPort q s (execTwpBusRecovery p pulses sdaHigh s) := by
  unfold execTwpBusRecovery
  refine .ite (.ok rfl) (.ite (.ok ?_) (.ite (.ok ?_) (.ok ?_)))
  · rw [twpStuck_ne other, modTwp_ne _ _ _ _ other]
  · exact modTwp_ne _ _ _ _ other
  · exact twpRecovered_ne other

theorem twpRecoveryRetry_keepsPort (sdaHigh : Bool) : KeepsPort q s (execTwpRecoveryRetry p sdaHigh s) := by
  have retried (x : State) : (if sdaHigh then (x.modTwp p (fun t => { t with retries := t.retries + 1 })).twpRecovered p
      else (x.modTwp p (fun t => { t with retries := t.retries + 1 })).twpStuck p).twp[q] = x.twp[q] := by
    split
    · rw [twpRecovered_ne other, modTwp_ne _ _ _ _ other]
    · rw [twpStuck_ne other, modTwp_ne _ _ _ _ other]
  unfold execTwpRecoveryRetry
  refine .ok ?_
  dsimp only
  rcases whenAt_or s _ _ _ with now | never
  · rw [now]
    exact retried _
  · rw [never]

end

/-! ### Rings -/

theorem modRing_ne {r q : Fin 8} (f : HRing → HRing) (other : r ≠ q) : (s.modRing r f).hst.ring[q] = s.hst.ring[q] :=
  modAt_ne s.hst.ring r q f other

theorem ringError_ne {r q : Fin 8} (src cause : Nat) (other : r ≠ q) : (s.ringError r src cause).hst.ring[q] = s.hst.ring[q] :=
  (modRing_ne _ other).trans (modRing_ne _ other)

theorem ringVec_ring (r : Fin 8) : (s.ringVec r).hst.ring = s.hst.ring := of_hst (ringVec_still s r) Hst.ring

theorem commandDoorbell_ne {r : Fin 4} {q : Fin 8} {v : Word} (other : ring8 r ≠ q)
    (answers : exec (.commandDoorbell r v) s = .next t) : t.hst.ring[q] = s.hst.ring[q] := by
  change execCommandDoorbell r v s = .next t at answers
  unfold execCommandDoorbell at answers
  dsimp only at answers
  split at answers
  · rw [← okInj answers]
  split at answers
  · rw [← okInj answers]
    exact ringError_ne _ _ other
  · rw [← okInj answers]
    exact modRing_ne _ other

theorem consumerDoorbell_ne {r : Fin 4} {q : Fin 8} {v : Word} (other : upRing r ≠ q)
    (answers : exec (.consumerDoorbell r v) s = .next t) : t.hst.ring[q] = s.hst.ring[q] := by
  change execConsumerDoorbell r v s = .next t at answers
  unfold execConsumerDoorbell at answers
  extract_lets _ _ s1 at answers
  have moved : s1.hst.ring[q] = s.hst.ring[q] := modRing_ne _ other
  split at answers
  · rw [← okInj answers]
  split at answers
  · rw [← okInj answers]
    exact ringError_ne _ _ other
  · rw [← okInj answers]
    exact (ite_keep (fun x => x.hst.ring[q]) (s := s1) (by rw [ringVec_ring]) rfl).trans moved

/-- Settles O60: each command puts at most the cell, the port or the ring that it names. -/
theorem writesLandOnlyThere : Obligations.WritesLandOnlyThere := by
  unfold Obligations.WritesLandOnlyThere
  refine ⟨?coeff, ?curve, ?fuse, ?commit, ?port, ?command, ?consumer⟩
  case coeff =>
    intro off v s t w wf answers other
    obtain ⟨shadow, -⟩ := (Law.wf_iff _).1 wf
    obtain kept | put := coeffShadowWrite_law answers
    · rw [kept]
      exact ⟨rfl, rfl⟩
    · rw [put]
      exact ⟨cellGet_put_other 0 _ _ w v shadow other, rfl⟩
  case curve =>
    intro off v s t w wf answers other
    obtain ⟨shadow, -⟩ := (Hbx.wf_iff _).1 wf
    obtain kept | put := costCurveWrite_hbx answers
    · rw [kept]
      exact ⟨rfl, rfl⟩
    · rw [put]
      exact ⟨cellGet_put_other 0 _ _ w v shadow other, rfl⟩
  case fuse =>
    intro a b n s t c w wf cmd answers other
    obtain kept | ⟨va, vb, put⟩ := otpCommandComplete_array cmd answers
    · simp only [Otp.array, Prod.mk.injEq] at kept
      obtain ⟨aN, aM, bN, bM⟩ := kept
      rw [aN, aM, bN, bM]
      exact ⟨rfl, rfl, rfl, rfl⟩
    · simp only [Otp.array, Prod.mk.injEq] at put
      obtain ⟨aN, aM, bN, bM⟩ := put
      rw [aN, aM, bN, bM]
      exact progBits_other wf other
  case commit =>
    intro us s t w wf answers other
    simp only [Nvp.wf, Bool.and_eq_true] at wf
    obtain ⟨⟨store, -⟩, -⟩ := wf
    obtain kept | put := nvpCommitDone_store answers
    · rw [kept]
    · rw [put]
      exact puts_other _ _ w store other
  case port =>
    intro p q c s t other answers named
    obtain ⟨v, rfl⟩ | ⟨e, rfl⟩ | ⟨o, rfl⟩ | ⟨b, d, rfl⟩ | ⟨n, rfl⟩ | ⟨e, w, rfl⟩ | ⟨a, b, rfl⟩ | rfl | ⟨n, h, rfl⟩ | ⟨h, rfl⟩ := named
    · exact twpGo_keepsPort other v t answers
    · exact twpArbRetry_keepsPort other e t answers
    · exact twpTransactionDone_keepsPort other o t answers
    · exact twpTargetWrite_keepsPort other b d t answers
    · exact twpTargetRead_keepsPort other n t answers
    · exact twpAttnRequest_keepsPort other e w t answers
    · exact twpAttention_keepsPort other a b t answers
    · exact twpTimeout_keepsPort other t answers
    · exact twpBusRecovery_keepsPort other n h t answers
    · exact twpRecoveryRetry_keepsPort other h t answers
  case command =>
    intro r v s t q other answers
    exact commandDoorbell_ne (fun same => other (congrArg Fin.val same).symm) answers
  case consumer =>
    intro r v s t q other answers
    rw [consumerDoorbell_ne (fun same => other (congrArg Fin.val same).symm) answers]

end Sys2Proof.Machine
end

section
/-! A law engine's trigger, its sample's end and its snapshot request (03_law_engines R47–R49, R54–R56). -/

namespace Sys2Proof.Machine
open Sys2Proof

variable {s : State} {e : Fin 20}

/-! ### The run state at a sample boundary -/

theorem lawSync_idle (idle : s.law.eng[e].job = none) :
    (s.lawSync e).law.eng[e] = s.law.eng[e].enter (s.lawWanted e) (s.fld (F.SCH_FE_TIM.fe_blank e)) := by
  unfold State.lawSync
  rw [if_neg (by rw [idle]; decide)]
  exact modEng_at s e _

theorem lawSync_busy (busy : s.law.eng[e].job.isSome = true) : s.lawSync e = s := by
  unfold State.lawSync
  rw [if_pos busy]

theorem lawSync_fld (f : Fld) : (s.lawSync e).fld f = s.fld f := by
  have regs : (s.lawSync e).regs = s.regs := step_lawSync.frame .regs (by decide)
  unfold State.fld State.word
  rw [regs]

theorem lawSync_time : (s.lawSync e).time = s.time := step_lawSync.frame .time (by decide)

/-- Entering RUN or TRACK leaves what a trigger counts and waits for. -/
theorem enter_sampling {r : Run} (sampling : r = .run ∨ r = .track) (g : Engine) (blank : Nat) :
    (g.enter r blank).run = r ∧ (g.enter r blank).fresh = g.fresh ∧ (g.enter r blank).divCnt = g.divCnt ∧
      (g.enter r blank).next = g.next := by
  unfold Engine.enter
  split
  next same => exact ⟨same.symm, rfl, rfl, rfl⟩
  next =>
    obtain rfl | rfl := sampling
    · exact ⟨rfl, rfl, rfl, rfl⟩
    · exact ⟨rfl, rfl, rfl, rfl⟩

theorem samples_of_run {g : Engine} (sampling : g.run = .run ∨ g.run = .track) : g.samples = true := by
  unfold Engine.samples
  simpa using sampling

/-! ### A trigger -/

theorem lawTrigger_accepted (idle : s.law.eng[e].job = none)
    (spaced : s.law.eng[e].lastTrig = none ∨ s.ranOut s.law.eng[e].lastTrig (500 * ns1) = true) : s.lawTrigger e = s.lawSample e := by
  unfold State.lawTrigger
  dsimp only
  rw [if_pos (by simpa [-Fin.getElem_fin, idle] using spaced)]

theorem lawTrigger_skipped (busy : s.law.eng[e].job.isSome = true) : s.lawTrigger e = s.lawSkip e := by
  unfold State.lawTrigger
  dsimp only
  rw [if_neg (by simp [-Fin.getElem_fin, Option.isSome_iff_ne_none.1 busy])]

theorem lawSkip_at : (s.lawSkip e).law.eng[e] = { s.law.eng[e] with skip := s.law.eng[e].skip.inc } := by
  unfold State.lawSkip
  dsimp only
  rw [(flag_law _ _ _ _).1, (satEv_law _ _ _ _ _).1, modEng_at]

/-! ### The end of a sample -/

theorem lawDelay_at (stamp : Option Nat) : ∃ last worst,
    (s.lawDelay e stamp).law.eng[e] = { s.law.eng[e] with dlyLast := last, dlyWorst := worst } := by
  unfold State.lawDelay
  split
  · exact ⟨_, _, rfl⟩
  · dsimp only
    rw [(flag_law _ _ _ _).1, modEng_at]
    exact ⟨_, _, rfl⟩

theorem lawFresh_pwm (p : Fin 20 → Bool) : (s.lawFresh p).pwm = s.pwm := step_lawFresh.frame .pwm (by decide)

theorem lawSync_pwm : (s.lawSync e).pwm = s.pwm := step_lawSync.frame .pwm (by decide)

/-- The output write delivers the sample's output with its stamp, and in RUN commands the rail that was the destination at the
trigger. -/
theorem lawOutputWrite_result {t : State} {j : Job} (ctl : s.runs .ctl = true) (job : s.law.eng[e].job = some j)
    (answers : exec (.lawOutputWrite e) s = .next t) :
    t.law.eng[e].job = none ∧ t.law.eng[e].out = j.out ∧ t.law.eng[e].seen = true ∧ t.law.eng[e].outStamp = j.stamp ∧
      (j.run = .run → j.dest = 1 → t.pwm.rail[rail8 j.destIdx].cmd = j.out) := by
  change execLawOutputWrite e s = .next t at answers
  unfold execLawOutputWrite at answers
  rw [job] at answers
  dsimp -zeta only at answers
  rw [if_neg (by rw [ctl]; decide)] at answers
  extract_lets +onlyGivenNames s1 s2 s3 s4 s5 at answers
  rw [← okInj answers]
  have ended : s1.law.eng[e].job = none ∧ s1.law.eng[e].out = j.out ∧ s1.law.eng[e].seen = true ∧ s1.law.eng[e].outStamp = j.stamp := by
    unfold s1
    rw [modEng_at]
    exact ⟨rfl, rfl, rfl, rfl⟩
  have snapped : s2.law = s1.law := step_stickIf.frame .law (by decide)
  have delayed : ∃ last worst, s3.law.eng[e] = { s2.law.eng[e] with dlyLast := last, dlyWorst := worst } := lawDelay_at _
  have limited : s4.law = s3.law := by
    unfold s4
    split
    · refine ite_keep State.law (foldl_keep State.law _ ?_ _ _) rfl
      exact fun _ _ => rfl
    · rfl
  have commanded : s5.law = s4.law := ite_keep State.law rfl rfl
  have driven : j.run = .run → j.dest = 1 → s5.pwm.rail[rail8 j.destIdx].cmd = j.out := by
    intro run dest
    unfold s5
    rw [if_pos ⟨run, dest⟩, modRail_at]
  clear_value s1 s2 s3 s4 s5
  obtain ⟨last, worst, delayed⟩ := delayed
  generalize hfed : s5.lawFresh _ = fed
  obtain ⟨fresh, counted⟩ : ∃ b, fed.law.eng[e] = { s5.law.eng[e] with fresh := b } := hfed ▸ lawFresh_at s5 _ e
  obtain ⟨hjob, -, hout, hseen, hstamp, -⟩ := lawSync_keep fed e e
  rw [hjob, hout, hseen, hstamp, counted, commanded, limited, delayed, snapped]
  obtain ⟨job, out, seen, stamp⟩ := ended
  refine ⟨job, out, seen, stamp, fun run dest => ?_⟩
  rw [lawSync_pwm, ← hfed, lawFresh_pwm]
  exact driven run dest

/-- Settles O11: a due trigger comes to the trigger's own step, which takes a sample or counts a skip; the output write and the
snapshot request act on their engine. -/
theorem lawSamplesComplete : Obligations.LawSamplesComplete := by
  unfold Obligations.LawSamplesComplete
  refine ⟨?sample, ?skip, ?output, ?snap⟩
  case sample =>
    intro e s ctl idle spaced sampling due
    have entered := lawSync_idle idle
    obtain ⟨hrun, hfresh, hdiv, hnext⟩ :=
      enter_sampling sampling s.law.eng[e] (s.fld (F.SCH_FE_TIM.fe_blank e))
    obtain ⟨hjob, hlast, -⟩ := lawSync_keep s e e
    rw [← entered] at hrun hfresh hdiv hnext
    have sampling' : (s.lawSync e).law.eng[e].samples = true := samples_of_run (by rw [hrun]; exact sampling)
    obtain ⟨x, answers, time, job, last, run, -⟩ :=
      trigger_reaches e s ctl _ rfl lawSync_fld lawSync_time sampling' (by rw [hfresh, hdiv, hnext]; exact due)
    refine Completes.ok answers ?_
    have spaced' : x.law.eng[e].lastTrig = none ∨ x.ranOut x.law.eng[e].lastTrig (500 * ns1) = true := by
      unfold State.ranOut at spaced ⊢
      rw [last, hlast, time]
      exact spaced
    rw [lawTrigger_accepted ((job.trans hjob).trans idle) spaced', ← time, ← hrun, ← run]
    exact lawSample_keep x e
  case skip =>
    intro e s ctl busy sampling due
    have same : s.lawSync e = s := lawSync_busy busy
    obtain ⟨x, answers, -, job, -, -, skip⟩ :=
      trigger_reaches e s ctl s.law.eng[e] (by rw [same]) lawSync_fld lawSync_time (samples_of_run sampling) due
    refine Completes.ok answers ?_
    rw [lawTrigger_skipped (by rw [job]; exact busy), lawSkip_at, skip, job]
    exact ⟨rfl, rfl⟩
  case output =>
    intro e s j ctl job
    obtain ⟨t, answers, -⟩ := exec_answers (.lawOutputWrite e) s
    exact ⟨t, answers, lawOutputWrite_result ctl job answers⟩
  case snap =>
    intro e s ctl exposed
    refine Completes.when rfl (by simp [State.exposed, ctl, exposed]) ?_
    rw [modEng_at]

end Sys2Proof.Machine
end

section
/-! The coefficient banks of the law engines (03_law_engines R62–R64): write, commit request, swap and copy. -/

namespace Sys2Proof.Machine
open Sys2Proof

variable {s : State} {e : Fin 20}

/-! ### Write and commit request -/

/-- A word of the window of engine e is written where CTL serves the access (R62). -/
theorem execCoeffShadowWrite_window {off : BitVec 20} {val : Word} (ctl : s.runs .ctl = true) (exposed : s.sys.step ≠ 15)
    (low : 0x40000 ≤ off.toNat) (aligned : off.toNat % 4 = 0) (window : e.val = (off.toNat - 0x40000) / 0x400) :
    execCoeffShadowWrite off val s =
      if s.law.eng[e].commit ≠ 0 then ok (s.stick F.LAW_COMMIT.wdrop)
      else if s.sys.lock then ok s
      else ok { s with law := { s.law with shadow := cellPut 0 s.law.shadow (off.toNat - 0x40000) val } } := by
  have inRange : 0x40000 ≤ off.toNat ∧ off.toNat - 0x40000 < 0x5000 ∧ (off.toNat - 0x40000) % 4 = 0 := by omega
  have inBank : (off.toNat - 0x40000) / 0x400 < 20 := by omega
  have engine : s.law.eng[(off.toNat - 0x40000) / 0x400] = s.law.eng[e] := by simp only [Fin.getElem_fin, window]
  unfold execCoeffShadowWrite
  dsimp only
  rw [if_neg (by simp [State.exposed, ctl, exposed, inRange]), dif_pos inBank, engine]

theorem lawCommitRequest_completes {P : State → Prop} (ctl : s.runs .ctl = true) (exposed : s.sys.step ≠ 15) (unlocked : s.sys.lock = false)
    (requested : P (s.modEng e (fun g =>
      if g.commit = 0 then { g with commit := 1, commitAt := s.time } else { g with recommit := some s.time }))) :
    Completes (.lawCommitRequest e) s P :=
  Completes.when rfl (by simp [State.exposed, ctl, exposed, unlocked]) requested

/-! ### Swap and copy -/

theorem commitEnd_commit (g : Engine) (now : Nat) : (g.commitEnd now).commit = if g.recommit = some now then 1 else 0 := by
  unfold Engine.commitEnd
  split
  · rfl
  · rfl

/-- At a tick boundary after its request, outside a crossfade, a swap looks at the reserved bits of the shadow bank. -/
theorem execLawBankSwap_due (ctl : s.runs .ctl = true) (boundary : s.atTick = true) (pending : s.law.eng[e].commit = 1)
    (later : s.law.eng[e].commitAt < s.time) (still : s.law.eng[e].xf = none)
    (sampleStill : s.law.eng[e].job.any (fun j => j.xf.isSome) = false) :
    execLawBankSwap e s =
      if s.shadowClean e then
        ok (({ s with law := { s.law with
          active := cellsSplice s.law.active s.law.shadow (0x400 * e.val) (0x400 * e.val + 0x400)
          shadow := cellsSplice s.law.shadow s.law.active (0x400 * e.val) (0x400 * e.val + 0x400) } }).modEng e
            (fun g => { g with commit := 2 }))
      else ok (((s.modEng e (fun g => g.commitEnd s.time)).stick F.LAW_COMMIT.err).lawEvent e) := by
  unfold execLawBankSwap
  dsimp only
  rw [if_neg (by simp [-Fin.getElem_fin, ctl, boundary, pending, later, still, sampleStill])]

theorem refusedSwap_law : (((s.modEng e (fun g => g.commitEnd s.time)).stick F.LAW_COMMIT.err).lawEvent e).law =
    (s.modEng e (fun g => g.commitEnd s.time)).law := step_lawEvent.frame .law (by decide)

/-- Settles O12: the window's word, the request, the swap and the copy each act on the bank of their engine. -/
theorem lawBanksComplete : Obligations.LawBanksComplete := by
  unfold Obligations.LawBanksComplete
  refine ⟨?stored, ?dropped, ?request, ?again, ?swap, ?refused, ?copy⟩
  case stored =>
    intro off val s wf ctl low high aligned exposed unlocked noCommit
    obtain ⟨_, _, lawWf, _⟩ := wf
    have shadowWf := ((Law.wf_iff _).1 lawWf).1
    have free := noCommit ⟨(off.toNat - 0x40000) / 0x400, by omega⟩ rfl
    have answers := execCoeffShadowWrite_window (val := val) ctl exposed low aligned (e := ⟨(off.toNat - 0x40000) / 0x400, by omega⟩) rfl
    rw [if_neg (fun pending => pending free), if_neg (by rw [unlocked]; decide)] at answers
    exact Completes.ok answers ⟨cellGet_put_same 0 _ _ val shadowWf, rfl⟩
  case dropped =>
    intro off val s e ctl low aligned exposed window pending
    have answers := execCoeffShadowWrite_window (val := val) ctl exposed low aligned window
    rw [if_pos pending] at answers
    exact Completes.ok answers rfl
  case request =>
    intro e s ctl exposed unlocked none
    refine lawCommitRequest_completes ctl exposed unlocked ?_
    rw [modEng_at, if_pos none]
    exact ⟨rfl, rfl⟩
  case again =>
    intro e s ctl exposed unlocked pending
    refine lawCommitRequest_completes ctl exposed unlocked ?_
    rw [modEng_at, if_neg pending]
    exact ⟨rfl, rfl⟩
  case swap =>
    intro e s wf ctl boundary pending later still sampleStill clean
    obtain ⟨_, _, lawWf, _⟩ := wf
    obtain ⟨shadowWf, activeWf⟩ := (Law.wf_iff _).1 lawWf
    have answers := execLawBankSwap_due ctl boundary pending later still sampleStill
    rw [if_pos clean] at answers
    refine Completes.ok answers ⟨?_, fun k => cellGet_splice 0 _ _ _ _ k activeWf shadowWf⟩
    rw [modEng_at]
  case refused =>
    intro e s ctl boundary pending later still sampleStill dirty
    have answers := execLawBankSwap_due ctl boundary pending later still sampleStill
    rw [if_neg (by rw [dirty]; decide)] at answers
    refine Completes.ok answers ?_
    rw [refusedSwap_law, modEng_at, commitEnd_commit]
    exact ⟨rfl, rfl, rfl⟩
  case copy =>
    intro e s wf ctl copying
    obtain ⟨_, _, lawWf, _⟩ := wf
    obtain ⟨shadowWf, activeWf⟩ := (Law.wf_iff _).1 lawWf
    refine Completes.when rfl (by simp [-Fin.getElem_fin, ctl, copying])
      ⟨?_, rfl, fun k => cellGet_splice 0 _ _ _ _ k shadowWf activeWf⟩
    rw [modEng_at, commitEnd_commit]

end Sys2Proof.Machine
end

section
/-! PWM periods and edges, the comparator, shedding, phase faults and held assignments (05_phases_and_rails R79, R83–R88, R93,
R103–R105). -/

namespace Sys2Proof.Machine
open Sys2Proof

variable {s : State} {j : Fin 24} {n : Fin 8}

/-! ### Periods -/

theorem railConvAlign_ph (s : State) (n : Fin 8) (j : Fin 24) (t0 : Nat) : (s.railConvAlign n j t0).pwm.ph = s.pwm.ph :=
  congrArg Pwm.ph (step_railConvAlign.frame .pwm (by decide))

/-- A due period start ends in the phase's own period start; rank 0 comes to it through the rail's housekeeping, where the
snapshot taken over leaves the phase driven (R83, R225). -/
theorem execPwmPeriodStart_starts {t0 : Nat} (works : s.ctlWorks = true) (driven : (s.driven s.pwm.ph[j].rail).contains j = true)
    (due : s.periodDue s.pwm.ph[j].rail j = some t0) (reached : t0 ≤ s.time)
    (stillDriven : (((s.edgesTo j t0).railAdopt s.pwm.ph[j].rail).driven s.pwm.ph[j].rail).contains j = true) :
    ∃ x n corr, exec (.pwmPeriodStart j) s = .next ((State.periodStart x n j t0 corr).railConvAlign n j t0) := by
  change ∃ x n corr, execPwmPeriodStart j s = _
  unfold execPwmPeriodStart
  dsimp only
  rw [due, Option.getD_some, State.whenAt_now (by rw [works, driven]; rfl) reached, stillDriven]
  split
  · rw [if_neg (by decide)]
    exact ⟨_, _, _, rfl⟩
  · exact ⟨_, _, _, rfl⟩

/-! ### Edges -/

theorem runIvals_rise {t minp k : Nat} {i : Ival} {rest : List Ival} {e : Option Nat} (begun : i.a ≤ t) (runs : t < i.b)
    (long : i.a + minp ≤ i.b) : runIvals t minp (i :: rest) false e k = (true, i :: rest, some i.a, k) := by
  have reached : (false || decide (i.a ≤ t ∨ (i.b ≤ i.a ∧ i.b ≤ t))) = true := by simp [begun]
  have kept : ¬((!false && decide (i.b < i.a + minp ∨ i.b ≤ i.a)) = true) := by rw [decide_eq_false (by omega)]; decide
  unfold runIvals
  rw [if_pos reached, if_neg kept, if_neg (by omega)]
  rfl

theorem runIvals_fall {t minp k : Nat} {i : Ival} {e : Option Nat} (ended : i.b ≤ t) :
    runIvals t minp [i] true e k = (false, [], some i.b, k) := by
  simp [runIvals, ended]

/-- The high side of a phase after its scheduled edges is what its intervals say. -/
theorem edgesTo_high {t k : Nat} {high : Bool} {rest : List Ival} {e : Option Nat}
    (worked : runIvals t (s.fld (F.RAIL_CFG.min_pulse s.pwm.ph[j].rail) * 64) s.pwm.ph[j].hIv s.pwm.ph[j].h none 0 = (high, rest, e, k)) :
    (s.edgesTo j t).pwm.ph[j].h = high ∧ (s.edgesTo j t).pwm.ph[j].hEdge = e.getD s.pwm.ph[j].hEdge := by
  rw [edgesTo_at]
  dsimp only
  rw [worked]
  exact ⟨rfl, rfl⟩

theorem endPeriod_of_goes_on (goesOn : s.pwm.ph[j].endOff = false) : s.endPeriod j = s := by
  unfold State.endPeriod
  dsimp only
  split
  · rw [if_neg (by rw [goesOn]; exact Bool.false_ne_true)]
  · rfl

theorem edgesTo_endOff (t : Nat) : (s.edgesTo j t).pwm.ph[j].endOff = s.pwm.ph[j].endOff := by rw [edgesTo_at]

/-- A due edge of an assigned phase that goes on has every scheduled edge up to now come about. -/
theorem pwmEdge_completes {P : State → Prop} {t : Nat} (works : s.ctlWorks = true) (asg : s.pwm.ph[j].asg = true)
    (goesOn : s.pwm.ph[j].endOff = false) (next : t ∈ nextIval s.pwm.ph[j].h s.pwm.ph[j].hIv) (reached : t ≤ s.time)
    (edges : P (s.edgesTo j s.time)) : Completes (.pwmEdge j) s P := by
  refine Completes.due rfl (by rw [works, asg]; rfl) (nextEdge_ranOut next reached) ?_
  rw [endPeriod_of_goes_on (by rw [edgesTo_endOff, goesOn])]
  exact edges

/-! ### The comparator -/

theorem cbcCount_at (s : State) (j : Fin 24) :
    (s.cbcCount j).pwm.ph[j] = { s.pwm.ph[j] with cbc := s.pwm.ph[j].cbc.inc, cbcNow := true } := by
  unfold State.cbcCount
  extract_lets +onlyGivenNames c f s1 s2
  have marked : s1.pwm.ph[j] = { s.pwm.ph[j] with cbc := c, cbcNow := true } := modPhase_at _ _ _
  have told : s2.pwm = s1.pwm := ite_keep State.pwm rfl rfl
  rw [← marked, ← told]
  exact ite_keep (fun x => x.pwm.ph[j]) rfl rfl

theorem edgesTo_fld (t : Nat) (f : Fld) : (s.edgesTo j t).fld f = s.fld f :=
  fld_act (step_edgesTo.frame .config (by decide)) f

/-- A crossing of thr_neg outside the blanking ends the high interval in progress now, and is counted (R86–R88). -/
theorem execCbcCrossing_high (works : s.ctlWorks = true) (asg : s.pwm.ph[j].asg = true)
    (high : (s.edgesTo j s.time).pwm.ph[j].h = true)
    (unblanked : (s.edgesTo j s.time).pwm.ph[j].hEdge + s.fld (F.SNS_PH_CMP.cblank j) * 256 ≤ s.time) :
    ∃ l, exec (.cbcCrossing j false) s = .next (((s.edgesTo j s.time).modPhase j (fun p =>
      { p with h := false, hIv := p.hIv.tail, hEdge := s.time, lIv := l })).cbcCount j) := by
  change ∃ l, execCbcCrossing j false s = _
  unfold execCbcCrossing
  dsimp only
  rw [if_neg (by rw [works, asg]; decide), edgesTo_fld, (edgesTo_rail s j s.time).2, if_neg (by omega), if_pos (by rw [high]; rfl)]
  exact ⟨_, rfl⟩

/-! ### Shedding -/

theorem modPhase_shedDone (s : State) (n : Fin 8) (k : Fin 24) (f : Phase → Phase) :
    ((s.modPhase k f).shedDone n).pwm.ph[k] = f s.pwm.ph[k] ∧ ((s.modPhase k f).shedDone n).pwm.rail[n].lastShed = some s.time := by
  obtain ⟨phases, last⟩ := shedDone_at (s.modPhase k f) n
  rw [phases, modPhase_at]
  exact ⟨rfl, last⟩

/-- A due shed takes out the phase it picks: a MATCH phase to SENSE_SHED, else an ACTIVE phase to SHED (R93). -/
theorem phaseShed_completes {k : Fin 24} {v : Nat} (works : s.ctlWorks = true) (low : s.shedCond n = true)
    (now : s.pwm.rail[n].evalAt = some s.time)
    (held : s.ranOut s.pwm.rail[n].shedSince (s.fld (F.RAIL_DWELL.shed_dwell n) * us1) = true)
    (spaced : s.pwm.rail[n].lastShed = none ∨ s.ranOut s.pwm.rail[n].lastShed (s.fld (F.RAIL_DWELL.shed_dwell n) * us1) = true)
    (picks : (((s.driven n).filter (fun j => s.pwm.ph[j].pstate = 5)).getLast? = some k ∧ v = 4) ∨
      ((s.driven n).filter (fun j => s.pwm.ph[j].pstate = 5) = [] ∧
        ((s.driven n).filter (fun j => s.pwm.ph[j].pstate = 1)).getLast? = some k ∧ v = 2)) :
    Completes (.phaseShed n) s (fun t => t.pwm.ph[k].pstate = v ∧ t.pwm.rail[n].lastShed = some s.time) := by
  have due : s.shedDue n (s.pwm.rail[n].shedSince.map (fun t => max t (s.pwm.rail[n].lastShed.getD t)))
      (s.fld (F.RAIL_DWELL.shed_dwell n) * us1) = true := by
    unfold State.shedDue
    rw [now, shed_ranOut held spaced]
    simp
  refine Completes.when rfl (by rw [works, low, due]; rfl) ?_
  rcases picks with ⟨matched, rfl⟩ | ⟨unmatched, active, rfl⟩
  · rw [matched]
    obtain ⟨phase, last⟩ := modPhase_shedDone s n k (fun p => { p with pstate := 4, endOff := p.t0.isSome })
    exact ⟨congrArg Phase.pstate phase, last⟩
  · rw [unmatched, active]
    obtain ⟨phase, last⟩ := modPhase_shedDone s n k (fun p => { p with pstate := 2, endOff := p.t0.isSome })
    exact ⟨congrArg Phase.pstate phase, last⟩

/-! ### Phase faults and assignments -/

theorem openFail_at (s : State) (j : Fin 24) : (s.openFail j).pwm.ph[j] = { s.pwm.ph[j].cut s.time with pstate := 3 } := by
  unfold State.openFail
  extract_lets +onlyGivenNames n s1 s2 s3
  rw [capEval_ph, railEvent_ph]
  exact modPhase_at s j _

/-- An ACTIVE phase of the conditions of R103 for ph_time, whose rail's sum agrees, has failed open (R105). -/
theorem execPhaseOpenDetect_open {a t0 : Nat} (works : s.ctlWorks = true) (asg : s.pwm.ph[j].asg = true)
    (active : s.pwm.ph[j].pstate = 1) (since : s.pwm.ph[j].openSince = some a) (period : s.pwm.ph[j].t0 = some t0)
    (long : a + s.fld (F.RAIL_PHF.ph_time s.pwm.ph[j].rail) * us1 ≤ t0) (agrees : s.pwm.rail[s.pwm.ph[j].rail].sumBad = false) :
    exec (.phaseOpenDetect j) s = ok (s.openFail j) := by
  change execPhaseOpenDetect j s = _
  unfold execPhaseOpenDetect
  dsimp only
  rw [since, period, if_pos (by simp [-Fin.getElem_fin, works, asg, active, long]), if_neg (by rw [agrees]; decide)]

theorem execSumCheckFail_farthest (works : s.ctlWorks = true) (long : s.fld (F.RAIL_SNSF.sum_n n) ≤ s.pwm.rail[n].sumRun)
    (run : s.pwm.rail[n].sumRun ≠ 0) (farthest : s.farthest n = some j) :
    exec (.sumCheckFail n) s = ok ((s.senseFail j).modRail n (fun r => { r with sumRun := 0 })) := by
  change execSumCheckFail n s = _
  unfold execSumCheckFail
  dsimp only
  rw [if_pos (by simp [-Fin.getElem_fin, works, long, run]), farthest]

theorem execPhaseAssignmentApply_held {a : Bool × Fin 8} (held : s.pwm.ph[j].heldAsg = some a) :
    exec (.phaseAssignmentApply j) s = ok (s.when (s.runs .ctl && s.asgTime && s.asgOff a &&
      s.asgOff (s.pwm.ph[j].asg, s.pwm.ph[j].rail)) ((s.assign j a).capEval a.2)) := by
  change execPhaseAssignmentApply j s = _
  unfold execPhaseAssignmentApply
  dsimp only
  rw [held]

/-- Settles O13: each due happening of a phase comes to its own operation on that phase, which later bookkeeping leaves. -/
theorem pwmComplete : Obligations.PwmComplete := by
  unfold Obligations.PwmComplete
  refine ⟨?period, ?rise, ?fall, ?crossing, ?shedMatched, ?shedActive, ?add, ?opens, ?stuck, ?disagrees, ?assigns⟩
  case period =>
    intro j s t0 works driven due reached stillDriven
    obtain ⟨x, n, corr, answers⟩ := execPwmPeriodStart_starts works driven due reached stillDriven
    refine Completes.ok answers ?_
    rw [railConvAlign_ph]
    exact periodStart_at x n j t0 corr
  case rise =>
    intro j s i rest works asg goesOn low ivals begun runs long
    refine pwmEdge_completes works asg goesOn (t := min i.a i.b) (by rw [low, ivals]; exact List.mem_singleton.2 rfl) (by omega) ?_
    exact edgesTo_high (by rw [low, ivals, runIvals_rise begun runs long])
  case fall =>
    intro j s i works asg goesOn high ivals ended
    refine pwmEdge_completes works asg goesOn (t := i.b) (by rw [high, ivals]; exact List.mem_singleton.2 rfl) ended ?_
    exact edgesTo_high (by rw [high, ivals, runIvals_fall ended])
  case crossing =>
    intro j s works asg high unblanked
    obtain ⟨l, answers⟩ := execCbcCrossing_high works asg high unblanked
    refine Completes.ok answers ?_
    rw [cbcCount_at, modPhase_at]
    exact ⟨rfl, rfl, by rw [edgesTo_at]⟩
  case shedMatched =>
    intro n s j works low now held spaced matched
    exact phaseShed_completes works low now held spaced (.inl ⟨matched, rfl⟩)
  case shedActive =>
    intro n s j works low now held spaced unmatched active
    exact phaseShed_completes works low now held spaced (.inr ⟨unmatched, active, rfl⟩)
  case add =>
    intro n s j l works high now held shed
    refine Completes.when rfl (by simp [-Fin.getElem_fin, State.shedDue, works, high, now, held]) ?_
    rw [shed]
    obtain ⟨phase, last⟩ := modPhase_shedDone s n j (fun p => { p with pstate := 1, endOff := false })
    exact ⟨congrArg Phase.pstate phase, last⟩
  case opens =>
    intro j s a t0 works asg active since period long agrees
    refine Completes.ok (execPhaseOpenDetect_open works asg active since period long agrees) ?_
    rw [openFail_at]
    exact ⟨rfl, rfl, rfl⟩
  case stuck =>
    intro j s works asg active counts long
    exact Completes.when rfl (by simpa [-Fin.getElem_fin, works, asg, active, counts] using long) (senseFail_at s j)
  case disagrees =>
    intro n s j works long run farthest
    refine Completes.ok (execSumCheckFail_farthest works long run farthest) ⟨senseFail_at s j, ?_⟩
    rw [modRail_at]
  case assigns =>
    intro j s a ctl boundary held newOff oldOff
    refine Completes.when (execPhaseAssignmentApply_held held) (by simp [-Fin.getElem_fin, State.asgTime, ctl, boundary, newOff, oldOff]) ?_
    rw [capEval_ph, State.assign, modPhase_at]
    exact ⟨rfl, rfl, rfl⟩

end Sys2Proof.Machine
end

section
/-! Rail states, ramps, start shorts, synchronisation and tracking (05_phases_and_rails R92–R102), and what the rails' commands leave. -/

namespace Sys2Proof.Machine
open Sys2Proof

/-- Settles O45: each clause is the frame of its command. -/
theorem railFrames : Obligations.RailFrames := by
  unfold Obligations.RailFrames
  and_intros
  all_goals
    intros
    exact exec_frame ‹_›

variable {s : State} {n : Fin 8}

/-! ### Rail states (R101, Table RAIL.6) -/

theorem railFollow_start (on : s.railOn n = true) (off : s.pwm.rail[n].state = 0) : s.railFollow n = s.railStart n := by
  unfold State.railFollow
  dsimp only
  rw [if_pos on, if_pos off]

theorem railFollow_stop (disabled : s.railOn n = false)
    (works : s.pwm.rail[n].state = 1 ∨ s.pwm.rail[n].state = 2 ∨ s.pwm.rail[n].state = 3) :
    s.railFollow n = if s.bit (F.RAIL_CFG.soft_stop n) then s.railStop n else s.railOff n := by
  unfold State.railFollow
  dsimp only
  rw [if_neg (by rw [disabled]; decide), if_pos works]

theorem railFollow_off (disabled : s.railOn n = false) (down : s.pwm.rail[n].state = 5 ∨ s.pwm.rail[n].state = 6) :
    s.railFollow n = s.railOff n := by
  unfold State.railFollow
  dsimp only
  rw [if_neg (by rw [disabled]; decide), if_neg (by omega), if_pos down]

theorem railEnableChange_completes {P : State → Prop} (works : s.ctlWorks = true) (follows : P (s.railFollow n).lawSyncAll) :
    Completes (.railEnableChange n) s P := Completes.when rfl works follows

theorem railPause_at (s : State) (n : Fin 8) :
    (s.railPause n).pwm.rail[n].state = 3 ∧ (s.railPause n).pwm.rail[n].pausedFrom = s.pwm.rail[n].state := by
  unfold State.railPause
  extract_lets +onlyGivenNames s1
  have kept : s1.pwm.rail = s.pwm.rail := phFold_rail _ (fun _ _ p => { p with endOff := p.t0.isSome }) s
  rw [modRail_at, kept]
  exact ⟨rfl, rfl⟩

theorem railResume_at (s : State) (n : Fin 8) : (s.railResume n).pwm.rail[n].state = s.pwm.rail[n].pausedFrom := by
  unfold State.railResume
  extract_lets +onlyGivenNames s1 s2
  have kept : s1.pwm.rail = s.pwm.rail := phFold_rail _ (fun _ _ p => { p with endOff := false }) s
  have back : s2.pwm.rail[n].state = s.pwm.rail[n].pausedFrom := by
    rw [← kept]
    exact congrArg Rail.state (modRail_at s1 n _)
  refine (ite_keep (fun x => x.pwm.rail[n].state) ?_ rfl).trans back
  obtain ⟨_, _, filtered⟩ := capEval_at (s2.modRail n (fun r => { r with ifl := s2.railIr n, ir := s2.railIr n })) n
  rw [filtered, modRail_at]

theorem execRailPauseChange_pause (works : s.ctlWorks = true) (on : s.railOn n = true) (pause : s.bit (F.RAIL_CTL.pause n) = true)
    (runs : s.pwm.rail[n].state = 1 ∨ s.pwm.rail[n].state = 2) :
    exec (.railPauseChange n) s = ok (s.railPause n).lawSyncAll := by
  change execRailPauseChange n s = _
  unfold execRailPauseChange
  dsimp only
  rw [if_neg (by rw [works, on]; decide), if_pos pause, if_pos runs]

theorem execRailPauseChange_resume (works : s.ctlWorks = true) (on : s.railOn n = true) (clear : s.bit (F.RAIL_CTL.pause n) = false)
    (paused : s.pwm.rail[n].state = 3) : exec (.railPauseChange n) s = ok (s.railResume n).lawSyncAll := by
  change execRailPauseChange n s = _
  unfold execRailPauseChange
  dsimp only
  rw [if_neg (by rw [works, on]; decide), if_neg (by rw [clear]; decide), if_pos paused]

/-! ### Start shorts (R102) -/

/-- A start short of a rail is counted, flagged and told. -/
def State.shortNoted (s : State) (n : Fin 8) : State :=
  (((s.modRail n (fun r => { r with shorts := s.pwm.rail[n].shorts.inc, feRun := 0 })).stick (F.RAIL_STAT.short n)).railEvent n 1 0).satEv
    s.pwm.rail[n].shorts s.pwm.rail[n].shorts.inc (0x34 + n.val) (0x1204C + 0x200 * n.val)

theorem execStartShort_due (works : s.ctlWorks = true) (starts : s.pwm.rail[n].state = 1)
    (checked : s.fld (F.RAIL_SSFE.fe_time n) ≠ 0) (long : s.fld (F.RAIL_SSFE.fe_time n) ≤ s.pwm.rail[n].feRun) :
    exec (.startShort n) s =
      if s.pwm.rail[n].h < s.fld (F.RAIL_SS.retries n) then
        ok (((s.shortNoted n).railCut n).modRail n (fun x =>
          { x with state := 5, h := s.pwm.rail[n].h + 1, hicEnd := s.time + 50 * ms1 * 2 ^ s.pwm.rail[n].h })).lawSyncAll
      else ok ((s.shortNoted n).railLatch n 2).lawSyncAll := by
  change execStartShort n s = _
  unfold execStartShort
  dsimp only
  rw [if_pos (by simp [-Fin.getElem_fin, works, starts, checked, long])]
  rfl

theorem shortNoted_shorts (s : State) (n : Fin 8) : (s.shortNoted n).pwm.rail[n].shorts = s.pwm.rail[n].shorts.inc := by
  unfold State.shortNoted
  rw [satEv_pwm, railEvent_at]
  exact congrArg Rail.shorts (modRail_at s n _)

theorem railEvent_raises {x : State} (n : Fin 8) (cause mid : Nat) (chans : x.chans = s.chans) (now : x.time = s.time) :
    Raises s (x.railEvent n cause mid) (0x34 + n.val) cause mid 0 := by
  unfold State.railEvent
  refine Raises.fire _ _ _ _ [] ?_ now
  rw [List.append_nil]
  exact congrArg Chans.flight chans

theorem shortNoted_raises (s : State) (n : Fin 8) : Raises s (s.shortNoted n) (0x34 + n.val) 0x01 0 0 := by
  unfold State.shortNoted
  apply Raises.satEv
  exact railEvent_raises n 1 0 (step_stick.frame .chans (by decide)) (step_stick.frame .time (by decide))

theorem railLatch_at (s : State) (n : Fin 8) (cause : Nat) :
    (s.railLatch n cause).pwm.rail[n] = { s.pwm.rail[n] with state := 6, cause := cause } := by
  unfold State.railLatch
  rw [nodeLatched_pwm, railEvent_at, modRail_at, railCut_rail]

/-! ### Synchronisation (R94, R95) -/

/-- Every edge that is taken is the latest one, whatever it says of the period. -/
theorem syncInEdge_marks (works : s.ctlWorks = true) (enabled : s.bit F.PWM_SYNC_CFG.in_en = true) :
    Completes .syncInEdge s (fun t => t.pwm.g.syncEdge = some s.time) := by
  refine Completes.past rfl (by rw [works, enabled]; decide) ?_
  dsimp only
  split
  · -- the first edge
    exact ⟨_, rfl, rfl⟩
  split
  · -- a valid period
    split
    · exact ⟨_, rfl, rfl⟩
    · exact ⟨_, rfl, rfl⟩
  split
  · -- an invalid period, which ends the lock
    exact ⟨_, rfl, rfl⟩
  · exact ⟨_, rfl, rfl⟩

/-- The sixteenth valid period in a row makes the input valid (R94). -/
theorem syncInEdge_acquires {a : Nat} (works : s.ctlWorks = true) (enabled : s.bit F.PWM_SYNC_CFG.in_en = true)
    (last : s.pwm.g.syncEdge = some a) (invalid : s.pwm.g.syncValid = false) (run : s.pwm.g.syncRun = 15)
    (near : ((s.time - a : Nat) - (s.fld F.PWM_SYNC_NOM.nom : Int)).natAbs * 100 ≤ s.fld F.PWM_SYNC_CFG.win * s.fld F.PWM_SYNC_NOM.nom) :
    Completes .syncInEdge s (fun t => t.pwm.g.syncValid = true ∧ t.pwm.g.syncPer = min 0x1FFFFF (s.time - a) ∧
      Raises s t 0x3D 0x01 0 (min 0x1FFFFF ((s.time - a : Nat) : Int))) := by
  refine Completes.past rfl (by rw [works, enabled]; decide) ?_
  dsimp only
  rw [last]
  dsimp only
  rw [if_pos near, invalid, run, if_pos (by decide)]
  exact ⟨_, rfl, rfl, rfl, Raises.one rfl⟩

/-! ### Tracking (R100) -/

theorem trackEdge_result {high period : Nat} (ctl : s.runs .ctl = true) (nonzero : period ≠ 0) :
    Completes (.trackEdge high period) s (fun t => t.pwm.g.trackStatic = false ∧
      t.pwm.g.trackL = (clampI 0 32767 (rdiv (high * 32768) period)).toNat) := by
  refine Completes.past rfl (by simp [ctl, nonzero]) ?_
  dsimp only
  split
  · exact ⟨_, rfl, rfl, rfl⟩
  · exact ⟨_, rfl, rfl, rfl⟩

theorem trackStatic_result {level : Bool} (ctl : s.runs .ctl = true) (quiet : s.elapsed s.pwm.g.trackAt (100 * us1) = true) :
    Completes (.trackStatic level) s (fun t => t.pwm.g.trackStatic = true ∧ t.pwm.g.trackLevel = level ∧
      t.pwm.g.trackL = if level then 32767 else 0) := by
  refine Completes.at rfl ctl (of_decide_eq_true quiet) ?_
  dsimp only
  split
  · exact ⟨rfl, rfl, rfl⟩
  · exact ⟨rfl, rfl, rfl⟩

/-- Settles O14: each happening of a rail comes to its own operation, whose result the law engines' run states leave. -/
theorem railsComplete : Obligations.RailsComplete := by
  unfold Obligations.RailsComplete
  refine ⟨?starts, ?stops, ?ends, ?pauses, ?resumes, ?ramp, ?hiccup, ?latch, ?restart, ?edge, ?acquire, ?lost, ?track, ?static⟩
  case starts =>
    intro n s works on off
    refine railEnableChange_completes works ?_
    rw [lawSyncAll_pwm, railFollow_start on off]
    exact railStart_at s n
  case stops =>
    intro n s works disabled runs
    refine railEnableChange_completes works ?_
    rw [lawSyncAll_pwm, railFollow_stop disabled runs]
    split
    · exact railStop_at s n
    · exact (railOff_at s n).1
  case ends =>
    intro n s works disabled down
    refine railEnableChange_completes works ?_
    rw [lawSyncAll_pwm, railFollow_off disabled down]
    exact railOff_at s n
  case pauses =>
    intro n s works on pause runs
    refine Completes.ok (execRailPauseChange_pause works on pause runs) ?_
    rw [lawSyncAll_pwm]
    exact railPause_at s n
  case resumes =>
    intro n s works on clear paused
    refine Completes.ok (execRailPauseChange_resume works on clear paused) ?_
    rw [lawSyncAll_pwm]
    exact railResume_at s n
  case ramp =>
    intro s n works starts untracked short
    refine Completes.when rfl works ?_
    rw [lawSyncAll_pwm, foldFin]
    exact ramp_fold n _ (List.finRange 8) s (List.nodup_finRange 8) (List.mem_finRange n) starts untracked rfl short
  case hiccup =>
    intro n s works starts checked long retry
    refine Completes.ok ((execStartShort_due works starts checked long).trans (if_pos retry)) ?_
    rw [lawSyncAll_pwm, modRail_at, railCut_rail]
    refine ⟨rfl, rfl, rfl, shortNoted_shorts s n, (shortNoted_raises s n).keep ?_⟩
    exact (lawSyncAll_chans _).trans (step_railCut.frame .chans (by decide))
  case latch =>
    intro n s works starts checked long exhausted
    refine Completes.ok ((execStartShort_due works starts checked long).trans (if_neg (Nat.not_lt.2 exhausted))) ?_
    rw [lawSyncAll_pwm, railLatch_at]
    exact ⟨rfl, shortNoted_shorts s n⟩
  case restart =>
    intro n s works hiccup reached on
    refine Completes.at rfl (by simp [-Fin.getElem_fin, works, hiccup, on]) reached ?_
    rw [lawSyncAll_pwm]
    obtain ⟨state, r, -⟩ := railStart_at s n
    exact ⟨state, r⟩
  case edge =>
    intro s works enabled
    exact syncInEdge_marks works enabled
  case acquire =>
    intro s a works enabled last invalid run near
    exact syncInEdge_acquires works enabled last invalid run near
  case lost =>
    intro s works valid late
    exact Completes.due rfl (by rw [works, valid]; rfl) late ⟨rfl, rfl, Raises.one rfl⟩
  case track =>
    intro high period s ctl nonzero
    exact trackEdge_result ctl nonzero
  case static =>
    intro level s ctl quiet
    exact trackStatic_result ctl quiet

end Sys2Proof.Machine
end

section
/-! What the commands of headbox, deckle, hold-up and battery leave as it was, and the change of the allocation period
(06_headbox R126). -/

namespace Sys2Proof.Machine
open Sys2Proof

variable {s : State}

/-- Settles O46: each clause is the frame of its command. -/
theorem energyFrames : Obligations.EnergyFrames := by
  unfold Obligations.EnergyFrames
  and_intros
  all_goals
    intros
    exact exec_frame ‹_›

/-! ### The allocation period -/

/-- The period in progress completes: away from a boundary of both lengths nothing changes. -/
theorem execHbxPeriodChange_still
    (inProgress : ¬ (s.atTick = true ∧ s.tick % s.hbx.period = 0 ∧ s.tick % s.fld F.HBX_PERIOD.ticks = 0)) :
    execHbxPeriodChange s = ok s := by
  unfold execHbxPeriodChange
  dsimp only
  rw [State.when, if_neg]
  intro changes
  simp only [Bool.and_eq_true, decide_eq_true_eq] at changes
  obtain ⟨⟨⟨⟨-, boundary⟩, -⟩, multOld⟩, multNew⟩ := changes
  exact inProgress ⟨boundary, multOld, multNew⟩

/-- No field table gives HBX_PERIOD a range: what it accepts is a rule of its own. -/
theorem inRanges_hbxPeriod (w : Word) : inRanges .HBX_PERIOD w = true := by
  have unlisted : ∀ g ∈ ranges, (g.reg != .HBX_PERIOD) = true := by decide
  refine List.all_eq_true.2 fun g listed => ?_
  rw [unlisted g listed, Bool.true_or]

/-- Of the rules across fields HBX_PERIOD is read by the rule of R126 alone. -/
theorem loadRules_hbxPeriod : loadRules.filter (fun g => g.regs.contains .HBX_PERIOD) = [⟨[.HBX_PERIOD], okPeriod⟩] := rfl

theorem checkReg_hbxPeriod (s : State) (w : Word) : s.checkReg .HBX_PERIOD w = okPeriod s := by
  unfold State.checkReg
  rw [inRanges_hbxPeriod, Bool.true_and, ← List.all_filter, loadRules_hbxPeriod]
  exact Bool.and_true _

/-- Settles O56: the change comes about at a boundary of both lengths and nowhere else, and the check of the register is
its list of lengths. -/
theorem headboxPeriodChanges : Obligations.HeadboxPeriodChanges := by
  unfold Obligations.HeadboxPeriodChanges
  refine ⟨?changes, ?still, ?accepted⟩
  case changes =>
    obtain ⟨-, -, -, -, changes, -⟩ := tickComplete
    exact changes
  case still =>
    intro s inProgress
    exact execHbxPeriodChange_still inProgress
  case accepted =>
    intro s w
    rw [checkReg_hbxPeriod]
    simp [okPeriod]

end Sys2Proof.Machine
end

section
/-! The commit of the headbox, its curve writes, and the clears of derate and shed (06_headbox R111–R114, R125, 07_hold_up R144). -/

namespace Sys2Proof.Machine
open Sys2Proof

variable {s : State}

/-! ### Request and curve write -/

/-- Where DSP runs and the configuration is open, a request sets pend, and one that meets it set is remembered (R114). -/
theorem execHbxCommitRequest_open (dsp : s.runs .dsp = true) (unlocked : s.sys.lock = false) :
    execHbxCommitRequest s = ok { s with hbx :=
      if s.hbx.commit = 0 then { s.hbx with commit := 1, commitAt := s.time } else { s.hbx with recommit := some s.time } } := by
  rw [execHbxCommitRequest, State.when, if_pos (by simp [dsp, unlocked])]

/-- The window lies above the staged fields (R111, R112). -/
theorem isStaged_window {off : Nat} (window : 0x50000 ≤ off) : isStaged off = false := by
  unfold isStaged
  simp only [Bool.or_eq_false_iff, Bool.and_eq_false_iff, decide_eq_false_iff_not]
  omega

/-- A word of the window reaches the shadow bank while the window shows it and no commit is pending (R111, R114). -/
theorem execCostCurveWrite_window {off : BitVec 20} {val : Word} (dsp : s.runs .dsp = true) (unlocked : s.sys.lock = false)
    (aligned : off.toNat % 4 = 0) (low : 0x50000 ≤ off.toNat) (high : off.toNat < 0x50A00) (shown : s.bit F.HBX_CTL.view = false) :
    execCostCurveWrite off val s =
      if s.hbx.commit ≠ 0 then ok (s.stick F.HBX_COMMIT.wdrop)
      else ok { s with hbx := { s.hbx with shadow := cellPut 0 s.hbx.shadow (off.toNat - 0x50000) val } } := by
  unfold execCostCurveWrite
  dsimp only
  rw [if_neg (by simp [dsp, unlocked, aligned]), isStaged_window low, if_neg Bool.false_ne_true,
    if_pos ⟨low, high, by rw [shown]; rfl⟩]

/-! ### Swap and copy -/

/-- The staged fields and curves are the active ones, the former active ones stand in their place, and a source whose enable
rises takes prev from its measured current (R114, R118). -/
def State.curvesSwapped (s : State) : State :=
  { s with
    regs := { s.regs with act := withStaged s.regs.act s.regs.staged, staged := stagedOnly s.regs.act }
    hbx := { s.hbx with
      commit := 2, commitAt := s.time, active := s.hbx.shadow, shadow := s.hbx.active
      src := mapFin s.hbx.src (fun k x => { x with seed := x.seed || (s.stagedFld (F.HBX_SRC_CFG.en k) = 1 && !s.srcEn k) }) } }

section
variable (dsp : s.runs .dsp = true) (boundary : s.atTick = true) (pending : s.hbx.commit = 1) (later : s.hbx.commitAt < s.time)
include dsp boundary pending later

/-- At a tick boundary after its request a commit that passes R113 swaps. -/
theorem execHbxCommitSwap_accepts (sound : curveFail s.stagedFld s.hbx.shadow = none) :
    execHbxCommitSwap s = ok (s.follow s.curvesSwapped) := by
  unfold execHbxCommitSwap
  rw [if_neg (by simp [dsp, boundary, pending, later]), sound]
  rfl

/-- One that fails R113 ends, with err and the event of R114. -/
theorem execHbxCommitSwap_refuses {i : Nat} (bad : curveFail s.stagedFld s.hbx.shadow = some i) :
    execHbxCommitSwap s =
      ok ((State.stick { s with hbx := s.hbx.commitEnd s.time } F.HBX_COMMIT.err).fire 0x59 0x01 i 0) := by
  unfold execHbxCommitSwap
  rw [if_neg (by simp [dsp, boundary, pending, later]), bad]

end

/-- pend clears unless a request came at this instant, and the banks stay (00_scope R5). -/
theorem Hbx.commitEnd_result (h : Hbx) (now : Nat) :
    (h.commitEnd now).commit = (if h.recommit = some now then 1 else 0) ∧ (h.commitEnd now).shadow = h.shadow ∧
      (h.commitEnd now).active = h.active := by
  unfold Hbx.commitEnd
  split
  · exact ⟨rfl, rfl, rfl⟩
  · exact ⟨rfl, rfl, rfl⟩

/-- Settles O15: request, swap and copy are the steps of R114, a curve word lands in the staged bank, and the clears leave
no derate and no shed. -/
theorem headboxWritesComplete : Obligations.HeadboxWritesComplete := by
  unfold Obligations.HeadboxWritesComplete
  refine ⟨?request, ?again, ?swap, ?refused, ?copy, ?stored, ?derate, ?shed⟩
  case request =>
    intro s dsp unlocked idle
    refine (execHbxCommitRequest_open dsp unlocked).trans ?_
    rw [if_pos idle]
    rfl
  case again =>
    intro s dsp unlocked pending
    refine (execHbxCommitRequest_open dsp unlocked).trans ?_
    rw [if_neg pending]
    rfl
  case swap =>
    intro s dsp boundary pending later sound
    refine Completes.ok (execHbxCommitSwap_accepts dsp boundary pending later sound) ?_
    obtain ⟨commit, active, shadow⟩ := follow_hbx s s.curvesSwapped
    rw [commit, active, shadow]
    exact ⟨rfl, rfl, rfl⟩
  case refused =>
    intro s i dsp boundary pending later bad
    exact Completes.ok (execHbxCommitSwap_refuses dsp boundary pending later bad) ⟨rfl, Raises.one rfl⟩
  case copy =>
    intro s dsp copying
    exact Completes.when rfl (by simp [dsp, copying]) (Hbx.commitEnd_result _ _)
  case stored =>
    intro off val s wf dsp unlocked aligned low high shown idle
    obtain ⟨_, _, _, hbxWf, _⟩ := wf
    obtain ⟨shadowWf, -⟩ := (Hbx.wf_iff _).1 hbxWf
    have answers := execCostCurveWrite_window (val := val) dsp unlocked aligned low high shown
    rw [if_neg (fun pending => pending idle)] at answers
    exact Completes.ok answers ⟨cellGet_put_same 0 _ _ val shadowWf, rfl⟩
  case derate =>
    intro s dsp
    show execDerateClear s = _
    rw [execDerateClear, State.when, if_pos dsp]
    rfl
  case shed =>
    intro s dsp
    refine Completes.when rfl dsp ⟨rfl, fun n => Vector.getElem_replicate _, fun k => ?_⟩
    dsimp only
    rw [map_at]
    exact ⟨rfl, rfl⟩

end Sys2Proof.Machine
end

section
/-! The battery strings (08_battery_strings R150–R170): strobe, measurement of Zd, presence, block, declarations, second, hour and
age tick, enable, disable and forget. -/

namespace Sys2Proof.Machine
open Sys2Proof

variable {s : State} {i : Fin 8}

/-! ### The strobe -/

/-- The strobe is counted in BAT and in SNS, and the eightieth makes the block due (R152, 02_sense R34). -/
def State.strobeBegun (s : State) : State :=
  { s with
    bat := { s.bat with
      strobes := s.bat.strobes + 1, strobeTick := some s.tick, blockDue := s.bat.blockDue || (s.bat.strobes + 1) % 80 = 0 }
    sns := { s.sns with strobes := s.sns.strobes + 1, strobeAt := some s.time } }

theorem execStringStrobe_due {v cur : Vector (BitVec 18) 8} (works : s.batWorks = true) (running : s.sns.running = true)
    (boundary : s.atTick = true) (fiftieth : s.tick % 50 = 0) (first : s.bat.strobeTick ≠ some s.tick) :
    exec (.stringStrobe v cur) s = ok (foldFin 8 s.strobeBegun (State.strobeOne v cur)).sumStrobe := by
  change execStringStrobe v cur s = _
  unfold execStringStrobe
  rw [if_neg (by simp [works, running, boundary, fiftieth, first])]
  rfl

/-- The rails' sum checks are outside BAT and the sense front end (05_phases R104). -/
theorem sumStrobe_keep (s : State) : s.sumStrobe.bat = s.bat ∧ s.sumStrobe.sns = s.sns :=
  ⟨step_sumStrobe.frame .bat (by decide), step_sumStrobe.frame .sns (by decide)⟩

/-! ### The measurement of Zd (R164, R165) -/

/-- The impedance that a step and its eight late voltages give (R164). -/
def ZdWait.measured (z : ZdWait) : Int := rdiv (-(rdiv (sumI z.vs) 8 - z.vPost) * 10000) z.dI

/-- A measurement whose eight voltages have come is learned from, or rejected, and the wait for it is over. -/
theorem zdMeasurement_completes {z : ZdWait} {P : State → Prop} (works : s.batWorks = true) (waits : s.bat.str[i].zd = some z)
    (eight : z.vs.length = 8)
    (learned : P ((s.learn i true z.tAt z.sAt z.measured).modStr i (fun x => { x with zd := none }))) :
    Completes (.zdMeasurement i) s P := by
  refine Completes.ok ?_ learned
  change execZdMeasurement i s = _
  unfold execZdMeasurement
  rw [waits]
  dsimp only
  rw [if_neg (by simp [works, eight])]
  rfl

/-! ### Presence (R155–R157) -/

/-- A due change of presence is served. -/
def State.changeServed (s : State) (i : Fin 8) : State := s.modStr i (fun x => { x with changeDue := false, newRun := 0 })

/-- A lower string is about to take the code that string i has read (R157). -/
def State.codeClaimed (s : State) (i : Fin 8) : Bool :=
  anyFin 8 (fun k => decide (k < i) && s.bat.str[k].changeDue && s.bat.str[k].newKey.isSome &&
    s.bat.str[k].newKey == s.bat.str[i].newKey)

/-- An absent reading claims no code: a removal waits for no other string (R156, R157). -/
theorem codeClaimed_absent (reading : s.bat.str[i].newKey = none) : s.codeClaimed i = false := by
  unfold State.codeClaimed anyFin
  rw [List.any_eq_false, reading]
  intro k _
  cases s.bat.str[k].newKey with
  | none => simp
  | some c => simp

theorem execPresenceChange_inserts {c : Nat} (works : s.batWorks = true) (enabled : s.bat.enSeen[i] = true)
    (due : s.bat.str[i].changeDue = true) (absent : s.bat.str[i].present = false) (reading : s.bat.str[i].newKey = some c)
    (first : s.codeClaimed i = false) :
    exec (.presenceChange i) s = ok ((((s.changeServed i).arrive i c).batEvent i 0x01 c
      (((s.changeServed i).arrive i c).bRec i).fcc).stick (F.BAT_STAT.inserted i)) := by
  unfold State.codeClaimed at first
  change execPresenceChange i s = _
  unfold execPresenceChange
  dsimp only
  rw [first, if_neg (by simp [-Fin.getElem_fin, works, enabled, due]), if_neg (by rw [absent]; decide), reading]
  rfl

theorem execPresenceChange_removes (works : s.batWorks = true) (enabled : s.bat.enSeen[i] = true)
    (due : s.bat.str[i].changeDue = true) (present : s.bat.str[i].present = true) (reading : s.bat.str[i].newKey = none) :
    exec (.presenceChange i) s = ok ((((s.changeServed i).batEvent i 0x02 s.bat.str[i].code (s.bRec i).mAh).remove i).stick
      (F.BAT_STAT.removed i)) := by
  have first := codeClaimed_absent reading
  unfold State.codeClaimed at first
  change execPresenceChange i s = _
  unfold execPresenceChange
  dsimp only
  rw [first, if_neg (by simp [-Fin.getElem_fin, works, enabled, due]), if_pos present, reading]
  rfl

/-! ### Blocks, seconds, hours and age ticks (R152, R165, R167, R168) -/

/-- A block is worked; the fiftieth makes the second due (R152). -/
def State.blockBegun (s : State) : State :=
  { s with bat := { s.bat with
      blockDue := false, blocks := (s.bat.blocks + 1) % 50, secDue := s.bat.secDue || s.bat.blocks + 1 = 50 } }

/-- The means of the block stay at hand for the cross-check (10_redundancy R226). -/
def State.meansKept (s : State) (at_ : Nat) (older : List (Nat × Vector (Int × Int) 8)) : State :=
  { s with red := { s.red with ownMeans := ((at_, s.bat.str.map (fun x => (x.vb, x.ib))) :: older).take 2 } }

theorem meansKept_bat (s : State) (at_ : Nat) (older : List (Nat × Vector (Int × Int) 8)) : (s.meansKept at_ older).bat = s.bat := rfl

theorem execBatBlock_due (works : s.batWorks = true) (due : s.bat.blockDue = true) :
    exec .batBlock s = ok ((foldFin 8 s.blockBegun State.strBlock).meansKept s.tick s.red.ownMeans) := by
  change execBatBlock s = _
  unfold execBatBlock State.blockBegun
  rw [if_neg (by simp [works, due])]
  rfl

/-- A second is worked. -/
def State.secBegun (s : State) : State := { s with bat := { s.bat with secDue := false } }

theorem execBatSecond_due (works : s.batWorks = true) (due : s.bat.secDue = true) :
    exec .batSecond s = ok (foldFin 8 s.secBegun secOne) := by
  change execBatSecond s = _
  unfold execBatSecond
  rw [if_neg (by simp [works, due])]
  rfl

theorem secOne_sk (s : State) (i : Fin 8) : strobeKeep (secOne s i) = strobeKeep s := by
  unfold secOne
  extract_lets +onlyGivenNames x go s1
  rw [modStr_sk]
  exact ite_keep strobeKeep (correct_sk s i) rfl

/-- An hour of operating time is worked. -/
def State.hourBegun (s : State) (due : Nat) : State := { s with bat := { s.bat with hourAt := due } }

/-- An age tick is worked. -/
def State.ageBegun (s : State) (due : Nat) : State :=
  { s with bat := { s.bat with ageAt := due, ageTicks := s.bat.ageTicks + 1 } }

theorem execBatHour_eq (s : State) : exec .batHour s = ok (s.whenOp s.batWorks (nextMul s.bat.hourAt opHour) (fun x =>
    foldFin 8 (x.hourBegun (nextMul s.bat.hourAt opHour)) hourOne)) := rfl

theorem execBatAgeTick_eq (s : State) : exec .batAgeTick s = ok (s.whenOp s.batWorks (nextMul s.bat.ageAt (4 * opHour)) (fun x =>
    foldFin 8 (x.ageBegun (nextMul s.bat.ageAt (4 * opHour))) ageOne)) := rfl

/-! ### Declarations (R170) -/

theorem eodDeclare_result (works : s.batWorks = true) (due : s.bat.str[i].eodDue = true) :
    Completes (.eodDeclare i) s (fun t => t.bat.str[i].eodDue = false ∧ t.bat.str[i].declared = true) := by
  refine Completes.past rfl (by simp [-Fin.getElem_fin, works, due]) ⟨_, rfl, ?_⟩
  obtain ⟨eod, -, declared⟩ := declare_tail _ i (s.bRec i).fcc (fun x => { x with eodDue := false, declared := true })
  exact ⟨eod, declared⟩

theorem eocDeclare_result (works : s.batWorks = true) (due : s.bat.str[i].eocDue = true) :
    Completes (.eocDeclare i) s (fun t => t.bat.str[i].eocDue = false ∧ t.bat.str[i].declared = true) := by
  refine Completes.past rfl (by simp [-Fin.getElem_fin, works, due]) ⟨_, rfl, ?_⟩
  obtain ⟨-, eoc, declared⟩ := declare_tail _ i (s.bRec i).fcc (fun x => { x with eocDue := false, declared := true })
  exact ⟨eoc, declared⟩

/-! ### Enable, disable and forget (R150, R161) -/

/-- A string whose enable changes starts anew, but for its counters. -/
def Str.anew (x : Str) : Str := { Str.reset with lrn := x.lrn, rej := x.rej }

/-- An edge of a string's enable is served. -/
def State.enServed (s : State) (i : Fin 8) (en : Bool) : State :=
  { s with bat := { s.bat with enSeen := modAt s.bat.enSeen i (fun _ => en) } }

theorem enServed_at (s : State) (i : Fin 8) (en : Bool) : (s.enServed i en).bat.enSeen[i] = en := modAt_same _ _ _

theorem execBatEnable_sound (bat : s.runs .bat = true) (en : s.bit (F.BAT_CTL.en i) = true) (rises : s.bat.enSeen[i] = false)
    (sound : s.tableBad = none) : exec (.batEnable i) s = ok ((s.modStr i Str.anew).enServed i true) := by
  change execBatEnable i s = _
  unfold execBatEnable
  rw [if_neg (by simp [-Fin.getElem_fin, bat, en, rises]), sound]
  rfl

theorem execBatEnable_refuses {k : Nat} (bat : s.runs .bat = true) (en : s.bit (F.BAT_CTL.en i) = true)
    (rises : s.bat.enSeen[i] = false) (bad : s.tableBad = some k) :
    exec (.batEnable i) s = ok ((s.hwFld (F.BAT_CTL.en i) 0).batFault i 0x07 0 k) := by
  change execBatEnable i s = _
  unfold execBatEnable
  rw [if_neg (by simp [-Fin.getElem_fin, bat, en, rises]), bad]

theorem batDeliver_strLim (s : State) (i : Fin 8) :
    (s.batDeliver i).vat.strLim[i] = (s.bat.str[i].limDis, s.bat.str[i].limChg) := modAt_same _ _ _

/-- A string that starts anew is absent, with limits of 0, which the hold-up logic is told. -/
theorem strAnew_result (s : State) (i : Fin 8) :
    ((s.modStr i Str.anew).batDeliver i).bat.str[i].present = false ∧
      ((s.modStr i Str.anew).batDeliver i).vat.strLim[i] = (0, 0) := by
  rw [batDeliver_strLim, batDeliver_bat, modStr_at]
  exact ⟨rfl, rfl⟩

theorem takeTemplate_unanch (s : State) (i : Fin 8) : (s.takeTemplate i).bat.str[i].unanch = true := by
  unfold State.takeTemplate
  extract_lets +onlyGivenNames x r0 r s1 s2
  rw [modStr_at]

/-- The template has taken the place of what was learned, nothing is measured and the limits are 0 (R161). -/
def State.forgotten (s : State) (i : Fin 8) : State :=
  ((s.takeTemplate i).modStr i
    (fun x => { x with valid := false, limDis := 0, limChg := 0, nS := 0, sV := 0, sI := 0, sT := 0, nT := 0 })).batDeliver i

theorem forgotten_result (s : State) (i : Fin 8) :
    (s.forgotten i).bat.str[i].valid = false ∧ (s.forgotten i).bat.str[i].limDis = 0 ∧
      (s.forgotten i).bat.str[i].limChg = 0 ∧ (s.forgotten i).bat.str[i].unanch = true := by
  unfold State.forgotten
  rw [batDeliver_bat, modStr_at]
  exact ⟨rfl, rfl, rfl, takeTemplate_unanch s i⟩

theorem batForget_completes {P : State → Prop} (works : s.batWorks = true) (enabled : s.bat.enSeen[i] = true)
    (present : s.bat.str[i].present = true) (written : P ((s.forgotten i).idWrite i)) : Completes (.batForget i) s P :=
  Completes.past rfl (by simp [-Fin.getElem_fin, works, enabled, present]) ⟨_, rfl, written⟩

/-- Settles O16: each happening of a string comes to its own operation, whose effect the records, the deliveries and the work
on the other strings leave. -/
theorem batteryComplete : Obligations.BatteryComplete := by
  unfold Obligations.BatteryComplete
  refine ⟨?strobe, ?learned, ?rejected, ?inserts, ?removes, ?block, ?eod, ?eoc, ?second, ?hour, ?age, ?enable, ?refuse, ?disable,
    ?forget⟩
  case strobe =>
    intro v cur s works running boundary fiftieth first
    refine Completes.ok (execStringStrobe_due works running boundary fiftieth first) ?_
    obtain ⟨keepBat, keepSns⟩ := sumStrobe_keep (foldFin 8 s.strobeBegun (State.strobeOne v cur))
    rw [keepBat, keepSns]
    exact strobe_all rfl rfl rfl
  case learned =>
    intro i s z works waits eight kept
    refine zdMeasurement_completes works waits eight ?_
    rw [modStr_at]
    exact ⟨rfl, learn_kept kept⟩
  case rejected =>
    intro i s z works waits eight rejects
    refine zdMeasurement_completes works waits eight ?_
    rw [modStr_at]
    exact ⟨rfl, learn_rejected rejects⟩
  case inserts =>
    intro i s c works enabled due absent reading first
    exact Completes.ok (execPresenceChange_inserts works enabled due absent reading first) (arrive_at (s.changeServed i) i c)
  case removes =>
    intro i s works enabled due present reading
    exact Completes.ok (execPresenceChange_removes works enabled due present reading) (remove_at _ i)
  case block =>
    intro s works due
    refine Completes.ok (execBatBlock_due works due) ?_
    rw [meansKept_bat]
    obtain ⟨-, -, served, blocks, -⟩ := sk_of (foldFin_sk State.strBlock strBlock_sk s.blockBegun)
    refine ⟨served, blocks, fun i => ?_⟩
    unfold foldFin
    exact block_fold i (List.finRange 8) s.blockBegun (List.nodup_finRange 8) (List.mem_finRange i)
  case eod =>
    intro i s works due
    exact eodDeclare_result works due
  case eoc =>
    intro i s works due
    exact eocDeclare_result works due
  case second =>
    intro s works due
    refine Completes.ok (execBatSecond_due works due) ?_
    obtain ⟨-, -, -, -, served, -⟩ := sk_of (foldFin_sk secOne secOne_sk s.secBegun)
    refine ⟨served, fun i => ?_⟩
    have cleared := second_fold i _ s.secBegun (.inl (List.mem_finRange i))
    simpa only [foldFin, secFacts, Prod.mk.injEq] using cleared
  case hour =>
    intro s works due
    refine Completes.opDue (execBatHour_eq s) works due ?_
    obtain ⟨-, -, -, -, -, hourAt, -⟩ := sk_of (foldFin_sk hourOne hourOne_sk (s.hourBegun (nextMul s.bat.hourAt opHour)))
    exact hourAt
  case age =>
    intro s works due
    refine Completes.opDue (execBatAgeTick_eq s) works due ?_
    obtain ⟨-, -, -, -, -, -, ageAt, ageTicks⟩ := sk_of (foldFin_sk ageOne ageOne_sk (s.ageBegun (nextMul s.bat.ageAt (4 * opHour))))
    exact ⟨ageAt, ageTicks⟩
  case enable =>
    intro i s bat en rises sound
    refine Completes.ok (execBatEnable_sound bat en rises sound) ⟨enServed_at _ i true, ?_⟩
    exact congrArg Str.present (modStr_at s i Str.anew)
  case refuse =>
    intro i s k bat en rises bad
    refine Completes.ok (execBatEnable_refuses bat en rises bad) ⟨step_hwFld.frame .bat (by decide), ?_⟩
    exact Raises.fire _ _ _ _ [] (by rw [List.append_nil, show (State.hwFld s _ 0).chans = _ from step_hwFld.frame .chans (by decide)])
      (step_hwFld.frame .time (by decide))
  case disable =>
    intro i s bat en falls
    refine Completes.past rfl (by simp [-Fin.getElem_fin, bat, en, falls]) ⟨_, rfl, enServed_at _ i false, ?_⟩
    exact strAnew_result _ i
  case forget =>
    intro i s works enabled present
    refine batForget_completes works enabled present ?_
    have written := (idWrite_keep (s.forgotten i) i i).1
    rw [of_noRec written Str.valid, of_noRec written Str.limDis, of_noRec written Str.limChg, of_noRec written Str.unanch]
    exact forgotten_result s i

end Sys2Proof.Machine
end

section
/-! Slot links, slot modules, the claim line and the power stages (09_slot_links R178–R198, 10_redundancy R205–R210): what their
commands leave as it was, and what each leads to. -/

namespace Sys2Proof.Machine
open Sys2Proof

/-- Settles O47: each clause is the frame of its command. -/
theorem slotFrames : Obligations.SlotFrames := by
  unfold Obligations.SlotFrames
  and_intros
  all_goals
    intros
    exact exec_frame ‹_›

variable {s : State} {k : Fin 32}

/-! ### Uplink frames (R179) -/

theorem satIf_slt (s : State) (b : Bool) (o n : Ctr) (src off : Nat) : (s.satIf b o n src off).slt = s.slt :=
  step_satIf.frame .slt (by decide)

/-- An invalid frame breaks the run of its link, disarms its CRC event and touches two counters, nothing else of the link. -/
theorem badUplink_at (s : State) (k : Fin 32) (f : Frame) :
    ∃ cv cr, (s.badUplink k f).slt[k] = { s.slt[k] with cvErr := cv, crcErr := cr, run := 0, crcArm := false } := by
  unfold State.badUplink
  extract_lets l cv cr s1 s2
  have counted : s2.slt = s1.slt := (satIf_slt ..).trans (satIf_slt ..)
  have reported : (if l.crcArm then s2.slotEvent k 0x09 0 cr.word.toNat else s2).slt = s2.slt := by split <;> rfl
  refine ⟨cv, cr, ?_⟩
  rw [reported, counted]
  exact modSlt_at s k _

theorem frameRegs_ended (s : State) (k : Fin 32) (n : Nat) :
    (s.modSlt k (fun l => { l with last := some n })).slt[k].frameRegs = s.slt[k].frameRegs :=
  modSlt_keep Slt.frameRegs s k k _ fun _ => rfl

/-- A valid frame fills the measurement registers of its link and is the last one that ended. -/
theorem uplinkFrameReceived_valid {f : Frame} (works : s.works = true) (lnk : s.runs .lnk = true)
    (en : s.bit (F.SLT_CFG.en k) = true) (valid : frameValid (s.uplinkSeen k f) = true) :
    Completes (.uplinkFrameReceived k f) s (fun t => t.slt[k].last = some s.time ∧
      t.slt[k].frameRegs = (BitVec.ofNat 16 (leAt f.payload.toList 0 2), f.payload[3], BitVec.ofNat 32 (leAt f.payload.toList 4 4),
        BitVec.ofNat 32 (leAt f.payload.toList 8 4), BitVec.ofNat 16 (leAt f.payload.toList 12 2), some f.payload[2],
        BitVec.ofNat 32 s.sns64)) := by
  refine Completes.past rfl (by simp [works, lnk, en]) ?_
  rw [if_neg (by simp [valid])]
  obtain ⟨sns, time⟩ := linkSync_sns s k
  extract_lets +onlyGivenNames s0 l p gap gc i v rtt s1 s2 s3 s4
  have measured : s1.slt[k].frameRegs = (BitVec.ofNat 16 (leAt p 0 2), f.payload[3], i, v, BitVec.ofNat 16 (leAt p 12 2),
      some f.payload[2], BitVec.ofNat 32 s.sns64) := by
    rw [modSlt_at, ← sns]
    rfl
  have checked : s2.slt = s1.slt := (show (State.stickIf _ _ _).slt = _ from step_stickIf.frame .slt (by decide)).trans (satIf_slt ..)
  have reported : s3.slt = s2.slt := ite_keep (·.slt) (statusEvents_slt ..) rfl
  have kept : s4.slt[k].frameRegs = s1.slt[k].frameRegs :=
    calc s4.slt[k].frameRegs
      _ = s3.slt[k].frameRegs := (mbReceive_meas ..).trans (declStep_meas ..)
      _ = s1.slt[k].frameRegs := congrArg (fun v : Vector Slt 32 => v[k].frameRegs) (reported.trans checked)
  refine ⟨s4.modSlt k (fun l => { l with last := some s0.time }), rfl, ?_, ?_⟩
  · rw [modSlt_at, time]
  · exact (frameRegs_ended s4 k _).trans (kept.trans measured)

/-! ### The link state (R187) -/

/-- A lost link leaves for TRAIN, and its loss is reported with the state it had and the losses counted. -/
theorem linkLost_trains (works : s.works = true) (lnk : s.runs .lnk = true) (up : s.slt[k].lstate = 2 ∨ s.slt[k].lstate = 3)
    (late : s.ranOut s.slt[k].last (15500 * ns1) = true) :
    Completes (.linkLost k) s (fun t => t.slt[k].lstate = 1 ∧ t.slt[k].lossCnt = s.slt[k].lossCnt.inc ∧
      Raises s t (0x60 + k.val) 0x02 s.slt[k].lstate s.slt[k].lossCnt.inc.word.toNat) := by
  obtain ⟨state, counted, -⟩ := toTrain_at s k
  obtain ⟨x, sent⟩ := toTrain_flight s k
  refine Completes.due rfl (by simp [-Fin.getElem_fin, works, lnk, up]) late ⟨state, counted, ?_⟩
  rw [← counted]
  exact Raises.fire _ _ _ _ x sent (step_toTrain.frame .time (by decide))

/-! ### The mailbox (R194, R196) -/

/-- A stalled mailbox begins to send its unacknowledged chunks again; an event of the counter changes no link. -/
theorem mbResend_resends (lnk : s.runs .lnk = true) (up : s.slt[k].lstate = 2) (stalled : s.slt[k].mbx.stalled = true) :
    Completes (.mbResend k) s (fun t => t.slt[k].mbx = s.slt[k].mbx.resend ∧ t.slt[k].mbrtx = s.slt[k].mbrtx.inc) := by
  refine Completes.when rfl (by simp [-Fin.getElem_fin, lnk, up, stalled]) ?_
  rw [show (State.satEv _ _ _ _ _).slt = _ from step_satEv.frame .slt (by decide), modSlt_at]
  exact ⟨rfl, rfl⟩

theorem fwEnd_idle (idle : s.slt[k].fw = none) : s.fwEnd k = s := by
  unfold State.fwEnd
  rw [idle]

theorem fwPump_idle (idle : s.slt[k].fw = none) : s.fwPump k = s := by
  unfold State.fwPump
  rw [idle]

/-- The requests of link k that bear a tag and have waited their time (R196). -/
def State.reqDue (s : State) (k : Fin 32) (tag : Fin 4) (q : MbReq) : Bool :=
  q.tag = tag && decide (q.at_ + s.fld (F.SLT_CFG.mb_to k) * ms1 ≤ s.time)

theorem reqDue_iff {tag : Fin 4} {q : MbReq} :
    s.reqDue k tag q = true ↔ q.tag = tag ∧ q.at_ + s.fld (F.SLT_CFG.mb_to k) * ms1 ≤ s.time := by
  simp [State.reqDue]

/-- What is due stays due while the clock waits. -/
theorem reqDue_await {tag : Fin 4} {q : MbReq} (due : s.reqDue k tag q = true) (n : Nat) : (s.await n).reqDue k tag q = true := by
  obtain ⟨tagged, reached⟩ := reqDue_iff.1 due
  exact reqDue_iff.2 ⟨tagged, Nat.le_trans reached (Nat.le_max_left ..)⟩

/-- The happening of MB_REQUEST_TIMEOUT: every due request of the tag gets TIMEOUT and leaves. -/
def State.mbExpire (s : State) (k : Fin 32) (tag : Fin 4) : State :=
  let hit := s.slt[k].req.filter (s.reqDue k tag)
  let s1 := hit.foldl (fun s q => s.mbResult q (CmdRes.of 5)) s
  let s2 := if hit.any (fun q => q.host.isNone) then s1.fwEnd k else s1
  (s2.modSlt k (fun l => { l with req := l.req.filter (fun q => !s.reqDue k tag q) })).fwPump k

theorem execMbRequestTimeout_found {tag : Fin 4} {q0 : MbReq} (found : s.slt[k].req.find? (fun q => q.tag = tag) = some q0) :
    exec (.mbRequestTimeout k tag) s =
      ok (s.whenAt (s.runs .lnk) (q0.at_ + s.fld (F.SLT_CFG.mb_to k) * ms1) (fun s => s.mbExpire k tag)) := by
  show execMbRequestTimeout k tag s = _
  rw [execMbRequestTimeout, found]
  rfl

/-- Where no image is relayed, the requests that are not due remain, and no other is there. -/
theorem mbExpire_req (idle : s.slt[k].fw = none) (tag : Fin 4) :
    (s.mbExpire k tag).slt[k].req = s.slt[k].req.filter (fun q => !s.reqDue k tag q) := by
  unfold State.mbExpire
  extract_lets hit s1 s2
  have answered : s1.slt = s.slt := foldl_keep (·.slt) _ (fun _ _ => mbResult_slt ..) _ s
  have kept : s2.slt = s.slt := (ite_keep (·.slt) (by rw [fwEnd_idle (by rw [answered, idle])]) rfl).trans answered
  rw [fwPump_idle (by rw [modSlt_at, kept, idle]), modSlt_at, kept]

theorem mbRequestTimeout_leaves {tag : Fin 4} {q : MbReq} (lnk : s.runs .lnk = true) (idle : s.slt[k].fw = none)
    (waiting : q ∈ s.slt[k].req) (due : s.reqDue k tag q = true) :
    Completes (.mbRequestTimeout k tag) s (fun t => q ∉ t.slt[k].req ∧ ∀ r ∈ t.slt[k].req, r ∈ s.slt[k].req) := by
  obtain ⟨q0, found⟩ : ∃ q0, s.slt[k].req.find? (fun q => q.tag = tag) = some q0 := by
    refine Option.isSome_iff_exists.1 (List.find?_isSome.2 ⟨q, waiting, ?_⟩)
    exact decide_eq_true (reqDue_iff.1 due).1
  refine Completes.ok (execMbRequestTimeout_found found) ?_
  rw [State.whenAt, if_pos lnk, mbExpire_req (s := s.await _) idle]
  refine ⟨fun left => ?_, fun r left => (List.mem_filter.1 left).1⟩
  have notDue := (List.mem_filter.1 left).2
  rw [reqDue_await due] at notDue
  cases notDue

/-! ### The slot module (R189–R191, R195) -/

/-- What a valid frame on a port makes of a module before its mailbox is read: the claim, the time and the echo of the port, the
port followed now, and the command where that port commands. -/
def State.slotHeard (s : State) (k : Fin 32) (p : Port) (f : Frame) : State :=
  let pl := f.payload.toList
  let c : SlotCmd := ⟨BitVec.ofNat 16 (leAt pl 2 2), BitVec.ofNat 16 (leAt pl 4 2), f.payload[6], f.payload[7].toNat % 16, s.time + us1⟩
  let s1 := s.modSlot k (fun m =>
    ({ m with port := modAt m.port p (fun q => { q with claim := claimTaken f.payload[0], last := some s.time, echo := f.payload[1] }) }).refollow)
  s1.modSlot k (fun m => if m.follows = some p ∧ claimRole m.port[p].claim = 3 then { m with pend := some c } else m)

theorem execSlotDownlinkReceived_valid {p : Port} {f : Frame} (valid : frameValid f = true) :
    exec (.slotDownlinkReceived k p f) s = ok ((s.slotHeard k p f).slotMailbox k p f.payload.toList) :=
  if_neg (by simp [valid])

theorem slotHeard_port (s : State) (k : Fin 32) (p : Port) (f : Frame) : (s.slotHeard k p f).slot[k].port[p] =
    { s.slot[k].port[p] with claim := claimTaken f.payload[0], last := some s.time, echo := f.payload[1] } := by
  unfold State.slotHeard
  extract_lets pl c s1
  have commanded : ∀ m : SlotMod,
      (if m.follows = some p ∧ claimRole m.port[p].claim = 3 then { m with pend := some c } else m).port = m.port := by
    intro m
    split <;> rfl
  rw [modSlot_at, commanded, modSlot_at, refollow_port, modAt_same]

theorem slotDownlinkReceived_claims {p : Port} {f : Frame} (valid : frameValid f = true) :
    Completes (.slotDownlinkReceived k p f) s (fun t => t.slot[k].port[p].claim = claimTaken f.payload[0] ∧
      t.slot[k].port[p].last = some s.time ∧ t.slot[k].port[p].echo = f.payload[1]) := by
  refine Completes.ok (execSlotDownlinkReceived_valid valid) ?_
  have kept := claim_slotMailbox (s.slotHeard k p f) k p f.payload.toList
  simpa only [slotHeard_port, Prod.mk.injEq] using kept

theorem execSlotFrameApply_pend {c : SlotCmd} (pend : s.slot[k].pend = some c) :
    exec (.slotFrameApply k) s = ok (s.modSlot k (fun m =>
      { m with sp := c.sp, cap := c.cap, ctl := c.ctl, hold := c.hold, run := .normal, last := some (c.due - us1), pend := none })) := by
  show execSlotFrameApply k s = _
  rw [execSlotFrameApply, pend]

theorem slotClaimExpiry_clears {p : Port} (late : s.ranOut s.slot[k].port[p].last (15500 * ns1) = true) :
    Completes (.slotClaimExpiry k p) s (fun t => t.slot[k].port[p].claim = 0 ∧ t.slot[k].port[p].last = none ∧
      t.slot[k].port[p].mbx = .zero) := by
  refine Completes.due rfl rfl late ?_
  rw [modSlot_at, refollow_port, modAt_same]
  exact ⟨rfl, rfl, rfl⟩

/-- A hold begins and ends one unit of the clock after its time: later than d is d + 1 or later (log 37). -/
theorem ranOut_of_lt {last : Option Nat} {a d : Nat} (started : last = some a) (passed : a + d < s.time) :
    s.ranOut last (d + 1) = true := by
  subst started
  exact decide_eq_true passed

/-! ### Power stages (R208–R210) -/

theorem stageRefollow_claim (m : StageMod) : m.refollow.claim = m.claim := rfl

theorem stageRefollow_last (m : StageMod) : m.refollow.last = m.last := rfl

/-- Settles O17: each happening of a link, a slot, the claim line or a stage comes to its own operation. -/
theorem slotLinksComplete : Obligations.SlotLinksComplete := by
  unfold Obligations.SlotLinksComplete
  refine ⟨?uplink, ?badUplink, ?lost, ?retrain, ?resend, ?timeout, ?downlink, ?apply, ?claimExpiry, ?holdBegin, ?holdExpiry, ?word,
    ?stageWord, ?stageExpiry⟩
  case uplink =>
    intro k f s works lnk en valid
    obtain ⟨t, next, last, regs⟩ := uplinkFrameReceived_valid works lnk en valid
    simp only [Slt.frameRegs, Prod.mk.injEq] at regs
    obtain ⟨status, -, i, v, temp, fcnt, rxts⟩ := regs
    exact ⟨t, next, last, status, i, v, temp, fcnt, rxts⟩
  case badUplink =>
    intro k f s works lnk en invalid
    refine Completes.past rfl (by simp [works, lnk, en]) ⟨_, if_pos (by simp [invalid]), ?_⟩
    obtain ⟨_, _, broken⟩ := badUplink_at s k (s.uplinkSeen k f)
    rw [broken]
    exact ⟨rfl, rfl, rfl, rfl⟩
  case lost =>
    intro k s works lnk up late
    exact linkLost_trains works lnk up late
  case retrain =>
    intro k s lnk up
    obtain ⟨state, counted, -⟩ := toTrain_at s k
    refine Completes.past rfl (by rcases up with up | up <;> simp [-Fin.getElem_fin, lnk, up]) ⟨_, if_pos up, state, counted⟩
  case resend =>
    intro k s lnk up stalled
    exact mbResend_resends lnk up stalled
  case timeout =>
    intro k tag s q lnk idle waiting tagged reached
    exact mbRequestTimeout_leaves lnk idle waiting (reqDue_iff.2 ⟨tagged, reached⟩)
  case downlink =>
    intro k p f s valid
    exact slotDownlinkReceived_claims valid
  case apply =>
    intro k s c pend
    refine Completes.ok (execSlotFrameApply_pend pend) ?_
    rw [modSlot_at]
    exact ⟨rfl, rfl, rfl, rfl, rfl⟩
  case claimExpiry =>
    intro k p s late
    exact slotClaimExpiry_clears late
  case holdBegin =>
    intro k s a normal last passed
    exact Completes.due rfl (decide_eq_true normal) (ranOut_of_lt last passed) (modSlot_at ..)
  case holdExpiry =>
    intro k s a hold last passed
    exact Completes.due rfl (decide_eq_true hold) (ranOut_of_lt last passed) (modSlot_at ..)
  case word =>
    intro s ctl ticks due
    exact Completes.at rfl (by rw [ctl, ticks]; rfl) (Nat.le_of_eq due) ⟨rfl, rfl, rfl⟩
  case stageWord =>
    intro j p w s sync cells crc
    refine Completes.when rfl (by simp [sync, cells, crc]) ?_
    rw [modStage_at, stageRefollow_claim, stageRefollow_last]
    exact ⟨modAt_same .., modAt_same ..⟩
  case stageExpiry =>
    intro j p s late
    refine Completes.due rfl rfl late ?_
    rw [modStage_at, stageRefollow_claim, stageRefollow_last]
    exact ⟨modAt_same .., modAt_same ..⟩

end Sys2Proof.Machine
end

section
/-! Claims (10_redundancy R199–R204): what the commands of roles, claims, the arbiter and Chezon leave as it was, and how two
claims are ordered. -/

namespace Sys2Proof.Machine
open Sys2Proof

/-- Settles O48: each clause is the frame of its command. -/
theorem redundancyFrames : Obligations.RedundancyFrames := by
  unfold Obligations.RedundancyFrames
  and_intros
  all_goals
    intros
    exact exec_frame ‹_›

/-- How far the epoch of one claim is ahead of another's, modulo 32 (R201). -/
def claimAhead (c1 c2 : Byte) : Nat := (c1.toNat / 2 % 32 + 32 - c2.toNat / 2 % 32) % 32

theorem claimEpoch_ahead (c1 c2 : Byte) : (claimEpoch c1 - claimEpoch c2).toNat = claimAhead c1 c2 := claimEpoch_sub c1 c2

/-- Seen from the other claim, what is ahead is as far behind. -/
theorem claimAhead_swap (c1 c2 : Byte) : claimAhead c2 c1 = (32 - claimAhead c1 c2) % 32 := by
  unfold claimAhead
  omega

theorem claimUnit_only_iff (c1 c2 : Byte) : (claimUnit c1 && !claimUnit c2) = true ↔ c2.toNat % 2 < c1.toNat % 2 := by
  simp only [claimUnit, Bool.and_eq_true, Bool.not_eq_true', decide_eq_true_eq, decide_eq_false_iff_not]
  omega

theorem claimHigher_iff (c1 c2 : Byte) : claimHigher c1 c2 = true ↔
    claimRank c2 < claimRank c1 ∨ (claimRank c1 = claimRank c2 ∧ claimRank c1 ≠ 0 ∧
      ((1 ≤ claimAhead c1 c2 ∧ claimAhead c1 c2 ≤ 15) ∨
        ((claimAhead c1 c2 = 0 ∨ claimAhead c1 c2 = 16) ∧ c2.toNat % 2 < c1.toNat % 2))) := by
  have lt : claimAhead c1 c2 < 32 := Nat.mod_lt _ (by decide)
  unfold claimHigher
  rw [claimEpoch_ahead]
  split
  · -- different ranks decide
    rw [decide_eq_true_eq]
    omega
  split
  · -- two claims of rank none
    simp only [Bool.false_eq_true, false_iff]
    omega
  dsimp only
  split
  · -- the first epoch is ahead
    simp only [true_iff]
    omega
  split
  · -- the first epoch is behind
    simp only [Bool.false_eq_true, false_iff]
    omega
  · -- the epochs do not decide
    rw [claimUnit_only_iff]
    omega

/-- Of two claims of which neither is the higher, and that differ in the unit bit, both are none. -/
theorem claimRank_of_unordered {c1 c2 : Byte} (units : c1.toNat % 2 ≠ c2.toNat % 2) (not12 : claimHigher c1 c2 = false)
    (not21 : claimHigher c2 c1 = false) : claimRank c1 = 0 ∧ claimRank c2 = 0 := by
  rw [← Bool.not_eq_true, claimHigher_iff] at not12 not21
  have swap := claimAhead_swap c1 c2
  have lt : claimAhead c1 c2 < 32 := Nat.mod_lt _ (by decide)
  omega

theorem claimTaken_of_none {c : Byte} (none : claimRank c = 0) : claimTaken c = 0 := if_pos none

/-- Settles O55: the order of the model is the pseudocode's. -/
theorem claimsAreOrdered : Obligations.ClaimsAreOrdered := by
  unfold Obligations.ClaimsAreOrdered
  refine ⟨claimHigher_iff, ?_⟩
  intro c1 c2 units not12 not21
  obtain ⟨none1, none2⟩ := claimRank_of_unordered units not12 not21
  exact ⟨claimTaken_of_none none1, claimTaken_of_none none2⟩

end Sys2Proof.Machine
end

section
/-! The verdict port, the heartbeat and the firmware's liveness (10_redundancy R213–R216), and the arbiter (R217–R219): what each of
their commands leads to. -/

namespace Sys2Proof.Machine
open Sys2Proof

variable {s : State}

/-! ### DEMOTE_N and TAKE_N (R214–R216) -/

theorem execDemoteNAccept_new (vaon : s.aon.vaon = true) (ball : s.ballArbiter = false) (pin : s.aon.pinLow = false)
    (first : s.aon.demoted = false) :
    exec .demoteNAccept s = ok (State.demoteNow { s with aon := { s.aon with pinLow := true } }) := by
  change execDemoteNAccept s = _
  unfold execDemoteNAccept
  rw [if_neg (by simp [vaon, ball, pin])]
  exact if_neg (by simp [first])

theorem execDemoteNRelease_last (vaon : s.aon.vaon = true) (ball : s.ballArbiter = false) (pin : s.aon.pinLow = true)
    (beacon : s.aon.bcnLow = false) :
    exec .demoteNRelease s = ok (State.demoteOff { s with aon := { s.aon with pinLow := false } }) := by
  change execDemoteNRelease s = _
  unfold execDemoteNRelease
  rw [if_neg (by simp [vaon, ball, pin])]
  exact if_neg (by simp [beacon])

/-- The epoch from which a take counts on: the later of the unit's own and its peer's (R202). -/
def State.takenEpoch (s : State) : BitVec 5 :=
  match s.aon.peerEpoch with
  | some p => laterEpoch s.unitBit s.aon.epoch p
  | none => s.aon.epoch

/-- A take is counted (R215). -/
def State.takeCounted (s : State) : State := { s with aon := { s.aon with takeCnt := s.aon.takeCnt.inc } }

/-- TAKE_N has made a ready standby ACTIVE: the take is counted, and the unit drives in the next epoch (R202, R216). -/
def State.taken (s : State) : State := s.takeCounted.seqTakeover.takeDrive .active (s.takenEpoch + 1)

theorem taken_result (s : State) :
    s.taken.sys.role = .active ∧ s.taken.aon = { s.aon with takeCnt := s.aon.takeCnt.inc, epoch := s.takenEpoch + 1 } := by
  obtain ⟨aon, role⟩ := takeDrive_aon s.takeCounted.seqTakeover .active (s.takenEpoch + 1)
  have counted : s.takeCounted.seqTakeover.aon = s.takeCounted.aon := step_seqTakeover.frame .aon (by decide)
  unfold State.taken
  rw [aon, role, counted]
  exact ⟨rfl, rfl⟩

/-- A take is told: its flag, its event, and that of a counter that is full (R215). -/
def State.takeTold (s : State) (o n : Ctr) : State :=
  ((s.stick F.RED_STAT.took).fire 0xB0 0x01 0 s.ownClaim.toNat).satEv o n 0xB0 0x1A034

theorem takeTold_keep (s : State) (o n : Ctr) : (s.takeTold o n).sys = s.sys ∧ (s.takeTold o n).aon = s.aon := by
  unfold State.takeTold
  rw [show (State.satEv _ o n _ _).sys = _ from step_satEv.frame .sys (by decide),
    show (State.satEv _ o n _ _).aon = _ from step_satEv.frame .aon (by decide)]
  exact ⟨rfl, rfl⟩

/-- After the take its flag, its events and the end of a drill leave the role and the always-on part alone. -/
theorem takeNAccept_completes (vaon : s.aon.vaon = true) (ball : s.ballArbiter = false) (standby : s.sys.role = .standby)
    (pair : s.strap = .pair) (free : s.aon.demoted = false) (ready : s.red.ready = true)
    (allowed : s.otp.live.denyActive = false) (unfixed : s.otp.live.unitFix ≠ 3) :
    Completes .takeNAccept s (fun t => t.sys = s.taken.sys ∧ t.aon = s.taken.aon) := by
  refine Completes.past rfl (by simp [vaon, ball, standby, pair]) ?_
  rw [if_neg (by simp [free]), if_neg (by simp [standby, ready, allowed, unfixed])]
  extract_lets +onlyGivenNames c e aon s1 s2 s3
  have told : s3.sys = s.taken.sys ∧ s3.aon = s.taken.aon := takeTold_keep s.taken ..
  split
  · exact ⟨_, rfl, told⟩
  · exact ⟨_, rfl, told⟩

/-! ### The heartbeat (R213) -/

/-- The form that is asked for begins now: static low at once, from static with a rising edge, else from the level reached. -/
def State.hbBegun (s : State) : State :=
  { s with aon := { s.aon with hb := s.hbWanted, hbAt := s.time
                               hbLvl := if s.hbWanted = 0 then false else if s.aon.hb = 0 then true else s.vhbOut } }

/-- At an edge at which it may begin the wanted form begins; the event of its change leaves the always-on part alone. -/
theorem heartbeatFormChange_begins (vaon : s.aon.vaon = true) (ball : s.ballArbiter = false) (other : s.hbWanted ≠ s.aon.hb)
    (edge : s.hbWanted ≠ 0 →
      s.hbEdgeFrom (if s.aon.hb = 2 ∧ s.hbWanted = 1 then max s.time (s.aon.hbAt + 16 * us1) else s.time) ≤ s.time) :
    Completes .heartbeatFormChange s (fun t => t.aon = s.hbBegun.aon) := by
  refine Completes.at rfl (by simp [vaon, ball, other]) ?_ ?_
  · by_cases static : s.hbWanted = 0
    · exact Nat.le_of_eq (if_pos static)
    · exact Nat.le_trans (Nat.le_of_eq (if_neg static)) (edge static)
  · dsimp only
    split <;> rfl

/-- Settles O18: DEMOTE_N and TAKE_N come to their own operations, whose effect on the role and the always-on part their events
leave; the others act on the always-on part alone. -/
theorem rolesComplete : Obligations.RolesComplete := by
  unfold Obligations.RolesComplete
  refine ⟨?demote, ?release, ?take, ?heartbeat, ?strobe, ?silent, ?alive⟩
  case demote =>
    intro s vaon ball pin first decided
    refine Completes.ok (execDemoteNAccept_new vaon ball pin first) ?_
    obtain ⟨aon, role⟩ := demoteNow_aon { s with aon := { s.aon with pinLow := true } }
    rw [aon, role]
    exact ⟨if_neg decided, rfl, rfl, rfl, rfl⟩
  case release =>
    intro s vaon ball pin beacon
    exact Completes.ok (execDemoteNRelease_last vaon ball pin beacon) (demoteOff_aon _)
  case take =>
    intro s vaon ball standby pair free ready allowed unfixed
    obtain ⟨t, next, sys, aon⟩ := takeNAccept_completes vaon ball standby pair free ready allowed unfixed
    obtain ⟨role, taken⟩ := taken_result s
    refine ⟨t, next, ?_⟩
    dsimp only
    rw [sys, aon, taken]
    exact ⟨role, rfl, rfl⟩
  case heartbeat =>
    intro s vaon ball other edge
    exact heartbeatFormChange_begins vaon ball other edge
  case strobe =>
    intro i s vaon works late
    exact Completes.at rfl (by simp [vaon, works]) (of_decide_eq_true late) (modAt_same ..)
  case silent =>
    intro s vaon running late
    exact Completes.at rfl (by simp [vaon, running]) (of_decide_eq_true late) rfl
  case alive =>
    intro s vaon step
    exact Completes.when rfl (by simp [vaon, State.exposed, step]) rfl

/-! ### The arbiter (R217–R219) -/

variable {x y : Fin 2}

/-- The eighth healthy interval in a row makes the class of its unit HEALTHY; the intervals are counted anew from its edge. -/
theorem execVhbEdge_eighth (arb : s.arbitrates = true) (seen : s.arb.u[x].seen = true)
    (long : 16 ≤ (s.time - s.arb.u[x].edge + 1600) / 3200) (short : (s.time - s.arb.u[x].edge + 1600) / 3200 ≤ 24)
    (run : 7 ≤ s.arb.u[x].nH) :
    ∃ s1 : State, exec (.vhbEdge x) s = ok (s1.classChange x .healthy) ∧ s1.arb.u[x].edge = s.time := by
  change ∃ s1 : State, execVhbEdge x s = _ ∧ _
  unfold execVhbEdge
  rw [if_neg (by simp [arb])]
  extract_lets +onlyGivenNames u n h d nH nD nX s1
  have eighth : 8 ≤ nH := by
    have healthy : h = true := decide_eq_true ⟨long, short⟩
    unfold nH
    rw [if_pos healthy]
    exact Nat.succ_le_succ run
  have goesOn : ¬(!u.seen) = true := by rw [show u.seen = true from seen]; decide
  rw [if_neg goesOn, if_pos eighth]
  exact ⟨s1, rfl, congrArg ArbUnit.edge (modArb_at ..)⟩

/-- No TAKE is deferred any more. -/
def State.undeferred (s : State) : State := { s with arb := { s.arb with deferred := none } }

/-- A deferred TAKE of unit y is evaluated: it pulses if it is still called for (R219). -/
def State.deferredServed (s : State) (y : Fin 2) : State :=
  if s.callTake (otherUnit y) then s.undeferred.takePulse y else s.undeferred

theorem execTakeDeferredEval_eq {a : Nat} (deferred : s.arb.deferred = some (y, a)) :
    exec .takeDeferredEval s = ok (s.whenAt s.arbitrates a (fun s => s.deferredServed y)) := by
  change execTakeDeferredEval s = _
  unfold execTakeDeferredEval
  rw [deferred]
  rfl

theorem execDemoteHoldEnd_eq {a b : Nat} (demoted : s.arb.u[x].demote = some a) (since : s.arb.u[x].healthySince = some b) :
    exec (.demoteHoldEnd x) s = ok (s.whenAt s.arbitrates (max (a + 100 * us1) (b + s.fld F.RED_ARB.hold_us * us1))
      (fun s => s.modArb x (fun u => { u with demote := none }))) := by
  change execDemoteHoldEnd x s = _
  unfold execDemoteHoldEnd
  rw [demoted, since]

/-- A timer that has run out was started. -/
theorem ranOut_started {last : Option Nat} {d : Nat} (late : s.ranOut last d = true) : ∃ a, last = some a ∧ a + d ≤ s.time := by
  cases last with
  | none => cases late
  | some a => exact ⟨a, rfl, of_decide_eq_true late⟩

/-- The pulses that have lasted end; the others go on. -/
theorem takeEnd_at (s : State) (x : Fin 2) : (foldFin 2 s takeEndRound).arb.u[x] =
    { s.arb.u[x] with take := s.arb.u[x].take && !s.ranOut s.arb.u[x].takeAt (2 * us1) } :=
  foldFin_at (fun s => s.arb.u) takeEndRound (fun s _ u => { u with take := u.take && !s.ranOut u.takeAt (2 * us1) })
    (fun _ _ => rfl) (fun _ _ _ => rfl) s x

/-- Settles O19: each happening of the arbiter comes to its own change of its view of a unit. -/
theorem arbiterComplete : Obligations.ArbiterComplete := by
  unfold Obligations.ArbiterComplete
  refine ⟨?first, ?healthy, ?dead, ?pulse, ?dropped, ?pulseEnd, ?holdEnd⟩
  case first =>
    intro x s arb unseen
    refine Completes.past rfl (by simp [arb]) ⟨_, if_pos (by simp [-Fin.getElem_fin, unseen]), ?_⟩
    rw [modArb_at]
    exact ⟨rfl, rfl⟩
  case healthy =>
    intro x s arb seen long short run
    obtain ⟨s1, answers, edge⟩ := execVhbEdge_eighth arb seen long short run
    refine Completes.ok answers ?_
    have view := classChange_at s1 x .healthy
    rw [edge] at view
    simpa only [unitView, Prod.mk.injEq] using view
  case dead =>
    intro x s arb silent
    exact Completes.at rfl arb (of_decide_eq_true silent) (congrArg Prod.fst (classChange_at ..))
  case pulse =>
    intro s y a arb deferred reached called
    refine Completes.at (execTakeDeferredEval_eq deferred) arb reached ?_
    unfold State.deferredServed State.takePulse
    rw [if_pos called, modArb_at]
    exact ⟨rfl, rfl, rfl⟩
  case dropped =>
    intro s y a arb deferred reached uncalled
    exact Completes.at (execTakeDeferredEval_eq deferred) arb reached (if_neg (by simp [uncalled]))
  case pulseEnd =>
    intro s x arb take lasted
    refine Completes.due (f := fun s => foldFin 2 s takeEndRound) rfl arb (pulseEnd_ranOut take lasted) ?_
    rw [takeEnd_at, lasted, Bool.not_true, Bool.and_false]
  case holdEnd =>
    intro x s arb stood healthy
    obtain ⟨a, demoted, stood⟩ := ranOut_started stood
    obtain ⟨b, since, healthy⟩ := ranOut_started healthy
    exact Completes.at (execDemoteHoldEnd_eq demoted since) arb (Nat.max_le.2 ⟨stood, healthy⟩) (modArb_at ..)

end Sys2Proof.Machine
end

section
/-! Chezon (10_redundancy R222–R230): what its packets, training, time transfer, snapshots and drills lead to. -/

namespace Sys2Proof.Machine
open Sys2Proof

variable {s : State}

/-! ### Packets (R202, R222, R289) -/

/-- A valid packet has come: its time, the peer's claim, and the epoch of a claim that is one (R202, R222). -/
def State.packetSeen (s : State) (c : Byte) : State :=
  let s1 := s.modRed (fun r => { r with pktAt := s.time, peer := c, peerSeen := true })
  if c = 0 then s1 else { s1 with aon := { s1.aon with peerEpoch := some (claimEpoch c) } }

theorem packetSeen_red (s : State) (c : Byte) :
    (s.packetSeen c).red = { s.red with pktAt := s.time, peer := c, peerSeen := true } := by
  unfold State.packetSeen
  dsimp only
  split <;> rfl

theorem packetSeen_epoch (s : State) {c : Byte} (claims : c ≠ 0) : (s.packetSeen c).aon.peerEpoch = some (claimEpoch c) := by
  unfold State.packetSeen
  rw [if_neg claims]

/-- What a packet says of its sender besides the claim is taken; without that the unit may be ready all the same (R227). -/
def State.statusHeard (s : State) : Option PeerStatus → State
  | some st => ((((s.statusTaken st).readyUp).stepsAcked st).peerFailed st).recAdopt st
  | none => s.readyUp

/-- The status leaves the record of the packet and the always-on part alone. -/
theorem statusHeard_keep (s : State) (status : Option PeerStatus) :
    redView (s.statusHeard status).red = redView s.red ∧ (s.statusHeard status).aon = s.aon := by
  cases status with
  | none => exact ⟨readyUp_view s, step_readyUp.frame .aon (by decide)⟩
  | some st =>
    unfold State.statusHeard
    constructor
    · rw [show (State.recAdopt _ st).red = _ from step_recAdopt.frame .red (by decide),
        show (State.peerFailed _ st).red = _ from step_peerFailed.frame .red (by decide),
        show (State.stepsAcked _ st).red = _ from step_stepsAcked.frame .red (by decide), readyUp_view, statusTaken_view]
    · rw [show (State.recAdopt _ st).aon = _ from step_recAdopt.frame .aon (by decide),
        show (State.peerFailed _ st).aon = _ from step_peerFailed.frame .aon (by decide),
        show (State.stepsAcked _ st).aon = _ from step_stepsAcked.frame .aon (by decide),
        show (State.readyUp _).aon = _ from step_readyUp.frame .aon (by decide),
        show (State.statusTaken _ st).aon = _ from step_statusTaken.frame .aon (by decide)]

theorem execChezonPacketReceived_valid {p : ChezonPacket} (per : s.runs .per = true) (link : s.linkOn = true)
    (crc : p.crcOk = true) : exec (.chezonPacketReceived p) s =
      ok ((((s.packetSeen (claimTaken p.claim)).peerHigher (claimTaken p.claim)).statusHeard p.status).stepTaken p.step) := by
  change execChezonPacketReceived p s = _
  unfold execChezonPacketReceived
  rw [if_neg (by simp [per, link, crc])]
  rfl

/-- After a valid packet the peer's claim is weighed, its status taken and its step carried out, none of which touches the record of
the packet. -/
theorem chezonPacketReceived_seen {p : ChezonPacket} (per : s.runs .per = true) (link : s.linkOn = true) (crc : p.crcOk = true) :
    Completes (.chezonPacketReceived p) s (fun t => redView t.red = redView (s.packetSeen (claimTaken p.claim)).red ∧
      t.aon = (s.packetSeen (claimTaken p.claim)).aon) := by
  refine Completes.ok (execChezonPacketReceived_valid per link crc) ?_
  obtain ⟨weighedRed, weighedAon⟩ := peerHigher_keep (s.packetSeen (claimTaken p.claim)) (claimTaken p.claim)
  obtain ⟨heardRed, heardAon⟩ := statusHeard_keep ((s.packetSeen (claimTaken p.claim)).peerHigher (claimTaken p.claim)) p.status
  rw [show (State.stepTaken _ p.step).red = _ from step_stepTaken.frame .red (by decide),
    show (State.stepTaken _ p.step).aon = _ from step_stepTaken.frame .aon (by decide), heardRed, heardAon, weighedRed, weighedAon]
  exact ⟨rfl, rfl⟩

/-- A packet is sent: the claim of the latch, the own status, and the step of an update that the peer has not taken (R222). -/
theorem execChezonPacketSend_on (per : s.runs .per = true) (on : s.linkOn = true) :
    exec .chezonPacketSend s = ok (s.modRed (fun r => { r with
      sentAt := s.time
      sent := some ⟨true, r.claim, some s.ownStatus, s.upd.carry.head?.map (fun p => (s.upd.carried + 1, p))⟩ })) := by
  change execChezonPacketSend s = _
  have notDown : s.red.link ≠ .down := by
    intro down
    simp [State.linkOn, down] at on
  unfold execChezonPacketSend
  rw [if_neg (by simp [per]), if_neg notDown, if_pos on]

theorem execChezonPacketSend_down (per : s.runs .per = true) (down : s.red.link = .down) :
    exec .chezonPacketSend s = ok (s.when (s.strap = .pair && decide (7 ≤ s.sys.step ∧ s.sys.step ≤ 10))
      (s.modRed (fun r => { r with link := .train }))) := by
  change execChezonPacketSend s = _
  unfold execChezonPacketSend
  rw [if_neg (by simp [per]), if_pos down]

/-! ### Time transfer and snapshots (R223–R227) -/

/-- The offset of the peer's clock is taken, and its counter value once (R223). -/
def State.timeTaken (s : State) (offset : Int) (peerTick : Nat) (aligned : Bool) : State :=
  let take := aligned && !s.red.tickTaken
  let s1 := s.modRed (fun r => { r with tofs := satN 32 offset, aligned := aligned, tickTaken := r.tickTaken || take })
  if take then { s1 with tick := peerTick } else s1

theorem timeTaken_result (s : State) (o : Int) (k : Nat) (a : Bool) :
    (s.timeTaken o k a).red = { s.red with tofs := satN 32 o, aligned := a, tickTaken := s.red.tickTaken || a } ∧
      (s.timeTaken o k a).tick = if a = true ∧ s.red.tickTaken = false then k else s.tick := by
  unfold State.timeTaken State.modRed
  cases a <;> cases taken : s.red.tickTaken <;> simp [taken]

theorem timeTransfer_result {o : Int} {k : Nat} {a : Bool} (per : s.runs .per = true) (link : s.linkOn = true)
    (standby : s.sys.role = .standby) : Completes (.timeTransfer o k a) s (fun t =>
      redView t.red = redView (s.timeTaken o k a).red ∧ t.tick = (s.timeTaken o k a).tick) := by
  refine Completes.past rfl (by simp [per, link, standby]) ⟨(s.timeTaken o k a).readyUp, rfl, readyUp_view _, ?_⟩
  exact (step_readyUp.frame .tick (by decide)).1

/-- A snapshot that is not accepted is counted, and the run of accepted ones is over (R225). -/
def State.snapRejected (s : State) (b : Snapshot) : State :=
  s.modRed (fun r => { r with inSeq := some b.seq, snapErr := s.red.snapErr.inc, accRun := 0 })

theorem snapshotReceived_rejects {b : Snapshot} {crcOk : Bool} (per : s.runs .per = true) (link : s.linkOn = true)
    (standby : s.sys.role = .standby) (bad : s.snapOk b crcOk = false) :
    Completes (.snapshotReceived b crcOk) s (fun t => t.red = (s.snapRejected b).red ∧ t.aon = s.aon) := by
  refine Completes.past rfl (by simp [per, link, standby]) ⟨_, if_pos (by simp [bad]), ?_, ?_⟩
  · exact step_satEv.frame .red (by decide)
  · exact step_satEv.frame .aon (by decide)

/-- The adopted snapshot is the one at hand and its epoch is the unit's; the counts of snapshots stand. -/
theorem snapAdopt_result (s : State) (b : Snapshot) : (s.snapAdopt b).red.snapCnt = s.red.snapCnt ∧
    (s.snapAdopt b).red.disp = some b ∧ (s.snapAdopt b).aon.epoch = b.epoch := by
  unfold State.snapAdopt
  extract_lets +onlyGivenNames conv s1 s2
  have engines : s1.red = s.red := foldl_keep (·.red) _ (by intros; rfl) _ s
  have rails : s2.red = s1.red := foldl_keep (·.red) _ (by intros; rfl) _ s1
  refine ⟨?_, rfl, rfl⟩
  show s2.red.snapCnt = s.red.snapCnt
  rw [rails, engines]

theorem snapshotReceived_adopts {b : Snapshot} {crcOk : Bool} (per : s.runs .per = true) (link : s.linkOn = true)
    (standby : s.sys.role = .standby) (good : s.snapOk b crcOk = true) :
    Completes (.snapshotReceived b crcOk) s (fun t => t.red.snapCnt = s.red.snapCnt.inc ∧ t.red.disp = some b ∧
      t.aon.epoch = b.epoch) := by
  refine Completes.past rfl (by simp [per, link, standby]) ?_
  rw [if_neg (by simp [good])]
  extract_lets +onlyGivenNames gap s1 c s2
  have counted : s2.red.snapCnt = c := by
    unfold s2
    rw [show (State.satEv _ s.red.snapCnt c _ _).red = _ from step_satEv.frame .red (by decide)]
    rfl
  obtain ⟨cnt, disp, epoch⟩ := snapAdopt_result s2 b
  have view : redView ((s2.snapAdopt b).crossCheck b).readyUp.red = redView (s2.snapAdopt b).red :=
    (readyUp_view _).trans (crossCheck_view _ b)
  simp only [redView, Prod.mk.injEq] at view
  obtain ⟨-, -, -, keptCnt, -, keptDisp, -⟩ := view
  refine ⟨_, rfl, keptCnt.trans (cnt.trans counted), keptDisp.trans disp, ?_⟩
  rw [show (State.readyUp _).aon = _ from step_readyUp.frame .aon (by decide),
    show (State.crossCheck _ b).aon = _ from step_crossCheck.frame .aon (by decide), epoch]

theorem readyDown_result (s : State) : s.readyDown.red.ready = false ∧ s.readyDown.red.accRun = 0 := by
  unfold State.readyDown
  dsimp only
  split <;> exact ⟨rfl, rfl⟩

/-! ### The drill (R229, R230) -/

theorem readyDown_keep (s : State) : s.readyDown.red.drill = s.red.drill ∧ s.readyDown.red.drillOpt = s.red.drillOpt ∧
    ∃ l, s.readyDown.chans.flight = s.chans.flight ++ l := by
  unfold State.readyDown
  dsimp only
  split
  · exact ⟨rfl, rfl, _, rfl⟩
  · exact ⟨rfl, rfl, [], (List.append_nil _).symm⟩

/-- A drill that is over leaves its instant, and says that it is (R230). -/
theorem drillDone_result (s : State) :
    s.drillDone.red.drill = none ∧ s.drillDone.red.drillOpt = s.opTime ∧ Raises s s.drillDone 0xB5 0x02 0 0 := by
  unfold State.drillDone
  extract_lets s1
  have ended : s1.red.drill = none ∧ s1.red.drillOpt = s.opTime := ⟨rfl, rfl⟩
  have said : Raises s s1 0xB5 0x02 0 0 := Raises.one rfl
  split
  · exact ⟨ended.1, ended.2, said⟩
  · obtain ⟨drill, opt, l, flight⟩ := readyDown_keep s1
    exact ⟨drill.trans ended.1, opt.trans ended.2, said.after l flight⟩

theorem drillAsk_starts (free : s.drillRefusal = 0) : s.drillAsk = s.drillStart := if_pos free

theorem drillAsk_refused (refused : s.drillRefusal ≠ 0) : s.drillAsk = s.fire 0xB5 0x03 0 s.drillRefusal := if_neg refused

theorem execDrillComplete_eq {d : Drill} (drill : s.red.drill = some d) : exec .drillComplete s =
    ok (s.whenAt (s.runs .per && d.step = 2) (d.from_ + s.fld F.RED_DRILL.fb_ms * ms1) State.drillDone) := by
  change execDrillComplete s = _
  unfold execDrillComplete
  rw [drill]

/-- The scheduled drill (R229) where none has been asked for. -/
theorem execDrillSchedule_first (asked : s.red.drillReq = none) : ∃ f : State → State,
    exec .drillSchedule s = ok (s.whenOp (s.runs .per && s.decided && s.fld F.RED_DRILL.days ≠ 0)
      (s.red.drillOpt + s.fld F.RED_DRILL.days * 24 * opHour) f) ∧ (s.drillRefusal = 0 → f s = s.drillStart) := by
  change ∃ f : State → State, execDrillSchedule s = _ ∧ _
  unfold execDrillSchedule
  rw [asked]
  dsimp only
  rw [Nat.max_zero]
  exact ⟨_, rfl, fun free => if_pos free⟩

/-! ### The link's training (R222) -/

theorem execChezonTrained_both (per : s.runs .per = true) (train : s.red.link = .train) : exec (.chezonTrained true true) s =
    ok ((s.modRed (fun r => { r with link := .up, pktAt := s.time, downAt := none })).fire 0xB2 0x01 0 0) :=
  if_neg (by simp [per, train])

/-- One lane passes and the other, l, fails. -/
theorem execChezonTrained_one {lane0 lane1 : Bool} (per : s.runs .per = true) (train : s.red.link = .train)
    (one : lane1 = !lane0) : exec (.chezonTrained lane0 lane1) s =
      ok ((s.modRed (fun r => { r with
        link := .oneLane, lane := if lane0 then 1 else 0, pktAt := s.time, downAt := none })).fire 0xB2 0x03 0
          (if lane0 then 1 else 0 : Fin 2).val) := by
  subst one
  change execChezonTrained lane0 (!lane0) s = _
  unfold execChezonTrained
  rw [if_neg (by simp [per, train]), if_neg (by simp), if_pos (by simp)]

/-- Settles O20: each happening of the link comes to its own change of the record of the link, which what follows it leaves. -/
theorem chezonComplete : Obligations.ChezonComplete := by
  unfold Obligations.ChezonComplete
  refine ⟨?packet, ?both, ?lane1, ?lane0, ?failed, ?oneLane, ?linkDown, ?train, ?send, ?time, ?capture, ?reject, ?adopt, ?keep,
    ?lone, ?drillNow, ?drillRefused, ?schedule, ?complete⟩
  case packet =>
    intro p s per link crc
    obtain ⟨t, next, view, aon⟩ := chezonPacketReceived_seen per link crc
    rw [packetSeen_red] at view
    simp only [redView, Prod.mk.injEq] at view
    obtain ⟨pktAt, peer, seen, -⟩ := view
    refine ⟨t, next, pktAt, peer, seen, fun claims => ?_⟩
    rw [aon]
    exact packetSeen_epoch s claims
  case both =>
    intro s per train
    exact Completes.ok (execChezonTrained_both per train) ⟨rfl, Raises.one rfl⟩
  case lane1 =>
    intro s per train
    exact Completes.ok (execChezonTrained_one per train rfl) ⟨rfl, Raises.one rfl⟩
  case lane0 =>
    intro s per train
    exact Completes.ok (execChezonTrained_one per train rfl) ⟨rfl, Raises.one rfl⟩
  case failed =>
    intro s per train
    exact Completes.when rfl (by simp [per, train]) rfl
  case oneLane =>
    intro l s per up
    exact Completes.when rfl (by simp [per, up]) ⟨rfl, Raises.one rfl⟩
  case linkDown =>
    intro s per link silent
    exact Completes.at rfl (by simp [per, link]) (of_decide_eq_true silent) ⟨rfl, rfl, Raises.one rfl⟩
  case train =>
    intro s per down pair from7 to10
    exact Completes.when (execChezonPacketSend_down per down) (by simp [pair, from7, to10]) rfl
  case send =>
    intro s per on
    exact Completes.ok (execChezonPacketSend_on per on) rfl
  case time =>
    intro o k a s per link standby
    obtain ⟨t, next, view, tick⟩ := timeTransfer_result (o := o) (k := k) (a := a) per link standby
    obtain ⟨takenRed, takenTick⟩ := timeTaken_result s o k a
    rw [takenRed] at view
    simp only [redView, Prod.mk.injEq] at view
    obtain ⟨-, -, -, -, -, -, tofs, aligned, taken⟩ := view
    exact ⟨t, next, tofs, aligned, taken, tick.trans takenTick⟩
  case capture =>
    intro s per active boundary multiple first
    exact Completes.when rfl (by simp [-Nat.reducePow, per, active, boundary, multiple, first]) ⟨rfl, rfl⟩
  case reject =>
    intro b crcOk s per link standby bad
    obtain ⟨t, next, red, aon⟩ := snapshotReceived_rejects per link standby bad
    refine ⟨t, next, ?_⟩
    dsimp only
    rw [red, aon]
    exact ⟨rfl, rfl, rfl, rfl⟩
  case adopt =>
    intro b crcOk s per link standby good
    exact snapshotReceived_adopts per link standby good
  case keep =>
    intro s per standby off late
    exact Completes.due rfl (by simp [per, standby, off]) late (readyDown_result s)
  case lone =>
    intro s mgt lone active late
    exact Completes.due rfl (by simp [mgt, lone, active]) late rfl
  case drillNow =>
    intro s hst step free
    refine Completes.when rfl (by simp [hst, State.exposed, step]) ?_
    rw [drillAsk_starts free]
    exact ⟨drillStart_red s, Raises.one rfl⟩
  case drillRefused =>
    intro s hst step refused
    refine Completes.when rfl (by simp [hst, State.exposed, step]) ?_
    rw [drillAsk_refused refused]
    exact ⟨rfl, Raises.one rfl⟩
  case schedule =>
    intro s per decided days due asked free
    obtain ⟨f, answers, starts⟩ := execDrillSchedule_first asked
    refine Completes.opDue answers (by simp [per, decided, days]) due ?_
    rw [starts free]
    exact drillStart_red s
  case complete =>
    intro s f per drill passed
    exact Completes.at (execDrillComplete_eq drill) (by simp [per]) passed (drillDone_result s)

end Sys2Proof.Machine
end

section
/-! The sequencer (11_sequencing_and_supervision R234–R247): what its commands leave as it was, and what each leads to. -/

namespace Sys2Proof.Machine
open Sys2Proof

/-- Settles O49: each clause is the frame of its command. -/
theorem sequencerFrames : Obligations.SequencerFrames := by
  unfold Obligations.SequencerFrames
  and_intros
  all_goals
    intros
    exact exec_frame ‹_›

variable {s : State} {k : Fin 72}

/-! ### The 1 µs step (R235, R238, R244) -/

/-- The state after the evaluations of the direct rails, with which the 1 µs step begins (R235). -/
def State.railsEvaluated (s : State) : State := foldFin 8 s (fun s n => s.evalNode ⟨64 + n.val, by omega⟩)

theorem step_railsEvaluated : Step [.seq] s s.railsEvaluated :=
  Step.foldFin (fun s n => s.evalNode ⟨64 + n.val, by omega⟩) (fun _ _ => step_evalNode) Step.refl

theorem railsEvaluated_view (s : State) (k : Fin 72) : riseView s.railsEvaluated.seq.n[k] = riseView s.seq.n[k] :=
  foldFin_keep (fun x => riseView x.seq.n[k]) _ (fun x _ => evalNode_view x _ k) s

theorem railsEvaluated_st (s : State) : s.railsEvaluated.seq.st = s.seq.st :=
  foldFin_keep (fun x => x.seq.st) (fun s n => s.evalNode ⟨64 + n.val, by omega⟩) (fun _ _ => rfl) s

theorem railsEvaluated_drives (s : State) : s.railsEvaluated.drives = s.drives := by
  unfold State.drives
  rw [show s.railsEvaluated.sys = s.sys from step_railsEvaluated.frame .sys (by decide)]

/-- The state after the 1 µs step of a unit that drives the shelf: the nodes that are off first, then every node by them, and what
follows for the sequencer (R238, R242, R244, R245). -/
def State.seqStepped (s : State) : State :=
  (foldFin 72 (foldFin 72 s.railsEvaluated State.stepOff) State.stepNode).seqComplete.seqAllOff

theorem execSeqStep_works (works : s.works = true) (sup : s.runs .sup = true) :
    exec .seqStep s = if s.drives then ok s.seqStepped else ok s.railsEvaluated := by
  change execSeqStep s = _
  unfold execSeqStep
  rw [if_neg (by simp [works, sup]), ← railsEvaluated_drives s]
  rfl

/-- Of x, what the rise of node k depends on: the registers, the clock and the sequencer's state are those of s, and the node
is n. -/
structure NodeStands (s : State) (k : Fin 72) (n : Node) (x : State) : Prop where
  regs : x.regs = s.regs
  time : x.time = s.time
  st : x.seq.st = s.seq.st
  node : x.seq.n[k] = n

/-- The first pass leaves a rising node as it is. -/
theorem stepOffs_rising (rising : s.seq.n[k].st = .rising) : NodeStands s k s.seq.n[k] (foldFin 72 s State.stepOff) := by
  refine foldl_inv (P := NodeStands s k s.seq.n[k]) (fun x j before => ?_) _ s ⟨rfl, rfl, rfl, rfl⟩
  obtain ⟨regs, time, st, node⟩ := stepOff_keep x j k (by rw [before.node]; exact rising)
  exact ⟨regs.trans before.regs, time.trans before.time, st.trans before.st, node.trans before.node⟩

/-- In the second pass the work on another node leaves one that is in no dependants shutdown as it is. -/
theorem stepNode_stands {x : State} {n : Node} {j : Fin 72} (other : j ≠ k) (free : n.dset = none) (before : NodeStands s k n x) :
    NodeStands s k n (x.stepNode j) := by
  obtain ⟨regs, time, st⟩ := stepNode_const x j
  exact ⟨regs.trans before.regs, time.trans before.time, st.trans before.st,
    (stepNode_other x j k other (by rw [before.node]; exact free)).trans before.node⟩

/-- The second pass moves a rising node whose power-good holds to SETTLE when it comes to it (R238). -/
theorem stepNodes_settle {x : State} (en : s.nodeEn k = true) (rising : s.seq.n[k].st = .rising) (pg : s.seq.n[k].pg = true)
    (free : s.seq.n[k].dset = none) (notDown : s.seq.st ≠ 4) (before : NodeStands s k s.seq.n[k] x) :
    (foldFin 72 x State.stepNode).seq.n[k] = { s.seq.n[k] with st := .settle, settle := s.time } := by
  have settles : ∀ x, NodeStands s k s.seq.n[k] x → NodeStands s k { s.seq.n[k] with st := .settle, settle := s.time } (x.stepNode k) := by
    intro x ⟨regs, time, st, node⟩
    obtain ⟨regs', time', st'⟩ := stepNode_const x k
    refine ⟨regs'.trans regs, time'.trans time, st'.trans st, ?_⟩
    rw [stepNode_rise x k ((nodeEn_of s x k regs).trans en) (by rw [node]; exact rising) (by rw [node]; exact pg)
      (by rw [node]; exact free) (by rw [st]; exact notDown), node, time]
  exact (foldl_once (fun _ _ other => stepNode_stands other free) settles (fun _ _ other => stepNode_stands other free) _
    (List.nodup_finRange 72) (List.mem_finRange k) x before).node

/-- What follows for the sequencer leaves the node in SETTLE. -/
theorem seqStepped_settle (en : s.nodeEn k = true) (rising : s.seq.n[k].st = .rising) (pg : s.seq.n[k].pg = true)
    (free : s.seq.n[k].dset = none) (notDown : s.seq.st ≠ 4) :
    s.seqStepped.seq.n[k].st = .settle ∧ s.seqStepped.seq.n[k].settle = s.time := by
  have view := railsEvaluated_view s k
  simp only [riseView, Prod.mk.injEq] at view
  obtain ⟨stView, pgView, dsetView, -⟩ := view
  have rising' := stView.trans rising
  have regs : s.railsEvaluated.regs = s.regs := step_railsEvaluated.frame .regs (by decide)
  have time : s.railsEvaluated.time = s.time := step_railsEvaluated.frame .time (by decide)
  unfold State.seqStepped
  rw [seqAllOff_n, seqComplete_n, stepNodes_settle ((nodeEn_of s _ k regs).trans en) rising' (pgView.trans pg)
    (dsetView.trans free) (by rw [railsEvaluated_st]; exact notDown) (stepOffs_rising rising'), time]
  exact ⟨rfl, rfl⟩

/-! ### Delays and timeouts (R238, R240, R244) -/

/-- A fall given up, or waited for again under fall_hold (R244). -/
def State.fallTimedOut (s : State) (k : Fin 72) : State :=
  ((s.modNode k (fun n => { n with
      cause := 1, fallCnt := n.fallCnt + 1, st := if s.bit (F.SEQ_N_FALL.fall_hold k) then .falling else .off })).stickIf
    (!s.bit (F.SEQ_N_FALL.fall_hold k)) (F.SEQ_N_STAT.stuck k)).fire 0x92 0x01 k (s.nodeVal k)

theorem fallTimedOut_result (s : State) (k : Fin 72) :
    (s.fallTimedOut k).seq.n[k] = { s.seq.n[k] with
      cause := 1, fallCnt := s.seq.n[k].fallCnt + 1, st := if s.bit (F.SEQ_N_FALL.fall_hold k) then .falling else .off } ∧
      Raises s (s.fallTimedOut k) 0x92 0x01 k (s.nodeVal k) := by
  unfold State.fallTimedOut
  constructor
  · rw [show (State.fire _ 0x92 0x01 k (s.nodeVal k)).seq = _ from step_fire.frame .seq (by decide),
      show (State.stickIf _ _ _).seq = _ from step_stickIf.frame .seq (by decide), modNode_at]
  · have marked : ∀ (x : State) (c : Bool) (f : Fld), Step [.regs] x (x.stickIf c f) := fun _ _ _ => step_stickIf
    refine Raises.fire _ _ _ _ [] ?_ ((marked _ _ _).frame .time (by decide))
    rw [show (State.stickIf _ _ _).chans = _ from (marked _ _ _).frame .chans (by decide), List.append_nil]
    rfl

/-! ### Power-good (R235, R239) -/

theorem execPgChange_taken (works : s.works = true) (sup : s.runs .sup = true) (due : s.seq.n[k].due = true)
    (stands : s.drives = false) : exec (.pgChange k) s = ok (s.pgTake k) := by
  change execPgChange k s = _
  unfold execPgChange
  dsimp only
  rw [if_neg (by rw [works, sup, due]; decide), if_pos (by rw [stands]; rfl)]

/-- Power-good that has held for dbc evaluations is taken (R235). -/
theorem pgTake_good (bad : s.seq.n[k].pg = false) (held : s.fld (F.SEQ_N_CFG.dbc k) ≤ s.seq.n[k].pgRun) :
    (s.pgTake k).seq.n[k].pg = true := by
  unfold State.pgTake
  dsimp only
  rw [modNode_at, bad, decide_eq_true held]
  rfl

/-- A rising node whose power-good comes about within its transitions enters SETTLE (R238, R239). -/
theorem execPgChange_settles (works : s.works = true) (sup : s.runs .sup = true) (due : s.seq.n[k].due = true)
    (drives : s.drives = true) (en : s.nodeEn k = true) (rising : s.seq.n[k].st = .rising) (bad : s.seq.n[k].pg = false)
    (held : s.fld (F.SEQ_N_CFG.dbc k) ≤ s.seq.n[k].pgRun) (quiet : s.seq.n[k].chat + 1 ≤ s.fld F.SEQ_CFG.chatter_max) :
    exec (.pgChange k) s = ok (((s.pgTake k).modNode k (fun n => { n with chat := min 15 (n.chat + 1) })).modNode k
      (fun n => { n with st := .settle, settle := s.time })) := by
  have good := pgTake_good bad held
  change execPgChange k s = _
  unfold execPgChange
  dsimp only
  rw [if_neg (by rw [works, sup, due]; decide), if_neg (by rw [drives, en]; decide), rising, good, bad]
  dsimp only
  rw [if_neg (by decide), if_neg (by rw [decide_eq_false (by omega)]; simp), if_pos rfl]

/-! ### Go, stop, retry, trip and restart (R237, R242–R246) -/

theorem execSeqGo_starts (runs : s.seqRuns = true) (drives : s.drives = true) (st : s.seq.st ≤ 3) (past : s.restartOk = true) :
    exec .seqGo s = ok s.powerUp := by
  change execSeqGo s = _
  unfold execSeqGo
  rw [if_neg (by rw [runs, drives]; decide), if_pos ⟨st, past⟩]

theorem execSeqGo_held (runs : s.seqRuns = true) (drives : s.drives = true) (held : 3 < s.seq.st ∨ s.restartOk = false) :
    exec .seqGo s = ok { s with seq := { s.seq with goPend := true } } := by
  change execSeqGo s = _
  unfold execSeqGo
  rw [if_neg (by rw [runs, drives]; decide), if_neg]
  rintro ⟨st, past⟩
  rcases held with high | short
  · omega
  · exact absurd past (by rw [short]; decide)

theorem shelfShutdown_from {cause : Nat} (notDown : s.seq.st ≠ 4) (notTripped : s.seq.st ≠ 6) :
    (s.shelfShutdown cause).seq.from_ = s.time := by
  unfold State.shelfShutdown
  rw [if_neg (not_or.2 ⟨notDown, notTripped⟩)]
  rfl

/-- The retry of a completed power-up (R242). -/
def State.retried (s : State) : State :=
  { s with seq := { s.seq with
      st := 1, from_ := s.time
      n := mapFin s.seq.n (fun k n =>
        if s.nodeEn k && (n.st = .failed || n.st = .blocked) && !n.en then
          { n with st := .wait, chat := 0, dly := none, dset := none }
        else n) } }

theorem execSeqRetry_again (runs : s.seqRuns = true) (drives : s.drives = true) (completed : s.seq.st = 2 ∨ s.seq.st = 3) :
    exec .seqRetry s = ok s.retried := by
  change execSeqRetry s = _
  unfold execSeqRetry
  rw [if_neg (by rw [runs, drives]; decide), if_pos completed]
  rfl

theorem retried_waits (en : s.nodeEn k = true) (blocked : s.seq.n[k].st = .blocked) (off : s.seq.n[k].en = false) :
    s.retried.seq.n[k].st = .wait := by
  unfold State.retried
  dsimp only
  rw [mapFin_at, if_pos (by rw [en, blocked, off]; decide)]

theorem shelfTrip_result (s : State) (source number : Nat) :
    (s.shelfTrip source number).seq.st = 6 ∧ (s.shelfTrip source number).seq.cause = 5 ∧
      (s.shelfTrip source number).seq.tripAt = some s.time ∧
      (∀ k : Fin 72, (s.shelfTrip source number).seq.n[k].st = .off ∧ (s.shelfTrip source number).seq.n[k].en = false) ∧
      Raises s (s.shelfTrip source number) 0x90 0x05 source number := by
  unfold State.shelfTrip
  extract_lets +onlyGivenNames s1
  have marked : Step [.regs] s s1 := Step.foldFin _ (fun _ _ => step_stickIf) Step.refl
  have time : s1.time = s.time := marked.frame .time (by decide)
  have chans : s1.chans = s.chans := marked.frame .chans (by decide)
  refine ⟨rfl, rfl, rfl, fun k => ?_, Raises.fire _ _ _ _ [] (by rw [List.append_nil]; exact congrArg _ chans) time⟩
  exact ⟨congrArg Node.st (map_at s1.seq.n _ k), congrArg Node.en (map_at s1.seq.n _ k)⟩

theorem execSeqTripClr_clears (works : s.works = true) (sup : s.runs .sup = true) (tripped : s.seq.st = 6) (drives : s.drives = true) :
    exec .seqTripClr s = ok { s with
      aon := { s.aon with tripSeq := 0 }
      seq := { s.seq with st := 0, goPend := s.seq.goPend || s.seq.retryPend, retryPend := false } } := by
  change execSeqTripClr s = _
  unfold execSeqTripClr
  rw [if_neg (by rw [works, sup]; decide), if_pos ⟨tripped, drives⟩]

/-- Where the delays of R245 and R246 have passed, the instant from which a restart may act has come. -/
theorem restartAt_le (past : s.restartOk = true) : s.restartAt ≤ s.time := by
  unfold State.restartOk at past
  dsimp only at past
  rw [Bool.and_eq_true] at past
  exact Nat.max_le.2 ⟨restart_after past.1, restart_after past.2⟩

/-- An automatic restart, counted and told (R245). -/
def State.restarted (s : State) : State :=
  (({ s.powerUp with seq := { s.powerUp.seq with rsCnt := s.seq.rsCnt.inc } }).fire 0x90 0x06 s.seq.cause 0).satEv s.seq.rsCnt s.seq.rsCnt.inc
    0x90 0x1B024

theorem restarted_result (s : State) :
    s.restarted.seq.st = 1 ∧ s.restarted.seq.rsCnt = s.seq.rsCnt.inc ∧ Raises s s.restarted 0x90 0x06 s.seq.cause 0 := by
  unfold State.restarted
  rw [show (State.satEv _ s.seq.rsCnt s.seq.rsCnt.inc 0x90 0x1B024).seq = _ from step_satEv.frame .seq (by decide)]
  exact ⟨rfl, rfl, Raises.satEv (Raises.one rfl) _ _ _ _⟩

theorem restartDelayEnd_restarts {P : State → Prop} (runs : s.seqRuns = true) (drives : s.drives = true) (past : s.restartOk = true)
    (waits : s.seq.st = 5) (input : s.vat.hu = false) (result : P s.restarted) : Completes .restartDelayEnd s P := by
  have again : (decide (s.seq.st = 5) && !((decide (s.seq.cause = 3) || s.seq.huWait) && s.vat.hu)) = true := by simp [waits, input]
  refine Completes.at rfl (by rw [runs, drives, again]; rfl) (restartAt_le past) ?_
  dsimp only
  rw [if_pos again]
  exact result

/-- Settles O21: each delay, timeout, change and request comes to its own move of its node or of the sequencer. -/
theorem sequencerComplete : Obligations.SequencerComplete := by
  unfold Obligations.SequencerComplete
  refine ⟨?settles, ?evaluates, ?onDelay, ?settleEnd, ?riseTimeout, ?offDelay, ?fallTimeout, ?pgStandby, ?pgRises, ?go, ?goHeld,
    ?stop, ?retry, ?trip, ?tripClear, ?restart⟩
  case settles =>
    intro s k works sup drives en rising pg free notDown
    exact Completes.ok ((execSeqStep_works works sup).trans (if_pos drives)) (seqStepped_settle en rising pg free notDown)
  case evaluates =>
    intro s works sup stands
    exact Completes.ok ((execSeqStep_works works sup).trans (if_neg (by rw [stands]; decide))) rfl
  case onDelay =>
    intro k s runs drives en waits notDown passed
    exact Completes.due rfl (by simp [-Fin.getElem_fin, runs, drives, en, waits, notDown]) passed (modNode_at s k _)
  case settleEnd =>
    intro k s runs drives en settle pg notDown passed
    exact Completes.at rfl (by simp [-Fin.getElem_fin, runs, drives, en, settle, pg, notDown]) (of_decide_eq_true passed) (modNode_at s k _)
  case riseTimeout =>
    intro k s runs drives en rising notDown passed
    exact Completes.at rfl (by simp [-Fin.getElem_fin, runs, drives, en, rising, notDown]) (of_decide_eq_true passed) (nodeFail_at s k 1)
  case offDelay =>
    intro k s runs drives down up dependants passed
    exact Completes.due rfl (by simp [-Fin.getElem_fin, runs, drives, down, up, dependants]) passed (modNode_at s k _)
  case fallTimeout =>
    intro k s runs drives en falling high passed
    exact Completes.at rfl (by simp [-Fin.getElem_fin, runs, drives, en, falling, high]) (of_decide_eq_true passed)
      (fallTimedOut_result s k)
  case pgStandby =>
    intro k s works sup due stands
    exact Completes.ok (execPgChange_taken works sup due stands) rfl
  case pgRises =>
    intro k s works sup due drives en rising bad held quiet
    refine Completes.ok (execPgChange_settles works sup due drives en rising bad held quiet) ?_
    rw [modNode_at, modNode_at]
    exact ⟨pgTake_good bad held, rfl, rfl⟩
  case go =>
    intro s runs drives st past
    exact Completes.ok (execSeqGo_starts runs drives st past) rfl
  case goHeld =>
    intro s runs drives held
    exact Completes.ok (execSeqGo_held runs drives held) rfl
  case stop =>
    intro s runs drives notDown notTripped
    refine Completes.when rfl (by rw [runs, drives]; rfl) ?_
    obtain ⟨st, cause, -, -, raises⟩ := seqDown s notDown notTripped
    exact ⟨st, cause, shelfShutdown_from notDown notTripped, raises⟩
  case retry =>
    intro s runs drives completed
    exact Completes.ok (execSeqRetry_again runs drives completed) ⟨rfl, fun k => retried_waits⟩
  case trip =>
    intro s runs drives
    exact Completes.when rfl (by rw [runs, drives]; rfl) (shelfTrip_result s 3 0)
  case tripClear =>
    intro s works sup tripped drives
    exact Completes.ok (execSeqTripClr_clears works sup tripped drives) ⟨rfl, rfl, rfl⟩
  case restart =>
    intro s runs drives past waits input
    exact restartDelayEnd_restarts runs drives past waits input (restarted_result s)

end Sys2Proof.Machine
end

section
/-! The thermal watch (12_thermal_watch R250–R256), the hardware shutdown (R257–R260), and what the commands of thermal watch and
fuse array leave as it was. -/

namespace Sys2Proof.Machine
open Sys2Proof

/-- Settles O50: each clause is the frame of its command. -/
theorem thermalFuseFrames : Obligations.ThermalFuseFrames := by
  unfold Obligations.ThermalFuseFrames
  and_intros
  all_goals
    intros
    exact exec_frame ‹_›

variable {s : State}

/-! ### A thermal warning (R255) -/

theorem thmWarn_iff (s : State) : s.thmWarn = true ↔
    ∃ k : Fin 48, s.bit (F.THM_S_CFG.en k) = true ∧ (s.thm.s[k].warn = true ∨ s.thm.s[k].trip = true) := by
  simp only [State.thmWarn, anyFin, List.any_eq_true, List.mem_finRange, true_and, Bool.and_eq_true, Bool.or_eq_true]

/-- The warning is bit 0 of what hardware shows in THM_STAT. -/
theorem thmStat_shown_mod_two (s : State) : s.shown .THM_STAT 0 0 % 2 = b2n s.thmWarn := by
  have fields : ∃ broken, s.shown .THM_STAT 0 0 = b2n broken * 4 + b2n s.thmTrip * 2 + b2n s.thmWarn :=
    ⟨_, pair_bit .THM_STAT rfl s⟩
  obtain ⟨broken, shown⟩ := fields
  have bit : b2n s.thmWarn < 2 := by
    unfold b2n
    split <;> decide
  omega

/-- A refusal chosen by a condition is one where both choices are. -/
theorem refusal_of_ite {p : Prop} [Decidable p] {a b : Nat} (ha : a ≠ 0) (hb : b ≠ 0) : (if p then a else b) ≠ 0 := by
  split
  · exact ha
  · exact hb

theorem drillRefusal_of_thmWarn (warn : s.thmWarn = true) : s.drillRefusal ≠ 0 := by
  unfold State.drillRefusal
  rw [if_pos warn]
  exact refusal_of_ite (by decide) (refusal_of_ite (by decide) (refusal_of_ite (by decide) (by decide)))

theorem ordinaryRefusal_of_thmWarn (warn : s.thmWarn = true) : s.ordinaryRefusal ≠ 0 := by
  unfold State.ordinaryRefusal
  rw [if_pos warn]
  exact refusal_of_ite (by decide) (refusal_of_ite (by decide) (refusal_of_ite (by decide) (refusal_of_ite (by decide) (by decide))))

theorem manRefusal_of_thmWarn {m : Manifest} (warn : s.thmWarn = true) (man : s.upd.man = some m) (ordinary : m.ordinary = true) :
    s.manRefusal ≠ 0 := by
  have refused : s.manRefusal = s.ordinaryRefusal := by
    unfold State.manRefusal
    rw [man]
    exact if_pos ordinary
  rw [refused]
  exact ordinaryRefusal_of_thmWarn warn

/-- A manifest that is refused is refused at ACTIVATE, or the drill of an arbiter refuses it before that (R342, R352). -/
theorem updActivate_refused (refused : s.manRefusal ≠ 0) : ∃ why, s.updActivate.1 = s.updRefuse why 0 := by
  unfold State.updActivate
  rw [if_pos refused]
  split
  · exact ⟨_, rfl⟩
  · exact ⟨_, rfl⟩

theorem updActivate_completes_refused (hst : s.runs .hst = true) (mgt : s.runs .mgt = true) (refused : s.manRefusal ≠ 0) :
    ∃ why, Completes .updActivate s (fun t => t.upd.phase = s.upd.phase ∧ Raises s t 0xE1 0x01 why 0) := by
  obtain ⟨why, answer⟩ := updActivate_refused refused
  refine ⟨why, Completes.ok (congrArg ok ((updHost_on s s.updActivate hst mgt).trans answer)) ⟨rfl, Raises.one rfl⟩⟩

/-- Settles O59: the warning is among the conditions that refuse a drill and among those that refuse an ordinary part. -/
theorem thermalWarningRefuses : Obligations.ThermalWarningRefuses := by
  unfold Obligations.ThermalWarningRefuses
  refine ⟨thmWarn_iff, thmStat_shown_mod_two, ?drill, ?update⟩
  case drill =>
    intro s warn hst step
    refine Completes.when rfl (by simp [hst, State.exposed, step]) ?_
    rw [drillAsk_refused (drillRefusal_of_thmWarn warn)]
    exact ⟨rfl, _, Raises.one rfl⟩
  case update =>
    intro s m warn man ordinary
    have refused := manRefusal_of_thmWarn warn man ordinary
    exact ⟨refused, fun _ _ _ hst mgt => updActivate_completes_refused hst mgt refused⟩

/-! ### The 1 ms step, a restored sensor and the second (R250, R252, R256) -/

/-- The reading of an on-die sensor: its count, and the temperature of that under its trims (R250). -/
def State.dieReading (s : State) (counts : Vector Nat 32) (k : Fin 32) : Nat × Int :=
  (counts[k], satN 16 (dieTemp s.otp.live.tsTrim[k].1 s.otp.live.tsTrim[k].2 counts[k]))

/-- The readings of a step reach an on-die sensor once: with its own count and its own trims. -/
theorem readSensors_view (counts : Vector Nat 32) {ks : List (Fin 48)} {k : Fin 32} {q : Fin 48} (same : q.val = k.val) (once : ks.Nodup)
    (mem : q ∈ ks) : rawView (ks.foldl (State.readSensor counts) s).thm.s[q] = s.dieReading counts k := by
  refine foldl_once (P := fun x => x.otp = s.otp) (Q := fun x => rawView x.thm.s[q] = s.dieReading counts k) (k := q)
    ?before ?read ?after ks once mem s rfl
  case before =>
    intro x j _ otp
    exact (step_readSensor.frame .otp (by decide)).trans otp
  case read =>
    intro x otp
    rw [readSensor_at counts x k q same, otp]
    rfl
  case after =>
    intro x j other view
    rw [readSensor_ne counts x j q other]
    exact view

/-- The evaluations that follow leave every reading as it was taken. -/
theorem thmStep_view (counts : Vector Nat 32) {k : Fin 32} {q : Fin 48} (watches : s.watches = true) (same : q.val = k.val) :
    Completes (.thmStep counts) s (fun t => rawView t.thm.s[q] = s.dieReading counts k) := by
  refine Completes.when rfl watches ?_
  refine (foldl_keep (fun x => rawView x.thm.s[q]) State.evalSensor (fun x j => evalSensor_view x j q) _ _).trans ?_
  refine readSensors_view counts same (List.Pairwise.filter _ (List.nodup_finRange 48)) (List.mem_filter.2 ⟨List.mem_finRange q, ?_⟩)
  simp [same]

/-- A restored sensor: no condition is left of it, its temperature is in use again, and its means start anew (R252, R253, R256). -/
def Sensor.restored (x : Sensor) : Sensor := { x.fresh with broken := false, clean := 0, restDue := false, subst := false, tu := x.t }

theorem sensorRestored_result {k : Fin 48} (watches : s.watches = true) (broken : s.thm.s[k].broken = true)
    (due : s.thm.s[k].restDue = true) :
    Completes (.sensorRestored k) s (fun t => t.thm.s[k] = s.thm.s[k].restored) := by
  refine Completes.when rfl (by rw [watches, broken, due]; rfl) ?_
  refine Eq.trans ?_ (modSensor_at s k Sensor.restored)
  exact ite_keep (fun x => x.thm.s[k]) rfl rfl

/-- The mean of a second that has ended has joined the means of a sensor that was x, and its sum is begun anew (R256). -/
def meanJoined (x y : Sensor) : Prop := y.sum = 0 ∧ y.num = 0 ∧ y.means = rdiv x.sum x.num :: x.means.take 60

theorem rocSteps_meanJoined {k : Fin 48} (taken : s.thm.s[k].num ≠ 0) :
    meanJoined s.thm.s[k] (foldFin 48 s State.rocStep).thm.s[k] := by
  unfold foldFin
  refine foldl_once (P := fun x => x.thm.s[k] = s.thm.s[k]) (Q := fun x => meanJoined s.thm.s[k] x.thm.s[k]) (k := k)
    ?before ?step ?after _ (List.nodup_finRange 48) (List.mem_finRange k) s rfl
  case before =>
    intro x j other same
    exact ((rocStep_at x j k).1 other).trans same
  case step =>
    intro x same
    rw [← same]
    exact (rocStep_at x k k).2 rfl (by rw [same]; exact taken)
  case after =>
    intro x j other joined
    rw [(rocStep_at x j k).1 other]
    exact joined

/-! ### The hardware shutdown (R258, R259) -/

/-- The heartbeat, the TRIP outputs, the log and the role change at once; what follows is the drop of the claim, the cut of a fuse
command and the count. -/
theorem execThermalShutdown_hot {k : Fin 32} {l : List (Fin 32)} (hot : finsWhere 32 (fun k => decide (2 ≤ s.aon.gateHot[k])) = k :: l)
    (vaon : s.aon.vaon = true) (transport : s.aon.transport = false) (sd : s.aon.sd = false) :
    ∃ x : State, exec .thermalShutdown s = ok (x.claimDrop.otpCut.satEv s.aon.sdCnt s.aon.sdCnt.inc 0xA4 0x1C014) ∧
      x.aon = { s.aon with
        sd := true, sdAt := s.time, coolSince := none, sdCount := s.aon.gate[k] % 2 ^ 18, sdSensor := k.val, sdCnt := s.aon.sdCnt.inc
        hb := 0, hbAt := s.time, hbLvl := false, tripSd := BitVec.ofNat 8 (s.fld F.THM_SDMAP.map), sdReport := true } ∧
      x.sys.role = if s.drives then .standby else s.sys.role := by
  change ∃ x : State, execThermalShutdown s = _ ∧ _
  unfold execThermalShutdown
  rw [hot]
  dsimp only
  rw [if_neg (by rw [vaon, transport, sd]; decide)]
  exact ⟨_, rfl, rfl, rfl⟩

theorem shutdownTail_keep (x : State) (old new : Ctr) :
    (x.claimDrop.otpCut.satEv old new 0xA4 0x1C014).aon = x.aon ∧ (x.claimDrop.otpCut.satEv old new 0xA4 0x1C014).sys = x.sys := by
  have kept : Step [.freeCtr, .chans, .slt, .red, .otp, .fuse] x (x.claimDrop.otpCut.satEv old new 0xA4 0x1C014) :=
    Step.after step_satEv rfl (Step.after step_otpCut rfl (Step.after step_claimDrop rfl Step.refl))
  exact ⟨kept.frame .aon (by decide), kept.frame .sys (by decide)⟩

/-- Settles O22: each happening of the watch comes to the sensor it is about, and each of the shutdown to AON and the role. -/
theorem thermalComplete : Obligations.ThermalComplete := by
  unfold Obligations.ThermalComplete
  refine ⟨?step, ?restored, ?diode, ?second, ?gate, ?shutdown, ?hold, ?release⟩
  case step =>
    intro counts s k q watches same
    obtain ⟨t, next, view⟩ := thmStep_view counts watches same
    exact ⟨t, next, congrArg Prod.fst view, congrArg Prod.snd view⟩
  case restored =>
    intro k s watches broken due
    obtain ⟨t, next, sensor⟩ := sensorRestored_result watches broken due
    refine ⟨t, next, ?_⟩
    dsimp only
    rw [sensor]
    exact ⟨rfl, rfl, rfl⟩
  case diode =>
    intro q d s k watches notArbiter same diode
    obtain rfl : k = ⟨32 + q.val, Nat.add_lt_add_left q.isLt 32⟩ := Fin.ext same
    exact Completes.when rfl (by simp [watches, notArbiter, diode]) (modSensor_at s _ _)
  case second =>
    intro s k watches taken
    exact Completes.when rfl watches (rocSteps_meanJoined taken)
  case gate =>
    intro counts s vaon transport
    exact Completes.past rfl (by simp [vaon, transport]) ⟨_, rfl, rfl⟩
  case shutdown =>
    intro s k l hot vaon transport sd
    obtain ⟨x, answer, aon, role⟩ := execThermalShutdown_hot hot vaon transport sd
    obtain ⟨keptAon, keptSys⟩ := shutdownTail_keep x s.aon.sdCnt s.aon.sdCnt.inc
    refine Completes.ok answer ?_
    rw [keptAon, keptSys, aon]
    exact ⟨rfl, rfl, rfl, rfl, rfl, rfl, role⟩
  case hold =>
    intro s vaon sd passed out
    refine Completes.at rfl (by simp [vaon, sd, out]) (of_decide_eq_true passed) ?_
    obtain ⟨sys, tick, law, -⟩ := warmReset_sys s 12
    rw [sys]
    exact ⟨rfl, rfl, rfl, tick, law⟩
  case release =>
    intro s vaon sd held cool
    exact Completes.due rfl (by simp [vaon, sd, held]) cool ⟨rfl, rfl⟩

end Sys2Proof.Machine
end

section
/-! What the lists of parts say of mode, epoch, lock, role and the stored words, of the addressed stores in every step, and of the
commands of resets, modes, parameter store, black box, field update, host rings, two-wire ports and beacon. -/

namespace Sys2Proof.Machine
open Sys2Proof

/-- Settles O37: fuse array, parameter store and flash are in the lists of parts of the named commands alone. -/
theorem storedChangesOnlyBy : Obligations.StoredChangesOnlyBy := by
  unfold Obligations.StoredChangesOnlyBy
  intro c s t h
  refine ⟨fun changed => ?fuse, fun changed => ?store, fun changed => ?flash⟩
  case fuse =>
    have listed : Part.fuse ∈ mayChange c := mem_mayChange h changed
    cases c <;> simp [mayChange] at listed ⊢
  case store =>
    have listed : Part.store ∈ mayChange c := mem_mayChange h changed
    cases c <;> simp [mayChange] at listed ⊢
  case flash =>
    have listed : Part.flash ∈ mayChange c := mem_mayChange h changed
    cases c <;> simp [mayChange] at listed ⊢

/-- Settles O36: mode, epoch and lock are in the lists of parts of the named commands alone. -/
theorem authorityChangesOnlyBy : Obligations.AuthorityChangesOnlyBy := by
  unfold Obligations.AuthorityChangesOnlyBy
  intro c s t h
  refine ⟨fun changed => ?mode, fun changed => ?epoch, fun changed => ?lock⟩
  case mode =>
    have listed : Part.mode ∈ mayChange c := mem_mayChange h changed
    cases c <;> simp [mayChange] at listed ⊢
  case epoch =>
    have listed : Part.epoch ∈ mayChange c := mem_mayChange h changed
    cases c <;> simp [mayChange] at listed ⊢
  case lock =>
    have listed : Part.lock ∈ mayChange c := mem_mayChange h changed
    cases c <;> simp [mayChange] at listed ⊢

/-- Settles O41: each clause is the frame of its command. -/
theorem resetFrames : Obligations.ResetFrames := by
  unfold Obligations.ResetFrames
  and_intros
  all_goals
    intros
    exact exec_frame ‹_›

/-- Settles O42: each clause is the frame of its command. -/
theorem modeFrames : Obligations.ModeFrames := by
  unfold Obligations.ModeFrames
  and_intros
  all_goals
    intros
    exact exec_frame ‹_›

/-- Settles O51: each clause is the frame of its command. -/
theorem storeFrames : Obligations.StoreFrames := by
  unfold Obligations.StoreFrames
  and_intros
  all_goals
    intros
    exact exec_frame ‹_›

/-- Settles O52: each clause is the frame of its command. -/
theorem updateFrames : Obligations.UpdateFrames := by
  unfold Obligations.UpdateFrames
  and_intros
  all_goals
    intros
    exact exec_frame ‹_›

/-- Settles O53: each clause is the frame of its command. -/
theorem hostFrames : Obligations.HostFrames := by
  unfold Obligations.HostFrames
  and_intros
  all_goals
    intros
    exact exec_frame ‹_›

/-- Settles O54: each clause is the frame of its command. -/
theorem twoWireFrames : Obligations.TwoWireFrames := by
  unfold Obligations.TwoWireFrames
  and_intros
  all_goals
    intros
    exact exec_frame ‹_›

/-- Settles O35: a command's step keeps the stores in form, and the passing of time touches none of them. -/
theorem everyStepKeepsStores : Obligations.EveryStepKeepsStores := by
  unfold Obligations.EveryStepKeepsStores
  intro s t wf next
  cases queue : s.pending with
  | nil =>
    rw [step_nil queue, idle_eq] at next
    injection next with next
    subst next
    exact wf
  | cons c rest =>
    rw [step_cons queue] at next
    exact (exec_step next).keeps wf

/-- Settles O33: at reset every store but the fuse array lists nothing, and the array as shipped lists its few words in order. -/
theorem resetStoresInForm : Obligations.ResetStoresInForm :=
  ⟨⟨rfl, by decide, rfl, rfl, rfl, rfl, rfl, rfl⟩, rfl⟩

end Sys2Proof.Machine
end

section
/-! Fuse bits (13_fuse_array R263, R275, R276): whatever ends or cuts a pulse writes a word of the array as what it held or more. -/

namespace Sys2Proof.Machine
open Sys2Proof

variable {s t : State}

theorem grow_warmOr (s x : State) (cause : Nat) (stays : Bool) (h : Grow s x) : Grow s (if stays then x else x.warmReset cause) :=
  Grow.ite h (h.trans (grow_warm x cause))

theorem grow_rstNAssert (h : exec .rstNAssert s = .next t) : Grow s t := by
  change execRstNAssert s = _ at h
  unfold execRstNAssert at h
  split at h
  · exact Grow.ok h (Grow.refl s)
  · exact Grow.ok h ((grow_cold s 2).trans (Grow.same rfl))

theorem grow_sysRstCold {key : BitVec 16} (h : exec (.sysRstCold key) s = .next t) : Grow s t :=
  Grow.ok h (Grow.when ((grow_cold s 3).trans (grow_steps _)))

theorem grow_transportWake (h : exec .transportWake s = .next t) : Grow s t :=
  Grow.ok h (Grow.when ((grow_cold s 4).trans (grow_steps _)))

theorem grow_vaonLost (h : exec .vaonLost s = .next t) : Grow s t := by
  change execVaonLost s = _ at h
  unfold execVaonLost at h
  split at h
  · exact Grow.ok h (Grow.refl s)
  · refine Grow.ok h (Grow.trans ?_ (Grow.trans (grow_cold _ 1) (Grow.same rfl)))
    exact Grow.same rfl

theorem grow_sysRstWarm {key : BitVec 16} (h : exec (.sysRstWarm key) s = .next t) : Grow s t := by
  change execSysRstWarm key s = _ at h
  unfold execSysRstWarm at h
  split at h
  · exact Grow.ok h (Grow.refl s)
  · split at h
    · exact Grow.ok h (Grow.same rfl)
    · exact Grow.ok h (grow_warm s 9)

theorem grow_supplyPgLost {which : Supply} (h : exec (.supplyPgLost which) s = .next t) : Grow s t := by
  change execSupplyPgLost which s = _ at h
  unfold execSupplyPgLost at h
  split at h
  · exact Grow.ok h (Grow.refl s)
  · refine Grow.ok h (grow_warmOr s _ 10 _ (Grow.ite (Grow.trans ?_ (grow_powerFail _ _)) (Grow.same rfl)))
    exact Grow.same rfl

theorem grow_refLost (h : exec .refLost s = .next t) : Grow s t := by
  change execRefLost s = _ at h
  unfold execRefLost at h
  split at h
  · exact Grow.ok h (Grow.refl s)
  · exact Grow.ok h (grow_warmOr s _ 11 _ (Grow.same rfl))

theorem grow_watchdogExpiry (h : exec .watchdogExpiry s = .next t) : Grow s t :=
  Grow.ok h (Grow.whenAt fun u => Grow.trans (t := u.fire 0x04 0x01 0 (u.sys.wdtRun + 1)) (Grow.same rfl) (grow_warm _ 8))

theorem grow_thermalResetHold (h : exec .thermalResetHold s = .next t) : Grow s t :=
  Grow.ok h (Grow.whenAt fun u => grow_warm u 12)

theorem grow_transportGate (h : exec .transportGate s = .next t) : Grow s t := by
  change execTransportGate s = _ at h
  unfold execTransportGate at h
  split at h
  · exact Grow.ok h (Grow.refl s)
  · refine Grow.ok h (((grow_cut s).trans (Grow.step step_claimDrop (by decide))).trans (Grow.same rfl))

theorem grow_bootStep9 (h : exec .bootStep9 s = .next t) : Grow s t := by
  change execBootStep9 s = _ at h
  unfold execBootStep9 at h
  split at h
  · exact Grow.ok h (Grow.refl s)
  · extract_lets us sys s1 s2 s3 at h
    have begun : Grow s s2 := Grow.same rfl
    have powered : Grow s2 s3 := Grow.ite (Grow.step step_powerUp (by decide)) (Grow.refl s2)
    exact Grow.ok h ((begun.trans powered).trans ((Grow.step step_restartReport (by decide)).trans (grow_both _)))

theorem grow_trialEnd (h : exec .trialEnd s = .next t) : Grow s t := by
  change execTrialEnd s = _ at h
  unfold execTrialEnd at h
  split at h
  · exact Grow.ok h (Grow.refl s)
  · exact Grow.ok h (Grow.whenAt grow_confirm)

theorem grow_powerFailAssert {words : Nat} (h : exec (.powerFailAssert words) s = .next t) : Grow s t := by
  change execPowerFailAssert words s = _ at h
  unfold execPowerFailAssert at h
  split at h
  · exact Grow.ok h (Grow.refl s)
  · exact Grow.ok h (grow_powerFail s words)

theorem grow_thermalShutdown (h : exec .thermalShutdown s = .next t) : Grow s t := by
  change execThermalShutdown s = _ at h
  unfold execThermalShutdown at h
  split at h
  · exact Grow.ok h (Grow.refl s)
  split at h
  · exact Grow.ok h (Grow.refl s)
  · extract_lets n s1 sys red s2 at h
    have begun : Grow s s2 := Grow.same rfl
    exact Grow.ok h (((begun.trans (Grow.step step_claimDrop (by decide))).trans (grow_cut _)).trans (Grow.step step_satEv (by decide)))

theorem grow_otpCommandComplete {a b : Word} {n : Nat} (h : exec (.otpCommandComplete a b n) s = .next t) : Grow s t := by
  change execOtpCommandComplete a b n s = _ at h
  unfold execOtpCommandComplete at h
  split at h
  · exact Grow.ok h (Grow.refl s)
  split at h
  · exact Grow.ok h (Grow.refl s)
  · extract_lets req va vb arg k s1 s2 at h
    have programmed : Grow s s1 :=
      ((grow_prog s _ req va vb).trans (Grow.step step_countPulses (by decide))).trans (Grow.same rfl)
    have reported : Grow s1 s2 := (Grow.step (step_stick (s := s1)) (by decide)).trans (Grow.step step_otpResult (by decide))
    exact Grow.ok h (Grow.ite ((programmed.trans reported).trans (Grow.step step_reread (by decide))) (programmed.trans reported))

theorem grow_chezonPacketReceived {p : ChezonPacket} (h : exec (.chezonPacketReceived p) s = .next t) : Grow s t := by
  change execChezonPacketReceived p s = _ at h
  unfold execChezonPacketReceived at h
  split at h
  · exact Grow.ok h (Grow.refl s)
  · extract_lets c s1 aon s2 s3 s4 at h
    have claimed : Grow s s2 := Grow.ite (Grow.same rfl) (Grow.same rfl)
    have ordered : Grow s2 s3 := Grow.step step_peerHigher (by decide)
    have status : Grow s3 s4 := by
      unfold s4
      split
      · exact ((((Grow.step step_statusTaken (by decide)).trans (Grow.step step_readyUp (by decide))).trans
          (Grow.step step_stepsAcked (by decide))).trans (Grow.step step_peerFailed (by decide))).trans (Grow.step step_recAdopt (by decide))
      · exact Grow.step step_readyUp (by decide)
    exact Grow.ok h (((claimed.trans ordered).trans status).trans (grow_taken _ _))

theorem exec_grow {c : Instr} (h : exec c s = .next t) : Grow s t := by
  by_cases listed : Part.fuse ∈ mayChange c
  · cases c
    case rstNAssert => exact grow_rstNAssert h
    case sysRstCold => exact grow_sysRstCold h
    case transportWake => exact grow_transportWake h
    case vaonLost => exact grow_vaonLost h
    case sysRstWarm => exact grow_sysRstWarm h
    case supplyPgLost => exact grow_supplyPgLost h
    case refLost => exact grow_refLost h
    case watchdogExpiry => exact grow_watchdogExpiry h
    case thermalResetHold => exact grow_thermalResetHold h
    case transportGate => exact grow_transportGate h
    case bootStep9 => exact grow_bootStep9 h
    case trialEnd => exact grow_trialEnd h
    case powerFailAssert => exact grow_powerFailAssert h
    case thermalShutdown => exact grow_thermalShutdown h
    case otpCommandComplete => exact grow_otpCommandComplete h
    case chezonPacketReceived => exact grow_chezonPacketReceived h
    all_goals simp [mayChange] at listed
  · exact Grow.step (exec_step h) listed

/-- Settles O40: a command that does not list the fuse array keeps it, and each that does writes words that hold their old bits. -/
theorem fuseBitsNeverClear : Obligations.FuseBitsNeverClear := by
  unfold Obligations.FuseBitsNeverClear
  intro c s t wf h
  obtain ⟨form, aN, aM, bN, bM⟩ := exec_grow h wf
  exact ⟨form, fun w => ⟨aN w, aM w, bN w, bM w⟩⟩

end Sys2Proof.Machine
end

section
/-! Roles (10_redundancy R214, R215, R396): a demotion leads to STANDBY, and a TAKE_N verdict from STANDBY to ACTIVE. -/

namespace Sys2Proof.Machine
open Sys2Proof

variable {s t : State}

/-- A step that changed the role is one that could. -/
theorem role_kept_of_ok {x : State} (h : (ok x : Host.Outcome State Fault Refusal) = .next t) (changed : t.sys.role ≠ s.sys.role) :
    x.sys.role ≠ s.sys.role ∧ t.sys.role = x.sys.role := by
  obtain rfl := okInj h
  exact ⟨changed, rfl⟩

theorem demoteNAccept_standby (h : exec .demoteNAccept s = .next t) (changed : t.sys.role ≠ s.sys.role) : t.sys.role = .standby := by
  change execDemoteNAccept s = _ at h
  unfold execDemoteNAccept at h
  split at h
  · obtain rfl := okInj h
    exact absurd rfl changed
  dsimp only at h
  split at h
  · obtain rfl := okInj h
    exact absurd rfl changed
  · obtain rfl := okInj h
    exact demoted_role _ changed

theorem thermalShutdown_standby (h : exec .thermalShutdown s = .next t) (changed : t.sys.role ≠ s.sys.role) : t.sys.role = .standby := by
  change execThermalShutdown s = _ at h
  unfold execThermalShutdown at h
  split at h
  · obtain rfl := okInj h
    exact absurd rfl changed
  split at h
  · obtain rfl := okInj h
    exact absurd rfl changed
  · extract_lets n s1 sys red s2 at h
    obtain rfl := okInj h
    rw [(shutdownTail_keep s2 _ _).2] at changed ⊢
    by_cases drives : s.drives = true
    · exact if_pos drives
    · exact absurd (if_neg drives) changed

theorem beaconDemote_standby {w : BitVec 16} (h : exec (.beaconDemote w) s = .next t) (changed : t.sys.role ≠ s.sys.role) :
    t.sys.role = .standby := by
  obtain rfl := okInj (show execBeaconDemote w s = .next t from h)
  unfold State.when at changed ⊢
  split at changed
  · rw [if_pos ‹_›]
    rw [bcnTaken_role] at changed ⊢
    exact bcnDemote_role s changed
  · exact absurd rfl changed

/-- A waiting happening that demotes if it comes about. -/
theorem whenAt_bcnDemote_standby {c : Bool} {n : Nat} {f : State → State} (sys : ∀ u, (f u).sys = u.sys ∨ ∃ x : State, x.sys = u.sys ∧ f u = x.bcnDemote)
    (changed : (s.whenAt c n f).sys.role ≠ s.sys.role) : (s.whenAt c n f).sys.role = .standby := by
  rcases whenAt_or s c n f with e | e
  · rw [e] at changed ⊢
    rcases sys (s.await n) with same | ⟨x, xs, fx⟩
    · exact absurd (congrArg Sys.role same) changed
    · rw [fx] at changed ⊢
      refine bcnDemote_role x ?_
      rw [xs]
      exact changed
  · rw [e] at changed
    exact absurd rfl changed

theorem beaconShutdownTimeout_standby (h : exec .beaconShutdownTimeout s = .next t) (changed : t.sys.role ≠ s.sys.role) :
    t.sys.role = .standby := by
  change execBeaconShutdownTimeout s = _ at h
  unfold execBeaconShutdownTimeout at h
  split at h
  · obtain rfl := okInj h
    exact absurd rfl changed
  extract_lets off q at h
  split at h
  · obtain rfl := okInj h
    refine whenAt_bcnDemote_standby (fun u => ?_) changed
    split
    · exact .inl rfl
    · exact .inr ⟨off u, rfl, rfl⟩
  split at h
  · obtain rfl := okInj h
    exact absurd rfl changed
  · obtain rfl := okInj h
    exact whenAt_bcnDemote_standby (fun u => .inr ⟨off u, rfl, rfl⟩) changed

theorem takeNAccept_active (h : exec .takeNAccept s = .next t) (changed : t.sys.role ≠ s.sys.role) :
    s.sys.role = .standby ∧ t.sys.role = .active := by
  change execTakeNAccept s = _ at h
  unfold execTakeNAccept at h
  split at h
  · obtain rfl := okInj h
    exact absurd rfl changed
  split at h
  · obtain rfl := okInj h
    exact absurd rfl changed
  split at h
  · obtain rfl := okInj h
    exact absurd rfl changed
  · rename_i standby
    extract_lets c e aon s1 s2 s3 at h
    have driven : s1.sys.role = .active := by
      unfold s1
      rw [takeDrive_role]
    have counted : s3.sys = s2.sys := step_satEv.frame .sys (by decide)
    clear_value s1
    have role : s3.sys.role = .active := (congrArg Sys.role counted).trans driven
    clear_value s3
    refine ⟨Decidable.by_contra fun other => standby (.inl other), ?_⟩
    split at h
    · obtain rfl := okInj h
      exact role
    · obtain rfl := okInj h
      exact role

/-- Settles O39: the role is in the lists of parts of the named commands alone, and each demotion and the verdict lead where they
say. -/
theorem roleChangesOnlyBy : Obligations.RoleChangesOnlyBy := by
  unfold Obligations.RoleChangesOnlyBy
  intro c s t h changed
  have listed : Part.role ∈ mayChange c := mem_mayChange h changed
  cases c
  case demoteNAccept => exact .inl ⟨.inl rfl, demoteNAccept_standby h changed⟩
  case thermalShutdown => exact .inl ⟨.inr (.inl rfl), thermalShutdown_standby h changed⟩
  case beaconDemote => exact .inl ⟨.inr (.inr (.inl ⟨_, rfl⟩)), beaconDemote_standby h changed⟩
  case beaconShutdownTimeout => exact .inl ⟨.inr (.inr (.inr rfl)), beaconShutdownTimeout_standby h changed⟩
  case takeNAccept => exact .inr (.inl ⟨rfl, takeNAccept_active h changed⟩)
  all_goals simp [mayChange] at listed ⊢

end Sys2Proof.Machine
end

section
/-! The fuse array's commands (13_fuse_array R268–R275): the G5 check, arming, PROG and LOCK, the reads, the end of a command and
the re-read. -/

namespace Sys2Proof.Machine
open Sys2Proof

variable {s : State}

/-! ### PROG and LOCK (R274) -/

theorem execOtpProg_open (recI : s.runs .recI = true) (exposed : s.sys.step ≠ 15) : execOtpProg s =
    if s.progRefusal (s.fld F.OTP_ADDR.word) ≠ 0 then
      ok (s.otpRefuse (s.progRefusal (s.fld F.OTP_ADDR.word)) (s.fld F.OTP_ADDR.word))
    else ok (s.modOtp (fun o => { o with
      cmd := some ⟨1, s.fld F.OTP_ADDR.word, BitVec.ofNat 32 (s.fld F.OTP_DATA.data), 0⟩, result := 0, why := 0 })) := by
  unfold execOtpProg
  exact if_neg (by rw [recI_open s recI exposed]; decide)

theorem lockRefusal_of_cmd {g : Nat} (busy : s.otp.cmd.isSome = true) : s.lockRefusal g = 2 := by
  unfold State.lockRefusal
  exact if_pos busy

theorem cmd_of_lockRefusal {g : Nat} (accepted : s.lockRefusal g = 0) : s.otp.cmd.isSome = false :=
  Bool.eq_false_iff.2 fun busy => absurd ((lockRefusal_of_cmd busy).symm.trans accepted) (by decide)

theorem execOtpLock_accepted {g : BitVec 3} (recI : s.runs .recI = true) (exposed : s.sys.step ≠ 15)
    (accepted : s.lockRefusal g.toNat = 0) : execOtpLock g s = ok ((s.setFld F.OTP_CMD.grp g.toNat).modOtp (fun o => { o with
      cmd := some ⟨2, 0xD8, BitVec.ofNat 32 (2 ^ g.toNat), g.toNat⟩, result := 0, why := 0 })) := by
  unfold execOtpLock
  simp [recI_open s recI exposed, cmd_of_lockRefusal accepted, accepted]

/-- A LOCK that is refused says so with its reason, whether its group was taken or not. -/
theorem execOtpLock_refused {g : BitVec 3} (recI : s.runs .recI = true) (exposed : s.sys.step ≠ 15)
    (refused : s.lockRefusal g.toNat ≠ 0) :
    ∃ x : State, execOtpLock g s = ok (x.otpRefuse (s.lockRefusal g.toNat) g.toNat) ∧ x.otp = s.otp := by
  unfold execOtpLock
  dsimp only
  rw [if_neg (by rw [recI_open s recI exposed]; decide)]
  by_cases busy : s.otp.cmd.isSome = true
  · rw [if_pos busy, lockRefusal_of_cmd busy]
    exact ⟨s, rfl, rfl⟩
  · rw [if_neg busy, if_pos refused]
    exact ⟨_, rfl, rfl⟩

/-! ### The end of a command (R275) -/

/-- The result of a command by the bits that verified in each copy: in both, in at least one, or not (R275). -/
def otpVerdict (req va vb : Word) : Nat := if va &&& vb = req then 1 else if va ||| vb = req then 2 else 3

theorem otpResult_otp (s : State) (arg : Nat) (req va vb : Word) : ∃ mask, (s.otpResult arg req va vb).otp =
    { s.otp with result := otpVerdict req va vb, mask := mask } := by
  unfold State.otpResult otpVerdict
  split
  · exact ⟨_, rfl⟩
  split
  · exact ⟨_, rfl⟩
  · exact ⟨_, rfl⟩

/-- A re-read that waited starts at a command's end and leaves what the command has left of it (R273). -/
theorem rereadWaited_otp (s : State) (due : Bool) : (if due then s.reread else s).otp.cmd = s.otp.cmd ∧
    (if due then s.reread else s).otp.arm = s.otp.arm ∧ (if due then s.reread else s).otp.result = s.otp.result := by
  split
  · rw [reread_otp]
    exact ⟨rfl, rfl, rfl⟩
  · exact ⟨rfl, rfl, rfl⟩

theorem otpCommandComplete_result {a b : Word} {n : Nat} {c : OtpCmd} (recI : s.runs .recI = true) (cmd : s.otp.cmd = some c) :
    Completes (.otpCommandComplete a b n) s (fun t => t.otp.cmd = none ∧ t.otp.arm = (s.otp.arm && s.otp.armAt == some s.time) ∧
      t.otp.result = otpVerdict c.bits ((a ||| cellGet 0 s.otp.aM c.word) &&& c.bits)
        ((b ||| cellGet 0 s.otp.bM c.word) &&& c.bits)) := by
  show ∃ t, execOtpCommandComplete a b n s = .next t ∧ _
  unfold execOtpCommandComplete
  rw [cmd]
  dsimp -zeta only
  rw [if_neg (by rw [recI]; decide)]
  extract_lets req va vb arg k s1 s2
  have disarmed : s1.otp.cmd = none ∧ s1.otp.arm = (s.otp.arm && s.otp.armAt == some s.time) := by
    obtain ⟨arm, armAt⟩ := countPulses_arm (s.progBits c.word req va vb) k
    refine ⟨rfl, ?_⟩
    show ((State.countPulses _ _).otp.arm && (State.countPulses _ _).otp.armAt == some s.time) = _
    rw [arm, armAt]
    rfl
  obtain ⟨mask, result⟩ := otpResult_otp (s1.stick F.OTP_FLAG.done) arg req va vb
  obtain ⟨keptCmd, keptArm, keptResult⟩ := rereadWaited_otp s2 s.otp.rereadDue
  refine ⟨_, rfl, ?_⟩
  rw [keptCmd, keptArm, keptResult, result]
  exact ⟨disarmed.1, disarmed.2, rfl⟩

/-- Settles O23: each command of the array comes to its own change of OTP. -/
theorem fuseComplete : Obligations.FuseComplete := by
  unfold Obligations.FuseComplete
  refine ⟨?g5, ?arm, ?prog, ?progRefused, ?lock, ?lockRefused, ?readN, ?readM, ?ends, ?reread⟩
  case g5 =>
    intro s vaon latched open_
    refine Completes.past rfl (by rw [vaon, latched, open_]; decide) ⟨_, rfl, ?_⟩
    exact grpCheck_g5 _ 5
  case arm =>
    intro s recI exposed mode
    exact Completes.when rfl (by simp [recI_open s recI exposed, mode]) rfl
  case prog =>
    intro s w recI exposed at_ accepted
    subst at_
    exact Completes.ok ((execOtpProg_open recI exposed).trans (if_neg (by rw [accepted]; decide))) rfl
  case progRefused =>
    intro s w recI exposed at_ refused
    subst at_
    exact Completes.ok ((execOtpProg_open recI exposed).trans (if_pos refused)) ⟨rfl, Raises.one rfl⟩
  case lock =>
    intro g s recI exposed accepted
    exact Completes.ok (execOtpLock_accepted recI exposed accepted) rfl
  case lockRefused =>
    intro g s recI exposed refused
    obtain ⟨x, answer, otp⟩ := execOtpLock_refused recI exposed refused
    exact Completes.ok answer (congrArg (fun o : Otp => { o with result := 4, why := s.lockRefusal g.toNat }) otp)
  case readN =>
    intro s w recI exposed at_
    subst at_
    exact Completes.when rfl (recI_open s recI exposed) rfl
  case readM =>
    intro s w recI exposed at_
    subst at_
    exact Completes.when rfl (recI_open s recI exposed) rfl
  case ends =>
    intro a b n s c recI cmd
    exact otpCommandComplete_result recI cmd
  case reread =>
    intro s recI idle open_ due
    refine Completes.opDue rfl (by rw [recI, open_]; rfl) due ?_
    rw [if_neg (by rw [idle]; decide)]
    exact reread_otp s

end Sys2Proof.Machine
end

section
/-! Resets, core supplies and boot (14_start_up R278–R288): the pins and keys of a reset, the supplies and the reference, core release,
the PLLs, the steps of the boot and the watchdog. -/

namespace Sys2Proof.Machine
open Sys2Proof

variable {s : State}

/-! ### Pins and keys of a reset (R278, Table SYS.1) -/

/-- A cold reset whose boot begins at once (Table SYS.1). -/
theorem coldReset_coldSteps (s : State) (cause : Nat) :
    (s.coldReset cause).coldSteps.sys = { s.sys.afterReset true cause with step := 2 } ∧ (s.coldReset cause).coldSteps.tick = 0 ∧
      (s.coldReset cause).coldSteps.law = Law.reset := by
  obtain ⟨sys, tick, law, -⟩ := coldReset_keep s cause
  obtain ⟨sysStep, keptTick, keptLaw, -⟩ := coldSteps_keep (s.coldReset cause)
  rw [sysStep, sys]
  exact ⟨rfl, keptTick.trans tick, keptLaw.trans law⟩

theorem execSysRstWarm_runs (hst : s.runs .hst = true) (mgt : s.runs .mgt = true) : execSysRstWarm rstKey s =
    if s.sys.step = 15 then ok { s with sys := { s.sys with step := 4 } } else ok (s.warmReset 9) := by
  unfold execSysRstWarm
  exact if_neg (by simp [hst, mgt])

/-- Settles O1: each pin and key comes to its reset, and what a reset leaves is said once for each kind. -/
theorem resetPinsComplete : Obligations.ResetPinsComplete := by
  unfold Obligations.ResetPinsComplete
  refine ⟨?powerGood, ?rstN, ?release, ?cold, ?warm, ?bootFail, ?wake, ?vaon⟩
  case powerGood =>
    intro solo unitSel s off
    refine Completes.past rfl ?_ ⟨_, rfl, ?_⟩
    · rcases off with vaon | step
      · simp [vaon]
      · simp [step]
    · obtain ⟨sys, -, -, nSd, nRs, aon⟩ := coldSteps_keep { s with
        aon := { s.aon with vaon := true, soloBall := solo, unitBall := unitSel, optBase := 0, optFrom := s.time, optKept := false }
        sys := { s.sys with rstCause := 1, cold := true, inReset := true, step := 1 } }
      dsimp only
      rw [sys, aon]
      exact ⟨rfl, rfl, rfl, rfl, rfl, rfl, rfl, rfl⟩
  case rstN =>
    intro s vaon high
    refine Completes.past rfl (by rw [vaon, high]; decide) ⟨_, rfl, ?_⟩
    obtain ⟨sys, tick, law, regs, -⟩ := coldReset_keep s 2
    dsimp only
    rw [sys]
    exact ⟨rfl, rfl, rfl, rfl, rfl, rfl, rfl, tick, regs, law⟩
  case release =>
    intro s vaon low
    refine Completes.when rfl (by rw [vaon, low]; rfl) ?_
    obtain ⟨sys, -, -, nSd, nRs, aon⟩ := coldSteps_keep { s with aon := { s.aon with rstN := true } }
    rw [sys, aon]
    exact ⟨rfl, rfl⟩
  case cold =>
    intro s hst mgt
    refine Completes.when rfl (by simp [hst, mgt]) ?_
    obtain ⟨sys, tick, law⟩ := coldReset_coldSteps s 3
    rw [sys]
    exact ⟨rfl, rfl, rfl, rfl, rfl, rfl, rfl, tick, law⟩
  case warm =>
    intro s hst mgt boots
    refine Completes.ok ((execSysRstWarm_runs hst mgt).trans (if_neg boots)) ?_
    obtain ⟨sys, tick, law, live, epoch⟩ := warmReset_sys s 9
    rw [sys]
    exact ⟨rfl, rfl, rfl, rfl, epoch, live, rfl, rfl, tick, law⟩
  case bootFail =>
    intro s hst mgt fails
    exact Completes.ok ((execSysRstWarm_runs hst mgt).trans (if_pos fails)) rfl
  case wake =>
    intro s vaon transport
    refine Completes.when rfl (by rw [vaon, transport]; rfl) ?_
    obtain ⟨sys, tick, -⟩ := coldReset_coldSteps s 4
    rw [sys]
    exact ⟨rfl, rfl, rfl, rfl, tick⟩
  case vaon =>
    intro s vaon
    refine Completes.past rfl (by rw [vaon]; decide) ⟨_, rfl, ?_⟩
    exact ⟨rfl, rfl, rfl, (coldReset_keep _ 1).2.1⟩

/-! ### Core supplies and the reference (R278) -/

/-- The loss of a supply as AON sees it. -/
def State.supplyBad (s : State) (which : Supply) : State :=
  { s with aon := { s.aon with good := s.aon.good.set (supplyIdx which) false, pfGood := false } }

/-- The loss of VCORE asserts power-fail at a word of a running commit that is free (log 5). -/
def State.supplyFail (s : State) (which : Supply) : State :=
  if which = .vcore then
    (s.supplyBad which).drawn.powerFail ((s.supplyBad which).free.toNat % ((s.supplyBad which).nvp.buf.length + 1))
  else s.supplyBad which

theorem execSupplyPgLost_eq {which : Supply} (vaon : s.aon.vaon = true) : execSupplyPgLost which s =
    ok (if s.sys.inReset then s.supplyFail which else (s.supplyFail which).warmReset 10) := by
  unfold execSupplyPgLost
  exact if_neg (by rw [vaon]; decide)

theorem supplyFail_kept (s : State) (which : Supply) :
    (s.supplyFail which).sys = s.sys ∧ (s.supplyFail which).aon.epoch = s.aon.epoch := by
  unfold State.supplyFail
  split
  · exact ⟨(step_powerFail (s := (s.supplyBad which).drawn)).frame .sys (by decide),
      (step_powerFail (s := (s.supplyBad which).drawn)).frame .epoch (by decide)⟩
  · exact ⟨rfl, rfl⟩

theorem otpCut_aon (s : State) : s.otpCut.aon = s.aon := step_otpCut.frame .aon (by decide)

theorem commitStop_aon (s : State) (n : Nat) : (s.commitStop n).aon = s.aon := step_commitStop.frame .aon (by decide)

/-- While REC is held in reset, of AON power-fail sets only its flag and what it has seen of the supplies (R306). -/
theorem powerFail_good_of_reset {x : State} {n : Nat} (held : x.runs .recI = false) : (x.powerFail n).aon.good = x.aon.good := by
  unfold State.powerFail
  split
  · rfl
  · rw [if_neg (by rw [held]; decide)]
    rw [commitStop_aon, otpCut_aon]

theorem recI_held (inReset : s.sys.inReset = true) (rec_ : s.nvp.recDue = none) : s.runs .recI = false := by
  unfold State.runs
  simp [inReset, rec_]

theorem supplyFail_good {which : Supply} (inReset : s.sys.inReset = true) (other : which ≠ .vcore ∨ s.nvp.recDue = none) :
    (s.supplyFail which).aon.good[supplyIdx which] = false := by
  have bad : (s.supplyFail which).aon.good = s.aon.good.set (supplyIdx which) false := by
    unfold State.supplyFail
    split
    next core =>
      have held : (s.supplyBad which).drawn.runs .recI = false :=
        recI_held inReset (other.resolve_left fun ne => ne core)
      exact powerFail_good_of_reset held
    next => rfl
  rw [bad]
  simp

theorem execRefLost_eq (vaon : s.aon.vaon = true) (present : s.aon.refOk = true) : execRefLost s =
    ok (if s.sys.inReset then State.fire { s with aon := { s.aon with refOk := false } } 0x03 0x01 0 0
      else (State.fire { s with aon := { s.aon with refOk := false } } 0x03 0x01 0 0).warmReset 11) := by
  unfold execRefLost
  exact if_neg (by rw [vaon, present]; decide)

/-! ### Core release and the PLLs (R280, R281) -/

theorem releaseOk_of (vaon : s.aon.vaon = true) (inReset : s.sys.inReset = true) (latched : s.otp.latched = true)
    (good : s.aon.good = Vector.replicate 5 true) (rstN : s.aon.rstN = true) (refOk : s.aon.refOk = true) (sd : s.aon.sd = false)
    (transport : s.aon.transport = false) (rec_ : s.nvp.recDue = none) : s.releaseOk = true := by
  unfold State.releaseOk
  rw [vaon, inReset, latched, good, rstN, refOk, sd, transport, rec_]
  decide

/-- Settles O2: a lost supply or reference is a warm reset of the state that has it recorded; the rest is its command's own change. -/
theorem coreSuppliesComplete : Obligations.CoreSuppliesComplete := by
  unfold Obligations.CoreSuppliesComplete
  refine ⟨?lostHeld, ?lost, ?return_, ?refHeld, ?ref, ?refReturn, ?release, ?pllStart, ?pllResume⟩
  case lostHeld =>
    intro which s vaon inReset other
    refine Completes.ok ((execSupplyPgLost_eq vaon).trans (congrArg ok (if_pos inReset))) ?_
    exact ⟨supplyFail_good inReset other, (supplyFail_kept s which).1⟩
  case lost =>
    intro which s vaon running
    refine Completes.ok ((execSupplyPgLost_eq vaon).trans (congrArg ok (if_neg (by rw [running]; decide)))) ?_
    obtain ⟨sys, tick, -, -, epoch⟩ := warmReset_sys (s.supplyFail which) 10
    obtain ⟨keptSys, keptEpoch⟩ := supplyFail_kept s which
    rw [sys, keptSys]
    exact ⟨rfl, rfl, rfl, rfl, epoch.trans keptEpoch, tick⟩
  case return_ =>
    intro s vaon
    exact Completes.when rfl vaon ⟨rfl, rfl⟩
  case refHeld =>
    intro s vaon present inReset
    exact Completes.ok ((execRefLost_eq vaon present).trans (congrArg ok (if_pos inReset))) ⟨rfl, rfl, Raises.one rfl⟩
  case ref =>
    intro s vaon present running
    refine Completes.ok ((execRefLost_eq vaon present).trans (congrArg ok (if_neg (by rw [running]; decide)))) ?_
    obtain ⟨sys, tick, -, -, epoch⟩ := warmReset_sys (State.fire { s with aon := { s.aon with refOk := false } } 0x03 0x01 0 0) 11
    rw [sys]
    exact ⟨rfl, rfl, rfl, rfl, epoch, tick⟩
  case refReturn =>
    intro s vaon
    exact Completes.when rfl vaon ⟨rfl, rfl⟩
  case release =>
    intro solo unitSel s vaon inReset latched good rstN refOk sd transport rec_
    exact Completes.when rfl (releaseOk_of vaon inReset latched good rstN refOk sd transport rec_) ⟨rfl, rfl, rfl, rfl, rfl, rfl⟩
  case pllStart =>
    intro s mgt step fresh
    refine Completes.past rfl (by rw [mgt, step]; decide) ?_
    rw [fresh]
    refine ⟨_, rfl, rfl, rfl, ?_⟩
    simp [State.sns64]
  case pllResume =>
    intro s from_ mgt step held
    refine Completes.past rfl (by rw [mgt, step]; decide) ?_
    rw [held]
    refine ⟨_, rfl, rfl, rfl, rfl, rfl, ?_⟩
    exact le_min (min_le_left _ _) ((min_le_min_left _ (Nat.le_add_right _ _)).trans (Nat.le_add_right _ _))

/-! ### The image (R282, R283, R286) -/

theorem bootChecks_sys (s : State) : s.bootChecks.sys = s.sys := step_bootChecks.frame .sys (by decide)

theorem bootChecks_time (s : State) : s.bootChecks.time = s.time := step_bootChecks.frame .time (by decide)

/-- What step 4 does with the images of the two banks and the recovery image. -/
def State.imageChosen (s : State) (bank0 bank1 recov : ImageCheck) : State :=
  let b := s.upd.rec1.bank
  if decide (3 ≤ s.sys.wdtRun) || s.otp.live.key = 2 then s.recoveryStarts recov
  else if s.imageOk (if b then bank1 else bank0) then s.imageStarts b
  else if s.imageOk (if b then bank0 else bank1) then (s.imageStarts (!b)).fire 0x00 0x02 0 (b2n (!b))
  else s.recoveryStarts recov

theorem execBootImageVerified_eq {bank0 bank1 recov : ImageCheck} (mgt : s.runs .mgt = true) (step : s.sys.step = 4) :
    execBootImageVerified bank0 bank1 recov s = ok (s.bootChecks.imageChosen bank0 bank1 recov) := by
  unfold execBootImageVerified State.imageChosen
  rw [if_neg (by rw [mgt, step]; decide), bootChecks_sys]
  dsimp only
  simp only [apply_ite ok]
  cases s.bootChecks.upd.rec1.bank
  · rfl
  · rfl

theorem imageStarts_sys (s : State) (bank : Bool) :
    (s.bootChecks.imageStarts bank).sys = { s.sys with step := 5, bank := bank, wdtArmed := true, wdtAt := s.time } := by
  unfold State.imageStarts
  rw [bootChecks_sys, bootChecks_time]

theorem imageStarts_raises {bank : Bool} {hi : Int} : Raises s ((s.imageStarts bank).fire 0x00 0x02 0 hi) 0x00 0x02 0 hi :=
  Raises.one rfl

theorem recoveryStarts_sys {recov : ImageCheck} (accepted : s.recoveryOk recov = true) :
    (s.recoveryStarts recov).sys.step = 5 ∧ (s.recoveryStarts recov).sys.recovery = true ∧
      (s.recoveryStarts recov).sys.mode = modeRecovery ∧ (s.recoveryStarts recov).sys.wdtArmed = true ∧
      (s.recoveryStarts recov).sys.wdtAt = s.time := by
  unfold State.recoveryStarts
  rw [if_pos accepted]
  exact ⟨rfl, rfl, rfl, rfl, rfl⟩

/-! ### Configuration, self-tests, role, step 9 (R284–R288) -/

/-- What follows a change of the configuration leaves the start's own state alone. -/
theorem follow_bcnFlush_sys (s0 s : State) : (s0.follow s.bcnFlush).sys = s.sys :=
  (step_follow.frame .sys (by decide)).trans (step_bcnFlush.frame .sys (by decide))

theorem configLoad_result (mgt : s.runs .mgt = true) (step : s.sys.step = 6) (restored : s.nvp.restoreDue = false)
    (image : s.nvp.imageDue = false) : Completes .configLoad s (fun t => t.sys.step = 7 ∧ t.sys.placed = true) := by
  refine Completes.past rfl (by rw [mgt, step, restored, image]; decide) ⟨_, rfl, ?_⟩
  rw [follow_bcnFlush_sys]
  exact ⟨rfl, rfl⟩

theorem peerReject_sys (s : State) : ∃ rejected, s.peerReject.sys = { s.sys with peerRej := rejected } := by
  unfold State.peerReject
  split
  · split
    · exact ⟨_, rfl⟩
    · exact ⟨_, rfl⟩
  · exact ⟨_, rfl⟩

theorem selfTestComplete_result {fail : BitVec 8} (mgt : s.runs .mgt = true) (step : s.sys.step = 7) :
    Completes (.selfTestComplete fail) s (fun t => t.sys.step = 8 ∧ t.sys.stFail = fail ∧ t.sys.restricted = (fail &&& 0x7D != 0) ∧
      t.sys.peerFrom = s.time) := by
  change ∃ t, execSelfTestComplete fail s = _ ∧ _
  unfold execSelfTestComplete
  rw [if_neg (by rw [mgt, step]; decide)]
  extract_lets r sys s1 s2 s3
  have reported : s2.sys = s1.sys := foldl_keep State.sys (fun x k => if fail.getLsbD k then x.fire 0x00 0x05 k fail.toNat else x)
    (fun _ _ => ite_keep State.sys rfl rfl) (List.range 8) s1
  have rolled : s3.sys = s2.sys := ite_keep State.sys (step_rollBack.frame .sys (by decide)) rfl
  obtain ⟨rejected, rejects⟩ := peerReject_sys s3
  refine ⟨_, rfl, ?_⟩
  rw [rejects, rolled, reported]
  exact ⟨rfl, rfl, rfl, rfl⟩

/-- A peer's rejection is reported and changes nothing that the role is decided by. -/
theorem peerReject_decide288 (s : State) : s.peerReject.decide288 = s.decide288 := by
  unfold State.peerReject
  split
  · split
    · rfl
    · rfl
  · rfl

theorem takeDrive_sys (s : State) (role : Role) (epoch : BitVec 5) : (s.takeDrive role epoch).sys = { s.sys with role := role } := by
  unfold State.takeDrive
  exact (step_lawSyncAll.frame .sys (by decide)).trans ((step_latchClaim.frame .sys (by decide)).trans (step_seedAll.frame .sys (by decide)))

/-- What a role decision settles of the start: its step, the role, and whether the start is lone. -/
def Sys.decided (y : Sys) : Nat × Role × Bool := (y.step, y.role, y.lone)

theorem roleDecide_sys (s : State) : s.roleDecide.sys.decided = (9, s.decide288.1, s.decide288.2.1) := by
  unfold State.roleDecide
  extract_lets +onlyGivenNames s0
  rw [show s0.decide288 = s.decide288 from peerReject_decide288 s]
  obtain ⟨role, lone, denied⟩ := s.decide288
  dsimp -zeta only
  extract_lets +onlyGivenNames s00 sys aon arb s1 s2 s3
  have begun : s1.sys.decided = (9, role, lone) := rfl
  clear_value s1
  have driven : s2.sys.decided = (9, role, lone) := by
    refine ite_is (fun x : State => x.sys.decided) ?_ ?_
    · rw [takeDrive_sys]
      simp only [Sys.decided, Prod.mk.injEq] at begun ⊢
      exact ⟨begun.1, trivial, begun.2.2⟩
    · have kept : s1.latchClaim.lawSyncAll.sys = s1.sys :=
        (step_lawSyncAll.frame .sys (by decide)).trans (step_latchClaim.frame .sys (by decide))
      rw [kept]
      exact begun
  clear_value s2
  have told : s3.sys = s2.sys := ite_keep State.sys rfl rfl
  have followed : (s.follow (s3.fire 0x07 0x01 0 role.code)).sys = s2.sys := (step_follow.frame .sys (by decide)).trans told
  rw [followed]
  exact driven

theorem roleDecision_due (mgt : s.runs .mgt = true) (step : s.sys.step = 8)
    (due : s.elapsed s.sys.peerFrom (s.fld F.SYS_BOOT.peer_ms * ms1) = true) :
    Completes .roleDecision s (fun t => t.sys.step = 9 ∧ t.sys.role = s.decide288.1 ∧ t.sys.lone = s.decide288.2.1) := by
  have decided := roleDecide_sys s
  simp only [Sys.decided, Prod.mk.injEq] at decided
  refine Completes.at rfl (by rw [mgt, step]; rfl) ?_ decided
  split
  · exact Nat.le_refl _
  · exact of_decide_eq_true due

theorem bootStep9_result (mgt : s.runs .mgt = true) (step : s.sys.step = 9) :
    Completes .bootStep9 s (fun t => t.sys.step = 10 ∧ t.sys.wdtRun = 0 ∧
      t.sys.bootUs = min max32 ((s.time - s.sys.releaseAt) / us1)) := by
  change ∃ t, execBootStep9 s = _ ∧ _
  unfold execBootStep9
  rw [if_neg (by rw [mgt, step]; decide)]
  extract_lets us sys s1 s2 s3
  have powered : s3.sys = s2.sys := ite_keep State.sys (step_powerUp.frame .sys (by decide)) rfl
  have reported : s3.restartReport.advanceBoth.sys = s3.sys :=
    (step_advanceBoth.frame .sys (by decide)).trans (step_restartReport.frame .sys (by decide))
  refine ⟨_, rfl, ?_⟩
  rw [reported, powered]
  exact ⟨rfl, rfl, rfl⟩

/-- Settles O3: each step of the boot comes to the next, and an expired watchdog to a warm reset. -/
theorem bootStepsComplete : Obligations.BootStepsComplete := by
  unfold Obligations.BootStepsComplete
  refine ⟨?image, ?otherImage, ?recovery, ?bootFail, ?config, ?selfTest, ?role, ?step9, ?watchdog⟩
  case image =>
    intro bank0 bank1 recov s mgt step runs key accepted
    have chosen : s.bootChecks.imageChosen bank0 bank1 recov = s.bootChecks.imageStarts s.bootChecks.upd.rec1.bank := by
      unfold State.imageChosen
      rw [if_neg (by rw [bootChecks_sys]; simp [runs, key]), if_pos accepted]
    refine Completes.ok ((execBootImageVerified_eq mgt step).trans (congrArg ok chosen)) ?_
    rw [imageStarts_sys]
    exact ⟨rfl, rfl, rfl, rfl, rfl⟩
  case otherImage =>
    intro bank0 bank1 recov s mgt step runs key refused accepted
    have chosen : s.bootChecks.imageChosen bank0 bank1 recov = (s.bootChecks.imageStarts (!s.bootChecks.upd.rec1.bank)).fire 0x00 0x02 0
        (b2n (!s.bootChecks.upd.rec1.bank)) := by
      unfold State.imageChosen
      rw [if_neg (by rw [bootChecks_sys]; simp [runs, key]), if_neg (by rw [refused]; decide), if_pos accepted]
    refine Completes.ok ((execBootImageVerified_eq mgt step).trans (congrArg ok chosen)) ?_
    rw [State.fire_sys, imageStarts_sys]
    exact ⟨rfl, rfl, rfl, rfl, imageStarts_raises⟩
  case recovery =>
    intro bank0 bank1 recov s mgt step runs accepted
    have chosen : s.bootChecks.imageChosen bank0 bank1 recov = s.bootChecks.recoveryStarts recov := by
      unfold State.imageChosen
      rw [if_pos (by rw [bootChecks_sys]; simp [runs])]
    refine Completes.ok ((execBootImageVerified_eq mgt step).trans (congrArg ok chosen)) ?_
    rw [← bootChecks_time s]
    exact recoveryStarts_sys accepted
  case bootFail =>
    intro bank0 bank1 recov s mgt step runs refused
    have chosen : s.bootChecks.imageChosen bank0 bank1 recov = s.bootChecks.recoveryStarts recov := by
      unfold State.imageChosen
      rw [if_pos (by rw [bootChecks_sys]; simp [runs])]
    refine Completes.ok ((execBootImageVerified_eq mgt step).trans (congrArg ok chosen)) ?_
    unfold State.recoveryStarts
    rw [if_neg (by rw [refused]; decide)]
  case config =>
    intro s mgt step restored image
    exact configLoad_result mgt step restored image
  case selfTest =>
    intro fail s mgt step
    exact selfTestComplete_result mgt step
  case role =>
    intro s mgt step due
    exact roleDecision_due mgt step due
  case step9 =>
    intro s mgt step
    exact bootStep9_result mgt step
  case watchdog =>
    intro s mgt armed expired
    refine Completes.at rfl (by rw [mgt, armed]; rfl) (of_decide_eq_true expired) ?_
    obtain ⟨sys, -⟩ := warmReset_sys (s.fire 0x04 0x01 0 (s.sys.wdtRun + 1)) 8
    rw [sys]
    exact ⟨rfl, rfl, rfl, rfl, rfl⟩

end Sys2Proof.Machine
end

section
/-! The parameter store's commands (15_parameter_store R299–R315): commits, the uncorrected read, power failure and its ride-through,
saves, restores and the full read. -/

namespace Sys2Proof.Machine
open Sys2Proof

variable {s : State}

/-! ### Power failure (R306, R308) -/

/-- Power-fail is over, and the commit engine may go on (R308). -/
def State.powerBack (s : State) : State :=
  { s with aon := { s.aon with pf := false } }.modNvp (fun v => { v with stopped := false })

/-- What PF_RIDE leaves before the commit engine goes on (R308). -/
def State.ridden (s : State) : State :=
  (s.powerBack.stick F.NVP_FLAG.ride).fire 0x14 0x02 0 ((s.nvp.save.map Save.why).getD s.nvp.why : Nat)

theorem pfRide_completes {P : State → Prop} (pf : s.aon.pf = true) (vaon : s.aon.vaon = true) (good : s.aon.pfGood = true)
    (h : P s.ridden.nvpFlow) : Completes .pfRide s P :=
  Completes.when rfl (by rw [pf, vaon, good]; rfl) h

theorem ridden_nvpFlow_aon (s : State) : s.ridden.nvpFlow.aon = { s.aon with pf := false } := step_nvpFlow.frame .aon (by decide)

theorem nvpFlow_save_store (s : State) : s.nvpFlow.nvp.save = s.nvp.save ∧ s.nvpFlow.nvp.store = s.nvp.store :=
  ⟨of_still (nvpFlow_still s) Nvp.save, of_still (nvpFlow_still s) Nvp.store⟩

theorem stick_regs_wf (f : Fld) (wf : s.regs.wf = true) : (s.stick f).regs.wf = true := by
  obtain ⟨act, sticky, staged, base⟩ := (Regs.wf_iff _).1 wf
  exact (Regs.wf_iff _).2 ⟨act, cellsWf_put 0 _ _ _ sticky, staged, base⟩

/-- The ride flag is set by the ride and stays through what the commit engine does next. -/
theorem ridden_nvpFlow_flag (wf : s.regs.wf = true) : s.ridden.nvpFlow.flag F.NVP_FLAG.ride = true ∧
    ∃ why, Raises s s.ridden.nvpFlow 0x14 0x02 0 why := by
  have sticky : cellsWf 0 s.regs.sticky = true := ((Regs.wf_iff _).1 wf).2.1
  have set : s.ridden.flag F.NVP_FLAG.ride = true :=
    flag_stick s.powerBack F.NVP_FLAG.ride F.NVP_FLAG.ride sticky rfl rfl (by decide) (.inr rfl)
  obtain ⟨-, keepsFlag, more, flight⟩ := pump_keep (2 * s.ridden.nvp.queue.length + 3) s.ridden (stick_regs_wf _ wf)
  exact ⟨keepsFlag _ rfl (by decide) set, _, Raises.after (x := s.ridden) (Raises.one rfl) more flight⟩

/-- A commit in hand holds the engine where it is (R305). -/
theorem nvpFlow_of_commit (commit : s.nvp.commit ≠ none) : s.nvpFlow = s := by
  unfold State.nvpFlow State.nvpPump
  exact if_pos (by simp [Option.isSome_iff_ne_none.2 commit])

/-- Settles O57: the ride ends power-fail, and the commit engine keeps the save, the flags that stand and the events under way. -/
theorem powerFailRide : Obligations.PowerFailRide := by
  unfold Obligations.PowerFailRide
  refine ⟨?ride, ?commit⟩
  case ride =>
    intro s pf vaon good wf
    obtain ⟨save, store⟩ := nvpFlow_save_store s.ridden
    obtain ⟨flag, raises⟩ := ridden_nvpFlow_flag wf
    exact pfRide_completes pf vaon good ⟨ridden_nvpFlow_aon s, save, store, flag, raises⟩
  case commit =>
    intro s pf vaon good commit
    refine pfRide_completes pf vaon good ?_
    rw [nvpFlow_of_commit (s := s.ridden) commit]
    rfl

theorem pfRecord_pf (s : State) : s.pfRecord.aon.pf = s.aon.pf := (ownRecord_pf _ _ _ _ _ _).trans (opFinish_pf s)

theorem powerFail_pf {n : Nat} (low : s.aon.pf = false) : (s.powerFail n).aon.pf = true := by
  unfold State.powerFail
  rw [if_neg (by rw [low]; decide)]
  extract_lets +onlyGivenNames aon failing
  have flagged : failing.aon.pf = true := by
    unfold failing
    rw [commitStop_aon, otpCut_aon]
  clear_value failing
  refine ite_is (fun x : State => x.aon.pf) ?_ flagged
  have kept : failing.pfRecord.pfSave.pfUpdate.aon = failing.pfRecord.aon :=
    (step_pfUpdate.frame .aon (by decide)).trans (step_pfSave.frame .aon (by decide))
  rw [kept, pfRecord_pf, flagged]

/-! ### The uncorrected read (R299) -/

theorem rawRead_rd {addr : Word} (store : addr.getLsbD 31 = false) (within : bits addr.toNat 19 3 < 32768) :
    (s.rawRead addr).nvp.rd = (s.nvpCell (bits addr.toNat 19 3)).data ^^^ errData (s.nvpCell (bits addr.toNat 19 3)).err := by
  unfold State.rawRead
  simp only [store, Bool.false_eq_true, if_false, within, if_true, Option.isSome_some, Option.getD_some]
  exact of_still (eccTouch_still _ _) Nvp.rd

/-! ### Saves (R309, R310, R313, R314) -/

/-- The ring slot that a save takes is written, or refused for want of a sequence number (R309, R302); the save stands. -/
theorem execRingSlotComplete_eq {v : Save} (save : s.nvp.save = some v) (open_ : v.slotDone = false) (idle : s.nvp.commit = none) :
    ∃ x : State, execRingSlotComplete s = ok (if v.image then x else x.saveEnd v.why) ∧
      x.nvp.save = some { v with slotDone := true } ∧ x.nvp.sRing = min 0xFFFF ((s.time - v.from_) / us1) ∧
      x.nvp.saveCnt = s.nvp.saveCnt ∧ x.nvp.recDue = s.nvp.recDue ∧ x.bbx = s.bbx := by
  unfold execRingSlotComplete
  rw [save]
  dsimp -zeta only
  rw [if_neg (by simp [open_, idle])]
  generalize s.nextSlot v.after = place
  obtain ⟨j, q⟩ := place
  dsimp -zeta only
  extract_lets +onlyGivenNames us marked s1 s2
  have written : s1.nvp.save = some v ∧ s1.nvp.saveCnt = s.nvp.saveCnt ∧ s1.nvp.recDue = s.nvp.recDue ∧ s1.bbx = s.bbx := by
    rw [← save]
    unfold s1
    split
    · split
      · exact ⟨rfl, rfl, rfl, rfl⟩
      · exact ⟨rfl, rfl, rfl, rfl⟩
    · exact ⟨rfl, rfl, rfl, rfl⟩
  obtain ⟨kept, count, due, bbx⟩ := written
  have done_ : s2.nvp.save = s1.nvp.save.map (fun x => { x with slotDone := true }) := rfl
  rw [kept] at done_
  exact ⟨s2, rfl, done_, rfl, count, due, bbx⟩

theorem saveComplete_result {us : Nat} {v : Save} (save : s.nvp.save = some v) (slot : v.slotDone = true) (image : v.image = true)
    (due : s.nvp.recDue = none) (again : s.bbx.saveAgain = false) :
    Completes (.saveComplete us) s (fun t => t.nvp.save = none ∧ t.nvp.saveCnt = s.nvp.saveCnt.inc ∧ t.nvp.sShadow = min 0xFFFF us ∧
      t.nvp.image.map (fun i => (i.opt, i.store)) = some (v.opt, v.frozen.getD s.bbx.st)) := by
  change ∃ t, execSaveComplete us s = _ ∧ _
  unfold execSaveComplete
  rw [save]
  dsimp only
  rw [if_neg (by rw [slot, image]; decide)]
  refine ⟨_, rfl, ?_⟩
  rw [saveEnd_at]
  · exact ⟨rfl, rfl, rfl, rfl⟩
  · exact due
  · exact again

/-! ### Restores (R311, R313) -/

theorem nvpRestore_result (s : State) : s.nvpRestore.nvp.restoreDue = false ∧ s.nvpRestore.nvp.restored = s.slotBest.isSome := by
  unfold State.nvpRestore
  dsimp only
  split
  next best => exact ⟨rfl, by rw [best]; rfl⟩
  next best => exact ⟨rfl, by rw [best]; rfl⟩

/-- Is the saved image of the event store bad: a word of it uncorrectable, or its CRC wrong (R313)? -/
def Nvp.imageBad (n : Nvp) : Bool :=
  n.shErr.any (fun p => decide (2 ≤ errCount p.2)) || n.image.any (fun m => m.crc != m.store.crc)

theorem imageRestore_result (s : State) :
    s.imageRestore.nvp.imageDue = false ∧ s.imageRestore.nvp.shadowOk = (s.nvp.image.isSome && !s.nvp.imageBad) := by
  unfold State.imageRestore
  change _ ∧ _ = (_ && !(s.nvp.shErr.any (fun p => decide (2 ≤ errCount p.2)) || s.nvp.image.any (fun m => m.crc != m.store.crc)))
  dsimp -zeta only
  extract_lets +onlyGivenNames s0 bad from_
  change _ ∧ _ = (_ && !bad)
  split
  next m image good =>
    obtain ⟨due, shadowOk⟩ := ownRecord_still ((State.modBbx (s0.modNvp (fun v => { v with imageDue := false, shadowOk := true })) _).stick
      F.BBX_STAT.restored) 0xD8 0x01 (BitVec.ofNat 64 m.seq) 8 false
    rw [image, good]
    exact ⟨due, shadowOk⟩
  next other =>
    refine ⟨rfl, ?_⟩
    cases image : s.nvp.image with
    | none => rfl
    | some m =>
      cases hbad : bad with
      | false => exact absurd hbad (other m image)
      | true => rfl

/-! ### The full read (R315) -/

theorem fullRead_result (s : State) : s.fullRead.nvp.patrol = false ∧ s.fullRead.nvp.scrubAt = s.opTime := by
  unfold State.fullRead
  dsimp only
  exact ⟨of_still (nvpFlow_still _) Nvp.patrol, of_still (nvpFlow_still _) Nvp.scrubAt⟩

/-- Settles O24: each command comes to its own change of the store, and the commit engine that goes on keeps it. -/
theorem storeComplete : Obligations.StoreComplete := by
  unfold Obligations.StoreComplete
  refine ⟨?request, ?done, ?rawRead, ?powerFail, ?ride, ?hourly, ?hourlyRefused, ?save, ?slot, ?slotEnds, ?saved, ?restore, ?image,
    ?scrub, ?scrubNow, ?scrubWaits⟩
  case request =>
    intro s mgt idle held power
    exact Completes.when rfl (by simp [mgt, idle, held, power]) rfl
  case done =>
    intro us s c commit running recI
    refine Completes.past rfl (by simp [commit, running, recI]) ⟨_, rfl, ?_⟩
    have kept := nvpFlow_still (s.modNvp (fun v => v.committed (min 0xFFFF us)))
    exact ⟨of_still kept Nvp.store, of_still kept Nvp.cLast, of_still kept Nvp.cWorst⟩
  case rawRead =>
    intro addr s mgt exposed store within
    exact Completes.when rfl (mgt_open s mgt exposed) (rawRead_rd store within)
  case powerFail =>
    intro n s vaon low
    exact Completes.past rfl (by rw [vaon]; decide) ⟨_, rfl, powerFail_pf low⟩
  case ride =>
    intro s pf vaon good
    exact pfRide_completes pf vaon good ⟨ridden_nvpFlow_aon s, (nvpFlow_save_store s.ridden).2⟩
  case hourly =>
    intro s recI restored due none
    refine Completes.opDue rfl (by rw [recI, restored]; rfl) due ?_
    dsimp only
    rw [if_neg (by rw [none]; decide)]
    exact ⟨rfl, rfl⟩
  case hourlyRefused =>
    intro s recI restored due runs
    refine Completes.opDue rfl (by rw [recI, restored]; rfl) due ?_
    dsimp only
    rw [if_pos (Option.isSome_iff_ne_none.2 runs)]
    rfl
  case save =>
    intro s recI exposed none
    refine Completes.when rfl (recI_open s recI exposed) ?_
    unfold State.saveRequest
    rw [if_neg (by rw [none]; decide)]
    exact ⟨rfl, rfl⟩
  case slot =>
    intro s v save open_ image idle
    obtain ⟨x, answer, kept, sRing, -⟩ := execRingSlotComplete_eq save open_ idle
    exact Completes.ok (answer.trans (congrArg ok (if_pos image))) ⟨kept, sRing⟩
  case slotEnds =>
    intro s v save open_ image idle due again
    obtain ⟨x, answer, -, -, count, recDue, bbx⟩ := execRingSlotComplete_eq save open_ idle
    refine Completes.ok (answer.trans (congrArg ok (if_neg (by rw [image]; decide)))) ?_
    rw [saveEnd_at x v.why (recDue.trans due) (by rw [bbx, again]), count]
    exact ⟨rfl, rfl⟩
  case saved =>
    intro us s v save slot image due again
    exact saveComplete_result save slot image due again
  case restore =>
    intro s inReset due step
    exact Completes.when rfl (by simp [inReset, due, step]) (nvpRestore_result s)
  case image =>
    intro s inReset due restored step
    exact Completes.when rfl (by simp [inReset, due, restored, step]) (imageRestore_result s)
  case scrub =>
    intro s recI due free
    refine Completes.opDue rfl recI ?_ ?_
    · split
      · exact Nat.zero_le _
      · exact due
    · rw [if_pos free]
      exact fullRead_result s
  case scrubNow =>
    intro s recI exposed free
    refine Completes.when rfl (recI_open s recI exposed) ?_
    rw [if_pos free]
    exact fullRead_result s
  case scrubWaits =>
    intro s recI exposed busy
    refine Completes.when rfl (recI_open s recI exposed) ?_
    rw [if_neg (by rw [busy]; decide)]
    rfl

end Sys2Proof.Machine
end

section
/-! The black box (16_black_box R320–R335): the queue and the records, tokens, the trace window, seals and watermarks, reading, and the
operations CLEAR and RELEASE. -/

namespace Sys2Proof.Machine
open Sys2Proof

variable {s : State}

/-! ### Records (R320, R321) -/

theorem bbxEventEnqueue_queue {k : Nat} {e : Ev} (recI : s.runs .recI = true) (next : nextEvent s.chans.flight = some (k, e))
    (room : s.bbx.queue.length < 64) : Completes .bbxEventEnqueue s (fun t => t.bbx.queue = s.bbx.queue ++ [e]) := by
  refine Completes.past rfl (by rw [recI]; decide) ?_
  rw [if_neg (Nat.not_le.2 room), next]
  exact ⟨_, rfl, ite_is (fun x : State => x.bbx.queue) (congrArg Bbx.queue (route_bbx _ _ _)) rfl⟩

/-- The front of the queue has left it. -/
def State.unqueued (s : State) (q : List Ev) : State := s.modBbx (fun b => { b with queue := q })

theorem execBbxRecordWrite_eq {e : Ev} {q : List Ev} (queue : s.bbx.queue = e :: q) (recI : s.runs .recI = true)
    (idle : s.bbx.op = none) : execBbxRecordWrite s =
      if s.bbx.tokens ≤ 0 ∧ s.evSev e < s.fld F.BBX_CFG.seal_sev then ok (s.unqueued q).suppress
      else ok ((s.unqueued q).endRun.takeToken.writeRec e.src (evCause e.src e.data) e.data (s.evSev e)
        e.sat false) := by
  unfold execBbxRecordWrite
  rw [queue]
  exact if_neg (by rw [recI, idle]; decide)

/-- A record that ends no run of suppressions is written from the state whose queue has lost its front: it takes the next seq. -/
theorem recordWritten_view {e : Ev} {q : List Ev} (noRun : s.bbx.supRun = 0) :
    opView ((s.unqueued q).endRun.takeToken.writeRec e.src (evCause e.src e.data) e.data (s.evSev e) e.sat
      false) = (s.bbx.op, s.bbx.result, s.bbx.clr, q, s.bbx.seq + 1) := by
  rw [writeRec_op, endRun_op (s.unqueued q) noRun]
  rfl

theorem bbxRecordWrite_suppressed {e : Ev} {q : List Ev} (queue : s.bbx.queue = e :: q) (recI : s.runs .recI = true)
    (idle : s.bbx.op = none) (bare : s.bbx.tokens ≤ 0) (mild : s.evSev e < s.fld F.BBX_CFG.seal_sev) :
    Completes .bbxRecordWrite s (fun t => t.bbx =
      { s.bbx with queue := q, supRun := min max32 (s.bbx.supRun + 1), sup := s.bbx.sup.inc }) := by
  refine Completes.ok ((execBbxRecordWrite_eq queue recI idle).trans (if_pos ⟨bare, mild⟩)) ?_
  unfold State.suppress
  exact step_satEv.frame .bbx (by decide)

/-! ### The trace window and seals (R324–R326) -/

theorem traceRow_recorded (recI : s.runs .recI = true) (running : s.sns.running = true) (new : s.bbx.rowUs ≠ some (s.sns64 / 1000))
    (records : s.trcRun = true) : Completes .traceRow s (fun t =>
      t.bbx.st = { s.bbx.st with rows := cellPut (Vector.replicate 16 0) s.bbx.st.rows s.bbx.pos s.trcRow } ∧
        t.bbx.pos = (s.bbx.pos + 1) % 4000 ∧ t.bbx.rowTime = s.sns64 / 1000 * 1000 ∧ t.bbx.rowUs = some (s.sns64 / 1000)) := by
  refine Completes.past rfl (by simp [recI, running, new]) ⟨_, rfl, ?_⟩
  dsimp only
  rw [if_pos records]
  have streamed : ∀ (x : State) n row, (x.trcStream n row).bbx = x.bbx := fun _ _ _ => step_trcStream.frame .bbx (by decide)
  rw [streamed]
  simp only [State.modBbx_bbx, modStore_bbx, and_self]

theorem freeze_bbx (s : State) (r : Fin 4) : (s.freeze r).bbx.holder = some r ∧ (s.freeze r).bbx.post = none ∧
    (s.freeze r).bbx.armed = true ∧ (s.freeze r).bbx.st.reams[r].trace = true := by
  unfold State.freeze State.modReam
  refine ⟨rfl, rfl, rfl, ?_⟩
  simp only [State.modBbx_bbx, modStore_bbx, modAt_same]

theorem watermarkDone_result {r : Fin 4} (recI : s.runs .recI = true) (sealed : s.bbx.st.reams[r].st = 1) (past : s.bbx.post = none) :
    Completes (.watermarkDone r) s (fun t => t.bbx.st.reams[r].wm = s.watermark r ∧ t.bbx.st.reams[r].wmDone = true) := by
  refine Completes.when rfl ?_ ?_
  · rw [recI, sealed, past]
    rfl
  · unfold State.modReam
    simp only [modStore_bbx, modAt_same, and_self]

theorem sealNow_result (noRun : s.bbx.supRun = 0) : s.sealNow.bbx.seq = s.bbx.seq + 1 ∧ s.sealNow.bbx.queue = s.bbx.queue := by
  unfold State.sealNow
  extract_lets r
  exact ⟨ownRecord_seq s _ _ _ _ _ noRun,
    congrArg (fun v : Option (Nat × Fin 4) × Nat × Ctr × List Ev => v.2.2.2) (ownRecord_view s 0xD5 0x03 (evData 0x03 0 r) 15 false)⟩

/-! ### Reading (R332) -/

theorem ptrRead_moves {r : Fin 4} {sel o : Nat} (ready : s.bbx.st.reams[r].st = 2) (left : s.bbx.st.reams[r].ptr < s.bbx.st.reams[r].total)
    (at_ : ptrPlace r s.bbx.st.reams[r].ptr = (sel, o / 4 * 4)) :
    (s.ptrRead r sel o).bbx.st.reams[r].ptr = s.bbx.st.reams[r].ptr + 1 := by
  unfold State.ptrRead
  dsimp only
  rw [if_neg (by simp [-Fin.getElem_fin, ready, Nat.not_le.2 left, at_])]
  simp only [State.modBbx_bbx, modAt_same]

/-! ### CLEAR and RELEASE (R333–R335) -/

/-- The ream that BBX_OP names. -/
def State.opReam (s : State) : Fin 4 := ⟨s.fld F.BBX_OP.ream % 4, Nat.mod_lt _ (by decide)⟩

/-- An exec in a mode that asks for no token. -/
theorem bbxExec_open (idle : s.bbx.op = none) (free : s.bbx.lock = none) (op : s.fld F.BBX_OP.op = 1 ∨ s.fld F.BBX_OP.op = 2)
    (ready : s.fld F.BBX_OP.op = 2 → s.bbx.st.reams[s.opReam].st = 3) (mode : s.openMode = true) :
    s.bbxExec = s.modBbx (fun b => { b with op := some (s.fld F.BBX_OP.op, s.opReam), nvalid := false }) := by
  unfold State.bbxExec
  extract_lets op ream out run
  rw [if_neg (by rw [idle]; decide), if_neg (by rw [free]; decide), if_neg (by omega), if_neg (fun h => h.2 (ready h.1)), if_pos mode]
  rfl

theorem bbxExec_badOp (idle : s.bbx.op = none) (free : s.bbx.lock = none) (not1 : s.fld F.BBX_OP.op ≠ 1)
    (not2 : s.fld F.BBX_OP.op ≠ 2) : s.bbxExec = s.modBbx (fun b => { b with result := 7, nvalid := false }) := by
  unfold State.bbxExec
  dsimp only
  rw [if_neg (by rw [idle]; decide), if_neg (by rw [free]; decide), if_pos ⟨not1, not2⟩]

theorem bbxExec_locked (idle : s.bbx.op = none) (locked : s.bbx.lock ≠ none) :
    s.bbxExec = s.modBbx (fun b => { b with result := 5, nvalid := false }) := by
  unfold State.bbxExec
  dsimp only
  rw [if_neg (by rw [idle]; decide), if_pos (Option.isSome_iff_ne_none.2 locked)]

/-- What is seen of an operation: the one that runs, the result of the last, and the count of CLEARs. -/
def State.opOutcome (s : State) : Option (Nat × Fin 4) × Nat × Ctr := (s.bbx.op, s.bbx.result, s.bbx.clr)

theorem opOutcome_of_opView {x y : State} (h : opView x = opView y) : x.opOutcome = y.opOutcome :=
  congrArg (fun v : Option (Nat × Fin 4) × Nat × Ctr × List Ev × BitVec 40 => (v.1, v.2.1, v.2.2.1)) h

/-- The marker, the seals that waited and the save that follow an operation leave its outcome. -/
theorem opEnded_outcome (x : State) (cause : Nat) (data : BitVec 64) :
    (x.ownRecord 0xD6 cause data 15 false).sealWaiting.opSave.opOutcome = x.opOutcome :=
  (opOutcome_of_opView (opSave_view _)).trans ((sealWaiting_view _).trans
    (congrArg (fun v : Option (Nat × Fin 4) × Nat × Ctr × List Ev => (v.1, v.2.1, v.2.2.1)) (ownRecord_view x 0xD6 cause data 15 false)))

theorem opFinish_clear {r : Fin 4} (op : s.bbx.op = some (1, r)) : s.opFinish.opOutcome = (none, 1, s.bbx.clr.inc) := by
  unfold State.opFinish
  rw [op]
  dsimp -zeta only
  extract_lets +onlyGivenNames data s0 n c s1
  rw [if_pos rfl, opEnded_outcome, opOutcome_of_opView (satEv_op _ _ _ _ _)]
  have cleared : s1.opOutcome = (none, 1, c) := by
    unfold State.opOutcome s1
    simp only [State.modBbx_bbx, modStore_bbx]
    rfl
  exact cleared

theorem opFinish_release {r : Fin 4} (op : s.bbx.op = some (2, r)) : s.opFinish.opOutcome = (none, 1, s.bbx.clr) := by
  unfold State.opFinish
  rw [op]
  dsimp -zeta only
  extract_lets +onlyGivenNames data s0 n c s1 m s2
  rw [if_neg (by decide), opEnded_outcome]
  have released : s2.opOutcome = (none, 1, s.bbx.clr) := by
    unfold State.opOutcome s2 State.modReam
    simp only [State.modBbx_bbx, modStore_bbx]
    rfl
  exact released

/-- Settles O25: each command comes to its own change of the black box. -/
theorem blackBoxComplete : Obligations.BlackBoxComplete := by
  unfold Obligations.BlackBoxComplete
  refine ⟨?enqueue, ?write, ?suppress, ?refill, ?row, ?freeze, ?watermark, ?sealNow, ?pointer, ?nonce, ?expiry, ?clear, ?badOp,
    ?release, ?locked, ?cleared, ?released, ?lockout⟩
  case enqueue =>
    intro s k e recI next room
    exact bbxEventEnqueue_queue recI next room
  case write =>
    intro s e q queue recI idle noRun taken
    refine Completes.ok ((execBbxRecordWrite_eq queue recI idle).trans (if_neg (by omega))) ?_
    have view := recordWritten_view (s := s) (e := e) (q := q) noRun
    exact ⟨congrArg (fun v : Option (Nat × Fin 4) × Nat × Ctr × List Ev × BitVec 40 => v.2.2.2.1) view,
      congrArg (fun v : Option (Nat × Fin 4) × Nat × Ctr × List Ev × BitVec 40 => v.2.2.2.2) view⟩
  case suppress =>
    intro s e q queue recI idle bare mild
    exact bbxRecordWrite_suppressed queue recI idle bare mild
  case refill =>
    intro s recI due
    exact Completes.at rfl recI (of_decide_eq_true due) rfl
  case row =>
    intro s recI running new records
    exact traceRow_recorded recI running new records
  case freeze =>
    intro s r a recI post due
    have answer : exec .traceFreeze s = ok (s.whenAt (s.runs .recI) a (fun s => s.freeze r)) := by
      change execTraceFreeze s = _
      unfold execTraceFreeze
      rw [post]
    exact Completes.at answer recI due (freeze_bbx s r)
  case watermark =>
    intro r s recI sealed past
    exact watermarkDone_result recI sealed past
  case sealNow =>
    intro s recI exposed idle noRun
    refine Completes.when rfl (recI_open s recI exposed) ?_
    rw [if_neg (by rw [idle]; decide)]
    exact sealNow_result noRun
  case pointer =>
    intro r o s recI low high ready left at_
    exact Completes.when rfl (by simp [recI, low, high]) (ptrRead_moves ready left at_)
  case nonce =>
    intro x s recI exposed free
    exact Completes.when rfl (by simp [recI_open s recI exposed, free]) rfl
  case expiry =>
    intro s valid due
    exact Completes.at rfl valid (of_decide_eq_true due) rfl
  case clear =>
    intro s recI exposed op idle free mode
    refine Completes.when rfl (by simp [recI_open s recI exposed, op]) ?_
    rw [bbxExec_open idle free (.inl op) (by omega) mode]
    exact ⟨congrArg some op, rfl⟩
  case badOp =>
    intro s recI exposed not1 not2 idle free
    refine Completes.when rfl (by simp [recI_open s recI exposed, not2]) ?_
    rw [bbxExec_badOp idle free not1 not2]
    rfl
  case release =>
    intro s r recI exposed op named idle free ready mode
    obtain rfl : r = s.opReam := Fin.ext named
    refine Completes.when rfl (by simp [recI_open s recI exposed, op]) ?_
    rw [bbxExec_open idle free (.inr op) (fun _ => ready) mode, op]
    rfl
  case locked =>
    intro s recI exposed op idle locked
    refine Completes.when rfl (by simp [recI_open s recI exposed, op]) ?_
    rw [bbxExec_locked idle locked]
    rfl
  case cleared =>
    intro s r recI op
    refine Completes.when rfl recI ?_
    have outcome := opFinish_clear op
    simp only [State.opOutcome, Prod.mk.injEq] at outcome
    exact outcome
  case released =>
    intro s r recI op
    refine Completes.when rfl recI ?_
    have outcome := opFinish_release op
    simp only [State.opOutcome, Prod.mk.injEq] at outcome
    exact outcome
  case lockout =>
    intro s a lock due
    have answer : exec .lockoutEnd s = ok (s.whenOp true (a + 600 * 1024) (fun s => s.modBbx (fun b => { b with lock := none, fails := 0 }))) := by
      change execLockoutEnd s = _
      unfold execLockoutEnd
      rw [lock]
    exact Completes.opDue answer rfl due rfl

end Sys2Proof.Machine
end

section
/-! The host endpoint (18_host_rings R357–R377): resets and link, doorbells, fetch and completion of commands, DMA errors, telemetry,
held vectors and the clears of the summary and the TRIP outputs. -/

namespace Sys2Proof.Machine
open Sys2Proof

variable {s : State}

/-! ### Endpoint (R357, R377) -/

theorem hstReset_result {k : HstReset} (hst : s.runs .hst = true) (comes : k = .d3hotExit → s.hst.d3hot = true) :
    Completes (.hstReset k) s (fun t => t.hst.ring = Hst.reset.ring ∧ t.hst.reserved = 0 ∧ t.evt.pba = 0 ∧
      t.hst.d3hot = (s.hst.d3hot && k != .d3hotExit) ∧
      t.hst.cmd = s.hst.cmd.map (fun c => c.map (fun c => { c with mute := true }))) := by
  refine Completes.past rfl ?_ ⟨_, rfl, rfl, rfl, rfl, rfl, rfl⟩
  simp only [hst, Bool.not_true, Bool.false_or, Bool.and_eq_true, decide_eq_true_eq, Bool.not_eq_true']
  exact fun ⟨exit, stays⟩ => by simp [comes exit] at stays

theorem pcieLinkChange_result {up d3hot : Bool} {gen width : BitVec 4} {ltssm : BitVec 6} (hst : s.runs .hst = true)
    (ready : up = false ∨ (s.sns.running = true ∧ s.elapsed s.sns.timeFrom (20 * ms1) = true)) :
    Completes (.pcieLinkChange up d3hot gen width ltssm) s (fun t => t.hst.up = up ∧ t.hst.d3hot = d3hot ∧ t.hst.gen = gen ∧
      t.hst.width = width ∧ t.hst.ltssm = ltssm) := by
  change ∃ t, execPcieLinkChange up d3hot gen width ltssm s = _ ∧ _
  unfold execPcieLinkChange
  rw [if_neg (by rcases ready with low | ⟨running, passed⟩ <;> simp [*])]
  extract_lets +onlyGivenNames s1 w s2 low was s3
  have events : s3.hst = s1.hst :=
    (ite_keep State.hst rfl rfl : s3.hst = s2.hst).trans (ite_keep State.hst rfl (ite_keep State.hst rfl rfl) : s2.hst = s1.hst)
  have kept := vecRelease_still s3
  rw [events] at kept
  exact ⟨_, rfl, of_hst kept Hst.up, of_hst kept Hst.d3hot, of_hst kept Hst.gen, of_hst kept Hst.width, of_hst kept Hst.ltssm⟩

/-! ### Doorbells (R360, R362) -/

theorem ringError_at (s : State) (q : Fin 8) (src cause : Nat) :
    (s.ringError q src cause).hst.ring[q].err = true ∧ (s.ringError q src cause).hst.ring[q].cause = cause ∧
      Raises s (s.ringError q src cause) src cause 0 q.val := by
  have ring : (s.ringError q src cause).hst.ring[q] = { s.hst.ring[q] with err := true, cause := cause } := by
    unfold State.ringError State.ringEvent
    rw [State.fire_hst, modRing_at, modRing_at]
  rw [ring]
  exact ⟨rfl, rfl, Raises.one rfl⟩

theorem execCommandDoorbell_eq {r : Fin 4} {v : Word} (hst : s.runs .hst = true) (on : s.ringOn (ring8 r) = true) :
    execCommandDoorbell r v s =
      if s.ringSize (ring8 r) ≤ v.toNat % 65536 ∨ s.ringSize (ring8 r) ≤ s.ringUsed (ring8 r) +
          (v.toNat % 65536 + s.ringSize (ring8 r) - s.hst.ring[ring8 r].tail % s.ringSize (ring8 r)) % s.ringSize (ring8 r)
        then ok (s.ringError (ring8 r) 0xC2 0x01)
      else ok (s.modRing (ring8 r) (fun g => { g with tail := v.toNat % 65536, bell := v.toNat % 65536 })) := by
  unfold execCommandDoorbell
  exact if_neg (by rw [hst, on]; decide)

/-- A consumer's new head of ring 4 + r. -/
def State.headMoved (s : State) (r : Fin 4) (v : Word) : State :=
  s.modRing (upRing r) (fun g => { g with head := v.toNat % 65536, bell := v.toNat % 65536 })

theorem execConsumerDoorbell_eq {r : Fin 4} {v : Word} (hst : s.runs .hst = true) (on : s.ringOn (upRing r) = true) :
    ∃ raises : Bool, execConsumerDoorbell r v s =
      if s.ringSize (upRing r) ≤ v.toNat % 65536 then ok (s.ringError (upRing r) 0xC2 0x01)
      else ok (if raises then (s.headMoved r v).ringVec (upRing r) else s.headMoved r v) := by
  refine ⟨decide (r = 0) && decide (s.cplFree = 0) && decide ((s.headMoved r v).cplFree ≠ 0), ?_⟩
  unfold execConsumerDoorbell
  exact if_neg (by rw [hst, on]; decide)

theorem headMoved_head (s : State) (r : Fin 4) (v : Word) (raises : Bool) :
    (if raises then (s.headMoved r v).ringVec (upRing r) else s.headMoved r v).hst.ring[upRing r].head = v.toNat % 65536 := by
  have ring := ite_keep (p := raises = true) (fun x : State => x.hst.ring) (ringVec_ring (s := s.headMoved r v) (upRing r)) rfl
  rw [ring]
  exact congrArg HRing.head (modRing_at s (upRing r) _)

/-! ### Commands (R364, R365) -/

/-- A command as it is fetched: its descriptor, its place in the ring and its order among the commands. -/
def Cmd.place (c : Cmd) : Desc × Nat × Nat := (c.d, c.index, c.order)

theorem commandFetch_result {r : Fin 4} {d : Vector Byte 32} (mgt : s.mgtUp = true) (host : s.hostUp = true)
    (on : s.ringOn (ring8 r) = true) (some_ : s.hst.ring[ring8 r].head ≠ s.hst.ring[ring8 r].tail) (free : s.hst.cmd[r] = none)
    (cplOn : s.ringOn 4 = true) (room : s.cplFree ≠ 0) (fence : s.cmds.any Cmd.fence = false) :
    Completes (.commandFetch r d) s (fun t =>
      t.hst.cmd[r].map Cmd.place = some (descOf d.toList, s.hst.ring[ring8 r].head, s.hst.fetched) ∧
      t.hst.reserved = s.hst.reserved + 1 ∧
      t.hst.ring[ring8 r].head = (s.hst.ring[ring8 r].head + 1) % s.ringSize (ring8 r)) := by
  refine Completes.past rfl (by simp [-Fin.getElem_fin, mgt, host, on, some_, free, cplOn, room, fence]) ⟨_, rfl, ?_⟩
  refine ⟨?_, of_hst (writeBack_still _) Hst.reserved, ?_⟩
  · rw [of_hst (writeBack_still _) (fun h => h.cmd[r])]
    simp [State.modRing, State.modHst, Cmd.place]
  · rw [of_hst (writeBack_still _) (fun h => h.ring[ring8 r].head), modRing_at]
    rfl

theorem commandComplete_result {r : Fin 4} {c : Cmd} {x : CmdRes} (cmd : s.hst.cmd[r] = some c) (res : c.res = some x)
    (hst : s.runs .hst = true) (mgt : s.runs .mgt = true) (host : s.hostUp = true) :
    Completes (.commandComplete r) s (fun t => t.hst.cmd[r] = none ∧ t.hst.cmdCnt = s.hst.cmdCnt.inc) := by
  have answer : exec (.commandComplete r) s =
      ok (s.when (s.runs .hst && s.runs .mgt && (c.mute || s.hostUp || !s.ringOn 4)) (s.complete r c (c.fitted x))) := by
    change execCommandComplete r s = _
    unfold execCommandComplete
    rw [cmd]
    dsimp only
    rw [res]
  refine Completes.when answer (by simp [hst, mgt, host]) ?_
  have view := complete_cmd s r c (c.fitted x)
  have cmds : (s.complete r c (c.fitted x)).hst.cmd = s.hst.cmd.set r none := congrArg Prod.fst view
  rw [cmds]
  exact ⟨by simp, congrArg (fun v : Vector (Option Cmd) 4 × Ctr × Option Nat => v.2.1) view⟩

/-! ### DMA errors (R377) -/

theorem hostDmaError_ring {r : Fin 8} {k : DmaError} (host : s.hostUp = true) (on : s.ringOn r = true) :
    Completes (.hostDmaError r false k) s (fun t => t.hst.ring[r].err = true ∧ t.hst.ring[r].cause = 2) := by
  refine Completes.past rfl (by rw [host, on]; decide) ⟨_, rfl, ?_⟩
  obtain ⟨err, cause, -⟩ := ringError_at (s.ringEvent r 0xC1 (DmaError.code k) r.val) r 0xC2 0x02
  exact ⟨err, cause⟩

theorem hostDmaError_command {r : Fin 8} {q : Fin 4} {k : DmaError} {c : Cmd} (same : q.val = r.val) (host : s.hostUp = true)
    (on : s.ringOn r = true) (cmd : s.hst.cmd[q] = some c) :
    Completes (.hostDmaError r true k) s (fun t => t.hst.cmd[q] = some { c with started := true, res := some (CmdRes.of 7) } ∧
      Raises s t 0xC1 (DmaError.code k) 0 r.val) := by
  have within : r.val < 4 := same ▸ q.isLt
  obtain rfl : q = ⟨r.val, within⟩ := Fin.ext same
  refine Completes.past rfl (by rw [host, on]; decide) ?_
  rw [if_pos rfl, dif_pos within]
  dsimp only
  rw [if_pos (by rw [cmd]; rfl)]
  refine ⟨_, rfl, ?_, Raises.one rfl⟩
  rw [State.modHst_hst]
  dsimp only
  rw [modAt_same, show (s.ringEvent r 0xC1 (DmaError.code k) r.val).hst.cmd = s.hst.cmd from rfl, cmd]
  rfl

/-! ### Telemetry and held vectors (R368, R373) -/

theorem telemetryCapture_result (hst : s.runs .hst = true) (en : s.bit F.HST_TEL.en = true)
    (period : s.tick % 2 ^ 32 % s.telPeriod = 0) (due : s.ranOut s.tickAt (3 * us1) = true) (new : s.hst.telTick ≠ some s.tick)
    (on : s.ringOn 6 = true) (values : s.telValues ≠ []) :
    Completes .telemetryCapture s (fun t => t.hst.telTick = some s.tick) := by
  refine Completes.due rfl (by rw [hst, en, period, on]; simp [new, values]) due ?_
  have tick : ∀ {x y : State}, cmdView x.hst = cmdView y.hst → y.hst.telTick = some s.tick → x.hst.telTick = some s.tick :=
    fun view taken => (congrArg (fun v : Vector (Option Cmd) 4 × Ctr × Option Nat => v.2.2) view).trans taken
  refine ite_is (fun x : State => x.hst.telTick) ?_ ?_
  · exact tick (ringPush_cmd _ _ _) rfl
  · rw [hstSat_hst]
    rfl

theorem msixModerationEnd_result {v : Fin 64} (hst : s.runs .hst = true) (held : s.evt.vheld[v] = true)
    (past : s.vecModerated v = false) (open_ : s.vecMasked v = false) (host : s.hostUp = true) :
    Completes (.msixModerationEnd v) s (fun t => t.evt.vheld[v] = false ∧ t.evt.vlast[v] = some s.time ∧
      t.hst.posted = .msix v :: s.hst.posted) := by
  have due : ((s.evt.vlast[v].map (fun t => t + s.fld (F.EVT_VEC.mod_us v) * us1)).getD s.time) ≤ s.time := by
    unfold State.vecModerated at past
    cases last : s.evt.vlast[v] with
    | none => exact Nat.le_refl _
    | some t =>
      rw [last] at past
      exact Nat.not_lt.1 (of_decide_eq_false past)
  refine Completes.at rfl (by rw [hst, held]; rfl) due ?_
  have sends : ∀ x : State, x = s.modEvt (fun e => { e with vheld := modAt e.vheld v (fun _ => false) }) →
      x.vecSend v = (x.post (.msix v)).modEvt (fun e => { e with vlast := modAt e.vlast v (fun _ => some x.time) }) := by
    rintro x rfl
    unfold State.vecSend
    rw [if_neg, if_neg]
    · exact Bool.eq_false_iff.1 past
    · exact Bool.eq_false_iff.1 (by
        show (s.vecMasked v || !s.hostUp) = false
        rw [open_, host]
        rfl)
  rw [sends _ rfl]
  refine ⟨?_, ?_, rfl⟩
  · exact modAt_same _ _ _
  · exact modAt_same _ _ _

/-! ### The summary (R374) -/

theorem cleared_eq (s : State) (off : Nat) : s.cleared off = ⟨(s.cleared off).count, false⟩ := rfl

theorem sumClear_none (none : (s.cleared 0x1004).count = 0) : s.sumClear.evt.sev = 0 ∧ s.sumClear.evt.src = 0 ∧
    s.sumClear.evt.cnt = .zero ∧ s.sumClear.aon = { s.aon with bcnFault := 0, bcnAttn := false } := by
  have zero : s.cleared 0x1004 = .zero := by rw [cleared_eq, none]; rfl
  unfold State.sumClear
  rw [zero]
  exact ⟨rfl, rfl, rfl, rfl⟩

theorem sumClear_some (counted : (s.cleared 0x1004).count ≠ 0) : s.sumClear.evt.sev = s.evt.sumNow.2.1 ∧
    s.sumClear.evt.src = s.evt.sumNow.2.2 ∧ s.sumClear.evt.cnt = s.cleared 0x1004 ∧
    s.sumClear.aon = { s.aon with bcnFault := s.evt.sumNow.2.1, bcnAttn := true } := by
  unfold State.sumClear
  dsimp only
  rw [if_neg counted, bne_iff_ne.2 counted]
  exact ⟨rfl, rfl, rfl, rfl⟩

/-- Settles O27: each happening of the endpoint comes to its own change of HST or of the event routing. -/
theorem hostEndpointComplete : Obligations.HostEndpointComplete := by
  unfold Obligations.HostEndpointComplete
  refine ⟨?exit, ?reset, ?link, ?bell, ?bellError, ?head, ?headError, ?fetch, ?complete, ?dma, ?dmaCommand, ?telemetry, ?vector,
    ?sumNone, ?sumSome, ?trip⟩
  case exit =>
    intro k s hst exit d3hot
    subst exit
    obtain ⟨t, next, ring, reserved, pba, stays, cmd⟩ := hstReset_result hst (k := .d3hotExit) (fun _ => d3hot)
    exact ⟨t, next, ring, reserved, pba, stays.trans (by rw [d3hot]; rfl), cmd⟩
  case reset =>
    intro k s hst other
    obtain ⟨t, next, ring, reserved, pba, stays, cmd⟩ := hstReset_result hst (fun exit => absurd exit other)
    exact ⟨t, next, ring, reserved, pba, stays.trans (by simp [other]), cmd⟩
  case link =>
    intro u d g w l s hst ready
    exact pcieLinkChange_result hst ready
  case bell =>
    intro r v s q same hst on within fits
    obtain rfl : q = ring8 r := Fin.ext same
    refine Completes.ok ((execCommandDoorbell_eq hst on).trans (if_neg (by omega))) ?_
    rw [modRing_at]
    exact ⟨rfl, rfl⟩
  case bellError =>
    intro r v s q same hst on beyond
    obtain rfl : q = ring8 r := Fin.ext same
    exact Completes.ok ((execCommandDoorbell_eq hst on).trans (if_pos (.inl beyond))) (ringError_at s _ 0xC2 0x01)
  case head =>
    intro r v s q same hst on within
    obtain rfl : q = upRing r := Fin.ext same
    obtain ⟨raises, answer⟩ := execConsumerDoorbell_eq (v := v) hst on
    refine Completes.ok (answer.trans (if_neg (Nat.not_le.2 within))) ?_
    exact headMoved_head s r v raises
  case headError =>
    intro r v s q same hst on beyond
    obtain rfl : q = upRing r := Fin.ext same
    obtain ⟨raises, answer⟩ := execConsumerDoorbell_eq (v := v) hst on
    obtain ⟨err, cause, -⟩ := ringError_at s (upRing r) 0xC2 0x01
    exact Completes.ok (answer.trans (if_pos beyond)) ⟨err, cause⟩
  case fetch =>
    intro r d s q same mgt host on some_ free cplOn room fence
    obtain rfl : q = ring8 r := Fin.ext same
    exact commandFetch_result mgt host on some_ free cplOn room fence
  case complete =>
    intro r s c x cmd res hst mgt host
    exact commandComplete_result cmd res hst mgt host
  case dma =>
    intro r k s host on
    exact hostDmaError_ring host on
  case dmaCommand =>
    intro r q k s c same host on cmd
    exact hostDmaError_command same host on cmd
  case telemetry =>
    intro s hst en period due new on values
    exact telemetryCapture_result hst en period due new on values
  case vector =>
    intro v s hst held past open_ host
    exact msixModerationEnd_result hst held past open_ host
  case sumNone =>
    intro s mgt exposed none
    obtain ⟨sev, src, cnt, aon⟩ := sumClear_none none
    refine Completes.when rfl (mgt_open s mgt exposed) ⟨sev, src, cnt, ?_⟩
    rw [aon]
    exact ⟨rfl, rfl⟩
  case sumSome =>
    intro s mgt exposed counted
    obtain ⟨sev, src, cnt, aon⟩ := sumClear_some counted
    refine Completes.when rfl (mgt_open s mgt exposed) ⟨sev, src, cnt, ?_⟩
    rw [aon]
    exact ⟨rfl, rfl⟩
  case trip =>
    intro s mgt exposed
    exact Completes.when rfl (mgt_open s mgt exposed) rfl

end Sys2Proof.Machine
end

section
/-! The opcodes of a command ring (18_host_rings R364, R366, Table HST.7): each starts, with its result or waiting for it. -/

namespace Sys2Proof.Machine
open Sys2Proof

variable {s x : State} {r : Fin 4} {c : Cmd}

/-- A command that may start runs, and stands as started with what its opcode gives it for a result. -/
theorem completes_begun {i : Instr} {op : Nat} {f : Cmd → State × Option CmdRes} {res : Option CmdRes} {Q : State → Prop}
    (answer : exec i s = ok (s.runCmd r op f)) (start : s.startable r op = some c) (run : f c = (x, res))
    (stands : x.hst.cmd[r] = some c) (rest : Q (x.begun r res)) :
    Completes i s (fun t => t.hst.cmd[r] = some { c with started := true, res := res } ∧ Q t) := by
  refine Completes.ok (answer.trans (congrArg ok ((run_at s r op f c start).trans ?_))) ⟨begun_at s x r res c stands, rest⟩
  rw [run]

theorem startable_stands {op : Nat} (start : s.startable r op = some c) (kept : x.hst = s.hst) : x.hst.cmd[r] = some c := by
  rw [kept]
  exact (startable_cmd s r op c start).1

/-! ### Records and saves (15_parameter_store R302, R303, R310) -/

/-- What NVP_READ answers of the copy that a record's selection gives (R303). -/
def readResult (use : Option (Bool × Copy)) : CmdRes :=
  (use.map (fun x : Bool × Copy => CmdRes.mk 0 x.2.payload (BitVec.ofNat 32 (x.2.fmt + b2n x.1 * 65536)) (BitVec.ofNat 32 x.2.seq) 0)).getD
    (CmdRes.of 8)

theorem nvpRead_result (start : s.startable r 0x10 = some c) :
    Completes (.nvpRead r) s (fun t => t.hst.cmd[r] = some { c with
      started := true, res := some (readResult (s.recSel (leAt c.d.opnd 0 2)).use) } ∧ True) := by
  have kept : (s.recRead (leAt c.d.opnd 0 2)).1.hst = s.hst := step_recRead.frame .hst (by decide)
  refine completes_begun (x := (s.recRead (leAt c.d.opnd 0 2)).1) rfl start ?_ (startable_stands start kept) trivial
  dsimp only
  rw [recRead_use]
  cases (s.recSel (leAt c.d.opnd 0 2)).use with
  | none => rfl
  | some y => rfl

theorem nvpWrite_written {p : List Byte} {z : Nat × Nat × Nat} (start : s.startable r 0x11 = some c)
    (may : s.nvpWritable (leAt c.d.opnd 0 2) = true) (place : recPlace (leAt c.d.opnd 0 2) = some z) (fits : 16 + c.d.blen ≤ z.2.2)
    (seq : s.recNextSeq (leAt c.d.opnd 0 2) ≤ 0xFFFFFFFFFFFF) (queue : s.nvp.queue = []) :
    Completes (.nvpWrite r p) s (fun t => t.hst.cmd[r] = some { c with
        started := true, res := some (CmdRes.mk 0 [] (BitVec.ofNat 32 (s.recNextSeq (leAt c.d.opnd 0 2))) 0 0) } ∧
      t.nvp = (s.recWrite (leAt c.d.opnd 0 2) (leAt c.d.opnd 2 2) (byteSlice p 0 c.d.blen)).nvp) := by
  refine completes_begun (x := s.recWrite (leAt c.d.opnd 0 2) (leAt c.d.opnd 2 2) (byteSlice p 0 c.d.blen)) rfl start ?_
    (startable_stands start (step_recWrite.frame .hst (by decide))) rfl
  dsimp only
  rw [place, may, queue]
  simp [fits, Nat.not_lt.2 seq]

theorem nvpWrite_refused {p : List Byte} (start : s.startable r 0x11 = some c) (mayNot : s.nvpWritable (leAt c.d.opnd 0 2) = false) :
    Completes (.nvpWrite r p) s (fun t => t.hst.cmd[r] = some { c with started := true, res := some (CmdRes.of 3) } ∧ t.nvp = s.nvp) := by
  refine completes_begun (x := s) rfl start ?_ (startable_stands start rfl) rfl
  dsimp only
  rw [mayNot]
  rfl

theorem nvpSave_started (start : s.startable r 0x12 = some c) (idle : s.nvp.save = none) :
    Completes (.nvpSave r) s (fun t => t.hst.cmd[r] = some { c with started := true, res := some (CmdRes.mk 0 [] 3 0 0) } ∧
      t.nvp.save = some ⟨3, s.time, true, none, s.opTime, false, s.slotPayload 3, false, none⟩) := by
  refine completes_begun (x := s.saveStart 3 true none) rfl start ?_ (startable_stands start rfl) rfl
  unfold State.saveRequest
  rw [idle]
  rfl

theorem nvpSave_refused (start : s.startable r 0x12 = some c) (runs : s.nvp.save ≠ none) :
    Completes (.nvpSave r) s (fun t => t.hst.cmd[r] = some { c with started := true, res := some (CmdRes.of 4) } ∧ t.nvp = s.nvp) := by
  have some_ : s.nvp.save.isSome = true := Option.isSome_iff_ne_none.2 runs
  refine completes_begun (x := s.stick F.NVP_FLAG.save_ref) rfl start ?_ (startable_stands start rfl) rfl
  unfold State.saveRequest
  rw [some_]
  rfl

/-! ### The mailbox (09_slot_links R196) -/

theorem mbReq_sent {p : List Byte} {k : Fin 32} {tag : Fin 4} (start : s.startable r 0x20 = some c) (slot : leAt c.d.opnd 0 1 = k.val)
    (tagged : leAt c.d.opnd 1 1 = tag.val) (kind : leAt c.d.opnd 2 1 ≤ 6) (length : leAt c.d.opnd 4 1 ≤ 240)
    (fits : leAt c.d.opnd 4 1 ≤ c.d.blen) (works : s.works = true) (lnk : s.runs .lnk = true) (up : s.linkUp k = true)
    (free : s.slt[k].req.any (fun q => q.tag = tag) = false) :
    Completes (.mbReq r p) s (fun t => t.hst.cmd[r] = some { c with started := true, res := none } ∧
      t.slt[k].req = s.slt[k].req ++ [⟨tag, some (r, BitVec.ofNat 16 c.index), s.time⟩]) := by
  have within : leAt c.d.opnd 0 1 < 32 ∧ leAt c.d.opnd 1 1 < 4 := ⟨slot ▸ k.isLt, tagged ▸ tag.isLt⟩
  obtain rfl : k = ⟨leAt c.d.opnd 0 1, within.1⟩ := Fin.ext slot.symm
  obtain rfl : tag = ⟨leAt c.d.opnd 1 1, within.2⟩ := Fin.ext tagged.symm
  refine completes_begun (op := 0x20) (x := s.modSlt _ (fun l => { l with
    mbx := l.mbx.put (1 :: byteSlice c.d.opnd 1 4 ++ byteSlice p 0 (leAt c.d.opnd 4 1))
    req := l.req ++ [⟨⟨leAt c.d.opnd 1 1, within.2⟩, some (r, BitVec.ofNat 16 c.index), s.time⟩] })) rfl start ?_
    (startable_stands start rfl) (congrArg Slt.req (modAt_same s.slt _ _))
  dsimp only
  rw [dif_pos within, if_neg (by omega), if_neg (by omega), if_neg (by rw [works, lnk, up]; decide), if_neg (by rw [free]; decide)]

/-! ### Field update and pages of the black box (17_field_update R340, 16_black_box R331) -/

theorem updOp_run {p : List Byte} (start : s.startable r 0x30 = some c) (length : c.d.blen ≤ 2048) :
    Completes (.updOp r p) s (fun t => t.hst.cmd[r] = some { c with
        started := true, res := (updRes (s.updOpRun (leAt c.d.opnd 0 1) (leAt c.d.opnd 4 4) (byteSlice p 0 c.d.blen))).2 } ∧
      t.upd = (s.updOpRun (leAt c.d.opnd 0 1) (leAt c.d.opnd 4 4) (byteSlice p 0 c.d.blen)).1.upd) := by
  refine completes_begun (x := (s.updOpRun (leAt c.d.opnd 0 1) (leAt c.d.opnd 4 4) (byteSlice p 0 c.d.blen)).1) rfl start ?_
    (startable_stands start (step_updOpRun.frame .hst (by decide))) rfl
  exact if_neg (Nat.not_lt.2 length)

/-- The words that BBX_COPY reads of a page (R331). -/
def State.pageBytes (s : State) (sel off n : Nat) : List Byte :=
  (List.range (n / 4)).flatMap (fun k => leBytes 4 (s.bbx.st.pageWord sel (off + 4 * k)).toNat)

theorem bbxCopy_read (start : s.startable r 0x50 = some c) (whole : c.d.blen % 4 = 0) (aligned : leAt c.d.opnd 4 4 % 4 = 0)
    (within : leAt c.d.opnd 4 4 + c.d.blen ≤ 0x10000) :
    Completes (.bbxCopy r) s (fun t => t.hst.cmd[r] = some { c with
      started := true, res := some (CmdRes.mk 0 (s.pageBytes (leAt c.d.opnd 0 1) (leAt c.d.opnd 4 4) c.d.blen) 0 0 0) } ∧ True) := by
  refine completes_begun (x := s.pageRead (leAt c.d.opnd 0 1) (leAt c.d.opnd 4 4) (c.d.blen / 4)) rfl start ?_
    (startable_stands start (step_pageRead.frame .hst (by decide))) trivial
  exact if_neg (by omega)

/-- Settles O28: each opcode's run gives the state that its block says, and the command stands as started with its result. -/
theorem hostCommandsComplete : Obligations.HostCommandsComplete := by
  unfold Obligations.HostCommandsComplete
  refine ⟨?nop, ?read, ?write, ?writeRefused, ?save, ?saveRefused, ?mailbox, ?update, ?mode, ?copy⟩
  case nop =>
    intro r s c start
    obtain ⟨t, next, cmd, -⟩ := completes_begun (i := .nop r) (Q := fun _ => True) rfl start rfl (startable_stands start rfl) trivial
    exact ⟨t, next, cmd⟩
  case read =>
    intro r s c start
    obtain ⟨t, next, cmd, -⟩ := nvpRead_result start
    exact ⟨t, next, cmd⟩
  case write =>
    intro r p s c z start may place fits seq queue
    exact nvpWrite_written start may place fits seq queue
  case writeRefused =>
    intro r p s c start mayNot
    exact nvpWrite_refused start mayNot
  case save =>
    intro r s c start none
    exact nvpSave_started start none
  case saveRefused =>
    intro r s c start runs
    exact nvpSave_refused start runs
  case mailbox =>
    intro r p s c k tag start slot tagged kind length fits works lnk up free
    exact mbReq_sent start slot tagged kind length fits works lnk up free
  case update =>
    intro r p s c start length
    exact updOp_run start length
  case mode =>
    intro r s c start
    obtain ⟨cmd, fresh⟩ := startable_cmd s r 0x40 c start
    exact completes_begun rfl start rfl (modeAsk_cmd s _ r c cmd fresh) rfl
  case copy =>
    intro r s c start whole aligned within
    obtain ⟨t, next, cmd, -⟩ := bbxCopy_read start whole aligned within
    exact ⟨t, next, cmd⟩

end Sys2Proof.Machine
end

section
/-! The beacon (20_beacon R388–R391): the read, the command words and the watches they leave behind. -/

namespace Sys2Proof.Machine
open Sys2Proof

variable {s : State} {w : BitVec 16}

/-! ### A word taken (R390) -/

/-- What a taken word leaves in the always-on part: itself and its result. -/
theorem bcnTaken_status (s : State) (w : BitVec 16) (result cause : Nat) :
    (s.bcnTaken w result cause).aon.bcnCmd = w ∧ (s.bcnTaken w result cause).aon.bcnStat = result := by
  obtain ⟨events, taken⟩ := bcnTaken_aon s w result cause
  rw [taken]
  exact ⟨rfl, rfl⟩

/-- A condition of a command word: the always-on supply stands and the word has the command's code. -/
theorem word_taken {code : Nat} (vaon : s.aon.vaon = true) (is : bcnCode w = code) : (s.aon.vaon && decide (bcnCode w = code)) = true := by
  rw [vaon, decide_eq_true is]
  rfl

/-! ### DEMOTE -/

theorem beaconDemote_demotes (vaon : s.aon.vaon = true) (code : bcnCode w = 1) (ball : s.ballArbiter = false) (first : s.aon.demoted = false) :
    Completes (.beaconDemote w) s (fun t => t.aon.demoted = true ∧ t.aon.bcnLow = true ∧ t.aon.bcnLowAt = s.time ∧
      t.aon.bcnCmd = w ∧ t.aon.bcnStat = 1 ∧ (s.sys.role ≠ .undecided → t.sys.role = .standby)) := by
  obtain ⟨low, role⟩ := bcnDemote_view s ball first
  have result : (if s.ballArbiter || s.aon.demoted then 2 else 1) = 1 := by
    rw [ball, first]
    rfl
  refine Completes.when rfl (word_taken vaon code) ?_
  rw [result]
  obtain ⟨events, aon⟩ := bcnTaken_aon s.bcnDemote w 1 0x07
  rw [aon, low, bcnTaken_role, role]
  exact ⟨rfl, rfl, rfl, rfl, rfl, fun decided => if_neg decided⟩

theorem beaconDemote_noEffect (vaon : s.aon.vaon = true) (code : bcnCode w = 1) (idle : s.ballArbiter = true ∨ s.aon.demoted = true) :
    Completes (.beaconDemote w) s (fun t => t.aon.demoted = s.aon.demoted ∧ t.sys = s.sys ∧ t.aon.bcnCmd = w ∧ t.aon.bcnStat = 2) := by
  have result : (if s.ballArbiter || s.aon.demoted then 2 else 1) = 2 := if_pos (by rw [Bool.or_eq_true]; exact idle)
  refine Completes.when rfl (word_taken vaon code) ?_
  rw [result, bcnDemote_nop s idle]
  obtain ⟨events, aon⟩ := bcnTaken_aon s w 2 0x07
  rw [aon, bcnTaken_role]
  exact ⟨rfl, rfl, rfl, rfl⟩

/-! ### The watch of a shutdown (R390, R391) -/

/-- The watch of a commanded shutdown ends. -/
def State.bcnUnwatched (s : State) : State := s.modAon (fun a => { a with bcnSafe := none })

theorem bcnUnwatched_demotes (ball : s.ballArbiter = false) (first : s.aon.demoted = false) :
    s.bcnUnwatched.bcnDemote.aon.bcnSafe = none ∧ s.bcnUnwatched.bcnDemote.aon.demoted = true := by
  obtain ⟨low, -⟩ := bcnDemote_view s.bcnUnwatched ball first
  rw [low]
  exact ⟨rfl, rfl⟩

/-- A watched shutdown whose end was not yet seen to begin is judged 1 ms after the command. -/
theorem execBeaconShutdownTimeout_unseen {t0 : Nat} (watch : s.aon.bcnSafe = some (t0, false)) (other : s.bcnSeq ≠ 4) :
    exec .beaconShutdownTimeout s = ok (s.whenAt true (t0 + ms1) (fun x => x.bcnUnwatched.bcnDemote)) := by
  change execBeaconShutdownTimeout s = _
  unfold execBeaconShutdownTimeout
  rw [watch]
  dsimp only
  simp only [if_neg other]
  rfl

/-- One that was seen to begin has 10 s to end. -/
theorem execBeaconShutdownTimeout_seen {t0 : Nat} (watch : s.aon.bcnSafe = some (t0, true)) :
    exec .beaconShutdownTimeout s = if s.bcnSeq = 0 ∨ s.bcnSeq = 5 then ok s.bcnUnwatched
      else ok (s.whenAt true (t0 + 10 * sec1) (fun x => x.bcnUnwatched.bcnDemote)) := by
  change execBeaconShutdownTimeout s = _
  unfold execBeaconShutdownTimeout
  rw [watch]
  rfl

/-! ### SAFE_SHUTDOWN -/

/-- The shelf shuts down on the beacon's word, and that is watched. -/
def State.bcnShutdown (s : State) : State :=
  (s.shelfShutdown 1).modAon (fun a => { a with bcnSafe := some (s.time, decide ((s.shelfShutdown 1).seq.st = 4)) })

theorem execBeaconSafeShutdown_shuts (vaon : s.aon.vaon = true) (code : bcnCode w = 2) (sd : s.aon.sd = false) (transport : s.aon.transport = false)
    (up : s.seq.st ≠ 4) (out : s.seq.st ≠ 6) (runs : s.seqRuns = true) (drives : s.drives = true) :
    exec (.beaconSafeShutdown w) s = ok (s.bcnShutdown.bcnTaken w 1 0x07) := by
  change execBeaconSafeShutdown w s = _
  unfold execBeaconSafeShutdown
  rw [word_taken vaon code, if_neg (by decide), if_neg (by simp [sd, transport, up, out]), runs, drives]
  rfl

theorem beaconSafeShutdown_begins (vaon : s.aon.vaon = true) (code : bcnCode w = 2) (sd : s.aon.sd = false) (transport : s.aon.transport = false)
    (up : s.seq.st ≠ 4) (out : s.seq.st ≠ 6) (runs : s.seqRuns = true) (drives : s.drives = true) :
    Completes (.beaconSafeShutdown w) s (fun t => t.seq.st = 4 ∧ t.seq.cause = 1 ∧ t.aon.bcnSafe = some (s.time, true) ∧ t.aon.bcnStat = 1 ∧
      Raises s t 0x90 0x03 1 0) := by
  obtain ⟨st, cause, -, -, raised⟩ := seqDown s up out
  have safe : s.bcnShutdown.aon.bcnSafe = some (s.time, true) := congrArg (fun b => some (s.time, b)) (decide_eq_true st)
  obtain ⟨events, aon⟩ := bcnTaken_aon s.bcnShutdown w 1 0x07
  obtain ⟨seq, -, -, -, l, flight⟩ := bcnTaken_rest s.bcnShutdown w 1 0x07
  refine Completes.ok (execBeaconSafeShutdown_shuts vaon code sd transport up out runs drives) ?_
  rw [seq, aon]
  exact ⟨st, cause, safe, rfl, raised.after l flight⟩

theorem beaconSafeShutdown_noEffect (vaon : s.aon.vaon = true) (code : bcnCode w = 2)
    (idle : s.aon.sd = true ∨ s.aon.transport = true ∨ s.seq.st = 4 ∨ s.seq.st = 6) :
    Completes (.beaconSafeShutdown w) s (fun t => t.seq = s.seq ∧ t.aon.bcnStat = 2) := by
  refine Completes.past rfl (by rw [word_taken vaon code]; decide) ?_
  rw [if_pos (by simpa [or_assoc] using idle)]
  exact ⟨_, rfl, (bcnTaken_rest s w 2 0x07).1, (bcnTaken_status ..).2⟩

/-! ### SAVE -/

theorem beaconSave_starts (vaon : s.aon.vaon = true) (code : bcnCode w = 3) (rec : s.runs .recI = true) (idle : s.nvp.save = none) :
    Completes (.beaconSave w) s (fun t => t.nvp.save = some ⟨5, s.time, true, none, s.opTime, false, s.slotPayload 5, false, none⟩ ∧
      t.aon.bcnStat = 1) := by
  have request : s.saveRequest 5 = s.saveStart 5 true none := by
    unfold State.saveRequest
    rw [idle]
    rfl
  refine Completes.past rfl (by rw [word_taken vaon code]; decide) ?_
  rw [if_neg (by rw [rec]; decide), request, idle]
  refine ⟨_, rfl, ?_, (bcnTaken_status ..).2⟩
  rw [(bcnTaken_rest ..).2.2.1]
  rfl

theorem beaconSave_failed (vaon : s.aon.vaon = true) (code : bcnCode w = 3) (rec : s.runs .recI = false) :
    Completes (.beaconSave w) s (fun t => t.nvp = s.nvp ∧ t.aon.bcnStat = 3) := by
  refine Completes.past rfl (by rw [word_taken vaon code]; decide) ?_
  rw [if_pos (by rw [rec]; decide)]
  exact ⟨_, rfl, (bcnTaken_rest s w 3 0x07).2.2.1, (bcnTaken_status ..).2⟩

/-! ### CLEAR_ATTN -/

theorem beaconClearAttn_clears (vaon : s.aon.vaon = true) (code : bcnCode w = 4) (uncounted : (s.cleared 0x1004).count = 0) :
    Completes (.beaconClearAttn w) s (fun t => t.evt.sev = 0 ∧ t.evt.src = 0 ∧ t.evt.cnt = .zero ∧ t.aon.bcnFault = 0 ∧ t.aon.bcnAttn = false ∧
      t.aon.bcnCmd = w ∧ t.aon.bcnStat = 1) := by
  obtain ⟨sev, src, cnt, clear⟩ := sumClear_none uncounted
  obtain ⟨events, aon⟩ := bcnTaken_aon s.sumClear w 1 0x07
  obtain ⟨-, -, -, evt, -⟩ := bcnTaken_rest s.sumClear w 1 0x07
  refine Completes.when rfl (word_taken vaon code) ?_
  rw [evt, aon, clear]
  exact ⟨sev, src, cnt, rfl, rfl, rfl, rfl⟩

/-- Settles O30: a word's command acts on the state first; that the word is then taken leaves its effect alone. -/
theorem beaconComplete : Obligations.BeaconComplete := by
  unfold Obligations.BeaconComplete
  refine ⟨?read, ?demote, ?demoteNop, ?demoteEnd, ?demotePin, ?shutdown, ?shutdownNop, ?unseen, ?late, ?ended, ?save, ?saveFails, ?clear, ?bad⟩
  case read =>
    intro s vaon
    exact Completes.when rfl vaon rfl
  case demote =>
    intro w s vaon code ball first
    exact beaconDemote_demotes vaon code ball first
  case demoteNop =>
    intro w s vaon code idle
    exact beaconDemote_noEffect vaon code idle
  case demoteEnd =>
    intro s low passed demoted pin
    refine Completes.at rfl low (of_decide_eq_true passed) ?_
    dsimp only
    rw [if_neg (by rw [pin, demoted]; decide), demoteOff_aon]
    exact ⟨rfl, rfl⟩
  case demotePin =>
    intro s low passed pin
    exact Completes.at rfl low (of_decide_eq_true passed) (if_pos (by rw [pin]; rfl))
  case shutdown =>
    intro w s vaon code sd transport up out runs drives
    exact beaconSafeShutdown_begins vaon code sd transport up out runs drives
  case shutdownNop =>
    intro w s vaon code idle
    exact beaconSafeShutdown_noEffect vaon code idle
  case unseen =>
    intro s t0 watch passed other ball first
    exact Completes.at (execBeaconShutdownTimeout_unseen watch other) rfl (of_decide_eq_true passed) (bcnUnwatched_demotes ball first)
  case late =>
    intro s t0 watch passed idle restart ball first
    exact Completes.at ((execBeaconShutdownTimeout_seen watch).trans (if_neg (not_or.2 ⟨idle, restart⟩))) rfl (of_decide_eq_true passed)
      (bcnUnwatched_demotes ball first)
  case ended =>
    intro s t0 watch ended
    exact Completes.ok ((execBeaconShutdownTimeout_seen watch).trans (if_pos ended)) rfl
  case save =>
    intro w s vaon code rec idle
    exact beaconSave_starts vaon code rec idle
  case saveFails =>
    intro w s vaon code rec
    exact beaconSave_failed vaon code rec
  case clear =>
    intro w s vaon code uncounted
    exact beaconClearAttn_clears vaon code uncounted
  case bad =>
    intro w s vaon code
    obtain ⟨seq, sys, nvp, -⟩ := bcnTaken_rest s w 4 0x08
    obtain ⟨cmd, stat⟩ := bcnTaken_status s w 4 0x08
    exact Completes.when rfl (word_taken vaon code) ⟨cmd, stat, seq, sys, nvp⟩

end Sys2Proof.Machine
end

section
/-! The two-wire ports (19_two_wire_ports R380–R386): the controller, the target, attention, the timeout and recovery. -/

namespace Sys2Proof.Machine
open Sys2Proof

variable {s : State} {p : Fin 4}

/-! ### The controller (R380, R382) -/

theorem execTwpGo_eq {v : Word} (mgt : s.runs .mgt = true) (exposed : s.sys.step ≠ 15) (go : v.getLsbD 31 = true)
    (idle : s.twp[p].xfer = none) (ctrl : s.twpCtrl p = true) :
    ∃ (x : State) (w : List Byte), x.twp = s.twp ∧ x.chans = s.chans ∧ x.time = s.time ∧ w.length = min 32 (bits v.toNat 5 0) ∧
      exec (.twpGo p v) s = if s.twp[p].stuck || s.twp[p].dead || !s.bit (F.TWP_CFG.en p) then ok (x.twpDone p 8 (bits v.toNat 22 16))
        else ok (x.modTwp p (fun t => { t with
          xfer := some (BitVec.ofNat 7 (bits v.toNat 22 16), w, min 32 (bits v.toNat 13 8)), tries := 0, wait_ := 0 })) := by
  refine ⟨((s.setFld (F.TWP_XFER.addr p) (bits v.toNat 22 16)).setFld (F.TWP_XFER.rlen p) (bits v.toNat 13 8)).setFld (F.TWP_XFER.wlen p)
    (bits v.toNat 5 0), (List.range (min 32 (bits v.toNat 5 0))).map (s.fldByte (F.TWP_DATA.data p)), rfl, rfl, rfl, ?_, ?_⟩
  · rw [List.length_map, List.length_range]
  · change execTwpGo p v s = _
    unfold execTwpGo
    rw [mgt_open s mgt exposed, if_neg (by decide)]
    dsimp only
    rw [if_neg (by rw [go, idle, ctrl]; decide)]

theorem twpGo_starts {v : Word} (mgt : s.runs .mgt = true) (exposed : s.sys.step ≠ 15) (go : v.getLsbD 31 = true)
    (idle : s.twp[p].xfer = none) (ctrl : s.twpCtrl p = true) (en : s.bit (F.TWP_CFG.en p) = true) (free : s.twp[p].stuck = false)
    (alive : s.twp[p].dead = false) :
    Completes (.twpGo p v) s (fun t => t.twp[p] = { s.twp[p] with tries := 0, wait_ := 0, xfer := some (
      BitVec.ofNat 7 (bits v.toNat 22 16), (t.twp[p].xfer.map (fun x => x.2.1)).getD [], min 32 (bits v.toNat 13 8)) } ∧
      (t.twp[p].xfer.map (fun x => x.2.1.length)) = some (min 32 (bits v.toNat 5 0))) := by
  obtain ⟨x, w, twp, -, -, length, answer⟩ := execTwpGo_eq mgt exposed go idle ctrl
  refine Completes.ok (answer.trans (if_neg (by rw [free, alive, en]; decide))) ?_
  rw [modTwp_at, twp]
  exact ⟨rfl, congrArg some length⟩

theorem twpGo_stuck {v : Word} (mgt : s.runs .mgt = true) (exposed : s.sys.step ≠ 15) (go : v.getLsbD 31 = true)
    (idle : s.twp[p].xfer = none) (ctrl : s.twpCtrl p = true)
    (off : s.bit (F.TWP_CFG.en p) = false ∨ s.twp[p].stuck = true ∨ s.twp[p].dead = true) :
    Completes (.twpGo p v) s (fun t => t.twp[p].result = 8 ∧ t.twp[p].xfer = none ∧
      Raises s t (0xD0 + p.val) 0x01 (bits v.toNat 22 16) 8) := by
  obtain ⟨x, w, -, chans, time, -, answer⟩ := execTwpGo_eq mgt exposed go idle ctrl
  refine Completes.ok (answer.trans (if_pos (by rcases off with off | off | off <;> simp only [off] <;> simp))) ?_
  rw [twpDone_twp]
  obtain ⟨l, flight, told⟩ := twpDone_raises x p 8 (bits v.toNat 22 16) (by decide) (by decide)
  rw [chans] at flight
  rw [time] at told
  exact ⟨rfl, rfl, l, flight, told⟩

section
/-! A transaction that runs: the port is on, a controller, and its SDA has been checked. -/
variable {x : BitVec 7 × List Byte × Nat} (xfer : s.twp[p].xfer = some x) (on : s.twpOn p = true) (ctrl : s.twpCtrl p = true)
  (checked : s.twp[p].check = false)
include xfer on ctrl checked

theorem execTwpArbRetry_eq {extra : Fin 8} : exec (.twpArbRetry p extra) s = if 3 ≤ s.twp[p].tries
    then ok ((s.arbLoss p).twpDone p 4 x.1.toNat)
    else ok ((s.arbLoss p).modTwp p (fun t => { t with tries := t.tries + 1, wait_ := extra.val })) := by
  change execTwpArbRetry p extra s = _
  unfold execTwpArbRetry
  rw [xfer]
  exact if_neg (by rw [on, ctrl, checked]; decide)

theorem execTwpTransactionDone_eq (o : TwpOutcome) : exec (.twpTransactionDone p o) s = match o with
    | .ok bs => ok ((s.putData p (bs.take x.2.2)).twpDone p 1 x.1.toNat)
    | .pecErr bs => ok ((s.putData p (bs.take x.2.2)).twpDone p (if s.bit (F.TWP_CFG.pec p) then 7 else 1) x.1.toNat)
    | .arbFrame => ok ((s.arbLoss p).twpDone p 5 x.1.toNat)
    | o => ok (s.twpDone p (twpCode o) x.1.toNat) := by
  change execTwpTransactionDone p o s = _
  unfold execTwpTransactionDone
  rw [xfer]
  dsimp only
  refine (if_neg (by rw [on, ctrl, checked]; decide)).trans ?_
  cases o <;> rfl

theorem twpArbRetry_lost {extra : Fin 8} (last : 3 ≤ s.twp[p].tries) :
    Completes (.twpArbRetry p extra) s (fun t => t.twp[p] = { s.twp[p] with arb := s.twp[p].arb.inc, xfer := none, result := 4 } ∧
      Raises s t (0xD0 + p.val) 0x01 x.1.toNat 4) := by
  obtain ⟨time, l, flight⟩ := arbLoss_time s p
  obtain ⟨m, done, told⟩ := twpDone_raises (s.arbLoss p) p 4 x.1.toNat (by decide) (by decide)
  refine Completes.ok ((execTwpArbRetry_eq xfer on ctrl checked).trans (if_pos last)) ?_
  rw [twpDone_twp, arbLoss_twp]
  rw [time] at told
  exact ⟨rfl, l ++ m, by rw [done, flight, List.append_assoc], List.mem_append_right _ told⟩

theorem twpTransactionDone_result (o : TwpOutcome) (seen : s.bit (F.TWP_CFG.pec p) = true ∨ ∀ bs, o ≠ .pecErr bs) :
    Completes (.twpTransactionDone p o) s (fun t => t.twp[p].xfer = none ∧ t.twp[p].result = twpCode o) := by
  have answer := execTwpTransactionDone_eq xfer on ctrl checked o
  cases o with
  | pecErr bs =>
    have pec : s.bit (F.TWP_CFG.pec p) = true := seen.resolve_right (fun none => none bs rfl)
    refine Completes.ok answer ?_
    rw [twpDone_twp, if_pos pec]
    exact ⟨rfl, rfl⟩
  | ok bs | nackAddr | nackData | arbFrame =>
    refine Completes.ok answer ?_
    rw [twpDone_twp]
    exact ⟨rfl, rfl⟩

end

/-! ### The target (R383, R384) -/

theorem twpSent_at (s : State) (p : Fin 4) (k n : Nat) : (s.twpSent p k n).twp[p] =
    { s.twp[p] with ptr := BitVec.ofNat 6 (k + n), sent := s.twpSends p (s.fld (F.TWP_CFG.taddr p)) k n } := modTwp_at ..

theorem twpTargetWrite_stores {bytes : List Byte} {pec : Byte} (on : s.twpOn p = true) (target : s.twpCtrl p = false)
    (plain : s.bit (F.TWP_CFG.pec p) = false) :
    Completes (.twpTargetWrite p bytes pec) s (fun t => t.twp[p] = s.twp[p].write bytes ∧
      Raises s t (0xD0 + p.val) 0x06 (s.fld (F.TWP_CFG.taddr p)) (s.twp[p].write bytes).ptr.toNat) := by
  have stored : ((s.modTwp p (fun t => t.write bytes)).stick (F.TWP_STAT.rx p)).twp[p] = s.twp[p].write bytes := modTwp_at ..
  refine Completes.past rfl (by rw [on, target, plain]; simp) ⟨_, rfl, ?_⟩
  rw [twpEvent_twp, stored]
  exact ⟨rfl, Raises.one rfl⟩

theorem execTwpAttnRequest_eq {extra : Fin 8} {won : Option Nat} (on : s.twpOn p = true) (target : s.twpCtrl p = false)
    (attn : s.bit (F.TWP_CTL.attn p) = true) : exec (.twpAttnRequest p extra won) s = match won with
      | some n => ok (((s.twpSent p 0 n).modTwp p (fun t => { t with wait_ := 0 })).hwFld (F.TWP_CTL.attn p) 0)
      | none => ok (s.modTwp p (fun t => { t with wait_ := extra.val })) := by
  change execTwpAttnRequest p extra won s = _
  unfold execTwpAttnRequest
  exact if_neg (by rw [on, target, attn]; decide)

theorem twpAttention_served {addr : BitVec 7} {bytes : List Byte} (on : s.twpOn p = true) (ctrl : s.twpCtrl p = true)
    (en : s.bit (F.TWP_CFG.att_en p) = true) :
    Completes (.twpAttention p addr bytes) s (fun t => t.twp[p].atta = addr ∧
      t.twp[p].att = Vector.ofFn (fun (k : Fin 32) => (bytes.take (s.fld (F.TWP_CFG.att_len p))).getD k.val 0) ∧
      Raises s t (0xD0 + p.val) 0x05 addr.toNat (leAt (bytes.take (s.fld (F.TWP_CFG.att_len p))) 0 4)) := by
  have port : ((s.modTwp p (fun t => { t with
      atta := addr, att := Vector.ofFn (fun (k : Fin 32) => (bytes.take (s.fld (F.TWP_CFG.att_len p))).getD k.val 0) })).stick
        (F.TWP_STAT.att p)).twp[p] = { s.twp[p] with
      atta := addr, att := Vector.ofFn (fun (k : Fin 32) => (bytes.take (s.fld (F.TWP_CFG.att_len p))).getD k.val 0) } := modTwp_at ..
  refine Completes.when rfl (by rw [on, ctrl, en]; decide) ?_
  rw [twpEvent_twp, port]
  exact ⟨rfl, rfl, Raises.one rfl⟩

/-! ### Recovery (R386) -/

theorem twpRecovered_at (s : State) (p : Fin 4) : (s.twpRecovered p).twp[p] = { s.twp[p] with stuck := false, check := false } ∧
    Raises s (s.twpRecovered p) (0xD0 + p.val) 0x04 0 s.twp[p].retries := by
  unfold State.twpRecovered
  rw [twpEvent_twp, modTwp_at]
  exact ⟨rfl, Raises.one rfl⟩

theorem twpStuck_at (s : State) (p : Fin 4) : (s.twpStuck p).twp[p] =
      { s.twp[p] with stuck := true, check := false, recAt := s.time, dead := decide (8 ≤ s.twp[p].retries) } ∧
    Raises s (s.twpStuck p) (0xD0 + p.val) 0x03 0 s.twp[p].retries := by
  unfold State.twpStuck
  rw [twpEvent_twp, modTwp_at]
  exact ⟨rfl, Raises.one rfl⟩

theorem execTwpBusRecovery_eq {pulses : Nat} {high : Bool} (on : s.twpOn p = true) (ctrl : s.twpCtrl p = true)
    (check : s.twp[p].check = true) : exec (.twpBusRecovery p pulses high) s =
      if !high then ok ((s.modTwp p (fun t => { t with retries := 0 })).twpStuck p)
      else if pulses = 0 then ok (s.modTwp p (fun t => { t with check := false }))
      else ok (s.twpRecovered p) := by
  change execTwpBusRecovery p pulses high s = _
  unfold execTwpBusRecovery
  exact if_neg (by rw [on, ctrl, check]; decide)

theorem twpRecoveryRetry_judged {high : Bool} (mgt : s.runs .mgt = true) (en : s.bit (F.TWP_CFG.en p) = true) (ctrl : s.twpCtrl p = true)
    (stuck : s.twp[p].stuck = true) (alive : s.twp[p].dead = false) (passed : s.elapsed s.twp[p].recAt (100 * ms1) = true) :
    Completes (.twpRecoveryRetry p high) s (fun t => t.twp[p].retries = s.twp[p].retries + 1 ∧ t.twp[p].stuck = !high ∧
      t.twp[p].dead = (!high && decide (8 ≤ s.twp[p].retries + 1)) ∧
      Raises s t (0xD0 + p.val) (if high then 0x04 else 0x03) 0 (s.twp[p].retries + 1 : Nat)) := by
  have counted : (s.modTwp p (fun t => { t with retries := t.retries + 1 })).twp[p] = { s.twp[p] with retries := s.twp[p].retries + 1 } :=
    modTwp_at ..
  refine Completes.at rfl (by rw [mgt, en, ctrl, stuck, alive]; decide) (of_decide_eq_true passed) ?_
  cases high with
  | true =>
    obtain ⟨port, told⟩ := twpRecovered_at (s.modTwp p (fun t => { t with retries := t.retries + 1 })) p
    rw [counted] at port told
    dsimp only
    rw [if_pos rfl, port]
    exact ⟨rfl, rfl, alive, told.after [] (List.append_nil _).symm⟩
  | false =>
    obtain ⟨port, told⟩ := twpStuck_at (s.modTwp p (fun t => { t with retries := t.retries + 1 })) p
    rw [counted] at port told
    dsimp only
    rw [if_neg Bool.false_ne_true, port]
    exact ⟨rfl, rfl, rfl, told.after [] (List.append_nil _).symm⟩

/-- Settles O29: each happening of a port comes to its own change of that port; what it raises leaves the port alone. -/
theorem twoWireComplete : Obligations.TwoWireComplete := by
  unfold Obligations.TwoWireComplete
  refine ⟨?go, ?goStuck, ?retry, ?lost, ?done, ?plain, ?write, ?read, ?won, ?again, ?served, ?timeout, ?stuck, ?recovered, ?high, ?judged⟩
  case go =>
    intro p v s mgt exposed go idle ctrl en free alive
    exact twpGo_starts mgt exposed go idle ctrl en free alive
  case goStuck =>
    intro p v s mgt exposed go idle ctrl off
    exact twpGo_stuck mgt exposed go idle ctrl off
  case retry =>
    intro p e s x xfer on ctrl checked more
    refine Completes.ok ((execTwpArbRetry_eq xfer on ctrl checked).trans (if_neg (Nat.not_le.2 more))) ?_
    rw [modTwp_at, arbLoss_twp]
  case lost =>
    intro p e s x xfer on ctrl checked last
    exact twpArbRetry_lost xfer on ctrl checked last
  case done =>
    intro p o s x xfer on ctrl checked seen
    exact twpTransactionDone_result xfer on ctrl checked o seen
  case plain =>
    intro p bs s x xfer on ctrl checked plain
    refine Completes.ok (execTwpTransactionDone_eq xfer on ctrl checked (.pecErr bs)) ?_
    rw [twpDone_twp, plain]
    exact ⟨rfl, rfl⟩
  case write =>
    intro p bs pec s on target plain
    exact twpTargetWrite_stores on target plain
  case read =>
    intro p n s on target
    exact Completes.when rfl (by rw [on, target]; decide) (twpSent_at ..)
  case won =>
    intro p e n s on target attn
    refine Completes.ok (execTwpAttnRequest_eq on target attn) ⟨?_, hwFld_regs rfl rfl⟩
    rw [hwFld_twp, modTwp_at, twpSent_at]
  case again =>
    intro p e s on target attn
    exact Completes.ok (execTwpAttnRequest_eq on target attn) rfl
  case served =>
    intro p a bs s on ctrl en
    exact twpAttention_served on ctrl en
  case timeout =>
    intro p s on ctrl
    refine Completes.when rfl (by rw [on, ctrl]; decide) ?_
    rw [modTwp_at, twpDone_twp]
  case stuck =>
    intro p n s on ctrl check
    obtain ⟨port, told⟩ := twpStuck_at (s.modTwp p (fun t => { t with retries := 0 })) p
    rw [modTwp_at] at port told
    refine Completes.ok ((execTwpBusRecovery_eq on ctrl check).trans (if_pos rfl)) ?_
    rw [port]
    exact ⟨rfl, rfl, rfl, rfl, told.after [] (List.append_nil _).symm⟩
  case recovered =>
    intro p n s on ctrl check pulsed
    obtain ⟨port, told⟩ := twpRecovered_at s p
    refine Completes.ok ((execTwpBusRecovery_eq on ctrl check).trans ((if_neg (by decide)).trans (if_neg pulsed))) ?_
    rw [port]
    exact ⟨rfl, rfl, told⟩
  case high =>
    intro p s on ctrl check
    exact Completes.ok ((execTwpBusRecovery_eq on ctrl check).trans ((if_neg (by decide)).trans (if_pos rfl))) rfl
  case judged =>
    intro p high s mgt en ctrl stuck alive passed
    exact twpRecoveryRetry_judged mgt en ctrl stuck alive passed

end Sys2Proof.Machine
end

section
/-! Field update (17_field_update R340–R355): prepare, commit, activation, the end of an update and the management restart. -/

namespace Sys2Proof.Machine
open Sys2Proof

variable {s : State}

/-! ### An operation of the host (R340) -/

section
variable {c : Instr} {r : State × Nat} {P : State → Prop} (hst : s.runs .hst = true) (mgt : s.runs .mgt = true)
include hst mgt

/-- An operation that reaches the block completes with the state its answer gives. -/
theorem completes_updHost (answer : exec c s = Machine.ok (s.updHost r)) (holds : P r.1) : Completes c s P :=
  Completes.ok (answer.trans (congrArg Machine.ok (updHost_on s r hst mgt))) holds

theorem completes_updHost_eq {x : State} {reason : Nat} (answer : exec c s = Machine.ok (s.updHost r)) (is : r = (x, reason)) (holds : P x) :
    Completes c s P := completes_updHost hst mgt answer (by rw [is]; exact holds)

end

/-- A carried step changes only what waits for the peer. -/
theorem carryStep_upd (s : State) (p : PeerStep) : (s.carryStep p).upd = { s.upd with carry := (s.carryStep p).upd.carry } := by
  obtain ⟨c, carried⟩ := carry_ext s p
  rw [carried]

/-! ### Prepare (R341, R344) -/

theorem updBegin_accepted (mine : s.updMine = true) (phase : s.upd.phase = 0) (drill : s.arbDrill = false) :
    s.updBegin = (s.updStart.carryStep .begin_, 0) := if_neg (by rw [mine, phase, drill]; decide)

theorem updBegin_refused (phase : s.upd.phase ≠ 0) : s.updBegin = (s.updRefuse 0x10 0, 0x10) := if_pos (by simp [phase])

theorem updChunk_refused {off : Nat} {buf : List Byte} (phase : s.upd.phase ≠ 1) :
    s.updChunk off buf = (s.updRefuse 0x10 0, 0x10) := if_pos (by simp [phase])

/-- Before the payload of the next part has arrived, no part is decoded. -/
theorem partsDecode_waits {m : Manifest} {fuel : Nat} (man : s.upd.man = some m)
    (waits : ∀ e, m.entries[s.upd.decoded]? = some e → s.upd.pkg.length < e.poff + e.plen) : State.partsDecode fuel s = (s, 0) := by
  cases fuel with
  | zero => rfl
  | succ fuel =>
    unfold State.partsDecode
    rw [man, Option.bind_some]
    cases entry : m.entries[s.upd.decoded]? with
    | none => rfl
    | some e => exact if_pos (waits e entry)

theorem updTake_waits {m : Manifest} {off : Nat} {bytes : List Byte} (man : s.upd.man = some m)
    (waits : ∀ e, m.entries[s.upd.decoded]? = some e → (s.upd.pkg ++ bytes).length < e.poff + e.plen) :
    s.updTake off bytes = (s.modUpd (fun u => { u with pkg := u.pkg ++ bytes, lastOff := some off }), 0) := by
  unfold State.updTake State.updProgress
  rw [show (s.modUpd (fun u => { u with pkg := u.pkg ++ bytes, lastOff := some off })).upd.man = some m from man]
  exact partsDecode_waits man waits

theorem updChunk_next {off : Nat} {buf bytes : List Byte} (mine : s.updMine = true) (phase : s.upd.phase = 1) (open_ : s.upd.ending = false)
    (last : s.upd.lastOff = some (off - 2048)) (later : 2048 ≤ off) (inside : off < leAt s.upd.pkg 16 4)
    (is : bytes = byteSlice buf 0 (min 2048 (leAt s.upd.pkg 16 4 - off))) :
    s.updChunk off buf = (s.carryStep (.chunk off bytes)).updTake off bytes := by
  have new : ¬ s.upd.lastOff = some off := by
    rw [last, Option.some.injEq]
    omega
  unfold State.updChunk
  rw [if_neg (by rw [mine, phase, open_]; decide), if_neg new, last, is]
  simp only [Option.isSome_some, if_true]
  exact if_neg (by omega)

theorem updEnd_refused (phase : s.upd.phase ≠ 1) : s.updEnd = (s.updRefuse 0x10 0, 0x10) := if_pos (by simp [phase])

theorem relayStart_upd (s : State) (m : Manifest) : (s.relayStart m).upd = s.upd := step_relayStart.frame .upd (by decide)

theorem updFinish_verified {m : Manifest} (man : s.upd.man = some m) (whole : m.plen ≤ s.upd.pkg.length) (hashes : s.hashFails m = none) :
    s.updFinish.1.upd.verified = m.n ∧ s.updFinish.1.upd.ending = true := by
  unfold State.updFinish
  rw [man]
  dsimp only
  rw [if_neg (Nat.not_lt.2 whole), hashes]
  dsimp only
  rw [relayStart_upd]
  exact ⟨rfl, rfl⟩

theorem updEnd_verified {m : Manifest} (mine : s.updMine = true) (phase : s.upd.phase = 1) (open_ : s.upd.ending = false)
    (man : s.upd.man = some m) (whole : m.plen ≤ s.upd.pkg.length) (hashes : s.hashFails m = none) :
    s.updEnd.1.upd.verified = m.n ∧ s.updEnd.1.upd.ending = true := by
  have accepted : s.updEnd = (s.carryStep .finish).updFinish := if_neg (by rw [mine, phase, open_]; decide)
  rw [accepted]
  refine updFinish_verified ?_ ?_ ((hashFails_carry s .finish m).trans hashes)
  · rw [carryStep_upd]
    exact man
  · rw [carryStep_upd]
    exact whole

/-- The data of an update event (Table UPD.8). -/
theorem updEvent_raises (s : State) (cause : Nat) (epoch : BitVec 64) :
    Raises s (s.updEvent cause epoch) 0xE0 cause 0 (epoch.toNat % 2 ^ 32 : Nat) := Raises.one rfl

theorem prepareComplete_verified (mgt : s.runs .mgt = true) (phase : s.upd.phase = 1) (ending : s.upd.ending = true)
    (relays : ∀ k : Fin 32, s.slt[k].fw = none) (peer : s.peerPrepared = true) :
    Completes .prepareComplete s (fun t => t.upd = { s.upd with phase := 2, ending := false } ∧
      Raises s t 0xE0 0x01 0 (((s.upd.man.map Manifest.epoch).getD 0).toNat % 2 ^ 32 : Nat)) := by
  have none_ : allFin 32 (fun k => s.slt[k].fw.isNone) = true := by
    unfold allFin
    exact List.all_eq_true.2 (fun k _ => by rw [relays k]; rfl)
  exact Completes.when rfl (by rw [mgt, phase, ending, none_, peer]; decide) ⟨rfl, Raises.one rfl⟩

/-! ### Commit (R345) -/

section
variable (mine : s.updMine = true) (booted : s.sys.step ≠ 15) (drill : s.arbDrill = false)
include mine booted drill

theorem updCommit_judged (phase : s.upd.phase = 2) (idle : s.upd.committing = false) :
    s.updCommit = if s.manRefusal ≠ 0 then (s.updRefuse s.manRefusal 0, s.manRefusal)
      else ((s.modUpd (fun u => { u with committing := true, ownWrite := false })).carryStep .commit, 0) :=
  if_neg (by simp [mine, booted, drill, phase, idle])

theorem updActivate_accepted (phase : s.upd.phase = 3) (free : s.manRefusal = 0) : s.updActivate =
    ((s.modUpd (fun u => { u with phase := 4, step := 0, drillAsked := false, drillMine := false })).carryStep .activate, 0) :=
  (if_neg (by simp [mine, booted, drill, phase])).trans (if_neg (not_not.2 free))

end

theorem commitOwn_upd (s : State) (m : Manifest) : (s.commitOwn m).upd =
    { s.upd with ownWrite := true, prevDigest := s.upd.rec1.digest, rec1 := s.commitRec m } := writeRec1_upd _ _

section
variable {m : Manifest} {peerOk : Bool} (man : s.upd.man = some m) (mgt : s.runs .mgt = true) (phase : s.upd.phase = 2)
  (committing : s.upd.committing = true)
include man mgt phase committing

theorem execCommitWritesDone_eq : exec (.commitWritesDone peerOk) s =
    if !s.upd.ownWrite && s.strap = .pair && s.sys.role = .active && !peerOk then ok (s.updAbort 0x0F 0)
    else if (if s.upd.ownWrite then s else s.commitOwn m).rec1Waits then ok (if s.upd.ownWrite then s else s.commitOwn m).rec1Flush
    else ok (((if s.upd.ownWrite then s else s.commitOwn m).modUpd (fun u => { u with phase := 3, committing := false, ownWrite := false })).updEvent
      0x02 m.epoch) := by
  change execCommitWritesDone peerOk s = _
  unfold execCommitWritesDone
  rw [man]
  exact if_neg (by rw [mgt, phase, committing]; decide)

theorem commitWritesDone_own (first : s.upd.ownWrite = false) (peer : s.strap ≠ .pair ∨ s.sys.role ≠ .active ∨ peerOk = true)
    (waits : (s.commitOwn m).rec1Waits = true) :
    Completes (.commitWritesDone peerOk) s (fun t => t.upd = { s.upd with
      ownWrite := true, prevDigest := s.upd.rec1.digest, rec1 := s.commitRec m }) := by
  have answer := execCommitWritesDone_eq man mgt phase committing (peerOk := peerOk)
  rw [if_neg (by rcases peer with other | other | other <;> simp [other]), first, if_neg Bool.false_ne_true, if_pos waits] at answer
  have kept : (s.commitOwn m).rec1Flush.upd = (s.commitOwn m).upd := step_rec1Flush.frame .upd (by decide)
  exact Completes.ok answer (kept.trans (commitOwn_upd s m))

theorem commitWritesDone_committed (own : s.upd.ownWrite = true) (placed : s.rec1Waits = false) :
    Completes (.commitWritesDone peerOk) s (fun t => t.upd = { s.upd with phase := 3, committing := false, ownWrite := false } ∧
      Raises s t 0xE0 0x02 0 (m.epoch.toNat % 2 ^ 32 : Nat)) := by
  have answer := execCommitWritesDone_eq man mgt phase committing (peerOk := peerOk)
  rw [own, if_neg (by simp), if_pos rfl, if_neg (by rw [placed]; decide)] at answer
  exact Completes.ok answer ⟨rfl, Raises.one rfl⟩

theorem commitWritesDone_aborted (first : s.upd.ownWrite = false) (pair : s.strap = .pair) (active : s.sys.role = .active) :
    Completes (.commitWritesDone false) s (fun t => t.upd.phase = 0 ∧ t.upd.result = 3 ∧ t.upd.reason = 0x0F) :=
  Completes.ok ((execCommitWritesDone_eq man mgt phase committing).trans (if_pos (by rw [first, pair, active]; decide))) (updAbort_at s 0x0F 0)

end

/-! ### Activation (R347, R351) -/

theorem stepAt_at (s : State) (n : Nat) (r : Rec1) : (s.stepAt n r).upd.step = n ∧ (s.stepAt n r).upd.rec1 = r := by
  refine ⟨rfl, ?_⟩
  change (s.writeRec1 r).upd.rec1 = r
  rw [writeRec1_upd]

theorem trialRec_step (s : State) (n : Nat) : (s.trialRec n).step = n := by
  unfold State.trialRec
  dsimp only
  split <;> rfl

theorem actRun_first (s : State) : (s.actRun 1).upd.step = 1 ∧ (s.actRun 1).upd.rec1.step = 1 := by
  change (State.carryStep _ _).upd.step = 1 ∧ (State.carryStep _ _).upd.rec1.step = 1
  rw [carryStep_upd]
  split
  · obtain ⟨step, rec1⟩ := stepAt_at s 1 { s.upd.rec1 with step := 1 }
    exact ⟨step, by rw [rec1]⟩
  · obtain ⟨step, rec1⟩ := stepAt_at s.configRecords 1 (s.configRecords.trialRec 1)
    exact ⟨step, (congrArg Rec1.step rec1).trans (trialRec_step ..)⟩

theorem activationStep_first (up : s.mgtUp = true) (phase : s.upd.phase = 4) (hu : s.vat.hu = false) (mine : s.actMine = true)
    (step : s.upd.step = 0) : Completes .activationStep s (fun t => t.upd.step = 1 ∧ t.upd.rec1.step = 1) := by
  have next : (actSteps s.strap).find? (fun n => decide (0 < n)) = some 1 := by cases s.strap <;> rfl
  refine Completes.past rfl (by rw [up, phase, hu, mine]; decide) ⟨s.actRun 1, ?_, actRun_first s⟩
  rw [step, next]
  rfl

theorem serveSlots_idle {fuel : Nat} (done : s.upd.todo = []) : State.serveSlots fuel s = s := by
  cases fuel with
  | zero => rfl
  | succ fuel =>
    unfold State.serveSlots
    rw [done]

theorem slotActivateTimeout_last {k : Fin 32} {a : Nat} (act : s.upd.act = [(k, a, false)]) (mgt : s.runs .mgt = true) (phase : s.upd.phase = 4)
    (todo : s.upd.todo = []) (late : a + 30 * sec1 ≤ s.time) :
    Completes (.slotActivateTimeout k) s (fun t => t.upd.act = [] ∧ Raises s t 0xE1 0x04 0 k.val) := by
  have found : s.upd.act.find? (fun (x : Fin 32 × Nat × Bool) => decide (x.1 = k)) = some (k, a, false) := by
    rw [act]
    exact List.find?_cons_of_pos (decide_eq_true rfl)
  have given : s.upd.act.filter (fun (x : Fin 32 × Nat × Bool) => x.1 != k) = [] := by
    rw [act]
    exact List.filter_cons_of_neg (by simp)
  have answer : exec (.slotActivateTimeout k) s = ok (s.whenAt (s.runs .mgt && s.upd.phase = 4) (a + 30 * sec1) (fun s =>
      State.serveSlots 32 ((s.modUpd (fun u => { u with act := u.act.filter (fun (a : Fin 32 × Nat × Bool) => a.1 != k) })).fire
        0xE1 0x04 0 k.val))) := by
    change execSlotActivateTimeout k s = _
    unfold execSlotActivateTimeout
    rw [found]
  have idle := serveSlots_idle (fuel := 32) (s := (s.modUpd (fun u => { u with
    act := u.act.filter (fun (a : Fin 32 × Nat × Bool) => a.1 != k) })).fire 0xE1 0x04 0 k.val) todo
  refine Completes.at answer (by rw [mgt, phase]; decide) late ?_
  rw [idle]
  exact ⟨given, Raises.one rfl⟩

/-! ### Abort, rollback and confirmation (R345, R348, R354) -/

theorem updAbortOp_prepare (mine : s.updMine = true) (phase : s.upd.phase = 1 ∨ s.upd.phase = 2) : s.updAbortOp = (s.updAbort 0x13 0, 0) :=
  (if_neg (by rcases phase with phase | phase <;> rw [mine, phase] <;> decide)).trans (if_pos phase)

theorem updAbortOp_committed (mine : s.updMine = true) (phase : s.upd.phase = 3 ∨ s.upd.phase = 4 ∨ s.upd.phase = 5) :
    s.updAbortOp = (s.rollBack 0x13 true, 0) :=
  (if_neg (by rcases phase with phase | phase | phase <;> rw [mine, phase] <;> decide)).trans
    (if_neg (by rcases phase with phase | phase | phase <;> rw [phase] <;> decide))

theorem confirm_at (s : State) : s.confirm.upd.phase = 0 ∧ s.confirm.upd.result = 1 ∧ s.confirm.upd.doneCnt = s.upd.doneCnt.inc ∧
    s.confirm.upd.rec1.state = 0 := by
  unfold State.confirm
  extract_lets +onlyGivenNames c s1 confirmed s2
  have phase : s1.upd.phase = 0 := rfl
  have result : s1.upd.result = 1 := rfl
  have counted : s1.upd.doneCnt = c := rfl
  have kept : s2.upd = (s1.writeRec1 { s.upd.rec1 with state := 0 }).upd := step_advanceBoth.frame .upd (by decide)
  rw [writeRec1_upd] at kept
  clear_value s1 s2
  rw [satEv_upd]
  change s2.upd.phase = 0 ∧ s2.upd.result = 1 ∧ s2.upd.doneCnt = c ∧ s2.upd.rec1.state = 0
  rw [kept]
  exact ⟨phase, result, counted, rfl⟩

theorem trialEnd_confirms {a : Nat} (from_ : s.upd.trialFrom = some a) (mgt : s.runs .mgt = true) (phase : s.upd.phase = 5)
    (mine : s.actMine = true) (run : a + (s.fld F.UPD_TRIAL.ms * ms1 - s.upd.trialUsed) ≤ s.time) :
    Completes .trialEnd s (fun t => t.upd.phase = 0 ∧ t.upd.result = 1 ∧ t.upd.doneCnt = s.upd.doneCnt.inc ∧ t.upd.rec1.state = 0) := by
  have answer : exec .trialEnd s = ok (s.whenAt (s.runs .mgt && s.upd.phase = 5 && s.actMine)
      (a + (s.fld F.UPD_TRIAL.ms * ms1 - s.upd.trialUsed)) State.confirm) := by
    change execTrialEnd s = _
    unfold execTrialEnd
    rw [from_]
  exact Completes.at answer (by rw [mgt, phase, mine]; decide) run (confirm_at s)

theorem execUpdRollback_eq (up : s.mgtUp = true) (caused : s.rollbackCause ≠ 0) : exec .updRollback s =
    ok (if s.upd.phase = 0 then s.reconcile s.rollbackCause else s.rollBack s.rollbackCause true) := by
  change execUpdRollback s = _
  unfold execUpdRollback State.when
  exact congrArg ok (if_pos (by simp [up, caused]))

theorem updRollback_rolls (up : s.mgtUp = true) (caused : s.rollbackCause ≠ 0) (runs : s.upd.phase ≠ 0) :
    Completes .updRollback s (fun t => t.upd.phase = 6 ∧ t.upd.result = 4 ∧ t.upd.reason = s.rollbackCause ∧ t.upd.restartDue = true) := by
  obtain ⟨phase, result, reason, due, -⟩ := rollBack_at s s.rollbackCause true
  exact Completes.ok ((execUpdRollback_eq up caused).trans (congrArg ok (if_neg runs))) ⟨phase, result, reason, due⟩

theorem updRollback_reconciles {q : PeerStatus} {low : Rec1} (up : s.mgtUp = true) (caused : s.rollbackCause ≠ 0) (rest : s.upd.phase = 0)
    (peer : s.red.peerSt = some q) (lower : low = (if q.record.epoch < s.upd.rec1.epoch then q.record else s.upd.rec1)) :
    Completes .updRollback s (fun t => t.upd.rec1 = { low with state := 0, step := 0 } ∧ t.upd.result = 4 ∧
      t.upd.reason = s.rollbackCause ∧ t.upd.restartDue = decide (low.bank ≠ s.sys.bank)) := by
  have reconciled : s.reconcile s.rollbackCause = (s.modUpd (fun u => { u with recon := true })).rollTo { low with state := 0, step := 0 }
      s.rollbackCause (decide (low.bank ≠ s.sys.bank)) := by
    unfold State.reconcile
    rw [peer, lower]
  obtain ⟨-, result, reason, due, -, rec1⟩ := rollTo_at (s.modUpd (fun u => { u with recon := true })) { low with state := 0, step := 0 }
    s.rollbackCause (decide (low.bank ≠ s.sys.bank))
  refine Completes.ok ((execUpdRollback_eq up caused).trans (congrArg ok (if_pos rest))) ?_
  rw [reconciled]
  exact ⟨rec1, result, reason, due⟩

/-! ### The management restart (R346, R348) -/

/-- What a management restart changes before its image is judged: the bank that the record names, with the watchdog off. -/
def State.restartBegun (s : State) : State :=
  { s.readRec1 with
    sys := { s.readRec1.sys with mgmtRestart := true, bank := s.readRec1.upd.rec1.bank, wdtArmed := false }
    upd := { s.readRec1.upd with restartDue := false } }

theorem mgmtRestart_starts {i : ImageCheck} (vaon : s.aon.vaon = true) (on : s.sys.inReset = false) (open_ : s.gated .mgt = false)
    (past : 6 < s.sys.step) (booted : s.sys.step ≠ 15) (due : s.upd.restartDue = true)
    (free : (s.upd.phase = 6 && s.strap = .pair && s.sys.role = .active && s.linkOn && !s.peerIdle) = false) (image : s.imageOk i = true) :
    Completes (.mgmtRestart i) s (fun t => t.sys.mgmtRestart = true ∧ t.sys.wdtArmed = false ∧ t.upd.restartDue = false ∧
      t.sys.bank = t.upd.rec1.bank) := by
  have sys : (foldFin 4 s.restartBegun State.portReset).sys = s.restartBegun.sys :=
    foldFin_keep State.sys State.portReset (fun _ _ => step_portReset.frame .sys (by decide)) _
  have upd : (foldFin 4 s.restartBegun State.portReset).upd = s.restartBegun.upd :=
    foldFin_keep State.upd State.portReset (fun _ _ => step_portReset.frame .upd (by decide)) _
  have answer : exec (.mgmtRestart i) s = ok (foldFin 4 s.restartBegun State.portReset) := by
    change execMgmtRestart i s = _
    unfold execMgmtRestart
    extract_lets +onlyGivenNames waits
    have starts : waits = false := free
    rw [if_neg (by simp [vaon, on, open_, past, booted, due, starts])]
    exact if_pos image
  refine Completes.ok answer ?_
  rw [sys, upd]
  exact ⟨rfl, rfl, rfl, rfl⟩

/-- What its end changes at once; the reload of the configuration follows. -/
def State.restartEnded (s : State) : State :=
  { s with
    sys := { s.sys with mgmtRestart := false, wdtArmed := true, wdtAt := s.time }, aon := { s.aon with liveAt := s.time }
    upd := { s.upd with phase := if s.upd.phase = 6 then 0 else s.upd.phase } }

/-- The reload, what waits for the store and the beacon's events leave the watchdog, the restart and the update alone. -/
theorem reloaded_keeps (s : State) : sysView s.reload.nvpFlow.bcnFlush = sysView s ∧ s.reload.nvpFlow.bcnFlush.upd = s.upd := by
  have beacon : s.reload.nvpFlow.bcnFlush.sys = s.reload.nvpFlow.sys := step_bcnFlush.frame .sys (by decide)
  have store : s.reload.nvpFlow.sys = s.reload.sys := step_nvpFlow.frame .sys (by decide)
  have beaconUpd : s.reload.nvpFlow.bcnFlush.upd = s.reload.nvpFlow.upd := step_bcnFlush.frame .upd (by decide)
  have storeUpd : s.reload.nvpFlow.upd = s.reload.upd := step_nvpFlow.frame .upd (by decide)
  have reloadUpd : s.reload.upd = s.upd := step_reload.frame .upd (by decide)
  exact ⟨(sys_view (beacon.trans store)).trans (reload_view s), (beaconUpd.trans storeUpd).trans reloadUpd⟩

theorem mgmtRestartComplete_ends (vaon : s.aon.vaon = true) (runs : s.sys.mgmtRestart = true) (taken : s.upd.restartDue = false) :
    Completes .mgmtRestartComplete s (fun t => t.sys.mgmtRestart = false ∧ t.sys.wdtArmed = true ∧ t.sys.wdtAt = s.time ∧
      t.upd = { s.upd with phase := if s.upd.phase = 6 then 0 else s.upd.phase }) := by
  have answer : exec .mgmtRestartComplete s = ok s.restartEnded.reload.nvpFlow.bcnFlush := by
    change execMgmtRestartComplete s = _
    unfold execMgmtRestartComplete
    exact if_neg (by rw [vaon, runs, taken]; decide)
  obtain ⟨view, upd⟩ := reloaded_keeps s.restartEnded
  refine Completes.ok answer ?_
  generalize s.restartEnded.reload.nvpFlow.bcnFlush = t at view upd
  exact ⟨congrArg (fun v => v.1) view, congrArg (fun v => v.2.1) view, congrArg (fun v => v.2.2) view, upd⟩

/-- Settles O26: an operation that is accepted or refused says so in its answer; the rest comes to its own change of the update,
which the writes of the store and the events leave alone. -/
theorem updateComplete : Obligations.UpdateComplete := by
  unfold Obligations.UpdateComplete
  refine ⟨?begin_, ?beginRefused, ?chunk, ?chunkRefused, ?end_, ?endRefused, ?prepared, ?commit, ?commitRefused, ?own, ?committed, ?aborted,
    ?activate, ?step, ?abort, ?abortBack, ?restart, ?restarted, ?trial, ?rollback, ?reconcile, ?slot⟩
  case begin_ =>
    intro s hst mgt mine phase drill
    refine completes_updHost_eq hst mgt rfl (updBegin_accepted mine phase drill) ?_
    rw [carryStep_upd]
    exact ⟨rfl, rfl, rfl, rfl⟩
  case beginRefused =>
    intro s hst mgt phase
    exact completes_updHost_eq hst mgt rfl (updBegin_refused phase) ⟨rfl, Raises.one rfl⟩
  case chunk =>
    intro s m off bytes pkg hst mgt mine phase open_ man at_ last later inside is whole waits
    subst whole at_
    have kept := carryStep_upd s (.chunk (s.fld F.UPD_CHUNK.off) bytes)
    have pkg : (s.carryStep (.chunk (s.fld F.UPD_CHUNK.off) bytes)).upd.pkg = s.upd.pkg := by rw [kept]
    refine completes_updHost_eq hst mgt rfl
      ((updChunk_next mine phase open_ last later inside is).trans (updTake_waits (by rw [kept]; exact man) ?_)) ?_
    · rw [kept]
      exact waits
    · exact congrArg (fun held => { (s.carryStep (.chunk (s.fld F.UPD_CHUNK.off) bytes)).upd with
        pkg := held ++ bytes, lastOff := some (s.fld F.UPD_CHUNK.off) }) pkg
  case chunkRefused =>
    intro s hst mgt phase
    exact completes_updHost_eq hst mgt rfl (updChunk_refused phase) rfl
  case end_ =>
    intro s m hst mgt mine phase open_ man whole hashes
    exact completes_updHost hst mgt rfl (updEnd_verified mine phase open_ man whole hashes)
  case endRefused =>
    intro s hst mgt phase
    exact completes_updHost_eq hst mgt rfl (updEnd_refused phase) rfl
  case prepared =>
    intro s mgt phase ending relays peer
    exact prepareComplete_verified mgt phase ending relays peer
  case commit =>
    intro s hst mgt mine booted phase idle drill free
    exact completes_updHost_eq hst mgt rfl ((updCommit_judged mine booted drill phase idle).trans (if_neg (not_not.2 free)))
      (carry_mod s (fun u => { u with committing := true, ownWrite := false }) .commit)
  case commitRefused =>
    intro s hst mgt mine booted phase idle drill refused
    exact completes_updHost_eq hst mgt rfl ((updCommit_judged mine booted drill phase idle).trans (if_pos refused)) rfl
  case own =>
    intro ok s m man mgt phase committing first peer waits
    exact commitWritesDone_own man mgt phase committing first peer waits
  case committed =>
    intro ok s m man mgt phase committing own placed
    exact commitWritesDone_committed man mgt phase committing own placed
  case aborted =>
    intro s m man mgt phase committing first pair active
    exact commitWritesDone_aborted man mgt phase committing first pair active
  case activate =>
    intro s hst mgt mine booted phase drill free
    exact completes_updHost_eq hst mgt rfl (updActivate_accepted mine booted drill phase free)
      (carry_mod s (fun u => { u with phase := 4, step := 0, drillAsked := false, drillMine := false }) .activate)
  case step =>
    intro s up phase hu mine step
    exact activationStep_first up phase hu mine step
  case abort =>
    intro s hst mgt mine phase
    exact completes_updHost_eq hst mgt rfl (updAbortOp_prepare mine phase) (updAbort_at s 0x13 0)
  case abortBack =>
    intro s hst mgt mine phase
    obtain ⟨phase', result, reason, due, counted⟩ := rollBack_at s 0x13 true
    exact completes_updHost_eq hst mgt rfl (updAbortOp_committed mine phase) ⟨phase', result, reason, due, counted⟩
  case restart =>
    intro i s vaon on open_ past booted due free image
    exact mgmtRestart_starts vaon on open_ past booted due free image
  case restarted =>
    intro s vaon runs taken
    exact mgmtRestartComplete_ends vaon runs taken
  case trial =>
    intro s a from_ mgt phase mine run
    exact trialEnd_confirms from_ mgt phase mine run
  case rollback =>
    intro s up caused runs
    exact updRollback_rolls up caused runs
  case reconcile =>
    intro s q low up caused rest peer lower
    exact updRollback_reconciles up caused rest peer lower
  case slot =>
    intro k s a act mgt phase todo late
    exact slotActivateTimeout_last act mgt phase todo late

end Sys2Proof.Machine
end
